-- ==== Sys2Proof/Word.lean ====
section
/-!
DEFINITION. The words of the NV-192: bytes, 32-bit and 64-bit register words, and the
association tables that hold sparse state.  Nothing here says what the machine does.
-/
namespace Sys2Proof

/-- One byte of storage. -/
abbrev Byte := BitVec 8

/-- A 32-bit register word (vector, uniform and predicate registers). -/
abbrev Word := BitVec 32

/-- A sparse table keyed by a number: keys strictly rising, no entry equal to the default. -/
abbrev Tbl (α : Type) := List (Nat × α)

end Sys2Proof
end

