-- ==== Sys2Proof/Syntax/Operands.lean ====
section
/-!
DEFINITION. The shapes of the commands' operands: the bits of a core instruction that its mnemonic leaves
free, and the records that come from outside the block (host commands' bytes, packets, completions).
-/
namespace Sys2Proof

/-- R97, R99: every bit of a core instruction's word but CLASS and OP[4:0]: OP[5], the operand kind bits,
the guard, and bits [44:0]. -/
structure InstrBits where
  op5 : Bool
  du : Bool
  au : Bool
  bu : Bool
  cu : Bool
  gen : Bool
  gneg : Bool
  gp : BitVec 3
  low : BitVec 45
  deriving DecidableEq, Repr

/-- An instruction word with every free bit clear. -/
def InstrBits.zero : InstrBits := ⟨false, false, false, false, false, false, false, 0, 0⟩

/-- R342: the host's PRI control: PRI Enable, and the Outstanding Page Request Allocation. -/
structure PriControl where
  enable : Bool
  alloc : Nat
  deriving DecidableEq, Repr

/-- R341: what ends an ATS Translation Request. -/
inductive AtsStatus where
  | success
  | unsupportedRequest
  | completerAbort
  deriving DecidableEq, Repr

/-- R342: the host's answer to a Page Request Group. -/
inductive PriCode where
  | success
  | invalidRequest
  | responseFailure
  deriving DecidableEq, Repr

/-- R440, R444: how a host read or atomic request of the device ends. -/
inductive HostStatus where
  | success
  | unsupportedRequest
  | completerAbort
  | timeout
  deriving DecidableEq, Repr

/-- R270: whether an uncached write or read carries a charge hint, and the hint's bits (R278). -/
abbrev Hint := Nat

/-- R225: one claim of a cycle: the cluster's core, its course slot, the lane and the destination register;
`core` 12 stands for the control core. -/
structure PoolClaim where
  core : Nat
  slot : Nat
  lane : Nat
  dst : Nat
  deriving DecidableEq, Repr

/-- R561: one marker claim of a cycle: the core, its course slot, the lane, and the destination register. -/
structure LineClaim where
  core : Nat
  slot : Nat
  lane : Nat
  dst : Nat
  deriving DecidableEq, Repr

/-- The kinds of packet a DATA frame carries (R391, R410). -/
inductive PacketKind where
  | rdReq | rdRsp | wr | wrAck | atomReq | atomRsp | semSig | credit | fretFull | schedAbort
  deriving DecidableEq, Repr

/-- A packet of the Amtox fabric (R391): its kind, virtual lane, source and destination device, tag, inbound
window, offset, lengths, status and payload. -/
structure Packet where
  kind : PacketKind
  vl : Nat
  src : Nat
  dst : Nat
  tag : Nat
  iwin : Nat
  offset : Nat
  len : Nat
  aux : Nat
  status : Nat
  sub : Nat
  payload : List Byte
  cred : Nat               -- the CREDIT field: virtual lane in [1:0], cells above (R390)
  deriving DecidableEq, Repr

end Sys2Proof
end

