-- ==== Sys2Proof/Syntax.lean ====
section
/-!
DEFINITION. The commands of the block, one constructor per row of the spec's table of operations and events
(opcode_table.json).  Operands that come from outside the block (host data, sensor values, packets, training
outcomes) are carried by the command.
-/
namespace Sys2Proof

/-- One command: one row of the table with its operands. -/
inductive Instr where
  /-- TAIL (R32): A host write to a queue's doorbell TAIL records the latest host count of entries, coalescing
  with earlier writes. -/
  | tail (q : Nat) (off : Nat) (size : Nat) (value : Nat)
  /-- COMMAND_FETCH (R484): Scheduler firmware fetches a command from a queue ring, copies it and writes QUEUED to
  its status record. -/
  | commandFetch (q : Nat) (status : HostStatus) (entry : List Byte)
  /-- MAIN_LOOP_PASS (R471): A firmware processor runs one bounded pass of its polling main loop and restarts its
  watchdog. -/
  | mainLoopPass (proc : Nat) (us : Nat)
  /-- SCH_Q_CFG_WRITE (R29): A write to SCH_Q_CFG enables, pauses or configures a queue, ignoring locked fields
  while ENABLE is 1 and setting CFG_ERR on a bad enable. -/
  | schQCfgWrite (q : Nat) (be : Nat) (value : Nat)
  /-- QUEUE_RESET (R35): Setting RESET in SCH_Q_CTL stops fetching, ends started commands as on budget expiry and
  aborts fetched ones with HOST_RESET. -/
  | queueReset (q : Nat)
  /-- REGEN (R542): SEC_KEY_CTL REGEN cryptographically erases one key selector. -/
  | regen (selector : Nat)
  /-- CRU_WAY_LOCK_WRITE (R245): A write to CRU_WAY_LOCK changes which crucible ways take only directed fills. -/
  | cruWayLockWrite (value : Nat)
  /-- REGISTER_WRITE (R9): A write to a register without a row of its own updates fields by their access types. -/
  | registerWrite (off : Nat) (size : Nat) (value : Nat)
  /-- QUEUE_RESET_COMPLETE (R35): Once the queue's started command has ended, HEAD is set to the last in-range
  TAIL and RESET and RESET_BUSY clear. -/
  | queueResetComplete (q : Nat)
  /-- LAUNCH (R55): A LAUNCH starts in a casting slot: checks, pin pour on the root line, riser resolution and
  hand-off of command streams to control cores. -/
  | launch (q : Nat) (slot : Nat) (riser : List Nat)
  /-- PREFETCH (R53): While a slot's casting runs, scheduler firmware prefetches the next casting's command,
  header, segments and direct riser fields. -/
  | prefetch (slot : Nat) (q : Nat)
  /-- CASTING_COMPLETE (R24): When every cluster has ended its part and every write is complete, the scheduler
  writes the final status record and unpins the version. -/
  | castingComplete (slot : Nat)
  /-- PATCH (R56): PATCH builds a new version header and segment table, checks it and publishes it with one pour
  on the root line. -/
  | patch (q : Nat) (entries : List Byte)
  /-- MIGRATE (R347): MIGRATE copies a range in 2 MiB chunks on sph channels, up to 16 in flight. -/
  | migrate (q : Nat)
  /-- MIGRATE_CHUNK_COMPLETE (R347): A MIGRATE chunk completes at its endpoint; when all are complete the command
  ends DONE. -/
  | migrateChunkComplete (q : Nat) (chunk : Nat)
  /-- TRANSLATE (R345): ADVISE TRANSLATE places translations of every page of a range in the crucible translation
  cache. -/
  | translate (q : Nat)
  /-- PIN (R345): ADVISE PIN translates a range and sets PINNED in each entry, ending with PIN_FULL at the limit. -/
  | pin (q : Nat)
  /-- UNPIN (R345): ADVISE UNPIN clears PINNED in the context's entries in a range. -/
  | unpin (q : Nat)
  /-- PRELOAD (R345): ADVISE PRELOAD reads every device-memory line of a range and places it under the charge
  hint. -/
  | preload (q : Nat)
  /-- INVALIDATE_RANGE (R352): INVALIDATE RANGE removes matching translations of a context range and waits for
  accesses that used them. -/
  | invalidateRange (q : Nat)
  /-- INVALIDATE_CONTEXT (R352): INVALIDATE CONTEXT removes every translation of one context and waits for
  accesses that used them. -/
  | invalidateContext (q : Nat)
  /-- INVALIDATE_ALL (R352): INVALIDATE ALL removes every cached translation and waits for accesses that used
  them. -/
  | invalidateAll (q : Nat)
  /-- INVALIDATE_OUTBOUND (R352): INVALIDATE OUTBOUND waits for every access that used the named outbound windows. -/
  | invalidateOutbound (q : Nat)
  /-- INVALIDATE_INBOUND (R352): INVALIDATE INBOUND waits for every access that used the named inbound windows. -/
  | invalidateInbound (q : Nat)
  /-- INVALIDATE_WAIT_DONE (R352): The accesses an INVALIDATE waits for have finished and it writes DONE. -/
  | invalidateWaitDone (q : Nat)
  /-- FENCE (R43): A FENCE command starts and waits until each named queue's command and earlier ones have reached
  a final state. -/
  | fence (q : Nat)
  /-- FENCE_SATISFIED (R43): Every wait of a FENCE command is satisfied and it completes. -/
  | fenceSatisfied (q : Nat)
  /-- SEMA_WAIT (R44): A SEMA WAIT command starts waiting until the semaphore is at least VALUE. -/
  | semaWait (q : Nat)
  /-- SEMA_WAIT_SATISFIED (R44): The semaphore reaches the SEMA WAIT value and the command completes. -/
  | semaWaitSatisfied (q : Nat)
  /-- SEMA_SIGNAL (R44): A SEMA SIGNAL command adds VALUE to a crucible semaphore modulo 2^32. -/
  | semaSignal (q : Nat)
  /-- BUDGET_EXPIRY (R59): A command's budget expires and scheduler firmware orders every engine of the command to
  drain. -/
  | budgetExpiry (q : Nat)
  /-- ENGINES_DRAINED (R59): Every engine of an expired command has stopped and the command ends TIMEOUT_DRAINED. -/
  | enginesDrained (q : Nat)
  /-- DRAIN_KILL (R59): 100 us after budget expiry engines still running are killed and reset and the command ends
  TIMEOUT_KILLED. -/
  | drainKill (q : Nat) (last : Nat)
  /-- STREAM_COMMAND_PLACE (R199): The control core reads the next stream command header and places the command in
  its queue, or stops placement on a bad header. -/
  | streamCommandPlace (cl : Nat)
  /-- NOP (R198): A NOP stream command starts and completes with no effect. -/
  | nop (cl : Nat)
  /-- END (R202): END ends the cluster's part of the casting once every queue's commands have completed. -/
  | endStream (cl : Nat)
  /-- NODE_DONE (R202): NODE_DONE completes when the node's earlier commands and core writes are complete, and the
  cluster reports the node. -/
  | nodeDone (cl : Nat)
  /-- SEM_WAIT (R204): A SEM_WAIT stream command waits until a semaphore at its home slice reaches VALUE. -/
  | semWait (cl : Nat)
  /-- SEM_SIGNAL (R204): A SEM_SIGNAL stream command adds VALUE to a semaphore after earlier CTL commands
  complete. -/
  | semSignal (cl : Nat)
  /-- TUNCFG (R189): TUNCFG changes way modes, locks and pools as one pour on the TUN shadow registers, writing
  back converted ways. -/
  | tuncfg (cl : Nat)
  /-- CONSORTS (R201): A CONSORTS command checks its launch descriptor, invalidates named L1s and begins placing
  consorts. -/
  | consorts (cl : Nat)
  /-- CONSORT_PLACE (R76): The control core places a consort on a core with room once resources free, returning
  consorts first. -/
  | consortPlace (cl : Nat)
  /-- SPRUE (R365): A SPRUE stream command claims its metered channel and starts a transfer. -/
  | sprue (cl : Nat)
  /-- TSE (R208): A TSE command applies a transcendental, polynomial or softmax function to rows. -/
  | tse (cl : Nat)
  /-- GSE (R211): A GSE command gathers, scatters, gather-sums or scatter-adds table rows by index. -/
  | gse (cl : Nat)
  /-- REDUCE (R213): REDUCE folds a contribution list in list order after each entry's semaphore wait and writes
  DST. -/
  | reduce (cl : Nat)
  /-- SEND (R214): SEND copies scratch bytes to a virtual address, usually through an outbound window, and signals
  a semaphore after delivery. -/
  | send (cl : Nat)
  /-- UFE (R216): A UFE command permutes dimensions or unfolds an image tensor. -/
  | ufe (cl : Nat)
  /-- SKE (R218): An SKE command writes the top K elements of each row, or a full sort. -/
  | ske (cl : Nat)
  /-- FCE (R221): An FCE command converts elements between tensor formats, generating shared scales. -/
  | fce (cl : Nat)
  /-- ENGINE_COMMAND_COMPLETE (R200): A stream command finishes its work with every write complete at its
  endpoint. -/
  | engineCommandComplete (cl : Nat) (qi : Nat)
  /-- POOL_CLAIM (R225): An LD.V of a pool's CLAIM word claims a free block by rank or returns ALLOC_BUSY. -/
  | poolClaim (cl : Nat) (pool : Nat) (claims : List PoolClaim)
  /-- POOL_RELEASE (R224): A store of a block number to RELEASE frees the block, setting POOL_ERR if it was not
  claimed. -/
  | poolRelease (cl : Nat) (pool : Nat) (agent : Nat) (block : Nat)
  /-- SUBMIT_GO (R366): An LD.V of a submit line's GO word checks the staged descriptor and claims the sprue
  channel. -/
  | submitGo (cl : Nat) (ch : Nat) (claims : List LineClaim)
  /-- MARKER (R561): An LD.V of a marker line places the core's marker in the trace FIFO or returns ALLOC_BUSY. -/
  | marker (cl : Nat) (claims : List LineClaim)
  /-- IADD (R105): 32-bit integer add on active lanes. -/
  | iadd (g : Nat) (slot : Nat) (b : InstrBits)
  /-- ISUB (R105): 32-bit integer subtract. -/
  | isub (g : Nat) (slot : Nat) (b : InstrBits)
  /-- IMUL (R105): 32-bit integer multiply, low word. -/
  | imul (g : Nat) (slot : Nat) (b : InstrBits)
  /-- IMULHI (R105): 32-bit integer multiply, high word, signed or unsigned. -/
  | imulhi (g : Nat) (slot : Nat) (b : InstrBits)
  /-- IMAD (R105): 32-bit integer multiply-add. -/
  | imad (g : Nat) (slot : Nat) (b : InstrBits)
  /-- AND (R105): Bitwise AND. -/
  | andOp (g : Nat) (slot : Nat) (b : InstrBits)
  /-- OR (R105): Bitwise OR. -/
  | orOp (g : Nat) (slot : Nat) (b : InstrBits)
  /-- XOR (R105): Bitwise XOR. -/
  | xorOp (g : Nat) (slot : Nat) (b : InstrBits)
  /-- SHL (R105): Shift left by B[4:0]. -/
  | shl (g : Nat) (slot : Nat) (b : InstrBits)
  /-- SHR (R105): Shift right, logical or arithmetic. -/
  | shr (g : Nat) (slot : Nat) (b : InstrBits)
  /-- IMIN (R105): Integer minimum, signed or unsigned. -/
  | imin (g : Nat) (slot : Nat) (b : InstrBits)
  /-- IMAX (R105): Integer maximum, signed or unsigned. -/
  | imax (g : Nat) (slot : Nat) (b : InstrBits)
  /-- POPC (R105): Population count of A. -/
  | popc (g : Nat) (slot : Nat) (b : InstrBits)
  /-- CLZ (R105): Count leading zeros or leading sign bits of A. -/
  | clz (g : Nat) (slot : Nat) (b : InstrBits)
  /-- IADD64 (R105): 64-bit add on register pairs. -/
  | iadd64 (g : Nat) (slot : Nat) (b : InstrBits)
  /-- FADD (R106): FP32 or packed FP16/BF16 add rounded per RM. -/
  | fadd (g : Nat) (slot : Nat) (b : InstrBits)
  /-- FMUL (R106): FP32 or packed FP16/BF16 multiply. -/
  | fmul (g : Nat) (slot : Nat) (b : InstrBits)
  /-- FFMA (R106): FP32 or packed FP16/BF16 fused multiply-add. -/
  | ffma (g : Nat) (slot : Nat) (b : InstrBits)
  /-- FMIN (R106): IEEE minimumNumber. -/
  | fmin (g : Nat) (slot : Nat) (b : InstrBits)
  /-- FMAX (R106): IEEE maximumNumber. -/
  | fmax (g : Nat) (slot : Nat) (b : InstrBits)
  /-- FRCP (R105): Correctly rounded FP32 reciprocal. -/
  | frcp (g : Nat) (slot : Nat) (b : InstrBits)
  /-- FSQRT (R105): Correctly rounded FP32 square root. -/
  | fsqrt (g : Nat) (slot : Nat) (b : InstrBits)
  /-- DADD (R106): Binary64 add on pairs. -/
  | dadd (g : Nat) (slot : Nat) (b : InstrBits)
  /-- DMUL (R106): Binary64 multiply. -/
  | dmul (g : Nat) (slot : Nat) (b : InstrBits)
  /-- DFMA (R106): Binary64 fused multiply-add. -/
  | dfma (g : Nat) (slot : Nat) (b : InstrBits)
  /-- DMIN (R106): Binary64 minimumNumber. -/
  | dmin (g : Nat) (slot : Nat) (b : InstrBits)
  /-- DMAX (R106): Binary64 maximumNumber. -/
  | dmax (g : Nat) (slot : Nat) (b : InstrBits)
  /-- F2I (R178): Float to integer conversion in RM mode. -/
  | f2i (g : Nat) (slot : Nat) (b : InstrBits)
  /-- I2F (R178): Integer to float conversion in RM mode. -/
  | i2f (g : Nat) (slot : Nat) (b : InstrBits)
  /-- F2F (R178): Float to float conversion under IEEE 754. -/
  | f2f (g : Nat) (slot : Nat) (b : InstrBits)
  /-- PACKN (R597): Converts E FP32 registers divided by a scale into one packed narrow word, optionally
  stochastically. -/
  | packn (g : Nat) (slot : Nat) (b : InstrBits)
  /-- UNPACKN (R597): Decodes a packed narrow word into E FP32 registers multiplied by a scale. -/
  | unpackn (g : Nat) (slot : Nat) (b : InstrBits)
  /-- ICMP (R105): Integer compare combined into a predicate. -/
  | icmp (g : Nat) (slot : Nat) (b : InstrBits)
  /-- FCMP (R106): Quiet floating-point compare combined into a predicate. -/
  | fcmp (g : Nat) (slot : Nat) (b : InstrBits)
  /-- PLOP (R105): Predicate logic by truth table. -/
  | plop (g : Nat) (slot : Nat) (b : InstrBits)
  /-- SEL (R105): Select A or B by predicate. -/
  | sel (g : Nat) (slot : Nat) (b : InstrBits)
  /-- MOV (R105): Register copy. -/
  | mov (g : Nat) (slot : Nat) (b : InstrBits)
  /-- MOVI (R105): Load a 32-bit immediate. -/
  | movi (g : Nat) (slot : Nat) (b : InstrBits)
  /-- MOV_SR (R107): Read a special register, waiting for earlier flag-setting instructions when reading the ASW. -/
  | movSr (g : Nat) (slot : Nat) (b : InstrBits)
  /-- MOV_SW (R109): Write the ASW special register. -/
  | movSw (g : Nat) (slot : Nat) (b : InstrBits)
  /-- SHFL (R105): Lane shuffle by index, up, down or xor. -/
  | shfl (g : Nat) (slot : Nat) (b : InstrBits)
  /-- VOTE (R105): Uniform mask of active lanes whose predicate is 1. -/
  | vote (g : Nat) (slot : Nat) (b : InstrBits)
  /-- BRA (R80): Relative branch, pushing a reconvergence entry on divergence. -/
  | bra (g : Nat) (slot : Nat) (b : InstrBits)
  /-- BRX (R80): Indirect branch grouping lanes by target. -/
  | brx (g : Nat) (slot : Nat) (b : InstrBits)
  /-- EXIT (R70): Guarded lanes exit; a course or consort whose lanes have all exited frees its resources. -/
  | exit (g : Nat) (slot : Nat) (b : InstrBits)
  /-- BAR (R83): A course arrives at its consort barrier. -/
  | bar (g : Nat) (slot : Nat) (b : InstrBits)
  /-- LD (R110): Load from global memory or consort memory. -/
  | ld (g : Nat) (slot : Nat) (b : InstrBits)
  /-- ST (R114): Store, written through the L1 to the tundish. -/
  | st (g : Nat) (slot : Nat) (b : InstrBits)
  /-- LD_V (R113): Volatile load at the line's point of coherence. -/
  | ldV (g : Nat) (slot : Nat) (b : InstrBits)
  /-- PREF (R114): Prefetch lines into the L1 or tundish without faulting. -/
  | pref (g : Nat) (slot : Nat) (b : InstrBits)
  /-- ATOM (R116): Atomic read-modify-write, near, far, on scratch or as a PCIe AtomicOp. -/
  | atom (g : Nat) (slot : Nat) (b : InstrBits)
  /-- LD_RSV (R117): Load and set a per-lane reservation on the line. -/
  | ldRsv (g : Nat) (slot : Nat) (b : InstrBits)
  /-- ST_CND (R117): Conditional store for lanes still holding a reservation. -/
  | stCnd (g : Nat) (slot : Nat) (b : InstrBits)
  /-- SEM_SIG (R118): FENCE.REL then add to a crucible semaphore. -/
  | semSig (g : Nat) (slot : Nat) (b : InstrBits)
  /-- SEM_RD (R118): Read a semaphore at its home slice. -/
  | semRd (g : Nat) (slot : Nat) (b : InstrBits)
  /-- FENCE_ORD (R119): Order later accesses of the course after earlier ones. -/
  | fenceOrd (g : Nat) (slot : Nat) (b : InstrBits)
  /-- FENCE_ACQ (R119): Wait for earlier loads, then invalidate the core's L1. -/
  | fenceAcq (g : Nat) (slot : Nat) (b : InstrBits)
  /-- FENCE_REL (R119): Wait until earlier stores are accepted at their coherent level. -/
  | fenceRel (g : Nat) (slot : Nat) (b : InstrBits)
  /-- FENCE_DONE (R119): Wait until earlier writes are complete at their endpoints. -/
  | fenceDone (g : Nat) (slot : Nat) (b : InstrBits)
  /-- POUR_BEGIN (R120): Open a pour, taking the ladle or failing with ALLOC_BUSY, and request the token in serial
  mode. -/
  | pourBegin (g : Nat) (slot : Nat) (b : InstrBits)
  /-- POUR_END (R314): Commit a pour: wait for loads, then lock ladle lines in global order. -/
  | pourEnd (g : Nat) (slot : Nat) (b : InstrBits)
  /-- POUR_ABORT (R120): Abort the pour with reason EXPLICIT. -/
  | pourAbort (g : Nat) (slot : Nat) (b : InstrBits)
  /-- HSEQ (R127): Issue an HSEQ long instruction, checking the descriptor when FRESH. -/
  | hseq (g : Nat) (slot : Nat) (b : InstrBits)
  /-- TMOV (R128): Issue a TMOV long instruction moving rows. -/
  | tmov (g : Nat) (slot : Nat) (b : InstrBits)
  /-- RSEQ (R129): Issue an RSEQ long instruction reducing rows in order. -/
  | rseq (g : Nat) (slot : Nat) (b : InstrBits)
  /-- LONG_UNIT_COMPLETE (R124): A long instruction completes one unit, advances POS and stops if requested or
  finishes with PHASE DONE. -/
  | longUnitComplete (g : Nat) (slot : Nat) (stop : Nat)
  /-- HARP_K_STEP_ISSUE (R135): A K-step issues when every active queue holds its element and scale. -/
  | harpKStepIssue (g : Nat)
  /-- HZERO (R130): Issue HZERO to clear a tile. -/
  | hzero (g : Nat) (slot : Nat) (b : InstrBits)
  /-- HZERO_COMPLETE (R130): The tile clear finishes and the tile returns to IDLE. -/
  | hzeroComplete (g : Nat) (tile : Nat)
  /-- HDRAIN (R148): Issue HDRAIN to drain a tile through the drain path. -/
  | hdrain (g : Nat) (slot : Nat) (b : InstrBits)
  /-- HDRAIN_COMPLETE (R149): A drain finishes writing its rows and scales. -/
  | hdrainComplete (g : Nat)
  /-- SWITCH_OUT (R92): A page fault or scheduler move stops the consort's courses and starts saving its image. -/
  | switchOut (g : Nat) (cs : Nat) (cause : Nat)
  /-- CONSORT_IMAGE_WRITTEN (R92): The consort image is written to the save area and its resources are freed. -/
  | consortImageWritten (g : Nat) (cs : Nat)
  /-- SWITCH_IN (R94): After a successful page response the consort is retranslated and restored on a core with
  room. -/
  | switchIn (src : Nat) (image : Nat) (g : Nat)
  /-- PRI_RESPONSE (R342): The host's page response arrives and decides the waiting agent's outcome. -/
  | priResponse (group : Nat) (code : PriCode)
  /-- ATS_COMPLETION (R341): An ATS translation completion arrives and is cached or faults. -/
  | atsCompletion (ctx : Nat) (va : Nat) (write : Bool) (status : AtsStatus) (ta : Nat) (sizeLog2 : Nat) (rd : Bool) (wr : Bool)
  /-- ATS_INVALIDATE_REQUEST (R353): A host ATS Invalidate Request removes matching entries and is completed after
  waiting. -/
  | atsInvalidateRequest (ctx : Nat) (va : Nat) (sizeLog2 : Nat)
  /-- RD_SHR (R273): Read-for-sharing request processed at the home. -/
  | rdShr (can : Nat) (dpa : Nat)
  /-- RD_OWN (R273): Read-for-ownership request processed at the home. -/
  | rdOwn (can : Nat) (dpa : Nat) (whole : Bool)
  /-- UPG (R273): Upgrade request for a line already held. -/
  | upg (can : Nat) (dpa : Nat)
  /-- RD_CUR (R273): Read the current value without caching. -/
  | rdCur (agent : Nat) (dpa : Nat) (hint : Nat)
  /-- WR_FULL (R273): Uncached full-line write, clearing poison. -/
  | wrFull (agent : Nat) (dpa : Nat) (data : List Byte) (hint : Nat)
  /-- WR_PART (R273): Uncached partial write under byte enables. -/
  | wrPart (agent : Nat) (dpa : Nat) (be : Nat) (data : List Byte) (hint : Nat)
  /-- WB (R273): Write back dirty data and give up the line. -/
  | wb (can : Nat) (dpa : Nat)
  /-- EV (R273): Give up a clean line. -/
  | ev (can : Nat) (dpa : Nat)
  /-- HOME_ATOM (R281): A near or far atomic message runs at the home slice or controller. -/
  | homeAtom (agent : Nat) (dpa : Nat) (far : Bool) (aop : Nat) (size : Nat) (operand : Nat) (compare : Nat)
  /-- SNP_SHR (R272): Snoop asking the owner to send data and go to S. -/
  | snpShr (can : Nat) (loc : Nat)
  /-- SNP_FWD (R272): Snoop asking the forwarder to send data and go to S. -/
  | snpFwd (can : Nat) (loc : Nat)
  /-- SNP_INV (R272): Snoop asking a holder to go to I. -/
  | snpInv (can : Nat) (loc : Nat)
  /-- SNP_CUR (R272): Snoop asking the owner for current data without a state change. -/
  | snpCur (can : Nat) (loc : Nat)
  /-- SNOOP_ANSWER (R273): A holder's snoop answer reaches the home, which may end the transaction and answer the
  requester. -/
  | snoopAnswer (can : Nat) (loc : Nat)
  /-- PEG_TIME_EXPIRY (R275): The peg time after a grant passes and held snoops are sent. -/
  | pegTimeExpiry (loc : Nat)
  /-- ESCALATED_HOLD_EXPIRY (R276): An escalated LD.RSV hold ends at ST.CND or after 1,024 FCLK cycles. -/
  | escalatedHoldExpiry (loc : Nat)
  /-- HOME_TIMEOUT (R282): A silent holder misses the home timeout and the line is poisoned. -/
  | homeTimeout (can : Nat) (loc : Nat)
  /-- LOCK_REQUEST (R315): A pour's lock request reaches a home, which snoops holders and locks the line. -/
  | lockRequest (g : Nat)
  /-- LOCK_GRANT (R316): A lock grant reaches the core; the last one is the commit point. -/
  | lockGrant (g : Nat)
  /-- POUR_PUBLISH (R317): A staged ladle line reaches its home, is merged and unlocked. -/
  | pourPublish (g : Nat)
  /-- POUR_PUBLISH_DONE (R317): Every home has acknowledged and POUR.END completes OK. -/
  | pourPublishDone (g : Nat)
  /-- LOCK_TO (R316): LOCK_TO expires before the commit point and the pour releases its locks and aborts CONFLICT. -/
  | lockTo (g : Nat)
  /-- TOKEN_GRANT (R323): The crucible grants the pour token once no pour is in its lock phase. -/
  | tokenGrant (agent : Nat)
  /-- TOKEN_TO (R323): A token holder misses TOKEN_TO and aborts PREEMPT, releasing locks and token. -/
  | tokenTo
  /-- COMMIT (R328): SHD_CTL COMMIT copies the shadow group into the live set if EXPECT equals GEN. -/
  | commit (group : Nat) (inst : Nat) (value : Nat)
  /-- DISCARD (R330): SHD_CTL DISCARD copies the live set into the shadow and clears DIRTY. -/
  | discard (group : Nat) (inst : Nat) (value : Nat)
  /-- PENDING_COMMIT_APPLY (R328): A pending commit is applied when the group's clock domain restarts. -/
  | pendingCommitApply (cl : Nat)
  /-- GO (R368): SPR_CH_CTL GO starts a host or firmware transfer from SPR_CH_DESC0-7. -/
  | go (fw : Bool) (e : Nat) (ch : Nat)
  /-- STOP (R378): SPR_CH_CTL STOP drains a host-started transfer. -/
  | stop (e : Nat) (ch : Nat)
  /-- HOST_STOP_KILL (R378): A stopped channel not stopped within 100 us is killed and reports TIMEOUT_KILLED,
  HOST_STOP. -/
  | hostStopKill (e : Nat) (ch : Nat)
  /-- SPRUE_CLAIM_RETRY (R367): A SPRUE command that lost its claim retries every 1 us. -/
  | sprueClaimRetry (cl : Nat)
  /-- TRANSFER_COMPLETE (R371): A sprue transfer's reads and write responses have all returned and it writes its
  status word. -/
  | transferComplete (e : Nat) (ch : Nat)
  /-- LEADER_WORD0 (R374): Once every stripe has written its word the leader writes word 0 with the bitmap and
  outcome. -/
  | leaderWord0 (e : Nat) (ch : Nat)
  /-- GANG_COMMIT (R327): Once every stripe has staged, the gang leader locks all destination lines and orders
  publication. -/
  | gangCommit (e : Nat) (ch : Nat)
  /-- BUS_ERROR_RESPONSE (R377): An error response stops every channel of the sprue engine. -/
  | busErrorResponse (e : Nat) (ch : Nat) (write : Bool) (code : Nat) (sub : Nat)
  /-- ENGINE_STOP_CLEAR (R377): The engine clears STOPPED within 2 us and waiting starts proceed. -/
  | engineStopClear (e : Nat)
  /-- DATA_FRAME (R394): A DATA frame is received, its cells delivered and ACK/NAK acted on. -/
  | dataFrame (port : Nat) (good : Bool) (seq : Nat) (ack : Nat) (nak : Bool) (trig : Bool) (strV : Bool) (strF : Nat) (packets : List Packet)
  /-- REPLAY_TIMEOUT (R394): ACK unchanged for 1 us with frames outstanding triggers a resend. -/
  | replayTimeout (port : Nat)
  /-- MARK_FRAME (R399): A follower receives a MARK and corrects its next fret boundary. -/
  | markFrame (port : Nat) (fret8 : Nat) (delay : Nat) (arrival : Int)
  /-- TRAIN_FRAME (R413): A TRAIN frame message (HELLO, DELAY_REQ, DELAY_RSP, READY, SELFTEST) is received. -/
  | trainFrame (port : Nat) (msg : Nat) (role : Nat) (dev : Nat) (plane : Nat) (t1 : Nat) (t2 : Nat) (t3 : Nat) (t4 : Nat)
  /-- IDLE (R389): An IDLE packet is received. -/
  | idle (port : Nat)
  /-- RD_REQ (R410): A window read request is received, checked and answered. -/
  | rdReq (port : Nat) (p : Packet)
  /-- RD_RSP (R410): A read response completes a window load. -/
  | rdRsp (port : Nat) (p : Packet)
  /-- WR (R410): A window or scheduled write is received and performed. -/
  | wr (port : Nat) (p : Packet)
  /-- WR_ACK (R410): A write acknowledgement completes a window write. -/
  | wrAck (port : Nat) (p : Packet)
  /-- ATOM_REQ (R410): A window atomic is received and performed at the home. -/
  | atomReq (port : Nat) (p : Packet)
  /-- ATOM_RSP (R410): An atomic response completes a window atomic. -/
  | atomRsp (port : Nat) (p : Packet)
  /-- SEM_SIG_PACKET (R214): A semaphore signal packet adds its value at the receiver. -/
  | semSigPacket (port : Nat) (p : Packet)
  /-- CREDIT (R393): A CREDIT packet returns cell credits for a virtual lane. -/
  | credit (port : Nat) (p : Packet)
  /-- FRET_FULL (R400): A FRET_FULL packet gives the full counter, period and stretch quantum. -/
  | fretFull (port : Nat) (p : Packet)
  /-- SCHED_ABORT (R409): A SCHED_ABORT ends the matching running casting with PEER_ABORTED and is remembered. -/
  | schedAbort (port : Nat) (p : Packet)
  /-- WINDOW_REQUEST_TIMEOUT (R410): A window request unanswered for 100 us ends its command PEER_TIMEOUT. -/
  | windowRequestTimeout (tag : Nat)
  /-- FRET_BOUNDARY (R398): A local fret boundary advances the counter and checks starts, deadlines and holdover. -/
  | fretBoundary
  /-- PORT_TRAINING (R412): A port begins training on ENABLE, RETRAIN or loss of frame lock. -/
  | portTraining (port : Nat)
  /-- PORT_TRAINING_COMPLETE (R412): Training ends with LINK_DELAY measured and the port enters ACTIVE. -/
  | portTrainingComplete (port : Nat) (lanesOk : Nat)
  /-- RETRAIN (R416): A write of RETRAIN starts port retraining. -/
  | retrain (port : Nat)
  /-- PORT_ENABLE (R416): A write to AMX_PORT_CTL ENABLE starts or stops a port, ignored in reduced mode. -/
  | portEnable (port : Nat) (on : Bool)
  /-- FRAME_LOCK_LOSS (R411): A port loses frame lock, leaves ACTIVE and its best-effort requests are reissued or
  ended. -/
  | frameLockLoss (port : Nat)
  /-- INBOUND_BAR4_READ (R430): A host BAR4 read is performed as RD_CUR. -/
  | inboundBar4Read (off : Nat) (len : Nat)
  /-- INBOUND_BAR4_WRITE (R430): A host BAR4 write is performed as WR_FULL or WR_PART with its charge hint. -/
  | inboundBar4Write (off : Nat) (be : Nat) (data : List Byte) (ep : Bool) (tph : Option Nat)
  /-- INBOUND_ATOMICOP (R425): A host AtomicOp to BAR4 runs as a near atomic. -/
  | inboundAtomicop (bar : Nat) (off : Nat) (op : Nat) (size : Nat) (operand : Nat) (compare : Nat)
  /-- CXL_MEM_REQUEST (R287): A host CXL.mem request is served by the home with the host as agent 34. -/
  | cxlMemRequest (kind : Nat) (dpa : Nat) (be : Nat) (data : List Byte) (poison : Bool)
  /-- HOST_COMPLETION (R439): An outbound read completes with UR, CA or times out and ends its reader. -/
  | hostCompletion (tag : Nat) (status : HostStatus)
  /-- FLR (R440): An FLR, hot reset or link down resets queues, translations and configuration space. -/
  | flr
  /-- BUS_MASTER_ENABLE (R440): A change of Bus Master Enable stops or allows outbound requests. -/
  | busMasterEnable (on : Bool)
  /-- ATS_ENABLE (R337): Setting or clearing ATS Enable allows fetching or invalidates every cached translation. -/
  | atsEnable (on : Bool)
  /-- PRI_ENABLE (R342): Clearing then setting PRI Enable resumes page requests after a failure; the Outstanding Page
  Request Allocation that the host has written comes with it. -/
  | priEnable (on : PriControl)
  /-- PASID_ENABLE (R337): PASID Enable gates fetching from PASID queues. -/
  | pasidEnable (on : Bool)
  /-- MEMORY_SPACE_ENABLE (R430): Clearing Memory Space Enable applies a pending BAR4 size. -/
  | memorySpaceEnable (on : Bool) (bar4 : Nat)
  /-- HDM_COMMIT (R433): Committing HDM decoder 0 decodes or sets Commit Error. -/
  | hdmCommit (base : Nat) (size : Nat)
  /-- DOE_REQUEST (R436): A DOE request is handed to the security core. -/
  | doeRequest (kind : Nat)
  /-- DOE_ABORT (R436): DOE Abort empties the mailbox. -/
  | doeAbort
  /-- TABLE_ACCESS (R435): A CDAT Table Access request returns the memory entries. -/
  | tableAccess (entry : Nat)
  /-- GET_VERSION (R437): SPDM GET_VERSION. -/
  | getVersion
  /-- GET_CAPABILITIES (R437): SPDM GET_CAPABILITIES. -/
  | getCapabilities
  /-- NEGOTIATE_ALGORITHMS (R437): SPDM NEGOTIATE_ALGORITHMS. -/
  | negotiateAlgorithms (asym : Nat) (hash : Nat) (dhe : Nat) (aead : Nat)
  /-- GET_DIGESTS (R437): SPDM GET_DIGESTS. -/
  | getDigests
  /-- GET_CERTIFICATE (R537): SPDM GET_CERTIFICATE returns the slot 0 chain. -/
  | getCertificate (slot : Nat) (off : Nat) (len : Nat)
  /-- CHALLENGE (R437): SPDM CHALLENGE. -/
  | challenge (slot : Nat) (nonce : Nat)
  /-- GET_MEASUREMENTS (R539): SPDM GET_MEASUREMENTS built from one reading of the directory and DBG_STATE. -/
  | getMeasurements (index : Nat) (signed : Bool) (nonce : Nat)
  /-- KEY_EXCHANGE (R437): SPDM KEY_EXCHANGE. -/
  | keyExchange (reqId : Nat)
  /-- FINISH (R437): SPDM FINISH. -/
  | finish (session : Nat) (ok : Bool)
  /-- HEARTBEAT (R437): SPDM HEARTBEAT. -/
  | heartbeat (session : Nat)
  /-- KEY_UPDATE (R437): SPDM KEY_UPDATE. -/
  | keyUpdate (session : Nat)
  /-- END_SESSION (R437): SPDM END_SESSION. -/
  | endSession (session : Nat)
  /-- HPT_MIRROR_WRITE (R445): A write to HPT_MIRROR starts or stops the mirror. -/
  | hptMirrorWrite (be : Nat) (value : Nat)
  /-- MIRROR_COPY (R442): Every PERIOD_US the device copies the status page to the mirror. -/
  | mirrorCopy
  /-- PWR_OK_ASSERT (R589): PWR_OK asserts and the always-on domain runs. -/
  | pwrOkAssert (railsInRange : Bool)
  /-- PWR_OK_DEASSERT (R502): PWR_OK deasserts; writes stop, keys are zeroised and the device holds in reset. -/
  | pwrOkDeassert
  /-- PERST_ASSERT (R541): PERST# asserts and the key store is zeroised and the module reset. -/
  | perstAssert
  /-- PERST_DEASSERT (R448): PERST# deasserts and phase RESET begins. -/
  | perstDeassert
  /-- CONFIG (R462): The first stage chooses a configuration copy or factory defaults and starts the sequencers. -/
  | config (progA : Option (List Byte)) (progB : Option (List Byte))
  /-- HBM_READY (R258): An HBM controller finishes training and zeroing and sets its HBM_READY bit. -/
  | hbmReady (stack : Nat) (trained : Bool)
  /-- SECOND_STAGE_VERIFIED (R462): The second stage passes its signature check and runs, or the start fails
  BAD_IMAGE. -/
  | secondStageVerified (aOk : Bool) (bOk : Bool)
  /-- DC_READY (R261): A cartridge finishes training and zeroing and its ranges are mapped. -/
  | dcReady (socket : Nat) (trained : Bool)
  /-- BOOT_GO (R465): SEC_BOOT_CTL GO starts loading a firmware image of a target. -/
  | bootGo (target : Nat)
  /-- FIRMWARE_LOAD_COMPLETE (R465): The security core verifies, copies and starts the target, reaching READY
  after the cluster image. -/
  | firmwareLoadComplete
  /-- WATCHDOG_EXPIRY (R477): A firmware watchdog expires and the processor is reset and reloaded. -/
  | watchdogExpiry (proc : Nat)
  /-- RECOVERY_COMPLETE (R479): A recovered processor runs again and resumes its recorded work. -/
  | recoveryComplete (proc : Nat)
  /-- FWLOAD (R481): FWLOAD copies and checks an image into the idle slot and begins the handover. -/
  | fwload (q : Nat)
  /-- HANDOVER (R482): A processor stores its state and restarts from the new directory slot. -/
  | handover (q : Nat)
  /-- CLUSTER_HANDOVER (R483): A cluster without a casting is reserved and handed to the new cluster image. -/
  | clusterHandover (q : Nat) (cl : Nat)
  /-- POWER_SAMPLE (R497): Every 10 us the power-management core measures input power and sets the device target. -/
  | powerSample (watts : Nat)
  /-- OPERATING_POINT_CHANGE (R495): A cluster's CCLK and rail move to a new operating point in the safe order. -/
  | operatingPointChange (cl : Nat) (mhz : Nat)
  /-- THERMAL_SAMPLE (R500): Every 10 us sensors are read and thermal caps, hold or trip apply. -/
  | thermalSample (temps : List Nat)
  /-- PMC_LIMIT_WRITE (R497): A write to PMC_LIMIT sets the module power limit, ignored in reduced mode. -/
  | pmcLimitWrite (value : Nat)
  /-- IDLE_ENTRY (R491): After 64 CCLK cycles with no work a cluster enters IDLE. -/
  | idleEntry (cl : Nat)
  /-- CHILL_DELAY_EXPIRY (R493): A cluster IDLE for CHILL_DELAY with no casting is ordered into CHILL. -/
  | chillDelayExpiry (cl : Nat)
  /-- COLD_DELAY_EXPIRY (R493): A cluster in CHILL for COLD_DELAY with COLD_EN is ordered into COLD. -/
  | coldDelayExpiry (cl : Nat)
  /-- CHILL_ENTRY_COMPLETE (R492): The cluster finishes write-back, rail to retention and PLL off. -/
  | chillEntryComplete (cl : Nat)
  /-- COLD_ENTRY_COMPLETE (R492): The cluster is isolated and its rail gated off. -/
  | coldEntryComplete (cl : Nat)
  /-- WAKE_REQUEST (R493): A wake request from the scheduler or a fabric stop is read and the cluster is woken. -/
  | wakeRequest (cl : Nat)
  /-- WAKE_COMPLETE (R492): A cluster leaving CHILL or COLD reaches its operating point and is ready. -/
  | wakeComplete (cl : Nat)
  /-- TEST (R526): BIST TEST flasks a block, runs its self-test and re-initialises it. -/
  | test (q : Nat) (passed : Bool)
  /-- SELFTEST_HOLD_EXPIRY (R527): A request held 50 us at a flasked block is refused BUSY_SELFTEST. -/
  | selftestHoldExpiry (kind : Nat) (index : Nat)
  /-- RECAL (R519): BIST RECAL retrains a channel in short steps or retrains a port. -/
  | recal (q : Nat) (passed : Bool)
  /-- RETIRE (R521): BIST RETIRE retires a cluster or a crucible slice. -/
  | retire (q : Nat)
  /-- REINSTATE (R521): BIST REINSTATE tests a retired cluster and returns it to service on a pass. -/
  | reinstate (q : Nat) (passed : Bool)
  /-- SHUTDOWN (R528): BIST SHUTDOWN stops fetching, self-tests every block and stores the fault map. -/
  | shutdown (q : Nat) (faults : List Nat)
  /-- CFG_READ (R530): BIST CFG_READ writes the configuration copy in use to memory. -/
  | cfgRead (q : Nat)
  /-- CFG_WRITE (R530): BIST CFG_WRITE checks an image and writes it to flash for the next start. -/
  | cfgWrite (q : Nat) (image : List Byte) (readBackOk : Bool)
  /-- EVACUATE (R524): CARTRIDGE EVACUATE makes a socket read-only and copies its extents out. -/
  | evacuate (q : Nat)
  /-- RELEASE (R524): CARTRIDGE RELEASE unmaps a read-only socket and powers it off. -/
  | release (q : Nat)
  /-- ADMIT (R524): CARTRIDGE ADMIT trains, zeroes and maps a new cartridge. -/
  | admitCartridge (q : Nat) (passed : Bool)
  /-- RESUME (R524): CARTRIDGE RESUME returns a read-only socket to MAPPED. -/
  | resume (q : Nat)
  /-- CARTRIDGE_PULLED (R525): A cartridge removed outside RELEASED unmaps its socket and poisons its cached
  lines. -/
  | cartridgePulled (socket : Nat)
  /-- CARTRIDGE_INSERTED (R592): A cartridge fitted to a socket sets PRESENT. -/
  | cartridgeInserted (socket : Nat)
  /-- SCRUB (R508): Background scrub reads and corrects memory lines, poisoning uncorrectable ones. -/
  | scrub (loc : Nat) (kind : Nat)
  /-- ERROR_RING_WRITE (R509): A buffered error event is written to the ring when ENABLE is set and the ring has
  room. -/
  | errorRingWrite
  /-- DEBUG_UNLOCK_TOKEN (R546): An unlock token is checked; if accepted the module resets and starts with
  DBG_STATE UNLOCKED. -/
  | debugUnlockToken (token : List Byte)
  /-- FIRE (R555): TRC_TRIG_CTL FIRE raises the freeze trigger. -/
  | fire
  /-- REARM (R555): TRC_TRIG_CTL REARM clears FROZEN and counting resumes. -/
  | rearm
  /-- TRIG_IN (R587): TRIG_IN held high for 2 AO ticks raises the trigger. -/
  | trigIn (ticks : Nat)
  /-- COUNTER_FREEZE (R555): Two AO ticks after a trigger every counter freezes and FREEZE records are written. -/
  | counterFreeze
  /-- TRACE_RECORD_WRITE (R557): A trace unit writes the next queued event as a 32 B record to its ring. -/
  | traceRecordWrite (unit : Nat)
  /-- CARTRIDGE_REMOVED (R523): A cartridge removed by hand from a socket in RELEASED makes the socket EMPTY and
  clears PRESENT. -/
  | cartridgeRemoved (socket : Nat)
  /-- REFERENCE_CLOCK_STABLE (R589): The reference clocks become stable, and a start whose PERST# and PWR_OK
  conditions already hold begins then. -/
  | referenceClockStable
  /-- HOST_LINK_UP (R424): The host port's PCIe link finishes training at a width and rate, updating HPT_STAT and
  the status page. -/
  | hostLinkUp (width : Nat) (rate : Nat)
  /-- BAR4_RESIZE (R430): A host write of the BAR4 Resizable BAR size takes effect at once, or is held until
  Memory Space Enable next clears. -/
  | bar4Resize (sizeLog2 : Nat)
  /-- CXL_CACHE_ENABLE (R286): The host enables or disables CXL.cache or CXL.mem in the CXL Device DVSEC, deciding
  whether tundishes may hold host lines and how test 1 of R338 decodes. -/
  | cxlCacheEnable (cache : Bool) (mem : Bool)
  /-- OUTBOUND_READ_COMPLETION (R301): A successful completion of an outbound host-port read arrives and finishes
  the waiting load, fetch or FENCE.DONE zero-length read. -/
  | outboundReadCompletion (tag : Nat) (ep : Bool) (data : List Byte)
  /-- TRANSACTIONAL_SOURCE_READ (R326): A non-ganged transactional sprue transfer has read its whole source into
  the channel ladle and begins locking its destination lines. -/
  | transactionalSourceRead (e : Nat) (ch : Nat)
  /-- COUNTER_WRAP (R551): An event counter wraps at 2^48, sets OVF and raises the freeze trigger when TRIG_OVF is
  set. -/
  | counterWrap (unit : Nat) (index : Nat)
  deriving DecidableEq, Repr

end Sys2Proof
end

