-- ==== Sys2Proof/Config.lean ====
section
/-!
DEFINITION. What the spec leaves open: the values an implementation fixes and the free values.  None has a
body, so nothing can be proved of which value it is.
-/
namespace Sys2Proof.Config

/-- The `n`-th free value of the run: a value the spec leaves open and nothing constrains. -/
opaque freeValue : Nat → Nat

/-- The byte at a place whose contents the spec calls undefined: (number of the use, place). -/
opaque freeByte : Nat → Nat → BitVec 8

/-- A free choice of a truth value (the `n`-th of the run). -/
opaque freeBool : Nat → Bool

/-- IEEE 754 leaves open whether a result is tiny before or after rounding; R108 says only 'tiny'. -/
opaque tinyBeforeRounding : Bool

/-- IEEE 754 leaves open whether (0 × ∞) + quiet NaN is an invalid operation. -/
opaque fmaZeroInfNanInvalid : Bool

/-- R208: the TSE's approximations of FP32 words, a fixed function of the input bits (function, bits). -/
opaque tseApprox : Nat → Nat → Nat

/-- R233, R540: the 64 bytes of the AES-256-XTS key that a selector holds in one of its generations (the key's number): the
data key, then the tweak key. -/
opaque memoryKey : Nat → List (BitVec 8)

/-- R269: the directory set of a line in its home. -/
opaque dirSet : Nat → Nat

/-- R541, R468: the SHA-384 digest of bytes, as a number. -/
opaque sha384 : List (BitVec 8) → Nat

/-- R468, R544: whether the signature of these bytes verifies under the key numbered `k`. -/
opaque signatureOk : Nat → List (BitVec 8) → Bool

/-- R497: the firmware's own projection of the 1 ms mean of input power: (clusters running, device target in MHz, present
mean in W). -/
opaque powerProjection : Nat → Nat → Nat → Nat

/-- R459: the module serial number fused at manufacture. -/
opaque fusedSerial : Nat

/-- R460: the serial number that the cartridge in a socket reports (the socket, the number of the reading). -/
opaque cartridgeSerial : Nat → Nat → Nat

/-- R537: the certificate chain of slot 0. -/
opaque certChain : List (BitVec 8)

/-- R538: the digest of the first stage's ROM. -/
opaque romDigest : Nat

/-- R537: a signature by the device certificate's key. -/
opaque deviceSign : List Nat → Nat

/-- R3: the factory configuration image with which a module's flash is programmed. -/
opaque factoryImage : List (BitVec 8)

/-- R462, R463: the image of the ROM's factory defaults, in the form that CFG_READ writes (R530). -/
opaque romImage : List (BitVec 8)

/-- R543, R544: the `n`-th challenge nonce, 32 bits. -/
opaque debugNonce : Nat → Nat

end Sys2Proof.Config
end

