-- ==== Sys2Proof/Machine/Table.lean ====
section
/-!
DEFINITION. Reading and writing the sparse tables of the state.  A table lists its keys in rising
order and never lists the default value, so equal contents are equal data.
-/
namespace Sys2Proof.Machine

/-- Bits `hi` down to `lo` of a number. -/
def bits (x hi lo : Nat) : Nat := (x >>> lo) % 2 ^ (hi + 1 - lo)

/-- Bit `i` of a number, as a truth value. -/
def bit (x i : Nat) : Bool := (x >>> i) % 2 == 1

/-- One if the condition holds, else zero. -/
def b2n (b : Bool) : Nat := if b then 1 else 0

/-- The value at key `k`; `d` where nothing is listed. -/
def tget {α : Type} (d : α) : Tbl α → Nat → α
  | [], _ => d
  | (a, v) :: t, k => if a = k then v else tget d t k

/-- The table with the entry of key `k` taken out. -/
def tdel {α : Type} : Tbl α → Nat → Tbl α
  | [], _ => []
  | (a, v) :: t, k => if a = k then tdel t k else (a, v) :: tdel t k

/-- The table with key `k` listed with value `v`, at its place in the rising order. -/
def tins {α : Type} : Tbl α → Nat → α → Tbl α
  | [], k, v => [(k, v)]
  | (a, w) :: t, k, v =>
    if a = k then (k, v) :: t
    else if k < a then (k, v) :: (a, w) :: t
    else (a, w) :: tins t k v

/-- The table with value `v` at key `k`; the default value is not listed. -/
def tset {α : Type} [DecidableEq α] (d : α) (t : Tbl α) (k : Nat) (v : α) : Tbl α :=
  if v = d then tdel t k else tins t k v

/-- The table with the value at key `k` replaced by its image. -/
def tmod {α : Type} [DecidableEq α] (d : α) (t : Tbl α) (k : Nat) (f : α → α) : Tbl α :=
  tset d t k (f (tget d t k))

/-- Every listed key is above `lo`, keys rise, and no entry is the default. -/
def twfFrom {α : Type} [DecidableEq α] (d : α) : Option Nat → Tbl α → Bool
  | _, [] => true
  | lo, (a, v) :: t =>
    (match lo with | none => true | some l => decide (l < a)) && decide (v ≠ d) && twfFrom d (some a) t

/-- The canonical form of a table: keys strictly rising, no entry equal to the default. -/
def twf {α : Type} [DecidableEq α] (d : α) (t : Tbl α) : Bool := twfFrom d none t

/-- `n` bytes from `a`, as one little-endian number, from a byte table (R27's byte order). -/
def rdBytes (t : Tbl Byte) (a : Nat) : Nat → Nat
  | 0 => 0
  | n + 1 => (tget 0 t a).toNat + 256 * rdBytes t (a + 1) n

/-- Store the low `n` bytes of `v` at `a`, little-endian. -/
def wrBytes (t : Tbl Byte) (a : Nat) : Nat → Nat → Tbl Byte
  | 0, _ => t
  | n + 1, v => wrBytes (tset 0 t a (BitVec.ofNat 8 v)) (a + 1) n (v / 256)

/-- The bytes of `n` places from `a`, as a list. -/
def rdList (t : Tbl Byte) (a : Nat) : Nat → List Byte
  | 0 => []
  | n + 1 => tget 0 t a :: rdList t (a + 1) n

/-- Store a list of bytes at `a`. -/
def wrList (t : Tbl Byte) (a : Nat) : List Byte → Tbl Byte
  | [] => t
  | b :: bs => wrList (tset 0 t a b) (a + 1) bs

/-- A list of bytes as one little-endian number. -/
def leNat : List Byte → Nat
  | [] => 0
  | b :: bs => b.toNat + 256 * leNat bs

/-- The low `n` bytes of a number, lowest first. -/
def leBytes : Nat → Nat → List Byte
  | 0, _ => []
  | n + 1, v => BitVec.ofNat 8 v :: leBytes n (v / 256)

/-- Bytes `o` to `o + n − 1` of a byte list, little-endian (0 beyond its end). -/
def fieldOf (bs : List Byte) (o n : Nat) : Nat := leNat ((bs.drop o).take n)

/-- The two's complement reading of a `w`-bit number. -/
def sext (w x : Nat) : Int :=
  if x % 2 ^ w < 2 ^ (w - 1) then (x % 2 ^ w : Nat) else ((x % 2 ^ w : Nat) : Int) - (2 ^ w : Nat)

/-- An integer narrowed to `w` bits. -/
def narrow (w : Nat) (x : Int) : Nat := (x % ((2 ^ w : Nat) : Int)).toNat

/-- Round `x` up to a multiple of `m`. -/
def roundUp (x m : Nat) : Nat := (x + m - 1) / m * m

/-- A number with bit `i` set or cleared. -/
def setBit (x i : Nat) (v : Bool) : Nat :=
  if bit x i then (if v then x else x - 2 ^ i) else (if v then x + 2 ^ i else x)

/-- The positions of the bits set among the lowest `n`, rising. -/
def bitList (x n : Nat) : List Nat := (List.range n).filter (fun i => bit x i)

/-- The number of bits set among the lowest `n`. -/
def popcount (x n : Nat) : Nat := (bitList x n).length

/-- The length of a number in bits (0 for 0), by structural recursion on a bound. -/
def bitLenUpTo : Nat → Nat → Nat
  | 0, _ => 0
  | n + 1, x => if x >>> n = 0 then bitLenUpTo n x else n + 1

/-- The length of a number in bits. -/
def bitLen (x : Nat) : Nat := if x = 0 then 0 else Nat.log2 x + 1

/-- The integer square root, bit by bit from bit `n` down. -/
def isqrtFrom : Nat → Nat → Nat → Nat
  | 0, _, r => r
  | n + 1, x, r => if (r + 2 ^ n) * (r + 2 ^ n) ≤ x then isqrtFrom n x (r + 2 ^ n) else isqrtFrom n x r

/-- The element at place `i` of a list, `d` beyond its end. -/
def nth {α : Type} (d : α) : List α → Nat → α
  | [], _ => d
  | x :: _, 0 => x
  | _ :: xs, i + 1 => nth d xs i

/-- The list with its place `i` replaced (unchanged beyond its end). -/
def setNth {α : Type} : List α → Nat → α → List α
  | [], _, _ => []
  | _ :: xs, 0, v => v :: xs
  | x :: xs, i + 1, v => x :: setNth xs i v

end Sys2Proof.Machine
end

