-- ==== Sys2Proof/Machine/Aes.lean ====
section
/-!
DEFINITION. The cipher of the memory controllers: AES-256 in XTS mode over one line of 128 B (R233), as FIPS 197 and IEEE
1619 define them.
-/
namespace Sys2Proof.Machine

/-! ## The field of AES -/

/-- Multiplication by x modulo x^8 + x^4 + x^3 + x + 1. -/
def gfDouble (a : Byte) : Byte := (a <<< 1) ^^^ (if a.msb then 0x1B else 0)

/-- Multiplication, over the lower `n` bits of the second factor. -/
def gfMul : Nat → Byte → Byte → Byte
  | 0, _, _ => 0
  | n + 1, a, b => (if b.getLsbD 0 then a else 0) ^^^ gfMul n (gfDouble a) (b >>> 1)

/-- The 254th power: the inverse, with 0 for 0. -/
def gfInv (a : Byte) : Byte :=
  let sq := fun x => gfMul 8 x x
  let a2 := sq a
  let a4 := sq a2
  let a8 := sq a4
  let a16 := sq a8
  let a32 := sq a16
  let a64 := sq a32
  gfMul 8 (gfMul 8 (gfMul 8 a2 a4) (gfMul 8 a8 a16)) (gfMul 8 (gfMul 8 a32 a64) (sq a64))

/-- The S-box. -/
def sBox (a : Byte) : Byte :=
  let x := gfInv a
  x ^^^ x.rotateLeft 1 ^^^ x.rotateLeft 2 ^^^ x.rotateLeft 3 ^^^ x.rotateLeft 4 ^^^ 0x63

/-- Its inverse. -/
def sBoxInv (a : Byte) : Byte := gfInv (a.rotateLeft 1 ^^^ a.rotateLeft 3 ^^^ a.rotateLeft 6 ^^^ 0x05)

/-! ## Rounds -/

/-- Byte by byte exclusive or. -/
def xorBytes (a b : List Byte) : List Byte := List.zipWith (fun x y => x ^^^ y) a b

/-- Rows shifted: byte `i` of the new state comes from column `i / 4 + k` for row `i % 4 = k`. -/
def shiftRows (st : List Byte) : List Byte := (List.range 16).map (fun i => nth 0 st ((i + 4 * (i % 4)) % 16))

/-- Rows shifted back. -/
def shiftRowsInv (st : List Byte) : List Byte := (List.range 16).map (fun i => nth 0 st ((i + 12 * (i % 4)) % 16))

/-- Columns multiplied by the circulant matrix of a row. -/
def mixColumns (row : List Byte) (st : List Byte) : List Byte :=
  (List.range 16).map (fun i =>
    (List.range 4).foldl (fun acc j => acc ^^^ gfMul 8 (nth 0 st (i / 4 * 4 + j)) (nth 0 row ((j + 4 - i % 4) % 4))) 0)

/-- The key schedule: words of 4 B from the eight of the key, the latest first (`n` more words from word `i` on). -/
def expandKey : Nat → Nat → Byte → List (List Byte) → List (List Byte)
  | 0, _, _, ws => ws
  | n + 1, i, rc, ws =>
    let prev := nth [] ws 0
    let t :=
      if i % 8 = 0 then xorBytes (((prev.drop 1) ++ (prev.take 1)).map sBox) [rc, 0, 0, 0]
      else if i % 8 = 4 then prev.map sBox
      else prev
    expandKey n (i + 1) (if i % 8 = 0 then gfDouble rc else rc) (xorBytes (nth [] ws 7) t :: ws)

/-- The fifteen round keys of a 32 B key. -/
def roundKeys (key : List Byte) : List (List Byte) :=
  let ws := (expandKey 52 8 1 ((List.range 8).map (fun i => (key.drop (4 * (7 - i))).take 4))).reverse
  (List.range 15).map (fun r => ((ws.drop (4 * r)).take 4).flatten)

/-- AES-256 of one block of 16 B. -/
def aesEncrypt (key block : List Byte) : List Byte :=
  let rk := roundKeys key
  let st := (List.range 13).foldl (fun st r =>
    xorBytes (mixColumns [2, 3, 1, 1] (shiftRows (st.map sBox))) (nth [] rk (r + 1))) (xorBytes block (nth [] rk 0))
  xorBytes (shiftRows (st.map sBox)) (nth [] rk 14)

/-- The inverse cipher. -/
def aesDecrypt (key block : List Byte) : List Byte :=
  let rk := roundKeys key
  let st := (List.range 13).foldl (fun st r =>
    mixColumns [14, 11, 13, 9] (xorBytes ((shiftRowsInv st).map sBoxInv) (nth [] rk (13 - r)))) (xorBytes block (nth [] rk 14))
  xorBytes ((shiftRowsInv st).map sBoxInv) (nth [] rk 0)

/-! ## XTS over a line -/

/-- A tweak multiplied by the primitive element of GF(2^128), least significant byte first. -/
def tweakNext (t : Nat) : Nat := if t < 2 ^ 127 then 2 * t else (2 * t % 2 ^ 128) ^^^ 0x87

/-- The tweaks of the eight blocks of a line: its number, LOC[45:7], enciphered, then doubled block by block. -/
def lineTweaks (key2 : List Byte) (line : Nat) : Nat → List Nat
  | 0 => [leNat (aesEncrypt key2 (leBytes 16 (line % 2 ^ 39)))]
  | n + 1 => let ts := lineTweaks key2 line n; ts ++ [tweakNext (nth 0 ts n)]

/-- One pass of XTS over the eight blocks of a line with a block cipher. -/
def xtsLine (f : List Byte → List Byte → List Byte) (key : List Byte) (line : Nat) (bs : List Byte) : List Byte :=
  let ts := lineTweaks (key.drop 32) line 7
  (List.range 8).flatMap (fun j =>
    let t := leBytes 16 (nth 0 ts j)
    xorBytes (f (key.take 32) (xorBytes ((bs.drop (16 * j)).take 16) t)) t)

/-- R233: what a line's plaintext becomes in memory under a key. -/
def encryptLine (key : List Byte) (line : Nat) (bs : List Byte) : List Byte := xtsLine aesEncrypt key line bs

/-- R233: what a line's ciphertext reads as under a key. -/
def decryptLine (key : List Byte) (line : Nat) (bs : List Byte) : List Byte := xtsLine aesDecrypt key line bs

end Sys2Proof.Machine
end

