-- ==== Sys2Proof/Machine/Regs.lean ====
section
/-!
DEFINITION. The register map of BAR0 (R574 to R582): every register's offset, width and fields, with the access
type and reset value the owning chapter gives.  A field is known by its register's offset and its lowest bit.
-/
namespace Sys2Proof.Machine

/-- R9: the access types of a register field. -/
inductive Acc where
  | ro | rw | w1c | w1s | wo | cnt | hwu
  deriving DecidableEq, Repr

/-- One field of a register: the register's BAR0 offset, lowest bit, length, access type and reset value. -/
structure FRef where
  off : Nat
  lo : Nat
  len : Nat
  acc : Acc
  rst : Nat
  deriving DecidableEq, Repr

/-- The key of a field in the register table: its bit address in BAR0. -/
def FRef.key (f : FRef) : Nat := 8 * f.off + f.lo

/-! ## SCH (R28 to R31, R579) and the firmware registers (R486, R487) -/

/-- SCH_STAT.WIGN -/
def schWign : FRef := ⟨0x120000, 0, 1, .w1c, 0⟩
/-- SCH_STAT.LOSTINC -/
def schLostInc : FRef := ⟨0x120000, 1, 1, .w1c, 0⟩
/-- SCH_Q_BASE.BASE of queue `q` -/
def qBase (q : Nat) : FRef := ⟨0x130000 + 0x20 * q, 12, 52, .rw, 0⟩
/-- SCH_Q_CFG.SIZE_LOG2 -/
def qSize (q : Nat) : FRef := ⟨0x130008 + 0x20 * q, 0, 5, .rw, 6⟩
/-- SCH_Q_CFG.ENABLE -/
def qEnable (q : Nat) : FRef := ⟨0x130008 + 0x20 * q, 7, 1, .rw, 0⟩
/-- SCH_Q_CFG.WEIGHT -/
def qWeight (q : Nat) : FRef := ⟨0x130008 + 0x20 * q, 8, 8, .rw, 1⟩
/-- SCH_Q_CFG.PASID -/
def qPasid (q : Nat) : FRef := ⟨0x130008 + 0x20 * q, 16, 20, .rw, 0⟩
/-- SCH_Q_CFG.PASID_EN -/
def qPasidEn (q : Nat) : FRef := ⟨0x130008 + 0x20 * q, 36, 1, .rw, 0⟩
/-- SCH_Q_STAT.HEAD -/
def qHead (q : Nat) : FRef := ⟨0x130010 + 0x20 * q, 0, 32, .hwu, 0⟩
/-- SCH_Q_STAT.ACTIVE -/
def qActive (q : Nat) : FRef := ⟨0x130010 + 0x20 * q, 32, 1, .hwu, 0⟩
/-- SCH_Q_STAT.Q_ERR -/
def qErr (q : Nat) : FRef := ⟨0x130010 + 0x20 * q, 33, 1, .w1c, 0⟩
/-- SCH_Q_STAT.CFG_ERR -/
def qCfgErr (q : Nat) : FRef := ⟨0x130010 + 0x20 * q, 34, 1, .w1c, 0⟩
/-- SCH_Q_STAT.RESET_BUSY -/
def qResetBusy (q : Nat) : FRef := ⟨0x130010 + 0x20 * q, 35, 1, .hwu, 0⟩
/-- SCH_Q_CTL.RESET -/
def qReset (q : Nat) : FRef := ⟨0x130018 + 0x20 * q, 0, 1, .w1s, 0⟩
/-- SCH_Q_BUDGET.DEF_BUDGET -/
def qBudget (q : Nat) : FRef := ⟨0x13001C + 0x20 * q, 0, 32, .rw, 0xF4240⟩

/-- The base of a firmware processor's block: 0 security, 1 power-management, 2 scheduler, 3 + n the control core of cl n. -/
def fwBase (proc : Nat) : Nat :=
  if proc = 0 then 0x100000 else if proc = 1 then 0x110000 else if proc = 2 then 0x120000
  else 0x140000 + 0x1000 * (proc - 3)

/-- FW_STAT.STATE -/
def fwState (p : Nat) : FRef := ⟨fwBase p + 0x200, 0, 3, .hwu, 0⟩
/-- FW_STAT.WDT_RESETS -/
def fwResets (p : Nat) : FRef := ⟨fwBase p + 0x200, 8, 8, .cnt, 0⟩
/-- FW_STAT.LOOP_MAX_US -/
def fwLoopMax (p : Nat) : FRef := ⟨fwBase p + 0x200, 16, 16, .hwu, 0⟩
/-- FW_STAT.IMAGE_VER -/
def fwImageVer (p : Nat) : FRef := ⟨fwBase p + 0x200, 32, 32, .hwu, 0⟩
/-- WDT_CFG.TIMEOUT_MS -/
def fwWdt (p : Nat) : FRef := ⟨fwBase p + 0x208, 0, 7, .rw, 0x0A⟩

/-! ## SEC (R467, R547 to R549) -/

/-- SEC_STAT.WIGN -/
def secWign : FRef := ⟨0x100000, 0, 1, .w1c, 0⟩
/-- SEC_STAT.LOSTINC -/
def secLostInc : FRef := ⟨0x100000, 1, 1, .w1c, 0⟩
/-- SEC_BOOT_SRC.DPA -/
def bootSrc : FRef := ⟨0x100100, 12, 40, .rw, 0⟩
/-- SEC_BOOT_CTL.TARGET -/
def bootTarget : FRef := ⟨0x100108, 0, 2, .wo, 0⟩
/-- SEC_BOOT_CTL.GO -/
def bootGoBit : FRef := ⟨0x100108, 2, 1, .wo, 0⟩
/-- SEC_BOOT_STAT.BUSY -/
def bootBusy : FRef := ⟨0x10010C, 0, 1, .ro, 0⟩
/-- SEC_BOOT_STAT.LOADED -/
def bootLoaded : FRef := ⟨0x10010C, 1, 3, .ro, 0⟩
/-- SEC_BOOT_STAT.GO_LOST -/
def bootGoLost : FRef := ⟨0x10010C, 4, 1, .w1c, 0⟩
/-- SEC_BOOT_STAT.CODE -/
def bootCode : FRef := ⟨0x10010C, 8, 8, .ro, 0⟩
/-- SEC_BOOT_STAT.SUB -/
def bootSub : FRef := ⟨0x10010C, 16, 8, .ro, 0⟩
/-- SEC_KEY_CTL.SEL -/
def keyCtlSel : FRef := ⟨0x100300, 0, 6, .wo, 0⟩
/-- SEC_KEY_CTL.REGEN -/
def keyCtlRegen : FRef := ⟨0x100300, 6, 1, .wo, 0⟩
/-- SEC_KEY_STAT.BUSY -/
def keyBusy : FRef := ⟨0x100304, 0, 1, .hwu, 0⟩
/-- SEC_KEY_STAT.SEL -/
def keySel : FRef := ⟨0x100304, 1, 6, .hwu, 0⟩
/-- SEC_KEY_STAT.KEY_ERR -/
def keyErr : FRef := ⟨0x100304, 7, 1, .w1c, 0⟩
/-- SEC_KEY_STAT.KEY_LOST -/
def keyLost : FRef := ⟨0x100304, 8, 1, .w1c, 0⟩
/-- SEC_KEY_STAT.GEN -/
def keyGen : FRef := ⟨0x100304, 16, 16, .cnt, 0⟩
/-- SEC_DBG_STAT.DBG_STATE -/
def dbgState : FRef := ⟨0x100308, 0, 2, .hwu, 0⟩
/-- SEC_DBG_STAT.DBG_FAILS -/
def dbgFails : FRef := ⟨0x100308, 2, 4, .hwu, 0⟩

/-! ## PMC (R504 to R506, R512) -/

/-- PMC_STAT.WIGN -/
def pmcWign : FRef := ⟨0x110000, 0, 1, .w1c, 0⟩
/-- PMC_STAT.LOSTINC -/
def pmcLostInc : FRef := ⟨0x110000, 1, 1, .w1c, 0⟩
/-- PMC_STAT.LIMITING -/
def pmcLimiting : FRef := ⟨0x110000, 2, 1, .hwu, 0⟩
/-- PMC_LIMIT.LIMIT_W -/
def pmcLimit : FRef := ⟨0x110008, 0, 12, .rw, 0⟩
/-- PMC_POWER.INPUT_W -/
def pmcInput : FRef := ⟨0x110010, 0, 12, .hwu, 0⟩
/-- PMC_POWER.PEAK_W -/
def pmcPeak : FRef := ⟨0x110010, 12, 12, .hwu, 0⟩
/-- PMC_THERM.TJ_MAX -/
def pmcTjMax : FRef := ⟨0x110018, 0, 8, .hwu, 0⟩
/-- PMC_THERM.HOT_SITE -/
def pmcHotSite : FRef := ⟨0x110018, 8, 5, .hwu, 0⟩
/-- PMC_THERM.HOLD -/
def pmcHold : FRef := ⟨0x110018, 13, 1, .hwu, 0⟩
/-- PMC_ERR_BASE.ENABLE -/
def errEnable : FRef := ⟨0x110020, 0, 1, .rw, 0⟩
/-- PMC_ERR_BASE.ADDR -/
def errAddr : FRef := ⟨0x110020, 12, 52, .rw, 0⟩
/-- PMC_ERR_CFG.SIZE_LOG2 -/
def errSize : FRef := ⟨0x110028, 0, 4, .rw, 7⟩
/-- PMC_ERR_CONS.CONS -/
def errCons : FRef := ⟨0x11002C, 0, 32, .rw, 0⟩
/-- PMC_CL_CFG.CCLK_MAX of cluster `n` -/
def clMax (n : Nat) : FRef := ⟨0x110400 + 0x10 * n, 0, 6, .rw, 0x24⟩
/-- PMC_CL_CFG.COLD_EN -/
def clColdEn (n : Nat) : FRef := ⟨0x110400 + 0x10 * n, 6, 1, .rw, 0⟩
/-- PMC_CL_CFG.CHILL_DELAY -/
def clChillDelay (n : Nat) : FRef := ⟨0x110400 + 0x10 * n, 8, 8, .rw, 0x0A⟩
/-- PMC_CL_CFG.COLD_DELAY -/
def clColdDelay (n : Nat) : FRef := ⟨0x110400 + 0x10 * n, 16, 8, .rw, 0x64⟩
/-- PMC_CL_STAT.STATE -/
def clState (n : Nat) : FRef := ⟨0x110408 + 0x10 * n, 0, 2, .hwu, 3⟩
/-- PMC_CL_STAT.CCLK -/
def clCclk (n : Nat) : FRef := ⟨0x110408 + 0x10 * n, 2, 6, .hwu, 0⟩
/-- PMC_CL_STAT.VOLT_MV -/
def clVolt (n : Nat) : FRef := ⟨0x110408 + 0x10 * n, 8, 10, .hwu, 0⟩
/-- PMC_CL_STAT.TEMP -/
def clTemp (n : Nat) : FRef := ⟨0x110408 + 0x10 * n, 18, 8, .hwu, 0⟩
/-- PMC_CL_STAT.LIMIT_CAUSE -/
def clCause (n : Nat) : FRef := ⟨0x110408 + 0x10 * n, 26, 4, .hwu, 0⟩
/-- PMC_CL_STAT.THROTTLES -/
def clThrottles (n : Nat) : FRef := ⟨0x110408 + 0x10 * n, 48, 16, .cnt, 0⟩

/-! ## CCC (R223, R579), TUN (R192 to R194, R331), HARP (R154, R155) -/

/-- CCC_STAT.WIGN -/
def cccWign (n : Nat) : FRef := ⟨0x140000 + 0x1000 * n, 0, 1, .w1c, 0⟩
/-- CCC_STAT.LOSTINC -/
def cccLostInc (n : Nat) : FRef := ⟨0x140000 + 0x1000 * n, 1, 1, .w1c, 0⟩
/-- CCC_ENG_FLAGS bit `i`: 0 INVALID, 1 OVERFLOW, 2 FLUSHED, 3 SATURATED -/
def engFlag (n i : Nat) : FRef := ⟨0x140100 + 0x1000 * n, i, 1, .w1c, 0⟩
/-- CCC_ENG_FLAGS.SOURCE -/
def engSource (n : Nat) : FRef := ⟨0x140100 + 0x1000 * n, 8, 6, .w1c, 0⟩
/-- CCC_ENG_FLAGS.OOB_ROWS -/
def engOob (n : Nat) : FRef := ⟨0x140100 + 0x1000 * n, 16, 16, .hwu, 0⟩
/-- TUN_STAT.WIGN -/
def tunWign (n : Nat) : FRef := ⟨0x150000 + 0x1000 * n, 0, 1, .w1c, 0⟩
/-- TUN_STAT.CLEARING -/
def tunClearing (n : Nat) : FRef := ⟨0x150000 + 0x1000 * n, 1, 1, .hwu, 0⟩
/-- TUN_WAY_CFG.MODE of way `w` -/
def wayMode (n w : Nat) : FRef := ⟨0x150100 + 0x1000 * n + 8 * w, 0, 1, .hwu, 0⟩
/-- TUN_WAY_CFG.LOCK -/
def wayLock (n w : Nat) : FRef := ⟨0x150100 + 0x1000 * n + 8 * w, 1, 1, .hwu, 0⟩
/-- TUN_WAY_CFG.POOL -/
def wayPool (n w : Nat) : FRef := ⟨0x150100 + 0x1000 * n + 8 * w, 2, 1, .hwu, 0⟩
/-- TUN_WAY_CFG.CONVERTING -/
def wayConv (n w : Nat) : FRef := ⟨0x150100 + 0x1000 * n + 8 * w, 3, 1, .hwu, 0⟩
/-- TUN_POOL_CFG.FIRST_WAY of pool `k` -/
def poolFirst (n k : Nat) : FRef := ⟨0x150200 + 0x1000 * n + 0x10 * k, 0, 4, .hwu, 0⟩
/-- TUN_POOL_CFG.WAYS_M1 -/
def poolWays (n k : Nat) : FRef := ⟨0x150200 + 0x1000 * n + 0x10 * k, 4, 4, .hwu, 0⟩
/-- TUN_POOL_CFG.BLOCK_LOG2 -/
def poolBlock (n k : Nat) : FRef := ⟨0x150200 + 0x1000 * n + 0x10 * k, 8, 4, .hwu, 0xC⟩
/-- TUN_POOL_CFG.ENABLE -/
def poolEnable (n k : Nat) : FRef := ⟨0x150200 + 0x1000 * n + 0x10 * k, 12, 1, .hwu, 0⟩
/-- TUN_POOL_STAT.FREE -/
def poolFree (n k : Nat) : FRef := ⟨0x150208 + 0x1000 * n + 0x10 * k, 0, 16, .hwu, 0⟩
/-- TUN_POOL_STAT.RESERVE_FREE -/
def poolReserve (n k : Nat) : FRef := ⟨0x150208 + 0x1000 * n + 0x10 * k, 16, 1, .hwu, 0⟩
/-- TUN_POOL_STAT.POOL_ERR -/
def poolErr (n k : Nat) : FRef := ⟨0x150208 + 0x1000 * n + 0x10 * k, 17, 1, .w1c, 0⟩
/-- HARP_STAT.OWNED of core `g` -/
def harpOwned (g : Nat) : FRef := ⟨0x160000 + 0x40 * g, 0, 1, .ro, 0⟩
/-- HARP_STAT.OWNER_SLOT -/
def harpOwner (g : Nat) : FRef := ⟨0x160000 + 0x40 * g, 1, 4, .ro, 0⟩
/-- HARP_STAT.HSEQ_BUSY -/
def hseqBusy (g : Nat) : FRef := ⟨0x160000 + 0x40 * g, 5, 1, .ro, 0⟩
/-- HARP_STAT.HSEQ_TILE -/
def hseqTile (g : Nat) : FRef := ⟨0x160000 + 0x40 * g, 6, 1, .ro, 0⟩
/-- HARP_STAT.DRAIN_BUSY -/
def drainBusy (g : Nat) : FRef := ⟨0x160000 + 0x40 * g, 7, 1, .ro, 0⟩
/-- HARP_STAT.DRAIN_TILE -/
def drainTile (g : Nat) : FRef := ⟨0x160000 + 0x40 * g, 8, 1, .ro, 0⟩
/-- HARP_STAT.ZERO_BUSY -/
def zeroBusy (g : Nat) : FRef := ⟨0x160000 + 0x40 * g, 9, 1, .ro, 0⟩
/-- HARP_STAT.ZERO_TILE -/
def zeroTile (g : Nat) : FRef := ⟨0x160000 + 0x40 * g, 10, 1, .ro, 0⟩
/-- HARP_STAT.UNUSABLE -/
def harpUnusable (g : Nat) : FRef := ⟨0x160000 + 0x40 * g, 11, 1, .ro, 0⟩
/-- HARP_REPAIR field `i`: 0 ROW_SKIP0, 1 ROW_SKIP1, 2 COL_SKIP0, 3 COL_SKIP1; DESIGN CHOICE: no fuse is blown (log entry 3) -/
def harpRepair (g i : Nat) : FRef := ⟨0x160004 + 0x40 * g, 8 * i, 8, .ro, 0xFF⟩

/-! ## Shadow groups (R330, R331, R582) -/

/-- R582: the base of a shadow group's control register: 0 TUN group of cl `n`, 1 CRU home group, 2 AMX window group. -/
def shdBase (group n : Nat) : Nat :=
  if group = 0 then 0x150300 + 0x1000 * n else if group = 1 then 0x170200 else 0x384000

/-- SHD_CTL.EXPECT -/
def shdExpect (gr n : Nat) : FRef := ⟨shdBase gr n, 0, 12, .wo, 0⟩
/-- SHD_CTL.COMMIT -/
def shdCommit (gr n : Nat) : FRef := ⟨shdBase gr n, 12, 1, .wo, 0⟩
/-- SHD_CTL.DISCARD -/
def shdDiscard (gr n : Nat) : FRef := ⟨shdBase gr n, 13, 1, .wo, 0⟩
/-- SHD_STAT.GEN -/
def shdGen (gr n : Nat) : FRef := ⟨shdBase gr n + 4, 0, 12, .ro, 0⟩
/-- SHD_STAT.FAILED -/
def shdFailed (gr n : Nat) : FRef := ⟨shdBase gr n + 4, 12, 1, .w1c, 0⟩
/-- SHD_STAT.DIRTY -/
def shdDirty (gr n : Nat) : FRef := ⟨shdBase gr n + 4, 13, 1, .ro, 0⟩
/-- SHD_STAT.PENDING -/
def shdPending (gr n : Nat) : FRef := ⟨shdBase gr n + 4, 14, 1, .ro, 0⟩

/-! ## CRU (R259 to R262, R289, R290, R332, R333) -/

/-- CRU_STAT.WIGN -/
def cruWign : FRef := ⟨0x170000, 0, 1, .w1c, 0⟩
/-- CRU_WAY_LOCK.LOCK -/
def cruLock : FRef := ⟨0x170008, 4, 12, .rw, 0⟩
/-- CRU_MEM_STAT.HBM_READY -/
def hbmReady : FRef := ⟨0x170010, 0, 12, .hwu, 0⟩
/-- CRU_MEM_STAT.DC_READY -/
def dcReady : FRef := ⟨0x170010, 12, 16, .hwu, 0⟩
/-- CRU_COH_CFG.PEG -/
def cohPeg : FRef := ⟨0x170018, 0, 11, .rw, 0x40⟩
/-- CRU_COH_CFG.HOME_TO -/
def cohHomeTo : FRef := ⟨0x170018, 16, 11, .rw, 0x14⟩
/-- CRU_POUR_CFG.LOCK_TO -/
def pourLockTo : FRef := ⟨0x170020, 0, 6, .rw, 8⟩
/-- CRU_POUR_CFG.TOKEN_TO -/
def pourTokenTo : FRef := ⟨0x170020, 8, 8, .rw, 0x32⟩
/-- CRU_POUR_STAT.TOKEN_AGENT -/
def tokAgent : FRef := ⟨0x170028, 0, 12, .hwu, 0⟩
/-- CRU_POUR_STAT.TOKEN_HELD -/
def tokHeld : FRef := ⟨0x170028, 12, 1, .hwu, 0⟩
/-- CRU_POUR_STAT.TOKEN_WAIT -/
def tokWait : FRef := ⟨0x170028, 13, 8, .hwu, 0⟩
/-- CRU_HOME_MAP.HOME of hash value `h` -/
def homeMap (h : Nat) : FRef := ⟨0x170100 + 4 * h, 0, 6, .hwu, h⟩
/-- CRU_HOME_MAP.RETIRED -/
def homeRetired (h : Nat) : FRef := ⟨0x170100 + 4 * h, 6, 1, .hwu, 0⟩
/-- CRU_ST_MAP.HINT of entry `k` -/
def stMap (k : Nat) : FRef := ⟨0x170400 + 4 * k, 0, 16, .rw, 0⟩

/-! ## HPT (R444 to R446) and BIST (R532) -/

/-- HPT_STAT.WIGN -/
def hptWign : FRef := ⟨0x180000, 0, 1, .w1c, 0⟩
/-- HPT_STAT.WIDTH -/
def hptWidth : FRef := ⟨0x180000, 1, 5, .hwu, 0⟩
/-- HPT_STAT.RATE -/
def hptRate : FRef := ⟨0x180000, 6, 3, .hwu, 0⟩
/-- HPT_STAT.FLIT -/
def hptFlit : FRef := ⟨0x180000, 9, 1, .hwu, 0⟩
/-- HPT_STAT.MEM_ACTIVE -/
def hptMemActive : FRef := ⟨0x180000, 10, 1, .hwu, 0⟩
/-- HPT_STAT.FLR_SEEN -/
def hptFlrSeen : FRef := ⟨0x180000, 11, 1, .w1c, 0⟩
/-- HPT_MIRROR.ENABLE -/
def mirEnable : FRef := ⟨0x180008, 0, 1, .rw, 0⟩
/-- HPT_MIRROR.ADDR -/
def mirAddr : FRef := ⟨0x180008, 12, 52, .rw, 0⟩
/-- HPT_MIRROR_CFG.PERIOD_US -/
def mirPeriod : FRef := ⟨0x180010, 0, 10, .rw, 0x64⟩
/-- BIST_STAT.WIGN -/
def bistWign : FRef := ⟨0x190000, 0, 1, .w1c, 0⟩
/-- BIST_STAT.WR_DISCARD -/
def bistWrDiscard : FRef := ⟨0x190000, 1, 1, .w1c, 0⟩
/-- BIST_STAT.ACTIVE -/
def bistActive : FRef := ⟨0x190000, 2, 1, .hwu, 0⟩
/-- BIST_STAT.TARGET -/
def bistTarget : FRef := ⟨0x190000, 3, 12, .hwu, 0⟩
/-- BIST_SOCK_STAT.STATE of socket `n` (the 48-bit field's part for one socket) -/
def sockState (n : Nat) : FRef := ⟨0x190008, 3 * n, 3, .hwu, 0⟩
/-- BIST_SOCK_STAT.PRESENT of socket `n` -/
def sockPresent (n : Nat) : FRef := ⟨0x190008, 48 + n, 1, .hwu, 0⟩

/-! ## SPR (R380 to R383) -/

/-- The base of a sprue channel's registers. -/
def sprBase (e ch : Nat) : Nat := 0x200000 + 0x2000 * e + 0x100 * ch
/-- SPR_CH_DESCj -/
def sprDesc (e ch j : Nat) : FRef := ⟨sprBase e ch + 8 * j, 0, 64, .rw, 0⟩
/-- SPR_CH_CFG.SHARE -/
def sprShare (e ch : Nat) : FRef := ⟨sprBase e ch + 0x40, 0, 8, .rw, 0⟩
/-- SPR_CH_CFG.PASID -/
def sprPasid (e ch : Nat) : FRef := ⟨sprBase e ch + 0x40, 8, 20, .rw, 0⟩
/-- SPR_CH_CFG.PASID_EN -/
def sprPasidEn (e ch : Nat) : FRef := ⟨sprBase e ch + 0x40, 28, 1, .rw, 0⟩
/-- SPR_CH_CTL.GO -/
def sprGo (e ch : Nat) : FRef := ⟨sprBase e ch + 0x48, 0, 1, .wo, 0⟩
/-- SPR_CH_CTL.STOP -/
def sprStop (e ch : Nat) : FRef := ⟨sprBase e ch + 0x48, 1, 1, .wo, 0⟩
/-- SPR_CH_STAT.BUSY -/
def sprBusy (e ch : Nat) : FRef := ⟨sprBase e ch + 0x50, 0, 1, .hwu, 0⟩
/-- SPR_CH_STAT.PREEMPTED -/
def sprPreempted (e ch : Nat) : FRef := ⟨sprBase e ch + 0x50, 1, 1, .hwu, 0⟩
/-- SPR_CH_STAT.GO_LOST -/
def sprGoLost (e ch : Nat) : FRef := ⟨sprBase e ch + 0x50, 2, 1, .w1c, 0⟩
/-- SPR_CH_STAT.LAST_CODE -/
def sprLastCode (e ch : Nat) : FRef := ⟨sprBase e ch + 0x50, 8, 8, .hwu, 0⟩
/-- SPR_CH_STAT.LAST_SUB -/
def sprLastSub (e ch : Nat) : FRef := ⟨sprBase e ch + 0x50, 16, 8, .hwu, 0⟩
/-- SPR_CH_STAT.BEATS -/
def sprBeats (e ch : Nat) : FRef := ⟨sprBase e ch + 0x50, 32, 32, .cnt, 0⟩
/-- SPR_ENG_STAT.WIGN -/
def sprWign (e : Nat) : FRef := ⟨0x201800 + 0x2000 * e, 0, 1, .w1c, 0⟩
/-- SPR_ENG_STAT.LOSTINC -/
def sprLostInc (e : Nat) : FRef := ⟨0x201800 + 0x2000 * e, 1, 1, .w1c, 0⟩
/-- SPR_ENG_STAT.STOPPED -/
def sprStopped (e : Nat) : FRef := ⟨0x201800 + 0x2000 * e, 2, 1, .hwu, 0⟩
/-- SPR_ENG_STAT.PRIV_ERR -/
def sprPrivErr (e : Nat) : FRef := ⟨0x201800 + 0x2000 * e, 3, 1, .w1c, 0⟩

/-! ## AMX (R354 to R356, R416 to R421) -/

/-- AMX_PORT_CTL.ENABLE of port `p` -/
def pEnable (p : Nat) : FRef := ⟨0x300000 + 0x1000 * p, 0, 1, .rw, 0⟩
/-- AMX_PORT_CTL.RETRAIN -/
def pRetrain (p : Nat) : FRef := ⟨0x300000 + 0x1000 * p, 1, 1, .wo, 0⟩
/-- AMX_PORT_CTL.AUTO_NARROW -/
def pAutoNarrow (p : Nat) : FRef := ⟨0x300000 + 0x1000 * p, 2, 1, .rw, 1⟩
/-- AMX_PORT_CTL.LANE_EN -/
def pLaneEn (p : Nat) : FRef := ⟨0x300000 + 0x1000 * p, 4, 4, .rw, 0xF⟩
/-- AMX_PORT_STAT.STATE -/
def pState (p : Nat) : FRef := ⟨0x300008 + 0x1000 * p, 0, 3, .hwu, 0⟩
/-- AMX_PORT_STAT.WIDTH -/
def pWidth (p : Nat) : FRef := ⟨0x300008 + 0x1000 * p, 3, 1, .hwu, 0⟩
/-- AMX_PORT_STAT.LANES -/
def pLanes (p : Nat) : FRef := ⟨0x300008 + 0x1000 * p, 4, 4, .hwu, 0⟩
/-- AMX_PORT_STAT.PEER_SWITCH -/
def pPeerSwitch (p : Nat) : FRef := ⟨0x300008 + 0x1000 * p, 8, 1, .hwu, 0⟩
/-- AMX_PORT_STAT.LANE_FAULT -/
def pLaneFault (p : Nat) : FRef := ⟨0x300008 + 0x1000 * p, 9, 1, .w1c, 0⟩
/-- AMX_PORT_STAT.PLANE -/
def pPlane (p : Nat) : FRef := ⟨0x300008 + 0x1000 * p, 16, 8, .hwu, 0⟩
/-- AMX_PORT_STAT.LINK_DELAY -/
def pLinkDelay (p : Nat) : FRef := ⟨0x300008 + 0x1000 * p, 32, 24, .hwu, 0⟩
/-- AMX_PORT_ERR.CORR -/
def pCorr (p : Nat) : FRef := ⟨0x300010 + 0x1000 * p, 0, 32, .cnt, 0⟩
/-- AMX_PORT_ERR.UNCORR -/
def pUncorr (p : Nat) : FRef := ⟨0x300010 + 0x1000 * p, 32, 16, .cnt, 0⟩
/-- AMX_PORT_ERR.REPLAY -/
def pReplay (p : Nat) : FRef := ⟨0x300010 + 0x1000 * p, 48, 16, .cnt, 0⟩
/-- AMX_STAT.WIGN -/
def amxWign : FRef := ⟨0x340000, 0, 1, .w1c, 0⟩
/-- AMX_STAT.LOSTINC -/
def amxLostInc : FRef := ⟨0x340000, 1, 1, .w1c, 0⟩
/-- AMX_STAT.LOCKED -/
def amxLocked : FRef := ⟨0x340000, 2, 1, .hwu, 0⟩
/-- AMX_STAT.HOLDOVER -/
def amxHoldover : FRef := ⟨0x340000, 3, 1, .hwu, 0⟩
/-- AMX_STAT.ALIGN_LOST -/
def amxAlignLost : FRef := ⟨0x340000, 4, 1, .w1c, 0⟩
/-- AMX_STAT.LAST_OFS -/
def amxLastOfs : FRef := ⟨0x340000, 16, 16, .hwu, 0⟩
/-- AMX_FRET_CFG.ROLE -/
def fretRole : FRef := ⟨0x340008, 0, 2, .rw, 0⟩
/-- AMX_FRET_CFG.PERIOD_NS -/
def fretPeriod : FRef := ⟨0x340008, 8, 13, .rw, 0x3E8⟩
/-- AMX_FRET_CFG.STRETCH_Q_NS -/
def fretStretch : FRef := ⟨0x340008, 24, 11, .rw, 0x64⟩
/-- AMX_FRET_CFG.HOLDOVER -/
def fretHold : FRef := ⟨0x340008, 40, 8, .rw, 0x10⟩
/-- AMX_DEV_ID.DEV -/
def amxDev : FRef := ⟨0x340010, 0, 11, .rw, 0⟩
/-- AMX_FRET.FRET -/
def amxFret : FRef := ⟨0x340018, 0, 64, .hwu, 0⟩
/-- AMX_LATE_CNT.LATE of cluster `n` -/
def lateCnt (n : Nat) : FRef := ⟨0x340100 + 4 * n, 0, 32, .cnt, 0⟩
/-- AMX_WIN_APER.APER_BASE -/
def aperBase : FRef := ⟨0x380000, 44, 8, .rw, 0⟩
/-- AMX_WIN_APER.ENABLE -/
def aperEnable : FRef := ⟨0x380000, 63, 1, .rw, 0⟩
/-- AMX_OWIN.VALID of window `w` -/
def owValid (w : Nat) : FRef := ⟨0x381000 + 8 * w, 0, 1, .rw, 0⟩
/-- AMX_OWIN.SIZE_LOG2 -/
def owSize (w : Nat) : FRef := ⟨0x381000 + 8 * w, 1, 6, .rw, 0x0C⟩
/-- AMX_OWIN.DEV -/
def owDev (w : Nat) : FRef := ⟨0x381000 + 8 * w, 8, 11, .rw, 0⟩
/-- AMX_OWIN.IWIN -/
def owIwin (w : Nat) : FRef := ⟨0x381000 + 8 * w, 24, 8, .rw, 0⟩
/-- AMX_OWIN.OFFSET_4K -/
def owOffset (w : Nat) : FRef := ⟨0x381000 + 8 * w, 32, 32, .rw, 0⟩
/-- AMX_IWIN_LO.VALID -/
def iwValid (w : Nat) : FRef := ⟨0x382000 + 0x10 * w, 0, 1, .rw, 0⟩
/-- AMX_IWIN_LO.SIZE_LOG2 -/
def iwSize (w : Nat) : FRef := ⟨0x382000 + 0x10 * w, 1, 6, .rw, 0x0C⟩
/-- AMX_IWIN_LO.KEYSEL -/
def iwKey (w : Nat) : FRef := ⟨0x382000 + 0x10 * w, 8, 6, .rw, 0⟩
/-- AMX_IWIN_LO permission bit `i`: 0 PERM_R, 1 PERM_W, 2 PERM_ATOM, 3 PERM_SEMA -/
def iwPerm (w i : Nat) : FRef := ⟨0x382000 + 0x10 * w, 16 + i, 1, .rw, 0⟩
/-- AMX_IWIN_LO.SRC_ANY -/
def iwAny (w : Nat) : FRef := ⟨0x382000 + 0x10 * w, 20, 1, .rw, 0⟩
/-- AMX_IWIN_LO.SRC_DEV -/
def iwSrc (w : Nat) : FRef := ⟨0x382000 + 0x10 * w, 21, 11, .rw, 0⟩
/-- AMX_IWIN_HI.LOC_BASE -/
def iwBase (w : Nat) : FRef := ⟨0x382008 + 0x10 * w, 12, 34, .rw, 0⟩

/-! ## TRC (R569 to R572) -/

/-- TRC_STAT.WIGN -/
def trcWign : FRef := ⟨0x400000, 0, 1, .w1c, 0⟩
/-- TRC_STAT.LOSTINC -/
def trcLostInc : FRef := ⟨0x400000, 1, 1, .w1c, 0⟩
/-- TRC_STAT.WATCH_ERR -/
def trcWatchErr : FRef := ⟨0x400000, 2, 1, .w1c, 0⟩
/-- TRC_STAT.RING_ERR -/
def trcRingErr : FRef := ⟨0x400000, 3, 1, .w1c, 0⟩
/-- TRC_TRIG_CFG.SRC_EN -/
def trigSrc : FRef := ⟨0x400008, 0, 6, .rw, 1⟩
/-- TRC_TRIG_CFG.FABRIC_OUT -/
def trigFabric : FRef := ⟨0x400008, 6, 1, .rw, 0⟩
/-- TRC_TRIG_CFG.DRIVE_PIN -/
def trigPin : FRef := ⟨0x400008, 7, 1, .rw, 0⟩
/-- TRC_TRIG_CFG.STOP_TRACE -/
def trigStop : FRef := ⟨0x400008, 8, 1, .rw, 0⟩
/-- TRC_TRIG_CTL.FIRE -/
def trigFire : FRef := ⟨0x40000C, 0, 1, .wo, 0⟩
/-- TRC_TRIG_CTL.REARM -/
def trigRearm : FRef := ⟨0x40000C, 1, 1, .wo, 0⟩
/-- TRC_TRIG_STAT.FROZEN -/
def trigFrozen : FRef := ⟨0x400010, 0, 1, .hwu, 0⟩
/-- TRC_TRIG_STAT.CAUSE -/
def trigCause : FRef := ⟨0x400010, 1, 3, .hwu, 0⟩
/-- TRC_FREEZE_FRET.FRET -/
def freezeFret : FRef := ⟨0x400018, 0, 64, .hwu, 0⟩
/-- TRC_FREEZE_TS.TS -/
def freezeTs : FRef := ⟨0x400020, 0, 64, .hwu, 0⟩
/-- TRC_TS.TS -/
def trcTs : FRef := ⟨0x400028, 0, 64, .hwu, 0⟩
/-- TRC_RING_BASE.ENABLE of ring `r` -/
def ringEnable (r : Nat) : FRef := ⟨0x401000 + 0x40 * r, 0, 1, .rw, 0⟩
/-- TRC_RING_BASE.WRAP -/
def ringWrap (r : Nat) : FRef := ⟨0x401000 + 0x40 * r, 1, 1, .rw, 0⟩
/-- TRC_RING_BASE.SIZE_LOG2 -/
def ringSize (r : Nat) : FRef := ⟨0x401000 + 0x40 * r, 2, 5, .rw, 0x0A⟩
/-- TRC_RING_BASE.DPA -/
def ringDpa (r : Nat) : FRef := ⟨0x401000 + 0x40 * r, 12, 40, .rw, 0⟩
/-- TRC_RING_CFG.TYPE_MASK -/
def ringMask (r : Nat) : FRef := ⟨0x401008 + 0x40 * r, 0, 16, .rw, 0⟩
/-- TRC_RING_CFG.SAMPLE_LOG2 (ring 16 only) -/
def ringSample : FRef := ⟨0x401408, 16, 4, .rw, 0xF⟩
/-- TRC_RING_STAT.PROD -/
def ringProd (r : Nat) : FRef := ⟨0x401010 + 0x40 * r, 0, 32, .hwu, 0⟩
/-- TRC_RING_STAT.DROPS -/
def ringDrops (r : Nat) : FRef := ⟨0x401010 + 0x40 * r, 32, 16, .cnt, 0⟩
/-- TRC_RING_CONS.CONS -/
def ringCons (r : Nat) : FRef := ⟨0x401018 + 0x40 * r, 0, 32, .rw, 0⟩
/-- TRC_WATCH.ARMED of entry `j` of cluster `n` -/
def watchArmed (n j : Nat) : FRef := ⟨0x402000 + 0x40 * n + 8 * j, 0, 1, .rw, 0⟩
/-- TRC_WATCH.DESC -/
def watchDesc (n j : Nat) : FRef := ⟨0x402000 + 0x40 * n + 8 * j, 6, 46, .rw, 0⟩

/-- The offset of counter `i` of a unit: 0–191 a core, 192–207 a cluster, 208 the base die (R551, R571). -/
def cntOff (u i : Nat) : Nat :=
  if u < 192 then 0x410000 + 0x100 * u + 8 * i
  else if u < 208 then 0x420000 + 0x200 * (u - 192) + 8 * i
  else 0x430000 + 8 * i

/-- The offset of its select register. -/
def selOff (u i : Nat) : Nat :=
  if u < 192 then 0x410080 + 0x100 * u + 4 * i
  else if u < 208 then 0x420100 + 0x200 * (u - 192) + 4 * i
  else 0x430800 + 4 * i

/-- TRC_CNT.COUNT -/
def cntCount (u i : Nat) : FRef := ⟨cntOff u i, 0, 48, .cnt, 0⟩
/-- TRC_CNT.OVF -/
def cntOvf (u i : Nat) : FRef := ⟨cntOff u i, 63, 1, .w1c, 0⟩
/-- TRC_SEL.EVENT -/
def selEvent (u i : Nat) : FRef := ⟨selOff u i, 0, 8, .rw, 0⟩
/-- TRC_SEL.ENABLE -/
def selEnable (u i : Nat) : FRef := ⟨selOff u i, 8, 1, .rw, 0⟩
/-- TRC_SEL.TRIG_OVF -/
def selTrig (u i : Nat) : FRef := ⟨selOff u i, 9, 1, .rw, 0⟩
/-- TRC_SEL.INSTANCE (base die) -/
def selInst (u i : Nat) : FRef := ⟨selOff u i, 16, 8, .rw, 0xFF⟩

/-! ## Finding the register at an offset (R574, R575) -/

/-- A register: its offset, its width in bytes, its fields. -/
structure RegInfo where
  off : Nat
  bytes : Nat
  fields : List FRef
  deriving DecidableEq, Repr

/-- The firmware registers of processor `p` at an offset within its block. -/
def fwRegs (p o : Nat) : Option RegInfo :=
  if o / 8 * 8 = 0x200 then some ⟨fwBase p + 0x200, 8, [fwState p, fwResets p, fwLoopMax p, fwImageVer p]⟩
  else if o = 0x208 then some ⟨fwBase p + 0x208, 4, [fwWdt p]⟩
  else none

/-- Registers of the SEC block. -/
def secRegs (o : Nat) : Option RegInfo :=
  if o = 0x000 then some ⟨0x100000, 4, [secWign, secLostInc]⟩
  else if o / 8 * 8 = 0x100 then some ⟨0x100100, 8, [bootSrc]⟩
  else if o = 0x108 then some ⟨0x100108, 4, [bootTarget, bootGoBit]⟩
  else if o = 0x10C then some ⟨0x10010C, 4, [bootBusy, bootLoaded, bootGoLost, bootCode, bootSub]⟩
  else if o = 0x300 then some ⟨0x100300, 4, [keyCtlSel, keyCtlRegen]⟩
  else if o = 0x304 then some ⟨0x100304, 4, [keyBusy, keySel, keyErr, keyLost, keyGen]⟩
  else if o = 0x308 then some ⟨0x100308, 4, [dbgState, dbgFails]⟩
  else fwRegs 0 o

/-- Registers of the PMC block. -/
def pmcRegs (o : Nat) : Option RegInfo :=
  if o = 0x000 then some ⟨0x110000, 4, [pmcWign, pmcLostInc, pmcLimiting]⟩
  else if o = 0x008 then some ⟨0x110008, 4, [pmcLimit]⟩
  else if o = 0x010 then some ⟨0x110010, 4, [pmcInput, pmcPeak]⟩
  else if o = 0x018 then some ⟨0x110018, 4, [pmcTjMax, pmcHotSite, pmcHold]⟩
  else if o / 8 * 8 = 0x020 then some ⟨0x110020, 8, [errEnable, errAddr]⟩
  else if o = 0x028 then some ⟨0x110028, 4, [errSize]⟩
  else if o = 0x02C then some ⟨0x11002C, 4, [errCons]⟩
  else if 0x400 ≤ o ∧ o < 0x500 then
    let n := (o - 0x400) / 0x10
    if (o - 0x400) % 0x10 = 0 then some ⟨0x110400 + 0x10 * n, 4, [clMax n, clColdEn n, clChillDelay n, clColdDelay n]⟩
    else if (o - 0x400) % 0x10 / 8 = 1 then
      some ⟨0x110408 + 0x10 * n, 8, [clState n, clCclk n, clVolt n, clTemp n, clCause n, clThrottles n]⟩
    else none
  else fwRegs 1 o

/-- Registers of the SCH block. -/
def schRegs (o : Nat) : Option RegInfo :=
  if o = 0x000 then some ⟨0x120000, 4, [schWign, schLostInc]⟩
  else if 0x10000 ≤ o ∧ o < 0x14000 then
    let q := (o - 0x10000) / 0x20
    let r := (o - 0x10000) % 0x20
    let b := 0x130000 + 0x20 * q
    if r < 8 then some ⟨b, 8, [qBase q]⟩
    else if r < 16 then some ⟨b + 8, 8, [qSize q, qEnable q, qWeight q, qPasid q, qPasidEn q]⟩
    else if r < 24 then some ⟨b + 16, 8, [qHead q, qActive q, qErr q, qCfgErr q, qResetBusy q]⟩
    else if r < 28 then some ⟨b + 24, 4, [qReset q]⟩
    else some ⟨b + 28, 4, [qBudget q]⟩
  else fwRegs 2 o

/-- Registers of the CCC block. -/
def cccRegs (o : Nat) : Option RegInfo :=
  let n := o / 0x1000
  let r := o % 0x1000
  if r = 0 then some ⟨0x140000 + 0x1000 * n, 4, [cccWign n, cccLostInc n]⟩
  else if r = 0x100 then
    some ⟨0x140100 + 0x1000 * n, 4,
      [engFlag n 0, engFlag n 1, engFlag n 2, engFlag n 3, engSource n, engOob n]⟩
  else fwRegs (3 + n) r

/-- Control and status registers of a shadow group. -/
def shdRegs (gr n o : Nat) : Option RegInfo :=
  if o = 0 then some ⟨shdBase gr n, 4, [shdExpect gr n, shdCommit gr n, shdDiscard gr n]⟩
  else if o = 4 then some ⟨shdBase gr n + 4, 4, [shdGen gr n, shdFailed gr n, shdDirty gr n, shdPending gr n]⟩
  else none

/-- Registers of the TUN block. -/
def tunRegs (o : Nat) : Option RegInfo :=
  let n := o / 0x1000
  let r := o % 0x1000
  if r = 0 then some ⟨0x150000 + 0x1000 * n, 4, [tunWign n, tunClearing n]⟩
  else if 0x100 ≤ r ∧ r < 0x180 ∧ r % 8 = 0 then
    let w := (r - 0x100) / 8
    some ⟨0x150100 + 0x1000 * n + 8 * w, 4, [wayMode n w, wayLock n w, wayPool n w, wayConv n w]⟩
  else if 0x200 ≤ r ∧ r < 0x240 then
    let k := (r - 0x200) / 0x10
    if (r - 0x200) % 0x10 = 0 then
      some ⟨0x150200 + 0x1000 * n + 0x10 * k, 4, [poolFirst n k, poolWays n k, poolBlock n k, poolEnable n k]⟩
    else if (r - 0x200) % 0x10 = 8 then
      some ⟨0x150208 + 0x1000 * n + 0x10 * k, 4, [poolFree n k, poolReserve n k, poolErr n k]⟩
    else none
  else if 0x300 ≤ r then shdRegs 0 n (r - 0x300)
  else none

/-- Registers of the HARP block. -/
def harpRegs (o : Nat) : Option RegInfo :=
  let g := o / 0x40
  if 192 ≤ g then none
  else if o % 0x40 = 0 then
    some ⟨0x160000 + 0x40 * g, 4, [harpOwned g, harpOwner g, hseqBusy g, hseqTile g, drainBusy g, drainTile g,
      zeroBusy g, zeroTile g, harpUnusable g]⟩
  else if o % 0x40 = 4 then some ⟨0x160004 + 0x40 * g, 4, [harpRepair g 0, harpRepair g 1, harpRepair g 2, harpRepair g 3]⟩
  else none

/-- Registers of the CRU block. -/
def cruRegs (o : Nat) : Option RegInfo :=
  if o = 0x00 then some ⟨0x170000, 4, [cruWign]⟩
  else if o = 0x08 then some ⟨0x170008, 4, [cruLock]⟩
  else if o = 0x10 then some ⟨0x170010, 4, [hbmReady, dcReady]⟩
  else if o = 0x18 then some ⟨0x170018, 4, [cohPeg, cohHomeTo]⟩
  else if o = 0x20 then some ⟨0x170020, 4, [pourLockTo, pourTokenTo]⟩
  else if o = 0x28 then some ⟨0x170028, 4, [tokAgent, tokHeld, tokWait]⟩
  else if 0x100 ≤ o ∧ o < 0x200 ∧ o % 4 = 0 then
    let h := (o - 0x100) / 4
    some ⟨0x170100 + 4 * h, 4, [homeMap h, homeRetired h]⟩
  else if 0x200 ≤ o ∧ o < 0x208 then shdRegs 1 0 (o - 0x200)
  else if 0x400 ≤ o ∧ o < 0x800 ∧ o % 4 = 0 then
    let k := (o - 0x400) / 4
    some ⟨0x170400 + 4 * k, 4, [stMap k]⟩
  else none

/-- Registers of the HPT block. -/
def hptRegs (o : Nat) : Option RegInfo :=
  if o = 0x00 then some ⟨0x180000, 4, [hptWign, hptWidth, hptRate, hptFlit, hptMemActive, hptFlrSeen]⟩
  else if o / 8 * 8 = 0x08 then some ⟨0x180008, 8, [mirEnable, mirAddr]⟩
  else if o = 0x10 then some ⟨0x180010, 4, [mirPeriod]⟩
  else none

/-- Registers of the BIST block. -/
def bistRegs (o : Nat) : Option RegInfo :=
  if o = 0x00 then some ⟨0x190000, 4, [bistWign, bistWrDiscard, bistActive, bistTarget]⟩
  else if o / 8 * 8 = 0x08 then
    some ⟨0x190008, 8, (List.range 16).map sockState ++ (List.range 16).map sockPresent⟩
  else none

/-- Registers of the SPR block. -/
def sprRegs (o : Nat) : Option RegInfo :=
  let e := o / 0x2000
  let r := o % 0x2000
  if 17 ≤ e then none
  else if r = 0x1800 then
    some ⟨0x201800 + 0x2000 * e, 4, [sprWign e, sprLostInc e, sprStopped e, sprPrivErr e]⟩
  else
    let ch := r / 0x100
    let x := r % 0x100
    if (if e = 16 then 16 else 8) ≤ ch then none
    else if x < 0x40 then some ⟨sprBase e ch + x / 8 * 8, 8, [sprDesc e ch (x / 8)]⟩
    else if x < 0x48 then some ⟨sprBase e ch + 0x40, 8, [sprShare e ch, sprPasid e ch, sprPasidEn e ch]⟩
    else if x = 0x48 then some ⟨sprBase e ch + 0x48, 4, [sprGo e ch, sprStop e ch]⟩
    else if 0x50 ≤ x ∧ x < 0x58 then
      some ⟨sprBase e ch + 0x50, 8, [sprBusy e ch, sprPreempted e ch, sprGoLost e ch, sprLastCode e ch, sprLastSub e ch,
        sprBeats e ch]⟩
    else none

/-- Registers of the AMX block. -/
def amxRegs (o : Nat) : Option RegInfo :=
  if o < 0x18000 then
    let p := o / 0x1000
    let r := o % 0x1000
    if r = 0 then some ⟨0x300000 + 0x1000 * p, 4, [pEnable p, pRetrain p, pAutoNarrow p, pLaneEn p]⟩
    else if r / 8 = 1 then
      some ⟨0x300008 + 0x1000 * p, 8, [pState p, pWidth p, pLanes p, pPeerSwitch p, pLaneFault p, pPlane p, pLinkDelay p]⟩
    else if r / 8 = 2 then some ⟨0x300010 + 0x1000 * p, 8, [pCorr p, pUncorr p, pReplay p]⟩
    else none
  else if o = 0x40000 then
    some ⟨0x340000, 4, [amxWign, amxLostInc, amxLocked, amxHoldover, amxAlignLost, amxLastOfs]⟩
  else if o / 8 * 8 = 0x40008 then some ⟨0x340008, 8, [fretRole, fretPeriod, fretStretch, fretHold]⟩
  else if o = 0x40010 then some ⟨0x340010, 4, [amxDev]⟩
  else if o / 8 * 8 = 0x40018 then some ⟨0x340018, 8, [amxFret]⟩
  else if 0x40100 ≤ o ∧ o < 0x40140 ∧ o % 4 = 0 then
    some ⟨0x340100 + 4 * ((o - 0x40100) / 4), 4, [lateCnt ((o - 0x40100) / 4)]⟩
  else if o / 8 * 8 = 0x80000 then some ⟨0x380000, 8, [aperBase, aperEnable]⟩
  else if 0x81000 ≤ o ∧ o < 0x81800 then
    let w := (o - 0x81000) / 8
    some ⟨0x381000 + 8 * w, 8, [owValid w, owSize w, owDev w, owIwin w, owOffset w]⟩
  else if 0x82000 ≤ o ∧ o < 0x83000 then
    let w := (o - 0x82000) / 0x10
    if (o - 0x82000) % 0x10 < 8 then
      some ⟨0x382000 + 0x10 * w, 8, [iwValid w, iwSize w, iwKey w, iwPerm w 0, iwPerm w 1, iwPerm w 2, iwPerm w 3,
        iwAny w, iwSrc w]⟩
    else some ⟨0x382008 + 0x10 * w, 8, [iwBase w]⟩
  else if 0x84000 ≤ o ∧ o < 0x84008 then shdRegs 2 0 (o - 0x84000)
  else none

/-- A counter or select register of a unit with `k` counters, at an offset within the unit. -/
def cntRegs (u k o : Nat) : Option RegInfo :=
  if o < 8 * k then some ⟨cntOff u (o / 8), 8, [cntCount u (o / 8), cntOvf u (o / 8)]⟩
  else if o < 12 * k ∧ o % 4 = 0 then
    let i := (o - 8 * k) / 4
    some ⟨selOff u i, 4, [selEvent u i, selEnable u i, selTrig u i] ++ (if u = 208 then [selInst u i] else [])⟩
  else none

/-- Registers of the TRC block. -/
def trcRegs (o : Nat) : Option RegInfo :=
  if o = 0x00 then some ⟨0x400000, 4, [trcWign, trcLostInc, trcWatchErr, trcRingErr]⟩
  else if o = 0x08 then some ⟨0x400008, 4, [trigSrc, trigFabric, trigPin, trigStop]⟩
  else if o = 0x0C then some ⟨0x40000C, 4, [trigFire, trigRearm]⟩
  else if o = 0x10 then some ⟨0x400010, 4, [trigFrozen, trigCause]⟩
  else if o / 8 * 8 = 0x18 then some ⟨0x400018, 8, [freezeFret]⟩
  else if o / 8 * 8 = 0x20 then some ⟨0x400020, 8, [freezeTs]⟩
  else if o / 8 * 8 = 0x28 then some ⟨0x400028, 8, [trcTs]⟩
  else if 0x1000 ≤ o ∧ o < 0x1440 then
    let r := (o - 0x1000) / 0x40
    let x := (o - 0x1000) % 0x40
    if x < 8 then some ⟨0x401000 + 0x40 * r, 8, [ringEnable r, ringWrap r, ringSize r, ringDpa r]⟩
    else if x = 8 then some ⟨0x401008 + 0x40 * r, 4, ringMask r :: (if r = 16 then [ringSample] else [])⟩
    else if x / 8 = 2 then some ⟨0x401010 + 0x40 * r, 8, [ringProd r, ringDrops r]⟩
    else if x = 0x18 then some ⟨0x401018 + 0x40 * r, 4, [ringCons r]⟩
    else none
  else if 0x2000 ≤ o ∧ o < 0x2400 then
    let n := (o - 0x2000) / 0x40
    let j := (o - 0x2000) % 0x40 / 8
    if j < 4 then some ⟨0x402000 + 0x40 * n + 8 * j, 8, [watchArmed n j, watchDesc n j]⟩ else none
  else if 0x10000 ≤ o ∧ o < 0x1C000 then cntRegs ((o - 0x10000) / 0x100) 16 ((o - 0x10000) % 0x100)
  else if 0x20000 ≤ o ∧ o < 0x22000 then cntRegs (192 + (o - 0x20000) / 0x200) 32 ((o - 0x20000) % 0x200)
  else if 0x30000 ≤ o ∧ o < 0x30C00 then cntRegs 208 256 (o - 0x30000)
  else none

/-- R574: the register that holds a BAR0 offset; none where no register is named (R575). -/
def regAt (o : Nat) : Option RegInfo :=
  let b := o / 0x10000
  if b = 0x10 then secRegs (o - 0x100000)
  else if b = 0x11 then pmcRegs (o - 0x110000)
  else if b = 0x12 ∨ b = 0x13 then schRegs (o - 0x120000)
  else if b = 0x14 then cccRegs (o - 0x140000)
  else if b = 0x15 then tunRegs (o - 0x150000)
  else if b = 0x16 then harpRegs (o - 0x160000)
  else if b = 0x17 then cruRegs (o - 0x170000)
  else if b = 0x18 then hptRegs (o - 0x180000)
  else if b = 0x19 then bistRegs (o - 0x190000)
  else if 0x20 ≤ b ∧ b < 0x24 then sprRegs (o - 0x200000)
  else if 0x30 ≤ b ∧ b < 0x40 then amxRegs (o - 0x300000)
  else if 0x40 ≤ b ∧ b < 0x44 then trcRegs (o - 0x400000)
  else none

/-- R578: the WIGN bit of the block, or of the instance, that holds an offset. -/
def wignOf (o : Nat) : Option FRef :=
  let b := o / 0x10000
  if b = 0x10 then some secWign
  else if b = 0x11 then some pmcWign
  else if b = 0x12 ∨ b = 0x13 then some schWign
  else if b = 0x14 then some (cccWign ((o - 0x140000) / 0x1000))
  else if b = 0x15 then some (tunWign ((o - 0x150000) / 0x1000))
  else if b = 0x17 then some cruWign
  else if b = 0x18 then some hptWign
  else if b = 0x19 then some bistWign
  else if 0x20 ≤ b ∧ b < 0x24 then some (sprWign ((o - 0x200000) / 0x2000))
  else if 0x30 ≤ b ∧ b < 0x40 then some amxWign
  else if 0x40 ≤ b ∧ b < 0x44 then some trcWign
  else none

/-- R578: the LOSTINC bit of the block, or of the instance, that holds an offset. -/
def lostOf (o : Nat) : Option FRef :=
  let b := o / 0x10000
  if b = 0x10 then some secLostInc
  else if b = 0x11 then some pmcLostInc
  else if b = 0x12 ∨ b = 0x13 then some schLostInc
  else if b = 0x14 then some (cccLostInc ((o - 0x140000) / 0x1000))
  else if 0x20 ≤ b ∧ b < 0x24 then some (sprLostInc ((o - 0x200000) / 0x2000))
  else if 0x30 ≤ b ∧ b < 0x40 then some amxLostInc
  else if 0x40 ≤ b ∧ b < 0x44 then some trcLostInc
  else none

end Sys2Proof.Machine
end

