-- ==== Sys2Proof/Machine/State.lean ====
section
/-!
DEFINITION. The state of the NV-192 as plain data: every register, memory, cache directory, queue, engine and
pin the spec gives it, the queue of waiting commands, and the state at reset.  A table lists only what differs
from its default; the defaults are the reset values.
-/
namespace Sys2Proof.Machine

/-! ## Agents, accesses and outcomes -/

/-- Who waits for a translation, a page, a host read or an acknowledgement: a course, an engine command (queue 9 stands for
the tensor-watch unit), a sprue channel, a host command's own access, a reporting write, the courses of a cluster that have
exited, the casting of a slot that has ended or ends, an INVALIDATE of a queue (512: the host's ATS message), a miss register
of a core (R239), the host coherence bridge for a line (R286), the prefetch of a course (R114). -/
inductive Waiter where
  | course (g slot : Nat)
  | engine (cl qi : Nat)
  | chan (e ch : Nat)
  | command (q : Nat)
  | posted
  | cores (cl : Nat)
  | casting (k : Nat)
  | inval (q : Nat)
  | miss (g tag : Nat)
  | bridge (line : Nat)
  | pref (g slot : Nat)
  deriving DecidableEq, Repr

/-- R12, R61: how a command ends: its state byte, code, subcode, agent and fault address. -/
structure Ending where
  st : Nat
  code : Nat
  sub : Nat
  agent : Nat
  addr : Nat
  deriving DecidableEq, Repr

/-! ## Host queues, commands and castings (chapter 2) -/

/-- A command copied from its ring entry (R34, R40), with what its status record shows (R61). -/
structure Cmd where
  bytes : List Byte := []
  started : Bool := false
  tStart : Nat := 0
  upd : Nat := 0
  progress : Nat := 0
  version : Nat := 0
  flags : Nat := 0
  slot : Option Nat := none
  ending : Option Ending := none
  draining : Nat := 0          -- 0 none, 1 budget expiry, 2 queue reset (R59, R35)
  drainLeft : Nat := 0         -- AO tick at which the drain was ordered
  stage : Nat := 0             -- how far a command of several steps has come
  work : List Nat := []        -- its own working numbers (chunks, windows, save points)
  tProg : Nat := 0             -- tick of the last progress update (R63)
  tBell : Nat := 0             -- tick of the queue's latest doorbell when it was fetched (R485)
  deriving DecidableEq, Repr

/-- One host queue (R27 to R36): the latest TAIL, the fetched commands that have not ended, oldest first, and the SEQ
of every command that has. -/
structure Queue where
  tail : Nat := 0
  fetched : List Cmd := []
  ended : List Nat := []
  credit : Nat := 0
  bell : Nat := 0              -- AO tick of its latest doorbell write (R485)
  deriving DecidableEq, Repr

/-- One casting slot (R38): the running casting. -/
structure Casting where
  live : Bool := false
  q : Nat := 0
  ctx : Nat := 0
  root : Nat := 0
  hdr : Nat := 0
  version : Nat := 0
  mask : Nat := 0
  nodes : Nat := 0
  sched : Bool := false
  schedId : Nat := 0
  startFret : Nat := 0
  latFrets : Nat := 0
  period : Nat := 0
  stretchBudget : Nat := 0
  stretchNs : Nat := 0
  frets : List Byte := []      -- the fret table (R401)
  nodeMasks : List Nat := []   -- node → the clusters that report it (R203)
  riser : List Nat := []
  reports : Tbl Nat := []      -- node → clusters that have reported it (R202)
  ended : Nat := 0             -- clusters that have ended their part
  late : Bool := false
  serialPour : Bool := false
  ending : Option Ending := none
  layer : Nat := 0
  op : Nat := 0
  wrote : List (Nat × Nat × Nat × Nat) := []   -- what it has written outside cores and scratch: node, space (as in WriteRec), address, length (R60)
  deriving DecidableEq, Repr

/-- What a slot has prefetched for its next casting (R53): the queue, the command's SEQ and the version. -/
structure Prefetch where
  q : Nat := 0
  seq : Nat := 0
  version : Nat := 0
  hdr : Nat := 0
  streams : List (Nat × Nat) := []   -- cluster → ADDR of its command-stream segment, whose first lines the crucible holds
  riser : List Nat := []       -- its riser fields, where they have been read; DIRECT and SEED ones are used
  deriving DecidableEq, Repr

/-- The single claimant of R38: the queue of the waiting LAUNCH, its clusters, and those it already holds. -/
structure Claimant where
  q : Nat
  mask : Nat
  held : Nat
  deriving DecidableEq, Repr

/-- The scheduler's state. -/
structure Sched where
  queues : Tbl Queue := []
  castings : Tbl Casting := []
  prefetch : Tbl Prefetch := []
  claimant : Option Claimant := none
  last : Nat := 511            -- the queue visited last (R37)
  shutdown : Bool := false     -- SHUTDOWN has stopped fetching (R528)
  lateFrets : Tbl (List Nat) := []   -- late events of each cluster in the last 1,024 frets (R407)
  deriving DecidableEq, Repr

/-! ## Cluster command streams and engines (chapter 7) -/

/-- A stream command in its queue (R197 to R200). -/
structure SCmd where
  pos : Nat := 0               -- its number in the stream
  bytes : List Byte := []
  started : Bool := false
  done : Bool := false
  stopped : Bool := false      -- stopped by a drain (R205)
  placed : Nat := 0            -- CONSORTS: consorts placed so far
  unit : Nat := 0              -- units performed (R205)
  startFret : Nat := 0         -- the fret in which it started (R403)
  mid : Bool := false          -- in the middle of a unit (R205)
  out : List Byte := []        -- bytes of the present unit still to be written
  outVa : Nat := 0             -- where they go
  seen : Option Nat := none    -- a SCATTER_ADD in progress: the writes logged before it started (R211)
  deriving DecidableEq, Repr

/-- A tensor watch that applies to the casting on a cluster (R564): its descriptor and the descriptor's DPA, the updates
written to its result slot, and whether it has ended for the NODE_DONE in progress. -/
structure Watch where
  dpa : Nat
  desc : List Byte
  upd : Nat := 0
  past : Bool := false
  deriving DecidableEq, Repr

/-- One cluster: who runs on it, its stream, its nine queues, and its counters. -/
structure Cluster where
  casting : Option Nat := none
  strBase : Nat := 0
  strLen : Nat := 0
  strPos : Nat := 0            -- byte position of the next command to place
  strNum : Nat := 0            -- number of the next command
  stop : Bool := false         -- placement has stopped: END, a bad command, a drain (R59, R204)
  bad : Bool := false          -- it stopped with a bad command (R204)
  ended : Bool := false        -- END has completed, or the casting has ended here
  queues : Tbl (List SCmd) := []   -- queue 0..8 → commands placed and not complete, oldest first
  lastCtx : Option Nat := none     -- context of the previous casting (R190)
  nextCore : Nat := 0          -- placement begins here (R76)
  claims : Tbl Nat := []       -- pool·2^20 + block → 1 when claimed (R224)
  watches : List Watch := []   -- tensor watches that apply to the casting (R564)
  deriving DecidableEq, Repr

/-! ## Cores (chapters 3 to 5, 11) -/

/-- R80: an entry of the reconvergence stack: the point, the mask before the branch, the paths still to run. -/
structure StackEntry where
  reconv : Nat
  mask : Word
  paths : List (Nat × Word)
  deriving DecidableEq, Repr

/-- R120, R309 to R323: where a course's pour stands. -/
inductive PourPhase where
  | closed
  | open
  | waitToken      -- waiting at POUR.BEGIN for the token (R322)
  | locking        -- POUR.END: the lock phase (R314)
  | publishing     -- past the commit point (R317)
  deriving DecidableEq, Repr

/-- R123: a long instruction in progress: its kind (0 HSEQ, 1 TMOV, 2 RSEQ), its progress block and descriptor. -/
structure LongRun where
  kind : Nat
  prog : Nat
  desc : Nat
  flags : Word
  deriving DecidableEq, Repr

/-- R125: the model's note of a course's long instruction in progress: the writes logged before its first issue, the
descriptor it read then, and whether its destination's contents are undefined. -/
structure LongOpen where
  seen : Nat
  desc : List Byte
  wild : Bool
  deriving DecidableEq, Repr

/-- A course of 32 threads (R67 to R70, R80 to R85, R108, R117, R120). -/
structure Course where
  live : Bool := false
  consort : Nat := 0
  pc : Nat := 0
  active : Word := 0
  exited : Word := 0
  stack : List StackEntry := []
  v : Tbl (List Word) := []    -- vector register → its 32 lanes
  u : Tbl Word := []
  p : Tbl Word := []           -- predicate → one bit per lane
  asw : Word := 4
  regBase : Nat := 0           -- first register of its block (R73)
  arrived : Bool := false      -- arrived at the barrier
  halted : Bool := false       -- stopped by a switch-out or a drain at an instruction boundary
  faultVa : Option Nat := none -- the page fault it waits for (R92)
  faultWr : Bool := false      -- that access was a write
  pour : PourPhase := .closed
  pourCode : Nat := 0
  pourSub : Nat := 0
  pourSerial : Bool := false
  abortPc : Nat := 0
  beginPc : Nat := 0
  beginStack : List StackEntry := []   -- the reconvergence stack at POUR.BEGIN
  abortCount : Nat := 0
  rsv : Tbl Nat := []          -- lane → reserved line + 1
  lost : List Nat := []        -- lines whose reservation another agent's write or a snoop has ended (R276)
  escalated : List Nat := []   -- lines whose next LD.RSV is escalated (R276)
  long : Option LongRun := none
  opened : Option LongOpen := none   -- its long instruction between first issue and completion (R125)
  copies : Nat := 0            -- sprue transfers with CMEM that count as its stores (R362)
  denied : List Nat := []      -- pages whose translation its prefetch has been denied (R114)
  deriving DecidableEq, Repr

/-- A consort resident on a core (R68, R71, R74, R83). -/
structure Consort where
  live : Bool := false
  casting : Nat := 0
  pos : Nat := 0               -- the CONSORTS command's number in the stream
  index : Nat := 0
  courses : List Nat := []     -- its course slots, in course order
  ra : Nat := 0
  ca : Nat := 0                -- granules of consort memory
  base : Nat := 0              -- first granule
  harp : Bool := false
  coreMask : Nat := 0
  saving : Option Nat := none  -- switch-out in progress, with its cause (R92)
  deriving DecidableEq, Repr

/-- One line of an L1 (R238, R242). -/
structure L1Line where
  tag : Nat                    -- physical line address, KEYSEL included
  age : Nat
  data : List Byte
  deriving DecidableEq, Repr

/-- One entry of a ladle (R309): the line's physical address, KEYSEL, the enabled bytes, and whether its home has
granted the lock and merged it. -/
structure LadleLine where
  line : Nat                   -- place of the line in the lock order (R314)
  key : Nat
  bytes : Tbl Byte             -- offset → staged byte (listed when enabled)
  enables : Nat
  locked : Bool
  merged : Bool
  deriving DecidableEq, Repr

/-- A core's ladle and read set (R309, R310, R122). -/
structure Ladle where
  holder : Option Nat := none  -- the course slot whose pour holds it
  lines : List LadleLine := []
  readSet : List Nat := []
  keys : Tbl Nat := []         -- line the pour has touched → its KEYSEL + 1 (R313)
  firstGrant : Bool := false
  requested : Option Nat := none
  deriving DecidableEq, Repr

/-- R133: the state of a Harp tile. -/
inductive TileState where
  | idle
  | accumulating (slot : Nat)
  | draining (slot desc : Nat)
  | zeroing (slot : Nat)
  deriving DecidableEq, Repr

/-- A Harp (chapter 5): its tiles, their states, and the K-block in progress. -/
structure Harp where
  t0 : Tbl Word := []          -- cell 128·m + n → FP32
  t1 : Tbl Word := []
  s0 : TileState := .idle
  s1 : TileState := .idle
  kstep : Nat := 0             -- K-steps of the current K-block already issued (R135)
  blk : Tbl Int := []          -- block registers (R166)
  nan : Tbl Nat := []          -- block flags NAN, PINF, NINF (R167), one bit each
  deriving DecidableEq, Repr

/-- A consort image in a save area (R92, R93). -/
structure Image where
  consort : Consort
  courses : List Course
  cmem : List Byte
  t0 : Tbl Word
  t1 : Tbl Word
  bytes : Nat
  faultVa : Option Nat
  faultWr : Bool               -- the access that faulted was a write
  ready : Bool
  deriving DecidableEq, Repr

/-- R239: a busy miss register of a core for a host line: the courses whose loads it merges, how many loads they are, whether
its fill is installed in the L1 (some merged load is not L1_BYPASS, and no FENCE.ACQ has come since, R241), and whether loads
may still merge into it. -/
structure Miss where
  tag : Nat
  pa : Nat
  va : Nat
  courses : List Nat
  loads : Nat
  install : Bool
  fresh : Bool
  age : Nat
  deriving DecidableEq, Repr

/-- One core. -/
structure Core where
  courses : Tbl Course := []
  consorts : Tbl Consort := []
  cmem : List Host.Cell := []
  cwild : Nat := 0             -- 1 + the free values its consort memory holds since a time-out (R60); 0: none
  ctame : Nat := 0             -- the granules placed since then
  l1 : Tbl L1Line := []        -- set·8 + way → line
  ladle : Ladle := {}
  harp : Harp := {}
  images : List Image := []    -- its save area
  icache : Tbl (List Nat) := []      -- instruction address → the words its instruction cache may deliver (R78, R104)
  miss : List Miss := []       -- busy miss registers of host lines (R239)
  deriving DecidableEq, Repr

/-! ## Memory and coherence (chapters 8 and 9) -/

/-- R267: the state in which an agent holds a line. -/
inductive LState where
  | M | E | F | S | I
  deriving DecidableEq, Repr

/-- R268: a directory entry: no holder, an owner, or sharers with an optional forwarder. -/
inductive DirEnt where
  | U
  | O (a : Nat)
  | SH (set : List Nat) (f : Option Nat)
  deriving DecidableEq, Repr

/-- R270: the kinds of snoop. -/
inductive Snp where
  | shr | fwd | inv | cur
  deriving DecidableEq, Repr

/-- R270: what a home's transaction is for. -/
inductive TKind where
  | rdShr | rdOwn | upg | rdCur | wrFull | wrPart | atom
  deriving DecidableEq, Repr

/-- A request at a home (R270): its kind, requester, line address, data with byte enables, hint and atomic operands. -/
structure Req where
  kind : TKind
  who : Nat                    -- a coherent agent number, or 64 + an R19 identifier for an uncached requester
  dpa : Nat
  be : Nat := 0
  data : List Byte := []
  hint : Nat := 0
  args : List Nat := []
  reply : Bool := false        -- the host waits for its data through CXL.mem (R287)
  deriving DecidableEq, Repr

/-- A snoop of a transaction: holder, kind, whether delivered to the holder, the AO tick of its dispatch (R282). -/
structure Snoop where
  can : Nat
  kind : Snp
  delivered : Bool
  sent : Nat
  deriving DecidableEq, Repr

/-- R271: the transaction in progress on a line, and the requests waiting behind it. -/
structure Txn where
  cur : Option Req := none
  snoops : List Snoop := []
  waiting : List Req := []
  locked : Option Nat := none  -- core (or agent) for which a pour holds the line (R277)
  peg : Option (Nat × Nat) := none     -- holder within its peg time, and the FCLK cycle in which it ends (R275)
  esc : Option (Nat × Nat) := none     -- course (64·core + slot) with an escalated hold, and the FCLK cycle in which it ends (R276)
  deriving DecidableEq, Repr

/-- A way of a tundish, crucible or directory set: line address + 1, AGE, and for the crucible whether the line is dirty. -/
structure WayEnt where
  line : Nat
  age : Nat
  dirty : Bool
  deriving DecidableEq, Repr

/-- R283: a poison record: LOC, origin subcode, agent, AO tick. -/
structure PoisonRec where
  loc : Nat
  origin : Nat
  agent : Nat
  tick : Nat
  deriving DecidableEq, Repr

/-- Device memory and its coherence state. -/
structure Mem where
  mem : List Host.Cell := []   -- LOC → byte of the coherent plaintext value (R294)
  key : Tbl Nat := []          -- line → the KEYSEL and key generation it was last written under (R235)
  poison : Tbl Nat := []       -- line → 1 when poisoned (R282, R284)
  log : Tbl (List PoisonRec) := []   -- slice → its poison log (R283)
  sema : Tbl Nat := []         -- semaphores (R231)
  host : List Host.Cell := []  -- host memory as the device has seen or written it
  lines : Tbl (Tbl LState) := []     -- coherent agent → line → state (R267); host lines above 2^57 (R286)
  tun : Tbl (Tbl WayEnt) := []       -- cluster → set·16 + way
  cru : Tbl (Tbl WayEnt) := []       -- slice → set·16 + way
  dir : Tbl DirEnt := []       -- line → directory entry (R268)
  dirWays : Tbl (Tbl WayEnt) := []   -- home slice (64: the host bridge) → set·16 + way of its directory (R269)
  bridge : List Nat := []      -- host lines that the host coherence bridge itself holds (R281)
  sel : Tbl Nat := []          -- line → the KEYSEL under which the caches hold it (R234)
  txn : Tbl Txn := []          -- line → transaction (R271)
  decoded : Tbl (List Nat) := []     -- deep-tier controller → buffered sub-blocks, latest first (R257)
  seqNo : Nat := 0             -- number of writes so far to cartridges' raw ranges
  rawSeq : Tbl Nat := []       -- raw line → number of the write that last reached it (R255)
  frameSeq : Tbl Nat := []     -- frame-table entry → number of the write that last set it (R255)
  wild : Tbl Nat := []         -- 16·cluster + way → 1 + the free value that fills its undefined scratch (R60, R189)
  tame : Tbl Nat := []         -- scratch line of such a way → 1 once it has been written since
  deriving DecidableEq, Repr

/-! ## Translation (chapter 12) -/

/-- R340: a cached translation. -/
structure XEnt where
  ctx : Nat
  va : Nat
  size : Nat                   -- log2 of the page size
  ta : Nat
  rd : Bool
  wr : Bool
  pinned : Bool
  age : Nat
  deriving DecidableEq, Repr

/-- R352: what an INVALIDATE matches: every context, or a range of one context's addresses. -/
structure Scope where
  all : Bool
  ctx : Nat
  lo : Nat
  hi : Nat
  deriving DecidableEq, Repr

/-- R341: an outstanding ATS Translation Request. -/
structure AtsReq where
  ctx : Nat
  page : Nat
  write : Bool
  waiters : List (Waiter × Nat)   -- who waits, and for which address
  past : List Scope            -- the INVALIDATEs that came after it was sent (R352)
  retry : Bool                 -- it re-asks after a successful page response (R342)
  sent : Bool := true          -- it has been sent; one that could not be waits for ATS Enable and Bus Master Enable (R337, R440)
  deriving DecidableEq, Repr

/-- R342: an outstanding Page Request Group. -/
structure PriGroup where
  id : Nat
  ctx : Nat
  page : Nat
  write : Bool
  readers : List (Waiter × Nat)   -- who waits to read, and at which address
  writers : List (Waiter × Nat)   -- who waits to write
  ignored : Bool               -- sent for a scheduled casting: the answer is ignored (R343)
  deriving DecidableEq, Repr

/-- R301, R425: an outbound host read: who waits, its address, length, and whether its data have come. -/
structure OutRead where
  tag : Nat
  who : Waiter
  pa : Nat
  va : Nat
  len : Nat
  back : Bool
  ep : Bool
  data : List Byte
  args : List Nat              -- an AtomicOp's operands (R116), and the lane that sent it
  deriving DecidableEq, Repr

/-- R410: an outstanding window request. -/
structure WinReq where
  tag : Nat
  who : Waiter
  kind : PacketKind
  port : Nat
  win : Nat                    -- the outbound window used
  va : Nat
  pkt : Packet
  reissued : Bool
  old : Bool                   -- sent before the ACTIVE set last changed (R396)
  back : Option (Nat × Nat × List Byte)   -- the answer: code, subcode, data
  deriving DecidableEq, Repr

/-- R595: a reporting write held for its translation. -/
structure PostedWrite where
  kind : Nat                   -- 0 status record, 1 sprue word, 2 mirror, 3 error-ring entry
  ctx : Nat
  va : Nat
  data : List Byte
  src : Nat
  dead : Bool                  -- Bus Master Enable was 0 while it waited: host memory will not see it (R440)
  deriving DecidableEq, Repr

/-- R352: one of the accesses that an INVALIDATE waits for: a window request, a host read, a pour that publishes on a core or
a sprue channel, a request that waits at its target behind a port. -/
inductive Flight where
  | win (tag : Nat)
  | read (tag : Nat)
  | pour (core : Nat)
  | inbound (port : Nat) (p : Packet)
  deriving DecidableEq, Repr

/-- Translation caches and the requests outstanding toward the host. -/
structure Xlate where
  cluster : Tbl (List XEnt) := []
  crucible : List XEnt := []
  ats : List AtsReq := []
  pri : List PriGroup := []
  priStopped : Bool := false
  nextGroup : Nat := 0
  reads : List OutRead := []
  nextTag : Nat := 0
  wins : List WinReq := []
  posted : List PostedWrite := []
  dirty : List Waiter := []    -- agents whose posted host writes are not yet known complete (R293)
  invals : List (Nat × List Flight) := []   -- queues whose INVALIDATE waits (512: the host's ATS message) and what it waits for (R352)
  invDone : Nat := 0           -- ATS Invalidate Completions sent (R353)
  deriving DecidableEq, Repr

/-! ## Sprue engines (chapter 13) -/

/-- Where a transfer stands. -/
inductive ChPhase where
  | free
  | claimed                    -- a stripe's channel taken by its leader
  | running
  | staged                     -- a transactional stripe has its source in the ladle
  | locking                    -- its lines are being locked (R314)
  | publishing                 -- past its commit point (R317)
  | wordDone                   -- a leader whose stripe has ended and that still holds its channel
  deriving DecidableEq, Repr

/-- One sprue channel: the running transfer. -/
structure Chan where
  phase : ChPhase := .free
  desc : List Byte := []
  stripe : Nat := 0
  total : Nat := 0             -- for a chunk: the bytes of its command's whole range
  leader : Nat := 0
  starter : Nat := 0           -- 0 host, 1 command stream, 2 submit line, 3 a chunk of a host command, 4 firmware
  core : Nat := 0
  course : Nat := 0
  ctx : Nat := 0
  casting : Option Nat := none
  pos : Nat := 0               -- the SPRUE command's number in its stream
  done : Nat := 0              -- DONE_BYTES
  aborts : Nat := 0
  stopping : Bool := false
  stopAt : Nat := 0            -- AO tick of the STOP or drain order (R378)
  ladle : List LadleLine := []
  asked : Option (Nat × Nat) := none   -- the stripe's engine and the line whose lock has been asked for (R314)
  results : List (Option Ending) := []   -- a leader's record of each stripe's end
  deriving DecidableEq, Repr

/-- The sprue engines. -/
structure Sprue where
  chans : Tbl (Tbl Chan) := []     -- engine → channel
  staged : List Host.Cell := []    -- staged descriptors of the submit lines, by aperture byte of cluster·2^25
  waiting : Tbl (List Nat) := []   -- cluster → channels its waiting SPRUE command wants (R367)
  deriving DecidableEq, Repr

/-! ## Amtox (chapter 14) -/

/-- A port's link state that no register shows. -/
structure Port where
  credits : Tbl Nat := []      -- virtual lane → credits held (default 0)
  owed : Tbl Nat := []         -- virtual lane → cells to return
  seqTx : Nat := 0
  ackRx : Nat := 255           -- last SEQ received without error
  nakOut : Bool := false       -- NAK is being sent
  replay : List (Nat × Packet) := []   -- the replay buffer: SEQ and packet of frames not covered by an ACK, oldest first (R394)
  rx : List Packet := []       -- received requests that wait at their target, oldest first
  bufs : List Packet := []     -- packets that wait for credit or for a place in the replay buffer
  delays : List Nat := []      -- delay measurements of R413
  peerDev : Nat := 0
  deriving DecidableEq, Repr

/-- R405: the frets for which a stretch is recorded, and R409's remembered aborts. -/
structure Amtox where
  ports : Tbl Port := []
  ofsRun : Nat := 0            -- consecutive frets within ±25 ns (R399)
  missed : Nat := 0            -- frets in a row without a usable MARK
  sawMark : Bool := false      -- a usable MARK has come in this fret
  fullSeen : Bool := false     -- a FRET_FULL has given the counter, or the master has sent one (R400)
  counting : Bool := false     -- and the MARK that follows it has come
  stretches : List Nat := []   -- frets with a recorded stretch request
  period : Nat := 1000         -- the period in force (R400)
  quantum : Nat := 100         -- the stretch quantum in force
  nextPeriod : Option (Nat × Nat × Nat) := none  -- new period, quantum, FRET_FULL packets that carried it
  strOut : Option Nat := none  -- STR_F sent in frames of this fret (R404)
  aborts : List (Nat × Nat × Nat) := []    -- remembered SCHED_ABORTs: SCHED_ID, START_FRET, port, latest first (R409)
  bcast : List Packet := []    -- broadcasts to send
  deriving DecidableEq, Repr

/-! ## Host port (chapter 15) -/

/-- The last answer the port gave to a host request. -/
structure HostReply where
  status : Nat := 0            -- 0 success, 1 Unsupported Request
  data : List Byte := []
  ep : Bool := false
  deriving DecidableEq, Repr

/-- R437: an SPDM session: 0 free, 1 handshaking, 2 established. -/
structure Spdm where
  version : Bool := false      -- GET_VERSION has been answered
  caps : Bool := false
  algs : Bool := false
  sessions : Tbl Nat := []
  deriving DecidableEq, Repr

/-- The host port's configuration space and mailbox. -/
structure HostPort where
  held : List Instr := []      -- host requests that wait behind one held at its target, oldest first (R305, R306)
  linkUp : Bool := false
  mse : Bool := false
  bme : Bool := false
  intDisable : Bool := false
  intLine : Nat := 0
  ats : Bool := false
  pri : Bool := false
  priAlloc : Nat := 0          -- Outstanding Page Request Allocation (R342)
  pasid : Bool := false
  cxlCache : Bool := false
  cxlMem : Bool := false
  bar4Size : Nat := 30         -- log2
  bar4Next : Nat := 30
  bar4Base : Nat := 0
  hdmBase : Nat := 0
  hdmSize : Nat := 0
  hdmCommitted : Bool := false
  hdmError : Bool := false
  aerUr : Bool := false        -- an Unsupported Request reported through AER
  reply : HostReply := {}
  doe : List Nat := []         -- the DOE mailbox's response, as numbers
  doeReady : Bool := false     -- Data Object Ready
  doeReq : Option Nat := none  -- the request handed to the security core and not yet answered
  doeError : Bool := false     -- DOE Error
  cdat : Nat := 0              -- changes of the cartridge population (R435)
  spdm : Spdm := {}
  ide : Tbl Nat := []          -- stream → 1 secure
  deriving DecidableEq, Repr

/-! ## Errors and traces (chapters 19 and 21) -/

/-- R510: an entry of the error ring before it has its SEQ. -/
structure ErrEnt where
  typ : Nat
  flags : Nat
  agent : Nat
  code : Nat
  sub : Nat
  count : Nat
  detail : Nat
  addr : Nat
  tick : Nat
  deriving DecidableEq, Repr

/-- R508, R509: the internal buffer of the error ring and its counts. -/
structure ErrRing where
  buf : List ErrEnt := []      -- waiting entries, oldest first
  drops : Nat := 0             -- events dropped since the last OVERFLOW entry
  dropTick : Nat := 0          -- time of the first of them
  prod : Nat := 0              -- ERR_PROD
  dropped : Nat := 0           -- ERR_DROPPED
  merging : List ErrEnt := []  -- CORRECTED events within their 1 ms (R510)
  counts : Tbl Nat := []       -- corrected events of each channel in the present hour (R508)
  hourFrom : Nat := 0          -- tick at which that hour began
  interrupted : Option (Nat × Nat × Nat) := none  -- a translation failure that cleared ENABLE: code, subcode, address
  deriving DecidableEq, Repr

/-- R558: a trace record before it has its SEQ. -/
structure TraceRec where
  typ : Nat
  flags : Nat
  agent : Nat
  layer : Nat
  op : Nat
  fret : Nat
  ts : Nat
  arg : Nat
  deriving DecidableEq, Repr

/-- R560, R562: a trace unit's FIFO and its drops since the previous GAP. -/
structure TraceUnit where
  fifo : List TraceRec := []
  drops : Nat := 0
  dropTs : Nat := 0
  dropFret : Nat := 0
  deriving DecidableEq, Repr

/-- Trace units, the trigger, and the armed watches of running castings. -/
structure Trace where
  units : Tbl TraceUnit := []
  trigger : Option (Nat × Nat) := none   -- the tick at which a raised trigger freezes, and its CAUSE (R555)
  ownFret : Option Nat := none           -- fret in which its own trigger froze the device (R556)
  markers : Tbl Nat := []      -- core → the 8 B stored at +0x08 of its marker line (R561)
  deriving DecidableEq, Repr

/-! ## Power (chapter 18) -/

/-- What the power-management core keeps that no register shows. -/
structure Pmc where
  wake : List Nat := []        -- clusters with a wake request posted (R493)
  since : Tbl Nat := []        -- cluster → AO tick at which it entered IDLE or CHILL (R493)
  samples : List Nat := []     -- the last 100 measurements of input power, latest first (R497)
  cool : Tbl Nat := []         -- cluster → measurements in a row below 90 °C (R500)
  moving : Tbl Nat := []       -- cluster → 1 entering CHILL, 2 entering COLD, 3 waking
  retired : List Nat := []     -- clusters retired by the fault map or RETIRE (R461, R521)
  target : Nat := 1800         -- the device target of R497, in MHz
  thermal : Tbl Nat := []      -- cluster → its thermal cap (default none: 1800)
  gradient : Tbl Nat := []     -- cluster → the operating point the gradient rule leaves it (R498)
  deriving DecidableEq, Repr

/-! ## Security (chapter 20) -/

/-- Keys and debug state. -/
structure Sec where
  zeroed : Bool := false       -- the key store is zeroised (R541)
  gens : Tbl Nat := []         -- selector → the generation of its key in this run (R540, R542)
  nonce : Nat := 0             -- number of debug nonces drawn (R544)
  deriving DecidableEq, Repr

/-! ## Start-up and firmware (chapters 16 and 17) -/

/-- R452: the configuration flash: the bytes of each copy of the configuration image (nothing: erased), and those last written
to each copy of the security core's second stage (nothing: as the manufacturer left it). -/
structure Flash where
  cfgA : List Byte := []
  cfgB : List Byte := []
  s2A : List Byte := []
  s2B : List Byte := []
  deriving DecidableEq, Repr

/-- R461: a fault map: one mask for each kind of block. -/
structure FaultMap where
  clusters : Nat := 0
  harps : Nat := 0
  slices : Nat := 0
  carts : Nat := 0
  lanes : Nat := 0
  ports : Nat := 0
  hbm : Nat := 0
  deriving DecidableEq, Repr

/-- R476: the firmware directory: the running slot of each TARGET, the clusters that run slot 1, and IMAGE_VER and DIGEST
of each slot (2·TARGET + slot). -/
structure Directory where
  slots : Tbl Nat := []
  clSlots : Nat := 0
  vers : Tbl Nat := []
  digests : Tbl Nat := []
  deriving DecidableEq, Repr

/-- R441, R581: the device status page: GEN, its words of 4 B from offset 4 on (those above are 0), and the AO tick of its
last change. -/
structure Page where
  gen : Nat := 0
  words : List Nat := []
  tick : Nat := 0
  deriving DecidableEq, Repr

/-- The module's input pins and what start-up keeps beside the BAR0 registers (R448, R451, R589, R590). -/
structure Boot where
  pwrOk : Bool := true         -- PWR_OK is asserted
  perst : Bool := false        -- PERST# is asserted
  clocks : Bool := true        -- both reference clocks are stable
  held : Bool := false         -- PWR_OK has deasserted, and PERST# must be asserted before a start (R590)
  trip : Bool := false         -- THERMTRIP# is asserted
  hot : Bool := false          -- after a trip some sensor has not read below 100 °C (R501)
  present : Nat := 0           -- sockets in which a cartridge sits
  phase : Nat := 0             -- BOOT_STAT.PHASE (R448)
  reduced : Bool := false      -- reduced mode (R463)
  cfgSrc : Nat := 0            -- CFG_SRC
  aBad : Bool := false
  bBad : Bool := false
  seqSplit : Bool := false
  calPartial : Bool := false
  s2Src : Nat := 0             -- S2_SRC
  s2Runs : Bool := false       -- the second stage has been verified and runs
  failCode : Nat := 0
  failSub : Nat := 0
  cfgSeq : Nat := 0            -- CFG_SEQ
  image : List Byte := []      -- the configuration copy in use, as CFG_IMAGE shows it (R580)
  flash : Flash := {}
  map : FaultMap := {}         -- the live fault map
  populated : Nat := 0         -- POPULATED of the configuration in use
  abi : Nat := 0               -- FW_ABI of the power-management image
  load : Option (Nat × Nat) := none   -- BOOT_GO in progress: TARGET and DPA (R465)
  dir : Directory := {}
  page : Page := {}
  loops : Tbl (List Nat) := []     -- processor → its last 1,024 pass times in µs, latest first (R486)
  wdt : Tbl Nat := []          -- processor → AO tick at which its watchdog expires (R477, R487)
  lats : List (Nat × Nat) := []    -- LAUNCHes started: AO tick, and ns from doorbell to RUNNING, latest first (R485)
  deriving DecidableEq, Repr

/-! ## Races that leave undefined contents -/

/-- R125, R211: a write made while a long instruction or a SCATTER_ADD is in progress: its space (0 device memory by LOC,
1 host memory, 2 + g the consort memory of core g), its address and length, and which of them made it (0: none). -/
structure WriteRec where
  space : Nat
  addr : Nat
  len : Nat
  who : Nat
  deriving DecidableEq, Repr

/-- The model's log of such writes, latest first, kept while something is in progress that they may race with. -/
structure Race where
  watch : Bool := false
  writes : List WriteRec := []
  deriving DecidableEq, Repr

/-! ## The whole machine -/

/-- Why a step stops the machine. -/
inductive Fault where
  /-- Raised by PWR_OK_ASSERT when PWR_OK is asserted with an input outside its range: R585 and R502 give no
  behaviour ('undefined').  Safe: the hardware may do anything. -/
  | failingRails
  deriving DecidableEq, Repr

/-- Why a command has no meaning. -/
inductive Refusal where
  /-- Raised by the dispatch for a command that has no meaning yet.  Safe. -/
  | notModelled (mnemonic : String)
  deriving DecidableEq, Repr

/-- The NV-192. -/
structure State where
  pending : List Instr := []   -- commands waiting, first in first out
  powered : Bool := true       -- the module runs: a start has begun and no reset holds it (R448, R589)
  aoTick : Nat := 0            -- AO ticks since PWR_OK
  fsub : Nat := 0              -- FCLK cycles into the present AO tick (R21: 80 to a tick)
  ts : Nat := 0                -- TS of R550
  free : Nat := 0              -- the model's own counter of free values used
  touched : Tbl Nat := []      -- BAR0 field → the hardware updates it has met in the present AO tick (R10): 1 + 2·(certainly in the cycle of the write under way) + 4·(bits set)
  owner : Option (Nat × Nat) := none   -- the casting slot and node in whose name the present write is made (R60)
  regs : Tbl Nat := []         -- BAR0 field (its bit address) → value, where it differs from reset
  shadow : Tbl Nat := []       -- BAR0 field → value written in a shadow group and not committed (R328)
  tokens : List (Nat × Nat) := []      -- agents that hold or wait for the pour token, in order, each with the FCLK cycle of its request (R322)
  sch : Sched := {}
  clusters : Tbl Cluster := []
  cores : Tbl Core := []
  mm : Mem := {}
  xl : Xlate := {}
  spr : Sprue := {}
  amx : Amtox := {}
  hpt : HostPort := {}
  err : ErrRing := {}
  trc : Trace := {}
  pmc : Pmc := {}
  sec : Sec := {}
  boot : Boot := {}
  race : Race := {}            -- the model's own log of racing writes (R125, R211)
  deriving DecidableEq, Repr

/-- The machine right after PERST# deasserts: phase RESET, every field at the value the spec gives for reset or
the one the assumption log names; the flash holds the factory configuration image (R3). (DESIGN CHOICE, log entries 1, 103.) -/
def State.reset : State := { boot := { flash := { cfgA := Config.factoryImage, cfgB := Config.factoryImage } } }

end Sys2Proof.Machine
end

