-- ==== Sys2Proof/Machine/Ops.lean ====
section
/-!
DEFINITION. The named operations over registers, records, error events, trace events and the trigger.
-/
namespace Sys2Proof.Machine

/-- A command that completes. -/
abbrev Out := Host.Outcome State Fault Refusal

/-- What an access comes to: a value, a wait (the request is made and the access is tried again), or an end. -/
inductive Got (α : Type) where
  | ok (a : α)
  | wait
  | fail (e : Ending)
  deriving DecidableEq, Repr

/-! ## Register fields -/

/-- The value of a register field. (DESIGN CHOICE, log entry 4.) -/
def getF (s : State) (f : FRef) : Nat := tget f.rst s.regs f.key

/-- The state with a register field given a value, cut to the field's length. -/
def putF (s : State) (f : FRef) (v : Nat) : State :=
  { s with regs := tset f.rst s.regs f.key (v % 2 ^ f.len) }

/-- R10: the note of a hardware update of a field: what a host write in the same register cycle would meet.  Fields that
hardware never updates leave none. (DESIGN CHOICE, log entry 76.) -/
def noteUpdate (s : State) (f : FRef) (v : Nat) : Tbl Nat :=
  let old := getF s f
  if f.acc = .rw ∨ f.acc = .wo ∨ v % 2 ^ f.len = old then s.touched
  else
    let m := tget 0 s.touched f.key
    tset 0 s.touched f.key (4 * (m / 4 ||| (v % 2 ^ f.len) ^^^ ((v % 2 ^ f.len) &&& old)) + 2 * (m / 2 % 2) + 1)

/-- A hardware update: the state with a register field set to a value, cut to the field's length. -/
def setF (s : State) (f : FRef) (v : Nat) : State := { putF s f v with touched := noteUpdate s f v }

/-- Whether a one-bit field reads 1. -/
def isOn (s : State) (f : FRef) : Bool := decide (getF s f ≠ 0)

/-- Set a one-bit field by a truth value. -/
def setB (s : State) (f : FRef) (b : Bool) : State := setF s f (b2n b)

/-- Set one of two values of a field. -/
def setOn (s : State) (f : FRef) : State := setF s f 1

/-- Set a field to 0. -/
def setOff (s : State) (f : FRef) : State := setF s f 0

/-- A count field that wraps. -/
def incF (s : State) (f : FRef) (n : Nat) : State := setF s f (getF s f + n)

/-- A count field that saturates at its largest value. -/
def incSat (s : State) (f : FRef) (n : Nat) : State := setF s f (min (getF s f + n) (2 ^ f.len - 1))

/-- The next free value: what the spec leaves open, as a number. -/
def freeNat (s : State) : Nat := Config.freeValue s.free

/-- Use up `n` free values. (DESIGN CHOICE, log entry 9.) -/
def bumpFree (s : State) (n : Nat) : State := { s with free := s.free + n }

/-- `n` bytes of undefined contents. -/
def freeBytes (u n : Nat) : List Byte := (List.range n).map (Config.freeByte u)

/-- The FCLK cycles since PWR_OK (R21: 80 to an AO tick). -/
def fclkOf (s : State) : Nat := 80 * s.aoTick + s.fsub

/-- Time passes to FCLK cycle `n`, and TS with it (R550); never backwards. (DEDUCED, log entry 97.) -/
def fclkTo (n : Nat) (s : State) : State :=
  let m := max (fclkOf s) n
  { s with aoTick := m / 80, fsub := m % 80, ts := s.ts + (m - fclkOf s), touched := if s.aoTick < m / 80 then [] else s.touched }

/-- Time passes to AO tick `t`; never backwards. -/
def timeTo (t : Nat) (s : State) : State :=
  { s with
    aoTick := max s.aoTick t
    fsub := if s.aoTick < t then 0 else s.fsub
    ts := s.ts + (80 * t - fclkOf s)
    touched := if s.aoTick < t then [] else s.touched }

/-- R589: a module that is held in reset does nothing with a command of its interfaces. (DEDUCED, log entry 8.) -/
def whenOn (s : State) (o : Out) : Out := if s.powered then o else .next s

/-! ## Order of the host's requests (R305, R306) -/

/-- Whether a host request is one to be answered (a read or an atomic of BAR4). -/
def isRead : Instr → Bool
  | .inboundBar4Read _ _ | .inboundAtomicop _ _ _ _ _ _ => true
  | _ => false

/-- Whether a host request came by CXL.mem, which is no part of the order of posted writes. -/
def isCxl : Instr → Bool
  | .cxlMemRequest _ _ _ _ _ => true
  | _ => false

/-- A request held at its target waits. -/
def hold (i : Instr) (s : State) : State := { s with hpt := { s.hpt with held := s.hpt.held ++ [i] } }

/-- R305, R306: a posted write of the host waits behind an earlier one that is held, and a read behind any request that is.
(DEDUCED, log entry 118.) -/
def inOrder (i : Instr) (s : State) (o : Out) : Out :=
  if s.hpt.held.any (fun h => !isCxl h && (isRead i || !isRead h)) then .next (hold i s) else o

/-! ## Records of tables -/

/-- Core `g`. -/
def coreOf (s : State) (g : Nat) : Core := tget {} s.cores g
/-- Replace core `g`. -/
def setCore (s : State) (g : Nat) (c : Core) : State := { s with cores := tset {} s.cores g c }
/-- Course slot `i` of core `g`. -/
def courseOf (s : State) (g i : Nat) : Course := tget {} (coreOf s g).courses i
/-- Replace a course. -/
def setCourse (s : State) (g i : Nat) (c : Course) : State :=
  setCore s g { coreOf s g with courses := tset {} (coreOf s g).courses i c }
/-- Consort slot `k` of core `g`. -/
def consortOf (s : State) (g k : Nat) : Consort := tget {} (coreOf s g).consorts k
/-- Replace a consort. -/
def setConsort (s : State) (g k : Nat) (c : Consort) : State :=
  setCore s g { coreOf s g with consorts := tset {} (coreOf s g).consorts k c }
/-- Casting slot `k`. -/
def castingOf (s : State) (k : Nat) : Casting := tget {} s.sch.castings k
/-- Replace a casting. -/
def setCasting (s : State) (k : Nat) (c : Casting) : State :=
  { s with sch := { s.sch with castings := tset {} s.sch.castings k c } }
/-- Queue `q`. -/
def queueOf (s : State) (q : Nat) : Queue := tget {} s.sch.queues q
/-- Replace a queue. -/
def setQueue (s : State) (q : Nat) (x : Queue) : State :=
  { s with sch := { s.sch with queues := tset {} s.sch.queues q x } }
/-- Cluster `n`. -/
def clusterOf (s : State) (n : Nat) : Cluster := tget {} s.clusters n
/-- Replace a cluster. -/
def setCluster (s : State) (n : Nat) (c : Cluster) : State := { s with clusters := tset {} s.clusters n c }
/-- Sprue channel `ch` of engine `e`. -/
def chanOf (s : State) (e ch : Nat) : Chan := tget {} (tget [] s.spr.chans e) ch
/-- Replace a channel. -/
def setChan (s : State) (e ch : Nat) (c : Chan) : State :=
  { s with spr := { s.spr with chans := tset [] s.spr.chans e (tset {} (tget [] s.spr.chans e) ch c) } }
/-- Amtox port `p`. -/
def portOf (s : State) (p : Nat) : Port := tget {} s.amx.ports p
/-- Replace a port. -/
def setPort (s : State) (p : Nat) (x : Port) : State :=
  { s with amx := { s.amx with ports := tset {} s.amx.ports p x } }
/-- The transaction state of a line. -/
def txnOf (s : State) (line : Nat) : Txn := tget {} s.mm.txn line
/-- Replace it. -/
def setTxn (s : State) (line : Nat) (t : Txn) : State := { s with mm := { s.mm with txn := tset {} s.mm.txn line t } }

/-- The cluster of core `g` (R15). -/
def clOf (g : Nat) : Nat := g / 12

/-! ## Agent identifiers (R19) -/

/-- Cluster engine `e` of cluster `cl`: TSE 0, GSE 1, RCE 2, UFE 3, SKE 4, FCE 5, sprue 6, control core 7. -/
def agEngine (cl e : Nat) : Nat := 0x100 + 8 * cl + e
/-- The agent of queue `qi` of a cluster's stream (R198). -/
def agQueue (cl qi : Nat) : Nat := agEngine cl (if qi ≤ 1 then 7 else if qi = 2 then 6 else qi - 3)
/-- Tundish. -/
def agTundish (cl : Nat) : Nat := 0x200 + cl
/-- Crucible slice. -/
def agSlice (n : Nat) : Nat := 0x300 + n
/-- HBM controller. -/
def agHbm (n : Nat) : Nat := 0x400 + n
/-- Deep-tier controller. -/
def agDeep (n : Nat) : Nat := 0x500 + n
/-- Amtox port. -/
def agPort (n : Nat) : Nat := 0x600 + n
/-- Host port. -/
def agHost : Nat := 0x700
/-- sph. -/
def agSph : Nat := 0x800
/-- Firmware processor of the base die: security 0, power-management 1, scheduler 2. -/
def agFw (n : Nat) : Nat := 0x900 + n
/-- Casting slot. -/
def agSlot (n : Nat) : Nat := 0xA00 + n
/-- The agent of sprue engine `e` (16 is sph). -/
def agSprue (e : Nat) : Nat := if e = 16 then agSph else agEngine e 6
/-- R19: the agents of the device, numbered: those of every class of the table and no others. -/
def nthAgent (n : Nat) : Nat :=
  let n := n % 473
  if n < 192 then n
  else if n < 320 then 0x100 + (n - 192)
  else if n < 336 then 0x200 + (n - 320)
  else if n < 400 then 0x300 + (n - 336)
  else if n < 412 then 0x400 + (n - 400)
  else if n < 428 then 0x500 + (n - 412)
  else if n < 452 then 0x600 + (n - 428)
  else if n = 452 then 0x700
  else if n = 453 then 0x800
  else if n < 457 then 0x900 + (n - 454)
  else 0xA00 + (n - 457)
/-- R264: the agent of coherent agent number `c`. -/
def agCan (c : Nat) : Nat :=
  if c < 16 then agTundish c else if c < 32 then agEngine (c - 16) 7
  else if c = 32 then agFw 2 else if c = 33 then agFw 1 else agHost

/-! ## Endings (R12, R61, R64) -/

/-- R61: DONE. -/
def stDone : Nat := 3
/-- R61: FAULT. -/
def stFault : Nat := 4
/-- R61: TIMEOUT. -/
def stTimeout : Nat := 5
/-- R61: ABORTED. -/
def stAborted : Nat := 6

/-- An end in state FAULT. -/
def faultEnd (code sub agent addr : Nat) : Ending := ⟨stFault, code, sub, agent, addr⟩
/-- FAULT_PROTECTION with a subcode. -/
def protEnd (sub agent addr : Nat) : Ending := faultEnd 0x22 sub agent addr
/-- DONE with code OK. -/
def okEnd : Ending := ⟨stDone, 0, 0, 0, 0⟩
/-- The pair of R39. -/
def badCommand : Ending := ⟨stAborted, 0x22, 0x11, agFw 2, 0⟩

/-! ## The error ring's buffer (R509, R510) -/

/-- R509: an event enters the internal buffer, or is dropped and counted when the buffer is full. -/
def errPush (e : ErrEnt) (s : State) : State :=
  if s.err.buf.length < 256 then { s with err := { s.err with buf := s.err.buf ++ [e] } }
  else { s with err := { s.err with
    drops := s.err.drops + 1
    dropTick := if s.err.drops = 0 then e.tick else s.err.dropTick
    dropped := (s.err.dropped + 1) % 2 ^ 32 } }

/-- R511: an event of a type, with its agent, code, subcode, DETAIL and ADDR, at the present AO tick. -/
def errEvent (typ agent code sub detail addr : Nat) (s : State) : State :=
  errPush ⟨typ, if typ = 0x03 ∨ typ = 0x08 then 1 else 0, agent, code, sub, 1, detail, addr, s.aoTick⟩ s

/-! ## The freeze trigger, counters and traces (R551 to R562) -/

/-- R555: a source raises the trigger: it freezes the counters two AO ticks later; the first source gives CAUSE.
(DEDUCED, log entry 93.) -/
def raiseTrigger (cause : Nat) (s : State) : State :=
  if bit (getF s trigSrc) cause && !isOn s trigFrozen && s.trc.trigger.isNone then
    { s with trc := { s.trc with trigger := some (s.aoTick + 2, cause) } }
  else s

/-- The counters of a unit (R551). -/
def counterCount (u : Nat) : Nat := if u < 192 then 16 else if u < 208 then 32 else 256

/-- Whether any select register of a unit differs from its reset value (else none of its counters counts). -/
def unitSelected (s : State) (u : Nat) : Bool :=
  s.regs.any (fun e => decide (8 * selOff u 0 ≤ e.1) && decide (e.1 < 8 * selOff u 0 + 32 * counterCount u))

/-- One counter counts `n` events, wrapping at 2^48 (R551). -/
def countOne (u i n : Nat) (s : State) : State :=
  let v := getF s (cntCount u i) + n
  if v < 2 ^ 48 then setF s (cntCount u i) v
  else
    let s := setOn (setF s (cntCount u i) v) (cntOvf u i)
    if isOn s (selTrig u i) then raiseTrigger 3 s else s

/-- The counters of a unit that select `code` (for `inst` or for all, on the base die) count `n` events.
(DESIGN CHOICE, log entry 94.) -/
def countUnit (u code inst n : Nat) (s : State) : State :=
  if isOn s trigFrozen || !unitSelected s u then s
  else
    (List.range (counterCount u)).foldl (fun s i =>
      if isOn s (selEnable u i) && decide (getF s (selEvent u i) = code) &&
          (decide (u < 208) || decide (getF s (selInst u i) = inst) || decide (getF s (selInst u i) = 0xFF)) then
        countOne u i n s
      else s) s

/-- R552: core `g` counts events of a core code, and its cluster's counters of code 0x40 + c with it. -/
def countCore (g code n : Nat) (s : State) : State :=
  countUnit (192 + clOf g) (0x40 + code) 0 n (countUnit g code 0 n s)

/-- R553: cluster `cl` counts events of a code. -/
def countCl (cl code n : Nat) (s : State) : State := countUnit (192 + cl) code 0 n s

/-- R554: the base die counts events of a code at an instance. -/
def countBase (code inst n : Nat) (s : State) : State := countUnit 208 code inst n s

/-- Trace unit `u`: cluster 0 to 15, base die 16. -/
def traceUnit (s : State) (u : Nat) : TraceUnit := tget {} s.trc.units u
/-- Replace it. -/
def setTraceUnit (s : State) (u : Nat) (x : TraceUnit) : State :=
  { s with trc := { s.trc with units := tset {} s.trc.units u x } }

/-- R560, R562: an event enters a unit's FIFO, or is dropped; `reserved` events may take entry 256. -/
def tracePush (u : Nat) (reserved : Bool) (r : TraceRec) (s : State) : State :=
  let x := traceUnit s u
  if x.fifo.length < (if reserved then 256 else 255) then setTraceUnit s u { x with fifo := x.fifo ++ [r] }
  else
    let s := setTraceUnit s u { x with
      drops := x.drops + 1
      dropTs := if x.drops = 0 then r.ts else x.dropTs
      dropFret := if x.drops = 0 then r.fret else x.dropFret }
    let s := incSat s (ringDrops u) 1
    if u < 16 then countCl u 0x12 1 s else s

/-- R559: whether a unit takes records of a type now: enabled by TYPE_MASK (GAP and FREEZE always), and not stopped
by STOP_TRACE (R569). -/
def traceTakes (s : State) (u typ : Nat) : Bool :=
  (bit (getF s (ringMask u)) typ || decide (typ = 0x0C) || decide (typ = 0x0D)) &&
    (!(isOn s trigStop && isOn s trigFrozen) || decide (typ = 0x0C))

/-- R558: an event of a type at this instant. -/
def traceEvent (u typ agent : Nat) (sched : Bool) (layer op arg : Nat) (s : State) : State :=
  if traceTakes s u typ then
    tracePush u (decide (agent = agEngine u 7) || decide (u = 16 ∧ agent = agFw 2))
      ⟨typ, b2n sched, agent, layer, op, getF s amxFret % 2 ^ 32, s.ts, arg % 2 ^ 64⟩ s
  else s

/-! ## Ends of castings -/

/-- The casting of a consort's course. -/
def castingOfCourse (s : State) (g i : Nat) : Nat := (consortOf s g (courseOf s g i).consort).casting

/-! ## Writes that race with work in progress (R125, R211) -/

/-- R60: a write made in the name of a casting's node is one of the casting's outputs; scratch and consort memory are
forgotten whole. (DESIGN CHOICE, log entry 28.) -/
def noteOutput (space addr len : Nat) (s : State) : State :=
  match s.owner with
  | none => s
  | some (k, node) =>
    if 1 < space ∨ (space = 0 ∧ 0x200000000000 ≤ addr) then s
    else
      let c := castingOf s k
      if c.wrote.contains (node, space, addr, len) then s
      else setCasting s k { c with wrote := (node, space, addr, len) :: c.wrote }

/-- What is done in the name of a casting's node. -/
def asOwner (o : Option (Nat × Nat)) (f : State → State) (s : State) : State :=
  { f { s with owner := o } with owner := s.owner }

/-- The node of casting `k` in whose name its work on a cluster writes: the lowest that the cluster has still to report; without a
cluster the lowest that is not reported everywhere. (DESIGN CHOICE, log entry 28.) -/
def nodeOf (s : State) (k : Nat) (cl : Option Nat) : Nat :=
  let c := castingOf s k
  let left := fun n => nth 0 c.nodeMasks n &&& ((2 ^ 16 - 1) ^^^ tget 0 c.reports n)
  ((List.range c.nodes).find? (fun n => match cl with | some cl => bit (left n) cl | none => decide (left n ≠ 0))).getD c.nodes

/-- The casting and node in whose name a cluster's engines write. -/
def clusterOwner (s : State) (cl : Nat) : Option (Nat × Nat) := (clusterOf s cl).casting.map (fun k => (k, nodeOf s k (some cl)))

/-- Those of a sprue channel. -/
def chanOwner (s : State) (e ch : Nat) : Option (Nat × Nat) :=
  (chanOf s e ch).casting.map (fun k => (k, nodeOf s k (if e < 16 then some e else none)))

/-- What a course does in the name of its casting's node. -/
def asCourse (g slot : Nat) (f : State → State) (s : State) : State :=
  asOwner (some (castingOfCourse s g slot, nodeOf s (castingOfCourse s g slot) (some (clOf g)))) f s

/-- What is done in the name of a casting's node, with its result. -/
def asOwnerGot {α : Type} (o : Option (Nat × Nat)) (f : State → State × α) (s : State) : State × α :=
  let r := f { s with owner := o }
  ({ r.1 with owner := s.owner }, r.2)

/-- A write is logged while something is in progress that it may race with. (DESIGN CHOICE, log entry 39.) -/
def logWrite (space addr len : Nat) (s : State) : State :=
  let s := noteOutput space addr len s
  if s.race.watch then { s with race := { s.race with writes := ⟨space, addr, len, 0⟩ :: s.race.writes } } else s

/-- Whether a long instruction or a SCATTER_ADD is in progress anywhere. -/
def anyOpen (s : State) : Bool :=
  s.cores.any (fun g => g.2.courses.any (fun c => c.2.live && c.2.opened.isSome) ||
    g.2.images.any (fun i => i.courses.any (fun c => c.opened.isSome))) ||
  s.clusters.any (fun c => c.2.queues.any (fun q => q.2.any (fun m => m.seen.isSome)))

/-- Something begins that writes may race with: how many writes have been logged before it. -/
def openRace (s : State) : State × Nat :=
  if anyOpen s then ({ s with race := { s.race with watch := true } }, s.race.writes.length)
  else ({ s with race := { watch := true, writes := [] } }, 0)

/-- Something in progress has ended: with nothing left in progress the log ends. -/
def closeRace (s : State) : State := if anyOpen s then s else { s with race := {} }

/-- The writes logged since `seen` that others than `who` made. -/
def racing (s : State) (seen who : Nat) : List WriteRec :=
  (s.race.writes.take (s.race.writes.length - seen)).filter (fun w => decide (w.who ≠ who))

/-- Whether one of some writes reaches a range. -/
def hits (ws : List WriteRec) (space addr len : Nat) : Bool :=
  ws.any (fun w => decide (w.space = space) && decide (w.addr < addr + len) && decide (addr < w.addr + w.len))

/-- A write of a whole line that has just been logged wrote only the bytes enabled. -/
def relog (n space base enables : Nat) (s : State) : State :=
  if s.race.watch then
    { s with race := { s.race with
        writes := ((List.range 128).filter (bit enables)).map (fun i => ⟨space, base + i, 1, 0⟩) ++
          s.race.writes.drop (s.race.writes.length - n) } }
  else s

/-- The writes that `who` has made since there were `n` in the log bear its mark. -/
def markOwn (who n : Nat) (s : State) : State :=
  let new := s.race.writes.length - n
  { s with race := { s.race with
      writes := (s.race.writes.take new).map (fun w => { w with who := who }) ++ s.race.writes.drop new } }

end Sys2Proof.Machine
end

