-- ==== Sys2Proof/Machine/MemOps.lean ====
section
/-!
DEFINITION. The device address map, keys, the expanded view, poison, and reads and writes of device memory
(chapter 8), with the cache tables and their replacement.
-/
namespace Sys2Proof.Machine

/-! ## The map (R227, R228) -/

/-- What a LOC names. -/
inductive Place where
  | hbm (stack : Nat)
  | firmware
  | raw (n off : Nat)
  | view (n off : Nat)
  | scratch (cl off : Nat)
  | sema (i off : Nat)
  | nowhere
  deriving DecidableEq, Repr

/-- The way that holds a scratch LOC, numbered over all clusters. -/
def scrKey (loc : Nat) : Nat := (loc - 0x200000000000) / 0x02000000 * 16 + (loc - 0x200000000000) % 0x02000000 / 0x100000

/-- R60, R189: whether a scratch line holds undefined contents. -/
def scrWild (s : State) (loc : Nat) : Bool := decide (tget 0 s.mm.wild (scrKey loc) ≠ 0) && decide (tget 0 s.mm.tame (loc / 128) = 0)

/-- The bytes of a scratch range, which may span lines. -/
def scrRead (s : State) (loc n : Nat) : List Byte :=
  (List.range n).map (fun i =>
    if scrWild s (loc + i) then Config.freeByte (tget 0 s.mm.wild (scrKey (loc + i)) - 1) (loc + i) else tget 0 s.mm.mem (loc + i))

/-- A scratch line of undefined contents is written for the first time: its other bytes stay undefined. -/
def scrTame (loc : Nat) (s : State) : State :=
  if scrWild s loc then
    { s with mm := { s.mm with
      mem := wrList s.mm.mem (loc / 128 * 128) (scrRead s (loc / 128 * 128) 128)
      tame := tset 0 s.mm.tame (loc / 128) 1 } }
  else s

/-- Store bytes in a scratch range, which may span lines. -/
def scrWrite (loc : Nat) (bs : List Byte) (s : State) : State :=
  let s := (List.range ((loc % 128 + bs.length + 127) / 128)).foldl (fun s k => scrTame (loc / 128 * 128 + 128 * k) s) s
  logWrite 0 loc bs.length { s with mm := { s.mm with mem := wrList s.mm.mem loc bs } }

/-- R190: the scratch of the ways of a test of cluster `cl` is cleared to 0. -/
def scrClear (cl : Nat) (way : Nat → Bool) (s : State) : State :=
  let lo := 0x200000000000 + cl * 0x02000000
  let inWay := fun a => decide (lo ≤ a) && decide (a < lo + 0x1000000) && way ((a - lo) / 0x100000)
  { s with mm := { s.mm with
      mem := s.mm.mem.filter (fun e => !inWay e.1)
      wild := s.mm.wild.filter (fun e => !(decide (e.1 / 16 = cl) && way (e.1 % 16)))
      tame := s.mm.tame.filter (fun e => !inWay (128 * e.1))
      poison := s.mm.poison.filter (fun e => !inWay (128 * e.1)) } }

/-- R60, R189: the scratch of the ways of a test holds undefined contents from now on. (DESIGN CHOICE, log entry 28.) -/
def scrForget (cl : Nat) (way : Nat → Bool) (s : State) : State :=
  let n := s.free + 1
  let s := scrClear cl way s
  { s with
    free := n
    mm := { s.mm with wild := (bitList 0xFFFF 16).foldl (fun t w => if way w then tset 0 t (16 * cl + w) n else t) s.mm.wild } }

/-- R228, R475: the target of a LOC by the map alone. -/
def placeOf (loc : Nat) : Place :=
  if loc < 0x009000000000 then
    (if 0x008FE0000000 ≤ loc then .firmware else .hbm (loc / 4096 % 12))
  else if 0x010000000000 ≤ loc ∧ loc < 0x050000000000 then
    .raw ((loc - 0x010000000000) / 0x004000000000) ((loc - 0x010000000000) % 0x004000000000)
  else if 0x100000000000 ≤ loc ∧ loc < 0x200000000000 then
    .view ((loc - 0x100000000000) / 0x010000000000) ((loc - 0x100000000000) % 0x010000000000)
  else if 0x200000000000 ≤ loc ∧ loc < 0x200020000000 then
    (if (loc - 0x200000000000) % 0x02000000 < 0x01010000 then
      .scratch ((loc - 0x200000000000) / 0x02000000) ((loc - 0x200000000000) % 0x02000000)
    else .nowhere)
  else if 0x210000000000 ≤ loc ∧ loc < 0x210000200000 then
    .sema ((loc - 0x210000000000) / 128) ((loc - 0x210000000000) % 128)
  else .nowhere

/-- The LOC of byte `off` of cartridge `n`'s raw range. -/
def rawLoc (n off : Nat) : Nat := 0x010000000000 + n * 0x004000000000 + off

/-- The LOC of byte `off` of cluster `cl`'s tundish aperture. -/
def aperLoc (cl off : Nat) : Nat := 0x200000000000 + cl * 0x02000000 + off

/-- R227: KEYSEL of a DPA. -/
def keyselOf (dpa : Nat) : Nat := bits dpa 51 46
/-- R227: LOC of a DPA. -/
def locOf (dpa : Nat) : Nat := dpa % 2 ^ 46
/-- The line of an address. -/
def lineOf (a : Nat) : Nat := a / 128

/-- R236: the hash of a LOC. -/
def homeHash (loc : Nat) : Nat :=
  bits loc 12 7 ^^^ bits loc 18 13 ^^^ bits loc 24 19 ^^^ bits loc 30 25 ^^^ bits loc 36 31 ^^^ bits loc 42 37 ^^^ bits loc 45 43

/-- R236: the home slice of a LOC. -/
def homeOf (s : State) (loc : Nat) : Nat := getF s (homeMap (homeHash loc))

/-- R236: the home slice of semaphore `i`. -/
def semaHome (s : State) (i : Nat) : Nat := getF s (homeMap (i % 64))

/-- R237: the crucible set of a line. -/
def cruSet (loc : Nat) : Nat := bits loc 25 13 ^^^ bits loc 38 26
/-- R237: the tundish set of a line. -/
def tunSet (loc : Nat) : Nat := bits loc 19 7 ^^^ bits loc 32 20

/-! ## Keys (R232 to R235) -/

/-- The number of the key that selector `ks` holds: the selector and its generation. -/
def keyTag (s : State) (ks : Nat) : Nat := ks + 64 * tget 0 s.sec.gens ks

/-- The key under which a line was last written (selector 0's first key where nothing has written it, R258). -/
def lineTag (s : State) (line : Nat) : Nat := tget 0 s.mm.key line

/-- The bytes of a line as they were written. -/
def lineBytes (s : State) (line : Nat) : List Byte := rdList s.mm.mem (128 * line) 128

/-- R233, R235: the bytes of a line as a key reads them: written under another key, the deciphering of what that key wrote. -/
def readLine (s : State) (tag line : Nat) : List Byte :=
  let bs := lineBytes s line
  if tag = lineTag s line then bs
  else decryptLine (Config.memoryKey tag) line (encryptLine (Config.memoryKey (lineTag s line)) line bs)

/-- `n` bytes at a LOC, within one line, under a key. (DESIGN CHOICE, log entry 64.) -/
def readAt (s : State) (tag loc n : Nat) : List Byte := ((readLine s tag (lineOf loc)).drop (loc % 128)).take n

/-- `n` bytes from a LOC across lines, under a key (bounded by `fuel` lines). -/
def readSpan (s : State) (tag : Nat) : Nat → Nat → Nat → List Byte
  | 0, _, _ => []
  | fuel + 1, loc, n =>
    let k := min n (128 - loc % 128)
    if n = 0 then [] else readAt s tag loc k ++ readSpan s tag fuel (loc + k) (n - k)

/-! ## The expanded view (R249 to R256) -/

/-- The LOC of frame `f`'s entry of cartridge `n`. -/
def frameLoc (n f : Nat) : Nat := rawLoc n (0x3FF8000000 + 8 * f)

/-- R250: a frame's entry, as a number, read with selector 0. -/
def frameEntry (s : State) (n f : Nat) : Nat := leNat (readAt s (keyTag s 0) (frameLoc n f) 8)

/-- R250: whether an entry breaks its table or reaches past the raw range's end. -/
def frameBad (e : Nat) : Bool :=
  let kind := bits e 1 0
  let off := bits e 37 7 * 128
  let len := bits e 47 38
  decide (bits e 6 2 ≠ 0) || decide (bits e 63 48 ≠ 0) ||
    (if kind = 2 then decide (len < 1) || decide (513 < len) || decide (0x3FF8000000 < off + 128 * len)
     else if kind = 1 then decide (len ≠ 0) || decide (0x3FF8000000 < off + 0x10000)
     else decide (len ≠ 0) || decide (off ≠ 0))

/-- R252: the code lengths of a HUFF sub-block. -/
def huffLens (bs : List Byte) : List Nat :=
  (List.range 256).map (fun i => bits (nth 0 bs (i / 2)).toNat (4 * (i % 2) + 3) (4 * (i % 2)))

/-- How many symbols have a length. -/
def lenCount (ls : List Nat) (n : Nat) : Nat := (ls.filter (fun l => decide (l = n))).length

/-- The symbols in canonical order: by length, then by value. -/
def huffOrder (ls : List Nat) : List Nat :=
  (List.range 15).flatMap (fun n => (List.range 256).filter (fun i => decide (nth 0 ls i = n + 1)))

/-- R252: the lengths form a complete code, or name one symbol of length 1. -/
def huffOk (ls : List Nat) : Bool :=
  decide ((ls.foldl (fun a l => a + if l = 0 then 0 else 2 ^ (15 - l)) 0) = 2 ^ 15) ||
    (decide ((ls.filter (fun l => decide (l ≠ 0))).length = 1) && decide (lenCount ls 1 = 1))

/-- Read one symbol's code bit by bit: the symbol's place in canonical order and the bits used. -/
def huffSym (cnt : List Nat) (stream : Nat) : Nat → Nat → Nat → Nat → Nat → Nat → Option (Nat × Nat)
  | 0, _, _, _, _, _ => none
  | fuel + 1, len, pos, code, first, index =>
    let code := code + b2n (bit stream pos)
    let c := nth 0 cnt len
    if code < first + c then some (index + (code - first), pos + 1)
    else huffSym cnt stream fuel (len + 1) (pos + 1) (2 * code) (2 * (first + c)) (index + c)

/-- Decode `n` symbols; none when the bits run out. -/
def huffRun (cnt syms : List Nat) (stream limit : Nat) : Nat → Nat → Option (List Byte)
  | 0, _ => some []
  | n + 1, pos =>
    match huffSym cnt stream 15 1 pos 0 0 0 with
    | none => none
    | some (k, p) =>
      if limit < p then none
      else
        match huffRun cnt syms stream limit n p with
        | none => none
        | some bs => some (BitVec.ofNat 8 (nth 0 syms k) :: bs)

/-- R251, R252: the 4,096 bytes of a sub-block; none where it is malformed (R253). -/
def subBlock (bs : List Byte) : Option (List Byte) :=
  match bs with
  | [] => none
  | m :: rest =>
    if m = 0x00 then (if rest.length = 4096 then some rest else none)
    else if m = 0x02 then (if rest.length = 0 then some (List.replicate 4096 0) else none)
    else if m = 0x01 then
      (if rest.length < 129 ∨ 4096 < rest.length then none
       else
        let ls := huffLens (rest.take 128)
        if huffOk ls then
          huffRun (0 :: (List.range 15).map (fun n => lenCount ls (n + 1))) (huffOrder ls) (leNat (rest.drop 128))
            (8 * (rest.length - 128)) 4096 0
        else none)
    else none

/-- What a read through the expanded view meets. -/
inductive ViewRes where
  | absent
  | malformed
  | line (bs : List Byte)
  deriving DecidableEq, Repr

/-- Whether any raw line of a span was written after its frame's entry was (R255: its contents are undefined). -/
def rawNewer (s : State) (n f off len : Nat) : Bool :=
  s.mm.rawSeq.any (fun e => decide (rawLoc n off / 128 ≤ e.1) && decide (e.1 < (rawLoc n off + len + 127) / 128) &&
    decide (tget 0 s.mm.frameSeq (frameLoc n f) < e.2))

/-- A line of free bytes: contents the spec calls undefined. (DESIGN CHOICE, log entry 65.) -/
def freeLine (s : State) (loc : Nat) : List Byte := (List.range 128).map (fun i => Config.freeByte s.free (loc / 128 * 128 + i))

/-- R256: the line of the expanded view that holds expanded offset `off` of cartridge `n`, under a key. -/
def viewLine (s : State) (tag n off : Nat) : ViewRes :=
  let f := off / 0x10000
  let e := frameEntry s n f
  let kind := bits e 1 0
  let base := bits e 37 7 * 128
  let inFrame := off % 0x10000 / 128 * 128
  if kind = 0 ∧ frameBad e = false then .absent
  else if frameBad e then .malformed
  else if kind = 3 then .line (List.replicate 128 0)
  else if kind = 1 then
    (if rawNewer s n f base 0x10000 then .line (freeLine s (0x100000000000 + n * 0x010000000000 + off))
     else .line (readLine s tag (lineOf (rawLoc n (base + inFrame)))))
  else
    let len := bits e 47 38 * 128
    if rawNewer s n f base len then .line (freeLine s (0x100000000000 + n * 0x010000000000 + off))
    else
      let hdr := readSpan s tag 2 (rawLoc n base) 32
      let lens := (List.range 16).map (fun k => fieldOf hdr (2 * k) 2)
      let total := 32 + lens.foldl (· + ·) 0
      if len < total ∨ lens.any (fun l => decide (l < 1) || decide (4097 < l)) then .malformed
      else
        let k := inFrame / 4096
        let start := base + 32 + (lens.take k).foldl (· + ·) 0
        match subBlock (readSpan s tag 40 (rawLoc n start) (nth 0 lens k)) with
        | none => .malformed
        | some bs => .line ((bs.drop (inFrame % 4096)).take 128)

/-! ## Poison (R282 to R285) -/

/-- Whether the line of a LOC is poisoned. -/
def poisoned (s : State) (loc : Nat) : Bool := decide (tget 0 s.mm.poison (lineOf loc) ≠ 0)

/-- R282 to R284: a line becomes poisoned: the bit, a record in its home's log of 64, an error-ring entry. -/
def poisonLine (loc origin agent : Nat) (s : State) : State :=
  let h := homeOf s loc
  let r : PoisonRec := ⟨loc / 128 * 128, origin, agent, s.aoTick⟩
  let lg := (tget [] s.mm.log h ++ [r])
  let s := { s with mm := { s.mm with
    poison := tset 0 s.mm.poison (lineOf loc) 1
    log := tset [] s.mm.log h (lg.drop (lg.length - 64)) } }
  countBase 0x05 h 1 (errEvent 0x02 agent 0x30 origin 0 (loc / 128 * 128) s)

/-- R284: the end of a casting that consumes the poisoned line of a DPA. -/
def poisonEnd (s : State) (dpa : Nat) : Ending :=
  let loc := locOf dpa
  let h := homeOf s loc
  match (tget [] s.mm.log h).reverse.find? (fun r => decide (r.loc = loc / 128 * 128)) with
  | some r => faultEnd 0x30 r.origin r.agent (dpa / 128 * 128)
  | none => faultEnd 0x30 0 (agSlice h) (dpa / 128 * 128)

/-! ## Which memories answer -/

/-- PMC_CL_STAT.STATE of a cluster (R506): 0 RUN, 1 IDLE, 2 CHILL, 3 COLD. -/
def powerOf (s : State) (cl : Nat) : Nat := getF s (clState cl)

/-- R491: a cluster in IDLE enters RUN at its next work or access from the fabric. -/
def toRun (cl : Nat) (s : State) : State := if powerOf s cl = 1 then setF s (clState cl) 0 else s

/-- R191: an access to a cluster's aperture is held while it is in CHILL or entering it. -/
def chilled (s : State) (cl : Nat) : Bool :=
  !(s.pmc.retired.contains cl) && (decide (powerOf s cl = 2) || decide (tget 0 s.pmc.moving cl = 1))

/-- R191: whether a cluster's ways count as cache-mode ways: COLD, entering COLD, or retired. -/
def coldOrRetired (s : State) (cl : Nat) : Bool :=
  s.pmc.retired.contains cl || decide (powerOf s cl = 3) || decide (tget 0 s.pmc.moving cl = 2)

/-- R187, R193: whether a scratch offset lies in a scratch-mode way that answers. -/
def scratchLive (s : State) (cl off : Nat) : Bool :=
  decide (off < 0x1000000) && isOn s (wayMode cl (off / 0x100000)) && !coldOrRetired s cl

/-- R204: whether a run of bytes lies in a cluster's scratch-mode ways. -/
def runIn (s : State) (cl off n : Nat) : Bool :=
  decide (n = 0) || (decide (off + n ≤ 0x1000000) &&
    (List.range ((off + n - 1) / 0x100000 + 1 - off / 0x100000)).all (fun i => isOn s (wayMode cl (off / 0x100000 + i))))

/-- R493: a wake request is posted for a cluster. -/
def postWake (cl : Nat) (s : State) : State :=
  if s.pmc.wake.contains cl then s else { s with pmc := { s.pmc with wake := s.pmc.wake ++ [cl] } }

/-- R523: whether the ranges of cartridge `n` are mapped. -/
def socketMapped (s : State) (n : Nat) : Bool := bit (getF s dcReady) n

/-- R523: whether they are read-only. -/
def socketReadOnly (s : State) (n : Nat) : Bool := decide (getF s (sockState n) = 3)

/-- R258, R261: whether an HBM stack has finished its zeroing. -/
def stackReady (s : State) (n : Nat) : Bool := bit (getF s hbmReady) n

/-- R229: an access to an unmapped DPA by an agent. -/
def unmapped (ag dpa : Nat) : Ending := protEnd 0x20 ag dpa
/-- R231, R254, R523: a write to a read-only place. -/
def readOnlyEnd (ag dpa : Nat) : Ending := protEnd 0x21 ag dpa
/-- R475: an access to firmware storage or a save area. -/
def fwRegion (ag dpa : Nat) : Ending := protEnd 0x2A ag dpa

/-- Semaphore `i` (R231). -/
def semaOf (s : State) (i : Nat) : Nat := tget 0 s.mm.sema i
/-- R204, R214, R118, R373: add to a semaphore modulo 2^32. -/
def semaAdd (i v : Nat) (s : State) : State :=
  { s with mm := { s.mm with sema := tset 0 s.mm.sema i ((semaOf s i + v) % 2 ^ 32) } }

/-! ## Cache tables and replacement (R242 to R245) -/

/-- The victim among a set's ways, each given as (eligible, valid, age): the way and how far every eligible age
rises first (R243). -/
def pickVictim (ws : List (Bool × Bool × Nat)) : Option (Nat × Nat) :=
  let idx := List.range ws.length
  let el := fun i => nth (false, false, 0) ws i
  match idx.find? (fun i => (el i).1 && !(el i).2.1) with
  | some i => some (i, 0)
  | none =>
    let top := (ws.filter (fun w => w.1)).foldl (fun a w => max a w.2.2) 0
    match idx.find? (fun i => (el i).1 && decide ((el i).2.2 = top)) with
    | some i => some (i, 3 - top)
    | none => none

/-- An empty way. -/
def noWay : WayEnt := ⟨0, 0, false⟩

/-- The ways of a set. -/
def setWays (t : Tbl WayEnt) (set : Nat) : List WayEnt := (List.range 16).map (fun w => tget noWay t (set * 16 + w))

/-- The way that holds a line, if any. -/
def wayOf (t : Tbl WayEnt) (set line : Nat) : Option Nat :=
  (List.range 16).find? (fun w => decide ((tget noWay t (set * 16 + w)).line = line + 1))

/-- A hit sets AGE 0 (R242). -/
def wayHit (t : Tbl WayEnt) (set line : Nat) : Tbl WayEnt :=
  match wayOf t set line with
  | some w => tset noWay t (set * 16 + w) { tget noWay t (set * 16 + w) with age := 0 }
  | none => t

/-- Take a line out of its set. -/
def wayDrop (t : Tbl WayEnt) (set line : Nat) : Tbl WayEnt :=
  match wayOf t set line with
  | some w => tdel t (set * 16 + w)
  | none => t

/-- Fill a line: into the named way, or into the victim among the eligible ways; the new table and the line (+ 1)
that left (0 for none); none when no way is eligible (R244, R245). -/
def wayFill (t : Tbl WayEnt) (set line age : Nat) (elig : Nat → Bool) (named : Option Nat) : Option (Tbl WayEnt × Nat) :=
  match named with
  | some w => some (tset noWay t (set * 16 + w) ⟨line + 1, age, false⟩, (tget noWay t (set * 16 + w)).line)
  | none =>
    match pickVictim ((List.range 16).map (fun w =>
        let e := tget noWay t (set * 16 + w)
        (elig w, decide (e.line ≠ 0), e.age))) with
    | none => none
    | some (w, rise) =>
      let aged := if rise = 0 then t else (List.range 16).foldl (fun t k =>
        let e := tget noWay t (set * 16 + k)
        if elig k && decide (e.line ≠ 0) then tset noWay t (set * 16 + k) { e with age := e.age + rise } else t) t
      some (tset noWay aged (set * 16 + w) ⟨line + 1, age, false⟩, (tget noWay t (set * 16 + w)).line)

/-- The crucible ways that take ordinary fills (R260). -/
def cruElig (s : State) (w : Nat) : Bool := decide (w < 4) || !bit (getF s cruLock) (w - 4)

/-- The tundish ways that take ordinary fills (R243); one that is being converted to scratch gives up its lines and takes none
(R189). -/
def tunElig (s : State) (cl w : Nat) : Bool := !isOn s (wayMode cl w) && !isOn s (wayConv cl w) && !isOn s (wayLock cl w)

/-- A line is used at its home slice: a hit sets AGE 0, a miss fills it (R242, R243). -/
def cruTouch (loc age : Nat) (named : Option Nat) (s : State) : State :=
  let h := homeOf s loc
  let t := tget [] s.mm.cru h
  let set := cruSet loc
  if named.isNone && (wayOf t set (lineOf loc)).isSome then
    countBase 0x02 h 1 { s with mm := { s.mm with cru := tset [] s.mm.cru h (wayHit t set (lineOf loc)) } }
  else
    let s := countBase 0x03 h 1 s
    match wayFill (wayDrop t set (lineOf loc)) set (lineOf loc) age (cruElig s) named with
    | none => s
    | some (t', _) => { s with mm := { s.mm with cru := tset [] s.mm.cru h t' } }

/-- Take a line out of its home's crucible slice. -/
def cruDrop (loc : Nat) (s : State) : State :=
  let h := homeOf s loc
  { s with mm := { s.mm with cru := tset [] s.mm.cru h (wayDrop (tget [] s.mm.cru h) (cruSet loc) (lineOf loc)) } }

/-- R273: the crucible's copy of a line, where it has one, is dirty. -/
def cruMark (loc : Nat) (s : State) : State :=
  let h := homeOf s loc
  let t := tget [] s.mm.cru h
  match wayOf t (cruSet loc) (lineOf loc) with
  | some w =>
    let k := cruSet loc * 16 + w
    { s with mm := { s.mm with cru := tset [] s.mm.cru h (tset noWay t k { tget noWay t k with dirty := true }) } }
  | none => s

/-- A line's new value is installed in its home slice, dirty (R273, R281, R315). -/
def cruInstall (loc : Nat) (s : State) : State := cruMark loc (cruTouch loc 1 none s)

/-- Whether a cache holds a line of device memory: some agent, or its home slice. -/
def cachedLine (s : State) (line : Nat) : Bool :=
  decide (tget .U s.mm.dir line ≠ .U) ||
    (wayOf (tget [] s.mm.cru (homeOf s (128 * line))) (cruSet (128 * line)) line).isSome

/-! ## Reading -/

/-- R542: while a selector's keys are being drawn anew, requests under it are held. -/
def keyHeld (s : State) (dpa : Nat) : Bool := isOn s keyBusy && decide (getF s keySel = keyselOf dpa)

/-- A read of `n` bytes of device memory at a DPA, within one line, by an agent: its bytes, a wait, or its end. -/
def devRead (s : State) (ag dpa n : Nat) : Got (List Byte) :=
  if 2 ^ 52 ≤ dpa then .fail (unmapped ag dpa)
  else if keyHeld s dpa then .wait
  else
    let loc := locOf dpa
    let tag := keyTag s (keyselOf dpa)
    match placeOf loc with
    | .nowhere => .fail (unmapped ag dpa)
    | .firmware => .fail (fwRegion ag dpa)
    | .hbm k =>
      if !stackReady s k then .wait
      else if poisoned s loc then .fail (poisonEnd s dpa)
      else .ok (readAt s tag loc n)
    | .raw c _ =>
      if poisoned s loc then .fail (poisonEnd s dpa)
      else if !socketMapped s c then .fail (unmapped ag dpa)
      else .ok (readAt s tag loc n)
    | .view c off =>
      if poisoned s loc then .fail (poisonEnd s dpa)
      else if !socketMapped s c then .fail (unmapped ag dpa)
      else
        match viewLine s tag c off with
        | .absent => .fail (unmapped ag dpa)
        | .malformed => .fail (faultEnd 0x30 0x10 (agDeep c) (dpa / 128 * 128))
        | .line bs => .ok ((bs.drop (loc % 128)).take n)
    | .scratch cl off =>
      if chilled s cl then .wait
      else if !scratchLive s cl off then .ok (List.replicate n 0)
      else if poisoned s loc then .fail (poisonEnd s dpa)
      else .ok (scrRead s loc n)
    | .sema i off =>
      .ok (((leBytes 128 (semaOf s i)).drop off).take n)

/-- Whether a failed read is R253's: a malformed frame. -/
def decodeError (e : Ending) : Bool := decide (e.code = 0x30) && decide (e.sub = 0x10)

/-- R257, R554: a line of the expanded view is delivered from a sub-block that its controller keeps decoded, or decodes; it keeps
the 16 most recently used (by 4 KiB of the DPA). -/
def noteView (n dpa : Nat) (s : State) : State :=
  let k := dpa / 4096
  let ks := tget [] s.mm.decoded n
  let s := if ks.contains k then countBase 0x0E n 1 s else s
  let ks' := (k :: ks.filter (fun x => decide (x ≠ k))).take 16
  countBase 0x0D n 1 { s with mm := { s.mm with decoded := tset [] s.mm.decoded n ks' } }

/-- What a successful read leaves behind at its place: a cluster that was idle runs (R491), a sub-block that the controller had to
decode is kept; a line that a cache holds costs no read of the cartridge. -/
def readDone (dpa : Nat) (s : State) : State :=
  match placeOf (locOf dpa) with
  | .scratch cl _ => toRun cl s
  | .view n off =>
    if bits (frameEntry s n (off / 0x10000)) 1 0 = 2 ∧ cachedLine s (lineOf (locOf dpa)) = false then noteView n dpa s else s
  | _ => s

/-- R253, R191: what a read leaves behind when it fails on malformed data (an error-ring entry) or is held at a
cluster in CHILL (a wake request). -/
def readNote (dpa : Nat) (r : Got (List Byte)) (s : State) : State :=
  match r with
  | .fail e => if decodeError e && !poisoned s (locOf dpa) then errEvent 0x02 e.agent 0x30 0x10 0 (locOf dpa / 128 * 128) s else s
  | .wait => match placeOf (locOf dpa) with
    | .scratch cl _ => if chilled s cl then postWake cl s else s
    | _ => s
  | .ok _ => readDone dpa (bumpFree s 1)

/-! ## Writing -/

/-- The line turned into what it reads as under a key, and tagged with that key (R234). -/
def rekey (tag line : Nat) (s : State) : State :=
  if tag = lineTag s line then s
  else { s with mm := { s.mm with
    mem := wrList s.mm.mem (128 * line) (readLine s tag line)
    key := tset 0 s.mm.key line tag } }

/-- R255: the controller of cartridge `n` discards its buffered sub-blocks of frame `f`. -/
def dropDecoded (n f : Nat) (s : State) : State :=
  { s with mm := { s.mm with decoded := tset [] s.mm.decoded n ((tget [] s.mm.decoded n).filter (fun k =>
      decide (locOf (4096 * k) / 0x10000 ≠ (0x100000000000 + n * 0x010000000000) / 0x10000 + f))) } }

/-- R255: what a write of bytes at a raw offset of cartridge `n` does to the frame table and to frames' contents.  An entry is
written well by one 8 B aligned store, or inside a pour, under selector 0. -/
def noteRaw (n off len ks : Nat) (pour : Bool) (s : State) : State :=
  let seq := s.mm.seqNo + 1
  let line := lineOf (rawLoc n off)
  let s := { s with mm := { s.mm with seqNo := seq, rawSeq := tset 0 s.mm.rawSeq line seq } }
  if off < 0x3FF8000000 then s
  else
    let good := decide (ks = 0) && (pour || (decide (off % 8 = 0) && decide (len = 8)))
    let first := off / 8
    let cnt := (off + len + 7) / 8 - first
    let s := (List.range cnt).foldl (fun s i =>
      let eloc := rawLoc n (8 * (first + i))
      let s := dropDecoded n (first + i - 0x3FF8000000 / 8) { s with mm := { s.mm with frameSeq := tset 0 s.mm.frameSeq eloc seq } }
      if good then s
      else { s with mm := { s.mm with
        mem := wrList s.mm.mem eloc ((List.range 8).map (fun j => Config.freeByte s.free (eloc + j))) } }) s
    if good then s else bumpFree s 1

/-- Store bytes at a LOC of HBM or a raw range, within one line, under a key; `full` when a WR_FULL writes it,
`pour` when a pour does. -/
def putBytes (ks loc : Nat) (bs : List Byte) (full pour : Bool) (s : State) : State :=
  let tag := keyTag s ks
  let line := lineOf loc
  let s := rekey tag line s
  let s := logWrite 0 loc bs.length { s with mm := { s.mm with mem := wrList s.mm.mem loc bs } }
  let s := if full then { s with mm := { s.mm with poison := tset 0 s.mm.poison line 0 } } else s
  match placeOf loc with
  | .raw n off => noteRaw n off bs.length ks pour s
  | _ => s

/-- What forbids or holds a write of device memory at a DPA by an agent; none when it may be made. -/
def writeBar (s : State) (ag dpa : Nat) : Got Unit :=
  if 2 ^ 52 ≤ dpa then .fail (unmapped ag dpa)
  else if keyHeld s dpa then .wait
  else
    match placeOf (locOf dpa) with
    | .nowhere => .fail (unmapped ag dpa)
    | .firmware => .fail (fwRegion ag dpa)
    | .hbm k => if stackReady s k then .ok () else .wait
    | .raw c _ =>
      if !socketMapped s c then .fail (unmapped ag dpa)
      else if socketReadOnly s c then .fail (readOnlyEnd ag dpa)
      else .ok ()
    | .view c _ => if socketMapped s c then .fail (readOnlyEnd ag dpa) else .fail (unmapped ag dpa)
    | .scratch cl _ => if chilled s cl then .wait else .ok ()
    | .sema _ _ => .fail (readOnlyEnd ag dpa)

/-- A permitted write's bytes (R187: a cache-mode way and the control range ignore them). -/
def putDev (dpa : Nat) (bs : List Byte) (full pour : Bool) (s : State) : State :=
  match placeOf (locOf dpa) with
  | .scratch cl off =>
    if scratchLive s cl off then
      let s := scrWrite (locOf dpa) bs (toRun cl s)
      if full then { s with mm := { s.mm with poison := tset 0 s.mm.poison (lineOf (locOf dpa)) 0 } } else s
    else s
  | _ => putBytes (keyselOf dpa) (locOf dpa) bs full pour s

end Sys2Proof.Machine
end

