-- ==== Sys2Proof/Machine/CohOps.lean ====
section
/-!
DEFINITION. Taking an abort of a pour, ending a casting, and the net effect of a completed coherence
transaction on caches and directory (chapters 3, 9, 10, 11).
-/
namespace Sys2Proof.Machine

/-! ## Pours: abort and unlock (R120, R316, R319, R321, R323) -/

/-- Unlock the lines for which `agent` holds the lock of a pour (R277). -/
def unlockAll (agent : Nat) (s : State) : State :=
  { s with mm := { s.mm with txn := s.mm.txn.filterMap (fun e =>
      if e.2.locked = some agent then
        (if { e.2 with locked := none } = ({} : Txn) then none else some (e.1, { e.2 with locked := none }))
      else some e) } }

/-- The R19 identifier of an agent that may hold the token: a core, or the sprue engine of a channel. -/
def tokenId (agent : Nat) : Nat := if agent < 0x10000 then agent else agSprue ((agent - 0x10000) / 32)

/-- Whether an agent holds the token: it is the first of the agents that have asked, and the token is given out. -/
def holdsToken (s : State) (agent : Nat) : Bool := isOn s tokHeld && decide (s.tokens.head?.map (fun x => x.1) = some agent)

/-- R333: TOKEN_WAIT shows the requests that wait, saturating at 255. -/
def showWait (s : State) : State := setF s tokWait (min (s.tokens.length - (if isOn s tokHeld then 1 else 0)) 255)

/-- R323: an agent gives up the token it holds, or the place at which it waits for it. -/
def dropToken (agent : Nat) (s : State) : State :=
  let s := if holdsToken s agent then setOff (setOff s tokHeld) tokAgent else s
  showWait { s with tokens := s.tokens.filter (fun a => decide (a.1 ≠ agent)) }

/-- The stream command that launched a consort: its LAYER_ID and OP_ID. -/
def consortTags (s : State) (g k : Nat) : Nat × Nat :=
  match (tget [] (clusterOf s (clOf g)).queues 1).find? (fun m => decide (m.pos = (consortOf s g k).pos)) with
  | some m => (fieldOf m.bytes 8 2, fieldOf m.bytes 10 2)
  | none => (0, 0)

/-- R319, R559: a trace record of an aborted pour, with the first conflicting line (0 where there is none). -/
def tracePourAbort (g slot reason line : Nat) (s : State) : State :=
  let tags := consortTags s g (courseOf s g slot).consort
  traceEvent (clOf g) 0x09 g (castingOf s (castingOfCourse s g slot)).sched tags.1 tags.2 (reason + 256 * (line % 2 ^ 39))
    (countCore g 0x0B 1 s)

/-- The lanes of a course that have not exited. -/
def liveLanes (c : Course) : Word := ~~~c.exited

/-- A course waits for no fill of its core's miss registers any more (R239). -/
def leaveMiss (g slot : Nat) (s : State) : State :=
  if (coreOf s g).miss.any (fun m => m.courses.contains slot) then
    setCore s g { coreOf s g with miss := (coreOf s g).miss.map (fun m => { m with courses := m.courses.filter (fun x => decide (x ≠ slot)) }) }
  else s

/-- The waits of one agent for translations, pages and host reads end. -/
def forgetWaits (w : Waiter) (s : State) : State :=
  let s := match w with | .course g slot => leaveMiss g slot s | _ => s
  { s with xl := { s.xl with
    ats := s.xl.ats.map (fun r => { r with waiters := r.waiters.filter (fun x => decide (x.1 ≠ w)) })
    pri := s.xl.pri.map (fun r => { r with
      readers := r.readers.filter (fun x => decide (x.1 ≠ w)), writers := r.writers.filter (fun x => decide (x.1 ≠ w)) })
    reads := s.xl.reads.filter (fun r => decide (r.who ≠ w)) } }

/-- R120, R319: a pour of course `slot` of core `g` aborts: locks and token are released, its stores discarded, the
course continues at the abort target with its registers as they are. (DEDUCED, log entry 19.) -/
def abortPourAt (g slot reason line : Nat) (s : State) : State :=
  let c := courseOf s g slot
  if c.pour = .closed ∨ c.pour = .publishing then s
  else
    let s := forgetWaits (.course g slot) (unlockAll g (dropToken g s))
    let s := setCore s g { coreOf s g with ladle := {} }
    let s := setCourse s g slot { c with
      pour := .closed, pourCode := 0x50, pourSub := reason, pourSerial := false
      abortCount := c.abortCount + 1, pc := c.abortPc, active := liveLanes c, stack := c.beginStack }
    tracePourAbort g slot reason line s

/-- An abort for a reason that names no line. -/
def abortPour (g slot reason : Nat) (s : State) : State := abortPourAt g slot reason 0 s

/-! ## Writes that are out when their agent is gone (R24, R200, R202, R293) -/

/-- What an agent has sent and not yet seen complete, its window writes and its posted host writes, is from now on
another's to see complete. -/
def adopt (p : Waiter → Bool) (w : Waiter) (s : State) : State :=
  let mine := s.xl.dirty.any p
  { s with xl := { s.xl with
    wins := s.xl.wins.map (fun r => if p r.who && decide (r.kind = .wr) && r.back.isNone then { r with who := w } else r)
    reads := s.xl.reads.filter (fun r => !(p r.who && decide (r.len = 0)))
    dirty := (s.xl.dirty.filter (fun x => !p x)) ++ (if mine && !s.xl.dirty.contains w then [w] else []) } }

/-- R293: whether a window write of an agent is not yet acknowledged. -/
def winsOut (s : State) (p : Waiter → Bool) : Bool :=
  s.xl.wins.any (fun r => p r.who && decide (r.kind = .wr) && r.back.isNone)

/-- Whether a waiter is a course of these slots of core `g`. -/
def courseIn (g : Nat) (slots : List Nat) : Waiter → Bool
  | .course g' slot => decide (g' = g) && slots.contains slot
  | _ => false

/-! ## Freeing consorts -/

/-- R70, R91: a consort's courses, slot, memory and Harp return to the core; an owned Harp is cleared, and HARP_STAT shows
nothing running.  What its courses have sent is its cluster's to see complete (R202). (DESIGN CHOICE, log entry 107, for the
TILE fields.) -/
def freeConsort (g k : Nat) (s : State) : State :=
  let s := adopt (courseIn g (consortOf s g k).courses) (.cores (clOf g)) s
  let s := (consortOf s g k).courses.foldl (fun s i => leaveMiss g i s) s
  let c := coreOf s g
  let k' := tget {} c.consorts k
  let harp := if k'.harp then {} else c.harp
  let s := setCore s g { c with
    consorts := tdel c.consorts k
    courses := k'.courses.foldl (fun t i => tdel t i) c.courses
    harp := harp }
  if k'.harp then
    [harpOwned g, harpOwner g, hseqBusy g, drainBusy g, zeroBusy g, hseqTile g, drainTile g, zeroTile g].foldl setOff s
  else s

/-- Whether a consort of core `c` has the course whose pour is past its commit point (R317). -/
def publishes (c : Core) (k : Consort) : Bool :=
  match c.ladle.holder with
  | some slot => k.courses.contains slot && decide ((tget {} c.courses slot).pour = .publishing)
  | none => false

/-- Drop the work of casting `k` on core `g`: its pours abort without publication, its consorts and images go.  A consort whose
pour is past its commit point stands still until the pour is published (R317). -/
def clearCore (k g : Nat) (s : State) : State :=
  let c := coreOf s g
  let s := match c.ladle.holder with
    | some slot => if castingOfCourse s g slot = k ∧ (tget {} c.courses slot).pour ≠ .publishing then abortPour g slot 6 s else s
    | none => s
  let s := (coreOf s g).consorts.foldl (fun s e =>
    if e.2.casting ≠ k then s
    else if publishes (coreOf s g) e.2 then
      e.2.courses.foldl (fun s i => setCourse s g i { courseOf s g i with halted := true }) s
    else freeConsort g e.1 s) s
  setCore s g { coreOf s g with images := (coreOf s g).images.filter (fun i => decide (i.consort.casting ≠ k)) }

/-- The cores of cluster `cl`. -/
def coresOf (cl : Nat) : List Nat := (List.range 12).map (fun k => 12 * cl + k)

/-- R60: the consort memory of the cores of cluster `cl` holds undefined contents, those of free value `s.free`. -/
def forgetCores (cl : Nat) (s : State) : State :=
  (coresOf cl).foldl (fun s g => setCore s g { coreOf s g with cwild := s.free + 1, ctame := 0 }) { s with free := s.free + 1 }

/-- Whether a waiter belongs to casting `k`. -/
def waiterOf (s : State) (k : Nat) : Waiter → Bool
  | .course g slot => decide (castingOfCourse s g slot = k)
  | .engine cl _ => decide ((clusterOf s cl).casting = some k)
  | .chan e ch => decide ((chanOf s e ch).casting = some k)
  | .cores cl => decide ((clusterOf s cl).casting = some k)
  | .casting k' => decide (k' = k)
  | _ => false

/-- The waits of casting `k` for translations, pages and host reads end with it; its writes that are out are its own to see
complete (R24). -/
def dropWaiters (k : Nat) (s : State) : State :=
  let s := adopt (waiterOf s k) (.casting k) s
  let keep := fun w => !waiterOf s k w || decide (w = .casting k)
  { s with xl := { s.xl with
    ats := s.xl.ats.map (fun r => { r with waiters := r.waiters.filter (fun w => keep w.1) })
    pri := s.xl.pri.map (fun r => { r with readers := r.readers.filter (fun w => keep w.1), writers := r.writers.filter (fun w => keep w.1) })
    reads := s.xl.reads.filter (fun r => keep r.who)
    wins := s.xl.wins.filter (fun r => keep r.who) } }

/-- The sprue channels that run transfers of casting `k` are reset; one past its commit point publishes first (R317). -/
def clearChans (k : Nat) (s : State) : State :=
  s.spr.chans.foldl (fun s e => e.2.foldl (fun s c =>
    if c.2.casting ≠ some k then s
    else if c.2.phase = .publishing then
      { s with spr := { s.spr with chans := tset [] s.spr.chans e.1 (tset {} (tget [] s.spr.chans e.1) c.1 { c.2 with stopping := true }) } }
    else
      let agent := 0x10000 + 32 * e.1 + c.1
      setOff (setChan (unlockAll agent (dropToken agent s)) e.1 c.1 {}) (sprBusy e.1 c.1)) s) s

/-- R25, R59: the engines and consorts of casting `k` on cluster `cl` are reset and its part has ended. -/
def clearCluster (k cl : Nat) (s : State) : State :=
  let s := (coresOf cl).foldl (fun s g => clearCore k g s) s
  let c := clusterOf s cl
  setCluster s cl { c with queues := [], stop := true, ended := true, bad := false, watches := [] }

/-- The clusters of a mask. -/
def maskList (m : Nat) : List Nat := bitList m 16

/-- R409: the packet a device broadcasts when a scheduled casting ends otherwise than DONE. -/
def schedAbortPacket (c : Casting) : Packet := ⟨.schedAbort, 0, 0, 0, c.schedId, 0, c.startFret, 0, 0, 0, 0, [], 0⟩

/-- A running casting ends with `e` (R12, R25): its clusters' work is reset; the final record follows when
CASTING_COMPLETE finds every cluster ended.  The first end stands.  `tell`: whether peers are told (R409).
(DEDUCED, log entry 46.) -/
def endCasting (k : Nat) (e : Ending) (tell : Bool) (s : State) : State :=
  let c := castingOf s k
  if !c.live || c.ending.isSome then s
  else
    let s := setCasting s k { c with ending := some e }
    let s := dropWaiters k s
    let s := clearChans k s
    let s := (maskList c.mask).foldl (fun s cl => clearCluster k cl s) s
    let s := if e.st = stFault then raiseTrigger 4 s else s
    let s := if e.code = 0x30 then traceEvent 16 0x0F e.agent c.sched c.layer c.op e.addr s else s
    if c.sched && tell then { s with amx := { s.amx with bcast := s.amx.bcast ++ [schedAbortPacket c] } } else s

/-- A running casting ends with `e`, and a scheduled one tells its peers. -/
def failCasting (k : Nat) (e : Ending) (s : State) : State := endCasting k e true s

/-- The casting of a course ends with `e`. -/
def failCourse (g slot : Nat) (e : Ending) (s : State) : State := failCasting (castingOfCourse s g slot) e s

/-! ## What a write to a line does to other agents (R117, R312) -/

/-- A course loses its reservations on a line; `taken` when another agent's write or a snoop ended them (R117, R276). -/
def loseRsv (taken : Bool) (line : Nat) (c : Course) : Course :=
  if c.rsv.any (fun r => decide (r.2 = line + 1)) then
    { c with rsv := c.rsv.filter (fun r => decide (r.2 ≠ line + 1)), lost := if taken then line :: c.lost else c.lost }
  else c

/-- R117: the reservations on a line of every course but the writer's end. -/
def breakRsv (line : Nat) (who : Option (Nat × Nat)) (s : State) : State :=
  { s with cores := s.cores.map (fun e => (e.1, { e.2 with courses := e.2.courses.map (fun c =>
      (c.1, if who = some (e.1, c.1) then c.2
            else loseRsv true line c.2)) })) }

/-- R312: the pours of the courses of a test that have the line in their read set abort with CONFLICT, before their commit
point; a pour that has the line locked is protected (R316). -/
def conflictIf (p : Nat → Nat → Bool) (line : Nat) (s : State) : State :=
  s.cores.foldl (fun s e =>
    match e.2.ladle.holder with
    | some slot =>
      if e.2.ladle.readSet.contains line && p e.1 slot && decide ((txnOf s line).locked ≠ some e.1) then
        abortPourAt e.1 slot 1 (if line < 2 ^ 57 then line else 0) s
      else s
    | none => s) s

/-- R312: a write by `who` conflicts with every other pour that has read the line. -/
def conflict (line : Nat) (who : Option (Nat × Nat)) (s : State) : State :=
  conflictIf (fun g slot => decide (who ≠ some (g, slot))) line s

/-- A line is written by an agent: `who` the course (core, slot) when a course wrote it. -/
def noteWrite (line : Nat) (who : Option (Nat × Nat)) (s : State) : State :=
  conflict line who (breakRsv line who s)

/-! ## Line states and directory (R267, R268) -/

/-- The state in which agent `c` holds a line. -/
def lstateOf (s : State) (c line : Nat) : LState := tget .I (tget [] s.mm.lines c) line
/-- Set it. -/
def setLState (s : State) (c line : Nat) (x : LState) : State :=
  { s with mm := { s.mm with lines := tset [] s.mm.lines c (tset .I (tget [] s.mm.lines c) line x) } }
/-- The directory entry of a line. -/
def dirOf (s : State) (line : Nat) : DirEnt := tget .U s.mm.dir line
/-- Set it. -/
def setDir (s : State) (line : Nat) (d : DirEnt) : State := { s with mm := { s.mm with dir := tset .U s.mm.dir line d } }

/-- The holders of a line by its directory entry. -/
def holders : DirEnt → List Nat
  | .U => []
  | .O a => [a]
  | .SH set f => set ++ f.toList

/-- Take a line out of a tundish's set. -/
def tunDrop (cl line : Nat) (s : State) : State :=
  { s with mm := { s.mm with tun := tset [] s.mm.tun cl (wayDrop (tget [] s.mm.tun cl) (tunSet (128 * line)) line) } }

/-- An agent's copy goes to I: a tundish frees its way, and the reservations held through it end (R117); `snooped` when a snoop
did it (R276). -/
def toInvalid (snooped : Bool) (line c : Nat) (s : State) : State :=
  let s := setLState s c line .I
  if c < 16 then
    let s := tunDrop c line s
    { s with cores := s.cores.map (fun e => if e.1 / 12 = c then
        (e.1, { e.2 with courses := e.2.courses.map (fun x =>
          (x.1, loseRsv snooped line x.2)) }) else e) }
  else s

/-! ## Snoops (R272) -/

/-- A snoop reaches a tundish (R553). -/
def noteSnoop (c : Nat) (s : State) : State := if c < 16 then countCl c 6 1 s else s

/-- SNP_INV at a holder (R272, R312): the pours of its cluster that have read the line abort, but for that of core `own`, whose
lock sent the snoop (R315). -/
def snoopInv (own : Option Nat) (line c : Nat) (s : State) : State :=
  if lstateOf s c line = .I then s
  else
    toInvalid true line c (conflictIf (fun g _ => decide (g / 12 = c) && decide (own ≠ some g)) line (noteSnoop c s))

/-- SNP_SHR or SNP_FWD at a holder (R272): an M holder's data are written back. -/
def snoopShr (line c : Nat) (s : State) : State :=
  let x := lstateOf s c line
  if x = .I ∨ x = .S then s
  else
    let s := noteSnoop c s
    setLState (if x = .M ∧ line < 2 ^ 57 then cruInstall (128 * line) s else s) c line .S

/-- R273: SNP_INV to every holder but `keep`. -/
def invalidateOthers (line : Nat) (keep own : Option Nat) (s : State) : State :=
  (holders (dirOf s line)).foldl (fun s c => if keep = some c then s else snoopInv own line c s) s

/-! ## Directories of limited size, and recalls (R269, R286) -/

/-- The home of a line: its slice, or 64 for the host bridge. -/
def dirHome (s : State) (line : Nat) : Nat := if line < 2 ^ 57 then homeOf s (128 * line) else 64

/-- Whether a home's directory has an entry for a line: some agent holds it, or the host bridge itself (R281). -/
def dirLive (s : State) (line : Nat) : Bool := decide (dirOf s line ≠ .U) || s.mm.bridge.contains line

/-- R269: the place of a line's set in its home's directory of 4,096 sets of 16 ways. (DESIGN CHOICE, log entry 110.) -/
def dirBase (line : Nat) : Nat := Config.dirSet line % 4096 * 16

/-- The ways of the directory set of a line. -/
def dirSetWays (s : State) (line : Nat) : List WayEnt :=
  (List.range 16).map (fun w => tget noWay (tget [] s.mm.dirWays (dirHome s line)) (dirBase line + w))

/-- Whether a way of a directory is in use. -/
def dirUsed (s : State) (e : WayEnt) : Bool := decide (e.line ≠ 0) && dirLive s (e.line - 1)

/-- R243, R269: the way that a line's new entry takes, and how far the other ages rise. -/
def dirPick (s : State) (line : Nat) : Option (Nat × Nat) :=
  pickVictim ((dirSetWays s line).map (fun e => (true, dirUsed s e, e.age)))

/-- The line that must be recalled before a line can have an entry. -/
def dirVictim (s : State) (line : Nat) : Option Nat :=
  if dirLive s line then none
  else
    match dirPick s line with
    | some (w, _) =>
      let e := nth noWay (dirSetWays s line) w
      if dirUsed s e then some (e.line - 1) else none
    | none => none

/-- A line leaves every agent that holds it, by SNP_INV; an M holder's data come home. -/
def flushLine (line : Nat) (s : State) : State :=
  let s := (holders (dirOf s line)).foldl (fun s c =>
    let dirty := decide (lstateOf s c line = .M)
    let s := snoopInv none line c s
    if dirty && decide (line < 2 ^ 57) then cruInstall (128 * line) s else s) s
  let s := setDir s line .U
  { s with mm := { s.mm with bridge := s.mm.bridge.filter (fun l => decide (l ≠ line)) } }

/-- R269: a line has an entry in its home's directory, after the recall of a victim where the set is full. -/
def enterDir (line : Nat) (s : State) : State :=
  let s := match dirVictim s line with | some v => flushLine v s | none => s
  let h := dirHome s line
  let t := tget [] s.mm.dirWays h
  let ws := dirSetWays s line
  let put := fun (t : Tbl WayEnt) => { s with mm := { s.mm with dirWays := tset [] s.mm.dirWays h t } }
  match (List.range 16).find? (fun w => decide ((nth noWay ws w).line = line + 1)) with
  | some w => put (tset noWay t (dirBase line + w) ⟨line + 1, if dirLive s line then 0 else 1, false⟩)
  | none =>
    match dirPick s line with
    | some (w, rise) =>
      let t := if rise = 0 then t else (List.range 16).foldl (fun t k =>
        tset noWay t (dirBase line + k) { nth noWay ws k with age := (nth noWay ws k).age + rise }) t
      put (tset noWay t (dirBase line + w) ⟨line + 1, 1, false⟩)
    | none => s

/-! ## Peg time (R275, R289) -/

/-- R289: the peg time in FCLK cycles. -/
def pegTime (s : State) : Nat := min 1024 (max 16 (getF s cohPeg))

/-- R289: the home timeout in µs. -/
def homeTo (s : State) : Nat := if getF s cohHomeTo = 0 then 20 else min 2000 (getF s cohHomeTo)

/-- R275: a grant in E or M begins the peg time of its line. -/
def startPeg (c line : Nat) (s : State) : State :=
  if lstateOf s c line = .M ∨ lstateOf s c line = .E then
    setTxn s line { txnOf s line with peg := some (c, fclkOf s + pegTime s) }
  else s

/-! ## Grants (R273) -/

/-- R268: only a tundish holds F. -/
def fOrNone (c : Nat) : Option Nat := if c < 16 then some c else none

/-- R273, RD_SHR completed: agent `c` holds the line for reading; `shared` when it asked for no more than S (R287). -/
def grantSharedAs (shared : Bool) (c line : Nat) (s : State) : State :=
  if lstateOf s c line ≠ .I then s
  else
    let s := enterDir line s
    let s := { s with mm := { s.mm with bridge := s.mm.bridge.filter (fun l => decide (l ≠ line)) } }
    match dirOf s line with
    | .U =>
      if shared then setDir (setLState s c line .S) line (.SH [c] none)
      else startPeg c line (setDir (setLState s c line .E) line (.O c))
    | .O o =>
      let s := setLState (snoopShr line o s) c line (if c < 16 then .F else .S)
      if c < 16 then setDir s line (.SH [o] (some c)) else setDir s line (.SH [o, c] none)
    | .SH set f =>
      let s := match f with | some x => snoopShr line x s | none => s
      let all := set ++ f.toList
      let s := setLState s c line (if c < 16 then .F else .S)
      if c < 16 then setDir s line (.SH all (some c)) else setDir s line (.SH (all ++ [c]) none)

/-- R273, RD_SHR completed. -/
def grantShared (c line : Nat) (s : State) : State := grantSharedAs false c line s

/-- R273, RD_OWN or UPG completed: agent `c` holds the line in M. -/
def grantOwned (c line : Nat) (s : State) : State :=
  let s := enterDir line s
  let s := invalidateOthers line (some c) none s
  let s := { s with mm := { s.mm with bridge := s.mm.bridge.filter (fun l => decide (l ≠ line)) } }
  startPeg c line (setDir (setLState s c line .M) line (.O c))

/-- R273, WR_FULL, WR_PART, near and far atomics: no agent holds the line afterwards. -/
def grantNone (line : Nat) (s : State) : State :=
  let s := setDir (invalidateOthers line none none s) line .U
  { s with mm := { s.mm with bridge := s.mm.bridge.filter (fun l => decide (l ≠ line)) } }

/-- R273: the directory after a holder has left. -/
def dirLeave (c : Nat) (d : DirEnt) : DirEnt :=
  match d with
  | .U => .U
  | .O o => if o = c then .U else .O o
  | .SH set f =>
    let set' := set.filter (fun x => decide (x ≠ c))
    let f' := if f = some c then none else f
    if set'.isEmpty && f'.isNone then .U else .SH set' f'

/-- R273, WB or EV: agent `c` gives up the line; a dirty one is installed in the crucible as dirty. -/
def giveUp (c line : Nat) (s : State) : State :=
  let dirty := decide (lstateOf s c line = .M)
  let s := setDir (toInvalid false line c s) line (dirLeave c (dirOf s line))
  if dirty && decide (line < 2 ^ 57) then cruInstall (128 * line) s else s

/-! ## Key selectors and frames (R234, R255) -/

/-- R234: a request reaches the home under a KEYSEL: when the caches hold the line under another, it is first written back and
invalidated everywhere. -/
def keyTurn (dpa : Nat) (s : State) : State :=
  match placeOf (locOf dpa) with
  | .hbm _ | .raw _ _ | .view _ _ =>
    let line := lineOf (locOf dpa)
    if tget 0 s.mm.sel line = keyselOf dpa then s
    else
      let s := if cachedLine s line then cruDrop (128 * line) (breakRsv line none (flushLine line s)) else s
      { s with mm := { s.mm with sel := tset 0 s.mm.sel line (keyselOf dpa) } }
  | _ => s

/-- R255: every cached line of frame `f` of cartridge `n` leaves the caches. -/
def flushFrame (n f : Nat) (s : State) : State :=
  let lo := (0x100000000000 + n * 0x010000000000 + f * 0x10000) / 128
  let mine := fun (l : Nat) => decide (lo ≤ l) && decide (l < lo + 512)
  let s := s.mm.dir.foldl (fun s e => if mine e.1 then flushLine e.1 s else s) s
  { s with mm := { s.mm with cru := s.mm.cru.filterMap (fun t =>
      let ws := t.2.filter (fun w => !mine (w.2.line - 1))
      if ws.isEmpty then none else some (t.1, ws)) } }

/-- R255: before a write of `n` bytes at a DPA that reaches the frame table completes, the lines of the frames concerned leave
the caches. -/
def frameTurn (dpa n : Nat) (s : State) : State :=
  match placeOf (locOf dpa) with
  | .raw c off =>
    if off < 0x3FF8000000 then s
    else
      let first := (off - 0x3FF8000000) / 8
      (List.range ((off + n - 0x3FF8000000 + 7) / 8 - first)).foldl (fun s i => flushFrame c (first + i) s) s
  | _ => s

/-! ## Whether a line may be accessed now (R269, R271, R275 to R277, R315, R317) -/

/-- R317: a pour that publishes keeps its cluster's copies of the lines it has read: whether one of another cluster than agent
`can`'s has the line. -/
def pubHeld (s : State) (line : Nat) (can : Option Nat) : Bool :=
  s.cores.any (fun e => e.2.ladle.readSet.contains line && decide (can ≠ some (e.1 / 12)) &&
    (match e.2.ladle.holder with | some slot => decide ((tget {} e.2.courses slot).pour = .publishing) | none => false))

/-- Whether an agent holds a line within its peg time. -/
def pegged (s : State) (line : Nat) (can : Option Nat) : Bool :=
  match (txnOf s line).peg with | some a => decide (can ≠ some a.1) && decide (fclkOf s < a.2) | none => false

/-- Whether an escalated hold keeps a line for another course. -/
def heldEsc (s : State) (line : Nat) (course : Option Nat) : Bool :=
  match (txnOf s line).esc with | some a => decide (course ≠ some a.1) && decide (fclkOf s < a.2) | none => false

/-- Whether a recall of a line must wait. -/
def recallBusy (s : State) (line : Nat) : Bool :=
  let t := txnOf s line
  t.cur.isSome || t.locked.isSome || pegged s line none || heldEsc s line none || pubHeld s line none

/-- Whether a line needs a directory entry that no way can give it now. -/
def dirFull (s : State) (line : Nat) : Bool := match dirVictim s line with | some v => recallBusy s v | none => false

/-- The lock that a course may pass: that of the pour it has open (R315). -/
def ownLock (s : State) (g slot : Nat) : Option Nat := if (coreOf s g).ladle.holder = some slot then some g else none

/-- A line is busy for an agent: a transaction is in progress or waits, a pour of another holds it locked, another agent has
it within its peg time, another course holds it escalated, a pour that publishes has read it, or it needs a directory entry
that cannot be had. (DESIGN CHOICE, log entry 61.) -/
def lineBusy (s : State) (line : Nat) (lock can course : Option Nat) : Bool :=
  let t := txnOf s line
  t.cur.isSome || !t.waiting.isEmpty ||
    (match t.locked with | some g => decide (lock ≠ some g) | none => false) ||
    pegged s line can || heldEsc s line course || pubHeld s line can || (can.isSome && dirFull s line)

/-- Whether some open pour of the cluster has a line in its read set (R311). -/
def inReadSet (s : State) (cl line : Nat) : Bool :=
  s.cores.any (fun e => decide (e.1 / 12 = cl) && e.2.ladle.readSet.contains line)

/-- Whether an escalated hold or an open pour keeps a way of a tundish set (R276, R311). -/
def wayKept (s : State) (cl : Nat) (e : WayEnt) : Bool :=
  decide (e.line ≠ 0) && (inReadSet s cl (e.line - 1) || heldEsc s (e.line - 1) none)

/-- A fill of a tundish: into the named cache-mode way or a victim's place (R243 to R245); whether it was installed. -/
def tunFill (cl line age : Nat) (named : Option Nat) (s : State) : State × Bool :=
  let set := tunSet (128 * line)
  let t := tget [] s.mm.tun cl
  match wayFill (wayDrop t set line) set line age
      (fun w => tunElig s cl w && !wayKept s cl (tget noWay t (set * 16 + w))) named with
  | none => (s, false)
  | some (t', out) =>
    let s := if out = 0 ∨ out = line + 1 then s else giveUp cl (out - 1) s
    ({ s with mm := { s.mm with tun := tset [] s.mm.tun cl t' } }, true)

/-- A read through a cluster's tundish: a hit, or RD_SHR with a fill; uncached where no way is eligible (R244). -/
def tunRead (cl line age : Nat) (s : State) : State :=
  if lstateOf s cl line ≠ .I then
    countCl cl 0x04 1 { s with mm := { s.mm with tun := tset [] s.mm.tun cl (wayHit (tget [] s.mm.tun cl) (tunSet (128 * line)) line) } }
  else
    let s := countCl cl 0x05 1 s
    let r := tunFill cl line age none s
    let s := if line < 2 ^ 57 then cruTouch (128 * line) age none r.1 else r.1
    if r.2 then grantShared cl line s else s

/-- A write through a cluster's tundish: it holds the line in M, or writes it at its home (R242, R244, R272). -/
def tunWrite (cl line age : Nat) (s : State) : State :=
  if lstateOf s cl line ≠ .I then
    let s := { s with mm := { s.mm with tun := tset [] s.mm.tun cl (wayHit (tget [] s.mm.tun cl) (tunSet (128 * line)) line) } }
    if lstateOf s cl line = .M ∨ lstateOf s cl line = .E then setLState s cl line .M else grantOwned cl line s
  else
    let r := tunFill cl line age none s
    if r.2 then grantOwned cl line r.1 else grantNone line r.1

/-- R273, R279: RD_CUR changes no state and installs nothing; a crucible copy is used. -/
def readCurrent (line : Nat) (s : State) : State :=
  if line < 2 ^ 57 then
    let h := homeOf s (128 * line)
    let t := tget [] s.mm.cru h
    if (wayOf t (cruSet (128 * line)) line).isSome then
      countBase 0x02 h 1 { s with mm := { s.mm with cru := tset [] s.mm.cru h (wayHit t (cruSet (128 * line)) line) } }
    else countBase 0x03 h 1 s
  else s

/-- R273: an uncached read performed whole: RD_CUR, with SNP_CUR to an owner. -/
def readWhole (line : Nat) (s : State) : State :=
  readCurrent line (match dirOf s line with | .O o => noteSnoop o s | _ => s)

/-! ## Charge hints (R278, R279) -/

/-- Whether a home can push a line into a cluster's tundish: the cluster is in RUN or IDLE and in service (R266).
(DESIGN CHOICE, log entry 111.) -/
def tunUp (s : State) (cl : Nat) : Bool :=
  decide (powerOf s cl ≤ 1) && decide (tget 0 s.pmc.moving cl = 0) && !s.pmc.retired.contains cl

/-- R279: a line that has been pushed into a tundish is held there: in E after a write, as RD_SHR installs it after a read. -/
def pushed (cl line : Nat) (wr : Bool) (s : State) : State :=
  if wr then startPeg cl line (setDir (setLState (enterDir line s) cl line .E) line (.O cl)) else grantShared cl line s

/-- R279: place a line under a charge hint after an uncached write (`wr`) or read. -/
def applyHint (hint line : Nat) (wr : Bool) (s : State) : State :=
  let kind := bits hint 1 0
  let named := if bit hint 2 then some (bits hint 6 3) else none
  let age := if bit hint 11 then 3 else 1
  let toCru := fun s => cruTouch (128 * line) age none s
  if kind = 1 then
    (match named with
     | some w => if w < 4 then toCru s else cruTouch (128 * line) 0 (some w) s
     | none => toCru s)
  else if kind = 2 then
    let cl := bits hint 10 7
    if !tunUp s cl then toCru s
    else
      let s := toRun cl s
      if lstateOf s cl line ≠ .I then s
      else if dirFull s line then toCru s
      else
        match named with
        | some w => if isOn s (wayMode cl w) || isOn s (wayConv cl w) then toCru s else pushed cl line wr (tunFill cl line 0 (some w) s).1
        | none =>
          let r := tunFill cl line age none s
          if r.2 then pushed cl line wr r.1 else toCru s
  else s

/-! ## Uncached writes at a home (R273, R285, R294) -/

/-- Whether a place has a home slice that keeps its line. -/
def homed (dpa : Nat) : Bool :=
  match placeOf (locOf dpa) with
  | .hbm _ | .raw _ _ | .view _ _ | .firmware => true
  | _ => false

/-- What other agents meet when the line of a DPA is written there by `who`, with `n` bytes at it, before the write itself. -/
def beforeWrite (dpa n : Nat) (who : Option (Nat × Nat)) (s : State) : State :=
  noteWrite (lineOf (locOf dpa)) who (frameTurn dpa n (keyTurn dpa s))

/-- WR_FULL or WR_PART at a home, performed whole: no agent holds the line afterwards. -/
def homeWrite (dpa : Nat) (bs : List Byte) (full : Bool) (s : State) : State :=
  let s := beforeWrite dpa bs.length none s
  putDev dpa bs full false (if homed dpa then grantNone (lineOf (locOf dpa)) s else s)

end Sys2Proof.Machine
end

