-- ==== Sys2Proof/Machine/PortOps.lean ====
section
/-!
DEFINITION. Packets and the Amtox ports that send them (R391 to R396, R568).
-/
namespace Sys2Proof.Machine

/-! ## Packets and ports (R391 to R396, R568) -/

/-- TYPE of a packet (R391). -/
def packetType : PacketKind → Nat
  | .rdReq => 1 | .rdRsp => 2 | .wr => 3 | .wrAck => 4 | .atomReq => 5 | .atomRsp => 6 | .semSig => 7
  | .credit => 8 | .fretFull => 9 | .schedAbort => 10

/-- R389: the cells of a packet. -/
def cellsOf (p : Packet) : Nat := 1 + (p.payload.length - 224 + 255) / 256

/-- R568: a sampled packet leaves (0x05) or arrives (0x06). -/
def traceSend (typ port : Nat) (p : Packet) (s : State) : State :=
  if p.tag % 2 ^ getF s ringSample = 0 ∧ (p.kind = .wr ∨ p.kind = .rdReq ∨ p.kind = .atomReq) then
    traceEvent 16 typ (agPort port) false 0 0
      ((if typ = 5 then p.dst else p.src) % 2048 + port * 2 ^ 16 + p.tag % 65536 * 2 ^ 32 + packetType p.kind * 2 ^ 48) s
  else s

/-- Whether a port can send a packet now: it is ACTIVE, has a place in its replay buffer, and has the credit. -/
def canSend (s : State) (port : Nat) (p : Packet) : Bool :=
  let x := portOf s port
  decide (getF s (pState port) = 2) && decide (x.replay.length < 255) && decide (cellsOf p ≤ tget 0 x.credits p.vl)

/-- A packet leaves by a port: its credits are spent, it returns credits owed to the peer (R393), and it waits in the
replay buffer for its ACK. -/
def emit (port : Nat) (p : Packet) (s : State) : State :=
  let x := portOf s port
  let give := x.owed.head?
  let p := { p with cred := match give with | some (vl, n) => vl + 4 * n | none => 0 }
  let s := setPort s port { x with
    credits := tset 0 x.credits p.vl (tget 0 x.credits p.vl - cellsOf p)
    owed := x.owed.tail
    replay := x.replay ++ [(x.seqTx, p)]
    seqTx := (x.seqTx + 1) % 256 }
  traceSend 5 port p (countBase 0x0F port 1 s)

/-- R392: the first packet of a list that can be sent, by virtual lane 0, 3, 2, 1 and then by age. -/
def pickPacket (s : State) (port : Nat) (ps : List Packet) : Option Packet :=
  [0, 3, 2, 1].findSome? (fun vl =>
    match ps.find? (fun p => decide (p.vl = vl)) with
    | some p => if canSend s port p then some p else none
    | none => none)

/-- A port sends what it can of what waits. -/
def pump (port : Nat) : Nat → State → State
  | 0, s => s
  | fuel + 1, s =>
    match pickPacket s port (portOf s port).bufs with
    | none => s
    | some p =>
      let x := portOf s port
      pump port fuel (emit port p (setPort s port { x with bufs := x.bufs.erase p }))

/-- Give a packet to a port. -/
def sendPacket (port : Nat) (p : Packet) (s : State) : State :=
  let x := portOf s port
  let s := setPort s port { x with bufs := x.bufs ++ [p] }
  pump port ((portOf s port).bufs.length) s

/-- R396: the ACTIVE ports that reach a device. -/
def portsTo (s : State) (dev : Nat) : List Nat :=
  (List.range 24).filter (fun p => decide (getF s (pState p) = 2) && (isOn s (pPeerSwitch p) || decide ((portOf s p).peerDev = dev)))

/-- R415, R527: a port under self-test that reaches a device: a request whose only path it is waits there. -/
def testedPort (s : State) (dev : Nat) : Option Nat :=
  (List.range 24).find? (fun p => decide (getF s (pState p) = 3) && (isOn s (pPeerSwitch p) || decide ((portOf s p).peerDev = dev)))

/-- R396: the port of a best-effort request. -/
def portFor (s : State) (dev off : Nat) : Option Nat :=
  let ps := portsTo s dev
  if ps.isEmpty then testedPort s dev else some (nth 0 ps ((dev + off / 4096) % ps.length))

/-- R396: whether requests sent under the last ACTIVE set are still out to a device. -/
def oldPending (s : State) (dev : Nat) : Bool :=
  s.xl.wins.any (fun r => r.old && r.back.isNone && decide (r.pkt.dst = dev))

end Sys2Proof.Machine
end

