-- ==== Sys2Proof/Machine/XlateOps.lean ====
section
/-!
DEFINITION. Translation caches, requests toward the host, targets (R336 to R343), and the device's own reporting
writes (R595).
-/
namespace Sys2Proof.Machine

/-! ## Contexts and caches (R336, R340) -/

/-- R336: the context of a queue: 0 without a PASID, else the PASID plus 1. -/
def ctxOfQueue (s : State) (q : Nat) : Nat := if isOn s (qPasidEn q) then getF s (qPasid q) + 1 else 0

/-- Whether an entry covers an address of a context. -/
def entCovers (ctx va : Nat) (e : XEnt) : Bool := decide (e.ctx = ctx) && decide (e.va = va / 2 ^ e.size)

/-- The entry of a cache that covers an address. -/
def findEnt (c : List XEnt) (ctx va : Nat) : Option XEnt := c.find? (entCovers ctx va)

/-- A cache with the entry of an address used (AGE 0, R242). -/
def useEnt (c : List XEnt) (ctx va : Nat) : List XEnt := c.map (fun e => if entCovers ctx va e then { e with age := 0 } else e)

/-- Put an entry into a cache of `cap` entries: the newest of its page, else a free place, else the victim that is
not pinned (R340). -/
def addEnt (cap : Nat) (c : List XEnt) (e : XEnt) : List XEnt :=
  let c := c.filter (fun x => !(decide (x.ctx = e.ctx) && decide (x.va = e.va) && decide (x.size = e.size)))
  if c.length < cap then c ++ [e]
  else
    match pickVictim (c.map (fun x => (!x.pinned, true, x.age))) with
    | none => c
    | some (w, rise) => setNth (c.map (fun x => if x.pinned then x else { x with age := x.age + rise })) w e

/-- The TA an entry gives for an address. -/
def entTa (e : XEnt) (va : Nat) : Nat := e.ta * 2 ^ e.size + va % 2 ^ e.size

/-- A cluster's translation cache. -/
def clXlate (s : State) (cl : Nat) : List XEnt := tget [] s.xl.cluster cl
/-- Replace it. -/
def setClXlate (s : State) (cl : Nat) (c : List XEnt) : State :=
  { s with xl := { s.xl with cluster := tset [] s.xl.cluster cl c } }

/-- Who makes an access, and how: its context, its agent, its casting's schedule, the cluster whose cache it uses. -/
structure Acc2 where
  who : Waiter
  ctx : Nat
  agent : Nat
  sched : Bool
  cl : Option Nat
  deriving DecidableEq, Repr

/-- A waiter joins a list, once. -/
def addWaiter (w : Waiter) (va : Nat) (ws : List (Waiter × Nat)) : List (Waiter × Nat) :=
  if ws.any (fun x => decide (x.1 = w)) then ws else ws ++ [(w, va)]

/-- R92: a course that waits for a page has stopped at the access. -/
def noteFault (w : Waiter) (va : Nat) (wr : Bool) (s : State) : State :=
  match w with
  | .course g slot => setCourse s g slot { courseOf s g slot with faultVa := some va, faultWr := wr }
  | _ => s

/-- A page request group takes in one that waits for its page. -/
def PriGroup.join (w : Waiter) (va : Nat) (wr : Bool) (g : PriGroup) : PriGroup :=
  if wr then { g with writers := addWaiter w va g.writers } else { g with readers := addWaiter w va g.readers }

/-- R342: join the waiters of the page request group that is outstanding for a page; none where there is no such group, or the
casting is a scheduled one (R343). -/
def joinPri (a : Acc2) (va : Nat) (wr : Bool) (s : State) : Option State :=
  if !a.sched && s.xl.pri.any (fun g => decide (g.ctx = a.ctx) && decide (g.page = va / 4096) && !g.ignored) then
    some (noteFault a.who va wr { s with xl := { s.xl with pri := s.xl.pri.map (fun g =>
      if g.ctx = a.ctx ∧ g.page = va / 4096 ∧ g.ignored = false then g.join a.who va wr else g) } })
  else none

/-- Whether Translation Requests can be sent (R337, R440). -/
def atsOn (s : State) : Bool := s.hpt.ats && s.hpt.bme

/-- R341: a Translation Request, or a place in the one outstanding for the page and kind of access; `retry` after a page response.
While ATS Enable is 0 (R337) or Bus Master Enable is 0 (R440) it waits to be sent. -/
def askFor (ctx page : Nat) (wr retry : Bool) (ws : List (Waiter × Nat)) (s : State) : State :=
  if s.xl.ats.any (fun r => decide (r.ctx = ctx) && decide (r.page = page) && decide (r.write = wr)) then
    { s with xl := { s.xl with ats := s.xl.ats.map (fun r =>
      if r.ctx = ctx ∧ r.page = page ∧ r.write = wr then
        { r with waiters := ws.foldl (fun l w => addWaiter w.1 w.2 l) r.waiters, retry := r.retry || retry } else r) } }
  else
    let s' := { s with xl := { s.xl with ats := s.xl.ats ++ [⟨ctx, page, wr, ws, [], retry, atsOn s⟩] } }
    if atsOn s then countBase 0x12 0xFF 1 s' else s'

/-- R341: ask the host for a translation. -/
def askAts (a : Acc2) (va : Nat) (wr : Bool) (s : State) : State := askFor a.ctx (va / 4096) wr false [(a.who, va)] s

/-- The Translation Requests that wait to be sent leave. -/
def sendAsks (s : State) : State :=
  if !atsOn s then s
  else
    countBase 0x12 0xFF (s.xl.ats.filter (fun r => !r.sent)).length
      { s with xl := { s.xl with ats := s.xl.ats.map (fun r => { r with sent := true }) } }

/-- R340, R341: the TA of an access, or a wait for the host. -/
def translate (a : Acc2) (va : Nat) (wr : Bool) (s : State) : State × Got Nat :=
  let good := fun (e : XEnt) => if wr then e.wr else e.rd
  let fromCru := fun (s : State) =>
    match findEnt s.xl.crucible a.ctx va with
    | some e =>
      if good e then
        let s := { s with xl := { s.xl with crucible := useEnt s.xl.crucible a.ctx va } }
        let s := match a.cl with
          | some cl => setClXlate s cl (addEnt 4096 (clXlate s cl) { e with age := 1 })
          | none => s
        (s, Got.ok (entTa e va))
      else
        match joinPri a va wr s with
        | some s => (s, .wait)
        | none => (askAts a va wr s, .wait)
    | none =>
      let s := countBase 0x14 0xFF 1 s
      match joinPri a va wr s with
      | some s => (s, .wait)
      | none => (askAts a va wr s, .wait)
  match a.cl with
  | none => fromCru s
  | some cl =>
    match findEnt (clXlate s cl) a.ctx va with
    | some e => if good e then (setClXlate s cl (useEnt (clXlate s cl) a.ctx va), .ok (entTa e va)) else fromCru s
    | none => fromCru (countCl cl 0x10 1 s)

/-! ## Targets (R338, R348) -/

/-- Where a translated address goes. -/
inductive Target where
  | dev (dpa : Nat)
  | win (w off : Nat)
  | host (pa : Nat)
  deriving DecidableEq, Repr

/-- R338: base and size of the device-memory range. -/
def dmRange (s : State) : Nat × Nat :=
  if s.hpt.cxlMem then (s.hpt.hdmBase, if s.hpt.hdmCommitted then s.hpt.hdmSize else 0)
  else (s.hpt.bar4Base, 2 ^ s.hpt.bar4Size)

/-- R338: the target of a TA. -/
def targetOf (s : State) (ta : Nat) : Target :=
  let dm := dmRange s
  let ab := getF s aperBase * 2 ^ 44
  if dm.1 ≤ ta ∧ ta < dm.1 + dm.2 then .dev (ta - dm.1)
  else if isOn s aperEnable ∧ ab ≤ ta ∧ ta < ab + 2 ^ 44 then .win ((ta - ab) / 2 ^ 36) ((ta - ab) % 2 ^ 36)
  else .host ta

/-- The coherence key of a target's line: host lines lie above 2^57. -/
def hostLine (pa : Nat) : Nat := 2 ^ 57 + pa / 128

/-- R348: an outbound window's use, checked: the device, its inbound window and the inbound offset. -/
def windowOf (s : State) (w off : Nat) : Option (Nat × Nat × Nat) :=
  if isOn s (owValid w) ∧ off < 2 ^ getF s (owSize w) then
    some (getF s (owDev w), getF s (owIwin w), getF s (owOffset w) * 4096 + off)
  else none

/-- WINDOW_INVALID (R348). -/
def windowInvalid (ag va : Nat) : Ending := protEnd 0x24 ag va

/-! ## Accesses through outbound windows (R348, R396, R410) -/

/-- The request that a waiter has sent for an access; its window was looked up once, when it was sent (R348). -/
def findWin (s : State) (who : Waiter) (kind : PacketKind) (w va : Nat) (payload : List Byte) (len aux : Nat) : Option WinReq :=
  s.xl.wins.find? (fun r => decide (r.who = who) && decide (r.kind = kind) && decide (r.win = w) && decide (r.va = va) &&
    decide (r.pkt.payload = payload) && decide (r.pkt.len = len) && decide (r.pkt.aux = aux))

/-- A window request is sent and noted as outstanding. -/
def sendWin (who : Waiter) (kind : PacketKind) (port w va : Nat) (p : Packet) (s : State) : State :=
  let tag := s.xl.nextTag % 65536
  let p := { p with tag := tag }
  sendPacket port p { s with xl := { s.xl with
    nextTag := s.xl.nextTag + 1
    wins := s.xl.wins ++ [⟨tag, who, kind, port, w, va, p, false, false, none⟩] } }

/-- PEER_LOST, PORT_DOWN. -/
def portDown (ag va : Nat) : Ending := faultEnd 0x41 0x12 ag va

/-- What stands in the way of a new window request: its destination and port when nothing does (R348, R396, R463). -/
def winBar (s : State) (ag w off va : Nat) : Got (Nat × Nat × Nat × Nat) :=
  if s.boot.reduced then .fail ⟨stAborted, 0x70, 0x11, ag, va⟩
  else
    match windowOf s w off with
    | none => .fail (windowInvalid ag va)
    | some (dev, iwin, ioff) =>
      if oldPending s dev then .wait
      else
        match portFor s dev ioff with
        | none => .fail (portDown ag va)
        | some port => .ok (dev, iwin, ioff, port)

/-- The packet of a window request. -/
def winPacket (s : State) (kind : PacketKind) (dev iwin off len aux st : Nat) (payload : List Byte) : Packet :=
  ⟨kind, 1, getF s amxDev, dev, 0, iwin, off, len, aux, st, 0, payload, 0⟩

/-- An access through an outbound window at slot offset `off`: the answer's data when it has come, else the request is sent and
the access waits (R348, R410).  `st` is 0x30 for a write of poisoned data. -/
def winAccessP (st : Nat) (a : Acc2) (kind : PacketKind) (w off va : Nat) (payload : List Byte) (len aux : Nat) (s : State) :
    State × Got (List Byte) :=
  match findWin s a.who kind w va payload len aux with
  | some r =>
    (match r.back with
     | none => (s, .wait)
     | some (0, _, bs) => (s, .ok bs)
     | some (c, sub, _) => (s, .fail (faultEnd c sub (agPort r.port) va)))
  | none =>
    match winBar s a.agent w off va with
    | .wait => (s, .wait)
    | .fail e => (s, .fail e)
    | .ok (dev, iwin, ioff, port) => (sendWin a.who kind port w va (winPacket s kind dev iwin ioff len aux st payload) s, .wait)

/-- An access through an outbound window. -/
def winAccess (a : Acc2) (kind : PacketKind) (w off va : Nat) (payload : List Byte) (len aux : Nat) (s : State) :
    State × Got (List Byte) := winAccessP 0 a kind w off va payload len aux s

/-! ## Host reads and writes (R293, R301, R440) -/

/-- Bytes of host memory that the device has written or holds. -/
def hostBytes (s : State) (pa n : Nat) : List Byte := rdList s.mm.host pa n

/-- Bytes of host memory that the device writes. -/
def putHost (pa : Nat) (bs : List Byte) (s : State) : State :=
  logWrite 1 pa bs.length { s with mm := { s.mm with host := wrList s.mm.host pa bs } }

/-- R293: an agent has posted a write to host memory, which a zero-length read sent before does not see complete. -/
def markDirty (w : Waiter) (s : State) : State :=
  { s with xl := { s.xl with
    dirty := if s.xl.dirty.contains w then s.xl.dirty else s.xl.dirty ++ [w]
    reads := s.xl.reads.map (fun r => if r.who = w ∧ r.len = 0 then { r with args := [1] } else r) } }

/-- R307, R440: a posted write to host memory by an agent; discarded while Bus Master Enable is 0. -/
def hostWrite (w : Waiter) (pa : Nat) (bs : List Byte) (s : State) : State :=
  if s.hpt.bme then markDirty w (putHost pa bs s) else s

/-- A new outbound host read. -/
def sendRead (w : Waiter) (pa va n : Nat) (args : List Nat) (s : State) : State :=
  { s with xl := { s.xl with
    reads := s.xl.reads ++ [⟨s.xl.nextTag, w, pa, va, n, false, false, [], args⟩]
    nextTag := s.xl.nextTag + 1 } }

/-- A read of host memory: its data when they have come, else the request is made and the access waits.  `args`
tell an AtomicOp from a read.  With Bus Master Enable 0 it ends as a completion time-out does (R440).
(DEDUCED, log entry 99.) -/
def hostRead (a : Acc2) (pa va n : Nat) (args : List Nat) (s : State) : State × Got (List Byte) :=
  match s.xl.reads.find? (fun r => decide (r.who = a.who) && decide (r.pa = pa) && decide (r.len = n) && decide (r.args = args)) with
  | some r =>
    if !r.back then (s, .wait)
    else if r.ep then (s, .fail (faultEnd 0x30 0x12 agHost va))
    else (s, .ok r.data)
  | none =>
    if !s.hpt.bme then (s, .fail (faultEnd 0x31 0x13 a.agent va))
    else (sendRead a.who pa va n args s, .wait)

/-- An agent's completed host reads are used up when the access that needed them has been performed. -/
def endReads (w : Waiter) (s : State) : State :=
  { s with xl := { s.xl with reads := s.xl.reads.filter (fun r => decide (r.who ≠ w) || decide (r.len = 0)) } }

/-- R293: whether an agent's posted host writes are complete: none is out, or a zero-length read sent behind the last of them has
come back; with Bus Master Enable 0 they count as complete (R440).  The read is made where it is missing.
(DEDUCED, log entry 31.) -/
def hostFlush (w : Waiter) (s : State) : State × Bool :=
  let clean := fun (s : State) => { s with xl := { s.xl with
    dirty := s.xl.dirty.filter (fun x => decide (x ≠ w))
    reads := s.xl.reads.filter (fun r => !(decide (r.who = w) && decide (r.len = 0))) } }
  if !s.xl.dirty.contains w then (s, true)
  else if !s.hpt.bme then (clean s, true)
  else
    match s.xl.reads.find? (fun r => decide (r.who = w) && decide (r.len = 0)) with
    | none => (sendRead w 0 0 0 [] s, false)
    | some r =>
      if !r.back then (s, false)
      else if r.args = [] then (clean s, true)
      else
        let s := { s with xl := { s.xl with reads := s.xl.reads.filter (fun x => decide (x.tag ≠ r.tag)) } }
        (sendRead w 0 0 0 [] s, false)

/-! ## Page faults (R342, R343) -/

/-- R342: Page Request Groups in flight: at most 512, and at most what the host allocates. -/
def priFull (s : State) : Bool := decide (min 512 s.hpt.priAlloc ≤ s.xl.pri.length)

/-- R342: send a page request for a page, or join the one outstanding: `ws` wait for the access, a write when `wr`. -/
def askPage (ctx page : Nat) (wr : Bool) (ws : List (Waiter × Nat)) (ignored : Bool) (s : State) : State :=
  if s.xl.pri.any (fun g => decide (g.ctx = ctx) && decide (g.page = page) && decide (g.ignored = ignored)) then
    { s with xl := { s.xl with pri := s.xl.pri.map (fun g =>
      if g.ctx = ctx ∧ g.page = page ∧ g.ignored = ignored then ws.foldl (fun g w => g.join w.1 w.2 wr) g else g) } }
  else if priFull s then s
  else
    countBase 0x13 0xFF 1 { s with xl := { s.xl with
      pri := s.xl.pri ++ [⟨s.xl.nextGroup, ctx, page, wr, if wr then [] else ws, if wr then ws else [], ignored⟩]
      nextGroup := (s.xl.nextGroup + 1) % 512 } }

/-! ## The device's reporting writes (R339, R440, R595) -/

/-- How the device makes a reporting write. -/
def reportAccess (ctx : Nat) : Acc2 := ⟨.posted, ctx, agFw 2, false, none⟩

/-- Whether a piece of a reporting write, within one line, can reach its target now. -/
def landBar (t : Target) (va : Nat) (s : State) : State × Got Unit :=
  match t with
  | .host pa => if s.hpt.cxlCache && lineBusy s (hostLine pa) none none none then (s, .wait) else (s, .ok ())
  | .win w off => (s, match winBar s (agFw 2) w off va with | .ok _ => .ok () | .wait => .wait | .fail e => .fail e)
  | .dev dpa =>
    if lineBusy s (lineOf (locOf dpa)) none none none then (s, .wait)
    else
      match writeBar s (agFw 2) dpa with
      | .wait => (match placeOf (locOf dpa) with | .scratch cl _ => postWake cl s | _ => s, .wait)
      | r => (s, r)

/-- A piece reaches its target: device memory as an uncached write at its home, host memory as a posted write unless Bus Master
Enable has been 0 since it was made (`dead`), another device through its window. -/
def landPiece (dead : Bool) (t : Target) (va : Nat) (bs : List Byte) (s : State) : State :=
  match t with
  | .host pa =>
    if dead || !s.hpt.bme then s
    else putHost pa bs (noteWrite (hostLine pa) none (grantNone (hostLine pa) s))
  | .win w off =>
    (match winBar s (agFw 2) w off va with
     | .ok (dev, iwin, ioff, port) =>
       sendWin .posted .wr port w va (winPacket s .wr dev iwin ioff bs.length (2 ^ 64 - 1) 0 bs) s
     | _ => s)
  | .dev dpa => homeWrite dpa bs (decide (bs.length = 128)) s

/-- The target `n` bytes further on. -/
def Target.plus (n : Nat) : Target → Target
  | .dev dpa => .dev (dpa + n)
  | .win w off => .win w (off + n)
  | .host pa => .host (pa + n)

/-- The lines of a list of bytes at an address, each with its offset. -/
def lineCuts : Nat → Nat → Nat → List Byte → List (Nat × List Byte)
  | 0, _, _, _ => []
  | fuel + 1, o, va, bs =>
    if bs.isEmpty then []
    else
      let k := min bs.length (128 - va % 128)
      (o, bs.take k) :: lineCuts fuel (o + k) (va + k) (bs.drop k)

/-- The writes that make up a reporting write, in order, each within one line: a status record's are those of R62, with the odd
UPDATE first and the even one last; an error-ring entry's SEQ is written last (R510). -/
def PostedWrite.parts (p : PostedWrite) : List (Nat × List Byte) :=
  if p.kind = 0 then
    [(56, leBytes 8 ((fieldOf p.data 56 4 + 2 ^ 32 - 1) % 2 ^ 32)), (0, p.data.take 56), (56, p.data.drop 56)]
  else if p.kind = 3 ∧ p.data ≠ [] then [(4, p.data.drop 4), (0, p.data.take 4)]
  else lineCuts (p.data.length / 128 + 2) 0 p.va p.data

/-- A reporting write reaches its target whole, once every part of it can. -/
def landWrite (p : PostedWrite) (ta : Nat) (s : State) : State × Got Unit :=
  let t := targetOf s ta
  let r := p.parts.foldl (fun (r : State × Got Unit) c =>
    match r.2 with | .ok () => landBar (t.plus c.1) (p.va + c.1) r.1 | _ => r) (s, .ok ())
  match r with
  | (s, .ok ()) => (p.parts.foldl (fun s c => landPiece p.dead (t.plus c.1) (p.va + c.1) c.2 s) s, .ok ())
  | r => r

/-- Whether a page of a context has reporting writes waiting already. -/
def pageWaits (s : State) (ctx va : Nat) : Bool :=
  s.xl.posted.any (fun p => decide (p.ctx = ctx) && decide (p.va / 4096 = va / 4096))

/-- R595: the outcome of a reporting write that cannot be made. -/
def dropWrite (p : PostedWrite) (code sub : Nat) (s : State) : State :=
  if p.kind = 3 then setOff { s with err := { s.err with interrupted := some (code, sub, p.va) } } errEnable
  else
    let s := if p.kind = 2 then setOff s mirEnable else s
    errEvent 0x0C (if p.kind = 1 then p.src else agFw 2) code sub (p.kind + 1) p.va s

/-- Make a reporting write: at once where its translation is at hand and its target is free, else it waits, behind those of its
page that wait already. -/
def tryPost (p : PostedWrite) (s : State) : State :=
  let wait := fun (s : State) => { s with xl := { s.xl with posted := s.xl.posted ++ [p] } }
  if pageWaits s p.ctx p.va then wait s
  else
    match translate (reportAccess p.ctx) p.va true s with
    | (s, .wait) => wait s
    | (s, .fail e) => dropWrite p e.code e.sub s
    | (s, .ok ta) =>
      match landWrite p ta s with
      | (s, .ok ()) => s
      | (s, .wait) => wait s
      | (s, .fail e) => dropWrite p e.code e.sub s

/-- A new reporting write (R595). -/
def postWrite (kind ctx va : Nat) (bs : List Byte) (src : Nat) (s : State) : State :=
  tryPost ⟨kind, ctx, va, bs, src, !s.hpt.bme⟩ s

/-- Take the waiting reporting writes of a test out, and try each again, in order. -/
def retryWhere (p : PostedWrite → Bool) (s : State) : State :=
  (s.xl.posted.filter p).foldl (fun s x => tryPost x s) { s with xl := { s.xl with posted := s.xl.posted.filter (fun x => !p x) } }

/-- The reporting writes that wait for a page are tried again. -/
def retryPosted (ctx page : Nat) (s : State) : State :=
  retryWhere (fun p => decide (p.ctx = ctx) && decide (p.va / 4096 = page)) s

/-- Whether a request is outstanding for a reporting write's page. -/
def postAsked (s : State) (p : PostedWrite) : Bool :=
  s.xl.ats.any (fun r => decide (r.ctx = p.ctx) && decide (r.page = p.va / 4096) && r.write) ||
    s.xl.pri.any (fun g => decide (g.ctx = p.ctx) && decide (g.page = p.va / 4096) && !g.ignored)

/-- The reporting writes that wait for something else than the host's answer are tried again. -/
def retryIdle (s : State) : State := retryWhere (fun p => !postAsked s p) s

/-- The reporting writes that wait for a page are dropped. -/
def failPosted (ctx page code sub : Nat) (s : State) : State :=
  let mine := fun (p : PostedWrite) => decide (p.ctx = ctx) && decide (p.va / 4096 = page)
  (s.xl.posted.filter mine).foldl (fun s p => dropWrite p code sub s)
    { s with xl := { s.xl with posted := s.xl.posted.filter (fun p => !mine p) } }

end Sys2Proof.Machine
end

