-- ==== Sys2Proof/Machine/AccessOps.lean ====
section
/-!
DEFINITION. Coherent reads and uncached writes at any target, by engines, channels and firmware (R294, R363).
-/
namespace Sys2Proof.Machine

/-- The answered window requests and host reads of a waiter are used up; its window writes that are not yet acknowledged stay
out (R293). -/
def endWaits (w : Waiter) (s : State) : State :=
  endReads w { s with xl := { s.xl with
    wins := s.xl.wins.filter (fun r => decide (r.who ≠ w) || (decide (r.kind = .wr) && r.back.isNone)) } }

/-! ## How castings and courses make their accesses (R336) -/

/-- The context of casting `k` as its clusters' control cores and engines use it. -/
def castingAccess (s : State) (k : Nat) (w : Waiter) (agent : Nat) (cl : Option Nat) : Acc2 :=
  let c := castingOf s k
  ⟨w, c.ctx, agent, c.sched, cl⟩

/-- How a course's GLOBAL accesses are made. -/
def courseAccess (s : State) (g slot : Nat) : Acc2 :=
  castingAccess s (castingOfCourse s g slot) (.course g slot) g (some (clOf g))

/-! ## Coherent reads and uncached writes at a translated address (R294, R301, R363) -/

/-- How an uncached access places its line: nothing, or a charge hint. -/
def placeLine (hint : Option Nat) (line : Nat) (wr : Bool) (s : State) : State :=
  match hint with
  | some h => applyHint h line wr (if wr then s else readCurrent line s)
  | none => if wr then s else readCurrent line s

/-- Whether the device itself holds a host line under CXL.cache: an agent of it, or the host coherence bridge (R281, R286). -/
def hostHeld (s : State) (pa : Nat) : Bool := dirLive s (hostLine pa)

/-- A coherent read of `n` bytes within one line at a target. -/
def readTarget (a : Acc2) (t : Target) (va n : Nat) (hint : Option Nat) (s : State) : State × Got (List Byte) :=
  match t with
  | .dev dpa =>
    if lineBusy s (lineOf (locOf dpa)) none none none then (s, .wait)
    else
      let r := devRead s a.agent dpa n
      let s := readNote dpa r s
      (match r with
       | .ok _ =>
         if homed dpa then
           let s := keyTurn dpa s
           match dirOf s (lineOf (locOf dpa)) with
           | .O o => placeLine hint (lineOf (locOf dpa)) false (noteSnoop o s)
           | _ => placeLine hint (lineOf (locOf dpa)) false s
         else s
       | _ => s, r)
  | .win w off => winAccess a .rdReq w off va [] n 0 s
  | .host pa =>
    if lineBusy s (hostLine pa) none none none then (s, .wait)
    else if hostHeld s pa then (s, .ok (hostBytes s pa n))
    else hostRead a pa va n [] s

/-- An uncached write within one line at a target (WR_FULL or WR_PART at a home, a posted write to host memory, a window
write): done, waiting for its acknowledgement, or refused.  `full`: it belongs to a WR_FULL, which clears poison. -/
def writeTargetF (full : Bool) (a : Acc2) (t : Target) (va : Nat) (bs : List Byte) (hint : Option Nat) (s : State) :
    State × Got Unit :=
  match t with
  | .dev dpa =>
    let line := lineOf (locOf dpa)
    if lineBusy s line none none none then (s, .wait)
    else
      match writeBar s a.agent dpa with
      | .wait => (match placeOf (locOf dpa) with | .scratch cl _ => postWake cl s | _ => s, .wait)
      | .fail e => (s, .fail e)
      | .ok () =>
        let s := homeWrite dpa bs full s
        (if homed dpa then placeLine hint line true s else s, .ok ())
  | .win w off =>
    match winAccess a .wr w off va bs bs.length (2 ^ 64 - 1) s with
    | (s, .ok _) => (s, .ok ())
    | (s, .wait) => (s, .wait)
    | (s, .fail e) => (s, .fail e)
  | .host pa =>
    if lineBusy s (hostLine pa) none none none then (s, .wait)
    else (hostWrite a.who pa bs (noteWrite (hostLine pa) none (grantNone (hostLine pa) s)), .ok ())

/-- An uncached write of its own: a WR_FULL when it has the whole line. -/
def writeTarget (a : Acc2) (t : Target) (va : Nat) (bs : List Byte) (hint : Option Nat) (s : State) : State × Got Unit :=
  writeTargetF (decide (bs.length = 128)) a t va bs hint s

/-- A coherent read of `n` bytes within one line at a virtual address. -/
def readAtVa (a : Acc2) (va n : Nat) (hint : Option Nat) (s : State) : State × Got (List Byte) :=
  match translate a va false s with
  | (s, .ok ta) => readTarget a (targetOf s ta) va n hint s
  | (s, .wait) => (s, .wait)
  | (s, .fail e) => (s, .fail e)

/-- An uncached write within one line at a virtual address. -/
def writeAtVa (a : Acc2) (va : Nat) (bs : List Byte) (hint : Option Nat) (s : State) : State × Got Unit :=
  match translate a va true s with
  | (s, .ok ta) => writeTarget a (targetOf s ta) va bs hint s
  | (s, .wait) => (s, .wait)
  | (s, .fail e) => (s, .fail e)

/-- A coherent read of any length, line by line (at most `fuel` lines). -/
def readRange (a : Acc2) (hint : Option Nat) : Nat → Nat → Nat → State → State × Got (List Byte)
  | 0, _, _, s => (s, .ok [])
  | fuel + 1, va, n, s =>
    if n = 0 then (s, .ok [])
    else
      let k := min n (128 - va % 128)
      match readAtVa a va k hint s with
      | (s, .ok bs) =>
        (match readRange a hint fuel (va + k) (n - k) s with
         | (s, .ok more) => (s, .ok (bs ++ more))
         | r => r)
      | r => r

/-- An uncached write of any length, line by line. -/
def writeRange (a : Acc2) (hint : Option Nat) : Nat → Nat → List Byte → State → State × Got Unit
  | 0, _, _, s => (s, .ok ())
  | fuel + 1, va, bs, s =>
    if bs.isEmpty then (s, .ok ())
    else
      let k := min bs.length (128 - va % 128)
      match writeAtVa a va (bs.take k) hint s with
      | (s, .ok ()) => writeRange a hint fuel (va + k) (bs.drop k) s
      | r => r

/-- Every page of a range translates for an access. -/
def translateRange (a : Acc2) (wr : Bool) : Nat → Nat → Nat → State → State × Got Unit
  | 0, _, _, s => (s, .ok ())
  | fuel + 1, va, n, s =>
    if n = 0 then (s, .ok ())
    else
      let k := min n (4096 - va % 4096)
      match translate a va wr s with
      | (s, .ok _) => translateRange a wr fuel (va + k) (n - k) s
      | (s, .wait) => (s, .wait)
      | (s, .fail e) => (s, .fail e)

end Sys2Proof.Machine
end

