-- ==== Sys2Proof/Machine/Flags.lean ====
section
/-!
DEFINITION. Number formats (R157 to R163), exact values, rounding, and the sticky flags of the
arithmetic status word (R108).  Every floating-point meaning of the model is built from these.
-/
namespace Sys2Proof.Machine

/-! ## The sticky flags of the arithmetic status word (R108) -/

/-- INVALID, bit 8 of the ASW. -/
def fInvalid : Word := 0x100
/-- DIVZERO, bit 9. -/
def fDivZero : Word := 0x200
/-- OVERFLOW, bit 10. -/
def fOverflow : Word := 0x400
/-- UNDERFLOW, bit 11. -/
def fUnderflow : Word := 0x800
/-- INEXACT, bit 12. -/
def fInexact : Word := 0x1000
/-- FLUSHED, bit 13. -/
def fFlushed : Word := 0x2000
/-- SATURATED, bit 14. -/
def fSaturated : Word := 0x4000

/-- The flag when the condition holds, else no flag. -/
def flagIf (c : Bool) (f : Word) : Word := if c then f else 0

/-! ## Formats -/

/-- How a format spends its top exponent (R159, R160). -/
inductive FmtKind where
  | ieee     -- the top exponent holds infinities and NaNs
  | fn       -- FP8 E4M3: one NaN code, no infinity
  | finite   -- FP6 and FP4: every code is a finite value
  | int      -- two's complement, with a fixed quantum
  deriving DecidableEq, Repr

/-- A format: exponent bits, mantissa bits (for an integer: its width), bias (for an integer: minus its
quantum's exponent), and its kind. -/
structure Fmt where
  eb : Nat
  mb : Nat
  bias : Int
  kind : FmtKind
  deriving DecidableEq, Repr

/-- binary32. -/
def fp32 : Fmt := ⟨8, 23, 127, .ieee⟩
/-- BF16. -/
def bf16 : Fmt := ⟨8, 7, 127, .ieee⟩
/-- binary16. -/
def fp16 : Fmt := ⟨5, 10, 15, .ieee⟩
/-- binary64. -/
def fp64 : Fmt := ⟨11, 52, 1023, .ieee⟩
/-- FP8 E4M3. -/
def fp8e4m3 : Fmt := ⟨4, 3, 7, .fn⟩
/-- FP8 E5M2. -/
def fp8e5m2 : Fmt := ⟨5, 2, 15, .ieee⟩
/-- FP6 E2M3. -/
def fp6e2m3 : Fmt := ⟨2, 3, 1, .finite⟩
/-- FP6 E3M2. -/
def fp6e3m2 : Fmt := ⟨3, 2, 3, .finite⟩
/-- FP4 E2M1. -/
def fp4e2m1 : Fmt := ⟨2, 1, 1, .finite⟩
/-- INT32. -/
def int32f : Fmt := ⟨0, 32, 0, .int⟩

/-- R161: an 8- or 4-bit integer in its unscaled or scaled reading. -/
def intFmt (w : Nat) (scaled : Bool) : Fmt :=
  ⟨0, w, if scaled then (if w = 8 then 6 else 2) else 0, .int⟩

/-- The width of a format in bits (R157). -/
def Fmt.width (f : Fmt) : Nat :=
  match f.kind with
  | .int => f.mb
  | _ => 1 + f.eb + f.mb

/-- R157: the format of a code; integers in the unscaled or scaled reading of R161. -/
def fmtOf (code : Nat) (scaled : Bool) : Option Fmt :=
  if code = 0x00 then some fp32
  else if code = 0x01 then some bf16
  else if code = 0x02 then some fp16
  else if code = 0x03 then some fp64
  else if code = 0x04 then some int32f
  else if code = 0x08 then some fp8e4m3
  else if code = 0x09 then some fp8e5m2
  else if code = 0x0A then some fp6e2m3
  else if code = 0x0B then some fp6e3m2
  else if code = 0x0C then some fp4e2m1
  else if code = 0x10 then some (intFmt 8 scaled)
  else if code = 0x11 then some (intFmt 4 scaled)
  else none

/-- R157: the codes usable as an HSEQ operand or a tensor output. -/
def tensorCode (code : Nat) : Bool :=
  (fmtOf code false).isSome && decide (code ≠ 0x03) && decide (code ≠ 0x04)

/-- R157: the codes of 8 bits or fewer. -/
def narrowCode (code : Nat) : Bool := decide (0x08 ≤ code) && tensorCode code

/-- R157: the codes of SIMT F2F, F2I and I2F. -/
def simtCode (code : Nat) : Bool := decide (code ≤ 0x04)

/-! ## Exact values -/

/-- A value: NaN (signalling or not), infinity, or `± m × 2^e` exactly. -/
inductive FVal where
  | nan (signalling : Bool)
  | inf (neg : Bool)
  | fin (neg : Bool) (m : Nat) (e : Int)
  deriving DecidableEq, Repr

/-- A magnitude to be rounded: it lies in `[m, m+1) × 2^e`, above `m × 2^e` exactly when `more`. -/
structure Mag where
  m : Nat
  e : Int
  more : Bool
  deriving DecidableEq, Repr

/-- The value of a code (R159 to R161). -/
def decodeF (f : Fmt) (x : Nat) : FVal :=
  match f.kind with
  | .int =>
    let v := sext f.mb x
    .fin (decide (v < 0)) v.natAbs (-f.bias)
  | k =>
    let mant := x % 2 ^ f.mb
    let ex := (x >>> f.mb) % 2 ^ f.eb
    let neg := bit x (f.mb + f.eb)
    let top := decide (ex = 2 ^ f.eb - 1)
    if decide (k = .ieee) && top then
      (if mant = 0 then .inf neg else .nan (!bit mant (f.mb - 1)))
    else if decide (k = .fn) && top && decide (mant = 2 ^ f.mb - 1) then .nan false
    else if ex = 0 then .fin neg mant (1 - f.bias - f.mb)
    else .fin neg (2 ^ f.mb + mant) ((ex : Int) - f.bias - f.mb)

/-- Whether a code is subnormal (R159). -/
def isSubnormal (f : Fmt) (x : Nat) : Bool :=
  match f.kind with
  | .int => false
  | _ => decide ((x >>> f.mb) % 2 ^ f.eb = 0) && decide (x % 2 ^ f.mb ≠ 0)

/-- R160: the NaN the device writes. -/
def nanCode (f : Fmt) : Nat :=
  match f.kind with
  | .ieee => (2 ^ f.eb - 1) * 2 ^ f.mb + 2 ^ (f.mb - 1)
  | .fn => 2 ^ (f.eb + f.mb) - 1
  | _ => 0

/-- The sign bit of a code. -/
def signCode (f : Fmt) (neg : Bool) : Nat := if neg then 2 ^ (f.eb + f.mb) else 0

/-- The infinity code of a format that has one. -/
def infCode (f : Fmt) (neg : Bool) : Nat := signCode f neg + (2 ^ f.eb - 1) * 2 ^ f.mb

/-- The magnitude code of the largest finite value (R159). -/
def maxCode (f : Fmt) : Nat :=
  match f.kind with
  | .ieee => (2 ^ f.eb - 1) * 2 ^ f.mb - 1
  | .fn => 2 ^ (f.eb + f.mb) - 2
  | .finite => 2 ^ (f.eb + f.mb) - 1
  | .int => 2 ^ (f.mb - 1) - 1

/-- `m × 2^e` moved to the exponent `q`, rounded down, when `q` is below `e` exactly. -/
def shiftTo (m : Nat) (e q : Int) : Nat :=
  if q ≤ e then m * 2 ^ (e - q).toNat else m / 2 ^ (q - e).toNat

/-- Whether the magnitude is above `m2 × 2^e2`. -/
def magGt (x : Mag) (m2 : Nat) (e2 : Int) : Bool :=
  let q := min x.e e2
  let a := shiftTo x.m x.e q
  let b := shiftTo m2 e2 q
  decide (b < a) || (decide (a = b) && x.more)

/-- Whether the magnitude is not zero. -/
def magPos (x : Mag) : Bool := decide (x.m ≠ 0) || x.more

/-- ⌊log2⌋ of a magnitude that is not below `2^e`. -/
def magLog2 (x : Mag) : Int := (bitLen x.m : Int) - 1 + x.e

/-! ## Rounding -/

/-- The rounding directions of R108, and the stochastic rounding of R182 with its threshold. -/
inductive Rnd where
  | nearestEven
  | towardZero
  | down
  | up
  | stochastic (t : Nat)
  deriving DecidableEq, Repr

/-- R108: the direction that RM names. -/
def rndOfRM (rm : Nat) : Rnd :=
  if rm = 0 then .nearestEven else if rm = 1 then .towardZero else if rm = 2 then .down else .up

/-- A magnitude at the quantum `2^q`: the kept units, whether something was cut off, and whether to go up. -/
structure Kept where
  units : Nat
  inexact : Bool
  goUp : Bool
  deriving DecidableEq, Repr

/-- Cut a magnitude at the quantum `2^q` and decide the direction (R106, R182). -/
def cutAt (r : Rnd) (neg : Bool) (x : Mag) (q : Int) : Kept :=
  if q ≤ x.e then
    { units := shiftTo x.m x.e q, inexact := x.more, goUp := false }
  else
    let k := (q - x.e).toNat
    let units := x.m / 2 ^ k
    let rem := x.m % 2 ^ k
    let half := 2 ^ (k - 1)
    let inexact := decide (rem ≠ 0) || x.more
    let above := decide (half < rem) || (decide (rem = half) && x.more)
    let goUp :=
      match r with
      | .nearestEven => above || (decide (rem = half) && !x.more && decide (units % 2 = 1))
      | .towardZero => false
      | .down => neg && inexact
      | .up => !neg && inexact
      | .stochastic t => decide (t < rem * 2 ^ 24 / 2 ^ k) && inexact
    { units := units, inexact := inexact, goUp := goUp }

/-- The units after rounding. -/
def Kept.rounded (k : Kept) : Nat := k.units + b2n k.goUp

/-- A rounded result: its code and the flags raised. -/
structure Res where
  code : Nat
  flags : Word
  deriving DecidableEq, Repr

/-- The smallest quantum of a format: the weight of its subnormals' last bit. -/
def minQuantum (f : Fmt) : Int := 1 - f.bias - f.mb

/-- The quantum at which a magnitude rounds in a floating-point format. -/
def quantumOf (f : Fmt) (x : Mag) : Int := max (magLog2 x - f.mb) (minQuantum f)

/-- The magnitude code of `u` units at quantum `2^q`, where `u ≤ 2^(mb+1)`: a carry moves up one binade. -/
def packMag (f : Fmt) (u : Nat) (q : Int) : Nat :=
  ((q - minQuantum f).toNat) * 2 ^ f.mb + u

/-- R175: flush a subnormal code to a zero of its sign when the governing SUBN bit is clear. -/
def flushCode (f : Fmt) (keep : Bool) (x : Nat) : Nat × Word :=
  if !keep && isSubnormal f x then (x - x % 2 ^ f.mb, fFlushed) else (x, 0)

/-- Round a magnitude in an IEEE format (R106): one rounding, overflow by direction, subnormals kept
or flushed after rounding (R176), with the flags of R108. -/
def roundIeee (f : Fmt) (r : Rnd) (keep neg : Bool) (x : Mag) : Res :=
  if magPos x = false then { code := signCode f neg, flags := 0 }
  else
    let q := quantumOf f x
    let k := cutAt r neg x q
    let c := packMag f k.rounded q
    if maxCode f < c then
      let toInf :=
        match r with
        | .nearestEven => true
        | .towardZero => false
        | .down => neg
        | .up => !neg
        | .stochastic _ => false
      { code := if toInf then infCode f neg else signCode f neg + maxCode f
        flags := fOverflow ||| fInexact }
    else
      let tinyAfter := decide (c < 2 ^ f.mb)
      let tinyBefore := decide (magLog2 x < 1 - f.bias)
      let tiny := tinyAfter || (tinyBefore && Config.tinyBeforeRounding)
      let fl := flagIf k.inexact fInexact ||| flagIf (k.inexact && tiny) fUnderflow
      let out := flushCode f keep c
      { code := signCode f neg + out.1, flags := fl ||| out.2 }

/-- R177: convert an exact value to a tensor format, saturating on the exact value before rounding. -/
def toTensor (f : Fmt) (r : Rnd) (keep : Bool) (v : FVal) (more : Bool) : Res :=
  match v with
  | .nan _ => { code := nanCode f, flags := fInvalid }
  | .inf neg =>
    match f.kind with
    | .ieee => { code := infCode f neg, flags := 0 }
    | .int => { code := if neg then 2 ^ (f.mb - 1) else maxCode f, flags := fSaturated }
    | _ => { code := signCode f neg + maxCode f, flags := fSaturated }
  | .fin neg m e =>
    let x : Mag := ⟨m, e, more⟩
    match f.kind with
    | .int =>
      let top := if neg then 2 ^ (f.mb - 1) else maxCode f
      if magGt x top (-f.bias) then
        { code := if neg then 2 ^ (f.mb - 1) else maxCode f, flags := fSaturated }
      else
        let u := (cutAt r neg x (-f.bias)).rounded
        { code := if neg then (2 ^ f.mb - u) % 2 ^ f.mb else u, flags := 0 }
    | _ =>
      match decodeF f (maxCode f) with
      | .fin _ mm me =>
        if magGt x mm me then { code := signCode f neg + maxCode f, flags := fSaturated }
        else if magPos x = false then { code := signCode f neg, flags := 0 }
        else
          let q := quantumOf f x
          let c := packMag f (cutAt r neg x q).rounded q
          let out := flushCode f keep c
          { code := signCode f neg + out.1, flags := out.2 }
      | _ => { code := 0, flags := 0 }

/-! ## Exact arithmetic -/

/-- A signed mantissa. -/
def signed (neg : Bool) (m : Nat) : Int := if neg then -(m : Int) else m

/-- The exact sum of two finite values; a zero sum of unlike signs is +0, or −0 when rounding down (R106). -/
def addFin (r : Rnd) (n1 : Bool) (m1 : Nat) (e1 : Int) (n2 : Bool) (m2 : Nat) (e2 : Int) : FVal :=
  let q := min e1 e2
  let s := signed n1 (shiftTo m1 e1 q) + signed n2 (shiftTo m2 e2 q)
  if s = 0 then .fin (if n1 = n2 then n1 else decide (r = .down)) 0 q
  else .fin (decide (s < 0)) s.natAbs q

/-- Negate a value. -/
def negF : FVal → FVal
  | .nan s => .nan s
  | .inf n => .inf (!n)
  | .fin n m e => .fin (!n) m e

/-- The sum of two values and whether it is an invalid operation. -/
def addF (r : Rnd) : FVal → FVal → FVal × Bool
  | .nan s, .nan t => (.nan false, s || t)
  | .nan s, _ => (.nan false, s)
  | _, .nan t => (.nan false, t)
  | .inf a, .inf b => if a = b then (.inf a, false) else (.nan false, true)
  | .inf a, .fin _ _ _ => (.inf a, false)
  | .fin _ _ _, .inf b => (.inf b, false)
  | .fin n1 m1 e1, .fin n2 m2 e2 => (addFin r n1 m1 e1 n2 m2 e2, false)

/-- The product of two values and whether it is an invalid operation. -/
def mulF : FVal → FVal → FVal × Bool
  | .nan s, .nan t => (.nan false, s || t)
  | .nan s, _ => (.nan false, s)
  | _, .nan t => (.nan false, t)
  | .inf a, .inf b => (.inf (a != b), false)
  | .inf a, .fin b m _ => if m = 0 then (.nan false, true) else (.inf (a != b), false)
  | .fin a m _, .inf b => if m = 0 then (.nan false, true) else (.inf (a != b), false)
  | .fin a m1 e1, .fin b m2 e2 => (.fin (a != b) (m1 * m2) (e1 + e2), false)

/-- Whether a value is a zero. -/
def isZeroF : FVal → Bool
  | .fin _ 0 _ => true
  | _ => false

/-- Whether a value is an infinity. -/
def isInfF : FVal → Bool
  | .inf _ => true
  | _ => false

/-- Whether a value is a NaN. -/
def isNanF : FVal → Bool
  | .nan _ => true
  | _ => false

/-- Whether a value is a signalling NaN. -/
def isSnanF : FVal → Bool
  | .nan s => s
  | _ => false

/-- The sign of a value. -/
def isNegF : FVal → Bool
  | .nan _ => false
  | .inf n => n
  | .fin n _ _ => n

/-- Round a value in an IEEE format, in the SIMT manner: NaN is canonical (R106). -/
def roundF (f : Fmt) (r : Rnd) (keep : Bool) (v : FVal) : Res :=
  match v with
  | .nan _ => { code := nanCode f, flags := 0 }
  | .inf n => { code := infCode f n, flags := 0 }
  | .fin n m e => roundIeee f r keep n ⟨m, e, false⟩

/-- An operand as SIMT arithmetic reads it: flushed when SUBN is clear (R108, R175). -/
def readF (f : Fmt) (keep neg : Bool) (x : Nat) : FVal × Word :=
  let c := flushCode f keep (x % 2 ^ f.width)
  let v := decodeF f c.1
  (if neg then negF v else v, c.2)

/-- R105: addition. -/
def fAdd (f : Fmt) (r : Rnd) (keep na nb : Bool) (a b : Nat) : Res :=
  let x := readF f keep na a
  let y := readF f keep nb b
  let s := addF r x.1 y.1
  let z := roundF f r keep s.1
  { code := z.code, flags := x.2 ||| y.2 ||| flagIf s.2 fInvalid ||| z.flags }

/-- R105: multiplication. -/
def fMul (f : Fmt) (r : Rnd) (keep na nb : Bool) (a b : Nat) : Res :=
  let x := readF f keep na a
  let y := readF f keep nb b
  let s := mulF x.1 y.1
  let z := roundF f r keep s.1
  { code := z.code, flags := x.2 ||| y.2 ||| flagIf s.2 fInvalid ||| z.flags }

/-- R105: fused multiply-add, A × B + C rounded once. -/
def fFma (f : Fmt) (r : Rnd) (keep na nb nc : Bool) (a b c : Nat) : Res :=
  let x := readF f keep na a
  let y := readF f keep nb b
  let w := readF f keep nc c
  let p := mulF x.1 y.1
  let s := addF r p.1 w.1
  let zeroInf := p.2 && !isNanF x.1 && !isNanF y.1
  let qnanAddend := isNanF w.1 && !isSnanF w.1
  let inv := if zeroInf && qnanAddend then Config.fmaZeroInfNanInvalid else (p.2 || s.2)
  let z := roundF f r keep s.1
  { code := z.code, flags := x.2 ||| y.2 ||| w.2 ||| flagIf inv fInvalid ||| z.flags }

/-- Whether value `a` is less than `b`, neither a NaN; zeros of either sign are equal. -/
def ltF : FVal → FVal → Bool
  | .nan _, _ => false
  | _, .nan _ => false
  | .inf a, .inf b => a && !b
  | .inf a, .fin _ _ _ => a
  | .fin _ _ _, .inf b => !b
  | .fin n1 m1 e1, .fin n2 m2 e2 =>
    let q := min e1 e2
    decide (signed n1 (shiftTo m1 e1 q) < signed n2 (shiftTo m2 e2 q))

/-- Whether two values are equal, neither a NaN. -/
def eqF (a b : FVal) : Bool := !isNanF a && !isNanF b && !ltF a b && !ltF b a

/-- R106: minimumNumber (`max` false) or maximumNumber (`max` true); −0 counts as less than +0. -/
def fMinMax (f : Fmt) (keep isMax na nb : Bool) (a b : Nat) : Res :=
  let x := readF f keep na a
  let y := readF f keep nb b
  let less := ltF x.1 y.1 || (eqF x.1 y.1 && isNegF x.1 && !isNegF y.1)
  let pick : FVal :=
    if isNanF x.1 && isNanF y.1 then .nan false
    else if isNanF x.1 then y.1
    else if isNanF y.1 then x.1
    else if less != isMax then x.1 else y.1
  let z := roundF f .nearestEven keep pick
  { code := z.code, flags := x.2 ||| y.2 ||| flagIf (isSnanF x.1 || isSnanF y.1) fInvalid ||| z.flags }

/-- The quotient `m1 × 2^e1 / (m2 × 2^e2)` to at least 160 bits beyond the operands, with its remainder noted. -/
def divMag (m1 : Nat) (e1 : Int) (m2 : Nat) (e2 : Int) : Mag :=
  let k := 160 + bitLen m2
  let n := m1 * 2 ^ k
  ⟨n / m2, e1 - e2 - k, decide (n % m2 ≠ 0)⟩

/-- R105: FRCP, the correctly rounded reciprocal. -/
def fRcp (f : Fmt) (r : Rnd) (keep na : Bool) (a : Nat) : Res :=
  let x := readF f keep na a
  match x.1 with
  | .nan s => { code := nanCode f, flags := x.2 ||| flagIf s fInvalid }
  | .inf n => { code := signCode f n, flags := x.2 }
  | .fin n m e =>
    if m = 0 then { code := infCode f n, flags := x.2 ||| fDivZero }
    else
      let z := roundIeee f r keep n (divMag 1 0 m e)
      { code := z.code, flags := x.2 ||| z.flags }

/-- R105: FSQRT, the correctly rounded square root. -/
def fSqrt (f : Fmt) (r : Rnd) (keep na : Bool) (a : Nat) : Res :=
  let x := readF f keep na a
  match x.1 with
  | .nan s => { code := nanCode f, flags := x.2 ||| flagIf s fInvalid }
  | .inf n => if n then { code := nanCode f, flags := x.2 ||| fInvalid } else { code := infCode f n, flags := x.2 }
  | .fin n m e =>
    if m = 0 then { code := signCode f n, flags := x.2 }
    else if n then { code := nanCode f, flags := x.2 ||| fInvalid }
    else
      let h := (e - 128) / 2
      let y := shiftTo m e (2 * h)
      let s := isqrtFrom (bitLen y / 2 + 1) y 0
      let z := roundIeee f r keep false ⟨s, h, decide (s * s ≠ y)⟩
      { code := z.code, flags := x.2 ||| z.flags }

/-- R105, R106: the relation `rel` of FCMP: 0 EQ, 1 NE, 2 LT, 3 LE, 4 GT, 5 GE, 6 unordered, 7 ordered. -/
def relF (rel : Nat) (a b : FVal) : Bool :=
  let un := isNanF a || isNanF b
  if rel = 0 then eqF a b
  else if rel = 1 then !eqF a b
  else if rel = 2 then ltF a b
  else if rel = 3 then ltF a b || eqF a b
  else if rel = 4 then ltF b a
  else if rel = 5 then ltF b a || eqF a b
  else if rel = 6 then un
  else !un

/-- R178: F2F between IEEE formats, rounded in RM mode. (DEDUCED, log entry 15.) -/
def f2f (src dst : Fmt) (r : Rnd) (keep : Bool) (a : Nat) : Res :=
  let x := readF src keep false a
  let z := roundF dst r keep x.1
  { code := z.code, flags := x.2 ||| flagIf (isSnanF x.1) fInvalid ||| z.flags }

/-- R178: F2I to INT32 in RM mode; beyond the range, or infinite: the nearest limit, INVALID; NaN: 0, INVALID. -/
def f2i (src : Fmt) (r : Rnd) (keep : Bool) (a : Nat) : Res :=
  let x := readF src keep false a
  match x.1 with
  | .nan _ => { code := 0, flags := x.2 ||| fInvalid }
  | .inf n => { code := if n then 0x80000000 else 0x7FFFFFFF, flags := x.2 ||| fInvalid }
  | .fin n m e =>
    let k := cutAt r n ⟨m, e, false⟩ 0
    let u := k.rounded
    if (if n then 0x80000000 else 0x7FFFFFFF) < u then
      { code := if n then 0x80000000 else 0x7FFFFFFF, flags := x.2 ||| fInvalid }
    else { code := if n then (2 ^ 32 - u) % 2 ^ 32 else u, flags := x.2 ||| flagIf k.inexact fInexact }

/-- R178: I2F from INT32 in RM mode. -/
def i2f (dst : Fmt) (r : Rnd) (keep : Bool) (a : Nat) : Res :=
  let v := sext 32 a
  roundIeee dst r keep (decide (v < 0)) ⟨v.natAbs, 0, false⟩

/-! ## Scales and stochastic rounding -/

/-- R163: the value of a scale byte, E8M0 (`fmt` 1) or positive E4M3 (`fmt` 2). -/
def scaleVal (fmt e : Nat) : FVal :=
  if fmt = 1 then (if e = 0xFF then .nan false else .fin false 1 ((e : Int) - 127))
  else if 0x7F ≤ e then .nan false
  else decodeF fp8e4m3 e

/-- R182: the 24-bit threshold of SEED and element index `i`. -/
def stochThreshold (seed i : Nat) : Nat :=
  let w := 2 ^ 64
  let z0 := (seed + (i + 1) * 0x9E3779B97F4A7C15) % w
  let z1 := ((z0 ^^^ (z0 >>> 30)) * 0xBF58476D1CE4E5B9) % w
  let z2 := ((z1 ^^^ (z1 >>> 27)) * 0x94D049BB133111EB) % w
  let z3 := z2 ^^^ (z2 >>> 31)
  bits z3 63 40

/-- The exact quotient of a value and a scale: value, and whether it is cut from something larger. -/
def divF : FVal → FVal → FVal × Bool
  | .nan s, _ => (.nan s, false)
  | _, .nan s => (.nan s, false)
  | .inf _, .inf _ => (.nan false, false)
  | .inf n, .fin k _ _ => (.inf (n != k), false)
  | .fin n _ _, .inf k => (.fin (n != k) 0 0, false)
  | .fin n m e, .fin k m2 e2 =>
    if m2 = 0 then (if m = 0 then (.nan false, false) else (.inf (n != k), false))
    else let q := divMag m e m2 e2
         (.fin (n != k) q.m q.e, q.more)

end Sys2Proof.Machine
end

