-- ==== Sys2Proof/Machine/Operands.lean ====
section
/-!
DEFINITION. Core instruction fields, operand forms and their encoding rules (R97 to R103, R596), the guard, register
reads and writes, the reconvergence stack, and the shared shape of a register instruction.
-/
namespace Sys2Proof.Machine

/-! ## Fields of the word (R99) -/

/-- D, bits [44:37]. -/
def fldD (b : InstrBits) : Nat := bits b.low.toNat 44 37
/-- A, bits [36:29]. -/
def fldA (b : InstrBits) : Nat := bits b.low.toNat 36 29
/-- B, bits [28:21]. -/
def fldB (b : InstrBits) : Nat := bits b.low.toNat 28 21
/-- C, bits [20:13]. -/
def fldC (b : InstrBits) : Nat := bits b.low.toNat 20 13
/-- MOD, bits [12:0]. -/
def fldMod (b : InstrBits) : Nat := bits b.low.toNat 12 0
/-- Format I: the signed 24-bit immediate in bits [28:5], as written. -/
def fldImm (b : InstrBits) : Nat := bits b.low.toNat 28 5
/-- Format I: MOD[4:0]. -/
def fldMod5 (b : InstrBits) : Nat := bits b.low.toNat 4 0
/-- Format L: IMM[31:0]. -/
def fldLong (b : InstrBits) : Nat := bits b.low.toNat 31 0
/-- Format M: OFF, signed 16 bits in [28:13]. -/
def fldOff (b : InstrBits) : Int := sext 16 (bits b.low.toNat 28 13)
/-- Format B: TARGET, a signed 24-bit instruction offset in [44:21]. -/
def fldTarget (b : InstrBits) : Int := sext 24 (bits b.low.toNat 44 21)
/-- Format B: RECONV, a signed 21-bit instruction offset in [20:0]. -/
def fldReconv (b : InstrBits) : Int := sext 21 (bits b.low.toNat 20 0)

/-! ## Operand forms (R102, R103) -/

/-- How an operation uses an operand field. -/
inductive Form where
  | unused                     -- reserved, with its kind bit (R100)
  | reg                        -- one register, vector or uniform
  | pair                       -- an even register and the next
  | pred                       -- a predicate in bits [2:0]
  | ureg                       -- one uniform register
  | upair                      -- an even uniform register and the next
  | run (n : Nat)              -- `n` consecutive registers, unaligned (R597)
  | group (n : Nat)            -- `n` consecutive registers aligned to `n` (R110)
  | number                     -- a number, not a register (R107)
  deriving DecidableEq, Repr

/-- Whether a field and its kind bit are legal in a form. -/
def Form.ok (f : Form) (u : Bool) (x : Nat) : Bool :=
  match f with
  | .unused => !u && decide (x = 0)
  | .reg => !u || decide (x < 64)
  | .pair => decide (x % 2 = 0) && (!u || decide (x < 64))
  | .pred => !u && decide (x < 8)
  | .ureg => u && decide (x < 64)
  | .upair => u && decide (x < 64) && decide (x % 2 = 0)
  | .run n => !u || decide (x + n ≤ 64)
  | .group n => decide (x % n = 0) && (!u || decide (x + n ≤ 64))
  | .number => !u

/-- One past the highest vector register a field names; 0 where it names none. -/
def Form.top (f : Form) (u : Bool) (x : Nat) : Nat :=
  if u then 0
  else match f with
    | .reg => x + 1
    | .pair => x + 2
    | .run n => x + n
    | .group n => x + n
    | _ => 0

/-- Whether a form is a register source. -/
def Form.isSrc : Form → Bool
  | .unused | .pred | .number => false
  | _ => true

/-- How an operation of format R uses its fields: the four operands, the MOD bits it names, and the MOD[4:0] bits it
names in format I where it has that format (R596). -/
structure Sig where
  d : Form
  a : Form
  b : Form
  c : Form
  mod : Nat
  imm : Option Nat
  deriving DecidableEq, Repr

/-- R100: GNEG and GP are reserved when GEN is 0. -/
def guardOk (b : InstrBits) : Bool := b.gen || (!b.gneg && decide (b.gp = 0))

/-- R101, R102: a uniform destination has only uniform sources and no guard. -/
def uniformOk (sg : Sig) (b : InstrBits) : Bool :=
  !(sg.d.isSrc && b.du) ||
    (!b.gen && (!sg.a.isSrc || b.au) && (b.op5 || !sg.b.isSrc || b.bu) && (b.op5 || !sg.c.isSrc || b.cu))

/-- R97 to R103, R596: whether the word's free bits are legal for an operation. (DEDUCED, log entry 12.) -/
def sigOk (sg : Sig) (b : InstrBits) : Bool :=
  guardOk b && uniformOk sg b && sg.d.ok b.du (fldD b) && sg.a.ok b.au (fldA b) &&
    (if b.op5 then
      match sg.imm with
      | none => false
      | some m => !b.bu && !b.cu && decide (fldMod5 b ||| m = m)
    else
      sg.b.ok b.bu (fldB b) && sg.c.ok b.cu (fldC b) && decide (fldMod b ||| sg.mod = sg.mod))

/-- The MOD of either format. -/
def modOf (b : InstrBits) : Nat := if b.op5 then fldMod5 b else fldMod b

/-- R73: one past the highest vector register the instruction names. -/
def sigTop (sg : Sig) (b : InstrBits) : Nat :=
  max (max (sg.d.top b.du (fldD b)) (sg.a.top b.au (fldA b)))
    (if b.op5 then 0 else max (sg.b.top b.bu (fldB b)) (sg.c.top b.cu (fldC b)))

/-! ## Registers -/

/-- Lane `l` of vector register `r`. -/
def vreg (c : Course) (r l : Nat) : Word := nth 0 (tget [] c.v r) l
/-- Uniform register `r`. -/
def ureg (c : Course) (r : Nat) : Word := tget 0 c.u r
/-- Predicate register `r`, one bit per lane. -/
def preg (c : Course) (r : Nat) : Word := tget 0 c.p r

/-- A 32-bit operand in a lane. -/
def opd (c : Course) (u : Bool) (r l : Nat) : Nat := if u then (ureg c r).toNat else (vreg c r l).toNat
/-- A 64-bit operand in a lane: the low word in the even register. -/
def opd64 (c : Course) (u : Bool) (r l : Nat) : Nat := opd c u r l + 2 ^ 32 * opd c u (r + 1) l

/-- A list of lanes with nothing listed when every lane holds 0. -/
def normLanes (ws : List Word) : List Word := if ws.all (fun w => decide (w = 0)) then [] else ws

/-- Write vector register `r` in the lanes of a mask. -/
def setV (c : Course) (r : Nat) (mask : Word) (f : Nat → Word) : Course :=
  { c with v := tset [] c.v r (normLanes ((List.range 32).map (fun l => if mask.getLsbD l then f l else vreg c r l))) }
/-- Write a uniform register. -/
def setU (c : Course) (r : Nat) (w : Word) : Course := { c with u := tset 0 c.u r w }
/-- Write a predicate register in the lanes of a mask. -/
def setP (c : Course) (r : Nat) (mask : Word) (x : Word) : Course :=
  { c with p := tset 0 c.p r ((preg c r &&& ~~~mask) ||| (x &&& mask)) }

/-- A mask of lanes from a test. -/
def maskOf (f : Nat → Bool) : Word := BitVec.ofNat 32 ((List.range 32).foldl (fun a l => a + (if f l then 2 ^ l else 0)) 0)

/-- R101: the guard's value in each lane; all lanes when GEN is 0. -/
def guardMask (c : Course) (b : InstrBits) : Word :=
  if b.gen then (if b.gneg then ~~~(preg c b.gp.toNat) else preg c b.gp.toNat) else 0xFFFFFFFF
/-- The lanes an instruction acts on (R67, R101). -/
def lanesOf (c : Course) (b : InstrBits) : Word := c.active &&& guardMask c b
/-- The lanes of a mask, ascending. -/
def laneList (m : Word) : List Nat := (List.range 32).filter (fun l => m.getLsbD l)

/-- R108, R109: raise sticky flags. -/
def raiseFlags (c : Course) (fl : Word) : Course := { c with asw := c.asw ||| fl }
/-- SUBN of the ASW. -/
def aswSubn (c : Course) : Bool := c.asw.getLsbD 2
/-- The rounding direction of the ASW. -/
def aswRnd (c : Course) : Rnd := rndOfRM (c.asw.toNat % 4)

/-- Write the `words` registers from D on: in each lane of the mask the words of that lane's result, or once when D
is uniform; the flags of the lanes that ran are raised (R67, R102, R109). -/
def writeD (c : Course) (b : InstrBits) (words : Nat) (f : Nat → Res) : Course :=
  let d := fldD b
  if b.du then
    let r := f 0
    raiseFlags ((List.range words).foldl (fun c k => setU c (d + k) (BitVec.ofNat 32 (r.code >>> (32 * k)))) c) r.flags
  else
    let m := lanesOf c b
    let rs := (List.range 32).map (fun l => if m.getLsbD l then f l else ⟨0, 0⟩)
    let c' := (List.range words).foldl (fun c k =>
      setV c (d + k) m (fun l => BitVec.ofNat 32 ((nth ⟨0, 0⟩ rs l).code >>> (32 * k)))) c
    raiseFlags c' (rs.foldl (fun a r => a ||| r.flags) 0)

/-! ## The program counter and reconvergence (R80) -/

/-- An instruction address, modulo 2^64. -/
def pcAdd (pc : Nat) (n : Int) : Nat := narrow 64 ((pc : Int) + 8 * n)

/-- R80: lanes that have reached the reconvergence point wait there; when no lane of the path runs, the next path
runs, and after the last the entry is popped with the restored mask less exited lanes. -/
def settle : Nat → Course → Course
  | 0, c => c
  | fuel + 1, c =>
    match c.stack with
    | [] => c
    | e :: rest =>
      if c.active = 0 ∨ c.pc = e.reconv then
        match e.paths with
        | (a, m) :: more => settle fuel { c with pc := a, active := m &&& ~~~c.exited, stack := { e with paths := more } :: rest }
        | [] => settle fuel { c with pc := e.reconv, active := e.mask &&& ~~~c.exited, stack := rest }
      else c

/-- Enough turns for 32 entries of at most 32 paths each. -/
def settleFuel : Nat := 1100

/-- The course at the next instruction. -/
def advance (c : Course) : Course := settle settleFuel { c with pc := pcAdd c.pc 1 }

/-! ## The shape of an instruction -/

/-- R92, R93: whether a consort stands still: one of its courses waits for a page, so that it is to be switched out, or waits in
place where its core's save area has no room. -/
def stalled (s : State) (g k : Nat) : Bool := (consortOf s g k).courses.any (fun i => (courseOf s g i).faultVa.isSome)

/-- Whether a course can issue its next instruction: resident, running, not waiting at a barrier, on a fault, in a
pour's token wait or commit, or in a long instruction (R78, R123), and its casting goes on. -/
def courseReady (s : State) (g slot : Nat) : Bool :=
  let c := courseOf s g slot
  let k := consortOf s g c.consort
  let x := castingOf s k.casting
  c.live && k.live && !c.arrived && !c.halted && c.faultVa.isNone && !stalled s g c.consort && c.long.isNone && k.saving.isNone &&
    (decide (c.pour = .closed) || decide (c.pour = .open)) && x.live && x.ending.isNone && decide (c.active ≠ 0)

/-- R150: whether an HDRAIN or HZERO that a course issued still runs on its core: certain instructions wait for it. -/
def harpPending (s : State) (g slot : Nat) : Bool :=
  let mine := fun (t : TileState) => match t with
    | .draining k _ => decide (k = slot)
    | .zeroing k => decide (k = slot)
    | _ => false
  mine (coreOf s g).harp.s0 || mine (coreOf s g).harp.s1

/-- ILLEGAL_INSTRUCTION of a course (R100). -/
def illegalEnd (s : State) (g slot : Nat) : Ending := protEnd 0x17 g (courseOf s g slot).pc
/-- REG_RANGE (R73). -/
def regRangeEnd (g : Nat) : Ending := protEnd 0x13 g 0

/-- An instruction of a course: nothing happens while the course cannot issue; an illegal word or a register out of
range ends the casting; else its effect. -/
def issue (g slot : Nat) (legal : Bool) (top : Nat) (s : State) (k : Course → State) : State :=
  if !courseReady s g slot then s
  else if !legal then failCourse g slot (illegalEnd s g slot) s
  else if (consortOf s g (courseOf s g slot).consort).ra < top then failCourse g slot (regRangeEnd g) s
  else k (courseOf s g slot)

/-- The instruction has been performed: the course goes on with `c`, at its next instruction. -/
def retire (g slot : Nat) (c : Course) (s : State) : State := countCore g 0x02 1 (setCourse s g slot (advance c))

/-- A register instruction: `words` result registers, computed in each lane. -/
def aluOp (sg : Sig) (extra : InstrBits → Bool) (words : Nat) (f : Course → Nat → Res) (g slot : Nat) (b : InstrBits)
    (s : State) : State :=
  issue g slot (sigOk sg b && extra b) (sigTop sg b) s (fun c => retire g slot (writeD c b words (f c)) s)

/-- No further encoding rule. -/
def always (_ : InstrBits) : Bool := true

/-- An integer immediate, sign-extended to `w` bits (R99). -/
def immInt (b : InstrBits) (w : Nat) : Nat := narrow w (sext 24 (fldImm b))
/-- A floating-point immediate: FP32 bits [31:8] (R99). -/
def immFp (b : InstrBits) : Nat := fldImm b * 256

end Sys2Proof.Machine
end

