-- ==== Sys2Proof/Machine/Fetch.lean ====
section
/-!
DEFINITION. The instruction word, and fetching it into a core's instruction cache (R78, R97, R98, R100, R104).
-/
namespace Sys2Proof.Machine

/-! ## The word (R97, R98) -/

/-- R97: the word of an instruction of a class and OP[4:0] with the given free bits. -/
def wordOf (cls op : Nat) (b : InstrBits) : Nat :=
  cls * 2 ^ 60 + (op + 32 * b2n b.op5) * 2 ^ 54 + b2n b.du * 2 ^ 53 + b2n b.au * 2 ^ 52 + b2n b.bu * 2 ^ 51 + b2n b.cu * 2 ^ 50 +
    b2n b.gen * 2 ^ 49 + b2n b.gneg * 2 ^ 48 + b.gp.toNat * 2 ^ 45 + b.low.toNat

/-- R98, R105, R110, R115 to R120, R130: whether a class has the operation OP[4:0]. -/
def opKnown (cls op : Nat) : Bool :=
  match cls with
  | 0 => decide (op ≤ 14)
  | 1 => decide (op ≤ 6)
  | 2 => decide (op ≤ 4)
  | 3 => decide (op ≤ 4)
  | 4 => decide (op ≤ 3)
  | 5 => decide (op ≤ 5)
  | 6 => decide (op ≤ 3)
  | 7 => decide (op ≤ 3)
  | 8 => decide (op ≤ 2)
  | 9 => decide (op ≤ 3) || decide (8 ≤ op ∧ op ≤ 10) || decide (op = 16 ∨ op = 17)
  | 10 => decide (op ≤ 1)
  | 11 => decide (op ≤ 2)
  | _ => false

/-- R100: whether a word has a reserved CLASS or a reserved OP. -/
def wordReserved (w : Nat) : Bool := !opKnown (bits w 63 60) (bits w 58 54)

/-! ## The instruction cache (R78, R104) -/

/-- The address at which a course fetches: an instruction stands at a multiple of 8. (DESIGN CHOICE, log entry 38.) -/
def fetchAt (s : State) (g slot : Nat) : Nat := (courseOf s g slot).pc / 8 * 8

/-- The words that the instruction cache of core `g` may deliver to a course. -/
def fetchedWords (s : State) (g slot : Nat) : List Nat := tget [] (coreOf s g).icache (fetchAt s g slot)

/-- Whether a course can issue the word `w`: its instruction cache holds it at the course's pc. -/
def fetched (s : State) (g slot w : Nat) : Bool := (fetchedWords s g slot).contains w

/-- A word that is read joins those that the cache may deliver. -/
def addWord (t : Tbl (List Nat)) (a w : Nat) : Tbl (List Nat) := if (tget [] t a).contains w then t else tset [] t a (tget [] t a ++ [w])

/-- The 16 instructions of the line at `base` enter the instruction cache of core `g`.  A word read earlier in the casting may
still be delivered (R104). (DESIGN CHOICE, log entry 38.) -/
def fillInstr (g base : Nat) (bs : List Byte) (s : State) : State :=
  setCore s g { coreOf s g with icache := (List.range 16).foldl (fun t i => addWord t (base + 8 * i) (fieldOf bs (8 * i) 8)) (coreOf s g).icache }

/-- An access fails: inside a pour an abort reason aborts the pour (R319); anything else ends the casting. -/
def failAccess (g slot : Nat) (e : Ending) (s : State) : State :=
  if e.code = 0x50 then endWaits (.course g slot) (abortPour g slot e.sub s) else failCourse g slot e s

/-- R319, R343: an access of an open pour that must wait for a page aborts the pour with FAULT; the page's request stands. -/
def pourFault (g slot : Nat) (s : State) : State :=
  let c := courseOf s g slot
  if c.pour = .open ∧ c.faultVa.isSome then abortPour g slot 5 (setCourse s g slot { c with faultVa := none, faultWr := false }) else s

/-- A course reads the line of its next instruction into the instruction cache. -/
def fetch (g slot : Nat) (s : State) : State :=
  let base := fetchAt s g slot / 128 * 128
  match readAtVa (courseAccess s g slot) base 128 none s with
  | (s, .wait) => pourFault g slot s
  | (s, .fail e) => failAccess g slot e s
  | (s, .ok bs) => fillInstr g base bs (endWaits (.course g slot) s)

/-- A course issues an instruction whose word is `w`: where its instruction cache holds the word, the instruction is performed;
where the word there is reserved, the casting ends (R100); else the word is read from memory first (R78, R104). -/
def whenFetched (w g slot : Nat) (s : State) (o : Out) : Out :=
  if !s.powered || !courseReady s g slot then .next s
  else if fetched s g slot w then o
  else if (fetchedWords s g slot).any wordReserved then .next (failCourse g slot (illegalEnd s g slot) s)
  else .next (fetch g slot s)

end Sys2Proof.Machine
end

