-- ==== Sys2Proof/Machine/Alu.lean ====
section
/-!
DEFINITION. The INT class (R105, R596).
-/
namespace Sys2Proof.Machine

/-- D, A and B, with MOD[0] where `m` is 1. -/
def sigInt (m : Nat) : Sig := ⟨.reg, .reg, .reg, .unused, m, some m⟩

/-- An integer operation on A and B in a lane; B may be the immediate. -/
def intOp (m : Nat) (f : Nat → Nat → Nat → Nat) (g slot : Nat) (b : InstrBits) (s : State) : State :=
  aluOp (sigInt m) always 1 (fun c l =>
    ⟨f (modOf b % 2) (opd c b.au (fldA b) l) (if b.op5 then immInt b 32 else opd c b.bu (fldB b) l) % 2 ^ 32, 0⟩) g slot b s

/-- IADD: A + B modulo 2^32. -/
def iaddVal (_ a b : Nat) : Nat := a + b
/-- ISUB: A − B modulo 2^32. -/
def isubVal (_ a b : Nat) : Nat := a + (2 ^ 32 - b % 2 ^ 32)
/-- IMUL: the low word of the product. -/
def imulVal (_ a b : Nat) : Nat := a * b
/-- IMULHI: the high word, signed if MOD[0] is 1. -/
def imulhiVal (m a b : Nat) : Nat :=
  if m = 1 then narrow 64 (sext 32 a * sext 32 b) / 2 ^ 32 else a * b / 2 ^ 32
/-- AND. -/
def andVal (_ a b : Nat) : Nat := a &&& b
/-- OR. -/
def orVal (_ a b : Nat) : Nat := a ||| b
/-- XOR. -/
def xorVal (_ a b : Nat) : Nat := a ^^^ b
/-- SHL by B[4:0]. -/
def shlVal (_ a b : Nat) : Nat := a <<< (b % 32)
/-- SHR by B[4:0], arithmetic if MOD[0] is 1. -/
def shrVal (m a b : Nat) : Nat :=
  if m = 1 then narrow 32 (sext 32 a / (2 ^ (b % 32) : Nat)) else a >>> (b % 32)
/-- IMIN, signed if MOD[0] is 1. -/
def iminVal (m a b : Nat) : Nat :=
  if m = 1 then (if sext 32 a ≤ sext 32 b then a else b) else min a b
/-- IMAX, signed if MOD[0] is 1. -/
def imaxVal (m a b : Nat) : Nat :=
  if m = 1 then (if sext 32 a ≤ sext 32 b then b else a) else max a b

/-- IADD (R105). -/
def execIadd (g slot : Nat) (b : InstrBits) (s : State) : Out := whenFetched (wordOf 0 0 b) g slot s <| .next (intOp 0 iaddVal g slot b s)
/-- ISUB (R105). -/
def execIsub (g slot : Nat) (b : InstrBits) (s : State) : Out := whenFetched (wordOf 0 1 b) g slot s <| .next (intOp 0 isubVal g slot b s)
/-- IMUL (R105). -/
def execImul (g slot : Nat) (b : InstrBits) (s : State) : Out := whenFetched (wordOf 0 2 b) g slot s <| .next (intOp 0 imulVal g slot b s)
/-- IMULHI (R105). -/
def execImulhi (g slot : Nat) (b : InstrBits) (s : State) : Out := whenFetched (wordOf 0 3 b) g slot s <| .next (intOp 1 imulhiVal g slot b s)
/-- IMAD (R105): A × B + C; no format I (R596). -/
def execImad (g slot : Nat) (b : InstrBits) (s : State) : Out := whenFetched (wordOf 0 4 b) g slot s <|
  .next (aluOp ⟨.reg, .reg, .reg, .reg, 0, none⟩ always 1 (fun c l =>
    ⟨(opd c b.au (fldA b) l * opd c b.bu (fldB b) l + opd c b.cu (fldC b) l) % 2 ^ 32, 0⟩) g slot b s)
/-- AND (R105). -/
def execAndOp (g slot : Nat) (b : InstrBits) (s : State) : Out := whenFetched (wordOf 0 5 b) g slot s <| .next (intOp 0 andVal g slot b s)
/-- OR (R105). -/
def execOrOp (g slot : Nat) (b : InstrBits) (s : State) : Out := whenFetched (wordOf 0 6 b) g slot s <| .next (intOp 0 orVal g slot b s)
/-- XOR (R105). -/
def execXorOp (g slot : Nat) (b : InstrBits) (s : State) : Out := whenFetched (wordOf 0 7 b) g slot s <| .next (intOp 0 xorVal g slot b s)
/-- SHL (R105). -/
def execShl (g slot : Nat) (b : InstrBits) (s : State) : Out := whenFetched (wordOf 0 8 b) g slot s <| .next (intOp 0 shlVal g slot b s)
/-- SHR (R105). -/
def execShr (g slot : Nat) (b : InstrBits) (s : State) : Out := whenFetched (wordOf 0 9 b) g slot s <| .next (intOp 1 shrVal g slot b s)
/-- IMIN (R105). -/
def execImin (g slot : Nat) (b : InstrBits) (s : State) : Out := whenFetched (wordOf 0 10 b) g slot s <| .next (intOp 1 iminVal g slot b s)
/-- IMAX (R105). -/
def execImax (g slot : Nat) (b : InstrBits) (s : State) : Out := whenFetched (wordOf 0 11 b) g slot s <| .next (intOp 1 imaxVal g slot b s)
/-- POPC (R105): the number of 1 bits of A. -/
def execPopc (g slot : Nat) (b : InstrBits) (s : State) : Out := whenFetched (wordOf 0 12 b) g slot s <|
  .next (aluOp ⟨.reg, .reg, .unused, .unused, 0, none⟩ always 1 (fun c l => ⟨popcount (opd c b.au (fldA b) l) 32, 0⟩) g slot b s)

/-- CLZ: leading 0 bits, or with MOD[0] the bits from 31 down that equal bit 31. -/
def clzVal (m a : Nat) : Nat :=
  if m = 1 then 32 - bitLen (if bit a 31 then 2 ^ 32 - 1 - a else a) else 32 - bitLen a

/-- CLZ (R105). -/
def execClz (g slot : Nat) (b : InstrBits) (s : State) : Out := whenFetched (wordOf 0 13 b) g slot s <|
  .next (aluOp ⟨.reg, .reg, .unused, .unused, 1, none⟩ always 1 (fun c l => ⟨clzVal (modOf b) (opd c b.au (fldA b) l), 0⟩) g slot b s)

/-- IADD64 (R105): 64-bit add on pairs; the immediate is sign-extended to 64 bits (R99). -/
def execIadd64 (g slot : Nat) (b : InstrBits) (s : State) : Out := whenFetched (wordOf 0 14 b) g slot s <|
  .next (aluOp ⟨.pair, .pair, .pair, .unused, 0, some 0⟩ always 2 (fun c l =>
    ⟨(opd64 c b.au (fldA b) l + (if b.op5 then immInt b 64 else opd64 c b.bu (fldB b) l)) % 2 ^ 64, 0⟩) g slot b s)

end Sys2Proof.Machine
end

