-- ==== Sys2Proof/Machine/Quant.lean ====
section
/-!
DEFINITION. Packed elements, scale codes and the generation of shared scales (R162 to R165, R177 to R183, R598).
-/
namespace Sys2Proof.Machine

/-- R162: the code of element `i` of width `w` in a packed byte string. -/
def packedElem (bs : List Byte) (w i : Nat) : Nat :=
  fieldOf bs (w * i / 8) (w / 8 + 2) / 2 ^ (w * i % 8) % 2 ^ w

/-- R162: codes of width `w` packed densely; the bits beyond the last are 0. -/
def packElems (w : Nat) (cs : List Nat) : List Byte :=
  leBytes ((w * cs.length + 7) / 8) (cs.foldr (fun c a => c % 2 ^ w + 2 ^ w * a) 0)

/-- The bytes of `n` elements of width `w`. -/
def rowBytes (w n : Nat) : Nat := (w * n + 7) / 8

/-! ## Scale codes (R164, R165) -/

/-- SFMT of a scale code. -/
def scFmt (c : Nat) : Nat := bits c 7 6
/-- DIR: 0 K, 1 M, 2 N, 3 2-D. -/
def scDir (c : Nat) : Nat := bits c 5 4
/-- The block size. -/
def scSize (c : Nat) : Nat := 2 ^ (c % 16)

/-- R164: the value ranges of a scale code. -/
def scaleCodeOk (c : Nat) : Bool :=
  decide (c < 256) &&
  (if scFmt c = 0 then decide (c = 0)
   else decide (scFmt c ≠ 3) &&
     (if scDir c = 3 then decide (c % 16 = 4) || decide (c % 16 = 5) else decide (3 ≤ c % 16) && decide (c % 16 ≤ 8)))

/-- R165: a scale code of an operand (`out` false: no DIR M or N) or an output (no DIR K) of a format. -/
def scaleUseOk (out : Bool) (code sc : Nat) : Bool :=
  scaleCodeOk sc && (decide (sc = 0) ||
    (narrowCode code && (if out then decide (scDir sc ≠ 0) else decide (scDir sc = 0) || decide (scDir sc = 3))))

/-! ## Generating scales (R179 to R181) -/

/-- The magnitude of a finite value. -/
def magOfF : FVal → Mag
  | .fin _ m e => ⟨m, e, false⟩
  | _ => ⟨0, 0, false⟩

/-- The larger of two magnitudes. -/
def maxMag (x y : Mag) : Mag := if magGt x y.m y.e then x else y

/-- R179 step 1: the exponent of an element format's largest binade. -/
def emaxOf (code : Nat) : Int :=
  if code = 0x08 then 8 else if code = 0x09 then 15 else if code = 0x0B then 4 else if code = 0x0A ∨ code = 0x0C then 2 else 0

/-- Whether positive E4M3 code `x` times the format's largest value is at or above a magnitude. -/
def e4m3Covers (f : Fmt) (amax : Mag) (x : Nat) : Bool :=
  match decodeF fp8e4m3 x, decodeF f (maxCode f) with
  | .fin _ m e, .fin _ vm ve => !magGt amax (m * vm) (e + ve)
  | _, _ => false

/-- R180: the smallest positive E4M3 code at or above amax / vmax, limited to 0x01 to 0x7E. -/
def e4m3Scale (f : Fmt) (amax : Mag) : Nat :=
  match (List.range 0x7D).find? (fun i => e4m3Covers f amax (i + 1)) with
  | some i => i + 1
  | none => 0x7E

/-- R179 to R181: the scale byte of a block of values, for a scale format and an element format. -/
def blockScale (sf code : Nat) (vs : List FVal) : Nat :=
  if vs.any (fun v => isNanF v || isInfF v) then (if sf = 1 then 0xFF else 0x7F)
  else
    let amax := vs.foldl (fun a v => maxMag (magOfF v) a) ⟨0, 0, false⟩
    if amax.m = 0 then (if sf = 1 then 0x7F else 0x38)
    else if sf = 1 then (max (-127) (min 127 (magLog2 amax - emaxOf code)) + 127).toNat
    else e4m3Scale ((fmtOf code true).getD fp32) amax

/-- R177, R181: one element under its block's scale byte (`sf` 0: unscaled). -/
def scaledElem (sf code sc : Nat) (r : Rnd) (keep : Bool) (v : FVal) : Res :=
  let f := (fmtOf code (decide (sf ≠ 0))).getD fp32
  if sf = 0 then toTensor f r keep v false
  else
    match scaleVal sf sc with
    | .nan _ => ⟨0, fInvalid⟩
    | x =>
      let q := divF v x
      toTensor f r keep q.1 q.2

/-! ## An output matrix with its scales (R148, R598) -/

/-- How an output is written: element and scale codes, SUBN, and the rounding of an element by its index. -/
structure OutFmt where
  code : Nat
  sc : Nat
  keep : Bool
  seed : Option Nat

/-- The rounding of the element with an index (R182, R183). -/
def OutFmt.rnd (o : OutFmt) (i : Nat) : Rnd :=
  match o.seed with
  | some x => .stochastic (stochThreshold x i)
  | none => .nearestEven

/-- The members of the block that holds (m, n), within the extents: row and column ranges (R148). -/
def blockCells (sc rows cols m n : Nat) : List (Nat × Nat) :=
  let s := scSize sc
  let span := fun (i lim : Nat) => (List.range (min s (lim - i / s * s))).map (fun k => i / s * s + k)
  if scDir sc = 1 then (span m rows).map (fun r => (r, n))
  else if scDir sc = 2 then (span n cols).map (fun c => (m, c))
  else (span m rows).flatMap (fun r => (span n cols).map (fun c => (r, c)))

/-- The scale byte of the block that holds (m, n) of a matrix. -/
def cellScale (o : OutFmt) (v : Nat → Nat → FVal) (rows cols m n : Nat) : Nat :=
  if scFmt o.sc = 0 then 0
  else blockScale (scFmt o.sc) o.code ((blockCells o.sc rows cols m n).map (fun x => v x.1 x.2))

/-- Row `m` of an output: its element codes and the flags raised; `idx` gives an element's index. -/
def outRow (o : OutFmt) (v : Nat → Nat → FVal) (idx : Nat → Nat) (rows cols m : Nat) : List Res :=
  (List.range cols).map (fun n => scaledElem (scFmt o.sc) o.code (cellScale o v rows cols m n) (o.rnd (idx n)) o.keep (v m n))

/-- The scale bytes written in the step of row `m`, with the scale row they belong to (R148). -/
def outScales (o : OutFmt) (v : Nat → Nat → FVal) (rows cols m : Nat) : Option (Nat × List Byte) :=
  let s := scSize o.sc
  if scFmt o.sc = 0 then none
  else
    let byte := fun n => BitVec.ofNat 8 (cellScale o v rows cols m n)
    if scDir o.sc = 2 then some (m, (List.range ((cols + s - 1) / s)).map (fun j => byte (j * s)))
    else if m % s ≠ 0 then none
    else if scDir o.sc = 1 then some (m / s, (List.range cols).map byte)
    else some (m / s, (List.range ((cols + s - 1) / s)).map (fun j => byte (j * s)))

/-- The bytes of a scale row. -/
def scaleRowLen (sc cols : Nat) : Nat := if scDir sc = 1 then cols else (cols + scSize sc - 1) / scSize sc
/-- How many scale rows an output has. -/
def scaleRows (sc rows : Nat) : Nat := if scDir sc = 2 then rows else (rows + scSize sc - 1) / scSize sc

/-- The flags of a list of results. -/
def resFlags (rs : List Res) : Word := rs.foldl (fun a r => a ||| r.flags) 0

end Sys2Proof.Machine
end

