-- ==== Sys2Proof/Machine/DrainOps.lean ====
section
/-!
DEFINITION. Consort memory, the tiles of a Harp, and drains: their descriptors, rows, and what others see of a drain that
runs (R74, R86, R133, R146 to R151).
-/
namespace Sys2Proof.Machine

/-! ## Consort memory (R74, R86) -/

/-- The first byte of a consort's memory in its core. -/
def cmemBase (s : State) (g slot : Nat) : Nat := (consortOf s g (courseOf s g slot).consort).base * 1024
/-- The bytes a consort's memory holds. -/
def cmemSize (s : State) (g slot : Nat) : Nat := (consortOf s g (courseOf s g slot).consort).ca * 1024
/-- Write consort memory at an offset. -/
def cmemWrite (g slot off : Nat) (bs : List Byte) (s : State) : State :=
  logWrite (2 + g) (cmemBase s g slot + off) bs.length
    (setCore s g { coreOf s g with cmem := wrList (coreOf s g).cmem (cmemBase s g slot + off) bs })

/-! ## Tiles -/

/-- A tile of a Harp. -/
def Harp.tile (h : Harp) (t : Nat) : Tbl Word := if t = 0 then h.t0 else h.t1
/-- Replace it. -/
def Harp.setTile (h : Harp) (t : Nat) (x : Tbl Word) : Harp := if t = 0 then { h with t0 := x } else { h with t1 := x }
/-- A tile's state (R133). -/
def Harp.st (h : Harp) (t : Nat) : TileState := if t = 0 then h.s0 else h.s1
/-- Replace it. -/
def Harp.setSt (h : Harp) (t : Nat) (x : TileState) : Harp := if t = 0 then { h with s0 := x } else { h with s1 := x }
/-- The Harp of core `g`. -/
def harpOf (s : State) (g : Nat) : Harp := (coreOf s g).harp
/-- Replace it. -/
def setHarp (g : Nat) (h : Harp) (s : State) : State := setCore s g { coreOf s g with harp := h }
/-- Clear the cells of the first `rows` rows and `cols` columns. -/
def clearRegion (rows cols : Nat) (t : Tbl Word) : Tbl Word :=
  t.filter (fun e => !(decide (e.1 / 128 < rows) && decide (e.1 % 128 < cols)))

/-! ## Drains (R146 to R149) -/

/-- DST_OFF. -/
def nDst (d : List Byte) : Nat := fieldOf d 0 4
/-- ROW_STRIDE. -/
def nStride (d : List Byte) : Nat := fieldOf d 4 4
/-- SC_OFF. -/
def nScOff (d : List Byte) : Nat := fieldOf d 8 4
/-- SC_STRIDE. -/
def nScStride (d : List Byte) : Nat := fieldOf d 12 4
/-- A bit of FLAGS: 0 TILE, 1 SUBN_OUT, 2 STOCH, 3 ZERO_AFTER. -/
def nFlag (d : List Byte) (i : Nat) : Bool := bit (fieldOf d 18 1) i
/-- The tile. -/
def nTile (d : List Byte) : Nat := fieldOf d 18 1 % 2
/-- M_EXT. -/
def nRows (d : List Byte) : Nat := fieldOf d 19 1
/-- N_EXT. -/
def nCols (d : List Byte) : Nat := fieldOf d 20 1
/-- The output's format. -/
def nOut (d : List Byte) : OutFmt :=
  ⟨fieldOf d 16 1, fieldOf d 17 1, nFlag d 1, if nFlag d 2 then some (fieldOf d 24 8) else none⟩

/-- R147, R158, R165: the check of a drain descriptor. -/
def drainOk (d : List Byte) : Bool :=
  let o := nOut d
  tensorCode o.code && scaleUseOk true o.code o.sc && (decide (o.sc = 0) == decide (nScOff d = 0xFFFFFFFF)) &&
    decide (nDst d % 8 = 0) && decide (nStride d % 8 = 0) && (decide (o.sc = 0) || decide (nScOff d % 8 = 0)) &&
    decide (nScStride d % 8 = 0) && decide (1 ≤ nRows d) && decide (nRows d ≤ 128) && decide (1 ≤ nCols d) &&
    decide (nCols d ≤ 128) && decide (fieldOf d 18 1 < 16) && decide (fieldOf d 21 3 = 0)

/-- The width of a format code's elements. -/
def codeWidth (code : Nat) : Nat := ((fmtOf code false).getD fp32).width

/-- R147: every write of a drain lies within the allocation. -/
def drainFits (size : Nat) (d : List Byte) : Bool :=
  let o := nOut d
  decide (nDst d + (nRows d - 1) * nStride d + rowBytes (codeWidth o.code) (nCols d) ≤ size) &&
    (decide (o.sc = 0) || decide (nScOff d + (scaleRows o.sc (nRows d) - 1) * nScStride d + scaleRowLen o.sc (nCols d) ≤ size))

/-- The tile's value that a drain reads at (m, n), with a flush's flag (R174). -/
def drainRead (t : Tbl Word) (keep : Bool) (m n : Nat) : FVal × Word := readF fp32 keep false (tget 0 t (128 * m + n)).toNat

/-- R148: a drain's row `m`: its elements, then its scales. (DEDUCED, log entry 36.) -/
def drainRow (g slot : Nat) (d : List Byte) (t : Tbl Word) (r : State × Word) (m : Nat) : State × Word :=
  let o := nOut d
  let v := fun m n => (drainRead t o.keep m n).1
  let row := outRow o v (fun n => 128 * m + n) (nRows d) (nCols d) m
  let fl := (List.range (nCols d)).foldl (fun w n => w ||| (drainRead t o.keep m n).2) (resFlags row)
  let s := cmemWrite g slot (nDst d + m * nStride d) (packElems (codeWidth o.code) (row.map (fun x => x.code))) r.1
  let s := match outScales o v (nRows d) (nCols d) m with
    | some (k, bs) => cmemWrite g slot (nScOff d + k * nScStride d) bs s
    | none => s
  (s, r.2 ||| (fl &&& (fInvalid ||| fSaturated ||| fFlushed)))

/-- A whole drain: what it writes, and its flags. -/
def drainAll (g slot : Nat) (d : List Byte) (s : State) : State × Word :=
  let t := (harpOf s g).tile (nTile d)
  (List.range (nRows d)).foldl (drainRow g slot d t) (s, 0)


/-! ## What others see of a drain that runs (R151) -/

/-- The drain that runs on core `g`: its course and descriptor. -/
def drainOf (s : State) (g : Nat) : Option (Nat × List Byte) :=
  match (harpOf s g).s0, (harpOf s g).s1 with
  | .draining k d, _ => some (k, leBytes 32 d)
  | _, .draining k d => some (k, leBytes 32 d)
  | _, _ => none

/-- The runs of consort memory that a drain writes: its rows, then its rows of scales. -/
def drainRuns (d : List Byte) : List (Nat × Nat) :=
  let o := nOut d
  (List.range (nRows d)).map (fun m => (nDst d + m * nStride d, rowBytes (codeWidth o.code) (nCols d))) ++
    (if o.sc = 0 then []
     else (List.range (scaleRows o.sc (nRows d))).map (fun k => (nScOff d + k * nScStride d, scaleRowLen o.sc (nCols d))))

/-- Some words of a run of memory hold their new bytes already: a free choice for each 4 B word. -/
def mixRun (u base : Nat) (new : List Host.Cell) (m : List Host.Cell) (r : Nat × Nat) : List Host.Cell :=
  (List.range r.2).foldl (fun m i =>
    let x := base + r.1 + i
    if Config.freeBool (u + x / 4) then wrList m x (rdList new x 1) else m) m

/-- The drain of another course of the same consort, while it runs. -/
def otherDrain (s : State) (g slot : Nat) : Option (Nat × List Byte) :=
  match drainOf s g with
  | some (k, d) => if k ≠ slot ∧ (courseOf s g k).consort = (courseOf s g slot).consort then some (k, d) else none
  | none => none

/-- R151: the memory of core `g` as a course sees it: while a drain of another course of its consort runs, each word that the
drain writes is old or new. (DEDUCED, log entry 37.) -/
def cmemSeen (s : State) (g slot : Nat) : List Host.Cell :=
  match otherDrain s g slot with
  | none => (coreOf s g).cmem
  | some (k, d) =>
    (drainRuns d).foldl (mixRun s.free (cmemBase s g slot) (coreOf (drainAll g k d s).1 g).cmem) (coreOf s g).cmem

/-- The free choices of `cmemSeen` are used. -/
def seenTurn (g slot : Nat) (s : State) : State := if (otherDrain s g slot).isSome then bumpFree s (2 ^ 18) else s

/-- Read consort memory at an offset. -/
def cmemRead (s : State) (g slot off n : Nat) : List Byte := rdList (cmemSeen s g slot) (cmemBase s g slot + off) n

end Sys2Proof.Machine
end

