-- ==== Sys2Proof/Machine/CmdOps.lean ====
section
/-!
DEFINITION. Host commands: fields, status records, starting and ending (R34 to R40, R59 to R64), reads through
translations, and the check of a pattern (R45 to R49, R203, R402).
-/
namespace Sys2Proof.Machine

/-- Bytes put into a list at a place. -/
def putAt (bs : List Byte) (o : Nat) (x : List Byte) : List Byte := bs.take o ++ x ++ bs.drop (o + x.length)

/-! ## Fields of a command (R40) -/

/-- OPCODE. -/
def cOp (c : Cmd) : Nat := fieldOf c.bytes 0 1
/-- FLAGS bit 0, STATUS_PROGRESS. -/
def cProgress (c : Cmd) : Bool := bit (fieldOf c.bytes 1 1) 0
/-- SEQ. -/
def cSeq (c : Cmd) : Nat := fieldOf c.bytes 4 4
/-- LAYER_ID. -/
def cLayer (c : Cmd) : Nat := fieldOf c.bytes 12 2
/-- OP_ID. -/
def cOpId (c : Cmd) : Nat := fieldOf c.bytes 14 2
/-- STATUS_ADDR. (DEDUCED, log entry 42.) -/
def cStatus (c : Cmd) : Nat := fieldOf c.bytes 16 8
/-- R40, R31: the command's budget in µs. -/
def cBudget (s : State) (q : Nat) (c : Cmd) : Nat :=
  let b := fieldOf c.bytes 8 4
  if b ≠ 0 then b else if getF s (qBudget q) = 0 then 0xF4240 else getF s (qBudget q)

/-- The oldest command of a queue that has not ended. -/
def headCmd (s : State) (q : Nat) : Option Cmd := (queueOf s q).fetched.head?

/-- Replace it. -/
def setHead (s : State) (q : Nat) (c : Cmd) : State :=
  let x := queueOf s q
  setQueue s q { x with fetched := setNth x.fetched 0 c }

/-! ## The status record (R61, R62) -/

/-- R61: the record of a command in a state, with its end where it has one; `tEnd` 0 before the final state.  SLOT of a LAUNCH
that has no slot, one that is QUEUED or that ends before it starts, is 0xFF, as it is for the other commands.
(DESIGN CHOICE, log entry 108.) -/
def recordBytes (q : Nat) (c : Cmd) (st tEnd stretch : Nat) (e : Ending) : List Byte :=
  leBytes 1 st ++ leBytes 1 e.code ++ leBytes 1 e.sub ++ leBytes 1 c.flags ++ leBytes 4 (cSeq c) ++
  leBytes 4 c.progress ++ leBytes 4 c.version ++ leBytes 8 c.tStart ++ leBytes 8 tEnd ++ leBytes 2 e.agent ++
  leBytes 1 (c.slot.getD 0xFF) ++ leBytes 1 0 ++ leBytes 2 q ++ leBytes 2 0 ++ leBytes 8 e.addr ++
  leBytes 4 stretch ++ leBytes 4 0 ++ leBytes 4 (c.upd + 2) ++ leBytes 4 0

/-- R62: write an update of a command's record, in three writes. -/
def writeRecord (q : Nat) (c : Cmd) (st tEnd stretch : Nat) (e : Ending) (s : State) : State :=
  postWrite 0 (ctxOfQueue s q) (cStatus c / 64 * 64) (recordBytes q c st tEnd stretch e) q s

/-- The command with one more update written. -/
def Cmd.updated (c : Cmd) : Cmd := { c with upd := (c.upd + 2) % 2 ^ 32 }

/-- No end. -/
def noEnd : Ending := ⟨0, 0, 0, 0, 0⟩

/-- R38: a queue whose LAUNCH was the claimant claims no longer. -/
def dropClaim (q : Nat) (s : State) : State :=
  match s.sch.claimant with
  | some c => if c.q = q then { s with sch := { s.sch with claimant := none } } else s
  | none => s

/-- The waits of a command for translations and host reads, and for the accesses that its INVALIDATE waits for, end. -/
def dropCmdWaits (q : Nat) (s : State) : State :=
  let s := forgetWaits (.command q) s
  { s with xl := { s.xl with invals := s.xl.invals.filter (fun x => decide (x.1 ≠ q)) } }

/-- The oldest command of queue `q` reaches its final state (R24, R36, R61): its record is written, it leaves the
queue, its SEQ joins those that have ended.  One that never started has T_START equal to T_END (R63). -/
def endCommand (q : Nat) (e : Ending) (stretch : Nat) (s : State) : State :=
  match headCmd s q with
  | none => s
  | some c =>
    let c := if c.started then c else { c with tStart := s.aoTick, progress := 0 }
    let s := writeRecord q c e.st s.aoTick stretch e s
    let s := dropCmdWaits q (dropClaim q s)
    let x := queueOf s q
    let s := setQueue s q { x with
      fetched := x.fetched.drop 1
      ended := (x.ended.filter (fun n => decide (n ≠ cSeq c))) ++ [cSeq c] }
    setOff s (qActive q)

/-- R63: a command starts: RUNNING is written. -/
def startCommand (q : Nat) (c : Cmd) (s : State) : State :=
  let c := { c with started := true, tStart := s.aoTick, work := [] }
  let s := writeRecord q c 2 0 0 noEnd s
  setOn (setHead s q c.updated) (qActive q)

/-- A processor's firmware runs (R486): STATE RUNNING. -/
def fwRuns (s : State) (p : Nat) : Bool := decide (getF s (fwState p) = 1)

/-- R448: commands are fetched and started in phase READY, by the scheduler's firmware. -/
def schedulerUp (s : State) : Bool := s.powered && decide (s.boot.phase = 4) && fwRuns s 2

/-- Casting slots in use. -/
def slotUsed (s : State) (k : Nat) : Bool := (castingOf s k).live

/-! ## Reads of device memory through translations (R336) -/

/-- How the scheduler makes an access for queue `q`'s command. -/
def cmdAccess (s : State) (q : Nat) : Acc2 := ⟨.command q, ctxOfQueue s q, agFw 2, false, none⟩

/-- An access of the firmware that must lie in device memory. -/
def devOnly {α : Type} (a : Acc2) (va : Nat) (wr : Bool) (k : Target → State → State × Got α) (s : State) : State × Got α :=
  match translate a va wr s with
  | (s, .wait) => (s, .wait)
  | (s, .fail e) => (s, .fail e)
  | (s, .ok ta) =>
    match targetOf s ta with
    | .dev dpa => k (.dev dpa) s
    | _ => (s, .fail (protEnd 0x20 a.agent va))

/-- Read `n` bytes at a virtual address that must lie in device memory, line by line (at most `fuel` lines), under a charge
hint. -/
def readVa (a : Acc2) (hint : Option Nat) : Nat → Nat → Nat → State → State × Got (List Byte)
  | 0, _, _, s => (s, .ok [])
  | fuel + 1, va, n, s =>
    if n = 0 then (s, .ok [])
    else
      let k := min n (128 - va % 128)
      match devOnly a va false (fun t => readTarget a t va k hint) s with
      | (s, .wait) => (s, .wait)
      | (s, .fail e) => (s, .fail e)
      | (s, .ok bs) =>
        match readVa a hint fuel (va + k) (n - k) s with
        | (s, .ok more) => (s, .ok (bs ++ more))
        | r => r

/-- Read a span of any length. -/
def readSpanVa (a : Acc2) (va n : Nat) (s : State) : State × Got (List Byte) := readVa a none (n / 128 + 2) va n s

/-- Write bytes at a virtual address that must lie in device memory, line by line (at most `fuel` lines). -/
def writeVa (a : Acc2) : Nat → Nat → List Byte → State → State × Got Unit
  | 0, _, _, s => (s, .ok ())
  | fuel + 1, va, bs, s =>
    if bs.isEmpty then (s, .ok ())
    else
      let k := min bs.length (128 - va % 128)
      match devOnly a va true (fun t => writeTarget a t va (bs.take k) none) s with
      | (s, .ok ()) => writeVa a fuel (va + k) (bs.drop k) s
      | r => r

/-- Read an operand that may lie anywhere, line by line: what the host port reads in host memory, page by page through
translations (R336), is in `host`. -/
def readOperand (a : Acc2) : Nat → Nat → Nat → List Byte → State → State × Got (List Byte)
  | 0, _, _, _, s => (s, .ok [])
  | fuel + 1, va, n, host, s =>
    if n = 0 then (s, .ok [])
    else
      let k := min n (128 - va % 128)
      let one := match translate a va false s with
        | (s, .wait) => (s, Got.wait)
        | (s, .fail e) => (s, .fail e)
        | (s, .ok ta) =>
          match targetOf s ta with
          | .host pa =>
            if hostHeld s pa then (s, .ok (hostBytes s pa k))
            else if !s.hpt.bme then (s, .fail (faultEnd 0x31 0x13 a.agent va))
            else (s, .ok ((host ++ List.replicate k 0).take k))
          | t => readTarget a t va k none s
      match one with
      | (s, .wait) => (s, .wait)
      | (s, .fail e) => (s, .fail e)
      | (s, .ok bs) =>
        match readOperand a fuel (va + k) (n - k) (host.drop k) s with
        | (s, .ok more) => (s, .ok (bs ++ more))
        | r => r

/-! ## CRC-32C (R47) -/

/-- One step of the reflected polynomial 0x82F63B78. -/
def crcBits : Nat → Nat → Nat
  | 0, c => c
  | n + 1, c => crcBits n (if c % 2 = 1 then (c / 2) ^^^ 0x82F63B78 else c / 2)
/-- CRC-32C of bytes, from a running value. (DEDUCED, log entry 101.) -/
def crcRun : List Byte → Nat → Nat
  | [], c => c
  | b :: bs, c => crcRun bs (crcBits 8 (c ^^^ b.toNat))
/-- CRC-32C (R456). -/
def crc32c (bs : List Byte) : Nat := crcRun bs 0xFFFFFFFF ^^^ 0xFFFFFFFF

/-! ## The pattern (R45 to R49) -/

/-- A segment-table entry. -/
structure Seg where
  typ : Nat
  cl : Nat
  len : Nat
  addr : Nat
  deriving DecidableEq, Repr

/-- R48: the segment table of a header followed by its table. -/
def segsOf (h : List Byte) : List Seg :=
  (List.range (fieldOf h 6 2)).map (fun i =>
    ⟨fieldOf h (64 + 16 * i) 1, fieldOf h (65 + 16 * i) 1, fieldOf h (68 + 16 * i) 4, fieldOf h (72 + 16 * i) 8⟩)

/-- The segment of a type (and cluster). -/
def segOf (h : List Byte) (typ cl : Nat) : Option Seg := (segsOf h).find? (fun x => decide (x.typ = typ) && decide (x.cl = cl))

/-- CLUSTER_MASK of a header. -/
def hMask (h : List Byte) : Nat := fieldOf h 16 2
/-- SCHEDULED. -/
def hSched (h : List Byte) : Bool := bit (fieldOf h 12 4) 0
/-- VERSION. -/
def hVersion (h : List Byte) : Nat := fieldOf h 8 4
/-- NODE_COUNT. -/
def hNodes (h : List Byte) : Nat := fieldOf h 18 2
/-- RISER_FIELDS. -/
def hRiser (h : List Byte) : Nat := fieldOf h 20 2

/-- How many segments have a type (and cluster). -/
def segCount (h : List Byte) (typ : Nat) (cl : Nat → Bool) : Nat :=
  ((segsOf h).filter (fun x => decide (x.typ = typ) && cl x.cl)).length

/-- R47, R49: MAGIC, FORMAT, ranges, reserved fields and CRC of a header with its segment table.
(DEDUCED, log entry 43.) -/
def headerOk (h : List Byte) : Bool :=
  let n := fieldOf h 6 2
  decide (fieldOf h 0 4 = 0x4E565054) && decide (fieldOf h 4 2 = 1) && decide (1 ≤ n) && decide (n ≤ 256) &&
  decide (fieldOf h 12 4 < 2) && decide (hMask h ≠ 0) && decide (1 ≤ hNodes h) && decide (hRiser h ≤ 8192) &&
  (if hSched h then decide (250 ≤ fieldOf h 22 2) && decide (fieldOf h 22 2 ≤ 8000) && decide (1 ≤ fieldOf h 24 2)
   else decide (fieldOf h 22 2 = 0)) && decide (1 ≤ fieldOf h 26 2) && decide (fieldOf h 26 2 ≤ 2048) &&
  decide (fieldOf h 48 16 = 0) &&
  decide (crc32c (h.take 40 ++ [0, 0, 0, 0] ++ h.drop 44) = fieldOf h 40 4)

/-- R48: one entry's own fields. -/
def segOk (h : List Byte) (i : Nat) : Bool :=
  let x := nth ⟨0, 0, 0, 0⟩ (segsOf h) i
  decide (fieldOf h (66 + 16 * i) 2 = 0) && decide (x.len % 128 = 0) && decide (x.addr % 128 = 0) &&
  (if x.typ = 1 then decide (x.cl < 16) else decide (2 ≤ x.typ) && decide (x.typ ≤ 4) && decide (x.cl = 0xFF))

/-- R48: which segments a version holds. -/
def segsOk (h : List Byte) : Bool :=
  (List.range (fieldOf h 6 2)).all (segOk h) &&
  (List.range 16).all (fun c => decide (segCount h 1 (fun x => decide (x = c)) = b2n (bit (hMask h) c))) &&
  decide (segCount h 4 (fun _ => true) = 1) &&
  decide (segCount h 2 (fun _ => true) = b2n (hSched h)) &&
  decide (segCount h 3 (fun _ => true) = (if hRiser h = 0 then 0 else 1)) &&
  (match segOf h 3 0xFF with
   | some x => decide ((hRiser h + 3) / 4 ≤ x.len)
   | none => true) &&
  (match segOf h 4 0xFF with
   | some x => decide (8 * hNodes h ≤ x.len)
   | none => false)

/-- R203: the node table. -/
def nodesOk (h t : List Byte) : Bool :=
  (List.range (hNodes h)).all (fun k =>
    let m := fieldOf t (8 * k) 2
    decide (m ≠ 0) && decide (m ||| hMask h = hMask h) && decide (fieldOf t (8 * k + 6) 2 = 0))

/-- R50: the kind of riser field `i` in a riser map. -/
def riserKind (m : List Byte) (i : Nat) : Nat := bits (nth 0 m (i / 4)).toNat (2 * (i % 4) + 1) (2 * (i % 4))

/-- R50: no field has the reserved kind. -/
def riserOk (h m : List Byte) : Bool := (List.range (hRiser h)).all (fun i => decide (riserKind m i ≠ 3))

/-- One entry of the fret table (R401): fret offset, kind, port, cluster, destination, bytes. -/
structure FretEnt where
  off : Nat
  kind : Nat
  port : Nat
  cl : Nat
  dest : Nat
  bytes : Nat
  deriving DecidableEq, Repr

/-- R401: the entries of a fret table. -/
def fretEnts (t : List Byte) : List FretEnt :=
  (List.range (fieldOf t 6 2)).map (fun i =>
    let o := 32 + 16 * i
    ⟨fieldOf t o 4, fieldOf t (o + 4) 1, fieldOf t (o + 5) 1, fieldOf t (o + 6) 2, fieldOf t (o + 8) 2, fieldOf t (o + 12) 4⟩)

/-- Entries in ascending FRET_OFF. -/
def ascending : List FretEnt → Bool
  | a :: b :: rest => decide (a.off ≤ b.off) && ascending (b :: rest)
  | _ => true

/-- R402: the bytes of a port and fret within `rate` bytes per ns of the fret's length. -/
def fretFits (h t : List Byte) (rate : Nat → Nat) : Bool :=
  (fretEnts t).all (fun e => decide (e.kind ≠ 1) ||
    decide (((fretEnts t).filter (fun x => decide (x.kind = 1) && decide (x.port = e.port) && decide (x.off = e.off))).foldl
      (fun a x => a + x.bytes) 0 ≤ fieldOf h 22 2 * rate e.port))

/-- R401, R402: the fret table's own check. -/
def fretOk (h t : List Byte) : Bool :=
  let pm := fieldOf t 8 4
  decide (fieldOf t 0 4 = 0x4E564654) && decide (1 ≤ fieldOf t 6 2) && decide (pm < 2 ^ 24) && decide (fieldOf t 12 20 = 0) &&
  ascending (fretEnts t) &&
  (List.range (fieldOf t 6 2)).all (fun i =>
    let e := nth ⟨0, 0, 0, 0, 0, 0⟩ (fretEnts t) i
    decide (fieldOf t (32 + 16 * i + 10) 2 = 0) &&
    (if e.kind = 1 then decide (e.port < 24) && bit pm e.port && decide (e.cl < 16) && bit (hMask h) e.cl && decide (e.dest < 2048)
     else decide (e.kind = 2) && decide (e.port = 0) && decide (e.dest = 0) && decide (e.bytes = 0))) &&
  fretFits h t (fun _ => 80)

/-- BAD_PATTERN (R49).  The spec names no agent for a command that ends without an engine's part in it: AGENT is the scheduler
core, which ends it, here and for BAD_COMMAND, HOST_RESET and TIMEOUT_DRAINED. (DESIGN CHOICE, log entry 108.) -/
def badPattern : Ending := ⟨stAborted, 0x22, 0x10, agFw 2, 0⟩

/-- What reading and checking a pattern gives: header with segment table, node table, riser map, fret table. -/
structure Pattern where
  root : Nat
  cur : Nat
  hdr : List Byte
  nodes : List Byte
  riser : List Byte
  fret : List Byte
  deriving DecidableEq, Repr

/-- Read a segment, if the version has it. -/
def readSeg (a : Acc2) (x : Option Seg) (s : State) : State × Got (List Byte) :=
  match x with
  | none => (s, .ok [])
  | some g => readSpanVa a g.addr g.len s

/-- Read a version's header with its segment table. -/
def readHeader (a : Acc2) (cur : Nat) (s : State) : State × Got (List Byte) :=
  match readSpanVa a cur 64 s with
  | (s, .ok h0) =>
    if 256 < fieldOf h0 6 2 then (s, .fail badPattern) else readSpanVa a cur (64 + 16 * fieldOf h0 6 2) s
  | r => r

/-- R49, R402: read a version (header, table and checked segments) at an address and check it. -/
def readVersion (a : Acc2) (root cur : Nat) (s : State) : State × Got Pattern :=
  match readHeader a cur s with
  | (s, .wait) => (s, .wait)
  | (s, .fail e) => (s, .fail e)
  | (s, .ok h) =>
    if !headerOk h || !segsOk h then (s, .fail badPattern)
    else
      match readSeg a (segOf h 4 0xFF) s with
      | (s, .wait) => (s, .wait)
      | (s, .fail e) => (s, .fail e)
      | (s, .ok nt) =>
        match readSeg a (segOf h 3 0xFF) s with
        | (s, .wait) => (s, .wait)
        | (s, .fail e) => (s, .fail e)
        | (s, .ok rm) =>
          match readSeg a (segOf h 2 0xFF) s with
          | (s, .wait) => (s, .wait)
          | (s, .fail e) => (s, .fail e)
          | (s, .ok ft) =>
            if nodesOk h nt && riserOk h rm && (!hSched h || fretOk h ft) then (s, .ok ⟨root, cur, h, nt, rm, ft⟩)
            else (s, .fail badPattern)

/-- R45, R49: the root line's own check. -/
def rootOk (r : List Byte) : Bool := decide (fieldOf r 0 4 = 0x4E565254) && decide (fieldOf r 24 40 = 0)

/-- R49: whether a target may hold a root line: HBM, a raw cartridge range or an expanded view. -/
def rootPlace (t : Target) : Bool :=
  match t with
  | .dev dpa => (match placeOf (locOf dpa) with | .hbm _ | .raw _ _ | .view _ _ => true | _ => false)
  | _ => false

/-- R49: translate PATTERN_ROOT and read the root line: its DPA and bytes. (DEDUCED, log entry 41.) -/
def readRoot (a : Acc2) (va : Nat) (s : State) : State × Got (Nat × List Byte) :=
  if va % 128 ≠ 0 then (s, .fail badPattern)
  else
    match translate a va false s with
    | (s, .wait) => (s, .wait)
    | (s, .fail e) => (s, .fail e)
    | (s, .ok ta) =>
      match targetOf s ta with
      | .dev dpa =>
        if !rootPlace (.dev dpa) then (s, .fail badPattern)
        else
          match readTarget a (.dev dpa) va 128 none s with
          | (s, .wait) => (s, .wait)
          | (s, .fail e) => (s, .fail e)
          | (s, .ok r) => if rootOk r then (s, .ok (dpa, r)) else (s, .fail badPattern)
      | _ => (s, .fail badPattern)

/-- R49: the pattern that a command names: its root line's DPA and bytes, and its current version. -/
def readPattern (a : Acc2) (va : Nat) (s : State) : State × Got (Nat × List Byte × Pattern) :=
  match readRoot a va s with
  | (s, .wait) => (s, .wait)
  | (s, .fail e) => (s, .fail e)
  | (s, .ok (dpa, root)) =>
    match readVersion a dpa (fieldOf root 8 8) s with
    | (s, .wait) => (s, .wait)
    | (s, .fail e) => (s, .fail e)
    | (s, .ok pt) => (s, .ok (dpa, root, pt))

/-! ## Pours of the scheduler on a root line (R55, R56, R325) -/

/-- What stands in the way of the scheduler's pour on a root line: another agent's token (R322), a line that is busy, poison
(R55), a place that takes no write (R254). -/
def rootBar (s : State) (dpa : Nat) : Got Unit :=
  if isOn s tokHeld || lineBusy s (lineOf (locOf dpa)) none none none then .wait
  else
    match writeBar s (agFw 2) dpa with
    | .ok () => if poisoned s (locOf dpa) then .fail (poisonEnd s dpa) else .ok ()
    | r => r

/-- R55, R56, R325: the scheduler's pour on a root line is published: bytes from offset `off` on, whole, with the line locked,
merged and unlocked in one step, so that none of R312's conflicts meets it. (DEDUCED, log entry 41.) -/
def pourRoot (dpa off : Nat) (bs : List Byte) (s : State) : State :=
  let s := grantNone (lineOf (locOf dpa)) (beforeWrite dpa 128 none s)
  putDev (dpa + off) bs false true (cruInstall (locOf dpa) s)

end Sys2Proof.Machine
end

