-- ==== Sys2Proof/Machine/Control.lean ====
section
/-!
DEFINITION. The CTL class: branches, EXIT and the consort barrier (R70, R80 to R85).
-/
namespace Sys2Proof.Machine

/-- DIVERGENCE_DEPTH (R81). -/
def depthEnd (g : Nat) : Ending := protEnd 0x16 g 0
/-- DIVERGENT_BARRIER (R84). -/
def barrierEnd (g : Nat) : Ending := protEnd 0x15 g 0

/-- Put a path into the list that is ordered by rising address; lanes of one address share a path (R80). -/
def addPath (ps : List (Nat × Word)) (a : Nat) (m : Word) : List (Nat × Word) :=
  match ps with
  | [] => [(a, m)]
  | (x, y) :: rest => if x = a then (x, y ||| m) :: rest else if a < x then (a, m) :: (x, y) :: rest else (x, y) :: addPath rest a m

/-- R80, R81: the course continues on its paths: one path is no divergence; several push an entry and run in rising
address order; a full stack is the end. -/
def branchTo (g slot reconv : Nat) (ps : List (Nat × Word)) (c : Course) (s : State) : State :=
  match ps with
  | [] => s
  | [(a, _)] => countCore g 0x02 1 (setCourse s g slot (settle settleFuel { c with pc := a }))
  | (a, m) :: more =>
    if 32 ≤ c.stack.length then failCourse g slot (depthEnd g) s
    else countCore g 0x02 1 (setCourse s g slot (settle settleFuel
      { c with pc := a, active := m, stack := ⟨reconv, c.active, more⟩ :: c.stack }))

/-- BRA (R80, R105): taken by the lanes whose guard is 1. -/
def execBra (g slot : Nat) (b : InstrBits) (s : State) : Out := whenFetched (wordOf 6 0 b) g slot s <|
  .next (issue g slot (guardOk b && !b.op5 && !b.du && !b.au && !b.bu && !b.cu) 0 s (fun c =>
    let t := lanesOf c b
    let n := c.active &&& ~~~t
    let ps := if t = 0 then [] else addPath [] (pcAdd c.pc (fldTarget b)) t
    let ps := if n = 0 then ps else addPath ps (pcAdd c.pc 1) n
    branchTo g slot (pcAdd c.pc (fldReconv b)) ps c s))

/-- BRX (R80, R99): each taken lane's 64-bit address in the pair A. (DEDUCED, log entry 18.) -/
def execBrx (g slot : Nat) (b : InstrBits) (s : State) : Out := whenFetched (wordOf 6 1 b) g slot s <|
  let legal := guardOk b && !b.op5 && !b.du && !b.bu && !b.cu && Form.ok .pair b.au (fldA b) &&
    decide (fldD b = 0) && decide (fldB b = 0)
  .next (issue g slot legal (Form.top .pair b.au (fldA b)) s (fun c =>
    let t := lanesOf c b
    let n := c.active &&& ~~~t
    let ps := (laneList t).foldl (fun ps l => addPath ps (opd64 c b.au (fldA b) l) (BitVec.ofNat 32 (2 ^ l))) []
    let ps := if n = 0 then ps else addPath ps (pcAdd c.pc 1) n
    branchTo g slot (pcAdd c.pc (fldReconv b)) ps c s))

/-- The courses of a consort that have not exited. -/
def liveCourses (s : State) (g k : Nat) : List Nat :=
  (consortOf s g k).courses.filter (fun i => (courseOf s g i).live)

/-- R83: when every course that has not exited has arrived, the barrier releases and resets. -/
def barrierCheck (g k : Nat) (s : State) : State :=
  let cs := liveCourses s g k
  if cs.all (fun i => (courseOf s g i).arrived) then
    cs.foldl (fun s i => setCourse s g i { courseOf s g i with arrived := false }) s
  else s

/-- R70: a course whose lanes have all exited exits; with the last course its consort's resources return. -/
def courseExit (g slot : Nat) (s : State) : State :=
  let c := courseOf s g slot
  let s := if c.pour = .closed then s else abortPour g slot 4 s
  let s := setCourse s g slot { courseOf s g slot with live := false, arrived := false, rsv := [] }
  if (liveCourses s g c.consort).isEmpty then freeConsort g c.consort s else barrierCheck g c.consort s

/-- R70, R362: a course whose lanes have all exited and whose last consort-memory transfer has ended exits. -/
def lateExit (g slot : Nat) (s : State) : State :=
  let c := courseOf s g slot
  if c.live ∧ liveLanes c = 0 ∧ c.copies = 0 then courseExit g slot s else s

/-- EXIT (R70): the lanes whose guard is 1 exit; the course exits with the last of them, once its consort-memory
transfers have ended (R362). -/
def execExit (g slot : Nat) (b : InstrBits) (s : State) : Out := whenFetched (wordOf 6 2 b) g slot s <|
  .next (issue g slot (guardOk b && !b.op5 && !b.du && !b.au && !b.bu && !b.cu && decide (b.low = 0)) 0 s (fun c =>
    let t := lanesOf c b
    let rest := c.active &&& ~~~t
    if liveLanes c &&& ~~~t = 0 ∧ harpPending s g slot then s
    else
    let c := { c with exited := c.exited ||| t, active := rest, pc := if rest = 0 then c.pc else pcAdd c.pc 1 }
    let c := settle settleFuel c
    let s := countCore g 0x02 1 (setCourse s g slot c)
    if c.active = 0 ∧ c.copies = 0 then courseExit g slot s else s))

/-- BAR (R83, R84): the course arrives with every non-exited lane active; illegal in an open pour (R121). -/
def execBar (g slot : Nat) (b : InstrBits) (s : State) : Out := whenFetched (wordOf 6 3 b) g slot s <|
  .next (issue g slot (guardOk b && !b.gen && !b.op5 && !b.du && !b.au && !b.bu && !b.cu && decide (b.low = 0) &&
      decide ((courseOf s g slot).pour = .closed)) 0 s (fun c =>
    if c.active ≠ liveLanes c then failCourse g slot (barrierEnd g) s
    else if harpPending s g slot then s
    else barrierCheck g c.consort (countCore g 0x02 1 (setCourse s g slot { advance c with arrived := true }))))

end Sys2Proof.Machine
end

