-- ==== Sys2Proof/Machine/Pools.lean ====
section
/-!
DEFINITION. The control range of a tundish aperture: buffer pools and marker lines (R187, R224, R225, R561).
-/
namespace Sys2Proof.Machine

/-! ## Ranks (R225) -/

/-- R225: the places of a list of claimants, in ascending rank; core 12 stands for the control core, which comes last.
Claims of one core keep their order. -/
def rankOrder (s : State) (ks : List Nat) : List Nat :=
  let f := getF s amxFret % 12
  ((List.range 12).flatMap (fun r => (List.range ks.length).filter (fun i => decide (nth 13 ks i = (f + r) % 12)))) ++
    (List.range ks.length).filter (fun i => decide (nth 13 ks i = 12))

/-- A word with CODE, SUB, BLOCK and the block's scratch offset (R224). -/
def claimWord (code sub block off : Nat) : Nat := code + 256 * sub + 2 ^ 16 * block + 2 ^ 32 * off

/-! ## Pools (R224) -/

/-- log2 of a pool's block (R194, R204).  BLOCK_LOG2 goes to 16 and its register field has four bits, so that 0 there stands
for 16. (DEDUCED, log entry 25.) -/
def poolLog (s : State) (cl p : Nat) : Nat := if getF s (poolBlock cl p) = 0 then 16 else getF s (poolBlock cl p)

/-- Blocks of pool `p` of cluster `cl`; none while it is not enabled. -/
def poolBlocks (s : State) (cl p : Nat) : Nat :=
  if isOn s (poolEnable cl p) then (getF s (poolWays cl p) + 1) * 0x100000 / 2 ^ poolLog s cl p else 0

/-- Whether a block is claimed. -/
def blockClaimed (s : State) (cl p b : Nat) : Bool := decide (tget 0 (clusterOf s cl).claims (p * 2 ^ 20 + b) ≠ 0)

/-- A block's scratch offset. -/
def blockOff (s : State) (cl p b : Nat) : Nat := getF s (poolFirst cl p) * 0x100000 + b * 2 ^ poolLog s cl p

/-- TUN_POOL_STAT follows the claims (R194). -/
def poolShow (cl p : Nat) (s : State) : State :=
  let n := poolBlocks s cl p
  let free := ((List.range (n - 1)).filter (fun b => !blockClaimed s cl p b)).length
  setB (setF s (poolFree cl p) free) (poolReserve cl p) (decide (0 < n) && !blockClaimed s cl p (n - 1))

/-- Claim or free a block. -/
def setBlock (cl p b : Nat) (claimed : Bool) (s : State) : State :=
  let c := clusterOf s cl
  poolShow cl p (setCluster s cl { c with claims := tset 0 c.claims (p * 2 ^ 20 + b) (b2n claimed) })

/-- The lowest-numbered free non-reserve block. -/
def freeBlock (s : State) (cl p : Nat) : Option Nat :=
  (List.range (poolBlocks s cl p - 1)).find? (fun b => !blockClaimed s cl p b)

/-- One claim, with what the pool held at the start of the cycle. -/
def claimOne (cl p k : Nat) (had : Bool) (s : State) : State × Nat :=
  let n := poolBlocks s cl p
  if k = 12 ∧ 0 < n ∧ blockClaimed s cl p (n - 1) = false then
    (setBlock cl p (n - 1) true s, claimWord 0 0 (n - 1) (blockOff s cl p (n - 1)))
  else
    match freeBlock s cl p with
    | some b => (setBlock cl p b true s, claimWord 0 0 b (blockOff s cl p b))
    | none => (s, claimWord 0x61 (if had then 0x12 else 0x11) 0 0)

/-- R225: the claims of one cycle: the words returned, in the order of the claimants given. -/
def claimBlocks (cl p : Nat) (ks : List Nat) (s : State) : State × List Nat :=
  let had := (freeBlock s cl p).isSome
  (rankOrder s ks).foldl (fun r i =>
    let one := claimOne cl p (nth 13 ks i) had r.1
    (one.1, setNth r.2 i one.2)) (s, ks.map (fun _ => claimWord 0x61 0x11 0 0))

/-- R224: a block number stored to RELEASE by an agent; only the cluster's own agents reach the line. -/
def releaseBlock (cl p b : Nat) (s : State) : State :=
  if b < poolBlocks s cl p ∧ blockClaimed s cl p b then setBlock cl p b false s else setOn s (poolErr cl p)

/-! ## Marker lines (R561) -/

/-- One marker of course `slot` of core `k` of cluster `cl`, with whether an entry was free at the start of the cycle. -/
def markOne (cl k slot : Nat) (had : Bool) (s : State) : State × Nat :=
  let g := 12 * cl + k
  let tags := consortTags s g (courseOf s g slot).consort
  let sched := (castingOf s (castingOfCourse s g slot)).sched
  if !traceTakes s cl 0x0A then (s, 0)
  else if (traceUnit s cl).fifo.length < 255 then
    (traceEvent cl 0x0A g sched tags.1 tags.2 (tget 0 s.trc.markers g) s, 0)
  else (s, claimWord 0x61 (if had then 0x12 else 0x16) 0 0)

/-- R561: the markers of one cycle, by core and course slot: the words returned. -/
def markAll (cl : Nat) (ks : List (Nat × Nat)) (s : State) : State × List Nat :=
  let had := decide ((traceUnit s cl).fifo.length < 255)
  (rankOrder s (ks.map Prod.fst)).foldl (fun r i =>
    let one := markOne cl (nth (13, 0) ks i).1 (nth (13, 0) ks i).2 had r.1
    (one.1, setNth r.2 i one.2)) (s, ks.map (fun _ => 0))

/-! ## Words returned to courses -/

/-- Whether a word is an LD.V into vector register `dst` (R110). -/
def isLdV (dst w : Nat) : Bool := decide (bits w 63 54 = 0x1C2) && decide (bits w 53 53 = 0) && decide (bits w 44 37 = dst)

/-- Whether a course can perform a claim's LD.V into the pair at `dst` in lane `l` now. -/
def claimReady (s : State) (g slot l dst : Nat) : Bool :=
  courseReady s g slot && (fetchedWords s g slot).any (isLdV dst) && decide (l < 32) && (courseOf s g slot).active.getLsbD l && decide (dst % 2 = 0) &&
    decide (dst + 2 ≤ (consortOf s g (courseOf s g slot).consort).ra) && decide ((courseOf s g slot).pour = .closed)

/-- The 8 B word a claim's LD.V returns reaches its lane. -/
def giveWord (g slot l dst w : Nat) (s : State) : State :=
  let c := courseOf s g slot
  let m := BitVec.ofNat 32 (2 ^ l)
  setCourse s g slot (setV (setV c dst m (fun _ => BitVec.ofNat 32 w)) (dst + 1) m (fun _ => BitVec.ofNat 32 (w / 2 ^ 32)))

/-- The courses named, each once. -/
def distinct (xs : List (Nat × Nat)) : List (Nat × Nat) := xs.foldl (fun a x => if a.contains x then a else a ++ [x]) []

/-- Each course whose LD.V has been performed goes on. -/
def retireAll (cs : List (Nat × Nat)) (s : State) : State :=
  (distinct cs).foldl (fun s c => countCore c.1 0x0D 1 (retire c.1 c.2 (courseOf s c.1 c.2) s)) s

/-- POOL_CLAIM (R225): the claims of one cycle on a pool of cluster `cl`. -/
def execPoolClaim (cl p : Nat) (cs : List PoolClaim) (s : State) : Out := whenOn s <|
  let ok := cs.filter (fun c => decide (c.core = 12) || (decide (c.core < 12) && claimReady s (12 * cl + c.core) c.slot c.lane c.dst))
  .next (
    if 16 ≤ cl ∨ 4 ≤ p then s
    else
      let r := claimBlocks cl p (ok.map (fun c => c.core)) s
      let s := (ok.zip r.2).foldl (fun s x =>
        if x.1.core = 12 then s else giveWord (12 * cl + x.1.core) x.1.slot x.1.lane x.1.dst x.2 s) r.1
      retireAll ((ok.filter (fun c => decide (c.core < 12))).map (fun c => (12 * cl + c.core, c.slot))) s)

/-- POOL_RELEASE (R224): `agent` is the core or control core that stores. -/
def execPoolRelease (cl p agent b : Nat) (s : State) : Out := whenOn s <|
  .next (
    if 16 ≤ cl ∨ 4 ≤ p then s
    else if agent = agEngine cl 7 ∨ (agent < 192 ∧ agent / 12 = cl) then releaseBlock cl p b s else s)

/-- MARKER (R561): the markers of one cycle. -/
def execMarker (cl : Nat) (cs : List LineClaim) (s : State) : Out := whenOn s <|
  let ok := cs.filter (fun c => decide (c.core < 12) && claimReady s (12 * cl + c.core) c.slot c.lane c.dst)
  .next (
    if 16 ≤ cl then s
    else
      let r := markAll cl (ok.map (fun c => (c.core, c.slot))) s
      let s := (ok.zip r.2).foldl (fun s x => giveWord (12 * cl + x.1.core) x.1.slot x.1.lane x.1.dst x.2 s) r.1
      retireAll (ok.map (fun c => (12 * cl + c.core, c.slot))) s)

end Sys2Proof.Machine
end

