-- ==== Sys2Proof/Machine/SprueOps.lean ====
section
/-!
DEFINITION. Sprue descriptors, their check, claims of channels, and the ends of transfers (R358 to R379).
-/
namespace Sys2Proof.Machine

/-! ## The descriptor (R360) -/

/-- SRC. -/
def dSrc (d : List Byte) : Nat := fieldOf d 0 8
/-- DST. -/
def dDst (d : List Byte) : Nat := fieldOf d 8 8
/-- ROW_BYTES. -/
def dRowBytes (d : List Byte) : Nat := fieldOf d 16 4
/-- ROWS. -/
def dRows (d : List Byte) : Nat := fieldOf d 20 4
/-- SRC_PITCH. -/
def dSrcPitch (d : List Byte) : Nat := fieldOf d 24 4
/-- DST_PITCH. -/
def dDstPitch (d : List Byte) : Nat := fieldOf d 28 4
/-- STRIPE_ROWS. -/
def dStripe (d : List Byte) : Nat := fieldOf d 32 4
/-- ENGINES, as a list. -/
def dEngines (d : List Byte) : List Nat := bitList (fieldOf d 36 4) 17
/-- CHARGE. -/
def dCharge (d : List Byte) : Nat := fieldOf d 40 2
/-- Source space. -/
def dSrcSpace (d : List Byte) : Nat := fieldOf d 42 1 % 4
/-- Destination space. -/
def dDstSpace (d : List Byte) : Nat := fieldOf d 42 1 / 4 % 4
/-- A bit of FLAGS: 0 TRANSACT, 1 GANG, 2 SEM_EN, 3 POISON_CONT, 4 PRELOAD. -/
def dFlag (d : List Byte) (i : Nat) : Bool := bit (fieldOf d 43 1) i
/-- CHANNEL. -/
def dChannel (d : List Byte) : Nat := fieldOf d 45 1
/-- SEM_INDEX. -/
def dSem (d : List Byte) : Nat := fieldOf d 46 2
/-- SEM_VALUE. -/
def dSemValue (d : List Byte) : Nat := fieldOf d 48 4
/-- STATUS_ADDR. -/
def dStatus (d : List Byte) : Nat := fieldOf d 56 8

/-- How many stripes a transfer has: 1 when STRIPE_ROWS is 0. -/
def dStripes (d : List Byte) : Nat := if dStripe d = 0 then 1 else (dRows d + dStripe d - 1) / dStripe d
/-- The first row of stripe `i`. -/
def stripeFirst (d : List Byte) (i : Nat) : Nat := i * dStripe d
/-- The rows of stripe `i` (R374). -/
def stripeRows (d : List Byte) (i : Nat) : Nat :=
  if dStripe d = 0 then dRows d else min (dStripe d) (dRows d - i * dStripe d)

/-- The destination lines of rows `first` to `first + n − 1`, each once; more than 64 are cut to 65 (R326, R364). -/
def dstLines (d : List Byte) (first n : Nat) : List Nat :=
  let rows := if dDstPitch d = 0 then min n 1 else n
  if 8192 < rows ∨ 8192 < dRowBytes d then List.range 65
  else
    ((List.range rows).foldl (fun acc r =>
      if 64 < acc.length then acc
      else
        let a := dDst d + (first + r) * dDstPitch d
        (List.range ((a + dRowBytes d - 1) / 128 + 1 - a / 128)).foldl (fun acc k =>
          if acc.contains (a / 128 + k) then acc else acc ++ [a / 128 + k]) acc) []).take 65

/-- R364, R375: the check of a descriptor started on channel `ch` of engine `e`; `start` is 0 for the host, 1 for the
command stream, 2 for a submit line, 3 for firmware. -/
def descOk (e ch start : Nat) (d : List Byte) : Bool :=
  let es := dEngines d
  let spaces := [dSrcSpace d, dDstSpace d]
  let tr := dFlag d 0 || dFlag d 1
  decide (fieldOf d 36 4 < 2 ^ 17) && decide (fieldOf d 42 1 < 16) && decide (fieldOf d 43 1 < 32) && decide (fieldOf d 44 1 < 4) &&
  decide (fieldOf d 45 1 < 16) && decide (fieldOf d 46 2 < 2 ^ 14) && decide (fieldOf d 52 4 = 0) &&
  decide (1 ≤ dRowBytes d) && decide (1 ≤ dRows d) && decide (dStatus d % 16 = 0) && decide (dChannel d = ch) &&
  spaces.all (fun x => decide (x < 3) && (decide (x ≠ 1) || decide (e < 16)) && (decide (x ≠ 2) || decide (start = 2))) &&
  (decide (dSrcSpace d ≠ 1) || decide (dSrc d < 2 ^ 24)) && (decide (dDstSpace d ≠ 1) || decide (dDst d < 2 ^ 24)) &&
  (if dStripe d = 0 then decide (es = [e])
   else decide (es.length = dStripes d) && decide (2 ≤ dStripes d) && decide (dStripes d ≤ 16) && decide (es.head? = some e) &&
     (decide (dChannel d ≤ 7) || !es.any (fun x => decide (x < 16)))) &&
  !(dFlag d 4 && (tr || decide (dDst d ≠ 0))) &&
  !(es.contains 16 && spaces.contains 1) &&
  (!tr || (List.range (min (dStripes d) 17)).all (fun i => decide ((dstLines d (stripeFirst d i) (stripeRows d i)).length ≤ 64))) &&
  (!dFlag d 0 || decide (dStripe d = 0)) && (!dFlag d 1 || decide (dStripe d ≠ 0)) && (!tr || decide (dDstSpace d ≠ 2))

/-! ## Claims (R365 to R368, R374) -/

/-- Whether a channel is free. -/
def chanFree (s : State) (e ch : Nat) : Bool := decide ((chanOf s e ch).phase = .free)

/-- Whether every channel a descriptor needs is free; the engine's own only where `own`. -/
def chansFree (s : State) (ch : Nat) (d : List Byte) : Bool := (dEngines d).all (fun x => chanFree s x ch)

/-- Whether some engine a descriptor names is stopped (R377: starts wait). -/
def anyStopped (s : State) (d : List Byte) : Bool := (dEngines d).any (fun x => isOn s (sprStopped x))

/-- R374: a transfer begins on its channels. -/
def startTransfer (ch : Nat) (base : Chan) (s : State) : State :=
  let d := base.desc
  let es := dEngines d
  (List.range es.length).foldl (fun s i =>
    let x := nth 0 es i
    let s := if x < 16 then toRun x s else s
    setOn (setChan s x ch { base with
      phase := .running, stripe := i, leader := nth 0 es 0
      results := if i = 0 then List.replicate es.length none else [] }) (sprBusy x ch)) s

/-- How a transfer's own accesses are made. -/
def chanAccess (s : State) (e ch : Nat) : Acc2 :=
  let c := chanOf s e ch
  ⟨.chan e ch, c.ctx, agSprue e, (match c.casting with | some k => (castingOf s k).sched | none => false),
    if e < 16 then some e else none⟩

/-! ## Status words and ends (R371 to R374, R379) -/

/-- R372: a status word. -/
def wordBytes (e : Ending) (cause bitmap done : Nat) : List Byte :=
  leBytes 1 e.st ++ leBytes 1 e.code ++ leBytes 1 e.sub ++ leBytes 1 cause ++ leBytes 2 bitmap ++ leBytes 2 e.agent ++ leBytes 8 done

/-- R595: a channel's status word is written in the transfer's context. -/
def writeWord (e ch : Nat) (x : Ending) (cause bitmap : Nat) (s : State) : State :=
  let c := chanOf s e ch
  postWrite 1 c.ctx (dStatus c.desc + 16 * c.stripe) (wordBytes x cause bitmap c.done) (agSprue e) s

/-- The channel shows its last end and is free. -/
def releaseChan (e ch : Nat) (x : Ending) (s : State) : State :=
  let c := chanOf s e ch
  let s := setOff (setF (setF s (sprLastCode e ch) x.code) (sprLastSub e ch) x.sub) (sprBusy e ch)
  let s := if c.starter = 2 ∧ (dSrcSpace c.desc = 2 ∨ dDstSpace c.desc = 2) then
      lateExit c.core c.course (setCourse s c.core c.course
        { courseOf s c.core c.course with copies := (courseOf s c.core c.course).copies - 1 }) else s
  endWaits (.chan e ch) (unlockAll (0x10000 + 32 * e + ch) (dropToken (0x10000 + 32 * e + ch) (setChan s e ch {})))

/-- R379, R200: a transfer of a command stream has ended: its command is done, or its casting ends. -/
def streamEnd (cl pos : Nat) (casting : Option Nat) (x : Ending) (s : State) : State :=
  if x.code = 0 then
    let c := clusterOf s cl
    setCluster s cl { c with queues := tset [] c.queues 2 ((tget [] c.queues 2).map (fun m =>
      if m.pos = pos then { m with done := true } else m)) }
  else
    match casting with
    | some k => failCasting k { x with st := if x.st = stDone then stFault else x.st } s
    | none => s

/-- R379: the end of a transfer as its command sees it: a partial one ends as its lowest failed stripe did. -/
def transferEnd (x : Ending) (rs : List (Option Ending)) : Ending :=
  if x.code = 1 then
    match rs.find? (fun r => match r with | some e => decide (e.code ≠ 0) | none => false) with
    | some (some e) => { e with st := stFault }
    | _ => x
  else x

/-- R373: the semaphore of a transfer that ended OK. -/
def transferSem (d : List Byte) (x : Ending) (s : State) : State :=
  if dFlag d 2 ∧ x.code = 0 then semaAdd (dSem d) (dSemValue d) s else s

/-- The sph channels that copy chunks for queue `q`'s MIGRATE or PRELOAD (R345, R347). -/
def chunkChans (s : State) (q : Nat) : List Nat :=
  (List.range 16).filter (fun ch => let c := chanOf s 16 ch
    decide (c.phase ≠ .free) && decide (c.starter = 3) && decide (c.course = q))

/-- The chunk channels of a queue's command are freed. -/
def dropChunks (q : Nat) (s : State) : State :=
  (chunkChans s q).foldl (fun s ch => endWaits (.chan 16 ch) (setOff (setChan s 16 ch {}) (sprBusy 16 ch))) s

/-- R347: a chunk of queue `q`'s command ends otherwise than OK: the command ends in state FAULT with the code of the
cause; FAULT_ADDR holds the SRC address of the lowest chunk that is not complete. -/
def chunkFail (q : Nat) (x : Ending) (s : State) : State :=
  let low := (chunkChans s q).foldl (fun a ch => min a (chanOf s 16 ch).pos) (2 ^ 32)
  let addr := match headCmd s q with
    | some c => if cOp c = 3 then fieldOf c.bytes 24 8 + 0x200000 * low else x.addr
    | none => x.addr
  endCommand q ⟨stFault, x.code, x.sub, x.agent, addr⟩ 0 (dropChunks q s)

/-- R371 to R374: stripe `c` of a transfer ends with `x` (a chunk of a command that is draining ends with it, R59): it writes its word; a leader of stripes keeps its channel until
every stripe has written its word. -/
def endChan (e ch : Nat) (x : Ending) (cause : Nat) (s : State) : State :=
  let c := chanOf s e ch
  if c.phase = .free then s
  else if c.starter = 3 then
    (if x.code = 0 ∨ (headCmd s c.course).any (fun m => decide (m.draining ≠ 0)) then releaseChan e ch x s else chunkFail c.course x s)
  else if dStripe c.desc = 0 then
    let s := transferSem c.desc x (writeWord e ch x cause (b2n (decide (x.code = 0))) s)
    let s := releaseChan e ch x s
    if c.starter = 1 ∧ c.stopping = false then streamEnd c.leader c.pos c.casting x s else s
  else
    let s := writeWord e ch x cause 0 s
    let l := chanOf s c.leader ch
    let s := if l.phase = .free then s
      else setChan s c.leader ch { l with results := setNth l.results c.stripe (some x) }
    if c.leader = e then setChan s e ch { chanOf s e ch with phase := .wordDone } else releaseChan e ch x s

/-- R327, R375, R377: a gang aborts with `x`: every stripe's word holds it, names the stripe that caused it, and the
channels are released. -/
def gangAbort (e ch : Nat) (x : Ending) (s : State) : State :=
  let c := chanOf s e ch
  let s := (dEngines c.desc).foldl (fun s k =>
    if (chanOf s k ch).desc = c.desc then releaseChan k ch x (writeWord k ch x c.stripe 0 s) else s) s
  if c.starter = 1 ∧ c.stopping = false then streamEnd c.leader c.pos c.casting x s else s

/-- The end of a channel's transfer before its commit point: a gang ends as a whole. -/
def endXfer (e ch : Nat) (x : Ending) (s : State) : State :=
  if dFlag (chanOf s e ch).desc 1 then gangAbort e ch x s else endChan e ch x 0xFF s

/-- POUR_ABORT with a reason (R326, R327). -/
def chanAbortEnd (e reason : Nat) : Ending := faultEnd 0x50 reason (agSprue e) 0

/-- R377: an error response to a channel's read or write stops every channel of its engine. -/
def busError (e ch : Nat) (write : Bool) (code sub : Nat) (s : State) : State :=
  (ch :: (List.range 16).filter (fun k => decide (k ≠ ch))).foldl (fun s k =>
    match (chanOf s e k).phase with
    | .running | .staged | .locking =>
      endXfer e k (if write ∧ k ≠ ch then faultEnd 0x31 0x12 (agSprue e) 0 else faultEnd code sub (agSprue e) 0) s
    | _ => s) (setOn s (sprStopped e))

/-- R326: a conflict: the locks are released, and the engine reads the source again on its own. -/
def chanConflict (e ch : Nat) (s : State) : State :=
  let c := chanOf s e ch
  unlockAll (0x10000 + 32 * e + ch) (setChan s e ch { c with phase := .running, ladle := [], asked := none, aborts := c.aborts + 1 })

/-- The end a channel reports when it is drained or killed (R378). -/
def chanDrainEnd (host killed : Bool) (e : Nat) : Ending :=
  ⟨if host then stAborted else stTimeout, if killed then 0x11 else 0x10, if host then 0x11 else 0, agSprue e, 0⟩

/-! ## Submit lines (R366, R367) -/

/-- The place of a submit line's bytes in the table of staged descriptors. -/
def submitAt (cl ch k : Nat) : Nat := cl * 2 ^ 25 + 0x01008000 + 0x800 * (ch - 2) + 0x80 * k

/-- The consort memory a CMEM transfer reaches must lie within the consort's allocation (R362). -/
def cmemFits (s : State) (g slot : Nat) (d : List Byte) : Bool :=
  let lim := (consortOf s g (courseOf s g slot).consort).ca * 1024
  (decide (dSrcSpace d ≠ 2) || decide (dSrc d + (dRows d - 1) * dSrcPitch d + dRowBytes d ≤ lim)) &&
  (decide (dDstSpace d ≠ 2) || decide (dDst d + (dRows d - 1) * dDstPitch d + dRowBytes d ≤ lim))

/-- CMEM_RANGE (R86). -/
def cmemEnd (g : Nat) : Ending := protEnd 0x14 g 0

/-- R366, R367: one claim of a submit line by course `slot` of core `k`; `free` says whether the channel was free when
the cycle began. -/
def submitOne (cl ch k slot : Nat) (free : Bool) (s : State) : State × Nat :=
  let g := 12 * cl + k
  let d := rdList s.spr.staged (submitAt cl ch k) 64
  if !descOk cl ch 2 d then (failCourse g slot (protEnd 0x11 (agEngine cl 6) 0) s, claimWord 0x22 0x11 0 0)
  else if !cmemFits s g slot d then (failCourse g slot (cmemEnd g) s, claimWord 0x22 0x14 0 0)
  else if !free || (tget [] s.spr.waiting cl).contains ch then (s, claimWord 0x61 0x14 0 0)
  else if !chanFree s cl ch then (s, claimWord 0x61 0x12 0 0)
  else if !chansFree s ch d then (s, claimWord 0x61 0x14 0 0)
  else
    let kk := castingOfCourse s g slot
    let s := startTransfer ch { desc := d, starter := 2, core := g, course := slot, ctx := (castingOf s kk).ctx, casting := some kk } s
    (if dSrcSpace d = 2 ∨ dDstSpace d = 2 then
      setCourse s g slot { courseOf s g slot with copies := (courseOf s g slot).copies + 1 } else s, 0)

/-- R367: the claims of one cycle on one channel, by core and course slot. -/
def submitAll (cl ch : Nat) (ks : List (Nat × Nat)) (s : State) : State × List Nat :=
  let free := chanFree s cl ch
  (rankOrder s (ks.map Prod.fst)).foldl (fun r i =>
    let one := submitOne cl ch (nth (13, 0) ks i).1 (nth (13, 0) ks i).2 free r.1
    (one.1, setNth r.2 i one.2)) (s, ks.map (fun _ => 0))

/-- SUBMIT_GO (R366): the claims of one cycle on channel `ch` of sp`cl`. -/
def execSubmitGo (cl ch : Nat) (cs : List LineClaim) (s : State) : Out := whenOn s <|
  let ok := cs.filter (fun c => decide (c.core < 12) && claimReady s (12 * cl + c.core) c.slot c.lane c.dst)
  .next (
    if 16 ≤ cl ∨ ch < 2 ∨ 8 ≤ ch ∨ isOn s (sprStopped cl) then s
    else
      let r := submitAll cl ch (ok.map (fun c => (c.core, c.slot))) s
      let alive := ok.zip r.2 |>.filter (fun x => (courseOf r.1 (12 * cl + x.1.core) x.1.slot).live)
      let s := alive.foldl (fun s x => giveWord (12 * cl + x.1.core) x.1.slot x.1.lane x.1.dst x.2 s) r.1
      retireAll (alive.map (fun x => (12 * cl + x.1.core, x.1.slot))) s)

end Sys2Proof.Machine
end

