-- ==== Sys2Proof/Machine/CoreMemOps.lean ====
section
/-!
DEFINITION. How a core's accesses reach memory: consort memory, the L1, the tundish, the control range, pours, host
memory and windows (R86, R110 to R122, R238 to R244, R288, R309 to R324, R366).
-/
namespace Sys2Proof.Machine

/-! ## The L1 (R238 to R243) -/

/-- The tag of a device line under its KEYSEL. -/
def l1Dev (dpa : Nat) : Nat := dpa / 128
/-- The tag of a host line. -/
def l1Host (pa : Nat) : Nat := 2 ^ 64 + pa / 128
/-- An empty L1 way. -/
def noL1 : L1Line := ⟨0, 0, []⟩
/-- The way of core `g`'s L1 that holds a tag. -/
def l1Find (s : State) (g tag : Nat) : Option Nat :=
  ((List.range 8).map (fun w => tag % 128 * 8 + w)).find? (fun k =>
    let x := tget noL1 (coreOf s g).l1 k
    decide (x.tag = tag) && !x.data.isEmpty)
/-- The data of a line in the L1. -/
def l1Data (s : State) (g k : Nat) : List Byte := (tget noL1 (coreOf s g).l1 k).data
/-- A line of the L1 is used, or set to an age. -/
def l1Age (g k age : Nat) (s : State) : State :=
  setCore s g { coreOf s g with l1 := tset noL1 (coreOf s g).l1 k { tget noL1 (coreOf s g).l1 k with age := age } }
/-- Fill a line of the L1 (R242, R243). -/
def l1Fill (g tag age : Nat) (data : List Byte) (s : State) : State :=
  let t := (coreOf s g).l1
  let set := tag % 128 * 8
  match pickVictim ((List.range 8).map (fun w =>
      let x := tget noL1 t (set + w)
      (true, !x.data.isEmpty, x.age))) with
  | none => s
  | some (w, rise) =>
    let t := if rise = 0 then t else (List.range 8).foldl (fun t k =>
      let x := tget noL1 t (set + k)
      if x.data.isEmpty then t else tset noL1 t (set + k) { x with age := x.age + rise }) t
    setCore s g { coreOf s g with l1 := tset noL1 t (set + w) ⟨tag, age, data⟩ }
/-- R114, R242: a store updates a line that is present; a hit sets AGE 0, and a store allocates nothing here, so that its HINT
has no line to mark (R112). -/
def l1Store (g tag off : Nat) (bs : List Byte) (s : State) : State :=
  match l1Find s g tag with
  | none => s
  | some k =>
    let x := tget noL1 (coreOf s g).l1 k
    setCore s g { coreOf s g with l1 := tset noL1 (coreOf s g).l1 k ⟨tag, 0, putAt x.data off bs⟩ }
/-- R119, R241: every line of the L1 is invalidated; a fill in flight still answers the loads merged into it, but it is not
installed, and no later load merges into it. -/
def l1Clear (g : Nat) (s : State) : State :=
  setCore s g { coreOf s g with l1 := [], miss := (coreOf s g).miss.map (fun m => { m with install := false, fresh := false }) }
/-- R317: a line leaves the L1. -/
def l1Drop (g tag : Nat) (s : State) : State :=
  match l1Find s g tag with
  | none => s
  | some k => setCore s g { coreOf s g with l1 := tdel (coreOf s g).l1 k }

/-- R242: the age of a fill under a HINT. -/
def hintAge (hint : Nat) : Nat := if hint = 1 then 3 else 1

/-! ## The control range (R187, R224, R366, R561) -/

/-- What a word of the control range is to a core of its own cluster. -/
inductive Ctrl where
  | claim (pool : Nat)
  | release (pool : Nat)
  | free (pool : Nat)
  | staged (ch off : Nat)
  | go (ch : Nat)
  | markArg
  | mark
  | other
  deriving DecidableEq, Repr

/-- The control word at an aperture offset, for core `k` of the cluster. -/
def ctrlAt (off k : Nat) : Ctrl :=
  if off < 0x01000200 then
    let p := (off - 0x01000000) / 0x80
    let w := (off - 0x01000000) % 0x80
    if w = 0 then .claim p else if w = 8 then .release p else if 0x10 ≤ w ∧ w < 0x18 then .free p else .other
  else if 0x01008000 ≤ off ∧ off < 0x0100B000 then
    let ch := 2 + (off - 0x01008000) / 0x800
    let r := (off - 0x01008000) % 0x800
    if r / 0x80 ≠ k then .other
    else if r % 0x80 < 64 then .staged ch (r % 0x80) else if r % 0x80 = 64 then .go ch else .other
  else if 0x0100C000 ≤ off ∧ off < 0x0100C600 then
    if (off - 0x0100C000) / 0x80 ≠ k then .other
    else if (off - 0x0100C000) % 0x80 = 0 then .mark else if (off - 0x0100C000) % 0x80 = 8 then .markArg else .other
  else .other

/-- The control word that a device address names for core `g`; none outside its own cluster's control range. -/
def ctrlOf (g : Nat) (t : Target) : Option Ctrl :=
  match t with
  | .dev dpa => (match placeOf (locOf dpa) with
      | .scratch cl off => if 0x01000000 ≤ off ∧ cl = clOf g then some (ctrlAt off (g % 12)) else none
      | _ => none)
  | _ => none

/-- Whether an LD.V of 8 B at a control word is a claim (R224, R366, R561). -/
def isClaim (vol : Bool) (n : Nat) : Option Ctrl → Bool
  | some (.claim _) | some (.go _) | some .mark => vol && decide (n = 8)
  | _ => false

/-- A claim by one course: the word it returns. -/
def ctrlClaim (g slot : Nat) (c : Option Ctrl) (s : State) : State × Nat :=
  let k := g % 12
  let one := fun (r : State × List Nat) => (r.1, nth 0 r.2 0)
  match c with
  | some (.claim p) => one (claimBlocks (clOf g) p [k] s)
  | some (.go ch) => one (submitAll (clOf g) ch [(k, slot)] s)
  | some .mark => one (markAll (clOf g) [(k, slot)] s)
  | _ => (s, 0)

/-- An ordinary read of a control word. -/
def ctrlRead (s : State) (g n off : Nat) : Ctrl → List Byte
  | .free p =>
    let v := getF s (poolFree (clOf g) p) + 2 ^ 16 * getF s (poolReserve (clOf g) p) + 2 ^ 17 * getF s (poolErr (clOf g) p)
    ((leBytes 8 v).drop (off % 8)).take n
  | .staged ch o => rdList s.spr.staged (submitAt (clOf g) ch (g % 12) + o) n
  | _ => List.replicate n 0

/-- A store to a control word. -/
def ctrlWrite (g : Nat) (bs : List Byte) (s : State) : Ctrl → State
  | .release p => if bs.length = 4 then releaseBlock (clOf g) p (leNat bs) s else s
  | .staged ch o => { s with spr := { s.spr with staged := wrList s.spr.staged (submitAt (clOf g) ch (g % 12) + o) bs } }
  | .markArg => if bs.length = 8 then { s with trc := { s.trc with markers := tset 0 s.trc.markers g (leNat bs) } } else s
  | _ => s

/-! ## Loads outside a pour -/

/-- Whether the tundishes may hold a place's lines. -/
def cacheable (dpa : Nat) : Bool :=
  match placeOf (locOf dpa) with | .hbm _ | .raw _ _ | .view _ _ => true | _ => false

/-- A held access posts a wake request (R191). -/
def heldWake (dpa : Nat) (s : State) : State :=
  match placeOf (locOf dpa) with
  | .scratch cl _ => if chilled s cl then postWake cl s else s
  | _ => s

/-- The coherence line of a target, as the tables of line states number it. -/
def cohLine (t : Target) : Nat :=
  match t with
  | .dev dpa => lineOf (locOf dpa)
  | .host pa => hostLine pa
  | .win _ _ => 0

/-- The host coherence bridge takes up a host line whose data have come (R281, R286). -/
def bridgeTake (line : Nat) (bs : List Byte) (s : State) : State :=
  let s := enterDir line s
  { s with mm := { s.mm with
    bridge := if s.mm.bridge.contains line then s.mm.bridge else s.mm.bridge ++ [line]
    host := wrList s.mm.host (128 * (line - 2 ^ 57)) bs } }

/-- R286: a host line for the device's caches: held already, or obtained by the host coherence bridge, which keeps a failed
read's code and subcode for one who asked.  With Bus Master Enable 0 the read ends as R440 says. (DEDUCED, log entry 99.) -/
def obtainHost (ag pa va : Nat) (s : State) : State × Got Unit :=
  let line := hostLine pa
  if dirLive s line then (s, .ok ())
  else
    match s.xl.reads.find? (fun r => decide (r.who = .bridge line)) with
    | some r =>
      if !r.back then (s, .wait)
      else
        ({ s with xl := { s.xl with reads := s.xl.reads.filter (fun x => decide (x.tag ≠ r.tag)) } },
          .fail (faultEnd (nth 0x30 r.args 0) (nth 0x12 r.args 1) agHost va))
    | none =>
      if dirFull s line then (s, .wait)
      else if !s.hpt.bme then (s, .fail (faultEnd 0x31 0x13 ag va))
      else (sendRead (.bridge line) (pa / 128 * 128) va 128 [] s, .wait)

/-- The miss register of core `g` for a tag (R239). -/
def missOf (s : State) (g tag : Nat) : Option Miss := (coreOf s g).miss.find? (fun m => decide (m.tag = tag))

/-- Replace it. -/
def setMiss (g : Nat) (m : Miss) (s : State) : State :=
  setCore s g { coreOf s g with miss := (coreOf s g).miss.map (fun x => if x.tag = m.tag then m else x) }

/-- A free miss register is taken by a primary miss, and its request is sent (R239). -/
def missNew (g : Nat) (m : Miss) (s : State) : State :=
  sendRead (.miss g m.tag) m.pa m.va 128 [] (setCore s g { coreOf s g with miss := (coreOf s g).miss ++ [m] })

/-- The answer to a course's load of a host line (R239). -/
def lineAnswer (s : State) (g slot pa : Nat) : Option OutRead :=
  s.xl.reads.find? (fun r => decide (r.who = .course g slot) && decide (r.pa = pa / 128 * 128) && decide (r.len = 128) && r.back)

/-- R239 to R241: a load of a host line that the device does not hold and the L1 has not: it takes a miss register, merges into
a busy one, or waits. -/
def missAsk (g slot hint pa va : Nat) (s : State) : State × Got Unit :=
  let tag := l1Host pa
  match lineAnswer s g slot pa with
  | some r => (s, if r.ep then .fail (faultEnd 0x30 0x12 agHost va) else .ok ())
  | none =>
    match missOf s g tag with
    | some m =>
      if m.courses.contains slot then (s, .wait)
      else if m.fresh ∧ m.loads < 9 then
        (countCore g 0x08 1 (setMiss g { m with
          courses := m.courses ++ [slot], loads := m.loads + 1, install := m.install || decide (hint ≠ 2) } s), .wait)
      else (s, .wait)
    | none =>
      if 64 ≤ (coreOf s g).miss.length then (s, .wait)
      else if !s.hpt.bme then (s, .fail (faultEnd 0x31 0x13 g va))
      else
        (missNew g ⟨tag, pa / 128 * 128, va, [slot], 1, decide (hint ≠ 2), true, hintAge hint⟩ (countCore g 0x07 1 s), .wait)

/-- R239, R241: a fill answers every load merged into its miss register, and installs its line where one of them fills. -/
def missDone (g tag : Nat) (ep : Bool) (data : List Byte) (s : State) : State :=
  match missOf s g tag with
  | none => s
  | some m =>
    let s := setCore s g { coreOf s g with miss := (coreOf s g).miss.filter (fun x => decide (x.tag ≠ tag)) }
    let s := m.courses.foldl (fun s slot => { s with xl := { s.xl with
      reads := s.xl.reads ++ [⟨s.xl.nextTag, .course g slot, m.pa, m.va, 128, true, ep, data, []⟩]
      nextTag := s.xl.nextTag + 1 } }) s
    if m.install && !ep then l1Fill g tag m.age data s else s

/-- R440: a fill that fails ends the castings of the loads merged into its miss register. -/
def missFail (g tag : Nat) (e : Ending) (s : State) : State :=
  match missOf s g tag with
  | none => s
  | some m =>
    m.courses.foldl (fun s slot => failCourse g slot e s)
      (setCore s g { coreOf s g with miss := (coreOf s g).miss.filter (fun x => decide (x.tag ≠ tag)) })

/-- R240: a store to a line whose miss register is busy is held, and no later load merges into the register. -/
def missHolds (g : Nat) (t : Target) (s : State) : State × Bool :=
  match t with
  | .host pa =>
    (match missOf s g (l1Host pa) with
     | some m => (setMiss g { m with fresh := false } s, true)
     | none => (s, false))
  | _ => (s, false)

/-- A load that reads through the L1 and the tundish, or past the L1 (R112, R113). -/
def loadTarget (g slot hint : Nat) (vol : Bool) (a : Acc2) (t : Target) (va n : Nat) (s : State) : State × Got (List Byte) :=
  let can := some (clOf g)
  let crs := some (64 * g + slot)
  let own := ownLock s g slot
  match t with
  | .win w off => winAccess a .rdReq w off va [] n 0 s
  | .dev dpa =>
    let l1 := if vol || decide (hint = 2) || !cacheable dpa then none else l1Find s g (l1Dev dpa)
    (match l1 with
     | some k => (countCore g 0x06 1 (l1Age g k 0 s), .ok (((l1Data s g k).drop (dpa % 128)).take n))
     | none =>
       if lineBusy s (lineOf (locOf dpa)) own can crs then (s, .wait)
       else
         match ctrlOf g t with
         | some w => (s, .ok (ctrlRead s g n (locOf dpa) w))
         | none =>
           let whole := cacheable dpa && !vol && decide (hint ≠ 2)
           let r := if whole then devRead s g (dpa / 128 * 128) 128 else devRead s g dpa n
           let s := readNote dpa r s
           match r with
           | .wait => (s, .wait)
           | .fail e => (s, .fail e)
           | .ok bs =>
             if !cacheable dpa then (s, .ok bs)
             else if vol then (readWhole (lineOf (locOf dpa)) (keyTurn dpa s), .ok bs)
             else
               let s := tunRead (clOf g) (lineOf (locOf dpa)) (hintAge hint) (countCore g 0x07 1 (keyTurn dpa s))
               if whole then (l1Fill g (l1Dev dpa) (hintAge hint) bs s, .ok ((bs.drop (dpa % 128)).take n)) else (s, .ok bs))
  | .host pa =>
    match (if vol || decide (hint = 2) then none else l1Find s g (l1Host pa)) with
    | some k => (countCore g 0x06 1 (l1Age g k 0 s), .ok (((l1Data s g k).drop (pa % 128)).take n))
    | none =>
      if lineBusy s (hostLine pa) own can crs then (s, .wait)
      else if vol then (if hostHeld s pa then (s, .ok (hostBytes s pa n)) else hostRead a pa va n [] s)
      else if s.hpt.cxlCache then
        match obtainHost g pa va s with
        | (s, .wait) => (s, .wait)
        | (s, .fail e) => (s, .fail e)
        | (s, .ok ()) =>
          let s := tunRead (clOf g) (hostLine pa) (hintAge hint) (countCore g 0x07 1 s)
          let bs := hostBytes s (pa / 128 * 128) 128
          (if hint = 2 then s else l1Fill g (l1Host pa) (hintAge hint) bs s, .ok ((bs.drop (pa % 128)).take n))
      else
        match missAsk g slot hint pa va s with
        | (s, .wait) => (s, .wait)
        | (s, .fail e) => (s, .fail e)
        | (s, .ok ()) =>
          (s, .ok (match lineAnswer s g slot pa with | some r => (r.data.drop (pa % 128)).take n | none => hostBytes s pa n))

/-! ## Rows of bytes -/

/-- Runs of bytes that do not cross a 128 B line: offset, address, length (at most `fuel` of them). -/
def linePieces : Nat → Nat → Nat → Nat → List (Nat × Nat × Nat)
  | 0, _, _, _ => []
  | fuel + 1, o, va, n =>
    if n = 0 then []
    else
      let k := min n (128 - va % 128)
      (o, va, k) :: linePieces fuel (o + k) ((va + k) % 2 ^ 64) (n - k)

/-- The pieces of a row of `n` bytes. -/
def rowPieces (va n : Nat) : List (Nat × Nat × Nat) := linePieces (n / 128 + 2) 0 va n

/-- R125, R211: whether one of some writes reaches the bytes of a piece. -/
def pieceRaced (ws : List WriteRec) (a : Acc2) (p : Nat × Nat × Nat) (s : State) : Bool :=
  match translate a p.2.1 false s with
  | (s, .ok ta) =>
    (match targetOf s ta with
     | .dev dpa => hits ws 0 (locOf dpa) p.2.2
     | .host pa => hits ws 1 pa p.2.2
     | .win _ _ => false)
  | _ => false

/-! ## Stores outside a pour -/

/-- Whether a store may be made now: its bars, and the host line it needs (R114, R240, R286). -/
def storeCheck (g slot : Nat) (a : Acc2) (t : Target) (va : Nat) (s : State) : State × Got Unit :=
  let own := ownLock s g slot
  match t with
  | .dev dpa =>
    if lineBusy s (lineOf (locOf dpa)) own (some (clOf g)) (some (64 * g + slot)) then (s, .wait)
    else
      match writeBar s g dpa with
      | .wait => (heldWake dpa s, .wait)
      | .fail e => (s, .fail e)
      | .ok () => (s, .ok ())
  | .host pa =>
    if lineBusy s (hostLine pa) own (some (clOf g)) (some (64 * g + slot)) then (s, .wait)
    else
      match missHolds g t s with
      | (s, true) => (s, .wait)
      | (s, false) => if s.hpt.cxlCache then obtainHost g pa va s else (s, .ok ())
  | .win w off =>
    match winBar s a.agent w off va with
    | .ok _ => (s, .ok ())
    | .wait => (s, .wait)
    | .fail e => (s, .fail e)

/-- The store of one lane, once it may be made. -/
def storeTarget (g slot hint : Nat) (a : Acc2) (t : Target) (va : Nat) (bs : List Byte) (s : State) : State :=
  let who := some (g, slot)
  match t with
  | .dev dpa =>
    (match ctrlOf g t with
     | some w => ctrlWrite g bs s w
     | none =>
       let line := lineOf (locOf dpa)
       let s := beforeWrite dpa bs.length who s
       let s := if cacheable dpa then tunWrite (clOf g) line (hintAge hint) (l1Store g (l1Dev dpa) (dpa % 128) bs s) else s
       putDev dpa bs false false s)
  | .host pa =>
    let s := noteWrite (hostLine pa) who (l1Store g (l1Host pa) (pa % 128) bs s)
    if s.hpt.cxlCache then putHost pa bs (tunWrite (clOf g) (hostLine pa) (hintAge hint) s) else hostWrite a.who pa bs s
  | .win w off =>
    match winBar s a.agent w off va with
    | .ok (dev, iwin, ioff, port) => sendWin a.who .wr port w va (winPacket s .wr dev iwin ioff bs.length (2 ^ 64 - 1) 0 bs) s
    | _ => s

/-! ## Pours: staging and the read set (R309 to R313, R322 to R324) -/

/-- The place of a line in the lock order (R314): own scratch, device memory, host memory.  The register lines of shadow groups,
its fourth class, are lines of firmware's pours alone (R313, R583), which are one step each (log entry 41). -/
def orderOf (t : Target) : Nat :=
  match t with
  | .dev dpa => (match placeOf (locOf dpa) with
      | .scratch _ off => off / 128
      | _ => 2 ^ 40 + locOf dpa / 128)
  | .host pa => 2 ^ 60 + pa / 128
  | .win _ _ => 0

/-- The coherence line of a place in the lock order, for a pour of cluster `cl`. -/
def realLine (cl o : Nat) : Nat :=
  if o < 2 ^ 40 then lineOf (aperLoc cl (128 * o)) else if o < 2 ^ 60 then o - 2 ^ 40 else 2 ^ 57 + (o - 2 ^ 60)

/-- The end of an access that aborts its pour (R319). -/
def pourAbortEnd (reason g va : Nat) : Ending := ⟨0, 0x50, reason, g, va⟩

/-- R313: what a pour's access meets at its target: nothing, an abort, or the casting's end. -/
def pourBar (s : State) (g : Nat) (t : Target) (va : Nat) (wr : Bool) : Option Ending :=
  let noncoh := some (pourAbortEnd 3 g va)
  match t with
  | .win _ _ => noncoh
  | .host _ => if s.hpt.cxlCache then none else noncoh
  | .dev dpa =>
    match placeOf (locOf dpa) with
    | .scratch cl off => if cl ≠ clOf g ∨ 0x01000000 ≤ off then noncoh else none
    | .sema _ _ => if wr then some (readOnlyEnd g va) else noncoh
    | _ =>
      match (tget 0 (coreOf s g).ladle.keys (lineOf (locOf dpa))) with
      | 0 => none
      | k + 1 => if k = keyselOf dpa then none else some (protEnd 0x22 g va)

/-- R315: the home locks a line for a pour of agent `who` (a core's number, or a channel's): every holder gives it up, an M
holder's data come home, and every other pour that has read the line aborts.  The lock is a conflict for no pour that has the line
locked, so not for its own. -/
def lockLine (who line : Nat) (s : State) : State :=
  let dirty := (holders (dirOf s line)).any (fun c => decide (lstateOf s c line = .M))
  let s := conflictIf (fun g _ => decide (g ≠ who)) line (invalidateOthers line none (some who) s)
  let s := setDir s line .U
  let s := if line < 2 ^ 57 then
      (if homed (128 * line) then
        countBase 0x08 (homeOf s (128 * line)) 1 (if dirty then cruInstall (128 * line) s else cruTouch (128 * line) 1 none s)
      else s)
    else bridgeTake line [] s
  setTxn s line { txnOf s line with locked := some who }

/-- R323: a serial pour locks a line when it first touches it. -/
def serialLock (g slot : Nat) (t : Target) (s : State) : State :=
  if (courseOf s g slot).pourSerial ∧ (txnOf s (cohLine t)).locked ≠ some g then lockLine g (cohLine t) s else s

/-- The ladle's bytes over those of memory. -/
def overlay (l : LadleLine) (off : Nat) (bs : List Byte) : List Byte :=
  (List.range bs.length).map (fun i => if bit l.enables (off + i) then tget 0 l.bytes (off + i) else nth 0 bs i)

/-- The offset of a target within its line. -/
def lineOff (t : Target) : Nat :=
  match t with
  | .dev dpa => dpa % 128
  | .host pa => pa % 128
  | .win _ off => off % 128

/-- The KEYSEL of a target. -/
def targetKey (t : Target) : Nat := match t with | .dev dpa => keyselOf dpa | _ => 0

/-- The line of a pour is noted: its KEYSEL (R313), and the read set for a load (R310). -/
def noteLine (g : Nat) (t : Target) (rd : Bool) (s : State) : State :=
  let l := (coreOf s g).ladle
  setCore s g { coreOf s g with ladle := { l with
    keys := tset 0 l.keys (cohLine t) (targetKey t + 1)
    readSet := if rd && !l.readSet.contains (cohLine t) then l.readSet ++ [cohLine t] else l.readSet } }

/-- The current bytes of a target for a pour's load. -/
def pourBytes (s : State) (g : Nat) (t : Target) (n : Nat) : Got (List Byte) :=
  match t with
  | .dev dpa => devRead s g dpa n
  | .host pa => .ok (hostBytes s pa n)
  | .win _ _ => .wait

/-- A load inside a pour (R310, R311). -/
def pourLoad (g slot : Nat) (a : Acc2) (t : Target) (va n : Nat) (s : State) : State × Got (List Byte) :=
  match pourBar s g t va false with
  | some e => (s, .fail e)
  | none =>
    let l := (coreOf s g).ladle
    if lineBusy s (cohLine t) (some g) (some (clOf g)) (some (64 * g + slot)) then
      ((match t with | .dev dpa => heldWake dpa s | _ => s), .wait)
    else if !l.readSet.contains (cohLine t) && decide (256 ≤ l.readSet.length) then (s, .fail (pourAbortEnd 2 g va))
    else
      match (match t with | .host pa => obtainHost a.agent pa va s | _ => (s, .ok ())) with
      | (s, .wait) => (s, .wait)
      | (s, .fail e) => (s, .fail e)
      | (s, .ok ()) =>
        let r := pourBytes s g t n
        let s := (match t with | .dev dpa => readNote dpa r s | _ => s)
        match r with
        | .wait => (s, .wait)
        | .fail e => (s, .fail (if e.code = 0x30 then pourAbortEnd 7 g va else e))
        | .ok bs =>
          let tracked := (match t with | .dev dpa => cacheable dpa | _ => true)
          let s := serialLock g slot t (match t with | .dev dpa => keyTurn dpa s | _ => s)
          let s := if tracked && !(courseOf s g slot).pourSerial then tunRead (clOf g) (cohLine t) 1 s else s
          if tracked && !(courseOf s g slot).pourSerial && decide (lstateOf s (clOf g) (cohLine t) = .I) then
            (s, .fail (pourAbortEnd 2 g va))
          else
            let s := noteLine g t true s
            match (coreOf s g).ladle.lines.find? (fun x => decide (x.line = orderOf t)) with
            | some x => (s, .ok (overlay x (lineOff t) bs))
            | none => (s, .ok bs)

/-- Staged bytes join a ladle entry. -/
def LadleLine.put (l : LadleLine) (off : Nat) (bs : List Byte) : LadleLine :=
  { l with
    bytes := wrList l.bytes off bs
    enables := (List.range bs.length).foldl (fun e i => setBit e (off + i) true) l.enables }

/-- Insert a ladle entry at its place in the lock order. -/
def insLine (x : LadleLine) : List LadleLine → List LadleLine
  | [] => [x]
  | y :: ys => if x.line < y.line then x :: y :: ys else if x.line = y.line then x :: ys else y :: insLine x ys

/-- Whether a store may join the pour (R309, R313); a serial pour locks the line now, so that the line must be free, and a host
line at hand (R323). -/
def pourStoreCheck (g slot : Nat) (t : Target) (va : Nat) (s : State) : State × Got Unit :=
  match pourBar s g t va true with
  | some e => (s, .fail e)
  | none =>
    let l := (coreOf s g).ladle
    if !l.lines.any (fun x => decide (x.line = orderOf t)) && decide (64 ≤ l.lines.length) then (s, .fail (pourAbortEnd 2 g va))
    else
      match (match t with | .dev dpa => writeBar s g dpa | _ => .ok ()) with
      | .fail e => (s, .fail e)
      | .wait => ((match t with | .dev dpa => heldWake dpa s | _ => s), .wait)
      | .ok () =>
        if !(courseOf s g slot).pourSerial then (s, .ok ())
        else if lineBusy s (cohLine t) (some g) none none then (s, .wait)
        else match t with | .host pa => obtainHost g pa va s | _ => (s, .ok ())

/-- A store inside a pour is staged (R309). -/
def pourStore (g slot : Nat) (t : Target) (bs : List Byte) (s : State) : State :=
  let s := noteLine g t false (serialLock g slot t s)
  let l := (coreOf s g).ladle
  let x := (l.lines.find? (fun x => decide (x.line = orderOf t))).getD ⟨orderOf t, targetKey t, [], 0, false, false⟩
  setCore s g { coreOf s g with ladle := { l with lines := insLine (x.put (lineOff t) bs) l.lines } }

/-! ## Ends of a course's accesses -/

/-- The targets of a list of lanes' addresses. -/
def laneTargets (a : Acc2) (wr : Bool) : List (Nat × Nat) → State → State × Got (List (Nat × Nat × Target))
  | [], s => (s, .ok [])
  | (l, va) :: rest, s =>
    match translate a va wr s with
    | (s, .wait) => (s, .wait)
    | (s, .fail e) => (s, .fail e)
    | (s, .ok ta) =>
      match laneTargets a wr rest s with
      | (s, .ok ts) => (s, .ok ((l, va, targetOf s ta) :: ts))
      | r => r

/-- Perform an access for each lane in turn; stop at the first that waits or fails. -/
def eachLane {α : Type} (f : (Nat × Nat × Target) → State → State × Got α) :
    List (Nat × Nat × Target) → State → State × Got (List (Nat × α))
  | [], s => (s, .ok [])
  | x :: rest, s =>
    match f x s with
    | (s, .wait) => (s, .wait)
    | (s, .fail e) => (s, .fail e)
    | (s, .ok v) =>
      match eachLane f rest s with
      | (s, .ok vs) => (s, .ok ((x.1, v) :: vs))
      | (s, .wait) => (s, .wait)
      | (s, .fail e) => (s, .fail e)

end Sys2Proof.Machine
end

