-- ==== Sys2Proof/Machine/CoreMem.lean ====
section
/-!
DEFINITION. The MEM and ATOM classes of core instructions and semaphores (R110 to R118, R302): loads, stores,
prefetches, atomics and reservations.
-/
namespace Sys2Proof.Machine

/-! ## Fields and legality (R100 to R102, R110, R115) -/

/-- SIZE: log2 of the bytes per lane. -/
def mSize (b : InstrBits) : Nat := bits (fldMod b) 12 10
/-- The bytes of each lane's access. -/
def mBytes (b : InstrBits) : Nat := 2 ^ mSize b
/-- SPACE: 0 GLOBAL, 1 CMEM. -/
def mSpace (b : InstrBits) : Nat := bits (fldMod b) 9 8
/-- HINT. -/
def mHint (b : InstrBits) : Nat := bits (fldMod b) 7 6
/-- SEXT. -/
def mSext (b : InstrBits) : Bool := bit (fldMod b) 5
/-- The data registers of an access of `n` bytes (R110). -/
def dataForm (n : Nat) : Form := if n ≤ 4 then .reg else .group (n / 4)
/-- The address operand (R102). -/
def addrForm (b : InstrBits) : Form := if mSpace b = 0 then .pair else .reg
/-- R101, R102: a uniform destination has a uniform address and no guard. -/
def uniformDst (b : InstrBits) : Bool := !b.du || (b.au && !b.gen)

/-- R110: a format M word's legality; `d` is its data operand, `dst` whether that is a destination.  HINT 0b11 is illegal in an
LD.V too, which ignores HINT (R113); SEXT is illegal where no 1 B or 2 B load names it; HINT is accepted, and without effect,
with SPACE CMEM. (DESIGN CHOICE, log entry 112.) -/
def memOk (d : Form) (dst : Bool) (b : InstrBits) : Bool :=
  guardOk b && !b.op5 && !b.bu && !b.cu && d.ok b.du (fldD b) && (addrForm b).ok b.au (fldA b) &&
    decide (mSize b ≤ 4) && decide (mSpace b ≤ 1) && decide (mHint b ≤ 2) && decide (fldMod b % 32 = 0) &&
    (!mSext b || (dst && decide (mSize b ≤ 1))) && (!dst || uniformDst b)
/-- One past the highest vector register of a format M word. -/
def memTop (d : Form) (b : InstrBits) : Nat := max (d.top b.du (fldD b)) ((addrForm b).top b.au (fldA b))

/-- The address of a lane (R110). (DEDUCED, log entry 32.) -/
def laneAddr (c : Course) (b : InstrBits) (off : Int) (l : Nat) : Nat :=
  if mSpace b = 0 then narrow 64 ((opd64 c b.au (fldA b) l : Int) + off) else narrow 32 ((opd c b.au (fldA b) l : Int) + off)

/-- The lanes that access memory, with their addresses; one access where the destination is uniform (R102). -/
def laneAddrs (c : Course) (b : InstrBits) (dst : Bool) (off : Int) : List (Nat × Nat) :=
  (if dst && b.du then [0] else laneList (lanesOf c b)).map (fun l => (l, laneAddr c b off l))

/-- R111: the first misaligned address. -/
def misaligned (n : Nat) (ls : List (Nat × Nat)) : Option Nat := (ls.find? (fun x => decide (x.2 % n ≠ 0))).map Prod.snd

/-- The registers of a lane's data, as bytes. -/
def laneData (c : Course) (u : Bool) (r n l : Nat) : List Byte :=
  leBytes n ((List.range ((n + 3) / 4)).foldl (fun a k => a + opd c u (r + k) l * 2 ^ (32 * k)) 0)

/-- R117: a memory instruction other than an ST.CND ends the course's reservations. -/
def endRsv (g slot : Nat) (s : State) : State := setCourse s g slot { courseOf s g slot with rsv := [], lost := [] }

/-- R86, R111: what forbids a memory instruction before any lane accesses memory. -/
def accessBar (s : State) (g slot n : Nat) (cmem : Bool) (ls : List (Nat × Nat)) : Option Ending :=
  match misaligned n ls with
  | some va => some (protEnd 0x18 g va)
  | none => if cmem && ls.any (fun x => decide (cmemSize s g slot < x.2 + n)) then some (cmemEnd g) else none

/-- A loaded value as a register holds it. -/
def loadedWord (b : InstrBits) (bs : List Byte) : Nat :=
  if mSext b then narrow 32 (sext (8 * bs.length) (leNat bs)) else leNat bs

/-- The value listed for a lane. -/
def laneVal {α : Type} (d : α) (vs : List (Nat × α)) (l : Nat) : α := ((vs.find? (fun x => decide (x.1 = l))).map Prod.snd).getD d

/-- A load has all its lanes' data: they are written and the course goes on. -/
def finishLoad (g slot n : Nat) (b : InstrBits) (vs : List (Nat × List Byte)) (s : State) : State :=
  if !(courseOf s g slot).live then s
  else
    let s := endWaits (.course g slot) s
    retire g slot (writeD (courseOf s g slot) b (max 1 (n / 4)) (fun l => ⟨loadedWord b (laneVal [] vs l), 0⟩)) s

/-! ## Loads (R110 to R113, R310) -/

/-- Whether a lane's load can be performed at once; it asks for what it lacks. -/
def loadCheck (g slot hint : Nat) (vol : Bool) (a : Acc2) (t : Target) (va n : Nat) (s : State) : State × Got Unit :=
  let hitL1 := fun tag => !vol && decide (hint ≠ 2) && (l1Find s g tag).isSome
  let asked := fun (r : State × Got (List Byte)) => (r.1, match r.2 with | .ok _ => Got.ok () | .wait => .wait | .fail e => .fail e)
  let own := ownLock s g slot
  match t with
  | .win w off => asked (winAccess a .rdReq w off va [] n 0 s)
  | .dev dpa =>
    if cacheable dpa && hitL1 (l1Dev dpa) then (s, .ok ())
    else if lineBusy s (lineOf (locOf dpa)) own (some (clOf g)) (some (64 * g + slot)) then (s, .wait)
    else
      match devRead s g dpa n with
      | .wait => (heldWake dpa s, .wait)
      | _ => (s, .ok ())
  | .host pa =>
    if hitL1 (l1Host pa) then (s, .ok ())
    else if lineBusy s (hostLine pa) own (some (clOf g)) (some (64 * g + slot)) then (s, .wait)
    else if vol then (if hostHeld s pa then (s, .ok ()) else asked (hostRead a pa va n [] s))
    else if s.hpt.cxlCache then obtainHost g pa va s
    else missAsk g slot hint pa va s

/-- The claims of an LD.V, in ascending lane order (R224, R225, R366, R561). -/
def laneClaims (g slot : Nat) (ts : List (Nat × Nat × Target)) (s : State) : State × List (Nat × List Byte) :=
  ts.foldl (fun r x =>
    let one := ctrlClaim g slot (ctrlOf g x.2.2) r.1
    (one.1, r.2 ++ [(x.1, leBytes 8 one.2)])) (s, [])

/-- The GLOBAL accesses of a load. -/
def loadGlobal (vol : Bool) (g slot n : Nat) (b : InstrBits) (ls : List (Nat × Nat)) (s : State) : State :=
  let a := courseAccess s g slot
  match laneTargets a false ls s with
  | (s, .wait) => pourFault g slot s
  | (s, .fail e) => failAccess g slot e s
  | (s, .ok ts) =>
    if (courseOf s g slot).pour = .open then
      match eachLane (fun x s => pourLoad g slot a x.2.2 x.2.1 n s) ts s with
      | (s, .wait) => s
      | (s, .fail e) => failAccess g slot e s
      | (s, .ok vs) => finishLoad g slot n b vs s
    else
      let plain := ts.filter (fun x => !isClaim vol n (ctrlOf g x.2.2))
      match eachLane (fun x s => loadCheck g slot (mHint b) vol a x.2.2 x.2.1 n s) plain s with
      | (s, .wait) => s
      | (s, .fail e) => failAccess g slot e s
      | (s, .ok _) =>
        match eachLane (fun x s => loadTarget g slot (mHint b) vol a x.2.2 x.2.1 n s) plain s with
        | (s, .wait) => s
        | (s, .fail e) => failAccess g slot e s
        | (s, .ok vs) =>
          let r := laneClaims g slot (ts.filter (fun x => isClaim vol n (ctrlOf g x.2.2))) s
          finishLoad g slot n b (vs ++ r.2) r.1

/-- LD and LD.V. -/
def loadStep (vol : Bool) (g slot : Nat) (b : InstrBits) (s : State) : State :=
  let n := mBytes b
  let d := dataForm n
  issue g slot (memOk d true b && !(vol && decide (mSpace b = 1))) (memTop d b) s (fun c =>
    let s := endRsv g slot s
    let ls := laneAddrs c b true (fldOff b)
    let cmem := decide (mSpace b = 1)
    match accessBar s g slot n cmem ls with
    | some e => failCourse g slot e s
    | none =>
      if cmem && harpPending s g slot then s
      else if cmem then finishLoad g slot n b (ls.map (fun x => (x.1, cmemRead s g slot x.2 n))) (seenTurn g slot s)
      else loadGlobal vol g slot n b ls s)

/-- LD (R110). -/
def execLd (g slot : Nat) (b : InstrBits) (s : State) : Out := whenFetched (wordOf 7 0 b) g slot s <| .next (loadStep false g slot b s)

/-- LD.V (R113). -/
def execLdV (g slot : Nat) (b : InstrBits) (s : State) : Out := whenFetched (wordOf 7 2 b) g slot s <|
  .next (let t := loadStep true g slot b s
         if (courseOf t g slot).pc ≠ (courseOf s g slot).pc then countCore g 0x0D 1 t else t)

/-! ## Stores (R114, R297, R309) -/

/-- A store has been performed: the course goes on. -/
def finishStore (g slot : Nat) (s : State) : State :=
  if !(courseOf s g slot).live then s else retire g slot (courseOf s g slot) (endReads (.course g slot) s)

/-- The GLOBAL accesses of a store, in ascending lane order. -/
def storeGlobal (g slot n : Nat) (b : InstrBits) (ls : List (Nat × Nat)) (s : State) : State :=
  let a := courseAccess s g slot
  let data := fun l => laneData (courseOf s g slot) b.du (fldD b) n l
  match laneTargets a true ls s with
  | (s, .wait) => pourFault g slot s
  | (s, .fail e) => failAccess g slot e s
  | (s, .ok ts) =>
    if (courseOf s g slot).pour = .open then
      match eachLane (fun x s =>
          match pourStoreCheck g slot x.2.2 x.2.1 s with
          | (s, .ok ()) => (pourStore g slot x.2.2 (data x.1) s, .ok ())
          | r => r) ts s with
      | (s, .wait) => s
      | (s, .fail e) => failAccess g slot e s
      | (s, .ok _) => finishStore g slot s
    else
      match eachLane (fun x s => storeCheck g slot a x.2.2 x.2.1 s) ts s with
      | (s, .wait) => s
      | (s, .fail e) => failAccess g slot e s
      | (s, .ok _) => finishStore g slot (asCourse g slot (fun s => ts.foldl (fun s x => storeTarget g slot (mHint b) a x.2.2 x.2.1 (data x.1) s) s) s)

/-- ST (R114). -/
def execSt (g slot : Nat) (b : InstrBits) (s : State) : Out := whenFetched (wordOf 7 1 b) g slot s <|
  let n := mBytes b
  let d := dataForm n
  .next (issue g slot (memOk d false b) (memTop d b) s (fun c =>
    let s := endRsv g slot s
    let ls := laneAddrs c b false (fldOff b)
    let cmem := decide (mSpace b = 1)
    match accessBar s g slot n cmem ls with
    | some e => failCourse g slot e s
    | none =>
      if cmem && harpPending s g slot then s
      else if cmem then
        finishStore g slot (ls.foldl (fun s x => cmemWrite g slot x.2 (laneData c b.du (fldD b) n x.1) s) s)
      else storeGlobal g slot n b ls s))

/-! ## Prefetch (R112, R114) -/

/-- The prefetch of one line: whether it has been brought in or dropped; else it waits.  What would fault is dropped. -/
def prefTarget (g slot hint : Nat) (t : Target) (va : Nat) (s : State) : State × Bool :=
  match t with
  | .win _ _ => (s, true)
  | .dev dpa =>
    let line := lineOf (locOf dpa)
    if !cacheable dpa then (s, true)
    else if lineBusy s line (ownLock s g slot) (some (clOf g)) (some (64 * g + slot)) then (s, false)
    else
      let r := devRead s g (dpa / 128 * 128) 128
      let s := readNote dpa r s
      (match r with
       | .wait => (s, false)
       | .fail _ => (s, true)
       | .ok bs =>
         let s := tunRead (clOf g) line (hintAge hint) (keyTurn dpa s)
         (if hint = 2 ∨ (l1Find s g (l1Dev dpa)).isSome then s else l1Fill g (l1Dev dpa) (hintAge hint) bs s, true))
  | .host pa =>
    if hint ≠ 2 ∧ (l1Find s g (l1Host pa)).isSome then (s, true)
    else if s.hpt.cxlCache then
      if lineBusy s (hostLine pa) (ownLock s g slot) (some (clOf g)) (some (64 * g + slot)) then (s, false)
      else
        match obtainHost g pa va s with
        | (s, .wait) => (s, false)
        | (s, .fail _) => (s, true)
        | (s, .ok ()) =>
          let s := tunRead (clOf g) (hostLine pa) (hintAge hint) s
          (if hint = 2 then s else l1Fill g (l1Host pa) (hintAge hint) (hostBytes s (pa / 128 * 128) 128) s, true)
    else if hint = 2 ∨ (missOf s g (l1Host pa)).isSome ∨ 64 ≤ (coreOf s g).miss.length ∨ s.hpt.bme = false then (s, true)
    else (missNew g ⟨l1Host pa, pa / 128 * 128, va, [], 1, true, true, hintAge hint⟩ s, true)

/-- R114: how a prefetch translates: no page request is sent for it, so a page whose translation it has been denied is dropped, and
so is one that has a page request outstanding. -/
def prefLine (g slot hint va : Nat) (s : State) : State × Bool :=
  let a := { courseAccess s g slot with who := .pref g slot }
  if (courseOf s g slot).denied.contains (va / 4096) ∨ (joinPri a va false s).isSome then (s, true)
  else
    match translate a va false s with
    | (s, .wait) => (s, false)
    | (s, .fail _) => (s, true)
    | (s, .ok ta) => prefTarget g slot hint (targetOf s ta) va s

/-- PREF (R114): it goes on when every line has been brought in or dropped; one that is misaligned would fault, and is dropped.
(DEDUCED, log entry 22.) -/
def execPref (g slot : Nat) (b : InstrBits) (s : State) : Out := whenFetched (wordOf 7 3 b) g slot s <|
  .next (issue g slot (memOk .unused false b) (memTop .unused b) s (fun c =>
    let s := endRsv g slot s
    let ls := if mSpace b = 0 then laneAddrs c b false (fldOff b) else []
    let ls := if (misaligned (mBytes b) ls).isSome then [] else ls
    let r := ls.foldl (fun (r : State × Bool) x =>
      let one := prefLine g slot (mHint b) x.2 r.1
      (one.1, r.2 && one.2)) (s, true)
    if r.2 then finishStore g slot (setCourse r.1 g slot { courseOf r.1 g slot with denied := [] }) else r.1))

/-! ## Atomics (R115, R116, R281) -/

/-- AOP. -/
def aAop (b : InstrBits) : Nat := bits (fldMod b) 7 4
/-- FAR. -/
def aFar (b : InstrBits) : Bool := bit (fldMod b) 3
/-- NORET. -/
def aNoret (b : InstrBits) : Bool := bit (fldMod b) 2
/-- The register form of a 4 B or 8 B operand. -/
def wordForm (n : Nat) : Form := if n = 8 then .pair else .reg

/-- R115: the value an atomic of `w` bits writes. (DEDUCED, log entry 23.) -/
def atomVal (aop w old x cmp : Nat) : Nat :=
  if aop = 0 then (old + x) % 2 ^ w
  else if aop = 1 then (fAdd fp32 .nearestEven true false false old x).code
  else if aop = 2 then (if sext w x < sext w old then x else old)
  else if aop = 3 then (if sext w old < sext w x then x else old)
  else if aop = 4 then min old x
  else if aop = 5 then max old x
  else if aop = 6 then old &&& x
  else if aop = 7 then old ||| x
  else if aop = 8 then old ^^^ x
  else if aop = 9 then x
  else if old = cmp then x else old

/-- R115: ATOM's legality outside a pour. -/
def atomOk (b : InstrBits) : Bool :=
  let w := wordForm (mBytes b)
  guardOk b && !b.op5 && (if aNoret b then Form.ok .unused b.du (fldD b) else w.ok b.du (fldD b)) &&
    (addrForm b).ok b.au (fldA b) && w.ok b.bu (fldB b) &&
    (if aAop b = 10 then w.ok b.cu (fldC b) else Form.ok .unused b.cu (fldC b)) &&
    (decide (mSize b = 2) || decide (mSize b = 3)) && decide (mSpace b ≤ 1) && decide (aAop b ≤ 10) &&
    (decide (aAop b ≠ 1) || decide (mSize b = 2)) && decide (fldMod b % 4 = 0) &&
    (!b.du || (b.au && b.bu && (decide (aAop b ≠ 10) || b.cu) && !b.gen))
/-- One past the highest vector register an ATOM names. -/
def atomTop (b : InstrBits) : Nat :=
  let w := wordForm (mBytes b)
  max (max (w.top b.du (fldD b)) ((addrForm b).top b.au (fldA b)))
    (max (w.top b.bu (fldB b)) (if aAop b = 10 then w.top b.cu (fldC b) else 0))

/-- An operand of `n` bytes in a lane. -/
def opdN (c : Course) (u : Bool) (r n l : Nat) : Nat := if n = 8 then opd64 c u r l else opd c u r l

/-- One lane of an ATOM: its old value and the line it leaves, by target; a wait for another unit's answer. -/
structure AtomOp where
  aop : Nat
  n : Nat
  far : Bool
  noret : Bool
  x : Nat → Nat
  cmp : Nat → Nat

/-- R116, R231, R254: what forbids an atomic at a target, before any lane runs. -/
def atomBar (s : State) (g aop : Nat) (t : Target) (va : Nat) : Got Unit :=
  match t with
  | .dev dpa => writeBar s g dpa
  | .host _ => if s.hpt.cxlCache = true ∨ aop = 0 ∨ aop = 9 ∨ aop = 10 then .ok () else .fail (protEnd 0x19 g va)
  | .win _ _ => .ok ()

/-- The first phase: lines must be free, poison ends the casting before any lane has run (R284), the host coherence bridge obtains
host lines (R281), and another unit's answers are asked for. -/
def atomAsk (g slot : Nat) (op : AtomOp) (a : Acc2) (l va : Nat) (t : Target) (s : State) : State × Got (List Byte) :=
  match atomBar s g op.aop t va with
  | .fail e => (s, .fail e)
  | .wait => ((match t with | .dev dpa => heldWake dpa s | _ => s), .wait)
  | .ok () =>
    if (match t with | .win _ _ => false | _ => lineBusy s (cohLine t) (ownLock s g slot) none (some (64 * g + slot))) then (s, .wait)
    else
      match t with
      | .dev dpa => (match devRead s g dpa op.n with
          | .ok _ => (s, .ok [])
          | .wait => (heldWake dpa s, .wait)
          | .fail e => (readNote dpa (.fail e) s, .fail e))
      | .host pa =>
        (match missHolds g t s with
         | (s, true) => (s, .wait)
         | (s, false) =>
           if s.hpt.cxlCache then
             match obtainHost g pa va s with
             | (s, .ok ()) => (s, .ok [])
             | (s, .wait) => (s, .wait)
             | (s, .fail e) => (s, .fail e)
           else hostRead a pa va op.n [op.aop, op.x l, op.cmp l, l] s)
      | .win w off =>
        winAccess a .atomReq w off va (leBytes op.n (op.x l) ++ (if op.aop = 10 then leBytes op.n (op.cmp l) else [])) op.n
          (op.aop + 16 * b2n (decide (op.n = 8)) + 32 * b2n op.far + 64 * b2n op.noret + 128 * l) s

/-- R281: the home of a line performs an atomic on it: every holder gives it up; a near one leaves it in the crucible, dirty,
a far one leaves no copy there. -/
def atomHome (dpa : Nat) (far : Bool) (s : State) : State :=
  let line := lineOf (locOf dpa)
  if !homed dpa then s
  else
    let s := countBase (if far then 0x07 else 0x06) (homeOf s (locOf dpa)) 1 (grantNone line s)
    if far then cruDrop (locOf dpa) s else cruInstall (locOf dpa) s

/-- R281: the host coherence bridge performs an atomic on a line that it holds from then on. -/
def atomBridge (pa : Nat) (new : List Byte) (s : State) : State :=
  let line := hostLine pa
  putHost pa new (bridgeTake line [] (grantNone line s))

/-- The second phase: one lane's operation where the device itself performs it; `back` is another unit's answer. -/
def atomDo (g slot : Nat) (op : AtomOp) (l : Nat) (t : Target) (back : List Byte) (s : State) : State × Got (List Byte) :=
  let new := fun (old : List Byte) => leBytes op.n (atomVal op.aop (8 * op.n) (leNat old) (op.x l) (op.cmp l))
  match t with
  | .dev dpa =>
    let r := devRead s g dpa op.n
    let s := readNote dpa r s
    (match r with
     | .ok old =>
       let s := atomHome dpa op.far (beforeWrite dpa op.n (some (g, slot)) s)
       (asCourse g slot (putDev dpa (new old) false false) (l1Store g (l1Dev dpa) (dpa % 128) (new old) s), .ok old)
     | r => (s, r))
  | .host pa =>
    let old := if s.hpt.cxlCache then hostBytes s pa op.n else back
    let s := l1Store g (l1Host pa) (pa % 128) (new old) (noteWrite (hostLine pa) (some (g, slot)) s)
    (asCourse g slot (if s.hpt.cxlCache then atomBridge pa (new old) else putHost pa (new old)) s, .ok old)
  | .win _ _ => (s, .ok back)

/-- The GLOBAL accesses of an ATOM. -/
def atomGlobal (g slot : Nat) (op : AtomOp) (fin : List (Nat × List Byte) → State → State) (ls : List (Nat × Nat)) (s : State) : State :=
  let a := courseAccess s g slot
  match laneTargets a true ls s with
  | (s, .wait) => s
  | (s, .fail e) => failAccess g slot e s
  | (s, .ok ts) =>
    match ts.find? (fun x => match atomBar s g op.aop x.2.2 x.2.1 with | .fail _ => true | _ => false) with
    | some x => (match atomBar s g op.aop x.2.2 x.2.1 with | .fail e => failAccess g slot e s | _ => s)
    | none =>
      match eachLane (fun x s => atomAsk g slot op a x.1 x.2.1 x.2.2 s) ts s with
      | (s, .wait) => s
      | (s, .fail e) => failAccess g slot e s
      | (s, .ok backs) =>
        match eachLane (fun x s => atomDo g slot op x.1 x.2.2 (laneVal [] backs x.1) s) ts s with
        | (s, .wait) => s
        | (s, .fail e) => failAccess g slot e s
        | (s, .ok vs) => fin vs s

/-- An atomic has all its lanes' old values. -/
def finishAtom (g slot n : Nat) (b : InstrBits) (noret : Bool) (vs : List (Nat × List Byte)) (s : State) : State :=
  let s := endWaits (.course g slot) s
  let c := courseOf s g slot
  retire g slot (if noret then c else writeD c b (n / 4) (fun l => ⟨leNat (laneVal [] vs l), 0⟩)) s

/-- ATOM (R115, R116). -/
def execAtom (g slot : Nat) (b : InstrBits) (s : State) : Out := whenFetched (wordOf 8 0 b) g slot s <|
  let n := mBytes b
  .next (issue g slot (atomOk b && decide ((courseOf s g slot).pour = .closed)) (atomTop b) s (fun c =>
    let s := endRsv g slot s
    let ls := laneAddrs c b (!aNoret b) 0
    let op : AtomOp := ⟨aAop b, n, aFar b, aNoret b, fun l => opdN c b.bu (fldB b) n l, fun l => opdN c b.cu (fldC b) n l⟩
    let cmem := decide (mSpace b = 1)
    match accessBar s g slot n cmem ls with
    | some e => failCourse g slot e s
    | none =>
      if cmem && harpPending s g slot then s
      else if cmem then
        let r := ls.foldl (fun (r : State × List (Nat × List Byte)) x =>
          let old := cmemRead r.1 g slot x.2 n
          (cmemWrite g slot x.2 (leBytes n (atomVal op.aop (8 * n) (leNat old) (op.x x.1) (op.cmp x.1))) r.1,
            r.2 ++ [(x.1, old)])) (s, [])
        finishAtom g slot n b (aNoret b) r.2 (seenTurn g slot r.1)
      else atomGlobal g slot op (finishAtom g slot n b (aNoret b)) ls s))

/-! ## Reservations (R117, R276, R302) -/

/-- Legality of LD.RSV: D and the pair A; SIZE 4 B or 8 B, SPACE GLOBAL. -/
def rsvOk (b : InstrBits) : Bool :=
  guardOk b && !b.op5 && (wordForm (mBytes b)).ok b.du (fldD b) && Form.ok .pair b.au (fldA b) &&
    Form.ok .unused b.bu (fldB b) && Form.ok .unused b.cu (fldC b) && (decide (mSize b = 2) || decide (mSize b = 3)) &&
    decide (fldMod b % 1024 = 0) && uniformDst b
/-- Legality of ST.CND: D a predicate, the pair A, the data B. -/
def cndOk (b : InstrBits) : Bool :=
  guardOk b && !b.op5 && Form.ok .pred b.du (fldD b) && Form.ok .pair b.au (fldA b) &&
    (wordForm (mBytes b)).ok b.bu (fldB b) && Form.ok .unused b.cu (fldC b) && (decide (mSize b = 2) || decide (mSize b = 3)) &&
    decide (fldMod b % 1024 = 0)

/-- R117, R349: whether a target can be reserved: device memory, scratch, host memory under CXL.cache. -/
def rsvTarget (s : State) (t : Target) : Bool :=
  match t with
  | .dev dpa => (match placeOf (locOf dpa) with | .sema _ _ => false | _ => true)
  | .host _ => s.hpt.cxlCache
  | .win _ _ => false

/-- The first target of a list that cannot be reserved. -/
def rsvBar (s : State) (g : Nat) (ts : List (Nat × Nat × Target)) : Option Ending :=
  (ts.find? (fun x => !rsvTarget s x.2.2)).map (fun x => protEnd 0x19 g x.2.1)

/-- R276: the length of an escalated hold, in FCLK cycles. -/
def holdTime : Nat := 1024

/-- LD.RSV's read of one lane; an escalated one obtains the line for ownership and holds it (R276). -/
def rsvLoad (g slot n : Nat) (a : Acc2) (t : Target) (va : Nat) (s : State) : State × Got (List Byte) :=
  let line := cohLine t
  let esc := (courseOf s g slot).escalated.contains line
  if lineBusy s line (ownLock s g slot) (some (clOf g)) (some (64 * g + slot)) then (s, .wait)
  else
    let r : State × Got (List Byte) := match t with
      | .dev dpa => let r := devRead s g dpa n; (readNote dpa r s, r)
      | .host pa => (match obtainHost a.agent pa va s with
          | (s, .ok ()) => (s, .ok (hostBytes s pa n))
          | (s, .wait) => (s, .wait)
          | (s, .fail e) => (s, .fail e))
      | .win _ _ => (s, .wait)
    match r with
    | (s, .ok bs) =>
      let s := match t with | .dev dpa => keyTurn dpa s | _ => s
      let own := decide (lstateOf s (clOf g) line = .M) || decide (lstateOf s (clOf g) line = .E)
      let s := if !(match t with | .dev dpa => cacheable dpa | _ => true) then s
        else if esc then
          let f := if own then (s, true) else if lstateOf s (clOf g) line = .I then tunFill (clOf g) line 1 none s else (s, true)
          if f.2 then
            let s := if own then f.1 else grantOwned (clOf g) line f.1
            setTxn s line { txnOf s line with esc := some (64 * g + slot, fclkOf s + holdTime) }
          else f.1
        else tunRead (clOf g) line 1 s
      (setCourse s g slot { courseOf s g slot with escalated := (courseOf s g slot).escalated.filter (fun x => decide (x ≠ line)) }, .ok bs)
    | r => r

/-- Whether a reservation can be kept on a target's line now. -/
def canWatch (s : State) (g : Nat) (t : Target) : Bool :=
  match t with
  | .dev dpa => if cacheable dpa then decide (lstateOf s (clOf g) (cohLine t) ≠ .I) else true
  | _ => decide (lstateOf s (clOf g) (cohLine t) ≠ .I)

/-- LD.RSV (R117). -/
def execLdRsv (g slot : Nat) (b : InstrBits) (s : State) : Out := whenFetched (wordOf 8 1 b) g slot s <|
  let n := mBytes b
  let w := wordForm n
  .next (issue g slot (rsvOk b && decide ((courseOf s g slot).pour = .closed))
      (max (w.top b.du (fldD b)) (Form.top .pair b.au (fldA b))) s (fun c =>
    let s := endRsv g slot s
    let ls := laneAddrs c b true 0
    match accessBar s g slot n false ls with
    | some e => failCourse g slot e s
    | none =>
      let a := courseAccess s g slot
      match laneTargets a false ls s with
      | (s, .wait) => s
      | (s, .fail e) => failAccess g slot e s
      | (s, .ok ts) =>
        match rsvBar s g ts with
        | some e => failCourse g slot e s
        | none =>
          match eachLane (fun x s => rsvLoad g slot n a x.2.2 x.2.1 s) ts s with
          | (s, .wait) => s
          | (s, .fail e) => failAccess g slot e s
          | (s, .ok vs) =>
            let lanes := laneList (lanesOf c b)
            let at' := fun l => if b.du then nth (0, 0, Target.host 0) ts 0 else (ts.find? (fun x => decide (x.1 = l))).getD (0, 0, .host 0)
            let rsv := lanes.foldl (fun (r : Tbl Nat) l => if canWatch s g (at' l).2.2 then tset 0 r l (cohLine (at' l).2.2 + 1) else r) []
            let s := endWaits (.course g slot) s
            retire g slot (writeD { courseOf s g slot with rsv := rsv } b (n / 4) (fun l => ⟨leNat (laneVal [] vs l), 0⟩)) s))

/-- The lanes of an ST.CND that store: each holds a reservation on its line and is the lowest active lane that names it (R117). -/
def cndWinners (c : Course) (ts : List (Nat × Nat × Target)) : List (Nat × Nat × Target) :=
  ts.filter (fun x =>
    decide (tget 0 c.rsv x.1 = cohLine x.2.2 + 1) && !ts.any (fun y => decide (y.1 < x.1) && decide (cohLine y.2.2 = cohLine x.2.2)))

/-- The lines on which a failing lane's reservation was ended by another agent (R276). -/
def cndLost (c : Course) (ts wins : List (Nat × Nat × Target)) : List Nat :=
  ((ts.filter (fun x => !wins.any (fun y => decide (y.1 = x.1)))).map (fun x => cohLine x.2.2)).filter (fun l => c.lost.contains l)

/-- R276: an ST.CND of the course has executed: its escalated holds end. -/
def endHolds (g slot : Nat) (lines : List Nat) (s : State) : State :=
  lines.foldl (fun s l => if (txnOf s l).esc.map (fun e => e.1) = some (64 * g + slot) then setTxn s l { txnOf s l with esc := none } else s) s

/-- ST.CND (R117). -/
def execStCnd (g slot : Nat) (b : InstrBits) (s : State) : Out := whenFetched (wordOf 8 2 b) g slot s <|
  let n := mBytes b
  .next (issue g slot (cndOk b && decide ((courseOf s g slot).pour = .closed))
      (max (Form.top .pair b.au (fldA b)) ((wordForm n).top b.bu (fldB b))) s (fun c =>
    let ls := laneAddrs c b false 0
    match accessBar s g slot n false ls with
    | some e => failCourse g slot e s
    | none =>
      let a := courseAccess s g slot
      match laneTargets a true ls s with
      | (s, .wait) => s
      | (s, .fail e) => failAccess g slot e s
      | (s, .ok ts) =>
        match rsvBar s g ts with
        | some e => failCourse g slot e s
        | none =>
          match eachLane (fun x s => storeCheck g slot a x.2.2 x.2.1 s) ts s with
          | (s, .wait) => s
          | (s, .fail e) => failAccess g slot e s
          | (s, .ok _) =>
            let c := courseOf s g slot
            let wins := cndWinners c ts
            let s := asCourse g slot (fun s => wins.foldl (fun s x => storeTarget g slot 0 a x.2.2 x.2.1 (leBytes n (opdN c b.bu (fldB b) n x.1)) s) s) s
            let s := endReads (.course g slot) (endHolds g slot (ts.map (fun x => cohLine x.2.2)) s)
            let c' := { courseOf s g slot with
              rsv := [], lost := []
              escalated := (courseOf s g slot).escalated ++ (cndLost c ts wins).filter (fun l => !(courseOf s g slot).escalated.contains l) }
            retire g slot (setP c' (fldD b) (lanesOf c b) (maskOf (fun l => wins.any (fun x => decide (x.1 = l))))) s))

/-! ## Semaphores (R118) -/

/-- OPERAND_RANGE. -/
def semRange (g : Nat) : Ending := protEnd 0x1C g 0

/-- SEM.SIG (R118): FENCE.REL, which waits for the course's drains and clears (R150), then the addition. (DEDUCED, log entry 24.) -/
def execSemSig (g slot : Nat) (b : InstrBits) (s : State) : Out := whenFetched (wordOf 9 16 b) g slot s <|
  let legal := guardOk b && !b.op5 && Form.ok .unused b.du (fldD b) && Form.ok .ureg b.au (fldA b) && Form.ok .ureg b.bu (fldB b) &&
    Form.ok .unused b.cu (fldC b) && decide (fldMod b = 0) && decide ((courseOf s g slot).pour = .closed)
  .next (issue g slot legal 0 s (fun c =>
    let s := endRsv g slot s
    if harpPending s g slot then s
    else if lanesOf c b = 0 then retire g slot (courseOf s g slot) s
    else if 16383 < (ureg c (fldA b)).toNat then failCourse g slot (semRange g) s
    else retire g slot (courseOf s g slot) (semaAdd (ureg c (fldA b)).toNat (ureg c (fldB b)).toNat s)))

/-- SEM.RD (R118). -/
def execSemRd (g slot : Nat) (b : InstrBits) (s : State) : Out := whenFetched (wordOf 9 17 b) g slot s <|
  let legal := guardOk b && !b.gen && !b.op5 && Form.ok .ureg b.du (fldD b) && Form.ok .ureg b.au (fldA b) &&
    Form.ok .unused b.bu (fldB b) && Form.ok .unused b.cu (fldC b) && decide (fldMod b = 0) && decide ((courseOf s g slot).pour = .closed)
  .next (issue g slot legal 0 s (fun c =>
    let s := endRsv g slot s
    if 16383 < (ureg c (fldA b)).toNat then failCourse g slot (semRange g) s
    else retire g slot (setU (courseOf s g slot) (fldD b) (BitVec.ofNat 32 (semaOf s (ureg c (fldA b)).toNat))) s))

end Sys2Proof.Machine
end

