-- ==== Sys2Proof/Machine/HarpOps.lean ====
section
/-!
DEFINITION. The Harp: HSEQ descriptors, K-steps and block ends (chapters 5 and 6).
-/
namespace Sys2Proof.Machine

/-! ## The HSEQ descriptor (R126, R140, R142, R145) -/

/-- AFMT or BFMT (`op` 0 or 1). -/
def hFmt (d : List Byte) (op : Nat) : Nat := fieldOf d (27 + op) 1
/-- SAFMT or SBFMT. -/
def hSc (d : List Byte) (op : Nat) : Nat := fieldOf d (29 + op) 1
/-- A_OFF or B_OFF. -/
def hOff (d : List Byte) (op : Nat) : Nat := fieldOf d (4 * op) 4
/-- A_STRIDE or B_STRIDE. -/
def hStride (d : List Byte) (op : Nat) : Nat := fieldOf d (8 + 4 * op) 4
/-- SA_OFF or SB_OFF. -/
def hScOff (d : List Byte) (op : Nat) : Nat := fieldOf d (16 + 4 * op) 4
/-- KBLOCKS. -/
def hBlocks (d : List Byte) : Nat := fieldOf d 24 2
/-- K-steps of a K-block. -/
def hSteps (d : List Byte) : Nat := 2 ^ fieldOf d 26 1
/-- A bit of FLAGS: 0 TILE, 1 ZERO_FIRST, 2 SUBN_A, 3 SUBN_B, 4 SUBN_OUT. -/
def hFlag (d : List Byte) (i : Nat) : Bool := bit (fieldOf d 31 1) i
/-- The tile. -/
def hTile (d : List Byte) : Nat := fieldOf d 31 1 % 2
/-- M_EXT or N_EXT. -/
def hExt (d : List Byte) (op : Nat) : Nat := fieldOf d (32 + op) 1
/-- The format of an operand's elements. -/
def hElem (d : List Byte) (op : Nat) : Fmt := (fmtOf (hFmt d op) (decide (hSc d op ≠ 0))).getD fp32
/-- Bytes of one K-step of an operand. -/
def hStepBytes (d : List Byte) (op : Nat) : Nat := 16 * (hElem d op).width
/-- R142: bytes from one scale group to the next. -/
def hGroupBytes (sc : Nat) : Nat := if scDir sc = 0 then 128 else 8

/-- R140: the pairs of operand formats. -/
def pairOk (a b : Nat) : Bool :=
  if narrowCode a && narrowCode b then decide (0x10 ≤ a) == decide (0x10 ≤ b)
  else decide (a = b) && decide (a ≤ 2)

/-- The check of one operand's scales (R142, R165). -/
def hScaleOk (d : List Byte) (op : Nat) : Bool :=
  let sc := hSc d op
  scaleUseOk false (hFmt d op) sc && (decide (sc = 0) == decide (hScOff d op = 0xFFFFFFFF)) &&
    (decide (sc = 0) || decide (hSteps d ≤ scSize sc))

/-- R145: the check of an HSEQ descriptor. -/
def hseqOk (d : List Byte) : Bool :=
  tensorCode (hFmt d 0) && tensorCode (hFmt d 1) && pairOk (hFmt d 0) (hFmt d 1) && hScaleOk d 0 && hScaleOk d 1 &&
    decide (1 ≤ hBlocks d) && decide (3 ≤ fieldOf d 26 1) && decide (fieldOf d 26 1 ≤ 8) && decide (fieldOf d 31 1 < 32) &&
    [0, 1].all (fun op => decide (1 ≤ hExt d op) && decide (hExt d op ≤ 128) && decide (hOff d op % 8 = 0) &&
      decide (hStride d op % 8 = 0) && (decide (hSc d op = 0) || decide (hScOff d op % 8 = 0))) &&
    decide (fieldOf d 34 30 = 0)

/-- R142: the bytes read of a scale group. (DEDUCED, log entry 104.) -/
def hGroupRead (d : List Byte) (op : Nat) : Nat := if scDir (hSc d op) = 0 then (hExt d op + 7) / 8 * 8 else 8

/-- R145: every byte an HSEQ reads lies within the allocation. -/
def hseqFits (size : Nat) (d : List Byte) : Bool :=
  [0, 1].all (fun op =>
    decide (hOff d op + (hBlocks d - 1) * hStride d op + hSteps d * hStepBytes d op ≤ size) &&
    (decide (hSc d op = 0) ||
      decide (hScOff d op + ((hBlocks d * hSteps d + scSize (hSc d op) - 1) / scSize (hSc d op) - 1) * hGroupBytes (hSc d op) +
        hGroupRead d op ≤ size)))

/-! ## K-steps and block ends (R132, R166 to R171, R175, R176) -/

/-- Element `i` of an operand in K-step `k` of K-block `j`, as the Harp reads it, with the flags of a flush. -/
def hRead (s : State) (g slot : Nat) (d : List Byte) (op j k i : Nat) : FVal × Word :=
  let f := hElem d op
  let at' := hOff d op + j * hStride d op + k * hStepBytes d op + f.width * i / 8
  readF f (hFlag d (2 + op)) false (leNat (cmemRead s g slot at' (f.width / 8 + 2)) / 2 ^ (f.width * i % 8))

/-- The exponent of an element format's unit in the block register (R166). -/
def unitExp (f : Fmt) : Int := match f.kind with | .int => -f.bias | _ => minQuantum f

/-- R166: a finite product in units of the block register. -/
def inUnits (q : Int) : FVal → Int
  | .fin n m e => signed n (shiftTo m e q)
  | _ => 0

/-- R167: the block flags a product sets: NAN 1, PINF 2, NINF 4. -/
def blockFlags (p : FVal) : Nat :=
  match p with
  | .nan _ => 1
  | .inf n => if n then 4 else 2
  | .fin _ _ _ => 0

/-- One narrow product enters a cell's block register and flags. -/
def addProduct (q : Int) (h : Harp) (cell : Nat) (a b : FVal) : Harp :=
  let p := (mulF a b).1
  { h with
    blk := tset 0 h.blk cell (tget 0 h.blk cell + inUnits q p)
    nan := tset 0 h.nan cell (tget 0 h.nan cell ||| blockFlags p) }

/-- The bits that the Harp raises (R169). -/
def harpFlags (w : Word) : Word := w &&& (fInvalid ||| fOverflow ||| fFlushed)

/-- R171: one fused step of a 16- or 32-bit pair: the accumulator and the flags. -/
def fusedStep (keep : Bool) (acc : Nat) (a b : FVal) : Res :=
  let x := readF fp32 keep false acc
  let p := mulF a b
  let t := addF .nearestEven p.1 x.1
  let z := roundF fp32 .nearestEven keep t.1
  let inv := isNanF p.1 || (isNanF t.1 && !isNanF x.1)
  ⟨z.code, harpFlags (x.2 ||| z.flags ||| flagIf inv fInvalid)⟩

/-- The active cells of an HSEQ. -/
def activeCells (d : List Byte) : List (Nat × Nat) :=
  (List.range (hExt d 0)).flatMap (fun m => (List.range (hExt d 1)).map (fun n => (m, n)))

/-- One K-step: K-step `k` of K-block `j` enters every active cell; the flags it raises (R132). -/
def kStep (s : State) (g slot : Nat) (d : List Byte) (j k : Nat) : Harp × Word :=
  let as := (List.range (hExt d 0)).map (fun m => hRead s g slot d 0 j k m)
  let bs := (List.range (hExt d 1)).map (fun n => hRead s g slot d 1 j k n)
  let fl := (as ++ bs).foldl (fun w x => w ||| x.2) 0
  let zero : FVal × Word := (.fin false 0 0, 0)
  (activeCells d).foldl (fun (r : Harp × Word) c =>
    let a := (nth zero as c.1).1
    let b := (nth zero bs c.2).1
    let cell := 128 * c.1 + c.2
    if narrowCode (hFmt d 0) then (addProduct (unitExp (hElem d 0) + unitExp (hElem d 1)) r.1 cell a b, r.2)
    else
      let z := fusedStep (hFlag d 4) (tget 0 (r.1.tile (hTile d)) cell).toNat a b
      (r.1.setTile (hTile d) (tset 0 (r.1.tile (hTile d)) cell (BitVec.ofNat 32 z.code)), r.2 ||| z.flags)) (harpOf s g, fl)

/-- R142: the scale of row or column `i` of an operand in K-block `j`. -/
def hScale (s : State) (g slot : Nat) (d : List Byte) (op j i : Nat) : FVal :=
  let sc := hSc d op
  if sc = 0 then .fin false 1 0
  else
    let grp := j * hSteps d / scSize sc
    let byte := if scDir sc = 0 then i else i / scSize sc
    scaleVal (scFmt sc) (leNat (cmemRead s g slot (hScOff d op + grp * hGroupBytes sc + byte) 1))

/-- R167: the value of a block. -/
def blockValue (q : Int) (sum : Int) (fl : Nat) : FVal :=
  if bit fl 0 || (bit fl 1 && bit fl 2) then .nan false
  else if bit fl 1 then .inf false
  else if bit fl 2 then .inf true
  else .fin (decide (sum < 0)) sum.natAbs q

/-- R168 to R170: a block's end in one cell: the new accumulator and the flags. -/
def blockEnd (keep : Bool) (acc : Nat) (v sa sb : FVal) : Res :=
  if isZeroF v && !isNanF sa && !isNanF sb then ⟨acc, 0⟩
  else
    let r1 := match v with
      | .fin _ _ _ => decodeF fp32 (roundF fp32 .nearestEven true v).code
      | v => v
    let r2 := roundF fp32 .nearestEven keep (mulF r1 (mulF sa sb).1).1
    let x := readF fp32 keep false acc
    let y := decodeF fp32 r2.code
    let t := addF .nearestEven x.1 y
    let z := roundF fp32 .nearestEven keep t.1
    let inv := isNanF y || (isNanF t.1 && !isNanF x.1)
    ⟨z.code, harpFlags (r2.flags ||| x.2 ||| z.flags ||| flagIf inv fInvalid)⟩

/-- The end of K-block `j` in every active cell. -/
def endBlock (s : State) (g slot : Nat) (d : List Byte) (j : Nat) : Harp × Word :=
  let h := harpOf s g
  let r := if narrowCode (hFmt d 0) then
      (activeCells d).foldl (fun (r : Harp × Word) c =>
        let cell := 128 * c.1 + c.2
        let v := blockValue (unitExp (hElem d 0) + unitExp (hElem d 1)) (tget 0 h.blk cell) (tget 0 h.nan cell)
        let z := blockEnd (hFlag d 4) (tget 0 (r.1.tile (hTile d)) cell).toNat v (hScale s g slot d 0 j c.1) (hScale s g slot d 1 j c.2)
        (r.1.setTile (hTile d) (tset 0 (r.1.tile (hTile d)) cell (BitVec.ofNat 32 z.code)), r.2 ||| z.flags)) (h, 0)
    else (h, 0)
  ({ r.1 with blk := [], nan := [], kstep := 0 }, r.2)

end Sys2Proof.Machine
end

