-- ==== Sys2Proof/Machine/LongOps.lean ====
section
/-!
DEFINITION. Long instructions: progress blocks, issue, units, stops (R123 to R129).
-/
namespace Sys2Proof.Machine

/-! ## Progress blocks (R123, R124) -/

/-- POS. -/
def lPos (c : Course) (p : Nat) : Nat := (ureg c p).toNat
/-- PHASE. -/
def lPhase (c : Course) (p : Nat) : Nat := (ureg c (p + 3)).toNat % 4
/-- STOPS. -/
def lStops (c : Course) (p : Nat) : Nat := bits (ureg c (p + 3)).toNat 31 16
/-- CAUSE. -/
def lCause (c : Course) (p : Nat) : Nat := bits (ureg c (p + 3)).toNat 10 8
/-- Write a progress block. -/
def setProgress (c : Course) (p pos phase cause stops : Nat) : Course :=
  setU (setU (setU (setU c p (BitVec.ofNat 32 pos)) (p + 1) 0) (p + 2) 0) (p + 3)
    (BitVec.ofNat 32 (phase + cause * 2 ^ 8 + stops * 2 ^ 16))

/-- BAD_DESCRIPTOR. -/
def badDescriptor (g : Nat) : Ending := protEnd 0x1B g 0
/-- BAD_PROGRESS. -/
def badProgress (g : Nat) : Ending := protEnd 0x1A g 0
/-- BAD_DRAIN. -/
def badDrain (g : Nat) : Ending := protEnd 0x1D g 0

/-- R123: the legality of a long instruction. -/
def longForm (b : InstrBits) : Bool :=
  guardOk b && !b.gen && !b.op5 && !b.bu && !b.cu && b.du && decide (fldD b % 4 = 0) && decide (fldD b ≤ 60) &&
    Form.ok .ureg b.au (fldA b) && decide (bits b.low.toNat 28 0 = 0)

/-- What a long instruction is: kind, unit count, check of the descriptor, the end where the check passes and its
operands do not fit. -/
structure LongKind where
  kind : Nat
  units : List Byte → Nat
  ok : List Byte → Bool
  fits : Nat → List Byte → Bool
  waits : State → List Byte → Bool

/-! ## HSEQ (R127) -/

/-- R127: an HSEQ waits while another runs, and while its tile is not IDLE. -/
def hseqWaits (g : Nat) (s : State) (d : List Byte) : Bool :=
  isOn s (hseqBusy g) || decide ((harpOf s g).st (hTile d) ≠ .idle)

/-- HSEQ. -/
def hseqKind (g : Nat) : LongKind := ⟨0, hBlocks, hseqOk, hseqFits, hseqWaits g⟩

/-! ## Races of a long instruction (R125) -/

/-- The number under which a course's own long instruction logs its writes. -/
def longWho (g slot : Nat) : Nat := 64 * g + slot + 1

/-- Whether the destination of the long instruction in progress holds undefined contents. -/
def longWild (s : State) (g slot : Nat) : Bool :=
  match (courseOf s g slot).opened with
  | some o => o.wild
  | none => false

/-- It does from now on. -/
def setWild (g slot : Nat) (s : State) : State :=
  let c := courseOf s g slot
  match c.opened with
  | some o => setCourse s g slot { c with opened := some { o with wild := true } }
  | none => s

/-- The writes of others since the first issue of a course's long instruction. -/
def longRaces (s : State) (g slot : Nat) : List WriteRec :=
  match (courseOf s g slot).opened with
  | some o => racing s o.seen (longWho g slot)
  | none => []

/-- Whether one of some writes reaches bytes of the course's consort memory. -/
def hitsCmem (ws : List WriteRec) (s : State) (g slot off n : Nat) : Bool := hits ws (2 + g) (cmemBase s g slot + off) n

/-! ## TMOV (R128) -/

/-- SRC or DST (`e` 0 or 1). -/
def tAddr (d : List Byte) (e : Nat) : Nat := fieldOf d (8 * e) 8
/-- Whether an end lies in consort memory. -/
def tCmem (d : List Byte) (e : Nat) : Bool := decide (bits (fieldOf d 16 1) (2 * e + 1) (2 * e) = 1)
/-- HINT. -/
def tHint (d : List Byte) : Nat := bits (fieldOf d 16 1) 5 4
/-- Element bytes. -/
def tElem (d : List Byte) : Nat := 2 ^ fieldOf d 17 1
/-- Extent `i`. -/
def tExt (d : List Byte) (i : Nat) : Nat := fieldOf d (20 + 2 * i) 2
/-- Byte stride of dimension `i` of an end. -/
def tStride (d : List Byte) (e i : Nat) : Nat := fieldOf d (32 + 12 * e + 4 * (i - 1)) 4
/-- The bytes of a row. -/
def tRow (d : List Byte) : Nat := tExt d 0 * tElem d
/-- The rows. -/
def tRows (d : List Byte) : Nat := tExt d 1 * tExt d 2 * tExt d 3
/-- The place of row `r` of an end. -/
def tPlace (d : List Byte) (e r : Nat) : Nat :=
  let i1 := r % tExt d 1
  let i2 := r / tExt d 1 % tExt d 2
  let i3 := r / tExt d 1 / tExt d 2
  (tAddr d e + i1 * tStride d e 1 + i2 * tStride d e 2 + i3 * tStride d e 3) % 2 ^ 64

/-- The check of a TMOV descriptor. -/
def tmovOk (d : List Byte) : Bool :=
  decide (fieldOf d 16 1 < 64) && decide (fieldOf d 16 1 % 4 ≤ 1) && decide (bits (fieldOf d 16 1) 3 2 ≤ 1) && decide (tHint d ≤ 2) &&
    decide (fieldOf d 17 1 ≤ 3) && decide (1 ≤ fieldOf d 18 1) && decide (fieldOf d 18 1 ≤ 4) && decide (fieldOf d 19 1 = 0) &&
    decide (fieldOf d 28 4 = 0) && decide (fieldOf d 56 8 = 0) &&
    (List.range 4).all (fun i => decide (1 ≤ tExt d i) && (decide (i < fieldOf d 18 1) || decide (tExt d i = 1))) &&
    decide (tRow d ≤ 4096) &&
    [0, 1].all (fun e => (!tCmem d e || decide (fieldOf d (8 * e + 4) 4 = 0)) && decide (tAddr d e % tElem d = 0) &&
      [1, 2, 3].all (fun i => decide (tExt d i = 1) || decide (tStride d e i % tElem d = 0)))

/-- Whether row `x` of one end meets a row of the other with the same second and third index, by their places. -/
def rowsMeet (base stride count n x : Nat) : Bool :=
  let m := if x < base + n ∨ stride = 0 then 0 else (x - (base + n)) / stride + 1
  decide (m < count) && decide (base + m * stride < x + n) && decide (x < base + m * stride + n)

/-- The last byte of an end, and one. -/
def tEnd (d : List Byte) (e : Nat) : Nat :=
  tAddr d e + (tExt d 1 - 1) * tStride d e 1 + (tExt d 2 - 1) * tStride d e 2 + (tExt d 3 - 1) * tStride d e 3 + tRow d

/-- R125: whether source and destination overlap. (DESIGN CHOICE, log entry 66.) -/
def tmovOverlap (d : List Byte) : Bool :=
  decide (tCmem d 0 = tCmem d 1) && decide (tAddr d 0 < tEnd d 1) && decide (tAddr d 1 < tEnd d 0) &&
    (List.range (tRows d)).any (fun r => (List.range (tExt d 3)).any (fun i3 => (List.range (tExt d 2)).any (fun i2 =>
      rowsMeet (tAddr d 0 + i2 * tStride d 0 2 + i3 * tStride d 0 3) (tStride d 0 1) (tExt d 1) (tRow d) (tPlace d 1 r))))

/-- TMOV. -/
def tmovKind : LongKind := ⟨1, tRows, tmovOk, fun _ _ => true, fun _ _ => false⟩

/-! ## RSEQ (R129) -/

/-- TYPE. -/
def rType (d : List Byte) : Nat := fieldOf d 23 1
/-- The bytes of a source element. -/
def rElem (d : List Byte) : Nat := if rType d = 1 ∨ rType d = 2 then 2 else 4
/-- Whether the source is GLOBAL. -/
def rGlobal (d : List Byte) : Bool := bit (fieldOf d 24 1) 0
/-- LEN. -/
def rLen (d : List Byte) : Nat := fieldOf d 20 2
/-- The place of source row `r`. -/
def rPlace (d : List Byte) (r : Nat) : Nat := (fieldOf d 0 8 + r * fieldOf d 12 4) % 2 ^ 64
/-- DST. -/
def rDst (d : List Byte) : Nat := fieldOf d 8 4

/-- The check of an RSEQ descriptor. -/
def rseqOk (d : List Byte) : Bool :=
  decide (1 ≤ fieldOf d 16 4) && decide (1 ≤ rLen d) && decide (rLen d ≤ 4096) && decide (fieldOf d 22 1 ≤ 2) && decide (rType d ≤ 3) &&
    decide (fieldOf d 24 1 < 4) && decide (fieldOf d 25 39 = 0) && (rGlobal d || decide (fieldOf d 4 4 = 0)) &&
    decide (fieldOf d 0 8 % rElem d = 0) && decide (fieldOf d 12 4 % rElem d = 0) && decide (rDst d % 4 = 0)

/-- RSEQ. -/
def rseqKind : LongKind := ⟨2, fun d => fieldOf d 16 4, rseqOk, fun _ _ => true, fun _ _ => false⟩

/-- The kind of a running long instruction. -/
def kindOf (g k : Nat) : LongKind := if k = 0 then hseqKind g else if k = 1 then tmovKind else rseqKind

/-! ## Issue, completion and stops (R124) -/

/-- The Harp and its register while an HSEQ of course `slot` runs on a tile, or runs no more. -/
def hseqRuns (g slot tile : Nat) (on : Bool) (s : State) : State :=
  let h := (harpOf s g).setSt tile (if on then .accumulating slot else .idle)
  setB (setB (setHarp g { h with kstep := 0, blk := [], nan := [] } s) (hseqBusy g) on) (hseqTile g) (on && decide (tile = 1))

/-- A course's long instruction has run all its units: flags merge, PHASE is DONE, the course goes on. -/
def longDone (g slot : Nat) (l : LongRun) (s : State) : State :=
  let c := courseOf s g slot
  let c := setProgress (raiseFlags c l.flags) l.prog (lPos c l.prog) 2 (lCause c l.prog) (lStops c l.prog)
  closeRace (retire g slot { c with long := none, opened := none } s)

/-- A long instruction stops before unit POS: flags merge, CAUSE and STOPS are recorded, the pc stays. -/
def longStop (g slot cause : Nat) (l : LongRun) (s : State) : State :=
  let c := courseOf s g slot
  let c := setProgress (raiseFlags c l.flags) l.prog (lPos c l.prog) 1 cause (min (lStops c l.prog + 1) 0xFFFF)
  setCourse s g slot { c with long := none }

/-- The descriptor of a running long instruction: the one that it read at its first issue, while it is noted. -/
def longDesc (s : State) (g slot : Nat) (l : LongRun) : List Byte :=
  match (courseOf s g slot).opened with
  | some o => o.desc
  | none => cmemRead s g slot l.desc 64

/-- R125: the first issue of a long instruction, or the next one of an instruction under way. -/
def longOpen (k : LongKind) (g slot : Nat) (fresh : Bool) (d : List Byte) (s : State) : State :=
  if !fresh && (courseOf s g slot).opened.isSome then s
  else
    let s := setCourse s g slot { courseOf s g slot with opened := none }
    let r := openRace s
    setCourse r.1 g slot { courseOf r.1 g slot with opened := some ⟨r.2, d, decide (k.kind = 1) && tmovOverlap d⟩ }

/-- The issue of a long instruction. (DEDUCED, log entry 35.) -/
def longIssue (k : LongKind) (g slot : Nat) (b : InstrBits) (s : State) : State :=
  issue g slot (longForm b && decide ((courseOf s g slot).pour = .closed)) 0 s (fun c =>
    let s := endRsv g slot s
    let p := fldD b
    let off := (ureg c (fldA b)).toNat
    let size := cmemSize s g slot
    let fresh := decide (lPhase c p = 0)
    let d := if fresh then cmemRead s g slot off 64 else longDesc s g slot ⟨k.kind, p, off, 0⟩
    if k.kind = 0 ∧ !(consortOf s g c.consort).harp then failCourse g slot (regRangeEnd g) s
    else if k.kind ≠ 0 ∧ harpPending s g slot then s
    else if off % 64 ≠ 0 then failCourse g slot (badDescriptor g) s
    else if lPhase c p = 3 then failCourse g slot (badProgress g) s
    else if lPhase c p = 2 then retire g slot (courseOf s g slot) s
    else if size < off + 64 then failCourse g slot (cmemEnd g) s
    else if lPhase c p = 0 ∧ !k.ok d then failCourse g slot (badDescriptor g) s
    else if lPhase c p = 0 ∧ !k.fits size d then failCourse g slot (cmemEnd g) s
    else if k.waits s d then s
    else
      let s := longOpen k g slot fresh d s
      let c := courseOf s g slot
      let c := if fresh then setProgress c p 0 1 0 0 else c
      let l : LongRun := ⟨k.kind, p, off, 0⟩
      let s := setCourse s g slot { c with long := some l }
      let s := if k.kind = 0 then hseqRuns g slot (hTile d) true s else s
      let s := if k.kind = 0 ∧ fresh ∧ hFlag d 1 then
          setHarp g ((harpOf s g).setTile (hTile d) (clearRegion (hExt d 0) (hExt d 1) ((harpOf s g).tile (hTile d)))) s
        else s
      if lPos c p < k.units d then s
      else longDone g slot l (if k.kind = 0 then hseqRuns g slot (hTile d) false s else s))

/-! ## Units -/

/-- A whole GLOBAL row read by a course's long instruction (HINT as in R110). -/
def rowRead (g slot hint : Nat) (a : Acc2) (va n : Nat) (s : State) : State × Got (List Byte) :=
  let ps := rowPieces va n
  let len := fun o => ((ps.find? (fun p => decide (p.1 = o))).map (fun p => p.2.2)).getD 0
  match laneTargets a false (ps.map (fun p => (p.1, p.2.1))) s with
  | (s, .wait) => (s, .wait)
  | (s, .fail e) => (s, .fail e)
  | (s, .ok ts) =>
    match eachLane (fun x s => loadCheck g slot hint false a x.2.2 x.2.1 (len x.1) s) ts s with
    | (s, .wait) => (s, .wait)
    | (s, .fail e) => (s, .fail e)
    | (s, .ok _) =>
      match eachLane (fun x s => loadTarget g slot hint false a x.2.2 x.2.1 (len x.1) s) ts s with
      | (s, .wait) => (s, .wait)
      | (s, .fail e) => (s, .fail e)
      | (s, .ok vs) => (s, .ok (vs.flatMap Prod.snd))

/-- The targets of a GLOBAL row to be written, each piece ready to be stored. -/
def rowReady (g slot : Nat) (a : Acc2) (va n : Nat) (s : State) : State × Got (List (Nat × Nat × Target)) :=
  match laneTargets a true ((rowPieces va n).map (fun p => (p.1, p.2.1))) s with
  | (s, .wait) => (s, .wait)
  | (s, .fail e) => (s, .fail e)
  | (s, .ok ts) =>
    match eachLane (fun x s => storeCheck g slot a x.2.2 x.2.1 s) ts s with
    | (s, .wait) => (s, .wait)
    | (s, .fail e) => (s, .fail e)
    | (s, .ok _) => (s, .ok ts)

/-- A GLOBAL row's bytes are stored. -/
def rowStore (g slot hint va : Nat) (ts : List (Nat × Nat × Target)) (bs : List Byte) (s : State) : State :=
  asCourse g slot (fun s => (rowPieces va bs.length).foldl (fun s p =>
    match ts.find? (fun x => decide (x.1 = p.1)) with
    | some x => storeTarget g slot hint (courseAccess s g slot) x.2.2 x.2.1 ((bs.drop p.1).take p.2.2) s
    | none => s) s) s

/-- TMOV performs row `r` (R128). -/
def tmovUnit (g slot : Nat) (d : List Byte) (r : Nat) (s : State) : State × Got Word :=
  let a := courseAccess s g slot
  let n := tRow d
  let src := tPlace d 0 r
  let dst := tPlace d 1 r
  let size := cmemSize s g slot
  let out := fun e => tCmem d e && decide (size < tPlace d e r + n)
  if out 0 ∨ out 1 then (s, .fail (cmemEnd g))
  else
    let ready : State × Got (List (Nat × Nat × Target)) := if tCmem d 1 then (s, .ok []) else rowReady g slot a dst n s
    match ready with
    | (s, .wait) => (s, .wait)
    | (s, .fail e) => (s, .fail e)
    | (s, .ok ts) =>
      let got : State × Got (List Byte) := if tCmem d 0 then (seenTurn g slot s, .ok (cmemRead s g slot src n)) else rowRead g slot (tHint d) a src n s
      match got with
      | (s, .wait) => (s, .wait)
      | (s, .fail e) => (s, .fail e)
      | (s, .ok bs) =>
        let bs := if longWild s g slot then freeBytes s.free n else bs
        let s := if longWild s g slot then bumpFree s 1 else s
        (endReads (.course g slot) (if tCmem d 1 then cmemWrite g slot dst bs s else rowStore g slot (tHint d) dst ts bs s), .ok 0)

/-- R125: a row that TMOV has written holds undefined contents. -/
def forgetRow (g slot : Nat) (d : List Byte) (r : Nat) (s : State) : State :=
  let bs := freeBytes s.free (tRow d)
  let dst := tPlace d 1 r
  bumpFree (if tCmem d 1 then cmemWrite g slot dst bs s
    else
      match rowReady g slot (courseAccess s g slot) dst (tRow d) s with
      | (s, .ok ts) => rowStore g slot (tHint d) dst ts bs s
      | _ => s) 1

/-- The FP32 or INT32 value of a source element of RSEQ, with the flags of reading it; no NaN's payload or sign is carried
(R160). -/
def rseqElem (d : List Byte) (keep : Bool) (x : Nat) : Res :=
  if rType d = 3 then ⟨x, 0⟩
  else
    let f := if rType d = 1 then bf16 else if rType d = 2 then fp16 else fp32
    let c := flushCode f keep x
    if rType d = 0 then ⟨if isNanF (decodeF fp32 c.1) then nanCode fp32 else c.1, c.2⟩
    else ⟨(roundF fp32 .nearestEven true (decodeF f c.1)).code, c.2 ||| flagIf (isSnanF (decodeF f c.1)) fInvalid⟩

/-- One accumulation of RSEQ.  Every bit that its FP32 arithmetic raises is merged, UNDERFLOW and INEXACT too. (DESIGN CHOICE, log
entry 114.) -/
def rseqCombine (d : List Byte) (keep : Bool) (acc x : Nat) : Res :=
  let op := fieldOf d 22 1
  if rType d = 3 then
    (if op = 0 then ⟨(acc + x) % 2 ^ 32, 0⟩
     else if (sext 32 acc < sext 32 x) = (op = 1) then ⟨x, 0⟩ else ⟨acc, 0⟩)
  else if op = 0 then fAdd fp32 .nearestEven keep false false acc x
  else fMinMax fp32 keep (decide (op = 1)) false false acc x

/-- RSEQ combines source row `r` (R129). -/
def rseqUnit (g slot : Nat) (d : List Byte) (r : Nat) (s : State) : State × Got Word :=
  let n := rLen d * rElem d
  let size := cmemSize s g slot
  let keep := aswSubn (courseOf s g slot)
  if size < rDst d + 4 * rLen d ∨ (!rGlobal d ∧ size < rPlace d r + n) then (s, .fail (cmemEnd g))
  else
    let got : State × Got (List Byte) :=
      if rGlobal d then rowRead g slot 0 (courseAccess s g slot) (rPlace d r) n s else (seenTurn g slot s, .ok (cmemRead s g slot (rPlace d r) n))
    match got with
    | (s, .wait) => (s, .wait)
    | (s, .fail e) => (s, .fail e)
    | (s, .ok bs) =>
      let old := cmemRead s g slot (rDst d) (4 * rLen d)
      let rs := (List.range (rLen d)).map (fun j =>
        let x := rseqElem d keep (fieldOf bs (rElem d * j) (rElem d))
        if bit (fieldOf d 24 1) 1 && decide (r = 0) then x
        else
          let z := rseqCombine d keep (fieldOf old (4 * j) 4) x.code
          ⟨z.code, x.flags ||| z.flags⟩)
      let out := if longWild s g slot then freeBytes s.free (4 * rLen d) else packElems 32 (rs.map (fun x => x.code))
      let s := if longWild s g slot then bumpFree s 1 else s
      (endReads (.course g slot) (cmemWrite g slot (rDst d) out s), .ok (resFlags rs))

/-- R125: the tile's region that an HSEQ adds to holds undefined contents. -/
def forgetTile (u : Nat) (d : List Byte) (h : Harp) : Harp :=
  h.setTile (hTile d) ((activeCells d).foldl (fun t c =>
    tset 0 t (128 * c.1 + c.2) (BitVec.ofNat 32 (Config.freeValue (u + 128 * c.1 + c.2)))) (h.tile (hTile d)))

/-- R125: whether others have written what K-step `k` of K-block `j` reads. -/
def stepRaced (s : State) (g slot : Nat) (l : LongRun) (d : List Byte) (j k : Nat) : Bool :=
  let ws := longRaces s g slot
  hitsCmem ws s g slot l.desc 64 || [0, 1].any (fun op =>
    hitsCmem ws s g slot (hOff d op + j * hStride d op + k * hStepBytes d op) (((hElem d op).width * hExt d op + 7) / 8))

/-- R125: whether others have written the scales that the end of K-block `j` reads. -/
def blockRaced (s : State) (g slot : Nat) (d : List Byte) (j : Nat) : Bool :=
  let ws := longRaces s g slot
  [0, 1].any (fun op => decide (hSc d op ≠ 0) &&
    hitsCmem ws s g slot (hScOff d op + j * hSteps d / scSize (hSc d op) * hGroupBytes (hSc d op)) (hGroupRead d op))

/-- R125: whether others have written bytes of a GLOBAL row. -/
def rowRaced (s : State) (g slot va n : Nat) : Bool :=
  let ws := longRaces s g slot
  !ws.isEmpty && (rowPieces va n).any (fun p => pieceRaced ws (courseAccess s g slot) p s)

/-- R125: whether others have written the descriptor, or what the next unit reads, since the first issue. -/
def unitRaced (s : State) (g slot : Nat) (l : LongRun) (d : List Byte) (pos : Nat) : Bool :=
  let ws := longRaces s g slot
  hitsCmem ws s g slot l.desc 64 ||
    (if l.kind = 0 then blockRaced s g slot d pos
     else if l.kind = 1 then
       (if tCmem d 0 then hitsCmem ws s g slot (tPlace d 0 pos) (tRow d) else rowRaced s g slot (tPlace d 0 pos) (tRow d))
     else
       (if rGlobal d then rowRaced s g slot (rPlace d pos) (rLen d * rElem d)
        else hitsCmem ws s g slot (rPlace d pos) (rLen d * rElem d)) ||
         (!(bit (fieldOf d 24 1) 1 && decide (pos = 0)) && hitsCmem ws s g slot (rDst d) (4 * rLen d)))

/-- R125: a race makes the destination undefined: what is written from now on, and the rows that TMOV has written. -/
def noteRace (g slot : Nat) (l : LongRun) (d : List Byte) (pos : Nat) (raced : Bool) (s : State) : State :=
  if raced && (courseOf s g slot).opened.isSome && !longWild s g slot then
    let s := setWild g slot s
    if l.kind = 1 then (List.range pos).foldl (fun s r => forgetRow g slot d r s) s else s
  else s

/-- HSEQ ends K-block `j`, once every K-step of it has issued (R127). -/
def hseqUnit (g slot : Nat) (d : List Byte) (j : Nat) (s : State) : State × Got Word :=
  if (harpOf s g).kstep < hSteps d then (s, .wait)
  else
    let r := endBlock s g slot d j
    let h := if longWild s g slot then forgetTile s.free d r.1 else r.1
    let s := if longWild s g slot then bumpFree s 16384 else s
    (setHarp g h s, .ok r.2)

/-- One unit of a long instruction. -/
def longUnit (g slot : Nat) (l : LongRun) (s : State) : State × Got Word :=
  let d := longDesc s g slot l
  let pos := lPos (courseOf s g slot) l.prog
  let n := s.race.writes.length
  let s := noteRace g slot l d pos (unitRaced s g slot l d pos) s
  let r := if l.kind = 0 then hseqUnit g slot d pos s else if l.kind = 1 then tmovUnit g slot d pos s else rseqUnit g slot d pos s
  (markOwn (longWho g slot) n r.1, r.2)

/-- R124: the stop requested of a course, if any: by its switch-out, a drain, or the scheduler's move. -/
def stopCause (s : State) (g slot stop : Nat) : Nat :=
  let c := courseOf s g slot
  match (consortOf s g c.consort).saving with
  | some k => k
  | none => if c.halted then 3 else if stop ≤ 3 then stop else 0

end Sys2Proof.Machine
end

