-- ==== Sys2Proof/Machine/Long.lean ====
section
/-!
DEFINITION. The HARP and LONG classes: HSEQ, TMOV, RSEQ, HZERO, HDRAIN, and their events (R124 to R130, R135, R148 to
R150).
-/
namespace Sys2Proof.Machine

/-- HSEQ (R127). -/
def execHseq (g slot : Nat) (b : InstrBits) (s : State) : Out := whenFetched (wordOf 11 0 b) g slot s <| .next (longIssue (hseqKind g) g slot b s)
/-- TMOV (R128). -/
def execTmov (g slot : Nat) (b : InstrBits) (s : State) : Out := whenFetched (wordOf 11 1 b) g slot s <| .next (longIssue tmovKind g slot b s)
/-- RSEQ (R129). -/
def execRseq (g slot : Nat) (b : InstrBits) (s : State) : Out := whenFetched (wordOf 11 2 b) g slot s <| .next (longIssue rseqKind g slot b s)

/-- A unit that cannot be performed yet waits; one that waits for its page stops the instruction before it, with CAUSE 1 (R124,
R128, R129). -/
def unitWaits (g slot : Nat) (l : LongRun) (s : State) : State :=
  if (courseOf s g slot).faultVa.isSome ∧ l.kind ≠ 0 then longStop g slot 1 l s else s

/-- R92, R93: a long instruction of a consort that stands still for a page is held at its boundary until the consort is switched
out, ordered to drain, or goes on. -/
def longHeld (s : State) (g slot : Nat) : Bool :=
  stalled s g (courseOf s g slot).consort && (consortOf s g (courseOf s g slot).consort).saving.isNone && !(courseOf s g slot).halted

/-- LONG_UNIT_COMPLETE (R124): one unit is performed in full; a requested stop takes effect; the last unit ends the
instruction. -/
def execLongUnitComplete (g slot stop : Nat) (s : State) : Out := whenOn s <|
  .next (
    match (courseOf s g slot).long with
    | none => s
    | some l =>
      if !(courseOf s g slot).live || longHeld s g slot then s
      else
        let d := longDesc s g slot l
        match longUnit g slot l s with
        | (s, .wait) => unitWaits g slot l s
        | (s, .fail e) => failCourse g slot e s
        | (s, .ok fl) =>
          let c := courseOf s g slot
          let pos := lPos c l.prog + 1
          let l := { l with flags := l.flags ||| fl }
          let s := setCourse s g slot { setU c l.prog (BitVec.ofNat 32 pos) with long := some l }
          let cause := stopCause s g slot stop
          let free := fun s => if l.kind = 0 then hseqRuns g slot (hTile d) false s else s
          if cause ≠ 0 then longStop g slot cause l (free s)
          else if pos < (kindOf g l.kind).units d then s
          else longDone g slot l (free s))

/-- The course whose HSEQ runs on core `g`. -/
def hseqCourse (s : State) (g : Nat) : Option Nat :=
  match (harpOf s g).s0, (harpOf s g).s1 with
  | .accumulating k, _ => some k
  | _, .accumulating k => some k
  | _, _ => none

/-- HARP_K_STEP_ISSUE (R135). -/
def execHarpKStepIssue (g : Nat) (s : State) : Out := whenOn s <|
  .next (
    match hseqCourse s g with
    | none => s
    | some slot =>
      match (courseOf s g slot).long with
      | none => s
      | some l =>
        let d := longDesc s g slot l
        let k := (harpOf s g).kstep
        let j := lPos (courseOf s g slot) l.prog
        if hSteps d ≤ k ∨ hBlocks d ≤ j then s
        else
          let s := noteRace g slot l d j (stepRaced s g slot l d j k) s
          let r := kStep s g slot d j k
          let s := setHarp g { r.1 with kstep := k + 1 } s
          let s := seenTurn g slot s
          countCore g 0x04 1 (setCourse s g slot { courseOf s g slot with long := some { l with flags := l.flags ||| r.2 } }))

/-- R73, R130: an instruction of the HARP class: only the owning consort may issue it. (DEDUCED, log entry 34.)  HZERO and HDRAIN
end no reservation: R117's list does not name them. (DEDUCED, log entry 115.) -/
def harpIssue (g slot : Nat) (legal : Bool) (s : State) (k : Course → State → State) : State :=
  issue g slot (legal && decide ((courseOf s g slot).pour = .closed)) 0 s (fun c =>
    if !(consortOf s g c.consort).harp then failCourse g slot (regRangeEnd g) s else k c s)

/-- HZERO (R130, R150): it waits for its tile, then clears it while the course goes on; the tiles may both be ZEROING (R133), and
ZERO_TILE shows the one that began last. (DESIGN CHOICE, log entry 107.) -/
def execHzero (g slot : Nat) (b : InstrBits) (s : State) : Out := whenFetched (wordOf 10 0 b) g slot s <|
  let legal := guardOk b && !b.gen && !b.op5 && !b.du && !b.au && !b.bu && !b.cu && decide (b.low.toNat ≤ 1)
  .next (harpIssue g slot legal s (fun _ s =>
    let t := b.low.toNat
    if (harpOf s g).st t ≠ .idle then s
    else
      let s := setHarp g ((harpOf s g).setSt t (.zeroing slot)) s
      retire g slot (courseOf s g slot) (setF (setOn s (zeroBusy g)) (zeroTile g) t)))

/-- Whether a tile is ZEROING. -/
def TileState.isZeroing : TileState → Bool
  | .zeroing _ => true
  | _ => false

/-- HZERO_COMPLETE (R130): ZERO_BUSY and ZERO_TILE show the other tile where it is ZEROING too. -/
def execHzeroComplete (g tile : Nat) (s : State) : Out := whenOn s <|
  .next (
    if ((harpOf s g).st (tile % 2)).isZeroing then
      let h := ((harpOf s g).setTile (tile % 2) []).setSt (tile % 2) .idle
      let other := (h.st (1 - tile % 2)).isZeroing
      setF (setB (setHarp g h s) (zeroBusy g) other) (zeroTile g) (if other then 1 - tile % 2 else 0)
    else s)

/-- HDRAIN (R146 to R150): its descriptor is checked, it waits for its tile, then drains while the course goes on.  It waits too
while a drain of the other tile runs: the drain path is one. (DESIGN CHOICE, log entry 113.) -/
def execHdrain (g slot : Nat) (b : InstrBits) (s : State) : Out := whenFetched (wordOf 10 1 b) g slot s <|
  let legal := guardOk b && !b.gen && !b.op5 && !b.du && !b.bu && !b.cu && decide (fldD b = 0) && Form.ok .ureg b.au (fldA b) &&
    decide (bits b.low.toNat 28 0 = 0)
  .next (harpIssue g slot legal s (fun c s =>
    let off := (ureg c (fldA b)).toNat
    let size := cmemSize s g slot
    let d := cmemRead s g slot off 32
    if off % 8 ≠ 0 then failCourse g slot (badDrain g) s
    else if size < off + 32 then failCourse g slot (cmemEnd g) s
    else if !drainOk d then failCourse g slot (badDrain g) s
    else if !drainFits size d then failCourse g slot (cmemEnd g) s
    else if (harpOf s g).st (nTile d) ≠ .idle ∨ isOn s (drainBusy g) then s
    else
      let s := setHarp g ((harpOf s g).setSt (nTile d) (.draining slot (leNat d))) s
      retire g slot (courseOf s g slot) (setF (setOn (seenTurn g slot s) (drainBusy g)) (drainTile g) (nTile d))))

/-- HDRAIN_COMPLETE (R148, R149): the rows and scales are written; ZERO_AFTER clears what was read. -/
def execHdrainComplete (g : Nat) (s : State) : Out := whenOn s <|
  .next (
    match drainOf s g with
    | none => s
    | some (slot, d) =>
      let r := drainAll g slot d s
      let s := r.1
      let h := harpOf s g
      let h := if nFlag d 3 then h.setTile (nTile d) (clearRegion (nRows d) (nCols d) (h.tile (nTile d))) else h
      let s := setOff (setOff (setHarp g (h.setSt (nTile d) .idle) s) (drainBusy g)) (drainTile g)
      setCourse s g slot (raiseFlags (courseOf s g slot) r.2))

end Sys2Proof.Machine
end

