-- ==== Sys2Proof/Machine/RegOps.lean ====
section
/-!
DEFINITION. Host writes of register fields by their access types (R9, R10, R576).
-/
namespace Sys2Proof.Machine

/-- `old` with the bits of a mask taken from `new`. -/
def mergeBits (old new m : Nat) : Nat := old ^^^ ((old ^^^ new) &&& m)

/-- The bits of the enabled bytes of an eight-byte access. -/
def byteMask (be : Nat) : Nat := (List.range 8).foldl (fun a i => a + if bit be i then 0xFF * 2 ^ (8 * i) else 0) 0

/-- R576: the byte enables that a host access of a 64-bit register may have: either half or both. -/
def halfOk (be : Nat) : Bool := decide (be = 0x0F) || decide (be = 0xF0) || decide (be = 0xFF)

/-- What a field reads as (R570: TRC_TS reads TS). -/
def fieldNow (s : State) (f : FRef) : Nat := if f.off = 0x400028 then s.ts % 2 ^ 64 else getF s f

/-- R10: whether a hardware update of a field falls into the register cycle of the write under way.  TRC_TS changes in every
cycle (R550); an update that the write itself causes does; any other of the present AO tick may, and a free value says.
(DESIGN CHOICE, log entry 76.) -/
def meets (s : State) (f : FRef) : Bool :=
  let m := tget 0 s.touched f.key
  decide (f.off = 0x400028) || decide (m / 2 % 2 = 1) || (decide (m ≠ 0) && Config.freeBool s.free)

/-- Set a status bit of a block, if the block has it. -/
def setStatus (f : Option FRef) (s : State) : State := match f with | some w => setOn s w | none => s

/-- R9, R10: what a write does to one field: `value` and `mask` are those of its register. -/
def fieldWrite (mask value : Nat) (s : State) (f : FRef) : State :=
  let m := bits mask (f.lo + f.len - 1) f.lo
  let v := bits value (f.lo + f.len - 1) f.lo
  let old := fieldNow s f
  let met := decide (m ≠ 0) && meets s f
  let s := if tget 0 s.touched f.key = 0 then s else bumpFree s 1
  match f.acc with
  | .ro | .wo => s
  | .rw => putF s f (mergeBits old v m)
  | .cnt =>
    let s := putF s f (mergeBits old v m)
    if met then setStatus (lostOf f.off) s else s
  | .w1c =>
    let kept := if met then old &&& tget 0 s.touched f.key / 4 else 0
    putF s f ((old ^^^ (old &&& v &&& m)) ||| kept)
  | .w1s => putF s f (old ||| (v &&& m))
  | .hwu => if (old ^^^ v) &&& m = 0 ∧ met = false then s else setStatus (wignOf f.off) s

/-- A write to a list of fields of one register. -/
def fieldsWrite (mask value : Nat) (fs : List FRef) (s : State) : State := fs.foldl (fieldWrite mask value) s

/-- The value a write leaves in a read-write field. -/
def wouldBe (s : State) (mask value : Nat) (f : FRef) : Nat :=
  mergeBits (getF s f) (bits value (f.lo + f.len - 1) f.lo) (bits mask (f.lo + f.len - 1) f.lo)

/-- R29: a write to SCH_Q_CFG of queue `q`. -/
def queueCfgWrite (q mask value : Nat) (s : State) : State :=
  let locked := isOn s (qEnable q)
  let s := if locked then fieldsWrite mask value [qWeight q] s
    else fieldsWrite mask value [qSize q, qWeight q, qPasid q, qPasidEn q] s
  let en := wouldBe s mask value (qEnable q)
  if en = 1 ∧ locked = false ∧ (getF s (qSize q) < 6 ∨ 16 < getF s (qSize q)) then setOn s (qCfgErr q)
  else putF s (qEnable q) en

/-- R29: a write to SCH_Q_BASE of queue `q` is ignored while ENABLE reads 1. -/
def queueBaseWrite (q mask value : Nat) (s : State) : State :=
  if isOn s (qEnable q) then s else fieldsWrite mask value [qBase q] s

/-- R10, R576: the hardware updates that the first half of an 8 B write has caused fall into the cycle of its second half. -/
def sureSince (before : Tbl Nat) (s : State) : State :=
  { s with touched := s.touched.map (fun e => if before.contains e then e else (e.1, e.2 / 4 * 4 + 3)) }

/-- A write is over: no update is in its cycle any more. -/
def endCycle (s : State) : State := { s with touched := s.touched.map (fun e => (e.1, e.2 / 4 * 4 + 1)) }

end Sys2Proof.Machine
end

