-- ==== Sys2Proof/Machine/Rounds.lean ====
section
/-!
DEFINITION. The round-robin over the queues (R36 to R38), what a LAUNCH needs before it starts, and the shape of a command's
step.
-/
namespace Sys2Proof.Machine

/-! ## What a LAUNCH needs (R38, R39, R402, R408, R409) -/

/-- PATTERN_ROOT of a LAUNCH or PATCH. -/
def cRoot (c : Cmd) : Nat := fieldOf c.bytes 24 8
/-- RISER_ADDR. -/
def lRiser (c : Cmd) : Nat := fieldOf c.bytes 32 8
/-- RISER_LEN. -/
def lRiserLen (c : Cmd) : Nat := fieldOf c.bytes 40 4
/-- START_FRET. -/
def lStart (c : Cmd) : Nat := fieldOf c.bytes 48 8

/-- R39: a LAUNCH's own fields. -/
def launchOk (c : Cmd) : Bool := decide (lRiser c % 8 = 0) && decide (lRiserLen c ≤ 65536)

/-- R399: the fret clock is locked; the master times its own boundaries. -/
def fretLocked (s : State) : Bool := isOn s amxLocked || decide (getF s fretRole = 2)

/-- R402: whether port `p` is ACTIVE and its width carries its budget. -/
def portCarries (s : State) (pt : Pattern) (p : Nat) : Bool :=
  decide (getF s (pState p) = 2) && (!isOn s (pWidth p) || fretFits pt.hdr pt.fret (fun x => if x = p then 40 else 80))

/-- R521, R64, R408, R409, R402: what ends a LAUNCH before it starts, when its pattern is sound.
(DEDUCED, log entry 45.) -/
def launchRefusal (s : State) (c : Cmd) (pt : Pattern) : Option Ending :=
  let ports := bitList (fieldOf pt.fret 8 4) 24
  if lRiserLen c < 8 * hRiser pt.hdr then some badCommand
  else if (maskList (hMask pt.hdr)).any (fun cl => s.pmc.retired.contains cl) then some (faultEnd 0x22 0x2B (agFw 2) 0)
  else if !hSched pt.hdr then none
  else if s.boot.reduced then some ⟨stAborted, 0x70, 0x10, agFw 2, 0⟩
  else
    match ports.find? (fun p => !portCarries s pt p) with
    | some p => some (faultEnd 0x41 0x12 (agPort p) 0)
    | none =>
      if !fretLocked s then some (faultEnd 0x40 0x12 (agFw 2) 0)
      else if lStart c ≤ getF s amxFret then some (faultEnd 0x40 0x10 (agFw 2) 0)
      else
        match s.amx.aborts.find? (fun a => decide (a.1 = fieldOf pt.fret 4 2) && decide (a.2.1 = lStart c)) with
        | some a => some (faultEnd 0x41 0x10 (agPort a.2.2) 0)
        | none => none

/-- R526, R21: a cluster is flasked for a self-test. -/
def flasked (s : State) (agent : Nat) : Bool := isOn s bistActive && decide (getF s bistTarget = agent)

/-- R483, R521, R526: whether a cluster is reserved: an FWLOAD in progress still has to hand it over, or a TEST, RETIRE or
REINSTATE in progress names it. -/
def clusterReserved (s : State) (cl : Nat) : Bool :=
  s.sch.queues.any (fun e => match e.2.fetched.head? with
    | some c => c.started &&
        ((decide (cOp c = 10) && decide (fieldOf c.bytes 24 1 = 2) && decide (c.stage = 1) && bit (nth 0 c.work 0) cl) ||
         (decide (cOp c = 8) && decide (fieldOf c.bytes 24 1 ∈ [1, 3, 4]) && decide (fieldOf c.bytes 26 2 = agTundish cl)))
    | none => false)

/-- R38, R483, R526: whether a cluster can go to a new casting: no casting, not reserved, not under test. -/
def clusterFree (s : State) (cl : Nat) : Bool :=
  (clusterOf s cl).casting.isNone && !clusterReserved s cl && !flasked s (agTundish cl)

/-- R491 to R493: whether a cluster is ready to run: RUN or IDLE, its control core running. -/
def clusterReady (s : State) (cl : Nat) : Bool :=
  decide (powerOf s cl ≤ 1) && decide (tget 0 s.pmc.moving cl = 0) && fwRuns s (3 + cl)

/-- R38: a LAUNCH that meets the claimant's clusters is skipped. -/
def claimBars (s : State) (q mask : Nat) : Bool :=
  match s.sch.claimant with
  | some c => decide (c.q ≠ q) && decide (c.mask &&& mask ≠ 0)
  | none => false

/-- The clusters of a mask that are free now. -/
def freeMask (s : State) (mask : Nat) : Nat := ((maskList mask).filter (clusterFree s)).foldl (fun a cl => a + 2 ^ cl) 0

/-! ## The round-robin (R36 to R40) -/

/-- R36: queue `q` has a fetched, unstarted command at its head. -/
def hasUnstarted (s : State) (q : Nat) : Bool :=
  match headCmd s q with
  | some c => !c.started && decide (c.draining = 0)
  | none => false

/-- R39: STATUS_ADDR is 64 B aligned; the other common fields take every value. -/
def commonOk (c : Cmd) : Bool := decide (cStatus c % 64 = 0)

/-- Whether a waiter waits for a translation, a page or a host read. -/
def waitsFor (s : State) (w : Waiter) : Bool :=
  s.xl.ats.any (fun r => r.waiters.any (fun x => decide (x.1 = w))) ||
    s.xl.pri.any (fun g => (g.readers ++ g.writers).any (fun x => decide (x.1 = w))) ||
    s.xl.reads.any (fun r => decide (r.who = w) && !r.back)

/-- R37, R38: whether the round-robin, turning to a LAUNCH at the head of queue `q`, has anything to do: to ask for what the
LAUNCH must read, to end it, to make it the claimant, to wake its clusters or to start it.  One that waits, or that the claimant
bars, is passed over. (DEDUCED, log entry 44.) -/
def launchMay (s : State) (q : Nat) (c : Cmd) : Bool :=
  let waits := waitsFor s (.command q)
  if !commonOk c || !launchOk c then true
  else if waits && c.work.isEmpty then false
  else
    match readPattern (cmdAccess s q) (cRoot c) s with
    | (s', .wait) => !c.work.isEmpty || (waitsFor s' (.command q) && !waits)
    | (_, .fail _) => true
    | (_, .ok (_, _, pt)) =>
      let cls := maskList (hMask pt.hdr)
      if (launchRefusal s c pt).isSome then true
      else if claimBars s q (hMask pt.hdr) then false
      else if !cls.all (clusterFree s) then s.sch.claimant.isNone
      else cls.all (clusterReady s) || cls.any (fun cl => decide (1 < powerOf s cl) && !s.pmc.wake.contains cl)

/-- The queues whose oldest command is a started one of an opcode. -/
def startedQueues (s : State) (op : Nat) : List Nat :=
  (s.sch.queues.filter (fun e => match e.2.fetched.head? with
    | some c => c.started && decide (cOp c = op)
    | none => false)).map (fun e => e.1)

/-- R39, R481, R515: whether the processor that executes an opcode runs and executes no other command of its kind. -/
def executorFree (s : State) (q op : Nat) : Bool :=
  let alone := fun (qs : List Nat) => qs.all (fun x => decide (x = q))
  if op = 8 ∨ op = 9 then fwRuns s 1 && alone (startedQueues s 8 ++ startedQueues s 9)
  else if op = 10 then fwRuns s 0 && alone (startedQueues s 10)
  else true

/-- R37: whether queue `q` has a startable command. -/
def startable (s : State) (q : Nat) : Bool :=
  hasUnstarted s q && (match headCmd s q with
    | some c => executorFree s q (cOp c) && (decide (cOp c ≠ 1) || launchMay s q c)
    | none => false)

/-- R37: the queues with a startable command and credit, in the round in progress or in a new one. -/
def candidates (s : State) (fresh : Bool) : List Nat :=
  (s.sch.queues.filter (fun e =>
    decide ((if fresh then 0 else e.2.credit) < getF s (qWeight e.1)) && startable s e.1)).map (fun e => e.1)

/-- The first of some queues in ascending order that begins after queue `last`. -/
def nextAfter (last : Nat) (qs : List Nat) : Option Nat :=
  match qs.find? (fun q => decide (last < q)) with
  | some q => some q
  | none => qs.head?

/-- R37: whether some queue has both credit left in the round in progress and a startable command. -/
def roundGoesOn (s : State) : Bool := !(candidates s false).isEmpty

/-- R37: the queue whose turn it is: the one being visited while it has credit, else the next in ascending order; in a new round
the next after the queue last visited. (DEDUCED, log entry 44.) -/
def turn (s : State) : Option Nat :=
  let qs := candidates s false
  if qs.contains s.sch.last then some s.sch.last
  else if !qs.isEmpty then nextAfter s.sch.last qs
  else nextAfter s.sch.last (candidates s true)

/-- R37: queue `q` may start a command now. -/
def mayStart (s : State) (q : Nat) : Bool := decide (turn s = some q)

/-- R37: a queue that is visited uses one credit; where the round has ended, every queue's credit is new. -/
def useCredit (q : Nat) (s : State) : State :=
  let s := if roundGoesOn s then s else
    { s with sch := { s.sch with queues := s.sch.queues.map (fun e => (e.1, { e.2 with credit := 0 })) } }
  let x := queueOf s q
  let s := setQueue s q { x with credit := x.credit + 1 }
  { s with sch := { s.sch with last := q } }

/-- R36 to R39: the scheduler turns to the oldest command of queue `q`, when it may start: one whose opcode is not
listed, or whose common or own fields fail their check, ends BAD_COMMAND; one of another opcode is not this row's. -/
def begin (q op : Nat) (ok : Cmd → Bool) (s : State) (k : Cmd → State) : State :=
  if !schedulerUp s || !mayStart s q then s
  else
    match headCmd s q with
    | none => s
    | some c =>
      if cOp c < 1 ∨ 10 < cOp c then endCommand q badCommand 0 (useCredit q s)
      else if cOp c ≠ op then s
      else if !commonOk c || !ok c then endCommand q badCommand 0 (useCredit q s)
      else k c

/-- The oldest command of queue `q`, started and not yet ended, of an opcode. -/
def running (q op : Nat) (s : State) (k : Cmd → State) : State :=
  match headCmd s q with
  | none => s
  | some c => if c.started && decide (cOp c = op) && decide (c.draining = 0) then k c else s

/-- A command of queue `q` is started, if it has not been, and goes on. -/
def cmdStep (q op : Nat) (ok : Cmd → Bool) (s : State) (k : Cmd → State → State) : State :=
  match headCmd s q with
  | none => s
  | some c =>
    if c.started then running q op s (fun c => k c s)
    else begin q op ok s (fun c =>
      let s := startCommand q c (useCredit q s)
      match headCmd s q with
      | none => s
      | some c => k c s)

/-- End the oldest command with what an access gave. -/
def endWith {α : Type} (q : Nat) (r : State × Got α) (k : α → State → State) : State :=
  match r with
  | (s, .wait) => s
  | (s, .fail e) => endCommand q e 0 s
  | (s, .ok a) => k a s

end Sys2Proof.Machine
end

