-- ==== Sys2Proof/Machine/Queues.lean ====
section
/-!
DEFINITION. Host queues and castings (chapter 2, R471, R486): doorbells, fetching, queue resets, LAUNCH, PATCH, FENCE,
SEMA, budgets and the end of a casting.
-/
namespace Sys2Proof.Machine

/-! ## Doorbells, fetching and queue registers (R27 to R35) -/

/-- R32, R33, R431: a doorbell write. -/
def ringTail (q off size value : Nat) (s : State) : State :=
  if 512 ≤ q ∨ off ≠ 0 ∨ (size ≠ 4 ∧ size ≠ 8) ∨ s.powered = false then s
  else
    let v := value % 2 ^ 32
    if (v + 2 ^ 32 - getF s (qHead q)) % 2 ^ 32 ≤ 2 ^ getF s (qSize q) then setQueue s q { queueOf s q with tail := v, bell := s.aoTick }
    else setOn s (qErr q)

/-- TAIL (R32, R33, R431). -/
def execTail (q off size value : Nat) (s : State) : Out := whenOn s <| inOrder (.tail q off size value) s <|
  .next (ringTail q off size value s)

/-- Commands fetched and not started, in all queues (R484). -/
def unstartedCount (s : State) : Nat :=
  s.sch.queues.foldl (fun a e => a + (e.2.fetched.filter (fun c => !c.started)).length) 0

/-- R29, R33, R35, R337, R484: whether the scheduler may fetch from a queue now. -/
def mayFetch (s : State) (q : Nat) : Bool :=
  schedulerUp s && decide (q < 512) && isOn s (qEnable q) && decide (0 < getF s (qWeight q)) && !isOn s (qErr q) &&
    !isOn s (qResetBusy q) && !s.sch.shutdown && s.hpt.ats && (!isOn s (qPasidEn q) || s.hpt.pasid) &&
    decide ((queueOf s q).tail ≠ getF s (qHead q)) && decide (unstartedCount s < 1024)

/-- The address of the next ring entry of a queue. -/
def ringAddr (s : State) (q : Nat) : Nat :=
  getF s (qBase q) * 4096 + 64 * (getF s (qHead q) % 2 ^ getF s (qSize q))

/-- R34, R63: the entry's command is copied, HEAD advances, QUEUED is written. -/
def takeEntry (q : Nat) (bs : List Byte) (s : State) : State :=
  let c : Cmd := { bytes := (bs ++ List.replicate 64 0).take 64, tBell := (queueOf s q).bell }
  let s := writeRecord q c 1 0 0 noEnd s
  let x := queueOf s q
  incF (setQueue s q { x with fetched := x.fetched ++ [c.updated] }) (qHead q) 1

/-- R484: fetch one command; a ring entry that cannot be read stops the queue with Q_ERR (R439). -/
def fetchCommand (q : Nat) (st : HostStatus) (entry : List Byte) (s : State) : State :=
  if !mayFetch s q then s
  else
    let va := ringAddr s q
    match translate { cmdAccess s q with who := .command (1024 + q) } va false s with
    | (s, .wait) => s
    | (s, .fail _) => setOn s (qErr q)
    | (s, .ok ta) =>
      match targetOf s ta with
      | .dev dpa =>
        (match readTarget { cmdAccess s q with who := .command (1024 + q) } (.dev dpa) va 64 none s with
         | (s, .ok bs) => takeEntry q bs s
         | (s, .wait) => s
         | (s, .fail _) => setOn s (qErr q))
      | .host _ => if s.hpt.bme && decide (st = .success) then takeEntry q entry s else setOn s (qErr q)
      | .win _ _ => setOn s (qErr q)

/-- COMMAND_FETCH (R484). -/
def execCommandFetch (q : Nat) (st : HostStatus) (entry : List Byte) (s : State) : Out := whenOn s <| .next (fetchCommand q st entry s)

/-- R487: a watchdog's timeout in ms. -/
def wdtMs (s : State) (p : Nat) : Nat :=
  let v := getF s (fwWdt p)
  if v = 0 then 10 else max 2 (min 100 v)

/-- R477, R487: a processor's watchdog restarts: it will expire when its timeout has passed. (DEDUCED, log entry 96.) -/
def restartWdt (p : Nat) (s : State) : State :=
  { s with boot := { s.boot with wdt := tset 0 s.boot.wdt p (s.aoTick + 25000 * wdtMs s p) } }

/-- R471, R486: one pass of a processor's main loop, at most 1 ms long. -/
def loopPass (p us : Nat) (s : State) : State :=
  if 19 ≤ p ∨ !fwRuns s p ∨ 1000 < us ∨ s.powered = false then s
  else
    let ls := (us :: tget [] s.boot.loops p).take 1024
    let s := restartWdt p { s with boot := { s.boot with loops := tset [] s.boot.loops p ls } }
    setF s (fwLoopMax p) (ls.foldl max 0)

/-- SCH_Q_CFG_WRITE (R29). -/
def execSchQCfgWrite (q be value : Nat) (s : State) : Out := whenOn s <| inOrder (.schQCfgWrite q be value) s <|
  .next (if halfOk be && decide (q < 512) then queueCfgWrite q (byteMask be) value s else s)

/-- R35: a command ended by a queue reset before it started. -/
def hostReset (killed : Bool) : Ending := ⟨stAborted, if killed then 0x11 else 0x10, 0x10, agFw 2, 0⟩

/-- R35: end every fetched command that has not started, after the `keep` first. -/
def abortQueued (q keep : Nat) (s : State) : State :=
  let x := queueOf s q
  let out := x.fetched.drop keep
  let s := out.foldl (fun s c => writeRecord q { c with tStart := s.aoTick } stAborted s.aoTick 0 (hostReset false) s) s
  let x := queueOf s q
  setQueue s q { x with
    fetched := x.fetched.take keep
    ended := (x.ended.filter (fun n => !(out.map cSeq).contains n)) ++ out.map cSeq }

/-- The channels that run transfers of casting `k`. -/
def castingChans (s : State) (k : Nat) : List (Nat × Nat) :=
  s.spr.chans.flatMap (fun e => (e.2.filter (fun x => decide (x.2.casting = some k))).map (fun x => (e.1, x.1)))

/-- R378: a drain order reaches the channels of casting `k`. -/
def stopChans (k : Nat) (s : State) : State :=
  (castingChans s k).foldl (fun s x =>
    setChan s x.1 x.2 { chanOf s x.1 x.2 with stopping := true, stopAt := s.aoTick }) s

/-- R378: a kill resets the channels of casting `k` that still run; each writes its word. -/
def killChans (k : Nat) (s : State) : State :=
  (castingChans s k).foldl (fun s x =>
    if (chanOf s x.1 x.2).phase = .free ∨ (chanOf s x.1 x.2).phase = .publishing then s else endXfer x.1 x.2 (chanDrainEnd false true x.1) s) s

/-- R59, R120, R205, R95: the engines of casting `k` are ordered to drain: courses stop at the next instruction, open pours
abort with PREEMPT, stream commands stop after their current unit and nothing more is placed, and its switched-out consorts do
not come back. -/
def drainCasting (k : Nat) (s : State) : State :=
  let c := castingOf s k
  (maskList c.mask).foldl (fun s cl =>
    let s := (coresOf cl).foldl (fun s g =>
      let s := match (coreOf s g).ladle.holder with
        | some slot => if castingOfCourse s g slot = k then abortPour g slot 6 s else s
        | none => s
      setCore s g { coreOf s g with
        courses := (coreOf s g).courses.map (fun e => (e.1, { e.2 with halted := true }))
        images := (coreOf s g).images.map (fun i => { i with courses := i.courses.map (fun c => { c with halted := true }) }) }) s
    let x := clusterOf s cl
    setCluster s cl { x with
      stop := true
      queues := x.queues.map (fun e => (e.1, e.2.map (fun m => { m with stopped := true }))) }) (stopChans k s)

/-- R59: whether casting `k` has been ordered to drain. -/
def draining (s : State) (k : Nat) : Bool :=
  match headCmd s (castingOf s k).q with
  | some c => decide (c.slot = some k) && decide (c.draining ≠ 0)
  | none => false

/-- R59, R35: the oldest command of a queue is ordered to drain, for a budget expiry (1) or a queue reset (2).  The first order
stands: a queue reset that comes while the budget's drain is in progress leaves the command its end in TIMEOUT.
(DESIGN CHOICE, log entry 108.) -/
def orderDrain (q why : Nat) (s : State) : State :=
  match headCmd s q with
  | none => s
  | some c =>
    if !c.started || decide (c.draining ≠ 0) then s
    else
      let s := setHead s q { c with draining := why, drainLeft := s.aoTick }
      match c.slot with
      | some k => drainCasting k s
      | none => s

/-- R35: RESET is set: fetching stops, the started command drains, the others end. -/
def resetQueue (q : Nat) (s : State) : State :=
  if isOn s (qResetBusy q) then s
  else
    let s := setOn (setOn s (qReset q)) (qResetBusy q)
    let started := match headCmd s q with | some c => c.started | none => false
    let s := if started then s else dropClaim q (dropCmdWaits q s)
    orderDrain q 2 (abortQueued q (b2n started) s)

/-- QUEUE_RESET (R35). -/
def execQueueReset (q : Nat) (s : State) : Out := whenOn s <| inOrder (.queueReset q) s <|
  .next (if q < 512 then resetQueue q s else s)

/-- R35 step 4: with nothing of the queue left, HEAD is the last in-range TAIL. -/
def resetDone (q : Nat) (s : State) : State :=
  if isOn s (qResetBusy q) && (queueOf s q).fetched.isEmpty && s.powered then
    setOff (setOff (setF s (qHead q) (queueOf s q).tail) (qReset q)) (qResetBusy q)
  else s

/-- QUEUE_RESET_COMPLETE (R35). -/
def execQueueResetComplete (q : Nat) (s : State) : Out := whenOn s <| .next (resetDone q s)

/-! ## LAUNCH (R38, R41, R49 to R55, R402, R408, R409) -/

/-- R38: a LAUNCH whose clusters are not all free becomes the claimant, if there is none, and takes those that are.
(DEDUCED, log entry 50.) -/
def becomeClaimant (q mask : Nat) (s : State) : State :=
  let mine := { s with sch := { s.sch with claimant := some ⟨q, mask, freeMask s mask⟩ } }
  match s.sch.claimant with
  | some c => if c.q = q then mine else s
  | none => mine

/-- The riser's fields: those that the host port reads in host memory are in `host`. -/
def readRiser (a : Acc2) (c : Cmd) (n : Nat) (host : List Nat) (s : State) : State × Got (List Nat) :=
  match readOperand a (n / 16 + 2) (lRiser c) (8 * n) (host.flatMap (leBytes 8)) s with
  | (s, .wait) => (s, .wait)
  | (s, .fail e) => (s, .fail e)
  | (s, .ok bs) => (s, .ok ((List.range n).map (fun i => fieldOf bs (8 * i) 8)))

/-- R51: one INDIRECT field: the 8 B at the address it holds, or its end. -/
def readIndirect (a : Acc2) (fva va : Nat) (s : State) : State × Got Nat :=
  let bad := protEnd 0x12 (agFw 2) fva
  if va % 8 ≠ 0 then (s, .fail bad)
  else
    match translate a va false s with
    | (s, .wait) => (s, .wait)
    | (s, .fail e) => (s, .fail e)
    | (s, .ok ta) =>
      match targetOf s ta with
      | .dev dpa =>
        if (match placeOf (locOf dpa) with | .scratch _ _ | .sema _ _ => true | _ => false) then (s, .fail bad)
        else
          (match readTarget a (.dev dpa) va 8 none s with
           | (s, .wait) => (s, .wait)
           | (s, .fail e) => (s, .fail (if e.code = 0x30 then e
               else if e.sub = 0x2A then protEnd 0x2A (agFw 2) fva else bad))
           | (s, .ok bs) => (s, .ok (leNat bs)))
      | _ => (s, .fail bad)

/-- R50: the riser resolved, field by field: the values, a wait, or the casting's end. -/
def resolveRiser (a : Acc2) (m : List Byte) (addr : Nat) : Nat → List Nat → State → State × Got (List Nat)
  | _, [], s => (s, .ok [])
  | i, f :: fs, s =>
    let one := if riserKind m i = 1 then readIndirect a (addr + 8 * i) f s else (s, .ok f)
    match one with
    | (s, .wait) => (s, .wait)
    | (s, .fail e) => (s, .fail e)
    | (s, .ok v) =>
      match resolveRiser a m addr (i + 1) fs s with
      | (s, .ok vs) => (s, .ok (v :: vs))
      | r => r

/-- R563: the check of a watch descriptor. (DEDUCED, log entry 60.) -/
def watchOk (d : List Byte) : Bool :=
  let rb := fieldOf d 8 4
  let fmt := fieldOf d 23 1
  decide (rb % 8 = 0) && decide (8 ≤ rb) && decide (rb ≤ 2 ^ 24) && decide (1 ≤ fieldOf d 12 4) && decide (fieldOf d 12 4 ≤ 2 ^ 24) &&
    decide (rb ≤ fieldOf d 16 4) && decide (fieldOf d 22 1 ≤ 1) &&
    (if fieldOf d 22 1 = 0 then decide (fmt = 0) else (fmtOf fmt false).isSome && decide (fmt ≠ 3)) &&
    decide (fieldOf d 24 1 ≤ 1) && decide (fieldOf d 25 7 = 0) && (decide (fieldOf d 24 1 = 1) || decide (fieldOf d 0 8 < 2 ^ 24))

/-- R563, R564: an armed watch entry is read; a descriptor that cannot be read or breaks its table is not used. -/
def loadWatch (cl : Nat) (r : State × List Watch) (j : Nat) : State × List Watch :=
  let s := r.1
  if !isOn s (watchArmed cl j) then r
  else
    let dpa := 64 * getF s (watchDesc cl j)
    let x := if 2 ^ 46 ≤ dpa then Got.wait else devRead s (agEngine cl 7) dpa 32
    let s := readNote dpa x s
    match x with
    | .ok d => if watchOk d then (s, r.2 ++ [{ dpa := dpa, desc := d }]) else (setOn s trcWatchErr, r.2)
    | _ => (setOn s trcWatchErr, r.2)

/-- R104: the instruction caches of a cluster are invalidated. -/
def dropCode (cl : Nat) (s : State) : State :=
  (coresOf cl).foldl (fun s g => setCore s g { coreOf s g with icache := [] }) s

/-- R104, R190, R199, R223, R564: a cluster gets its command stream.  Where the scratch of another PASID has to be cleared,
CLEARING reads 1 until the control core places the first command. -/
def handOff (k ctx : Nat) (h : List Byte) (s : State) (cl : Nat) : State :=
  let x := clusterOf s cl
  let seg := (segOf h 1 cl).getD ⟨0, 0, 0, 0⟩
  let s := match x.lastCtx with
    | some c => if c = ctx then s else setOn (scrClear cl (fun w => isOn s (wayMode cl w)) s) (tunClearing cl)
    | none => s
  let s := [engFlag cl 0, engFlag cl 1, engFlag cl 2, engFlag cl 3, engSource cl, engOob cl].foldl setOff s
  let s := dropCode cl (toRun cl s)
  let ws := (List.range 4).foldl (loadWatch cl) (s, [])
  let s := ws.1
  setCluster s cl { x with
    casting := some k, strBase := seg.addr, strLen := seg.len, strPos := 0, strNum := 0, stop := false, bad := false, ended := false
    queues := [], lastCtx := some ctx, watches := ws.2 }

/-- R558: a CASTING record. -/
def traceCasting (k st code seq : Nat) (s : State) : State :=
  let c := castingOf s k
  traceEvent 16 0x04 (agFw 2) c.sched c.layer c.op (st + code * 256 + k * 2 ^ 16 + seq * 2 ^ 32) s

/-- R53: what a slot has prefetched of the casting that starts in it. -/
def prefetched (s : State) (k q seq : Nat) : Option Prefetch :=
  match s.sch.prefetch.find? (fun e => decide (e.1 = k)) with
  | some e => if e.2.q = q ∧ e.2.seq = seq then some e.2 else none
  | none => none

/-- R53: the command-stream segments of a version's clusters, each with its ADDR and length. -/
def streamSegs (h : List Byte) : List (Nat × Nat × Nat) :=
  ((segsOf h).filter (fun x => decide (x.typ = 1))).map (fun x => (x.cl, x.addr, x.len))

/-- R53: command-stream segments are fetched into the crucible, as far as a slot's 1 MiB goes. -/
def fetchStreams (a : Acc2) (segs : List (Nat × Nat × Nat)) (s : State) : State :=
  (segs.foldl (fun (r : State × Nat) x =>
    let n := min x.2.2 r.2
    ((readVa a (some 1) (n / 128 + 2) x.2.1 n r.1).1, r.2 - n)) (s, 2 ^ 20)).1

/-- R54: the casting that starts on version `h` was prefetched as `x`: where that was another version, the segments whose ADDR
differs are fetched anew. -/
def refetch (a : Acc2) (x : Option Prefetch) (v : Nat) (h : List Byte) (s : State) : State :=
  match x with
  | some x => if x.version = v then s else fetchStreams a ((streamSegs h).filter (fun g => !x.streams.contains (g.1, g.2.1))) s
  | none => s

/-- R50, R53: the DIRECT and SEED fields are those prefetched, where the riser has been; INDIRECT ones are the riser's own. -/
def directFields (x : Option Prefetch) (m : List Byte) (fs : List Nat) : List Nat :=
  match x with
  | some x => if x.riser.isEmpty then fs else (List.range fs.length).map (fun i => if riserKind m i = 1 then nth 0 fs i else nth 0 x.riser i)
  | none => fs

/-- R485: the time from doorbell to RUNNING of a LAUNCH, in AO ticks; the figures of the last 1 ms are kept. -/
def noteLatency (n : Nat) (s : State) : State :=
  { s with boot := { s.boot with lats := (s.aoTick, 40 * n) :: s.boot.lats.filter (fun x => decide (s.aoTick < x.1 + 25000)) } }

/-- R55: a casting begins in slot `k` with its pattern pinned; its riser is resolved and its streams handed out. -/
def startCasting (q k : Nat) (c : Cmd) (dpa : Nat) (root : List Byte) (pt : Pattern) (vals : Got (List Nat)) (s : State) : State :=
  let v := fieldOf root 4 4
  let s := pourRoot dpa (64 + v % 64) (leBytes 1 (fieldOf root (64 + v % 64) 1 + 1)) (useCredit q s)
  let ctx := ctxOfQueue s q
  let h := pt.hdr
  let pre := prefetched s k q (cSeq c)
  let flags := match pre with | some x => if x.version = v then 0 else 2 | none => 0
  let x : Casting :=
    { live := true, q := q, ctx := ctx, root := dpa, hdr := pt.cur, version := v, mask := hMask h, nodes := hNodes h
      sched := hSched h, schedId := fieldOf pt.fret 4 2, startFret := if hSched h then lStart c else 0
      latFrets := fieldOf h 24 2, period := fieldOf h 22 2, stretchBudget := fieldOf h 28 4
      frets := pt.fret, nodeMasks := (List.range (hNodes h)).map (fun i => fieldOf pt.nodes (8 * i) 2)
      riser := (match vals with | .ok r => r | _ => []), layer := cLayer c, op := cOpId c }
  let s := refetch { cmdAccess s q with who := .command (512 + q) } pre v h s
  let s := { s with sch := { s.sch with prefetch := tdel s.sch.prefetch k } }
  let s := startCommand q { c with version := v, slot := some k, flags := flags } (dropClaim q (setCasting s k x))
  let s := noteLatency (s.aoTick - c.tBell) s
  let s := countBase 0x15 k 1 (traceCasting k 2 0 (cSeq c) s)
  let s := (maskList x.mask).foldl (handOff k ctx h) s
  match vals with
  | .fail e => failCasting k e s
  | _ => s

/-- A LAUNCH of queue `q` starts in slot `k`, when it may.  `work` of a LAUNCH that has not started holds a translation
that has failed: its address, code and subcode (R49, R342). -/
def launchStep (q k : Nat) (host : List Nat) (s : State) : State :=
  begin q 1 launchOk s (fun c =>
    let a := cmdAccess s q
    match readPattern a (cRoot c) s with
    | (s, .wait) => if c.work.isEmpty then s else endCommand q badPattern 0 (useCredit q s)
    | (s, .fail e) => endCommand q e 0 (useCredit q s)
    | (s, .ok (dpa, root, pt)) =>
      match launchRefusal s c pt with
      | some e => endCommand q e 0 (useCredit q s)
      | none =>
        let mask := hMask pt.hdr
        if claimBars s q mask then s
        else if !(maskList mask).all (clusterFree s) then becomeClaimant q mask s
        else if !(maskList mask).all (clusterReady s) then
          (maskList mask).foldl (fun s cl => if powerOf s cl ≤ 1 then s else postWake cl s) s
        else if 16 ≤ k ∨ slotUsed s k then s
        else
          match rootBar s dpa with
          | .wait => s
          | .fail e => endCommand q e 0 (useCredit q s)
          | .ok () =>
            let lost := fun (s : State) =>
              if c.work.isEmpty then s
              else startCasting q k c dpa root pt (.fail (faultEnd (nth 0 c.work 1) (nth 0 c.work 2) (agFw 2) (nth 0 c.work 0))) s
            match readRiser a c (hRiser pt.hdr) host s with
            | (s, .wait) => lost s
            | (s, .fail e) => startCasting q k c dpa root pt (.fail e) s
            | (s, .ok fs) =>
              match resolveRiser a pt.riser (lRiser c) 0 (directFields (prefetched s k q (cSeq c)) pt.riser fs) s with
              | (s, .wait) => lost s
              | (s, r) => startCasting q k c dpa root pt r s)

/-- LAUNCH (R41, R55). -/
def execLaunch (q k : Nat) (riser : List Nat) (s : State) : Out := whenOn s <| .next (launchStep q k riser s)

/-- The first fetched, unstarted LAUNCH of a queue. -/
def nextLaunch (s : State) (q : Nat) : Option Cmd :=
  (queueOf s q).fetched.find? (fun c => !c.started && decide (cOp c = 1))

/-- R53: the next LAUNCH that the round-robin would start. -/
def roundLaunch (s : State) : Option Nat :=
  nextAfter s.sch.last ((s.sch.queues.filter (fun e => (nextLaunch s e.1).isSome)).map (fun e => e.1))

/-- R53: the queue of the next casting of slot `k`: its own where that has a LAUNCH, else the round-robin's next.
(DEDUCED, log entry 53.) -/
def prefetchQueue (s : State) (k : Nat) : Option Nat :=
  if (nextLaunch s (castingOf s k).q).isSome then some (castingOf s k).q else roundLaunch s

/-- R53: prefetch the next casting of a slot. (DEDUCED, log entry 53.) -/
def prefetchStep (k q : Nat) (s : State) : State :=
  if !schedulerUp s || !slotUsed s k || decide (prefetchQueue s k ≠ some q) then s
  else
    match nextLaunch s q with
    | none => s
    | some c =>
      let a := { cmdAccess s q with who := .command (512 + q) }
      match readPattern a (cRoot c) s with
      | (s, .ok (_, root, pt)) =>
        let s := fetchStreams a (streamSegs pt.hdr) s
        let r := if hRiser pt.hdr = 0 then (s, .ok []) else readSpanVa a (lRiser c) (8 * hRiser pt.hdr) s
        let fs := match r.2 with | .ok bs => (List.range (hRiser pt.hdr)).map (fun i => fieldOf bs (8 * i) 8) | _ => []
        let x : Prefetch := ⟨q, cSeq c, fieldOf root 4 4, pt.cur, (streamSegs pt.hdr).map (fun x => (x.1, x.2.1)), fs⟩
        { r.1 with sch := { r.1.sch with prefetch := tset {} r.1.sch.prefetch k x } }
      | (s, _) => s

/-- PREFETCH (R53). -/
def execPrefetch (k q : Nat) (s : State) : Out := whenOn s <| .next (prefetchStep k q s)

/-! ## The end of a casting (R24, R55, R60) -/

/-- R55: the unpin pour on a casting's root line; where the line is poisoned, or takes no write any more, the pin stays and an
entry is written. -/
def unpin (c : Casting) (s : State) : State :=
  match rootBar s c.root with
  | .ok () =>
    let r := readAt s (keyTag s (keyselOf c.root)) (locOf c.root) 128
    let i := c.version % 64
    let n := fieldOf r (64 + i) 1 - 1
    let live := if n = 0 ∧ fieldOf r 4 4 ≠ c.version then setBit (fieldOf r 16 8) i false else fieldOf r 16 8
    pourRoot c.root 0 (putAt (putAt r 16 (leBytes 8 live)) (64 + i) (leBytes 1 n)) s
  | .fail e => errEvent 0x02 (agFw 2) e.code e.sub 0 (locOf c.root / 128 * 128) s
  | .wait => s

/-- R38: freed clusters go to the claimant. -/
def giveClaim (mask : Nat) (s : State) : State :=
  match s.sch.claimant with
  | some c => { s with sch := { s.sch with claimant := some { c with held := c.held ||| (c.mask &&& mask) } } }
  | none => s

/-- R60: after a time-out what a casting wrote for the nodes from PROGRESS on holds undefined contents.
(DESIGN CHOICE, log entry 28.) -/
def forgetOutputs (c : Casting) (progress : Nat) (s : State) : State :=
  let out := c.wrote.filter (fun w => decide (progress ≤ w.1))
  if out.isEmpty then s
  else
    let u := s.free
    out.foldl (fun s w =>
      let bs := (List.range w.2.2.2).map (fun i => Config.freeByte u (w.2.2.1 + i))
      if w.2.1 = 0 then { s with mm := { s.mm with mem := wrList s.mm.mem w.2.2.1 bs } }
      else { s with mm := { s.mm with host := wrList s.mm.host w.2.2.1 bs } }) (bumpFree s 1)

/-- Whether an end is a time-out's (R60): TIMEOUT_DRAINED or TIMEOUT_KILLED. -/
def timedOut (e : Ending) : Bool := decide (e.code = 0x10) || decide (e.code = 0x11)

/-- R24, R55: the final record of the casting in slot `k`; its pin, clusters and slot are released.  After a time-out
its unfinished outputs and the clusters' scratch and consort memory hold undefined contents (R60). -/
def finishCasting (k : Nat) (s : State) : State :=
  let c := castingOf s k
  let e := c.ending.getD okEnd
  let done := match headCmd s c.q with | some m => m.progress | none => 0
  let s := match headCmd s c.q with
    | some m => traceCasting k e.st e.code (cSeq m) (setHead s c.q { m with
        flags := setBit (setBit m.flags 0 c.late) 2 c.serialPour })
    | none => s
  let s := if timedOut e then forgetOutputs c done s else s
  let s := unpin c (endCommand c.q e c.stretchNs s)
  let s := (maskList c.mask).foldl (fun s cl =>
    let s := clearCluster k cl s
    let s := if timedOut e then forgetCores cl (scrForget cl (fun w => isOn s (wayMode cl w)) s) else s
    setCluster s cl { clusterOf s cl with casting := none, queues := [], stop := false, ended := false }) s
  closeRace (giveClaim c.mask (setCasting s k {}))

/-- Whether a core of casting `k` publishes a pour. -/
def publishing (s : State) (k : Nat) : Bool :=
  s.cores.any (fun e => match e.2.ladle.holder with
    | some slot => decide (castingOfCourse s e.1 slot = k) && decide ((tget {} e.2.courses slot).pour = .publishing)
    | none => false)

/-- R24: every write of casting `k` is complete but for those posted to host memory: no transfer of it runs, no window write of
it is out, no pour of it publishes. -/
def writesDone (s : State) (k : Nat) : Bool :=
  s.spr.chans.all (fun e => e.2.all (fun x => decide (x.2.casting ≠ some k))) && !winsOut s (waiterOf s k) && !publishing s k

/-- Whether casting `k` has ended, or every cluster has ended its part. -/
def partsEnded (s : State) (k : Nat) : Bool :=
  (castingOf s k).live && ((castingOf s k).ending.isSome || (maskList (castingOf s k).mask).all (fun cl => (clusterOf s cl).ended))

/-- R24, R293: a casting that has ended reaches its final state once every write of it is complete, those in host memory by a
zero-length read behind them, and its root line can be unpinned. -/
def completeCasting (k : Nat) (s : State) : State :=
  if !partsEnded s k then s
  else
    let r := hostFlush (.casting k) (adopt (waiterOf s k) (.casting k) s)
    if r.2 && writesDone r.1 k && decide (rootBar r.1 (castingOf r.1 k).root ≠ .wait) then finishCasting k r.1 else r.1

/-- CASTING_COMPLETE (R24). -/
def execCastingComplete (k : Nat) (s : State) : Out := whenOn s <| .next (if schedulerUp s then completeCasting k s else s)

/-! ## PATCH (R42, R56, R57) -/

/-- R42: a PATCH's own fields. -/
def patchOk (c : Cmd) : Bool :=
  decide (fieldOf c.bytes 32 8 % 128 = 0) && decide (1 ≤ fieldOf c.bytes 48 4) && decide (fieldOf c.bytes 48 4 ≤ 256)

/-- R56: one patch entry applied to a header with its segment table; none where it is bad (R57). -/
def patchEntry (es : List Byte) (h : Option (List Byte)) (i : Nat) : Option (List Byte) :=
  match h with
  | none => none
  | some h =>
    let seg := fieldOf es (16 * i) 2
    if fieldOf es (16 * i + 2) 1 ≠ 1 ∨ fieldOf h 6 2 ≤ seg then none
    else some (putAt (putAt h (68 + 16 * seg) ((es.drop (16 * i + 4)).take 4)) (72 + 16 * seg) ((es.drop (16 * i + 8)).take 8))

/-- R56 step 1: the new header and segment table. -/
def patchHeader (h es : List Byte) (n ver parent : Nat) : Option (List Byte) :=
  match (List.range n).foldl (patchEntry es) (some h) with
  | none => none
  | some h =>
    let h := putAt (putAt (putAt h 8 (leBytes 4 ver)) 32 (leBytes 8 parent)) 40 [0, 0, 0, 0]
    some (putAt h 40 (leBytes 4 (crc32c h)))

/-- R56 step 3, R57: publish the new version in one pour. -/
def publish (q : Nat) (c : Cmd) (dpa : Nat) (root : List Byte) (s : State) : State :=
  let cur := fieldOf root 4 4
  let ver := (cur + 1) % 2 ^ 32
  let live := fieldOf root 16 8
  let base := fieldOf c.bytes 52 4
  match rootBar s dpa with
  | .wait => s
  | .fail e => endCommand q e 0 s
  | .ok () =>
    if base ≠ 0 ∧ base ≠ cur then endCommand q (faultEnd 0x50 0x10 (agFw 2) 0) 0 s
    else if bit live (ver % 64) then endCommand q ⟨stAborted, 0x61, 0x10, agFw 2, 0⟩ 0 s
    else
      let live := setBit live (ver % 64) true
      let live := if fieldOf root (64 + cur % 64) 1 = 0 then setBit live (cur % 64) false else live
      let s := pourRoot dpa 4 (leBytes 4 ver ++ leBytes 8 (fieldOf c.bytes 32 8) ++ leBytes 8 live) s
      endCommand q okEnd 0 (setHead s q { c with version := ver })

/-- A PATCH goes on: the new version is built from the current one's header and table, written, checked and published. -/
def patchRun (q : Nat) (host : List Byte) (c : Cmd) (s : State) : State :=
  let a := cmdAccess s q
  let n := fieldOf c.bytes 48 4
  endWith q (readRoot a (cRoot c) s) (fun r s =>
  endWith q (readHeader a (fieldOf r.2 8 8) s) (fun h s =>
  endWith q (readOperand a (n / 8 + 2) (fieldOf c.bytes 40 8) (16 * n) host s) (fun es s =>
    match patchHeader h es n ((fieldOf r.2 4 4 + 1) % 2 ^ 32) (fieldOf r.2 8 8) with
    | none => endCommand q (protEnd 0x11 (agFw 2) 0) 0 s
    | some h =>
      endWith q (writeVa a (h.length / 128 + 2) (fieldOf c.bytes 32 8) h s) (fun _ s =>
      endWith q (readVersion a r.1 (fieldOf c.bytes 32 8) s) (fun _ s => publish q c r.1 r.2 s)))))

/-- PATCH (R56). -/
def execPatch (q : Nat) (entries : List Byte) (s : State) : Out := whenOn s <| .next (cmdStep q 2 patchOk s (patchRun q entries))

/-! ## FENCE and SEMA (R43, R44) -/

/-- The waits of a FENCE that are valid: queue and SEQ. -/
def fenceWaits (c : Cmd) : List (Nat × Nat) :=
  ((List.range 5).filter (fun i => bit (fieldOf c.bytes (24 + 8 * i) 2) 15)).map (fun i =>
    (fieldOf c.bytes (24 + 8 * i) 2 % 2 ^ 15, fieldOf c.bytes (28 + 8 * i) 4))

/-- R39, R43: a FENCE's own fields. -/
def fenceOk (c : Cmd) : Bool := (fenceWaits c).all (fun w => decide (w.1 < 512))

/-- R43: one wait is satisfied. (DEDUCED, log entry 51.) -/
def waitMet (s : State) (w : Nat × Nat) : Bool :=
  let x := queueOf s w.1
  if x.fetched.any (fun c => decide (cSeq c = w.2)) then false
  else if x.ended.contains w.2 then true
  else x.fetched.isEmpty && decide (x.tail = getF s (qHead w.1))

/-- FENCE (R43): it starts. -/
def execFence (q : Nat) (s : State) : Out := whenOn s <|
  .next (begin q 6 fenceOk s (fun c => startCommand q c (useCredit q s)))

/-- FENCE_SATISFIED (R43): it completes. -/
def execFenceSatisfied (q : Nat) (s : State) : Out := whenOn s <|
  .next (running q 6 s (fun c => if (fenceWaits c).all (waitMet s) then endCommand q okEnd 0 s else s))

/-- OP of a SEMA. -/
def semaCmdOp (c : Cmd) : Nat := fieldOf c.bytes 24 1
/-- Its semaphore. -/
def semaCmdIndex (c : Cmd) : Nat := fieldOf c.bytes 26 2 % 2 ^ 14
/-- Its VALUE. -/
def semaCmdValue (c : Cmd) : Nat := fieldOf c.bytes 28 4
/-- R39, R44: a SEMA's own fields. -/
def semaOk (c : Cmd) : Bool := decide (semaCmdOp c = 1) || decide (semaCmdOp c = 2)

/-- SEMA_WAIT (R44): a SEMA WAIT starts. -/
def execSemaWait (q : Nat) (s : State) : Out := whenOn s <|
  .next (begin q 7 semaOk s (fun c => if semaCmdOp c = 1 then startCommand q c (useCredit q s) else s))

/-- SEMA_WAIT_SATISFIED (R44). -/
def execSemaWaitSatisfied (q : Nat) (s : State) : Out := whenOn s <|
  .next (running q 7 s (fun c =>
    if semaCmdOp c = 1 ∧ semaCmdValue c ≤ semaOf s (semaCmdIndex c) then endCommand q okEnd 0 s else s))

/-- SEMA_SIGNAL (R44): it starts, adds and completes. -/
def execSemaSignal (q : Nat) (s : State) : Out := whenOn s <|
  .next (begin q 7 semaOk s (fun c =>
    if semaCmdOp c = 2 then
      endCommand q okEnd 0 (semaAdd (semaCmdIndex c) (semaCmdValue c) (startCommand q c (useCredit q s)))
    else s))

/-! ## Budgets (R59, R60) -/

/-- The end of a drained or killed command: TIMEOUT, or ABORTED for a queue reset. -/
def drainEnd (why : Nat) (killed : Bool) (agent : Nat) : Ending :=
  ⟨if why = 2 then stAborted else stTimeout, if killed then 0x11 else 0x10, if why = 2 then 0x10 else 0, agent, 0⟩

/-- R526, R528: a service command that ends early leaves no block flasked and fetching on. -/
def undoService (c : Cmd) (s : State) : State :=
  if cOp c = 8 ∧ c.stage = 2 then
    let s := setF (setOff s bistActive) bistTarget 0
    { s with sch := { s.sch with shutdown := false } }
  else s

/-- R59: a drained or killed command ends.  A casting's work is reset; it reaches its final state at once where its writes are
complete, else by CASTING_COMPLETE. -/
def endDrained (q : Nat) (e : Ending) (s : State) : State :=
  match headCmd s q with
  | none => s
  | some c =>
    match c.slot with
    | some k => completeCasting k (endCasting k e true s)
    | none => endCommand q e 0 (undoService c (dropChunks q s))

/-- R59: the budget of the oldest command of `q` expires: its engines are ordered to drain; a command that uses no
engine has nothing to drain and ends (R44). (DEDUCED, log entry 47.) -/
def expire (q : Nat) (s : State) : State :=
  match headCmd s q with
  | none => s
  | some c =>
    if !c.started || decide (c.draining ≠ 0) || !fwRuns s 2 || !s.powered then s
    else
      let s := timeTo (c.tStart + 25 * cBudget s q c) s
      let s := orderDrain q 1 s
      if c.slot.isNone ∧ (chunkChans s q).isEmpty then endDrained q (drainEnd 1 false (agFw 2)) s else s

/-- BUDGET_EXPIRY (R59). -/
def execBudgetExpiry (q : Nat) (s : State) : Out := whenOn s <| .next (expire q s)

/-- The started commands of a casting's streams, with their clusters and queues. -/
def startedCmds (s : State) (k : Nat) : List (Nat × Nat × SCmd) :=
  (maskList (castingOf s k).mask).flatMap (fun cl => (clusterOf s cl).queues.flatMap (fun e =>
    (e.2.filter (fun m => m.started)).map (fun m => (cl, e.1, m))))

/-- The cores of a casting on which a long instruction is in progress or a pour publishes. -/
def busyCores (s : State) (k : Nat) : List Nat :=
  (s.cores.filter (fun g => g.2.courses.any (fun c =>
    c.2.live && decide ((tget {} g.2.consorts c.2.consort).casting = k) &&
      (c.2.long.isSome || decide (c.2.pour = .publishing))))).map (fun g => g.1)

/-- R59: the agents of a command's engines that still run: cores in a long instruction or past a commit point, cluster engines
within a unit (R205), sprue engines with a transfer. -/
def runningAgents (s : State) (q : Nat) (c : Cmd) : List Nat :=
  match c.slot with
  | some k =>
    busyCores s k ++
      ((startedCmds s k).filter (fun x => x.2.2.mid && decide (3 ≤ x.2.1))).map (fun x => agQueue x.1 x.2.1) ++
      (castingChans s k).map (fun x => agSprue x.1)
  | none => (chunkChans s q).filterMap (fun ch => if winsOut s (fun w => decide (w = .chan 16 ch)) then some agSph else none)

/-- Whether every engine of a command has stopped. -/
def drained (s : State) (q : Nat) (c : Cmd) : Bool := (runningAgents s q c).isEmpty

/-- The agents of a command's engines. -/
def cmdAgents (s : State) (q : Nat) (c : Cmd) : List Nat :=
  match c.slot with
  | some k => agSph :: (maskList (castingOf s k).mask).flatMap (fun cl => coresOf cl ++ (List.range 8).map (agEngine cl))
  | none => if (chunkChans s q).isEmpty then [agFw 2] else [agSph]

/-- R559: the CMD_END records of the commands that a drain has stopped. -/
def traceStops (k : Nat) (e : Ending) (s : State) : State :=
  (startedCmds s k).foldl (fun s x =>
    let f := fieldOf x.2.2.bytes
    traceEvent x.1 0x02 (agQueue x.1 x.2.1) (castingOf s k).sched (f 8 2) (f 10 2)
      (e.code + 256 * e.sub + 2 ^ 16 * f 4 2 + 2 ^ 32 * x.2.2.unit) s) s

/-- Whether a command's casting, where it has one, has not ended. -/
def goesOn (s : State) (c : Cmd) : Bool := match c.slot with | some k => (castingOf s k).ending.isNone | none => true

/-- ENGINES_DRAINED (R59): every engine has stopped within 100 µs of the order. -/
def execEnginesDrained (q : Nat) (s : State) : Out := whenOn s <|
  .next (match headCmd s q with
    | none => s
    | some c =>
      if c.draining ≠ 0 ∧ drained s q c ∧ fwRuns s 2 ∧ s.aoTick ≤ c.drainLeft + 2500 ∧ goesOn s c then
        let e := drainEnd c.draining false (agFw 2)
        endDrained q e (match c.slot with | some k => traceStops k e s | none => s)
      else s)

/-- R59: whether a command may be killed, `last` being the last of its engines to stop: some engine of it still runs 100 µs after
the order, or that time has passed already. -/
def killOk (s : State) (q last : Nat) (c : Cmd) : Bool :=
  let out := runningAgents s q c
  if out.isEmpty then decide (c.drainLeft + 2500 < s.aoTick) && (cmdAgents s q c).contains last else out.contains last

/-- DRAIN_KILL (R59): 100 µs after the order, what still runs is reset; `last` is the last engine to stop.  A pour past its commit
point is published first (R317). -/
def execDrainKill (q last : Nat) (s : State) : Out := whenOn s <|
  .next (match headCmd s q with
    | none => s
    | some c =>
      if decide (c.draining ≠ 0) && fwRuns s 2 && killOk s q last c && goesOn s c then
        let s := timeTo (c.drainLeft + 2500) s
        let s := match c.slot with | some k => killChans k s | none => s
        endDrained q (drainEnd c.draining true last) s
      else s)

end Sys2Proof.Machine
end

