-- ==== Sys2Proof/Machine/PourRows.lean ====
section
/-!
DEFINITION. The SYNC class without semaphores: fences (R119, R293, R299) and pours (R120 to R124, R309 to R324), with the
operations of a pour's commit.
-/
namespace Sys2Proof.Machine

/-! ## Fences -/

/-- A fence's legality: every operand field 0 (R119). -/
def fenceForm (b : InstrBits) : Bool :=
  guardOk b && !b.op5 && !b.du && !b.au && !b.bu && !b.cu && decide (b.low = 0)

/-- A fence of a course waits for its drains and clears (R150), then acts. (DESIGN CHOICE, log entry 30.) -/
def fenceStep (g slot : Nat) (legal : Bool) (s : State) (k : Course → State → State) : State :=
  issue g slot legal 0 s (fun c => if harpPending s g slot then s else k c (endRsv g slot s))

/-- A SYNC instruction of a course that is done. -/
def passFence (g slot : Nat) (s : State) : State := retire g slot (courseOf s g slot) s

/-- FENCE.ORD (R119): accesses are made in program order here, so it only goes on. -/
def execFenceOrd (g slot : Nat) (b : InstrBits) (s : State) : Out := whenFetched (wordOf 9 0 b) g slot s <|
  .next (fenceStep g slot (fenceForm b) s (fun _ s => passFence g slot s))

/-- FENCE.ACQ (R119): every line of the core's L1 is invalidated; with no lane that meets its guard it only goes on (R101, log
entry 30). -/
def execFenceAcq (g slot : Nat) (b : InstrBits) (s : State) : Out := whenFetched (wordOf 9 1 b) g slot s <|
  .next (fenceStep g slot (fenceForm b) s (fun c s =>
    passFence g slot (if lanesOf c b = 0 then s else l1Clear g s)))

/-- FENCE.REL (R119): every earlier store has been accepted when the next instruction issues; illegal in an open pour. -/
def execFenceRel (g slot : Nat) (b : InstrBits) (s : State) : Out := whenFetched (wordOf 9 2 b) g slot s <|
  .next (fenceStep g slot (fenceForm b && decide ((courseOf s g slot).pour = .closed)) s (fun _ s => passFence g slot s))

/-- FENCE.DONE (R119, R293): every earlier write is complete at its endpoint: no window write is unacknowledged, and a zero-length
read sent behind the last host write has come back; illegal in an open pour.  With no lane that meets its guard it only goes on
(R101, log entry 30). -/
def execFenceDone (g slot : Nat) (b : InstrBits) (s : State) : Out := whenFetched (wordOf 9 3 b) g slot s <|
  .next (fenceStep g slot (fenceForm b && decide ((courseOf s g slot).pour = .closed)) s (fun c s =>
    if lanesOf c b = 0 then passFence g slot s
    else
      match hostFlush (.course g slot) s with
      | (s, false) => s
      | (s, true) => if winsOut s (courseIn g [slot]) then s else passFence g slot s))

/-! ## The pour token (R322, R323, R333) -/

/-- Whether some pour is in its lock phase or publishes (R323). -/
def pourLocking (s : State) : Bool :=
  s.cores.any (fun e => match e.2.ladle.holder with
    | some slot => let p := (tget {} e.2.courses slot).pour; decide (p = .locking) || decide (p = .publishing)
    | none => false) ||
  s.spr.chans.any (fun e => e.2.any (fun c => decide (c.2.phase = .locking) || decide (c.2.phase = .publishing)))

/-- R225, R322: the rank of an agent among those that ask in one FCLK cycle: cores by the rank of R225 (then by number), then
the others by R19 identifier. -/
def tokenRank (s : State) (agent : Nat) : Nat :=
  if agent < 0x10000 then (agent % 12 + 12 - getF s amxFret % 12) % 12 * 192 + agent else 0x10000 + tokenId agent * 32 + agent % 32

/-- An agent asks for the token, behind those that asked in an earlier FCLK cycle, and by rank among those of this one (R322).
(DEDUCED, log entry 33.) -/
def askToken (agent : Nat) (s : State) : State :=
  if s.tokens.any (fun x => decide (x.1 = agent)) then s
  else
    let first := if isOn s tokHeld then 1 else 0
    let ahead := fun (x : Nat × Nat) => decide (x.2 < fclkOf s) || decide (tokenRank s x.1 < tokenRank s agent)
    let rest := s.tokens.drop first
    showWait { s with tokens := s.tokens.take first ++ rest.filter ahead ++ [(agent, fclkOf s)] ++ rest.filter (fun x => !ahead x) }

/-- R317, R324: the token was held by a pour of a casting. -/
def noteSerial (g slot : Nat) (s : State) : State :=
  let k := castingOfCourse s g slot
  setCasting s k { castingOf s k with serialPour := true }

/-! ## POUR.BEGIN, POUR.END, POUR.ABORT (R120, R122, R314, R321, R322) -/

/-- R120: all non-exited lanes are active. -/
def wholeCourse (c : Course) : Bool := decide (c.active = liveLanes c)

/-- R120: POUR.BEGIN's legality: format B, TARGET the abort target, RECONV[20] SERIAL. -/
def beginOk (c : Course) (b : InstrBits) : Bool :=
  guardOk b && !b.gen && !b.op5 && !b.du && !b.au && !b.bu && !b.cu && decide (b.low.toNat % 2 ^ 20 = 0) && wholeCourse c &&
    decide (c.pour = .closed)

/-- R122: a POUR.BEGIN that finds the ladle taken. -/
def ladleBusy (g slot target : Nat) (c : Course) (s : State) : State :=
  countCore g 0x02 1 (setCourse s g slot (settle settleFuel { c with
    pourCode := 0x61, pourSub := 0, pc := target, beginPc := c.pc, abortCount := if c.beginPc = c.pc then c.abortCount else 0 }))

/-- The course with its pour open at this POUR.BEGIN. -/
def openPour (target : Nat) (serial : Bool) (c : Course) : Course :=
  { advance c with
    pour := .open, pourSerial := serial, abortPc := target, beginPc := c.pc, beginStack := c.stack
    abortCount := if c.beginPc = c.pc then c.abortCount else 0 }

/-- POUR.BEGIN (R120, R122, R321, R322). -/
def execPourBegin (g slot : Nat) (b : InstrBits) (s : State) : Out := whenFetched (wordOf 9 8 b) g slot s <|
  .next (issue g slot (beginOk (courseOf s g slot) b) 0 s (fun _ =>
    let s := endRsv g slot s
    let c := courseOf s g slot
    let target := pcAdd c.pc (fldTarget b)
    let count := if c.beginPc = c.pc then c.abortCount else 0
    match (coreOf s g).ladle.holder with
    | some _ => ladleBusy g slot target c s
    | none =>
      let s := setCore s g { coreOf s g with ladle := { holder := some slot } }
      if bit b.low.toNat 20 && decide (8 ≤ count) then
        askToken g (setCourse s g slot { c with
          pour := .waitToken, abortPc := target, beginPc := c.pc, beginStack := c.stack, abortCount := count })
      else countCore g 0x02 1 (setCourse s g slot (openPour target false c))))

/-- R121: POUR.END's and POUR.ABORT's legality. -/
def endOk (c : Course) (b : InstrBits) : Bool := fenceForm b && !b.gen && wholeCourse c && decide (c.pour = .open)

/-- R323: no other pour begins its lock phase while the token is held. -/
def tokenBars (s : State) (agent : Nat) : Bool := isOn s tokHeld && !holdsToken s agent

/-- R319: whether a lock's grant carries poison for a pour: its line is poisoned, and it is in the read set or not whole. -/
def grantPoison (s : State) (g : Nat) (x : LadleLine) : Bool :=
  let line := realLine (clOf g) x.line
  poisoned s (128 * line) && ((coreOf s g).ladle.readSet.contains line || decide (x.enables ≠ 2 ^ 128 - 1))

/-- POUR.END (R314, R319, R323): the lock phase begins; a pour that has staged nothing, and a serial pour, have their locks. -/
def execPourEnd (g slot : Nat) (b : InstrBits) (s : State) : Out := whenFetched (wordOf 9 9 b) g slot s <|
  .next (issue g slot (endOk (courseOf s g slot) b) 0 s (fun _ =>
    let s := endRsv g slot s
    let c := courseOf s g slot
    if tokenBars s g then s
    else
      match (if c.pourSerial then (coreOf s g).ladle.lines.find? (grantPoison s g) else none) with
      | some x => abortPourAt g slot 7 (realLine (clOf g) x.line) s
      | none =>
      let s := if c.pourSerial then
          setCore s g { coreOf s g with ladle := { (coreOf s g).ladle with
            lines := (coreOf s g).ladle.lines.map (fun x => { x with locked := true }), firstGrant := true } }
        else s
      setCourse s g slot { c with pour := if c.pourSerial ∨ (coreOf s g).ladle.lines.isEmpty then .publishing else .locking }))

/-- POUR.ABORT (R120, R319). -/
def execPourAbort (g slot : Nat) (b : InstrBits) (s : State) : Out := whenFetched (wordOf 9 10 b) g slot s <|
  .next (issue g slot (endOk (courseOf s g slot) b) 0 s (fun _ =>
    countCore g 0x02 1 (abortPour g slot 4 (endRsv g slot s))))

/-! ## The commit (R314 to R318) -/

/-- The course whose pour holds core `g`'s ladle in a phase. -/
def pourIn (s : State) (g : Nat) (p : PourPhase) : Option Nat :=
  match (coreOf s g).ladle.holder with
  | some slot => if (courseOf s g slot).live && decide ((courseOf s g slot).pour = p) then some slot else none
  | none => none

/-- The next ladle line to lock, in the order of R314. -/
def nextLock (l : Ladle) : Option LadleLine := l.lines.find? (fun x => !x.locked)

/-- A lock of one line for an agent, in the name of access `ag`: taken, waiting for the line, or failed (R315).  A host line is
obtained first (R313). -/
def takeLock (agent ag line : Nat) (s : State) : State × Got Unit :=
  if lineBusy s line (some agent) none none then (s, .wait)
  else
    match (if 2 ^ 57 ≤ line then obtainHost ag (128 * (line - 2 ^ 57)) (128 * (line - 2 ^ 57)) s else (s, .ok ())) with
    | (s, .ok ()) => (lockLine agent line s, .ok ())
    | r => r

/-- The runs of set bits of a mask of byte enables, from bit `i` on: where each begins, and how long it is. -/
def runsOf (m : Nat) : Nat → Nat → List (Nat × Nat)
  | 0, _ => []
  | fuel + 1, i =>
    if !bit m i then runsOf m fuel (i + 1)
    else
      match runsOf m fuel (i + 1) with
      | (j, n) :: rest => if j = i + 1 then (i, n + 1) :: rest else (i, 1) :: (j, n) :: rest
      | [] => [(i, 1)]

/-- The staged bytes of a run. -/
def runBytes (x : LadleLine) (r : Nat × Nat) : List Byte := (List.range r.2).map (fun i => tget 0 x.bytes (r.1 + i))

/-- R317: a ladle line is merged at its home: a whole one is a WR_FULL, which clears poison; else its enabled bytes are written. -/
def mergeAt (cl : Nat) (who : Option (Nat × Nat)) (x : LadleLine) (s : State) : State :=
  let line := realLine cl x.line
  let full := decide (x.enables = 2 ^ 128 - 1)
  let s := noteWrite line who s
  if 2 ^ 57 ≤ line then
    (runsOf x.enables 128 0).foldl (fun s r => putHost (128 * (line - 2 ^ 57) + r.1) (runBytes x r) s) s
  else
    let dpa := 128 * line + x.key * 2 ^ 46
    let s := (runsOf x.enables 128 0).foldl (fun s r =>
      putDev (dpa + r.1) (runBytes x r) full true (frameTurn (dpa + r.1) r.2 s)) (keyTurn dpa s)
    if homed dpa then cruInstall (locOf dpa) s else s

/-- R318: no line is unlocked before every line has been merged, so the lines become visible together: the step of the
last one publishes them all. -/
def publishAll (g slot : Nat) (s : State) : State :=
  let l := (coreOf s g).ladle
  asCourse g slot (fun s => l.lines.foldl (fun s x => mergeAt (clOf g) (some (g, slot)) x s) s) s

/-- R317: the core drops its own L1 copies of the ladle's lines. -/
def dropLines (g : Nat) (s : State) : State :=
  setCore s g { coreOf s g with l1 := (coreOf s g).l1.filter (fun e =>
    !(coreOf s g).ladle.lines.any (fun x =>
      let line := realLine (clOf g) x.line
      decide (e.2.tag = (if 2 ^ 57 ≤ line then 2 ^ 64 + (line - 2 ^ 57) else line + x.key * 2 ^ 39)))) }

/-- The locks, the token and the ladle of a pour that has been published. -/
def endPublish (g : Nat) (s : State) : State :=
  let s := unlockAll g (dropToken g (dropLines g s))
  setCore s g { coreOf s g with ladle := {} }

end Sys2Proof.Machine
end

