-- ==== Sys2Proof/Machine/CopyOps.lean ====
section
/-!
DEFINITION. The data movement of sprue channels: pieces of rows, poison, charge hints, preloads, and the staging
and publication of transactional transfers (R326, R327, R361 to R364, R371 to R377).
-/
namespace Sys2Proof.Machine

/-! ## Geometry (R361) -/

/-- How many rows of a range hold address `a`. -/
def rowCover (base pitch rb rows a : Nat) : Nat :=
  if a < base then 0
  else
    let k := a - base
    if pitch = 0 then (if k < rb then rows else 0)
    else min (k / pitch + 1) rows - (if k < rb then 0 else (k - rb) / pitch + 1)

/-- Rows of a transfer's destination that hold an address; a chunk's transfer is its command's whole range (R347). -/
def dstCover (c : Chan) (a : Nat) : Nat :=
  if c.starter = 3 then b2n (decide (dDst c.desc ≤ a) && decide (a < dDst c.desc + c.total))
  else rowCover (dDst c.desc) (dDstPitch c.desc) (dRowBytes c.desc) (dRows c.desc) a
/-- Rows of its source that hold an address. -/
def srcCover (c : Chan) (a : Nat) : Nat :=
  if c.starter = 3 then b2n (decide (dSrc c.desc ≤ a) && decide (a < dSrc c.desc + c.total))
  else rowCover (dSrc c.desc) (dSrcPitch c.desc) (dRowBytes c.desc) (dRows c.desc) a

/-- R361: whether the destination byte at `a`, copied from `b`, holds undefined contents.
(DESIGN CHOICE, log entry 66.) -/
def overlapped (c : Chan) (a b : Nat) : Bool :=
  decide (2 ≤ dstCover c a) ||
    (decide (dSrcSpace c.desc = dDstSpace c.desc) && (decide (0 < srcCover c a) || decide (0 < dstCover c b)))

/-- R363: whether all 128 bytes of the destination line of `a` lie in the range. -/
def lineWhole (c : Chan) (a : Nat) : Bool :=
  (List.range 128).all (fun i => decide (0 < dstCover c (a / 128 * 128 + i)))

/-- R347: the bytes of a chunk. -/
def chunkBytes : Nat := 0x200000

/-- The bytes of the stripe that a channel runs. -/
def stripeBytes (c : Chan) : Nat :=
  if c.starter = 3 then min chunkBytes (c.total - chunkBytes * c.pos) else stripeRows c.desc c.stripe * dRowBytes c.desc

/-- The piece of a stripe that begins at byte `k` of it: its source, its destination and its length; a piece lies within
one source line and one destination line. -/
def pieceAt (c : Chan) (k : Nat) : Nat × Nat × Nat :=
  let d := c.desc
  let chunk := decide (c.starter = 3)
  let r := if chunk then 0 else stripeFirst d c.stripe + k / dRowBytes d
  let o := if chunk then chunkBytes * c.pos + k else k % dRowBytes d
  let src := (dSrc d + r * dSrcPitch d + o) % 2 ^ 64
  let dst := (dDst d + r * dDstPitch d + o) % 2 ^ 64
  let n := min (if chunk then stripeBytes c - k else dRowBytes d - o) (128 - src % 128)
  (src, dst, if dFlag d 4 then n else min n (128 - dst % 128))

/-- The 64 B beats that a piece touches first: one shared with the piece before it in its row is counted there. -/
def newBeats (a n : Nat) (first : Bool) : Nat :=
  (a + n - 1) / 64 + 1 - (if first then a / 64 else (a + 63) / 64)

/-! ## Reading and writing one piece -/

/-- What moving a piece comes to: moved, waiting, the transfer's end, or an error response (R377). -/
inductive Moved where
  | ok
  | wait
  | stop (e : Ending)
  | bus (write : Bool) (e : Ending)
  deriving DecidableEq, Repr

/-- R377: the refusals and completions that are error responses. -/
def isBus (e : Ending) : Bool :=
  (decide (e.code = 0x22) && [0x20, 0x21, 0x25, 0x2A].contains e.sub) || decide (e.code = 0x31)

/-- How a failed read or write ends the move. -/
def movedFail (write : Bool) (e : Ending) : Moved :=
  if isBus e then .bus write (if e.code = 0x31 then { e with sub := if write then 0x11 else 0x10 } else e) else .stop e

/-- R362, R363: read a piece of the source. -/
def chanSrc (e ch : Nat) (a : Acc2) (va n : Nat) (s : State) : State × Got (List Byte) :=
  let c := chanOf s e ch
  if dSrcSpace c.desc = 1 then readTarget a (.dev (aperLoc e va)) va n none s
  else if dSrcSpace c.desc = 2 then (seenTurn c.core c.course s, .ok (cmemRead s c.core c.course va n))
  else readAtVa a va n none s

/-- The target of a destination address; none for consort memory. -/
def dstTarget (e ch : Nat) (a : Acc2) (va : Nat) (s : State) : State × Got Target :=
  if dDstSpace (chanOf s e ch).desc = 1 then (s, .ok (.dev (aperLoc e va)))
  else
    match translate a va true s with
    | (s, .ok ta) => (s, .ok (targetOf s ta))
    | (s, .wait) => (s, .wait)
    | (s, .fail x) => (s, .fail x)

/-- R284, R376: poison is written to a target. (DEDUCED, log entry 67.) -/
def writePoison (a : Acc2) (t : Target) (va : Nat) (bs : List Byte) (x : Ending) (s : State) : State × Got Unit :=
  match t with
  | .dev dpa =>
    let line := lineOf (locOf dpa)
    if lineBusy s line none none none then (s, .wait)
    else
      match writeBar s a.agent dpa with
      | .wait => (heldWake dpa s, .wait)
      | .fail e => (s, .fail e)
      | .ok () => (poisonLine (locOf dpa) x.sub x.agent (beforeWrite dpa bs.length none (if homed dpa then grantNone line s else s)), .ok ())
  | .win w off =>
    (match winAccessP 0x30 a .wr w off va bs bs.length (2 ^ 64 - 1) s with
     | (s, .ok _) => (errEvent 0x02 x.agent 0x30 x.sub 0 x.addr s, .ok ())
     | (s, .wait) => (s, .wait)
     | (s, .fail e) => (s, .fail e))
  | .host pa =>
    -- host memory keeps no mark of poison: the line leaves the device's caches, and its bytes there are undefined (log entry 67)
    if lineBusy s (hostLine pa) none none none then (s, .wait)
    else
      let s := errEvent 0x02 x.agent 0x30 x.sub 0 x.addr (noteWrite (hostLine pa) none (grantNone (hostLine pa) s))
      (bumpFree (hostWrite a.who pa ((List.range bs.length).map (fun i => Config.freeByte s.free (pa + i))) s) 1, .ok ())

/-- R362, R363: write a piece of the destination, or its poison. -/
def chanDst (e ch : Nat) (a : Acc2) (va : Nat) (bs : List Byte) (poison : Option Ending) (s : State) : State × Got Unit :=
  let c := chanOf s e ch
  let d := c.desc
  if dDstSpace d = 2 then
    let s := cmemWrite c.core c.course va bs s
    (match poison with | some x => errEvent 0x02 x.agent 0x30 x.sub 0 x.addr s | none => s, .ok ())
  else
    match dstTarget e ch a va s with
    | (s, .wait) => (s, .wait)
    | (s, .fail x) => (s, .fail x)
    | (s, .ok t) =>
      match poison with
      | some x => writePoison a t va bs x s
      | none => asOwnerGot (chanOwner s e ch) (writeTargetF (decide (va % 128 = 0) && lineWhole c va) a t va bs (some (dCharge d))) s

/-- The bytes that a piece writes: undefined ones where rows overlap (R361). -/
def pieceData (s : State) (c : Chan) (src dst : Nat) (bs : List Byte) : List Byte :=
  (List.range bs.length).map (fun i =>
    if overlapped c (dst + i) (src + i) then Config.freeByte s.free (dst + i) else nth 0 bs i)

/-- A piece has been moved: DONE_BYTES, BEATS and the cluster's events (R372, R382, R553). -/
def pieceDone (e ch : Nat) (p : Nat × Nat × Nat) (s : State) : State :=
  let c := chanOf s e ch
  let first := decide (c.starter = 3) || decide (c.done % dRowBytes c.desc = 0)
  let rb := newBeats p.1 p.2.2 first
  let s := incF (endWaits (.chan e ch) (setChan s e ch { c with done := c.done + p.2.2 })) (sprBeats e ch) rb
  let s := bumpFree s 1
  if e < 16 then
    let s := countCl e 0x0E rb s
    if dFlag c.desc 4 then s else countCl e 0x0F (newBeats p.2.1 p.2.2 first) s
  else s

/-- R345, R363: one source line of a preload: read and placed under the hint, or skipped. -/
def preloadPiece (e ch : Nat) (a : Acc2) (p : Nat × Nat × Nat) (s : State) : State × Moved :=
  let d := (chanOf s e ch).desc
  let r := if dSrcSpace d = 1 then (s, Got.ok (Target.dev (aperLoc e p.1)))
    else match translate a p.1 false s with
      | (s, .ok ta) => (s, .ok (targetOf s ta))
      | (s, .wait) => (s, .wait)
      | (s, .fail x) => (s, .fail x)
  match r with
  | (s, .wait) => (s, .wait)
  | (s, .fail x) => (s, .stop x)
  | (s, .ok (.dev dpa)) =>
    let line := lineOf (locOf dpa)
    if lineBusy s line none none none then (s, .wait)
    else
      let r := devRead s a.agent dpa p.2.2
      let s := readNote dpa r s
      (match r with
       | .wait => (s, .wait)
       | .fail x => (pieceDone e ch p (if x.code = 0x30 ∧ homed dpa then placeLine (some (dCharge d)) line false s else s), .ok)
       | .ok _ => (pieceDone e ch p (if homed dpa then placeLine (some (dCharge d)) line false s else s), .ok))
  | (s, .ok _) => (pieceDone e ch p s, .ok)

/-- One piece of a plain transfer (R363, R376). -/
def copyPiece (e ch : Nat) (s : State) : State × Moved :=
  let a := chanAccess s e ch
  let c := chanOf s e ch
  let p := pieceAt c c.done
  if dFlag c.desc 4 then preloadPiece e ch a p s
  else
    match chanSrc e ch a p.1 p.2.2 s with
    | (s, .wait) => (s, .wait)
    | (s, .ok bs) =>
      (match chanDst e ch a p.2.1 (pieceData s c p.1 p.2.1 bs) none s with
       | (s, .ok ()) => (pieceDone e ch p s, .ok)
       | (s, .wait) => (s, .wait)
       | (s, .fail x) => (s, movedFail true x))
    | (s, .fail x) =>
      if x.code ≠ 0x30 then (s, movedFail false x)
      else
        match chanDst e ch a p.2.1 (List.replicate p.2.2 0) (some x) s with
        | (s, .wait) => (s, .wait)
        | (s, .fail y) => (s, movedFail true y)
        | (s, .ok ()) =>
          if dFlag c.desc 3 then (pieceDone e ch p s, .ok) else (s, .stop (faultEnd 0x30 0x13 (agSprue e) 0))

/-- The pieces of a plain transfer from where it stands (at most `fuel` of them). (DEDUCED, log entry 68.) -/
def copyRun (e ch : Nat) : Nat → State → State × Moved
  | 0, s => (s, .ok)
  | fuel + 1, s =>
    if stripeBytes (chanOf s e ch) ≤ (chanOf s e ch).done then (s, .ok)
    else
      match copyPiece e ch s with
      | (s, .ok) => copyRun e ch fuel s
      | r => r

/-- What a move's outcome does to its channel; `k` when everything has been moved. -/
def settleMove (e ch : Nat) (r : State × Moved) (k : State → State) : State :=
  match r with
  | (s, .ok) => k s
  | (s, .wait) => s
  | (s, .stop x) => endXfer e ch x s
  | (s, .bus w x) => busError e ch w x.code x.sub s

/-! ## Transactional transfers (R326, R327) -/

/-- Whether a transfer is transactional: TRANSACT or a stripe of a gang (R375). -/
def transactional (d : List Byte) : Bool := dFlag d 0 || dFlag d 1

/-- R313, R375: what a staged line's target must be. -/
def stageBar (s : State) (e : Nat) (a : Acc2) (t : Target) : Got Unit :=
  let noncoh := Got.fail (chanAbortEnd e 3)
  match t with
  | .win _ _ => noncoh
  | .host _ => if s.hpt.cxlCache then .ok () else noncoh
  | .dev dpa =>
    match placeOf (locOf dpa) with
    | .scratch cl off => if cl ≠ e ∨ 0x01000000 ≤ off then noncoh else writeBar s a.agent dpa
    | _ => writeBar s a.agent dpa

/-- R313: whether a staged line is in the ladle under another KEYSEL. -/
def aliased (ls : List LadleLine) (t : Target) : Bool :=
  match t with
  | .dev _ => ls.any (fun x => decide (x.line = orderOf t) && decide (x.key ≠ targetKey t))
  | _ => false

/-- One piece staged into a ladle. -/
def stagePiece (e ch : Nat) (a : Acc2) (k : Nat) (ls : List LadleLine) (s : State) : State × Got (Nat × List LadleLine) :=
  let c := chanOf s e ch
  let p := pieceAt c k
  match chanSrc e ch a p.1 p.2.2 s with
  | (s, .wait) => (s, .wait)
  | (s, .fail x) => (s, .fail (if x.code = 0x30 then chanAbortEnd e 7 else { x with st := 0 }))
  | (s, .ok bs) =>
    match dstTarget e ch a p.2.1 s with
    | (s, .wait) => (s, .wait)
    | (s, .fail x) => (s, .fail x)
    | (s, .ok t) =>
      match stageBar s e a t with
      | .wait => (s, .wait)
      | .fail x => (s, .fail x)
      | .ok () =>
        if aliased ls t then (s, .fail (protEnd 0x22 (agSprue e) p.2.1))
        else
          let x := (ls.find? (fun x => decide (x.line = orderOf t))).getD ⟨orderOf t, targetKey t, [], 0, false, false⟩
          (s, .ok (k + p.2.2, insLine (x.put (lineOff t) (pieceData s c p.1 p.2.1 bs)) ls))

/-- The whole source is read into the channel's ladle (at most `fuel` pieces from byte `k` on). -/
def stageRun (e ch : Nat) (a : Acc2) : Nat → Nat → List LadleLine → State → State × Got (List LadleLine)
  | 0, _, ls, s => (s, .ok ls)
  | fuel + 1, k, ls, s =>
    if stripeBytes (chanOf s e ch) ≤ k then (s, .ok ls)
    else
      match stagePiece e ch a k ls s with
      | (s, .ok (k', ls')) => stageRun e ch a fuel k' ls' s
      | (s, .wait) => (s, .wait)
      | (s, .fail x) => (s, .fail x)

/-- A failed staging: a refused read or write is an error response, anything else ends the transfer. -/
def stageFail (e ch : Nat) (x : Ending) (s : State) : State :=
  if isBus x then busError e ch (decide (x.st ≠ 0)) x.code (if x.code = 0x31 then 0x10 else x.sub) s
  else endXfer e ch { x with st := stFault } s

/-- The agent number of a channel as a holder of locks and of the token. -/
def chanAgent (e ch : Nat) : Nat := 0x10000 + 32 * e + ch

/-- The engines whose stripes are committed together with a channel's (R327). -/
def gangOf (s : State) (e ch : Nat) : List Nat := if dFlag (chanOf s e ch).desc 1 then dEngines (chanOf s e ch).desc else [e]

/-- R319: a lock grant carries poison for a line that is not fully enabled. -/
def stagedPoison (s : State) (cl : Nat) (x : LadleLine) : Bool :=
  poisoned s (128 * realLine cl x.line) && decide (x.enables ≠ 2 ^ 128 - 1)

/-- The lines of the stripes committed together that a test picks, each with its engine. -/
def gangLines (s : State) (e ch : Nat) (p : LadleLine → Bool) : List (Nat × LadleLine) :=
  (gangOf s e ch).flatMap (fun k => ((chanOf s k ch).ladle.filter p).map (fun x => (k, x)))

/-- R314: the first of them in the lock order. -/
def firstLine (xs : List (Nat × LadleLine)) : Option (Nat × LadleLine) :=
  xs.foldl (fun a x => match a with | some y => if x.2.line < y.2.line then some x else a | none => some x) none

/-- A line of a stripe's ladle is marked. -/
def markLine (k ch line : Nat) (f : LadleLine → LadleLine) (s : State) : State :=
  let c := chanOf s k ch
  setChan s k ch { c with ladle := c.ladle.map (fun x => if x.line = line then f x else x) }

/-- R322, R323, R326: whether the lock phase of a channel's staged transfer may begin; after eight aborts it asks for the token. -/
def lockPhase (e ch : Nat) (s : State) : State :=
  let c := chanOf s e ch
  let ag := chanAgent e ch
  if 8 ≤ c.aborts ∧ holdsToken s ag = false then askToken ag s
  else if tokenBars s ag then s
  else setChan s e ch { c with phase := .locking }

/-- R314, R315: the lock of the next line of a channel's transfer, or of the gang that it leads, is asked for. -/
def chanLock (e ch : Nat) (s : State) : State :=
  if (chanOf s e ch).phase ≠ .locking ∨ (chanOf s e ch).asked.isSome then s
  else
    match firstLine (gangLines s e ch (fun x => !x.locked)) with
    | none => s
    | some (k, x) =>
      match takeLock (chanAgent e ch) (agSprue k) (realLine k x.line) s with
      | (s, .wait) => s
      | (s, .fail y) => stageFail k ch { y with st := 0 } s
      | (s, .ok ()) => setChan s e ch { chanOf s e ch with asked := some (k, x.line) }

/-- R316, R319: a grant reaches the channel; with the last one its transfer is committed. -/
def chanGrant (e ch : Nat) (s : State) : State :=
  match (if (chanOf s e ch).phase = .locking then (chanOf s e ch).asked else none) with
  | none => s
  | some (k, line) =>
    if (chanOf s k ch).ladle.any (fun x => decide (x.line = line) && stagedPoison s k x) then endXfer k ch (chanAbortEnd k 7) s
    else
      let s := markLine k ch line (fun x => { x with locked := true }) s
      let s := setChan s e ch { chanOf s e ch with asked := none }
      if (gangLines s e ch (fun x => !x.locked)).isEmpty then
        (gangOf s e ch).foldl (fun s k => setChan s k ch { chanOf s k ch with phase := .publishing }) s
      else s

/-- R317, R318: the next line of a committed transfer reaches its home; the last of them merges all. -/
def chanPublish (e ch : Nat) (s : State) : State :=
  if (chanOf s e ch).phase ≠ .publishing then s
  else
    match firstLine (gangLines s e ch (fun x => !x.merged)) with
    | none => s
    | some (k, x) =>
      let s := markLine k ch x.line (fun x => { x with merged := true }) s
      if !(gangLines s e ch (fun x => !x.merged)).isEmpty then s
      else asOwner (chanOwner s e ch) (fun s => (gangLines s e ch (fun _ => true)).foldl (fun s x => mergeAt x.1 none x.2 s) s) s

/-- R317, R327: every home has acknowledged: the locks and the token are released, and each stripe has all its bytes in place.  A
channel whose casting has ended meanwhile is free. -/
def chanPublished (e ch : Nat) (s : State) : State :=
  if (chanOf s e ch).phase ≠ .publishing ∨ !(gangLines s e ch (fun x => !x.merged)).isEmpty then s
  else
    let ks := gangOf s e ch
    let s := unlockAll (chanAgent e ch) (dropToken (chanAgent e ch) s)
    ks.foldl (fun s k =>
      let c := chanOf s k ch
      let s := setChan s k ch { c with phase := .running, ladle := [], asked := none, done := stripeBytes c }
      match c.casting with
      | some n => if (castingOf s n).ending.isSome then
            setOff (setChan (adopt (fun w => decide (w = .chan k ch)) (.casting n) s) k ch {}) (sprBusy k ch)
          else s
      | none => s) s

/-- Whether a transactional channel's transfer has been published. -/
def chanOut (c : Chan) : Bool := transactional c.desc && decide (c.phase = .running) && decide (0 < c.done)

/-- R369: the beats of a whole stripe, row by row, when it was staged. -/
def stageBeats (e ch : Nat) (s : State) : State :=
  let c := chanOf s e ch
  let rows := List.range (min (stripeRows c.desc c.stripe) 8192)
  let n := rows.foldl (fun a r =>
    a + newBeats (dSrc c.desc + (stripeFirst c.desc c.stripe + r) * dSrcPitch c.desc) (dRowBytes c.desc) true) 0
  let s := incF s (sprBeats e ch) n
  if e < 16 then countCl e 0x0E n s else s

end Sys2Proof.Machine
end

