-- ==== Sys2Proof/Machine/Sprue.lean ====
section
/-!
DEFINITION. The rows of the sprue engines: starts, completions, stripes and gangs, error stops (R326, R327, R365 to
R379).
-/
namespace Sys2Proof.Machine

/-- The channels of an engine (R358). -/
def chanCount (e : Nat) : Nat := if e = 16 then 16 else 8

/-- The descriptor in SPR_CH_DESC0–7 (R380). -/
def regDesc (s : State) (e ch : Nat) : List Byte := (List.range 8).flatMap (fun j => leBytes 8 (getF s (sprDesc e ch j)))

/-- R381: the context of host-started transfers. -/
def chanCtx (s : State) (e ch : Nat) : Nat := if isOn s (sprPasidEn e ch) then getF s (sprPasid e ch) + 1 else 0

/-- R358, R362: the transfer that a GO starts: the host's, or that of a firmware processor (for the casting of its
cluster). -/
def goChan (s : State) (fw : Bool) (e ch : Nat) : Chan :=
  let d := regDesc s e ch
  if fw then
    match (if e < 16 then (clusterOf s e).casting else none) with
    | some k => { desc := d, starter := 4, ctx := (castingOf s k).ctx, casting := some k }
    | none => { desc := d, starter := 4 }
  else { desc := d, starter := 0, ctx := chanCtx s e ch }

/-- R364: a GO whose descriptor fails its check. -/
def goBad (c : Chan) (e ch : Nat) (s : State) : State :=
  let x := protEnd 0x11 (agSprue e) 0
  let s := setChan s e ch { c with phase := .claimed }
  releaseChan e ch x (if dStatus c.desc % 16 = 0 then writeWord e ch x 0xFF 0 s else s)

/-- GO (R358, R364, R367, R368): `fw` when a firmware processor writes it. -/
def goStep (fw : Bool) (e ch : Nat) (s : State) : State :=
  if 17 ≤ e ∨ chanCount e ≤ ch ∨ s.powered = false then s
  else if fw = false ∧ (e < 16 ∨ ch < 2) then setOn s (sprPrivErr e)
  else if fw = true ∧ 2 ≤ ch then s
  else if !chanFree s e ch then setOn s (sprGoLost e ch)
  else
    let c := goChan s fw e ch
    if !descOk e ch (if fw then 3 else 0) c.desc then goBad c e ch s
    else if anyStopped s c.desc then setOn (setChan s e ch { c with phase := .claimed, leader := e }) (sprBusy e ch)
    else if !chansFree s ch c.desc then setOn s (sprGoLost e ch)
    else startTransfer ch c s

/-- GO (R368). -/
def execGo (fw : Bool) (e ch : Nat) (s : State) : Out := whenOn s <|
  (if fw then .next (goStep fw e ch s) else inOrder (.go fw e ch) s (.next (goStep fw e ch s)))

/-- R378: every stripe of a channel's transfer is ordered to stop. -/
def stopXfer (e ch : Nat) (s : State) : State :=
  let c := chanOf s e ch
  (if dStripe c.desc = 0 then [e] else dEngines c.desc).foldl (fun s k =>
    let x := chanOf s k ch
    if x.phase ≠ .free ∧ x.desc = c.desc ∧ x.stopping = false then
      setChan s k ch { x with stopping := true, stopAt := s.aoTick } else s) s

/-- STOP (R378): acts on a host-started transfer. -/
def execStop (e ch : Nat) (s : State) : Out := whenOn s <| inOrder (.stop e ch) s <|
  .next (
    if 17 ≤ e ∨ chanCount e ≤ ch then s
    else if e < 16 ∨ ch < 2 then setOn s (sprPrivErr e)
    else if (chanOf s e ch).phase ≠ .free ∧ (chanOf s e ch).starter = 0 then stopXfer e ch s
    else s)

/-- HOST_STOP_KILL (R378): 100 µs after the STOP the channel is killed. -/
def execHostStopKill (e ch : Nat) (s : State) : Out := whenOn s <|
  let c := chanOf s e ch
  .next (
    if !c.stopping || decide (c.starter ≠ 0) || [ChPhase.free, .wordDone, .publishing].contains c.phase || chanOut c then s
    else endXfer e ch (chanDrainEnd true true e) (timeTo (c.stopAt + 2500) s))

/-- R378: a stopped channel's end. -/
def stoppedEnd (e : Nat) (c : Chan) : Ending :=
  if transactional c.desc then chanAbortEnd e 6 else chanDrainEnd (decide (c.starter = 0)) false e

/-- R371, R293: a transfer's last write is complete at its endpoint: its window writes are acknowledged and a zero-length read has
come back behind its posted host writes; then it ends OK. -/
def finishXfer (e ch : Nat) (s : State) : State :=
  match hostFlush (.chan e ch) s with
  | (s, false) => s
  | (s, true) => if winsOut s (fun w => decide (w = .chan e ch)) then s else endChan e ch okEnd 0xFF s

/-- TRANSFER_COMPLETE (R371, R376 to R378): a transactional transfer has been published first. -/
def transferStep (e ch : Nat) (s : State) : State :=
  let c := chanOf s e ch
  if !s.powered || isOn s (sprStopped e) || decide (c.starter = 3) then s
  else
    match c.phase with
    | .free | .wordDone | .publishing => s
    | .claimed | .staged | .locking => if c.stopping then endXfer e ch (stoppedEnd e c) s else s
    | .running =>
      if chanOut c then finishXfer e ch s
      else if c.stopping then endXfer e ch (stoppedEnd e c) s
      else if transactional c.desc then s
      else settleMove e ch (copyRun e ch (stripeBytes c - c.done) s) (finishXfer e ch)

/-- TRANSFER_COMPLETE (R371). -/
def execTransferComplete (e ch : Nat) (s : State) : Out := whenOn s <| .next (transferStep e ch s)

/-- TRANSACTIONAL_SOURCE_READ (R326): the source is in the ladle. -/
def execTransactionalSourceRead (e ch : Nat) (s : State) : Out := whenOn s <|
  let c := chanOf s e ch
  .next (
    if isOn s (sprStopped e) || c.stopping || decide (c.phase ≠ .running) || !transactional c.desc || chanOut c then s
    else
      match stageRun e ch (chanAccess s e ch) (stripeBytes c) 0 [] s with
      | (s, .wait) => s
      | (s, .fail x) => stageFail e ch x s
      | (s, .ok ls) =>
        bumpFree (stageBeats e ch (endWaits (.chan e ch) (setChan s e ch { chanOf s e ch with phase := .staged, ladle := ls }))) 1)

/-- GANG_COMMIT (R327): every stripe has staged: the leader begins to lock the lines of all of them. -/
def execGangCommit (e ch : Nat) (s : State) : Out := whenOn s <|
  let c := chanOf s e ch
  .next (
    if !dFlag c.desc 1 || decide (c.leader ≠ e) || decide (c.phase ≠ .staged) then s
    else if !(dEngines c.desc).all (fun k => decide ((chanOf s k ch).phase = .staged) && decide ((chanOf s k ch).desc = c.desc) &&
        !(chanOf s k ch).stopping) then s
    else lockPhase e ch s)

/-- R374: what word 0 holds: the end and the bitmap. -/
def leaderEnd (e : Nat) (rs : List (Option Ending)) : Ending × Nat :=
  let ends := rs.map (fun r => r.getD okEnd)
  let map := ((List.range ends.length).filter (fun i => decide ((nth okEnd ends i).code = 0))).foldl (fun a i => a + 2 ^ i) 0
  match ends.find? (fun x => decide (x.code ≠ 0)) with
  | none => (okEnd, map)
  | some x => if map = 0 then (nth okEnd ends 0, 0) else (⟨stDone, 1, 0, if x.agent = 0 then agSprue e else x.agent, 0⟩, map)

/-- LEADER_WORD0 (R373, R374, R379). -/
def execLeaderWord0 (e ch : Nat) (s : State) : Out := whenOn s <|
  let c := chanOf s e ch
  .next (
    if decide (c.phase ≠ .wordDone) || c.results.any (fun r => r.isNone) then s
    else
      let r := leaderEnd e c.results
      let s := transferSem c.desc r.1 (writeWord e ch r.1 0xFF r.2 s)
      let s := releaseChan e ch r.1 s
      if c.starter = 1 ∧ c.stopping = false then streamEnd e c.pos c.casting (transferEnd r.1 c.results) s else s)

/-- Whether a code and subcode are ones an error response carries (R377). -/
def busCode (write : Bool) (code sub : Nat) : Bool :=
  (decide (code = 0x31) && decide (sub = if write then 0x11 else 0x10)) ||
    (decide (code = 0x22) && [0x20, 0x21, 0x25, 0x2A].contains sub)

/-- BUS_ERROR_RESPONSE (R377). -/
def execBusErrorResponse (e ch : Nat) (write : Bool) (code sub : Nat) (s : State) : Out := whenOn s <|
  .next (
    match (chanOf s e ch).phase with
    | .running | .staged | .locking =>
      if !isOn s (sprStopped e) && busCode write code sub then busError e ch write code sub s else s
    | _ => s)

/-- R377: a start that waited for an engine stop proceeds. -/
def startWaiting (e ch : Nat) (s : State) : State :=
  let c := chanOf s e ch
  if c.phase ≠ .claimed ∨ c.stopping = true ∨ anyStopped s c.desc then s
  else if (dEngines c.desc).all (fun k => decide (k = e) || chanFree s k ch) then startTransfer ch { c with phase := .free } s
  else setOn (setOff (setChan s e ch {}) (sprBusy e ch)) (sprGoLost e ch)

/-- ENGINE_STOP_CLEAR (R377). -/
def execEngineStopClear (e : Nat) (s : State) : Out := whenOn s <|
  .next (
    if !isOn s (sprStopped e) then s
    else (List.range 17).foldl (fun s k => (List.range (chanCount k)).foldl (fun s ch => startWaiting k ch s) s)
      (setOff s (sprStopped e)))

end Sys2Proof.Machine
end

