-- ==== Sys2Proof/Machine/Xlate.lean ====
section
/-!
DEFINITION. The rows of address translation: completions, page responses, ADVISE, MIGRATE and INVALIDATE
(R336 to R353, R595).
-/
namespace Sys2Proof.Machine

/-! ## What a failed translation does to those who wait for it (R341 to R343, R595) -/

/-- The casting of a waiter. -/
def waiterCasting (s : State) : Waiter → Option Nat
  | .course g slot => some (castingOfCourse s g slot)
  | .pref g slot => some (castingOfCourse s g slot)
  | .engine cl _ | .cores cl => (clusterOf s cl).casting
  | .chan e ch => (chanOf s e ch).casting
  | .casting k => some k
  | .miss g tag => (missOf s g tag).bind (fun m => m.courses.head?.map (fun slot => castingOfCourse s g slot))
  | _ => none

/-- The agent of a waiter. -/
def waiterAgent : Waiter → Nat
  | .course g _ | .pref g _ | .miss g _ => g
  | .engine cl qi => agQueue cl qi
  | .cores cl => agFw (3 + cl)
  | .chan e _ => agSprue e
  | .bridge _ => agHost
  | _ => agFw 2

/-- R564: a watch whose read faults ends without a result. -/
def failWatch (cl : Nat) (s : State) : State :=
  let c := clusterOf s cl
  let node := match tget [] c.queues 0 with | m :: _ => fieldOf m.bytes 4 2 | [] => 0
  let mine := fun (w : Watch) => !w.past && decide (fieldOf w.desc 20 2 = node)
  match (List.range c.watches.length).find? (fun i => mine (nth ⟨0, [], 0, false⟩ c.watches i)) with
  | some i =>
    let w := nth ⟨0, [], 0, false⟩ c.watches i
    setOn (setCluster (forgetWaits (.engine cl 9) s) cl { c with watches := setNth c.watches i { w with past := true } }) trcWatchErr
  | none => s

/-- Whether one that waits is a watch unit. -/
def isWatch (w : Waiter) : Option Nat :=
  match w with
  | .engine cl 9 => some cl
  | _ => none

/-- R114: a prefetch drops a page whose translation it has been denied. -/
def denyPref (g slot page : Nat) (s : State) : State :=
  let c := courseOf s g slot
  if c.live then setCourse s g slot { c with denied := if c.denied.contains page then c.denied else c.denied ++ [page] } else s

/-- One that waits ends: its casting, its transfer, its command, its queue's fetching, its reporting writes, or its prefetch alone.
A write of an ended casting, the flush of an INVALIDATE and the bridge's own read end nothing more. -/
def endWaiter (ctx page : Nat) (e : Ending) (s : State) (w : Waiter) : State :=
  match w with
  | .course g slot => failCourse g slot e s
  | .miss g tag => missFail g tag e s
  | .pref g slot => denyPref g slot page s
  | .cores cl => (match (clusterOf s cl).casting with | some k => failCasting k e s | none => s)
  | .casting _ | .inval _ | .bridge _ => s
  | .engine cl qi =>
    if qi = 9 then failWatch cl s
    else (match (clusterOf s cl).casting with | some k => failCasting k e s | none => s)
  | .chan x ch => endXfer x ch e s
  | .posted => failPosted ctx page e.code e.sub s
  | .command q =>
    if 1024 ≤ q then setOn s (qErr (q - 1024))
    else if 512 ≤ q then s
    else
      match headCmd s q with
      | none => s
      | some c =>
        if c.started then endCommand q e 0 (dropChunks q s)
        else setHead s q { c with work := [e.addr, e.code, e.sub] }

/-- One that waits ends with a code and subcode, at the address it waits for. -/
def failWaiter (ctx page code sub : Nat) (s : State) (w : Waiter × Nat) : State :=
  endWaiter ctx page (faultEnd code sub (waiterAgent w.1) w.2) s w.1

/-- R94: the switched-out consorts that wait for a page of a context, to read it or to write it. -/
def waitingImages (s : State) (ctx page : Nat) (wr : Bool) : List (Nat × Image) :=
  s.cores.flatMap (fun e => (e.2.images.filter (fun i =>
    decide (i.faultVa.map (fun v => v / 4096) = some page) && decide (i.faultWr = wr) &&
      decide ((castingOf s i.consort.casting).ctx = ctx))).map (fun i => (e.1, i)))

/-- R94: their castings end. -/
def failImages (ctx page code sub : Nat) (wr : Bool) (s : State) : State :=
  (waitingImages s ctx page wr).foldl (fun s x =>
    failCasting x.2.consort.casting (faultEnd code sub x.1 (x.2.faultVa.getD 0)) s) s

/-- R94: they may be switched in. -/
def readyImages (ctx page : Nat) (wr : Bool) (s : State) : State :=
  let ims := (waitingImages s ctx page wr).map (fun x => x.2)
  { s with cores := s.cores.map (fun e => (e.1, { e.2 with images := e.2.images.map (fun i =>
    if ims.contains i then { i with ready := true, faultVa := none } else i) })) }

/-- Every one that waits for a page, to read it or to write it, ends. -/
def failAll (ctx page code sub : Nat) (wr : Bool) (ws : List (Waiter × Nat)) (s : State) : State :=
  failImages ctx page code sub wr (ws.foldl (failWaiter ctx page code sub) s)

/-- The casting of a waiter when it is a scheduled one. -/
def schedWaiter (s : State) (w : Waiter) : Option Nat :=
  match waiterCasting s w with
  | some k => if (castingOf s k).sched then some k else none
  | none => none

/-- Whether page requests can be sent (R337, R342, R440). -/
def priOn (s : State) : Bool := s.hpt.pri && s.hpt.bme && !s.xl.priStopped

/-- R92, R320: a course meets a page fault: inside a pour it aborts with reason FAULT; else it stops before the
instruction, a long instruction at its unit's boundary, and waits. -/
def courseFault (g slot va : Nat) (wr : Bool) (s : State) : State :=
  let c := courseOf s g slot
  if c.pour = .open then abortPour g slot 5 s
  else
    let s := match c.long with
      | some l => longStop g slot 1 l s
      | none => s
    setCourse s g slot { courseOf s g slot with faultVa := some va, faultWr := wr }

/-- R342, R343, R595: one that waits meets a page fault: the translation is not present, or denies the access. -/
def faultWaiter (ctx page : Nat) (wr denied : Bool) (s : State) (w : Waiter × Nat) : State :=
  match w.1, isWatch w.1, schedWaiter s w.1 with
  | .pref g slot, _, _ => denyPref g slot page s
  | _, some cl, _ => failWatch cl s
  | _, none, some k =>
    let s := failCasting k (faultEnd 0x21 (if denied then 0x11 else 0x10) (waiterAgent w.1) w.2) s
    if priOn s then askPage ctx page wr [] true s else s
  | _, none, none =>
    if denied ∧ w.1 = .posted then failPosted ctx page 0x22 0x23 s
    else if !s.hpt.pri || s.xl.priStopped then failWaiter ctx page 0x20 0x12 s w
    else if !s.hpt.bme then s
    else
      let s' := askPage ctx page wr [w] false s
      if s'.xl.pri.any (fun g => decide (g.ctx = ctx) && decide (g.page = page) && !g.ignored) then
        (match w.1 with
         | .course g slot => courseFault g slot w.2 wr s'
         | _ => s')
      else s'

/-! ## ATS completions (R341, R342, R352) -/

/-- R341: the largest supported page size (log2) within a range. -/
def pageLog (n : Nat) : Nat := if 30 ≤ n then 30 else if 21 ≤ n then 21 else if 16 ≤ n then 16 else 12

/-- R341: the entry that a completion gives: the page that holds the address, within the range translated to `ta`. -/
def newEnt (ctx va ta n : Nat) (rd wr : Bool) : XEnt :=
  let z := pageLog n
  let m := max n 12
  let full := ta / 2 ^ m * 2 ^ m + va % 2 ^ m
  ⟨ctx, va / 2 ^ z, z, full / 2 ^ z, rd, wr, false, 1⟩

/-- Whether two entries share an address of one context. -/
def entMeets (a b : XEnt) : Bool :=
  decide (a.ctx = b.ctx) && decide (a.va / 2 ^ (max a.size b.size - a.size) = b.va / 2 ^ (max a.size b.size - b.size))

/-- A completion's entry enters the crucible cache in place of those it covers; a pin stays. -/
def cacheEnt (e : XEnt) (s : State) : State :=
  let e := { e with pinned := s.xl.crucible.any (fun x => entMeets e x && x.pinned) }
  { s with xl := { s.xl with crucible := addEnt 65536 (s.xl.crucible.filter (fun x => !entMeets e x)) e } }

/-- Courses whose page has come go on. -/
def wakeCourses (ws : List (Waiter × Nat)) (s : State) : State :=
  ws.foldl (fun s w =>
    match w.1 with
    | .course g slot => setCourse s g slot { courseOf s g slot with faultVa := none, faultWr := false }
    | _ => s) s

/-- R342: one whose page request has been answered with Success, and whose page is still not present or denies the access. -/
def stillDenied (ctx page : Nat) (wr denied : Bool) (s : State) (w : Waiter × Nat) : State :=
  if (schedWaiter s w.1).isSome then faultWaiter ctx page wr denied s w else failWaiter ctx page 0x22 0x23 s w

/-- A request's outcome: a usable translation, a page fault, or its end. -/
def atsOutcome (r : AtsReq) (va : Nat) (status : AtsStatus) (ta n : Nat) (rd wr : Bool) (s : State) : State :=
  match status with
  | .success =>
    let s := if rd || wr then cacheEnt (newEnt r.ctx va ta n rd wr) s else s
    if (if r.write then wr else rd) then
      readyImages r.ctx r.page r.write (retryPosted r.ctx r.page (wakeCourses r.waiters s))
    else if r.retry then
      failImages r.ctx r.page 0x22 0x23 r.write (r.waiters.foldl (stillDenied r.ctx r.page r.write (rd || wr)) s)
    else r.waiters.foldl (faultWaiter r.ctx r.page r.write (rd || wr)) s
  | _ => failAll r.ctx r.page 0x20 0x13 r.write r.waiters s

/-- Whether a range of addresses of a context is matched. -/
def Scope.hits (x : Scope) (ctx lo hi : Nat) : Bool :=
  x.all || (decide (ctx = x.ctx) && decide (lo < x.hi) && decide (x.lo < hi))

/-- Whether an entry is matched. -/
def Scope.ent (x : Scope) (e : XEnt) : Bool := x.hits e.ctx (e.va * 2 ^ e.size) ((e.va + 1) * 2 ^ e.size)

/-- ATS_COMPLETION (R341): one whose page an INVALIDATE matches that came after its request is not cached, and its access asks
again (R352). -/
def execAtsCompletion (ctx va : Nat) (write : Bool) (status : AtsStatus) (ta n : Nat) (rd wr : Bool) (s : State) : Out := whenOn s <|
  .next (
    match s.xl.ats.find? (fun r => decide (r.ctx = ctx) && decide (r.page = va / 4096) && decide (r.write = write) && r.sent) with
    | none => s
    | some r =>
      let s := { s with xl := { s.xl with ats := s.xl.ats.filter (fun x => decide (x ≠ r)) } }
      if status = .success ∧ r.past.any (fun x => x.ent (newEnt ctx va ta n rd wr)) = true then askFor ctx r.page write r.retry r.waiters s
      else atsOutcome r va status ta n rd wr s)

/-- R342, R94: after a successful page response the waiting accesses of one kind ask for the translation again. -/
def reask (ctx page : Nat) (wr : Bool) (ws : List (Waiter × Nat)) (s : State) : State :=
  if ws.isEmpty ∧ (waitingImages s ctx page wr).isEmpty then s else askFor ctx page wr true ws s

/-- What a page response does to those who wait for the group. -/
def pageAnswer (g : PriGroup) (code : PriCode) (s : State) : State :=
  match code with
  | .success => reask g.ctx g.page true g.writers (reask g.ctx g.page false g.readers s)
  | .invalidRequest => failAll g.ctx g.page 0x20 0x10 true g.writers (failAll g.ctx g.page 0x20 0x10 false g.readers s)
  | .responseFailure =>
    failAll g.ctx g.page 0x20 0x11 true g.writers (failAll g.ctx g.page 0x20 0x11 false g.readers
      { s with xl := { s.xl with priStopped := true } })

/-- PRI_RESPONSE (R342, R94): a reporting write that found no group free is tried again. -/
def execPriResponse (group : Nat) (code : PriCode) (s : State) : Out := whenOn s <|
  .next (
    match s.xl.pri.find? (fun g => decide (g.id = group)) with
    | none => s
    | some g =>
      let s := { s with xl := { s.xl with pri := s.xl.pri.filter (fun x => decide (x ≠ g)) } }
      retryIdle (if g.ignored then s else pageAnswer g code s))

/-! ## INVALIDATE (R351 to R353) -/

/-- The TA of a line that a pour has touched under a KEYSEL. -/
def lineTa (s : State) (line key : Nat) : Nat :=
  if line < 2 ^ 57 then (dmRange s).1 + 128 * line + key * 2 ^ 46 else 128 * (line - 2 ^ 57)

/-- The entries of every cache that a scope matches. -/
def matchedEnts (s : State) (x : Scope) : List XEnt :=
  s.xl.crucible.filter x.ent ++ s.xl.cluster.flatMap (fun e => e.2.filter x.ent)

/-- Whether a line of a pour of a context has been translated by one of some entries. (DEDUCED, log entry 71.) -/
def lineUses (s : State) (ctx line key : Nat) (es : List XEnt) : Bool :=
  es.any (fun e => decide (e.ctx = ctx) && decide (lineTa s line key / 2 ^ e.size = e.ta))

/-- Whether core `g`'s pour has a line translated by one of the removed entries. -/
def pourUses (s : State) (g : Nat) (es : List XEnt) : Bool :=
  match (coreOf s g).ladle.holder with
  | none => false
  | some slot =>
    (coreOf s g).ladle.keys.any (fun k => lineUses s (castingOf s (castingOfCourse s g slot)).ctx k.1 (k.2 - 1) es)

/-- Whether a channel's ladle has a line translated by one of the removed entries. -/
def chanUses (s : State) (e ch : Nat) (es : List XEnt) : Bool :=
  (chanOf s e ch).ladle.any (fun x => lineUses s (chanOf s e ch).ctx (realLine e x.line) x.key es)

/-- Every channel, with its engine. -/
def allChans (s : State) : List (Nat × Nat) := s.spr.chans.flatMap (fun e => e.2.map (fun c => (e.1, c.1)))

/-- The context of a waiter. -/
def waiterCtx (s : State) : Waiter → Option Nat
  | .chan e ch => some (chanOf s e ch).ctx
  | .command q => some (ctxOfQueue s (q % 512))
  | .posted | .inval _ | .bridge _ => none
  | w => (waiterCasting s w).map (fun k => (castingOf s k).ctx)

/-- Whether an access was translated with a removed entry: its context and address are matched, or lie under such an entry; one
whose context is not noted counts. -/
def usesEnt (s : State) (x : Scope) (es : List XEnt) (w : Waiter) (va : Nat) : Bool :=
  match waiterCtx s w with
  | some c => x.hits c va (va + 1) || es.any (entCovers c va)
  | none => true

/-- R352: what the wait of an INVALIDATE lasts for: the window requests and host reads under way that used a removed entry, and
the publications. -/
def inFlight (s : State) (x : Scope) (es : List XEnt) : List Flight :=
  (s.xl.wins.filter (fun w => w.back.isNone && usesEnt s x es w.who w.va)).map (fun w => .win w.tag) ++
  (s.xl.reads.filter (fun r => !r.back && decide (r.len ≠ 0) && usesEnt s x es r.who r.va)).map (fun r => .read r.tag) ++
  ((s.cores.filter (fun e => (match e.2.ladle.holder with
      | some slot => decide ((tget {} e.2.courses slot).pour = .publishing)
      | none => false) && pourUses s e.1 es)).map (fun e => .pour e.1)) ++
  (((allChans s).filter (fun c => decide ((chanOf s c.1 c.2).phase = .publishing) && chanUses s c.1 c.2 es)).map
    (fun c => .pour (chanAgent c.1 c.2)))

/-- Whether one of the accesses that an INVALIDATE waits for has finished. -/
def Flight.over (s : State) : Flight → Bool
  | .win tag => !s.xl.wins.any (fun w => decide (w.tag = tag) && w.back.isNone)
  | .read tag => !s.xl.reads.any (fun r => decide (r.tag = tag) && !r.back)
  | .inbound port p => !(portOf s port).rx.contains p
  | .pour who =>
    if who < 0x10000 then
      match (coreOf s who).ladle.holder with
      | some slot => decide ((courseOf s who slot).pour ≠ .publishing)
      | none => true
    else decide ((chanOf s ((who - 0x10000) / 32) (who % 32)).phase ≠ .publishing)

/-- R352, R353: step 2: every access is over, and the posted writes made before it are complete (R293); 512 stands for the host's
message. -/
def landed (q : Nat) (ns : List Flight) (s : State) : State × Bool :=
  match hostFlush (.inval q) s with
  | (s, false) => (s, false)
  | (s, true) => (s, ns.all (Flight.over s))

/-- R352: the pours that used a removed entry abort with CONFLICT before their commit point: those of courses, and transactional
transfers with their lines in the ladle. -/
def abortUsers (es : List XEnt) (s : State) : State :=
  let s := s.cores.foldl (fun s e =>
    match e.2.ladle.holder with
    | some slot => if pourUses s e.1 es then abortPour e.1 slot 1 s else s
    | none => s) s
  (allChans s).foldl (fun s c =>
    let x := chanOf s c.1 c.2
    if (x.phase = .staged ∨ x.phase = .locking) ∧ chanUses s c.1 c.2 es = true then
      if dFlag x.desc 1 then gangAbort c.1 c.2 (chanAbortEnd c.1 1) s else chanConflict c.1 c.2 s
    else s) s

/-- R352 step 1: matching entries leave every cache, the requests sent before are noted, and pours abort; the second part is
what step 2 waits for; the posted writes of the matched contexts are its own to see complete. -/
def invalidateNow (q : Nat) (x : Scope) (s : State) : State × List Flight :=
  let es := matchedEnts s x
  let ns := inFlight s x es
  let dirty := s.xl.dirty.any (fun w => match waiterCtx s w with | some c => x.all || decide (c = x.ctx) | none => false)
  let s := abortUsers es s
  let s := if dirty then markDirty (.inval q) s else s
  ({ s with xl := { s.xl with
      crucible := s.xl.crucible.filter (fun e => !x.ent e)
      cluster := s.xl.cluster.filterMap (fun c =>
        let es := c.2.filter (fun e => !x.ent e)
        if es.isEmpty then none else some (c.1, es))
      ats := s.xl.ats.map (fun r => if r.sent && (x.all || decide (r.ctx = x.ctx)) then { r with past := r.past ++ [x] } else r) } }, ns)

/-- SCOPE of an INVALIDATE. -/
def invScope (c : Cmd) : Nat := fieldOf c.bytes 24 1
/-- Its CONTEXT. -/
def invCtx (c : Cmd) : Nat := let v := fieldOf c.bytes 28 4; if bit v 20 then bits v 19 0 + 1 else 0
/-- FIRST. -/
def invFirst (c : Cmd) : Nat := fieldOf c.bytes 26 2
/-- COUNT. -/
def invCount (c : Cmd) : Nat := fieldOf c.bytes 48 2

/-- R39, R351: an INVALIDATE's own fields. -/
def invOk (c : Cmd) : Bool :=
  let x := invScope c
  decide (1 ≤ x) && decide (x ≤ 5) &&
    (if x = 1 then decide (fieldOf c.bytes 32 8 % 4096 = 0) && decide (fieldOf c.bytes 40 8 % 4096 = 0)
     else if 4 ≤ x then decide (invFirst c < 256) && decide (1 ≤ invCount c) && decide (invFirst c + invCount c ≤ 256)
     else true)

/-- An INVALIDATE of one scope starts: its first step and the list of what it waits for. -/
def invStep (q scope : Nat) (f : Cmd → State → State × List Flight) (s : State) : State :=
  begin q 5 invOk s (fun c =>
    if invScope c ≠ scope then s
    else
      let r := f c (startCommand q c (useCredit q s))
      { r.1 with xl := { r.1.xl with invals := r.1.xl.invals ++ [(q, r.2)] } })

/-- INVALIDATE_RANGE (R352). -/
def execInvalidateRange (q : Nat) (s : State) : Out := whenOn s <|
  .next (invStep q 1 (fun c s =>
    let a := fieldOf c.bytes 32 8
    invalidateNow q ⟨false, invCtx c, a, a + fieldOf c.bytes 40 8⟩ s) s)

/-- INVALIDATE_CONTEXT (R352). -/
def execInvalidateContext (q : Nat) (s : State) : Out := whenOn s <|
  .next (invStep q 2 (fun c s => invalidateNow q ⟨false, invCtx c, 0, 2 ^ 64⟩ s) s)

/-- INVALIDATE_ALL (R352). -/
def execInvalidateAll (q : Nat) (s : State) : Out := whenOn s <| .next (invStep q 3 (fun _ s => invalidateNow q ⟨true, 0, 0, 0⟩ s) s)

/-- INVALIDATE_OUTBOUND (R352): it waits for the accesses that used the named outbound windows. -/
def execInvalidateOutbound (q : Nat) (s : State) : Out := whenOn s <|
  .next (invStep q 4 (fun c s =>
    (s, (s.xl.wins.filter (fun w => w.back.isNone && decide (invFirst c ≤ w.win) && decide (w.win < invFirst c + invCount c))).map
      (fun w => .win w.tag))) s)

/-- The requests that wait at their target behind the ports and came through inbound windows of a range (R350, R352). -/
def waitingInbound (s : State) (first n : Nat) : List Flight :=
  (List.range 24).flatMap (fun p => ((portOf s p).rx.filter (fun x =>
    decide (first ≤ x.iwin % 256) && decide (x.iwin % 256 < first + n))).map (fun x => .inbound p x))

/-- INVALIDATE_INBOUND (R352): it waits for the requests that came through the named inbound windows and wait at their target. -/
def execInvalidateInbound (q : Nat) (s : State) : Out := whenOn s <|
  .next (invStep q 5 (fun c s => (s, waitingInbound s (invFirst c) (invCount c))) s)

/-- INVALIDATE_WAIT_DONE (R352, R353): step 2 is over; 512 stands for the host's oldest ATS Invalidate Request. -/
def execInvalidateWaitDone (q : Nat) (s : State) : Out := whenOn s <|
  .next (
    match s.xl.invals.find? (fun x => decide (x.1 = q)) with
    | none => s
    | some x =>
      match landed q x.2 s with
      | (s, false) => s
      | (s, true) =>
        if q = 512 then { s with xl := { s.xl with invals := s.xl.invals.erase x, invDone := s.xl.invDone + 1 } }
        else running q 5 s (fun _ => endCommand q okEnd 0 s))

/-- R353: the Invalidate Queue Depth that the device reports. -/
def invalidateQueueDepth : Nat := 32
/-- R353: Global Invalidate Supported: an entry is invalidated only in its own context. -/
def globalInvalidateSupported : Bool := false

/-- ATS_INVALIDATE_REQUEST (R353): the host's message, as RANGE over its own range; its completion follows step 2.  A message
beyond the queue's depth is not taken up yet. (DESIGN CHOICE, log entry 116.) -/
def execAtsInvalidateRequest (ctx va n : Nat) (s : State) : Out := whenOn s <|
  .next (
    if !s.hpt.ats || decide (invalidateQueueDepth ≤ (s.xl.invals.filter (fun x => decide (x.1 = 512))).length) then s
    else
      let m := max n 12
      let r := invalidateNow 512 ⟨false, ctx, va / 2 ^ m * 2 ^ m, va / 2 ^ m * 2 ^ m + 2 ^ m⟩ s
      if r.2.isEmpty && !r.1.xl.dirty.contains (.inval 512) then { r.1 with xl := { r.1.xl with invDone := r.1.xl.invDone + 1 } }
      else { r.1 with xl := { r.1.xl with invals := r.1.xl.invals ++ [(512, r.2)] } })

/-! ## ADVISE (R344, R345) -/

/-- OP of an ADVISE. -/
def advOp (c : Cmd) : Nat := fieldOf c.bytes 24 1
/-- WRITE. -/
def advWrite (c : Cmd) : Bool := bit (fieldOf c.bytes 25 1) 0
/-- HINT. -/
def advHint (c : Cmd) : Nat := fieldOf c.bytes 26 2
/-- ADDR. -/
def advAddr (c : Cmd) : Nat := fieldOf c.bytes 32 8
/-- BYTES. -/
def advBytes (c : Cmd) : Nat := fieldOf c.bytes 40 8

/-- R39, R344: an ADVISE's own fields. (DEDUCED, log entry 70.) -/
def advOk (c : Cmd) : Bool :=
  decide (1 ≤ advOp c) && decide (advOp c ≤ 4) &&
    decide (advAddr c % 4096 = 0) && decide (advBytes c % 4096 = 0) && decide (4096 ≤ advBytes c) && decide (advBytes c ≤ 2 ^ 40)

/-- A command of several operations: the row of another operation leaves it alone. -/
def subStep (q op : Nat) (ok mine : Cmd → Bool) (s : State) (k : Cmd → State → State) : State :=
  match headCmd s q with
  | none => s
  | some c => if cOp c = op ∧ ok c ∧ commonOk c ∧ ¬ mine c then s else cmdStep q op ok s k

/-- Pages of an ADVISE from page `n` on, one after another (at most `fuel`): how far it came. -/
def advPages (f : Nat → State → State × Got Unit) (addr : Nat) : Nat → Nat → State → State × Nat × Got Unit
  | 0, n, s => (s, n, .ok ())
  | fuel + 1, n, s =>
    match f (addr + 4096 * n) s with
    | (s, .ok ()) => advPages f addr fuel (n + 1) s
    | (s, r) => (s, n, r)

/-- An ADVISE goes on from the page where it stands. -/
def advRun (q : Nat) (f : Nat → State → State × Got Unit) (c : Cmd) (s : State) : State :=
  match advPages f (advAddr c) (advBytes c / 4096 - c.stage) c.stage s with
  | (s, _, .ok ()) => endCommand q okEnd 0 s
  | (s, n, .wait) => setHead s q { c with stage := n }
  | (s, _, .fail e) => endCommand q e 0 s

/-- Place a page's translation in the crucible cache. -/
def advTranslate (q : Nat) (wr : Bool) (va : Nat) (s : State) : State × Got Unit :=
  match translate (cmdAccess s q) va wr s with
  | (s, .ok _) => (s, .ok ())
  | (s, .wait) => (s, .wait)
  | (s, .fail e) => (s, .fail e)

/-- Pin a page's entry (R345). -/
def advPin (q : Nat) (wr : Bool) (va : Nat) (s : State) : State × Got Unit :=
  match advTranslate q wr va s with
  | (s, .ok ()) =>
    let ctx := ctxOfQueue s q
    match findEnt s.xl.crucible ctx va with
    | none => (s, .wait)
    | some e =>
      if e.pinned then (s, .ok ())
      else if 49152 ≤ (s.xl.crucible.filter (fun x => x.pinned)).length then (s, .fail ⟨stAborted, 0x61, 0x13, agFw 2, va⟩)
      else ({ s with xl := { s.xl with crucible := s.xl.crucible.map (fun x => if x = e then { x with pinned := true } else x) } }, .ok ())
  | r => r

/-- Clear PINNED in a context's entries that lie in a range, in every cache (R345). (DEDUCED, log entry 69.) -/
def unpinRange (ctx lo n : Nat) (s : State) : State :=
  let free := fun (e : XEnt) =>
    if e.ctx = ctx ∧ lo ≤ e.va * 2 ^ e.size ∧ (e.va + 1) * 2 ^ e.size ≤ lo + n then { e with pinned := false } else e
  { s with xl := { s.xl with
    crucible := s.xl.crucible.map free
    cluster := s.xl.cluster.map (fun c => (c.1, c.2.map free)) } }

/-- TRANSLATE (R345). -/
def execTranslate (q : Nat) (s : State) : Out := whenOn s <|
  .next (subStep q 4 advOk (fun c => decide (advOp c = 1)) s (fun c s => advRun q (advTranslate q (advWrite c)) c s))

/-- PIN (R345). -/
def execPin (q : Nat) (s : State) : Out := whenOn s <|
  .next (subStep q 4 advOk (fun c => decide (advOp c = 2)) s (fun c s => advRun q (advPin q (advWrite c)) c s))

/-- UNPIN (R345). -/
def execUnpin (q : Nat) (s : State) : Out := whenOn s <|
  .next (subStep q 4 advOk (fun c => decide (advOp c = 3)) s (fun c s =>
    endCommand q okEnd 0 (unpinRange (ctxOfQueue s q) (advAddr c) (advBytes c) s)))

/-! ## Chunks of MIGRATE and PRELOAD (R345, R347) -/

/-- The descriptor of a command's chunks: the whole range as one row, POISON_CONT, and PRELOAD where it writes nothing. -/
def chunkDesc (src dst hint ch : Nat) (preload : Bool) : List Byte :=
  leBytes 8 src ++ leBytes 8 dst ++ leBytes 4 1 ++ leBytes 4 1 ++ leBytes 12 0 ++ leBytes 4 0x10000 ++ leBytes 2 hint ++ leBytes 1 0 ++
    leBytes 1 (if preload then 0x18 else 0x08) ++ leBytes 1 0 ++ leBytes 1 ch ++ leBytes 18 0

/-- Start the command's further chunks on free sph channels, from chunk `n` on. -/
def chunkStart (q total : Nat) (d : Nat → List Byte) : List Nat → Nat → State → State × Nat
  | [], n, s => (s, n)
  | ch :: more, n, s =>
    if total ≤ chunkBytes * n then (s, n)
    else if chanFree s 16 ch then
      let c : Chan := { phase := .running, desc := d ch, total := total, starter := 3, course := q, ctx := ctxOfQueue s q, pos := n, leader := 16 }
      chunkStart q total d more (n + 1) (setOn (setChan s 16 ch c) (sprBusy 16 ch))
    else chunkStart q total d more n s

/-- Issue chunks; the command ends when every chunk is complete. -/
def chunkIssue (q total : Nat) (d : Nat → List Byte) (s : State) : State :=
  match headCmd s q with
  | none => s
  | some c =>
    let r := if isOn s (sprStopped 16) then (s, c.stage) else chunkStart q total d (List.range 16) c.stage s
    let s := setHead r.1 q { c with stage := r.2 }
    if total ≤ chunkBytes * r.2 ∧ (chunkChans s q).isEmpty then endCommand q okEnd 0 s else s

/-- A chunk's channel moves what it can; it is complete when its writes are complete at their endpoint (R24, R347). -/
def chunkMove (ch : Nat) (s : State) : State :=
  settleMove 16 ch (copyRun 16 ch chunkBytes s) (finishXfer 16 ch)

/-- R39, R346: a MIGRATE's own fields. -/
def migOk (c : Cmd) : Bool :=
  let n := fieldOf c.bytes 40 8
  decide (fieldOf c.bytes 24 8 % 128 = 0) && decide (fieldOf c.bytes 32 8 % 128 = 0) && decide (n % 128 = 0) && decide (128 ≤ n) &&
    decide (n ≤ 2 ^ 40)

/-- The chunks of a MIGRATE. -/
def migIssue (q : Nat) (c : Cmd) (s : State) : State :=
  chunkIssue q (fieldOf c.bytes 40 8) (fun ch =>
    chunkDesc (fieldOf c.bytes 24 8) (fieldOf c.bytes 32 8) (fieldOf c.bytes 48 2) ch false) s

/-- MIGRATE (R347): it starts, and issues chunks. -/
def execMigrate (q : Nat) (s : State) : Out := whenOn s <| .next (cmdStep q 3 migOk s (migIssue q))

/-- MIGRATE_CHUNK_COMPLETE (R347). -/
def execMigrateChunkComplete (q chunk : Nat) (s : State) : Out := whenOn s <|
  .next (running q 3 s (fun c =>
    match (chunkChans s q).find? (fun ch => decide ((chanOf s 16 ch).pos = chunk)) with
    | none => s
    | some ch =>
      let s := chunkMove ch s
      if (chunkChans s q).contains ch || isOn s (sprStopped 16) then s
      else
        match headCmd s q with
        | some c' => if c' = c then migIssue q c s else s
        | none => s))

/-- PRELOAD (R345): its chunks run on sph channels; each presentation moves what it can. -/
def execPreload (q : Nat) (s : State) : Out := whenOn s <|
  .next (subStep q 4 advOk (fun c => decide (advOp c = 4)) s (fun c s =>
    let issue := chunkIssue q (advBytes c) (fun ch => chunkDesc (advAddr c) 0 (advHint c) ch true)
    let s := issue s
    match headCmd s q with
    | none => s
    | some c' =>
      if cSeq c' ≠ cSeq c ∨ c'.started = false then s
      else
        let n := c'.upd
        let s := (chunkChans s q).foldl (fun s ch => if (chunkChans s q).contains ch then chunkMove ch s else s) s
        match headCmd s q with
        | some x => if x.started ∧ x.upd = n ∧ cOp x = 4 then issue s else s
        | none => s))

end Sys2Proof.Machine
end

