-- ==== Sys2Proof/Machine/AmtoxOps.lean ====
section
/-!
DEFINITION. What the Amtox ports share: states of a port, requests from other devices (R350, R410), responses, and what
follows when a port leaves ACTIVE (R396, R411).
-/
namespace Sys2Proof.Machine

/-! ## States of a port (R417, R511) -/

/-- R396: every outstanding best-effort request was sent under the old ACTIVE set. -/
def markOld (s : State) : State :=
  { s with xl := { s.xl with wins := s.xl.wins.map (fun r => if r.back.isNone && decide (r.pkt.vl = 1) then { r with old := true } else r) } }

/-- A port's STATE, WIDTH and LANES; a change enters the error ring, and a change of the ACTIVE set is noted (R396). -/
def setPortState (p st : Nat) (narrow : Bool) (lanes : Nat) (s : State) : State :=
  let s' := if decide (getF s (pState p) = 2) = decide (st = 2) then s else markOld s
  let t := setF (setB (setF s' (pState p) st) (pWidth p) narrow) (pLanes p) lanes
  if getF s (pState p) = st ∧ isOn s (pWidth p) = narrow ∧ getF s (pLanes p) = lanes then t
  else errEvent 0x04 (agPort p) 0 0 (st + 8 * b2n narrow + 16 * lanes) 0 t

/-- A port's STATE alone. -/
def setPortSt (p st : Nat) (s : State) : State := setPortState p st (isOn s (pWidth p)) (getF s (pLanes p)) s

/-- The ports that are ACTIVE. -/
def activePorts (s : State) : List Nat := (List.range 24).filter (fun p => decide (getF s (pState p) = 2))

/-- A window request ends with a code and subcode; the port is named (R410, R411). -/
def failWin (r : WinReq) (code sub : Nat) (s : State) : State :=
  let s := { s with xl := { s.xl with wins := s.xl.wins.filter (fun x => decide (x ≠ r)) } }
  endWaiter 0 0 (faultEnd code sub (agPort r.port) r.va) s r.who

/-- R411: an outstanding best-effort request of a port that has left ACTIVE: a read or write is reissued once on another
port; an atomic, and a read or write that no port can carry, ends with PORT_DOWN. -/
def reissue (s : State) (r : WinReq) : State :=
  match r.kind, portFor s r.pkt.dst r.pkt.offset with
  | .atomReq, _ => failWin r 0x41 0x12 s
  | _, none => failWin r 0x41 0x12 s
  | _, some q =>
    if r.reissued then s
    else
      let r' := { r with port := q, reissued := true }
      sendPacket q r.pkt { s with xl := { s.xl with wins := s.xl.wins.map (fun x => if x = r then r' else x) } }

/-- R411: a port leaves ACTIVE for a state: its best-effort requests are reissued or end; its frames start afresh when it
trains again; scheduled packets wait. -/
def leaveActive (p st : Nat) (s : State) : State :=
  if getF s (pState p) ≠ 2 then setPortSt p st s
  else
    let x := portOf s p
    let s := setPortSt p st s
    let s := setPort s p { x with
      bufs := (x.replay.map Prod.snd ++ x.bufs).filter (fun q => decide (q.vl = 3)), replay := [], credits := [], owed := []
      seqTx := 0, ackRx := 255, nakOut := false, delays := [] }
    (s.xl.wins.filter (fun r => decide (r.port = p) && r.back.isNone && decide (r.pkt.vl = 1))).foldl reissue s

/-! ## Requests from other devices (R350) -/

/-- R350: what a request needs: PERM bit 0 R, 1 W, 2 ATOM, 3 SEMA. -/
def needs : PacketKind → Nat
  | .rdReq => 0 | .wr => 1 | .atomReq => 2 | _ => 3

/-- R350, R356: whether inbound window `w` admits `n` bytes at an offset for a sender. (DEDUCED, log entry 72.) -/
def admits (s : State) (w src off n need : Nat) : Bool :=
  isOn s (iwValid w) && decide (off + n ≤ 2 ^ getF s (iwSize w)) && (isOn s (iwAny w) || decide (getF s (iwSrc w) = src)) &&
    isOn s (iwPerm w need) && decide (getF s (iwBase w) * 4096 % 2 ^ getF s (iwSize w) = 0)

/-- R350: the DPA of an admitted request. -/
def inboundDpa (s : State) (w off : Nat) : Nat := getF s (iwKey w) * 2 ^ 46 + (getF s (iwBase w) * 4096 + off) % 2 ^ 46

/-- How the receiver makes an inbound access. -/
def inboundAccess (port : Nat) : Acc2 := ⟨.posted, 0, agPort port, false, none⟩

/-- R350: the error-ring entry of a refusal. -/
def refuseEntry (port : Nat) (p : Packet) (code sub addr : Nat) (s : State) : State :=
  errEvent 0x07 (agPort port) code sub (p.src % 2048 + 2 ^ 16 * (p.iwin % 256)) addr s

/-- A response goes back, by the port the request came through or another that reaches the sender (R396). -/
def respond (port : Nat) (p : Packet) (kind : PacketKind) (code sub : Nat) (bs : List Byte) (s : State) : State :=
  let out : Packet := ⟨kind, if p.vl = 3 then 3 else 2, getF s amxDev, p.src, p.tag, 0, 0, bs.length, 0, code, sub, bs, 0⟩
  let q := if getF s (pState port) = 2 then some port else (portsTo s p.src).head?
  match q with
  | some q => sendPacket q out s
  | none => s

/-- A coherent read of a span of device memory, line by line. -/
def readDpa (a : Acc2) : Nat → Nat → Nat → State → State × Got (List Byte)
  | 0, _, _, s => (s, .ok [])
  | fuel + 1, dpa, n, s =>
    if n = 0 then (s, .ok [])
    else
      let k := min n (128 - dpa % 128)
      match readTarget a (.dev dpa) dpa k none s with
      | (s, .ok bs) =>
        (match readDpa a fuel (dpa + k) (n - k) s with
         | (s, .ok more) => (s, .ok (bs ++ more))
         | r => r)
      | r => r

/-- The enabled bytes of a window write as runs: offset and bytes, none crossing a line (R391: enables of the first 64 B). -/
def writeRuns (dpa be : Nat) (bs : List Byte) : List (Nat × List Byte) :=
  let on := fun i => decide (64 ≤ i) || bit be i
  (List.range bs.length).foldl (fun (acc : List (Nat × List Byte)) i =>
    if !on i then acc
    else
      match acc.getLast? with
      | some (o, x) => if o + x.length = i ∧ (dpa + i) % 128 ≠ 0 then acc.dropLast ++ [(o, x ++ (bs.drop i).take 1)] else acc ++ [(i, (bs.drop i).take 1)]
      | none => [(i, (bs.drop i).take 1)]) []

/-- Whether every line of a span may be written now; its first bar. -/
def writeReady (ag dpa n : Nat) (s : State) : Got Unit :=
  (List.range ((dpa % 128 + n + 127) / 128)).foldl (fun (r : Got Unit) i =>
    let d := dpa / 128 * 128 + 128 * i
    match r with
    | .ok () =>
      (match writeBar s ag d with
       | .ok () => if lineBusy s (lineOf (locOf d)) none none none then .wait else .ok ()
       | r => r)
    | r => r) (.ok ())

/-- A request is performed at the receiver: its response (kind, code, subcode, bytes), or a wait. -/
def serve (port : Nat) (p : Packet) (s : State) : State × Option (PacketKind × Nat × Nat × List Byte) :=
  let a := inboundAccess port
  let n := if p.kind = .atomReq then (if bit p.aux 4 then 8 else 4) else if p.kind = .semSig then 0 else p.len
  let rsp : PacketKind := match p.kind with | .rdReq => .rdRsp | .wr => .wrAck | _ => .atomRsp
  if !admits s (p.iwin % 256) p.src (if p.kind = .semSig then 0 else p.offset) n (needs p.kind) then
    (refuseEntry port p 0x22 0x25 0 s, some (rsp, 0x22, 0x25, []))
  else
    let dpa := inboundDpa s (p.iwin % 256) p.offset
    let refuse := fun (e : Ending) (s : State) =>
      (if e.code = 0x30 then s else refuseEntry port p e.code e.sub dpa s, some (rsp, e.code, e.sub, ([] : List Byte)))
    match p.kind with
    | .semSig => (semaAdd (p.offset % 2 ^ 14) p.aux s, some (rsp, 0, 0, []))
    | .rdReq =>
      (match readDpa a 34 dpa n s with
       | (s, .ok bs) => (s, some (rsp, 0, 0, bs))
       | (s, .wait) => (heldWake dpa s, none)
       | (s, .fail e) => refuse e s)
    | .wr =>
      (match writeReady a.agent dpa n s with
       | .wait => (heldWake dpa s, none)
       | .fail e => refuse e s
       | .ok () =>
         let s := (writeRuns dpa p.aux p.payload).foldl (fun s x =>
           (writeTarget a (.dev (dpa + x.1)) (dpa + x.1) x.2 none s).1) s
         let s := if p.status = 0x30 then
             (List.range ((dpa % 128 + n + 127) / 128)).foldl (fun s i => poisonLine (locOf dpa / 128 * 128 + 128 * i) p.sub (agPort port) s) s
           else s
         (s, some (rsp, 0, 0, [])))
    | _ =>
      if dpa % n ≠ 0 ∨ 10 < p.aux % 16 ∨ (p.aux % 16 = 1 ∧ n = 8) then refuse (protEnd 0x19 0 0) s
      else
        match writeReady a.agent dpa n s with
        | .wait => (heldWake dpa s, none)
        | .fail e => refuse e s
        | .ok () =>
          let r := devRead s a.agent dpa n
          match r with
          | .wait => (heldWake dpa s, none)
          | .fail e => refuse e (readNote dpa r s)
          | .ok old =>
            let new := leBytes n (atomVal (p.aux % 16) (8 * n) (leNat old) (fieldOf p.payload 0 n) (fieldOf p.payload n n))
            (putDev dpa new false false (atomHome dpa (bit p.aux 5) (beforeWrite dpa n none s)), some (rsp, 0, 0, if bit p.aux 6 then [] else old))

/-- A request that has reached its target is answered; SEM_SIG has no response. -/
def answer (port : Nat) (p : Packet) (s : State) : State × Bool :=
  match serve port p s with
  | (s, none) => (s, false)
  | (s, some (k, c, sub, bs)) => (if p.kind = .semSig then s else respond port p k c sub bs s, true)

/-- The requests that wait at a port are tried again, in order (R295). -/
def retryRx (port : Nat) : Nat → State → State
  | 0, s => s
  | fuel + 1, s =>
    match (portOf s port).rx with
    | [] => s
    | p :: rest =>
      match answer port p s with
      | (s, true) => retryRx port fuel (setPort s port { portOf s port with rx := rest })
      | (s, false) => s

/-- A request reaches the device by a port. -/
def rxRequest (port : Nat) (p : Packet) (s : State) : State :=
  if (portOf s port).rx.isEmpty then
    match answer port p s with
    | (s, true) => s
    | (s, false) => setPort s port { portOf s port with rx := [p] }
  else
    let s := setPort s port { portOf s port with rx := (portOf s port).rx ++ [p] }
    retryRx port ((portOf s port).rx.length) s

/-! ## Responses (R410) -/

/-- R12: the top-level codes. -/
def topCodes : List Nat :=
  [0x00, 0x01, 0x10, 0x11, 0x20, 0x21, 0x22, 0x30, 0x31, 0x40, 0x41, 0x50, 0x60, 0x61, 0x70]

/-- R12, R13: the code and subcode that a response stands for: a code the table does not hold is an error response without
detail. (DESIGN CHOICE, log entry 117.) -/
def answerCode (code sub : Nat) : Nat × Nat := if topCodes.contains code then (code, sub) else (0x31, 0)

/-- Whether an agent waits for the answer to a window write itself; those of courses and of what has ended are only counted as
complete (R293). -/
def awaitsAck : Waiter → Bool
  | .engine _ _ | .chan _ _ | .command _ => true
  | _ => false

/-- R410: a response completes the request of its tag. -/
def rxResponse (port : Nat) (kind : PacketKind) (p : Packet) (s : State) : State :=
  match s.xl.wins.find? (fun r => decide (r.tag = p.tag) && decide (r.kind = kind) && decide (r.pkt.dst = p.src) && r.back.isNone) with
  | none => s
  | some r =>
    let c := answerCode p.status p.sub
    if kind = .wr ∧ awaitsAck r.who = false then
      (if c.1 ≠ 0 then failWin { r with port := port } c.1 c.2 { s with xl := { s.xl with wins := s.xl.wins.map (fun x =>
          if x = r then { r with port := port } else x) } }
       else { s with xl := { s.xl with wins := s.xl.wins.filter (fun x => decide (x ≠ r)) } })
    else
      { s with xl := { s.xl with wins := s.xl.wins.map (fun x =>
        if x = r then { r with port := port, back := some (c.1, c.2, p.payload) } else x) } }

/-! ## Broadcasts (R400, R409) -/

/-- The broadcasts that wait leave by every ACTIVE port. -/
def flushBcast (s : State) : State :=
  let ps := s.amx.bcast
  let s := { s with amx := { s.amx with bcast := [] } }
  ps.foldl (fun s p => (activePorts s).foldl (fun s q => sendPacket q { p with src := getF s amxDev } s) s) s

/-- R393: credits owed to a peer go back in CREDIT packets when nothing else is to be sent. -/
def returnCredits (port : Nat) (s : State) : State :=
  let x := portOf s port
  if x.owed.isEmpty ∨ !x.bufs.isEmpty then s
  else
    let p : Packet := ⟨.credit, 0, getF s amxDev, x.peerDev, 0, 0, 0, 0, 0, 0, 0, [], 0⟩
    if canSend s port p then emit port p s else s

/-! ## The fret clock (R398 to R400, R404, R405) -/

/-- PERIOD_NS and STRETCH_Q_NS of AMX_FRET_CFG, at the nearer limit (R420). -/
def cfgPeriod (s : State) : Nat := max 250 (min 8000 (getF s fretPeriod))
/-- STRETCH_Q_NS. -/
def cfgQuantum (s : State) : Nat := max 25 (min 2000 (getF s fretStretch))
/-- ROLE; the reserved value reads as OFF. -/
def roleOf (s : State) : Nat := if getF s fretRole = 3 then 0 else getF s fretRole

/-- The slots of running scheduled castings. -/
def schedSlots (s : State) : List Nat :=
  (List.range 16).filter (fun k => (castingOf s k).live && (castingOf s k).sched && (castingOf s k).ending.isNone)

/-- R399, R408: lock is lost: running scheduled castings end with ALIGN_LOST. -/
def loseLock (s : State) : State :=
  if !isOn s amxLocked then s
  else (schedSlots s).foldl (fun s k => failCasting k (faultEnd 0x40 0x12 (agFw 2) 0) s) (setOn (setOff s amxLocked) amxAlignLost)

/-- R405: a stretch request is recorded for a fret, once. -/
def recordStretch (f : Nat) (s : State) : State :=
  if s.amx.stretches.contains f then s else { s with amx := { s.amx with stretches := s.amx.stretches ++ [f] } }

/-- R405: a frame with STR_V names the present fret or the one before. -/
def rxStretch (strF : Nat) (s : State) : State :=
  let g := getF s amxFret
  if g % 4 = strF % 4 then recordStretch g s
  else if 0 < g ∧ (g - 1) % 4 = strF % 4 then recordStretch (g - 1) s
  else s

end Sys2Proof.Machine
end

