-- ==== Sys2Proof/Machine/Consorts.lean ====
section
/-!
DEFINITION. Placement of consorts on cores, and switching a consort out and back in (R68 to R77, R92 to R95).
-/
namespace Sys2Proof.Machine

/-! ## Room on a core (R73 to R77) -/

/-- The lowest free run of `n` units among `cap`, beside the runs in use; none where there is none. -/
def firstRun (used : List (Nat × Nat)) (cap n : Nat) : Option Nat :=
  let fits := fun c => decide (c + n ≤ cap) && used.all (fun u => decide (u.2 = 0) || decide (c + n ≤ u.1) || decide (u.1 + u.2 ≤ c))
  ((0 :: used.map (fun u => u.1 + u.2)).filter fits).foldl
    (fun a c => some (match a with | some b => min b c | none => c)) none

/-- R77: the free course slot that balances the pipelines. -/
def pickSlot (used : List Nat) : Option Nat :=
  let load := fun p => (used.filter (fun i => decide (i % 4 = p))).length
  let free := fun p => ((List.range 12).map (fun k => 4 * k + p)).find? (fun i => !used.contains i)
  let ps := (List.range 4).filter (fun p => (free p).isSome)
  match ps.find? (fun p => ps.all (fun q => decide (load p ≤ load q))) with
  | some p => free p
  | none => none

/-- Where a consort would sit on a core: its slot, its granules, and a slot and first register for each course. -/
structure Room where
  slot : Nat
  base : Nat
  courses : List (Nat × Nat)
  deriving DecidableEq, Repr

/-- Slots and registers for `n` courses of `ra` registers (R73, R74, R77). -/
def takeSlots (ra : Nat) : Nat → List Nat → List (Nat × Nat) → Option (List (Nat × Nat))
  | 0, _, _ => some []
  | n + 1, slots, regs =>
    match pickSlot slots, firstRun regs 65536 (32 * ra) with
    | some i, some r =>
      (match takeSlots ra n (slots ++ [i]) (regs ++ [(r, 32 * ra)]) with
       | some rest => some ((i, r) :: rest)
       | none => none)
    | _, _ => none

/-- R76: the room of core `g` for a consort of `n` courses, `ra` registers, `ca` granules and perhaps the Harp. -/
def roomOn (s : State) (g n ra ca : Nat) (harp : Bool) : Option Room :=
  let c := coreOf s g
  if harp && (isOn s (harpOwned g) || isOn s (harpUnusable g)) then none
  else
    match (List.range 16).find? (fun k => !(tget {} c.consorts k).live),
        firstRun ((c.consorts.filter (fun e => decide (0 < e.2.ca))).map (fun e => (e.2.base, e.2.ca))) 512 ca,
        takeSlots ra n (c.courses.map Prod.fst)
          (c.courses.map (fun e => (e.2.regBase, 32 * (tget {} c.consorts e.2.consort).ra))) with
    | some k, some b, some cs => some ⟨k, b, cs⟩
    | _, _, _ => none

/-- R76: the first core with room, in ascending order from `nextCore` on. (DEDUCED, log entry 100.) -/
def findCore (s : State) (cl mask n ra ca : Nat) (harp : Bool) : Option (Nat × Room) :=
  let from' := (clusterOf s cl).nextCore
  ((List.range 12).map (fun i => (from' + i) % 12)).findSome? (fun k =>
    if bit mask k then (roomOn s (12 * cl + k) n ra ca harp).map (fun r => (12 * cl + k, r)) else none)

/-- R60: the granules of an allocation that still hold a time-out's undefined contents are given them. -/
def wildGranules (c : Core) (base ca : Nat) : List Nat :=
  if c.cwild = 0 then [] else ((List.range ca).map (base + ·)).filter (fun i => !bit c.ctame i)

/-- R60: after a time-out every consort memory of the casting's clusters holds undefined contents: the granules of a
later consort's allocation take free values where nothing was placed since. (DEDUCED, log entry 27.) -/
def fillWild (g base ca : Nat) (c : Core) : Core :=
  { c with
    cmem := (wildGranules c base ca).foldl (fun m i =>
      wrList m (1024 * i) ((List.range 1024).map (fun k => Config.freeByte (c.cwild - 1) (2 ^ 19 * g + 1024 * i + k)))) c.cmem
    ctame := (wildGranules c base ca).foldl (fun m i => setBit m i true) c.ctame }

/-- A consort and its courses take their places on core `g`, those that have exited as exited ones; an owned Harp is its own
(R91). -/
def settleConsort (g : Nat) (r : Room) (x : Consort) (cs : List Course) (s : State) : State :=
  let s := setCore s g (fillWild g r.base x.ca (coreOf s g))
  let s := setConsort s g r.slot { x with live := true, base := r.base, courses := r.courses.map Prod.fst, saving := none }
  let s := (r.courses.zip cs).foldl (fun s p =>
    setCourse s g p.1.1 { p.2 with consort := r.slot, regBase := p.1.2 }) s
  let s := if x.harp then setF (setOn s (harpOwned g)) (harpOwner g) r.slot else s
  toRun (clOf g) (setCluster s (clOf g) { clusterOf s (clOf g) with nextCore := (g % 12 + 1) % 12 })

/-- R69: a course of casting slot `k` at its start. -/
def newCourse (pc arg index i n g k ca : Nat) : Course :=
  let u := [index, i, n, g, arg % 2 ^ 32, arg / 2 ^ 32, k, ca * 1024]
  { live := true, pc := pc, active := 0xFFFFFFFF
    u := (List.range 8).foldl (fun t k => tset 0 t k (BitVec.ofNat 32 (nth 0 u k))) [] }

/-! ## Switching a consort out (R92, R93, R95) -/

/-- A SWITCH record of a consort (R559). -/
def traceSwitch (g k : Nat) (into : Bool) (cause : Nat) (s : State) : State :=
  let x := consortOf s g k
  let tags := consortTags s g k
  let s := traceEvent (clOf g) 0x08 g (castingOf s x.casting).sched tags.1 tags.2 (b2n into + 256 * cause + 2 ^ 32 * x.index) s
  if into then s else countCore g 0x0C 1 s

/-- R92: the bytes of a consort's image. -/
def imageBytes (x : Consort) : Nat :=
  x.ca * 1024 + x.courses.length * x.ra * 128 + x.courses.length * 1024 + 128 + (if x.harp then 131072 else 0)

/-- R93: whether the core's save area has room for one more image, beside those it holds and those being written.
(DEDUCED, log entry 102.) -/
def saveRoom (s : State) (g : Nat) (x : Consort) : Bool :=
  let c := coreOf s g
  let out := (c.consorts.filter (fun e => e.2.live && e.2.saving.isSome)).map (fun e => imageBytes e.2)
  decide ((c.images.map (fun i => i.bytes) ++ out).foldl (· + ·) 0 + imageBytes x ≤ 0x200000)

/-- The address at which a course of a consort waits for a page, and whether it waits to write there. -/
def consortFault (s : State) (g k : Nat) : Option (Nat × Bool) :=
  (consortOf s g k).courses.findSome? (fun i => (courseOf s g i).faultVa.map (fun v => (v, (courseOf s g i).faultWr)))

/-- R92 steps 1 to 3: the courses stop, the consort's pours abort with PREEMPT; `cause` 1 for a page fault, 2 for a
move by scheduler firmware. -/
def switchOutStep (g k cause : Nat) (s : State) : State :=
  let x := consortOf s g k
  if !x.live || x.saving.isSome || decide (cause ≠ 1 ∧ cause ≠ 2) || (decide (cause = 1) && (consortFault s g k).isNone) ||
      !saveRoom s g x || !(castingOf s x.casting).live || (castingOf s x.casting).ending.isSome || !s.powered then s
  else
    let s := x.courses.foldl (fun s i =>
      match (courseOf s g i).pour with
      | .open | .waitToken | .locking => abortPour g i 6 s
      | _ => s) s
    traceSwitch g k false cause (setConsort s g k { consortOf s g k with saving := some cause })

/-- SWITCH_OUT (R92). -/
def execSwitchOut (g cs cause : Nat) (s : State) : Out := whenOn s <| .next (switchOutStep g cs cause s)

/-- Whether a course has come to a stop with nothing of its own under way (R92 steps 2 and 3, R362). -/
def courseStill (s : State) (g i : Nat) : Bool :=
  let c := courseOf s g i
  c.long.isNone && decide (c.pour = .closed) && decide (c.copies = 0) && !harpPending s g i && !winsOut s (courseIn g [i]) &&
    !s.xl.wins.any (fun w => decide (w.who = .course g i))

/-- R92 step 4: what a course's control record keeps; reservations and the abort count do not return (R117, R321). -/
def savedCourse (c : Course) : Course :=
  { c with rsv := [], lost := [], escalated := [], abortCount := 0, faultVa := none, faultWr := false, denied := [], regBase := 0 }

/-- R92 steps 4 and 5: the image is in the save area, the resources are free. -/
def imageWritten (g k : Nat) (s : State) : State :=
  let x := consortOf s g k
  match x.saving with
  | none => s
  | some _ =>
    if !x.courses.all (courseStill s g) then s
    else
      let c := coreOf s g
      let va := consortFault s g k
      let ctx := (castingOf s x.casting).ctx
      let waits := match va with
        | some v => s.xl.pri.any (fun p => decide (p.ctx = ctx) && decide (p.page = v.1 / 4096)) ||
            s.xl.ats.any (fun r => decide (r.ctx = ctx) && decide (r.page = v.1 / 4096))
        | none => false
      let im : Image :=
        { consort := { x with saving := none }, courses := x.courses.map (fun i => savedCourse (courseOf s g i))
          cmem := rdList c.cmem (x.base * 1024) (x.ca * 1024)
          t0 := if x.harp then c.harp.t0 else [], t1 := if x.harp then c.harp.t1 else []
          bytes := imageBytes x, faultVa := if waits then va.map (fun v => v.1) else none
          faultWr := waits && (va.map (fun v => v.2)).getD false, ready := !waits }
      let s := x.courses.foldl (fun s i => forgetWaits (.course g i) s) s
      let s := freeConsort g k s
      setCore s g { coreOf s g with images := (coreOf s g).images ++ [im] }

/-- CONSORT_IMAGE_WRITTEN (R92). -/
def execConsortImageWritten (g cs : Nat) (s : State) : Out := whenOn s <| .next (imageWritten g cs s)

/-! ## Switching a consort in (R94) -/

/-- The cores' images of a cluster that are ready to return. -/
def readyIn (s : State) (cl : Nat) : List Image := (coresOf cl).flatMap (fun g => (coreOf s g).images.filter (fun i => i.ready))

/-- R94: the room of core `g` for an image. -/
def imageRoom (s : State) (g : Nat) (i : Image) : Option Room :=
  if bit i.consort.coreMask (g % 12) then roomOn s g i.courses.length i.consort.ra i.consort.ca i.consort.harp else none

/-- R94, R69: a course that moves from core `src` to core `g` finds the number of its new core in u3, where u3 still holds that of
the old one; a u3 that the kernel has written returns as it was. (DESIGN CHOICE, log entry 109.) -/
def moveU3 (src g : Nat) (c : Course) : Course :=
  if ureg c 3 = BitVec.ofNat 32 src then setU c 3 (BitVec.ofNat 32 g) else c

/-- R94, R95: an image of core `src` is restored on core `g` of the same cluster. -/
def switchInStep (src n g : Nat) (s : State) : State :=
  match (coreOf s src).images.drop n with
  | [] => s
  | i :: _ =>
    if clOf src ≠ clOf g ∨ 192 ≤ g ∨ i.ready = false ∨ s.powered = false ∨ (castingOf s i.consort.casting).ending.isSome ∨
        draining s i.consort.casting then s
    else
      match imageRoom s g i with
      | none => s
      | some r =>
        let s := setCore s src { coreOf s src with images := (coreOf s src).images.take n ++ (coreOf s src).images.drop (n + 1) }
        let s := settleConsort g r i.consort (i.courses.map (moveU3 src g)) s
        let c := coreOf s g
        let s := setCore s g { c with
          cmem := wrList c.cmem (r.base * 1024) i.cmem
          harp := if i.consort.harp then { c.harp with t0 := i.t0, t1 := i.t1 } else c.harp }
        traceSwitch g r.slot true 0 s

/-- SWITCH_IN (R94). -/
def execSwitchIn (src image g : Nat) (s : State) : Out := whenOn s <| .next (switchInStep src image g s)

end Sys2Proof.Machine
end

