-- ==== Sys2Proof/Machine/Shadow.lean ====
section
/-!
DEFINITION. Shadow register groups (R328 to R331, R582): shadow writes, COMMIT, DISCARD and a pending commit.  A group
is 0 the TUN group of a cluster, 1 the CRU home group, 2 the AMX window group.  The shadow table lists the fields
whose shadow has been written; every other shadow field has its reset value.
-/
namespace Sys2Proof.Machine

/-- R582: the BAR0 offsets of a group's registers. -/
def groupRange (gr n : Nat) : Nat × Nat :=
  if gr = 0 then (0x150100 + 0x1000 * n, 0x150240 + 0x1000 * n)
  else if gr = 1 then (0x170100, 0x170200)
  else (0x380000, 0x383000)

/-- Whether a key of the shadow table belongs to a group. -/
def inGroup (gr n key : Nat) : Bool := decide (8 * (groupRange gr n).1 ≤ key) && decide (key < 8 * (groupRange gr n).2)

/-- The group of a BAR0 offset. -/
def groupOf (o : Nat) : Option (Nat × Nat) :=
  if 0x150000 ≤ o ∧ o < 0x160000 ∧ 0x100 ≤ o % 0x1000 ∧ o % 0x1000 < 0x240 then some (0, (o - 0x150000) / 0x1000)
  else if 0x170100 ≤ o ∧ o < 0x170200 then some (1, 0)
  else if 0x380000 ≤ o ∧ o < 0x383000 then some (2, 0)
  else none

/-- The field of a key. -/
def fieldOfKey (key : Nat) : Option FRef :=
  match regAt (key / 32 * 4) with
  | some r => r.fields.find? (fun f => decide (f.key = key))
  | none => none

/-- The value of a field's shadow. -/
def getShadow (s : State) (f : FRef) : Nat :=
  match tget 0 s.shadow f.key with
  | 0 => f.rst
  | v + 1 => v

/-- Set a field's shadow. -/
def putShadow (s : State) (f : FRef) (v : Nat) : State := { s with shadow := tset 0 s.shadow f.key (v % 2 ^ f.len + 1) }

/-- R328: a write of one field's shadow. -/
def shadowWrite (mask value : Nat) (s : State) (f : FRef) : State :=
  putShadow s f (mergeBits (getShadow s f) (bits value (f.lo + f.len - 1) f.lo) (bits mask (f.lo + f.len - 1) f.lo))

/-- R328, R331: a write of a register of a group writes its shadow and sets DIRTY. -/
def shadowFields (gr n mask value : Nat) (fs : List FRef) (s : State) : State :=
  setOn (fs.foldl (shadowWrite mask value) s) (shdDirty gr n)

/-- The fields of a group that differ from their reset value, live or in the shadow. -/
def groupFields (gr n : Nat) (s : State) : List FRef :=
  ((s.regs.map (fun e => e.1) ++ s.shadow.map (fun e => e.1)).filter (inGroup gr n)).filterMap fieldOfKey

/-- R330: a discard copies the live set into the shadow. -/
def shadowDrop (gr n : Nat) (s : State) : State := (groupFields gr n s).foldl (fun s f => putShadow s f (getF s f)) s

/-- R10, R328: one live field takes its shadow's value; where hardware updates a field of type HWU in the same cycle it wins, and
WIGN is set. -/
def commitField (s : State) (f : FRef) : State :=
  if f.acc = .hwu ∧ meets s f = true then setStatus (wignOf f.off) s else putF s f (getShadow s f)

/-- R328: a commit copies every shadow field into its live field, GEN rises, DIRTY clears. -/
def commitNow (gr n : Nat) (s : State) : State :=
  setOff (setOff (incF ((groupFields gr n s).foldl commitField s) (shdGen gr n) 1) (shdDirty gr n)) (shdPending gr n)

/-- R328: whether the register clock of a group is stopped. -/
def groupStopped (s : State) (gr n : Nat) : Bool := decide (gr = 0) && decide (2 ≤ getF s (clState n))

/-- R330: a write of SHD_CTL by the group's writer. -/
def shdCtlWrite (gr n value : Nat) (s : State) : State :=
  if bit value 12 && bit value 13 then setOn s (shdFailed gr n)
  else if bit value 12 then
    if value % 4096 ≠ getF s (shdGen gr n) then setOn s (shdFailed gr n)
    else if groupStopped s gr n then setOn s (shdPending gr n)
    else commitNow gr n s
  else if bit value 13 then setOff (shadowDrop gr n s) (shdDirty gr n)
  else s

/-- Whether a group exists: 16 TUN groups, one CRU home group, one AMX window group (R582). -/
def groupOk (gr n : Nat) : Bool := decide (gr = 0 ∧ n < 16) || decide ((gr = 1 ∨ gr = 2) ∧ n = 0)

/-- A write of SHD_CTL by a group's writer: the host's, for the AMX window group, keeps its place among the host's writes. -/
def groupOrder (i : Instr) (gr : Nat) (s : State) (o : Out) : Out := if gr = 2 then inOrder i s o else o

/-- COMMIT (R328): a write of SHD_CTL with COMMIT set, by the group's writer; a firmware processor's pour on the group's
register lines (R583) is this one step. (DEDUCED, log entry 41.) -/
def execCommit (gr n value : Nat) (s : State) : Out := whenOn s <| groupOrder (.commit gr n value) gr s <|
  .next (if groupOk gr n && bit value 12 then shdCtlWrite gr n value s else s)

/-- DISCARD (R330): a write of SHD_CTL with DISCARD set. -/
def execDiscard (gr n value : Nat) (s : State) : Out := whenOn s <| groupOrder (.discard gr n value) gr s <|
  .next (if groupOk gr n && bit value 13 then shdCtlWrite gr n value s else s)

/-- R328: the commit that waits for a cluster's clock is made. -/
def applyPending (cl : Nat) (s : State) : State := if isOn s (shdPending 0 cl) then commitNow 0 cl s else s

/-- PENDING_COMMIT_APPLY (R328): the clock of the cluster runs again, or is being started. -/
def execPendingCommitApply (cl : Nat) (s : State) : Out := whenOn s <|
  .next (if decide (cl < 16) && (!groupStopped s 0 cl || decide (tget 0 s.pmc.moving cl = 3)) then applyPending cl s else s)

end Sys2Proof.Machine
end

