-- ==== Sys2Proof/Machine/Streams.lean ====
section
/-!
DEFINITION. Cluster command streams: placing commands in their queues, starting and completing them, and the
commands of the control, CORES and SPRUE queues (R189, R197 to R205, R365).
-/
namespace Sys2Proof.Machine

/-! ## Placement (R197 to R199, R204) -/

/-- R198: the length of a command; 0 for a reserved opcode. -/
def streamLen (op : Nat) : Nat :=
  if op ≤ 2 then 16 else if op ≤ 4 then 32 else if op = 5 ∨ op = 0x10 ∨ op = 0x50 ∨ op = 0x51 then 48
  else if op = 0x20 ∨ op = 0x80 then 80 else if op = 0x30 then 96
  else if op = 0x40 ∨ op = 0x60 ∨ op = 0x70 then 64 else 0

/-- OPCODE. -/
def mOp (m : SCmd) : Nat := fieldOf m.bytes 0 1
/-- NODE. -/
def mNode (m : SCmd) : Nat := fieldOf m.bytes 4 2
/-- WAIT. -/
def mWait (m : SCmd) : Nat := fieldOf m.bytes 6 2
/-- FRET_OFF. -/
def mFret (m : SCmd) : Nat := fieldOf m.bytes 12 4

/-- Queue `qi` of cluster `cl`. -/
def streamQueue (s : State) (cl qi : Nat) : List SCmd := tget [] (clusterOf s cl).queues qi
/-- Replace it. -/
def setStreamQueue (cl qi : Nat) (q : List SCmd) (s : State) : State :=
  setCluster s cl { clusterOf s cl with queues := tset [] (clusterOf s cl).queues qi q }

/-- The commands of a cluster that have been placed and are not complete. -/
def openCmds (s : State) (cl : Nat) : List (Nat × SCmd) := (clusterOf s cl).queues.flatMap (fun e => e.2.map (fun m => (e.1, m)))

/-- The casting that runs on a cluster, while it runs. -/
def runsOn (s : State) (cl : Nat) : Option Nat :=
  match (clusterOf s cl).casting with
  | some k => if (castingOf s k).live && (castingOf s k).ending.isNone && !(clusterOf s cl).ended then some k else none
  | none => none

/-- R200, R202: the control core works: power, clock and firmware are there and a casting runs. -/
def controlUp (s : State) (cl : Nat) : Option Nat :=
  if s.powered && decide (powerOf s cl ≤ 1) && fwRuns s (3 + cl) then runsOn s cl else none

/-- R204: placement ends with a bad command; with nothing left to run the casting ends. -/
def badStream (cl k : Nat) (s : State) : State :=
  let s := setCluster s cl { clusterOf s cl with stop := true, bad := true }
  if (openCmds s cl).isEmpty then failCasting k (protEnd 0x11 (agEngine cl 7) 0) s else s

/-- R199: the control core reads the next command and places it. -/
def placeStep (cl : Nat) (s : State) : State :=
  match controlUp s cl with
  | none => s
  | some k =>
    let c := clusterOf s cl
    if c.stop then s
    else if c.strLen < c.strPos + 16 then badStream cl k s
    else
      let a := castingAccess s k (.engine cl 0) (agEngine cl 7) (some cl)
      match readRange a none 2 (c.strBase + c.strPos) 16 s with
      | (s, .wait) => s
      | (s, .fail e) => failCasting k e s
      | (s, .ok h) =>
        let n := streamLen (fieldOf h 0 1)
        if n = 0 ∨ fieldOf h 2 2 ≠ n ∨ c.strLen < c.strPos + n then badStream cl k (endWaits (.engine cl 0) s)
        else if 16 ≤ (streamQueue s cl (fieldOf h 0 1 / 16)).length then s
        else
          match readRange a none 3 (c.strBase + c.strPos) n s with
          | (s, .wait) => s
          | (s, .fail e) => failCasting k e s
          | (s, .ok bs) =>
            let s := setOff (endWaits (.engine cl 0) s) (tunClearing cl)
            let c := clusterOf s cl
            let qi := fieldOf h 0 1 / 16
            setCluster s cl { c with
              strPos := c.strPos + n, strNum := c.strNum + 1, stop := decide (fieldOf h 0 1 = 1)
              queues := tset [] c.queues qi (tget [] c.queues qi ++ [{ pos := c.strNum, bytes := bs }]) }

/-- STREAM_COMMAND_PLACE (R199). -/
def execStreamCommandPlace (cl : Nat) (s : State) : Out := whenOn s <| .next (placeStep cl s)

/-! ## Starting and completing (R199, R200, R204) -/

/-- R199: the conditions on which a command starts. -/
def mayBegin (s : State) (cl k : Nat) (m : SCmd) : Bool :=
  (bitList (mWait m) 9).all (fun q => (streamQueue s cl q).all (fun x => decide (m.pos ≤ x.pos))) &&
    (decide (mFret m = 0xFFFFFFFF) || decide ((castingOf s k).startFret + mFret m ≤ getF s amxFret))

/-- R204: the header's own check. -/
def headerGood (s : State) (k : Nat) (m : SCmd) : Bool :=
  decide (fieldOf m.bytes 1 1 = 0) && decide (mWait m < 512) && decide (mNode m < (castingOf s k).nodes) &&
    (decide (mFret m = 0xFFFFFFFF) || (castingOf s k).sched)

/-- R559: a record of a stream command. -/
def traceCmd (cl qi k typ : Nat) (m : SCmd) (arg : Nat) (s : State) : State :=
  traceEvent cl typ (agQueue cl qi) (castingOf s k).sched (fieldOf m.bytes 8 2) (fieldOf m.bytes 10 2) arg s

/-- The head of a queue replaced. -/
def setHeadCmd (cl qi : Nat) (m : SCmd) (s : State) : State := setStreamQueue cl qi (setNth (streamQueue s cl qi) 0 m) s

/-- R204: the agent of a queue ends the casting with a failed check. -/
def badStart (cl qi k sub : Nat) (s : State) : State := failCasting k (protEnd sub (agQueue cl qi) 0) s

/-- The head of queue `qi`, with an opcode of a row, is started if it has not been, and goes on: `check` gives the
subcode of a failed check.  A stopped command goes on only in the middle of a unit (R205). -/
def streamStep (cl qi : Nat) (op : Nat) (check : State → SCmd → Option Nat) (s : State) (go : Nat → SCmd → State → State) : State :=
  match controlUp s cl with
  | none => s
  | some k =>
    match streamQueue s cl qi with
    | [] => s
    | m :: _ =>
      if mOp m ≠ op ∨ m.done = true ∨ (m.stopped = true ∧ m.mid = false) then s
      else if m.started then go k m s
      else if !mayBegin s cl k m then s
      else if !headerGood s k m then badStart cl qi k 0x11 s
      else
        match check s m with
        | some sub => badStart cl qi k sub s
        | none =>
          let m := { m with started := true, startFret := getF s amxFret }
          let s := traceCmd cl qi k 0x01 m (mOp m + 256 * qi + 2 ^ 16 * mNode m) (setHeadCmd cl qi m (toRun cl s))
          go k m s

/-- R200: the head of a queue is complete and leaves it; a bad stream with nothing left ends the casting. -/
def completeHead (cl qi k : Nat) (m : SCmd) (s : State) : State :=
  let s := traceCmd cl qi k 0x02 m (2 ^ 16 * mNode m + 2 ^ 32 * m.unit) s
  let s := setStreamQueue cl qi (streamQueue s cl qi).tail s
  if (clusterOf s cl).bad ∧ (openCmds s cl).isEmpty then badStream cl k s else s

/-- The head of a queue has performed all of its work. -/
def doneHead (cl qi : Nat) (s : State) : State :=
  match streamQueue s cl qi with
  | [] => s
  | m :: _ => setHeadCmd cl qi { m with done := true, mid := false } s

/-- R204: bytes of a body that must be 0. -/
def zeroBytes (bs : List Byte) (o n : Nat) : Bool := decide (fieldOf bs o n = 0)

/-- No check of its own. -/
def noCheck (_ : State) (_ : SCmd) : Option Nat := none

/-- A check that gives BAD_COMMAND. -/
def bodyCheck (ok : List Byte → Bool) (_ : State) (m : SCmd) : Option Nat := if ok m.bytes then none else some 0x11

/-! ## NOP, END, SEM_WAIT, SEM_SIGNAL (R202, R204) -/

/-- NOP (R198). -/
def execNop (cl : Nat) (s : State) : Out := whenOn s <| .next (streamStep cl 0 0x00 noCheck s (completeHead cl 0))

/-- END (R202). -/
def execEndStream (cl : Nat) (s : State) : Out := whenOn s <|
  .next (streamStep cl 0 0x01 noCheck s (fun k m s =>
    if (openCmds s cl).length ≠ 1 then s
    else
      let s := completeHead cl 0 k m s
      setCluster s cl { clusterOf s cl with ended := true }))

/-- R204: the body of SEM_WAIT and SEM_SIGNAL. -/
def semBody (bs : List Byte) : Bool := decide (fieldOf bs 16 2 < 2 ^ 14) && zeroBytes bs 18 2 && zeroBytes bs 24 8

/-- SEM_WAIT (R204). -/
def execSemWait (cl : Nat) (s : State) : Out := whenOn s <|
  .next (streamStep cl 0 0x03 (bodyCheck semBody) s (fun k m s =>
    if fieldOf m.bytes 20 4 ≤ semaOf s (fieldOf m.bytes 16 2) then completeHead cl 0 k m s else s))

/-- SEM_SIGNAL (R204). -/
def execSemSignal (cl : Nat) (s : State) : Out := whenOn s <|
  .next (streamStep cl 0 0x04 (bodyCheck semBody) s (fun k m s =>
    completeHead cl 0 k m (semaAdd (fieldOf m.bytes 16 2) (fieldOf m.bytes 20 4) s)))

/-! ## Tensor watches (R563 to R567) -/

/-- A word modulo 2^64. -/
def w64 (x : Nat) : Nat := x % 2 ^ 64

/-- R565: mix. -/
def mix64 (z : Nat) : Nat :=
  let z := w64 ((z ^^^ (z >>> 30)) * 0xBF58476D1CE4E5B9)
  let z := w64 ((z ^^^ (z >>> 27)) * 0x94D049BB133111EB)
  z ^^^ (z >>> 31)

/-- R565: the digest of a range. -/
def digest (bs : List Byte) : Nat :=
  let g := 0x9E3779B97F4A7C15
  let n := bs.length / 8
  let sum := (List.range n).foldl (fun a i => w64 (a + mix64 (w64 (fieldOf bs (8 * i) 8 + (i + 1) * g)))) 0
  mix64 (sum ^^^ w64 (n * g))

/-- A value rounded to a floating-point format, to nearest even. -/
def roundTo (f : Fmt) : FVal → Nat
  | .nan _ => nanCode f
  | .inf n => infCode f n
  | .fin n m e => (roundIeee f .nearestEven true n ⟨m, e, false⟩).code

/-- R566: what STATS counts: elements, minimum, maximum, sum, NaNs, infinities, subnormals. -/
structure Stats where
  count : Nat
  lo : Nat
  hi : Nat
  sum : Nat
  nans : Nat
  infs : Nat
  subs : Nat

/-- R566: one element more. -/
def Stats.add (f : Fmt) (t : Stats) (x : Nat) : Stats :=
  let v := decodeF f x
  let c := roundTo fp32 v
  let nan := match v with | .nan _ => true | _ => false
  let inf := match v with | .inf _ => true | _ => false
  ⟨t.count + 1, if nan then t.lo else (fMinMax fp32 true false false false t.lo c).code,
    if nan then t.hi else (fMinMax fp32 true true false false t.hi c).code,
    (fAdd fp64 .nearestEven true false false t.sum (roundTo fp64 v)).code, t.nans + b2n nan, t.infs + b2n inf,
    t.subs + b2n (isSubnormal f x)⟩

/-- R566: the statistics of rows. -/
def stats (f : Fmt) (rows : List (List Byte)) : Stats :=
  rows.foldl (fun t r => (List.range (8 * r.length / f.width)).foldl (fun t i => t.add f (packedElem r f.width i)) t)
    ⟨0, infCode fp32 false, infCode fp32 true, 0, 0, 0, 0⟩

/-- The bytes of a watched range, row by row. -/
def watchRows (a : Acc2) (cl : Nat) (d : List Byte) (s : State) : State × Got (List (List Byte)) :=
  let rb := fieldOf d 8 4
  (List.range (fieldOf d 12 4)).foldl (fun r i =>
    match r with
    | (s, .ok rows) =>
      let p := fieldOf d 0 8 + i * fieldOf d 16 4
      let one := if fieldOf d 24 1 = 1 then readRange a none (rb / 128 + 2) p rb s
        else if (List.range (rb / 128 + 2)).any (fun j => decide (p / 128 + j ≤ (p + rb - 1) / 128) && poisoned s (aperLoc cl (p / 128 * 128 + 128 * j)))
        then (s, .fail (poisonEnd s (aperLoc cl p)))
        else (s, .ok ((List.range rb).flatMap (fun j =>
          if scratchLive s cl (p + j) then scrRead s (aperLoc cl (p + j)) 1 else [0])))
      (match one with
       | (s, .ok bs) => (s, Got.ok (rows ++ [bs]))
       | (s, .wait) => (s, .wait)
       | (s, .fail e) => (s, .fail e))
    | r => r) (s, .ok [])

/-- R567: a watch completes: its result slot, its record, its trigger. -/
def watchResult (cl k i : Nat) (w : Watch) (rows : List (List Byte)) (s : State) : State :=
  let d := w.desc
  let c := castingOf s k
  let seq := match headCmd s c.q with | some m => cSeq m | none => 0
  let f := (fmtOf (fieldOf d 23 1) false).getD int32f
  let st := stats f rows
  let dig := digest rows.flatten
  let isDig := decide (fieldOf d 22 1 = 0)
  let body := leBytes 4 seq ++ leBytes 2 (fieldOf d 20 2) ++ leBytes 1 (fieldOf d 22 1) ++ leBytes 1 (fieldOf d 23 1) ++
    (if isDig then leBytes 8 dig ++ leBytes 32 0
     else leBytes 4 st.lo ++ leBytes 4 st.hi ++ leBytes 8 st.sum ++ leBytes 8 st.count ++ leBytes 4 st.nans ++ leBytes 4 st.infs ++
      leBytes 4 st.subs ++ leBytes 4 0) ++ leBytes 8 0 ++ leBytes 4 (w.upd + 2) ++ leBytes 4 0
  let slot := w.dpa + 64 * (1 + seq % 4)
  let s := match writeBar s (agEngine cl 7) slot with
    | .ok () => homeWrite slot body false s
    | _ => setOn s trcWatchErr
  let x := clusterOf s cl
  let s := setCluster s cl { x with watches := setNth x.watches i { w with upd := w.upd + 2, past := true } }
  let tags := match (streamQueue s cl 0) with | m :: _ => (fieldOf m.bytes 8 2, fieldOf m.bytes 10 2) | [] => (0, 0)
  let s := traceEvent cl 0x0B (agEngine cl 7) c.sched tags.1 tags.2 (if isDig then dig else st.nans % 2 ^ 32) s
  if !isDig && decide (st.nans ≠ 0) then raiseTrigger 5 s else s

/-- R564: the watches of a node read their ranges; true when each has ended. -/
def runWatches (cl k node : Nat) (s : State) : State × Bool :=
  let a := castingAccess s k (.engine cl 9) (agEngine cl 7) (some cl)
  (List.range (clusterOf s cl).watches.length).foldl (fun (r : State × Bool) i =>
    let w := nth ⟨0, [], 0, true⟩ (clusterOf r.1 cl).watches i
    if !r.2 || w.past || decide (fieldOf w.desc 20 2 ≠ node) then r
    else
      match watchRows a cl w.desc r.1 with
      | (s, .ok rows) => (watchResult cl k i w rows (endWaits (.engine cl 9) s), true)
      | (s, .wait) => (s, false)
      | (s, .fail _) => (failWatch cl s, true)) (s, true)

/-- The watches of a cluster are ready for the next NODE_DONE. -/
def resetWatches (cl : Nat) (s : State) : State :=
  setCluster s cl { clusterOf s cl with watches := (clusterOf s cl).watches.map (fun w => { w with past := false }) }

/-! ## NODE_DONE (R202, R63) -/

/-- Whether a waiter is a course on a cluster's cores, or stands for those that have exited there. -/
def onCores (cl : Nat) : Waiter → Bool
  | .course g _ => decide (clOf g = cl)
  | .cores c => decide (c = cl)
  | _ => false

/-- R202, R299: the writes of the cluster's cores are complete at their endpoints, as FENCE.DONE requires: no window write is out,
and a zero-length read behind the posted host writes of each has come back (R293). -/
def coreWritesDone (cl : Nat) (s : State) : State × Bool :=
  (s.xl.dirty.filter (onCores cl)).foldl (fun r w => ((hostFlush w r.1).1, (hostFlush w r.1).2 && r.2)) (s, !winsOut s (onCores cl))

/-- R202: the largest p for which nodes 0 to p − 1 are complete. -/
def nodesDone (c : Casting) : Nat :=
  match (List.range c.nodes).find? (fun i =>
    let m := nth 0 c.nodeMasks i
    decide (tget 0 c.reports i &&& m ≠ m)) with
  | some i => i
  | none => c.nodes

/-- R63: PROGRESS of a casting's command, written no more than once per µs. (DEDUCED, log entry 49.) -/
def showProgress (k : Nat) (s : State) : State :=
  let c := castingOf s k
  match headCmd s c.q with
  | none => s
  | some m =>
    let m := { m with progress := nodesDone c }
    if cProgress m ∧ m.tProg + 25 ≤ s.aoTick ∧ some m.progress ≠ (headCmd s c.q).map (fun x => x.progress) then
      let r := { m with flags := setBit (setBit m.flags 0 c.late) 2 c.serialPour }
      setHead (writeRecord c.q r 2 0 c.stretchNs noEnd s) c.q { m.updated with tProg := s.aoTick }
    else setHead s c.q m

/-- The cluster reports a node. -/
def reportNode (cl k node : Nat) (s : State) : State :=
  let c := castingOf s k
  showProgress k (setCasting s k { c with reports := tset 0 c.reports node (tget 0 c.reports node ||| 2 ^ cl) })

/-- NODE_DONE (R202). -/
def execNodeDone (cl : Nat) (s : State) : Out := whenOn s <|
  .next (streamStep cl 0 0x02 noCheck s (fun k m s =>
    if (openCmds s cl).any (fun x => decide (mNode x.2 = mNode m) && decide (x.2.pos < m.pos)) then s
    else
      match coreWritesDone cl s with
      | (s, false) => s
      | (s, true) =>
        match runWatches cl k (mNode m) s with
        | (s, false) => s
        | (s, true) =>
          let s := reportNode cl k (mNode m) (resetWatches cl s)
          let s := traceCmd cl 0 k 0x03 m (mNode m) s
          completeHead cl 0 k m s))

/-! ## TUNCFG (R189, R204) -/

/-- A pool entry: first way, ways, log2 of the block, and its flags byte. -/
def poolEntry (bs : List Byte) (p : Nat) : Nat × Nat × Nat × Nat :=
  (fieldOf bs (24 + 4 * p) 1, fieldOf bs (25 + 4 * p) 1, fieldOf bs (26 + 4 * p) 1, fieldOf bs (27 + 4 * p) 1)

/-- The ways of a pool entry as a mask; none where it is not enabled. -/
def poolMask (e : Nat × Nat × Nat × Nat) : Nat := if e.2.2.2 % 2 = 1 then (2 ^ e.2.1 - 1) * 2 ^ e.1 else 0

/-- R204: the check of a TUNCFG. -/
def tuncfgOk (bs : List Byte) : Bool :=
  let sm := fieldOf bs 16 2
  let es := (List.range 4).map (poolEntry bs)
  decide (sm % 2 = 0) && decide (sm &&& fieldOf bs 18 2 = 0) && zeroBytes bs 20 4 && zeroBytes bs 40 8 &&
    es.all (fun e => decide (e.2.2.2 ≤ 1) && (decide (e.2.2.2 = 0) ||
      (decide (1 ≤ e.2.1) && decide (e.2.1 ≤ 15) && decide (12 ≤ e.2.2.1) && decide (e.2.2.1 ≤ 16) && decide (e.1 + e.2.1 ≤ 16) &&
        decide (poolMask e &&& sm = poolMask e)))) &&
    (List.range 4).all (fun i => (List.range i).all (fun j =>
      decide (poolMask (nth (0, 0, 0, 0) es i) &&& poolMask (nth (0, 0, 0, 0) es j) = 0)))

/-- The lines that a way of a cluster's tundish holds. -/
def wayLines (s : State) (cl w : Nat) : List Nat :=
  ((tget [] s.mm.tun cl).filter (fun e => decide (e.1 % 16 = w) && decide (e.2.line ≠ 0))).map (fun e => e.2.line - 1)

/-- The ways that a TUNCFG turns from cache to scratch. -/
def toScratch (s : State) (cl : Nat) (bs : List Byte) : List Nat :=
  (List.range 16).filter (fun w => decide (w ≠ 0) && bit (fieldOf bs 16 2) w && !isOn s (wayMode cl w))

/-- R189 step 1: a way that goes from cache to scratch gives up every line it holds, dirty ones written back, and its LOCK clears;
CONVERTING reads 1. -/
def beginWay (cl : Nat) (s : State) (w : Nat) : State :=
  setOff (setOn ((wayLines s cl w).foldl (fun s l => giveUp cl l s) s) (wayConv cl w)) (wayLock cl w)

/-- R186, R189: one way reaches its new mode and lock; way 0 stays in cache mode. -/
def convertWay (cl : Nat) (scr lock pools : Nat) (s : State) (w : Nat) : State :=
  let was := isOn s (wayMode cl w)
  let now := decide (w ≠ 0) && bit scr w
  let s := if now && !was then scrForget cl (fun x => decide (x = w)) s
    else if !now && was then scrClear cl (fun x => decide (x = w)) s
    else s
  setOff (setB (setB (setB s (wayMode cl w) now) (wayLock cl w) (bit lock w && !now)) (wayPool cl w) (now && bit pools w)) (wayConv cl w)

/-- R189: one pool takes its new entry; its blocks return to free when the entry or its ways change. -/
def convertPool (cl : Nat) (changed : Nat) (bs : List Byte) (s : State) (p : Nat) : State :=
  let e := poolEntry bs p
  let old := (getF s (poolFirst cl p), getF s (poolWays cl p) + 1, poolLog s cl p, b2n (isOn s (poolEnable cl p)))
  let oldMask := poolMask old
  let same := decide (old = e) && decide ((oldMask ||| poolMask e) &&& changed = 0)
  let s := if e.2.2.2 % 2 = 1 then
      setF (setF (setF s (poolFirst cl p) e.1) (poolWays cl p) (e.2.1 - 1)) (poolBlock cl p) e.2.2.1
    else s
  let s := setB s (poolEnable cl p) (decide (e.2.2.2 % 2 = 1))
  let c := clusterOf s cl
  let s := if same || decide (e.2.2.2 = 0 ∧ old.2.2.2 = 0) then s
    else setCluster s cl { c with claims := c.claims.filter (fun x => decide (x.1 / 2 ^ 20 ≠ p)) }
  poolShow cl p s

/-- R189: TUNCFG takes effect in one commit of the TUN group: the live set and its shadow are the same afterwards, and GEN rises. -/
def tuncfgRun (cl : Nat) (bs : List Byte) (s : State) : State :=
  let scr := fieldOf bs 16 2
  let pools := (List.range 4).foldl (fun a p => a ||| poolMask (poolEntry bs p)) 0
  let changed := (List.range 16).foldl (fun a w => a + (if isOn s (wayMode cl w) == bit scr w then 0 else 2 ^ w)) 0
  let s := (List.range 16).foldl (convertWay cl scr (fieldOf bs 18 2) pools) s
  let s := (List.range 4).foldl (convertPool cl changed bs) s
  setOff (incF (shadowDrop 0 cl s) (shdGen 0 cl) 1) (shdDirty 0 cl)

/-- R189: the condition on which a TUNCFG starts: every earlier command of the stream has completed, and no consort of the casting
is resident on the cluster or switched out. -/
def tuncfgMay (s : State) (cl k : Nat) (m : SCmd) : Bool :=
  !(openCmds s cl).any (fun x => decide (x.2.pos < m.pos)) &&
    !(coresOf cl).any (fun g => (coreOf s g).consorts.any (fun e => e.2.live && decide (e.2.casting = k)) || !(coreOf s g).images.isEmpty)

/-- TUNCFG (R189): it starts, and the ways that it turns to scratch give up their lines, once none of these is held; with
ENGINE_COMMAND_COMPLETE every way has reached its new mode. -/
def execTuncfg (cl : Nat) (s : State) : Out := whenOn s <|
  .next (match controlUp s cl, streamQueue s cl 0 with
    | some k, m :: _ =>
      if tuncfgMay s cl k m then
        streamStep cl 0 0x05 (bodyCheck tuncfgOk) s (fun _ m s =>
          let ws := toScratch s cl m.bytes
          if ws.any (fun w => (wayLines s cl w).any (fun l => lineBusy s l none (some cl) none)) then s
          else doneHead cl 0 (ws.foldl (beginWay cl) s))
      else s
    | _, _ => s)

/-! ## CONSORTS (R71, R72, R201) and their placement (R76, R94) -/

/-- A field of a CONSORTS command's launch descriptor. -/
def lField (m : SCmd) (o n : Nat) : Nat := fieldOf m.bytes (16 + o) n
/-- R73: the register allocation. -/
def lRegs (m : SCmd) : Nat := roundUp (lField m 25 1) 8
/-- R74: the granules of consort memory. -/
def lGranules (m : SCmd) : Nat := (lField m 20 4 + 1023) / 1024

/-- R72, R204: the check of a CONSORTS command. -/
def consortsOk (bs : List Byte) : Bool :=
  let m : SCmd := { bytes := bs }
  let n := lField m 24 1
  decide (1 ≤ n) && decide (n ≤ 32) && decide (16 ≤ lField m 25 1) && decide (lField m 20 4 ≤ 524288) &&
    decide (n * lRegs m * 32 ≤ 65536) && decide (lField m 28 2 % 4096 ≠ 0) && decide (lField m 16 4 ≠ 0) &&
    decide (lField m 0 8 % 8 = 0) && decide (lField m 26 1 ≤ 1) && zeroBytes bs 43 1 && decide (lField m 28 2 < 4096) && zeroBytes bs 46 2

/-- CONSORTS (R72, R201). -/
def execConsorts (cl : Nat) (s : State) : Out := whenOn s <|
  .next (match streamQueue s cl 1 with
    | m :: _ =>
      if m.started then s
      else streamStep cl 1 0x10 (bodyCheck consortsOk) s (fun _ m s =>
        let s := (coresOf cl).foldl (fun s g => if bit (lField m 28 2) (g % 12) then l1Clear g s else s) s
        setCluster s cl { clusterOf s cl with nextCore := 0 })
    | [] => s)

/-- R76: the next consort of the launch takes its place on a core with room. -/
def placeConsort (cl k : Nat) (m : SCmd) (s : State) : State :=
  let n := lField m 24 1
  match findCore s cl (lField m 28 2) n (lRegs m) (lGranules m) (bit (lField m 26 1) 0) with
  | none => s
  | some (g, r) =>
    let x : Consort :=
      { live := true, casting := k, pos := m.pos, index := m.placed, ra := lRegs m, ca := lGranules m
        harp := bit (lField m 26 1) 0, coreMask := lField m 28 2 }
    let cs := (List.range n).map (fun i => newCourse (lField m 0 8) (lField m 8 8) m.placed i n g k x.ca)
    countCl cl 0x11 1 (setHeadCmd cl 1 { m with placed := m.placed + 1 } (settleConsort g r x cs s))

/-- CONSORT_PLACE (R76, R94): an image that is ready to return goes first. -/
def execConsortPlace (cl : Nat) (s : State) : Out := whenOn s <|
  .next (match controlUp s cl with
    | none => s
    | some k =>
      let back := (coresOf cl).flatMap (fun src =>
        ((List.range (coreOf s src).images.length).flatMap (fun i =>
          match (coreOf s src).images.drop i with
          | im :: _ => if im.ready then ((coresOf cl).filter (fun g => (imageRoom s g im).isSome)).map (fun g => (src, i, g)) else []
          | [] => [])))
      match back, streamQueue s cl 1 with
      | (src, i, g) :: _, _ => switchInStep src i g s
      | [], m :: _ =>
        if m.started && !m.stopped && decide (m.placed < lField m 16 4) then placeConsort cl k m s else s
      | [], [] => s)

/-- R200: whether every consort of a launch has exited. -/
def launchExited (s : State) (cl : Nat) (m : SCmd) : Bool :=
  decide (lField m 16 4 ≤ m.placed) &&
    (coresOf cl).all (fun g =>
      (coreOf s g).consorts.all (fun e => !e.2.live || decide (e.2.pos ≠ m.pos)) &&
      (coreOf s g).images.all (fun i => decide (i.consort.pos ≠ m.pos)))

/-! ## SPRUE (R365, R367) -/

/-- The descriptor of a SPRUE command. -/
def mDesc (m : SCmd) : List Byte := (m.bytes.drop 16).take 64

/-- The channel that a SPRUE command's transfer runs on. -/
def sprueChan (cl k : Nat) (m : SCmd) (s : State) : Chan :=
  { desc := mDesc m, starter := 1, leader := cl, ctx := (castingOf s k).ctx, casting := some k, pos := m.pos }

/-- R365, R367: the command claims its channels: its own engine's as soon as it is free, ahead of every core; while
another engine's is busy it lets go and tries again. -/
def sprueClaim (cl k : Nat) (m : SCmd) (s : State) : State :=
  let d := mDesc m
  let ch := dChannel d
  let wait := fun s : State => { s with spr := { s.spr with waiting := tset [] s.spr.waiting cl [ch] } }
  if !chanFree s cl ch then wait s
  else if anyStopped s d then wait s
  else if !chansFree s ch d then s
  else
    let s := startTransfer ch (sprueChan cl k m s) s
    setHeadCmd cl 2 { m with mid := true } { s with spr := { s.spr with waiting := tset [] s.spr.waiting cl [] } }

/-- R204, R362: whether the rows of a stripe at one end of a transfer lie in the scratch ways of the stripe's cluster. -/
def stripeIn (s : State) (cl off pitch first n bytes : Nat) : Bool :=
  let rows := if pitch = 0 then min n 1 else n
  decide (off + (first + rows - 1) * pitch + bytes ≤ 0x1000000) &&
    (List.range rows).all (fun r => runIn s cl (off + (first + r) * pitch) bytes)

/-- R204: whether every scratch operand and result of a descriptor lies in the scratch ways. -/
def descIn (s : State) (d : List Byte) : Bool :=
  (List.range (dEngines d).length).all (fun i =>
    let cl := nth 0 (dEngines d) i
    let fits := fun off pitch => stripeIn s cl off pitch (stripeFirst d i) (stripeRows d i) (dRowBytes d)
    (decide (dSrcSpace d ≠ 1) || fits (dSrc d) (dSrcPitch d)) && (decide (dDstSpace d ≠ 1) || dFlag d 4 || fits (dDst d) (dDstPitch d)))

/-- R204, R364, R375: the check of a SPRUE command's descriptor. -/
def sprueOk (cl : Nat) (s : State) (m : SCmd) : Option Nat :=
  let ch := dChannel (mDesc m)
  if !(decide (2 ≤ ch) && decide (ch ≤ 7) && descOk cl ch 1 (mDesc m)) then some 0x11
  else if !descIn s (mDesc m) then some 0x1F
  else none

/-- SPRUE (R365). -/
def execSprue (cl : Nat) (s : State) : Out := whenOn s <|
  .next (match streamQueue s cl 2 with
    | m :: _ => if m.started then s else streamStep cl 2 0x20 (sprueOk cl) s (sprueClaim cl)
    | [] => s)

/-- SPRUE_CLAIM_RETRY (R367): a SPRUE command whose claim has failed tries again. -/
def execSprueClaimRetry (cl : Nat) (s : State) : Out := whenOn s <|
  .next (match streamQueue s cl 2 with
    | m :: _ => if m.started && !m.mid && !m.stopped then streamStep cl 2 0x20 (sprueOk cl) s (sprueClaim cl) else s
    | [] => s)

end Sys2Proof.Machine
end

