-- ==== Sys2Proof/Machine/Amtox.lean ====
section
/-!
DEFINITION. The rows of the Amtox fabric: packets, frames, the fret clock and training (R387 to R421).
-/
namespace Sys2Proof.Machine

/-! ## Packets (R390, R391, R410) -/

/-- R391: whether a packet of a kind is well formed: its virtual lane and lengths. -/
def packetOk (p : Packet) : Bool :=
  let vl := fun (xs : List Nat) => xs.contains p.vl
  decide (p.len ≤ 4096) &&
  match p.kind with
  | .rdReq => vl [1] && decide (1 ≤ p.len) && p.payload.isEmpty && decide (p.offset < 2 ^ 36)
  | .rdRsp => vl [2] && decide (p.payload.length = p.len)
  | .wr => vl [1, 3] && decide (p.payload.length = p.len) && decide (p.offset < 2 ^ 36)
  | .wrAck => vl [2, 3] && p.payload.isEmpty
  | .atomReq => vl [1] && decide (p.payload.length = p.len) && decide (p.len ≤ 16) && decide (p.offset < 2 ^ 36)
  | .atomRsp => vl [2]
  | .semSig => vl [1, 3] && p.payload.isEmpty && decide (p.offset < 2 ^ 14) && decide (p.aux < 2 ^ 32)
  | .credit | .fretFull | .schedAbort => vl [0] && p.payload.isEmpty

/-- R400: a follower takes the counter, the period and the quantum from the first FRET_FULL; a later one prepares a change. -/
def takeFull (p : Packet) (s : State) : State :=
  if roleOf s ≠ 1 then s
  else if !s.amx.fullSeen then
    setF { s with amx := { s.amx with fullSeen := true, period := p.len, quantum := p.offset, nextPeriod := none } } amxFret p.aux
  else if p.len = s.amx.period ∧ p.offset = s.amx.quantum then { s with amx := { s.amx with nextPeriod := none } }
  else
    let n := match s.amx.nextPeriod with
      | some (a, b, n) => if a = p.len ∧ b = p.offset then n + 1 else 1
      | none => 1
    { s with amx := { s.amx with nextPeriod := some (p.len, p.offset, n) } }

/-- R409: an abort is remembered and ends the running casting that it names; it is not broadcast again. -/
def takeAbort (port : Nat) (p : Packet) (s : State) : State :=
  let s := { s with amx := { s.amx with aborts := ((p.tag, p.offset, port) :: s.amx.aborts).take 64 } }
  ((schedSlots s).filter (fun k => decide ((castingOf s k).schedId = p.tag) && decide ((castingOf s k).startFret = p.offset))).foldl
    (fun s k => endCasting k (faultEnd 0x41 0x10 (agPort port) 0) false s) s

/-- What a packet does. -/
def rxPacket (port : Nat) (p : Packet) (s : State) : State :=
  match p.kind with
  | .rdReq | .wr | .atomReq | .semSig => rxRequest port p s
  | .rdRsp => rxResponse port .rdReq p s
  | .wrAck => rxResponse port .wr p s
  | .atomRsp => rxResponse port .atomReq p s
  | .credit => s
  | .fretFull => takeFull p s
  | .schedAbort => takeAbort port p s

/-- A packet is received on an ACTIVE port: its credits come back, its own cells are owed, a malformed one is discarded and
counted. -/
def receive (port : Nat) (p : Packet) (s : State) : State :=
  if !s.powered || decide (24 ≤ port) || decide (getF s (pState port) ≠ 2) then s
  else if !packetOk p then incSat s (pUncorr port) (cellsOf p)
  else
    let x := portOf s port
    let s := setPort s port { x with
      credits := tset 0 x.credits (p.cred % 4) (tget 0 x.credits (p.cred % 4) + p.cred / 4)
      owed := tset 0 x.owed p.vl (tget 0 x.owed p.vl + cellsOf p) }
    let s := rxPacket port p (traceSend 6 port p s)
    pump port ((portOf s port).bufs.length) s

/-- A packet's row: nothing where the packet is of another kind. -/
def packetRow (kind : PacketKind) (port : Nat) (p : Packet) (s : State) : Out :=
  .next (if p.kind = kind then receive port p s else s)

/-- RD_REQ (R410). -/
def execRdReq (port : Nat) (p : Packet) (s : State) : Out := whenOn s <| packetRow .rdReq port p s
/-- RD_RSP (R410). -/
def execRdRsp (port : Nat) (p : Packet) (s : State) : Out := whenOn s <| packetRow .rdRsp port p s
/-- WR (R410). -/
def execWr (port : Nat) (p : Packet) (s : State) : Out := whenOn s <| packetRow .wr port p s
/-- WR_ACK (R410). -/
def execWrAck (port : Nat) (p : Packet) (s : State) : Out := whenOn s <| packetRow .wrAck port p s
/-- ATOM_REQ (R410). -/
def execAtomReq (port : Nat) (p : Packet) (s : State) : Out := whenOn s <| packetRow .atomReq port p s
/-- ATOM_RSP (R410). -/
def execAtomRsp (port : Nat) (p : Packet) (s : State) : Out := whenOn s <| packetRow .atomRsp port p s
/-- SEM_SIG (R214). -/
def execSemSigPacket (port : Nat) (p : Packet) (s : State) : Out := whenOn s <| packetRow .semSig port p s
/-- CREDIT (R393). -/
def execCredit (port : Nat) (p : Packet) (s : State) : Out := whenOn s <| packetRow .credit port p s
/-- FRET_FULL (R400). -/
def execFretFull (port : Nat) (p : Packet) (s : State) : Out := whenOn s <| packetRow .fretFull port p s
/-- SCHED_ABORT (R409). -/
def execSchedAbort (port : Nat) (p : Packet) (s : State) : Out := whenOn s <| packetRow .schedAbort port p s
/-- IDLE (R389): a slot with nothing in it; it is kept nowhere. -/
def execIdle (_port : Nat) (s : State) : Out := whenOn s <| .next s

/-- WINDOW_REQUEST_TIMEOUT (R410): a request has had no answer within 100 µs. -/
def execWindowRequestTimeout (tag : Nat) (s : State) : Out := whenOn s <|
  .next (
    match s.xl.wins.find? (fun r => decide (r.tag = tag) && r.back.isNone) with
      | some r => failWin r 0x41 0x11 s
      | none => s)

/-! ## Frames (R388, R394) -/

/-- R394: an ACK covers the frames of the replay buffer up to its SEQ. -/
def takeAck (port ack : Nat) (s : State) : State :=
  let x := portOf s port
  match (List.range x.replay.length).find? (fun i => decide ((x.replay.map Prod.fst).getD i 256 = ack)) with
  | some i => setPort s port { x with replay := x.replay.drop (i + 1) }
  | none => s

/-- R394: every frame after the ACK is sent again. -/
def resend (port : Nat) (s : State) : State :=
  if (portOf s port).replay.isEmpty then s else countBase 0x11 port 1 (incSat s (pReplay port) 1)

/-- The link layer of a received DATA or MARK frame: true where the frame is accepted. -/
def takeFrame (port seq ack : Nat) (nak : Bool) (s : State) : State × Bool :=
  let x := portOf s port
  if seq ≠ (x.ackRx + 1) % 256 then (s, false)
  else
    let s := takeAck port ack (setPort s port { x with ackRx := seq, nakOut := false })
    (countBase 0x10 port 1 (if nak then resend port s else s), true)

/-- R394: a frame that cannot be read is discarded, and the loss is told to the peer. -/
def loseFrame (port : Nat) (s : State) : State :=
  setPort (incSat s (pUncorr port) 1) port { portOf s port with nakOut := true }

/-- DATA_FRAME (R394, R388): `good` is false where a codeword was uncorrectable or the frame is reserved. -/
def execDataFrame (port : Nat) (good : Bool) (seq ack : Nat) (nak trig strV : Bool) (strF : Nat) (packets : List Packet) (s : State) : Out := whenOn s <|
  .next (if decide (24 ≤ port) || decide (getF s (pState port) ≠ 2) then s
    else if !good then loseFrame port s
    else
      match takeFrame port seq ack nak s with
      | (s, false) => s
      | (s, true) =>
        let s := if trig then raiseTrigger 2 s else s
        let s := if strV then rxStretch strF s else s
        (packets.take 5).foldl (fun s p => receive port p s) s)

/-- REPLAY_TIMEOUT (R394). -/
def execReplayTimeout (port : Nat) (s : State) : Out := whenOn s <|
  .next (if getF s (pState port) = 2 then resend port s else s)

/-- MARK_FRAME (R399, R400): the first MARK of a fret corrects a follower's next boundary; `arrival` is the arrival of its first
symbol after the follower's own last boundary, in 0.1 ns. (DEDUCED, log entry 74.) -/
def execMarkFrame (port fret8 delay : Nat) (arrival : Int) (s : State) : Out := whenOn s <|
  .next (if decide (24 ≤ port) || decide (getF s (pState port) ≠ 2) || (portOf s port).nakOut then s
    else
      let x := portOf s port
      let s := countBase 0x10 port 1 (setPort s port { x with ackRx := (x.ackRx + 1) % 256 })
      if roleOf s ≠ 1 ∨ s.amx.sawMark = true then s
      else
        let s := if s.amx.fullSeen && !s.amx.counting then
            setF { s with amx := { s.amx with counting := true } } amxFret (getF s amxFret / 256 * 256 + fret8 % 256)
          else s
        let ofs := arrival - (getF s (pLinkDelay port) : Int) - (delay : Int)
        let s := setOff (setF { s with amx := { s.amx with sawMark := true, missed := 0 } } amxLastOfs (narrow 16 ofs)) amxHoldover
        if ofs.natAbs ≤ 250 then
          let n := s.amx.ofsRun + 1
          let s := { s with amx := { s.amx with ofsRun := n } }
          if 16 ≤ n then setOn s amxLocked else s
        else loseLock { s with amx := { s.amx with ofsRun := 0 } })

/-! ## The fret boundary (R398 to R407) -/

/-- The scheduled commands of casting `k` that are late at the boundary that begins fret `f`: cluster, queue, command, and
whether delivery-late (R404). -/
def lateCmds (s : State) (k f : Nat) : List (Nat × Nat × SCmd × Bool) :=
  let c := castingOf s k
  (maskList c.mask).flatMap (fun cl =>
    (clusterOf s cl).queues.flatMap (fun e =>
      (List.range e.2.length).filterMap (fun i =>
        let m := nth {} e.2 i
        if mFret m = 0xFFFFFFFF then none
        else if m.started then
          (if mOp m = 0x51 ∧ m.startFret + c.latFrets ≤ f then some (cl, e.1, m, true) else none)
        else
          let due := c.startFret + mFret m
          let ready := decide (i = 0) &&
            (bitList (mWait m) 9).all (fun q => (streamQueue s cl q).all (fun x => decide (m.pos ≤ x.pos)))
          if due < f ∨ (due = f ∧ ready = false) then some (cl, e.1, m, false) else none)))

/-- R404: one late event at the boundary that begins fret `f`. -/
def lateEvent (k f : Nat) (s : State) (x : Nat × Nat × SCmd × Bool) : State :=
  let c := castingOf s k
  let s := setCasting s k { c with late := true }
  let s := countBase 0x16 0xFF 1 (incF s (lateCnt x.1) 1)
  let s := recordStretch f { s with amx := { s.amx with strOut := some (f % 4) } }
  let s := { s with sch := { s.sch with lateFrets := tset [] s.sch.lateFrets x.1 (tget [] s.sch.lateFrets x.1 ++ [f]) } }
  traceEvent x.1 0x07 (agQueue x.1 x.2.1) true (fieldOf x.2.2.1.bytes 8 2) (fieldOf x.2.2.1.bytes 10 2)
    (b2n x.2.2.2 + 2 ^ 16 * mNode x.2.2.1) s

/-- R407: a stretch of the fret that ends now counts for the scheduled castings that run in it. -/
def applyStretch (s : State) : State :=
  let e := getF s amxFret
  if roleOf s = 0 ∨ e < 2 ∨ !s.amx.stretches.contains (e - 2) then s
  else
    let q := s.amx.quantum
    let s := { s with amx := { s.amx with stretches := s.amx.stretches.filter (fun f => decide (f ≠ e - 2)) } }
    let s := traceEvent 16 0x0E (agFw 2) false 0 0 q s
    (schedSlots s).foldl (fun s k =>
      let c := castingOf s k
      if e < c.startFret then s
      else
        let s := setCasting s k { c with stretchNs := c.stretchNs + q }
        if c.stretchBudget < c.stretchNs + q then failCasting k (faultEnd 0x40 0x11 (agFw 2) 0) s else s) s

/-- R400: a new period and quantum take effect at a multiple of 256 after two FRET_FULL packets; castings of another period end. -/
def changePeriod (f : Nat) (s : State) : State :=
  if f % 256 ≠ 0 then s
  else
    let s := match s.amx.nextPeriod with
      | some (p, q, n) => if 2 ≤ n then { s with amx := { s.amx with period := p, quantum := q, nextPeriod := none } } else s
      | none => s
    (schedSlots s).foldl (fun s k =>
      if (castingOf s k).period ≠ s.amx.period then failCasting k (protEnd 0x26 (agFw 2) 0) s else s) s

/-- R399: a follower's fret ends: without a usable MARK it is in holdover, and after HOLDOVER frets it has lost lock. -/
def countMissed (s : State) : State :=
  if roleOf s ≠ 1 then s
  else if s.amx.sawMark then { s with amx := { s.amx with sawMark := false } }
  else
    let h := if getF s fretHold = 0 then 16 else getF s fretHold
    let s := setOn { s with amx := { s.amx with missed := s.amx.missed + 1, ofsRun := 0 } } amxHoldover
    if h ≤ s.amx.missed then loseLock s else s

/-- R398, R394: the master's MARK leaves by a port and waits for its ACK. -/
def sendMark (s : State) (port : Nat) : State :=
  let x := portOf s port
  if 255 ≤ x.replay.length then s
  else
    countBase 0x0F port 1 (setPort s port { x with
      replay := x.replay ++ [(x.seqTx, ⟨.credit, 0, getF s amxDev, x.peerDev, 0, 0, 0, 0, 0, 0, 0, [], 0⟩)]
      seqTx := (x.seqTx + 1) % 256 })

/-- R400: the master's FRET_FULL at a multiple of 256, with the values of AMX_FRET_CFG. -/
def sendFull (f : Nat) (s : State) : State :=
  if f % 256 ≠ 0 then s
  else
    let p := cfgPeriod s
    let q := cfgQuantum s
    let n := match s.amx.nextPeriod with
      | some (a, b, n) => if a = p ∧ b = q then n + 1 else 1
      | none => 1
    let same := decide (s.amx.period = p) && decide (s.amx.quantum = q)
    { s with amx := { s.amx with
      fullSeen := true, nextPeriod := if same then none else some (p, q, n)
      bcast := s.amx.bcast ++ [⟨.fretFull, 0, getF s amxDev, 0, 0, 0, q, p, f, 0, 0, [], 0⟩] } }

/-- R398: the values in force at a device that times its own boundaries: a device whose ROLE is OFF, or a master that has sent
no FRET_FULL yet, uses its own configuration. -/
def ownPeriod (s : State) : State :=
  if roleOf s = 0 ∨ (roleOf s = 2 ∧ s.amx.fullSeen = false) then
    { s with amx := { s.amx with period := cfgPeriod s, quantum := cfgQuantum s } }
  else s

/-- The boundary of the fret clock. -/
def boundary (s : State) : State :=
  let s := applyStretch (ownPeriod s)
  let f := (getF s amxFret + 1) % 2 ^ 64
  let s := changePeriod f (countMissed (setF s amxFret f))
  let s := { s with amx := { s.amx with
    strOut := none, stretches := s.amx.stretches.filter (fun x => decide (f ≤ x + 2)) } }
  let s := { s with sch := { s.sch with lateFrets :=
    (s.sch.lateFrets.map (fun e => (e.1, e.2.filter (fun x => decide (f < x + 1024))))).filter (fun e => !e.2.isEmpty) } }
  let s := (schedSlots s).foldl (fun s k => (lateCmds s k f).foldl (lateEvent k f) s) s
  let s := if roleOf s = 2 then sendFull f ((activePorts s).foldl sendMark s) else s
  flushBcast s

/-- FRET_BOUNDARY (R398): it comes from the end of phase CONFIG on; a follower counts once it has a valid counter. -/
def execFretBoundary (s : State) : Out := whenOn s <|
  .next (if decide (s.boot.phase < 2) || (decide (roleOf s = 1) && !s.amx.counting) then s else boundary s)

/-! ## Training (R412 to R416) -/

/-- TRAIN_FRAME (R413): HELLO tells who the peer is and grants credits; a DELAY_RSP measures the link; `t4` is its arrival. -/
def execTrainFrame (port msg role dev plane t1 t2 t3 t4 : Nat) (s : State) : Out := whenOn s <|
  .next (if decide (24 ≤ port) || decide (getF s (pState port) ≠ 1) then s
    else
      let x := portOf s port
      if msg = 1 then
        let s := setF (setB s (pPeerSwitch port) (decide (role = 1))) (pPlane port) plane
        setPort s port { x with peerDev := dev, credits := [(0, 32), (1, 1024), (2, 1024), (3, 512)] }
      else if msg = 3 ∧ x.delays.length < 16 then
        setPort s port { x with delays := x.delays ++ [(((t4 : Int) - t1 - ((t3 : Int) - t2)) / 2).toNat] }
      else s)

/-- Insert into a rising list. -/
def insNat (x : Nat) : List Nat → List Nat
  | [] => [x]
  | y :: ys => if x ≤ y then x :: y :: ys else y :: insNat x ys

/-- R413: the median of 16 measurements. (DEDUCED, log entry 73.) -/
def median (xs : List Nat) : Nat :=
  let ys := xs.foldl (fun a x => insNat x a) []
  (nth 0 ys 7 + nth 0 ys 8) / 2

/-- R412, R461: training starts at a port that is enabled and that the fault map does not keep DOWN. -/
def startTraining (port : Nat) (s : State) : State :=
  if 24 ≤ port ∨ s.boot.reduced ∨ bit s.boot.map.ports port ∨ isOn s (pEnable port) = false ∨ getF s (pState port) = 3 then s
  else
    let s := leaveActive port 1 s
    setPort s port { portOf s port with delays := [] }

/-- PORT_TRAINING (R412). -/
def execPortTraining (port : Nat) (s : State) : Out := whenOn s <|
  .next (if decide (s.boot.phase ≠ 0) && decide (getF s (pState port) ≠ 1) then startTraining port s else s)

/-- PORT_TRAINING_COMPLETE (R412 to R414): `lanesOk` names the physical lanes that passed. -/
def execPortTrainingComplete (port lanesOk : Nat) (s : State) : Out := whenOn s <|
  .next (if decide (24 ≤ port) || decide (getF s (pState port) ≠ 1) || decide ((portOf s port).delays.length ≠ 16) then s
    else
      let en := getF s (pLaneEn port)
      let good := bitList (en &&& lanesOk) 4
      let failed := decide (good.length ≠ popcount en 4)
      let s := if failed then setOn s (pLaneFault port) else s
      let s := setF s (pLinkDelay port) (median (portOf s port).delays)
      if good.length = 4 then setPortState port 2 false 0xF s
      else if (failed && !isOn s (pAutoNarrow port)) || decide (good.length < 2) then setPortSt port 0 s
      else
        let s := if failed then setF s (pLaneEn port) (en &&& lanesOk) else s
        setPortState port 2 true (2 ^ nth 0 good 0 + 2 ^ nth 0 good 1) s)

/-- RETRAIN (R416). -/
def execRetrain (port : Nat) (s : State) : Out := whenOn s <| inOrder (.retrain port) s <| .next (startTraining port s)

/-- A write of ENABLE (R416). -/
def writeEnable (port : Nat) (on : Bool) (s : State) : State :=
  if 24 ≤ port then s
  else if s.boot.reduced ∧ on = true then setOn s amxWign
  else
    let s := setB s (pEnable port) on
    if on then (if getF s (pState port) = 0 then startTraining port s else s)
    else if getF s (pState port) = 3 then s else leaveActive port 0 s

/-- PORT_ENABLE (R416). -/
def execPortEnable (port : Nat) (on : Bool) (s : State) : Out := whenOn s <| inOrder (.portEnable port on) s <|
  .next (writeEnable port on s)

/-- FRAME_LOCK_LOSS (R411, R412). -/
def execFrameLockLoss (port : Nat) (s : State) : Out := whenOn s <|
  .next (if getF s (pState port) = 2 then startTraining port s else s)

end Sys2Proof.Machine
end

