-- ==== Sys2Proof/Machine/PageOps.lean ====
section
/-!
DEFINITION. The device status page (R441, R451, R485, R581).
-/
namespace Sys2Proof.Machine

/-- A mask of the numbers below `n` that satisfy a test. -/
def testMask (n : Nat) (f : Nat → Bool) : Nat := (List.range n).foldl (fun a i => a + b2n (f i) * 2 ^ i) 0

/-- R461: whether a fault map marks some block. -/
def mapMarks (m : FaultMap) : Bool := decide (m ≠ {})

/-- R451: BOOT_STAT. -/
def bootStat (s : State) : Nat :=
  let b := s.boot
  b.phase + 16 * b.cfgSrc + 64 * b2n b.reduced + 128 * b2n b.aBad + 256 * b2n b.bBad + 512 * b2n b.seqSplit +
    1024 * b2n b.calPartial + 2048 * b2n (mapMarks b.map) + 4096 * b.s2Src + 2 ^ 16 * (b.failCode % 256) +
    2 ^ 24 * (b.failSub % 256) + 2 ^ 32 * (b.cfgSeq % 2 ^ 32)

/-- Word `i` (of 4 B) of a number. -/
def word (v i : Nat) : Nat := v / 2 ^ (32 * i) % 2 ^ 32

/-- R407, R485: clusters with late events in at least 64 of the last 1,024 frets. -/
def lateClusters (s : State) : Nat := testMask 16 (fun cl => decide (64 ≤ (tget [] s.sch.lateFrets cl).length))

/-- R485: the occupancy fields, from page offset 0x100; BUSY_PM is a measurement and free. (DEDUCED, log entry 79.) -/
def occupancy (s : State) : List Nat :=
  let ls := s.boot.lats.filter (fun x => decide (s.aoTick < x.1 + 25000))
  let ns := ls.map (fun x => x.2)
  [freeNat s % 1001, unstartedCount s,
    (s.sch.queues.filter (fun e => decide (e.2.tail ≠ getF s (qHead e.1)))).length,
    testMask 16 (fun k => !slotUsed s k),
    (if ns.isEmpty then 0 else ns.foldl (· + ·) 0 / ns.length) % 2 ^ 32, ns.foldl max 0 % 2 ^ 32, lateClusters s]

/-- R581: the page's words from offset 4 to 0x127. -/
def pageWords (s : State) : List Nat :=
  let bs := bootStat s
  let fret := getF s amxFret
  let ret := testMask 16 (fun cl => s.pmc.retired.contains cl)
  let up := testMask 16 (fun cl => decide (getF s (clState cl) ≤ 1))
  let sl := testMask 64 (fun h => isOn s (homeRetired h))
  [1, word bs 0, word bs 1, s.boot.abi, 0,
    getF s hptWidth + 32 * getF s hptRate + 256 * getF s hptFlit + 512 * getF s hptMemActive,
    getF s amxDev + 2048 * getF s fretRole + 8192 * getF s amxLocked + 16384 * getF s amxHoldover,
    word fret 0, word fret 1, word s.aoTick 0, word s.aoTick 1,
    getF s pmcLimit + 65536 * getF s pmcInput, ret + 65536 * up, getF s hbmReady + 4096 * getF s dcReady, 0,
    word sl 0, word sl 1] ++ List.replicate 46 0 ++ occupancy s ++ [0, s.err.prod, s.err.dropped]

/-- R441: firmware updates the page, at most once per 10 µs: GEN rises by two over the change.
(DEDUCED, log entry 80.) -/
def pageUpdate (s : State) : State :=
  let p := s.boot.page
  if !p.words.isEmpty && decide (s.aoTick < p.tick + 250) then s
  else
    let s' := bumpFree s 1
    { s' with boot := { s'.boot with page := ⟨(p.gen + 2) % 2 ^ 32, pageWords s, s.aoTick⟩ } }

/-- The 4 KiB of the page. -/
def pageBytes (s : State) : List Byte :=
  let bs := leBytes 4 s.boot.page.gen ++ s.boot.page.words.flatMap (leBytes 4)
  bs ++ List.replicate (4096 - bs.length) 0

/-- R471, R472, R581: a pass of a processor's loop; the pass of the page's writer (the scheduler once it runs, the security
core before) updates the page. -/
def loopPassPage (p us : Nat) (s : State) : State :=
  let s := loopPass p us s
  if s.powered ∧ fwRuns s p ∧ us ≤ 1000 ∧ (p = 2 ∨ (p = 0 ∧ fwRuns s 2 = false)) then pageUpdate s else s

/-- MAIN_LOOP_PASS (R471). -/
def execMainLoopPass (p us : Nat) (s : State) : Out := whenOn s <| .next (loopPassPage p us s)

end Sys2Proof.Machine
end

