-- ==== Sys2Proof/Machine/PowerOps.lean ====
section
/-!
DEFINITION. Operating points and what clusters lose on the way into CHILL and COLD (R266, R490 to R500).
-/
namespace Sys2Proof.Machine

/-! ## Operating points (R494 to R498) -/

/-- R506: CCLK_MAX of a cluster in MHz, at the nearer limit. -/
def capMax (s : State) (cl : Nat) : Nat := 50 * max 8 (min 36 (getF s (clMax cl)))
/-- R500: its thermal cap. -/
def capThermal (s : State) (cl : Nat) : Nat := tget 1800 s.pmc.thermal cl
/-- R498: its gradient cap. -/
def capGradient (s : State) (cl : Nat) : Nat := tget 1800 s.pmc.gradient cl

/-- R496: the CCLK that the power-management core chooses. -/
def chosenMhz (s : State) (cl : Nat) : Nat :=
  min (min s.pmc.target (capMax s cl)) (min (capThermal s cl) (capGradient s cl))

/-- R496: the limits that bind at a clock: bit 0 power, 1 thermal, 2 gradient, 3 CCLK_MAX. -/
def limitCause (s : State) (cl mhz : Nat) : Nat :=
  let binds := fun (v : Nat) => b2n (decide (v = mhz) && decide (v < 1800))
  binds s.pmc.target + 2 * binds (capThermal s cl) + 4 * binds (capGradient s cl) + 8 * binds (capMax s cl)

/-- R494: the lowest rail voltage of a clock, in mV, in steps of 5 mV. -/
def railMv (mhz : Nat) : Nat := min 950 (5 * ((2400 + (mhz - 400) + 19) / 20))

/-- R498: the neighbours of a cluster in the 4 × 4 grid. -/
def neighbours (cl : Nat) : List Nat :=
  (List.range 16).filter (fun n =>
    (decide (n / 4 = cl / 4) && (decide (n = cl + 1) || decide (cl = n + 1))) ||
    (decide (n % 4 = cl % 4) && (decide (n = cl + 4) || decide (cl = n + 4))))

/-- R498: the neighbours that count: those not in COLD. -/
def liveNeighbours (s : State) (cl : Nat) : List Nat := (neighbours cl).filter (fun n => decide (getF s (clState n) ≠ 3))

/-- R498: a rail is set no more than 200 mV below a neighbour's; neighbours more than 200 mV below it are raised first. -/
def setRail (cl mv : Nat) (s : State) : State :=
  let v := (liveNeighbours s cl).foldl (fun v n => max v (getF s (clVolt n) - 200)) mv
  let s := (liveNeighbours s cl).foldl (fun s n => if getF s (clVolt n) + 200 < v then setF s (clVolt n) (v - 200) else s) s
  setF s (clVolt cl) v

/-- R495, R496, R506: a cluster moves to a clock: its rail, its clock, the limits that bind, and the throttle count. -/
def setPoint (cl mhz : Nat) (s : State) : State :=
  let old := 50 * getF s (clCclk cl)
  let cause := limitCause s cl mhz
  let s := setF (setRail cl (railMv mhz) s) (clCclk cl) (mhz / 50)
  let s := setF s (clCause cl) cause
  if mhz < old ∧ cause % 8 ≠ 0 then incF s (clThrottles cl) 1 else s

/-- R478, R500: the always-on sequencer holds the clusters in RUN at 400 MHz: above 105 °C, or while the power-management
core recovers. -/
def heldSlow (s : State) : Bool := isOn s pmcHold || decide (getF s (fwState 1) = 2)

/-- The hold: every cluster in RUN at 400 MHz, its voltage as it is. -/
def holdSlow (s : State) : State :=
  (List.range 16).foldl (fun s cl => if getF s (clState cl) = 0 then setF s (clCclk cl) 8 else s) s

/-- A cluster's power state changes; the time is kept for the delays of R493. -/
def enterState (cl st : Nat) (s : State) : State :=
  let s := setF s (clState cl) st
  { s with pmc := { s.pmc with since := tset 0 s.pmc.since cl s.aoTick } }

/-- Where a cluster's transition stands: 0 none, 1 entering CHILL, 2 entering COLD, 3 waking. -/
def movingOf (s : State) (cl : Nat) : Nat := tget 0 s.pmc.moving cl
/-- Set it. -/
def setMoving (cl m : Nat) (s : State) : State := { s with pmc := { s.pmc with moving := tset 0 s.pmc.moving cl m } }

/-! ## Leaving and losing state (R266, R490, R492) -/

/-- R266: every line of a cluster's tundish and of its control core's cache is written back and invalidated. -/
def flushCluster (cl : Nat) (s : State) : State :=
  [cl, cl + 16].foldl (fun s c => (tget [] s.mm.lines c).foldl (fun s l => giveUp c l.1 s) s) s

/-- The register table without the registers of a range of BAR0 offsets. -/
def regsOut (lo hi : Nat) (s : State) : State :=
  { s with regs := s.regs.filter (fun e => !(decide (8 * lo ≤ e.1) && decide (e.1 < 8 * hi))) }

/-- R153: the Harps that the fault map marks stay unusable. -/
def markHarps (cl : Nat) (s : State) : State :=
  (coresOf cl).foldl (fun s g => if bit s.boot.map.harps g then setOn s (harpUnusable g) else s) s

/-- R490: in CHILL a core keeps its consort memory only. -/
def chillCore (s : State) (g : Nat) : State :=
  let c := coreOf s g
  setCore s g { cmem := c.cmem, cwild := c.cwild, ctame := c.ctame }

/-- R490, R492, R577: a cluster without power has lost everything: its CCC, TUN and HARP registers are at their reset
values, its scratch and consort memory read 0. -/
def loseCluster (cl : Nat) (s : State) : State :=
  let s := flushCluster cl s
  let s := regsOut (0x140000 + 0x1000 * cl) (0x141000 + 0x1000 * cl) s
  let s := regsOut (0x150000 + 0x1000 * cl) (0x151000 + 0x1000 * cl) s
  let s := regsOut (0x160000 + 0x40 * (12 * cl)) (0x160000 + 0x40 * (12 * cl + 12)) s
  let s := scrClear cl (fun _ => true) s
  let s := (coresOf cl).foldl (fun s g => setCore s g {}) (setCluster s cl {})
  let s := { s with
    shadow := s.shadow.filter (fun e => !(decide (8 * (0x150000 + 0x1000 * cl) ≤ e.1) && decide (e.1 < 8 * (0x151000 + 0x1000 * cl)))) }
  markHarps cl (setTraceUnit s cl {})

/-- R551: the counters and selects of a cluster and its cores return to 0 when it leaves COLD. -/
def resetCounters (cl : Nat) (s : State) : State :=
  regsOut (0x410000 + 0x100 * (12 * cl)) (0x410000 + 0x100 * (12 * cl + 12)) (regsOut (0x420000 + 0x200 * cl) (0x420200 + 0x200 * cl) s)

/-- A cluster is ready in IDLE at the operating point chosen for it (R493). -/
def clusterUp (cl : Nat) (s : State) : State :=
  setPoint cl (chosenMhz s cl) (setMoving cl 0 (enterState cl 1 s))

/-- R492: a cluster leaves COLD: its control core runs the image of its directory slot. -/
def fromCold (cl : Nat) (s : State) : State :=
  let s := resetCounters cl (loseCluster cl s)
  let slot := b2n (bit s.boot.dir.clSlots cl)
  let s := setF (setF s (fwState (3 + cl)) 1) (fwImageVer (3 + cl)) (tget 0 s.boot.dir.vers (4 + slot))
  clusterUp cl (restartWdt (3 + cl) s)

/-- R492: a cluster has entered COLD; a retired one shows RETIRED (R577). -/
def toCold (cl : Nat) (s : State) : State :=
  let s := setMoving cl 0 (enterState cl 3 (loseCluster cl s))
  let s := setF (setF (setF s (clCclk cl) 0) (clVolt cl) 0) (clCause cl) 0
  setF s (fwState (3 + cl)) (if s.pmc.retired.contains cl then 4 else 0)

/-- R492: a cluster has entered CHILL. -/
def toChill (cl : Nat) (s : State) : State :=
  let s := (coresOf cl).foldl chillCore (flushCluster cl s)
  let s := setMoving cl 0 (enterState cl 2 s)
  setF (setRail cl 600 (setF s (clCclk cl) 0)) (clCause cl) 0

end Sys2Proof.Machine
end

