-- ==== Sys2Proof/Machine/ConfigImage.lean ====
section
/-!
DEFINITION. The configuration image: its check and what a start takes from it (R455 to R463).
-/
namespace Sys2Proof.Machine

/-! ## Sections (R455, R457) -/

/-- Section entry `i`: type, offset, size. -/
def secEntry (bs : List Byte) (i : Nat) : Nat × Nat × Nat :=
  (fieldOf bs (32 + 16 * i) 2, fieldOf bs (36 + 16 * i) 4, fieldOf bs (40 + 16 * i) 4)

/-- The section entries. -/
def sections (bs : List Byte) : List (Nat × Nat × Nat) := (List.range (fieldOf bs 6 2)).map (secEntry bs)

/-- The bytes of the section of a type. -/
def sectionOf (bs : List Byte) (typ : Nat) : Option (List Byte) :=
  match (sections bs).find? (fun x => decide (x.1 = typ)) with
  | some x => some ((bs.drop x.2.1).take x.2.2)
  | none => none

/-- R457: the size of each type. -/
def secSize (typ : Nat) : Nat :=
  match typ with
  | 1 => 64 | 2 => 16 | 3 => 4 | 4 => 32904 | 5 => 96 | 6 => 6152 | 7 => 8 | _ => 112

/-- Whether a range of bytes is zero. -/
def zeroAt (bs : List Byte) (o n : Nat) : Bool := ((bs.drop o).take n).all (fun b => decide (b = 0))

/-- R457, R458: the fields of a section lie in their ranges and its reserved bytes are 0. -/
def secFieldsOk (typ : Nat) (x : List Byte) : Bool :=
  match typ with
  | 1 => zeroAt x 17 15
  | 2 => decide (600 ≤ fieldOf x 0 2) && decide (fieldOf x 0 2 ≤ 2400) && zeroAt x 2 14
  | 3 => zeroAt x 2 2
  | 5 => (List.range 24).all (fun p => decide (fieldOf x (4 * p + 2) 1 ≤ 1) && decide (fieldOf x (4 * p + 3) 1 / 4 % 4 = 0))
  | 7 => decide (fieldOf x 0 2 < 2048) && decide (fieldOf x 2 1 ≤ 2) && decide (250 ≤ fieldOf x 4 2) && decide (fieldOf x 4 2 ≤ 8000) &&
      decide (25 ≤ fieldOf x 6 2) && decide (fieldOf x 6 2 ≤ 2000)
  | 8 => zeroAt x 10 2 && zeroAt x 46 2 && decide (fieldOf x 60 4 < 2 ^ 24)
  | _ => true

/-- Whether two sections share a byte. -/
def secMeet (a b : Nat × Nat × Nat) : Bool := decide (a.2.1 < b.2.1 + b.2.2) && decide (b.2.1 < a.2.1 + a.2.2)

/-- No two of a list of sections overlap. -/
def secApart : List (Nat × Nat × Nat) → Bool
  | [] => true
  | x :: xs => xs.all (fun y => !secMeet x y) && secApart xs

/-- How many sections have a type. -/
def secCount (bs : List Byte) (typ : Nat) : Nat := ((sections bs).filter (fun x => decide (x.1 = typ))).length

/-- R456: the CRC of an image of LENGTH `n`. -/
def imageCrc (bs : List Byte) (n : Nat) : Nat := crc32c (bs.take 16 ++ [0, 0, 0, 0] ++ (bs.take n).drop 20)

/-- R458: whether a copy passes its check. -/
def imagePasses (bs : List Byte) : Bool :=
  let n := fieldOf bs 12 4
  let k := fieldOf bs 6 2
  decide (fieldOf bs 0 4 = 0x4E564347) && decide (fieldOf bs 4 2 = 1) && decide (1 ≤ k) && decide (k ≤ 16) &&
  decide (n % 4 = 0) && decide (64 ≤ n) && decide (n ≤ 65536) && decide (n ≤ bs.length) &&
  decide (imageCrc bs n = fieldOf bs 16 4) && zeroAt bs 20 12 &&
  (List.range k).all (fun i => zeroAt bs (34 + 16 * i) 2 && zeroAt bs (44 + 16 * i) 4) &&
  (sections bs).all (fun x => decide (1 ≤ x.1) && decide (x.1 ≤ 8) && decide (x.2.1 % 8 = 0) && decide (x.2.1 + x.2.2 ≤ n) &&
    decide (x.2.2 = secSize x.1) && secFieldsOk x.1 ((bs.drop x.2.1).take x.2.2)) &&
  secApart (sections bs) && [1, 2, 3, 5, 7, 8].all (fun t => decide (secCount bs t = 1)) &&
  decide (secCount bs 4 ≤ 1) && decide (secCount bs 6 ≤ 1)

/-! ## The fault map (R461) -/

/-- R461: the fault map of an image; one of another module is ignored. -/
def mapOf (bs : List Byte) : FaultMap :=
  match sectionOf bs 8 with
  | some x =>
    if fieldOf x 0 8 = Config.fusedSerial then
      ⟨fieldOf x 8 2, fieldOf x 12 24, fieldOf x 36 8, fieldOf x 44 2, fieldOf x 48 12, fieldOf x 60 4, fieldOf x 64 48⟩
    else {}
  | none => {}

/-- R529: the FAULT_MAP section of a fault map. -/
def mapBytes (m : FaultMap) : List Byte :=
  leBytes 8 Config.fusedSerial ++ leBytes 2 m.clusters ++ leBytes 2 0 ++ leBytes 24 m.harps ++ leBytes 8 m.slices ++ leBytes 2 m.carts ++
    leBytes 2 0 ++ leBytes 12 m.lanes ++ leBytes 4 m.ports ++ leBytes 48 m.hbm

/-- R262, R522: the substitute of a slice: the first after it, counting cyclically upward, that is not retired. -/
def substitute (retired h : Nat) : Nat :=
  match (List.range 63).find? (fun i => !bit retired ((h + 1 + i) % 64)) with
  | some i => (h + 1 + i) % 64
  | none => h

/-- R461: the homes of the slices that the fault map retires. -/
def mapSlices (retired : Nat) (s : State) : State :=
  (bitList retired 64).foldl (fun s h => setOn (setF s (homeMap h) (substitute retired h)) (homeRetired h)) s

/-- R461: what the fault map does at a start. -/
def applyMap (m : FaultMap) (s : State) : State :=
  let s := { s with
    pmc := { s.pmc with retired := bitList m.clusters 16 }
    boot := { s.boot with map := m } }
  let s := (bitList m.clusters 16).foldl (fun s cl => setF s (fwState (3 + cl)) 4) s
  let s := (List.range 16).foldl (fun s cl => markHarps cl s) s
  mapSlices m.slices s

/-! ## Calibration entries (R460) -/

/-- R460: whether an entry's own CRC holds. -/
def calCrcOk (x : List Byte) (o : Nat) : Bool := decide (crc32c ((x.drop o).take 60) = fieldOf x (o + 60) 4)

/-- R460: the stored entries that are not used, as agent and channel or lane. -/
def calUnused (bs : List Byte) (trained : List Nat) (serials : Nat → Nat) (m : FaultMap) : List (Nat × Nat) :=
  let own := fun (x : List Byte) => decide (fieldOf x 0 8 = Config.fusedSerial)
  let mem := match sectionOf bs 4 with
    | none => []
    | some x =>
      ((List.range 384).filter (fun i => !(own x && calCrcOk x (8 + 64 * i) && !bit m.hbm i))).map (fun i => (agHbm (i / 32), i % 32)) ++
      trained.flatMap (fun n =>
        let b := 8 + 384 * 64 + 520 * n
        ((List.range 8).filter (fun c => !(own x && decide (fieldOf x b 8 = serials n) && calCrcOk x (b + 8 + 64 * c)))).map
          (fun c => (agDeep n, c)))
  let amx := match sectionOf bs 6 with
    | none => []
    | some x => ((List.range 96).filter (fun i => !(own x && calCrcOk x (8 + 64 * i)))).map (fun i => (agPort (i / 4), i % 4))
  mem ++ amx

/-- R460: each entry that is not used sets CAL_PARTIAL and writes an entry of the error ring. -/
def applyCal (xs : List (Nat × Nat)) (s : State) : State :=
  let s := xs.foldl (fun s x => errEvent 0x05 x.1 0 0 x.2 0 s) s
  { s with boot := { s.boot with calPartial := !xs.isEmpty } }

/-! ## Sockets, ports and frets -/

/-- R523: a socket changes state: its entry in the error ring and the CDAT follow. -/
def setSocket (n st : Nat) (s : State) : State :=
  let s := errEvent 0x06 (agDeep n) 0 0 st 0 (setF s (sockState n) st)
  { s with hpt := { s.hpt with cdat := s.hpt.cdat + 1 } }

/-- R457, R461: at a start a fitted, populated cartridge that the fault map does not mark is trained; a populated socket
without one writes an error-ring entry. -/
def startSocket (populated : Nat) (m : FaultMap) (s : State) (n : Nat) : State :=
  if bit populated n then
    if !bit s.boot.present n then errEvent 0x06 (agDeep n) 0 0 0 0 s
    else if bit m.carts n then s
    else setSocket n 1 s
  else s

/-- R457, R461, R463: a port's control fields at a start. -/
def startPort (x : List Byte) (m : FaultMap) (s : State) (p : Nat) : State :=
  let v := fieldOf x (4 * p + 3) 1
  let s := setB s (pAutoNarrow p) (bit v 1)
  let s := setF s (pLaneEn p) ((List.range 4).foldl (fun a l => a + b2n (bit v (4 + l) && !bit m.lanes (4 * p + l)) * 2 ^ l) 0)
  if bit v 0 && !bit m.ports p then writeEnable p true s else s

/-- R457: the fret settings of a start. -/
def startFrets (x : List Byte) (s : State) : State :=
  setF (setF (setF (setF (setF s amxDev (fieldOf x 0 2)) fretRole (fieldOf x 2 1)) fretHold (fieldOf x 3 1)) fretPeriod (fieldOf x 4 2))
    fretStretch (fieldOf x 6 2)

/-- R448, R462: a copy of the configuration is in use: the sequencers start with its settings; phase MEMORY begins. -/
def useImage (bs : List Byte) (src seq : Nat) (s : State) : State :=
  let m := mapOf bs
  let populated := fieldOf ((sectionOf bs 3).getD []) 0 2
  let trained := (bitList s.boot.present 16).filter (fun n => bit populated n && !bit m.carts n)
  let n := s.free
  let s := bumpFree s 1
  let s := { s with boot := { s.boot with image := bs, cfgSrc := src, cfgSeq := seq, populated := populated, reduced := false, phase := 2 } }
  let s := setF (applyMap m s) pmcLimit (fieldOf ((sectionOf bs 2).getD []) 0 2)
  let s := startFrets ((sectionOf bs 7).getD []) s
  let s := (List.range 24).foldl (startPort ((sectionOf bs 5).getD []) m) s
  let s := (List.range 16).foldl (startSocket populated m) s
  applyCal (calUnused bs trained (fun k => Config.cartridgeSerial k n) m) s

/-- R463: a start on factory defaults: reduced mode. -/
def useDefaults (s : State) : State :=
  let s := { s with boot := { s.boot with
    image := Config.romImage, cfgSrc := 2, cfgSeq := 0, populated := s.boot.present, reduced := true, phase := 2 } }
  (bitList s.boot.present 16).foldl (fun s n => setSocket n 1 s) (setF s pmcLimit 600)

/-- R462: the first stage chooses the configuration. (DESIGN CHOICE, log entry 103.) -/
def chooseConfig (s : State) : State :=
  let a := s.boot.flash.cfgA
  let b := s.boot.flash.cfgB
  let aOk := imagePasses a
  let bOk := imagePasses b
  if aOk then
    let s := { s with boot := { s.boot with seqSplit := bOk && decide (fieldOf a 8 4 ≠ fieldOf b 8 4) } }
    useImage a 0 (fieldOf a 8 4) s
  else
    let s := { s with boot := { s.boot with aBad := true } }
    if bOk then useImage b 1 (fieldOf b 8 4) s
    else useDefaults { s with boot := { s.boot with bBad := true } }

end Sys2Proof.Machine
end

