-- ==== Sys2Proof/Machine/Home.lean ====
section
/-!
DEFINITION. Coherence messages at the homes, one by one: requests, snoops, answers, peg times and time-outs (R270 to R289).
A home transaction is started by its request's row, its snoops reach their holders by the snoop rows, and
SNOOP_ANSWER ends it.
-/
namespace Sys2Proof.Machine

/-! ## Lines (R264, R286) -/

/-- The line that a request's address names: a DPA, or from 2^64 on a host address, whose home is the host bridge. -/
def reqLine (dpa : Nat) : Nat := if dpa < 2 ^ 52 then lineOf (locOf dpa) else dpa / 128

/-- Whether a line has a home that keeps a directory for it: homed device memory, or a host line under CXL.cache. -/
def homedLine (s : State) (line : Nat) : Bool :=
  if line < 2 ^ 57 then homed (128 * line) else s.hpt.cxlCache

/-- The host address of a host line. -/
def hostAddr (line : Nat) : Nat := 128 * (line - 2 ^ 57)

/-- Whether a kind of request comes from a coherent agent. -/
def agentKind : TKind → Bool
  | .rdShr | .rdOwn | .upg => true
  | _ => false

/-! ## The snoops of a transaction (R273) -/

/-- The AO tick in which a snoop to a holder leaves: once the peg time and an escalated hold have passed (R275, R276, R282). -/
def snoopTick (s : State) (line c : Nat) : Nat :=
  let t := txnOf s line
  let at' := fun (x : Option (Nat × Nat)) (mine : Nat → Bool) => match x with | some a => if mine a.1 then (a.2 + 79) / 80 else 0 | none => 0
  max s.aoTick (max (at' t.peg (fun a => decide (a = c))) (at' t.esc (fun a => decide (a / 64 / 12 = c))))

/-- R273: the snoops that a request needs. -/
def snoopsFor (s : State) (line : Nat) (r : Req) : List Snoop :=
  let one := fun (k : Snp) (c : Nat) => (⟨c, k, false, snoopTick s line c⟩ : Snoop)
  match r.kind, dirOf s line with
  | _, .U => []
  | .rdShr, .O o => [one .shr o]
  | .rdShr, .SH _ (some f) => [one .fwd f]
  | .rdShr, .SH _ none => []
  | .rdCur, .O o => [one .cur o]
  | .rdCur, .SH _ _ => []
  | .rdOwn, d | .upg, d => ((holders d).filter (fun c => decide (c ≠ r.who))).map (one .inv)
  | _, d => (holders d).map (one .inv)

/-! ## Writes and atomics at a home -/

/-- The enabled bytes of one line's piece, as runs: offset and bytes. -/
def enabledRuns (be : Nat) : Nat → List Byte → List (Nat × List Byte)
  | _, [] => []
  | i, b :: bs =>
    let rest := enabledRuns be (i + 1) bs
    if bit be i then
      match rest with
      | (j, r) :: more => if j = i + 1 then (i, b :: r) :: more else (i, [b]) :: rest
      | [] => [(i, [b])]
    else rest

/-- WR_PART: a line's bytes under its byte enables, run by run. -/
def writeEnabled (dpa be : Nat) (bs : List Byte) (s : State) : State :=
  if dpa < 2 ^ 52 then (enabledRuns be 0 bs).foldl (fun s x => homeWrite (dpa + x.1) x.2 false s) s
  else
    let line := dpa / 128
    (enabledRuns be 0 bs).foldl (fun s x => putHost (hostAddr line + x.1) x.2 s) (noteWrite line none (grantNone line s))

/-- An atomic's operation at its home (R281): AOP, bytes, FAR, operand, comparand. -/
def homeAtomic (dpa : Nat) (args : List Nat) (agent : Nat) (s : State) : State :=
  let n := nth 4 args 1
  let new := fun (old : List Byte) => leBytes n (atomVal (nth 0 args 0) (8 * n) (leNat old) (nth 0 args 3) (nth 0 args 4))
  if 2 ^ 52 ≤ dpa then
    let pa := hostAddr (dpa / 128) + dpa % 128
    atomBridge pa (new (hostBytes s pa n)) (noteWrite (dpa / 128) none s)
  else
    let r := devRead s agent dpa n
    let s := readNote dpa r s
    match r with
    | .ok old => putDev dpa (new old) false false (atomHome dpa (decide (nth 0 args 2 = 1)) (beforeWrite dpa n none s))
    | .fail e =>
      if agent < 192 then (match (clusterOf s (clOf agent)).casting with | some k => failCasting k e s | none => s) else s
    | .wait => s

/-! ## Ends of transactions (R273, R281) -/

/-- The port answers a host request. -/
def hostReply (status : Nat) (bs : List Byte) (ep : Bool) (s : State) : State :=
  { s with hpt := { s.hpt with reply := ⟨status, bs, ep⟩ } }

/-- The answer to a host read of device memory: its data, poisoned data (R284), or Unsupported Request (R229); nothing while it
waits. -/
def answerRead (n : Nat) (r : Got (List Byte)) (s : State) : State :=
  match r with
  | .ok bs => hostReply 0 bs false s
  | .fail e => if e.code = 0x30 then bumpFree (hostReply 0 (freeBytes s.free n) true s) 1 else hostReply 1 [] false s
  | .wait => s

/-- The host's CXL.mem read of a line has been performed (R287). -/
def replyLine (r : Req) (s : State) : State :=
  if r.reply then
    let x := devRead s agHost (r.dpa / 128 * 128) 128
    answerRead 128 x (readNote r.dpa x s)
  else s

/-- The directory of a line whose only owner a snoop has made a sharer, or taken the line from. -/
def settleDir (line : Nat) (s : State) : State :=
  match dirOf s line with
  | .O o => if lstateOf s o line = .S then setDir s line (.SH [o] none) else if lstateOf s o line = .I then setDir s line .U else s
  | _ => s

/-- A tundish that is granted ownership of a line that it holds uses it (R242). -/
def useWay (c line : Nat) (s : State) : State :=
  if c < 16 then { s with mm := { s.mm with tun := tset [] s.mm.tun c (wayHit (tget [] s.mm.tun c) (tunSet (128 * line)) line) } } else s

/-- R273, R281: every snoop of a transaction has been answered: the request has its effect.  The host is granted no more than S by
a read for sharing (R287). -/
def finishReq (line : Nat) (r : Req) (s : State) : State :=
  let c := r.who
  let dev := decide (line < 2 ^ 57)
  let fill := fun (s : State) => if c < 16 ∧ lstateOf s c line = .I then tunFill c line 1 none s else (useWay c line s, true)
  let near := fun (s : State) => if dev then cruTouch (128 * line) 1 none s else s
  let hint := fun (wr : Bool) (s : State) => if dev && homedLine s line then applyHint r.hint line wr s else s
  match r.kind with
  | .rdShr =>
    let f := fill s
    replyLine r (if f.2 then grantSharedAs (decide (c = 34)) c line (near f.1) else settleDir line (near f.1))
  | .rdOwn | .upg =>
    let f := fill s
    replyLine r (if f.2 then grantOwned c line f.1 else grantNone line f.1)
  | .rdCur => replyLine r (hint false (if dev then readCurrent line s else s))
  | .wrFull => hint true (if dev then homeWrite r.dpa r.data true s else writeEnabled r.dpa (2 ^ 128 - 1) r.data s)
  | .wrPart =>
    let s := hint true (writeEnabled r.dpa r.be r.data s)
    if r.args = [1] then poisonLine (locOf r.dpa) 0x12 agHost s else s
  | .atom => homeAtomic r.dpa r.args r.hint s

/-- R286: whether a request for a host line needs the line from the host first: RdShared, RdOwn or RdOwnNoData. -/
def needsHost (s : State) (line : Nat) (r : Req) : Bool :=
  decide (2 ^ 57 ≤ line) && !dirLive s line && (agentKind r.kind || decide (r.kind = .atom))

/-- R271: a home starts a request on a free line: with no snoop to send it ends at once; the host bridge asks the host for a line
that nobody on the device holds.  With Bus Master Enable 0 the bridge obtains nothing (R440). -/
def startReq (line : Nat) (r : Req) (s : State) : State :=
  let s := if line < 2 ^ 57 then keyTurn r.dpa s else s
  if needsHost s line r then
    if !s.hpt.bme then s
    else
      let s := setTxn s line { txnOf s line with cur := some r, snoops := [] }
      if s.xl.reads.any (fun x => decide (x.who = .bridge line) && !x.back) then s
      else sendRead (.bridge line) (hostAddr line) 0 128 [] s
  else
    let sn := snoopsFor s line r
    if sn.isEmpty then finishReq line r s
    else setTxn s line { txnOf s line with cur := some r, snoops := sn }

/-- Whether a line's home cannot start a request now: another is in progress, a pour has the line locked (R277), or the request
needs a directory entry that cannot be had (R269). -/
def mustWait (s : State) (line : Nat) (r : Req) : Bool :=
  let t := txnOf s line
  t.cur.isSome || t.locked.isSome || (agentKind r.kind && dirFull s line)

/-- R271: the requests that wait for a line start in order, as far as they can. -/
def kickLine (line : Nat) : Nat → State → State
  | 0, s => s
  | fuel + 1, s =>
    let t := txnOf s line
    match t.waiting with
    | [] => s
    | r :: rest => if mustWait s line r then s else kickLine line fuel (startReq line r (setTxn s line { t with waiting := rest }))

/-- The homes start the requests that wait at lines that have become free. -/
def kickAll (s : State) : State :=
  s.mm.txn.foldl (fun s e => if e.2.waiting.isEmpty then s else kickLine e.1 (e.2.waiting.length + 1) s) s

/-- R271: a request reaches its home: it starts, or waits behind the others of its line. -/
def reachHome (line : Nat) (r : Req) (s : State) : State :=
  let t := txnOf s line
  if !t.waiting.isEmpty || mustWait s line r then setTxn s line { t with waiting := t.waiting ++ [r] }
  else startReq line r s

/-- R271: with no snoop left to answer the transaction ends and the next request starts. -/
def endTxn (line : Nat) (s : State) : State :=
  let t := txnOf s line
  match t.cur with
  | some r =>
    if t.snoops.isEmpty then
      let s := finishReq line r (setTxn s line { t with cur := none, snoops := [] })
      kickLine line (t.waiting.length + 1) s
    else s
  | none => s

/-- R286: the host has answered the bridge's request for a line: the bridge takes it up, and the transaction that asked for it ends;
a poisoned answer gives the line to nobody. -/
def bridgeDone (line : Nat) (ep : Bool) (bs : List Byte) (s : State) : State :=
  let t := txnOf s line
  let drop := fun (s : State) => { s with xl := { s.xl with reads := s.xl.reads.filter (fun r => decide (r.who ≠ .bridge line)) } }
  if !ep then endTxn line (bridgeTake line bs (drop s))
  else if t.cur.isSome then kickLine line (t.waiting.length + 1) (setTxn (drop s) line { t with cur := none })
  else { s with xl := { s.xl with reads := s.xl.reads.map (fun r =>
    if r.who = .bridge line then { r with back := true, ep := true, args := [0x30, 0x12] } else r) } }

/-- R286, R440: the host has refused it. -/
def bridgeFail (line : Nat) (s : State) : State :=
  let t := txnOf s line
  let s := { s with xl := { s.xl with
    reads := s.xl.reads.map (fun r => if r.who = .bridge line then { r with back := true, args := [0x31, 0x13] } else r) } }
  if t.cur.isSome then
    kickLine line (t.waiting.length + 1) (setTxn { s with xl := { s.xl with
      reads := s.xl.reads.filter (fun r => decide (r.who ≠ .bridge line)) } } line { t with cur := none })
  else s

/-! ## Requests (R270, R273) -/

/-- R266: whether a coherent agent can send: a tundish or control core of a stopped or retired cluster sends nothing. -/
def agentUp (s : State) (can : Nat) : Bool := decide (can < 35) && (decide (32 ≤ can) || tunUp s (can % 16))

/-- A request of coherent agent `can` with what its own state must be (R272). -/
def agentReqAs (reply : Bool) (kind : TKind) (can dpa : Nat) (ok : LState → Bool) (s : State) : State :=
  let line := reqLine dpa
  if !s.powered || !agentUp s can || !homedLine s line || !ok (lstateOf s can line) then s
  else reachHome line { kind := kind, who := can, dpa := dpa, reply := reply } s

/-- A request of a coherent agent. -/
def agentReq (kind : TKind) (can dpa : Nat) (ok : LState → Bool) (s : State) : State := agentReqAs false kind can dpa ok s

/-- RD_SHR (R273). -/
def execRdShr (can dpa : Nat) (s : State) : Out := whenOn s <| .next (agentReq .rdShr can dpa (fun x => decide (x = .I)) s)

/-- RD_OWN (R273); `whole` asks for no data, which are not modelled as moving. -/
def execRdOwn (can dpa : Nat) (_whole : Bool) (s : State) : Out := whenOn s <| .next (agentReq .rdOwn can dpa (fun x => decide (x = .I)) s)

/-- UPG (R273, R274): from an agent whose copy was invalidated in flight it is an RD_OWN. -/
def execUpg (can dpa : Nat) (s : State) : Out := whenOn s <|
  .next (agentReq .upg can dpa (fun x => decide (x ≠ .M) && decide (x ≠ .E)) s)

/-- What the map makes of an uncached request. -/
def uncachedBar (s : State) (write : Bool) (agent dpa : Nat) : Got Unit :=
  if 2 ^ 52 ≤ dpa then (if decide (2 ^ 64 ≤ dpa) && s.hpt.cxlCache then .ok () else .fail (protEnd 0x20 agent dpa))
  else if write then writeBar s agent dpa
  else
    match devRead s agent dpa 1 with
    | .fail e => if e.code = 0x30 then .ok () else .fail e
    | .wait => .wait
    | .ok _ => .ok ()

/-- A request of an uncached requester that the map lets through: to device memory, or under CXL.cache to a host line (R286). -/
def uncachedReq (r : Req) (write : Bool) (agent : Nat) (s : State) : State :=
  if !s.powered then s
  else
    match uncachedBar s write agent r.dpa with
    | .ok () => reachHome (reqLine r.dpa) r s
    | .wait => heldWake r.dpa s
    | .fail _ => s

/-- RD_CUR (R273). -/
def execRdCur (agent dpa hint : Nat) (s : State) : Out := whenOn s <|
  .next (uncachedReq { kind := .rdCur, who := 64 + agent, dpa := dpa, hint := hint % 2 ^ 16 } false agent s)

/-- WR_FULL (R273, R285). -/
def execWrFull (agent dpa : Nat) (data : List Byte) (hint : Nat) (s : State) : Out := whenOn s <|
  .next (if data.length = 128 then
      uncachedReq { kind := .wrFull, who := 64 + agent, dpa := dpa / 128 * 128, data := data, hint := hint % 2 ^ 16 } true agent s
    else s)

/-- WR_PART (R273). -/
def execWrPart (agent dpa be : Nat) (data : List Byte) (hint : Nat) (s : State) : Out := whenOn s <|
  .next (if data.length = 128 then
      uncachedReq { kind := .wrPart, who := 64 + agent, dpa := dpa / 128 * 128, be := be % 2 ^ 128, data := data, hint := hint % 2 ^ 16 } true agent s
    else s)

/-- Whether an agent holds a line dirty: in M, or in E for an agent other than a tundish, whose write is silent (R267, R272). -/
def mayHoldDirty (s : State) (can line : Nat) : Bool :=
  decide (lstateOf s can line = .M) || (decide (16 ≤ can) && decide (lstateOf s can line = .E))

/-- WB (R272 to R274): an agent in M writes the line back and gives it up; one other than a tundish may have gone from E to M
without a message. -/
def execWb (can dpa : Nat) (s : State) : Out := whenOn s <|
  let line := reqLine dpa
  .next (if mayHoldDirty s can line then giveUp can line (setLState s can line .M) else s)

/-- EV (R272 to R274): an agent in E, F or S gives the line up. -/
def execEv (can dpa : Nat) (s : State) : Out := whenOn s <|
  .next (if lstateOf s can (reqLine dpa) ≠ .I ∧ lstateOf s can (reqLine dpa) ≠ .M then giveUp can (reqLine dpa) s else s)

/-- HOME_ATOM (R281): `size` is 4 or 8 bytes. -/
def execHomeAtom (agent dpa : Nat) (far : Bool) (aop size operand compare : Nat) (s : State) : Out := whenOn s <|
  .next (if (size = 4 ∨ size = 8) ∧ dpa % size = 0 ∧ aop ≤ 10 ∧ (aop ≠ 1 ∨ size = 4) then
      uncachedReq { kind := .atom, who := 64 + agent, dpa := dpa, hint := agent
                    args := [aop, size, b2n far, operand % 2 ^ (8 * size), compare % 2 ^ (8 * size)] } true agent s
    else s)

/-! ## Snoops and their answers (R272, R275, R286, R317) -/

/-- R317: whether a pour that publishes on a cluster keeps the cluster's copy of a line. -/
def keptByPour (s : State) (can line : Nat) : Bool :=
  s.cores.any (fun e => e.2.ladle.readSet.contains line && decide (e.1 / 12 = can) &&
    (match e.2.ladle.holder with | some slot => decide ((tget {} e.2.courses slot).pour = .publishing) | none => false))

/-- Whether a snoop may reach an agent now: its peg time and an escalated hold have passed (R275, R276), and no pour of its cluster
that publishes has read the line (R317). -/
def snoopFree (s : State) (can line : Nat) : Bool :=
  let t := txnOf s line
  (match t.peg with | some a => decide (a.1 ≠ can) || decide (a.2 ≤ fclkOf s) | none => true) &&
    (match t.esc with | some a => decide (a.1 / 64 / 12 ≠ can) || decide (a.2 ≤ fclkOf s) | none => true) && !keptByPour s can line

/-- R272: what a snoop does at its holder. -/
def snoopAt (kind : Snp) (can line : Nat) (s : State) : State :=
  if lstateOf s can line = .I then noteSnoop can s
  else
    match kind with
    | .inv => snoopInv none line can s
    | .cur => noteSnoop can s
    | .shr | .fwd => snoopShr line can s

/-- R286: a snoop that the host sends to the bridge (SnpInv, SnpData, SnpCur) reaches one holder; an invalidated line leaves the
bridge with its last holder. -/
def hostSnoop (kind : Snp) (can line : Nat) (s : State) : State :=
  let s := snoopAt kind can line s
  match kind with
  | .inv =>
    let s := setDir s line (dirLeave can (dirOf s line))
    if dirOf s line = .U then { s with mm := { s.mm with bridge := s.mm.bridge.filter (fun l => decide (l ≠ line)) } } else s
  | .shr | .fwd =>
    (match dirOf s line with
     | .O o => if lstateOf s o line = .S then setDir s line (.SH [o] none) else s
     | .SH set (some f) => if lstateOf s f line = .S then setDir s line (.SH (set ++ [f]) none) else s
     | _ => s)
  | .cur => s

/-- R272: a snoop reaches its holder, which changes state: one of the transaction of its line, or one that the host sends for a
host line (R286). -/
def deliver (kind : Snp) (can loc : Nat) (s : State) : State :=
  let line := loc / 128
  let t := txnOf s line
  let mine := fun (x : Snoop) => decide (x.can = can) && decide (x.kind = kind) && !x.delivered
  if !s.powered || !snoopFree s can line then s
  else if t.cur.isSome && t.snoops.any mine then
    snoopAt kind can line (setTxn s line { t with snoops := t.snoops.map (fun x => if mine x then { x with delivered := true } else x) })
  else if decide (2 ^ 57 ≤ line) && s.hpt.cxlCache && t.cur.isNone && t.locked.isNone then hostSnoop kind can line s
  else s

/-- SNP_SHR (R272). -/
def execSnpShr (can loc : Nat) (s : State) : Out := whenOn s <| .next (deliver .shr can loc s)
/-- SNP_FWD (R272). -/
def execSnpFwd (can loc : Nat) (s : State) : Out := whenOn s <| .next (deliver .fwd can loc s)
/-- SNP_INV (R272, R312). -/
def execSnpInv (can loc : Nat) (s : State) : Out := whenOn s <| .next (deliver .inv can loc s)
/-- SNP_CUR (R272). -/
def execSnpCur (can loc : Nat) (s : State) : Out := whenOn s <| .next (deliver .cur can loc s)

/-- SNOOP_ANSWER (R273): a holder's answer reaches the home. -/
def execSnoopAnswer (can loc : Nat) (s : State) : Out := whenOn s <|
  let line := loc / 128
  let t := txnOf s line
  .next (if t.snoops.any (fun x => decide (x.can = can) && x.delivered) then
      endTxn line (setTxn s line { t with snoops := t.snoops.filter (fun x => !(decide (x.can = can) && x.delivered)) })
    else s)

/-- PEG_TIME_EXPIRY (R275, R289): PEG FCLK cycles have passed since the grant. -/
def execPegTimeExpiry (loc : Nat) (s : State) : Out := whenOn s <|
  .next (
    match (txnOf s (loc / 128)).peg with
    | some a => let s := fclkTo a.2 s
                setTxn s (loc / 128) { txnOf s (loc / 128) with peg := none }
    | none => s)

/-- ESCALATED_HOLD_EXPIRY (R276): 1,024 FCLK cycles have passed since the grant. -/
def execEscalatedHoldExpiry (loc : Nat) (s : State) : Out := whenOn s <|
  .next (
    match (txnOf s (loc / 128)).esc with
    | some a => let s := fclkTo a.2 s
                setTxn s (loc / 128) { txnOf s (loc / 128) with esc := none }
    | none => s)

/-- R282: the line holds zeros and is poisoned; the silent holder is out of the directory. (DEDUCED, log entry 63.) -/
def poisonHome (can line : Nat) (s : State) : State :=
  let s := giveUp can line s
  let s := { s with mm := { s.mm with mem := wrList s.mm.mem (128 * line) (List.replicate 128 0) } }
  cruTouch (128 * line) 1 none (poisonLine (128 * line) 0x11 (agCan can) s)

/-- HOME_TIMEOUT (R282, R289): HOME_TO µs after its dispatch a snoop has not been answered. -/
def execHomeTimeout (can loc : Nat) (s : State) : Out := whenOn s <|
  let line := loc / 128
  let t := txnOf s line
  .next (
    match t.snoops.find? (fun x => decide (x.can = can)) with
    | some x =>
      if decide (2 ^ 57 ≤ line) || t.cur.isNone || keptByPour s can line then s
      else
        let s := timeTo (x.sent + 25 * homeTo s) s
        endTxn line (poisonHome can line (setTxn s line { t with snoops := t.snoops.filter (fun x => decide (x.can ≠ can)) }))
    | none => s)

end Sys2Proof.Machine
end

