-- ==== Sys2Proof/Machine/HostPort.lean ====
section
/-!
DEFINITION. The host port: inbound accesses to device memory, completions of outbound reads, configuration writes,
resets of the function, the link and the mirror (R280, R281, R284 to R288, R337, R423 to R445).
-/
namespace Sys2Proof.Machine

/-! ## Inbound accesses to device memory (R229, R231, R280, R284, R430) -/

/-- How the port makes an inbound access. -/
def hostAccess : Acc2 := ⟨.posted, 0, agHost, false, none⟩

/-- R229: an Unsupported Request reported through AER. -/
def hostUr (s : State) : State := { s with hpt := { s.hpt with aerUr := true } }

/-- Whether an inbound access of BAR4 is decoded and may be made now (R429, R450). -/
def bar4Open (s : State) (off n : Nat) : Bool :=
  s.powered && isOn s hptMemActive && decide (0 < n) && decide (off + n ≤ 2 ^ s.hpt.bar4Size)

/-- INBOUND_BAR4_READ (R430): at most 4,096 B (R425); one that waits at its target holds back those behind it (R305). -/
def execInboundBar4Read (off len : Nat) (s : State) : Out := whenOn s <| inOrder (.inboundBar4Read off len) s <|
  .next (
    if !bar4Open s off len || decide (4096 < len) then s
    else
      match readDpa hostAccess 34 off len s with
      | (s, .wait) => hold (.inboundBar4Read off len) (heldWake off s)
      | (s, r) => answerRead len r s)

/-- R430, R513: one line's piece of an inbound write: WR_FULL when it has every byte of the line, else WR_PART, whose charge hint
takes effect once its bytes are written (R279). -/
def writePiece (hint dpa be : Nat) (bs : List Byte) (s : State) : State :=
  if bs.length = 128 ∧ be % 2 ^ 128 = 2 ^ 128 - 1 then (writeTargetF true hostAccess (.dev dpa) dpa bs (some hint) s).1
  else
    match enabledRuns be 0 bs with
    | [] => s
    | runs =>
      let s := runs.foldl (fun s x => homeWrite (dpa + x.1) x.2 false s) s
      if homed dpa then placeLine (some hint) (lineOf (locOf dpa)) true s else s

/-- An inbound write, line by line (at most `fuel` lines). -/
def writePieces (hint : Nat) (ep : Bool) : Nat → Nat → Nat → List Byte → State → State
  | 0, _, _, _, s => s
  | fuel + 1, dpa, be, bs, s =>
    if bs.isEmpty then s
    else
      let k := min bs.length (128 - dpa % 128)
      let s := writePiece hint dpa be (bs.take k) s
      let s := if ep ∧ be % 2 ^ k ≠ 0 then poisonLine (locOf dpa) 0x12 agHost s else s
      writePieces hint ep fuel (dpa + k) (be / 2 ^ k) (bs.drop k) s

/-- INBOUND_BAR4_WRITE (R430): `tph` is the steering tag of a TLP Processing Hint (R280); at most 512 B (R425). -/
def execInboundBar4Write (off be : Nat) (data : List Byte) (ep : Bool) (tph : Option Nat) (s : State) : Out := whenOn s <|
  inOrder (.inboundBar4Write off be data ep tph) s <|
  .next (
    if !bar4Open s off data.length || decide (512 < data.length) then s
    else
      match writeReady agHost off data.length s with
      | .wait => hold (.inboundBar4Write off be data ep tph) (heldWake off s)
      | .fail _ => hostUr s
      | .ok () =>
        let hint := match tph with | some t => getF s (stMap (t % 256)) | none => getF s (stMap 0)
        writePieces hint ep 6 off be data s)

/-- R425: an AtomicOp on BAR4: 0 FetchAdd, 1 Swap, 2 CompareAndSwap; none while it waits. (DEDUCED, log entry 78.) -/
def inboundAtomic (dpa aop size operand compare : Nat) (s : State) : Option State :=
  match writeReady agHost dpa size s with
  | .wait => none
  | .fail _ => some (hostReply 1 [] false s)
  | .ok () =>
    let r := devRead s agHost dpa size
    match r with
    | .wait => none
    | .fail _ => some (answerRead size r (readNote dpa r s))
    | .ok old =>
      let new := leBytes size (atomVal aop (8 * size) (leNat old) (operand % 2 ^ (8 * size)) (compare % 2 ^ (8 * size)))
      some (hostReply 0 old false (putDev dpa new false false (atomHome dpa false (beforeWrite dpa size none s))))

/-- INBOUND_ATOMICOP (R425). -/
def execInboundAtomicop (bar off op size operand compare : Nat) (s : State) : Out := whenOn s <|
  inOrder (.inboundAtomicop bar off op size operand compare) s <|
  .next (
    if bar ≠ 4 ∨ (size ≠ 4 ∧ size ≠ 8) ∨ 2 < op ∨ off % size ≠ 0 then hostReply 1 [] false s
    else if !bar4Open s off size then s
    else (inboundAtomic off (if op = 0 then 0 else if op = 1 then 9 else 10) size operand compare s).getD
      (hold (.inboundAtomicop bar off op size operand compare) (heldWake off s)))

/-! ## CXL.mem (R285, R287, R433, R434) -/

/-- R287: a write by the host through CXL.mem: its own copy comes home with the data, and the write ends no transaction of its own
(R274); else an uncached partial write at the home. -/
def cxlWrite (dpa be : Nat) (data : List Byte) (poison : Bool) (s : State) : State :=
  let line := lineOf (locOf dpa)
  if mayHoldDirty s 34 line then
    let s := giveUp 34 line (setLState (writeEnabled dpa be data s) 34 line .M)
    if poison then poisonLine (locOf dpa) 0x12 agHost s else s
  else uncachedReq { kind := .wrPart, who := 64 + agHost, dpa := dpa, be := be, data := data, args := if poison then [1] else [] } true agHost s

/-- R287: a read by the host through CXL.mem of a line it may be granted; its data follow once the home has answered (R273), and a
host that holds the line already has them at once. -/
def cxlRead (kind d : Nat) (s : State) : State :=
  let held := lstateOf s 34 (lineOf (locOf d))
  if kind = 2 then uncachedReq { kind := .rdCur, who := 64 + agHost, dpa := d, reply := true } false agHost s
  else if held = .M ∨ held = .E ∨ (kind = 0 ∧ held ≠ .I) ∨ homed d = false then
    let r := devRead s agHost d 128
    answerRead 128 r (readNote d r s)
  else agentReqAs true (if kind = 0 then .rdShr else if held = .I then .rdOwn else .upg) 34 d (fun _ => true) s

/-- CXL_MEM_REQUEST (R287): 0 a read granting S, 1 a read granting ownership, 2 a read of the current value, 3 a write of
the enabled bytes of a line (which gives up the host's own copy), 4 the eviction of a clean copy. -/
def execCxlMemRequest (kind dpa be : Nat) (data : List Byte) (poison : Bool) (s : State) : Out := whenOn s <|
  let d := dpa / 128 * 128
  let line := lineOf (locOf d)
  let later := fun (s : State) => hold (.cxlMemRequest kind dpa be data poison) (heldWake d s)
  .next (
    if !s.hpt.cxlMem || !s.hpt.hdmCommitted || !isOn s hptMemActive || decide (s.hpt.hdmSize ≤ dpa) || decide (4 < kind) then s
    else if kind = 4 then (if lstateOf s 34 line = .E ∨ lstateOf s 34 line = .S then giveUp 34 line s else s)
    else if kind = 3 then
      if data.length ≠ 128 then s
      else
        match writeBar s agHost d with
        | .wait => later s
        | .fail _ => hostUr s
        | .ok () => cxlWrite d (be % 2 ^ 128) data poison s
    else
      match uncachedBar s false agHost d with
      | .wait => later s
      | .fail _ => hostReply 1 [] false s
      | .ok () => cxlRead kind d s)

/-! ## Completions of outbound reads (R301, R439) -/

/-- R301: the data of a read have come: a miss register answers its loads (R239), the host coherence bridge takes up its line
(R286), and any other reader finds them. -/
def hostReadDone (r : OutRead) (ep : Bool) (data : List Byte) (s : State) : State :=
  let gone := { s with xl := { s.xl with reads := s.xl.reads.filter (fun x => decide (x.tag ≠ r.tag)) } }
  match r.who with
  | .miss g tag => missDone g tag ep data gone
  | .bridge line => bridgeDone line ep data s
  | _ => { s with xl := { s.xl with reads := s.xl.reads.map (fun x =>
      if x.tag = r.tag then { x with back := true, ep := ep, data := data } else x) } }

/-- OUTBOUND_READ_COMPLETION (R301). -/
def execOutboundReadCompletion (tag : Nat) (ep : Bool) (data : List Byte) (s : State) : Out := whenOn s <|
  .next (
    match s.xl.reads.find? (fun r => decide (r.tag = tag) && !r.back && decide (r.len = data.length)) with
    | some r => hostReadDone r ep data s
    | none => s)

/-- R377, R439: what a failed read does to its reader. -/
def failRead (r : OutRead) (s : State) : State :=
  let gone := { s with xl := { s.xl with reads := s.xl.reads.filter (fun x => decide (x.tag ≠ r.tag)) } }
  match r.who with
  | .chan e ch => busError e ch false 0x31 0x10 gone
  | .bridge line => bridgeFail line s
  | w => endWaiter 0 0 (faultEnd 0x31 0x13 (waiterAgent w) r.va) gone w

/-- HOST_COMPLETION (R439): an outbound read ends with Unsupported Request, Completer Abort or a time-out. -/
def execHostCompletion (tag : Nat) (status : HostStatus) (s : State) : Out := whenOn s <|
  .next (
    if decide (status = .success) then s
    else
      match s.xl.reads.find? (fun r => decide (r.tag = tag) && !r.back) with
      | none => s
      | some r => failRead r s)

/-! ## Configuration space (R286, R337, R342, R430, R433, R440) -/

/-- R440: the reporting writes that wait will not reach host memory: what is addressed there is discarded. -/
def killPosted (s : State) : State := { s with xl := { s.xl with posted := s.xl.posted.map (fun p => { p with dead := true }) } }

/-- BUS_MASTER_ENABLE (R440): while it is 0 no request leaves; those that wait leave when it is set. -/
def execBusMasterEnable (on : Bool) (s : State) : Out := whenOn s <|
  .next (
    let s := { s with hpt := { s.hpt with bme := on } }
    if on then retryIdle (sendAsks s) else killPosted s)

/-- ATS_ENABLE (R337): clearing it invalidates every cached translation; setting it lets the accesses that wait ask. -/
def execAtsEnable (on : Bool) (s : State) : Out := whenOn s <|
  .next (
    if on then retryIdle (sendAsks { s with hpt := { s.hpt with ats := true } })
    else
      let s := (invalidateNow 512 ⟨true, 0, 0, 0⟩ s).1
      { s with hpt := { s.hpt with ats := false } })

/-- PRI_ENABLE (R342): page requests that a response failure has stopped are sent again once it has been cleared and set. -/
def execPriEnable (on : PriControl) (s : State) : Out := whenOn s <|
  .next (
    let s := if on.enable ∧ s.hpt.pri = false then { s with xl := { s.xl with priStopped := false } } else s
    retryIdle { s with hpt := { s.hpt with pri := on.enable, priAlloc := on.alloc } })

/-- PASID_ENABLE (R337). -/
def execPasidEnable (on : Bool) (s : State) : Out := whenOn s <|
  .next ({ s with hpt := { s.hpt with pasid := on } })

/-- MEMORY_SPACE_ENABLE (R430): `bar4` is the base the host has written to BAR4; clearing the bit lets a held size take
effect. -/
def execMemorySpaceEnable (on : Bool) (bar4 : Nat) (s : State) : Out := whenOn s <|
  .next (
          let z := if on then s.hpt.bar4Size else s.hpt.bar4Next
      { s with hpt := { s.hpt with mse := on, bar4Size := z, bar4Base := bar4 % 2 ^ 64 / 2 ^ z * 2 ^ z } })

/-- BAR4_RESIZE (R430). -/
def execBar4Resize (sizeLog2 : Nat) (s : State) : Out := whenOn s <|
  .next (
    if decide (sizeLog2 < 30) || decide (52 < sizeLog2) then s
    else { s with hpt := { s.hpt with
      bar4Next := sizeLog2
      bar4Size := if s.hpt.mse then s.hpt.bar4Size else sizeLog2 } })

/-- R433: a decoder size that may be committed. -/
def hdmSizeOk (size : Nat) : Bool := (List.range 23).any (fun i => decide (size = 2 ^ (30 + i)))

/-- HDM_COMMIT (R433). -/
def execHdmCommit (base size : Nat) (s : State) : Out := whenOn s <|
  .next (
          let ok := hdmSizeOk size && decide (base % size = 0)
      { s with hpt := { s.hpt with hdmBase := base, hdmSize := size, hdmCommitted := ok, hdmError := !ok } })

/-- R288: without CXL.cache no device cache holds a host line, and the bridge obtains none. -/
def dropHostLines (s : State) : State :=
  let s := s.mm.lines.foldl (fun s e => e.2.foldl (fun s l => if 2 ^ 57 ≤ l.1 then giveUp e.1 l.1 s else s) s) s
  let s := s.xl.reads.foldl (fun s r => match r.who with | .bridge line => if r.back then s else bridgeFail line s | _ => s) s
  { s with mm := { s.mm with bridge := [] } }

/-- CXL_CACHE_ENABLE (R286, R288, R338): the host enables or disables CXL.cache and CXL.mem. -/
def execCxlCacheEnable (cache mem : Bool) (s : State) : Out := whenOn s <|
  .next (
          let s := if cache then s else dropHostLines s
      { s with hpt := { s.hpt with cxlCache := cache, cxlMem := mem } })

/-! ## Resets of the function (R440) -/

/-- Queues that hold something, or that are enabled. -/
def usedQueues (s : State) : List Nat :=
  (List.range 512).filter (fun q => isOn s (qEnable q) || decide (queueOf s q ≠ {}))

/-- R440 step 1: every queue is reset as R35 does, and its ENABLE reads 0 afterwards. -/
def resetQueues (s : State) : State :=
  (usedQueues s).foldl (fun s q => setOff (resetDone q (resetQueue q s)) (qEnable q)) s

/-- R440: the host-started transfers of sph stop as STOP stops them. -/
def stopSph (s : State) : State :=
  (List.range 16).foldl (fun s ch =>
    if (chanOf s 16 ch).phase ≠ .free ∧ (chanOf s 16 ch).starter = 0 then endXfer 16 ch (chanDrainEnd true false 16) s else s) s

/-- R440 step 2: translations and page request groups are gone, with the requests for them. -/
def dropTranslations (s : State) : State :=
  { s with xl := { s.xl with cluster := [], crucible := [], ats := [], pri := [], priStopped := false } }

/-- R440 step 3: configuration space is at its reset values, but for the sticky AER bits; sessions and streams end.
(DEDUCED, log entry 77.) -/
def resetConfig (s : State) : State :=
  { s with hpt := { s.hpt with
    held := []
    mse := false, bme := false, intDisable := false, intLine := 0, ats := false, pri := false, priAlloc := 0, pasid := false
    cxlCache := false, cxlMem := false, bar4Size := 30, bar4Next := 30, bar4Base := 0
    hdmBase := 0, hdmSize := 0, hdmCommitted := false, hdmError := false
    doe := [], doeReady := false, doeReq := none, doeError := false, spdm := {}, ide := [] } }

/-- FLR (R440): a Function Level Reset, a hot reset or a link down.  Bus Master Enable is 0 from its first step on. -/
def execFlr (s : State) : Out := whenOn s <|
  .next (
          let s := killPosted { s with hpt := { s.hpt with bme := false } }
      let s := dropTranslations (stopSph (resetQueues s))
      let s := resetConfig (dropHostLines s)
      setOn (setOff (setOff s mirEnable) errEnable) hptFlrSeen)

/-! ## The link and the mirror (R424, R442 to R446) -/

/-- HOST_LINK_UP (R424): `rate` as R444 codes it; at 64 GT/s the link runs in flit mode. -/
def execHostLinkUp (width rate : Nat) (s : State) : Out := whenOn s <|
  .next (
    if width ∈ [1, 2, 4, 8, 16] ∧ 1 ≤ rate ∧ rate ≤ 6 ∧ s.boot.phase ≠ 0 then
      setB (setF (setF { s with hpt := { s.hpt with linkUp := true } } hptWidth width) hptRate rate) hptFlit (decide (rate = 6))
    else s)

/-- R445: a write to HPT_MIRROR; while ENABLE reads 1 it changes only ENABLE. -/
def mirrorWrite (mask value : Nat) (s : State) : State :=
  if isOn s mirEnable then fieldsWrite mask value [mirEnable] s else fieldsWrite mask value [mirEnable, mirAddr] s

/-- HPT_MIRROR_WRITE (R445). -/
def execHptMirrorWrite (be value : Nat) (s : State) : Out := whenOn s <| inOrder (.hptMirrorWrite be value) s <|
  .next (if halfOk be then mirrorWrite (byteMask be) value s else s)

/-- MIRROR_COPY (R442): the copy as it stands after its three writes. -/
def execMirrorCopy (s : State) : Out := whenOn s <|
  .next (if isOn s mirEnable then postWrite 2 0 (getF s mirAddr * 4096) (pageBytes s) agHost s else s)

end Sys2Proof.Machine
end

