-- ==== Sys2Proof/Machine/ResetOps.lean ====
section
/-!
DEFINITION. Resets of the module and the beginning of a start (R448, R501 to R503, R541, R546, R589, R590).
-/
namespace Sys2Proof.Machine

/-- R503, R541: a module reset: every volatile state is lost and the key store is zeroised.  The pins, the flash, the
cartridges in their sockets, the always-on tick and what host memory holds are not the module's to lose. -/
def moduleReset (s : State) : State :=
  let b := s.boot
  let z : State := {
    pending := s.pending, powered := false, aoTick := s.aoTick, free := s.free
    mm := { host := s.mm.host }
    sec := { zeroed := true, nonce := s.sec.nonce }
    boot := { pwrOk := b.pwrOk, perst := b.perst, clocks := b.clocks, held := b.held, trip := b.trip, hot := b.hot
              present := b.present, flash := b.flash } }
  (bitList b.present 16).foldl (fun s n => setOn s (sockPresent n)) z

/-- R448, R540, R544: a start begins: phase RESET, new keys, a new nonce, TS from 0 (R550); THERMTRIP# is released (R587). -/
def beginStart (s : State) : State :=
  { s with
    powered := true, ts := 0
    sec := { s.sec with zeroed := false, nonce := s.sec.nonce + 1 }
    boot := { s.boot with phase := 0, trip := false } }

/-- R589, R590: the start begins once PWR_OK is asserted, PERST# is deasserted and the reference clocks are stable, unless
PERST# must first be asserted. -/
def tryStart (s : State) : State :=
  if s.boot.pwrOk && !s.boot.perst && s.boot.clocks && !s.boot.held && !s.powered then beginStart s else s

/-- R501: a thermal trip: THERMTRIP# is asserted, and only a PERST# cycle starts the module again. -/
def thermalTrip (s : State) : State :=
  let s := moduleReset s
  { s with boot := { s.boot with trip := true, hot := true, held := true } }

end Sys2Proof.Machine
end

