-- ==== Sys2Proof/Machine/Power.lean ====
section
/-!
DEFINITION. The rows of power and temperature (R491 to R501).
-/
namespace Sys2Proof.Machine

/-- The power-management core's firmware runs. -/
def pmcRuns (s : State) : Bool := s.powered && fwRuns s 1

/-! ## The power limit (R497, R504) -/

/-- R504: LIMIT_W, at the nearer limit. -/
def limitW (s : State) : Nat := max 600 (min 2400 (getF s pmcLimit))

/-- The mean of measurements. -/
def meanOf (xs : List Nat) : Nat := if xs.isEmpty then 0 else xs.foldl (· + ·) 0 / xs.length

/-- R505: the largest mean of ten successive measurements (100 µs). -/
def peakOf (xs : List Nat) : Nat :=
  if xs.length < 10 then meanOf xs
  else (List.range (xs.length - 9)).foldl (fun a i => max a (meanOf ((xs.drop i).take 10))) 0

/-- R497: the projection at a device target. (DESIGN CHOICE, log entry 82.) -/
def projected (s : State) (target : Nat) : Nat :=
  Config.powerProjection ((List.range 16).filter (fun cl => decide (getF s (clState cl) ≤ 1))).length target (getF s pmcInput)

/-- R497: the next device target: steps of 50 MHz down while the projection exceeds the limit, or one step up while the
projection there stays below 0.97 of it. -/
def nextTarget (s : State) : Nat :=
  let t := s.pmc.target
  if limitW s < projected s t then
    match (List.range 28).find? (fun i => decide (50 * (i + 1) + 400 ≤ t) && decide (projected s (t - 50 * (i + 1)) ≤ limitW s)) with
    | some i => t - 50 * (i + 1)
    | none => 400
  else if t + 50 ≤ 1800 ∧ 100 * projected s (t + 50) < 97 * limitW s then t + 50
  else t

/-- POWER_SAMPLE (R497). -/
def execPowerSample (watts : Nat) (s : State) : Out := whenOn s <|
  .next (
    if !pmcRuns s then s
    else
      let xs := (watts :: s.pmc.samples).take 100
      let s := { s with pmc := { s.pmc with samples := xs } }
      let s := setF (setF s pmcInput (min 4095 (meanOf xs))) pmcPeak (min 4095 (peakOf xs))
      let t := nextTarget s
      setB { s with pmc := { s.pmc with target := t } } pmcLimiting (decide (t < 1800)))

/-- PMC_LIMIT_WRITE (R504): ignored in reduced mode. -/
def execPmcLimitWrite (value : Nat) (s : State) : Out := whenOn s <| inOrder (.pmcLimitWrite value) s <|
  .next (if !s.boot.reduced then setF s pmcLimit value else s)

/-- OPERATING_POINT_CHANGE (R495, R496): a cluster in RUN or IDLE moves to the clock chosen for it. -/
def execOperatingPointChange (cl mhz : Nat) (s : State) : Out := whenOn s <|
  .next (
    if pmcRuns s && decide (cl < 16) && decide (getF s (clState cl) ≤ 1) && decide (movingOf s cl = 0) && !heldSlow s &&
        decide (mhz = chosenMhz s cl) then setPoint cl mhz s
    else s)

/-! ## Temperatures (R498, R500, R501) -/

/-- A sensor's reading: clusters have four each, the base die sixteen. -/
def tempAt (temps : List Nat) (i : Nat) : Nat := nth 0 temps i
/-- The hottest sensor of a cluster. -/
def hottest (temps : List Nat) (cl : Nat) : Nat := (List.range 4).foldl (fun a i => max a (tempAt temps (4 * cl + i))) 0
/-- The hottest sensor of the base die. -/
def hottestBase (temps : List Nat) : Nat := (List.range 16).foldl (fun a i => max a (tempAt temps (64 + i))) 0
/-- The hottest of all. -/
def hottestAll (temps : List Nat) : Nat := temps.foldl max 0

/-- R500: a cluster's thermal cap after a measurement: 50 MHz lower above 95 °C, 50 MHz higher after each 1 ms below 90 °C. -/
def thermalCap (t cl : Nat) (s : State) : State :=
  let cap := capThermal s cl
  let n := if t < 90 then tget 0 s.pmc.cool cl + 1 else 0
  let cap' := if 95 < t then max 400 (cap - 50) else if n = 100 then min 1800 (cap + 50) else cap
  { s with pmc := { s.pmc with
    thermal := tset 1800 s.pmc.thermal cl cap'
    cool := tset 0 s.pmc.cool cl (if n = 100 then 0 else n) } }

/-- R498: how far a cluster is above a neighbour not in COLD, or above the base-die region beneath it. -/
def hotterBy (temps : List Nat) (s : State) (cl : Nat) : Nat :=
  let t := hottest temps cl
  (liveNeighbours s cl).foldl (fun a n => max a (t - hottest temps n)) (t - tempAt temps (64 + cl))

/-- R498: the cap of the gradient rules after a measurement: 50 MHz lower from a difference of 30 °C on, 400 MHz from one of
35 °C on, until it falls below 30 °C. (DEDUCED, log entry 83.) -/
def gradientCap (temps : List Nat) (cl : Nat) (s : State) : State :=
  let d := hotterBy temps s cl
  let cap := capGradient s cl
  let cap' := if getF s (clState cl) = 3 ∨ d < 30 then 1800 else if 35 ≤ d then 400 else max 400 (cap - 50)
  { s with pmc := { s.pmc with gradient := tset 1800 s.pmc.gradient cl cap' } }

/-- R500: the hold above 105 °C is entered or left. -/
def thermalHold (temps : List Nat) (s : State) : State :=
  let t := hottestAll temps
  if 105 < t ∧ isOn s pmcHold = false then errEvent 0x0A (agFw 1) 0 0 (t % 256) 0 (setOn s pmcHold)
  else if t < 100 ∧ isOn s pmcHold then errEvent 0x0A (agFw 1) 0 0 (t % 256) 0 (setOff s pmcHold)
  else s

/-- R500, R505: what a measurement below the trip does. -/
def thermalPass (temps : List Nat) (s : State) : State :=
  let t := hottestAll temps
  let s := (List.range 16).foldl (fun s cl => setF s (clTemp cl) (hottest temps cl)) s
  let site := ((List.range 16).find? (fun cl => decide (hottest temps cl = t))).getD 16
  let s := thermalHold temps (setF (setF s pmcTjMax t) pmcHotSite site)
  let s := if isOn s pmcHold then holdSlow s else s
  let s := if t < 100 then { s with boot := { s.boot with hot := false } } else s
  if pmcRuns s then (List.range 16).foldl (fun s cl => gradientCap temps cl (thermalCap (hottest temps cl) cl s)) s else s

/-- THERMAL_SAMPLE (R500): 80 readings in °C: four for each cluster, then the base die's sixteen. -/
def execThermalSample (temps : List Nat) (s : State) : Out := whenOn s <|
  .next (
    if decide (temps.length ≠ 80) then s
    else if 115 < hottestAll temps then thermalTrip s
    else thermalPass temps s)

/-! ## Power states (R491 to R493) -/

/-- R491: whether a cluster has work: a resident consort, an engine or sprue command that has started. -/
def clusterBusy (s : State) (cl : Nat) : Bool :=
  (coresOf cl).any (fun g => (coreOf s g).consorts.any (fun e => e.2.live)) ||
    (clusterOf s cl).queues.any (fun e => e.2.any (fun m => m.started && !m.done)) ||
    (List.range 8).any (fun ch => decide ((chanOf s cl ch).phase ≠ .free))

/-- IDLE_ENTRY (R491). -/
def execIdleEntry (cl : Nat) (s : State) : Out := whenOn s <|
  .next (
    if decide (cl < 16) && decide (getF s (clState cl) = 0) && decide (movingOf s cl = 0) && !clusterBusy s cl then
      enterState cl 1 s
    else s)

/-- Whether a casting holds a cluster or the claimant waits for it (R493). -/
def clusterWanted (s : State) (cl : Nat) : Bool :=
  (clusterOf s cl).casting.isSome || (match s.sch.claimant with | some c => bit c.mask cl | none => false)

/-- When a cluster entered its power state. -/
def sinceOf (s : State) (cl : Nat) : Nat := tget 0 s.pmc.since cl

/-- CHILL_DELAY_EXPIRY (R493): a wake request wins over the order. -/
def execChillDelayExpiry (cl : Nat) (s : State) : Out := whenOn s <|
  .next (
    if pmcRuns s && decide (cl < 16) && decide (getF s (clState cl) = 1) && decide (movingOf s cl = 0) && !clusterWanted s cl &&
        !clusterBusy s cl && decide (getF s (clChillDelay cl) ≠ 0) && !s.pmc.wake.contains cl && !clusterReserved s cl && !flasked s (agTundish cl) then
      setMoving cl 1 (timeTo (sinceOf s cl + 250 * getF s (clChillDelay cl)) s)
    else s)

/-- COLD_DELAY_EXPIRY (R493). -/
def execColdDelayExpiry (cl : Nat) (s : State) : Out := whenOn s <|
  .next (
    if pmcRuns s && decide (cl < 16) && decide (getF s (clState cl) = 2) && decide (movingOf s cl = 0) && !clusterWanted s cl &&
        isOn s (clColdEn cl) && !s.pmc.wake.contains cl then
      setMoving cl 2 (timeTo (sinceOf s cl + 25000 * max 1 (getF s (clColdDelay cl))) s)
    else s)

/-- CHILL_ENTRY_COMPLETE (R492). -/
def execChillEntryComplete (cl : Nat) (s : State) : Out := whenOn s <|
  .next (if decide (cl < 16) && decide (movingOf s cl = 1) then toChill cl s else s)

/-- COLD_ENTRY_COMPLETE (R492). -/
def execColdEntryComplete (cl : Nat) (s : State) : Out := whenOn s <|
  .next (if decide (cl < 16) && decide (movingOf s cl = 2) then toCold cl s else s)

/-- A wake request is read. -/
def wakeRead (cl : Nat) (s : State) : State := { s with pmc := { s.pmc with wake := s.pmc.wake.filter (fun x => decide (x ≠ cl)) } }

/-- WAKE_REQUEST (R493): a posted request is read; one that arrives while the cluster enters CHILL or COLD waits. -/
def execWakeRequest (cl : Nat) (s : State) : Out := whenOn s <|
  .next (
    if !pmcRuns s || !s.pmc.wake.contains cl || decide (movingOf s cl ≠ 0) then s
    else if 2 ≤ getF s (clState cl) ∧ s.pmc.retired.contains cl = false then setMoving cl 3 (wakeRead cl s)
    else wakeRead cl s)

/-- WAKE_COMPLETE (R492): a commit that has waited for the cluster's clock is made before anything else (R328). -/
def execWakeComplete (cl : Nat) (s : State) : Out := whenOn s <|
  .next (
    if decide (16 ≤ cl) || decide (movingOf s cl ≠ 3) then s
    else if getF s (clState cl) = 3 then fromCold cl s
    else clusterUp cl (applyPending cl s))

end Sys2Proof.Machine
end

