-- ==== Sys2Proof/Machine/Spdm.lean ====
section
/-!
DEFINITION. The DOE mailbox, the CDAT, SPDM and attestation (R435 to R437, R535 to R539).  A response is a list of
numbers: its code and its fields.  SPDM's codes and orders are those of SPDM 1.3 (PRESUMED, log entry 40).
-/
namespace Sys2Proof.Machine

/-! ## The mailbox (R436) -/

/-- The security core answers the request in the mailbox. -/
def doeAnswer (r : List Nat) (s : State) : State :=
  { s with hpt := { s.hpt with doe := r, doeReady := true, doeReq := none } }

/-- Whether the security core answers a request of one of these kinds now. -/
def doeOpen (s : State) (kinds : List Nat) : Bool :=
  s.powered && fwRuns s 0 && (match s.hpt.doeReq with | some k => kinds.contains k | none => false)

/-- DOE_REQUEST (R436): 0 DOE Discovery, answered at once with the supported protocols (vendor, type); 1 CMA/SPDM,
2 Secured CMA/SPDM, 3 Table Access; an object of another kind is discarded. -/
def execDoeRequest (kind : Nat) (s : State) : Out := whenOn s <|
  .next (
    if decide (3 < kind) then s
    else if s.hpt.doeReq.isSome then { s with hpt := { s.hpt with doeError := true } }
    else
      let s := { s with hpt := { s.hpt with doe := [], doeReady := false, doeReq := some kind } }
      if kind = 0 ∧ fwRuns s 0 then doeAnswer [1, 0, 1, 1, 1, 2, 0x1E98, 2] s else s)

/-- DOE_ABORT (R436). -/
def execDoeAbort (s : State) : Out := whenOn s <|
  .next ({ s with hpt := { s.hpt with doe := [], doeReady := false, doeReq := none, doeError := false } })

/-! ## Table Access (R435) -/

/-- The entries of one range: DSMAS (base, length, read-only), DSLBIS latency (unstated, so free) and bandwidth in
units of 100 MB/s (R20). -/
def cdatRange (s : State) (h base len ro bw : Nat) : List (List Nat) :=
  [[0, h, base, len, ro], [1, h, 0, freeNat s], [1, h, 3, bw]]

/-- R435: the CDAT's entries. -/
def cdatEntries (s : State) : List (List Nat) :=
  cdatRange s 0 0 0x009000000000 0 307000 ++
    ((List.range 16).filter (socketMapped s)).flatMap (fun n =>
      cdatRange s (1 + 2 * n) (rawLoc n 0) 0x004000000000 0 1536 ++
        cdatRange s (2 + 2 * n) (0x100000000000 + n * 0x010000000000) 0x010000000000 1 1536)

/-- TABLE_ACCESS (R435): one entry, after the number of the next or 0xFFFF. -/
def execTableAccess (entry : Nat) (s : State) : Out := whenOn s <|
  .next (
    if doeOpen s [3] then
      let es := cdatEntries s
      bumpFree (doeAnswer ((if entry + 1 < es.length then entry + 1 else 0xFFFF) :: nth [] es entry) s) 1
    else s)

/-! ## SPDM (R437) -/

/-- An SPDM message is answered, where one is in the mailbox. -/
def spdm (s : State) (f : State → List Nat × State) : State :=
  if doeOpen s [1, 2] then
    let r := f s
    doeAnswer r.1 r.2
  else s

/-- An ERROR response with its code. (PRESUMED, log entry 40.) -/
def spdmError (code : Nat) (s : State) : List Nat × State := ([0x7F, code], s)

/-- Replace the SPDM state. -/
def setSpdm (x : Spdm) (s : State) : State := { s with hpt := { s.hpt with spdm := x } }

/-- GET_VERSION (R437): SPDM 1.3; the negotiation begins afresh. -/
def execGetVersion (s : State) : Out := whenOn s <|
  .next (spdm s (fun s => ([0x04, 0x13], setSpdm { s.hpt.spdm with version := true, caps := false, algs := false } s)))

/-- GET_CAPABILITIES (R437). -/
def execGetCapabilities (s : State) : Out := whenOn s <|
  .next (spdm s (fun s =>
    if s.hpt.spdm.version then ([0x61], setSpdm { s.hpt.spdm with caps := true } s) else spdmError 4 s))

/-- NEGOTIATE_ALGORITHMS (R437): the masks offered must hold ECDSA P-384, SHA-384, ECDHE P-384 and AES-256-GCM. -/
def execNegotiateAlgorithms (asym hash dhe aead : Nat) (s : State) : Out := whenOn s <|
  .next (spdm s (fun s =>
    if !s.hpt.spdm.caps then spdmError 4 s
    else if bit asym 7 && bit hash 1 && bit dhe 4 && bit aead 1 then
      ([0x63, 0x80, 0x02, 0x10, 0x02], setSpdm { s.hpt.spdm with algs := true } s)
    else spdmError 1 s))

/-- A message that needs the algorithms negotiated. -/
def spdmReady (s : State) (f : State → List Nat × State) : State :=
  spdm s (fun s => if s.hpt.spdm.algs then f s else spdmError 4 s)

/-- GET_DIGESTS (R437, R537): the one chain, in slot 0. -/
def execGetDigests (s : State) : Out := whenOn s <|
  .next (spdmReady s (fun s => ([0x01, 1, Config.sha384 Config.certChain], s)))

/-- GET_CERTIFICATE (R537): a portion of the chain, its length and what remains. -/
def execGetCertificate (slot off len : Nat) (s : State) : Out := whenOn s <|
  .next (spdmReady s (fun s =>
    if slot ≠ 0 then spdmError 1 s
    else
      let bs := (Config.certChain.drop off).take len
      ([0x02, 0, bs.length, Config.certChain.length - off - bs.length] ++ bs.map (fun b => b.toNat), s)))

/-- CHALLENGE (R437): the digest of the chain, the responder's nonce and a signature. -/
def execChallenge (slot nonce : Nat) (s : State) : Out := whenOn s <|
  .next (spdmReady s (fun s =>
    if slot ≠ 0 then spdmError 1 s
    else
      let n := freeNat s
      let d := Config.sha384 Config.certChain
      ([0x03, d, n, Config.deviceSign [0x03, d, n, nonce]], bumpFree s 1)))

/-- The slot of a TARGET that the directory names. -/
def dirSlot (s : State) (t : Nat) : Nat := tget 0 s.boot.dir.slots t

/-- DIGEST and IMAGE_VER of slot `k` of a TARGET. -/
def dirImage (s : State) (t k : Nat) : List Nat := [tget 0 s.boot.dir.digests (2 * t + k), tget 0 s.boot.dir.vers (2 * t + k)]

/-- R538: the clusters that are not retired and run slot `k`. -/
def clustersOn (s : State) (k : Nat) : Nat :=
  testMask 16 (fun cl => !s.pmc.retired.contains cl && decide (b2n (bit s.boot.dir.clSlots cl) = k))

/-- R538: one measurement, from one reading of the directory and DBG_STATE (R539). -/
def measurement (s : State) (i : Nat) : Option (List Nat) :=
  if i = 1 then some [Config.romDigest]
  else if i = 2 then some (dirImage s 3 (dirSlot s 3))
  else if i = 3 then some (dirImage s 0 (dirSlot s 0))
  else if i = 4 then some (dirImage s 1 (dirSlot s 1))
  else if i = 5 then some ([0, 1].flatMap (fun k =>
    if clustersOn s k = 0 then [] else dirImage s 2 k ++ [clustersOn s k]))
  else if i = 6 then some [Config.sha384 (s.boot.image.take (fieldOf s.boot.image 12 4)), s.boot.cfgSrc, b2n s.boot.reduced]
  else if i = 7 then some [getF s dbgState]
  else if i = 8 then some [s.boot.abi]
  else none

/-- The blocks of one index, or of all (255). -/
def measured (s : State) (i : Nat) : Option (List Nat) :=
  if i = 255 then some ((List.range 8).flatMap (fun k => (k + 1) :: (measurement s (k + 1)).getD []))
  else (measurement s i).map (fun m => i :: m)

/-- GET_MEASUREMENTS (R538, R539): index 0 asks for their number. -/
def execGetMeasurements (index : Nat) (signed : Bool) (nonce : Nat) (s : State) : Out := whenOn s <|
  .next (spdmReady s (fun s =>
    if index = 0 then ([0x60, 8], s)
    else
      match measured s index with
      | none => spdmError 1 s
      | some m =>
        if signed then ([0x60] ++ m ++ [freeNat s, Config.deviceSign ([0x60] ++ m ++ [freeNat s, nonce])], bumpFree s 1)
        else ([0x60] ++ m, s)))

/-- R437: the sessions in use. -/
def sessionOf (s : State) (k : Nat) : Nat := tget 0 s.hpt.spdm.sessions k

/-- Set a session's state. -/
def setSession (k v : Nat) (s : State) : State :=
  setSpdm { s.hpt.spdm with sessions := tset 0 s.hpt.spdm.sessions k v } s

/-- KEY_EXCHANGE (R437): one of 4 concurrent sessions begins. -/
def execKeyExchange (reqId : Nat) (s : State) : Out := whenOn s <|
  .next (spdmReady s (fun s =>
    match (List.range 4).find? (fun k => decide (sessionOf s k = 0)) with
    | none => spdmError 0x0A s
    | some k => ([0x64, k, freeNat s, Config.deviceSign [0x64, reqId, k, freeNat s]], bumpFree (setSession k 1 s) 1)))

/-- FINISH (R437): `ok` tells whether the requester's proof verifies. -/
def execFinish (session : Nat) (ok : Bool) (s : State) : Out := whenOn s <|
  .next (spdmReady s (fun s =>
    if 4 ≤ session ∨ sessionOf s session ≠ 1 then spdmError 4 s
    else if ok then ([0x65], setSession session 2 s)
    else spdmError 6 (setSession session 0 s)))

/-- A message within an established session. -/
def inSession (session : Nat) (s : State) (f : State → List Nat × State) : State :=
  spdmReady s (fun s => if session < 4 ∧ sessionOf s session = 2 then f s else spdmError 2 s)

/-- HEARTBEAT (R437). -/
def execHeartbeat (session : Nat) (s : State) : Out := whenOn s <| .next (inSession session s (fun s => ([0x68], s)))
/-- KEY_UPDATE (R437). -/
def execKeyUpdate (session : Nat) (s : State) : Out := whenOn s <| .next (inSession session s (fun s => ([0x69], s)))
/-- END_SESSION (R437). -/
def execEndSession (session : Nat) (s : State) : Out := whenOn s <| .next (inSession session s (fun s => ([0x6C], setSession session 0 s)))

end Sys2Proof.Machine
end

