-- ==== Sys2Proof/Machine/Boot.lean ====
section
/-!
DEFINITION. The rows of start-up and of the firmware processors (R448 to R488, R589, R590).
-/
namespace Sys2Proof.Machine

/-! ## Pins (R448, R541, R585, R589, R590) -/

/-- PWR_OK_ASSERT (R589): the always-on domain runs; with an input outside its range R585 gives no behaviour.
(DESIGN CHOICE, log entry 98.) -/
def execPwrOkAssert (railsInRange : Bool) (s : State) : Out :=
  if !railsInRange then .fault .failingRails
  else .next (if s.boot.pwrOk then s else tryStart { s with aoTick := 0, fsub := 0, boot := { s.boot with pwrOk := true } })

/-- PWR_OK_DEASSERT (R502, R590): writes stop, keys are zeroised, the device holds in reset; PERST# must be asserted before
the next start. -/
def execPwrOkDeassert (s : State) : Out :=
  let s := moduleReset s
  .next { s with boot := { s.boot with pwrOk := false, trip := false, held := !s.boot.perst } }

/-- PERST_ASSERT (R503, R541). -/
def execPerstAssert (s : State) : Out :=
  let s := moduleReset s
  .next { s with boot := { s.boot with perst := true, held := false } }

/-- PERST_DEASSERT (R448). -/
def execPerstDeassert (s : State) : Out := .next (tryStart { s with boot := { s.boot with perst := false } })

/-- REFERENCE_CLOCK_STABLE (R589). -/
def execReferenceClockStable (s : State) : Out := .next (tryStart { s with boot := { s.boot with clocks := true } })

/-! ## Phases (R448, R460 to R463) -/

/-- CONFIG (R462, R501): an external programmer's writes are what the flash then holds (R454). -/
def execConfig (progA progB : Option (List Byte)) (s : State) : Out := whenOn s <|
  .next (
    if decide (s.boot.phase = 0) && !s.boot.hot then
      let f := s.boot.flash
      pageUpdate (chooseConfig { s with boot := { s.boot with
        flash := { f with cfgA := progA.getD f.cfgA, cfgB := progB.getD f.cfgB } } })
    else s)

/-- R448: the start cannot complete. -/
def failStart (code sub : Nat) (s : State) : State :=
  pageUpdate { s with boot := { s.boot with phase := 7, failCode := code, failSub := sub } }

/-- R448: phase MEMORY ends when every HBM_READY bit is 1 and the second stage runs. -/
def memoryDone (s : State) : State :=
  if s.boot.phase = 2 ∧ getF s hbmReady = 0xFFF ∧ s.boot.s2Runs = true then pageUpdate { s with boot := { s.boot with phase := 3 } } else s

/-- R460: the channels of a stack that the fault map marks and that now pass full training. -/
def retrained (s : State) (stack : Nat) : List Nat := (bitList (s.boot.map.hbm / 2 ^ (32 * stack)) 32)

/-- R460: a marked channel is used again: its bit leaves the live map, and an entry records it. -/
def unmarkHbm (stack : Nat) (s : State) : State :=
  let cs := retrained s stack
  let m := cs.foldl (fun m c => setBit m (32 * stack + c) false) s.boot.map.hbm
  cs.foldl (fun s c => errEvent 0x05 (agHbm stack) 0 0 c 0 s) { s with boot := { s.boot with map := { s.boot.map with hbm := m } } }

/-- HBM_READY (R258, R433, R460). -/
def execHbmReady (stack : Nat) (trained : Bool) (s : State) : Out := whenOn s <|
  .next (
    if decide (s.boot.phase = 2) && decide (stack < 12) && !stackReady s stack then
      if !trained then failStart 0x31 0x14 s
      else
        let s := setF (unmarkHbm stack s) hbmReady (setBit (getF s hbmReady) stack true)
        memoryDone (if getF s hbmReady = 0xFFF then setOn s hptMemActive else s)
    else s)

/-- SECOND_STAGE_VERIFIED (R462, R535): `aOk` and `bOk` say which flash copies pass.  IMAGE_VER and DIGEST of a copy that this
run has not written are whatever the manufacturer put there: free values. -/
def execSecondStageVerified (aOk bOk : Bool) (s : State) : Out := whenOn s <|
  .next (
    if decide (s.boot.phase = 2) && !s.boot.s2Runs then
      if !aOk && !bOk then failStart 0x22 0x27 s
      else
        let bs := if aOk then s.boot.flash.s2A else s.boot.flash.s2B
        let ver := if bs.isEmpty then freeNat s % 2 ^ 32 else fieldOf bs 12 4
        let dig := if bs.isEmpty then freeNat (bumpFree s 1) else fieldOf bs 32 48
        let s := bumpFree s 2
        let d := s.boot.dir
        let s := { s with boot := { s.boot with
          s2Src := b2n (!aOk), s2Runs := true, dir := { d with vers := tset 0 d.vers 6 ver, digests := tset 0 d.digests 6 dig } } }
        memoryDone (restartWdt 0 (setF (setF s (fwState 0) 1) (fwImageVer 0) ver))
    else s)

/-- DC_READY (R261, R457, R460). -/
def execDcReady (socket : Nat) (trained : Bool) (s : State) : Out := whenOn s <|
  .next (
    if decide (socket < 16) && decide (getF s (sockState socket) = 1) then
      if trained then setSocket socket 2 (setF s dcReady (setBit (getF s dcReady) socket true))
      else errEvent 0x05 (agDeep socket) 0 0 0 0 s
    else s)

/-! ## Firmware loads (R465 to R467, R473) -/

/-- BOOT_GO (R465): a write of SEC_BOOT_CTL with GO. -/
def bootGo (target : Nat) (s : State) : State :=
  if 3 < target then s
  else if s.boot.phase = 4 ∨ s.boot.phase = 7 ∨ isOn s bootBusy = true then setOn s bootGoLost
  else setOn { s with boot := { s.boot with load := some (target, getF s bootSrc * 4096) } } bootBusy

/-- BOOT_GO (R465). -/
def execBootGo (target : Nat) (s : State) : Out := whenOn s <| inOrder (.bootGo target) s <| .next (bootGo target s)

/-- R473, R535: header and body of an image of a TARGET pass their check. -/
def imageOk (target : Nat) (im : List Byte) : Bool :=
  let n := fieldOf im 16 4
  decide (fieldOf im 0 4 = 0x4E564657) && decide (fieldOf im 4 2 = 1) && decide (fieldOf im 6 1 = target) && decide (fieldOf im 7 1 = 0) &&
    decide (n % 4096 = 0) && decide (4096 ≤ n) && decide (n ≤ 8384512) && decide (fieldOf im 20 4 < n) && decide (fieldOf im 20 4 % 8 = 0) &&
    zeroAt im 24 8 && zeroAt im 176 80 && decide (Config.sha384 ((im.drop 256).take n) = fieldOf im 32 48) &&
    Config.signatureOk 0 (im.take 176)

/-- Whether a range of HBM holds a poisoned line. -/
def rangePoisoned (s : State) (loc n : Nat) : Bool := (List.range (n / 128)).any (fun i => poisoned s (loc + 128 * i))

/-- Whether `n` bytes from a DPA are HBM under selector 0. -/
def inHbm (dpa n : Nat) : Bool := decide (keyselOf dpa = 0) && decide (locOf dpa + n ≤ 0x009000000000)

/-- `n` bytes of HBM as selector 0 reads them. -/
def hbmBytes (s : State) (dpa n : Nat) : List Byte := readSpan s (keyTag s 0) (n / 128 + 1) (locOf dpa) n

/-- R465, R466, R467: the outcome of a load: code and subcode. (DEDUCED, log entry 84.) -/
def loadOutcome (s : State) (target dpa : Nat) : Nat × Nat :=
  let h := hbmBytes s dpa 256
  let n := 256 + fieldOf h 16 4
  if getF s bootLoaded + 1 ≠ 2 ^ target ∨ target = 3 then (0x22, 0x28)
  else if !inHbm dpa 256 then (0x22, 0x20)
  else if 8384768 < n ∨ rangePoisoned s (locOf dpa) 256 = true then (0x22, 0x27)
  else if !inHbm dpa n then (0x22, 0x20)
  else if rangePoisoned s (locOf dpa) n || !imageOk target (hbmBytes s dpa n) then (0x22, 0x27)
  else if target ≠ 0 ∧ fieldOf h 8 4 ≠ s.boot.abi then (0x22, 0x29)
  else (0, 0)

/-- R465, R475, R481: an image is copied into a slot of firmware storage. -/
def putImage (target slot : Nat) (im : List Byte) (s : State) : State :=
  (List.range ((im.length + 127) / 128)).foldl (fun s i =>
    putBytes 0 (0x008FF8000000 + 0x1000000 * target + 0x800000 * slot + 128 * i) ((im.drop (128 * i)).take 128) true false s) s

/-- A base-die processor starts from an image. -/
def startProc (p ver : Nat) (s : State) : State := restartWdt p (setF (setF s (fwState p) 1) (fwImageVer p) ver)

/-- R465: the target starts: one processor, or the control core of every cluster that is not retired, which reaches READY. -/
def startTarget (target : Nat) (h : List Byte) (s : State) : State :=
  let s := putImage target (dirSlot s target) h s
  let d := s.boot.dir
  let s := { s with boot := { s.boot with dir := { d with
    vers := tset 0 d.vers (2 * target) (fieldOf h 12 4), digests := tset 0 d.digests (2 * target) (fieldOf h 32 48) } } }
  if target = 0 then startProc 1 (fieldOf h 12 4) { s with boot := { s.boot with abi := fieldOf h 8 4 } }
  else if target = 1 then startProc 2 (fieldOf h 12 4) s
  else
    let s := ((List.range 16).filter (fun cl => !s.pmc.retired.contains cl)).foldl (fun s cl => fromCold cl s) s
    { s with boot := { s.boot with phase := 4 } }

/-- FIRMWARE_LOAD_COMPLETE (R465): the load in progress ends, once every HBM_READY bit is 1 and the second stage runs. -/
def execFirmwareLoadComplete (s : State) : Out := whenOn s <|
  .next (
    match s.boot.load with
    | none => s
    | some (target, dpa) =>
      if decide (s.boot.phase = 3) && fwRuns s 0 then
        let r := loadOutcome s target dpa
        let h := hbmBytes s dpa (256 + fieldOf (hbmBytes s dpa 256) 16 4)
        let s := setF (setF (setOff { s with boot := { s.boot with load := none } } bootBusy) bootCode r.1) bootSub r.2
        if r.1 = 0 then pageUpdate (startTarget target h (setF s bootLoaded (setBit (getF s bootLoaded) target true))) else s
      else s)

/-! ## Watchdogs (R477 to R479) -/

/-- The slot from which a processor's image comes (R476): its TARGET and slot. -/
def procImage (s : State) (p : Nat) : Nat × Nat :=
  if p = 0 then (3, dirSlot s 3) else if p = 1 then (0, dirSlot s 0) else if p = 2 then (1, dirSlot s 1)
  else (2, b2n (bit s.boot.dir.clSlots (p - 3)))

/-- The agent of a processor (R19). -/
def procAgent (p : Nat) : Nat := if p < 3 then agFw p else agEngine (p - 3) 7

/-- R478: what a processor had in its hands when its watchdog expired. -/
def procLost (p : Nat) (s : State) : State :=
  if p = 0 then
    let s := { s with hpt := { s.hpt with doeReq := none, doeError := s.hpt.doeError || s.hpt.doeReq.isSome, spdm := { s.hpt.spdm with sessions := [] } } }
    (startedQueues s 10).foldl (fun s q => endCommand q ⟨stTimeout, 0x11, 0x12, agFw 0, 0⟩ 0 s) s
  else if p = 1 then holdSlow s
  else if p = 2 then s
  else
    match (clusterOf s (p - 3)).casting with
    | some k => endCasting k ⟨stTimeout, 0x11, 0x12, agEngine (p - 3) 7, 0⟩ true (killChans k s)
    | none => s

/-- WATCHDOG_EXPIRY (R477, R478, R511). -/
def execWatchdogExpiry (proc : Nat) (s : State) : Out := whenOn s <|
  .next (
    if decide (proc < 19) && fwRuns s proc then
      let s := timeTo (tget 0 s.boot.wdt proc) s
      errEvent 0x09 (procAgent proc) 0 0 0 0 (procLost proc (setF s (fwState proc) 2))
    else s)

/-- RECOVERY_COMPLETE (R477, R479): the processor runs again from its directory slot; its durable state continues. -/
def execRecoveryComplete (proc : Nat) (s : State) : Out := whenOn s <|
  .next (
    if decide (proc < 19) && decide (getF s (fwState proc) = 2) then
      let im := procImage s proc
      startProc proc (tget 0 s.boot.dir.vers (2 * im.1 + im.2)) (incSat s (fwResets proc) 1)
    else s)

/-! ## Live update (R480 to R483) -/

/-- The clusters that are not retired. -/
def liveClusters (s : State) : Nat := testMask 16 (fun cl => !s.pmc.retired.contains cl)

/-- R480: TARGET of an FWLOAD. -/
def fwTarget (c : Cmd) : Nat := fieldOf c.bytes 24 1

/-- R39, R480: an FWLOAD's own fields. -/
def fwloadOk (c : Cmd) : Bool :=
  decide (fwTarget c ≤ 3) && (decide (fwTarget c = 2) || decide (fieldOf c.bytes 26 2 = 0)) && decide (fieldOf c.bytes 32 8 % 4096 = 0)

/-- R481: a failure of step 1. -/
def fwBad (sub : Nat) : Ending := protEnd sub (agFw 0) 0

/-- R483: whether the clusters that are not retired run two images. -/
def split (s : State) : Bool :=
  let on := s.boot.dir.clSlots &&& liveClusters s
  decide (on ≠ 0) && decide (on ≠ liveClusters s)

/-- Every page of a range translates into HBM; the first byte's address is given (at most `fuel` pages are looked at). -/
def hbmPages (a : Acc2) : Nat → Nat → State → State × Got Unit
  | 0, _, s => (s, .ok ())
  | fuel + 1, va, s =>
    match translate a va false s with
    | (s, .wait) => (s, .wait)
    | (s, .fail e) => (s, .fail e)
    | (s, .ok ta) =>
      match targetOf s ta with
      | .dev dpa =>
        (match placeOf (locOf dpa) with
         | .hbm _ => hbmPages a fuel (va + 4096) s
         | _ => (s, .fail (fwBad 0x11)))
      | _ => (s, .fail (fwBad 0x11))

/-- R481 step 1: the checks of an image of an FWLOAD; none where it passes. (DEDUCED, log entry 85.) -/
def fwRefusal (s : State) (c : Cmd) (im : List Byte) : Option Ending :=
  let t := fwTarget c
  let run := dirSlot s t
  if !imageOk (fieldOf im 6 1) im then some (fwBad 0x27)
  else if fieldOf im 6 1 ≠ t ∨ im.length ≠ 256 + fieldOf im 16 4 then some (fwBad 0x11)
  else if fieldOf im 8 4 ≠ s.boot.abi then some (fwBad 0x29)
  else if fieldOf im 12 4 = tget 0 s.boot.dir.vers (2 * t + run) then some (fwBad 0x11)
  else if t = 2 ∧ split s = true ∧ fieldOf im 32 48 ≠ tget 0 s.boot.dir.digests (2 * t + (1 - run)) then
    some ⟨stAborted, 0x61, 0x15, agFw 0, 0⟩
  else none

/-- R481: a checked image is in the slot that does not run; the handover begins: `work` holds the
clusters that remain and the new slot. -/
def fwStaged (q : Nat) (c : Cmd) (im : List Byte) (s : State) : State :=
  let t := fwTarget c
  let k := 2 * t + (1 - dirSlot s t)
  let s := putImage t (1 - dirSlot s t) im s
  let d := s.boot.dir
  let s := { s with boot := { s.boot with
    dir := { d with vers := tset 0 d.vers k (fieldOf im 12 4), digests := tset 0 d.digests k (fieldOf im 32 48) }
    flash := if t = 3 then { s.boot.flash with s2A := im, s2B := im } else s.boot.flash } }
  let m := fieldOf c.bytes 26 2
  setHead s q { c with stage := 1, work := [if m = 0 then liveClusters s else m &&& liveClusters s, 1 - dirSlot s t] }

/-- R481: an FWLOAD's image is copied and checked. -/
def fwloadRun (q : Nat) (c : Cmd) (s : State) : State :=
  let a : Acc2 := { cmdAccess s q with agent := agFw 0 }
  let va := fieldOf c.bytes 32 8
  let n := fieldOf c.bytes 40 4
  if c.stage ≠ 0 then s
  else if n < 4352 ∨ 8384768 < n then endCommand q (fwBad 0x27) 0 s
  else
    endWith q (hbmPages a ((n + 4095) / 4096) va s) (fun _ s =>
      match readSpanVa a va n s with
      | (s, .wait) => s
      | (s, .fail _) => endCommand q (fwBad 0x27) 0 s
      | (s, .ok im) =>
        match fwRefusal s c im with
        | some e => endCommand q e 0 s
        | none => fwStaged q c im s)

/-- FWLOAD (R481): the security core runs one at a time. -/
def execFwload (q : Nat) (s : State) : Out := whenOn s <|
  .next (
    if fwRuns s 0 && (startedQueues s 10).all (fun x => decide (x = q)) then cmdStep q 10 fwloadOk s (fwloadRun q) else s)

/-- HANDOVER (R482): the processor of TARGET 0, 1 or 3 restarts from the new slot; the FWLOAD is DONE. -/
def execHandover (q : Nat) (s : State) : Out := whenOn s <|
  .next (running q 10 s (fun c =>
    let t := fwTarget c
    let p := if t = 3 then 0 else t + 1
    if decide (c.stage = 1) && decide (t ≠ 2) && fwRuns s 0 && fwRuns s p then
      let k := 1 - dirSlot s t
      let d := s.boot.dir
      endCommand q okEnd 0
        (startProc p (tget 0 d.vers (2 * t + k)) { s with boot := { s.boot with dir := { d with slots := tset 0 d.slots t k } } })
    else s))

/-- R483: when all clusters run the new slot, the directory's slot of TARGET 2 is that one; once every cluster of the mask
has been handed over the FWLOAD is DONE. -/
def clustersDone (q left new : Nat) (c : Cmd) (s : State) : State :=
  let s := setHead s q { c with work := [left, new] }
  let live := liveClusters s
  let s :=
    if s.boot.dir.clSlots &&& live = (if new = 1 then live else 0) then
      { s with boot := { s.boot with dir := { s.boot.dir with slots := tset 0 s.boot.dir.slots 2 new } } }
    else s
  if left = 0 then endCommand q okEnd 0 s else s

/-- R483: the cluster that is handed over next: the lowest of the mask that holds no casting. -/
def nextHandover (s : State) (left : Nat) : Option Nat := (bitList left 16).find? (fun cl => (clusterOf s cl).casting.isNone)

/-- CLUSTER_HANDOVER (R483): the control core of a cluster that has one running restarts from the new slot. -/
def execClusterHandover (q cl : Nat) (s : State) : Out := whenOn s <|
  .next (running q 10 s (fun c =>
    let left := nth 0 c.work 0
    let new := nth 0 c.work 1
    if decide (c.stage = 1) && decide (fwTarget c = 2) && fwRuns s 0 then
      match (bitList left 16) with
      | [] => clustersDone q 0 new c s
      | _ =>
        if nextHandover s left = some cl ∧ getF s (fwState (3 + cl)) ≠ 2 then
          let d := s.boot.dir
          let s := { s with boot := { s.boot with dir := { d with clSlots := setBit d.clSlots cl (decide (new = 1)) } } }
          let s := if fwRuns s (3 + cl) then startProc (3 + cl) (tget 0 d.vers (4 + new)) s else s
          clustersDone q (setBit left cl false) new c s
        else s
    else s))

end Sys2Proof.Machine
end

