-- ==== Sys2Proof/Machine/Commit.lean ====
section
/-!
DEFINITION. The steps of a pour's commit, by a core or a sprue channel, and the pour token's events (R314 to R324, R326, R327).
-/
namespace Sys2Proof.Machine

/-- LOCK_REQUEST (R315): the next line's home, when it may start the transaction, invalidates the holders and locks it.  Agents
from 0x10000 on are sprue channels; one whose source is staged begins its lock phase (R326). -/
def execLockRequest (g : Nat) (s : State) : Out := whenOn s <|
  .next (
    if 0x10000 ≤ g then
      let e := (g - 0x10000) / 32
      let ch := (g - 0x10000) % 32
      let c := chanOf s e ch
      if c.stopping then s
      else chanLock e ch (if c.phase = .staged ∧ dFlag c.desc 1 = false then lockPhase e ch s else s)
    else
    match pourIn s g .locking with
    | none => s
    | some slot =>
      let l := (coreOf s g).ladle
      if l.requested.isSome then s
      else
        match nextLock l with
        | none => s
        | some x =>
          match takeLock g g (realLine (clOf g) x.line) s with
          | (s, .wait) => s
          | (s, .fail e) => failCourse g slot e s
          | (s, .ok ()) => setCore s g { coreOf s g with ladle := { (coreOf s g).ladle with requested := some x.line } })


/-- LOCK_GRANT (R316, R319): a grant reaches the core; with the last one the pour is committed. -/
def execLockGrant (g : Nat) (s : State) : Out := whenOn s <|
  .next (
    if 0x10000 ≤ g then chanGrant ((g - 0x10000) / 32) ((g - 0x10000) % 32) s
    else
    match pourIn s g .locking with
    | none => s
    | some slot =>
      let l := (coreOf s g).ladle
      match l.requested.bind (fun o => l.lines.find? (fun x => decide (x.line = o))) with
      | none => s
      | some x =>
        if grantPoison s g x then abortPourAt g slot 7 (realLine (clOf g) x.line) s
        else
          let l' := { l with
            lines := l.lines.map (fun y => if y.line = x.line then { y with locked := true } else y)
            firstGrant := true, requested := none }
          let s := setCore s g { coreOf s g with ladle := l' }
          if (nextLock l').isNone then setCourse s g slot { courseOf s g slot with pour := .publishing } else s)


/-- LOCK_TO (R316): the commit point has not come within LOCK_TO of the first grant.  Sprue
channels retry on their own (R326). -/
def execLockTo (g : Nat) (s : State) : Out := whenOn s <|
  .next (
    if 0x10000 ≤ g then
      let e := (g - 0x10000) / 32
      let ch := (g - 0x10000) % 32
      if (chanOf s e ch).phase ≠ .locking ∨ holdsToken s g = true ∨ (gangLines s e ch (fun x => x.locked)).isEmpty then s
      else if dFlag (chanOf s e ch).desc 1 then gangAbort e ch (chanAbortEnd e 1) s else chanConflict e ch s
    else
    match pourIn s g .locking with
    | none => s
    | some slot => if (coreOf s g).ladle.firstGrant then abortPour g slot 1 s else s)


/-- POUR_PUBLISH (R317): the next ladle line reaches its home; the last of them merges all (R318). -/
def execPourPublish (g : Nat) (s : State) : Out := whenOn s <|
  .next (
    if 0x10000 ≤ g then chanPublish ((g - 0x10000) / 32) ((g - 0x10000) % 32) s
    else
    match pourIn s g .publishing with
    | none => s
    | some slot =>
      let l := (coreOf s g).ladle
      match l.lines.find? (fun x => !x.merged) with
      | none => s
      | some x =>
        let l' := { l with lines := l.lines.map (fun y => if y.line = x.line then { y with merged := true } else y) }
        let s := setCore s g { coreOf s g with ladle := l' }
        if l'.lines.any (fun y => !y.merged) then s else publishAll g slot s)


/-- POUR_PUBLISH_DONE (R317, R321, R323): POUR.END completes. -/
def execPourPublishDone (g : Nat) (s : State) : Out := whenOn s <|
  .next (
    if 0x10000 ≤ g then chanPublished ((g - 0x10000) / 32) ((g - 0x10000) % 32) s
    else
    match pourIn s g .publishing with
    | none => s
    | some slot =>
      if (coreOf s g).ladle.lines.any (fun x => !x.merged) then s
      else
        let s := endPublish g s
        let c := { courseOf s g slot with pour := .closed, pourCode := 0, pourSub := 0, pourSerial := false, abortCount := 0 }
        let s := countCore g 0x0A 1 (retire g slot c s)
        let k := castingOf s (castingOfCourse s g slot)
        if k.ending.isSome || (clusterOf s (clOf g)).ended then clearCore (castingOfCourse s g slot) g s else s)

/-! ## The token's events (R322, R323) -/

/-- R324: the casting of the agent that gets the token shows it: that of a core's pour, or of a sprue transfer. -/
def noteSerialChan (agent : Nat) (s : State) : State :=
  match (chanOf s ((agent - 0x10000) / 32) ((agent - 0x10000) % 32)).casting with
  | some k => setCasting s k { castingOf s k with serialPour := true }
  | none => s

/-- TOKEN_GRANT (R322 to R324): the token is free, no pour is in its lock phase: the agent that
has waited longest gets it. -/
def execTokenGrant (agent : Nat) (s : State) : Out := whenOn s <|
  .next (
    if isOn s tokHeld || decide (s.tokens.head?.map (fun x => x.1) ≠ some agent) || pourLocking s then s
    else
      let s := showWait (setF (setOn s tokHeld) tokAgent (tokenId agent))
      if 0x10000 ≤ agent then noteSerialChan agent s
      else
        match pourIn s agent .waitToken with
        | some slot =>
          noteSerial agent slot (countCore agent 0x02 1 (setCourse s agent slot (openPour (courseOf s agent slot).abortPc true (courseOf s agent slot))))
        | none => s)

/-- TOKEN_TO (R323): the holder has not reached POUR.END within TOKEN_TO. -/
def execTokenTo (s : State) : Out := whenOn s <|
  .next (
    if !isOn s tokHeld then s
    else
      match s.tokens.head? with
      | none => s
      | some (agent, _) =>
        if 0x10000 ≤ agent then
          (if (chanOf s ((agent - 0x10000) / 32) ((agent - 0x10000) % 32)).phase = .publishing then s
           else endXfer ((agent - 0x10000) / 32) ((agent - 0x10000) % 32) (chanAbortEnd ((agent - 0x10000) / 32) 6) s)
        else
        match pourIn s agent .open with
        | some slot => abortPour agent slot 6 s
        | none => s)

end Sys2Proof.Machine
end

