-- ==== Sys2Proof/Machine/Cvt.lean ====
section
/-!
DEFINITION. The CVT class (R105, R177, R178, R597).
-/
namespace Sys2Proof.Machine

/-- MOD[12:8], the source format code. -/
def cvtSrc (b : InstrBits) : Nat := bits (fldMod b) 12 8
/-- MOD[7:3], the destination format code. -/
def cvtDst (b : InstrBits) : Nat := bits (fldMod b) 7 3

/-- The operand form of a SIMT format: FP64 is a pair. -/
def simtForm (code : Nat) : Form := if code = 3 then .pair else .reg
/-- The registers of a SIMT format. -/
def simtWords (code : Nat) : Nat := if code = 3 then 2 else 1
/-- The format of a code that is floating point in the SIMT pipelines. -/
def simtFmt (code : Nat) : Fmt := (fmtOf code false).getD fp32
/-- Whether a code is one of FP32, BF16, FP16 and FP64. -/
def simtFloat (code : Nat) : Bool := decide (code ≤ 3)

/-- D and A by their format codes; MOD[12:3] name them. -/
def sigCvt (b : InstrBits) : Sig := ⟨simtForm (cvtDst b), simtForm (cvtSrc b), .unused, .unused, 0x1FF8, none⟩

/-- A conversion of one operand. -/
def cvtOp (ok : Nat → Nat → Bool) (f : Course → Nat → Res) (g slot : Nat) (b : InstrBits) (s : State) : State :=
  aluOp (sigCvt b) (fun b => ok (cvtSrc b) (cvtDst b)) (simtWords (cvtDst b)) (fun c l =>
    f c (if cvtSrc b = 3 then opd64 c b.au (fldA b) l else opd c b.au (fldA b) l)) g slot b s

/-- F2I (R178). -/
def execF2i (g slot : Nat) (b : InstrBits) (s : State) : Out := whenFetched (wordOf 3 0 b) g slot s <|
  .next (cvtOp (fun src dst => simtFloat src && decide (dst = 4))
    (fun c x => f2i (simtFmt (cvtSrc b)) (aswRnd c) (aswSubn c) x) g slot b s)
/-- I2F (R178). -/
def execI2f (g slot : Nat) (b : InstrBits) (s : State) : Out := whenFetched (wordOf 3 1 b) g slot s <|
  .next (cvtOp (fun src dst => decide (src = 4) && simtFloat dst)
    (fun c x => i2f (simtFmt (cvtDst b)) (aswRnd c) (aswSubn c) x) g slot b s)
/-- F2F (R178). -/
def execF2f (g slot : Nat) (b : InstrBits) (s : State) : Out := whenFetched (wordOf 3 2 b) g slot s <|
  .next (cvtOp (fun src dst => simtFloat src && simtFloat dst)
    (fun c x => f2f (simtFmt (cvtSrc b)) (simtFmt (cvtDst b)) (aswRnd c) (aswSubn c) x) g slot b s)

/-- R162: elements in a packed word of a narrow format. -/
def packCount (code : Nat) : Nat := 32 / ((fmtOf code false).getD fp32).width

/-- R597: the exact quotient of an element and the scale; a quotient of an infinity and a zero, or of two infinities
or two zeros, is the NaN of R177's rows. -/
def packQuot (x s : FVal) : FVal × Bool :=
  if (isInfF x && isZeroF s) || (isZeroF x && isInfF s) then (.nan false, false) else divF x s

/-- R597: element `j` of a PACKN in lane `l`. (DEDUCED, log entry 17.) -/
def packElem (c : Course) (b : InstrBits) (l j : Nat) : Res :=
  let f := (fmtOf (cvtDst b) false).getD fp32
  let x := readF fp32 (aswSubn c) false (opd c b.au (fldA b + j) l)
  let s := readF fp32 (aswSubn c) false (opd c b.cu (fldC b) l)
  let q := packQuot x.1 s.1
  let rnd := if bit (fldMod b) 2 then Rnd.stochastic (stochThreshold (opd64 c true (fldB b) l) (8 * l + j)) else .nearestEven
  let z := toTensor f rnd (aswSubn c) q.1 q.2
  ⟨z.code, x.2 ||| s.2 ||| z.flags⟩

/-- PACKN (R597): E registers divided by the scale into one packed word. -/
def execPackn (g slot : Nat) (b : InstrBits) (s : State) : Out := whenFetched (wordOf 3 3 b) g slot s <|
  let e := packCount (cvtDst b)
  let w := ((fmtOf (cvtDst b) false).getD fp32).width
  .next (aluOp ⟨.reg, .run e, if bit (fldMod b) 2 then .upair else .unused, .reg, 0x1FFC, none⟩
    (fun b => decide (cvtSrc b = 0) && narrowCode (cvtDst b)) 1
    (fun c l => (List.range e).foldl (fun r j =>
      let z := packElem c b l j
      ⟨r.code + z.code * 2 ^ (w * j), r.flags ||| z.flags⟩) ⟨0, 0⟩) g slot b s)

/-- R597: element `j` of an UNPACKN in lane `l`. -/
def unpackElem (c : Course) (b : InstrBits) (l j : Nat) : Res :=
  let f := (fmtOf (cvtSrc b) false).getD fp32
  let x := readF f (aswSubn c) false (opd c b.au (fldA b) l / 2 ^ (f.width * j))
  let s := readF fp32 (aswSubn c) false (opd c b.cu (fldC b) l)
  let z := toTensor fp32 .nearestEven (aswSubn c) (mulF x.1 s.1).1 false
  ⟨z.code, x.2 ||| s.2 ||| z.flags⟩

/-- UNPACKN (R597): a packed word into E registers, each element multiplied by the scale. -/
def execUnpackn (g slot : Nat) (b : InstrBits) (s : State) : Out := whenFetched (wordOf 3 4 b) g slot s <|
  let e := packCount (cvtSrc b)
  .next (aluOp ⟨.run e, .reg, .unused, .reg, 0x1FF8, none⟩
    (fun b => decide (cvtDst b = 0) && narrowCode (cvtSrc b)) e
    (fun c l => (List.range e).foldl (fun r j =>
      let z := unpackElem c b l j
      ⟨r.code + z.code * 2 ^ (32 * j), r.flags ||| z.flags⟩) ⟨0, 0⟩) g slot b s)

end Sys2Proof.Machine
end

