-- ==== Sys2Proof/Machine/Approx.lean ====
section
/-!
DEFINITION. The TSE's functions of FP32 words (R208): exact values to hundreds of bits, and results within a number of ulps of
them. (DESIGN CHOICE, log entry 55.)
-/
namespace Sys2Proof.Machine

/-- The fraction bits of the fixed-point numbers here. -/
def apBits : Nat := 400

/-- ln 2 in fixed point: the sum of 1 / (k × 2^k). -/
def apLn2 : Nat := (List.range 410).foldl (fun a k => a + 2 ^ apBits / ((k + 1) * 2 ^ (k + 1))) 0

/-- e^r of a fixed-point r below ln 2, by its series: the sum so far and the term reached. -/
def apExpSeries (r : Nat) : Nat × Nat :=
  (List.range 100).foldl (fun (a : Nat × Nat) i => (a.1 + a.2, a.2 * r / 2 ^ apBits / (i + 1))) (0, 2 ^ apBits)

/-- A fixed-point number `m × 2^e`, cut to its fraction bits. -/
def apFix (m : Nat) (e : Int) : Nat :=
  if 0 ≤ e + apBits then m * 2 ^ (e + apBits).toNat else m / 2 ^ (-(e + apBits)).toNat

/-- e^x for x = m × 2^e below 2^11, m positive: a fixed-point number and the power of 2 it is to be multiplied by. -/
def apExp (m : Nat) (e : Int) : Nat × Nat :=
  let x := apFix m e
  ((apExpSeries (x % apLn2)).1, x / apLn2)

/-- Whether m × 2^e is at least 2^10, so that its exponential lies beyond FP32 on either side. -/
def apLarge (m : Nat) (e : Int) : Bool := decide (11 ≤ (bitLen m : Int) + e)

/-- R208: EXP of a finite x. -/
def expMag (neg : Bool) (m : Nat) (e : Int) : Mag :=
  if m = 0 then ⟨1, 0, false⟩
  else if apLarge m e then ⟨1, if neg then -2000 else 2000, true⟩
  else
    let z := apExp m e
    if neg then ⟨2 ^ (2 * apBits) / z.1, -(apBits : Int) - z.2, true⟩ else ⟨z.1, (z.2 : Int) - apBits, true⟩

/-- R208: TANH of a finite x of either sign. -/
def tanhMag (m : Nat) (e : Int) : Mag :=
  if m = 0 then ⟨0, 0, false⟩
  else if apLarge m e then ⟨2 ^ 60 - 1, -60, true⟩
  else
    let z := apExp m (e + 1)
    let y := z.1 * 2 ^ z.2
    ⟨(y - 2 ^ apBits) * 2 ^ 200 / (y + 2 ^ apBits), -200, true⟩

/-- The inverse hyperbolic tangent of a fixed-point z of at most 1/3, by its series. -/
def apAtanh (z : Nat) : Nat :=
  ((List.range 130).foldl (fun (a : Nat × Nat) i => (a.1 + a.2 / (2 * i + 1), a.2 * z / 2 ^ apBits * z / 2 ^ apBits)) (0, z)).1

/-- R208: LOG of a positive finite x: its sign and magnitude. -/
def logMag (m : Nat) (e : Int) : Bool × Mag :=
  let k := (bitLen m : Int) - 1 + e
  let top := 2 ^ (bitLen m - 1)
  if m = top ∧ k = 0 then (false, ⟨0, 0, false⟩)
  else
    let y : Int := k * apLn2 + 2 * (apAtanh ((m - top) * 2 ^ apBits / (m + top)) : Nat)
    (decide (y < 0), ⟨y.natAbs, -(apBits : Int), true⟩)

/-- A truncated result of 1 / √v: v positive, as `m × 2^e`. -/
def rsqrtMag (m : Nat) (e : Int) : Mag :=
  let h := (e - 1) / 2
  let y := shiftTo m e (2 * h)
  let n := 2 ^ (320 + 2 * bitLen y)
  let q := n / y
  let r := isqrtFrom (bitLen q / 2 + 1) q 0
  ⟨r, -h - 160 - bitLen y, decide (r * r ≠ q) || decide (n % y ≠ 0)⟩

/-- R208: a result at most `n` ulps from an exact one: where the exact one is no FP32 value, one of the values on either side of it;
which is a fixed function of the input's bits.  A magnitude of 2^128 or more has overflowed. -/
def withinUlps (n func x : Nat) (neg : Bool) (m : Mag) : Res :=
  if magPos m && decide (128 ≤ magLog2 m) then ⟨infCode fp32 neg, fOverflow⟩
  else
    let t := roundIeee fp32 .towardZero true false m
    let exact := decide (t.flags &&& fInexact = 0)
    let lo := if exact then n else n - 1
    let y : Int := (t.code : Int) + (Config.tseApprox func x % (lo + n + 1) : Nat) - lo
    let r := min y.natAbs (infCode fp32 false)
    ⟨signCode fp32 (neg != decide (y < 0)) + r, flagIf (decide (r = infCode fp32 false)) fOverflow⟩

/-- A result that R208 states no value for, a fixed function of the input's bits: a NaN is the canonical one (R160). -/
def tseOpen (func x : Nat) : Res :=
  let y := Config.tseApprox func x % 2 ^ 32
  ⟨match decodeF fp32 y with | .nan _ => nanCode fp32 | _ => y, 0⟩

/-- R208: FUNC 0 EXP, 1 LOG, 2 RCP, 3 RSQRT, 4 TANH of an FP32 word.  Where the function has no finite value, or x is infinite,
R208 states no result. -/
def tseApply (func x : Nat) : Res :=
  match decodeF fp32 x with
  | .nan _ => ⟨nanCode fp32, 0⟩
  | .inf _ => tseOpen func x
  | .fin n m e =>
    if func = 0 then withinUlps 2 0 x false (expMag n m e)
    else if func = 4 then withinUlps 2 4 x n (tanhMag m e)
    else if m = 0 then tseOpen func x
    else if func = 2 then withinUlps 1 2 x n (divMag 1 0 m e)
    else if n then tseOpen func x
    else if func = 3 then withinUlps 1 3 x false (rsqrtMag m e)
    else withinUlps 2 1 x (logMag m e).1 (logMag m e).2

end Sys2Proof.Machine
end

