-- ==== Sys2Proof/Machine/EngOps.lean ====
section
/-!
DEFINITION. What the six cluster engines share: operands in scratch, reads and writes through the tundish, and the
sticky flags (R204 to R206, R223, R284).
-/
namespace Sys2Proof.Machine

/-! ## Scratch operands (R204) -/

/-- A matrix of rows in scratch: offset, stride, rows, bytes of a row. -/
structure Span where
  off : Nat
  stride : Nat
  rows : Nat
  bytes : Nat

/-- R204: whether a span lies in the scratch ways. -/
def spanIn (s : State) (cl : Nat) (p : Span) : Bool := (List.range p.rows).all (fun r => runIn s cl (p.off + r * p.stride) p.bytes)

/-- R204: scratch offsets and strides are multiples of 8, and offsets have bits [31:24] at 0. -/
def spanAligned (p : Span) : Bool := decide (p.off % 8 = 0) && decide (p.stride % 8 = 0) && decide (p.off < 2 ^ 24)

/-- The lines of a run of scratch bytes, as LOCs. -/
def runLines (cl off n : Nat) : List Nat :=
  (List.range ((off % 128 + n + 127) / 128)).map (fun i => aperLoc cl (off / 128 * 128 + 128 * i))

/-- Whether a line of a run is locked by a pour. -/
def runBusy (s : State) (cl off n : Nat) : Bool := (runLines cl off n).any (fun l => lineBusy s (l / 128) none none none)

/-- R284: the first poisoned line of a run. -/
def runPoison (s : State) (cl off n : Nat) : Option Nat := (runLines cl off n).find? (poisoned s)

/-- Bytes of scratch. -/
def scrBytes (s : State) (cl off n : Nat) : List Byte := scrRead s (aperLoc cl off) n

/-- A number in scratch. -/
def scrNat (s : State) (cl off n : Nat) : Nat := leNat (scrBytes s cl off n)

/-- An engine writes bytes of scratch. -/
def scrPut (cl off : Nat) (bs : List Byte) (s : State) : State :=
  if bs.isEmpty then s
  else scrWrite (aperLoc cl off) bs ((runLines cl off bs.length).foldl (fun s l => noteWrite (l / 128) none s) s)

/-! ## Flags (R223) -/

/-- R223: engine `e` raises flags of a result. -/
def engFlags (cl e : Nat) (w : Word) (s : State) : State :=
  let one := fun (f : Word) (i : Nat) (s : State) => if w &&& f = 0 then s else setOn s (engFlag cl i)
  let s' := one fInvalid 0 (one fOverflow 1 (one fFlushed 2 (one fSaturated 3 s)))
  if w &&& (fInvalid ||| fOverflow ||| fFlushed ||| fSaturated) = 0 then s
  else setF s' (engSource cl) (getF s' (engSource cl) ||| 2 ^ e)

/-! ## Memory through the tundish (R206, R272) -/

/-- How an engine makes its accesses. -/
def engAccess (s : State) (cl qi k : Nat) : Acc2 := castingAccess s k (.engine cl qi) (agQueue cl qi) (some cl)

/-- A coherent read within one line through a cluster's tundish; `age` is the fill's. -/
def engRead (a : Acc2) (cl age va n : Nat) (s : State) : State × Got (List Byte) :=
  match translate a va false s with
  | (s, .wait) => (s, .wait)
  | (s, .fail e) => (s, .fail e)
  | (s, .ok ta) =>
    match targetOf s ta with
    | .win w off => winAccess a .rdReq w off va [] n 0 s
    | .dev dpa =>
      if lineBusy s (lineOf (locOf dpa)) none (some cl) none then (s, .wait)
      else
        let r := devRead s a.agent dpa n
        let s := readNote dpa r s
        (match r with
         | .ok _ => if cacheable dpa then tunRead cl (lineOf (locOf dpa)) age (keyTurn dpa s) else s
         | _ => s, r)
    | .host pa =>
      if s.hpt.cxlCache then
        if lineBusy s (hostLine pa) none (some cl) none then (s, .wait)
        else
          match obtainHost a.agent pa va s with
          | (s, .ok ()) => (tunRead cl (hostLine pa) age s, .ok (hostBytes s pa n))
          | (s, .wait) => (s, .wait)
          | (s, .fail e) => (s, .fail e)
      else hostRead a pa va n [] s

/-- A write within one line through a cluster's tundish, in the name of its casting's node (R60). -/
def engWrite (a : Acc2) (cl age va : Nat) (bs : List Byte) (s : State) : State × Got Unit :=
  asOwnerGot (clusterOwner s cl) (fun s => match translate a va true s with
  | (s, .wait) => (s, .wait)
  | (s, .fail e) => (s, .fail e)
  | (s, .ok ta) =>
    match targetOf s ta with
    | .win w off =>
      (match winAccess a .wr w off va bs bs.length (2 ^ 64 - 1) s with
       | (s, .ok _) => (s, .ok ())
       | (s, .wait) => (s, .wait)
       | (s, .fail e) => (s, .fail e))
    | .dev dpa =>
      let line := lineOf (locOf dpa)
      if lineBusy s line none (some cl) none then (s, .wait)
      else
        match writeBar s a.agent dpa with
        | .wait => (heldWake dpa s, .wait)
        | .fail e => (s, .fail e)
        | .ok () =>
          let s := beforeWrite dpa bs.length none s
          (putDev dpa bs false false (if cacheable dpa then tunWrite cl line age s else s), .ok ())
    | .host pa =>
      if s.hpt.cxlCache then
        if lineBusy s (hostLine pa) none (some cl) none then (s, .wait)
        else
          match obtainHost a.agent pa va s with
          | (s, .ok ()) =>
            let s := noteWrite (hostLine pa) none (tunWrite cl (hostLine pa) age s)
            (putHost pa bs s, .ok ())
          | (s, .wait) => (s, .wait)
          | (s, .fail e) => (s, .fail e)
      else (hostWrite a.who pa bs (noteWrite (hostLine pa) none s), .ok ())) s

/-- R206: every page of a unit that an engine writes is at hand before the unit begins. -/
def pagesReady (a : Acc2) (va n : Nat) (s : State) : State × Got Unit := translateRange a true (n / 4096 + 2) va n s

/-- A read of any length, line by line. -/
def engReadRange (a : Acc2) (cl age : Nat) : Nat → Nat → Nat → State → State × Got (List Byte)
  | 0, _, _, s => (s, .ok [])
  | fuel + 1, va, n, s =>
    if n = 0 then (s, .ok [])
    else
      let k := min n (128 - va % 128)
      match engRead a cl age va k s with
      | (s, .ok bs) =>
        (match engReadRange a cl age fuel (va + k) (n - k) s with
         | (s, .ok more) => (s, .ok (bs ++ more))
         | r => r)
      | r => r

/-- A read of a range. -/
def engReadAll (a : Acc2) (cl age va n : Nat) (s : State) : State × Got (List Byte) := engReadRange a cl age (n / 128 + 2) va n s

/-- R205: the bytes of a unit that an engine has still to write go out line by line; the command keeps what remains. -/
def flushOut (cl qi age : Nat) (a : Acc2) : Nat → SCmd → State → State × Got SCmd
  | 0, m, s => (s, .ok m)
  | fuel + 1, m, s =>
    if m.out.isEmpty then (s, .ok m)
    else
      let n := min m.out.length (128 - m.outVa % 128)
      match engWrite a cl age m.outVa (m.out.take n) s with
      | (s, .ok ()) =>
        let m := { m with out := m.out.drop n, outVa := m.outVa + n }
        flushOut cl qi age a fuel m (setHeadCmd cl qi m (endWaits a.who s))
      | (s, .wait) => (s, .wait)
      | (s, .fail e) => (s, .fail e)

/-! ## Running a command over rows of scratch -/

/-- The end of an engine's casting on a poisoned operand (R284). -/
def poisonStop (k : Nat) (loc : Nat) (s : State) : State := failCasting k (poisonEnd s loc) s

/-- What an engine whose operands are all in scratch does: its check, the offsets and strides that its fields give, the spans it
reads and writes, its output rows (its units, R205), what it reads for a row, and a row's meaning, which also takes and gives the
bytes that the engine buffers from one row to the next (R222). -/
structure LocalEngine where
  qi : Nat
  op : Nat
  ok : List Byte → Bool
  fields : List Byte → List Span
  reads : List Byte → List Span
  writes : List Byte → List Span
  rows : List Byte → Nat
  rowReads : List Byte → Nat → List Span
  row : Nat → List Byte → Nat → List Byte → State → State × List Byte × Word

/-- R204: the check of a local engine's command. -/
def localCheck (cl : Nat) (x : LocalEngine) (s : State) (m : SCmd) : Option Nat :=
  if !x.ok m.bytes || !(x.fields m.bytes).all spanAligned then some 0x11
  else if !(x.reads m.bytes ++ x.writes m.bytes).all (spanIn s cl) then some 0x1F
  else none

/-- Whether a span's lines are locked by a pour. -/
def spanBusy (s : State) (cl : Nat) (p : Span) : Bool := (List.range p.rows).any (fun r => runBusy s cl (p.off + r * p.stride) p.bytes)

/-- The first poisoned line of a span. -/
def spanPoison (s : State) (cl : Nat) (p : Span) : Option Nat :=
  (List.range p.rows).findSome? (fun r => runPoison s cl (p.off + r * p.stride) p.bytes)

/-- A unit of a local engine's command: one output row, once no line that the command touches is locked; one that reads poison ends
the casting (R284).  With its last row the command has been performed. (DEDUCED, log entry 54.) -/
def localTurn (cl k : Nat) (x : LocalEngine) (m : SCmd) (s : State) : State :=
  let bs := m.bytes
  if x.rows bs ≤ m.unit then doneHead cl x.qi s
  else if (x.reads bs ++ x.writes bs).any (spanBusy s cl) then s
  else
    match (x.rowReads bs m.unit).findSome? (spanPoison s cl) with
    | some loc => poisonStop k loc s
    | none =>
      let r := x.row cl bs m.unit m.out s
      let s := setHeadCmd cl x.qi { m with unit := m.unit + 1, out := r.2.1 } (engFlags cl (x.qi - 3) r.2.2 r.1)
      if x.rows bs ≤ m.unit + 1 then doneHead cl x.qi s else s

/-- A local engine's command starts, or goes on with its next row. -/
def localStep (cl : Nat) (x : LocalEngine) (s : State) : State := streamStep cl x.qi x.op (localCheck cl x) s (localTurn cl · x)

/-! ## Turns of a queue's head -/

/-- A queue's head while it has work left that a drain has not stopped (R205). -/
def headIs (cl qi : Nat) (s : State) : Option SCmd :=
  match streamQueue s cl qi with
  | m :: _ => if m.started && !m.done && (!m.stopped || m.mid) then some m else none
  | [] => none

/-- Whether a turn has moved the head on. -/
def moved (cl qi : Nat) (s t : State) : Bool :=
  match headIs cl qi s, streamQueue t cl qi with
  | some m, n :: _ => decide (m ≠ n)
  | _, _ => false

/-- Turns of a queue's head, as long as each moves it on. -/
def runTurns (cl qi : Nat) (turn : SCmd → State → State) : Nat → State → State
  | 0, s => s
  | n + 1, s =>
    match headIs cl qi s with
    | none => s
    | some m =>
      let t := turn m s
      if moved cl qi s t then runTurns cl qi turn n t else t

/-- Turns of a queue's head up to the end of the unit that it is at, as long as each moves it on (R205). -/
def runUnit (cl qi : Nat) (turn : SCmd → State → State) : Nat → State → State
  | 0, s => s
  | n + 1, s =>
    match headIs cl qi s with
    | none => s
    | some m =>
      let t := turn m s
      match headIs cl qi t with
      | some x => if moved cl qi s t && decide (x.unit = m.unit) then runUnit cl qi turn n t else t
      | none => t

/-! ## Elements -/

/-- R207: the formats of an engine's field that is not otherwise restricted. -/
def plainCode (c : Nat) : Bool := decide (c ≤ 2)

/-- The bytes of an element of such a format, or of INT32. -/
def codeBytes (c : Nat) : Nat := if c = 1 ∨ c = 2 then 2 else 4

/-- The format of such a code. -/
def plainFmt (c : Nat) : Fmt := (fmtOf c false).getD fp32

/-- An element as FP32, subnormals flushed where `keep` is off; every plain value is an FP32 value. -/
def toFp32 (code : Nat) (keep : Bool) (x : Nat) : Nat × Word :=
  let y := flushCode (plainFmt code) keep x
  match decodeF (plainFmt code) y.1 with
  | .nan _ => (nanCode fp32, y.2)
  | .inf n => (infCode fp32 n, y.2)
  | .fin n mg e => ((roundIeee fp32 .nearestEven true n ⟨mg, e, false⟩).code, y.2)

/-- An FP32 result converted to an output format (R177). -/
def fromFp32 (code : Nat) (keep : Bool) (x : Nat) : Res := toTensor (plainFmt code) .nearestEven keep (decodeF fp32 x) false

/-- Whether an FP32 word is a NaN. -/
def isNan32 (x : Nat) : Bool := match decodeF fp32 x with | .nan _ => true | _ => false
/-- Whether it is an infinity. -/
def isInf32 (x : Nat) : Bool := match decodeF fp32 x with | .inf _ => true | _ => false

/-- A row of numbers of `w` bytes. -/
def packRow (w : Nat) (xs : List Nat) : List Byte := xs.flatMap (leBytes w)

/-- FP32 addition, to nearest even. -/
def add32 (a b : Nat) : Res := fAdd fp32 .nearestEven true false false a b
/-- FP32 multiplication, to nearest even. -/
def mul32 (a b : Nat) : Res := fMul fp32 .nearestEven true false false a b

end Sys2Proof.Machine
end

