-- ==== Sys2Proof/Machine/Engines.lean ====
section
/-!
DEFINITION. The six cluster engines: TSE, GSE, RCE, UFE, SKE and FCE (R207 to R221).
-/
namespace Sys2Proof.Machine

/-- A span of one row. -/
def oneRow (p : Span) (r : Nat) : Span := ⟨p.off + r * p.stride, 0, 1, p.bytes⟩

/-- Two spans of rows at fields of a body: offset and stride. -/
def rowSpan (bs : List Byte) (o rows n : Nat) : Span := ⟨fieldOf bs o 4, fieldOf bs (o + 4) 4, rows, n⟩

/-! ## TSE (R207 to R209) -/

/-- ROWS. -/
def tsRows (bs : List Byte) : Nat := fieldOf bs 32 4
/-- COLS. -/
def tsCols (bs : List Byte) : Nat := fieldOf bs 36 2
/-- FUNC. -/
def tFunc (bs : List Byte) : Nat := fieldOf bs 38 1
/-- IFMT. -/
def tIfmt (bs : List Byte) : Nat := fieldOf bs 39 1
/-- OFMT. -/
def tOfmt (bs : List Byte) : Nat := fieldOf bs 40 1
/-- A bit of FLAGS: 0 SUBN_IN, 1 SUBN_OUT, 2 FIRST, 3 LAST. -/
def tFlag (bs : List Byte) (i : Nat) : Bool := bit (fieldOf bs 41 1) i
/-- Whether it is a SOFTMAX. -/
def tSoft (bs : List Byte) : Bool := decide (tFunc bs = 0x10)
/-- The input rows. -/
def tSrc (bs : List Byte) : Span := rowSpan bs 16 (tsRows bs) (tsCols bs * codeBytes (tIfmt bs))
/-- The output rows. -/
def tDst (bs : List Byte) : Span := rowSpan bs 24 (tsRows bs) (tsCols bs * codeBytes (tOfmt bs))
/-- The row state of a SOFTMAX. -/
def tState (bs : List Byte) : Span := ⟨fieldOf bs 48 4, 16, if tSoft bs then tsRows bs else 0, 16⟩

/-- R204, R207: the check of a TSE command. -/
def tseOk (bs : List Byte) : Bool :=
  decide (1 ≤ tsRows bs) && decide (tsRows bs ≤ 2 ^ 24) && decide (1 ≤ tsCols bs) && decide (tsCols bs ≤ 65535) &&
    decide (tFunc bs ≤ 5 ∨ tFunc bs = 0x10) && plainCode (tIfmt bs) && plainCode (tOfmt bs) && decide (fieldOf bs 41 1 < 16) &&
    (if tFunc bs = 5 then decide (1 ≤ fieldOf bs 42 1) && decide (fieldOf bs 42 1 ≤ 8) else zeroBytes bs 42 1) &&
    zeroBytes bs 43 1 && zeroBytes bs 52 12

/-- R208: POLY by Horner's rule, one fused step a coefficient, from +0. (DEDUCED, log entry 119.) -/
def tsePoly (cs : List Nat) (x : Nat) : Res :=
  cs.reverse.foldl (fun r c =>
    let z := fFma fp32 .nearestEven true false false false x r.code c
    ⟨z.code, r.flags ||| z.flags⟩) ⟨0, 0⟩

/-- R208: a function of a finished x, with its flags. -/
def tseFunc (bs : List Byte) (x : Nat) : Res :=
  if tFunc bs = 5 then tsePoly ((List.range (fieldOf bs 42 1)).map (fun i => fieldOf bs (64 + 4 * i) 4)) x else tseApply (tFunc bs) x

/-- R208 step 1: the inputs of a row, multiplied by ALPHA. -/
def tseInputs (cl : Nat) (bs : List Byte) (r : Nat) (s : State) : List Res :=
  let w := codeBytes (tIfmt bs)
  let raw := scrBytes s cl ((tSrc bs).off + r * (tSrc bs).stride) (tsCols bs * w)
  (List.range (tsCols bs)).map (fun c =>
    let x := toFp32 (tIfmt bs) (tFlag bs 0) (fieldOf raw (c * w) w)
    let z := mul32 (fieldOf bs 44 4) x.1
    ⟨z.code, x.2 ||| z.flags⟩)

/-- R209: a row of SOFTMAX: its outputs, M, L, R and INV (none where INV is not written), and flags.
(DEDUCED, log entry 56.) -/
def softmaxRow (xs : List Nat) (first last : Bool) (m l : Nat) : List Nat × Nat × Nat × Nat × Option Nat × Word :=
  let m0 := if first then infCode fp32 true else m
  let l0 := if first then 0 else l
  if xs.any isNan32 || isNan32 m0 || isNan32 l0 then
    (xs.map (fun _ => nanCode fp32), nanCode fp32, nanCode fp32, nanCode fp32, some (nanCode fp32), fInvalid)
  else
    let mn := xs.foldl (fun a x => (fMinMax fp32 true true false false a x).code) m0
    let low := decide (mn = infCode fp32 true)
    let ex := fun (x : Nat) =>
      let d := fAdd fp32 .nearestEven true false true x mn
      let z := tseApply 0 d.code
      (⟨z.code, d.flags ||| z.flags⟩ : Res)
    let rr : Res := if low || first then ⟨0x3F800000, 0⟩ else ex m0
    let es : List Res := xs.map (fun x => if low then ⟨0, 0⟩ else ex x)
    let l1 := mul32 l0 rr.code
    let l2 := es.foldl (fun (a : Res) e => let z := add32 a.code e.code; (⟨z.code, a.flags ||| z.flags⟩ : Res)) l1
    let inv : Res := if l2.code % 2 ^ 31 = 0 then ⟨0, 0⟩ else tseApply 2 l2.code
    let outs := if first && last then es.map (fun e => mul32 e.code inv.code) else es
    (outs.map (fun z => z.code), mn, l2.code, rr.code, if last then some inv.code else none,
      rr.flags ||| resFlags es ||| l2.flags ||| (if last then inv.flags else 0) ||| resFlags outs)

/-- A row of a TSE command. -/
def tseRow (cl : Nat) (bs : List Byte) (r : Nat) (_ : List Byte) (s : State) : State × List Byte × Word :=
  let xs := tseInputs cl bs r s
  let put := fun (ys : List Nat) (s : State) =>
    let zs := ys.map (fromFp32 (tOfmt bs) (tFlag bs 1))
    (scrPut cl ((tDst bs).off + r * (tDst bs).stride) (packRow (codeBytes (tOfmt bs)) (zs.map (fun z => z.code))) s, resFlags zs)
  if tSoft bs then
    let st := (tState bs).off + 16 * r
    match softmaxRow (xs.map (fun x => x.code)) (tFlag bs 2) (tFlag bs 3) (scrNat s cl st 4) (scrNat s cl (st + 4) 4) with
    | (ys, m, l, rr, inv, w) =>
      let s := scrPut cl st (leBytes 4 m ++ leBytes 4 l ++ leBytes 4 rr) s
      let s := match inv with | some v => scrPut cl (st + 12) (leBytes 4 v) s | none => s
      let o := put ys s
      (o.1, [], resFlags xs ||| w ||| o.2)
  else
    let ys := xs.map (fun x => tseFunc bs x.code)
    let o := put (ys.map (fun y => y.code)) s
    (o.1, [], resFlags xs ||| resFlags ys ||| o.2)

/-- The TSE. -/
def tseEngine : LocalEngine :=
  { qi := 3, op := 0x30, ok := tseOk, fields := fun bs => [tSrc bs, tDst bs, tState bs]
    reads := fun bs => [tSrc bs], writes := fun bs => [tDst bs, tState bs]
    rows := tsRows
    rowReads := fun bs r => [oneRow (tSrc bs) r] ++ (if tSoft bs && !tFlag bs 2 then [⟨(tState bs).off + 16 * r, 0, 1, 8⟩] else [])
    row := tseRow }

/-- TSE (R208, R209). -/
def execTse (cl : Nat) (s : State) : Out := whenOn s <| .next (localStep cl tseEngine s)

/-! ## GSE (R210, R211) -/

/-- ROW_BYTES. -/
def gRow (bs : List Byte) : Nat := fieldOf bs 28 4
/-- COUNT. -/
def gCount (bs : List Byte) : Nat := fieldOf bs 36 4
/-- MODE: 0 GATHER, 1 SCATTER, 2 GATHER_SUM, 3 SCATTER_ADD. -/
def gMode (bs : List Byte) : Nat := fieldOf bs 48 1
/-- GROUP. -/
def gGroup (bs : List Byte) : Nat := fieldOf bs 52 4
/-- Bytes of an index. -/
def gIdx (bs : List Byte) : Nat := if fieldOf bs 49 1 = 0 then 4 else 8
/-- The scratch rows. -/
def gDst (bs : List Byte) : Span :=
  rowSpan bs 40 (if gMode bs = 2 then gCount bs / gGroup bs else gCount bs) (gRow bs)

/-- R204, R210: the check of a GSE command. -/
def gseOk (bs : List Byte) : Bool :=
  decide (8 ≤ gRow bs) && decide (gRow bs ≤ 65536) && decide (gRow bs % 8 = 0) && decide (1 ≤ gCount bs) && decide (gCount bs ≤ 65536) &&
    decide (gMode bs ≤ 3) && decide (fieldOf bs 49 1 ≤ 1) && decide (fieldOf bs 50 1 < 4) && zeroBytes bs 51 1 && zeroBytes bs 56 8 &&
    (decide (gMode bs ≠ 2) || (decide (1 ≤ gGroup bs) && decide (gGroup bs ≤ 65536) && decide (gCount bs % gGroup bs = 0)))

/-- The check of its offsets and ranges. -/
def gseCheck (cl : Nat) (s : State) (m : SCmd) : Option Nat :=
  let bs := m.bytes
  let ps := [gDst bs, ⟨fieldOf bs 32 4, 0, 1, gCount bs * gIdx bs⟩]
  if !gseOk bs || !ps.all spanAligned then some 0x11 else if !ps.all (spanIn s cl) then some 0x1F else none

/-- FP32 sums of two rows, element by element. -/
def addRows (a b : List Byte) : List Res :=
  (List.range (a.length / 4)).map (fun i => add32 (fieldOf a (4 * i) 4) (fieldOf b (4 * i) 4))

/-- The index at position `j` of the list. -/
def gIndex (s : State) (cl : Nat) (bs : List Byte) (j : Nat) : Int :=
  sext (8 * gIdx bs) (scrNat s cl (fieldOf bs 32 4 + j * gIdx bs) (gIdx bs))

/-- The table row that an index names. -/
def gVa (bs : List Byte) (idx : Int) : Nat := (fieldOf bs 16 8 + idx.toNat * gRow bs) % 2 ^ 64

/-- The number under which a cluster's SCATTER_ADD logs its writes. -/
def gseWho (cl : Nat) : Nat := 2 ^ 16 + cl

/-- R211: a table row that another agent wrote while the SCATTER_ADD ran holds undefined contents. -/
def forgetTableRow (ws : List WriteRec) (a : Acc2) (cl age va n : Nat) (s : State) : State :=
  let ps := rowPieces va n
  if ps.any (fun p => pieceRaced ws a p s) then
    bumpFree (ps.foldl (fun s p =>
      match engWrite a cl age p.2.1 ((freeBytes s.free n).drop p.1 |>.take p.2.2) s with
      | (t, .ok ()) => t
      | _ => s) s) 1
  else s

/-- R211: the end of a SCATTER_ADD. (DESIGN CHOICE, log entry 59.) -/
def gseSettle (cl : Nat) (m : SCmd) (s : State) : State :=
  match m.seen, (clusterOf s cl).casting with
  | some n, some k =>
    let ws := racing s n (gseWho cl)
    let bs := m.bytes
    let age := if bit (fieldOf bs 50 1) 1 then 3 else 1
    let s := if ws.isEmpty then s
      else (List.range (gCount bs)).foldl (fun s j =>
        let idx := gIndex s cl bs j
        if idx < 0 ∨ (fieldOf bs 24 4 : Int) ≤ idx then s
        else forgetTableRow ws (engAccess s cl 4 k) cl age (gVa bs idx) (gRow bs) s) s
    closeRace (setHeadCmd cl 4 { m with seen := none } s)
  | _, _ => s

/-- The command goes on to its next index, or has performed all of them. -/
def gseNext (cl : Nat) (m : SCmd) (s : State) : State :=
  let s := endWaits (.engine cl 4) (setHeadCmd cl 4 { m with unit := m.unit + 1, mid := false } s)
  if gCount m.bytes ≤ m.unit + 1 then doneHead cl 4 s else s

/-- R160: FP32 words with every NaN the canonical one. -/
def canonRow (bs : List Byte) : List Byte :=
  packRow 4 ((List.range (bs.length / 4)).map (fun i => let x := fieldOf bs (4 * i) 4; if isNan32 x then nanCode fp32 else x))

/-- R211: a gathered row joins its output row; GATHER_SUM keeps the sum of its group so far in `out`. -/
def gseGot (cl j : Nat) (row : List Byte) (m : SCmd) (s : State) : State :=
  let bs := m.bytes
  if gMode bs = 0 then gseNext cl m (scrPut cl ((gDst bs).off + j * (gDst bs).stride) row s)
  else
    let sum := if j % gGroup bs = 0 then [] else addRows m.out row
    let acc := if j % gGroup bs = 0 then canonRow row else packRow 4 (sum.map (fun z => z.code))
    let nan := (List.range (acc.length / 4)).any (fun i => isNan32 (fieldOf acc (4 * i) 4))
    let s := engFlags cl 1 (resFlags sum ||| flagIf nan fInvalid) s
    if (j + 1) % gGroup bs = 0 then
      gseNext cl { m with out := [] } (scrPut cl ((gDst bs).off + j / gGroup bs * (gDst bs).stride) acc s)
    else gseNext cl { m with out := acc } s

/-- R211: one index. (DEDUCED, log entry 58.) -/
def gseIndex (cl k : Nat) (m : SCmd) (s : State) : State :=
  let bs := m.bytes
  let j := m.unit
  let a := engAccess s cl 4 k
  let age := if bit (fieldOf bs 50 1) 1 then 3 else 1
  let io := fieldOf bs 32 4 + j * gIdx bs
  let idx := gIndex s cl bs j
  let va := gVa bs idx
  let dr := (gDst bs).off + j * (gDst bs).stride
  let gather := decide (gMode bs = 0 ∨ gMode bs = 2)
  let dline := if gMode bs = 2 then (gDst bs).off + j / gGroup bs * (gDst bs).stride else dr
  if m.mid then
    match flushOut cl 4 age a (gRow bs / 128 + 2) m s with
    | (s, .ok m) => gseNext cl m s
    | (s, .wait) => s
    | (s, .fail e) => failCasting k e s
  else if runBusy s cl io (gIdx bs) || runBusy s cl dline (gRow bs) then s
  else
    match runPoison s cl io (gIdx bs), (if gather then none else runPoison s cl dr (gRow bs)) with
    | some l, _ => poisonStop k l s
    | none, some l => poisonStop k l s
    | none, none =>
      if idx < 0 ∨ (fieldOf bs 24 4 : Int) ≤ idx then
        if bit (fieldOf bs 50 1) 0 then failCasting k (protEnd 0x1E (agQueue cl 4) (aperLoc cl io)) s
        else
          let s := incSat s (engOob cl) 1
          if gather then gseGot cl j (List.replicate (gRow bs) 0) m s else gseNext cl m s
      else
      match (if gather then (s, .ok ()) else pagesReady a va (gRow bs) s) with
      | (s, .wait) => s
      | (s, .fail e) => failCasting k e s
      | (s, .ok ()) =>
      if gMode bs = 1 then
        setHeadCmd cl 4 { m with mid := true, out := scrBytes s cl dr (gRow bs), outVa := va } s
      else
        match engReadAll a cl age va (gRow bs) s with
        | (s, .wait) => s
        | (s, .fail e) => failCasting k e s
        | (s, .ok row) =>
          let s := endWaits (.engine cl 4) s
          if gather then gseGot cl j row m s
          else
            let z := addRows row (scrBytes s cl dr (gRow bs))
            let s := engFlags cl 1 (resFlags z ||| flagIf (z.any (fun r => isNan32 r.code)) fInvalid) s
            setHeadCmd cl 4 { m with mid := true, out := packRow 4 (z.map (fun r => r.code)), outVa := va } s

/-- R211: a SCATTER_ADD begins to note the writes of others. -/
def gseOpen (cl : Nat) (m : SCmd) (s : State) : State :=
  if gMode m.bytes = 3 ∧ m.unit = 0 ∧ m.mid = false ∧ m.seen = none then
    let r := openRace s
    setHeadCmd cl 4 { m with seen := some r.2 } r.1
  else s

/-- A turn of a GSE command; those of a SCATTER_ADD mark their writes as its own, and the last one settles its races. -/
def gseTurn (cl k : Nat) (m : SCmd) (s : State) : State :=
  if gMode m.bytes = 3 then
    let s := markOwn (gseWho cl) s.race.writes.length (gseIndex cl k m s)
    match streamQueue s cl 4 with
    | n :: _ => if n.done then gseSettle cl n s else s
    | [] => s
  else gseIndex cl k m s

/-- GSE (R211): it starts, or goes on with its next index. (DEDUCED, log entry 54.) -/
def execGse (cl : Nat) (s : State) : Out := whenOn s <|
  .next (streamStep cl 4 0x40 (gseCheck cl) s (fun k m s => runUnit cl 4 (gseTurn cl k) 2 (gseOpen cl m s)))

/-! ## REDUCE (R212, R213) -/

/-- COUNT. -/
def rCount (bs : List Byte) : Nat := fieldOf bs 20 2
/-- TYPE. -/
def rdType (bs : List Byte) : Nat := fieldOf bs 23 1
/-- LEN. -/
def rdLen (bs : List Byte) : Nat := fieldOf bs 24 4
/-- A bit of FLAGS: 0 SUBN, 1 ACCUM, 2 DST_GLOBAL. -/
def rFlag (bs : List Byte) (i : Nat) : Bool := bit (fieldOf bs 29 1) i
/-- The format code of the contributions. -/
def rCode (bs : List Byte) : Nat := if rdType bs = 3 then 4 else rdType bs
/-- OFMT. -/
def rOut (bs : List Byte) : Nat := fieldOf bs 28 1
/-- Elements of a unit: 4 KiB of output (R205). -/
def rUnit (bs : List Byte) : Nat := 4096 / codeBytes (rOut bs)

/-- R204, R212: the check of a REDUCE. -/
def reduceOk (bs : List Byte) : Bool :=
  decide (1 ≤ rCount bs) && decide (rCount bs ≤ 64) && decide (fieldOf bs 22 1 ≤ 2) && decide (rdType bs ≤ 3) && decide (1 ≤ rdLen bs) &&
    decide (rdLen bs ≤ 1048576) && (if rdType bs = 3 then decide (rOut bs = 4) else plainCode (rOut bs)) &&
    decide (fieldOf bs 29 1 < 8) && !bit (fieldOf bs 30 2) 14 && zeroBytes bs 44 4 && (rFlag bs 2 || zeroBytes bs 36 4)

/-- The list of a REDUCE. -/
def rList (bs : List Byte) : Span := ⟨fieldOf bs 16 4, 0, 1, 16 * rCount bs⟩
/-- DST, when it lies in scratch. -/
def rdDst (bs : List Byte) : List Span := if rFlag bs 2 then [] else [⟨fieldOf bs 32 4, 0, 1, rdLen bs * codeBytes (rOut bs)⟩]

/-- An entry of the contribution list. -/
def rEntry (s : State) (cl : Nat) (bs : List Byte) (i : Nat) : List Byte := scrBytes s cl ((rList bs).off + 16 * i) 16
/-- Whether an entry's contribution lies at a virtual address. -/
def eGlobal (e : List Byte) : Bool := bit (fieldOf e 10 1) 0

/-- The check of its ranges; the scratch contributions are those that the list names when the command starts. -/
def reduceCheck (cl : Nat) (s : State) (m : SCmd) : Option Nat :=
  let bs := m.bytes
  let ps := rList bs :: rdDst bs
  if !reduceOk bs || !ps.all spanAligned then some 0x11
  else if !ps.all (spanIn s cl) then some 0x1F
  else
    let es := ((List.range (rCount bs)).map (rEntry s cl bs)).filter (fun e => !eGlobal e)
    if es.any (fun e => decide (fieldOf e 0 8 % 8 ≠ 0)) then some 0x11
    else if es.any (fun e => !runIn s cl (fieldOf e 0 8) (rdLen bs * codeBytes (rCode bs))) then some 0x1F
    else none

/-- The bytes of an operand of the present unit, in scratch or at a virtual address. -/
def rOperand (a : Acc2) (cl : Nat) (global : Bool) (addr n : Nat) (s : State) : State × Got (List Byte) :=
  if global then engReadAll a cl 1 (addr % 2 ^ 64) n s
  else if runBusy s cl (addr % 2 ^ 24) n then (s, .wait)
  else
    match runPoison s cl (addr % 2 ^ 24) n with
    | some l => (s, .fail (poisonEnd s l))
    | none => (s, .ok (scrBytes s cl (addr % 2 ^ 24) n))

/-- The contributions of the present unit, in list order. -/
def rOperands (a : Acc2) (cl : Nat) (bs : List Byte) (u n : Nat) (s : State) : State × Got (List (List Byte)) :=
  (List.range (rCount bs)).foldl (fun r i =>
    match r with
    | (s, .ok xs) =>
      let e := rEntry s cl bs i
      (match rOperand a cl (eGlobal e) (fieldOf e 0 8 + u * codeBytes (rCode bs)) (n * codeBytes (rCode bs)) s with
       | (s, .ok x) => (s, Got.ok (xs ++ [x]))
       | (s, .wait) => (s, .wait)
       | (s, .fail e) => (s, .fail e))
    | r => r) (s, .ok [])

/-- R213: one step of the fold. -/
def rStep (bs : List Byte) (a b : Nat) : Res :=
  let op := fieldOf bs 22 1
  if rdType bs = 3 then
    ⟨if op = 0 then (a + b) % 2 ^ 32
     else if (sext 32 a < sext 32 b) = (op = 1) then b else a, 0⟩
  else if op = 0 then fAdd fp32 .nearestEven (rFlag bs 0) false false a b
  else fMinMax fp32 (rFlag bs 0) (decide (op = 1)) false false a b

/-- R213, R106: an operand's element as the fold takes it; a signalling NaN sets INVALID. -/
def rIn (bs : List Byte) (code x : Nat) : Res :=
  if rdType bs = 3 then ⟨x, 0⟩ else
    let y := toFp32 code (rFlag bs 0) x
    ⟨y.1, y.2 ||| flagIf (isSnanF (decodeF (plainFmt code) x)) fInvalid⟩

/-- R213: one element: the fold of its contributions, converted once. -/
def rdElem (bs : List Byte) (xs : List Res) : Res :=
  match xs with
  | [] => ⟨0, 0⟩
  | x :: rest =>
    let z := rest.foldl (fun (a : Res) b => let z := rStep bs a.code b.code; (⟨z.code, a.flags ||| b.flags ||| z.flags⟩ : Res)) x
    if rdType bs = 3 then z
    else
      let o := fromFp32 (rOut bs) (rFlag bs 0) z.code
      ⟨o.code, z.flags ||| o.flags⟩

/-- R214, R213: the semaphore of a completed RCE command, on this device. -/
def rSignal (bs : List Byte) (o v : Nat) (s : State) : State :=
  if bit (fieldOf bs o 2) 15 then semaAdd (fieldOf bs o 2 % 2 ^ 14) (fieldOf bs v 4) s else s

/-- A unit of a REDUCE has been written; with the last one, once every write is complete at its endpoint, the semaphore gains
SIG_VALUE (R213, R293). -/
def reduceNext (cl : Nat) (m : SCmd) (s : State) : State :=
  let next := { m with unit := m.unit + 1, mid := false, placed := 0, out := [] }
  if rdLen m.bytes ≤ (m.unit + 1) * rUnit m.bytes then
    match hostFlush (.engine cl 5) s with
    | (s, false) => s
    | (s, true) => rSignal m.bytes 30 40 (doneHead cl 5 (setHeadCmd cl 5 next (endWaits (.engine cl 5) s)))
  else setHeadCmd cl 5 next (endWaits (.engine cl 5) s)

/-- R213: a turn of a REDUCE: a wait of the list, the fold of a unit, or writes. (DEDUCED, log entry 57.) -/
def reduceTurn (cl k : Nat) (m : SCmd) (s : State) : State :=
  let bs := m.bytes
  let a := engAccess s cl 5 k
  let u := m.unit * rUnit bs
  let n := min (rUnit bs) (rdLen bs - u)
  let w := codeBytes (rOut bs)
  let da := fieldOf bs 32 8 + u * w
  if m.mid then
    if rFlag bs 2 then
      match flushOut cl 5 1 a 40 m s with
      | (s, .ok m) => reduceNext cl m s
      | (s, .wait) => s
      | (s, .fail e) => failCasting k e s
    else if runBusy s cl da (n * w) then s
    else reduceNext cl { m with out := [] } (scrPut cl da m.out s)
  else if (rList bs).off % 128 + (rList bs).bytes ≠ 0 ∧ (runPoison s cl (rList bs).off (rList bs).bytes).isSome then
    poisonStop k ((runPoison s cl (rList bs).off (rList bs).bytes).getD 0) s
  else if m.placed < rCount bs then
    let e := rEntry s cl bs m.placed
    if bit (fieldOf e 8 2) 15 ∧ semaOf s (fieldOf e 8 2 % 2 ^ 14) < fieldOf e 12 4 then s
    else setHeadCmd cl 5 { m with placed := m.placed + 1 } s
  else
    match rOperands a cl bs u n s with
    | (s, .wait) => s
    | (s, .fail e) => failCasting k e s
    | (s, .ok xs) =>
      match (if rFlag bs 1 then rOperand a cl (rFlag bs 2) da (n * w) s else (s, .ok [])) with
      | (s, .wait) => s
      | (s, .fail e) => failCasting k e s
      | (s, .ok d) =>
        let cw := codeBytes (rCode bs)
        let zs := (List.range n).map (fun i =>
          rdElem bs ((if rFlag bs 1 then [rIn bs (rOut bs) (fieldOf d (i * w) w)] else []) ++
            xs.map (fun x => rIn bs (rCode bs) (fieldOf x (i * cw) cw))))
        match (if rFlag bs 2 then pagesReady a da (n * w) s else (s, .ok ())) with
        | (s, .wait) => s
        | (s, .fail e) => failCasting k e s
        | (s, .ok ()) =>
          let s := engFlags cl 2 (resFlags zs) s
          setHeadCmd cl 5 { m with mid := true, out := packRow w (zs.map (fun z => z.code)), outVa := da } s

/-- The most turns that a unit of a REDUCE or SEND takes. -/
def rceTurns (m : SCmd) : Nat := if mOp m = 0x50 then rCount m.bytes + 3 else 40

/-- REDUCE (R213): it starts, or goes on with its next unit. (DEDUCED, log entry 54.) -/
def execReduce (cl : Nat) (s : State) : Out := whenOn s <|
  .next (streamStep cl 5 0x50 (reduceCheck cl) s (fun k m s => runUnit cl 5 (reduceTurn cl k) (rceTurns m) s))

/-! ## SEND (R214, R403) -/

/-- BYTES. -/
def sBytes (bs : List Byte) : Nat := fieldOf bs 20 4
/-- DST. -/
def sDst (bs : List Byte) : Nat := fieldOf bs 24 8

/-- R204, R214: the check of a SEND. -/
def sendOk (bs : List Byte) : Bool :=
  decide (sBytes bs % 64 = 0) && decide (64 ≤ sBytes bs) && decide (sBytes bs ≤ 2 ^ 24) && !bit (fieldOf bs 32 2) 14 &&
    zeroBytes bs 34 2 && zeroBytes bs 40 8

/-- The check of its ranges. -/
def sendCheck (cl : Nat) (s : State) (m : SCmd) : Option Nat :=
  let p : Span := ⟨fieldOf m.bytes 16 4, 0, 1, sBytes m.bytes⟩
  if !sendOk m.bytes || !spanAligned p then some 0x11 else if !spanIn s cl p then some 0x1F else none

/-- R403: the port of a scheduled SEND: that of the entry it matches. -/
def sendEntry (s : State) (cl k dev : Nat) (m : SCmd) : Option Nat :=
  ((fretEnts (castingOf s k).frets).find? (fun e => decide (e.kind = 1) && decide (e.cl = cl) && decide (e.off = mFret m) &&
    decide (e.dest = dev) && decide (e.bytes = sBytes m.bytes))).map (fun e => e.port)

/-- R403: a scheduled write through a window: the WR goes by the entry's port on VL3. -/
def schedWin (port : Nat) (a : Acc2) (w off va : Nat) (bs : List Byte) (s : State) : State × Got Unit :=
  match findWin s a.who .wr w va bs bs.length (2 ^ 64 - 1) with
  | some r =>
    (match r.back with
     | none => (s, .wait)
     | some (0, _, _) => (s, .ok ())
     | some (c, sub, _) => (s, .fail (faultEnd c sub (agPort r.port) va)))
  | none =>
    match windowOf s w off with
    | none => (s, .fail (windowInvalid a.agent va))
    | some (dev, iwin, ioff) =>
      if getF s (pState port) ≠ 2 then (s, .fail (portDown a.agent va))
      else (sendWin a.who .wr port w va ⟨.wr, 3, getF s amxDev, dev, 0, iwin, ioff, bs.length, 2 ^ 64 - 1, 0, 0, bs, 0⟩ s, .wait)

/-- One line of a SEND: through a window, scheduled or not, or to another target. -/
def sendLine (cl k : Nat) (m : SCmd) (va : Nat) (bs : List Byte) (s : State) : State × Got Unit :=
  let a := engAccess s cl 5 k
  match translate a va true s with
  | (s, .wait) => (s, .wait)
  | (s, .fail e) => (s, .fail e)
  | (s, .ok ta) =>
    match targetOf s ta, m.placed with
    | .win w off, port + 1 => schedWin port a w off va bs s
    | _, _ => engWrite a cl 1 va bs s

/-- The requests for the lines of a unit behind one that waits are sent too, where they go through a window.
(DEDUCED, log entry 105.) -/
def sendAhead (cl k : Nat) (m : SCmd) : Nat → Nat → List Byte → State → State
  | 0, _, _, s => s
  | fuel + 1, va, bs, s =>
    if bs.isEmpty then s
    else
      let n := min bs.length (128 - va % 128)
      let s := match translate (engAccess s cl 5 k) va true s with
        | (s, .ok ta) => (match targetOf s ta with | .win _ _ => (sendLine cl k m va (bs.take n) s).1 | _ => s)
        | (s, _) => s
      sendAhead cl k m fuel (va + n) (bs.drop n) s

/-- The answer for one line is used up. -/
def dropWin (w : Waiter) (va : Nat) (s : State) : State :=
  { s with xl := { s.xl with wins := s.xl.wins.filter (fun r => !(decide (r.who = w) && decide (r.va = va))) } }

/-- R214: the signal of a SEND whose data are written: a SEM_SIG behind them to the device that they went to, or once they are
complete at their endpoint an addition to this device's own semaphore (R293).  True once it is made. -/
def sendSignal (cl k : Nat) (m : SCmd) (s : State) : State × Bool :=
  let bs := m.bytes
  let a := engAccess s cl 5 k
  match hostFlush a.who s with
  | (s, false) => (s, false)
  | (s, true) =>
    if !bit (fieldOf bs 32 2) 15 then (s, true)
    else
      match translate a (sDst bs) true s with
      | (s, .wait) => (s, false)
      | (s, .fail e) => (failCasting k e s, false)
      | (s, .ok ta) =>
        match targetOf s ta with
        | .win w off =>
          (match windowOf s w off with
           | some (dev, iwin, ioff) =>
             let p : Packet :=
               ⟨.semSig, if m.placed = 0 then 1 else 3, getF s amxDev, dev, 0, iwin, fieldOf bs 32 2 % 2 ^ 14, 0, fieldOf bs 36 4, 0, 0, [], 0⟩
             (match (if m.placed = 0 then portFor s dev ioff else some (m.placed - 1)) with
              | some port => (sendPacket port p s, true)
              | none => (failCasting k (portDown (agQueue cl 5) (sDst bs)) s, false))
           | none => (failCasting k (windowInvalid (agQueue cl 5) (sDst bs)) s, false))
        | _ => (rSignal bs 32 36 s, true)

/-- A unit of a SEND has been written; with the last one its signal follows. -/
def sendNext (cl k : Nat) (m : SCmd) (s : State) : State :=
  let next := { m with unit := m.unit + 1, mid := false }
  if sBytes m.bytes ≤ 4096 * (m.unit + 1) then
    match sendSignal cl k m s with
    | (s, true) => doneHead cl 5 (setHeadCmd cl 5 next (endWaits (.engine cl 5) s))
    | (s, false) => s
  else setHeadCmd cl 5 next s

/-- A turn of a SEND: its match in the fret table, a unit of 4 KiB, or a line. -/
def sendTurn (cl k : Nat) (m : SCmd) (s : State) : State :=
  let bs := m.bytes
  let a := engAccess s cl 5 k
  let u := 4096 * m.unit
  let n := min 4096 (sBytes bs - u)
  let src := fieldOf bs 16 4 + u
  if mFret m ≠ 0xFFFFFFFF ∧ m.placed = 0 then
    match translate a (sDst bs) true s with
    | (s, .wait) => s
    | (s, .fail e) => failCasting k e s
    | (s, .ok ta) =>
      let mis := protEnd 0x26 (agQueue cl 5) 0
      match targetOf s ta with
      | .win w off =>
        (match windowOf s w off with
         | some (dev, _, _) =>
           (match sendEntry s cl k dev m with
            | some port => setHeadCmd cl 5 { m with placed := port + 1 } s
            | none => failCasting k mis s)
         | none => failCasting k (windowInvalid a.agent (sDst bs)) s)
      | _ => failCasting k mis s
  else if m.mid then
    if m.out.isEmpty then sendNext cl k m s
    else
      let c := min m.out.length (128 - m.outVa % 128)
      match sendLine cl k m m.outVa (m.out.take c) s with
      | (s, .wait) => sendAhead cl k m 40 (m.outVa + c) (m.out.drop c) s
      | (s, .fail e) => failCasting k e s
      | (s, .ok ()) => setHeadCmd cl 5 { m with out := m.out.drop c, outVa := m.outVa + c } (dropWin a.who m.outVa s)
  else if runBusy s cl src n then s
  else
    match runPoison s cl src n with
    | some l => poisonStop k l s
    | none =>
      match pagesReady a (sDst bs + u) n s with
      | (s, .wait) => s
      | (s, .fail e) => failCasting k e s
      | (s, .ok ()) => setHeadCmd cl 5 { m with mid := true, out := scrBytes s cl src n, outVa := sDst bs + u } s

/-- SEND (R214, R403): it starts, or goes on with its next unit. (DEDUCED, log entry 54.) -/
def execSend (cl : Nat) (s : State) : Out := whenOn s <|
  .next (streamStep cl 5 0x51 (sendCheck cl) s (fun k m s => runUnit cl 5 (sendTurn cl k) (rceTurns m) s))

/-! ## UFE (R215, R216) -/

/-- Whether it is an UNFOLD. -/
def uUnfold (bs : List Byte) : Bool := decide (fieldOf bs 24 1 = 1)
/-- Bytes of an element. -/
def uElem (bs : List Byte) : Nat := 2 ^ fieldOf bs 25 1
/-- A 16-bit field: extents, or H, W and C. -/
def uExt (bs : List Byte) (i : Nat) : Nat := fieldOf bs (28 + 2 * i) 2
/-- The byte stride of a source dimension of a PERMUTE. -/
def uStride (bs : List Byte) (d : Nat) : Nat := if d = 0 then uElem bs else fieldOf bs (32 + 4 * d) 4
/-- The source dimension of an output dimension. -/
def uPerm (bs : List Byte) (d : Nat) : Nat := bits (fieldOf bs 48 1) (2 * d + 1) (2 * d)
/-- KH, KW, SH, SW, DH, DW, PT, PL by number. -/
def uK (bs : List Byte) (i : Nat) : Nat := fieldOf bs (36 + i) 1
/-- OH or OW. -/
def uO (bs : List Byte) (i : Nat) : Nat := fieldOf bs (44 + 2 * i) 2

/-- R204, R215, R216: the check of a UFE command. -/
def ufeOk (bs : List Byte) : Bool :=
  decide (fieldOf bs 24 1 ≤ 1) && decide (fieldOf bs 25 1 ≤ 3) && zeroBytes bs 26 2 && zeroBytes bs 49 15 &&
    (if uUnfold bs then zeroBytes bs 34 2 && zeroBytes bs 48 1
     else [1, 2, 3].all (fun d => decide (uStride bs d % 8 = 0)) &&
       (List.range 4).all (fun i => (List.range i).all (fun j => decide (uPerm bs i ≠ uPerm bs j))))

/-- How many output rows there are. -/
def uRows (bs : List Byte) : Nat :=
  if uUnfold bs then uO bs 0 * uO bs 1
  else uExt bs (uPerm bs 1) * uExt bs (uPerm bs 2) * uExt bs (uPerm bs 3)
/-- Elements of an output row. -/
def uCols (bs : List Byte) : Nat := if uUnfold bs then uK bs 0 * uK bs 1 * uExt bs 2 else uExt bs (uPerm bs 0)

/-- The source offset of an output element; none outside an UNFOLD's source. -/
def uFrom (bs : List Byte) (r c : Nat) : Option Nat :=
  if uUnfold bs then
    let ch := uExt bs 2
    let kw := c / ch % uK bs 1
    let kh := c / ch / uK bs 1
    let y : Int := (r / uO bs 1 * uK bs 2 + kh * uK bs 4 : Nat) - (uK bs 6 : Int)
    let x : Int := (r % uO bs 1 * uK bs 3 + kw * uK bs 5 : Nat) - (uK bs 7 : Int)
    if 0 ≤ y ∧ y < uExt bs 0 ∧ 0 ≤ x ∧ x < uExt bs 1 then
      some (((y.toNat * uExt bs 1 + x.toNat) * ch + c % ch) * uElem bs)
    else none
  else
    let e := fun d => uExt bs (uPerm bs d)
    let at' := fun d => uStride bs (uPerm bs d)
    some (c * at' 0 + r % e 1 * at' 1 + r / e 1 % e 2 * at' 2 + r / e 1 / e 2 * at' 3)

/-- The source as spans. -/
def uSrc (bs : List Byte) : List Span :=
  let o := fieldOf bs 16 4
  if uUnfold bs then [⟨o, 0, 1, uExt bs 0 * uExt bs 1 * uExt bs 2 * uElem bs⟩]
  else (List.range (uExt bs 3)).flatMap (fun i => (List.range (uExt bs 2)).map (fun j =>
    ⟨o + i * uStride bs 3 + j * uStride bs 2, uStride bs 1, uExt bs 1, uExt bs 0 * uElem bs⟩))

/-- R216: an output row. -/
def ufeRow (cl : Nat) (bs : List Byte) (r : Nat) (_ : List Byte) (s : State) : State × List Byte × Word :=
  let row := (List.range (uCols bs)).flatMap (fun c =>
    match uFrom bs r c with
    | some o => scrBytes s cl (fieldOf bs 16 4 + o) (uElem bs)
    | none => List.replicate (uElem bs) 0)
  (scrPut cl (fieldOf bs 20 4 + r * (uCols bs * uElem bs)) row s, [], 0)

/-- The UFE. -/
def ufeEngine : LocalEngine :=
  { qi := 6, op := 0x60, ok := ufeOk, fields := fun bs => [⟨fieldOf bs 16 4, 0, 1, 0⟩, ⟨fieldOf bs 20 4, 0, 1, 0⟩]
    reads := uSrc, writes := fun bs => [⟨fieldOf bs 20 4, 0, 1, uRows bs * uCols bs * uElem bs⟩]
    rows := uRows
    rowReads := fun bs r => (List.range (uCols bs)).filterMap (fun c =>
      (uFrom bs r c).map (fun o => ⟨fieldOf bs 16 4 + o, 0, 1, uElem bs⟩))
    row := ufeRow }

/-- UFE (R216). -/
def execUfe (cl : Nat) (s : State) : Out := whenOn s <| .next (localStep cl ufeEngine s)

/-! ## SKE (R217, R218) -/

/-- ROWS. -/
def kRows (bs : List Byte) : Nat := fieldOf bs 24 4
/-- COLS. -/
def kCols (bs : List Byte) : Nat := fieldOf bs 28 2
/-- K. -/
def kK (bs : List Byte) : Nat := fieldOf bs 30 2
/-- TYPE. -/
def kType (bs : List Byte) : Nat := fieldOf bs 32 1
/-- A bit of FLAGS: 0 ASCENDING, 1 VALUES, 2 SUBN. -/
def kFlag (bs : List Byte) (i : Nat) : Bool := bit (fieldOf bs 33 1) i
/-- The input rows. -/
def kSrc (bs : List Byte) : Span := rowSpan bs 16 (kRows bs) (kCols bs * codeBytes (kType bs))
/-- The output values. -/
def kVal (bs : List Byte) : Span := ⟨fieldOf bs 36 4, fieldOf bs 44 4, if kFlag bs 1 then kRows bs else 0, kK bs * codeBytes (kType bs)⟩
/-- The output indices. -/
def kIdx (bs : List Byte) : Span := ⟨fieldOf bs 40 4, fieldOf bs 48 4, kRows bs, kK bs * 4⟩

/-- R204, R217: the check of an SKE command. -/
def skeOk (bs : List Byte) : Bool :=
  decide (1 ≤ kRows bs) && decide (kRows bs ≤ 2 ^ 24) && decide (1 ≤ kCols bs) && decide (1 ≤ kK bs) && decide (kK bs ≤ 1024) &&
    decide (kK bs ≤ kCols bs) && (plainCode (kType bs) || decide (kType bs = 4)) && decide (fieldOf bs 33 1 < 8) &&
    zeroBytes bs 34 2 && zeroBytes bs 52 12

/-- R218: whether one element ranks strictly ahead of another. -/
def ranksAhead (asc : Bool) (a b : FVal) : Bool :=
  match a, b with
  | .nan _, .nan _ => false
  | .nan _, _ => true
  | _, .nan _ => false
  | a, b => if asc then ltF a b else ltF b a

/-- The first element of a list that none ranks ahead of, by column and value. -/
def foremost (asc : Bool) : List (Nat × FVal) → Option (Nat × FVal)
  | [] => none
  | x :: rest => some (rest.foldl (fun a y => if ranksAhead asc y.2 a.2 then y else a) x)

/-- R218: the columns of the K foremost elements, in order. -/
def topK (asc : Bool) : Nat → List (Nat × FVal) → List Nat
  | 0, _ => []
  | n + 1, xs =>
    match foremost asc xs with
    | none => []
    | some x => x.1 :: topK asc n (xs.filter (fun y => decide (y.1 ≠ x.1)))

/-- R218: a row. -/
def skeRow (cl : Nat) (bs : List Byte) (r : Nat) (_ : List Byte) (s : State) : State × List Byte × Word :=
  let w := codeBytes (kType bs)
  let raw := scrBytes s cl ((kSrc bs).off + r * (kSrc bs).stride) (kCols bs * w)
  let f := plainFmt (kType bs)
  let xs := (List.range (kCols bs)).map (fun c =>
    (c, decodeF f (if kType bs = 4 then fieldOf raw (c * w) w else (flushCode f (kFlag bs 2) (fieldOf raw (c * w) w)).1)))
  let cs := topK (kFlag bs 0) (kK bs) xs
  let s := scrPut cl ((kIdx bs).off + r * (kIdx bs).stride) (packRow 4 cs) s
  (if kFlag bs 1 then scrPut cl ((kVal bs).off + r * (kVal bs).stride) (packRow w (cs.map (fun c => fieldOf raw (c * w) w))) s else s, [], 0)

/-- The SKE. -/
def skeEngine : LocalEngine :=
  { qi := 7, op := 0x70, ok := skeOk, fields := fun bs => [kSrc bs, kVal bs, kIdx bs]
    reads := fun bs => [kSrc bs], writes := fun bs => [kVal bs, kIdx bs], rows := kRows, rowReads := fun bs r => [oneRow (kSrc bs) r], row := skeRow }

/-- SKE (R218). -/
def execSke (cl : Nat) (s : State) : Out := whenOn s <| .next (localStep cl skeEngine s)

/-! ## FCE (R219 to R221) -/

/-- ROWS. -/
def fRows (bs : List Byte) : Nat := fieldOf bs 48 4
/-- COLS. -/
def fCols (bs : List Byte) : Nat := fieldOf bs 52 2
/-- IFMT. -/
def fIn (bs : List Byte) : Nat := fieldOf bs 54 1
/-- ISCODE. -/
def fIsc (bs : List Byte) : Nat := fieldOf bs 55 1
/-- A bit of FLAGS: 0 SUBN_IN, 1 SUBN_OUT, 2 STOCH. -/
def fFlag (bs : List Byte) (i : Nat) : Bool := bit (fieldOf bs 58 1) i
/-- The output's format. -/
def fOut (bs : List Byte) : OutFmt :=
  ⟨fieldOf bs 56 1, fieldOf bs 57 1, fFlag bs 1, if fFlag bs 2 then some (fieldOf bs 64 8) else none⟩
/-- An input scale code with DIR K read as N (R220). -/
def fIscN (bs : List Byte) : Nat := if scDir (fIsc bs) = 0 ∧ fIsc bs ≠ 0 then fIsc bs + 0x20 else fIsc bs
/-- The input rows. -/
def fSrc (bs : List Byte) : Span := rowSpan bs 16 (fRows bs) (rowBytes (codeWidth (fIn bs)) (fCols bs))
/-- The output rows. -/
def fDst (bs : List Byte) : Span := rowSpan bs 24 (fRows bs) (rowBytes (codeWidth (fOut bs).code) (fCols bs))
/-- Scales as a span; empty where there are none. -/
def fScales (bs : List Byte) (o sc : Nat) : Span :=
  if sc = 0 then ⟨0, fieldOf bs (o + 4) 4, 0, 0⟩ else rowSpan bs o (scaleRows sc (fRows bs)) (scaleRowLen sc (fCols bs))

/-- R204, R219, R220: the check of an FCE command. -/
def fceOk (bs : List Byte) : Bool :=
  let o := fOut bs
  decide (1 ≤ fRows bs) && decide (fRows bs ≤ 65536) && decide (1 ≤ fCols bs) && tensorCode (fIn bs) && tensorCode o.code &&
    scaleCodeOk (fIsc bs) && (decide (fIsc bs = 0) || narrowCode (fIn bs)) && scaleUseOk true o.code o.sc &&
    (decide (fIsc bs = 0) == decide (fieldOf bs 32 4 = 0xFFFFFFFF)) && (decide (o.sc = 0) == decide (fieldOf bs 40 4 = 0xFFFFFFFF)) &&
    decide (fieldOf bs 58 1 < 8) && zeroBytes bs 59 5 && zeroBytes bs 72 8

/-- The rows that are buffered before any of them is written: a block's rows for blocks along M or 2-D (R222). -/
def fGroup (bs : List Byte) : Nat :=
  let sc := (fOut bs).sc
  if sc ≠ 0 ∧ (scDir sc = 1 ∨ scDir sc = 3) then scSize sc else 1

/-- R221 step 1: an element times its input scale, with the flag of a flush. -/
def fElem (s : State) (cl : Nat) (bs : List Byte) (r c : Nat) : FVal × Word :=
  let f := (fmtOf (fIn bs) (decide (fIsc bs ≠ 0))).getD fp32
  let row := scrBytes s cl ((fSrc bs).off + r * (fSrc bs).stride) (fSrc bs).bytes
  let x := flushCode f (fFlag bs 0) (packedElem row (codeWidth (fIn bs)) c)
  let v := decodeF f x.1
  let sc := fIscN bs
  if sc = 0 then (v, x.2)
  else
    let z := scSize sc
    let p := fScales bs 32 sc
    let at' := if scDir sc = 1 then p.off + r / z * p.stride + c
      else if scDir sc = 2 then p.off + r * p.stride + c / z
      else p.off + r / z * p.stride + c / z
    ((mulF v (scaleVal (scFmt sc) (scrNat s cl at' 1))).1, x.2)

/-- R221: an output row, with the scales that are written in its step (R148): their row and bytes, and its flags. -/
def fceOut (s : State) (cl : Nat) (bs : List Byte) (r : Nat) : List Byte × List Byte × Word :=
  let o := fOut bs
  let v := fun r c => (fElem s cl bs r c).1
  let zs := outRow o v (fun c => r * fCols bs + c) (fRows bs) (fCols bs) r
  let fl := (List.range (fCols bs)).foldl (fun (w : Word) c => w ||| (fElem s cl bs r c).2) 0
  (packElems (codeWidth o.code) (zs.map (fun z => z.code)),
    (match outScales o v (fRows bs) (fCols bs) r with | some (_, b) => b | none => []), fl ||| resFlags zs)

/-- The bytes of scales written in the step of row `r`. -/
def fScaleLen (bs : List Byte) (r : Nat) : Nat :=
  let sc := (fOut bs).sc
  if sc = 0 ∨ (scDir sc ≠ 2 ∧ r % scSize sc ≠ 0) then 0 else scaleRowLen sc (fCols bs)

/-- R221, R222: the first row of a group finds the group's rows in scratch and buffers what they convert to; each row is written
from the buffer, then its scales. -/
def fceRow (cl : Nat) (bs : List Byte) (r : Nat) (buf : List Byte) (s : State) : State × List Byte × Word :=
  let g := fGroup bs
  let outs := if r % g = 0 then (List.range (min g (fRows bs - r))).map (fun i => fceOut s cl bs (r + i)) else []
  let buf := buf ++ outs.flatMap (fun x => x.1 ++ x.2.1)
  let n := (fDst bs).bytes
  let sc := (fOut bs).sc
  let sr := if scDir sc = 2 then r else r / scSize sc
  let s := scrPut cl ((fDst bs).off + r * (fDst bs).stride) (buf.take n) s
  let s := scrPut cl (fieldOf bs 40 4 + sr * fieldOf bs 44 4) ((buf.drop n).take (fScaleLen bs r)) s
  (s, buf.drop (n + fScaleLen bs r), outs.foldl (fun (w : Word) x => w ||| x.2.2) 0)

/-- The FCE. -/
def fceEngine : LocalEngine :=
  { qi := 8, op := 0x80, ok := fceOk
    fields := fun bs => [fSrc bs, fDst bs, fScales bs 32 (fIscN bs), fScales bs 40 (fOut bs).sc]
    reads := fun bs => [fSrc bs, fScales bs 32 (fIscN bs)]
    writes := fun bs => [fDst bs, fScales bs 40 (fOut bs).sc]
    rows := fRows
    rowReads := fun bs r =>
      if r % fGroup bs ≠ 0 then []
      else
        let p := fSrc bs
        let n := min (fGroup bs) (fRows bs - r)
        let q := fScales bs 32 (fIscN bs)
        let z := if scDir (fIscN bs) = 2 then 1 else scSize (fIscN bs)
        [⟨p.off + r * p.stride, p.stride, n, p.bytes⟩] ++
          (if fIsc bs = 0 then [] else [⟨q.off + r / z * q.stride, q.stride, (r + n - 1) / z + 1 - r / z, q.bytes⟩])
    row := fceRow }

/-- FCE (R221). -/
def execFce (cl : Nat) (s : State) : Out := whenOn s <| .next (localStep cl fceEngine s)

/-! ## Completion (R200) -/

/-- What remains of the work of a queue's head is performed, as far as it can be. -/
def runRest (cl qi k : Nat) (m : SCmd) (s : State) : State :=
  let local' := fun (x : LocalEngine) => runTurns cl x.qi (localTurn cl k x) (x.rows m.bytes) s
  if qi = 3 then local' tseEngine
  else if qi = 4 then runTurns cl 4 (gseTurn cl k) (2 * gCount m.bytes + 1) s
  else if qi = 5 then
    (if mOp m = 0x50 then runTurns cl 5 (reduceTurn cl k) ((rdLen m.bytes / rUnit m.bytes + 1) * rceTurns m) s
     else runTurns cl 5 (sendTurn cl k) ((sBytes m.bytes / 4096 + 1) * rceTurns m) s)
  else if qi = 6 then local' ufeEngine
  else if qi = 7 then local' skeEngine
  else if qi = 8 then local' fceEngine
  else s

/-- R200: whether the head of a queue has performed all of its work. -/
def performed (s : State) (cl qi : Nat) (m : SCmd) : Bool := m.done || (decide (qi = 1) && m.started && launchExited s cl m)

/-- R189: with a TUNCFG's completion every way has its new mode. -/
def finishHead (cl qi k : Nat) (m : SCmd) (s : State) : State :=
  completeHead cl qi k m (if qi = 0 ∧ mOp m = 5 then tuncfgRun cl m.bytes s else s)

/-- ENGINE_COMMAND_COMPLETE (R200): the head of a queue performs what remains of it, and is complete once every write it made is
complete at its endpoint, those in host memory by a zero-length read behind them (R293). -/
def execEngineCommandComplete (cl qi : Nat) (s : State) : Out := whenOn s <|
  .next (match controlUp s cl, streamQueue s cl qi with
    | some k, m :: _ =>
      let s := if m.started then runRest cl qi k m s else s
      (match streamQueue s cl qi with
       | m :: _ =>
         if performed s cl qi m then
           match hostFlush (.engine cl qi) s with
           | (s, true) => finishHead cl qi k m s
           | (s, false) => s
         else s
       | [] => s)
    | _, _ => s)

end Sys2Proof.Machine
end

