-- ==== Sys2Proof/Machine/Fp.lean ====
section
/-!
DEFINITION. The FP and FP64 classes (R105, R106).
-/
namespace Sys2Proof.Machine

/-- The halves of a packed register as one result: each computed in its own 16 bits. -/
def packed (f : Fmt → Nat → Nat → Nat → Res) (fmt : Fmt) (a b c : Nat) : Res :=
  let lo := f fmt (a % 2 ^ 16) (b % 2 ^ 16) (c % 2 ^ 16)
  let hi := f fmt (a / 2 ^ 16) (b / 2 ^ 16) (c / 2 ^ 16)
  ⟨lo.code + 2 ^ 16 * hi.code, lo.flags ||| hi.flags⟩

/-- R105: an FP operation by FTYPE: FP32, FP16 × 2 or BF16 × 2. -/
def byType (ft : Nat) (f : Fmt → Nat → Nat → Nat → Res) (a b c : Nat) : Res :=
  if ft = 0 then f fp32 a b c else if ft = 1 then packed f fp16 a b c else packed f bf16 a b c

/-- FTYPE of a word; format I is FP32 only (R596). -/
def ftype (b : InstrBits) : Nat := if b.op5 then 0 else bits (fldMod b) 12 11

/-- FTYPE 0b11 is reserved. -/
def ftypeOk (b : InstrBits) : Bool := decide (ftype b ≠ 3)

/-- D, A and B; MOD[12:11] FTYPE, MOD[1:0] negate B and A. -/
def sigFp : Sig := ⟨.reg, .reg, .reg, .unused, 0x1803, some 3⟩

/-- An FP operation on A and B. -/
def fpOp (f : Course → Bool → Bool → Fmt → Nat → Nat → Res) (g slot : Nat) (b : InstrBits) (s : State) : State :=
  aluOp sigFp ftypeOk 1 (fun c l =>
    byType (ftype b) (fun fmt x y _ => f c (bit (modOf b) 0) (bit (modOf b) 1) fmt x y)
      (opd c b.au (fldA b) l) (if b.op5 then immFp b else opd c b.bu (fldB b) l) 0) g slot b s

/-- FADD (R105, R106). -/
def execFadd (g slot : Nat) (b : InstrBits) (s : State) : Out := whenFetched (wordOf 1 0 b) g slot s <|
  .next (fpOp (fun c na nb fmt x y => fAdd fmt (aswRnd c) (aswSubn c) na nb x y) g slot b s)
/-- FMUL (R105, R106). -/
def execFmul (g slot : Nat) (b : InstrBits) (s : State) : Out := whenFetched (wordOf 1 1 b) g slot s <|
  .next (fpOp (fun c na nb fmt x y => fMul fmt (aswRnd c) (aswSubn c) na nb x y) g slot b s)
/-- FFMA (R105, R106): A × B + C rounded once; no format I. -/
def execFfma (g slot : Nat) (b : InstrBits) (s : State) : Out := whenFetched (wordOf 1 2 b) g slot s <|
  .next (aluOp ⟨.reg, .reg, .reg, .reg, 0x1807, none⟩ ftypeOk 1 (fun c l =>
    byType (ftype b) (fun fmt x y z =>
        fFma fmt (aswRnd c) (aswSubn c) (bit (fldMod b) 0) (bit (fldMod b) 1) (bit (fldMod b) 2) x y z)
      (opd c b.au (fldA b) l) (opd c b.bu (fldB b) l) (opd c b.cu (fldC b) l)) g slot b s)
/-- FMIN (R106): minimumNumber. -/
def execFmin (g slot : Nat) (b : InstrBits) (s : State) : Out := whenFetched (wordOf 1 3 b) g slot s <|
  .next (fpOp (fun c na nb fmt x y => fMinMax fmt (aswSubn c) false na nb x y) g slot b s)
/-- FMAX (R106): maximumNumber. -/
def execFmax (g slot : Nat) (b : InstrBits) (s : State) : Out := whenFetched (wordOf 1 4 b) g slot s <|
  .next (fpOp (fun c na nb fmt x y => fMinMax fmt (aswSubn c) true na nb x y) g slot b s)

/-- D and A, no MOD. -/
def sigUn : Sig := ⟨.reg, .reg, .unused, .unused, 0, none⟩
/-- FRCP (R105): FP32 only. -/
def execFrcp (g slot : Nat) (b : InstrBits) (s : State) : Out := whenFetched (wordOf 1 5 b) g slot s <|
  .next (aluOp sigUn always 1 (fun c l => fRcp fp32 (aswRnd c) (aswSubn c) false (opd c b.au (fldA b) l)) g slot b s)
/-- FSQRT (R105): FP32 only. -/
def execFsqrt (g slot : Nat) (b : InstrBits) (s : State) : Out := whenFetched (wordOf 1 6 b) g slot s <|
  .next (aluOp sigUn always 1 (fun c l => fSqrt fp32 (aswRnd c) (aswSubn c) false (opd c b.au (fldA b) l)) g slot b s)

/-- Binary64 on pairs: D, A and B; format R only (R98). -/
def sigDp : Sig := ⟨.pair, .pair, .pair, .unused, 0, none⟩
/-- A binary64 operation on A and B. -/
def dpOp (f : Course → Nat → Nat → Res) (g slot : Nat) (b : InstrBits) (s : State) : State :=
  aluOp sigDp always 2 (fun c l => f c (opd64 c b.au (fldA b) l) (opd64 c b.bu (fldB b) l)) g slot b s
/-- DADD (R106). -/
def execDadd (g slot : Nat) (b : InstrBits) (s : State) : Out := whenFetched (wordOf 2 0 b) g slot s <|
  .next (dpOp (fun c x y => fAdd fp64 (aswRnd c) (aswSubn c) false false x y) g slot b s)
/-- DMUL (R106). -/
def execDmul (g slot : Nat) (b : InstrBits) (s : State) : Out := whenFetched (wordOf 2 1 b) g slot s <|
  .next (dpOp (fun c x y => fMul fp64 (aswRnd c) (aswSubn c) false false x y) g slot b s)
/-- DFMA (R106). -/
def execDfma (g slot : Nat) (b : InstrBits) (s : State) : Out := whenFetched (wordOf 2 2 b) g slot s <|
  .next (aluOp ⟨.pair, .pair, .pair, .pair, 0, none⟩ always 2 (fun c l =>
    fFma fp64 (aswRnd c) (aswSubn c) false false false (opd64 c b.au (fldA b) l) (opd64 c b.bu (fldB b) l)
      (opd64 c b.cu (fldC b) l)) g slot b s)
/-- DMIN (R106). -/
def execDmin (g slot : Nat) (b : InstrBits) (s : State) : Out := whenFetched (wordOf 2 3 b) g slot s <|
  .next (dpOp (fun c x y => fMinMax fp64 (aswSubn c) false false false x y) g slot b s)
/-- DMAX (R106). -/
def execDmax (g slot : Nat) (b : InstrBits) (s : State) : Out := whenFetched (wordOf 2 4 b) g slot s <|
  .next (dpOp (fun c x y => fMinMax fp64 (aswSubn c) true false false x y) g slot b s)

end Sys2Proof.Machine
end

