-- ==== Sys2Proof/Machine/ServiceOps.lean ====
section
/-!
DEFINITION. What the service commands share: their fields, the image write, sockets, the fault map, the blocks (R453, R460,
R461, R515 to R529).
-/
namespace Sys2Proof.Machine

/-! ## Fields of BIST and CARTRIDGE (R515 to R518) -/

/-- OP of a BIST or CARTRIDGE command. -/
def svcOp (c : Cmd) : Nat := fieldOf c.bytes 24 1
/-- STORE. -/
def svcStore (c : Cmd) : Bool := bit (fieldOf c.bytes 25 1) 0
/-- TARGET of a BIST command. -/
def svcTarget (c : Cmd) : Nat := fieldOf c.bytes 26 2 % 4096
/-- UNIT. -/
def svcUnit (c : Cmd) : Nat := fieldOf c.bytes 28 1
/-- ADDR; LIST of a CARTRIDGE command. -/
def svcAddr (c : Cmd) : Nat := fieldOf c.bytes 32 8
/-- SOCKET of a CARTRIDGE command. -/
def svcSocket (c : Cmd) : Nat := fieldOf c.bytes 25 1
/-- COUNT of a CARTRIDGE command. -/
def svcCount (c : Cmd) : Nat := fieldOf c.bytes 26 2

/-- R516, R517: the blocks that service commands name. -/
inductive Block where
  | cluster (n : Nat)
  | slice (n : Nat)
  | hbm (n : Nat)
  | deep (n : Nat)
  | port (n : Nat)
  deriving DecidableEq, Repr

/-- R19, R516: the block of a TARGET. -/
def blockOf (t : Nat) : Option Block :=
  ((List.range 16).find? (fun n => decide (t = agTundish n))).map Block.cluster <|>
  ((List.range 64).find? (fun n => decide (t = agSlice n))).map Block.slice <|>
  ((List.range 12).find? (fun n => decide (t = agHbm n))).map Block.hbm <|>
  ((List.range 16).find? (fun n => decide (t = agDeep n))).map Block.deep <|>
  ((List.range 24).find? (fun n => decide (t = agPort n))).map Block.port

/-- R516, R517: the targets and units that an OP accepts. -/
def targetOk (op unit : Nat) (b : Option Block) : Bool :=
  match op, b with
  | 1, some (.cluster _) | 1, some (.slice _) => decide (unit = 0xFF)
  | 1, some (.deep _) => decide (unit = 0xFF) || decide (unit < 8)
  | 1, some (.port _) => decide (unit = 0xFF) || decide (unit < 4)
  | 2, some (.hbm _) => decide (unit < 32)
  | 2, some (.deep _) => decide (unit < 8)
  | 2, some (.port _) => decide (unit = 0xFF) || decide (unit < 4)
  | 3, some (.cluster _) | 3, some (.slice _) | 4, some (.cluster _) => decide (unit = 0xFF)
  | _, _ => false

/-- R515 to R517: a BIST command's own fields; a field that the OP does not use is not checked (R39). -/
def bistOk (c : Cmd) : Bool :=
  let op := svcOp c
  if op = 5 then decide (svcTarget c = 0)
  else if op = 6 ∨ op = 7 then decide (svcAddr c % 4096 = 0)
  else targetOk op (svcUnit c) (blockOf (svcTarget c))

/-- R515, R518: a CARTRIDGE command's own fields. -/
def cartridgeOk (c : Cmd) : Bool :=
  let op := svcOp c
  decide (1 ≤ op) && decide (op ≤ 4) && decide (svcSocket c < 16) &&
    (decide (op ≠ 1) || (decide (1 ≤ svcCount c) && decide (svcCount c ≤ 4096)))

/-- R515: an end of a service command that its fields or the state of its block refuse: BAD_COMMAND or SOCKET_STATE.
(DEDUCED, log entry 86.) -/
def svcBad (sub : Nat) : Ending := protEnd sub (agFw 1) 0

/-- R515: a service command goes on, one at a time. -/
def svcStep (q opcode op : Nat) (ok : Cmd → Bool) (s : State) (k : Cmd → State → State) : State :=
  if !pmcRuns s || !(startedQueues s 8 ++ startedQueues s 9).all (fun x => decide (x = q)) then s
  else
    match headCmd s q with
    | none => s
    | some c =>
      if c.started then running q opcode s (fun c => if svcOp c = op then k c s else s)
      else begin q opcode (fun _ => true) s (fun c =>
        if opcode = 9 ∧ s.boot.reduced = true then endCommand q ⟨stAborted, 0x70, 0x12, agFw 1, 0⟩ 0 (useCredit q s)
        else if !ok c then endCommand q (svcBad 0x11) 0 (useCredit q s)
        else if svcOp c ≠ op then s
        else
          let s := startCommand q c (useCredit q s)
          match headCmd s q with
          | none => s
          | some c => k c s)

/-! ## Writing the configuration image (R453, R455, R460, R529) -/

/-- R460: a calibration entry whose payload only the device interprets: free bytes and their CRC. -/
def calEntry (u : Nat) : List Byte :=
  let p := freeBytes u 60
  p ++ leBytes 4 (crc32c p)

/-- R460: MEM_CAL of this module; its entries are drawn from free value `u` on. -/
def memCal (u : Nat) : List Byte :=
  leBytes 8 Config.fusedSerial ++ (List.range 384).flatMap (fun i => calEntry (u + i)) ++
    (List.range 16).flatMap (fun n => leBytes 8 (Config.cartridgeSerial n u) ++ (List.range 8).flatMap (fun c => calEntry (u + 384 + 8 * n + c)))

/-- R460: AMX_CAL of this module. -/
def amxCal (u : Nat) : List Byte := leBytes 8 Config.fusedSerial ++ (List.range 96).flatMap (fun i => calEntry (u + 512 + i))

/-- R455: the section entries of sections that follow each other from an offset. -/
def secTable : Nat → List (Nat × List Byte) → List Byte
  | _, [] => []
  | o, (t, x) :: xs => leBytes 2 t ++ leBytes 2 0 ++ leBytes 4 o ++ leBytes 4 x.length ++ leBytes 4 0 ++ secTable (o + roundUp x.length 8) xs

/-- R455: an image of sections, each padded to 8 B, with its CRC. -/
def buildImage (seq : Nat) (xs : List (Nat × List Byte)) : List Byte :=
  let body := xs.flatMap (fun x => x.2 ++ List.replicate (roundUp x.2.length 8 - x.2.length) 0)
  let n := 32 + 16 * xs.length + body.length
  let h := fun (crc : Nat) => leBytes 4 0x4E564347 ++ leBytes 2 1 ++ leBytes 2 xs.length ++ leBytes 4 seq ++ leBytes 4 n ++ leBytes 4 crc ++ leBytes 12 0
  let rest := secTable (32 + 16 * xs.length) xs ++ body
  h (crc32c (h 0 ++ rest)) ++ rest

/-- The image that a service write starts from: the one the flash holds, else the one in use.
(DEDUCED, log entry 89.) -/
def storedImage (s : State) : List Byte :=
  if imagePasses s.boot.flash.cfgA then s.boot.flash.cfgA
  else if imagePasses s.boot.flash.cfgB then s.boot.flash.cfgB
  else s.boot.image

/-- R453: both copies hold an image. -/
def writeImage (bs : List Byte) (s : State) : State :=
  { s with boot := { s.boot with flash := { s.boot.flash with cfgA := bs, cfgB := bs } } }

/-- R453, R519, R521, R526, R529: the live fault map, the calibration in use and POPULATED go into the flash in one image
write. -/
def storeAll (populated : Nat) (s : State) : State :=
  let b := storedImage s
  let sec := fun t => (t, (sectionOf b t).getD [])
  let im := buildImage ((fieldOf b 8 4 + 1) % 2 ^ 32)
    [sec 1, sec 2, (3, leBytes 2 populated ++ leBytes 2 0), (4, memCal s.free), sec 5, (6, amxCal s.free), sec 7, (8, mapBytes s.boot.map)]
  writeImage im (bumpFree s 608)

/-- POPULATED as the flash holds it. -/
def storedPopulated (s : State) : Nat := fieldOf ((sectionOf (storedImage s) 3).getD []) 0 2

/-- A service command with STORE writes the flash. -/
def storeIf (b : Bool) (s : State) : State := if b then storeAll (storedPopulated s) s else s

/-- R461: the live fault map changes. -/
def setMap (f : FaultMap → FaultMap) (s : State) : State := { s with boot := { s.boot with map := f s.boot.map } }

/-! ## Cartridge ranges (R245, R523 to R525) -/

/-- Whether a LOC lies in the raw range or the expanded view of cartridge `n`. -/
def inSocket (n loc : Nat) : Bool :=
  match placeOf loc with
  | .raw c _ | .view c _ => decide (c = n)
  | _ => false

/-- The lines of cartridge `n` that some agent, slice or L1 holds, and those with a transaction. -/
def cachedLines (n : Nat) (s : State) : List Nat :=
  let mine := fun (l : Nat) => decide (l < 2 ^ 57) && inSocket n (128 * l)
  ((s.mm.lines.flatMap (fun (e : Nat × Tbl LState) => e.2.map Prod.fst)) ++ (s.mm.cru.flatMap (fun (e : Nat × Tbl WayEnt) => e.2.map (fun (w : Nat × WayEnt) => w.2.line - 1))) ++
    (s.mm.dir.map Prod.fst) ++ (s.mm.txn.map Prod.fst) ++
    (s.cores.flatMap (fun (e : Nat × Core) => e.2.l1.map (fun (x : Nat × L1Line) => x.2.tag % 2 ^ 39)))).eraseDups.filter mine

/-- A line is written back and invalidated wherever it is held. -/
def recallLine (s : State) (line : Nat) : State :=
  let s := (holders (dirOf s line)).foldl (fun s c => giveUp c line s) s
  setDir s line .U

/-- R245: every cached line of a cartridge's ranges is invalidated. -/
def dropSocket (n : Nat) (s : State) : State :=
  let ls := cachedLines n s
  let s := ls.foldl (fun s l => cruDrop (128 * l) (recallLine s l)) s
  { s with cores := s.cores.map (fun e => (e.1, { e.2 with l1 := e.2.l1.filter (fun x => !ls.contains (x.2.tag % 2 ^ 39) || decide (2 ^ 64 ≤ x.2.tag)) })) }

/-- What a table of lines keeps without cartridge `n`. -/
def linesOut {α : Type} (n : Nat) (t : Tbl α) : Tbl α := t.filter (fun e => !inSocket n (128 * e.1))

/-- R258, R524, R525: the contents of a cartridge are gone: its ranges read as zero under selector 0 when they are mapped again. -/
def wipeSocket (n : Nat) (s : State) : State :=
  let m := s.mm
  { s with mm := { m with
      mem := m.mem.filter (fun c => !inSocket n c.1), key := linesOut n m.key, poison := linesOut n m.poison
      rawSeq := linesOut n m.rawSeq, decoded := tdel m.decoded n } }

/-- DC_READY of a socket. -/
def setMapped (n : Nat) (b : Bool) (s : State) : State := setF s dcReady (setBit (getF s dcReady) n b)

/-- PRESENT of a socket. -/
def setPresent (n : Nat) (b : Bool) (s : State) : State :=
  setB { s with boot := { s.boot with present := setBit s.boot.present n b } } (sockPresent n) b

/-! ## Blocks in and out of service (R521, R522, R526) -/

/-- A cluster leaves service: its tundish writes back, it enters COLD and shows RETIRED (R521). -/
def retireCluster (cl : Nat) (s : State) : State :=
  toCold cl { s with pmc := { s.pmc with retired := s.pmc.retired.filter (fun n => decide (n ≠ cl)) ++ [cl] } }

/-- A cluster returns to service (R492, R521). -/
def reinstateCluster (cl : Nat) (s : State) : State :=
  fromCold cl { s with pmc := { s.pmc with retired := s.pmc.retired.filter (fun n => decide (n ≠ cl)) } }

/-- The slices that are retired. -/
def retiredSlices (s : State) : Nat := testMask 64 (fun h => isOn s (homeRetired h))

/-- R522: the lines whose home is slice `n`. -/
def homedLines (n : Nat) (s : State) : List Nat :=
  ((s.mm.dir.map Prod.fst) ++ (s.mm.txn.map Prod.fst)).eraseDups.filter (fun l => decide (l < 2 ^ 57) && decide (homeOf s (128 * l) = n))

/-- R522: a slice is retired: its lines are recalled, its poison log moves, its homes go to the substitute; the crucible
translation entries that lay in it are lost (which of them lay there is the model's free choice).
(DEDUCED, log entry 91.) -/
def retireSlice (n : Nat) (s : State) : State :=
  let sub := substitute (setBit (retiredSlices s) n true) n
  let s := (homedLines n s).foldl recallLine s
  let lg := tget [] s.mm.log sub ++ tget [] s.mm.log n
  let m := s.mm
  let u := s.free
  let k := s.xl.crucible.length
  let kept := ((List.range k).zip s.xl.crucible).filter (fun x => !Config.freeBool (u + x.1))
  let s := { s with
    mm := { m with cru := tdel m.cru n, log := tdel (tset [] m.log sub (lg.drop (lg.length - 64))) n }
    xl := { s.xl with crucible := kept.map (fun x => x.2) } }
  let hs := (List.range 64).filter (fun h => decide (getF s (homeMap h) = n))
  hs.foldl (fun s h => setOn (setF s (homeMap h) sub) (homeRetired h)) (bumpFree s k)

/-- R526: a block is isolated. -/
def flask (agent : Nat) (s : State) : State := setF (setOn s bistActive) bistTarget agent
/-- It is isolated no longer. -/
def unflask (s : State) : State := setF (setOff s bistActive) bistTarget 0

/-- R526: the end of a command whose block failed self-test. -/
def selftestFail (agent : Nat) : Ending := faultEnd 0x31 0x15 agent 0

end Sys2Proof.Machine
end

