-- ==== Sys2Proof/Machine/Observe.lean ====
section
/-!
DEFINITION. The rows of the freeze trigger, the trace rings, key regeneration and secure unlock (R540 to R549, R550 to R572).
-/
namespace Sys2Proof.Machine

/-! ## The freeze trigger (R555, R556) -/

/-- FIRE (R555). -/
def execFire (s : State) : Out := whenOn s <| inOrder .fire s <| .next (raiseTrigger 0 s)

/-- R555: counting resumes from the frozen values. -/
def rearm (s : State) : State := setOff s trigFrozen

/-- REARM (R555). -/
def execRearm (s : State) : Out := whenOn s <| inOrder .rearm s <| .next (rearm s)

/-- TRIG_IN (R587): high for at least two AO ticks; whether a shorter pulse is seen is a free value. (DEDUCED, log entry 93.) -/
def execTrigIn (ticks : Nat) (s : State) : Out := whenOn s <|
  .next (
    if 2 ≤ ticks then raiseTrigger 1 s
    else if Config.freeBool s.free then raiseTrigger 1 (bumpFree s 1)
    else bumpFree s 1)

/-- R555: a FREEZE record in a unit's ring.  No rule names the record's AGENT: a free value. (DEDUCED, log entry 93.) -/
def freezeRecord (cause : Nat) (s : State) (u : Nat) : State :=
  let r : TraceRec := ⟨0x0C, 0, nthAgent (freeNat s), 0, 0, getF s amxFret % 2 ^ 32, s.ts, cause⟩
  tracePush u true r (bumpFree s 1)

/-- COUNTER_FREEZE (R555, R556). -/
def execCounterFreeze (s : State) : Out := whenOn s <|
  .next (
    match s.trc.trigger with
    | none => s
    | some (t, cause) =>
              let s := timeTo t { s with trc := { s.trc with trigger := none } }
        let fret := getF s amxFret
        let s := setF (setF (setF (setOn s trigFrozen) trigCause cause) freezeFret fret) freezeTs (s.ts % 2 ^ 64)
        let s := (List.range 17).foldl (freezeRecord cause) s
        if cause ≠ 2 ∧ isOn s trigFabric = true then { s with trc := { s.trc with ownFret := some fret } } else s)

/-- COUNTER_WRAP (R551): one more event of a counter that stands at its largest value. -/
def execCounterWrap (unit index : Nat) (s : State) : Out := whenOn s <|
  .next (
    if decide (unit < 209) && decide (index < counterCount unit) && !isOn s trigFrozen && isOn s (selEnable unit index) &&
        decide (getF s (selEvent unit index) ≠ 0) && decide (getF s (cntCount unit index) = 2 ^ 48 - 1) then countOne unit index 1 s
    else s)

/-! ## Trace rings (R557 to R562) -/

/-- R572: SIZE_LOG2 of a ring, at the nearer limit. -/
def ringLog (s : State) (u : Nat) : Nat := max 8 (min 24 (getF s (ringSize u)))

/-- R558: the bytes of record `k`. -/
def recordBytesOf (k : Nat) (r : TraceRec) : List Byte :=
  leBytes 4 (k + 1) ++ leBytes 1 r.typ ++ leBytes 1 r.flags ++ leBytes 2 r.agent ++ leBytes 2 r.layer ++ leBytes 2 r.op ++
    leBytes 4 r.fret ++ leBytes 8 r.ts ++ leBytes 8 r.arg

/-- R562: the oldest event leaves a unit's FIFO; a GAP record takes the reserve after drops.  No rule names its AGENT: a free
value. -/
def popTrace (u : Nat) (s : State) : State :=
  let x := traceUnit s u
  if x.drops = 0 then setTraceUnit s u { x with fifo := x.fifo.drop 1 }
  else
    let gap : TraceRec := ⟨0x0D, 0, nthAgent (freeNat s), 0, 0, x.dropFret, x.dropTs, x.drops % 2 ^ 32⟩
    setTraceUnit (bumpFree s 1) u { fifo := x.fifo.drop 1 ++ [gap] }

/-- R557: whether every byte of a place is HBM under R228. -/
def ringPlace (dpa : Nat) : Bool :=
  match placeOf (locOf dpa) with
  | .hbm _ => decide (dpa < 2 ^ 52)
  | _ => false

/-- TRACE_RECORD_WRITE (R557). -/
def execTraceRecordWrite (unit : Nat) (s : State) : Out := whenOn s <|
  .next (
    if decide (17 ≤ unit) || !isOn s (ringEnable unit) then s
    else
      match (traceUnit s unit).fifo with
      | [] => s
      | r :: _ =>
        let k := getF s (ringProd unit)
        let dpa := getF s (ringDpa unit) * 4096 + 32 * (k % 2 ^ ringLog s unit)
        let line := lineOf (locOf dpa)
        if !ringPlace dpa then setOn s trcRingErr
        else if !isOn s (ringWrap unit) && decide (2 ^ ringLog s unit ≤ (k + 2 ^ 32 - getF s (ringCons unit)) % 2 ^ 32) then s
        else if lineBusy s line none none none then s
        else
          match writeBar s (agFw 2) dpa with
          | .ok () =>
            let s := homeWrite dpa (recordBytesOf k r) false s
            popTrace unit (incF s (ringProd unit) 1)
          | _ => s)

/-! ## Keys and debug (R542 to R546, R548, R549) -/

/-- R542: the lines last written under a selector that are held somewhere. -/
def keyLines (sel : Nat) (s : State) : List Nat :=
  ((s.mm.lines.flatMap (fun (e : Nat × Tbl LState) => e.2.map Prod.fst)) ++ (s.mm.cru.flatMap (fun (e : Nat × Tbl WayEnt) => e.2.map (fun (w : Nat × WayEnt) => w.2.line - 1))) ++
    s.mm.dir.map Prod.fst).eraseDups.filter (fun l => decide (l < 2 ^ 57) && decide (lineTag s l % 64 = sel))

/-- R542, R548: one selector's pair is to be drawn anew: from here on new requests under it are held. -/
def regen (sel : Nat) (s : State) : State :=
  if sel = 0 then setOn s keyErr
  else if isOn s keyBusy then setOn s keyLost
  else setF (setOn s keyBusy) keySel sel

/-- R542: the erase ends: once no transaction is under way on a line last written under the selector, cached lines under it are
written back and invalidated, the new pair is loaded, and the held requests go on. (DEDUCED, log entry 95.) -/
def regenDone (s : State) : State :=
  let sel := getF s keySel
  let ls := keyLines sel s
  if !isOn s keyBusy || ls.any (fun l => lineBusy s l none none none) then s
  else
    let s := ls.foldl (fun s l => cruDrop (128 * l) (recallLine s l)) s
    let s := { s with
      cores := s.cores.map (fun e => (e.1, { e.2 with l1 := e.2.l1.filter (fun x => decide (2 ^ 64 ≤ x.2.tag) || decide (x.2.tag / 2 ^ 39 ≠ sel)) }))
      sec := { s.sec with gens := tset 0 s.sec.gens sel (tget 0 s.sec.gens sel + 1) } }
    incF (setOff s keyBusy) keyGen 1

/-- REGEN (R542). -/
def execRegen (selector : Nat) (s : State) : Out := whenOn s <| inOrder (.regen selector) s <|
  .next (if selector < 64 then regen selector s else s)

/-- R544: whether a token, its level in byte 0 and then the signature, is accepted: it signs the fused serial, the current nonce
and the level, and the level is not reserved. -/
def tokenOk (s : State) (token : List Byte) : Bool :=
  decide (fieldOf token 0 1 = 1) &&
    Config.signatureOk 1 (leBytes 8 Config.fusedSerial ++ leBytes 4 (Config.debugNonce s.sec.nonce) ++ token)

/-- DEBUG_UNLOCK_TOKEN (R544 to R546): an accepted token resets the module and starts it unlocked. -/
def execDebugUnlockToken (token : List Byte) (s : State) : Out := whenOn s <|
  .next (
          let ok := tokenOk s token && decide (getF s dbgState ≠ 2)
      let s := { s with sec := { s.sec with nonce := s.sec.nonce + 1 } }
      if ok then setF (tryStart (moduleReset s)) dbgState 1
      else
        let s := incSat s dbgFails 1
        if 8 ≤ getF s dbgFails then setF s dbgState 2 else s)

end Sys2Proof.Machine
end

