-- ==== Sys2Proof/Machine/Pred.lean ====
section
/-!
DEFINITION. The PRED class and the moves of the MOV class (R105 to R109).
-/
namespace Sys2Proof.Machine

/-- rel of a compare. -/
def cmpRel (b : InstrBits) : Nat := modOf b % 16
/-- COMB of a compare: 0 in format I (R596). -/
def cmpComb (b : InstrBits) : Nat := if b.op5 then 0 else bits (fldMod b) 6 5

/-- R105: the relation combined with p[C]. -/
def combine (comb : Nat) (r p : Bool) : Bool :=
  if comb = 0 then r else if comb = 1 then r && p else if comb = 2 then r || p else r && !p

/-- D a predicate, A and B registers, C a predicate where COMB uses it. -/
def sigCmp (b : InstrBits) (mod immMod : Nat) : Sig :=
  ⟨.pred, .reg, .reg, if cmpComb b = 0 then .unused else .pred, mod, some immMod⟩

/-- R105: the relation on integers; unordered never holds and ordered always does. -/
def relI (rel : Nat) (signed : Bool) (a b : Nat) : Bool :=
  let lt := if signed then decide (sext 32 a < sext 32 b) else decide (a < b)
  let eq := decide (a = b)
  if rel = 0 then eq else if rel = 1 then !eq else if rel = 2 then lt else if rel = 3 then lt || eq
  else if rel = 4 then !lt && !eq else if rel = 5 then !lt else if rel = 6 then false else true

/-- ICMP (R105). -/
def execIcmp (g slot : Nat) (b : InstrBits) (s : State) : Out := whenFetched (wordOf 4 0 b) g slot s <|
  .next (issue g slot (sigOk (sigCmp b 0x7F 0x1F) b && decide (cmpRel b < 8)) (sigTop (sigCmp b 0x7F 0x1F) b) s (fun c =>
    let m := lanesOf c b
    let x := maskOf (fun l => combine (cmpComb b)
      (relI (cmpRel b) (bit (modOf b) 4) (opd c b.au (fldA b) l) (if b.op5 then immInt b 32 else opd c b.bu (fldB b) l))
      ((preg c (fldC b)).getLsbD l))
    retire g slot (setP c (fldD b) m x) s))

/-- R105, R106: one lane's FCMP: the relation and its flags. -/
def fcmpLane (c : Course) (b : InstrBits) (l : Nat) : Bool × Word :=
  let fmt := if ftype b = 0 then fp32 else if ftype b = 1 then fp16 else bf16
  let x := readF fmt (aswSubn c) false (opd c b.au (fldA b) l)
  let y := readF fmt (aswSubn c) false (if b.op5 then immFp b else opd c b.bu (fldB b) l)
  (relF (cmpRel b) x.1 y.1, x.2 ||| y.2 ||| flagIf (isSnanF x.1 || isSnanF y.1) fInvalid)

/-- FCMP (R105, R106): a quiet comparison. -/
def execFcmp (g slot : Nat) (b : InstrBits) (s : State) : Out := whenFetched (wordOf 4 1 b) g slot s <|
  .next (issue g slot (sigOk (sigCmp b 0x186F 0x0F) b && ftypeOk b && decide (cmpRel b < 8)) (sigTop (sigCmp b 0x186F 0x0F) b) s (fun c =>
    let m := lanesOf c b
    let x := maskOf (fun l => combine (cmpComb b) (fcmpLane c b l).1 ((preg c (fldC b)).getLsbD l))
    let fl := (laneList m).foldl (fun a l => a ||| (fcmpLane c b l).2) 0
    retire g slot (raiseFlags (setP c (fldD b) m x) fl) s))

/-- PLOP (R105): the truth table MOD[7:0] at p[A] + 2 p[B] + 4 p[C]. -/
def execPlop (g slot : Nat) (b : InstrBits) (s : State) : Out := whenFetched (wordOf 4 2 b) g slot s <|
  let sg : Sig := ⟨.pred, .pred, .pred, .pred, 0xFF, none⟩
  .next (issue g slot (sigOk sg b) 0 s (fun c =>
    let at' := fun (r l : Nat) => b2n ((preg c r).getLsbD l)
    retire g slot (setP c (fldD b) (lanesOf c b)
      (maskOf (fun l => bit (fldMod b) (at' (fldA b) l + 2 * at' (fldB b) l + 4 * at' (fldC b) l)))) s))

/-- SEL (R105): D = p[C] ? A : B; a predicate is no uniform source, so D is a vector register. -/
def execSel (g slot : Nat) (b : InstrBits) (s : State) : Out := whenFetched (wordOf 4 3 b) g slot s <|
  .next (aluOp ⟨.reg, .reg, .reg, .pred, 0, none⟩ (fun b => !b.du) 1 (fun c l =>
    ⟨if (preg c (fldC b)).getLsbD l then opd c b.au (fldA b) l else opd c b.bu (fldB b) l, 0⟩) g slot b s)

/-- MOV (R105). -/
def execMov (g slot : Nat) (b : InstrBits) (s : State) : Out := whenFetched (wordOf 5 0 b) g slot s <|
  .next (aluOp ⟨.reg, .reg, .unused, .unused, 0, none⟩ always 1 (fun c l => ⟨opd c b.au (fldA b) l, 0⟩) g slot b s)

/-- MOVI (R105): format L, IMM[31:0]. -/
def execMovi (g slot : Nat) (b : InstrBits) (s : State) : Out := whenFetched (wordOf 5 1 b) g slot s <|
  let legal := guardOk b && !b.op5 && !b.au && !b.bu && !b.cu && Form.ok .reg b.du (fldD b) &&
    decide (bits b.low.toNat 36 32 = 0) && !(b.du && b.gen)
  .next (issue g slot legal (Form.top .reg b.du (fldD b)) s (fun c =>
    retire g slot (writeD c b 1 (fun _ => ⟨fldLong b, 0⟩)) s))

/-- R120: POUR_STAT of a course. (DEDUCED, log entry 20.) -/
def pourStat (c : Course) : Nat :=
  c.pourCode + 2 ^ 8 * c.pourSub + 2 ^ 16 * b2n (decide (c.pour ≠ .closed)) + 2 ^ 17 * b2n c.pourSerial

/-- R107: the special registers, by number: the value in a lane. -/
def specialReg (s : State) (c : Course) (n l : Nat) : Nat :=
  if n = 0 then l
  else if n = 1 then c.active.toNat
  else if n = 2 then c.asw.toNat
  else if n = 3 then pourStat c
  else if n = 4 then s.aoTick % 2 ^ 32
  else if n = 5 then s.aoTick / 2 ^ 32 % 2 ^ 32
  else if n = 6 then getF s amxFret % 2 ^ 32
  else getF s amxFret / 2 ^ 32

/-- MOV.SR (R107): D receives special register A; LANE_ID goes to vector registers only.  A read of the ASW waits for
a drain or a clear of the course (R109, R150). (DEDUCED, log entry 11.) -/
def execMovSr (g slot : Nat) (b : InstrBits) (s : State) : Out := whenFetched (wordOf 5 2 b) g slot s <|
  if fldA b = 2 ∧ harpPending s g slot then .next s
  else
    .next (aluOp ⟨.reg, .number, .unused, .unused, 0, none⟩
      (fun b => decide (fldA b ≤ 7) && !(decide (fldA b = 0) && b.du)) 1
      (fun c l => ⟨specialReg s c (fldA b) l, 0⟩) g slot b s)

/-- The bits of the ASW that are not reserved (R108). -/
def aswMask : Word := 0x7F07

/-- MOV.SW (R107, R109): the ASW, the one writable special register, takes the uniform register named in B
(DESIGN CHOICE: the spec names no source field, log entry 10). -/
def execMovSw (g slot : Nat) (b : InstrBits) (s : State) : Out := whenFetched (wordOf 5 3 b) g slot s <|
  if harpPending s g slot then .next s
  else
    .next (issue g slot (sigOk ⟨.unused, .number, .ureg, .unused, 0, none⟩ b && decide (fldA b = 2) && !b.gen) 0 s (fun c =>
      retire g slot { c with asw := ureg c (fldB b) &&& aswMask } s))

/-- R105: the source lane of a SHFL. (DEDUCED, log entry 16.) -/
def shflLane (mode l x : Nat) : Option Nat :=
  if mode = 0 then (if x < 32 then some x else none)
  else if mode = 1 then (if x ≤ l then some (l - x) else none)
  else if mode = 2 then (if l + x < 32 then some (l + x) else none)
  else (if x < 32 then some (l ^^^ x) else none)

/-- SHFL (R105): a lane whose source lane is inactive or out of range receives its own A. -/
def execShfl (g slot : Nat) (b : InstrBits) (s : State) : Out := whenFetched (wordOf 5 4 b) g slot s <|
  .next (aluOp ⟨.reg, .reg, .reg, .unused, 3, none⟩ always 1 (fun c l =>
    let src := match shflLane (fldMod b) l (opd c b.bu (fldB b) l) with
      | some k => if (lanesOf c b).getLsbD k then k else l
      | none => l
    ⟨opd c b.au (fldA b) src, 0⟩) g slot b s)

/-- VOTE (R105): uniform D = the active lanes whose p[A] is 1. -/
def execVote (g slot : Nat) (b : InstrBits) (s : State) : Out := whenFetched (wordOf 5 5 b) g slot s <|
  .next (aluOp ⟨.ureg, .pred, .unused, .unused, 0, none⟩ always 1 (fun c _ =>
    ⟨(c.active &&& preg c (fldA b)).toNat, 0⟩) g slot b s)

end Sys2Proof.Machine
end

