-- ==== Sys2Proof/Machine/Service.lean ====
section
/-!
DEFINITION. The rows of errors, self-test and service in operation (R507 to R532, R592).
-/
namespace Sys2Proof.Machine

/-! ## BIST (R517, R519 to R522, R526 to R530) -/

/-- R526: whether a TEST's block may be tested now: `some none` when the state of the block does not let it. -/
def testBar (s : State) (b : Block) : Bool :=
  match b with
  | .cluster n => s.pmc.retired.contains n
  | .slice n => !bit (retiredSlices s) n
  | .deep n => !(decide (getF s (sockState n) = 0 ∨ getF s (sockState n) = 4) && bit s.boot.present n)
  | _ => false

/-- R526: whether the block is idle. -/
def blockIdle (s : State) (b : Block) : Bool :=
  match b with
  | .cluster n => (clusterOf s n).casting.isNone && decide (movingOf s n = 0)
  | _ => true

/-- R526: the block is isolated; a port leaves ACTIVE. -/
def flaskBlock (agent : Nat) (b : Block) (s : State) : State :=
  match b with
  | .port p => flask agent (leaveActive p 3 s)
  | _ => flask agent s

/-- R526: after a pass the block is as at its reset. -/
def passBlock (b : Block) (s : State) : State :=
  match b with
  | .cluster n => fromCold n s
  | .port p => leaveActive p (if isOn s (pEnable p) then 1 else 0) s
  | .deep n => wipeSocket n s
  | _ => s

/-- R411: the requests that a port under self-test held end when it stays out of service. -/
def endHeld (p : Nat) (s : State) : State :=
  let s := setPort s p { portOf s p with bufs := [] }
  (s.xl.wins.filter (fun r => decide (r.port = p) && r.back.isNone)).foldl (fun s r => failWin r 0x41 0x12 s) s

/-- R526: after a failure the block is marked; a cluster or port stays out of service. (DEDUCED, log entry 87.) -/
def failBlock (b : Block) (s : State) : State :=
  match b with
  | .cluster n => retireCluster n (setMap (fun m => { m with clusters := setBit m.clusters n true }) s)
  | .slice n => setMap (fun m => { m with slices := setBit m.slices n true }) s
  | .deep n => setMap (fun m => { m with carts := setBit m.carts n true }) s
  | .port p => endHeld p (setPortSt p 0 (setMap (fun m => { m with ports := setBit m.ports p true }) s))
  | .hbm _ => s

/-- R526: a test ends. -/
def endTest (q : Nat) (c : Cmd) (b : Block) (passed : Bool) (pass : State → State) (s : State) : State :=
  let s := unflask s
  if passed then endCommand q okEnd 0 (pass s)
  else
    let s := storeIf (svcStore c) (failBlock b s)
    endCommand q (selftestFail (svcTarget c)) 0 (errEvent 0x08 (svcTarget c) 0x31 0x15 (svcUnit c) 0 s)

/-- R526: a TEST goes on: it reserves its block, flasks it once it is idle, and ends with the test's result. -/
def testRun (q : Nat) (passed : Bool) (bar : State → Block → Bool) (pass : Block → State → State) (c : Cmd) (s : State) : State :=
  match blockOf (svcTarget c) with
  | none => s
  | some b =>
    if c.stage = 2 then endTest q c b passed (pass b) s
    else if c.stage = 0 ∧ bar s b = true then endCommand q (svcBad 0x2D) 0 s
    else if blockIdle s b then flaskBlock (svcTarget c) b (setHead s q { c with stage := 2 })
    else setHead s q { c with stage := 1 }

/-- TEST (R526). -/
def execTest (q : Nat) (passed : Bool) (s : State) : Out := whenOn s <| .next (svcStep q 8 1 bistOk s (testRun q passed testBar passBlock))

/-- R521: REINSTATE is for a retired cluster. -/
def reinstateBar (s : State) (b : Block) : Bool :=
  match b with
  | .cluster n => !s.pmc.retired.contains n
  | _ => true

/-- R521: a reinstated cluster returns to service; its bit leaves the fault map. -/
def reinstatePass (store : Bool) (b : Block) (s : State) : State :=
  match b with
  | .cluster n => storeIf store (reinstateCluster n (setMap (fun m => { m with clusters := setBit m.clusters n false }) s))
  | _ => s

/-- REINSTATE (R521). -/
def execReinstate (q : Nat) (passed : Bool) (s : State) : Out := whenOn s <|
  .next (svcStep q 8 4 bistOk s (fun c s => testRun q passed reinstateBar (reinstatePass (svcStore c)) c s))

/-- R527: a window request refused by its block's self-test. -/
def refuseWin (r : WinReq) (s : State) : State :=
  let x := portOf s r.port
  let s := setPort s r.port { x with bufs := x.bufs.filter (fun p => decide (p ≠ r.pkt)) }
  let s := { s with xl := { s.xl with wins := s.xl.wins.filter (fun y => decide (y ≠ r)) } }
  endWaiter 0 0 ⟨stAborted, 0x60, 0, agPort r.port, r.va⟩ s r.who

/-- R527: a command refused by its block's self-test. -/
def refuseCmd (q : Nat) (s : State) : State := endCommand q ⟨stAborted, 0x60, 0, getF s bistTarget, 0⟩ 0 (useCredit q s)

/-- R527: whether the oldest command of a queue is a LAUNCH that names the flasked cluster. -/
def heldLaunch (q : Nat) (s : State) : Bool :=
  match headCmd s q with
  | none => false
  | some c =>
    match readPattern (cmdAccess s q) (cRoot c) s with
    | (s, .ok (_, _, pt)) => !c.started && decide (cOp c = 1) && (maskList (hMask pt.hdr)).any (fun cl => flasked s (agTundish cl))
    | _ => false

/-- SELFTEST_HOLD_EXPIRY (R527): `kind` 0 is a LAUNCH of queue `index`, 1 the window request of tag `index`, 2 a CARTRIDGE
command of queue `index`. (DEDUCED, log entry 88.) -/
def execSelftestHoldExpiry (kind index : Nat) (s : State) : Out := whenOn s <|
  .next (
    if !isOn s bistActive then s
    else if kind = 0 then (if schedulerUp s && heldLaunch index s then refuseCmd index s else s)
    else if kind = 1 then
      match s.xl.wins.find? (fun r => decide (r.tag = index) && r.back.isNone && flasked s (agPort r.port)) with
      | some r => refuseWin r s
      | none => s
    else if kind = 2 then
      match headCmd s index with
      | some c => if pmcRuns s && hasUnstarted s index && decide (cOp c = 9) && flasked s (agDeep (svcSocket c)) then refuseCmd index s else s
      | none => s
    else s)

/-- R519: a port or lane is retrained, and the command ends with the training. -/
def recalPort (q p : Nat) (c : Cmd) (s : State) : State :=
  if c.stage = 1 then
    if getF s (pState p) = 1 then s
    else if getF s (pState p) = 2 then endCommand q okEnd 0 (storeIf (svcStore c) s)
    else endCommand q (faultEnd 0x31 (freeNat s % 256) (agPort p) 0) 0 (errEvent 0x05 (agPort p) 0 0 (svcUnit c) 0 (bumpFree s 1))
  else if isOn s (pEnable p) = false ∨ getF s (pState p) = 3 ∨ bit s.boot.map.ports p = true then endCommand q (svcBad 0x2D) 0 s
  else startTraining p (setHead s q { c with stage := 1 })

/-- R519: a memory channel is retrained while it serves traffic.  The spec names no subcode for a training that fails here: a
free one. -/
def recalChannel (q : Nat) (passed : Bool) (c : Cmd) (s : State) : State :=
  if passed then endCommand q okEnd 0 (storeIf (svcStore c) s)
  else endCommand q (faultEnd 0x31 (freeNat s % 256) (svcTarget c) 0) 0 (errEvent 0x05 (svcTarget c) 0 0 (svcUnit c) 0 (bumpFree s 1))

/-- RECAL (R519). -/
def execRecal (q : Nat) (passed : Bool) (s : State) : Out := whenOn s <|
  .next (svcStep q 8 2 bistOk s (fun c s =>
    match blockOf (svcTarget c) with
    | some (.port p) => recalPort q p c s
    | some (.deep n) => if socketMapped s n then recalChannel q passed c s else endCommand q (svcBad 0x2D) 0 s
    | _ => recalChannel q passed c s))

/-- R521: RETIRE of a cluster. -/
def retireClusterRun (q n : Nat) (c : Cmd) (s : State) : State :=
  if s.pmc.retired.contains n then endCommand q (svcBad 0x2D) 0 s
  else if (clusterOf s n).casting.isSome ∨ movingOf s n ≠ 0 then s
  else
    let s := retireCluster n (setMap (fun m => { m with clusters := setBit m.clusters n true }) s)
    endCommand q okEnd 0 (storeIf (svcStore c) s)

/-- R522: RETIRE of a slice, once no scheduled casting runs and its trackers are empty. -/
def retireSliceRun (q n : Nat) (c : Cmd) (s : State) : State :=
  if bit (retiredSlices s) n then endCommand q (svcBad 0x2D) 0 s
  else if s.sch.castings.any (fun e => e.2.live && e.2.sched) || (homedLines n s).any (fun l => lineBusy s l none none none) then s
  else
    let s := retireSlice n (setMap (fun m => { m with slices := setBit m.slices n true }) s)
    endCommand q okEnd 0 (storeIf (svcStore c) s)

/-- RETIRE (R521, R522). -/
def execRetire (q : Nat) (s : State) : Out := whenOn s <|
  .next (svcStep q 8 3 bistOk s (fun c s =>
    match blockOf (svcTarget c) with
    | some (.cluster n) => retireClusterRun q n c s
    | some (.slice n) => retireSliceRun q n c s
    | _ => s))

/-- The union of two masks. -/
def orMap (a b : FaultMap) : FaultMap :=
  ⟨a.clusters ||| b.clusters, a.harps ||| b.harps, a.slices ||| b.slices, a.carts ||| b.carts, a.lanes ||| b.lanes, a.ports ||| b.ports,
    a.hbm ||| b.hbm⟩

/-- R528: what the tests found; a port with fewer than two working lanes is marked. -/
def foundMap (fs : List Nat) : FaultMap :=
  let lanes := nth 0 fs 4
  ⟨nth 0 fs 0 % 2 ^ 16, nth 0 fs 1 % 2 ^ 192, nth 0 fs 2 % 2 ^ 64, nth 0 fs 3 % 2 ^ 16, lanes % 2 ^ 96,
    nth 0 fs 5 % 2 ^ 24 ||| testMask 24 (fun p => decide (3 ≤ popcount (lanes / 2 ^ (4 * p)) 4)), nth 0 fs 6 % 2 ^ 384⟩

/-- R528: the failed blocks in the order of the tests, as agent and UNIT. -/
def failedBlocks (m : FaultMap) : List (Nat × Nat) :=
  (bitList m.slices 64).map (fun n => (agSlice n, 0xFF)) ++ (bitList m.clusters 16).map (fun n => (agTundish n, 0xFF)) ++
    (bitList m.harps 192).map (fun g => (g, 0xFF)) ++ (bitList m.hbm 384).map (fun i => (agHbm (i / 32), i % 32)) ++
    (bitList m.carts 16).map (fun n => (agDeep n, 0xFF)) ++ (bitList m.lanes 96).map (fun i => (agPort (i / 4), i % 4)) ++
    (bitList m.ports 24).map (fun p => (agPort p, 0xFF))

/-- R526, R528: every block is as at its reset: memory is cleared, clusters are as on leaving COLD, ports retrain.
(DEDUCED, log entry 90.) -/
def resetBlocks (s : State) : State :=
  let s := { s with mm := { host := s.mm.host } }
  let s := ((List.range 16).filter (fun cl => !s.pmc.retired.contains cl)).foldl (fun s cl => fromCold cl s) s
  ((List.range 24).filter (fun p => decide (getF s (pState p) ≠ 0))).foldl (fun s p => leaveActive p 1 s) s

/-- R529: the new fault map: with CLEAR_PASSED the bits of the blocks that passed are cleared; a socket without a cartridge is
not tested. -/
def newMap (s : State) (clear : Bool) (f : FaultMap) : FaultMap :=
  if clear then { f with carts := f.carts ||| (s.boot.map.carts &&& (0xFFFF - s.boot.present % 2 ^ 16)) } else orMap s.boot.map f

/-- R528, R529: the tests have run; the flash is written whenever the map or the calibration differs from what it holds. -/
def shutdownEnd (q : Nat) (c : Cmd) (fs : List Nat) (s : State) : State :=
  let f := foundMap fs
  let new := newMap s (bit (fieldOf c.bytes 25 1) 1) f
  let bad := failedBlocks f
  let changed := decide (mapBytes new ≠ (sectionOf (storedImage s) 8).getD []) || s.boot.calPartial
  let s := setMap (fun _ => new) (resetBlocks s)
  let s := bad.foldl (fun s x => errEvent 0x08 x.1 0x31 0x15 x.2 0 s) s
  let s := storeIf changed s
  endCommand q ⟨stDone, if bad.isEmpty then 0 else 1, 0, (nth (0, 0) bad 0).1, 0⟩ 0 s

/-- SHUTDOWN (R528): fetching stops; the tests run once every other command has ended. -/
def execShutdown (q : Nat) (faults : List Nat) (s : State) : Out := whenOn s <|
  .next (svcStep q 8 5 bistOk s (fun c s =>
    let s := { s with sch := { s.sch with shutdown := true } }
    let s := setHead s q { c with stage := 2 }
    if s.sch.queues.all (fun e => decide (e.2.fetched.length ≤ b2n (decide (e.1 = q)))) then shutdownEnd q c faults s else s))

/-- The power-management core's accesses for queue `q`'s command. -/
def svcAccess (s : State) (q : Nat) : Acc2 := { cmdAccess s q with agent := agFw 1 }

/-- CFG_READ (R530): the copy in use, padded as an erased flash reads. -/
def execCfgRead (q : Nat) (s : State) : Out := whenOn s <|
  .next (svcStep q 8 6 bistOk s (fun c s =>
    let a := svcAccess s q
    let bs := (s.boot.image ++ List.replicate (65536 - s.boot.image.length) 0xFF).take 65536
    match translateRange a true 17 (svcAddr c) 65536 s with
    | (s, .wait) => s
    | (s, .fail e) => endCommand q e 0 s
    | (s, .ok ()) => endWith q (writeRange a none 514 (svcAddr c) bs s) (fun _ s => endCommand q okEnd 0 s)))

/-- The 64 KiB of a CFG_WRITE, page by page: from device memory, or as the host port read them. -/
def cfgPages (a : Acc2) (host : List Byte) (va : Nat) : Nat → State → State × Got (List Byte)
  | 0, s => (s, .ok [])
  | n + 1, s =>
    match cfgPages a host va n s with
    | (s, .ok bs) =>
      (match translate a (va + 4096 * n) false s with
       | (s, .wait) => (s, .wait)
       | (s, .fail e) => (s, .fail e)
       | (s, .ok ta) =>
         match targetOf s ta with
         | .dev _ =>
           (match readSpanVa a (va + 4096 * n) 4096 s with
            | (s, .ok x) => (s, .ok (bs ++ x))
            | r => r)
         | _ =>
           if !s.hpt.bme then (s, .fail (faultEnd 0x31 0x13 a.agent (va + 4096 * n)))
           else (s, .ok (bs ++ ((host.drop (4096 * n)) ++ List.replicate 4096 0).take 4096)))
    | r => r

/-- R530: an image with SEQ and CRC set afresh. -/
def renewed (seq : Nat) (bs : List Byte) : List Byte :=
  let bs := putAt bs 8 (leBytes 4 seq)
  putAt bs 16 (leBytes 4 (imageCrc bs (fieldOf bs 12 4)))

/-- BAD_CONFIG (R530). -/
def badConfig : Ending := svcBad 0x2C

/-- CFG_WRITE (R453, R530): a copy B that does not read back as written holds nothing that passes. -/
def execCfgWrite (q : Nat) (image : List Byte) (readBackOk : Bool) (s : State) : Out := whenOn s <|
  .next (svcStep q 8 7 bistOk s (fun c s =>
    endWith q (cfgPages (svcAccess s q) image (svcAddr c) 16 s) (fun bs s =>
      let im := renewed ((s.boot.cfgSeq + 1) % 2 ^ 32) bs
      if !imagePasses im then endCommand q badConfig 0 s
      else if !readBackOk then
        endCommand q badConfig 0 { s with boot := { s.boot with flash := { s.boot.flash with cfgB := [] } } }
      else endCommand q okEnd 0 (writeImage im s))))

/-! ## CARTRIDGE (R518, R523 to R525, R592) -/

/-- R524: one extent: SRC_OFF, BYTES, DST, KEYSEL. -/
def extent (bs : List Byte) (i : Nat) : Nat × Nat × Nat × Nat :=
  (fieldOf bs (32 * i) 8, fieldOf bs (32 * i + 8) 8, fieldOf bs (32 * i + 16) 8, fieldOf bs (32 * i + 24) 1 % 64)

/-- R518: an extent's fields lie in their ranges. -/
def extentOk (x : Nat × Nat × Nat × Nat) : Bool :=
  decide (x.1 % 128 = 0) && decide (x.2.1 % 128 = 0) && decide (x.2.2.1 % 128 = 0) && decide (x.1 + x.2.1 ≤ 0x004000000000)

/-- R524: one line of an extent is copied, its poison with it. -/
def evacLine (a : Acc2) (socket off dst key : Nat) (s : State) : State × Got Unit :=
  match translate a dst true s with
  | (s, .wait) => (s, .wait)
  | (s, .fail e) => (s, .fail e)
  | (s, .ok ta) =>
    let t := targetOf s ta
    match readTarget a (.dev (key * 2 ^ 46 + rawLoc socket off)) dst 128 none s with
    | (s, .wait) => (s, .wait)
    | (s, .ok bs) => writeTargetF true a t dst bs none s
    | (s, .fail e) => if e.code = 0x30 then writePoison a t dst (List.replicate 128 0) e s else (s, .fail e)

/-- The lines of an extent from byte `at_` on (at most `fuel`): how far it came. -/
def evacExtent (a : Acc2) (socket : Nat) (x : Nat × Nat × Nat × Nat) : Nat → Nat → State → State × Nat × Got Unit
  | 0, n, s => (s, n, .ok ())
  | fuel + 1, n, s =>
    match evacLine a socket (x.1 + n) (x.2.2.1 + n) x.2.2.2 s with
    | (s, .ok ()) => evacExtent a socket x fuel (n + 128) (endWaits a.who s)
    | (s, r) => (s, n, r)

/-- The extents from extent `i`, byte `n` of it, on (at most `fuel` extents). -/
def evacAll (a : Acc2) (socket : Nat) (bs : List Byte) : Nat → Nat → Nat → State → State × (Nat × Nat) × Got Unit
  | 0, i, n, s => (s, (i, n), .ok ())
  | fuel + 1, i, n, s =>
    let x := extent bs i
    match evacExtent a socket x ((x.2.1 - n) / 128) n s with
    | (s, _, .ok ()) => evacAll a socket bs fuel (i + 1) 0 s
    | (s, n, r) => (s, (i, n), r)

/-- The lowest SRC_OFF of the extents from the `i`-th on. -/
def lowestLeft (bs : List Byte) (count i : Nat) : Nat :=
  ((List.range count).drop i).foldl (fun m k => min m (extent bs k).1) (extent bs i).1

/-- R524: a socket in MAPPED enters READ_ONLY once its dirty lines are written back. -/
def makeReadOnly (n : Nat) (s : State) : State := setSocket n 3 ((cachedLines n s).foldl recallLine s)

/-- R524: an EVACUATE goes on.  `work` holds the extent and byte it has come to. -/
def evacRun (q : Nat) (c : Cmd) (s : State) : State :=
  let n := svcSocket c
  let st := getF s (sockState n)
  if st ≠ 2 ∧ st ≠ 3 then endCommand q (svcBad 0x2D) 0 s
  else if (cachedLines n s).any (fun l => lineBusy s l none none none) then s
  else
    let s := if st = 2 then makeReadOnly n s else s
    let a := { svcAccess s q with agent := agSph }
    match readRange a none (svcCount c / 4 + 2) (svcAddr c) (32 * svcCount c) s with
    | (s, .wait) => s
    | (s, .fail e) => endCommand q e 0 s
    | (s, .ok bs) =>
      if !(List.range (svcCount c)).all (fun i => extentOk (extent bs i)) then endCommand q (svcBad 0x11) 0 s
      else
        match evacAll a n bs (svcCount c - nth 0 c.work 0) (nth 0 c.work 0) (nth 0 c.work 1) s with
        | (s, _, .ok ()) => endCommand q okEnd 0 s
        | (s, (i, k), .wait) => setHead s q { c with work := [i, k] }
        | (s, (i, _), .fail e) => endCommand q { e with st := stFault, addr := lowestLeft bs (svcCount c) i } 0 s

/-- EVACUATE (R524). -/
def execEvacuate (q : Nat) (s : State) : Out := whenOn s <| .next (svcStep q 9 1 cartridgeOk s (evacRun q))

/-- RELEASE (R524). -/
def execRelease (q : Nat) (s : State) : Out := whenOn s <|
  .next (svcStep q 9 2 cartridgeOk s (fun c s =>
    let n := svcSocket c
    if getF s (sockState n) ≠ 3 then endCommand q (svcBad 0x2D) 0 s
    else if (cachedLines n s).any (fun l => lineBusy s l none none none) then s
    else endCommand q okEnd 0 (setSocket n 4 (dropSocket n (setMapped n false s)))))

/-- ADMIT (R524): `passed` says whether the cartridge trains. -/
def execAdmitCartridge (q : Nat) (passed : Bool) (s : State) : Out := whenOn s <|
  .next (svcStep q 9 3 cartridgeOk s (fun c s =>
    let n := svcSocket c
    let st := getF s (sockState n)
    if (st ≠ 0 ∧ st ≠ 4) ∨ bit s.boot.present n = false then endCommand q (svcBad 0x2D) 0 s
    else
      let s := setSocket n 1 s
      if passed then
        let s := setSocket n 2 (setMapped n true (wipeSocket n s))
        endCommand q okEnd 0 (storeAll (setBit (storedPopulated s) n true) s)
      else endCommand q (faultEnd 0x31 0x16 (agDeep n) 0) 0 (setSocket n st s)))

/-- RESUME (R524). -/
def execResume (q : Nat) (s : State) : Out := whenOn s <|
  .next (svcStep q 9 4 cartridgeOk s (fun c s =>
    let n := svcSocket c
    if getF s (sockState n) ≠ 3 then endCommand q (svcBad 0x2D) 0 s
    else endCommand q okEnd 0 (setSocket n 2 s)))

/-- CARTRIDGE_PULLED (R525): cached lines and lines with a read under way become poisoned; the contents are lost. -/
def execCartridgePulled (n : Nat) (s : State) : Out :=
  .next (
    if 16 ≤ n ∨ bit s.boot.present n = false then s
    else
      let st := getF s (sockState n)
      let s := setPresent n false s
      if s.powered = false ∨ st = 0 ∨ st = 4 then s
      else
        let ls := cachedLines n s
        let s := wipeSocket n (setMapped n false s)
        let s := ls.foldl (fun s l => poisonLine (128 * l) 0x16 (agDeep n) s) s
        setSocket n 0 s)

/-- CARTRIDGE_INSERTED (R592). -/
def execCartridgeInserted (n : Nat) (s : State) : Out :=
  .next (if 16 ≤ n ∨ bit s.boot.present n = true then s else setPresent n true s)

/-- CARTRIDGE_REMOVED (R523). -/
def execCartridgeRemoved (n : Nat) (s : State) : Out :=
  .next (
    if 16 ≤ n ∨ bit s.boot.present n = false then s
    else if s.powered && decide (getF s (sockState n) = 4) then setSocket n 0 (wipeSocket n (setPresent n false s))
    else if s.powered = false ∨ getF s (sockState n) = 0 then setPresent n false s
    else s)

/-! ## Scrub and the error ring (R508 to R510, R595) -/

/-- R510: the merged CORRECTED events whose 1 ms has ended become entries. -/
def flushMerged (s : State) : State :=
  let due := fun (e : ErrEnt) => decide (e.tick + 25000 ≤ s.aoTick)
  let out := s.err.merging.filter due
  out.foldl (fun s e => errPush e s) { s with err := { s.err with merging := s.err.merging.filter (fun e => !due e) } }

/-- R510: a corrected event joins the events of its AGENT and DETAIL of the last 1 ms. -/
def mergeCorrected (agent detail addr : Nat) (s : State) : State :=
  let s := flushMerged s
  let mine := fun (e : ErrEnt) => decide (e.agent = agent) && decide (e.detail = detail)
  let ms := s.err.merging
  let ms' :=
    if ms.any mine then ms.map (fun e => if mine e then { e with count := min 0xFFFF (e.count + 1) } else e)
    else ms ++ [⟨1, 0, agent, 0, 0, 1, detail, addr, s.aoTick⟩]
  { s with err := { s.err with merging := ms' } }

/-- R508: corrected events are counted by channel and hour; a count that passes 1,000 writes a CE_LIMIT entry.
(DEDUCED, log entry 92.) -/
def countCorrected (agent channel : Nat) (s : State) : State :=
  let e := s.err
  let e := if e.hourFrom + 3600 * 25000000 ≤ s.aoTick then { e with counts := [], hourFrom := s.aoTick } else e
  let k := agent * 64 + channel
  let n := tget 0 e.counts k + 1
  let s := { s with err := { e with counts := tset 0 e.counts k n } }
  if n = 1001 then errEvent 0x03 agent 0 0 channel 0 s else s

/-- SCRUB (R508): one line is read; `kind` 0 is clean, 1 corrected, 2 uncorrectable.  Which channel of its stack or cartridge a
line lies in is not stated: a free number. -/
def execScrub (loc kind : Nat) (s : State) : Out := whenOn s <|
  .next (
          let one := fun (agent chans : Nat) =>
        if kind = 1 then
          let ch := freeNat s % chans
          let s := mergeCorrected agent ch loc (bumpFree s 1)
          if fwRuns s 1 then countCorrected agent ch s else s
        else if kind = 2 then (if poisoned s loc then s else poisonLine loc 0x15 agent s)
        else s
      match placeOf loc with
      | .hbm k => if stackReady s k then one (agHbm k) 32 else s
      | .firmware => if stackReady s (loc / 4096 % 12) then one (agHbm (loc / 4096 % 12)) 32 else s
      | .raw c _ => if socketMapped s c then one (agDeep c) 8 else s
      | _ => s)

/-- R512: SIZE_LOG2 of PMC_ERR_CFG, at the nearer limit. -/
def errLog (s : State) : Nat := max 7 (min 15 (getF s errSize))

/-- R510: the bytes of an entry. -/
def entryBytes (k : Nat) (e : ErrEnt) : List Byte :=
  leBytes 4 (k + 1) ++ leBytes 1 e.typ ++ leBytes 1 e.flags ++ leBytes 2 e.agent ++ leBytes 1 e.code ++ leBytes 1 e.sub ++ leBytes 2 e.count ++
    leBytes 4 e.detail ++ leBytes 8 e.addr ++ leBytes 8 e.tick

/-- R509: the oldest entry leaves the buffer; an OVERFLOW entry takes the first place that frees after drops. -/
def popEntry (s : State) : State :=
  let e := s.err
  let s := { s with err := { e with buf := e.buf.drop 1, prod := (e.prod + 1) % 2 ^ 32, drops := 0 } }
  if e.drops = 0 then s
  else errPush ⟨0x0B, 0, agFw 1, 0, 0, min 0xFFFF e.drops, 0, 0, e.dropTick⟩ s

/-- ERROR_RING_WRITE (R509, R510, R595): the oldest entry is written, unless its page must first be asked for or its line waits. -/
def execErrorRingWrite (s : State) : Out := whenOn s <|
  .next (
    let s := flushMerged s
    match s.err.buf with
    | [] => s
    | e :: _ =>
      let k := s.err.prod
      let va := getF s errAddr * 4096 + 32 * (k % 2 ^ errLog s)
      if !pmcRuns s || !isOn s errEnable || decide (2 ^ errLog s ≤ (k + 2 ^ 32 - getF s errCons) % 2 ^ 32) ||
          s.xl.posted.any (fun p => decide (p.kind = 3)) then s
      else
        let p : PostedWrite := ⟨3, 0, va, [], agFw 1, !s.hpt.bme⟩
        match translate (reportAccess 0) va true s with
        | (s, .ok ta) =>
          (match landWrite { p with data := entryBytes k e } ta s with
           | (s, .ok ()) => popEntry s
           | (s, .wait) => s
           | (s, .fail x) => dropWrite p x.code x.sub s)
        | (s, .wait) => { s with xl := { s.xl with posted := s.xl.posted ++ [p] } }
        | (s, .fail x) => dropWrite p x.code x.sub s)

end Sys2Proof.Machine
end

