-- ==== Sys2Proof/Machine/RegWrite.lean ====
section
/-!
DEFINITION. Host writes of BAR0 (R8 to R10, R574 to R577, R527).
-/
namespace Sys2Proof.Machine

/-- CRU_WAY_LOCK_WRITE (R245, R260): bits [15:4] of the value. -/
def execCruWayLockWrite (value : Nat) (s : State) : Out := whenOn s <| inOrder (.cruWayLockWrite value) s <|
  .next (setF s cruLock (bits value 15 4))

/-- The cluster whose CCC, TUN or HARP registers lie at an offset. -/
def clusterAt (o : Nat) : Option Nat :=
  if 0x140000 ≤ o ∧ o < 0x160000 then some (o / 0x1000 % 16)
  else if 0x160000 ≤ o ∧ o < 0x163000 then some ((o - 0x160000) / 0x300)
  else none

/-- R527: the block whose registers lie at an offset. -/
def blockAt (o : Nat) : Option Nat :=
  match clusterAt o with
  | some cl => some (agTundish cl)
  | none => if 0x300000 ≤ o ∧ o < 0x318000 then some (agPort ((o - 0x300000) / 0x1000)) else none

/-- Whether a write reaches a bit that the value sets. -/
def writesOne (mask value i : Nat) : Bool := bit mask i && bit value i

/-- R416: a write of AMX_PORT_CTL. -/
def portCtlWrite (p mask value : Nat) (s : State) : State :=
  let s := fieldsWrite mask value [pAutoNarrow p, pLaneEn p] s
  let s := if bit mask 0 ∧ (bit value 0 ≠ isOn s (pEnable p) ∨ s.boot.reduced = true) then writeEnable p (bit value 0) s else s
  if writesOne mask value 1 then startTraining p s else s

/-- R420: a write of AMX_FRET_CFG. -/
def fretCfgWrite (mask value : Nat) (s : State) : State :=
  let busy := s.sch.castings.any (fun e => e.2.live && e.2.sched)
  fieldsWrite mask value (if busy then [fretPeriod, fretStretch, fretHold] else [fretRole, fretPeriod, fretStretch, fretHold]) s

/-- R512, R595: a write of PMC_ERR_BASE; setting ENABLE again after a failed translation reports the interruption. -/
def errBaseWrite (mask value : Nat) (s : State) : State :=
  if isOn s errEnable then fieldsWrite mask value [errEnable] s
  else
    let s := fieldsWrite mask value [errEnable, errAddr] s
    match s.err.interrupted with
    | some (code, sub, va) =>
      if isOn s errEnable then errEvent 0x0C (agFw 1) code sub 4 va { s with err := { s.err with interrupted := none } } else s
    | none => s

/-- R572: a write of TRC_RING_BASE. -/
def ringBaseWrite (r mask value : Nat) (s : State) : State :=
  if isOn s (ringEnable r) then fieldsWrite mask value [ringEnable r] s
  else fieldsWrite mask value [ringEnable r, ringWrap r, ringSize r, ringDpa r] s

/-- R380 to R383: a write of a sprue register at an offset within an engine's block. -/
def sprWrite (e x mask value : Nat) (fs : List FRef) (s : State) : State :=
  let ch := x / 0x100
  let y := x % 0x100
  if x = 0x1800 then fieldsWrite mask value fs s
  else if (y < 0x40 ∨ y = 0x48) ∧ (e < 16 ∨ ch < 2) then setOn s (sprPrivErr e)
  else if y = 0x40 then
    fieldsWrite mask value (if isOn s (sprBusy e ch) then [sprShare e ch] else fs) s
  else if y = 0x48 then
    let s := if writesOne mask value 0 then goStep false e ch s else s
    if writesOne mask value 1 ∧ (chanOf s e ch).phase ≠ .free ∧ (chanOf s e ch).starter = 0 then stopXfer e ch s else s
  else fieldsWrite mask value fs s

/-- A write of a register that departs from its fields' access types, or acts; none where it does not. -/
def specialWrite (o mask value : Nat) (fs : List FRef) (s : State) : Option State :=
  if o = 0x100108 then
    some (if writesOne mask value 2 then bootGo (value % 4) s else s)
  else if o = 0x100300 then some (if writesOne mask value 6 then regen (value % 64) s else s)
  else if o = 0x110008 then some (if s.boot.reduced then s else fieldsWrite mask value fs s)
  else if o = 0x110020 then some (errBaseWrite mask value s)
  else if 0x130000 ≤ o ∧ o < 0x134000 ∧ o % 0x20 = 0 then some (queueBaseWrite ((o - 0x130000) / 0x20) mask value s)
  else if 0x130000 ≤ o ∧ o < 0x134000 ∧ o % 0x20 = 8 then some (queueCfgWrite ((o - 0x130000) / 0x20) mask value s)
  else if 0x130000 ≤ o ∧ o < 0x134000 ∧ o % 0x20 = 0x18 then
    some (if writesOne mask value 0 then resetQueue ((o - 0x130000) / 0x20) s else s)
  else if (0x150000 ≤ o ∧ o < 0x160000 ∧ o % 0x1000 = 0x300) ∨ o = 0x170200 then some s
  else if o = 0x180008 then some (mirrorWrite mask value s)
  else if 0x200000 ≤ o ∧ o < 0x240000 then some (sprWrite ((o - 0x200000) / 0x2000) ((o - 0x200000) % 0x2000) mask value fs s)
  else if 0x300000 ≤ o ∧ o < 0x318000 ∧ o % 0x1000 = 0 then some (portCtlWrite ((o - 0x300000) / 0x1000) mask value s)
  else if o = 0x340008 then some (fretCfgWrite mask value s)
  else if o = 0x340010 then some (if (activePorts s).isEmpty then fieldsWrite mask value fs s else s)
  else if 0x380000 ≤ o ∧ o < 0x383000 then some (shadowFields 2 0 mask value fs s)
  else if o = 0x384000 then some (if writesOne mask value 12 || writesOne mask value 13 then shdCtlWrite 2 0 value s else s)
  else if o = 0x40000C then
    some (let s := if writesOne mask value 0 then raiseTrigger 0 s else s
          if writesOne mask value 1 then rearm s else s)
  else if 0x401000 ≤ o ∧ o < 0x401440 ∧ o % 0x40 = 0 then some (ringBaseWrite ((o - 0x401000) / 0x40) mask value s)
  else none

/-- A write of one register (R9, R527, R577). -/
def writeReg (r : RegInfo) (mask value : Nat) (s : State) : State :=
  if (clusterAt r.off).any (fun cl => decide (getF s (clState cl) = 3)) then s
  else if (blockAt r.off).any (flasked s) then setOn s bistWrDiscard
  else (specialWrite r.off mask value r.fields s).getD (fieldsWrite mask value r.fields s)

/-- The part of a register that an access of `n` bytes at an offset reaches: mask and value in the register's own bits. -/
def writePart (o n value : Nat) (s : State) : State :=
  match regAt o with
  | none => s
  | some r =>
    let k := 8 * (o - r.off)
    let m := (2 ^ (8 * n) - 1) * 2 ^ k % 2 ^ (8 * r.bytes)
    writeReg r m (value * 2 ^ k % 2 ^ (8 * r.bytes)) s

/-- R576, R10: a write of 4 B or 8 B, naturally aligned; an 8 B write of two 32-bit registers acts on both in one register
cycle. (DEDUCED, log entry 75.) -/
def barWrite (o size value : Nat) (s : State) : State :=
  if (size ≠ 4 ∧ size ≠ 8) ∨ o % size ≠ 0 then s
  else if size = 8 ∧ (regAt o).all (fun r => decide (r.bytes = 4)) then
    endCycle (writePart (o + 4) 4 (value / 2 ^ 32) (sureSince s.touched (writePart o 4 (value % 2 ^ 32) s)))
  else writePart o size value s

/-- REGISTER_WRITE (R9). -/
def execRegisterWrite (off size value : Nat) (s : State) : Out := whenOn s <| inOrder (.registerWrite off size value) s <|
  .next (barWrite off size value s)

end Sys2Proof.Machine
end

