-- ==== Sys2Proof/Machine/Dispatch.lean ====
section
/-!
DEFINITION. The meaning of each command: one arm per constructor, one direct call each.
-/
namespace Sys2Proof.Machine

/-- The effect of a command on everything but the queue (the table's rows, in its order). -/
def exec (i : Instr) (s : State) : Host.Outcome State Fault Refusal :=
  match i with
  | .tail q off size value => Sys2Proof.Machine.execTail q off size value s
  | .commandFetch q status entry => Sys2Proof.Machine.execCommandFetch q status entry s
  | .mainLoopPass proc us => Sys2Proof.Machine.execMainLoopPass proc us s
  | .schQCfgWrite q be value => Sys2Proof.Machine.execSchQCfgWrite q be value s
  | .queueReset q => Sys2Proof.Machine.execQueueReset q s
  | .queueResetComplete q => Sys2Proof.Machine.execQueueResetComplete q s
  | .launch q slot riser => Sys2Proof.Machine.execLaunch q slot riser s
  | .prefetch slot q => Sys2Proof.Machine.execPrefetch slot q s
  | .castingComplete slot => Sys2Proof.Machine.execCastingComplete slot s
  | .patch q entries => Sys2Proof.Machine.execPatch q entries s
  | .migrate q => Sys2Proof.Machine.execMigrate q s
  | .migrateChunkComplete q chunk => Sys2Proof.Machine.execMigrateChunkComplete q chunk s
  | .translate q => Sys2Proof.Machine.execTranslate q s
  | .pin q => Sys2Proof.Machine.execPin q s
  | .unpin q => Sys2Proof.Machine.execUnpin q s
  | .preload q => Sys2Proof.Machine.execPreload q s
  | .invalidateRange q => Sys2Proof.Machine.execInvalidateRange q s
  | .invalidateContext q => Sys2Proof.Machine.execInvalidateContext q s
  | .invalidateAll q => Sys2Proof.Machine.execInvalidateAll q s
  | .invalidateOutbound q => Sys2Proof.Machine.execInvalidateOutbound q s
  | .invalidateInbound q => Sys2Proof.Machine.execInvalidateInbound q s
  | .invalidateWaitDone q => Sys2Proof.Machine.execInvalidateWaitDone q s
  | .fence q => Sys2Proof.Machine.execFence q s
  | .fenceSatisfied q => Sys2Proof.Machine.execFenceSatisfied q s
  | .semaWait q => Sys2Proof.Machine.execSemaWait q s
  | .semaWaitSatisfied q => Sys2Proof.Machine.execSemaWaitSatisfied q s
  | .semaSignal q => Sys2Proof.Machine.execSemaSignal q s
  | .budgetExpiry q => Sys2Proof.Machine.execBudgetExpiry q s
  | .enginesDrained q => Sys2Proof.Machine.execEnginesDrained q s
  | .drainKill q last => Sys2Proof.Machine.execDrainKill q last s
  | .streamCommandPlace cl => Sys2Proof.Machine.execStreamCommandPlace cl s
  | .nop cl => Sys2Proof.Machine.execNop cl s
  | .endStream cl => Sys2Proof.Machine.execEndStream cl s
  | .nodeDone cl => Sys2Proof.Machine.execNodeDone cl s
  | .semWait cl => Sys2Proof.Machine.execSemWait cl s
  | .semSignal cl => Sys2Proof.Machine.execSemSignal cl s
  | .tuncfg cl => Sys2Proof.Machine.execTuncfg cl s
  | .consorts cl => Sys2Proof.Machine.execConsorts cl s
  | .consortPlace cl => Sys2Proof.Machine.execConsortPlace cl s
  | .sprue cl => Sys2Proof.Machine.execSprue cl s
  | .tse cl => Sys2Proof.Machine.execTse cl s
  | .gse cl => Sys2Proof.Machine.execGse cl s
  | .reduce cl => Sys2Proof.Machine.execReduce cl s
  | .send cl => Sys2Proof.Machine.execSend cl s
  | .ufe cl => Sys2Proof.Machine.execUfe cl s
  | .ske cl => Sys2Proof.Machine.execSke cl s
  | .fce cl => Sys2Proof.Machine.execFce cl s
  | .engineCommandComplete cl qi => Sys2Proof.Machine.execEngineCommandComplete cl qi s
  | .poolClaim cl pool claims => Sys2Proof.Machine.execPoolClaim cl pool claims s
  | .poolRelease cl pool agent block => Sys2Proof.Machine.execPoolRelease cl pool agent block s
  | .submitGo cl ch claims => Sys2Proof.Machine.execSubmitGo cl ch claims s
  | .marker cl claims => Sys2Proof.Machine.execMarker cl claims s
  | .iadd g slot b => Sys2Proof.Machine.execIadd g slot b s
  | .isub g slot b => Sys2Proof.Machine.execIsub g slot b s
  | .imul g slot b => Sys2Proof.Machine.execImul g slot b s
  | .imulhi g slot b => Sys2Proof.Machine.execImulhi g slot b s
  | .imad g slot b => Sys2Proof.Machine.execImad g slot b s
  | .andOp g slot b => Sys2Proof.Machine.execAndOp g slot b s
  | .orOp g slot b => Sys2Proof.Machine.execOrOp g slot b s
  | .xorOp g slot b => Sys2Proof.Machine.execXorOp g slot b s
  | .shl g slot b => Sys2Proof.Machine.execShl g slot b s
  | .shr g slot b => Sys2Proof.Machine.execShr g slot b s
  | .imin g slot b => Sys2Proof.Machine.execImin g slot b s
  | .imax g slot b => Sys2Proof.Machine.execImax g slot b s
  | .popc g slot b => Sys2Proof.Machine.execPopc g slot b s
  | .clz g slot b => Sys2Proof.Machine.execClz g slot b s
  | .iadd64 g slot b => Sys2Proof.Machine.execIadd64 g slot b s
  | .fadd g slot b => Sys2Proof.Machine.execFadd g slot b s
  | .fmul g slot b => Sys2Proof.Machine.execFmul g slot b s
  | .ffma g slot b => Sys2Proof.Machine.execFfma g slot b s
  | .fmin g slot b => Sys2Proof.Machine.execFmin g slot b s
  | .fmax g slot b => Sys2Proof.Machine.execFmax g slot b s
  | .frcp g slot b => Sys2Proof.Machine.execFrcp g slot b s
  | .fsqrt g slot b => Sys2Proof.Machine.execFsqrt g slot b s
  | .dadd g slot b => Sys2Proof.Machine.execDadd g slot b s
  | .dmul g slot b => Sys2Proof.Machine.execDmul g slot b s
  | .dfma g slot b => Sys2Proof.Machine.execDfma g slot b s
  | .dmin g slot b => Sys2Proof.Machine.execDmin g slot b s
  | .dmax g slot b => Sys2Proof.Machine.execDmax g slot b s
  | .f2i g slot b => Sys2Proof.Machine.execF2i g slot b s
  | .i2f g slot b => Sys2Proof.Machine.execI2f g slot b s
  | .f2f g slot b => Sys2Proof.Machine.execF2f g slot b s
  | .packn g slot b => Sys2Proof.Machine.execPackn g slot b s
  | .unpackn g slot b => Sys2Proof.Machine.execUnpackn g slot b s
  | .icmp g slot b => Sys2Proof.Machine.execIcmp g slot b s
  | .fcmp g slot b => Sys2Proof.Machine.execFcmp g slot b s
  | .plop g slot b => Sys2Proof.Machine.execPlop g slot b s
  | .sel g slot b => Sys2Proof.Machine.execSel g slot b s
  | .mov g slot b => Sys2Proof.Machine.execMov g slot b s
  | .movi g slot b => Sys2Proof.Machine.execMovi g slot b s
  | .movSr g slot b => Sys2Proof.Machine.execMovSr g slot b s
  | .movSw g slot b => Sys2Proof.Machine.execMovSw g slot b s
  | .shfl g slot b => Sys2Proof.Machine.execShfl g slot b s
  | .vote g slot b => Sys2Proof.Machine.execVote g slot b s
  | .bra g slot b => Sys2Proof.Machine.execBra g slot b s
  | .brx g slot b => Sys2Proof.Machine.execBrx g slot b s
  | .exit g slot b => Sys2Proof.Machine.execExit g slot b s
  | .bar g slot b => Sys2Proof.Machine.execBar g slot b s
  | .ld g slot b => Sys2Proof.Machine.execLd g slot b s
  | .st g slot b => Sys2Proof.Machine.execSt g slot b s
  | .ldV g slot b => Sys2Proof.Machine.execLdV g slot b s
  | .pref g slot b => Sys2Proof.Machine.execPref g slot b s
  | .atom g slot b => Sys2Proof.Machine.execAtom g slot b s
  | .ldRsv g slot b => Sys2Proof.Machine.execLdRsv g slot b s
  | .stCnd g slot b => Sys2Proof.Machine.execStCnd g slot b s
  | .semSig g slot b => Sys2Proof.Machine.execSemSig g slot b s
  | .semRd g slot b => Sys2Proof.Machine.execSemRd g slot b s
  | .fenceOrd g slot b => Sys2Proof.Machine.execFenceOrd g slot b s
  | .fenceAcq g slot b => Sys2Proof.Machine.execFenceAcq g slot b s
  | .fenceRel g slot b => Sys2Proof.Machine.execFenceRel g slot b s
  | .fenceDone g slot b => Sys2Proof.Machine.execFenceDone g slot b s
  | .pourBegin g slot b => Sys2Proof.Machine.execPourBegin g slot b s
  | .pourEnd g slot b => Sys2Proof.Machine.execPourEnd g slot b s
  | .pourAbort g slot b => Sys2Proof.Machine.execPourAbort g slot b s
  | .hseq g slot b => Sys2Proof.Machine.execHseq g slot b s
  | .tmov g slot b => Sys2Proof.Machine.execTmov g slot b s
  | .rseq g slot b => Sys2Proof.Machine.execRseq g slot b s
  | .longUnitComplete g slot stop => Sys2Proof.Machine.execLongUnitComplete g slot stop s
  | .harpKStepIssue g => Sys2Proof.Machine.execHarpKStepIssue g s
  | .hzero g slot b => Sys2Proof.Machine.execHzero g slot b s
  | .hzeroComplete g tile => Sys2Proof.Machine.execHzeroComplete g tile s
  | .hdrain g slot b => Sys2Proof.Machine.execHdrain g slot b s
  | .hdrainComplete g => Sys2Proof.Machine.execHdrainComplete g s
  | .switchOut g cs cause => Sys2Proof.Machine.execSwitchOut g cs cause s
  | .consortImageWritten g cs => Sys2Proof.Machine.execConsortImageWritten g cs s
  | .switchIn src image g => Sys2Proof.Machine.execSwitchIn src image g s
  | .priResponse group code => Sys2Proof.Machine.execPriResponse group code s
  | .atsCompletion ctx va write status ta sizeLog2 rd wr => Sys2Proof.Machine.execAtsCompletion ctx va write status ta sizeLog2 rd wr s
  | .atsInvalidateRequest ctx va sizeLog2 => Sys2Proof.Machine.execAtsInvalidateRequest ctx va sizeLog2 s
  | .rdShr can dpa => Sys2Proof.Machine.execRdShr can dpa s
  | .rdOwn can dpa whole => Sys2Proof.Machine.execRdOwn can dpa whole s
  | .upg can dpa => Sys2Proof.Machine.execUpg can dpa s
  | .rdCur agent dpa hint => Sys2Proof.Machine.execRdCur agent dpa hint s
  | .wrFull agent dpa data hint => Sys2Proof.Machine.execWrFull agent dpa data hint s
  | .wrPart agent dpa be data hint => Sys2Proof.Machine.execWrPart agent dpa be data hint s
  | .wb can dpa => Sys2Proof.Machine.execWb can dpa s
  | .ev can dpa => Sys2Proof.Machine.execEv can dpa s
  | .homeAtom agent dpa far aop size operand compare => Sys2Proof.Machine.execHomeAtom agent dpa far aop size operand compare s
  | .snpShr can loc => Sys2Proof.Machine.execSnpShr can loc s
  | .snpFwd can loc => Sys2Proof.Machine.execSnpFwd can loc s
  | .snpInv can loc => Sys2Proof.Machine.execSnpInv can loc s
  | .snpCur can loc => Sys2Proof.Machine.execSnpCur can loc s
  | .snoopAnswer can loc => Sys2Proof.Machine.execSnoopAnswer can loc s
  | .pegTimeExpiry loc => Sys2Proof.Machine.execPegTimeExpiry loc s
  | .escalatedHoldExpiry loc => Sys2Proof.Machine.execEscalatedHoldExpiry loc s
  | .homeTimeout can loc => Sys2Proof.Machine.execHomeTimeout can loc s
  | .lockRequest g => Sys2Proof.Machine.execLockRequest g s
  | .lockGrant g => Sys2Proof.Machine.execLockGrant g s
  | .pourPublish g => Sys2Proof.Machine.execPourPublish g s
  | .pourPublishDone g => Sys2Proof.Machine.execPourPublishDone g s
  | .lockTo g => Sys2Proof.Machine.execLockTo g s
  | .tokenGrant agent => Sys2Proof.Machine.execTokenGrant agent s
  | .tokenTo => Sys2Proof.Machine.execTokenTo s
  | .commit group inst value => Sys2Proof.Machine.execCommit group inst value s
  | .discard group inst value => Sys2Proof.Machine.execDiscard group inst value s
  | .pendingCommitApply cl => Sys2Proof.Machine.execPendingCommitApply cl s
  | .go fw e ch => Sys2Proof.Machine.execGo fw e ch s
  | .stop e ch => Sys2Proof.Machine.execStop e ch s
  | .hostStopKill e ch => Sys2Proof.Machine.execHostStopKill e ch s
  | .sprueClaimRetry cl => Sys2Proof.Machine.execSprueClaimRetry cl s
  | .transferComplete e ch => Sys2Proof.Machine.execTransferComplete e ch s
  | .leaderWord0 e ch => Sys2Proof.Machine.execLeaderWord0 e ch s
  | .gangCommit e ch => Sys2Proof.Machine.execGangCommit e ch s
  | .busErrorResponse e ch write code sub => Sys2Proof.Machine.execBusErrorResponse e ch write code sub s
  | .engineStopClear e => Sys2Proof.Machine.execEngineStopClear e s
  | .dataFrame port good seq ack nak trig strV strF packets => Sys2Proof.Machine.execDataFrame port good seq ack nak trig strV strF packets s
  | .replayTimeout port => Sys2Proof.Machine.execReplayTimeout port s
  | .markFrame port fret8 delay arrival => Sys2Proof.Machine.execMarkFrame port fret8 delay arrival s
  | .trainFrame port msg role dev plane t1 t2 t3 t4 => Sys2Proof.Machine.execTrainFrame port msg role dev plane t1 t2 t3 t4 s
  | .idle port => Sys2Proof.Machine.execIdle port s
  | .rdReq port p => Sys2Proof.Machine.execRdReq port p s
  | .rdRsp port p => Sys2Proof.Machine.execRdRsp port p s
  | .wr port p => Sys2Proof.Machine.execWr port p s
  | .wrAck port p => Sys2Proof.Machine.execWrAck port p s
  | .atomReq port p => Sys2Proof.Machine.execAtomReq port p s
  | .atomRsp port p => Sys2Proof.Machine.execAtomRsp port p s
  | .semSigPacket port p => Sys2Proof.Machine.execSemSigPacket port p s
  | .credit port p => Sys2Proof.Machine.execCredit port p s
  | .fretFull port p => Sys2Proof.Machine.execFretFull port p s
  | .schedAbort port p => Sys2Proof.Machine.execSchedAbort port p s
  | .windowRequestTimeout tag => Sys2Proof.Machine.execWindowRequestTimeout tag s
  | .fretBoundary => Sys2Proof.Machine.execFretBoundary s
  | .portTraining port => Sys2Proof.Machine.execPortTraining port s
  | .portTrainingComplete port lanesOk => Sys2Proof.Machine.execPortTrainingComplete port lanesOk s
  | .retrain port => Sys2Proof.Machine.execRetrain port s
  | .portEnable port on => Sys2Proof.Machine.execPortEnable port on s
  | .frameLockLoss port => Sys2Proof.Machine.execFrameLockLoss port s
  | .inboundBar4Read off len => Sys2Proof.Machine.execInboundBar4Read off len s
  | .inboundBar4Write off be data ep tph => Sys2Proof.Machine.execInboundBar4Write off be data ep tph s
  | .inboundAtomicop bar off op size operand compare => Sys2Proof.Machine.execInboundAtomicop bar off op size operand compare s
  | .cxlMemRequest kind dpa be data poison => Sys2Proof.Machine.execCxlMemRequest kind dpa be data poison s
  | .hostCompletion tag status => Sys2Proof.Machine.execHostCompletion tag status s
  | .flr => Sys2Proof.Machine.execFlr s
  | .busMasterEnable on => Sys2Proof.Machine.execBusMasterEnable on s
  | .atsEnable on => Sys2Proof.Machine.execAtsEnable on s
  | .priEnable on => Sys2Proof.Machine.execPriEnable on s
  | .pasidEnable on => Sys2Proof.Machine.execPasidEnable on s
  | .memorySpaceEnable on bar4 => Sys2Proof.Machine.execMemorySpaceEnable on bar4 s
  | .hdmCommit base size => Sys2Proof.Machine.execHdmCommit base size s
  | .doeRequest kind => Sys2Proof.Machine.execDoeRequest kind s
  | .doeAbort => Sys2Proof.Machine.execDoeAbort s
  | .tableAccess entry => Sys2Proof.Machine.execTableAccess entry s
  | .getVersion => Sys2Proof.Machine.execGetVersion s
  | .getCapabilities => Sys2Proof.Machine.execGetCapabilities s
  | .negotiateAlgorithms asym hash dhe aead => Sys2Proof.Machine.execNegotiateAlgorithms asym hash dhe aead s
  | .getDigests => Sys2Proof.Machine.execGetDigests s
  | .getCertificate slot off len => Sys2Proof.Machine.execGetCertificate slot off len s
  | .challenge slot nonce => Sys2Proof.Machine.execChallenge slot nonce s
  | .getMeasurements index signed nonce => Sys2Proof.Machine.execGetMeasurements index signed nonce s
  | .keyExchange reqId => Sys2Proof.Machine.execKeyExchange reqId s
  | .finish session ok => Sys2Proof.Machine.execFinish session ok s
  | .heartbeat session => Sys2Proof.Machine.execHeartbeat session s
  | .keyUpdate session => Sys2Proof.Machine.execKeyUpdate session s
  | .endSession session => Sys2Proof.Machine.execEndSession session s
  | .hptMirrorWrite be value => Sys2Proof.Machine.execHptMirrorWrite be value s
  | .mirrorCopy => Sys2Proof.Machine.execMirrorCopy s
  | .pwrOkAssert railsInRange => Sys2Proof.Machine.execPwrOkAssert railsInRange s
  | .pwrOkDeassert => Sys2Proof.Machine.execPwrOkDeassert s
  | .perstAssert => Sys2Proof.Machine.execPerstAssert s
  | .perstDeassert => Sys2Proof.Machine.execPerstDeassert s
  | .config progA progB => Sys2Proof.Machine.execConfig progA progB s
  | .hbmReady stack trained => Sys2Proof.Machine.execHbmReady stack trained s
  | .secondStageVerified aOk bOk => Sys2Proof.Machine.execSecondStageVerified aOk bOk s
  | .dcReady socket trained => Sys2Proof.Machine.execDcReady socket trained s
  | .bootGo target => Sys2Proof.Machine.execBootGo target s
  | .firmwareLoadComplete => Sys2Proof.Machine.execFirmwareLoadComplete s
  | .watchdogExpiry proc => Sys2Proof.Machine.execWatchdogExpiry proc s
  | .recoveryComplete proc => Sys2Proof.Machine.execRecoveryComplete proc s
  | .fwload q => Sys2Proof.Machine.execFwload q s
  | .handover q => Sys2Proof.Machine.execHandover q s
  | .clusterHandover q cl => Sys2Proof.Machine.execClusterHandover q cl s
  | .powerSample watts => Sys2Proof.Machine.execPowerSample watts s
  | .operatingPointChange cl mhz => Sys2Proof.Machine.execOperatingPointChange cl mhz s
  | .thermalSample temps => Sys2Proof.Machine.execThermalSample temps s
  | .pmcLimitWrite value => Sys2Proof.Machine.execPmcLimitWrite value s
  | .idleEntry cl => Sys2Proof.Machine.execIdleEntry cl s
  | .chillDelayExpiry cl => Sys2Proof.Machine.execChillDelayExpiry cl s
  | .coldDelayExpiry cl => Sys2Proof.Machine.execColdDelayExpiry cl s
  | .chillEntryComplete cl => Sys2Proof.Machine.execChillEntryComplete cl s
  | .coldEntryComplete cl => Sys2Proof.Machine.execColdEntryComplete cl s
  | .wakeRequest cl => Sys2Proof.Machine.execWakeRequest cl s
  | .wakeComplete cl => Sys2Proof.Machine.execWakeComplete cl s
  | .test q passed => Sys2Proof.Machine.execTest q passed s
  | .selftestHoldExpiry kind index => Sys2Proof.Machine.execSelftestHoldExpiry kind index s
  | .recal q passed => Sys2Proof.Machine.execRecal q passed s
  | .retire q => Sys2Proof.Machine.execRetire q s
  | .reinstate q passed => Sys2Proof.Machine.execReinstate q passed s
  | .shutdown q faults => Sys2Proof.Machine.execShutdown q faults s
  | .cfgRead q => Sys2Proof.Machine.execCfgRead q s
  | .cfgWrite q image readBackOk => Sys2Proof.Machine.execCfgWrite q image readBackOk s
  | .evacuate q => Sys2Proof.Machine.execEvacuate q s
  | .release q => Sys2Proof.Machine.execRelease q s
  | .admitCartridge q passed => Sys2Proof.Machine.execAdmitCartridge q passed s
  | .resume q => Sys2Proof.Machine.execResume q s
  | .cartridgePulled socket => Sys2Proof.Machine.execCartridgePulled socket s
  | .cartridgeInserted socket => Sys2Proof.Machine.execCartridgeInserted socket s
  | .scrub loc kind => Sys2Proof.Machine.execScrub loc kind s
  | .errorRingWrite => Sys2Proof.Machine.execErrorRingWrite s
  | .regen selector => Sys2Proof.Machine.execRegen selector s
  | .debugUnlockToken token => Sys2Proof.Machine.execDebugUnlockToken token s
  | .fire => Sys2Proof.Machine.execFire s
  | .rearm => Sys2Proof.Machine.execRearm s
  | .trigIn ticks => Sys2Proof.Machine.execTrigIn ticks s
  | .counterFreeze => Sys2Proof.Machine.execCounterFreeze s
  | .traceRecordWrite unit => Sys2Proof.Machine.execTraceRecordWrite unit s
  | .cruWayLockWrite value => Sys2Proof.Machine.execCruWayLockWrite value s
  | .registerWrite off size value => Sys2Proof.Machine.execRegisterWrite off size value s
  | .cartridgeRemoved socket => Sys2Proof.Machine.execCartridgeRemoved socket s
  | .referenceClockStable => Sys2Proof.Machine.execReferenceClockStable s
  | .hostLinkUp width rate => Sys2Proof.Machine.execHostLinkUp width rate s
  | .bar4Resize sizeLog2 => Sys2Proof.Machine.execBar4Resize sizeLog2 s
  | .cxlCacheEnable cache mem => Sys2Proof.Machine.execCxlCacheEnable cache mem s
  | .outboundReadCompletion tag ep data => Sys2Proof.Machine.execOutboundReadCompletion tag ep data s
  | .transactionalSourceRead e ch => Sys2Proof.Machine.execTransactionalSourceRead e ch s
  | .counterWrap unit index => Sys2Proof.Machine.execCounterWrap unit index s

end Sys2Proof.Machine
end

