-- ==== Sys2Proof/Machine/Idle.lean ====
section
/-!
DEFINITION. One AO tick of a block with no command waiting (R21): time passes, and what only waits for time or room goes on.
-/
namespace Sys2Proof.Machine

/-- A port takes up what waits at it: received requests, credits owed, packets to send. -/
def portTick (s : State) (p : Nat) : State :=
  if getF s (pState p) ≠ 2 then s
  else
    let s := retryRx p ((portOf s p).rx.length) s
    let s := returnCredits p s
    pump p ((portOf s p).bufs.length) s

/-- R305, R306: the host requests that are held come up again, in their order. (DEDUCED, log entry 118.) -/
def takeHeld (s : State) : State := { s with pending := s.hpt.held ++ s.pending, hpt := { s.hpt with held := [] } }

/-- One AO tick of a module that runs. -/
def tickRunning (s : State) : State :=
  let s := timeTo (s.aoTick + 1) s
  let s := (List.range 24).foldl portTick (kickAll (regenDone s))
  takeHeld (pageUpdate (retryIdle (flushMerged (flushBcast s))))

/-- R21, R550, R589: one AO tick: the tick counts while PWR_OK is asserted, and TS and the rest while the module runs.
(DESIGN CHOICE, log entry 2.) -/
def idleTick (s : State) : State :=
  if !s.boot.pwrOk then s
  else if s.powered then tickRunning s
  else { s with aoTick := s.aoTick + 1 }

end Sys2Proof.Machine
end

