-- ==== Sys2Proof/Safety.lean ====
section
/-!
DEFINITION. What the statements call a safe state: the conditions that every command keeps, and what a step may not do.
-/
namespace Sys2Proof.Machine

/-- R541, R590: the module is held in reset after PWR_OK has deasserted: it does not run, its keys are gone, and its memory, caches,
queues, cores, engines, ports and waiting accesses are empty. -/
def HeldInReset (s : State) : Prop :=
  s.powered = false ∧ s.boot.held = true ∧ s.boot.perst = false ∧ s.sec.zeroed = true ∧ s.mm = { host := s.mm.host } ∧ s.sch = {} ∧
    s.clusters = [] ∧ s.cores = [] ∧ s.xl = {} ∧ s.spr = {} ∧ s.amx = {} ∧ s.hpt = {} ∧ s.shadow = []

/-- No waiting command asserts PERST#. -/
def NoPerstWaits (s : State) : Prop := Instr.perstAssert ∉ s.pending

/-- A step that neither stops the machine nor refuses a command. -/
def StepsOn (s : State) : Prop := ∃ t, step s = .next t

/-- The canonical form of the memories: device memory, host memory and every core's consort memory list rising addresses, and
no byte that equals what an unlisted address reads as. -/
def Memory.wf (s : State) : Bool := twf 0 s.mm.mem && twf 0 s.mm.host && s.cores.all (fun e => twf 0 e.2.cmem)

end Sys2Proof.Machine
end

