-- ==== Sys2Proof/WellFormed.lean ====
section
/-!
DEFINITION. Which commands name things that exist: queues, clusters, cores, ports and the like within their number,
values within their field's width, data of the length its row carries.
-/
namespace Sys2Proof

/-- R27: one of 512 queues. -/
def queueNum (q : Nat) : Bool := decide (q < 512)
/-- R15: one of 16 clusters. -/
def clusterNum (cl : Nat) : Bool := decide (cl < 16)
/-- R15: one of 192 cores. -/
def coreNum (g : Nat) : Bool := decide (g < 192)
/-- R68: one of 192 cores and one of its 48 course slots. -/
def courseNum (g slot : Nat) : Bool := coreNum g && decide (slot < 48)
/-- R38: one of 16 casting slots. -/
def slotNum (k : Nat) : Bool := decide (k < 16)
/-- R71: a consort slot of a core. -/
def consortNum (g k : Nat) : Bool := coreNum g && decide (k < 16)
/-- R383: one of 24 ports. -/
def portNum (p : Nat) : Bool := decide (p < 24)
/-- R260: one of 16 deep-tier sockets. -/
def socketNum (n : Nat) : Bool := decide (n < 16)
/-- R264: one of 35 coherent agent numbers. -/
def canNum (c : Nat) : Bool := decide (c < 35)
/-- R19: a 12-bit agent identifier. -/
def agentNum (a : Nat) : Bool := decide (a < 4096)
/-- R227: a 52-bit device physical address, KEYSEL included. -/
def dpaNum (a : Nat) : Bool := decide (a < 2 ^ 52)
/-- R294: a 46-bit place in device memory. -/
def locNum (a : Nat) : Bool := decide (a < 2 ^ 46)
/-- R356, R358: an engine and one of its channels: 8 in each of 16 clusters, 16 in sph (engine 16). -/
def chanNum (e ch : Nat) : Bool := (decide (e < 16) && decide (ch < 8)) || (decide (e = 16) && decide (ch < 16))
/-- R470: one of 19 firmware processors. -/
def procNum (p : Nat) : Bool := decide (p < 19)
/-- A doubleword. -/
def word64 (v : Nat) : Bool := decide (v < 2 ^ 64)
/-- R9, R431: 4 or 8 bytes. -/
def accessSize (n : Nat) : Bool := decide (n = 4) || decide (n = 8)
/-- R340: a context: 0, or one more than a 20-bit PASID. -/
def contextNum (c : Nat) : Bool := decide (c ≤ 2 ^ 20)

/-- R225: a claimant: a core of the cluster or its control core (12), with a lane and a register. -/
def PoolClaim.wf (c : PoolClaim) : Bool :=
  decide (c.core ≤ 12) && decide (c.slot < 48) && decide (c.lane < 32) && decide (c.dst < 256)

/-- R366, R561: a claimant: a core of the cluster, with a lane and a register. -/
def LineClaim.wf (c : LineClaim) : Bool :=
  decide (c.core < 12) && decide (c.slot < 48) && decide (c.lane < 32) && decide (c.dst < 256)

/-- R390, R391: a packet whose fields fit their widths. -/
def Packet.wf (p : Packet) : Bool :=
  decide (p.vl < 4) && decide (p.src < 2 ^ 11) && decide (p.dst < 2 ^ 16) && decide (p.tag < 2 ^ 16) && decide (p.iwin < 256) &&
    word64 p.offset && decide (p.len ≤ 4096) && word64 p.aux && decide (p.status < 256) && decide (p.sub < 256) &&
    decide (p.payload.length ≤ 4096) && decide (p.cred < 2 ^ 16)

/-- The operands of a command are in range. -/
def WellFormed : Instr → Bool
  | .tail q off size value => queueNum q && decide (off < 4096) && accessSize size && word64 value
  | .commandFetch q _ entry => queueNum q && decide (entry.length = 64)
  | .mainLoopPass proc _ | .watchdogExpiry proc | .recoveryComplete proc => procNum proc
  | .schQCfgWrite q be value => queueNum q && decide (be < 256) && word64 value
  | .launch q slot riser => queueNum q && slotNum slot && riser.all word64
  | .prefetch slot q => slotNum slot && queueNum q
  | .castingComplete slot => slotNum slot
  | .patch q _ => queueNum q
  | .migrateChunkComplete q _ => queueNum q
  | .drainKill q last => queueNum q && agentNum last
  | .cfgWrite q image _ => queueNum q && decide (image.length ≤ 65536)
  | .queueReset q | .queueResetComplete q | .migrate q | .translate q | .pin q | .unpin q | .preload q
  | .invalidateRange q | .invalidateContext q | .invalidateAll q | .invalidateOutbound q | .invalidateInbound q
  | .invalidateWaitDone q | .fence q | .fenceSatisfied q | .semaWait q | .semaWaitSatisfied q | .semaSignal q
  | .budgetExpiry q | .enginesDrained q | .fwload q | .handover q | .test q _ | .recal q _ | .retire q | .reinstate q _
  | .shutdown q _ | .cfgRead q | .evacuate q | .release q | .admitCartridge q _ | .resume q => queueNum q
  | .clusterHandover q cl => queueNum q && clusterNum cl
  | .streamCommandPlace cl | .nop cl | .endStream cl | .nodeDone cl | .semWait cl | .semSignal cl | .tuncfg cl
  | .consorts cl | .consortPlace cl | .sprue cl | .tse cl | .gse cl | .reduce cl | .send cl | .ufe cl | .ske cl | .fce cl
  | .sprueClaimRetry cl | .pendingCommitApply cl | .operatingPointChange cl _ | .idleEntry cl | .chillDelayExpiry cl
  | .coldDelayExpiry cl | .chillEntryComplete cl | .coldEntryComplete cl | .wakeRequest cl | .wakeComplete cl => clusterNum cl
  | .engineCommandComplete cl qi => clusterNum cl && decide (qi < 9)
  | .poolClaim cl pool claims => clusterNum cl && decide (pool < 4) && claims.all PoolClaim.wf
  | .poolRelease cl pool agent block => clusterNum cl && decide (pool < 4) && agentNum agent && decide (block < 2 ^ 32)
  | .submitGo cl ch claims => clusterNum cl && decide (ch < 8) && claims.all LineClaim.wf
  | .marker cl claims => clusterNum cl && claims.all LineClaim.wf
  | .iadd g k _ | .isub g k _ | .imul g k _ | .imulhi g k _ | .imad g k _ | .andOp g k _ | .orOp g k _ | .xorOp g k _
  | .shl g k _ | .shr g k _ | .imin g k _ | .imax g k _ | .popc g k _ | .clz g k _ | .iadd64 g k _
  | .fadd g k _ | .fmul g k _ | .ffma g k _ | .fmin g k _ | .fmax g k _ | .frcp g k _ | .fsqrt g k _
  | .dadd g k _ | .dmul g k _ | .dfma g k _ | .dmin g k _ | .dmax g k _
  | .f2i g k _ | .i2f g k _ | .f2f g k _ | .packn g k _ | .unpackn g k _ | .icmp g k _ | .fcmp g k _ | .plop g k _ | .sel g k _
  | .mov g k _ | .movi g k _ | .movSr g k _ | .movSw g k _ | .shfl g k _ | .vote g k _
  | .bra g k _ | .brx g k _ | .exit g k _ | .bar g k _
  | .ld g k _ | .st g k _ | .ldV g k _ | .pref g k _ | .atom g k _ | .ldRsv g k _ | .stCnd g k _ | .semSig g k _ | .semRd g k _
  | .fenceOrd g k _ | .fenceAcq g k _ | .fenceRel g k _ | .fenceDone g k _ | .pourBegin g k _ | .pourEnd g k _ | .pourAbort g k _
  | .hseq g k _ | .tmov g k _ | .rseq g k _ | .hzero g k _ | .hdrain g k _ | .longUnitComplete g k _ => courseNum g k
  | .harpKStepIssue g | .hdrainComplete g | .lockRequest g | .lockGrant g | .pourPublish g | .pourPublishDone g | .lockTo g => coreNum g
  | .hzeroComplete g tile => coreNum g && decide (tile < 2)
  | .switchOut g cs cause => consortNum g cs && decide (cause < 256)
  | .consortImageWritten g cs => consortNum g cs
  | .switchIn src _ g => coreNum src && coreNum g
  | .priResponse group _ => decide (group < 512)
  | .atsCompletion ctx va _ _ ta n _ _ => contextNum ctx && word64 va && word64 ta && decide (12 ≤ n) && decide (n < 64)
  | .atsInvalidateRequest ctx va n => contextNum ctx && word64 va && decide (12 ≤ n) && decide (n ≤ 64)
  | .rdShr can dpa | .rdOwn can dpa _ | .upg can dpa | .wb can dpa | .ev can dpa => canNum can && dpaNum dpa
  | .rdCur agent dpa hint => agentNum agent && dpaNum dpa && decide (hint < 4096)
  | .wrFull agent dpa data hint => agentNum agent && dpaNum dpa && decide (data.length = 128) && decide (hint < 4096)
  | .wrPart agent dpa be data hint =>
    agentNum agent && dpaNum dpa && decide (be < 2 ^ 128) && decide (data.length = 128) && decide (hint < 4096)
  | .homeAtom agent dpa _ aop size operand compare =>
    agentNum agent && dpaNum dpa && decide (aop ≤ 10) && accessSize size && word64 operand && word64 compare
  | .snpShr can loc | .snpFwd can loc | .snpInv can loc | .snpCur can loc | .snoopAnswer can loc | .homeTimeout can loc =>
    canNum can && locNum loc
  | .pegTimeExpiry loc | .escalatedHoldExpiry loc => locNum loc
  | .tokenGrant agent => agentNum agent
  | .commit group inst _ | .discard group inst _ => (decide (group = 0) && clusterNum inst) || ((decide (group = 1) || decide (group = 2)) && decide (inst = 0))
  | .go _ e ch | .stop e ch | .hostStopKill e ch | .transferComplete e ch | .leaderWord0 e ch | .gangCommit e ch
  | .transactionalSourceRead e ch => chanNum e ch
  | .busErrorResponse e ch _ code sub => chanNum e ch && decide (code < 256) && decide (sub < 256)
  | .engineStopClear e => decide (e < 17)
  | .dataFrame port _ seq ack _ _ _ strF packets =>
    portNum port && decide (seq < 256) && decide (ack < 256) && decide (strF < 256) && packets.all Packet.wf
  | .replayTimeout port | .idle port | .portTraining port | .retrain port | .portEnable port _ | .frameLockLoss port => portNum port
  | .markFrame port fret8 _ _ => portNum port && decide (fret8 < 256)
  | .trainFrame port _ role dev plane _ _ _ _ => portNum port && decide (role < 256) && decide (dev < 2 ^ 11) && decide (plane < 256)
  | .rdReq port p | .rdRsp port p | .wr port p | .wrAck port p | .atomReq port p | .atomRsp port p | .semSigPacket port p
  | .credit port p | .fretFull port p | .schedAbort port p => portNum port && p.wf
  | .windowRequestTimeout tag => decide (tag < 2 ^ 16)
  | .portTrainingComplete port lanesOk => portNum port && decide (lanesOk < 16)
  | .inboundBar4Read off len => decide (off < 2 ^ 52) && decide (1 ≤ len) && decide (len ≤ 4096)
  | .inboundBar4Write off be data _ tph =>
    decide (off < 2 ^ 52) && decide (be < 2 ^ 512) && decide (data.length ≤ 512) && (match tph with | some t => decide (t < 256) | none => true)
  | .inboundAtomicop bar _ op size operand compare =>
    (decide (bar = 0) || decide (bar = 2) || decide (bar = 4)) && decide (op < 3) && accessSize size && word64 operand && word64 compare
  | .cxlMemRequest kind dpa be data _ => decide (kind < 5) && dpaNum dpa && decide (be < 2 ^ 128) && decide (data.length ≤ 128)
  | .hostCompletion _ _ | .outboundReadCompletion _ _ _ => true
  | .memorySpaceEnable _ bar4 => word64 bar4
  | .hdmCommit base size => word64 base && word64 size
  | .doeRequest kind => decide (kind < 4)
  | .getCertificate slot _ _ | .challenge slot _ => decide (slot < 8)
  | .negotiateAlgorithms a b c d => decide (a < 2 ^ 32) && decide (b < 2 ^ 32) && decide (c < 2 ^ 16) && decide (d < 2 ^ 16)
  | .getMeasurements index _ _ => decide (index < 256)
  | .keyExchange reqId => decide (reqId < 2 ^ 16)
  | .finish session _ | .heartbeat session | .keyUpdate session | .endSession session => decide (session < 4)
  | .hptMirrorWrite be value => decide (be < 256) && word64 value
  | .config progA progB =>
    (match progA with | some x => decide (x.length ≤ 65536) | none => true) && (match progB with | some x => decide (x.length ≤ 65536) | none => true)
  | .hbmReady stack _ => decide (stack < 12)
  | .dcReady socket _ | .cartridgePulled socket | .cartridgeInserted socket | .cartridgeRemoved socket => socketNum socket
  | .bootGo target => decide (target < 4)
  | .thermalSample temps => decide (temps.length = 80)
  | .pmcLimitWrite value | .cruWayLockWrite value => word64 value
  | .selftestHoldExpiry kind index => decide (kind < 3) && decide (index < 2 ^ 16)
  | .scrub loc kind => locNum loc && decide (kind < 3)
  | .regen selector => decide (selector < 64)
  | .debugUnlockToken token => decide (1 ≤ token.length)
  | .traceRecordWrite unit => decide (unit < 17)
  | .registerWrite off size value => decide (off < 2 ^ 24) && accessSize size && word64 value
  | .hostLinkUp width rate => decide (width ≤ 16) && decide (rate < 8)
  | .bar4Resize n => decide (n < 64)
  | .priEnable on => decide (on.alloc < 2 ^ 32)
  | .counterWrap unit index => decide (unit < 209) && decide (index < 256)
  | .tokenTo | .fretBoundary | .flr | .busMasterEnable _ | .atsEnable _ | .pasidEnable _ | .doeAbort
  | .tableAccess _ | .getVersion | .getCapabilities | .getDigests | .mirrorCopy | .pwrOkAssert _ | .pwrOkDeassert | .perstAssert
  | .perstDeassert | .secondStageVerified _ _ | .firmwareLoadComplete | .powerSample _ | .errorRingWrite | .fire | .rearm
  | .trigIn _ | .counterFreeze | .referenceClockStable | .cxlCacheEnable _ _ => true

end Sys2Proof
end

