-- ==== Sys2Proof/Certificates/Slice0/Vocabulary.lean ====
section
/-!
DEFINITION. The words the statements are written in: what a core instruction computes, and what a command leaves alone.
-/
namespace Sys2Proof.Machine

/-- The command answers a next state, and that state is as `P` says. -/
def Next (i : Instr) (s : State) (P : State → Prop) : Prop := ∃ t, exec i s = .next t ∧ P t

/-- The casting of a course has ended with `e`. -/
def CastingEnds (e : Ending) (s t : State) (g slot : Nat) : Prop := (castingOf t (castingOfCourse s g slot)).ending = some e

/-! ## Core instructions -/

/-- R97, R98, R105, R110, R115 to R120, R130: the course of a core instruction, and its word: its CLASS, its OP and the bits that
it leaves free. -/
def codeOf : Instr → Option (Nat × Nat × Nat)
  | .iadd g k b => some (g, k, wordOf 0 0 b)
  | .isub g k b => some (g, k, wordOf 0 1 b)
  | .imul g k b => some (g, k, wordOf 0 2 b)
  | .imulhi g k b => some (g, k, wordOf 0 3 b)
  | .imad g k b => some (g, k, wordOf 0 4 b)
  | .andOp g k b => some (g, k, wordOf 0 5 b)
  | .orOp g k b => some (g, k, wordOf 0 6 b)
  | .xorOp g k b => some (g, k, wordOf 0 7 b)
  | .shl g k b => some (g, k, wordOf 0 8 b)
  | .shr g k b => some (g, k, wordOf 0 9 b)
  | .imin g k b => some (g, k, wordOf 0 10 b)
  | .imax g k b => some (g, k, wordOf 0 11 b)
  | .popc g k b => some (g, k, wordOf 0 12 b)
  | .clz g k b => some (g, k, wordOf 0 13 b)
  | .iadd64 g k b => some (g, k, wordOf 0 14 b)
  | .fadd g k b => some (g, k, wordOf 1 0 b)
  | .fmul g k b => some (g, k, wordOf 1 1 b)
  | .ffma g k b => some (g, k, wordOf 1 2 b)
  | .fmin g k b => some (g, k, wordOf 1 3 b)
  | .fmax g k b => some (g, k, wordOf 1 4 b)
  | .frcp g k b => some (g, k, wordOf 1 5 b)
  | .fsqrt g k b => some (g, k, wordOf 1 6 b)
  | .dadd g k b => some (g, k, wordOf 2 0 b)
  | .dmul g k b => some (g, k, wordOf 2 1 b)
  | .dfma g k b => some (g, k, wordOf 2 2 b)
  | .dmin g k b => some (g, k, wordOf 2 3 b)
  | .dmax g k b => some (g, k, wordOf 2 4 b)
  | .f2i g k b => some (g, k, wordOf 3 0 b)
  | .i2f g k b => some (g, k, wordOf 3 1 b)
  | .f2f g k b => some (g, k, wordOf 3 2 b)
  | .packn g k b => some (g, k, wordOf 3 3 b)
  | .unpackn g k b => some (g, k, wordOf 3 4 b)
  | .icmp g k b => some (g, k, wordOf 4 0 b)
  | .fcmp g k b => some (g, k, wordOf 4 1 b)
  | .plop g k b => some (g, k, wordOf 4 2 b)
  | .sel g k b => some (g, k, wordOf 4 3 b)
  | .mov g k b => some (g, k, wordOf 5 0 b)
  | .movi g k b => some (g, k, wordOf 5 1 b)
  | .movSr g k b => some (g, k, wordOf 5 2 b)
  | .movSw g k b => some (g, k, wordOf 5 3 b)
  | .shfl g k b => some (g, k, wordOf 5 4 b)
  | .vote g k b => some (g, k, wordOf 5 5 b)
  | .bra g k b => some (g, k, wordOf 6 0 b)
  | .brx g k b => some (g, k, wordOf 6 1 b)
  | .exit g k b => some (g, k, wordOf 6 2 b)
  | .bar g k b => some (g, k, wordOf 6 3 b)
  | .ld g k b => some (g, k, wordOf 7 0 b)
  | .st g k b => some (g, k, wordOf 7 1 b)
  | .ldV g k b => some (g, k, wordOf 7 2 b)
  | .pref g k b => some (g, k, wordOf 7 3 b)
  | .atom g k b => some (g, k, wordOf 8 0 b)
  | .ldRsv g k b => some (g, k, wordOf 8 1 b)
  | .stCnd g k b => some (g, k, wordOf 8 2 b)
  | .fenceOrd g k b => some (g, k, wordOf 9 0 b)
  | .fenceAcq g k b => some (g, k, wordOf 9 1 b)
  | .fenceRel g k b => some (g, k, wordOf 9 2 b)
  | .fenceDone g k b => some (g, k, wordOf 9 3 b)
  | .pourBegin g k b => some (g, k, wordOf 9 8 b)
  | .pourEnd g k b => some (g, k, wordOf 9 9 b)
  | .pourAbort g k b => some (g, k, wordOf 9 10 b)
  | .semSig g k b => some (g, k, wordOf 9 16 b)
  | .semRd g k b => some (g, k, wordOf 9 17 b)
  | .hzero g k b => some (g, k, wordOf 10 0 b)
  | .hdrain g k b => some (g, k, wordOf 10 1 b)
  | .hseq g k b => some (g, k, wordOf 11 0 b)
  | .tmov g k b => some (g, k, wordOf 11 1 b)
  | .rseq g k b => some (g, k, wordOf 11 2 b)
  | _ => none

/-- R78, R104: the instruction cache of the course's core holds the instruction at the course's pc. -/
def InCache (i : Instr) (s : State) : Prop := ∀ x ∈ codeOf i, fetched s x.1 x.2.1 x.2.2 = true

/-- R73, R97 to R103: the module runs, the course can issue, the word is legal for an operation of this shape, and the
consort has every register it names. -/
def Issues (sg : Sig) (g slot : Nat) (b : InstrBits) (s : State) : Prop :=
  s.powered = true ∧ courseReady s g slot = true ∧ sigOk sg b = true ∧
    sigTop sg b ≤ (consortOf s g (courseOf s g slot).consort).ra

/-- Nothing but one course has changed, the counters and the trace aside: every register below the counters, every other
course, memory and every other part of the machine are as before. -/
def OnlyCourse (g slot : Nat) (s t : State) : Prop :=
  ∃ c r q w, t = { setCourse s g slot c with regs := r, trc := q, touched := w } ∧
    ∀ f : FRef, f.key < 8 * 0x410000 → getF t f = getF s f

/-- Within a course only its registers, its status word and its place in the program have changed. -/
def OnlyRegisters (c c' : Course) : Prop :=
  c' = { c with v := c'.v, u := c'.u, p := c'.p, asw := c'.asw, pc := c'.pc, active := c'.active, stack := c'.stack }

/-- R80: with no divergence open, the course stands at the next instruction with the same lanes. -/
def AtNext (c c' : Course) : Prop :=
  c.stack = [] → c'.pc = (c.pc + 8) % 2 ^ 64 ∧ c'.active = c.active ∧ c'.stack = []

/-- A register operation: the course, the word, its shape, the registers it writes, and in each lane the number they
receive (the low word in the first) with the flags raised. -/
structure RegOp where
  g : Nat
  slot : Nat
  b : InstrBits
  sg : Sig
  words : Nat
  value : Course → Nat → Nat
  flags : Course → Nat → Word
  ok : Bool := true            -- the further encoding rules and waits of this operation

/-- Word `k` of a number. -/
def partOf (x k : Nat) : Word := BitVec.ofNat 32 (x >>> (32 * k))

/-- R67, R101, R102: the destination registers hold the result in every lane that is active and whose guard holds (or once,
when D is uniform), and no other register has changed. -/
def Computes (o : RegOp) (c c' : Course) : Prop :=
  let d := fldD o.b
  (o.b.du = false → c'.u = c.u ∧ ∀ r l, l < 32 → vreg c' r l =
    if d ≤ r ∧ r < d + o.words ∧ (lanesOf c o.b).getLsbD l = true then partOf (o.value c l) (r - d) else vreg c r l) ∧
  (o.b.du = true → c'.v = c.v ∧ ∀ r, ureg c' r =
    if d ≤ r ∧ r < d + o.words then partOf (o.value c 0) (r - d) else ureg c r) ∧
  c'.p = c.p

/-- R109: the sticky flags that some lane that ran raised are set, and no other bit of the status word has changed. -/
def Flags (o : RegOp) (c c' : Course) : Prop :=
  ∀ i, c'.asw.getLsbD i = (c.asw.getLsbD i || (if o.b.du then (o.flags c 0).getLsbD i
    else (List.range 32).any (fun l => (lanesOf c o.b).getLsbD l && (o.flags c l).getLsbD i)))

/-- What a register operation leaves: its results and flags in its own course, which stands at the next instruction, and
nothing else. -/
def Performed (o : RegOp) (s t : State) : Prop :=
  OnlyCourse o.g o.slot s t ∧ OnlyRegisters (courseOf s o.g o.slot) (courseOf t o.g o.slot) ∧
    AtNext (courseOf s o.g o.slot) (courseOf t o.g o.slot) ∧ Computes o (courseOf s o.g o.slot) (courseOf t o.g o.slot) ∧
    Flags o (courseOf s o.g o.slot) (courseOf t o.g o.slot)

/-- Operand A in a lane, as a word. -/
def srcA (c : Course) (b : InstrBits) (l : Nat) : Word := if b.au then ureg c (fldA b) else vreg c (fldA b) l
/-- Operand B in a lane, as a word. -/
def srcB (c : Course) (b : InstrBits) (l : Nat) : Word := if b.bu then ureg c (fldB b) else vreg c (fldB b) l
/-- Operand C in a lane, as a word. -/
def srcC (c : Course) (b : InstrBits) (l : Nat) : Word := if b.cu then ureg c (fldC b) else vreg c (fldC b) l
/-- R99: operand B, or the signed 24-bit immediate of format I. -/
def srcBI (c : Course) (b : InstrBits) (l : Nat) : Word :=
  if b.op5 then (BitVec.ofNat 24 (fldImm b)).signExtend 32 else srcB c b l
/-- R102: the pair of operand A. -/
def pairA (c : Course) (b : InstrBits) (l : Nat) : BitVec 64 := BitVec.ofNat 64 (opd64 c b.au (fldA b) l)
/-- R99, R102: the pair of operand B, or the immediate extended to 64 bits. -/
def pairBI (c : Course) (b : InstrBits) (l : Nat) : BitVec 64 :=
  if b.op5 then (BitVec.ofNat 24 (fldImm b)).signExtend 64 else BitVec.ofNat 64 (opd64 c b.bu (fldB b) l)

/-- No flag. -/
def noFlags (_ : Course) (_ : Nat) : Word := 0

/-- An operation on words A and B, told MOD[0], as R105 gives it. -/
def wordOp (g k : Nat) (b : InstrBits) (m : Nat) (f : Bool → Word → Word → Word) : RegOp :=
  ⟨g, k, b, sigInt m, 1, fun c l => (f ((modOf b).testBit 0) (srcA c b l) (srcBI c b l)).toNat, noFlags, true⟩

/-- R105: what each INT instruction computes. -/
def integerOp : Instr → Option RegOp
  | .iadd g k b => some (wordOp g k b 0 (fun _ x y => x + y))
  | .isub g k b => some (wordOp g k b 0 (fun _ x y => x - y))
  | .imul g k b => some (wordOp g k b 0 (fun _ x y => x * y))
  | .imulhi g k b => some (wordOp g k b 1 (fun signed x y =>
      if signed then ((x.signExtend 64 * y.signExtend 64) >>> 32).setWidth 32
      else ((x.setWidth 64 * y.setWidth 64) >>> 32).setWidth 32))
  | .imad g k b => some ⟨g, k, b, ⟨.reg, .reg, .reg, .reg, 0, none⟩, 1,
      fun c l => (srcA c b l * srcB c b l + srcC c b l).toNat, noFlags, true⟩
  | .andOp g k b => some (wordOp g k b 0 (fun _ x y => x &&& y))
  | .orOp g k b => some (wordOp g k b 0 (fun _ x y => x ||| y))
  | .xorOp g k b => some (wordOp g k b 0 (fun _ x y => x ^^^ y))
  | .shl g k b => some (wordOp g k b 0 (fun _ x y => x <<< (y &&& 31#32)))
  | .shr g k b => some (wordOp g k b 1 (fun signed x y => if signed then x.sshiftRight' (y &&& 31#32) else x >>> (y &&& 31#32)))
  | .imin g k b => some (wordOp g k b 1 (fun signed x y => if (if signed then x.sle y else x.ule y) then x else y))
  | .imax g k b => some (wordOp g k b 1 (fun signed x y => if (if signed then x.sle y else x.ule y) then y else x))
  | .popc g k b => some ⟨g, k, b, sigUn, 1, fun c l => ((List.range 32).filter (fun i => (srcA c b l).getLsbD i)).length, noFlags, true⟩
  | .clz g k b => some ⟨g, k, b, ⟨.reg, .reg, .unused, .unused, 1, none⟩, 1,
      fun c l => ((List.range 32).takeWhile (fun i => (srcA c b l).getMsbD i == ((modOf b).testBit 0 && (srcA c b l).msb))).length, noFlags, true⟩
  | .iadd64 g k b => some ⟨g, k, b, ⟨.pair, .pair, .pair, .unused, 0, some 0⟩, 2, fun c l => (pairA c b l + pairBI c b l).toNat, noFlags, true⟩
  | _ => none

/-- A floating-point operation by FTYPE on A and B (R105, R596), MOD[0] and MOD[1] negating them, built from an operation of
one format. -/
def floatRow (g k : Nat) (b : InstrBits) (f : Course → Bool → Bool → Fmt → Nat → Nat → Res) : RegOp :=
  let r := fun (c : Course) (l : Nat) => byType (ftype b) (fun fmt x y _ => f c ((modOf b).testBit 0) ((modOf b).testBit 1) fmt x y)
    (opd c b.au (fldA b) l) (if b.op5 then immFp b else opd c b.bu (fldB b) l) 0
  ⟨g, k, b, sigFp, 1, fun c l => (r c l).code, fun c l => (r c l).flags, ftypeOk b⟩

/-- A one-operand FP32 operation. -/
def floatUnary (g k : Nat) (b : InstrBits) (f : Course → Nat → Res) : RegOp :=
  ⟨g, k, b, sigUn, 1, fun c l => (f c (opd c b.au (fldA b) l)).code, fun c l => (f c (opd c b.au (fldA b) l)).flags, true⟩

/-- R105, R106: what each FP instruction computes, rounded as the status word directs. -/
def floatOp : Instr → Option RegOp
  | .fadd g k b => some (floatRow g k b (fun c na nb fmt x y => fAdd fmt (aswRnd c) (aswSubn c) na nb x y))
  | .fmul g k b => some (floatRow g k b (fun c na nb fmt x y => fMul fmt (aswRnd c) (aswSubn c) na nb x y))
  | .ffma g k b =>
    let r := fun (c : Course) (l : Nat) => byType (ftype b) (fun fmt x y z =>
        fFma fmt (aswRnd c) (aswSubn c) ((fldMod b).testBit 0) ((fldMod b).testBit 1) ((fldMod b).testBit 2) x y z)
      (opd c b.au (fldA b) l) (opd c b.bu (fldB b) l) (opd c b.cu (fldC b) l)
    some ⟨g, k, b, ⟨.reg, .reg, .reg, .reg, 0x1807, none⟩, 1, fun c l => (r c l).code, fun c l => (r c l).flags, ftypeOk b⟩
  | .fmin g k b => some (floatRow g k b (fun c na nb fmt x y => fMinMax fmt (aswSubn c) false na nb x y))
  | .fmax g k b => some (floatRow g k b (fun c na nb fmt x y => fMinMax fmt (aswSubn c) true na nb x y))
  | .frcp g k b => some (floatUnary g k b (fun c x => fRcp fp32 (aswRnd c) (aswSubn c) false x))
  | .fsqrt g k b => some (floatUnary g k b (fun c x => fSqrt fp32 (aswRnd c) (aswSubn c) false x))
  | _ => none

/-- A binary64 operation on the pairs of A and B. -/
def doubleRow (g k : Nat) (b : InstrBits) (f : Course → Nat → Nat → Res) : RegOp :=
  let r := fun (c : Course) (l : Nat) => f c (opd64 c b.au (fldA b) l) (opd64 c b.bu (fldB b) l)
  ⟨g, k, b, sigDp, 2, fun c l => (r c l).code, fun c l => (r c l).flags, true⟩

/-- R105, R106: what each FP64 instruction computes. -/
def doubleOp : Instr → Option RegOp
  | .dadd g k b => some (doubleRow g k b (fun c x y => fAdd fp64 (aswRnd c) (aswSubn c) false false x y))
  | .dmul g k b => some (doubleRow g k b (fun c x y => fMul fp64 (aswRnd c) (aswSubn c) false false x y))
  | .dfma g k b =>
    let r := fun (c : Course) (l : Nat) => fFma fp64 (aswRnd c) (aswSubn c) false false false
      (opd64 c b.au (fldA b) l) (opd64 c b.bu (fldB b) l) (opd64 c b.cu (fldC b) l)
    some ⟨g, k, b, ⟨.pair, .pair, .pair, .pair, 0, none⟩, 2, fun c l => (r c l).code, fun c l => (r c l).flags, true⟩
  | .dmin g k b => some (doubleRow g k b (fun c x y => fMinMax fp64 (aswSubn c) false false false x y))
  | .dmax g k b => some (doubleRow g k b (fun c x y => fMinMax fp64 (aswSubn c) true false false x y))
  | _ => none

/-- A conversion of A between SIMT formats (R178): which codes it serves, and its result. -/
def convertRow (g k : Nat) (b : InstrBits) (ok : Bool) (f : Course → Nat → Res) : RegOp :=
  let r := fun (c : Course) (l : Nat) => f c (if cvtSrc b = 3 then opd64 c b.au (fldA b) l else opd c b.au (fldA b) l)
  ⟨g, k, b, sigCvt b, simtWords (cvtDst b), fun c l => (r c l).code, fun c l => (r c l).flags, ok⟩

/-- R178, R597: what each CVT instruction computes.  PACKN puts element `j` at bit `j` times the width of the packed word;
UNPACKN puts it in register D + `j`. -/
def convertOp : Instr → Option RegOp
  | .f2i g k b => some (convertRow g k b (simtFloat (cvtSrc b) && decide (cvtDst b = 4))
      (fun c x => f2i (simtFmt (cvtSrc b)) (aswRnd c) (aswSubn c) x))
  | .i2f g k b => some (convertRow g k b (decide (cvtSrc b = 4) && simtFloat (cvtDst b))
      (fun c x => i2f (simtFmt (cvtDst b)) (aswRnd c) (aswSubn c) x))
  | .f2f g k b => some (convertRow g k b (simtFloat (cvtSrc b) && simtFloat (cvtDst b))
      (fun c x => f2f (simtFmt (cvtSrc b)) (simtFmt (cvtDst b)) (aswRnd c) (aswSubn c) x))
  | .packn g k b =>
    let e := packCount (cvtDst b)
    let w := ((fmtOf (cvtDst b) false).getD fp32).width
    some ⟨g, k, b, ⟨.reg, .run e, if (fldMod b).testBit 2 then .upair else .unused, .reg, 0x1FFC, none⟩, 1,
      fun c l => ((List.range e).map (fun j => (packElem c b l j).code * 2 ^ (w * j))).sum,
      fun c l => (List.range e).foldl (fun a j => a ||| (packElem c b l j).flags) 0,
      decide (cvtSrc b = 0) && narrowCode (cvtDst b)⟩
  | .unpackn g k b =>
    let e := packCount (cvtSrc b)
    some ⟨g, k, b, ⟨.run e, .reg, .unused, .reg, 0x1FF8, none⟩, e,
      fun c l => ((List.range e).map (fun j => (unpackElem c b l j).code * 2 ^ (32 * j))).sum,
      fun c l => (List.range e).foldl (fun a j => a ||| (unpackElem c b l j).flags) 0,
      decide (cvtDst b = 0) && narrowCode (cvtSrc b)⟩
  | _ => none

/-- R105: the lane from which a SHFL takes its value, for the number in B: 0 index, 1 up, 2 down, 3 xor. -/
def shuffleFrom (mode l x : Nat) : Nat :=
  if mode = 0 then x else if mode = 1 then (if x ≤ l then l - x else 32) else if mode = 2 then l + x
  else if x < 32 then l ^^^ x else 32

/-- R105, R107: what each MOV instruction with a register destination, and SEL, computes. -/
def moveOp (s : State) : Instr → Option RegOp
  | .mov g k b => some ⟨g, k, b, sigUn, 1, fun c l => (srcA c b l).toNat, noFlags, true⟩
  | .movSr g k b => some ⟨g, k, b, ⟨.reg, .number, .unused, .unused, 0, none⟩, 1,
      fun c l => specialReg s c (fldA b) l, noFlags,
      decide (fldA b ≤ 7) && !(decide (fldA b = 0) && b.du) && !(decide (fldA b = 2) && harpPending s g k)⟩
  | .sel g k b => some ⟨g, k, b, ⟨.reg, .reg, .reg, .pred, 0, none⟩, 1,
      fun c l => (if (preg c (fldC b)).getLsbD l then srcA c b l else srcB c b l).toNat, noFlags, !b.du⟩
  | .shfl g k b => some ⟨g, k, b, ⟨.reg, .reg, .reg, .unused, 3, none⟩, 1,
      fun c l => (let n := shuffleFrom (fldMod b) l (srcB c b l).toNat
        if n < 32 ∧ (lanesOf c b).getLsbD n = true then srcA c b n else srcA c b l).toNat, noFlags, true⟩
  | .vote g k b => some ⟨g, k, b, ⟨.ureg, .pred, .unused, .unused, 0, none⟩, 1,
      fun c _ => (c.active &&& preg c (fldA b)).toNat, noFlags, true⟩
  | _ => none

/-- R105: a relation on words: 0 EQ, 1 NE, 2 LT, 3 LE, 4 GT, 5 GE, 6 unordered (never), 7 ordered (always). -/
def relWord (rel : Nat) (signed : Bool) (x y : Word) : Bool :=
  match rel with
  | 0 => x == y
  | 1 => x != y
  | 2 => if signed then x.slt y else x.ult y
  | 3 => if signed then x.sle y else x.ule y
  | 4 => if signed then y.slt x else y.ult x
  | 5 => if signed then y.sle x else y.ule x
  | 6 => false
  | _ => true

/-- R105: a relation combined with p[C]: 0 alone, 1 AND, 2 OR, 3 AND NOT. -/
def combined (comb : Nat) (r p : Bool) : Bool :=
  match comb with
  | 0 => r
  | 1 => r && p
  | 2 => r || p
  | _ => r && !p

/-- A predicate operation: its shape, further rules, and each lane's bit and flags. -/
structure PredOp where
  g : Nat
  slot : Nat
  b : InstrBits
  sg : Sig
  value : Course → Nat → Bool
  flags : Course → Nat → Word
  ok : Bool := true

/-- R105, R106: what each PRED instruction that writes a predicate computes. -/
def predicateOp : Instr → Option PredOp
  | .icmp g k b => some ⟨g, k, b, sigCmp b 0x7F 0x1F, fun c l =>
      combined (cmpComb b) (relWord (cmpRel b) ((modOf b).testBit 4) (srcA c b l) (srcBI c b l)) ((preg c (fldC b)).getLsbD l),
      noFlags, decide (cmpRel b < 8)⟩
  | .fcmp g k b => some ⟨g, k, b, sigCmp b 0x186F 0x0F, fun c l =>
      combined (cmpComb b) (fcmpLane c b l).1 ((preg c (fldC b)).getLsbD l),
      fun c l => (fcmpLane c b l).2, ftypeOk b && decide (cmpRel b < 8)⟩
  | .plop g k b => some ⟨g, k, b, ⟨.pred, .pred, .pred, .pred, 0xFF, none⟩, fun c l =>
      (fldMod b).testBit (b2n ((preg c (fldA b)).getLsbD l) + 2 * b2n ((preg c (fldB b)).getLsbD l) + 4 * b2n ((preg c (fldC b)).getLsbD l)),
      noFlags, true⟩
  | _ => none

/-- R67, R101, R103: the predicate D holds each lane's bit in the lanes that ran; no other predicate and no register has
changed; the flags of those lanes are raised. -/
def SetsPredicate (o : PredOp) (c c' : Course) : Prop :=
  c'.v = c.v ∧ c'.u = c.u ∧
  (∀ r l, l < 32 → (preg c' r).getLsbD l =
    if r = fldD o.b ∧ (lanesOf c o.b).getLsbD l = true then o.value c l else (preg c r).getLsbD l) ∧
  ∀ i, c'.asw.getLsbD i = (c.asw.getLsbD i ||
    (List.range 32).any (fun l => (lanesOf c o.b).getLsbD l && (o.flags c l).getLsbD i))

/-! ## Branches -/

/-- R80: the paths of a branch: the active lanes grouped by the address each goes to, in rising order of address. -/
def Paths (c : Course) (dest : Nat → Nat) (ps : List (Nat × Word)) : Prop :=
  ps.Pairwise (fun x y => x.1 < y.1) ∧ (∀ x ∈ ps, x.2 ≠ 0) ∧
    ∀ a l, l < 32 → ((∃ m, (a, m) ∈ ps ∧ m.getLsbD l = true) ↔ (c.active.getLsbD l = true ∧ dest l = a))

/-! ## Memory instructions -/

/-- R73, R100, R110: the module runs, the course can issue, the word of format M is legal with `d` as its data operand, and the
consort has every register it names. -/
def MemIssues (d : Form) (dst : Bool) (g k : Nat) (b : InstrBits) (s : State) : Prop :=
  s.powered = true ∧ courseReady s g k = true ∧ memOk d dst b = true ∧
    memTop d b ≤ (consortOf s g (courseOf s g k).consort).ra

/-- Nothing outside core `g` has changed, but counters, trace and what waits for the host. -/
def SameOutside (g : Nat) (s t : State) : Prop :=
  t.powered = s.powered ∧ t.aoTick = s.aoTick ∧ t.ts = s.ts ∧ t.shadow = s.shadow ∧ t.tokens = s.tokens ∧ t.sch = s.sch ∧
    t.clusters = s.clusters ∧ t.mm = s.mm ∧ t.spr = s.spr ∧ t.amx = s.amx ∧ t.hpt = s.hpt ∧ t.err = s.err ∧ t.pmc = s.pmc ∧
    t.sec = s.sec ∧ t.boot = s.boot ∧ (∀ g', g' ≠ g → coreOf t g' = coreOf s g') ∧
    ∀ f : FRef, f.key < 8 * 0x410000 → getF t f = getF s f

/-- On core `g` only course `k`, and consort memory, have changed. -/
def SameCourses (g k : Nat) (s t : State) : Prop :=
  (∀ k', k' ≠ k → courseOf t g k' = courseOf s g k') ∧ (coreOf t g).consorts = (coreOf s g).consorts ∧
    (coreOf t g).l1 = (coreOf s g).l1 ∧ (coreOf t g).ladle = (coreOf s g).ladle ∧ (coreOf t g).harp = (coreOf s g).harp ∧
    (coreOf t g).images = (coreOf s g).images

/-- A course's registers, predicates and status word are as before. -/
def SameRegisters (c c' : Course) : Prop := c'.v = c.v ∧ c'.u = c.u ∧ c'.p = c.p ∧ c'.asw = c.asw

/-- R115, R116: the lanes of an ATOM in ascending order, each on the bytes that the one before left: the bytes at last, and
what each lane found. -/
def atomRun (aop n : Nat) (x cmp : Nat → Nat) (base : Nat) : List (Nat × Nat) → List Host.Cell → List Host.Cell × List (Nat × List Byte)
  | [], m => (m, [])
  | (l, a) :: rest, m =>
    let old := rdList m (base + a) n
    let r := atomRun aop n x cmp base rest (wrList m (base + a) (leBytes n (atomVal aop (8 * n) (leNat old) (x l) (cmp l))))
    (r.1, (l, old) :: r.2)

/-- R115: what an atomic other than FADD leaves in memory: 0 ADD, 2 SMIN, 3 SMAX, 4 UMIN, 5 UMAX, 6 AND, 7 OR, 8 XOR, 9 SWAP,
10 CAS. -/
def atomWord {w : Nat} (aop : Nat) (old x cmp : BitVec w) : BitVec w :=
  match aop with
  | 0 => old + x
  | 2 => if x.slt old then x else old
  | 3 => if old.slt x then x else old
  | 4 => if x.ult old then x else old
  | 5 => if old.ult x then x else old
  | 6 => old &&& x
  | 7 => old ||| x
  | 8 => old ^^^ x
  | 9 => x
  | _ => if old = cmp then x else old

/-- The module runs and the course can issue. -/
def Ready (g k : Nat) (s : State) : Prop := s.powered = true ∧ courseReady s g k = true

/-- R117: the course with its reservations ended. -/
def unreserved (c : Course) : Course := { c with rsv := [], lost := [] }

/-- The course goes on from `c` at its next instruction, and nothing but it has changed on its core. -/
def GoesOn (g k : Nat) (c : Course) (s t : State) : Prop :=
  courseOf t g k = advance c ∧ SameCourses g k s t ∧ (coreOf t g).cmem = (coreOf s g).cmem ∧ SameOutside g s t

/-- R117: the operation of an ATOM's word in a course. -/
def atomOf (c : Course) (b : InstrBits) : AtomOp :=
  ⟨aAop b, mBytes b, aFar b, aNoret b, fun l => opdN c b.bu (fldB b) (mBytes b) l, fun l => opdN c b.cu (fldC b) (mBytes b) l⟩

/-- R119, R150: a fence issues, with none of its course's drains and clears running. -/
def FenceIssues (g k : Nat) (b : InstrBits) (s : State) : Prop := Ready g k s ∧ fenceForm b = true ∧ harpPending s g k = false

/-- R314: course `k`'s pour holds core `g`'s ladle in phase `p`. -/
def PourIs (p : PourPhase) (g k : Nat) (s : State) : Prop :=
  (coreOf s g).ladle.holder = some k ∧ (courseOf s g k).live = true ∧ (courseOf s g k).pour = p

/-- R120, R319, R321: the course's pour has ended with ABORTED and a reason; the course goes on at its abort target with its
registers as they are, and nothing that it staged has reached memory. -/
def PourAborted (g k reason : Nat) (s t : State) : Prop :=
  let c := courseOf s g k
  (courseOf t g k).pour = .closed ∧ (courseOf t g k).pourCode = 0x50 ∧ (courseOf t g k).pourSub = reason ∧
    (courseOf t g k).pc = c.abortPc ∧ (courseOf t g k).stack = c.beginStack ∧ (courseOf t g k).active = liveLanes c ∧
    (courseOf t g k).abortCount = c.abortCount + 1 ∧ SameRegisters c (courseOf t g k) ∧ (coreOf t g).ladle = {} ∧
    t.mm.mem = s.mm.mem ∧ t.mm.host = s.mm.host ∧ (∀ line, (txnOf t line).locked ≠ some g) ∧ ∀ x ∈ t.tokens, x.1 ≠ g

/-- R123: a LONG instruction: its kind, core, course and word. -/
def longOf : Instr → Option (LongKind × Nat × Nat × InstrBits)
  | .hseq g k b => some (hseqKind g, g, k, b)
  | .tmov g k b => some (tmovKind, g, k, b)
  | .rseq g k b => some (rseqKind, g, k, b)
  | _ => none

/-- R123, R124: a LONG instruction issues: its word is legal, its consort has the Harp that HSEQ needs, no drain or clear of its own
runs before TMOV and RSEQ. -/
def LongIssues (kd : LongKind) (g k : Nat) (b : InstrBits) (s : State) : Prop :=
  Ready g k s ∧ longForm b = true ∧ (courseOf s g k).pour = .closed ∧
    (kd.kind = 0 → (consortOf s g (courseOf s g k).consort).harp = true) ∧ (kd.kind ≠ 0 → harpPending s g k = false)

/-- R73, R130: an instruction of the HARP class issues on the owning consort. -/
def HarpIssues (g k : Nat) (b : InstrBits) (s : State) : Prop :=
  Ready g k s ∧ guardOk b = true ∧ b.gen = false ∧ b.op5 = false ∧ b.du = false ∧ b.bu = false ∧ b.cu = false ∧
    (courseOf s g k).pour = .closed ∧ (consortOf s g (courseOf s g k).consort).harp = true

/-- R123: the word of a progress block that holds PHASE, CAUSE and STOPS. -/
def phaseWord (phase cause stops : Nat) : Word := BitVec.ofNat 32 (phase + cause * 2 ^ 8 + stops * 2 ^ 16)

/-! ## Host commands -/

/-- R36 to R40: it is the turn of queue `q`'s oldest command `c`, of opcode `op`, and its common fields pass their check. -/
def Turn (op q : Nat) (c : Cmd) (s : State) : Prop :=
  s.powered = true ∧ schedulerUp s = true ∧ mayStart s q = true ∧ headCmd s q = some c ∧ c.started = false ∧
    cOp c = op ∧ 1 ≤ op ∧ op ≤ 10 ∧ commonOk c = true

/-- R36: the oldest command of queue `q` has started, of opcode `op`, and is not ordered to drain. -/
def Runs (op q : Nat) (c : Cmd) (s : State) : Prop :=
  s.powered = true ∧ headCmd s q = some c ∧ c.started = true ∧ cOp c = op ∧ c.draining = 0

/-- R39: the queue, opcode and own check of the host command that a row belongs to. -/
def hostRow : Instr → Option (Nat × Nat × (Cmd → Bool))
  | .launch q _ _ => some (q, 1, launchOk)
  | .patch q _ => some (q, 2, patchOk)
  | .migrate q => some (q, 3, migOk)
  | .translate q => some (q, 4, advOk)
  | .pin q => some (q, 4, advOk)
  | .unpin q => some (q, 4, advOk)
  | .preload q => some (q, 4, advOk)
  | .invalidateRange q => some (q, 5, invOk)
  | .invalidateContext q => some (q, 5, invOk)
  | .invalidateAll q => some (q, 5, invOk)
  | .invalidateOutbound q => some (q, 5, invOk)
  | .invalidateInbound q => some (q, 5, invOk)
  | .fence q => some (q, 6, fenceOk)
  | .semaWait q => some (q, 7, semaOk)
  | .semaSignal q => some (q, 7, semaOk)
  | _ => none

/-- R305, R306: no request of the host is held that this one must stay behind. -/
def InTurn (i : Instr) (s : State) : Prop := s.hpt.held.any (fun h => !isCxl h && (isRead i || !isRead h)) = false

/-- R305, R306: the requests of the host that keep an order among themselves: its reads, writes and AtomicOps of BAR4, its writes of
registers, and the writes of registers that have rows of their own; a COMMIT or DISCARD of the AMX window group, and a GO that firmware
has not set. -/
def keepsOrder : Instr → Bool
  | .inboundBar4Read _ _ | .inboundBar4Write _ _ _ _ _ | .inboundAtomicop _ _ _ _ _ _ | .registerWrite _ _ _ => true
  | .tail _ _ _ _ | .schQCfgWrite _ _ _ | .queueReset _ | .cruWayLockWrite _ | .regen _ | .fire | .rearm | .pmcLimitWrite _ => true
  | .hptMirrorWrite _ _ | .bootGo _ | .retrain _ | .portEnable _ _ | .stop _ _ => true
  | .go fw _ _ => !fw
  | .commit gr _ _ | .discard gr _ _ => decide (gr = 2)
  | _ => false

/-- The command has started on its queue's turn. -/
def started (q : Nat) (c : Cmd) (s : State) : State := startCommand q c (useCredit q s)

/-- The command `c` of queue `q`, of opcode `op`, goes on in state `s`: it has started, or it starts on its turn in `s0`. -/
def GoesOnIn (op q : Nat) (ok : Cmd → Bool) (c : Cmd) (s0 s : State) : Prop :=
  (Runs op q c s0 ∧ s = s0) ∨
    ∃ c0, Turn op q c0 s0 ∧ ok c0 = true ∧ s = started q c0 s0 ∧ headCmd s q = some c

/-- No byte of device or host memory has changed. -/
def SameMemory (s t : State) : Prop := t.mm.mem = s.mm.mem ∧ t.mm.host = s.mm.host

/-! ## Translation -/

/-- No cache of translations holds an entry that a scope matches. -/
def Forgotten (x : Scope) (t : State) : Prop :=
  (∀ e ∈ t.xl.crucible, x.ent e = false) ∧ ∀ c ∈ t.xl.cluster, ∀ e ∈ c.2, x.ent e = false

/-! ## Claims -/

/-- R224, R366: the 8 B word that a claim returns is in the pair at `d` of lane `l`, no other register has changed, and the course
stands at its next instruction. -/
def WordGiven (g k l d w : Nat) (s t : State) : Prop :=
  vreg (courseOf t g k) d l = BitVec.ofNat 32 w ∧ vreg (courseOf t g k) (d + 1) l = BitVec.ofNat 32 (w / 2 ^ 32) ∧
    (∀ r l', l' < 32 → ¬(l' = l ∧ (r = d ∨ r = d + 1)) → vreg (courseOf t g k) r l' = vreg (courseOf s g k) r l') ∧
    AtNext (courseOf s g k) (courseOf t g k)

/-! ## Command streams -/

/-- R199, R200: command `m` heads queue `qi` of cluster `cl`, whose control core works for casting `k`; it has started, or it may. -/
def Heads (cl qi op k : Nat) (m : SCmd) (s : State) : Prop :=
  s.powered = true ∧ controlUp s cl = some k ∧ (streamQueue s cl qi).head? = some m ∧ mOp m = op ∧ m.done = false ∧
    m.stopped = false ∧ (m.started = true ∨ (mayBegin s cl k m = true ∧ headerGood s k m = true))

/-- R199: and it has not started. -/
def Begins (cl qi op k : Nat) (m : SCmd) (s : State) : Prop := Heads cl qi op k m s ∧ m.started = false

/-- R200: the head of a queue is complete: it has left its queue, and the other queues of the cluster are as they were. -/
def HeadLeft (cl qi : Nat) (s t : State) : Prop :=
  streamQueue t cl qi = (streamQueue s cl qi).tail ∧ ∀ q, q ≠ qi → streamQueue t cl q = streamQueue s cl q

/-- The head of a queue has started and stays. -/
def HeadStays (cl qi : Nat) (s t : State) : Prop :=
  (streamQueue t cl qi).length = (streamQueue s cl qi).length ∧ ∃ m, (streamQueue t cl qi).head? = some m ∧ m.started = true

/-! ## Cluster engines -/

/-- R200: the command at the head of a queue has done all of its work: so many units. -/
def WorkDone (cl qi unit : Nat) (t : State) : Prop :=
  ∃ m, (streamQueue t cl qi).head? = some m ∧ m.started = true ∧ m.done = true ∧ m.unit = unit

/-- R199: a command as it starts: the state on which its first turn runs. -/
def begun (cl qi k : Nat) (m : SCmd) (s : State) : State :=
  let m' := { m with started := true, startFret := getF s amxFret }
  traceCmd cl qi k 0x01 m' (mOp m + 256 * qi + 2 ^ 16 * mNode m) (setHeadCmd cl qi m' (toRun cl s))

/-- The state in which the head of a queue goes to work: as it is, or with the command started in it. -/
def atWork (cl qi k : Nat) (m : SCmd) (s : State) : State := if m.started then s else begun cl qi k m s

/-- The engine command of a constructor whose operands all lie in scratch. -/
def localEngineOf : Instr → Option (LocalEngine × Nat)
  | .tse cl => some (tseEngine, cl)
  | .ufe cl => some (ufeEngine, cl)
  | .ske cl => some (skeEngine, cl)
  | .fce cl => some (fceEngine, cl)
  | _ => none

/-- The head of a queue has started, is at a unit, and has done its work or not. -/
def HeadAt (cl qi unit : Nat) (done : Bool) (t : State) : Prop :=
  ∃ m, (streamQueue t cl qi).head? = some m ∧ m.started = true ∧ m.unit = unit ∧ m.done = done

/-- R211: the FILL age of a GSE command's accesses. -/
def gAge (m : SCmd) : Nat := if bit (fieldOf m.bytes 50 1) 1 then 3 else 1

/-- R211: a GSE command is at one of its indices, whose lines in scratch are neither locked nor poisoned. -/
def GseReady (cl k : Nat) (m : SCmd) (s : State) : Prop :=
  let io := fieldOf m.bytes 32 4 + m.unit * gIdx m.bytes
  let dr := (gDst m.bytes).off + (if gMode m.bytes = 2 then m.unit / gGroup m.bytes else m.unit) * (gDst m.bytes).stride
  Heads cl 4 0x40 k m s ∧ (m.started = false → gseCheck cl s m = none) ∧ m.unit < gCount m.bytes ∧ m.mid = false ∧ gMode m.bytes < 4 ∧
    runBusy s cl io (gIdx m.bytes) = false ∧ runBusy s cl dr (gRow m.bytes) = false ∧ runPoison s cl io (gIdx m.bytes) = none ∧
    ((gMode m.bytes = 1 ∨ gMode m.bytes = 3) → runPoison s cl dr (gRow m.bytes) = none)

/-- R211: an index names a row of the table. -/
def InTable (m : SCmd) (idx : Int) : Prop := 0 ≤ idx ∧ idx < (fieldOf m.bytes 24 4 : Int)

/-- R211: the row that a SCATTER or SCATTER_ADD writes for the index at its unit has been computed: `m0` is the command and `s0` the state
before, `m1` and `s1` those after. -/
def RowComputed (cl k : Nat) (m0 m1 : SCmd) (s0 s1 : State) : Prop :=
  let bs := m0.bytes
  let a := engAccess s0 cl 4 k
  let va := gVa bs (gIndex s0 cl bs m0.unit)
  let dr := (gDst bs).off + m0.unit * (gDst bs).stride
  ∃ s2, pagesReady a va (gRow bs) s0 = (s2, .ok ()) ∧
    ((gMode bs = 1 ∧ m1 = { m0 with mid := true, out := scrBytes s2 cl dr (gRow bs), outVa := va } ∧ s1 = setHeadCmd cl 4 m1 s2) ∨
      (gMode bs = 3 ∧ ∃ s3 row, engReadAll a cl (gAge m0) va (gRow bs) s2 = (s3, .ok row) ∧
        let s4 := endWaits (.engine cl 4) s3
        let z := addRows row (scrBytes s4 cl dr (gRow bs))
        m1 = { m0 with mid := true, out := packRow 4 (z.map (fun r => r.code)), outVa := va } ∧
          s1 = markOwn (gseWho cl) s0.race.writes.length (setHeadCmd cl 4 m1
            (engFlags cl 1 (resFlags z ||| flagIf (z.any (fun r => isNan32 r.code)) fInvalid) s4))))

/-- R213: the waits of a REDUCE's list have been passed: so many entries more. -/
def passWaits (cl : Nat) : Nat → SCmd × State → SCmd × State
  | 0, x => x
  | n + 1, x => passWaits cl n ({ x.1 with placed := x.1.placed + 1 }, setHeadCmd cl 5 { x.1 with placed := x.1.placed + 1 } x.2)

/-- R213: a REDUCE is at one of its units, the semaphores that its list still waits for have their values, its list is not poisoned. -/
def ReduceReady (cl k : Nat) (m : SCmd) (s : State) : Prop :=
  Heads cl 5 0x50 k m s ∧ (m.started = false → reduceCheck cl s m = none) ∧ m.mid = false ∧ m.unit * rUnit m.bytes < rdLen m.bytes ∧
    runPoison s cl (rList m.bytes).off (rList m.bytes).bytes = none ∧
    ∀ i, m.placed ≤ i → i < rCount m.bytes → bit (fieldOf (rEntry s cl m.bytes i) 8 2) 15 = true →
      fieldOf (rEntry s cl m.bytes i) 12 4 ≤ semaOf s (fieldOf (rEntry s cl m.bytes i) 8 2 % 2 ^ 14)

/-- R213: the results of a REDUCE's unit: its contributions `xs` and, with ACCUM, the bytes `d` of DST, folded element by element. -/
def folded (bs : List Byte) (n : Nat) (d : List Byte) (xs : List (List Byte)) : List Res :=
  let w := codeBytes (rOut bs)
  let cw := codeBytes (rCode bs)
  (List.range n).map (fun i => rdElem bs ((if rFlag bs 1 then [rIn bs (rOut bs) (fieldOf d (i * w) w)] else []) ++
    xs.map (fun x => rIn bs (rCode bs) (fieldOf x (i * cw) cw))))

/-- R214, R403: a SEND goes on; its match in the fret table, where it needs one, has been made. -/
def SendReady (cl k : Nat) (m : SCmd) (s : State) : Prop :=
  Heads cl 5 0x51 k m s ∧ (m.started = false → sendCheck cl s m = none) ∧ (mFret m = 0xFFFFFFFF ∨ m.placed ≠ 0)

/-! ## Coherence -/

/-- R271: no transaction, no waiting request and no pour holds a line at its home. -/
def LineFree (line : Nat) (s : State) : Prop :=
  (txnOf s line).cur = none ∧ (txnOf s line).waiting = [] ∧ (txnOf s line).locked = none

/-- R271: a request has started at its home and has sent its snoops; nothing else has changed. -/
def Snooping (line : Nat) (r : Req) (sn : List Snoop) (s t : State) : Prop :=
  txnOf t line = { txnOf s line with cur := some r, snoops := sn } ∧ t = { s with mm := { s.mm with txn := t.mm.txn } } ∧
    ∀ l, l ≠ line → txnOf t l = txnOf s l

/-- R273: the request that a row puts to its line's home. -/
def requestOf : Instr → Option Req
  | .rdShr can dpa => some { kind := .rdShr, who := can, dpa := dpa }
  | .rdOwn can dpa _ => some { kind := .rdOwn, who := can, dpa := dpa }
  | .upg can dpa => some { kind := .upg, who := can, dpa := dpa }
  | .rdCur agent dpa hint => some { kind := .rdCur, who := 64 + agent, dpa := dpa, hint := hint % 2 ^ 16 }
  | .wrFull agent dpa data hint => some { kind := .wrFull, who := 64 + agent, dpa := dpa / 128 * 128, data := data, hint := hint % 2 ^ 16 }
  | .wrPart agent dpa be data hint =>
    some { kind := .wrPart, who := 64 + agent, dpa := dpa / 128 * 128, be := be % 2 ^ 128, data := data, hint := hint % 2 ^ 16 }
  | .homeAtom agent dpa far aop size operand compare => some { kind := .atom, who := 64 + agent, dpa := dpa, hint := agent
                                                               args := [aop, size, b2n far, operand % 2 ^ (8 * size), compare % 2 ^ (8 * size)] }
  | _ => none

/-- R229, R266, R272, R281: what a row asks of the requester and of the address before its request goes out. -/
def MaySend (s : State) : Instr → Prop
  | .rdShr can dpa => agentUp s can = true ∧ homedLine s (reqLine dpa) = true ∧ lstateOf s can (reqLine dpa) = .I
  | .rdOwn can dpa _ => agentUp s can = true ∧ homedLine s (reqLine dpa) = true ∧ lstateOf s can (reqLine dpa) = .I
  | .upg can dpa => agentUp s can = true ∧ homedLine s (reqLine dpa) = true ∧ lstateOf s can (reqLine dpa) ≠ .M ∧
      lstateOf s can (reqLine dpa) ≠ .E
  | .rdCur agent dpa _ => uncachedBar s false agent dpa = .ok ()
  | .wrFull agent dpa data _ => data.length = 128 ∧ uncachedBar s true agent (dpa / 128 * 128) = .ok ()
  | .wrPart agent dpa _ data _ => data.length = 128 ∧ uncachedBar s true agent (dpa / 128 * 128) = .ok ()
  | .homeAtom agent dpa _ aop size _ _ => (size = 4 ∨ size = 8) ∧ dpa % size = 0 ∧ aop ≤ 10 ∧ (aop ≠ 1 ∨ size = 4) ∧
      uncachedBar s true agent dpa = .ok ()
  | _ => False

/-- R234: the state once a request has reached its home under its KEYSEL. -/
def keyed (dpa : Nat) (s : State) : State := if reqLine dpa < 2 ^ 57 then keyTurn dpa s else s

/-- R269, R271: a request of a row reaches a line's free home, which has, or can give it, a directory entry. -/
def Reached (i : Instr) (r : Req) (s : State) : Prop :=
  s.powered = true ∧ requestOf i = some r ∧ MaySend s i ∧ LineFree (reqLine r.dpa) s ∧
    (agentKind r.kind = true → dirFull s (reqLine r.dpa) = false)

/-- R286: and the home has the line itself. -/
def AtHome (i : Instr) (r : Req) (s : State) : Prop := Reached i r s ∧ needsHost (keyed r.dpa s) (reqLine r.dpa) r = false

/-- R244: a tundish finds a way for a line; other agents need none. -/
def FillOk (can line : Nat) (s : State) : Prop := can < 16 → lstateOf s can line = .I → (tunFill can line 1 none s).2 = true

/-- R267, R268: agent `can` holds the line in a state and the directory says so. -/
def Holds (can line : Nat) (x : LState) (d : DirEnt) (t : State) : Prop := lstateOf t can line = x ∧ dirOf t line = d

/-! ## Amtox -/

/-- R391: a well-formed packet reaches an ACTIVE port. -/
def Reaches (port : Nat) (p : Packet) (s : State) : Prop :=
  s.powered = true ∧ port < 24 ∧ getF s (pState port) = 2 ∧ packetOk p = true

/-- R393: the port once a packet has reached it: the credits that it carries come back, its own cells are owed. -/
def arrived (port : Nat) (p : Packet) (s : State) : State :=
  let x := portOf s port
  traceSend 6 port p (setPort s port { x with
    credits := tset 0 x.credits (p.cred % 4) (tget 0 x.credits (p.cred % 4) + p.cred / 4)
    owed := tset 0 x.owed p.vl (tget 0 x.owed p.vl + cellsOf p) })

/-- R394, R410: a response is on its way: it waits at the port, or in its replay buffer for an ACK. -/
def Responds (port : Nat) (p : Packet) (k : PacketKind) (code sub : Nat) (bs : List Byte) (t : State) : Prop :=
  ∃ x ∈ (portOf t port).bufs ++ (portOf t port).replay.map Prod.snd, x.kind = k ∧ x.dst = p.src ∧ x.tag = p.tag ∧ x.status = code ∧
    x.sub = sub ∧ x.payload = bs ∧ x.vl = if p.vl = 3 then 3 else 2

/-- R391, R410: the kind, the port and the packet of a packet's row. -/
def packetRowOf : Instr → Option (PacketKind × Nat × Packet)
  | .rdReq port p => some (.rdReq, port, p)
  | .rdRsp port p => some (.rdRsp, port, p)
  | .wr port p => some (.wr, port, p)
  | .wrAck port p => some (.wrAck, port, p)
  | .atomReq port p => some (.atomReq, port, p)
  | .atomRsp port p => some (.atomRsp, port, p)
  | .semSigPacket port p => some (.semSig, port, p)
  | .credit port p => some (.credit, port, p)
  | .fretFull port p => some (.fretFull, port, p)
  | .schedAbort port p => some (.schedAbort, port, p)
  | _ => none

/-- The row of a request packet. -/
def requestRow (port : Nat) (p : Packet) (i : Instr) : Prop :=
  (i = .rdReq port p ∧ p.kind = .rdReq) ∨ (i = .wr port p ∧ p.kind = .wr) ∨ (i = .atomReq port p ∧ p.kind = .atomReq) ∨
    (i = .semSigPacket port p ∧ p.kind = .semSig)

/-- The row of a response packet, with the kind of request that it answers. -/
def responseRow (port : Nat) (p : Packet) (k : PacketKind) (i : Instr) : Prop :=
  (i = .rdRsp port p ∧ p.kind = .rdRsp ∧ k = .rdReq) ∨ (i = .wrAck port p ∧ p.kind = .wrAck ∧ k = .wr) ∨
    (i = .atomRsp port p ∧ p.kind = .atomRsp ∧ k = .atomReq)

/-- R410: the oldest unanswered request that a response names. -/
def answered (p : Packet) (k : PacketKind) (s : State) : Option WinReq :=
  s.xl.wins.find? (fun r => decide (r.tag = p.tag) && decide (r.kind = k) && decide (r.pkt.dst = p.src) && r.back.isNone)

/-- R411: no best-effort request is outstanding through a port. -/
def PortQuiet (port : Nat) (s : State) : Prop :=
  ∀ r ∈ s.xl.wins, r.port = port → r.back.isNone = true → r.pkt.vl ≠ 1

/-! ## Host port -/

/-- R430: an inbound access of `n` bytes of HBM at a BAR4 offset, within one line that is not busy. -/
def HostReaches (off n : Nat) (s : State) : Prop :=
  bar4Open s off n = true ∧ off % 128 + n ≤ 128 ∧ lineBusy s (lineOf (locOf off)) none none none = false

/-- What the bytes of a line's piece read as once the enabled ones have been written. -/
def Merged (be : Nat) (data old bs : List Byte) : Prop :=
  bs.length = old.length ∧ ∀ i, i < old.length → nth 0 bs i = if be.testBit i = true then nth 0 data i else nth 0 old i

/-- R436: the security core has answered the request in the mailbox with these numbers, and the host port has otherwise changed only
in its SPDM state. -/
def Answers (r : List Nat) (x : Spdm) (s t : State) : Prop :=
  t.hpt = { s.hpt with doe := r, doeReady := true, doeReq := none, spdm := x } ∧ t.mm = s.mm ∧ t.regs = s.regs

/-- R437: the rows of SPDM's messages. -/
def spdmRow : Instr → Bool
  | .getVersion | .getCapabilities | .negotiateAlgorithms _ _ _ _ | .getDigests | .getCertificate _ _ _ | .challenge _ _ => true
  | .getMeasurements _ _ _ | .keyExchange _ | .finish _ _ | .heartbeat _ | .keyUpdate _ | .endSession _ => true
  | _ => false

/-- R437: whether the messages that must come before a row's have been answered. -/
def spdmNeeds (s : State) : Instr → Bool
  | .getVersion => true
  | .getCapabilities => s.hpt.spdm.version
  | .negotiateAlgorithms _ _ _ _ => s.hpt.spdm.caps
  | _ => s.hpt.spdm.algs

/-! ## Reset and start-up -/

/-- R503, R541, R589: the module is held in reset: every register at its reset value but for the sockets that hold a cartridge, memory
and queues empty, keys zeroised; its pins, its flash and what its host holds are not its own to lose. -/
def HeldReset (s t : State) : Prop :=
  t.powered = false ∧ t.sec.zeroed = true ∧ t.mm = { host := s.mm.host } ∧ t.sch = {} ∧ t.clusters = [] ∧ t.cores = [] ∧ t.xl = {} ∧
    t.spr = {} ∧ t.amx = {} ∧ t.hpt = {} ∧ t.shadow = [] ∧ t.boot.flash = s.boot.flash ∧ t.boot.present = s.boot.present ∧
    (∀ f : FRef, (∀ n, n < 16 → f.key ≠ (sockPresent n).key) → getF t f = f.rst) ∧
    ∀ n, n < 16 → isOn t (sockPresent n) = s.boot.present.testBit n

/-- R448, R540, R544, R550: a start begins where one may: phase RESET, new keys, a new nonce, TS from 0. -/
def MayStart (may : Bool) (s t : State) : Prop :=
  t.powered = (s.powered || may) ∧ (s.powered = false → may = true → t.boot.phase = 0 ∧ t.ts = 0 ∧ t.sec.zeroed = false ∧
    t.sec.nonce = s.sec.nonce + 1 ∧ t.boot.trip = false) ∧ t.mm = s.mm ∧ t.regs = s.regs

/-- R494: every cluster's rail lies within 950 mV. -/
def RailsOk (s : State) : Prop := ∀ n, n < 16 → getF s (clVolt n) ≤ 950

/-! ## Service -/

/-- R515: queue `q`'s started BIST or CARTRIDGE command `c` has this OP, and no other is in progress. -/
def Serves (opcode op q : Nat) (c : Cmd) (s : State) : Prop :=
  Runs opcode q c s ∧ pmcRuns s = true ∧ svcOp c = op ∧ ∀ x ∈ startedQueues s 8 ++ startedQueues s 9, x = q

/-- The command ends with `e` in a state that stands as `P` says. -/
def EndsIn (q : Nat) (e : Ending) (P : State → Prop) (t : State) : Prop := ∃ s, t = endCommand q e 0 s ∧ P s

/-- R517, R518: a service command's queue, opcode and OP, and the check of its fields. -/
def serviceOf : Instr → Option (Nat × Nat × Nat × (Cmd → Bool))
  | .test q _ => some (q, 8, 1, bistOk)
  | .recal q _ => some (q, 8, 2, bistOk)
  | .retire q => some (q, 8, 3, bistOk)
  | .reinstate q _ => some (q, 8, 4, bistOk)
  | .shutdown q _ => some (q, 8, 5, bistOk)
  | .cfgRead q => some (q, 8, 6, bistOk)
  | .cfgWrite q _ _ => some (q, 8, 7, bistOk)
  | .evacuate q => some (q, 9, 1, cartridgeOk)
  | .release q => some (q, 9, 2, cartridgeOk)
  | .admitCartridge q _ => some (q, 9, 3, cartridgeOk)
  | .resume q => some (q, 9, 4, cartridgeOk)
  | _ => none

/-- A cluster is in service and its control core runs, as on leaving COLD. -/
def InService (n : Nat) (s : State) : Prop :=
  fwRuns s (3 + n) = true ∧ powerOf s n = 1 ∧ ∀ g ∈ coresOf n, coreOf s g = {}

/-- R521: a cluster is retired: in COLD, its bit set in the live fault map. -/
def OutOfService (n : Nat) (s : State) : Prop :=
  n ∈ s.pmc.retired ∧ powerOf s n = 3 ∧ getF s (fwState (3 + n)) = 4 ∧ bit s.boot.map.clusters n = true

end Sys2Proof.Machine
end

