-- ==== Sys2Proof/Certificates/Slice0/Obligations.lean ====
section
/-!
DEFINITION. The statements for the provers.
-/
open Sys2Proof Sys2Proof.Machine

/-- R67, R78, R101, R102, R105: a legal INT instruction of a course that can issue writes its result, computed on words of
32 bits (IADD64: 64), to D in the lanes that run, and changes nothing else. -/
def Obligations.IntegerInstructionsCompute : Prop :=
  ∀ (i : Instr) (o : RegOp) (s : State), integerOp i = some o → InCache i s → Issues o.sg o.g o.slot o.b s →
    ∃ t, exec i s = .next t ∧ Performed o s t

/-- R105, R106, R109: a legal FP instruction writes its result, rounded once as the status word directs, and raises the
flags of the lanes that ran. -/
def Obligations.FloatInstructionsCompute : Prop :=
  ∀ (i : Instr) (o : RegOp) (s : State), floatOp i = some o → o.ok = true → InCache i s → Issues o.sg o.g o.slot o.b s →
    ∃ t, exec i s = .next t ∧ Performed o s t

/-- R102, R105, R106: a legal FP64 instruction writes its result to the pair D. -/
def Obligations.DoubleInstructionsCompute : Prop :=
  ∀ (i : Instr) (o : RegOp) (s : State), doubleOp i = some o → InCache i s → Issues o.sg o.g o.slot o.b s →
    ∃ t, exec i s = .next t ∧ Performed o s t

/-- R178, R597: a legal CVT instruction writes its conversion, and raises its flags. -/
def Obligations.ConversionsCompute : Prop :=
  ∀ (i : Instr) (o : RegOp) (s : State), convertOp i = some o → o.ok = true → InCache i s → Issues o.sg o.g o.slot o.b s →
    ∃ t, exec i s = .next t ∧ Performed o s t

/-- R105, R107: MOV, MOV.SR, SEL, SHFL and VOTE write what they copy. -/
def Obligations.MovesCompute : Prop :=
  ∀ (i : Instr) (o : RegOp) (s : State), moveOp s i = some o → o.ok = true → InCache i s → Issues o.sg o.g o.slot o.b s →
    ∃ t, exec i s = .next t ∧ Performed o s t

/-- R99, R107, R108: MOVI loads its immediate in the lanes that run; MOV.SW puts a uniform register into the status word, whose
reserved bits stay 0. -/
def Obligations.ImmediateAndStatusWordMoves : Prop :=
  (∀ (g k : Nat) (b : InstrBits) (s : State), Ready g k s → InCache (.movi g k b) s → guardOk b = true →
    b.op5 = false → b.au = false → b.bu = false → b.cu = false → Form.ok .reg b.du (fldD b) = true →
    bits b.low.toNat 36 32 = 0 → (b.du && b.gen) = false →
    Form.top .reg b.du (fldD b) ≤ (consortOf s g (courseOf s g k).consort).ra →
    ∃ t, exec (.movi g k b) s = .next t ∧
      Performed ⟨g, k, b, sigUn, 1, fun _ _ => b.low.toNat % 2 ^ 32, noFlags, true⟩ s t) ∧
  (∀ (g k : Nat) (b : InstrBits) (s : State), InCache (.movSw g k b) s →
    Issues ⟨.unused, .number, .ureg, .unused, 0, none⟩ g k b s → fldA b = 2 →
    b.gen = false → harpPending s g k = false →
    ∃ t, exec (.movSw g k b) s = .next t ∧ OnlyCourse g k s t ∧ AtNext (courseOf s g k) (courseOf t g k) ∧
      (courseOf t g k).asw = ureg (courseOf s g k) (fldB b) &&& 0x7F07#32 ∧
      OnlyRegisters (courseOf s g k) (courseOf t g k) ∧
      (courseOf t g k).v = (courseOf s g k).v ∧ (courseOf t g k).u = (courseOf s g k).u ∧ (courseOf t g k).p = (courseOf s g k).p)

/-- R103, R105, R106: ICMP, FCMP and PLOP write each lane's bit to p[D]. -/
def Obligations.PredicatesCompute : Prop :=
  ∀ (i : Instr) (o : PredOp) (s : State), predicateOp i = some o → o.ok = true → InCache i s → Issues o.sg o.g o.slot o.b s →
    ∃ t, exec i s = .next t ∧ OnlyCourse o.g o.slot s t ∧ OnlyRegisters (courseOf s o.g o.slot) (courseOf t o.g o.slot) ∧
      AtNext (courseOf s o.g o.slot) (courseOf t o.g o.slot) ∧ SetsPredicate o (courseOf s o.g o.slot) (courseOf t o.g o.slot)

/-- R106: a NaN result is always the canonical quiet NaN of its format: 0x7FC0_0000 for FP32; FMIN and FMAX of two NaNs give it, and
with one NaN operand they give the other. -/
def Obligations.NanResultsAreCanonical : Prop :=
  (∀ (r : Rnd) (keep na nb nc : Bool) (x y z : Nat),
    (∀ v, v = (fAdd fp32 r keep na nb x y).code ∨ v = (fMul fp32 r keep na nb x y).code ∨
        v = (fFma fp32 r keep na nb nc x y z).code ∨ v = (fMinMax fp32 keep false na nb x y).code ∨
        v = (fMinMax fp32 keep true na nb x y).code ∨ v = (fRcp fp32 r keep na x).code ∨ v = (fSqrt fp32 r keep na x).code →
      isNanF (decodeF fp32 v) = true → v = 0x7FC00000)) ∧
  (∀ (isMax : Bool) (x y : Nat), x < 2 ^ 32 → y < 2 ^ 32 →
    (isNanF (decodeF fp32 x) = true → isNanF (decodeF fp32 y) = true → (fMinMax fp32 true isMax false false x y).code = 0x7FC00000) ∧
    (isNanF (decodeF fp32 x) = true → isNanF (decodeF fp32 y) = false → (fMinMax fp32 true isMax false false x y).code = y) ∧
    (isNanF (decodeF fp32 x) = false → isNanF (decodeF fp32 y) = true → (fMinMax fp32 true isMax false false x y).code = x))

/-- R80, R81, R99, R105: BRA and BRX take the lanes whose guard is 1 to their target and the others to the next instruction.  The
lanes' paths run in rising order of address; one path is no divergence; several push an entry, and a full stack ends the casting
with DIVERGENCE_DEPTH. -/
def Obligations.BranchesFollowTheirPaths : Prop :=
  (∀ (g k : Nat) (b : InstrBits) (s : State), Ready g k s → InCache (.bra g k b) s → guardOk b = true → b.op5 = false →
    b.du = false → b.au = false → b.bu = false → b.cu = false →
    Next (.bra g k b) s (fun t => ∃ ps,
      Paths (courseOf s g k) (fun l => if (lanesOf (courseOf s g k) b).getLsbD l then pcAdd (courseOf s g k).pc (fldTarget b)
        else pcAdd (courseOf s g k).pc 1) ps ∧
      t = branchTo g k (pcAdd (courseOf s g k).pc (fldReconv b)) ps (courseOf s g k) s)) ∧
  (∀ (g k : Nat) (b : InstrBits) (s : State), Ready g k s → InCache (.brx g k b) s → guardOk b = true → b.op5 = false →
    b.du = false → b.bu = false → b.cu = false → Form.ok .pair b.au (fldA b) = true → fldD b = 0 → fldB b = 0 →
    Form.top .pair b.au (fldA b) ≤ (consortOf s g (courseOf s g k).consort).ra →
    Next (.brx g k b) s (fun t => ∃ ps,
      Paths (courseOf s g k) (fun l => if (lanesOf (courseOf s g k) b).getLsbD l then opd64 (courseOf s g k) b.au (fldA b) l
        else pcAdd (courseOf s g k).pc 1) ps ∧
      t = branchTo g k (pcAdd (courseOf s g k).pc (fldReconv b)) ps (courseOf s g k) s)) ∧
  (∀ (g k r a : Nat) (m : Word) (s : State),
    courseOf (branchTo g k r [(a, m)] (courseOf s g k) s) g k = settle settleFuel { courseOf s g k with pc := a }) ∧
  (∀ (g k r a : Nat) (m : Word) (p : Nat × Word) (ps : List (Nat × Word)) (s : State), (courseOf s g k).stack.length < 32 →
    courseOf (branchTo g k r ((a, m) :: p :: ps) (courseOf s g k) s) g k = settle settleFuel
      { courseOf s g k with pc := a, active := m, stack := ⟨r, (courseOf s g k).active, p :: ps⟩ :: (courseOf s g k).stack }) ∧
  (∀ (g k r a : Nat) (m : Word) (p : Nat × Word) (ps : List (Nat × Word)) (s : State), 32 ≤ (courseOf s g k).stack.length →
    courseReady s g k = true →
    CastingEnds (protEnd 0x16 g 0) s (branchTo g k r ((a, m) :: p :: ps) (courseOf s g k) s) g k)

/-- R70, R80: EXIT removes the lanes whose guard is 1; when no lane of any path is left the course exits, unless transfers of its
consort memory still run (R362). -/
def Obligations.ExitRemovesLanes : Prop :=
  ∀ (g k : Nat) (b : InstrBits) (s : State), Ready g k s → InCache (.exit g k b) s → guardOk b = true → b.op5 = false →
    b.du = false → b.au = false → b.bu = false → b.cu = false → b.low = 0 →
    ¬(liveLanes (courseOf s g k) &&& ~~~(lanesOf (courseOf s g k) b) = 0 ∧ harpPending s g k = true) →
    let c := courseOf s g k
    let gone := lanesOf c b
    let rest := c.active &&& ~~~gone
    let c1 := settle settleFuel { c with exited := c.exited ||| gone, active := rest, pc := if rest = 0 then c.pc else pcAdd c.pc 1 }
    Next (.exit g k b) s (fun t =>
      (c1.active ≠ 0 ∨ c.copies ≠ 0 → OnlyCourse g k s t ∧ courseOf t g k = c1) ∧
      (c1.active = 0 → c.copies = 0 → (courseOf t g k).live = false))

/-- R83, R84: BAR with every lane that has not exited active arrives at the consort's barrier; with the last course every course
goes on.  With lanes missing the casting ends with DIVERGENT_BARRIER. -/
def Obligations.BarrierWaitsForTheConsort : Prop :=
  ∀ (g k : Nat) (b : InstrBits) (s : State), Ready g k s → InCache (.bar g k b) s → guardOk b = true → b.gen = false →
    b.op5 = false → b.du = false → b.au = false → b.bu = false → b.cu = false → b.low = 0 → (courseOf s g k).pour = .closed →
    Next (.bar g k b) s (fun t =>
      let c := courseOf s g k
      (c.active ≠ liveLanes c → CastingEnds (protEnd 0x15 g 0) s t g k) ∧
      (c.active = liveLanes c → harpPending s g k = false → k ∈ (consortOf s g c.consort).courses →
        (courseOf t g k).pc = (advance c).pc ∧ SameRegisters c (courseOf t g k) ∧ SameOutside g s t ∧
        (if ∀ i ∈ (consortOf s g c.consort).courses, (courseOf s g i).live = true → i ≠ k → (courseOf s g i).arrived = true
         then ∀ i ∈ (consortOf s g c.consort).courses, (courseOf s g i).live = true → (courseOf t g i).arrived = false
         else (courseOf t g k).arrived = true ∧ ∀ i, i ≠ k → courseOf t g i = courseOf s g i)))

/-- R74, R86, R110: LD and ST with SPACE CMEM: each lane's bytes of consort memory are loaded, extended as SEXT says, or stored,
in ascending lane order; no byte outside those stored changes. -/
def Obligations.ConsortMemoryLoadsAndStores : Prop :=
  (∀ (g k : Nat) (b : InstrBits) (s : State), InCache (.ld g k b) s → MemIssues (dataForm (mBytes b)) true g k b s →
    mSpace b = 1 →
    harpPending s g k = false → accessBar s g k (mBytes b) true (laneAddrs (courseOf s g k) b true (fldOff b)) = none →
    Next (.ld g k b) s (fun t =>
      Computes ⟨g, k, b, sigUn, max 1 (mBytes b / 4),
        fun c l => loadedWord b (cmemRead s g k (laneAddr c b (fldOff b) l) (mBytes b)), noFlags, true⟩
        (courseOf s g k) (courseOf t g k) ∧
      (courseOf t g k).asw = (courseOf s g k).asw ∧ AtNext (courseOf s g k) (courseOf t g k) ∧ SameOutside g s t ∧
      SameCourses g k s t ∧ (coreOf t g).cmem = (coreOf s g).cmem)) ∧
  (∀ (g k : Nat) (b : InstrBits) (s : State), InCache (.st g k b) s → MemIssues (dataForm (mBytes b)) false g k b s →
    mSpace b = 1 →
    harpPending s g k = false → accessBar s g k (mBytes b) true (laneAddrs (courseOf s g k) b false (fldOff b)) = none →
    Next (.st g k b) s (fun t =>
      let c := courseOf s g k
      let ls := laneAddrs c b false (fldOff b)
      (coreOf t g).cmem = ls.foldl (fun m x => wrList m (cmemBase s g k + x.2) (laneData c b.du (fldD b) (mBytes b) x.1)) (coreOf s g).cmem ∧
      (∀ a, (∀ x ∈ ls, a < cmemBase s g k + x.2 ∨ cmemBase s g k + x.2 + mBytes b ≤ a) →
        tget 0 (coreOf t g).cmem a = tget 0 (coreOf s g).cmem a) ∧
      SameRegisters c (courseOf t g k) ∧ AtNext c (courseOf t g k) ∧ SameOutside g s t ∧ SameCourses g k s t))

/-- R78, R100, R104, R110 to R114: LD, LD.V and ST with SPACE GLOBAL, when every lane's address translates and every lane's access can be
made: the registers receive what each lane's target answers; each lane's store is made at its target in ascending lane order.  A PREF with
SPACE CMEM or a misaligned address brings nothing in and goes on; another goes on when every line has been brought in or dropped, and
stays while one has not.  A core instruction that its instruction cache lacks reads its line into the cache, and a reserved word there ends
the casting with ILLEGAL_INSTRUCTION. -/
def Obligations.GlobalLoadsAndStores : Prop :=
  (∀ (vol : Bool) (g k : Nat) (b : InstrBits) (s s1 s2 s3 : State) (ts : List (Nat × Nat × Target)) (x1 : List (Nat × Unit))
      (vs : List (Nat × List Byte)),
    InCache (if vol then .ldV g k b else .ld g k b) s → MemIssues (dataForm (mBytes b)) true g k b s → mSpace b = 0 →
    accessBar s g k (mBytes b) false (laneAddrs (courseOf s g k) b true (fldOff b)) = none →
    (courseOf s1 g k).pour = .closed →
    laneTargets (courseAccess (endRsv g k s) g k) false (laneAddrs (courseOf s g k) b true (fldOff b)) (endRsv g k s) = (s1, .ok ts) →
    (∀ x ∈ ts, isClaim vol (mBytes b) (ctrlOf g x.2.2) = false) →
    eachLane (fun x s' => loadCheck g k (mHint b) vol (courseAccess (endRsv g k s) g k) x.2.2 x.2.1 (mBytes b) s') ts s1 = (s2, .ok x1) →
    eachLane (fun x s' => loadTarget g k (mHint b) vol (courseAccess (endRsv g k s) g k) x.2.2 x.2.1 (mBytes b) s') ts s2 = (s3, .ok vs) →
    (courseOf s3 g k).live = true →
    Next (if vol then .ldV g k b else .ld g k b) s (fun t =>
      courseOf t g k = advance (writeD (courseOf s3 g k) b (max 1 (mBytes b / 4)) (fun l => ⟨loadedWord b (laneVal [] vs l), 0⟩)) ∧
      t.mm = s3.mm)) ∧
  (∀ (g k : Nat) (b : InstrBits) (s s1 s2 : State) (ts : List (Nat × Nat × Target)) (x1 : List (Nat × Unit)),
    InCache (.st g k b) s → MemIssues (dataForm (mBytes b)) false g k b s → mSpace b = 0 →
    accessBar s g k (mBytes b) false (laneAddrs (courseOf s g k) b false (fldOff b)) = none →
    (courseOf s1 g k).pour = .closed →
    let a := courseAccess (endRsv g k s) g k
    laneTargets a true (laneAddrs (courseOf s g k) b false (fldOff b)) (endRsv g k s) = (s1, .ok ts) →
    eachLane (fun x s' => storeCheck g k a x.2.2 x.2.1 s') ts s1 = (s2, .ok x1) →
    let s3 := asCourse g k (fun s' => ts.foldl (fun s' x =>
      storeTarget g k (mHint b) a x.2.2 x.2.1 (laneData (courseOf s1 g k) b.du (fldD b) (mBytes b) x.1) s') s') s2
    (courseOf s3 g k).live = true →
    Next (.st g k b) s (fun t => courseOf t g k = advance (courseOf s3 g k) ∧ t.mm = s3.mm)) ∧
  (∀ (g k : Nat) (b : InstrBits) (s : State), InCache (.pref g k b) s → MemIssues .unused false g k b s →
    let a := laneAddrs (courseOf s g k) b false (fldOff b)
    (mSpace b = 1 ∨ (∃ va, misaligned (mBytes b) a = some va) → Next (.pref g k b) s (fun t =>
      GoesOn g k { unreserved (courseOf s g k) with denied := [] } s t)) ∧
    (mSpace b = 0 → misaligned (mBytes b) a = none →
      let r := a.foldl (fun (r : State × Bool) x =>
        ((prefLine g k (mHint b) x.2 r.1).1, r.2 && (prefLine g k (mHint b) x.2 r.1).2)) (endRsv g k s, true)
      (r.2 = false → exec (.pref g k b) s = .next r.1) ∧
      (r.2 = true → (courseOf r.1 g k).live = true → Next (.pref g k b) s (fun t =>
        courseOf t g k = advance { courseOf r.1 g k with denied := [] } ∧ t.mm = r.1.mm)))) ∧
  (∀ (g k w : Nat) (i : Instr) (s : State), codeOf i = some (g, k, w) → Ready g k s → fetched s g k w = false →
    ((fetchedWords s g k).any wordReserved = true → Next i s (CastingEnds (protEnd 0x17 g (courseOf s g k).pc) s · g k)) ∧
    ((fetchedWords s g k).any wordReserved = false → ∀ s1 bs,
      let line := (courseOf s g k).pc / 8 * 8 / 128 * 128
      readAtVa (courseAccess s g k) line 128 none s = (s1, .ok bs) → Next i s (fun t => t.mm = s1.mm ∧
        courseOf t g k = courseOf s1 g k ∧ ∀ n, n < 16 → fieldOf bs (8 * n) 8 ∈ tget [] (coreOf t g).icache (line + 8 * n))))

/-- R115, R116: ATOM.  The value an atomic leaves; consort memory's lanes in ascending order, each finding what the one before
left (with no drain of another course running, R151); GLOBAL lanes through their targets; a lane whose target is HBM receives what it
found and leaves its new value there. -/
def Obligations.AtomicsOperate : Prop :=
  (∀ (w aop : Nat) (old x cmp : BitVec w), aop ≠ 1 → aop ≤ 10 →
    BitVec.ofNat w (atomVal aop w old.toNat x.toNat cmp.toNat) = atomWord aop old x cmp) ∧
  (∀ (g k : Nat) (b : InstrBits) (s : State), Ready g k s → InCache (.atom g k b) s → atomOk b = true → (courseOf s g k).pour = .closed →
    atomTop b ≤ (consortOf s g (courseOf s g k).consort).ra → mSpace b = 1 → harpPending s g k = false → otherDrain s g k = none →
    accessBar s g k (mBytes b) true (laneAddrs (courseOf s g k) b (!aNoret b) 0) = none →
    Next (.atom g k b) s (fun t =>
      let c := courseOf s g k
      let o := atomOf c b
      let r := atomRun o.aop o.n o.x o.cmp (cmemBase s g k) (laneAddrs c b (!aNoret b) 0) (coreOf s g).cmem
      (coreOf t g).cmem = r.1 ∧ SameOutside g s t ∧ SameCourses g k s t ∧
      courseOf t g k = advance (if aNoret b then unreserved c
        else writeD (unreserved c) b (o.n / 4) (fun l => ⟨leNat (laneVal [] r.2 l), 0⟩)))) ∧
  (∀ (g k : Nat) (b : InstrBits) (s s1 s2 s3 : State) (ts : List (Nat × Nat × Target)) (bs vs : List (Nat × List Byte)),
    Ready g k s → InCache (.atom g k b) s → atomOk b = true → (courseOf s g k).pour = .closed →
    atomTop b ≤ (consortOf s g (courseOf s g k).consort).ra → mSpace b = 0 →
    accessBar s g k (mBytes b) false (laneAddrs (courseOf s g k) b (!aNoret b) 0) = none →
    let a := courseAccess (endRsv g k s) g k
    let o := atomOf (courseOf s g k) b
    laneTargets a true (laneAddrs (courseOf s g k) b (!aNoret b) 0) (endRsv g k s) = (s1, .ok ts) →
    (∀ x ∈ ts, ∀ e, atomBar s1 g o.aop x.2.2 x.2.1 ≠ .fail e) →
    eachLane (fun x s' => atomAsk g k o a x.1 x.2.1 x.2.2 s') ts s1 = (s2, .ok bs) →
    eachLane (fun x s' => atomDo g k o x.1 x.2.2 (laneVal [] bs x.1) s') ts s2 = (s3, .ok vs) →
    Next (.atom g k b) s (fun t =>
      courseOf t g k = advance (if aNoret b then courseOf s3 g k
        else writeD (courseOf s3 g k) b (o.n / 4) (fun l => ⟨leNat (laneVal [] vs l), 0⟩)) ∧ t.mm = s3.mm)) ∧
  (∀ (g k l dpa i : Nat) (o : AtomOp) (back old : List Byte) (s : State), devRead s g dpa o.n = .ok old → placeOf (locOf dpa) = .hbm i →
    lineTag s (lineOf (locOf dpa)) = keyTag s (keyselOf dpa) →
    ∃ t, atomDo g k o l (.dev dpa) back s = (t, .ok old) ∧
      t.mm.mem = wrList s.mm.mem (locOf dpa) (leBytes o.n (atomVal o.aop (8 * o.n) (leNat old) (o.x l) (o.cmp l))))

/-- R117: LD.RSV reserves each lane's line that the cluster holds; ST.CND stores in the lanes that hold their reservation and are the
lowest active lane that names their line, tells p[D] which did, and leaves no reservation. -/
def Obligations.ReservationsGuardStores : Prop :=
  (∀ (g k : Nat) (b : InstrBits) (s s1 s2 : State) (ts : List (Nat × Nat × Target)) (vs : List (Nat × List Byte)),
    Ready g k s → InCache (.ldRsv g k b) s → rsvOk b = true → (courseOf s g k).pour = .closed →
    max ((wordForm (mBytes b)).top b.du (fldD b)) (Form.top .pair b.au (fldA b)) ≤ (consortOf s g (courseOf s g k).consort).ra →
    accessBar s g k (mBytes b) false (laneAddrs (courseOf s g k) b true 0) = none →
    laneTargets (courseAccess (endRsv g k s) g k) false (laneAddrs (courseOf s g k) b true 0) (endRsv g k s) = (s1, .ok ts) →
    rsvBar s1 g ts = none →
    eachLane (fun x s' => rsvLoad g k (mBytes b) (courseAccess (endRsv g k s) g k) x.2.2 x.2.1 s') ts s1 = (s2, .ok vs) →
    Next (.ldRsv g k b) s (fun t => ∃ R, t.mm = s2.mm ∧
      courseOf t g k = advance (writeD { courseOf s2 g k with rsv := R } b (mBytes b / 4) (fun l => ⟨leNat (laneVal [] vs l), 0⟩)) ∧
      ∀ l, l < 32 → (lanesOf (courseOf s g k) b).getLsbD l = true → ∀ x ∈ ts, x.1 = (if b.du then 0 else l) →
        (∀ y ∈ ts, y.1 = x.1 → y = x) → tget 0 R l = if canWatch s2 g x.2.2 then cohLine x.2.2 + 1 else 0)) ∧
  (∀ (g k : Nat) (b : InstrBits) (s s1 s2 : State) (ts : List (Nat × Nat × Target)) (us : List (Nat × Unit)),
    Ready g k s → InCache (.stCnd g k b) s → cndOk b = true → (courseOf s g k).pour = .closed →
    max (Form.top .pair b.au (fldA b)) ((wordForm (mBytes b)).top b.bu (fldB b)) ≤ (consortOf s g (courseOf s g k).consort).ra →
    accessBar s g k (mBytes b) false (laneAddrs (courseOf s g k) b false 0) = none →
    let a := courseAccess s g k
    laneTargets a true (laneAddrs (courseOf s g k) b false 0) s = (s1, .ok ts) → rsvBar s1 g ts = none →
    eachLane (fun x s' => storeCheck g k a x.2.2 x.2.1 s') ts s1 = (s2, .ok us) →
    Next (.stCnd g k b) s (fun t =>
      let c := courseOf s2 g k
      let wins := cndWinners c ts
      let s3 := asCourse g k (fun s' => wins.foldl (fun s' x =>
        storeTarget g k 0 a x.2.2 x.2.1 (leBytes (mBytes b) (opdN c b.bu (fldB b) (mBytes b) x.1)) s') s') s2
      t.mm.mem = s3.mm.mem ∧ t.mm.host = s3.mm.host ∧ (courseOf t g k).rsv = [] ∧ (courseOf t g k).lost = [] ∧
      ∀ l, l < 32 → (preg (courseOf t g k) (fldD b)).getLsbD l =
        if (lanesOf c b).getLsbD l then wins.any (fun x => decide (x.1 = l)) else (preg (courseOf s3 g k) (fldD b)).getLsbD l)) ∧
  (∀ (c : Course) (ts : List (Nat × Nat × Target)), ts.Pairwise (fun x y => x.1 < y.1) →
    (∀ x, x ∈ cndWinners c ts ↔ x ∈ ts ∧ tget 0 c.rsv x.1 = cohLine x.2.2 + 1 ∧ ∀ y ∈ ts, y.1 < x.1 → cohLine y.2.2 ≠ cohLine x.2.2) ∧
    (cndWinners c ts).Pairwise (fun x y => cohLine x.2.2 ≠ cohLine y.2.2))

/-- R118, R231: SEM.SIG adds uniform B to the semaphore of uniform A modulo 2^32, once none of its course's drains and clears runs (R150);
SEM.RD reads it into uniform D; an index above 16,383 ends the casting with OPERAND_RANGE and changes no semaphore.  With no lane that
meets its guard SEM.SIG only goes on. -/
def Obligations.SemaphoreInstructionsAddAndRead : Prop :=
  (∀ (g k : Nat) (b : InstrBits) (s : State), Ready g k s → InCache (.semSig g k b) s → guardOk b = true → b.op5 = false →
    Form.ok .unused b.du (fldD b) = true →
    Form.ok .ureg b.au (fldA b) = true → Form.ok .ureg b.bu (fldB b) = true → Form.ok .unused b.cu (fldC b) = true → fldMod b = 0 →
    (courseOf s g k).pour = .closed → harpPending s g k = false →
    let i := (ureg (courseOf s g k) (fldA b)).toNat
    Next (.semSig g k b) s (fun t =>
      (lanesOf (courseOf s g k) b = 0 → GoesOn g k (unreserved (courseOf s g k)) s t) ∧
      (lanesOf (courseOf s g k) b ≠ 0 → i ≤ 16383 → semaOf t i = (semaOf s i + (ureg (courseOf s g k) (fldB b)).toNat) % 2 ^ 32 ∧
        (∀ j, j ≠ i → semaOf t j = semaOf s j) ∧ courseOf t g k = advance (unreserved (courseOf s g k)) ∧ SameCourses g k s t ∧
        t.mm.mem = s.mm.mem) ∧
      (lanesOf (courseOf s g k) b ≠ 0 → 16383 < i → CastingEnds (protEnd 0x1C g 0) s t g k ∧ t.mm.sema = s.mm.sema))) ∧
  (∀ (g k : Nat) (b : InstrBits) (s : State), Ready g k s → InCache (.semRd g k b) s → guardOk b = true → b.gen = false → b.op5 = false →
    Form.ok .ureg b.du (fldD b) = true → Form.ok .ureg b.au (fldA b) = true → Form.ok .unused b.bu (fldB b) = true →
    Form.ok .unused b.cu (fldC b) = true → fldMod b = 0 → (courseOf s g k).pour = .closed →
    let i := (ureg (courseOf s g k) (fldA b)).toNat
    Next (.semRd g k b) s (fun t =>
      (i ≤ 16383 → GoesOn g k (setU (unreserved (courseOf s g k)) (fldD b) (BitVec.ofNat 32 (semaOf s i))) s t) ∧
      (16383 < i → CastingEnds (protEnd 0x1C g 0) s t g k ∧ t.mm.sema = s.mm.sema)))

/-- R119, R150, R241, R293, R440: once none of its course's drains and clears runs, FENCE.ORD, and outside a pour FENCE.REL, goes on
(accesses are made in program order here, DESIGN CHOICE of log entry 30); FENCE.ACQ empties the core's L1; FENCE.DONE goes on when no
write of the course is out: it stays while a window write is not acknowledged, sends a zero-length read behind the posted host writes and
stays, and goes on when that read has come back, or with Bus Master Enable 0.  With no lane that meets its guard FENCE.ACQ and FENCE.DONE
only go on (the model's choice, log entry 30). -/
def Obligations.FencesOrderAndDrain : Prop :=
  ∀ (g k : Nat) (b : InstrBits) (s : State), FenceIssues g k b s →
    let c := courseOf s g k
    let out := s.xl.dirty.contains (.course g k)
    let wr := winsOut s (courseIn g [k])
    let probe := s.xl.reads.find? (fun r => decide (r.who = .course g k) && decide (r.len = 0))
    (InCache (.fenceOrd g k b) s → Next (.fenceOrd g k b) s (GoesOn g k (unreserved c) s)) ∧
    (InCache (.fenceRel g k b) s → c.pour = .closed → Next (.fenceRel g k b) s (GoesOn g k (unreserved c) s)) ∧
    (InCache (.fenceAcq g k b) s → Next (.fenceAcq g k b) s (fun t =>
      (lanesOf c b = 0 → GoesOn g k (unreserved c) s t) ∧
      (lanesOf c b ≠ 0 → (coreOf t g).l1 = [] ∧ courseOf t g k = advance (unreserved c) ∧ SameOutside g s t ∧
        (coreOf t g).cmem = (coreOf s g).cmem ∧ ∀ k', k' ≠ k → courseOf t g k' = courseOf s g k'))) ∧
    (InCache (.fenceDone g k b) s → c.pour = .closed → Next (.fenceDone g k b) s (fun t =>
      (lanesOf c b = 0 ∨ (out = false ∧ wr = false) → GoesOn g k (unreserved c) s t) ∧
      (lanesOf c b ≠ 0 → out = false → wr = true → courseOf t g k = unreserved c ∧ t.xl = s.xl) ∧
      (lanesOf c b ≠ 0 → out = true → s.hpt.bme = false → wr = false → GoesOn g k (unreserved c) s t) ∧
      (lanesOf c b ≠ 0 → out = true → s.hpt.bme = true → probe = none → courseOf t g k = unreserved c ∧
        t.xl.reads = s.xl.reads ++ [⟨s.xl.nextTag, .course g k, 0, 0, 0, false, false, [], []⟩]) ∧
      (∀ r, lanesOf c b ≠ 0 → out = true → s.hpt.bme = true → probe = some r → r.back = false →
        courseOf t g k = unreserved c ∧ t.xl = s.xl) ∧
      (∀ r, lanesOf c b ≠ 0 → out = true → s.hpt.bme = true → probe = some r → r.back = true → r.args = [] → wr = false →
        GoesOn g k (unreserved c) s t ∧ t.xl.dirty = s.xl.dirty.filter (fun x => decide (x ≠ .course g k)))))

/-- R120 to R122, R314, R321 to R323: POUR.BEGIN takes the core's ladle, or goes at once to its abort target with ALLOC_BUSY where
another course holds it; with SERIAL after 8 aborts it waits for the token.  POUR.END begins the lock phase; a pour that has staged nothing,
and a serial one whose lines carry no poison, has its locks and publishes; while another agent holds the token POUR.END waits.  POUR.ABORT
ends the pour with EXPLICIT. -/
def Obligations.PourInstructionsOpenAndClose : Prop :=
  (∀ (g k : Nat) (b : InstrBits) (s : State), Ready g k s → InCache (.pourBegin g k b) s → beginOk (courseOf s g k) b = true →
    let c := unreserved (courseOf s g k)
    let target := pcAdd c.pc (fldTarget b)
    let count := if c.beginPc = c.pc then c.abortCount else 0
    Next (.pourBegin g k b) s (fun t => SameOutside g { s with tokens := t.tokens, regs := t.regs } t ∧
      ((coreOf s g).ladle.holder ≠ none → (courseOf t g k).pourCode = 0x61 ∧ (courseOf t g k).pourSub = 0 ∧
        (courseOf t g k).pour = .closed ∧ (c.stack = [] → (courseOf t g k).pc = target) ∧ (coreOf t g).ladle = (coreOf s g).ladle) ∧
      ((coreOf s g).ladle.holder = none → (b.low.toNat.testBit 20 = false ∨ count < 8) →
        courseOf t g k = openPour target false c ∧ (coreOf t g).ladle = { holder := some k }) ∧
      ((coreOf s g).ladle.holder = none → b.low.toNat.testBit 20 = true → 8 ≤ count →
        (courseOf t g k).pour = .waitToken ∧ (courseOf t g k).pc = c.pc ∧ (∃ x ∈ t.tokens, x.1 = g) ∧
        (coreOf t g).ladle = { holder := some k }))) ∧
  (∀ (g k : Nat) (b : InstrBits) (s : State), Ready g k s → InCache (.pourEnd g k b) s → endOk (courseOf s g k) b = true →
    let c := unreserved (courseOf s g k)
    let l := (coreOf s g).ladle
    Next (.pourEnd g k b) s (fun t =>
      (tokenBars s g = true → courseOf t g k = c ∧ (coreOf t g).ladle = l ∧ SameOutside g s t) ∧
      (tokenBars s g = false → c.pourSerial = false → SameOutside g s t ∧ (coreOf t g).ladle = l ∧
        courseOf t g k = { c with pour := if l.lines = [] then .publishing else .locking }) ∧
      (tokenBars s g = false → c.pourSerial = true → (∀ x ∈ l.lines, grantPoison s g x = false) → SameOutside g s t ∧
        courseOf t g k = { c with pour := .publishing } ∧ (coreOf t g).ladle.lines = l.lines.map (fun x => { x with locked := true })))) ∧
  (∀ (g k : Nat) (b : InstrBits) (s : State), Ready g k s → InCache (.pourAbort g k b) s → endOk (courseOf s g k) b = true →
    Next (.pourAbort g k b) s (PourAborted g k 4 s))

/-- R314 to R318: a core's commit locks its lines one by one in the lock order, publishes only when all are locked, changes no memory before
its last line, then publishes all of them in one step, and its end releases every lock; one whose commit point has not come LOCK_TO after
its first grant aborts with CONFLICT. -/
def Obligations.PoursCommitWhole : Prop :=
  (∀ (g k : Nat) (x : LadleLine) (s : State), s.powered = true → g < 192 → PourIs .locking g k s → (coreOf s g).ladle.requested = none →
    nextLock (coreOf s g).ladle = some x → lineBusy s (realLine (clOf g) x.line) (some g) none none = false →
    realLine (clOf g) x.line < 2 ^ 57 ∨ dirLive s (realLine (clOf g) x.line) = true →
    Next (.lockRequest g) s (fun t => (txnOf t (realLine (clOf g) x.line)).locked = some g ∧
      (coreOf t g).ladle.requested = some x.line ∧ (coreOf t g).ladle.lines = (coreOf s g).ladle.lines ∧
      t.mm.mem = s.mm.mem ∧ t.mm.host = s.mm.host)) ∧
  (∀ (g k : Nat) (x : LadleLine) (s : State), s.powered = true → g < 192 → PourIs .locking g k s →
    (coreOf s g).ladle.requested = some x.line → (coreOf s g).ladle.lines.find? (fun y => decide (y.line = x.line)) = some x →
    grantPoison s g x = false →
    Next (.lockGrant g) s (fun t => t.mm = s.mm ∧
      (coreOf t g).ladle.lines = (coreOf s g).ladle.lines.map (fun y => if y.line = x.line then { y with locked := true } else y) ∧
      (coreOf t g).ladle.requested = none ∧ (coreOf t g).ladle.firstGrant = true ∧
      (courseOf t g k).pour = if (coreOf t g).ladle.lines.all (fun y => y.locked) then .publishing else .locking)) ∧
  (∀ (g k : Nat) (x : LadleLine) (s : State), s.powered = true → g < 192 → PourIs .publishing g k s →
    (coreOf s g).ladle.lines.find? (fun y => !y.merged) = some x →
    Next (.pourPublish g) s (fun t =>
      let l := (coreOf s g).ladle.lines.map (fun y => if y.line = x.line then { y with merged := true } else y)
      (l.any (fun y => !y.merged) = true → t.mm = s.mm ∧ (coreOf t g).ladle.lines = l) ∧
      (l.any (fun y => !y.merged) = false →
        t = publishAll g k (setCore s g { coreOf s g with ladle := { (coreOf s g).ladle with lines := l } })))) ∧
  (∀ (g k : Nat) (s : State), s.powered = true → g < 192 → PourIs .publishing g k s →
    (coreOf s g).ladle.lines.any (fun y => !y.merged) = false →
    (castingOf s (castingOfCourse s g k)).ending = none → (clusterOf s (clOf g)).ended = false →
    Next (.pourPublishDone g) s (fun t => (coreOf t g).ladle = {} ∧
      courseOf t g k = advance { courseOf s g k with pour := .closed, pourCode := 0, pourSub := 0, pourSerial := false, abortCount := 0 } ∧
      (∀ line, (txnOf t line).locked ≠ some g) ∧ (∀ x ∈ t.tokens, x.1 ≠ g) ∧ t.mm.mem = s.mm.mem ∧ t.mm.host = s.mm.host)) ∧
  (∀ (g k : Nat) (s : State), s.powered = true → g < 192 → PourIs .locking g k s → (coreOf s g).ladle.firstGrant = true →
    Next (.lockTo g) s (PourAborted g k 1 s))

/-- R322 to R324, R333: the free token goes to the agent that has waited longest, once no pour is in its lock phase: TOKEN_AGENT names it,
a core's pour opens, and the casting counts as serialised; a grant to another agent changes nothing.  A holder that does not reach its
commit in TOKEN_TO aborts with PREEMPT: a core's pour gives the token up, a sprue transfer ends. -/
def Obligations.PourTokenServesInOrder : Prop :=
  (∀ (g k n : Nat) (rest : List (Nat × Nat)) (s : State), s.powered = true → g < 0x10000 → isOn s tokHeld = false →
    s.tokens = (g, n) :: rest → pourLocking s = false → PourIs .waitToken g k s →
    Next (.tokenGrant g) s (fun t => isOn t tokHeld = true ∧ getF t tokAgent = g % 4096 ∧ t.tokens = s.tokens ∧
      courseOf t g k = openPour (courseOf s g k).abortPc true (courseOf s g k) ∧ t.mm = s.mm ∧
      (castingOf t (castingOfCourse s g k)).serialPour = true)) ∧
  (∀ (e ch n : Nat) (rest : List (Nat × Nat)) (s : State), s.powered = true → e < 17 → ch < 32 → isOn s tokHeld = false →
    s.tokens = (0x10000 + 32 * e + ch, n) :: rest → pourLocking s = false →
    Next (.tokenGrant (0x10000 + 32 * e + ch)) s (fun t => isOn t tokHeld = true ∧ getF t tokAgent = agSprue e % 4096 ∧
      t.tokens = s.tokens ∧ t.mm = s.mm ∧ t.spr = s.spr ∧
      ∀ k, (chanOf s e ch).casting = some k → (castingOf t k).serialPour = true)) ∧
  (∀ (g : Nat) (s : State), s.powered = true →
    isOn s tokHeld = true ∨ s.tokens.head?.map Prod.fst ≠ some g ∨ pourLocking s = true → exec (.tokenGrant g) s = .next s) ∧
  (∀ (g k n : Nat) (rest : List (Nat × Nat)) (s : State), s.powered = true → g < 0x10000 → isOn s tokHeld = true →
    s.tokens = (g, n) :: rest → PourIs .open g k s →
    Next (.tokenTo) s (fun t => PourAborted g k 6 s t ∧ isOn t tokHeld = false)) ∧
  (∀ (e ch n : Nat) (rest : List (Nat × Nat)) (s : State), s.powered = true → e < 17 → ch < 32 → isOn s tokHeld = true →
    s.tokens = (0x10000 + 32 * e + ch, n) :: rest → (chanOf s e ch).phase ≠ .publishing →
    exec (.tokenTo) s = .next (endXfer e ch (faultEnd 0x50 6 (agSprue e) 0) s))


/-- R86, R123, R124, R127: a fresh HSEQ, TMOV or RSEQ whose descriptor passes its check begins with its progress block at POS 0, PHASE
STARTED; ZERO_FIRST clears the HSEQ's tile; one under way goes on from its POS; PHASE DONE passes to the next instruction; a bad
descriptor or phase, and a descriptor that leaves consort memory, end the casting. -/
def Obligations.LongInstructionsIssue : Prop :=
  ∀ (i : Instr) (kd : LongKind) (g k : Nat) (b : InstrBits) (s : State), longOf i = some (kd, g, k, b) → InCache i s →
    LongIssues kd g k b s →
    let c := courseOf s g k
    let p := fldD b
    let off := (ureg c (fldA b)).toNat
    let d := cmemRead s g k off 64
    let l : LongRun := ⟨kd.kind, p, off, 0⟩
    (off % 64 = 0 → lPhase c p = 0 → off + 64 ≤ cmemSize s g k → kd.ok d = true → kd.fits (cmemSize s g k) d = true →
      kd.waits s d = false → Next i s (fun t =>
        (courseOf t g k).long = some l ∧ (courseOf t g k).pc = c.pc ∧ ureg (courseOf t g k) p = 0 ∧
        ureg (courseOf t g k) (p + 1) = 0 ∧ ureg (courseOf t g k) (p + 2) = 0 ∧ ureg (courseOf t g k) (p + 3) = phaseWord 1 0 0 ∧
        (∀ r, r < p ∨ p + 3 < r → ureg (courseOf t g k) r = ureg c r) ∧ (courseOf t g k).v = c.v ∧ t.mm = s.mm ∧
        (coreOf t g).cmem = (coreOf s g).cmem ∧
        (kd.kind = 0 → isOn t (hseqBusy g) = true ∧ (harpOf t g).st (hTile d) = .accumulating k ∧ ∀ m n, m < 128 → n < 128 →
          tget 0 ((harpOf t g).tile (hTile d)) (128 * m + n) =
            if hFlag d 1 = true ∧ m < hExt d 0 ∧ n < hExt d 1 then 0 else tget 0 ((harpOf s g).tile (hTile d)) (128 * m + n)))) ∧
    (off % 64 = 0 → lPhase c p = 1 → off + 64 ≤ cmemSize s g k → kd.waits s (longDesc s g k l) = false →
      lPos c p < kd.units (longDesc s g k l) → Next i s (fun t =>
        (courseOf t g k).long = some l ∧ (courseOf t g k).pc = c.pc ∧ (courseOf t g k).u = c.u ∧ (courseOf t g k).v = c.v ∧
        t.mm = s.mm ∧ (coreOf t g).cmem = (coreOf s g).cmem)) ∧
    (off % 64 = 0 → lPhase c p = 2 → Next i s (GoesOn g k (unreserved c) s)) ∧
    (off % 64 ≠ 0 → Next i s (CastingEnds (protEnd 0x1B g 0) s · g k)) ∧
    (off % 64 = 0 → lPhase c p = 3 → Next i s (CastingEnds (protEnd 0x1A g 0) s · g k)) ∧
    (off % 64 = 0 → lPhase c p < 2 → cmemSize s g k < off + 64 → Next i s (CastingEnds (protEnd 0x14 g 0) s · g k)) ∧
    (off % 64 = 0 → lPhase c p = 0 → off + 64 ≤ cmemSize s g k → kd.ok d = false → Next i s (CastingEnds (protEnd 0x1B g 0) s · g k))


/-- R124, R128, R129, R135: a completed unit advances POS; the last one ends the instruction with PHASE DONE at the next instruction; a
requested stop leaves PHASE STARTED with its cause and one more stop, at the same instruction; so does a unit of TMOV or RSEQ that waits for
its page, with CAUSE 1 and POS as it was, and any other unit that waits changes nothing more.  A K-step enters the Harp. -/
def Obligations.LongUnitsAdvance : Prop :=
  (∀ (g k stop : Nat) (l : LongRun) (fl : Word) (s s1 : State), s.powered = true → (courseOf s g k).live = true →
    longHeld s g k = false → (courseOf s g k).long = some l → longUnit g k l s = (s1, .ok fl) →
    let c := courseOf s1 g k
    let pos := lPos c l.prog + 1
    let units := (kindOf g l.kind).units (longDesc s g k l)
    Next (.longUnitComplete g k stop) s (fun t =>
      ureg (courseOf t g k) l.prog = BitVec.ofNat 32 pos ∧ t.mm = s1.mm ∧
      (stopCause s1 g k stop = 0 → pos < units →
        (courseOf t g k).long = some { l with flags := l.flags ||| fl } ∧ (courseOf t g k).pc = c.pc) ∧
      (stopCause s1 g k stop = 0 → units ≤ pos →
        (courseOf t g k).long = none ∧ (courseOf t g k).asw = c.asw ||| l.flags ||| fl ∧
        ureg (courseOf t g k) (l.prog + 3) = phaseWord 2 (lCause c l.prog) (lStops c l.prog) ∧
        (c.stack = [] → (courseOf t g k).pc = (c.pc + 8) % 2 ^ 64)) ∧
      (stopCause s1 g k stop ≠ 0 → (courseOf t g k).long = none ∧ (courseOf t g k).pc = c.pc ∧
        (courseOf t g k).asw = c.asw ||| l.flags ||| fl ∧
        ureg (courseOf t g k) (l.prog + 3) = phaseWord 1 (stopCause s1 g k stop) (min (lStops c l.prog + 1) 0xFFFF)))) ∧
  (∀ (g k stop : Nat) (l : LongRun) (s s1 : State), s.powered = true → (courseOf s g k).live = true →
    longHeld s g k = false → (courseOf s g k).long = some l → longUnit g k l s = (s1, .wait) →
    let c := courseOf s1 g k
    ((c.faultVa = none ∨ l.kind = 0) → exec (.longUnitComplete g k stop) s = .next s1) ∧
    (c.faultVa ≠ none → l.kind ≠ 0 → Next (.longUnitComplete g k stop) s (fun t =>
      (courseOf t g k).long = none ∧ (courseOf t g k).pc = c.pc ∧ ureg (courseOf t g k) l.prog = ureg c l.prog ∧ t.mm = s1.mm ∧
      ureg (courseOf t g k) (l.prog + 3) = phaseWord 1 1 (min (lStops c l.prog + 1) 0xFFFF)))) ∧
  (∀ (g k : Nat) (l : LongRun) (s : State), s.powered = true → hseqCourse s g = some k → (courseOf s g k).long = some l → l.kind = 0 →
    let d := longDesc s g k l
    let n := (harpOf s g).kstep
    let j := lPos (courseOf s g k) l.prog
    n < hSteps d → j < hBlocks d →
    Next (.harpKStepIssue g) s (fun t => harpOf t g = { (kStep s g k d j n).1 with kstep := n + 1 } ∧
      t.mm = s.mm ∧ ∃ o, courseOf t g k = { courseOf s g k with
        long := some { l with flags := l.flags ||| (kStep s g k d j n).2 }, opened := o } ∧
        (stepRaced s g k l d j n = false → o = (courseOf s g k).opened)))


/-- R130, R133, R146 to R150: HZERO and HDRAIN start on an IDLE tile while the course goes on, and wait for one that is not; their
completions leave the tile IDLE, cleared by HZERO, and by HDRAIN in the drained region when ZERO_AFTER is set; the drain's rows are in
consort memory.  ZERO_BUSY stays while the other tile clears.  An HDRAIN waits for the other tile's drain, and neither ends a reservation
(the model's choices, log entries 113 and 115). -/
def Obligations.HarpTilesClearAndDrain : Prop :=
  (∀ (g k : Nat) (b : InstrBits) (s : State), g < 192 → InCache (.hzero g k b) s → HarpIssues g k b s → b.au = false → b.low.toNat ≤ 1 →
    ((harpOf s g).st b.low.toNat = .idle →
      Next (.hzero g k b) s (fun t => (harpOf t g) = (harpOf s g).setSt b.low.toNat (.zeroing k) ∧ isOn t (zeroBusy g) = true ∧
        courseOf t g k = advance (courseOf s g k) ∧ t.mm = s.mm ∧ (coreOf t g).cmem = (coreOf s g).cmem)) ∧
    ((harpOf s g).st b.low.toNat ≠ .idle → exec (.hzero g k b) s = .next s)) ∧
  (∀ (g tile k : Nat) (s : State), s.powered = true → tile < 2 → (harpOf s g).st tile = .zeroing k →
    Next (.hzeroComplete g tile) s (fun t => (harpOf t g).st tile = .idle ∧ (∀ x, tget 0 ((harpOf t g).tile tile) x = 0) ∧
      (harpOf t g).tile (1 - tile) = (harpOf s g).tile (1 - tile) ∧
      isOn t (zeroBusy g) = ((harpOf s g).st (1 - tile)).isZeroing ∧ t.mm = s.mm ∧
      (coreOf t g).courses = (coreOf s g).courses)) ∧
  (∀ (g k : Nat) (b : InstrBits) (s : State), g < 192 → InCache (.hdrain g k b) s → HarpIssues g k b s → fldD b = 0 →
    Form.ok .ureg b.au (fldA b) = true → bits b.low.toNat 28 0 = 0 →
    let off := (ureg (courseOf s g k) (fldA b)).toNat
    let d := cmemRead s g k off 32
    (off % 8 = 0 → off + 32 ≤ cmemSize s g k → drainOk d = true → drainFits (cmemSize s g k) d = true →
      ((harpOf s g).st (nTile d) = .idle → isOn s (drainBusy g) = false →
        Next (.hdrain g k b) s (fun t => harpOf t g = (harpOf s g).setSt (nTile d) (.draining k (leNat d)) ∧ isOn t (drainBusy g) = true ∧
          courseOf t g k = advance (courseOf s g k) ∧ t.mm = s.mm ∧ (coreOf t g).cmem = (coreOf s g).cmem)) ∧
      ((harpOf s g).st (nTile d) ≠ .idle ∨ isOn s (drainBusy g) = true → exec (.hdrain g k b) s = .next s)) ∧
    (off % 8 ≠ 0 ∨ (off + 32 ≤ cmemSize s g k ∧ drainOk d = false) →
      Next (.hdrain g k b) s (CastingEnds (protEnd 0x1D g 0) s · g k)) ∧
    (off % 8 = 0 → cmemSize s g k < off + 32 ∨ (drainOk d = true ∧ drainFits (cmemSize s g k) d = false) →
      Next (.hdrain g k b) s (CastingEnds (protEnd 0x14 g 0) s · g k))) ∧
  (∀ (g k : Nat) (d : List Byte) (s : State), s.powered = true → drainOf s g = some (k, d) →
    Next (.hdrainComplete g) s (fun t => (coreOf t g).cmem = (coreOf (drainAll g k d s).1 g).cmem ∧
      (harpOf t g).st (nTile d) = .idle ∧ isOn t (drainBusy g) = false ∧ t.mm = s.mm ∧
      (courseOf t g k).asw = (courseOf s g k).asw ||| (drainAll g k d s).2 ∧
      ∀ m n, m < 128 → n < 128 → tget 0 ((harpOf t g).tile (nTile d)) (128 * m + n) =
        if nFlag d 3 = true ∧ m < nRows d ∧ n < nCols d then 0 else tget 0 ((harpOf s g).tile (nTile d)) (128 * m + n)))


/-- R69, R92 to R95: a switch-out stops a consort with its cause; its written image holds its courses' state and its memory and frees its
place; a switch-in of a casting that is not ending restores a ready image on a core of its cluster that has room: its courses, with u3
following the core where it still held the old one's number (the model's choice, log entry 109), its memory, and an owned Harp's tiles. -/
def Obligations.ConsortsSwitchOutAndIn : Prop :=
  (∀ (g cs cause : Nat) (s : State), s.powered = true → (consortOf s g cs).live = true → (consortOf s g cs).saving = none →
    (cause = 1 ∧ consortFault s g cs ≠ none ∨ cause = 2) → saveRoom s g (consortOf s g cs) = true →
    (castingOf s (consortOf s g cs).casting).live = true → (castingOf s (consortOf s g cs).casting).ending = none →
    Next (.switchOut g cs cause) s (fun t => consortOf t g cs = { consortOf s g cs with saving := some cause } ∧
      t.mm.mem = s.mm.mem ∧ (coreOf t g).cmem = (coreOf s g).cmem ∧ (∀ k, SameRegisters (courseOf s g k) (courseOf t g k)) ∧
      ∀ k ∈ (consortOf s g cs).courses, (courseOf t g k).pour = .closed ∨ (courseOf t g k).pour = .publishing)) ∧
  (∀ (g cs cause : Nat) (s : State), s.powered = true → (consortOf s g cs).saving = some cause →
    (consortOf s g cs).courses.all (courseStill s g) = true →
    Next (.consortImageWritten g cs) s (fun t => consortOf t g cs = {} ∧ (∀ k ∈ (consortOf s g cs).courses, courseOf t g k = {}) ∧
      t.mm = s.mm ∧ ∃ im, (coreOf t g).images = (coreOf s g).images ++ [im] ∧ im.consort = { consortOf s g cs with saving := none } ∧
        im.courses = (consortOf s g cs).courses.map (fun k => savedCourse (courseOf s g k)) ∧
        im.cmem = rdList (coreOf s g).cmem ((consortOf s g cs).base * 1024) ((consortOf s g cs).ca * 1024) ∧
        ((consortOf s g cs).harp = true → im.t0 = (coreOf s g).harp.t0 ∧ im.t1 = (coreOf s g).harp.t1))) ∧
  (∀ (src n g : Nat) (im : Image) (rest : List Image) (r : Room) (s : State), s.powered = true → (coreOf s src).images.drop n = im :: rest →
    clOf src = clOf g → g < 192 → im.ready = true → (castingOf s im.consort.casting).ending = none →
    draining s im.consort.casting = false → imageRoom s g im = some r → (r.courses.map Prod.fst).Nodup →
    Next (.switchIn src n g) s (fun t =>
      consortOf t g r.slot = { im.consort with live := true, base := r.base, courses := r.courses.map Prod.fst, saving := none } ∧
      (∀ x ∈ r.courses.zip im.courses, courseOf t g x.1.1 = { moveU3 src g x.2 with consort := r.slot, regBase := x.1.2 }) ∧
      rdList (coreOf t g).cmem (r.base * 1024) im.cmem.length = im.cmem ∧
      (im.consort.harp = true → (coreOf t g).harp.t0 = im.t0 ∧ (coreOf t g).harp.t1 = im.t1) ∧ t.mm = s.mm ∧
      (coreOf t src).images = (coreOf s src).images.take n ++ rest))


/-- R61: where each field of a status record lies; SLOT is 0xFF for a command that has no slot, a LAUNCH that has not started among them
(the model's choice, log entry 108). -/
def Obligations.StatusRecordLayout : Prop :=
  ∀ (q : Nat) (c : Cmd) (st tEnd stretch : Nat) (e : Ending),
    let r := recordBytes q c st tEnd stretch e
    r.length = 64 ∧ fieldOf r 0 1 = st % 2 ^ 8 ∧ fieldOf r 1 1 = e.code % 2 ^ 8 ∧ fieldOf r 2 1 = e.sub % 2 ^ 8 ∧
    fieldOf r 3 1 = c.flags % 2 ^ 8 ∧ fieldOf r 4 4 = cSeq c ∧ fieldOf r 8 4 = c.progress % 2 ^ 32 ∧
    fieldOf r 12 4 = c.version % 2 ^ 32 ∧ fieldOf r 16 8 = c.tStart % 2 ^ 64 ∧ fieldOf r 24 8 = tEnd % 2 ^ 64 ∧
    fieldOf r 32 2 = e.agent % 2 ^ 16 ∧ fieldOf r 34 1 = (match c.slot with | some k => k % 2 ^ 8 | none => 0xFF) ∧
    fieldOf r 35 1 = 0 ∧ fieldOf r 36 2 = q % 2 ^ 16 ∧ fieldOf r 38 2 = 0 ∧ fieldOf r 40 8 = e.addr % 2 ^ 64 ∧
    fieldOf r 48 4 = stretch % 2 ^ 32 ∧ fieldOf r 52 4 = 0 ∧ fieldOf r 56 4 = (c.upd + 2) % 2 ^ 32 ∧ fieldOf r 60 4 = 0

/-- R24, R36, R61 to R63: a command that starts is RUNNING at the head of its queue with the present tick; one that ends leaves its
queue, its SEQ joins those that have ended, and other queues are as they were; its record is written where STATUS_ADDR translates to, in
host memory whose line is free. -/
def Obligations.CommandsStartAndEnd : Prop :=
  (∀ (q : Nat) (c : Cmd) (s : State), headCmd s q = some c →
    let t := startCommand q c s
    headCmd t q = some { c with started := true, tStart := s.aoTick, work := [], upd := (c.upd + 2) % 2 ^ 32 } ∧
    (queueOf t q).fetched.drop 1 = (queueOf s q).fetched.drop 1 ∧ isOn t (qActive q) = true ∧
    ∀ q', q' ≠ q → queueOf t q' = queueOf s q') ∧
  (∀ (q stretch : Nat) (c : Cmd) (e : Ending) (s : State), headCmd s q = some c →
    let t := endCommand q e stretch s
    (queueOf t q).fetched = (queueOf s q).fetched.drop 1 ∧ cSeq c ∈ (queueOf t q).ended ∧
    (∀ n ∈ (queueOf s q).ended, n ∈ (queueOf t q).ended) ∧ isOn t (qActive q) = false ∧
    (∀ q', q' ≠ q → queueOf t q' = queueOf s q') ∧ ∀ k, castingOf t k = castingOf s k) ∧
  (∀ (q st tEnd stretch ta pa : Nat) (c : Cmd) (e : Ending) (s s1 : State),
    pageWaits s (ctxOfQueue s q) (cStatus c / 64 * 64) = false →
    translate ⟨.posted, ctxOfQueue s q, agFw 2, false, none⟩ (cStatus c / 64 * 64) true s = (s1, .ok ta) →
    targetOf s1 ta = .host pa → s.hpt.bme = true → (∀ n, n < 64 → lineBusy s1 (hostLine (pa + n)) none none none = false) →
    let t := writeRecord q c st tEnd stretch e s
    rdList t.mm.host pa 64 = recordBytes q c st tEnd stretch e ∧ t.mm.mem = s.mm.mem ∧
    ∀ a, a < pa ∨ pa + 64 ≤ a → tget 0 t.mm.host a = tget 0 s.mm.host a)


/-- R29 to R34, R39, R431, R484: a doorbell in range sets TAIL, one out of range sets Q_ERR, any other write changes nothing; a fetched
entry joins its queue and HEAD advances, and one that cannot be read sets Q_ERR; SCH_Q_CFG takes a write, all but WEIGHT only while ENABLE
reads 0, and a queue that is enabled with a SIZE_LOG2 outside 6 to 16 sets CFG_ERR and stays disabled; a command whose opcode is not listed,
or whose fields fail their check, ends BAD_COMMAND. -/
def Obligations.QueuesTakeCommands : Prop :=
  (∀ (q off size v : Nat) (s : State), s.powered = true → InTurn (.tail q off size v) s →
    Next (.tail q off size v) s (fun t =>
      let tail := v % 2 ^ 32
      (q < 512 → off = 0 → size = 4 ∨ size = 8 →
        ((tail + 2 ^ 32 - getF s (qHead q)) % 2 ^ 32 ≤ 2 ^ getF s (qSize q) →
          t = setQueue s q { queueOf s q with tail := tail, bell := s.aoTick }) ∧
        (2 ^ getF s (qSize q) < (tail + 2 ^ 32 - getF s (qHead q)) % 2 ^ 32 → t = setOn s (qErr q))) ∧
      (512 ≤ q ∨ off ≠ 0 ∨ (size ≠ 4 ∧ size ≠ 8) → t = s))) ∧
  (∀ (q ta : Nat) (st : HostStatus) (entry bs : List Byte) (s s1 : State), s.powered = true → mayFetch s q = true →
    translate { cmdAccess s q with who := .command (1024 + q) } (ringAddr s q) false s = (s1, .ok ta) →
    (∃ dpa, targetOf s1 ta = .dev dpa ∧ lineBusy s1 (lineOf (locOf dpa)) none none none = false ∧
        devRead s1 (agFw 2) dpa 64 = .ok bs) ∨
      ((∃ pa, targetOf s1 ta = .host pa) ∧ s1.hpt.bme = true ∧ st = .success ∧ bs = entry) →
    Next (.commandFetch q st entry) s (fun t => ∃ c, (queueOf t q).fetched = (queueOf s q).fetched ++ [c] ∧
      c.bytes = (bs ++ List.replicate 64 0).take 64 ∧ c.started = false ∧ c.upd = 2 ∧
      getF t (qHead q) = (getF s (qHead q) + 1) % 2 ^ 32 ∧ (queueOf t q).tail = (queueOf s q).tail)) ∧
  (∀ (q ta : Nat) (st : HostStatus) (entry : List Byte) (s s1 : State), s.powered = true → mayFetch s q = true →
    translate { cmdAccess s q with who := .command (1024 + q) } (ringAddr s q) false s = (s1, .ok ta) →
    (∃ w off, targetOf s1 ta = .win w off) ∨ ((∃ pa, targetOf s1 ta = .host pa) ∧ (s1.hpt.bme = false ∨ st ≠ .success)) →
    exec (.commandFetch q st entry) s = .next (setOn s1 (qErr q))) ∧
  (∀ (q : Nat) (st : HostStatus) (entry : List Byte) (s : State), s.powered = true → mayFetch s q = false →
    exec (.commandFetch q st entry) s = .next s) ∧
  (∀ (q be value : Nat) (s : State), s.powered = true → InTurn (.schQCfgWrite q be value) s →
    let m := byteMask be
    let now := fun (f : FRef) => wouldBe s m value f % 2 ^ f.len
    (q < 512 → halfOk be = true → Next (.schQCfgWrite q be value) s (fun t => SameMemory s t ∧ t.sch = s.sch ∧
      getF t (qWeight q) = now (qWeight q) ∧
      (isOn s (qEnable q) = true → getF t (qSize q) = getF s (qSize q) ∧ getF t (qPasid q) = getF s (qPasid q) ∧
        getF t (qPasidEn q) = getF s (qPasidEn q) ∧ getF t (qEnable q) = now (qEnable q)) ∧
      (isOn s (qEnable q) = false → getF t (qSize q) = now (qSize q) ∧ getF t (qPasid q) = now (qPasid q) ∧
        getF t (qPasidEn q) = now (qPasidEn q) ∧
        if wouldBe s m value (qEnable q) = 1 ∧ (now (qSize q) < 6 ∨ 16 < now (qSize q)) then
          isOn t (qCfgErr q) = true ∧ isOn t (qEnable q) = false
        else getF t (qEnable q) = now (qEnable q)) ∧
      (be = 0xFF → now (qWeight q) = bits value 15 8 ∧ now (qSize q) = bits value 4 0 ∧ now (qPasid q) = bits value 35 16 ∧
        now (qPasidEn q) = bits value 36 36 ∧ now (qEnable q) = bits value 7 7))) ∧
    (512 ≤ q ∨ halfOk be = false → exec (.schQCfgWrite q be value) s = .next s)) ∧
  (∀ (i : Instr) (q op : Nat) (ok : Cmd → Bool) (c : Cmd) (s : State), hostRow i = some (q, op, ok) → s.powered = true →
    schedulerUp s = true → mayStart s q = true → headCmd s q = some c → c.started = false →
    (cOp c < 1 ∨ 10 < cOp c ∨ (cOp c = op ∧ (commonOk c && ok c) = false)) →
    exec i s = .next (endCommand q badCommand 0 (useCredit q s)))


/-- R35: RESET ends the commands that have not started, each with a record ABORTED, HOST_RESET, and orders the started one to drain, unless
its budget's drain is in progress already (the model's choice, log entry 108); a queue that is being reset takes no second order.  Once
nothing is left HEAD is set to TAIL and RESET and RESET_BUSY are cleared, not before. -/
def Obligations.QueueResetEmptiesTheQueue : Prop :=
  (∀ (q : Nat) (s : State), s.powered = true → InTurn (.queueReset q) s →
    (q < 512 → isOn s (qResetBusy q) = false → Next (.queueReset q) s (fun t =>
      let n := match headCmd s q with | some c => b2n c.started | none => 0
      isOn t (qReset q) = true ∧ isOn t (qResetBusy q) = true ∧ (queueOf t q).fetched.length = ((queueOf s q).fetched.take n).length ∧
      (∀ c ∈ (queueOf s q).fetched.drop n, cSeq c ∈ (queueOf t q).ended) ∧
      ∀ c, headCmd s q = some c → c.started = true →
        headCmd t q = some (if c.draining = 0 then { c with draining := 2, drainLeft := s.aoTick } else c))) ∧
    (512 ≤ q ∨ isOn s (qResetBusy q) = true → exec (.queueReset q) s = .next s)) ∧
  (∀ (q : Nat) (c : Cmd) (s : State), (queueOf s q).fetched = [c] →
    let t := abortQueued q 0 s
    (queueOf t q).fetched = [] ∧
      t.mm = (writeRecord q { c with tStart := s.aoTick } 6 s.aoTick 0 ⟨6, 0x10, 0x10, agFw 2, 0⟩ s).mm) ∧
  (∀ (q : Nat) (s : State), s.powered = true → isOn s (qResetBusy q) = true → (queueOf s q).fetched = [] →
    Next (.queueResetComplete q) s (fun t => getF t (qHead q) = (queueOf s q).tail % 2 ^ 32 ∧ isOn t (qReset q) = false ∧
      isOn t (qResetBusy q) = false ∧ t = { s with regs := t.regs, touched := t.touched })) ∧
  (∀ (q : Nat) (s : State), s.powered = true → isOn s (qResetBusy q) = false ∨ (queueOf s q).fetched ≠ [] →
    exec (.queueResetComplete q) s = .next s)


/-- R38, R41, R49, R50, R190, R199: a LAUNCH whose pattern is sound, whose clusters are free and ready and whose root line can be written
starts its casting in a free slot: its command is RUNNING, its fields are resolved, and every cluster of the mask has its stream.  One whose
riser fails starts and ends at once; one whose pattern fails its check or that is refused ends with that end; one whose clusters are not all
free is the claimant. -/
def Obligations.LaunchStartsACasting : Prop :=
  (∀ (q k dpa : Nat) (host fs : List Nat) (r : Got (List Nat)) (c : Cmd) (root : List Byte) (pt : Pattern) (s s1 s2 s3 s4 : State),
    Turn 1 q c s → launchOk c = true → readRoot (cmdAccess s q) (cRoot c) s = (s1, .ok (dpa, root)) →
    readVersion (cmdAccess s q) dpa (fieldOf root 8 8) s1 = (s2, .ok pt) → launchRefusal s2 c pt = none →
    claimBars s2 q (hMask pt.hdr) = false → (maskList (hMask pt.hdr)).all (clusterFree s2) = true →
    (maskList (hMask pt.hdr)).all (clusterReady s2) = true → k < 16 → slotUsed s2 k = false → rootBar s2 dpa = .ok () →
    readRiser (cmdAccess s q) c (hRiser pt.hdr) host s2 = (s3, .ok fs) →
    resolveRiser (cmdAccess s q) pt.riser (lRiser c) 0 (directFields (prefetched s3 k q (cSeq c)) pt.riser fs) s3 = (s4, r) →
    r ≠ .wait →
    Next (.launch q k host) s (fun t =>
      let x := castingOf t k
      x.live = true ∧ x.q = q ∧ x.root = dpa ∧ x.version = fieldOf root 4 4 ∧ x.mask = hMask pt.hdr ∧ x.nodes = hNodes pt.hdr ∧
      (∀ vals, r = .ok vals → x.riser = vals ∧ x.ending = none) ∧ (∀ e, r = .fail e → x.ending = some e) ∧
      (∀ k', k' ≠ k → castingOf t k' = castingOf s4 k') ∧
      (∃ m, headCmd t q = some m ∧ m.started = true ∧ m.slot = some k ∧ m.version = fieldOf root 4 4 ∧ m.bytes = c.bytes) ∧
      (∀ cl ∈ maskList (hMask pt.hdr), (clusterOf t cl).casting = some k ∧ (clusterOf t cl).queues = [] ∧
        (clusterOf t cl).strPos = 0 ∧ (clusterOf t cl).strBase = ((segOf pt.hdr 1 cl).getD ⟨0, 0, 0, 0⟩).addr) ∧
      ∀ cl, cl ∉ maskList (hMask pt.hdr) → (clusterOf t cl).casting = (clusterOf s4 cl).casting)) ∧
  (∀ (q k : Nat) (host : List Nat) (c : Cmd) (e : Ending) (s s1 : State), Turn 1 q c s → launchOk c = true →
    readPattern (cmdAccess s q) (cRoot c) s = (s1, .fail e) →
    exec (.launch q k host) s = .next (endCommand q e 0 (useCredit q s1))) ∧
  (∀ (q k dpa : Nat) (host : List Nat) (c : Cmd) (root : List Byte) (pt : Pattern) (s s1 : State),
    Turn 1 q c s → launchOk c = true → readPattern (cmdAccess s q) (cRoot c) s = (s1, .ok (dpa, root, pt)) →
    (∀ e, launchRefusal s1 c pt = some e → exec (.launch q k host) s = .next (endCommand q e 0 (useCredit q s1))) ∧
    (launchRefusal s1 c pt = none → claimBars s1 q (hMask pt.hdr) = true → exec (.launch q k host) s = .next s1) ∧
    (launchRefusal s1 c pt = none → claimBars s1 q (hMask pt.hdr) = false →
      (maskList (hMask pt.hdr)).all (clusterFree s1) = false →
      Next (.launch q k host) s (fun t => ∃ x, t = { s1 with sch := { s1.sch with claimant := x } } ∧
        (s1.sch.claimant = none → x = some ⟨q, hMask pt.hdr, freeMask s1 (hMask pt.hdr)⟩))))


/-- R24, R53, R293: PREFETCH notes the next casting of a slot in use, its version, its command streams and its riser fields; a casting whose
clusters have ended, whose writes are complete and whose root line can be unpinned ends: its command leaves its queue and its slot and
clusters are free. -/
def Obligations.CastingsCompleteAndFreeTheirClusters : Prop :=
  (∀ (k : Nat) (m : Cmd) (s s1 : State), s.powered = true → schedulerUp s = true → partsEnded s k = true →
    hostFlush (.casting k) (adopt (waiterOf s k) (.casting k) s) = (s1, true) → writesDone s1 k = true →
    rootBar s1 (castingOf s1 k).root ≠ .wait → headCmd s (castingOf s k).q = some m →
    Next (.castingComplete k) s (fun t => castingOf t k = {} ∧ (∀ k', k' ≠ k → castingOf t k' = castingOf s k') ∧
      (queueOf t (castingOf s k).q).fetched = (queueOf s (castingOf s k).q).fetched.drop 1 ∧
      cSeq m ∈ (queueOf t (castingOf s k).q).ended ∧
      ∀ cl, (clusterOf t cl).casting = if cl ∈ maskList (castingOf s k).mask then none else (clusterOf s cl).casting)) ∧
  (∀ (k : Nat) (s s1 : State), s.powered = true → schedulerUp s = true → partsEnded s k = true →
    hostFlush (.casting k) (adopt (waiterOf s k) (.casting k) s) = (s1, false) → exec (.castingComplete k) s = .next s1) ∧
  (∀ (k q dpa : Nat) (c : Cmd) (root : List Byte) (pt : Pattern) (s s1 : State), s.powered = true → schedulerUp s = true →
    slotUsed s k = true → prefetchQueue s k = some q → nextLaunch s q = some c →
    readPattern { cmdAccess s q with who := .command (512 + q) } (cRoot c) s = (s1, .ok (dpa, root, pt)) →
    Next (.prefetch k q) s (fun t => ∃ fs, tget {} t.sch.prefetch k =
      ⟨q, cSeq c, fieldOf root 4 4, pt.cur, (streamSegs pt.hdr).map (fun x => (x.1, x.2.1)), fs⟩ ∧
      (hRiser pt.hdr = 0 → fs = []) ∧ (fs = [] ∨ fs.length = hRiser pt.hdr) ∧ t.sch.queues = s.sch.queues))


/-- R56, R57: a PATCH whose entries apply publishes its version: the new header is written and checked, then the root line takes it; a
version that fails its check ends the command, an entry that does not apply with BAD_COMMAND, a BASE that is no longer current with
CONFLICT, a version slot still pinned with ALLOC_BUSY. -/
def Obligations.PatchPublishesAVersion : Prop :=
  (∀ (q : Nat) (host es h : List Byte) (c : Cmd) (r : Nat × List Byte) (s0 s s1 s2 s3 : State),
    GoesOnIn 2 q patchOk c s0 s → readRoot (cmdAccess s q) (cRoot c) s = (s1, .ok r) →
    readHeader (cmdAccess s q) (fieldOf r.2 8 8) s1 = (s2, .ok h) →
    readOperand (cmdAccess s q) (fieldOf c.bytes 48 4 / 8 + 2) (fieldOf c.bytes 40 8) (16 * fieldOf c.bytes 48 4) host s2 = (s3, .ok es) →
    let new := patchHeader h es (fieldOf c.bytes 48 4) ((fieldOf r.2 4 4 + 1) % 2 ^ 32) (fieldOf r.2 8 8)
    (new = none → exec (.patch q host) s0 = .next (endCommand q (protEnd 0x11 (agFw 2) 0) 0 s3)) ∧
    ∀ h' s4, new = some h' → writeVa (cmdAccess s q) (h'.length / 128 + 2) (fieldOf c.bytes 32 8) h' s3 = (s4, .ok ()) →
      (∀ p s5, readVersion (cmdAccess s q) r.1 (fieldOf c.bytes 32 8) s4 = (s5, .ok p) →
        exec (.patch q host) s0 = .next (publish q c r.1 r.2 s5)) ∧
      ∀ e s5, readVersion (cmdAccess s q) r.1 (fieldOf c.bytes 32 8) s4 = (s5, .fail e) →
        exec (.patch q host) s0 = .next (endCommand q e 0 s5)) ∧
  (∀ (q dpa : Nat) (c : Cmd) (root : List Byte) (s : State),
    let base := fieldOf c.bytes 52 4
    let cur := fieldOf root 4 4
    let ver := (cur + 1) % 2 ^ 32
    (rootBar s dpa = .wait → publish q c dpa root s = s) ∧
    (∀ e, rootBar s dpa = .fail e → publish q c dpa root s = endCommand q e 0 s) ∧
    (rootBar s dpa = .ok () → base ≠ 0 → base ≠ cur → publish q c dpa root s = endCommand q (faultEnd 0x50 0x10 (agFw 2) 0) 0 s) ∧
    (rootBar s dpa = .ok () → (base = 0 ∨ base = cur) → bit (fieldOf root 16 8) (ver % 64) = true →
      publish q c dpa root s = endCommand q ⟨stAborted, 0x61, 0x10, agFw 2, 0⟩ 0 s) ∧
    (rootBar s dpa = .ok () → (base = 0 ∨ base = cur) → bit (fieldOf root 16 8) (ver % 64) = false → ∃ live,
      (∀ j, bit live j = if j = ver % 64 then true
        else if j = cur % 64 ∧ fieldOf root (64 + cur % 64) 1 = 0 then false else bit (fieldOf root 16 8) j) ∧
      publish q c dpa root s = endCommand q okEnd 0 (setHead (pourRoot dpa 4 (leBytes 4 ver ++ leBytes 8 (fieldOf c.bytes 32 8) ++
        leBytes 8 live) s) q { c with version := ver })))


/-- R43, R44: FENCE and SEMA WAIT start on their turn and end DONE once what they wait for has come, not before; SEMA SIGNAL adds its
value and ends DONE. -/
def Obligations.FencesAndSemaphoresOfQueues : Prop :=
  (∀ (q : Nat) (c : Cmd) (s : State), Turn 6 q c s → fenceOk c = true → exec (.fence q) s = .next (started q c s)) ∧
  (∀ (q : Nat) (c : Cmd) (s : State), Runs 6 q c s →
    exec (.fenceSatisfied q) s = .next (if ∀ w ∈ fenceWaits c, waitMet s w = true then endCommand q okEnd 0 s else s)) ∧
  (∀ (q : Nat) (c : Cmd) (s : State), Turn 7 q c s → fieldOf c.bytes 24 1 = 1 → exec (.semaWait q) s = .next (started q c s)) ∧
  (∀ (q : Nat) (c : Cmd) (s : State), Runs 7 q c s → fieldOf c.bytes 24 1 = 1 →
    exec (.semaWaitSatisfied q) s =
      .next (if fieldOf c.bytes 28 4 ≤ semaOf s (fieldOf c.bytes 26 2 % 2 ^ 14) then endCommand q okEnd 0 s else s)) ∧
  (∀ (q : Nat) (c : Cmd) (s : State), Turn 7 q c s → fieldOf c.bytes 24 1 = 2 →
    ∃ s1, exec (.semaSignal q) s = .next (endCommand q okEnd 0 s1) ∧ headCmd s1 q = headCmd (started q c s) q ∧
      semaOf s1 (fieldOf c.bytes 26 2 % 2 ^ 14) =
        (semaOf (started q c s) (fieldOf c.bytes 26 2 % 2 ^ 14) + fieldOf c.bytes 28 4) % 2 ^ 32)

/-- R44, R59: when its budget has passed, a started command with no engine ends TIMEOUT with TIMEOUT_DRAINED; one with engines is ordered to
drain: a casting's courses are halted and nothing more is placed on its clusters.  Once its engines have stopped within 100 µs it ends with
that code, and what has not is killed: TIMEOUT_KILLED names the last to stop; a casting reaches its final state when its writes are complete.
A command under a queue reset ends ABORTED, HOST_RESET instead. -/
def Obligations.BudgetsDrainAndKill : Prop :=
  (∀ (q : Nat) (c : Cmd) (s : State), s.powered = true → headCmd s q = some c → c.started = true → c.draining = 0 →
    fwRuns s 2 = true →
    Next (.budgetExpiry q) s (fun t =>
      let now := max s.aoTick (c.tStart + 25 * cBudget s q c)
      let c' := { c with draining := 1, drainLeft := now }
      t.aoTick = now ∧
      (c.slot = none → chunkChans s q = [] → ∃ s1, headCmd s1 q = some c' ∧ t = endCommand q ⟨5, 0x10, 0, agFw 2, 0⟩ 0 s1) ∧
      (c.slot = none → chunkChans s q ≠ [] → headCmd t q = some c') ∧
      (∀ k, c.slot = some k → headCmd t q = some c' ∧ ∀ cl ∈ maskList (castingOf s k).mask, (clusterOf t cl).stop = true ∧
        ∀ g ∈ coresOf cl, ∀ i, (courseOf s g i).live = true → (courseOf t g i).halted = true))) ∧
  (∀ (q : Nat) (c : Cmd) (s : State), s.powered = true → headCmd s q = some c → c.draining ≠ 0 → fwRuns s 2 = true →
    goesOn s c = true →
    let e := fun (code ag : Nat) => (⟨if c.draining = 2 then 6 else 5, code, if c.draining = 2 then 0x10 else 0, ag, 0⟩ : Ending)
    (drained s q c = true → s.aoTick ≤ c.drainLeft + 2500 →
      (c.slot = none → exec (.enginesDrained q) s = .next (endCommand q (e 0x10 (agFw 2)) 0 (undoService c (dropChunks q s)))) ∧
      (∀ k, c.slot = some k → (castingOf s k).live = true → ∃ s1, exec (.enginesDrained q) s = .next (completeCasting k s1) ∧
        (castingOf s1 k).ending = some (e 0x10 (agFw 2)) ∧ headCmd s1 q = some c)) ∧
    (drained s q c = false → exec (.enginesDrained q) s = .next s) ∧
    ∀ last, (killOk s q last c = true →
      (c.slot = none → Next (.drainKill q last) s (fun t => t.aoTick = max s.aoTick (c.drainLeft + 2500) ∧
        (queueOf t q).fetched = (queueOf s q).fetched.drop 1 ∧ cSeq c ∈ (queueOf t q).ended)) ∧
      (∀ k, c.slot = some k → (castingOf s k).live = true →
        (∀ x ∈ castingChans s k, (chanOf s x.1 x.2).stopping = true ∧ (chanOf s x.1 x.2).starter ≠ 3) →
        ∃ s1, exec (.drainKill q last) s = .next (completeCasting k s1) ∧ (castingOf s1 k).ending = some (e 0x11 last) ∧
          s1.aoTick = max s.aoTick (c.drainLeft + 2500))) ∧
      (killOk s q last c = false → exec (.drainKill q last) s = .next s)) ∧
  (∀ (k : Nat) (s s1 : State), partsEnded s k = true → hostFlush (.casting k) (adopt (waiterOf s k) (.casting k) s) = (s1, true) →
    writesDone s1 k = true → rootBar s1 (castingOf s1 k).root ≠ .wait → castingOf (completeCasting k s) k = {})


/-- R471, R486, R487: a pass of a running processor's main loop is noted among its last 1,024, LOOP_MAX_US shows their largest, and its
watchdog restarts. -/
def Obligations.MainLoopPassFeedsTheWatchdog : Prop :=
  ∀ (p us : Nat) (s : State), s.powered = true → p < 19 → fwRuns s p = true → us ≤ 1000 →
    Next (.mainLoopPass p us) s (fun t =>
      let l := (us :: tget [] s.boot.loops p).take 1024
      tget [] t.boot.loops p = l ∧ us ≤ l.foldl max 0 ∧ getF t (fwLoopMax p) = l.foldl max 0 % 2 ^ (fwLoopMax p).len ∧
      tget 0 t.boot.wdt p = s.aoTick + 25000 * wdtMs s p ∧ SameMemory s t ∧ t.sch = s.sch ∧
      ∀ p', p' ≠ p → tget 0 t.boot.wdt p' = tget 0 s.boot.wdt p')

/-- R340 to R343, R352, R595: a completion is cached and found for every address of its page, and those that wait go on; one that an
INVALIDATE has overtaken is asked again and not cached; one that denies the access is a page fault, or, after a page response, their end
with TRANSLATION_DENIED; a failed one ends all that wait with TRANSLATION_FAULT.  A page response asks again, or ends all that wait; the
answer to a scheduled casting's request is ignored; the reporting writes that wait are tried again. -/
def Obligations.TranslationsArriveAndFail : Prop :=
  (∀ (ctx va ta n : Nat) (write rd wr : Bool) (r : AtsReq) (s : State), s.powered = true →
    s.xl.ats.find? (fun r => decide (r.ctx = ctx) && decide (r.page = va / 4096) && decide (r.write = write) && r.sent) = some r →
    let s1 := { s with xl := { s.xl with ats := s.xl.ats.filter (fun x => decide (x ≠ r)) } }
    let s2 := if rd || wr then cacheEnt (newEnt ctx va ta n rd wr) s1 else s1
    let late := r.past.any (fun x => x.ent (newEnt ctx va ta n rd wr))
    let good := if write then wr else rd
    (late = false → good = true → exec (.atsCompletion ctx va write .success ta n rd wr) s =
      .next (readyImages ctx (va / 4096) write (retryPosted ctx (va / 4096) (wakeCourses r.waiters s2)))) ∧
    (late = false → good = false → r.retry = false → exec (.atsCompletion ctx va write .success ta n rd wr) s =
      .next (r.waiters.foldl (faultWaiter ctx (va / 4096) write (rd || wr)) s2)) ∧
    (late = false → good = false → r.retry = true → exec (.atsCompletion ctx va write .success ta n rd wr) s =
      .next (failImages ctx (va / 4096) 0x22 0x23 write (r.waiters.foldl (stillDenied ctx (va / 4096) write (rd || wr)) s2))) ∧
    (late = true → Next (.atsCompletion ctx va write .success ta n rd wr) s (fun t => t.xl.crucible = s.xl.crucible ∧
      t.xl.cluster = s.xl.cluster ∧ ∃ r' ∈ t.xl.ats, r'.ctx = ctx ∧ r'.page = va / 4096 ∧ r'.write = write ∧
        ∀ w ∈ r.waiters, ∃ y ∈ r'.waiters, y.1 = w.1)) ∧
    (∀ st, st ≠ .success → exec (.atsCompletion ctx va write st ta n rd wr) s =
      .next (failAll ctx (va / 4096) 0x20 0x13 write r.waiters s1))) ∧
  (∀ (e : XEnt) (va : Nat) (s : State), va / 2 ^ e.size = e.va →
    (s.xl.crucible.filter (fun x => !entMeets { e with pinned := s.xl.crucible.any (fun x => entMeets e x && x.pinned) } x)).length < 65536 →
    ∃ e', findEnt (cacheEnt e s).xl.crucible e.ctx va = some e' ∧ e'.ta = e.ta ∧ e'.size = e.size ∧ e'.rd = e.rd ∧ e'.wr = e.wr) ∧
  (∀ (gs : List (Waiter × Nat)) (g k va code sub ctx page : Nat) (wr : Bool) (s : State),
    (castingOf s (castingOfCourse s g k)).live = true → (castingOf s (castingOfCourse s g k)).ending = none →
    CastingEnds (faultEnd code sub g va) s (failAll ctx page code sub wr ((.course g k, va) :: gs) s) g k) ∧
  (∀ (group : Nat) (code : PriCode) (g : PriGroup) (s : State), s.powered = true →
    s.xl.pri.find? (fun g => decide (g.id = group)) = some g →
    let s1 := { s with xl := { s.xl with pri := s.xl.pri.filter (fun x => decide (x ≠ g)) } }
    exec (.priResponse group code) s = .next (retryIdle (if g.ignored then s1 else pageAnswer g code s1))) ∧
  (∀ (g : PriGroup) (s : State),
    let t := pageAnswer g .success s
    SameMemory s t ∧ (∀ w ∈ g.readers, ∃ r ∈ t.xl.ats, r.ctx = g.ctx ∧ r.page = g.page ∧ r.write = false ∧ r.retry = true ∧
      ∃ y ∈ r.waiters, y.1 = w.1) ∧
    (∀ w ∈ g.writers, ∃ r ∈ t.xl.ats, r.ctx = g.ctx ∧ r.page = g.page ∧ r.write = true ∧ r.retry = true ∧ ∃ y ∈ r.waiters, y.1 = w.1) ∧
    pageAnswer g .invalidRequest s =
      failAll g.ctx g.page 0x20 0x10 true g.writers (failAll g.ctx g.page 0x20 0x10 false g.readers s) ∧
    pageAnswer g .responseFailure s = failAll g.ctx g.page 0x20 0x11 true g.writers
      (failAll g.ctx g.page 0x20 0x11 false g.readers { s with xl := { s.xl with priStopped := true } })) ∧
  (∀ (s : State), s.xl.posted = [] → retryIdle s = s)


/-- R351 to R353: an INVALIDATE, or the host's own request while ATS is enabled and fewer than 32 wait, leaves no cached entry of its range,
context or of all; INVALIDATE_OUTBOUND notes the window requests of its windows that are out, INVALIDATE_INBOUND the requests that wait at
their target behind them; each ends once every access and publication that it found under way has ended and the posted writes before it are
complete.  That a message beyond the queue's depth waits is the model's choice (log entry 116). -/
def Obligations.InvalidationsForget : Prop :=
  (∀ (i : Instr) (q sc : Nat) (c : Cmd) (x : Scope) (s : State), Turn 5 q c s → invOk c = true → invScope c = sc →
    (i = .invalidateRange q ∧ sc = 1 ∧ x = ⟨false, invCtx c, fieldOf c.bytes 32 8, fieldOf c.bytes 32 8 + fieldOf c.bytes 40 8⟩ ∨
     i = .invalidateContext q ∧ sc = 2 ∧ x = ⟨false, invCtx c, 0, 2 ^ 64⟩ ∨ i = .invalidateAll q ∧ sc = 3 ∧ x = ⟨true, 0, 0, 0⟩) →
    Next i s (fun t => Forgotten x t ∧ (q, inFlight (started q c s) x (matchedEnts (started q c s) x)) ∈ t.xl.invals ∧
      ∃ m, headCmd t q = some m ∧ m.started = true)) ∧
  (∀ (q : Nat) (c : Cmd) (s : State), Turn 5 q c s → invOk c = true →
    let s1 := started q c s
    let noted := fun (ns : List Flight) => { s1 with xl := { s1.xl with invals := s1.xl.invals ++ [(q, ns)] } }
    (invScope c = 4 → exec (.invalidateOutbound q) s = .next (noted ((s1.xl.wins.filter (fun w =>
      w.back.isNone && decide (invFirst c ≤ w.win) && decide (w.win < invFirst c + invCount c))).map (fun w => .win w.tag)))) ∧
    (invScope c = 5 → ∃ ns, exec (.invalidateInbound q) s = .next (noted ns) ∧ ∀ (p : Nat) (y : Packet),
      Flight.inbound p y ∈ ns ↔ p < 24 ∧ y ∈ (portOf s1 p).rx ∧ invFirst c ≤ y.iwin % 256 ∧ y.iwin % 256 < invFirst c + invCount c)) ∧
  (∀ (q : Nat) (ns : List Flight) (s s1 : State), s.powered = true →
    s.xl.invals.find? (fun x => decide (x.1 = q)) = some (q, ns) →
    (landed q ns s = (s1, false) → exec (.invalidateWaitDone q) s = .next s1) ∧
    (∀ c, landed q ns s = (s1, true) → q ≠ 512 → Runs 5 q c s → exec (.invalidateWaitDone q) s = .next (endCommand q okEnd 0 s1)) ∧
    (landed q ns s = (s1, true) → q = 512 → Next (.invalidateWaitDone q) s (fun t =>
      t.xl.invDone = s.xl.invDone + 1 ∧ SameMemory s t))) ∧
  (∀ (q : Nat) (ns : List Flight) (s : State), s.xl.dirty.contains (.inval q) = false →
    landed q ns s = (s, ns.all (Flight.over s))) ∧
  (∀ (ctx va n : Nat) (s : State), s.powered = true →
    let m := max n 12
    let x : Scope := ⟨false, ctx, va / 2 ^ m * 2 ^ m, va / 2 ^ m * 2 ^ m + 2 ^ m⟩
    (s.hpt.ats = true → (s.xl.invals.filter (fun x => decide (x.1 = 512))).length < 32 →
      Next (.atsInvalidateRequest ctx va n) s (fun t => Forgotten x t ∧
        (t.xl.invDone = s.xl.invDone + 1 ∨ (512, inFlight s x (matchedEnts s x)) ∈ t.xl.invals))) ∧
    (s.hpt.ats = false ∨ 32 ≤ (s.xl.invals.filter (fun x => decide (x.1 = 512))).length →
      exec (.atsInvalidateRequest ctx va n) s = .next s))


/-- R344, R345, R347: TRANSLATE and PIN end DONE when every page of the range has its entry, stay where a page waits, and end where one
fails; UNPIN clears PINNED in the entries that lie in the range, in every cache; PRELOAD and MIGRATE place their next chunk on the lowest free
sph channel, and end DONE when every chunk is complete. -/
def Obligations.AdviceAndMigration : Prop :=
  (∀ (i : Instr) (f : Nat → State → State × Got Unit) (q n : Nat) (r : Got Unit) (c : Cmd) (s0 s s1 : State),
    GoesOnIn 4 q advOk c s0 s →
    (i = .translate q ∧ advOp c = 1 ∧ f = advTranslate q (advWrite c)) ∨ (i = .pin q ∧ advOp c = 2 ∧ f = advPin q (advWrite c)) →
    advPages f (advAddr c) (advBytes c / 4096 - c.stage) c.stage s = (s1, n, r) →
    exec i s0 = .next (match r with
      | .ok () => endCommand q okEnd 0 s1
      | .wait => setHead s1 q { c with stage := n }
      | .fail e => endCommand q e 0 s1)) ∧
  (∀ (q va : Nat) (wr : Bool) (s s1 : State), advPin q wr va s = (s1, .ok ()) →
    ∃ e ∈ s1.xl.crucible, entCovers (ctxOfQueue s1 q) va e = true ∧ e.pinned = true) ∧
  (∀ (q : Nat) (c : Cmd) (s0 s : State), GoesOnIn 4 q advOk c s0 s → advOp c = 3 →
    exec (.unpin q) s0 = .next (endCommand q okEnd 0 (unpinRange (ctxOfQueue s q) (advAddr c) (advBytes c) s))) ∧
  (∀ (ctx lo n : Nat) (s : State),
    let t := unpinRange ctx lo n s
    let inside := fun (e : XEnt) => e.ctx = ctx ∧ lo ≤ e.va * 2 ^ e.size ∧ (e.va + 1) * 2 ^ e.size ≤ lo + n
    t = { s with xl := { s.xl with crucible := t.xl.crucible, cluster := t.xl.cluster } } ∧
    t.xl.crucible.length = s.xl.crucible.length ∧ (∀ e ∈ t.xl.crucible, inside e → e.pinned = false) ∧
    (∀ x ∈ t.xl.cluster, ∀ e ∈ x.2, inside e → e.pinned = false) ∧ ∀ e ∈ s.xl.crucible, ¬inside e → e ∈ t.xl.crucible) ∧
  (∀ (q : Nat) (c : Cmd) (s0 s : State), GoesOnIn 3 q migOk c s0 s → exec (.migrate q) s0 = .next (migIssue q c s)) ∧
  (∀ (q : Nat) (c : Cmd) (s0 s : State), GoesOnIn 4 q advOk c s0 s → advOp c = 4 →
    let issue := chunkIssue q (advBytes c) (fun ch => chunkDesc (advAddr c) 0 (advHint c) ch true)
    let moved := (chunkChans (issue s) q).foldl (fun s ch => if (chunkChans s q).contains ch then chunkMove ch s else s) (issue s)
    (advBytes c ≤ chunkBytes * c.stage → chunkChans s q = [] → (∀ m ∈ (queueOf s q).fetched.drop 1, m.started = false) →
      exec (.preload q) s0 = .next (endCommand q okEnd 0 (setHead s q c))) ∧
    (∀ m m', headCmd (issue s) q = some m → cSeq m = cSeq c → m.started = true → headCmd moved q = some m' → m'.started = true →
      m'.upd = m.upd → cOp m' = 4 → exec (.preload q) s0 = .next (issue moved))) ∧
  (∀ (q total ch : Nat) (d : Nat → List Byte) (c : Cmd) (s : State), headCmd s q = some c → isOn s (sprStopped 16) = false → ch < 16 →
    chanFree s 16 ch = true → (∀ x, x < ch → chanFree s 16 x = false) → chunkBytes * c.stage < total →
    let t := chunkIssue q total d s
    chanOf t 16 ch = ({ phase := .running, desc := d ch, total, starter := 3, course := q, ctx := ctxOfQueue s q, pos := c.stage, leader := 16 } : Chan) ∧
    isOn t (sprBusy 16 ch) = true ∧ ∃ m, headCmd t q = some m ∧ c.stage < m.stage) ∧
  (∀ (q total : Nat) (d : Nat → List Byte) (c : Cmd) (s : State), headCmd s q = some c → total ≤ chunkBytes * c.stage →
    chunkChans s q = [] → chunkIssue q total d s = endCommand q okEnd 0 (setHead s q c)) ∧
  (∀ (q chunk ch : Nat) (c : Cmd) (s s1 : State), Runs 3 q c s →
    (chunkChans s q).find? (fun ch => decide ((chanOf s 16 ch).pos = chunk)) = some ch →
    (∀ s2, copyRun 16 ch chunkBytes s = (s1, .ok) → hostFlush (.chan 16 ch) s1 = (s2, true) →
      winsOut s2 (fun w => decide (w = .chan 16 ch)) = false → (chanOf s2 16 ch).phase ≠ .free → (chanOf s2 16 ch).starter = 3 →
      isOn s2 (sprStopped 16) = false → headCmd s2 q = some c →
      exec (.migrateChunkComplete q chunk) s = .next (migIssue q c (releaseChan 16 ch okEnd s2))) ∧
    (copyRun 16 ch chunkBytes s = (s1, .wait) → (chunkChans s1 q).contains ch = true →
      exec (.migrateChunkComplete q chunk) s = .next s1))


/-- R358, R364, R366 to R368, R374, R377, R378: a GO, by the host on the channels that are its own or by a firmware processor on the
other two, starts a transfer on every channel that its descriptor needs; on a busy channel it is lost, a bad descriptor ends at once,
one that names a stopped engine waits, and one that the host may not make sets PRIV_ERR. STOP marks every stripe of a host's transfer,
and the kill, 2,500 ticks later, ends it. A submit line's claim starts its transfer and reads 0, or says why not. -/
def Obligations.SprueTransfersStartAndStop : Prop :=
  (∀ (fw : Bool) (e ch : Nat) (s : State), s.powered = true → e < 17 → ch < chanCount e →
    ((fw = false ∧ 16 ≤ e ∧ 2 ≤ ch ∧ InTurn (.go fw e ch) s) ∨ (fw = true ∧ ch < 2)) →
    let d := (goChan s fw e ch).desc
    let good := descOk e ch (if fw then 3 else 0) d
    d = regDesc s e ch ∧
    (chanFree s e ch = false → exec (.go fw e ch) s = .next (setOn s (sprGoLost e ch))) ∧
    (chanFree s e ch = true → good = true → anyStopped s d = false → chansFree s ch d = true →
      Next (.go fw e ch) s (fun t => SameMemory s t ∧ ∀ x ∈ dEngines d, (chanOf t x ch).phase = .running ∧ (chanOf t x ch).desc = d ∧
        (chanOf t x ch).starter = (if fw then 4 else 0) ∧ (chanOf t x ch).done = 0 ∧ isOn t (sprBusy x ch) = true)) ∧
    (chanFree s e ch = true → good = true → anyStopped s d = false → chansFree s ch d = false →
      exec (.go fw e ch) s = .next (setOn s (sprGoLost e ch))) ∧
    (chanFree s e ch = true → good = true → anyStopped s d = true →
      Next (.go fw e ch) s (fun t => SameMemory s t ∧ (chanOf t e ch).phase = .claimed ∧ (chanOf t e ch).desc = d ∧
        isOn t (sprBusy e ch) = true)) ∧
    (chanFree s e ch = true → good = false → Next (.go fw e ch) s (fun t =>
      chanFree t e ch = true ∧ getF t (sprLastCode e ch) = 0x22 ∧ getF t (sprLastSub e ch) = 0x11))) ∧
  (∀ (fw : Bool) (e ch : Nat) (s : State), s.powered = true → (17 ≤ e ∨ chanCount e ≤ ch ∨ (fw = true ∧ 2 ≤ ch)) →
    (fw = true ∨ InTurn (.go fw e ch) s) → exec (.go fw e ch) s = .next s) ∧
  (∀ (e ch : Nat) (s : State), s.powered = true → e < 17 → ch < chanCount e → (e < 16 ∨ ch < 2) →
    (InTurn (.go false e ch) s → exec (.go false e ch) s = .next (setOn s (sprPrivErr e))) ∧
    (InTurn (.stop e ch) s → exec (.stop e ch) s = .next (setOn s (sprPrivErr e)))) ∧
  (∀ (ch : Nat) (s : State), s.powered = true → 2 ≤ ch → ch < 16 → InTurn (.stop 16 ch) s →
    let c := chanOf s 16 ch
    ((c.phase = .free ∨ c.starter ≠ 0) → exec (.stop 16 ch) s = .next s) ∧
    (c.phase ≠ .free → c.starter = 0 → Next (.stop 16 ch) s (fun t => SameMemory s t ∧
      ∀ k ∈ (if dStripe c.desc = 0 then [16] else dEngines c.desc), (chanOf s k ch).phase ≠ .free → (chanOf s k ch).desc = c.desc →
        (chanOf t k ch).stopping = true ∧ (chanOf t k ch).phase = (chanOf s k ch).phase ∧
        ((chanOf s k ch).stopping = false → (chanOf t k ch).stopAt = s.aoTick)))) ∧
  (∀ (e ch : Nat) (s : State), s.powered = true → e < 17 → ch < chanCount e → (chanOf s e ch).stopping = true →
    (chanOf s e ch).starter = 0 → (chanOf s e ch).phase ≠ .free → (chanOf s e ch).phase ≠ .wordDone →
    (chanOf s e ch).phase ≠ .publishing → chanOut (chanOf s e ch) = false →
    (dFlag (chanOf s e ch).desc 1 = true → e ∈ dEngines (chanOf s e ch).desc) →
    Next (.hostStopKill e ch) s (fun t => t.aoTick = max s.aoTick ((chanOf s e ch).stopAt + 2500) ∧
      ((dFlag (chanOf s e ch).desc 1 = true ∨ dStripe (chanOf s e ch).desc = 0 ∨ (chanOf s e ch).leader ≠ e) →
        chanOf t e ch = {} ∧ getF t (sprLastCode e ch) = 0x11 ∧ getF t (sprLastSub e ch) = 0x11 ∧ isOn t (sprBusy e ch) = false) ∧
      (dFlag (chanOf s e ch).desc 1 = false → dStripe (chanOf s e ch).desc ≠ 0 → (chanOf s e ch).leader = e →
        (chanOf t e ch).phase = .wordDone))) ∧
  (∀ (cl ch : Nat) (c : LineClaim) (s : State), s.powered = true → cl < 16 → 2 ≤ ch → ch < 8 → isOn s (sprStopped cl) = false →
    c.core < 12 → claimReady s (12 * cl + c.core) c.slot c.lane c.dst = true →
    let d := rdList s.spr.staged (submitAt cl ch c.core) 64
    (descOk cl ch 2 d = true → cmemFits s (12 * cl + c.core) c.slot d = true → (tget [] s.spr.waiting cl).contains ch = false →
      chanFree s cl ch = true → chansFree s ch d = true → Next (.submitGo cl ch [c]) s (fun t =>
        WordGiven (12 * cl + c.core) c.slot c.lane c.dst 0 s t ∧ SameMemory s t ∧
        ∀ x ∈ dEngines d, (chanOf t x ch).phase = .running ∧ (chanOf t x ch).desc = d ∧ (chanOf t x ch).starter = 2)) ∧
    (descOk cl ch 2 d = true → cmemFits s (12 * cl + c.core) c.slot d = true →
      ((tget [] s.spr.waiting cl).contains ch = true ∨ chanFree s cl ch = false ∨ chansFree s ch d = false) →
      Next (.submitGo cl ch [c]) s (fun t => WordGiven (12 * cl + c.core) c.slot c.lane c.dst (claimWord 0x61 0x14 0 0) s t ∧
        t.spr = s.spr)) ∧
    (descOk cl ch 2 d = false → Next (.submitGo cl ch [c]) s
      (CastingEnds (protEnd 0x11 (agEngine cl 6) 0) s · (12 * cl + c.core) c.slot)) ∧
    (descOk cl ch 2 d = true → cmemFits s (12 * cl + c.core) c.slot d = false → Next (.submitGo cl ch [c]) s
      (CastingEnds (protEnd 0x14 (12 * cl + c.core) 0) s · (12 * cl + c.core) c.slot)))


/-- R326, R327, R371 to R377: a transfer whose bytes have all been moved, and whose writes are complete at their endpoints, ends OK, with
its semaphore; a transactional one stages its whole source before any line is written; a gang whose stripes have all staged begins to
lock together. A channel's commit locks one line at a time in the lock order, is committed by the last grant, changes no memory before
its last line, and its end releases every lock; LOCK_TO before that makes a lone transfer read its source again and ends a gang. A
leader's word 0 follows the last stripe; an error response stops the engine until STOPPED clears, and a start that waited for that begins
then or is lost. -/
def Obligations.SprueTransfersComplete : Prop :=
  (∀ (e ch : Nat) (s s1 s2 : State), s.powered = true → e < 17 → ch < chanCount e → isOn s (sprStopped e) = false →
    (chanOf s e ch).phase = .running → (chanOf s e ch).starter ≠ 3 →
    ((chanOut (chanOf s e ch) = true ∧ s1 = s) ∨
      (chanOut (chanOf s e ch) = false ∧ (chanOf s e ch).stopping = false ∧ transactional (chanOf s e ch).desc = false ∧
        copyRun e ch (stripeBytes (chanOf s e ch) - (chanOf s e ch).done) s = (s1, .ok))) →
    hostFlush (.chan e ch) s1 = (s2, true) → winsOut s2 (fun w => decide (w = .chan e ch)) = false →
    (chanOf s2 e ch).phase ≠ .free → (chanOf s2 e ch).starter ≠ 3 →
    let c := chanOf s2 e ch
    Next (.transferComplete e ch) s (fun t =>
      (dStripe c.desc = 0 ∨ c.leader ≠ e → chanOf t e ch = {} ∧ getF t (sprLastCode e ch) = 0 ∧ isOn t (sprBusy e ch) = false) ∧
      (dStripe c.desc = 0 → dFlag c.desc 2 = true → semaOf t (dSem c.desc) = (semaOf s2 (dSem c.desc) + dSemValue c.desc) % 2 ^ 32) ∧
      (dStripe c.desc ≠ 0 → (chanOf s2 c.leader ch).phase ≠ .free → c.stripe < (chanOf s2 c.leader ch).results.length →
        (chanOf t c.leader ch).results[c.stripe]? = some (some okEnd)) ∧
      (dStripe c.desc ≠ 0 → c.leader = e → (chanOf t e ch).phase = .wordDone))) ∧
  (∀ (e ch : Nat) (ls : List LadleLine) (s s1 : State), s.powered = true → isOn s (sprStopped e) = false →
    (chanOf s e ch).stopping = false → (chanOf s e ch).phase = .running → transactional (chanOf s e ch).desc = true →
    (chanOf s e ch).done = 0 → stageRun e ch (chanAccess s e ch) (stripeBytes (chanOf s e ch)) 0 [] s = (s1, .ok ls) →
    Next (.transactionalSourceRead e ch) s (fun t => chanOf t e ch = { chanOf s1 e ch with phase := .staged, ladle := ls } ∧
      SameMemory s1 t)) ∧
  (∀ (e ch : Nat) (s : State), s.powered = true → dFlag (chanOf s e ch).desc 1 = true → (chanOf s e ch).leader = e →
    (chanOf s e ch).phase = .staged → (∀ k ∈ dEngines (chanOf s e ch).desc, (chanOf s k ch).phase = .staged ∧
      (chanOf s k ch).desc = (chanOf s e ch).desc ∧ (chanOf s k ch).stopping = false) →
    ((chanOf s e ch).aborts < 8 ∨ holdsToken s (chanAgent e ch) = true → tokenBars s (chanAgent e ch) = false →
      Next (.gangCommit e ch) s (fun t => t = setChan s e ch { chanOf s e ch with phase := .locking })) ∧
    (8 ≤ (chanOf s e ch).aborts → holdsToken s (chanAgent e ch) = false →
      Next (.gangCommit e ch) s (fun t => SameMemory s t ∧ t.spr = s.spr ∧ ∃ n, (chanAgent e ch, n) ∈ t.tokens))) ∧
  (∀ (e ch k : Nat) (x : LadleLine) (s : State), s.powered = true → e < 17 → ch < 32 → (chanOf s e ch).stopping = false →
    (chanOf s e ch).phase = .locking → (chanOf s e ch).asked = none →
    firstLine (gangLines s e ch (fun y => !y.locked)) = some (k, x) →
    lineBusy s (realLine k x.line) (some (chanAgent e ch)) none none = false →
    (realLine k x.line < 2 ^ 57 ∨ dirLive s (realLine k x.line) = true) →
    Next (.lockRequest (chanAgent e ch)) s (fun t => (txnOf t (realLine k x.line)).locked = some (chanAgent e ch) ∧
      (chanOf t e ch).asked = some (k, x.line) ∧ SameMemory s t)) ∧
  (∀ (e ch k line : Nat) (s : State), s.powered = true → e < 17 → ch < 32 → (chanOf s e ch).phase = .locking →
    (chanOf s e ch).asked = some (k, line) →
    ((∀ x ∈ (chanOf s k ch).ladle, x.line = line → stagedPoison s k x = false) →
      Next (.lockGrant (chanAgent e ch)) s (fun t => t.mm = s.mm ∧ (chanOf t e ch).asked = none ∧
        (chanOf t k ch).ladle = (chanOf s k ch).ladle.map (fun x => if x.line = line then { x with locked := true } else x) ∧
        (gangLines t e ch (fun y => !y.locked) = [] → ∀ j ∈ gangOf s e ch, (chanOf t j ch).phase = .publishing) ∧
        (gangLines t e ch (fun y => !y.locked) ≠ [] → (chanOf t e ch).phase = .locking))) ∧
    ((∃ x ∈ (chanOf s e ch).ladle, x.line = line ∧ stagedPoison s e x = true) → k = e → dFlag (chanOf s e ch).desc 1 = false →
      dStripe (chanOf s e ch).desc = 0 → (chanOf s e ch).starter ≠ 3 → ch < 16 →
      Next (.lockGrant (chanAgent e ch)) s (fun t => chanOf t e ch = {} ∧ getF t (sprLastCode e ch) = 0x50 ∧
        getF t (sprLastSub e ch) = 7 ∧ ∀ l, (txnOf t l).locked ≠ some (chanAgent e ch)))) ∧
  (∀ (e ch k : Nat) (x : LadleLine) (s : State), s.powered = true → e < 17 → ch < 32 → (chanOf s e ch).phase = .publishing →
    firstLine (gangLines s e ch (fun y => !y.merged)) = some (k, x) →
    let s1 := markLine k ch x.line (fun y => { y with merged := true }) s
    Next (.pourPublish (chanAgent e ch)) s (fun t =>
      (gangLines s1 e ch (fun y => !y.merged) ≠ [] → t = s1) ∧
      (gangLines s1 e ch (fun y => !y.merged) = [] → t = asOwner (chanOwner s1 e ch) (fun s =>
        (gangLines s e ch (fun _ => true)).foldl (fun s y => mergeAt y.1 none y.2 s) s) s1))) ∧
  (∀ (e ch : Nat) (s : State), s.powered = true → e < 17 → ch < 32 → (chanOf s e ch).phase = .publishing →
    gangLines s e ch (fun y => !y.merged) = [] →
    Next (.pourPublishDone (chanAgent e ch)) s (fun t => SameMemory s t ∧ (∀ l, (txnOf t l).locked ≠ some (chanAgent e ch)) ∧
      (∀ y ∈ t.tokens, y.1 ≠ chanAgent e ch) ∧ ∀ k ∈ gangOf s e ch, (∀ n, (chanOf s k ch).casting = some n → (castingOf s n).ending = none) →
        chanOf t k ch = { chanOf s k ch with phase := .running, ladle := [], asked := none, done := stripeBytes (chanOf s k ch) })) ∧
  (∀ (e ch : Nat) (s : State), s.powered = true → e < 17 → ch < 32 → (chanOf s e ch).phase = .locking →
    holdsToken s (chanAgent e ch) = false → gangLines s e ch (fun y => y.locked) ≠ [] →
    (dFlag (chanOf s e ch).desc 1 = false → Next (.lockTo (chanAgent e ch)) s (fun t => SameMemory s t ∧
      (∀ l, (txnOf t l).locked ≠ some (chanAgent e ch)) ∧ chanOf t e ch = { chanOf s e ch with
        phase := .running, ladle := [], asked := none, aborts := (chanOf s e ch).aborts + 1 })) ∧
    (dFlag (chanOf s e ch).desc 1 = true → e ∈ dEngines (chanOf s e ch).desc → Next (.lockTo (chanAgent e ch)) s (fun t =>
      (∀ l, (txnOf t l).locked ≠ some (chanAgent e ch)) ∧
      ∀ k ∈ dEngines (chanOf s e ch).desc, (chanOf s k ch).desc = (chanOf s e ch).desc → chanOf t k ch = {}))) ∧
  (∀ (e ch : Nat) (s : State), s.powered = true → e < 17 → ch < chanCount e → (chanOf s e ch).phase = .wordDone →
    (∀ r ∈ (chanOf s e ch).results, r.isSome = true) →
    Next (.leaderWord0 e ch) s (fun t => chanOf t e ch = {} ∧ isOn t (sprBusy e ch) = false ∧
      getF t (sprLastCode e ch) = (leaderEnd e (chanOf s e ch).results).1.code % 2 ^ 8 ∧
      (dFlag (chanOf s e ch).desc 2 = true → (leaderEnd e (chanOf s e ch).results).1.code = 0 →
        semaOf t (dSem (chanOf s e ch).desc) = (semaOf s (dSem (chanOf s e ch).desc) + dSemValue (chanOf s e ch).desc) % 2 ^ 32))) ∧
  (∀ (e ch code sub : Nat) (write : Bool) (s : State), s.powered = true → e < 17 → ch < 16 → isOn s (sprStopped e) = false →
    ((chanOf s e ch).phase = .running ∨ (chanOf s e ch).phase = .staged ∨ (chanOf s e ch).phase = .locking) →
    busCode write code sub = true →
    (∀ k, (chanOf s e k).starter = 3 → e = 16 ∧ (chanOf s e k).course < 512) →
    (∀ k, dFlag (chanOf s e k).desc 1 = true → e ∈ dEngines (chanOf s e k).desc) →
    Next (.busErrorResponse e ch write code sub) s (fun t => isOn t (sprStopped e) = true ∧
      (∀ k, k < 16 → (chanOf t e k).phase ≠ .running ∧ (chanOf t e k).phase ≠ .staged ∧ (chanOf t e k).phase ≠ .locking) ∧
      (dFlag (chanOf s e ch).desc 1 = false → dStripe (chanOf s e ch).desc = 0 → (chanOf s e ch).starter ≠ 3 →
        getF t (sprLastCode e ch) = code ∧ getF t (sprLastSub e ch) = sub))) ∧
  (∀ (e : Nat) (s : State), s.powered = true → e < 17 → isOn s (sprStopped e) = true →
    Next (.engineStopClear e) s (fun t => SameMemory s t ∧ isOn t (sprStopped e) = false ∧
      ∀ k ch, k < 17 → ch < chanCount k → (chanOf s k ch).phase = .claimed → (chanOf s k ch).stopping = false →
        (∀ x ∈ dEngines (chanOf s k ch).desc, x ≠ e → isOn s (sprStopped x) = false) → k ∈ dEngines (chanOf s k ch).desc →
        ((∀ x ∈ dEngines (chanOf s k ch).desc, x ≠ k → chanFree s x ch = true ∧
            ∀ k' < 17, k' ≠ k → (chanOf s k' ch).phase = .claimed → x ∉ dEngines (chanOf s k' ch).desc) →
          (chanOf t k ch).phase = .running) ∧
        ((∃ x ∈ dEngines (chanOf s k ch).desc, x ≠ k ∧ (chanOf s x ch).phase ≠ .free ∧ (chanOf s x ch).phase ≠ .claimed) →
          (∀ k' < 17, k' ≠ k → (chanOf s k' ch).phase = .claimed → k ∉ dEngines (chanOf s k' ch).desc) →
          chanOf t k ch = {} ∧ isOn t (sprGoLost k ch) = true)))


/-- R199 to R202, R204, R205: the control core places the next command of its stream in the queue of its opcode; NOP, NODE_DONE, SEM_WAIT,
SEM_SIGNAL and END complete at the head of queue 0 with their effects, a command whose work is done and whose host writes are complete
leaves its queue, and a NOP whose header is bad ends the casting. -/
def Obligations.StreamsRunTheirCommands : Prop :=
  (∀ (cl k : Nat) (h bs : List Byte) (s s1 s2 : State), controlUp s cl = some k → (clusterOf s cl).stop = false →
    let a := castingAccess s k (.engine cl 0) (agEngine cl 7) (some cl)
    let at' := (clusterOf s cl).strBase + (clusterOf s cl).strPos
    let n := streamLen (fieldOf h 0 1)
    let qi := fieldOf h 0 1 / 16
    (clusterOf s cl).strPos + 16 ≤ (clusterOf s cl).strLen → readRange a none 2 at' 16 s = (s1, .ok h) →
    n ≠ 0 → fieldOf h 2 2 = n → (clusterOf s cl).strPos + n ≤ (clusterOf s cl).strLen → (streamQueue s1 cl qi).length < 16 →
    readRange a none 3 at' n s1 = (s2, .ok bs) →
    Next (.streamCommandPlace cl) s (fun t => (clusterOf t cl).strPos = (clusterOf s2 cl).strPos + n ∧
      streamQueue t cl qi = streamQueue s2 cl qi ++ [{ pos := (clusterOf s2 cl).strNum, bytes := bs }] ∧
      (clusterOf t cl).strNum = (clusterOf s2 cl).strNum + 1 ∧ (clusterOf t cl).stop = decide (fieldOf h 0 1 = 1) ∧
      (∀ q, q ≠ qi → streamQueue t cl q = streamQueue s2 cl q) ∧ SameMemory s2 t)) ∧
  (∀ (cl k : Nat) (s : State), controlUp s cl = some k → (clusterOf s cl).stop = false →
    (clusterOf s cl).strLen < (clusterOf s cl).strPos + 16 → openCmds s cl ≠ [] →
    exec (.streamCommandPlace cl) s = .next (setCluster s cl { clusterOf s cl with stop := true, bad := true })) ∧
  (∀ (cl k : Nat) (m : SCmd) (s : State), Heads cl 0 0 k m s → (clusterOf s cl).bad = false →
    Next (.nop cl) s (fun t => HeadLeft cl 0 s t ∧ SameMemory s t)) ∧
  (∀ (cl k : Nat) (m : SCmd) (s : State), Heads cl 0 1 k m s → (clusterOf s cl).bad = false →
    twf [] (clusterOf s cl).queues = true → (openCmds s cl).length = 1 →
    Next (.endStream cl) s (fun t => HeadLeft cl 0 s t ∧ (clusterOf t cl).ended = true ∧ SameMemory s t)) ∧
  (∀ (cl k : Nat) (m : SCmd) (s s1 s2 : State), Heads cl 0 2 k m s → (clusterOf s cl).bad = false →
    (openCmds s cl).any (fun x => decide (mNode x.2 = mNode m) && decide (x.2.pos < m.pos)) = false →
    coreWritesDone cl (atWork cl 0 k m s) = (s1, true) → runWatches cl k (mNode m) s1 = (s2, true) →
    Next (.nodeDone cl) s (fun t => HeadLeft cl 0 s t ∧ (tget 0 (castingOf t k).reports (mNode m)).testBit cl = true ∧
      ∀ n, n ≠ mNode m → tget 0 (castingOf t k).reports n = tget 0 (castingOf s k).reports n)) ∧
  (∀ (cl k : Nat) (m : SCmd) (s : State), Heads cl 0 3 k m s → (clusterOf s cl).bad = false → semBody m.bytes = true →
    (fieldOf m.bytes 20 4 ≤ semaOf s (fieldOf m.bytes 16 2) → Next (.semWait cl) s (fun t => HeadLeft cl 0 s t ∧ t.mm = s.mm)) ∧
    (semaOf s (fieldOf m.bytes 16 2) < fieldOf m.bytes 20 4 → Next (.semWait cl) s (fun t => HeadStays cl 0 s t ∧ t.mm = s.mm))) ∧
  (∀ (cl k : Nat) (m : SCmd) (s : State), Heads cl 0 4 k m s → (clusterOf s cl).bad = false → semBody m.bytes = true →
    Next (.semSignal cl) s (fun t => HeadLeft cl 0 s t ∧ SameMemory s t ∧
      ∀ i, semaOf t i = if i = fieldOf m.bytes 16 2 then (semaOf s i + fieldOf m.bytes 20 4) % 2 ^ 32 else semaOf s i)) ∧
  (∀ (cl k qi : Nat) (m m1 : SCmd) (s s1 s2 : State), controlUp s cl = some k → (streamQueue s cl qi).head? = some m →
    s1 = (if m.started then runRest cl qi k m s else s) → (streamQueue s1 cl qi).head? = some m1 →
    (m1.done = true ∨ (qi = 1 ∧ m1.started = true ∧ launchExited s1 cl m1 = true)) → hostFlush (.engine cl qi) s1 = (s2, true) →
    (clusterOf s2 cl).bad = false →
    Next (.engineCommandComplete cl qi) s (fun t => HeadLeft cl qi s2 t ∧ (¬(qi = 0 ∧ mOp m1 = 5) → t.mm = s2.mm))) ∧
  (∀ (cl k : Nat) (m : SCmd) (s : State), controlUp s cl = some k → (streamQueue s cl 0).head? = some m → mOp m = 0 →
    m.done = false → m.stopped = false → m.started = false → mayBegin s cl k m = true → headerGood s k m = false →
    exec (.nop cl) s = .next (failCasting k (protEnd 0x11 (agQueue cl 0) 0) s))

/-- R72, R76, R189, R194, R201, R204, R365, R367: TUNCFG starts once nothing earlier runs, takes the lines out of the ways that it turns to
scratch, and its completion sets the modes, locks and pools in one commit; CONSORTS clears the L1s of its cores and its consorts take
their places one by one; a SPRUE command starts its transfer when its channels are free, waits for its own channel, and else tries again.
A body that fails its check ends the casting. -/
def Obligations.StreamsConfigureLaunchAndCopy : Prop :=
  (∀ (cl k : Nat) (m : SCmd) (s : State), cl < 16 → Heads cl 0 5 k m s → tuncfgOk m.bytes = true →
    (openCmds s cl).any (fun x => decide (x.2.pos < m.pos)) = false →
    (∀ g ∈ coresOf cl, (coreOf s g).images = [] ∧ ∀ e ∈ (coreOf s g).consorts, e.2.live = true → e.2.casting ≠ k) →
    (∀ w ∈ toScratch s cl m.bytes, ∀ l ∈ wayLines s cl w, lineBusy s l none (some cl) none = false) →
    Next (.tuncfg cl) s (fun t => HeadStays cl 0 s t ∧ (∃ m', (streamQueue t cl 0).head? = some m' ∧ m'.done = true) ∧ SameMemory s t ∧
      (∀ w, w < 16 → isOn t (wayMode cl w) = isOn s (wayMode cl w)) ∧
      ∀ w ∈ toScratch s cl m.bytes, isOn t (wayConv cl w) = true ∧ isOn t (wayLock cl w) = false ∧
        ∀ l ∈ wayLines s cl w, lstateOf t cl l = .I)) ∧
  (∀ (cl k : Nat) (m : SCmd) (s s2 : State), cl < 16 → controlUp s cl = some k → (streamQueue s cl 0).head? = some m → mOp m = 5 →
    m.done = true → hostFlush (.engine cl 0) s = (s2, true) → (clusterOf s cl).bad = false →
    Next (.engineCommandComplete cl 0) s (fun t => HeadLeft cl 0 s t ∧ getF t (shdGen 0 cl) = (getF s (shdGen 0 cl) + 1) % 2 ^ 12 ∧
      (∀ w, w < 16 → isOn t (wayConv cl w) = false ∧
        isOn t (wayMode cl w) = (decide (w ≠ 0) && (fieldOf m.bytes 16 2).testBit w) ∧
        isOn t (wayLock cl w) = ((fieldOf m.bytes 18 2).testBit w && !(decide (w ≠ 0) && (fieldOf m.bytes 16 2).testBit w))) ∧
      ∀ p, p < 4 → let e := poolEntry m.bytes p
        isOn t (poolEnable cl p) = decide (e.2.2.2 % 2 = 1) ∧ (e.2.2.2 % 2 = 1 → getF t (poolFirst cl p) = e.1 % 2 ^ 4 ∧
          getF t (poolWays cl p) = (e.2.1 - 1) % 2 ^ 4 ∧ getF t (poolBlock cl p) = e.2.2.1 % 2 ^ 4))) ∧
  (∀ (cl k : Nat) (m : SCmd) (s : State), Begins cl 1 0x10 k m s → consortsOk m.bytes = true →
    Next (.consorts cl) s (fun t => HeadStays cl 1 s t ∧ (clusterOf t cl).nextCore = 0 ∧ t.mm = s.mm ∧
      ∀ g, coreOf t g = if g ∈ coresOf cl ∧ (lField m 28 2).testBit (g % 12) = true then
        { coreOf s g with l1 := [], miss := (coreOf s g).miss.map (fun x => { x with install := false, fresh := false }) }
        else coreOf s g)) ∧
  (∀ (cl k : Nat) (m : SCmd) (s : State), Begins cl 1 0x10 k m s → consortsOk m.bytes = false →
    exec (.consorts cl) s = .next (failCasting k (protEnd 0x11 (agQueue cl 1) 0) s)) ∧
  (∀ (cl k : Nat) (m : SCmd) (s : State), Begins cl 0 5 k m s → tuncfgMay s cl k m = true → tuncfgOk m.bytes = false →
    exec (.tuncfg cl) s = .next (failCasting k (protEnd 0x11 (agQueue cl 0) 0) s)) ∧
  (∀ (cl k g : Nat) (m : SCmd) (r : Room) (s : State), controlUp s cl = some k → readyIn s cl = [] →
    (streamQueue s cl 1).head? = some m → m.started = true → m.stopped = false → m.placed < lField m 16 4 →
    findCore s cl (lField m 28 2) (lField m 24 1) (lRegs m) (lGranules m) (bit (lField m 26 1) 0) = some (g, r) →
    (r.courses.map Prod.fst).Nodup →
    Next (.consortPlace cl) s (fun t => (streamQueue t cl 1).head? = some { m with placed := m.placed + 1 } ∧
      consortOf t g r.slot = ({ live := true, casting := k, pos := m.pos, index := m.placed, ra := lRegs m, ca := lGranules m,
                                harp := bit (lField m 26 1) 0, coreMask := lField m 28 2, base := r.base,
                                courses := r.courses.map Prod.fst } : Consort) ∧
      (∀ x ∈ r.courses.zip (List.range (lField m 24 1)), courseOf t g x.1.1 =
        { newCourse (lField m 0 8) (lField m 8 8) m.placed x.2 (lField m 24 1) g k (lGranules m) with
          live := true, consort := r.slot, regBase := x.1.2 }) ∧ t.mm = s.mm)) ∧
  (∀ (cl g : Nat) (m : SCmd) (r : Room) (s : State),
    findCore s cl (lField m 28 2) (lField m 24 1) (lRegs m) (lGranules m) (bit (lField m 26 1) 0) = some (g, r) →
    clOf g = cl ∧ (lField m 28 2).testBit (g % 12) = true ∧ r.courses.length = lField m 24 1 ∧ (r.courses.map Prod.fst).Nodup ∧
      ∀ x ∈ r.courses, x.1 < 48 ∧ ∀ e ∈ (coreOf s g).courses, e.1 ≠ x.1) ∧
  (∀ (cl k : Nat) (i : Instr) (m : SCmd) (s : State), (i = .sprue cl ∧ Begins cl 2 0x20 k m s ∧ sprueOk cl s m = none) ∨
      (i = .sprueClaimRetry cl ∧ Heads cl 2 0x20 k m s ∧ m.started = true ∧ m.mid = false) →
    let d := mDesc m
    let ch := dChannel d
    (chanFree s cl ch = true → anyStopped s d = false → chansFree s ch d = true → ch < 16 → Next i s (fun t =>
      (∃ m', (streamQueue t cl 2).head? = some m' ∧ m'.started = true ∧ m'.mid = true) ∧ tget [] t.spr.waiting cl = [] ∧
      t.mm = s.mm ∧ ∀ x ∈ dEngines d, (chanOf t x ch).phase = .running ∧ (chanOf t x ch).desc = d ∧ (chanOf t x ch).starter = 1 ∧
        (chanOf t x ch).casting = some k ∧ isOn t (sprBusy x ch) = true)) ∧
    (chanFree s cl ch = false ∨ anyStopped s d = true → Next i s (fun t => HeadStays cl 2 s t ∧ tget [] t.spr.waiting cl = [ch] ∧
      t.spr.chans = s.spr.chans ∧ t.mm = s.mm)) ∧
    (chanFree s cl ch = true → anyStopped s d = false → chansFree s ch d = false → Next i s (fun t => HeadStays cl 2 s t ∧
      t.spr = s.spr ∧ t.mm = s.mm))) ∧
  (∀ (cl k sub : Nat) (m : SCmd) (s : State), Begins cl 2 0x20 k m s → sprueOk cl s m = some sub →
    exec (.sprue cl) s = .next (failCasting k (protEnd sub (agQueue cl 2) 0) s))

/-- R224, R225, R561: a claim takes the lowest free block that is not the reserve, and its LD.V returns the block and its scratch offset; the
control core's takes the reserve; claims of one cycle are served by rank; RELEASE frees a claimed block, or sets POOL_ERR; a marker's
record enters the FIFO, or its LD.V says that it did not. -/
def Obligations.PoolsAndMarkers : Prop :=
  (∀ (cl p : Nat) (c : PoolClaim) (s : State), s.powered = true → cl < 16 → p < 4 → c.core < 12 →
    claimReady s (12 * cl + c.core) c.slot c.lane c.dst = true →
    (∀ blk, freeBlock s cl p = some blk → Next (.poolClaim cl p [c]) s (fun t =>
      WordGiven (12 * cl + c.core) c.slot c.lane c.dst (claimWord 0 0 blk (blockOff s cl p blk)) s t ∧
      (∀ x, blockClaimed t cl p x = (decide (x = blk) || blockClaimed s cl p x)) ∧ t.mm = s.mm)) ∧
    (freeBlock s cl p = none → Next (.poolClaim cl p [c]) s (fun t =>
      WordGiven (12 * cl + c.core) c.slot c.lane c.dst (claimWord 0x61 0x11 0 0) s t ∧ t.clusters = s.clusters ∧ t.mm = s.mm))) ∧
  (∀ (cl p slot lane dst : Nat) (s : State), s.powered = true → cl < 16 → p < 4 → 0 < poolBlocks s cl p →
    blockClaimed s cl p (poolBlocks s cl p - 1) = false → Next (.poolClaim cl p [⟨12, slot, lane, dst⟩]) s (fun t =>
      (∀ x, blockClaimed t cl p x = (decide (x = poolBlocks s cl p - 1) || blockClaimed s cl p x)) ∧ t.cores = s.cores)) ∧
  (∀ (cl p blk : Nat) (s : State), freeBlock s cl p = some blk →
    blk + 1 < poolBlocks s cl p ∧ blockClaimed s cl p blk = false ∧ ∀ x, x < blk → blockClaimed s cl p x = true) ∧
  (∀ (cl p a b blk : Nat) (s : State), a < 12 → b < 12 → a ≠ b → freeBlock s cl p = some blk →
    freeBlock (setBlock cl p blk true s) cl p = none →
    let rank := fun c => (c + 12 - getF s amxFret % 12) % 12
    let got := claimWord 0 0 blk (blockOff s cl p blk)
    let lost := claimWord 0x61 0x12 0 0
    (claimBlocks cl p [a, b] s).2 = if rank a < rank b then [got, lost] else [lost, got]) ∧
  (∀ (cl p agent blk : Nat) (s : State), s.powered = true → cl < 16 → p < 4 → (agent = agEngine cl 7 ∨ (agent < 192 ∧ agent / 12 = cl)) →
    (blk < poolBlocks s cl p → blockClaimed s cl p blk = true → Next (.poolRelease cl p agent blk) s (fun t =>
      ∀ x, blockClaimed t cl p x = (!decide (x = blk) && blockClaimed s cl p x))) ∧
    ((poolBlocks s cl p ≤ blk ∨ blockClaimed s cl p blk = false) →
      exec (.poolRelease cl p agent blk) s = .next (setOn s (poolErr cl p)))) ∧
  (∀ (cl : Nat) (c : LineClaim) (s : State), s.powered = true → cl < 16 → c.core < 12 →
    claimReady s (12 * cl + c.core) c.slot c.lane c.dst = true → traceTakes s cl 0x0A = true →
    ((traceUnit s cl).fifo.length < 255 → Next (.marker cl [c]) s (fun t =>
      WordGiven (12 * cl + c.core) c.slot c.lane c.dst 0 s t ∧ ∃ r, (traceUnit t cl).fifo = (traceUnit s cl).fifo ++ [r] ∧
        r.typ = 0x0A ∧ r.agent = 12 * cl + c.core ∧ r.ts = s.ts ∧ r.arg = tget 0 s.trc.markers (12 * cl + c.core) % 2 ^ 64)) ∧
    (255 ≤ (traceUnit s cl).fifo.length → Next (.marker cl [c]) s (fun t =>
      WordGiven (12 * cl + c.core) c.slot c.lane c.dst (claimWord 0x61 0x16 0 0) s t ∧
      (traceUnit t cl).fifo = (traceUnit s cl).fifo))) ∧
  (∀ (cl : Nat) (c : LineClaim) (s : State), s.powered = true → cl < 16 → c.core < 12 →
    claimReady s (12 * cl + c.core) c.slot c.lane c.dst = true → traceTakes s cl 0x0A = false →
    Next (.marker cl [c]) s (fun t => WordGiven (12 * cl + c.core) c.slot c.lane c.dst 0 s t ∧
      (traceUnit t cl).fifo = (traceUnit s cl).fifo))

/-- R10, R328, R330: a COMMIT whose EXPECT is GEN copies every shadow field of its group into the live set at once, raises GEN and clears
DIRTY, but for a field that hardware updates in that cycle, which keeps its value and sets WIGN; another COMMIT sets FAILED; one of a
group whose clock is stopped is PENDING until the clock runs; DISCARD copies the live set into the shadow. -/
def Obligations.ShadowGroupsCommit : Prop :=
  (∀ (gr n value : Nat) (i : Instr) (s : State), s.powered = true → groupOk gr n = true →
    (i = .commit gr n value ∧ value.testBit 12 = true ∧ value.testBit 13 = false ∧ value % 2 ^ 12 = getF s (shdGen gr n) ∧
        groupStopped s gr n = false ∧ (gr = 2 → InTurn i s)) ∨
      (i = .pendingCommitApply n ∧ gr = 0 ∧ isOn s (shdPending 0 n) = true ∧
        (groupStopped s 0 n = false ∨ tget 0 s.pmc.moving n = 3)) →
    Next i s (fun t =>
      (∀ f : FRef, inGroup gr n f.key = true → fieldOfKey f.key = some f →
        getF t f = if f.acc = .hwu ∧ meets s f = true then getF s f else getShadow s f % 2 ^ f.len) ∧
      (∀ f w : FRef, inGroup gr n f.key = true → fieldOfKey f.key = some f → f.acc = .hwu → meets s f = true → f ∈ groupFields gr n s →
        wignOf f.off = some w → isOn t w = true) ∧
      (∀ f : FRef, inGroup gr n f.key = false → f.key ≠ (shdGen gr n).key → f.key ≠ (shdDirty gr n).key →
        f.key ≠ (shdPending gr n).key → (∀ h w : FRef, inGroup gr n h.key = true → wignOf h.off = some w → f.key ≠ w.key) →
        getF t f = getF s f) ∧
      t.shadow = s.shadow ∧ getF t (shdGen gr n) = (getF s (shdGen gr n) + 1) % 2 ^ 12 ∧
      isOn t (shdDirty gr n) = false ∧ isOn t (shdPending gr n) = false ∧ t.mm = s.mm)) ∧
  (∀ (gr n value : Nat) (s : State), s.powered = true → groupOk gr n = true → value.testBit 12 = true →
    (gr = 2 → InTurn (.commit gr n value) s) →
    (value.testBit 13 = true ∨ value % 2 ^ 12 ≠ getF s (shdGen gr n) → exec (.commit gr n value) s = .next (setOn s (shdFailed gr n))) ∧
    (value.testBit 13 = false → value % 2 ^ 12 = getF s (shdGen gr n) → groupStopped s gr n = true →
      exec (.commit gr n value) s = .next (setOn s (shdPending gr n)))) ∧
  (∀ (gr n value : Nat) (s : State), s.powered = true → groupOk gr n = true → value.testBit 13 = true →
    (gr = 2 → InTurn (.discard gr n value) s) →
    (value.testBit 12 = true → exec (.discard gr n value) s = .next (setOn s (shdFailed gr n))) ∧
    (value.testBit 12 = false → Next (.discard gr n value) s (fun t =>
      (∀ f : FRef, inGroup gr n f.key = true → fieldOfKey f.key = some f → getShadow t f = getF s f % 2 ^ f.len) ∧
      (∀ key, inGroup gr n key = false → tget 0 t.shadow key = tget 0 s.shadow key) ∧ isOn t (shdDirty gr n) = false ∧
      (∀ f : FRef, f.key ≠ (shdDirty gr n).key → getF t f = getF s f) ∧ t.mm = s.mm)))


/-- R204, R205, R208, R209, R216, R218, R221, R222, R284: a TSE, UFE, SKE or FCE command performs one row a turn, once no line that it touches
is locked, and has done its work with the last; a row that reads poison, and a bad command, end the casting. Each output element of a
row is the function of the row's inputs, a SOFTMAX row leaves M, L, R and INV, the SKE's columns are the foremost of the row in order,
and the FCE's rows of a block are those of the inputs found at the block's first row. -/
def Obligations.ScratchEnginesCompute : Prop :=
  (∀ (i : Instr) (x : LocalEngine) (cl k : Nat) (m : SCmd) (s : State), localEngineOf i = some (x, cl) → Heads cl x.qi x.op k m s →
    (m.started = false → localCheck cl x s m = none) →
    (x.rows m.bytes ≤ m.unit → Next i s (fun t => WorkDone cl x.qi m.unit t ∧ SameMemory s t)) ∧
    (m.unit < x.rows m.bytes → (x.reads m.bytes ++ x.writes m.bytes).any (spanBusy s cl) = false →
      (∀ l, (x.rowReads m.bytes m.unit).findSome? (spanPoison s cl) = some l → Next i s (fun t =>
        (castingOf t k).ending = some (poisonEnd (atWork cl x.qi k m s) l))) ∧
      ((x.rowReads m.bytes m.unit).findSome? (spanPoison s cl) = none → Next i s (fun t =>
        let r := x.row cl m.bytes m.unit m.out (atWork cl x.qi k m s)
        t.mm.mem = r.1.mm.mem ∧ t.mm.host = s.mm.host ∧ ∃ m', (streamQueue t cl x.qi).head? = some m' ∧ m'.started = true ∧
          m'.unit = m.unit + 1 ∧ m'.out = r.2.1 ∧ m'.done = decide (x.rows m.bytes ≤ m.unit + 1))))) ∧
  (∀ (i : Instr) (x : LocalEngine) (cl k sub : Nat) (m : SCmd) (s : State), localEngineOf i = some (x, cl) → Begins cl x.qi x.op k m s →
    localCheck cl x s m = some sub → exec i s = .next (failCasting k (protEnd sub (agQueue cl x.qi) 0) s)) ∧
  (∀ (cl r c : Nat) (bs buf : List Byte) (s : State), c < tsCols bs →
    let w := codeBytes (tOfmt bs)
    let xs := tseInputs cl bs r s
    let t := (tseRow cl bs r buf s).1
    let out := fieldOf (scrBytes t cl ((tDst bs).off + r * (tDst bs).stride + c * w) w) 0 w
    (tSoft bs = false → ∃ x, xs[c]? = some x ∧ out = (fromFp32 (tOfmt bs) (tFlag bs 1) (tseFunc bs x.code).code).code % 2 ^ (8 * w)) ∧
    (tSoft bs = true →
      let st := (tState bs).off + 16 * r
      let d := (tDst bs).off + r * (tDst bs).stride
      let z := softmaxRow (xs.map (fun x => x.code)) (tFlag bs 2) (tFlag bs 3) (scrNat s cl st 4) (scrNat s cl (st + 4) 4)
      d + tsCols bs * w ≤ st ∨ st + 16 ≤ d →
      out = (fromFp32 (tOfmt bs) (tFlag bs 1) (nth 0 z.1 c)).code % 2 ^ (8 * w) ∧ scrNat t cl st 4 = z.2.1 % 2 ^ 32 ∧
        scrNat t cl (st + 4) 4 = z.2.2.1 % 2 ^ 32 ∧ scrNat t cl (st + 8) 4 = z.2.2.2.1 % 2 ^ 32 ∧
        ∀ v, z.2.2.2.2.1 = some v → scrNat t cl (st + 12) 4 = v % 2 ^ 32)) ∧
  (∀ (cl r c : Nat) (bs buf : List Byte) (s : State), c < uCols bs →
    scrBytes (ufeRow cl bs r buf s).1 cl (fieldOf bs 20 4 + (r * uCols bs + c) * uElem bs) (uElem bs) =
      match uFrom bs r c with
      | some o => scrBytes s cl (fieldOf bs 16 4 + o) (uElem bs)
      | none => List.replicate (uElem bs) 0) ∧
  (∀ (bs : List Byte) (i0 i1 i2 i3 : Nat), uUnfold bs = false → i1 < uExt bs (uPerm bs 1) → i2 < uExt bs (uPerm bs 2) →
    uFrom bs (i1 + uExt bs (uPerm bs 1) * (i2 + uExt bs (uPerm bs 2) * i3)) i0 =
      some (i0 * uStride bs (uPerm bs 0) + i1 * uStride bs (uPerm bs 1) + i2 * uStride bs (uPerm bs 2) + i3 * uStride bs (uPerm bs 3))) ∧
  (∀ (bs : List Byte) (oy ox kh kw ch : Nat), uUnfold bs = true → ox < uO bs 1 → kw < uK bs 1 → ch < uExt bs 2 →
    let y : Int := ((oy * uK bs 2 + kh * uK bs 4 : Nat) : Int) - (uK bs 6 : Int)
    let x : Int := ((ox * uK bs 3 + kw * uK bs 5 : Nat) : Int) - (uK bs 7 : Int)
    uFrom bs (oy * uO bs 1 + ox) ((kh * uK bs 1 + kw) * uExt bs 2 + ch) =
      if 0 ≤ y ∧ y < uExt bs 0 ∧ 0 ≤ x ∧ x < uExt bs 1 then some (((y.toNat * uExt bs 1 + x.toNat) * uExt bs 2 + ch) * uElem bs) else none) ∧
  (∀ (asc : Bool) (n : Nat) (vs : List FVal), n ≤ vs.length →
    let v := fun c => nth (.nan false) vs c
    let cs := topK asc n ((List.range vs.length).map (fun c => (c, v c)))
    let before := fun a b => ranksAhead asc (v b) (v a) = false ∧ (ranksAhead asc (v a) (v b) = false → a < b)
    cs.length = n ∧ (∀ c ∈ cs, c < vs.length) ∧ cs.Pairwise before ∧ ∀ c ∈ cs, ∀ d, d < vs.length → d ∉ cs → before c d) ∧
  (∀ (cl r : Nat) (bs buf : List Byte) (s : State), kFlag bs 1 = false →
    let w := codeBytes (kType bs)
    let f := plainFmt (kType bs)
    let raw := scrBytes s cl ((kSrc bs).off + r * (kSrc bs).stride) (kCols bs * w)
    let row := packRow 4 (topK (kFlag bs 0) (kK bs) ((List.range (kCols bs)).map (fun c =>
      (c, decodeF f (if kType bs = 4 then fieldOf raw (c * w) w else (flushCode f (kFlag bs 2) (fieldOf raw (c * w) w)).1)))))
    scrBytes (skeRow cl bs r buf s).1 cl ((kIdx bs).off + r * (kIdx bs).stride) row.length = row) ∧
  (∀ (cl r : Nat) (bs buf : List Byte) (s : State), (fOut bs).sc = 0 ∨ scFmt (fOut bs).sc ≠ 0 → r < fRows bs →
    let o := fOut bs
    let v := fun r c => (fElem s cl bs r c).1
    let codes := fun i => packElems (codeWidth o.code) ((outRow o v (fun c => i * fCols bs + c) (fRows bs) (fCols bs) i).map (fun z => z.code))
    let scales := fun i => match outScales o v (fRows bs) (fCols bs) i with | some (_, b) => b | none => []
    let n := (fDst bs).bytes
    let d := (fDst bs).off + r * (fDst bs).stride
    let e := fieldOf bs 40 4 + (if scDir o.sc = 2 then r else r / scSize o.sc) * fieldOf bs 44 4
    d + n ≤ e ∨ e + fScaleLen bs r ≤ d →
    (r % fGroup bs = 0 → scrBytes (fceRow cl bs r [] s).1 cl d n = codes r ∧
      scrBytes (fceRow cl bs r [] s).1 cl e (fScaleLen bs r) = scales r ∧
      (fceRow cl bs r [] s).2.1 = (List.range (min (fGroup bs) (fRows bs - r) - 1)).flatMap (fun i => codes (r + i + 1) ++ scales (r + i + 1))) ∧
    (r % fGroup bs ≠ 0 → n + fScaleLen bs r ≤ buf.length → scrBytes (fceRow cl bs r buf s).1 cl d n = buf.take n ∧
      scrBytes (fceRow cl bs r buf s).1 cl e (fScaleLen bs r) = (buf.drop n).take (fScaleLen bs r) ∧
      (fceRow cl bs r buf s).2.1 = buf.drop (n + fScaleLen bs r)))


/-- R205, R206, R211, R213, R214, R284, R403: an index of a GSE command moves its row between the table and scratch, gathered rows of a
group are summed, and a table row takes the sum of SCATTER_ADD; an index out of range counts and acts as a row of zeros, or with FAULT
ends the casting. A unit of a REDUCE writes the fold of its contributions, once its waits are met, and the last one then signals. A SEND
sends a unit's bytes line by line, and signals after the last; a scheduled one must match its entry. Each command has done its work with
its last unit; a bad one ends the casting. -/
def Obligations.TransferEnginesCompute : Prop :=
  (∀ (cl k : Nat) (m : SCmd) (s : State), GseReady cl k m s →
    let s0 := atWork cl 4 k m s
    let bs := m.bytes
    let idx := gIndex s cl bs m.unit
    let last := decide (gCount bs ≤ m.unit + 1)
    (InTable m idx → gMode bs = 0 → ∀ row s1,
      engReadAll (engAccess s0 cl 4 k) cl (gAge m) (gVa bs idx) (gRow bs) s0 = (s1, .ok row) →
      Next (.gse cl) s (fun t => HeadAt cl 4 (m.unit + 1) last t ∧
        scrBytes t cl ((gDst bs).off + m.unit * (gDst bs).stride) row.length = row)) ∧
    (InTable m idx → gMode bs = 2 → ∀ row s1,
      engReadAll (engAccess s0 cl 4 k) cl (gAge m) (gVa bs idx) (gRow bs) s0 = (s1, .ok row) →
      let acc := if m.unit % gGroup bs = 0 then canonRow row else packRow 4 ((addRows m.out row).map (fun z => z.code))
      Next (.gse cl) s (fun t => HeadAt cl 4 (m.unit + 1) last t ∧
        ((m.unit + 1) % gGroup bs = 0 → scrBytes t cl ((gDst bs).off + m.unit / gGroup bs * (gDst bs).stride) acc.length = acc) ∧
        ((m.unit + 1) % gGroup bs ≠ 0 → t.mm = s1.mm ∧ ∃ m', (streamQueue t cl 4).head? = some m' ∧ m'.out = acc))) ∧
    (InTable m idx → ∀ m0 m1 m2 s1 s2, (streamQueue s0 cl 4).head? = some m0 →
      let r0 := gseOpen cl m0 s0
      let m0' := ((streamQueue r0 cl 4).head?).getD m0
      RowComputed cl k m0' m1 r0 s1 →
      flushOut cl 4 (gAge m) (engAccess s1 cl 4 k) (gRow bs / 128 + 2) m1 s1 = (s2, .ok m2) →
      Next (.gse cl) s (fun t => HeadAt cl 4 (m.unit + 1) last t ∧ (gMode bs = 1 ∨ last = false → t.mm = s2.mm))) ∧
    (¬InTable m idx → bit (fieldOf bs 50 1) 0 = false →
      Next (.gse cl) s (fun t => HeadAt cl 4 (m.unit + 1) last t ∧
        getF t (engOob cl) = min (getF s (engOob cl) + 1) (2 ^ (engOob cl).len - 1) % 2 ^ (engOob cl).len ∧
        (gMode bs = 0 → scrBytes t cl ((gDst bs).off + m.unit * (gDst bs).stride) (gRow bs) = List.replicate (gRow bs) 0))) ∧
    (¬InTable m idx → bit (fieldOf bs 50 1) 0 = true → Next (.gse cl) s (fun t => (castingOf t k).ending =
      some (protEnd 0x1E (agQueue cl 4) (aperLoc cl (fieldOf bs 32 4 + m.unit * gIdx bs)))))) ∧
  (∀ (cl k : Nat) (m : SCmd) (s : State), Begins cl 5 0x50 k m s → reduceCheck cl s m = none → m.unit = 0 → m.mid = false →
    s.xl.dirty.contains (.engine cl 5) = false →
    let bs := m.bytes
    let n := rdLen bs
    let w := codeBytes (rOut bs)
    let cw := codeBytes (rCode bs)
    let dst := fieldOf bs 32 8
    let src := fun i => fieldOf (rEntry s cl bs i) 0 8 % 2 ^ 24
    n ≤ rUnit bs → rFlag bs 2 = false → runPoison s cl (rList bs).off (rList bs).bytes = none → runBusy s cl dst (n * w) = false →
    (rFlag bs 1 = true → runBusy s cl (dst % 2 ^ 24) (n * w) = false ∧ runPoison s cl (dst % 2 ^ 24) (n * w) = none) →
    (∀ i, i < rCount bs → let e := rEntry s cl bs i
      eGlobal e = false ∧ (bit (fieldOf e 8 2) 15 = true → fieldOf e 12 4 ≤ semaOf s (fieldOf e 8 2 % 2 ^ 14)) ∧
      runBusy s cl (src i) (n * cw) = false ∧ runPoison s cl (src i) (n * cw) = none) →
    Next (.reduce cl) s (fun t => WorkDone cl 5 1 t ∧
      (∀ j, j < n → fieldOf (scrBytes t cl (dst + j * w) w) 0 w = (rdElem bs
        ((if rFlag bs 1 then [rIn bs (rOut bs) (fieldOf (scrBytes s cl (dst % 2 ^ 24 + j * w) w) 0 w)] else []) ++
          (List.range (rCount bs)).map (fun i => rIn bs (rCode bs) (fieldOf (scrBytes s cl (src i + j * cw) cw) 0 cw)))).code % 2 ^ (8 * w)) ∧
      ∀ i, semaOf t i = if bit (fieldOf bs 30 2) 15 = true ∧ i = fieldOf bs 30 2 % 2 ^ 14
        then (semaOf s i + fieldOf bs 40 4) % 2 ^ 32 else semaOf s i)) ∧
  (∀ (cl k : Nat) (m m0 : SCmd) (s : State), ReduceReady cl k m s → (streamQueue (atWork cl 5 k m s) cl 5).head? = some m0 →
    let bs := m.bytes
    let u := m.unit * rUnit bs
    let n := min (rUnit bs) (rdLen bs - u)
    let w := codeBytes (rOut bs)
    let da := fieldOf bs 32 8 + u * w
    let last := decide (rdLen bs ≤ (m.unit + 1) * rUnit bs)
    let p := passWaits cl (rCount bs - m.placed) (m0, atWork cl 5 k m s)
    let a := engAccess p.2 cl 5 k
    ∀ xs d s2 s3 s4 s6 s7 m2, rOperands a cl bs u n p.2 = (s2, .ok xs) →
      (if rFlag bs 1 then rOperand a cl (rFlag bs 2) da (n * w) s2 else (s2, .ok [])) = (s3, .ok d) →
      (if rFlag bs 2 then pagesReady a da (n * w) s3 else (s3, .ok ())) = (s4, .ok ()) →
      let zs := folded bs n d xs
      let m1 := { p.1 with mid := true, out := packRow w (zs.map (fun z => z.code)), outVa := da }
      let s5 := setHeadCmd cl 5 m1 (engFlags cl 2 (resFlags zs) s4)
      ((rFlag bs 2 = true ∧ flushOut cl 5 1 (engAccess s5 cl 5 k) 40 m1 s5 = (s6, .ok m2)) ∨
        (rFlag bs 2 = false ∧ runBusy s5 cl da (n * w) = false ∧ s6 = scrPut cl da m1.out s5)) →
      (if last then hostFlush (.engine cl 5) s6 else (s6, true)) = (s7, true) →
      Next (.reduce cl) s (fun t => HeadAt cl 5 (m.unit + 1) last t ∧ SameMemory s6 t ∧
        ∀ i, semaOf t i = if last = true ∧ bit (fieldOf bs 30 2) 15 = true ∧ i = fieldOf bs 30 2 % 2 ^ 14
          then (semaOf s i + fieldOf bs 40 4) % 2 ^ 32 else semaOf s i)) ∧
  (∀ (cl k : Nat) (m : SCmd) (s : State), Heads cl 5 0x50 k m s → (m.started = false → reduceCheck cl s m = none) → m.mid = false →
    runPoison s cl (rList m.bytes).off (rList m.bytes).bytes = none → m.placed < rCount m.bytes →
    let e := rEntry s cl m.bytes m.placed
    bit (fieldOf e 8 2) 15 = true → semaOf s (fieldOf e 8 2 % 2 ^ 14) < fieldOf e 12 4 →
    Next (.reduce cl) s (fun t => HeadAt cl 5 m.unit false t ∧ SameMemory s t)) ∧
  (∀ (cl k : Nat) (m m0 : SCmd) (s s1 s2 : State), SendReady cl k m s → (streamQueue (atWork cl 5 k m s) cl 5).head? = some m0 →
    m.mid = false → let u := 4096 * m.unit
    let n := min 4096 (sBytes m.bytes - u)
    let src := fieldOf m.bytes 16 4 + u
    let s0 := atWork cl 5 k m s
    runBusy s cl src n = false → runPoison s cl src n = none → 0 < n →
    pagesReady (engAccess s0 cl 5 k) (sDst m.bytes + u) n s0 = (s1, .ok ()) →
    let m1 := { m0 with mid := true, out := scrBytes s1 cl src n, outVa := sDst m.bytes + u }
    sendLine cl k m1 m1.outVa (m1.out.take (min n (128 - m1.outVa % 128))) (setHeadCmd cl 5 m1 s1) = (s2, .wait) →
    Next (.send cl) s (fun t => (streamQueue t cl 5).head? = some m1)) ∧
  (∀ (cl k : Nat) (m : SCmd) (s s1 s3 : State), SendReady cl k m s → m.started = true → m.mid = true →
    (m.out = [] ∧ s1 = s ∨ m.out ≠ [] ∧ m.out.length ≤ 128 - m.outVa % 128 ∧ sendLine cl k m m.outVa m.out s = (s1, .ok ())) →
    let m1 := { m with out := [], outVa := m.outVa + m.out.length }
    let s2 := if m.out = [] then s else setHeadCmd cl 5 m1 (dropWin (.engine cl 5) m.outVa s1)
    (4096 * (m.unit + 1) < sBytes m.bytes → Next (.send cl) s (fun t => HeadAt cl 5 (m.unit + 1) false t ∧ t.mm = s2.mm)) ∧
    (sBytes m.bytes ≤ 4096 * (m.unit + 1) → sendSignal cl k (if m.out = [] then m else m1) s2 = (s3, true) →
      Next (.send cl) s (fun t => HeadAt cl 5 (m.unit + 1) true t ∧ t.mm = s3.mm))) ∧
  (∀ (cl k w off ta : Nat) (m : SCmd) (s s1 : State), Heads cl 5 0x51 k m s → m.started = true → mFret m ≠ 0xFFFFFFFF → m.placed = 0 →
    translate (engAccess s cl 5 k) (sDst m.bytes) true s = (s1, .ok ta) → targetOf s1 ta = .win w off →
    ∀ dev iwin ioff, windowOf s1 w off = some (dev, iwin, ioff) → sendEntry s1 cl k dev m = none →
    exec (.send cl) s = .next (failCasting k (protEnd 0x26 (agQueue cl 5) 0) s1)) ∧
  (∀ (cl k sub : Nat) (m : SCmd) (s : State),
    (Begins cl 4 0x40 k m s → gseCheck cl s m = some sub → exec (.gse cl) s = .next (failCasting k (protEnd sub (agQueue cl 4) 0) s)) ∧
    (Begins cl 5 0x50 k m s → reduceCheck cl s m = some sub → exec (.reduce cl) s = .next (failCasting k (protEnd sub (agQueue cl 5) 0) s)) ∧
    (Begins cl 5 0x51 k m s → sendCheck cl s m = some sub → exec (.send cl) s = .next (failCasting k (protEnd sub (agQueue cl 5) 0) s))) ∧
  (∀ (bs : List Byte) (a b : Nat), rdType bs = 3 → fieldOf bs 22 1 = 0 → (rStep bs a b).code = (a + b) % 2 ^ 32) ∧
  (∀ (bs : List Byte) (a b : Nat), rdType bs = 3 → a < 2 ^ 32 → b < 2 ^ 32 → fieldOf bs 22 1 = 1 ∨ fieldOf bs 22 1 = 2 →
    sext 32 (rStep bs a b).code = if fieldOf bs 22 1 = 1 then max (sext 32 a) (sext 32 b) else min (sext 32 a) (sext 32 b))


/-- R234, R266, R269 to R274, R279, R281, R285 to R287: a request that finds its line's home free has its effect at once where no other
holder must give way: RD_SHR gives E, or F or S beside other sharers, and the host no more than S; RD_OWN and UPG give M; E and M begin
the peg time; RD_CUR changes no state; a full or partial write and an atomic change the line's bytes and leave no holder, but for one
that a hint names. With such holders it sends their snoops, the host bridge first asks the host for a line that it has not, and behind
another request it waits. WB and EV give a line up. -/
def Obligations.CoherentRequestsAreGranted : Prop :=
  (∀ (i : Instr) (r : Req) (s : State), s.powered = true → requestOf i = some r → MaySend s i →
    let line := reqLine r.dpa
    (txnOf s line).cur.isSome = true ∨ (txnOf s line).locked.isSome = true ∨ (txnOf s line).waiting ≠ [] ∨
      (agentKind r.kind = true ∧ dirFull s line = true) →
    Next i s (fun t => txnOf t line = { txnOf s line with waiting := (txnOf s line).waiting ++ [r] } ∧
      t = { s with mm := { s.mm with txn := t.mm.txn } })) ∧
  (∀ (i : Instr) (r : Req) (s : State), Reached i r s → needsHost (keyed r.dpa s) (reqLine r.dpa) r = true →
    (s.hpt.bme = false → exec i s = .next s) ∧
    (s.hpt.bme = true → Next i s (fun t => (txnOf t (reqLine r.dpa)).cur = some r ∧ (txnOf t (reqLine r.dpa)).snoops = [] ∧
      (∃ x ∈ t.xl.reads, x.who = .bridge (reqLine r.dpa) ∧ x.back = false) ∧ t.mm.lines = s.mm.lines ∧ t.mm.dir = s.mm.dir ∧ SameMemory s t))) ∧
  (∀ (i : Instr) (r : Req) (s : State), AtHome i r s → snoopsFor (keyed r.dpa s) (reqLine r.dpa) r ≠ [] →
    Next i s (Snooping (reqLine r.dpa) r (snoopsFor (keyed r.dpa s) (reqLine r.dpa) r) (keyed r.dpa s))) ∧
  (∀ (line : Nat) (r : Req) (s : State),
    let one := fun k c => (⟨c, k, false, snoopTick s line c⟩ : Snoop)
    (dirOf s line = .U → snoopsFor s line r = []) ∧
    (r.kind = .rdShr → (∀ o, dirOf s line = .O o → snoopsFor s line r = [one .shr o]) ∧
      (∀ set f, dirOf s line = .SH set (some f) → snoopsFor s line r = [one .fwd f]) ∧
      ∀ set, dirOf s line = .SH set none → snoopsFor s line r = []) ∧
    (r.kind = .rdCur → (∀ o, dirOf s line = .O o → snoopsFor s line r = [one .cur o]) ∧
      ∀ set f, dirOf s line = .SH set f → snoopsFor s line r = []) ∧
    (r.kind = .rdOwn ∨ r.kind = .upg → snoopsFor s line r = ((holders (dirOf s line)).filter (fun c => decide (c ≠ r.who))).map (one .inv)) ∧
    (r.kind = .wrFull ∨ r.kind = .wrPart ∨ r.kind = .atom → snoopsFor s line r = (holders (dirOf s line)).map (one .inv))) ∧
  (∀ (can dpa : Nat) (r : Req) (s : State), AtHome (.rdShr can dpa) r s →
    let s0 := keyed dpa s
    let line := reqLine dpa
    (dirOf s0 line = .U → FillOk can line s0 → Next (.rdShr can dpa) s (fun t => SameMemory s t ∧
      (can ≠ 34 → Holds can line .E (.O can) t ∧ (txnOf t line).peg = some (can, fclkOf s + pegTime s)) ∧
      (can = 34 → Holds can line .S (.SH [can] none) t))) ∧
    (∀ set, dirOf s0 line = .SH set none → FillOk can line s0 → Next (.rdShr can dpa) s (fun t => SameMemory s t ∧
      Holds can line (if can < 16 then .F else .S) (if can < 16 then .SH set (some can) else .SH (set ++ [can]) none) t)) ∧
    (snoopsFor s0 line r = [] → ¬FillOk can line s0 → Next (.rdShr can dpa) s (fun t => SameMemory s t ∧ lstateOf t can line = .I))) ∧
  (∀ (can dpa : Nat) (i : Instr) (r : Req) (s : State), ((∃ w, i = .rdOwn can dpa w) ∨ i = .upg can dpa) → AtHome i r s →
    snoopsFor (keyed dpa s) (reqLine dpa) r = [] →
    (FillOk can (reqLine dpa) (keyed dpa s) → Next i s (fun t => SameMemory s t ∧ Holds can (reqLine dpa) .M (.O can) t ∧
      (txnOf t (reqLine dpa)).peg = some (can, fclkOf s + pegTime s))) ∧
    (¬FillOk can (reqLine dpa) (keyed dpa s) → Next i s (fun t => SameMemory s t ∧ dirOf t (reqLine dpa) = .U))) ∧
  (∀ (can dpa : Nat) (i : Instr) (s : State), s.powered = true →
    (i = .wb can dpa ∧ mayHoldDirty s can (reqLine dpa) = true) ∨
      (i = .ev can dpa ∧ lstateOf s can (reqLine dpa) ≠ .I ∧ lstateOf s can (reqLine dpa) ≠ .M) →
    Next i s (fun t => lstateOf t can (reqLine dpa) = .I ∧ can ∉ holders (dirOf t (reqLine dpa)) ∧ SameMemory s t ∧
      ∀ c, c ≠ can → lstateOf t c (reqLine dpa) = lstateOf s c (reqLine dpa) ∧
        (c ∈ holders (dirOf s (reqLine dpa)) ↔ c ∈ holders (dirOf t (reqLine dpa))))) ∧
  (∀ (agent dpa hint : Nat) (r : Req) (s : State), AtHome (.rdCur agent dpa hint) r s → snoopsFor (keyed dpa s) (reqLine dpa) r = [] →
    Next (.rdCur agent dpa hint) s (fun t => SameMemory s t ∧
      (hint % 4 ≠ 2 → t.mm.lines = (keyed dpa s).mm.lines ∧ t.mm.dir = (keyed dpa s).mm.dir))) ∧
  (∀ (agent d k hint be : Nat) (data : List Byte) (s : State), d % 128 = 0 → d < 2 ^ 52 → placeOf (locOf d) = .hbm k →
    dirOf (keyed d s) (reqLine d) = .U →
    (∀ r, AtHome (.wrFull agent d data hint) r s → Next (.wrFull agent d data hint) s (fun t => devRead t agent d 128 = .ok data ∧
      poisoned t (locOf d) = false ∧ (hint % 4 ≠ 2 → dirOf t (reqLine d) = .U))) ∧
    (∀ r old, AtHome (.wrPart agent d be data hint) r s → devRead s agent d 128 = .ok old →
      Next (.wrPart agent d be data hint) s (fun t => (hint % 4 ≠ 2 → dirOf t (reqLine d) = .U) ∧
        ∃ bs, devRead t agent d 128 = .ok bs ∧ bs.length = 128 ∧
          ∀ i, i < 128 → nth 0 bs i = if be.testBit i = true then nth 0 data i else nth 0 old i))) ∧
  (∀ (agent dpa k aop size x cmp : Nat) (far : Bool) (r : Req) (s : State), AtHome (.homeAtom agent dpa far aop size x cmp) r s →
    dirOf (keyed dpa s) (reqLine dpa) = .U →
    let new := fun old => leBytes size (atomVal aop (8 * size) (leNat old) (x % 2 ^ (8 * size)) (cmp % 2 ^ (8 * size)))
    (∀ old, dpa < 2 ^ 52 → placeOf (locOf dpa) = .hbm k → devRead s agent dpa size = .ok old →
      Next (.homeAtom agent dpa far aop size x cmp) s (fun t => dirOf t (reqLine dpa) = .U ∧ devRead t agent dpa size = .ok (new old))) ∧
    (2 ^ 64 ≤ dpa → Next (.homeAtom agent dpa far aop size x cmp) s (fun t => dirOf t (reqLine dpa) = .U ∧
      t.mm.bridge.contains (reqLine dpa) = true ∧ hostBytes t (dpa - 2 ^ 64) size = new (hostBytes s (dpa - 2 ^ 64) size))))


/-- R272, R273, R275, R276, R282, R286, R289: a delivered snoop moves its holder to I or S, the last answer completes the request, a peg
time and an escalated hold end at their deadline; a snoop of the host reaches a holder of a host line; a holder that stays silent for
HOME_TO leaves the line zeroed, poisoned and without it. -/
def Obligations.SnoopsAnswersAndTimeouts : Prop :=
  (∀ (i : Instr) (k : Snp) (can loc : Nat) (s : State), s.powered = true → snoopFree s can (loc / 128) = true →
    (i = .snpShr can loc ∧ k = .shr ∨ i = .snpFwd can loc ∧ k = .fwd ∨ i = .snpInv can loc ∧ k = .inv ∨ i = .snpCur can loc ∧ k = .cur) →
    let line := loc / 128
    let new : LState := match k with
      | .inv => .I
      | .cur => lstateOf s can line
      | _ => if lstateOf s can line = .I then .I else .S
    ((txnOf s line).cur.isSome = true → (∃ x ∈ (txnOf s line).snoops, x.can = can ∧ x.kind = k ∧ x.delivered = false) →
      Next i s (fun t => lstateOf t can line = new ∧ (∀ c, c ≠ can → lstateOf t c line = lstateOf s c line) ∧ t.mm.dir = s.mm.dir ∧
        SameMemory s t ∧ (txnOf t line).cur = (txnOf s line).cur ∧ (txnOf t line).snoops = (txnOf s line).snoops.map (fun x =>
          if x.can = can ∧ x.kind = k ∧ x.delivered = false then { x with delivered := true } else x))) ∧
    (2 ^ 57 ≤ line → s.hpt.cxlCache = true → (txnOf s line).cur = none → (txnOf s line).locked = none →
      Next i s (fun t => lstateOf t can line = new ∧ (∀ c, c ≠ can → lstateOf t c line = lstateOf s c line) ∧ SameMemory s t ∧
        (k = .inv → can ∉ holders (dirOf t line))))) ∧
  (∀ (can loc : Nat) (r : Req) (s : State), s.powered = true → (txnOf s (loc / 128)).cur = some r →
    (∃ x ∈ (txnOf s (loc / 128)).snoops, x.can = can ∧ x.delivered = true) →
    let rest := (txnOf s (loc / 128)).snoops.filter (fun x => !(decide (x.can = can) && x.delivered))
    (rest ≠ [] → Next (.snoopAnswer can loc) s (fun t => txnOf t (loc / 128) = { txnOf s (loc / 128) with snoops := rest } ∧
      t = { s with mm := { s.mm with txn := t.mm.txn } })) ∧
    (rest = [] → (txnOf s (loc / 128)).waiting = [] → Next (.snoopAnswer can loc) s (fun t => ∃ s', t = finishReq (loc / 128) r s' ∧
      txnOf s' (loc / 128) = { txnOf s (loc / 128) with cur := none, snoops := [] } ∧ s' = { s with mm := { s.mm with txn := s'.mm.txn } }))) ∧
  (∀ (line c o dpa : Nat) (s : State), 16 ≤ c → c ≠ o → lstateOf s c line = .I → dirOf s line = .O o →
    Holds c line .S (.SH [o, c] none) (finishReq line { kind := .rdShr, who := c, dpa := dpa } s) ∧
    (lstateOf s o line ≠ .I → lstateOf (finishReq line { kind := .rdShr, who := c, dpa := dpa } s) o line = .S)) ∧
  (∀ (line c dpa : Nat) (s : State), 16 ≤ c →
    let t := finishReq line { kind := .rdOwn, who := c, dpa := dpa } s
    Holds c line .M (.O c) t ∧ ∀ x ∈ holders (dirOf s line), x ≠ c → lstateOf t x line = .I) ∧
  (∀ (loc : Nat) (s : State), s.powered = true →
    Next (.pegTimeExpiry loc) s (fun t => (txnOf t (loc / 128)).peg = none ∧ t.mm.lines = s.mm.lines ∧ t.mm.dir = s.mm.dir ∧
      SameMemory s t ∧ fclkOf t = (match (txnOf s (loc / 128)).peg with | some a => max (fclkOf s) a.2 | none => fclkOf s)) ∧
    Next (.escalatedHoldExpiry loc) s (fun t => (txnOf t (loc / 128)).esc = none ∧ t.mm.lines = s.mm.lines ∧ t.mm.dir = s.mm.dir ∧
      SameMemory s t ∧ fclkOf t = (match (txnOf s (loc / 128)).esc with | some a => max (fclkOf s) a.2 | none => fclkOf s))) ∧
  (∀ (can loc : Nat) (r : Req) (x : Snoop) (s : State), s.powered = true → loc / 128 < 2 ^ 57 → (txnOf s (loc / 128)).cur = some r →
    (txnOf s (loc / 128)).snoops.find? (fun x => decide (x.can = can)) = some x → keptByPour s can (loc / 128) = false →
    let rest := (txnOf s (loc / 128)).snoops.filter (fun x => decide (x.can ≠ can))
    (rest ≠ [] ∨ ((r.kind = .rdShr ∨ r.kind = .rdOwn ∨ r.kind = .upg ∨ r.kind = .rdCur) ∧
      (txnOf s (loc / 128)).waiting = [])) →
    Next (.homeTimeout can loc) s (fun t => poisoned t loc = true ∧ rdList t.mm.mem (128 * (loc / 128)) 128 = List.replicate 128 0 ∧
      t.aoTick = max s.aoTick (x.sent + 25 * homeTo s) ∧
      (rest ≠ [] → can ∉ holders (dirOf t (loc / 128)) ∧ lstateOf t can (loc / 128) = .I ∧ (txnOf t (loc / 128)).snoops = rest)))


/-- R12, R214, R350, R390, R391, R393, R400, R409, R410: a packet's row, on a port that is ACTIVE, receives it; a malformed one is dropped and
counted.  A request that no other waits before is performed where its inbound window admits it (a read, a write and an atomic of HBM within one
line, with the bytes that each reads and leaves), else refused with WINDOW_INVALID, and its response goes back; one that is held waits at the
port.  A response completes the request of its tag, and one that names an error ends it.  CREDIT returns credits; the first FRET_FULL gives a
follower its counter, a later one prepares a change; SCHED_ABORT ends the castings that it names; a request without an answer ends with code
0x41, subcode 0x11. -/
def Obligations.FabricPacketsArrive : Prop :=
  (∀ (i : Instr) (kd : PacketKind) (port : Nat) (p : Packet) (s : State), s.powered = true → packetRowOf i = some (kd, port, p) →
    exec i s = .next (if p.kind = kd then receive port p s else s) ∧
    (p.kind = kd → port < 24 → getF s (pState port) = 2 → packetOk p = false → exec i s = .next (incSat s (pUncorr port) (cellsOf p)))) ∧
  (∀ (port : Nat) (p : Packet) (i : Instr) (s s1 : State), Reaches port p s → requestRow port p i → (portOf s port).rx = [] →
    (∀ k c sub bs, serve port p (arrived port p s) = (s1, some (k, c, sub, bs)) → getF s1 (pState port) = 2 →
      Next i s (fun t => t.mm = s1.mm ∧ (portOf t port).rx = (portOf s1 port).rx ∧
        (p.kind ≠ .semSig → Responds port p k c sub bs t))) ∧
    (serve port p (arrived port p s) = (s1, none) → Next i s (fun t => t.mm = s1.mm ∧ (portOf t port).rx = [p]))) ∧
  (∀ (port n : Nat) (p : Packet) (s : State), n = (if p.kind = .atomReq then (if bit p.aux 4 then 8 else 4) else if p.kind = .semSig then 0 else p.len) →
    let off := if p.kind = .semSig then 0 else p.offset
    let dpa := inboundDpa s (p.iwin % 256) p.offset
    (admits s (p.iwin % 256) p.src off n (needs p.kind) = false →
      ∃ s1 k, serve port p s = (s1, some (k, 0x22, 0x25, [])) ∧ s1.mm = s.mm) ∧
    (admits s (p.iwin % 256) p.src off n (needs p.kind) = true →
      (p.kind = .semSig → ∃ s1 k, serve port p s = (s1, some (k, 0, 0, [])) ∧ SameMemory s s1 ∧
        semaOf s1 (p.offset % 2 ^ 14) = (semaOf s (p.offset % 2 ^ 14) + p.aux) % 2 ^ 32) ∧
      (p.kind = .rdReq → 1 ≤ n → dpa % 128 + n ≤ 128 → lineBusy s (lineOf (locOf dpa)) none none none = false →
        ∀ bs, devRead s (agPort port) dpa n = .ok bs → ∃ s1, serve port p s = (s1, some (.rdRsp, 0, 0, bs)) ∧ SameMemory s s1) ∧
      (p.kind = .wr → 1 ≤ n → p.payload.length = n → p.aux = 2 ^ 64 - 1 → dpa % 128 + n ≤ 128 → p.status ≠ 0x30 →
        (∃ k, placeOf (locOf dpa) = .hbm k) → poisoned s (locOf dpa) = false → writeReady (agPort port) dpa n s = .ok () →
        ∃ s1, serve port p s = (s1, some (.wrAck, 0, 0, [])) ∧ devRead s1 (agPort port) dpa n = .ok p.payload ∧
          dirOf s1 (lineOf (locOf dpa)) = .U) ∧
      (p.kind = .atomReq → dpa % n = 0 → p.aux % 16 ≤ 10 → ¬(p.aux % 16 = 1 ∧ n = 8) → (∃ k, placeOf (locOf dpa) = .hbm k) →
        writeReady (agPort port) dpa n s = .ok () → ∀ old, devRead s (agPort port) dpa n = .ok old →
        ∃ s1, serve port p s = (s1, some (.atomRsp, 0, 0, if bit p.aux 6 then [] else old)) ∧ devRead s1 (agPort port) dpa n =
          .ok (leBytes n (atomVal (p.aux % 16) (8 * n) (leNat old) (fieldOf p.payload 0 n) (fieldOf p.payload n n)))))) ∧
  (∀ (port : Nat) (p : Packet) (k : PacketKind) (i : Instr) (r : WinReq) (s : State), Reaches port p s → responseRow port p k i →
    answered p k s = some r →
    let c := answerCode p.status p.sub
    let r' := { r with port := port }
    let s' := { arrived port p s with xl := { s.xl with wins := s.xl.wins.map (fun x => if x = r then r' else x) } }
    ((k ≠ .wr ∨ awaitsAck r.who = true) → Next i s (fun t => t.xl.wins = s.xl.wins.map (fun x =>
      if x = r then { r' with back := some (c.1, c.2, p.payload) } else x) ∧ t.mm = s.mm)) ∧
    (k = .wr → awaitsAck r.who = false → c.1 = 0 → Next i s (fun t =>
      t.xl.wins = s.xl.wins.filter (fun x => decide (x ≠ r)) ∧ t.mm = s.mm)) ∧
    (k = .wr → awaitsAck r.who = false → c.1 ≠ 0 →
      exec i s = .next (pump port (portOf (failWin r' c.1 c.2 s') port).bufs.length (failWin r' c.1 c.2 s')))) ∧
  (∀ code sub, (code ∈ topCodes → answerCode code sub = (code, sub)) ∧ (code ∉ topCodes → answerCode code sub = (0x31, 0))) ∧
  (∀ (port : Nat) (p : Packet) (s : State), Reaches port p s → p.kind = .credit → (portOf s port).bufs = [] →
    Next (.credit port p) s (fun t => portOf t port = { portOf s port with
      credits := tset 0 (portOf s port).credits (p.cred % 4) (tget 0 (portOf s port).credits (p.cred % 4) + p.cred / 4)
      owed := tset 0 (portOf s port).owed p.vl (tget 0 (portOf s port).owed p.vl + cellsOf p) } ∧ t.mm = s.mm)) ∧
  (∀ (port : Nat) (p : Packet) (s : State), Reaches port p s → p.kind = .fretFull → roleOf s = 1 →
    (s.amx.fullSeen = false → Next (.fretFull port p) s (fun t => getF t amxFret = p.aux % 2 ^ 64 ∧ t.amx.period = p.len ∧
      t.amx.quantum = p.offset ∧ t.amx.fullSeen = true)) ∧
    (s.amx.fullSeen = true → ¬(p.len = s.amx.period ∧ p.offset = s.amx.quantum) → s.amx.nextPeriod = none →
      Next (.fretFull port p) s (fun t => t.amx.nextPeriod = some (p.len, p.offset, 1) ∧ t.amx.period = s.amx.period ∧
        t.amx.quantum = s.amx.quantum ∧ getF t amxFret = getF s amxFret))) ∧
  (∀ (port : Nat) (p : Packet) (s : State), Reaches port p s → p.kind = .schedAbort → Next (.schedAbort port p) s (fun t =>
    t.amx.aborts.head? = some (p.tag, p.offset, port) ∧ t.amx.bcast = s.amx.bcast ∧
    ∀ k, k < 16 → (castingOf s k).live = true → (castingOf s k).sched = true → (castingOf s k).ending = none →
      (castingOf t k).ending = if (castingOf s k).schedId = p.tag ∧ (castingOf s k).startFret = p.offset
        then some (faultEnd 0x41 0x10 (agPort port) 0) else none)) ∧
  (∀ (port : Nat) (s : State), s.powered = true → exec (.idle port) s = .next s) ∧
  (∀ (tag : Nat) (r : WinReq) (s : State), s.powered = true →
    s.xl.wins.find? (fun r => decide (r.tag = tag) && r.back.isNone) = some r →
    exec (.windowRequestTimeout tag) s = .next (failWin r 0x41 0x11 s))


/-- R388, R394, R398 to R400, R411 to R416: frames are accepted in sequence, acknowledged and replayed; the first MARK of a fret gives a
follower the offset and, sixteen times within its limit, the lock; a boundary of a clock that counts advances the fret counter, and a follower
that has seen no MARK is in holdover and after HOLDOVER frets loses lock; training takes a port through its states to ACTIVE, narrow or DOWN;
of a port that leaves ACTIVE the best-effort requests are sent again once or end, and its scheduled packets wait. -/
def Obligations.PortsFramesAndFrets : Prop :=
  (∀ (port seq ack strF : Nat) (nak trig strV : Bool) (ps : List Packet) (s : State), s.powered = true → port < 24 →
    getF s (pState port) = 2 →
    Next (.dataFrame port false seq ack nak trig strV strF ps) s (fun t => (portOf t port) = { portOf s port with nakOut := true } ∧
      getF t (pUncorr port) = min (getF s (pUncorr port) + 1) (2 ^ 16 - 1)) ∧
    (seq ≠ ((portOf s port).ackRx + 1) % 256 → exec (.dataFrame port true seq ack nak trig strV strF ps) s = .next s) ∧
    (seq = ((portOf s port).ackRx + 1) % 256 → exec (.dataFrame port true seq ack nak trig strV strF ps) s =
      .next ((ps.take 5).foldl (fun s p => receive port p s) ((fun s => if strV then rxStretch strF s else s)
        ((fun s => if trig then raiseTrigger 2 s else s) (takeFrame port seq ack nak s).1))))) ∧
  (∀ (port seq ack : Nat) (nak : Bool) (s : State), port < 24 → seq = ((portOf s port).ackRx + 1) % 256 →
    let t := (takeFrame port seq ack nak s).1
    (portOf t port).ackRx = seq ∧ (portOf t port).nakOut = false ∧
    (∀ n q, (portOf s port).replay.map Prod.fst = n ++ ack :: q → ack ∉ n → (portOf t port).replay.map Prod.fst = q) ∧
    (ack ∉ (portOf s port).replay.map Prod.fst → (portOf t port).replay = (portOf s port).replay) ∧
    getF t (pReplay port) = if nak = true ∧ (portOf t port).replay ≠ [] then min (getF s (pReplay port) + 1) (2 ^ 16 - 1)
      else getF s (pReplay port)) ∧
  (∀ (port : Nat) (s : State), s.powered = true → port < 24 → getF s (pState port) = 2 →
    ((portOf s port).replay ≠ [] → Next (.replayTimeout port) s (fun t =>
      getF t (pReplay port) = min (getF s (pReplay port) + 1) (2 ^ 16 - 1) ∧ portOf t port = portOf s port)) ∧
    ((portOf s port).replay = [] → exec (.replayTimeout port) s = .next s)) ∧
  (∀ (port fret8 delay : Nat) (arrival : Int) (s : State), s.powered = true → port < 24 → getF s (pState port) = 2 →
    (portOf s port).nakOut = false →
    let ofs : Int := arrival - (getF s (pLinkDelay port) : Int) - (delay : Int)
    Next (.markFrame port fret8 delay arrival) s (fun t => (portOf t port).ackRx = ((portOf s port).ackRx + 1) % 256 ∧
      (roleOf s ≠ 1 ∨ s.amx.sawMark = true → t.amx = { s.amx with ports := t.amx.ports } ∧ getF t amxFret = getF s amxFret ∧
        isOn t amxLocked = isOn s amxLocked) ∧
      (roleOf s = 1 → s.amx.sawMark = false → t.amx.sawMark = true ∧ t.amx.missed = 0 ∧ isOn t amxHoldover = false ∧
        getF t amxLastOfs = narrow 16 ofs ∧ (t.amx.counting = (s.amx.counting || s.amx.fullSeen)) ∧
        (s.amx.fullSeen = true → s.amx.counting = false →
          getF t amxFret = (getF s amxFret / 256 * 256 + fret8 % 256) % 2 ^ 64) ∧
        (s.amx.fullSeen = false ∨ s.amx.counting = true → getF t amxFret = getF s amxFret) ∧
        (ofs.natAbs ≤ 250 → t.amx.ofsRun = s.amx.ofsRun + 1 ∧ (16 ≤ s.amx.ofsRun + 1 → isOn t amxLocked = true) ∧
          (s.amx.ofsRun + 1 < 16 → isOn t amxLocked = isOn s amxLocked)) ∧
        (250 < ofs.natAbs → t.amx.ofsRun = 0 ∧ isOn t amxLocked = false ∧ (isOn s amxLocked = true → isOn t amxAlignLost = true))))) ∧
  (∀ (s : State), s.powered = true →
    (s.boot.phase < 2 ∨ (roleOf s = 1 ∧ s.amx.counting = false) → exec .fretBoundary s = .next s) ∧
    (2 ≤ s.boot.phase → (roleOf s ≠ 1 ∨ s.amx.counting = true) →
      let h := if getF s fretHold = 0 then 16 else getF s fretHold
      Next .fretBoundary s (fun t => getF t amxFret = (getF s amxFret + 1) % 2 ^ 64 ∧
        (roleOf s = 1 → s.amx.sawMark = true → t.amx.sawMark = false ∧ t.amx.missed = s.amx.missed) ∧
        (roleOf s = 1 → s.amx.sawMark = false → isOn t amxHoldover = true ∧ t.amx.missed = s.amx.missed + 1 ∧ t.amx.ofsRun = 0 ∧
          (h ≤ s.amx.missed + 1 → isOn t amxLocked = false) ∧
          (s.amx.missed + 1 < h → isOn t amxLocked = isOn s amxLocked))))) ∧
  (∀ (port msg role dev plane t1 t2 t3 t4 : Nat) (s : State), s.powered = true → port < 24 → getF s (pState port) = 1 →
    (msg = 1 → Next (.trainFrame port msg role dev plane t1 t2 t3 t4) s (fun t => portOf t port = { portOf s port with
        peerDev := dev, credits := [(0, 32), (1, 1024), (2, 1024), (3, 512)] } ∧ getF t (pPlane port) = plane % 2 ^ 8 ∧
      isOn t (pPeerSwitch port) = decide (role = 1))) ∧
    (msg = 3 → (portOf s port).delays.length < 16 →
      Next (.trainFrame port msg role dev plane t1 t2 t3 t4) s (fun t => portOf t port = { portOf s port with
        delays := (portOf s port).delays ++ [(((t4 : Int) - t1 - ((t3 : Int) - t2)) / 2).toNat] }))) ∧
  (∀ (port : Nat) (on : Bool) (s : State), s.powered = true →
    (InTurn (.retrain port) s → exec (.retrain port) s = .next (startTraining port s)) ∧
    exec (.frameLockLoss port) s = .next (if getF s (pState port) = 2 then startTraining port s else s) ∧
    exec (.portTraining port) s = .next (if s.boot.phase ≠ 0 ∧ getF s (pState port) ≠ 1 then startTraining port s else s) ∧
    (InTurn (.portEnable port on) s → exec (.portEnable port on) s = .next (writeEnable port on s))) ∧
  (∀ (port : Nat) (s : State), port < 24 →
    (s.boot.reduced = true → writeEnable port true s = setOn s amxWign) ∧
    (s.boot.reduced = false → ∃ u, isOn u (pEnable port) = true ∧ getF u (pState port) = getF s (pState port) ∧ portOf u port = portOf s port ∧
      writeEnable port true s = if getF s (pState port) = 0 then startTraining port u else u) ∧
    (∃ u, isOn u (pEnable port) = false ∧ getF u (pState port) = getF s (pState port) ∧ portOf u port = portOf s port ∧
      writeEnable port false s = if getF s (pState port) = 3 then u else leaveActive port 0 u)) ∧
  (∀ (port : Nat) (s : State), port < 24 →
    (s.boot.reduced = true ∨ bit s.boot.map.ports port = true ∨ isOn s (pEnable port) = false ∨ getF s (pState port) = 3 →
      startTraining port s = s) ∧
    (s.boot.reduced = false → bit s.boot.map.ports port = false → isOn s (pEnable port) = true → getF s (pState port) ≠ 3 →
      (portOf (startTraining port s) port).delays = [] ∧
      startTraining port s = setPort (leaveActive port 1 s) port { portOf (leaveActive port 1 s) port with delays := [] })) ∧
  (∀ (port st : Nat) (s : State), port < 24 → st < 4 → st ≠ 2 →
    (getF s (pState port) ≠ 2 → getF (leaveActive port st s) (pState port) = st ∧
      portOf (leaveActive port st s) port = portOf s port) ∧
    (getF s (pState port) = 2 → ∃ u, getF u (pState port) = st ∧
      portOf u port = { portOf s port with
        bufs := ((portOf s port).replay.map Prod.snd ++ (portOf s port).bufs).filter (fun q => decide (q.vl = 3)), replay := [], credits := []
        owed := [], seqTx := 0, ackRx := 255, nakOut := false, delays := [] } ∧
      u.xl.wins = s.xl.wins.map (fun r => if r.back.isNone ∧ r.pkt.vl = 1 then { r with old := true } else r) ∧
      leaveActive port st s = (u.xl.wins.filter (fun r => decide (r.port = port) && r.back.isNone && decide (r.pkt.vl = 1))).foldl reissue u)) ∧
  (∀ (r : WinReq) (s : State),
    ((r.kind = .atomReq ∨ portFor s r.pkt.dst r.pkt.offset = none) → reissue s r = failWin r 0x41 0x12 s) ∧
    (∀ q, r.kind ≠ .atomReq → portFor s r.pkt.dst r.pkt.offset = some q → (r.reissued = true → reissue s r = s) ∧
      (r.reissued = false → ∃ u, u.xl.wins = s.xl.wins.map (fun x => if x = r then { r with port := q, reissued := true } else x) ∧
        u.amx = s.amx ∧ reissue s r = sendPacket q r.pkt u))) ∧
  (∀ (port lanesOk : Nat) (s : State), s.powered = true → port < 24 → getF s (pState port) = 1 → (portOf s port).delays.length = 16 →
    let good := bitList (getF s (pLaneEn port) &&& lanesOk) 4
    let failed := decide (good.length ≠ popcount (getF s (pLaneEn port)) 4)
    Next (.portTrainingComplete port lanesOk) s (fun t => getF t (pLinkDelay port) = median (portOf s port).delays % 2 ^ 24 ∧
      (good.length = 4 → getF t (pState port) = 2 ∧ isOn t (pWidth port) = false ∧ getF t (pLanes port) = 0xF) ∧
      (good.length ≠ 4 → good.length < 2 ∨ (failed = true ∧ isOn s (pAutoNarrow port) = false) → getF t (pState port) = 0) ∧
      (good.length ≠ 4 → 2 ≤ good.length → (failed = false ∨ isOn s (pAutoNarrow port) = true) → getF t (pState port) = 2 ∧
        isOn t (pWidth port) = true ∧ getF t (pLanes port) = 2 ^ nth 0 good 0 + 2 ^ nth 0 good 1 ∧
        (failed = true → isOn t (pLaneFault port) = true))))


/-- R229, R273, R284, R285, R287, R301, R305, R306, R425, R430, R433, R439: an inbound read answers with the device's bytes, or with EP where
they are poisoned; a write changes the enabled bytes and no other; an AtomicOp answers with the old value; one that waits at its target is
held, and so is each of the host's ordered requests that must stay behind it; CXL.mem reads put a request to the line's home, which answers
with the line, and writes and evictions act on the host's own copy; a completion brings an outbound read its data, or its end. -/
def Obligations.HostAccessesReachMemory : Prop :=
  (∀ (i : Instr) (s : State), s.powered = true → keepsOrder i = true → ¬InTurn i s → exec i s = .next (hold i s)) ∧
  (∀ (off n : Nat) (s : State), s.powered = true → InTurn (.inboundBar4Read off n) s →
    (bar4Open s off n = false ∨ 4096 < n → exec (.inboundBar4Read off n) s = .next s) ∧
    (bar4Open s off n = true → n ≤ 4096 → ∀ t r, readDpa hostAccess 34 off n s = (t, r) →
      exec (.inboundBar4Read off n) s = .next (if r = .wait then hold (.inboundBar4Read off n) (heldWake off t) else answerRead n r t))) ∧
  (∀ (off n : Nat) (s : State), HostReaches off n s → InTurn (.inboundBar4Read off n) s →
    (∀ bs, devRead s agHost off n = .ok bs → Next (.inboundBar4Read off n) s (fun t => t.hpt.reply = ⟨0, bs, false⟩ ∧ SameMemory s t)) ∧
    (∀ e, devRead s agHost off n = .fail e → Next (.inboundBar4Read off n) s (fun t =>
      (e.code = 0x30 → t.hpt.reply.status = 0 ∧ t.hpt.reply.ep = true ∧ t.hpt.reply.data.length = n) ∧
      (e.code ≠ 0x30 → t.hpt.reply = ⟨1, [], false⟩) ∧ SameMemory s t)) ∧
    (devRead s agHost off n = .wait → Next (.inboundBar4Read off n) s (fun t =>
      t.hpt = { s.hpt with held := s.hpt.held ++ [.inboundBar4Read off n] } ∧ SameMemory s t))) ∧
  (∀ (off be k : Nat) (tph : Option Nat) (data old : List Byte) (s : State), HostReaches off data.length s →
    InTurn (.inboundBar4Write off be data false tph) s → placeOf (locOf off) = .hbm k → devRead s agHost off data.length = .ok old →
    Next (.inboundBar4Write off be data false tph) s (fun t => ∃ bs, devRead t agHost off data.length = .ok bs ∧ Merged be data old bs)) ∧
  (∀ (off k : Nat) (tph : Option Nat) (data : List Byte) (s : State), HostReaches off data.length s → data.length = 128 →
    InTurn (.inboundBar4Write off (2 ^ 128 - 1) data false tph) s → placeOf (locOf off) = .hbm k → writeBar s agHost off = .ok () →
    Next (.inboundBar4Write off (2 ^ 128 - 1) data false tph) s (fun t => devRead t agHost off 128 = .ok data)) ∧
  (∀ (off be : Nat) (ep : Bool) (tph : Option Nat) (data : List Byte) (s : State), bar4Open s off data.length = true → data.length ≤ 512 →
    InTurn (.inboundBar4Write off be data ep tph) s →
    (∀ e, writeReady agHost off data.length s = .fail e → exec (.inboundBar4Write off be data ep tph) s = .next (hostUr s)) ∧
    (writeReady agHost off data.length s = .wait → exec (.inboundBar4Write off be data ep tph) s =
      .next (hold (.inboundBar4Write off be data ep tph) (heldWake off s))) ∧
    (writeReady agHost off data.length s = .ok () → ∃ hint, exec (.inboundBar4Write off be data ep tph) s =
      .next (writePieces hint ep 6 off be data s))) ∧
  (∀ (off op size x cmp k : Nat) (old : List Byte) (s : State), HostReaches off size s → (size = 4 ∨ size = 8) → op ≤ 2 → off % size = 0 →
    InTurn (.inboundAtomicop 4 off op size x cmp) s → placeOf (locOf off) = .hbm k → devRead s agHost off size = .ok old →
    Next (.inboundAtomicop 4 off op size x cmp) s (fun t => t.hpt.reply = ⟨0, old, false⟩ ∧ devRead t agHost off size =
      .ok (leBytes size (if op = 0 then (leNat old + x) % 2 ^ (8 * size) else if op = 1 then x % 2 ^ (8 * size)
        else if leNat old = cmp % 2 ^ (8 * size) then x % 2 ^ (8 * size) else leNat old)))) ∧
  (∀ (off op size x cmp : Nat) (s : State), bar4Open s off size = true → (size = 4 ∨ size = 8) → op ≤ 2 → off % size = 0 →
    InTurn (.inboundAtomicop 4 off op size x cmp) s →
    (∀ e, writeReady agHost off size s = .fail e → exec (.inboundAtomicop 4 off op size x cmp) s = .next (hostReply 1 [] false s)) ∧
    (writeReady agHost off size s = .wait → exec (.inboundAtomicop 4 off op size x cmp) s =
      .next (hold (.inboundAtomicop 4 off op size x cmp) (heldWake off s)))) ∧
  (∀ (bar off op size x cmp : Nat) (s : State), s.powered = true → InTurn (.inboundAtomicop bar off op size x cmp) s →
    (bar ≠ 4 ∨ (size ≠ 4 ∧ size ≠ 8) ∨ 2 < op ∨ off % size ≠ 0) →
    exec (.inboundAtomicop bar off op size x cmp) s = .next (hostReply 1 [] false s)) ∧
  (∀ (kind d be : Nat) (data : List Byte) (p : Bool) (s : State), s.powered = true → s.hpt.cxlMem = true → s.hpt.hdmCommitted = true →
    isOn s hptMemActive = true → d < s.hpt.hdmSize → d < 2 ^ 46 → d % 128 = 0 →
    let x := lstateOf s 34 (lineOf d)
    (kind ≤ 2 → ∀ e, uncachedBar s false agHost d = .fail e → exec (.cxlMemRequest kind d be data p) s = .next (hostReply 1 [] false s)) ∧
    (kind ≤ 2 → uncachedBar s false agHost d = .wait →
      exec (.cxlMemRequest kind d be data p) s = .next (hold (.cxlMemRequest kind d be data p) (heldWake d s))) ∧
    (uncachedBar s false agHost d = .ok () →
      (kind = 2 → exec (.cxlMemRequest kind d be data p) s =
        .next (reachHome (lineOf d) { kind := .rdCur, who := 64 + agHost, dpa := d, reply := true } s)) ∧
      (kind = 0 → x = .I → homed d = true → exec (.cxlMemRequest kind d be data p) s =
        .next (reachHome (lineOf d) { kind := .rdShr, who := 34, dpa := d, reply := true } s)) ∧
      (kind = 1 → x ≠ .M → x ≠ .E → homed d = true → exec (.cxlMemRequest kind d be data p) s =
        .next (reachHome (lineOf d) { kind := if x = .I then .rdOwn else .upg, who := 34, dpa := d, reply := true } s)) ∧
      (∀ bs, devRead s agHost d 128 = .ok bs → (kind ≤ 1 ∧ (x = .M ∨ x = .E)) ∨ (kind = 0 ∧ x ≠ .I) →
        Next (.cxlMemRequest kind d be data p) s (fun t => t.hpt.reply = ⟨0, bs, false⟩ ∧ t.mm.lines = s.mm.lines ∧
          t.mm.dir = s.mm.dir ∧ SameMemory s t))) ∧
    (∀ k, placeOf d = .hbm k → kind = 3 → data.length = 128 → writeBar s agHost d = .ok () → poisoned s d = false → p = false →
      x = .M ∨ x = .E ∨ (LineFree (lineOf d) s ∧ dirOf (keyTurn d s) (lineOf d) = .U) →
      ∀ bs, devRead s agHost d 128 = .ok bs → Next (.cxlMemRequest kind d be data p) s (fun t =>
        (x = .M ∨ x = .E → lstateOf t 34 (lineOf d) = .I) ∧ ∃ bs', devRead t agHost d 128 = .ok bs' ∧ Merged be data bs bs')) ∧
    (kind = 4 → x = .E ∨ x = .S → Next (.cxlMemRequest kind d be data p) s (fun t =>
      lstateOf t 34 (lineOf d) = .I ∧ 34 ∉ holders (dirOf t (lineOf d)) ∧ SameMemory s t))) ∧
  (∀ (d k : Nat) (r : Req) (bs : List Byte) (s : State), d < 2 ^ 46 → d % 128 = 0 → placeOf d = .hbm k → r.reply = true → r.dpa = d →
    LineFree (lineOf d) s → devRead s agHost d 128 = .ok bs →
    (r.kind = .rdCur → r.hint = 0 → (∀ o, dirOf (keyTurn d s) (lineOf d) ≠ .O o) →
      (reachHome (lineOf d) r s).hpt.reply = ⟨0, bs, false⟩ ∧ (reachHome (lineOf d) r s).mm.lines = (keyTurn d s).mm.lines ∧
      (reachHome (lineOf d) r s).mm.dir = (keyTurn d s).mm.dir ∧ SameMemory s (reachHome (lineOf d) r s)) ∧
    ((r.kind = .rdShr ∨ r.kind = .rdOwn) → r.who = 34 → dirFull s (lineOf d) = false → dirOf (keyTurn d s) (lineOf d) = .U →
      lstateOf (keyTurn d s) 34 (lineOf d) = .I → (reachHome (lineOf d) r s).hpt.reply = ⟨0, bs, false⟩ ∧
        SameMemory s (reachHome (lineOf d) r s) ∧
        (r.kind = .rdShr → Holds 34 (lineOf d) .S (.SH [34] none) (reachHome (lineOf d) r s)) ∧
        (r.kind = .rdOwn → Holds 34 (lineOf d) .M (.O 34) (reachHome (lineOf d) r s)))) ∧
  (∀ (tag : Nat) (ep : Bool) (data : List Byte) (r : OutRead) (s : State), s.powered = true →
    s.xl.reads.find? (fun r => decide (r.tag = tag) && !r.back && decide (r.len = data.length)) = some r →
    exec (.outboundReadCompletion tag ep data) s = .next (hostReadDone r ep data s) ∧
    ((∀ g l, r.who ≠ .miss g l) → (∀ l, r.who ≠ .bridge l) → hostReadDone r ep data s =
      { s with xl := { s.xl with reads := s.xl.reads.map (fun x => if x.tag = tag then { x with back := true, ep := ep, data := data } else x) } })) ∧
  (∀ (tag : Nat) (st : HostStatus) (r : OutRead) (s : State), s.powered = true → st ≠ .success →
    s.xl.reads.find? (fun r => decide (r.tag = tag) && !r.back) = some r → exec (.hostCompletion tag st) s = .next (failRead r s)) ∧
  (∀ (r : OutRead) (g k : Nat) (s : State), r.who = .course g k → (castingOf s (castingOfCourse s g k)).live = true →
    (castingOf s (castingOfCourse s g k)).ending = none → CastingEnds (faultEnd 0x31 0x13 g r.va) s (failRead r s) g k)


/-- R286, R288, R337, R338, R342, R424, R430, R433, R440 to R442, R445, R595: the host's configuration writes set what they name; a bit that
lets requests leave lets those that wait go, and clearing Bus Master Enable discards the reporting writes that wait; clearing ATS Enable
forgets every translation, clearing CXL.cache every host line; a Function Level Reset disables the queues and restores configuration space;
the mirror receives the status page. -/
def Obligations.HostConfiguresThePort : Prop :=
  (∀ (on : Bool) (alloc : Nat) (s : State), s.powered = true →
    exec (.busMasterEnable true) s = .next (retryIdle (sendAsks { s with hpt := { s.hpt with bme := true } })) ∧
    exec (.busMasterEnable false) s = .next
      { s with hpt := { s.hpt with bme := false }, xl := { s.xl with posted := s.xl.posted.map (fun p => { p with dead := true }) } } ∧
    exec (.pasidEnable on) s = .next { s with hpt := { s.hpt with pasid := on } } ∧
    exec (.atsEnable true) s = .next (retryIdle (sendAsks { s with hpt := { s.hpt with ats := true } })) ∧
    Next (.atsEnable false) s (fun t => t.hpt.ats = false ∧ Forgotten ⟨true, 0, 0, 0⟩ t) ∧
    ∀ x, x = { s.xl with priStopped := s.xl.priStopped && !(on && !s.hpt.pri) } →
      exec (.priEnable ⟨on, alloc⟩) s = .next (retryIdle { s with hpt := { s.hpt with pri := on, priAlloc := alloc }, xl := x })) ∧
  (∀ s : State, (s.xl.posted = [] → retryIdle s = s) ∧ (atsOn s = false → sendAsks s = s) ∧
    (atsOn s = true → (∀ r ∈ (sendAsks s).xl.ats, r.sent = true) ∧ (sendAsks s).hpt = s.hpt ∧ (sendAsks s).mm = s.mm)) ∧
  (∀ (on : Bool) (bar4 : Nat) (s : State), s.powered = true → bar4 < 2 ^ 64 → Next (.memorySpaceEnable on bar4) s (fun t =>
    t.hpt.mse = on ∧ t.hpt.bar4Size = (if on then s.hpt.bar4Size else s.hpt.bar4Next) ∧ t.hpt.bar4Base ≤ bar4 ∧
    bar4 < t.hpt.bar4Base + 2 ^ t.hpt.bar4Size ∧ t.hpt.bar4Base % 2 ^ t.hpt.bar4Size = 0)) ∧
  (∀ (z : Nat) (s : State), s.powered = true →
    (30 ≤ z → z ≤ 52 → Next (.bar4Resize z) s (fun t => t.hpt =
      { s.hpt with bar4Next := z, bar4Size := if s.hpt.mse then s.hpt.bar4Size else z } ∧ t.mm = s.mm)) ∧
    (z < 30 ∨ 52 < z → exec (.bar4Resize z) s = .next s)) ∧
  (∀ (base size : Nat) (s : State), s.powered = true → Next (.hdmCommit base size) s (fun t =>
    t.hpt.hdmCommitted = (decide (∃ i, i < 23 ∧ size = 2 ^ (30 + i)) && decide (base % size = 0)) ∧ t.hpt.hdmError = !t.hpt.hdmCommitted ∧
    t.hpt.hdmBase = base ∧ t.hpt.hdmSize = size)) ∧
  (∀ (mem : Bool) (s : State), s.powered = true →
    exec (.cxlCacheEnable true mem) s = .next { s with hpt := { s.hpt with cxlCache := true, cxlMem := mem } } ∧
    Next (.cxlCacheEnable false mem) s (fun t => t.hpt.cxlCache = false ∧ t.hpt.cxlMem = mem ∧ t.mm.bridge = [] ∧
      ((∀ r ∈ s.xl.reads, ∀ l, r.who = .bridge l → r.back = true) → SameMemory s t ∧
        ∀ e ∈ s.mm.lines, ∀ l ∈ e.2, 2 ^ 57 ≤ l.1 → lstateOf t e.1 l.1 = .I))) ∧
  (∀ (width rate : Nat) (s : State), s.powered = true → (width = 1 ∨ width = 2 ∨ width = 4 ∨ width = 8 ∨ width = 16) → 1 ≤ rate → rate ≤ 6 →
    s.boot.phase ≠ 0 → Next (.hostLinkUp width rate) s (fun t => t.hpt = { s.hpt with linkUp := true } ∧ getF t hptWidth = width ∧
      getF t hptRate = rate ∧ isOn t hptFlit = decide (rate = 6) ∧ t.mm = s.mm)) ∧
  (∀ (s : State), s.powered = true → Next .flr s (fun t => t.hpt.bme = false ∧ t.hpt.mse = false ∧ t.hpt.ats = false ∧ t.hpt.pri = false ∧
    t.hpt.pasid = false ∧ t.hpt.cxlMem = false ∧ t.hpt.cxlCache = false ∧ t.hpt.bar4Size = 30 ∧ t.hpt.hdmCommitted = false ∧
    t.hpt.held = [] ∧ t.hpt.aerUr = s.hpt.aerUr ∧ t.hpt.spdm = {} ∧ t.hpt.ide = [] ∧
    t.xl.cluster = [] ∧ t.xl.crucible = [] ∧ t.xl.ats = [] ∧ t.xl.pri = [] ∧ isOn t mirEnable = false ∧ isOn t errEnable = false ∧
    isOn t hptFlrSeen = true ∧ ∀ q, q < 512 → isOn t (qEnable q) = false)) ∧
  (∀ (be value : Nat) (s : State), s.powered = true → InTurn (.hptMirrorWrite be value) s →
    exec (.hptMirrorWrite be value) s = .next (if be = 0x0F ∨ be = 0xF0 ∨ be = 0xFF then mirrorWrite (byteMask be) value s else s) ∧
    isOn (mirrorWrite (byteMask 0xFF) value s) mirEnable = value.testBit 0 ∧
    getF (mirrorWrite (byteMask 0xFF) value s) mirAddr = (if isOn s mirEnable then getF s mirAddr else value / 2 ^ 12 % 2 ^ 52) ∧
    (mirrorWrite (byteMask be) value s).mm = s.mm) ∧
  (∀ (pa ta : Nat) (s s1 : State), s.powered = true →
    (isOn s mirEnable = false → exec .mirrorCopy s = .next s) ∧
    (isOn s mirEnable = true → pageWaits s 0 (getF s mirAddr * 4096) = false → s.hpt.cxlCache = false → s.hpt.bme = true →
      translate (reportAccess 0) (getF s mirAddr * 4096) true s = (s1, .ok ta) → targetOf s1 ta = .host pa →
      Next .mirrorCopy s (fun t => hostBytes t pa (pageBytes s).length = pageBytes s ∧ t.mm.mem = s.mm.mem ∧
        ∀ a, a < pa ∨ pa + (pageBytes s).length ≤ a → hostBytes t a 1 = hostBytes s a 1)))


/-- R435 to R437, R535 to R539: the mailbox takes one request; DOE Discovery, Table Access and every SPDM message in order are answered, one
out of order, that names nothing, or for a session that is not established is refused with its error; ABORT empties the mailbox.  The codes
and fields of SPDM's messages are the model's (log entry 40). -/
def Obligations.SecurityCoreAnswers : Prop :=
  (∀ (kind : Nat) (s : State), s.powered = true →
    (3 < kind → exec (.doeRequest kind) s = .next s) ∧
    (kind ≤ 3 → s.hpt.doeReq = none → (kind ≠ 0 ∨ fwRuns s 0 = false) → exec (.doeRequest kind) s =
      .next { s with hpt := { s.hpt with doe := [], doeReady := false, doeReq := some kind } }) ∧
    (s.hpt.doeReq = none → kind = 0 → fwRuns s 0 = true → Next (.doeRequest kind) s
      (Answers [1, 0, 1, 1, 1, 2, 0x1E98, 2] s.hpt.spdm s)) ∧
    (kind ≤ 3 → s.hpt.doeReq ≠ none → exec (.doeRequest kind) s = .next { s with hpt := { s.hpt with doeError := true } }) ∧
    exec .doeAbort s = .next { s with hpt := { s.hpt with doe := [], doeReady := false, doeReq := none, doeError := false } }) ∧
  (∀ (entry : Nat) (s : State), doeOpen s [3] = true → Next (.tableAccess entry) s
    (Answers ((if entry + 1 < (cdatEntries s).length then entry + 1 else 0xFFFF) :: ((cdatEntries s)[entry]?).getD []) s.hpt.spdm s)) ∧
  (∀ (i : Instr) (s : State), s.powered = true →
    (spdmRow i = true → doeOpen s [1, 2] = false → exec i s = .next s) ∧
    (spdmRow i = true → doeOpen s [1, 2] = true → spdmNeeds s i = false → Next i s (Answers [0x7F, 4] s.hpt.spdm s))) ∧
  (∀ s : State, doeOpen s [1, 2] = true → Next .getVersion s
    (Answers [0x04, 0x13] { s.hpt.spdm with version := true, caps := false, algs := false } s)) ∧
  (∀ s : State, doeOpen s [1, 2] = true → s.hpt.spdm.version = true → Next .getCapabilities s
    (Answers [0x61] { s.hpt.spdm with caps := true } s)) ∧
  (∀ (asym hash dhe aead : Nat) (s : State), doeOpen s [1, 2] = true → s.hpt.spdm.caps = true →
    let ok := asym.testBit 7 && hash.testBit 1 && dhe.testBit 4 && aead.testBit 1
    (ok = true → Next (.negotiateAlgorithms asym hash dhe aead) s
      (Answers [0x63, 0x80, 0x02, 0x10, 0x02] { s.hpt.spdm with algs := true } s)) ∧
    (ok = false → Next (.negotiateAlgorithms asym hash dhe aead) s (Answers [0x7F, 1] s.hpt.spdm s))) ∧
  (∀ (n nonce off len i ses slot : Nat) (ok : Bool) (s : State), doeOpen s [1, 2] = true → s.hpt.spdm.algs = true →
    Next .getDigests s (Answers [0x01, 1, Config.sha384 Config.certChain] s.hpt.spdm s) ∧
    Next (.getCertificate 0 off len) s (fun t => let bs := (Config.certChain.drop off).take len
      Answers (0x02 :: 0 :: bs.length :: (Config.certChain.length - off - bs.length) :: bs.map (fun b => b.toNat)) s.hpt.spdm s t) ∧
    Next (.challenge 0 nonce) s (fun t => ∃ r, Answers ([0x03, Config.sha384 Config.certChain, r,
      Config.deviceSign [0x03, Config.sha384 Config.certChain, r, nonce]]) s.hpt.spdm s t) ∧
    (slot ≠ 0 → Next (.getCertificate slot off len) s (Answers [0x7F, 1] s.hpt.spdm s) ∧
      Next (.challenge slot nonce) s (Answers [0x7F, 1] s.hpt.spdm s)) ∧
    Next (.getMeasurements 0 ok nonce) s (Answers [0x60, 8] s.hpt.spdm s) ∧
    (n ≠ 0 → measured s n = none → Next (.getMeasurements n ok nonce) s (Answers [0x7F, 1] s.hpt.spdm s)) ∧
    (∀ m, measured s n = some m → n ≠ 0 → Next (.getMeasurements n false nonce) s (Answers (0x60 :: m) s.hpt.spdm s)) ∧
    (∀ m, measured s n = some m → n ≠ 0 → Next (.getMeasurements n true nonce) s (fun t => ∃ r, Answers (0x60 :: m ++
      [r, Config.deviceSign (0x60 :: m ++ [r, nonce])]) s.hpt.spdm s t)) ∧
    (i < 4 → sessionOf s i = 0 → (∀ j, j < i → sessionOf s j ≠ 0) → Next (.keyExchange n) s (fun t => ∃ r, Answers
      [0x64, i, r, Config.deviceSign [0x64, n, i, r]] { s.hpt.spdm with sessions := tset 0 s.hpt.spdm.sessions i 1 } s t)) ∧
    ((∀ j, j < 4 → sessionOf s j ≠ 0) → Next (.keyExchange n) s (Answers [0x7F, 0x0A] s.hpt.spdm s)) ∧
    (ses < 4 → sessionOf s ses = 1 → Next (.finish ses true) s
      (Answers [0x65] { s.hpt.spdm with sessions := tset 0 s.hpt.spdm.sessions ses 2 } s) ∧
      Next (.finish ses false) s (Answers [0x7F, 6] { s.hpt.spdm with sessions := tset 0 s.hpt.spdm.sessions ses 0 } s)) ∧
    (4 ≤ ses ∨ sessionOf s ses ≠ 1 → Next (.finish ses ok) s (Answers [0x7F, 4] s.hpt.spdm s)) ∧
    (ses < 4 → sessionOf s ses = 2 → Next (.heartbeat ses) s (Answers [0x68] s.hpt.spdm s) ∧
      Next (.keyUpdate ses) s (Answers [0x69] s.hpt.spdm s) ∧
      Next (.endSession ses) s (Answers [0x6C] { s.hpt.spdm with sessions := tset 0 s.hpt.spdm.sessions ses 0 } s)) ∧
    (4 ≤ ses ∨ sessionOf s ses ≠ 2 → Next (.heartbeat ses) s (Answers [0x7F, 2] s.hpt.spdm s) ∧
      Next (.keyUpdate ses) s (Answers [0x7F, 2] s.hpt.spdm s) ∧ Next (.endSession ses) s (Answers [0x7F, 2] s.hpt.spdm s)))


/-- R448, R460 to R463, R465 to R467, R502, R503, R585, R589, R590: what each pin does to the module, and the phases of a start from CONFIG
to READY, with the codes of a start that cannot complete; with a rail outside its range no behaviour is given, and the model stops. -/
def Obligations.PinsAndPhasesOfAStart : Prop :=
  (∀ s : State, exec (.pwrOkAssert false) s = .fault .failingRails ∧ (s.boot.pwrOk = true → exec (.pwrOkAssert true) s = .next s)) ∧
  (∀ s : State, s.boot.pwrOk = false → Next (.pwrOkAssert true) s (fun t => t.boot.pwrOk = true ∧ t.aoTick = 0 ∧
    MayStart (!s.boot.perst && s.boot.clocks && !s.boot.held) s t)) ∧
  (∀ s : State, Next .pwrOkDeassert s (fun t => HeldReset s t ∧ t.boot.pwrOk = false ∧ t.boot.held = !s.boot.perst ∧ t.pending = s.pending)) ∧
  (∀ s : State, Next .perstAssert s (fun t => HeldReset s t ∧ t.boot.perst = true ∧ t.boot.held = false ∧ t.boot.pwrOk = s.boot.pwrOk ∧
    t.pending = s.pending)) ∧
  (∀ s : State, Next .perstDeassert s (fun t => t.boot.perst = false ∧
    MayStart (s.boot.pwrOk && s.boot.clocks && !s.boot.held) s t)) ∧
  (∀ s : State, Next .referenceClockStable s (fun t => t.boot.clocks = true ∧
    MayStart (s.boot.pwrOk && !s.boot.perst && !s.boot.held) s t)) ∧
  (∀ (progA progB : Option (List Byte)) (s : State), s.powered = true →
    (s.boot.phase ≠ 0 ∨ s.boot.hot = true → exec (.config progA progB) s = .next s) ∧
    (s.boot.phase = 0 → s.boot.hot = false →
      let a := progA.getD s.boot.flash.cfgA
      let b := progB.getD s.boot.flash.cfgB
      Next (.config progA progB) s (fun t => t.boot.phase = 2 ∧ t.boot.flash.cfgA = a ∧ t.boot.flash.cfgB = b ∧
        t.boot.aBad = (s.boot.aBad || !imagePasses a) ∧
        (imagePasses a = true → t.boot.cfgSrc = 0 ∧ t.boot.image = a ∧ t.boot.reduced = false ∧ t.boot.cfgSeq = fieldOf a 8 4) ∧
        (imagePasses a = false → imagePasses b = true → t.boot.cfgSrc = 1 ∧ t.boot.image = b ∧ t.boot.reduced = false ∧
          t.boot.cfgSeq = fieldOf b 8 4) ∧
        (imagePasses a = false → imagePasses b = false → t.boot.cfgSrc = 2 ∧ t.boot.reduced = true ∧ t.boot.bBad = true ∧
          getF t pmcLimit = 600)))) ∧
  (∀ (stack : Nat) (s : State), s.powered = true → s.boot.phase = 2 → stack < 12 → stackReady s stack = false →
    Next (.hbmReady stack false) s (fun t => t.boot.phase = 7 ∧ t.boot.failCode = 0x31 ∧ t.boot.failSub = 0x14) ∧
    Next (.hbmReady stack true) s (fun t => (∀ n, n < 12 → stackReady t n = (decide (n = stack) || stackReady s n)) ∧
      (getF t hbmReady = 0xFFF → isOn t hptMemActive = true) ∧
      t.boot.phase = if getF t hbmReady = 0xFFF ∧ s.boot.s2Runs = true then 3 else 2)) ∧
  (∀ (aOk bOk : Bool) (s : State), s.powered = true → s.boot.phase = 2 → s.boot.s2Runs = false →
    ((aOk || bOk) = true → Next (.secondStageVerified aOk bOk) s (fun t => t.boot.s2Runs = true ∧ t.boot.s2Src = b2n (!aOk) ∧
      fwRuns t 0 = true ∧ t.boot.phase = if getF s hbmReady = 0xFFF then 3 else 2)) ∧
    ((aOk || bOk) = false → Next (.secondStageVerified aOk bOk) s (fun t => t.boot.phase = 7 ∧ t.boot.failCode = 0x22 ∧
      t.boot.failSub = 0x27))) ∧
  (∀ (socket : Nat) (s : State), s.powered = true → socket < 16 → getF s (sockState socket) = 1 →
    Next (.dcReady socket true) s (fun t => getF t (sockState socket) = 2 ∧ bit (getF t dcReady) socket = true) ∧
    Next (.dcReady socket false) s (fun t => t.regs = s.regs ∧ t.mm = s.mm)) ∧
  (∀ (target : Nat) (s : State), s.powered = true → InTurn (.bootGo target) s →
    (3 < target → exec (.bootGo target) s = .next s) ∧
    (target ≤ 3 → s.boot.phase = 4 ∨ s.boot.phase = 7 ∨ isOn s bootBusy = true → exec (.bootGo target) s = .next (setOn s bootGoLost)) ∧
    (target ≤ 3 → s.boot.phase ≠ 4 → s.boot.phase ≠ 7 → isOn s bootBusy = false → Next (.bootGo target) s (fun t =>
      t.boot.load = some (target, getF s bootSrc * 4096) ∧ isOn t bootBusy = true ∧ t.boot.phase = s.boot.phase))) ∧
  (∀ (target dpa : Nat) (s : State), s.powered = true → s.boot.load = some (target, dpa) → s.boot.phase = 3 → fwRuns s 0 = true →
    Next .firmwareLoadComplete s (fun t => t.boot.load = none ∧ isOn t bootBusy = false ∧
      getF t bootCode = (loadOutcome s target dpa).1 % 2 ^ 8 ∧ getF t bootSub = (loadOutcome s target dpa).2 % 2 ^ 8 ∧
      ((loadOutcome s target dpa).1 ≠ 0 → t.boot.phase = 3) ∧
      ((loadOutcome s target dpa).1 = 0 → target < 2 → fwRuns t (target + 1) = true ∧ t.boot.phase = 3) ∧
      ((loadOutcome s target dpa).1 = 0 → target = 2 → t.boot.phase = 4 ∧ ∀ cl, cl < 16 → cl ∉ s.pmc.retired →
        fwRuns t (3 + cl) = true ∧ powerOf t cl = 1))) ∧
  (∀ (target dpa : Nat) (s : State),
    (getF s bootLoaded + 1 ≠ 2 ^ target ∨ target = 3 → loadOutcome s target dpa = (0x22, 0x28)) ∧
    ((loadOutcome s target dpa).1 = 0 → getF s bootLoaded + 1 = 2 ^ target ∧ target ≠ 3 ∧
      let h := hbmBytes s dpa 256
      imageOk target (hbmBytes s dpa (256 + fieldOf h 16 4)) = true ∧ (target = 0 ∨ fieldOf h 8 4 = s.boot.abi)))


/-- R476 to R483: an expired watchdog stops its processor, which RECOVERY_COMPLETE starts again from its slot; an FWLOAD whose image passes
stages it in the other slot, and one whose image cannot be read or does not pass ends; the handover turns the FWLOAD's processor, or one
cluster after another, to that slot. -/
def Obligations.FirmwareRecoversAndUpdates : Prop :=
  (∀ (p : Nat) (s : State), s.powered = true → p < 19 → fwRuns s p = true →
    Next (.watchdogExpiry p) s (fun t => getF t (fwState p) = 2 ∧
      (3 ≤ p → ∀ k, (clusterOf s (p - 3)).casting = some k → (castingOf s k).live = true → (castingOf t k).ending.isSome = true) ∧
      (p = 0 → t.hpt.doeReq = none ∧ t.hpt.spdm.sessions = []))) ∧
  (∀ (p : Nat) (s : State), s.powered = true → p < 19 → getF s (fwState p) = 2 →
    Next (.recoveryComplete p) s (fun t => fwRuns t p = true ∧ getF t (fwResets p) = min (getF s (fwResets p) + 1) 255 ∧
      getF t (fwImageVer p) = tget 0 s.boot.dir.vers (2 * (procImage s p).1 + (procImage s p).2) % 2 ^ 32 ∧ t.mm = s.mm ∧ t.sch = s.sch)) ∧
  (∀ (q : Nat) (c : Cmd) (s0 s : State), GoesOnIn 10 q fwloadOk c s0 s → fwRuns s0 0 = true → (∀ x ∈ startedQueues s0 10, x = q) →
    c.stage = 0 →
    let n := fieldOf c.bytes 40 4
    let va := fieldOf c.bytes 32 8
    let a : Acc2 := { cmdAccess s q with agent := agFw 0 }
    (n < 4352 ∨ 8384768 < n → exec (.fwload q) s0 = .next (endCommand q (fwBad 0x27) 0 s)) ∧
    (4352 ≤ n → n ≤ 8384768 →
      (∀ s1, hbmPages a ((n + 4095) / 4096) va s = (s1, .wait) → exec (.fwload q) s0 = .next s1) ∧
      (∀ s1 e, hbmPages a ((n + 4095) / 4096) va s = (s1, .fail e) → exec (.fwload q) s0 = .next (endCommand q e 0 s1)) ∧
      (∀ s1 s2, hbmPages a ((n + 4095) / 4096) va s = (s1, .ok ()) →
        (readSpanVa a va n s1 = (s2, .wait) → exec (.fwload q) s0 = .next s2) ∧
        (∀ e, readSpanVa a va n s1 = (s2, .fail e) → exec (.fwload q) s0 = .next (endCommand q (fwBad 0x27) 0 s2)) ∧
        (∀ im, readSpanVa a va n s1 = (s2, .ok im) →
          (∀ e, fwRefusal s2 c im = some e → exec (.fwload q) s0 = .next (endCommand q e 0 s2)) ∧
          (fwRefusal s2 c im = none → headCmd s2 q ≠ none → Next (.fwload q) s0 (fun t =>
            let k := 2 * fwTarget c + (1 - dirSlot s2 (fwTarget c))
            tget 0 t.boot.dir.vers k = fieldOf im 12 4 ∧ tget 0 t.boot.dir.digests k = fieldOf im 32 48 ∧
            t.boot.dir.slots = s2.boot.dir.slots ∧ (fwTarget c = 3 → t.boot.flash.s2A = im ∧ t.boot.flash.s2B = im) ∧
            ∃ m, headCmd t q = some m ∧ m.stage = 1 ∧ m.bytes = c.bytes ∧ nth 0 m.work 1 = 1 - dirSlot s2 (fwTarget c))))))) ∧
  (∀ (q : Nat) (c : Cmd) (s : State), Runs 10 q c s → c.stage = 1 → fwTarget c ≠ 2 → fwTarget c ≤ 3 → fwRuns s 0 = true →
    let p := if fwTarget c = 3 then 0 else fwTarget c + 1
    let k := 1 - dirSlot s (fwTarget c)
    fwRuns s p = true → ∃ u, dirSlot u (fwTarget c) = k ∧ fwRuns u p = true ∧ u.mm = s.mm ∧ u.sch = s.sch ∧
      getF u (fwImageVer p) = tget 0 s.boot.dir.vers (2 * fwTarget c + k) % 2 ^ 32 ∧
      exec (.handover q) s = .next (endCommand q okEnd 0 u)) ∧
  (∀ (q cl : Nat) (c : Cmd) (s : State), Runs 10 q c s → c.stage = 1 → fwTarget c = 2 → fwRuns s 0 = true →
    let left := nth 0 c.work 0
    nextHandover s left = some cl → getF s (fwState (3 + cl)) ≠ 2 → ∃ u,
      bit u.boot.dir.clSlots cl = decide (nth 0 c.work 1 = 1) ∧ (∀ n, n < 16 → n ≠ cl → bit u.boot.dir.clSlots n = bit s.boot.dir.clSlots n) ∧
      (fwRuns s (3 + cl) = true → fwRuns u (3 + cl) = true ∧
        getF u (fwImageVer (3 + cl)) = tget 0 s.boot.dir.vers (4 + nth 0 c.work 1) % 2 ^ 32) ∧
      (fwRuns s (3 + cl) = false → u.regs = s.regs) ∧
      (∃ m, headCmd u q = some m ∧ nth 0 m.work 0 = setBit left cl false ∧ m.bytes = c.bytes ∧ m.started = true) ∧
      exec (.clusterHandover q cl) s = .next (if setBit left cl false = 0 then endCommand q okEnd 0 u else u))


/-- R491 to R501, R504 to R506: a power sample sets the means and the device target; a cluster moves to its clock with a rail near its
neighbours'; a thermal sample caps, holds at 400 MHz or trips; clusters go to IDLE, CHILL and COLD and wake again, keeping or losing what
the state keeps or loses. -/
def Obligations.PowerAndTemperature : Prop :=
  (∀ (w : Nat) (s : State), pmcRuns s = true → Next (.powerSample w) s (fun t => t.pmc.samples = (w :: s.pmc.samples).take 100 ∧
    getF t pmcInput = min 4095 (meanOf t.pmc.samples) ∧ getF t pmcPeak = min 4095 (peakOf t.pmc.samples) ∧
    isOn t pmcLimiting = decide (t.pmc.target < 1800) ∧ t.pmc.target ≤ max 400 (s.pmc.target + 50) ∧
    (400 ≤ s.pmc.target → s.pmc.target ≤ 1800 → 400 ≤ t.pmc.target ∧ t.pmc.target ≤ 1800))) ∧
  (∀ (v : Nat) (s : State), s.powered = true → InTurn (.pmcLimitWrite v) s →
    (s.boot.reduced = false → Next (.pmcLimitWrite v) s (fun t => getF t pmcLimit = v % 2 ^ 12 ∧ 600 ≤ limitW t ∧ limitW t ≤ 2400)) ∧
    (s.boot.reduced = true → exec (.pmcLimitWrite v) s = .next s)) ∧
  (∀ (cl : Nat) (s : State), pmcRuns s = true → cl < 16 → getF s (clState cl) ≤ 1 → movingOf s cl = 0 → heldSlow s = false → RailsOk s →
    Next (.operatingPointChange cl (chosenMhz s cl)) s (fun t => getF t (clCclk cl) = chosenMhz s cl / 50 ∧
      railMv (chosenMhz s cl) ≤ getF t (clVolt cl) ∧ RailsOk t ∧ t.mm = s.mm ∧
      ∀ n ∈ liveNeighbours s cl, getF t (clVolt n) ≤ getF t (clVolt cl) + 200 ∧ getF t (clVolt cl) ≤ getF t (clVolt n) + 200)) ∧
  (∀ (temps : List Nat) (s : State), s.powered = true → temps.length = 80 →
    (115 < hottestAll temps → Next (.thermalSample temps) s (fun t => HeldReset s t ∧ t.boot.trip = true ∧ t.boot.held = true)) ∧
    (hottestAll temps ≤ 115 → Next (.thermalSample temps) s (fun t => getF t pmcTjMax = hottestAll temps ∧
      (∀ cl, cl < 16 → getF t (clTemp cl) = hottest temps cl) ∧
      isOn t pmcHold = (decide (105 < hottestAll temps) || (isOn s pmcHold && decide (100 ≤ hottestAll temps))) ∧
      (105 < hottestAll temps → ∀ cl, cl < 16 → getF s (clState cl) = 0 → getF t (clCclk cl) = 8) ∧
      (pmcRuns s = true → ∀ cl, cl < 16 → 95 < hottest temps cl → capThermal t cl = max 400 (capThermal s cl - 50)) ∧ t.mm = s.mm))) ∧
  (∀ (cl : Nat) (s : State), s.powered = true → cl < 16 → getF s (clState cl) = 0 → movingOf s cl = 0 → clusterBusy s cl = false →
    Next (.idleEntry cl) s (fun t => powerOf t cl = 1 ∧ sinceOf t cl = s.aoTick ∧ t.mm = s.mm)) ∧
  (∀ (cl : Nat) (s : State), pmcRuns s = true → cl < 16 → movingOf s cl = 0 → clusterWanted s cl = false → cl ∉ s.pmc.wake →
    (getF s (clState cl) = 1 → clusterBusy s cl = false → getF s (clChillDelay cl) ≠ 0 → clusterReserved s cl = false →
      flasked s (agTundish cl) = false → Next (.chillDelayExpiry cl) s (fun t => movingOf t cl = 1 ∧ t.mm = s.mm ∧
        t.aoTick = max s.aoTick (sinceOf s cl + 250 * getF s (clChillDelay cl)))) ∧
    (getF s (clState cl) = 2 → isOn s (clColdEn cl) = true → Next (.coldDelayExpiry cl) s (fun t => movingOf t cl = 2 ∧ t.mm = s.mm ∧
      sinceOf s cl + 25000 ≤ t.aoTick))) ∧
  (∀ (cl : Nat) (s : State), s.powered = true → cl < 16 →
    (movingOf s cl = 1 → Next (.chillEntryComplete cl) s (fun t => powerOf t cl = 2 ∧ movingOf t cl = 0 ∧ t.mm.mem = s.mm.mem ∧
      ∀ g ∈ coresOf cl, coreOf t g = { cmem := (coreOf s g).cmem, cwild := (coreOf s g).cwild, ctame := (coreOf s g).ctame })) ∧
    (movingOf s cl = 2 → Next (.coldEntryComplete cl) s (fun t => powerOf t cl = 3 ∧ movingOf t cl = 0 ∧
      (∀ g ∈ coresOf cl, coreOf t g = {}) ∧ ∀ o, o < 2 ^ 24 → tget 0 t.mm.mem (aperLoc cl o) = 0)) ∧
    (movingOf s cl = 3 → Next (.wakeComplete cl) s (fun t => powerOf t cl = 1 ∧ movingOf t cl = 0 ∧
      (getF s (clState cl) = 3 → fwRuns t (3 + cl) = true ∧ ∀ g ∈ coresOf cl, coreOf t g = {}) ∧
      (getF s (clState cl) ≠ 3 → t.cores = s.cores ∧ t.mm = s.mm)))) ∧
  (∀ (cl : Nat) (s : State), pmcRuns s = true → cl ∈ s.pmc.wake → movingOf s cl = 0 → Next (.wakeRequest cl) s (fun t =>
    cl ∉ t.pmc.wake ∧ movingOf t cl = (if 2 ≤ getF s (clState cl) ∧ cl ∉ s.pmc.retired then 3 else 0) ∧ t.mm = s.mm))

/-- R453, R508 to R511, R515 to R530, R592, R595: service commands start on their queue's turn and end with what their fields, their
block's state and their test say; sockets change state; scrub counts what it corrects and poisons what it cannot; the oldest entry of the
error ring is written where its page and line let it. -/
def Obligations.ServiceCommandsAndErrors : Prop :=
  (∀ (i : Instr) (q code op : Nat) (ok : Cmd → Bool) (c : Cmd) (s : State), serviceOf i = some (q, code, op, ok) → Turn code q c s → q < 512 →
    pmcRuns s = true → (∀ x ∈ startedQueues s 8 ++ startedQueues s 9, x = q) →
    (code = 9 → s.boot.reduced = true → exec i s = .next (endCommand q ⟨stAborted, 0x70, 0x12, agFw 1, 0⟩ 0 (useCredit q s))) ∧
    (code = 8 ∨ s.boot.reduced = false → ok c = false → exec i s = .next (endCommand q (svcBad 0x11) 0 (useCredit q s))) ∧
    (code = 8 ∨ s.boot.reduced = false → ok c = true → svcOp c = op → c.draining = 0 → exec i s = exec i (started q c s))) ∧
  (∀ (i : Instr) (q op : Nat) (b : Block) (passed : Bool) (bar : State → Block → Bool) (pass : State → State) (c : Cmd) (s : State),
    Serves 8 op q c s → blockOf (svcTarget c) = some b →
    (i = .test q passed ∧ op = 1 ∧ bar = testBar ∧ pass = passBlock b) ∨
      (i = .reinstate q passed ∧ op = 4 ∧ bar = reinstateBar ∧ pass = reinstatePass (svcStore c) b) →
    (c.stage = 0 → bar s b = true → exec i s = .next (endCommand q (svcBad 0x2D) 0 s)) ∧
    (c.stage = 1 ∨ (c.stage = 0 ∧ bar s b = false) →
      (blockIdle s b = false → exec i s = .next (setHead s q { c with stage := 1 })) ∧
      (blockIdle s b = true → exec i s = .next (flaskBlock (svcTarget c) b (setHead s q { c with stage := 2 })) ∧
        isOn (flaskBlock (svcTarget c) b s) bistActive = true ∧ getF (flaskBlock (svcTarget c) b s) bistTarget = svcTarget c)) ∧
    (c.stage = 2 → passed = true → exec i s = .next (endCommand q okEnd 0 (pass (unflask s)))) ∧
    (c.stage = 2 → passed = false → exec i s = .next (endCommand q (selftestFail (svcTarget c)) 0
      (errEvent 0x08 (svcTarget c) 0x31 0x15 (svcUnit c) 0 (storeIf (svcStore c) (failBlock b (unflask s))))))) ∧
  (∀ (n : Nat) (store : Bool) (s : State),
    (n < 16 → InService n (passBlock (.cluster n) s) ∧ OutOfService n (failBlock (.cluster n) s) ∧
      InService n (reinstatePass store (.cluster n) s) ∧ n ∉ (reinstatePass store (.cluster n) s).pmc.retired ∧
      bit (reinstatePass store (.cluster n) s).boot.map.clusters n = false) ∧
    (n < 64 → passBlock (.slice n) s = s ∧ bit (failBlock (.slice n) s).boot.map.slices n = true) ∧
    (n < 16 → (∀ a, inSocket n a = true → tget 0 (passBlock (.deep n) s).mm.mem a = 0) ∧ bit (failBlock (.deep n) s).boot.map.carts n = true) ∧
    (n < 24 → getF s (pState n) ≠ 2 → getF (passBlock (.port n) s) (pState n) = (if isOn s (pEnable n) then 1 else 0) ∧
      ∃ u, failBlock (.port n) s = endHeld n u ∧ getF u (pState n) = 0 ∧ bit u.boot.map.ports n = true) ∧
    isOn (unflask s) bistActive = false ∧ (storeIf true s).boot.flash.cfgA = (storeIf true s).boot.flash.cfgB ∧ storeIf false s = s) ∧
  (∀ (q n : Nat) (passed : Bool) (c : Cmd) (s : State), Serves 8 2 q c s →
    ((n < 12 ∧ svcTarget c = agHbm n) ∨ (n < 16 ∧ svcTarget c = agDeep n ∧ socketMapped s n = true) → ∃ sub, Next (.recal q passed) s
      (EndsIn q (if passed then okEnd else faultEnd 0x31 sub (svcTarget c) 0) (fun x => x.mm = s.mm ∧ x.boot.map = s.boot.map))) ∧
    (n < 16 → svcTarget c = agDeep n → socketMapped s n = false → exec (.recal q passed) s = .next (endCommand q (svcBad 0x2D) 0 s)) ∧
    (n < 24 → svcTarget c = agPort n →
      (c.stage ≠ 1 → isOn s (pEnable n) = false ∨ getF s (pState n) = 3 ∨ bit s.boot.map.ports n = true →
        exec (.recal q passed) s = .next (endCommand q (svcBad 0x2D) 0 s)) ∧
      (c.stage ≠ 1 → isOn s (pEnable n) = true → getF s (pState n) ≠ 3 → bit s.boot.map.ports n = false →
        exec (.recal q passed) s = .next (startTraining n (setHead s q { c with stage := 1 }))) ∧
      (c.stage = 1 → getF s (pState n) = 1 → exec (.recal q passed) s = .next s) ∧
      (c.stage = 1 → getF s (pState n) = 2 → exec (.recal q passed) s = .next (endCommand q okEnd 0 (storeIf (svcStore c) s))) ∧
      (c.stage = 1 → getF s (pState n) ≠ 1 → getF s (pState n) ≠ 2 → ∃ sub, Next (.recal q passed) s
        (EndsIn q (faultEnd 0x31 sub (agPort n) 0) (fun x => x.mm = s.mm ∧ x.boot.map = s.boot.map))))) ∧
  (∀ (q n : Nat) (c : Cmd) (s : State), Serves 8 3 q c s → n < 16 → svcTarget c = agTundish n →
    (s.pmc.retired.contains n = true → exec (.retire q) s = .next (endCommand q (svcBad 0x2D) 0 s)) ∧
    (s.pmc.retired.contains n = false → (clusterOf s n).casting ≠ none ∨ movingOf s n ≠ 0 → exec (.retire q) s = .next s) ∧
    (s.pmc.retired.contains n = false → (clusterOf s n).casting = none → movingOf s n = 0 →
      Next (.retire q) s (EndsIn q okEnd (OutOfService n)))) ∧
  (∀ (q n : Nat) (c : Cmd) (s : State), Serves 8 3 q c s → n < 64 → svcTarget c = agSlice n →
    (bit (retiredSlices s) n = true → exec (.retire q) s = .next (endCommand q (svcBad 0x2D) 0 s)) ∧
    (bit (retiredSlices s) n = false → (∃ e ∈ s.sch.castings, (e.2.live && e.2.sched) = true) ∨
      (∃ l ∈ homedLines n s, lineBusy s l none none none = true) → exec (.retire q) s = .next s) ∧
    (bit (retiredSlices s) n = false → (∀ e ∈ s.sch.castings, (e.2.live && e.2.sched) = false) →
      (∀ l ∈ homedLines n s, lineBusy s l none none none = false) →
      Next (.retire q) s (EndsIn q okEnd (fun x => x.mm.mem = s.mm.mem ∧ ∀ h, h < 64 →
        (getF s (homeMap h) = n → getF x (homeMap h) = substitute (setBit (retiredSlices s) n true) n ∧ isOn x (homeRetired h) = true) ∧
        (getF s (homeMap h) ≠ n → getF x (homeMap h) = getF s (homeMap h)))))) ∧
  (∀ (q : Nat) (fs : List Nat) (c : Cmd) (s : State), Serves 8 5 q c s →
    let found := foundMap fs
    let bad := failedBlocks found
    ((∃ e ∈ s.sch.queues, b2n (decide (e.1 = q)) < e.2.fetched.length) → Next (.shutdown q fs) s (fun t =>
      t.sch.shutdown = true ∧ t.mm = s.mm ∧ ∃ m, headCmd t q = some m ∧ m.stage = 2)) ∧
    ((∀ e ∈ s.sch.queues, e.2.fetched.length ≤ b2n (decide (e.1 = q))) → Next (.shutdown q fs) s
      (EndsIn q ⟨stDone, if bad.isEmpty then 0 else 1, 0, (nth (0, 0) bad 0).1, 0⟩ (fun x => x.sch.shutdown = true ∧
        x.boot.map = newMap s (bit (fieldOf c.bytes 25 1) 1) found ∧ (s.xl.wins = [] → x.mm.mem = []))))) ∧
  (∀ (q : Nat) (c : Cmd) (s s1 s2 : State), Serves 8 6 q c s → let a : Acc2 := { cmdAccess s q with agent := agFw 1 }
    let bs := (s.boot.image ++ List.replicate (65536 - s.boot.image.length) 0xFF).take 65536
    (translateRange a true 17 (svcAddr c) 65536 s = (s1, .wait) → exec (.cfgRead q) s = .next s1) ∧
    (translateRange a true 17 (svcAddr c) 65536 s = (s1, .ok ()) →
      (writeRange a none 514 (svcAddr c) bs s1 = (s2, .ok ()) → exec (.cfgRead q) s = .next (endCommand q okEnd 0 s2)) ∧
      (writeRange a none 514 (svcAddr c) bs s1 = (s2, .wait) → exec (.cfgRead q) s = .next s2) ∧
      (∀ e, writeRange a none 514 (svcAddr c) bs s1 = (s2, .fail e) → exec (.cfgRead q) s = .next (endCommand q e 0 s2)))) ∧
  (∀ (q : Nat) (image bs : List Byte) (back : Bool) (c : Cmd) (s s1 : State), Serves 8 7 q c s →
    let a : Acc2 := { cmdAccess s q with agent := agFw 1 }
    let im := renewed ((s1.boot.cfgSeq + 1) % 2 ^ 32) bs
    (cfgPages a image (svcAddr c) 16 s = (s1, .wait) → exec (.cfgWrite q image back) s = .next s1) ∧
    (∀ e, cfgPages a image (svcAddr c) 16 s = (s1, .fail e) → exec (.cfgWrite q image back) s = .next (endCommand q e 0 s1)) ∧
    (cfgPages a image (svcAddr c) 16 s = (s1, .ok bs) →
      (imagePasses im = false → exec (.cfgWrite q image back) s = .next (endCommand q (svcBad 0x2C) 0 s1)) ∧
      (imagePasses im = true → back = false → Next (.cfgWrite q image back) s (EndsIn q (svcBad 0x2C) (fun x =>
        x.boot.flash.cfgA = s1.boot.flash.cfgA ∧ x.boot.flash.cfgB = [] ∧ x.boot.image = s1.boot.image ∧ x.mm = s1.mm))) ∧
      (imagePasses im = true → back = true → Next (.cfgWrite q image back) s (EndsIn q okEnd (fun x => x.boot.flash.cfgA = im ∧
        x.boot.flash.cfgB = im ∧ x.boot.image = s1.boot.image ∧ x.mm = s1.mm))))) ∧
  (∀ (q : Nat) (c : Cmd) (s : State), Serves 9 1 q c s →
    let n := svcSocket c
    let ro := if getF s (sockState n) = 2 then makeReadOnly n s else s
    let a : Acc2 := { cmdAccess ro q with agent := agSph }
    let list := readRange a none (svcCount c / 4 + 2) (svcAddr c) (32 * svcCount c) ro
    getF (makeReadOnly n s) (sockState n) = 3 ∧
    (getF s (sockState n) ≠ 2 → getF s (sockState n) ≠ 3 → exec (.evacuate q) s = .next (endCommand q (svcBad 0x2D) 0 s)) ∧
    (getF s (sockState n) = 2 ∨ getF s (sockState n) = 3 →
      ((∃ l ∈ cachedLines n s, lineBusy s l none none none = true) → exec (.evacuate q) s = .next s) ∧
      ((∀ l ∈ cachedLines n s, lineBusy s l none none none = false) → ∀ s1,
        (list = (s1, .wait) → exec (.evacuate q) s = .next s1) ∧
        (∀ e, list = (s1, .fail e) → exec (.evacuate q) s = .next (endCommand q e 0 s1)) ∧
        (∀ bs, list = (s1, .ok bs) →
          ((∃ i, i < svcCount c ∧ extentOk (extent bs i) = false) → exec (.evacuate q) s = .next (endCommand q (svcBad 0x11) 0 s1)) ∧
          ((∀ i, i < svcCount c → extentOk (extent bs i) = true) →
            let r := evacAll a n bs (svcCount c - nth 0 c.work 0) (nth 0 c.work 0) (nth 0 c.work 1) s1
            ∀ s2 i k, (r = (s2, (i, k), .ok ()) → exec (.evacuate q) s = .next (endCommand q okEnd 0 s2)) ∧
              (r = (s2, (i, k), .wait) → exec (.evacuate q) s = .next (setHead s2 q { c with work := [i, k] })) ∧
              (∀ e, r = (s2, (i, k), .fail e) → exec (.evacuate q) s =
                .next (endCommand q { e with st := stFault, addr := lowestLeft bs (svcCount c) i } 0 s2))))))) ∧
  (∀ (q : Nat) (c : Cmd) (s : State), Serves 9 2 q c s → svcSocket c < 16 → let n := svcSocket c
    (getF s (sockState n) ≠ 3 → exec (.release q) s = .next (endCommand q (svcBad 0x2D) 0 s)) ∧
    (getF s (sockState n) = 3 → (∃ l ∈ cachedLines n s, lineBusy s l none none none = true) → exec (.release q) s = .next s) ∧
    (getF s (sockState n) = 3 → (∀ l ∈ cachedLines n s, lineBusy s l none none none = false) → Next (.release q) s (EndsIn q okEnd
      (fun x => getF x (sockState n) = 4 ∧ bit (getF x dcReady) n = false ∧ x.mm.mem = s.mm.mem)))) ∧
  (∀ (q : Nat) (passed : Bool) (c : Cmd) (s : State), Serves 9 3 q c s → svcSocket c < 16 → let n := svcSocket c
    ((getF s (sockState n) ≠ 0 ∧ getF s (sockState n) ≠ 4) ∨ bit s.boot.present n = false →
      exec (.admitCartridge q passed) s = .next (endCommand q (svcBad 0x2D) 0 s)) ∧
    (getF s (sockState n) = 0 ∨ getF s (sockState n) = 4 → bit s.boot.present n = true → Next (.admitCartridge q passed) s
      (EndsIn q (if passed then okEnd else faultEnd 0x31 0x16 (agDeep n) 0) (fun x =>
        (passed = true → getF x (sockState n) = 2 ∧ bit (getF x dcReady) n = true ∧ x.boot.flash.cfgA = x.boot.flash.cfgB ∧
          ∀ a, inSocket n a = true → tget 0 x.mm.mem a = 0) ∧
        (passed = false → getF x (sockState n) = getF s (sockState n) ∧ x.mm = s.mm))))) ∧
  (∀ (q : Nat) (c : Cmd) (s : State), Serves 9 4 q c s → svcSocket c < 16 →
    (getF s (sockState (svcSocket c)) ≠ 3 → exec (.resume q) s = .next (endCommand q (svcBad 0x2D) 0 s)) ∧
    (getF s (sockState (svcSocket c)) = 3 → Next (.resume q) s (EndsIn q okEnd (fun x =>
      getF x (sockState (svcSocket c)) = 2 ∧ x.mm = s.mm)))) ∧
  (∀ (n : Nat) (s : State), n < 16 → let mapped := s.powered = true ∧ getF s (sockState n) ≠ 0 ∧ getF s (sockState n) ≠ 4
    (bit s.boot.present n = true → mapped →
      Next (.cartridgePulled n) s (fun t => getF t (sockState n) = 0 ∧ isOn t (sockPresent n) = false ∧ bit t.boot.present n = false ∧
        bit (getF t dcReady) n = false ∧ (∀ l ∈ cachedLines n s, poisoned t (128 * l) = true) ∧
        ∀ a, inSocket n a = true → tget 0 t.mm.mem a = 0)) ∧
    (bit s.boot.present n = true → ¬mapped → exec (.cartridgePulled n) s = .next (setPresent n false s)) ∧
    (bit s.boot.present n = false → exec (.cartridgePulled n) s = .next s ∧ exec (.cartridgeRemoved n) s = .next s ∧
      Next (.cartridgeInserted n) s (fun t => isOn t (sockPresent n) = true ∧ bit t.boot.present n = true ∧
        t.mm = s.mm ∧ getF t (sockState n) = getF s (sockState n))) ∧
    (bit s.boot.present n = true → exec (.cartridgeInserted n) s = .next s) ∧
    (bit s.boot.present n = true → s.powered = true → getF s (sockState n) = 4 → Next (.cartridgeRemoved n) s (fun t =>
      getF t (sockState n) = 0 ∧ isOn t (sockPresent n) = false ∧ bit t.boot.present n = false)) ∧
    (bit s.boot.present n = true → s.powered = false ∨ getF s (sockState n) = 0 →
      exec (.cartridgeRemoved n) s = .next (setPresent n false s)) ∧
    (bit s.boot.present n = true → mapped → exec (.cartridgeRemoved n) s = .next s)) ∧
  (∀ (loc kind k ag : Nat) (s : State), s.powered = true →
    (placeOf loc = .hbm k ∧ stackReady s k = true ∧ ag = agHbm k) ∨
      (placeOf loc = .firmware ∧ stackReady s (loc / 4096 % 12) = true ∧ ag = agHbm (loc / 4096 % 12)) ∨
      (∃ off, placeOf loc = .raw k off ∧ socketMapped s k = true ∧ ag = agDeep k) →
    (kind = 0 → exec (.scrub loc kind) s = .next s) ∧
    (kind = 1 → Next (.scrub loc kind) s (fun t => t.mm = s.mm ∧ ∃ e ∈ t.err.merging, e.agent = ag)) ∧
    (kind = 2 → Next (.scrub loc kind) s (fun t => poisoned t loc = true ∧ t.mm.mem = s.mm.mem ∧ t.sch = s.sch))) ∧
  (∀ s : State, s.powered = true → let u := flushMerged s
    let k := u.err.prod
    let va := getF u errAddr * 4096 + 32 * (k % 2 ^ errLog u)
    let p : PostedWrite := ⟨3, 0, va, [], agFw 1, !u.hpt.bme⟩
    let may := pmcRuns u = true ∧ isOn u errEnable = true ∧ (k + 2 ^ 32 - getF u errCons) % 2 ^ 32 < 2 ^ errLog u ∧ ∀ p ∈ u.xl.posted, p.kind ≠ 3
    (u.err.buf = [] ∨ ¬may → exec .errorRingWrite s = .next u) ∧
    (∀ e rest s1, u.err.buf = e :: rest → may →
      (translate (reportAccess 0) va true u = (s1, .wait) →
        exec .errorRingWrite s = .next { s1 with xl := { s1.xl with posted := s1.xl.posted ++ [p] } }) ∧
      (∀ ta s2, translate (reportAccess 0) va true u = (s1, .ok ta) →
        (landWrite { p with data := entryBytes k e } ta s1 = (s2, .ok ()) → exec .errorRingWrite s = .next (popEntry s2)) ∧
        (landWrite { p with data := entryBytes k e } ta s1 = (s2, .wait) → exec .errorRingWrite s = .next s2) ∧
        (∀ x, landWrite { p with data := entryBytes k e } ta s1 = (s2, .fail x) →
          exec .errorRingWrite s = .next (dropWrite p x.code x.sub s2)))) ∧
    (∀ code sub s1, isOn (dropWrite p code sub s1) errEnable = false ∧ (dropWrite p code sub s1).err.buf = s1.err.buf ∧
      (dropWrite p code sub s1).err.interrupted = some (code, sub, va))) ∧
  (∀ (k : Nat) (e : ErrEnt), let b := entryBytes k e
    b.length = 32 ∧ fieldOf b 0 4 = (k + 1) % 2 ^ 32 ∧ fieldOf b 4 1 = e.typ % 2 ^ 8 ∧ fieldOf b 5 1 = e.flags % 2 ^ 8 ∧
    fieldOf b 6 2 = e.agent % 2 ^ 16 ∧ fieldOf b 8 1 = e.code % 2 ^ 8 ∧ fieldOf b 9 1 = e.sub % 2 ^ 8 ∧ fieldOf b 10 2 = e.count % 2 ^ 16 ∧
    fieldOf b 12 4 = e.detail % 2 ^ 32 ∧ fieldOf b 16 8 = e.addr % 2 ^ 64 ∧ fieldOf b 24 8 = e.tick % 2 ^ 64) ∧
  (∀ s : State, (popEntry s).err.prod = (s.err.prod + 1) % 2 ^ 32 ∧ (s.err.buf.length ≤ 256 → (popEntry s).err.drops = 0) ∧
    (s.err.drops = 0 → (popEntry s).err.buf = s.err.buf.drop 1) ∧
    (s.err.drops ≠ 0 → s.err.buf.length ≤ 256 → (popEntry s).err.buf =
      s.err.buf.drop 1 ++ [⟨0x0B, 0, agFw 1, 0, 0, min 0xFFFF s.err.drops, 0, 0, s.err.dropTick⟩])) ∧
  (∀ (q tag : Nat) (s : State), s.powered = true → isOn s bistActive = true →
    (schedulerUp s = true → heldLaunch q s = true → exec (.selftestHoldExpiry 0 q) s =
      .next (endCommand q ⟨stAborted, 0x60, 0, getF s bistTarget, 0⟩ 0 (useCredit q s))) ∧
    (∀ c, headCmd s q = some c → pmcRuns s = true → hasUnstarted s q = true → cOp c = 9 → getF s bistTarget = agDeep (svcSocket c) →
      exec (.selftestHoldExpiry 2 q) s = .next (endCommand q ⟨stAborted, 0x60, 0, getF s bistTarget, 0⟩ 0 (useCredit q s))) ∧
    (∀ r, s.xl.wins.find? (fun r => decide (r.tag = tag) && r.back.isNone && flasked s (agPort r.port)) = some r →
      ∃ u, r ∉ u.xl.wins ∧ u.mm = s.mm ∧
        exec (.selftestHoldExpiry 1 tag) s = .next (endWaiter 0 0 ⟨stAborted, 0x60, 0, agPort r.port, r.va⟩ u r.who)))


/-- R9, R10, R245, R541, R542, R544 to R546, R551, R555, R557, R558, R562, R576, R577, R587: the freeze trigger and what it freezes, a counter
that wraps, a trace record written, the way lock, a key regenerated while accesses under its selector wait, an unlock token, and register
writes: one ill-sized, one of a read-write register, one of status bits with and without a hardware update in its cycle, one to a block under
self-test and one to a cluster in COLD. -/
def Obligations.ObservationKeysAndRegisters : Prop :=
  (∀ (n : Nat) (s : State), s.powered = true →
    (InTurn .fire s → exec .fire s = .next (raiseTrigger 0 s)) ∧
    (InTurn .rearm s → Next .rearm s (fun t => isOn t trigFrozen = false ∧ ∀ f : FRef, f.key ≠ trigFrozen.key → getF t f = getF s f)) ∧
    (2 ≤ n → exec (.trigIn n) s = .next (raiseTrigger 1 s)) ∧
    (n < 2 → exec (.trigIn n) s = .next (raiseTrigger 1 (bumpFree s 1)) ∨ exec (.trigIn n) s = .next (bumpFree s 1))) ∧
  (∀ (k : Nat) (s : State),
    (bit (getF s trigSrc) k = true → isOn s trigFrozen = false → s.trc.trigger = none →
      raiseTrigger k s = { s with trc := { s.trc with trigger := some (s.aoTick + 2, k) } }) ∧
    (bit (getF s trigSrc) k = false ∨ isOn s trigFrozen = true ∨ s.trc.trigger ≠ none → raiseTrigger k s = s)) ∧
  (∀ (tick cause : Nat) (s : State), s.powered = true → s.trc.trigger = some (tick, cause) → cause < 6 →
    Next .counterFreeze s (fun t => isOn t trigFrozen = true ∧ getF t trigCause = cause ∧ t.trc.trigger = none ∧
      t.aoTick = max s.aoTick tick ∧ getF t freezeFret = getF s amxFret % 2 ^ 64 ∧ getF t freezeTs = t.ts % 2 ^ 64 ∧
      (∀ u i, getF t (cntCount u i) = getF s (cntCount u i)) ∧
      ∀ u, u < 17 → (traceUnit s u).fifo.length < 256 → ∃ r, (traceUnit t u).fifo = (traceUnit s u).fifo ++ [r] ∧ r.typ = 0x0C ∧
        r.ts = t.ts ∧ r.arg = cause)) ∧
  (∀ (u i : Nat) (s : State), s.powered = true → u < 209 → i < counterCount u → isOn s trigFrozen = false → isOn s (selEnable u i) = true →
    getF s (selEvent u i) ≠ 0 → getF s (cntCount u i) = 2 ^ 48 - 1 →
    Next (.counterWrap u i) s (fun t => getF t (cntCount u i) = 0 ∧ isOn t (cntOvf u i) = true ∧
      (isOn s (selTrig u i) = true → bit (getF s trigSrc) 3 = true → s.trc.trigger = none → t.trc.trigger = some (s.aoTick + 2, 3)))) ∧
  (∀ (u : Nat) (r : TraceRec) (rest : List TraceRec) (s : State), s.powered = true → u < 17 → isOn s (ringEnable u) = true →
    (traceUnit s u).fifo = r :: rest → let k := getF s (ringProd u)
    let dpa := getF s (ringDpa u) * 4096 + 32 * (k % 2 ^ ringLog s u)
    (ringPlace dpa = false → exec (.traceRecordWrite u) s = .next (setOn s trcRingErr)) ∧
    (ringPlace dpa = true → isOn s (ringWrap u) = false → 2 ^ ringLog s u ≤ (k + 2 ^ 32 - getF s (ringCons u)) % 2 ^ 32 →
      exec (.traceRecordWrite u) s = .next s) ∧
    (ringPlace dpa = true → isOn s (ringWrap u) = true ∨ (k + 2 ^ 32 - getF s (ringCons u)) % 2 ^ 32 < 2 ^ ringLog s u →
      (lineBusy s (lineOf (locOf dpa)) none none none = true ∨ writeBar s (agFw 2) dpa ≠ .ok () → exec (.traceRecordWrite u) s = .next s) ∧
      (lineBusy s (lineOf (locOf dpa)) none none none = false → writeBar s (agFw 2) dpa = .ok () →
        Next (.traceRecordWrite u) s (fun t => getF t (ringProd u) = (k + 1) % 2 ^ 32 ∧
          (poisoned s (locOf dpa) = false → devRead t (agFw 2) dpa 32 = .ok (recordBytesOf k r)) ∧
          (∀ a, a < locOf dpa / 128 * 128 ∨ locOf dpa / 128 * 128 + 128 ≤ a → tget 0 t.mm.mem a = tget 0 s.mm.mem a) ∧
          ∃ more, (traceUnit t u).fifo = rest ++ more)))) ∧
  (∀ (k : Nat) (r : TraceRec), let b := recordBytesOf k r
    b.length = 32 ∧ fieldOf b 0 4 = (k + 1) % 2 ^ 32 ∧ fieldOf b 4 1 = r.typ % 2 ^ 8 ∧ fieldOf b 5 1 = r.flags % 2 ^ 8 ∧
    fieldOf b 6 2 = r.agent % 2 ^ 16 ∧ fieldOf b 8 2 = r.layer % 2 ^ 16 ∧ fieldOf b 10 2 = r.op % 2 ^ 16 ∧
    fieldOf b 12 4 = r.fret % 2 ^ 32 ∧ fieldOf b 16 8 = r.ts % 2 ^ 64 ∧ fieldOf b 24 8 = r.arg % 2 ^ 64) ∧
  (∀ (v : Nat) (s : State), s.powered = true → InTurn (.cruWayLockWrite v) s → Next (.cruWayLockWrite v) s (fun t => getF t cruLock = bits v 15 4 ∧
    t = { s with regs := t.regs } ∧ ∀ f : FRef, f.key ≠ cruLock.key → getF t f = getF s f)) ∧
  (∀ (sel : Nat) (s : State), s.powered = true → InTurn (.regen sel) s →
    (64 ≤ sel → exec (.regen sel) s = .next s) ∧
    (sel = 0 → exec (.regen sel) s = .next (setOn s keyErr)) ∧
    (0 < sel → sel < 64 → isOn s keyBusy = true → exec (.regen sel) s = .next (setOn s keyLost)) ∧
    (0 < sel → sel < 64 → isOn s keyBusy = false → Next (.regen sel) s (fun t => isOn t keyBusy = true ∧ getF t keySel = sel ∧
      t.mm = s.mm ∧ ∀ n, keyTag t n = keyTag s n))) ∧
  (∀ (ag dpa n : Nat) (s : State), isOn s keyBusy = true → dpa < 2 ^ 52 → keyselOf dpa = getF s keySel →
    devRead s ag dpa n = .wait ∧ writeBar s ag dpa = .wait) ∧
  (∀ s : State, let sel := getF s keySel
    (isOn s keyBusy = true → (∀ l ∈ keyLines sel s, lineBusy s l none none none = false) → let t := regenDone s
      isOn t keyBusy = false ∧ getF t keyGen = (getF s keyGen + 1) % 2 ^ 16 ∧ keyTag t sel = keyTag s sel + 64 ∧
      (∀ n, n ≠ sel → keyTag t n = keyTag s n) ∧ t.mm.mem = s.mm.mem ∧ t.mm.key = s.mm.key) ∧
    (isOn s keyBusy = false ∨ (∃ l ∈ keyLines sel s, lineBusy s l none none none = true) → regenDone s = s)) ∧
  (∀ (token : List Byte) (s : State), s.powered = true →
    (tokenOk s token = true → getF s dbgState ≠ 2 → Next (.debugUnlockToken token) s (fun t => getF t dbgState = 1 ∧
      t.powered = (s.boot.pwrOk && !s.boot.perst && s.boot.clocks && !s.boot.held) ∧ t.mm = { host := s.mm.host } ∧ t.sch = {} ∧
      t.cores = [] ∧ t.clusters = [] ∧ t.xl = {} ∧ t.boot.phase = 0 ∧ s.sec.nonce < t.sec.nonce)) ∧
    (tokenOk s token = false ∨ getF s dbgState = 2 → Next (.debugUnlockToken token) s (fun t =>
      getF t dbgFails = min (getF s dbgFails + 1) 15 ∧ t.mm = s.mm ∧ t.sec.nonce = s.sec.nonce + 1 ∧
      getF t dbgState = if 8 ≤ min (getF s dbgFails + 1) 15 then 2 else getF s dbgState))) ∧
  (∀ (off size v : Nat) (s : State), s.powered = true → InTurn (.registerWrite off size v) s →
    exec (.registerWrite off size v) s = .next (barWrite off size v s)) ∧
  (∀ (off size v : Nat) (s : State),
    ((size ≠ 4 ∧ size ≠ 8) ∨ off % size ≠ 0 → barWrite off size v s = s) ∧
    (v < 2 ^ 32 → getF (barWrite 0x11002C 4 v s) errCons = v ∧ (barWrite 0x11002C 4 v s).mm = s.mm ∧
      ∀ f : FRef, f.key ≠ errCons.key → getF (barWrite 0x11002C 4 v s) f = getF s f) ∧
    (getF s bistWign ≤ 1 → getF s bistWrDiscard ≤ 1 → getF s bistActive ≤ 1 → getF s bistTarget < 2 ^ 12 →
      (∀ f ∈ [bistWign, bistWrDiscard, bistActive, bistTarget], tget 0 s.touched f.key = 0) → let t := barWrite 0x190000 4 v s
      getF t bistActive = getF s bistActive ∧ getF t bistTarget = getF s bistTarget ∧
      isOn t bistWrDiscard = (isOn s bistWrDiscard && !bit v 1) ∧
      (bits v 2 2 = getF s bistActive → bits v 14 3 = getF s bistTarget → isOn t bistWign = (isOn s bistWign && !bit v 0)) ∧
      (bits v 2 2 ≠ getF s bistActive ∨ bits v 14 3 ≠ getF s bistTarget → isOn t bistWign = true)) ∧
    (isOn s bistWrDiscard = true → getF s bistWrDiscard ≤ 1 → tget 0 s.touched bistWrDiscard.key = 7 →
      isOn (barWrite 0x190000 4 v s) bistWrDiscard = true) ∧
    (∀ p, p < 24 → isOn s bistActive = true → getF s bistTarget = agPort p →
      barWrite (0x300000 + 0x1000 * p) 4 v s = setOn s bistWrDiscard) ∧
    (∀ cl, cl < 16 → getF s (clState cl) = 3 → barWrite (0x150000 + 0x1000 * cl) 4 v s = s))

/-- A step performs the command at the front of the queue on the state with the rest of the queue; with none waiting the idle tick
is next (the model's choice, log entry 2), which changes nothing without PWR_OK and only counts while the module is held in reset; and nothing but an assertion of PWR_OK with a rail out of its range stops the model. -/
def Obligations.StepRunsTheFrontCommand : Prop :=
  (∀ (c : Instr) (s : State), step (s.withFront c) = exec c s) ∧
  (∀ (c : Instr) (rest : List Instr) (s : State), s.pending = c :: rest → step s = exec c { s with pending := rest }) ∧
  (∀ s : State, s.pending = [] → step s = .next (idleTick s) ∧ (s.boot.pwrOk = false → idleTick s = s) ∧
    (s.boot.pwrOk = true → s.powered = false → idleTick s = { s with aoTick := s.aoTick + 1 })) ∧
  (∀ (c : Instr) (s : State), c ≠ .pwrOkAssert false → ∃ t, exec c s = .next t)

/-- R3, R27, R29, R245, R262, R448, R506, R512, R532, R545, R550, R551: the module right after reset: phase RESET, TS 0, every register at
the value that its table gives, nothing in any queue, ring or port, no casting, and no command waiting;
both flash copies hold the factory configuration image. -/
def Obligations.ResetLeavesTheModuleEmpty : Prop :=
  let s := State.reset
  s.pending = [] ∧ s.boot.flash.cfgA = Config.factoryImage ∧ s.boot.flash.cfgB = Config.factoryImage ∧ s.boot.phase = 0 ∧ s.ts = 0 ∧ (∀ f : FRef, getF s f = f.rst) ∧ s.sch = {} ∧ s.clusters = [] ∧ s.cores = [] ∧
  s.mm = {} ∧ s.xl = {} ∧ s.spr = {} ∧ s.amx = {} ∧ s.err = {} ∧ s.tokens = [] ∧ s.shadow = [] ∧
  getF s errSize = 7 ∧ getF s bootLoaded = 0 ∧ getF s dbgState = 0 ∧ getF s hbmReady = 0 ∧ getF s dcReady = 0 ∧ getF s cruLock = 0 ∧
  (∀ h, h < 64 → getF s (homeMap h) = h ∧ isOn s (homeRetired h) = false) ∧ (∀ cl, cl < 16 → getF s (clMax cl) = 36 ∧ getF s (clState cl) = 3) ∧
  (∀ n, n < 16 → getF s (sockState n) = 0) ∧ (∀ q, q < 512 → isOn s (qEnable q) = false ∧ getF s (qHead q) = 0) ∧
  (∀ p, p < 24 → getF s (pState p) = 0) ∧ ∀ u i, getF s (cntCount u i) = 0

/-- R541, R590: from PWR_OK deasserting until PERST# is asserted, whatever is commanded and however long nothing is, the module does not
start and comes to hold nothing: every step keeps it so. -/
def Obligations.HeldModuleStaysHeld : Prop :=
  (∀ s t : State, HeldInReset s → NoPerstWaits s → step s = .next t → HeldInReset t ∧ NoPerstWaits t) ∧
  (∀ s t : State, s.boot.perst = false → exec .pwrOkDeassert s = .next t → HeldInReset t)
end

