-- ==== Sys2Proof/Laws/Table.lean ====
section
/-!
SUPPORT. What the operations on tables do: a read after a write, the canonical form, and byte lists.
-/
namespace Sys2Proof.Machine

variable {α : Type}

@[simp] theorem tget_nil (d : α) (k : Nat) : tget d [] k = d := rfl

theorem tget_tdel (d : α) (t : Tbl α) (k k' : Nat) : tget d (tdel t k) k' = if k' = k then d else tget d t k' := by
  induction t with
  | nil => simp [tdel]
  | cons e t ih =>
    obtain ⟨a, v⟩ := e
    by_cases h : a = k
    · subst h
      by_cases h' : k' = a
      · subst h'; simpa [tdel] using ih
      · simp [tdel, ih, h', tget, Ne.symm h']
    · by_cases h' : k' = k
      · subst h'; simp [tdel, h, tget, ih]
      · by_cases h'' : a = k'
        · subst h''; simp [tdel, h, tget]
        · simp [tdel, h, tget, h'', ih, h']

theorem tget_tins (d : α) (t : Tbl α) (k k' : Nat) (v : α) : tget d (tins t k v) k' = if k' = k then v else tget d t k' := by
  induction t with
  | nil =>
    by_cases h : k' = k
    · simp [tins, tget, h]
    · simp [tins, tget, h, Ne.symm h]
  | cons e t ih =>
    obtain ⟨a, w⟩ := e
    unfold tins
    split
    · rename_i h
      subst h
      by_cases h' : k' = a
      · simp [tget, h']
      · simp [tget, h', Ne.symm h']
    · split
      · by_cases h' : k' = k
        · simp [tget, h']
        · simp [tget, h', Ne.symm h']
      · rename_i h _
        by_cases h'' : a = k'
        · subst h''; simp [tget, h]
        · simp [tget, h'', ih]

/-- A read after a write: the value written at its key, the old value elsewhere. -/
theorem tget_tset [DecidableEq α] (d : α) (t : Tbl α) (k k' : Nat) (v : α) :
    tget d (tset d t k v) k' = if k' = k then v else tget d t k' := by
  unfold tset
  split
  · rename_i h; rw [tget_tdel, h]
  · rw [tget_tins]

@[simp] theorem tget_tset_self [DecidableEq α] (d : α) (t : Tbl α) (k : Nat) (v : α) : tget d (tset d t k v) k = v := by
  simp [tget_tset]

theorem tget_tset_ne [DecidableEq α] {d e : α} (t : Tbl α) {k k' : Nat} (h : k' ≠ k) (v : α) :
    tget e (tset d t k v) k' = tget e t k' := by
  unfold tset
  split
  · rw [tget_tdel, if_neg h]
  · rw [tget_tins, if_neg h]

/-! ## The canonical form -/

theorem twfFrom_weaken [DecidableEq α] {d : α} {t : Tbl α} {lo lo' : Option Nat}
    (h : ∀ l, lo' = some l → ∃ m, lo = some m ∧ l ≤ m) (w : twfFrom d lo t = true) : twfFrom d lo' t = true := by
  cases t with
  | nil => rfl
  | cons e t =>
    obtain ⟨a, v⟩ := e
    cases lo' with
    | none => cases lo <;> simp_all [twfFrom]
    | some l =>
      obtain ⟨m, rfl, hm⟩ := h l rfl
      simp only [twfFrom, Bool.and_eq_true, decide_eq_true_eq] at w ⊢
      exact ⟨⟨by omega, w.1.2⟩, w.2⟩

theorem twfFrom_tdel [DecidableEq α] {d : α} (t : Tbl α) (lo : Option Nat) (k : Nat) (w : twfFrom d lo t = true) :
    twfFrom d lo (tdel t k) = true := by
  induction t generalizing lo with
  | nil => rfl
  | cons e t ih =>
    obtain ⟨a, v⟩ := e
    simp only [twfFrom, Bool.and_eq_true] at w
    by_cases h : a = k
    · simp only [tdel, h, if_true]
      apply ih
      refine twfFrom_weaken ?_ w.2
      intro l hl; subst hl
      have := w.1.1
      simp at this
      exact ⟨a, rfl, by omega⟩
    · simp only [tdel, h, if_false, twfFrom, Bool.and_eq_true]
      exact ⟨w.1, ih _ w.2⟩

theorem twfFrom_tins [DecidableEq α] {d : α} (t : Tbl α) (lo : Option Nat) (k : Nat) (v : α) (hv : v ≠ d)
    (hk : ∀ l, lo = some l → l < k) (w : twfFrom d lo t = true) : twfFrom d lo (tins t k v) = true := by
  induction t generalizing lo with
  | nil => cases lo <;> simp_all [tins, twfFrom]
  | cons e t ih =>
    obtain ⟨a, x⟩ := e
    simp only [twfFrom, Bool.and_eq_true] at w
    unfold tins
    split
    · rename_i h; subst h
      simp only [twfFrom, Bool.and_eq_true]
      exact ⟨⟨w.1.1, by simpa using hv⟩, w.2⟩
    · split
      · rename_i h
        simp only [twfFrom, Bool.and_eq_true]
        refine ⟨⟨?_, by simpa using hv⟩, ⟨by simpa using h, w.1.2⟩, w.2⟩
        cases lo with
        | none => rfl
        | some l => simpa using hk l rfl
      · simp only [twfFrom, Bool.and_eq_true]
        refine ⟨w.1, ih _ ?_ w.2⟩
        intro l hl; cases hl; omega

/-- A write keeps a table canonical. -/
theorem twf_tset [DecidableEq α] {d : α} {t : Tbl α} (k : Nat) (v : α) (w : twf d t = true) : twf d (tset d t k v) = true := by
  unfold tset
  split
  · exact twfFrom_tdel _ _ _ w
  · rename_i h; exact twfFrom_tins _ _ _ _ h (by simp) w

/-- Taking entries out keeps a table canonical. -/
theorem twf_filter [DecidableEq α] {d : α} {t : Tbl α} (p : Nat × α → Bool) (w : twf d t = true) : twf d (t.filter p) = true := by
  suffices H : ∀ (lo : Option Nat) (t : Tbl α), twfFrom d lo t = true → twfFrom d lo (t.filter p) = true from H _ _ w
  intro lo t
  induction t generalizing lo with
  | nil => simp
  | cons e t ih =>
    obtain ⟨a, v⟩ := e
    intro w
    simp only [twfFrom, Bool.and_eq_true] at w
    by_cases h : p (a, v) = true
    · simp only [List.filter_cons, h, if_true, twfFrom, Bool.and_eq_true]
      exact ⟨w.1, ih _ w.2⟩
    · simp only [List.filter_cons, h]
      apply ih
      refine twfFrom_weaken ?_ w.2
      intro l hl; subst hl
      have := w.1.1
      simp at this
      exact ⟨a, rfl, by omega⟩

/-- Storing bytes keeps a memory canonical. -/
theorem twf_wrList {t : Tbl Byte} (a : Nat) (bs : List Byte) (w : twf 0 t = true) : twf 0 (wrList t a bs) = true := by
  induction bs generalizing t a with
  | nil => exact w
  | cons b bs ih => exact ih _ (twf_tset _ _ w)

theorem twf_wrBytes {t : Tbl Byte} (a n v : Nat) (w : twf 0 t = true) : twf 0 (wrBytes t a n v) = true := by
  induction n generalizing t a v with
  | zero => exact w
  | succ n ih => exact ih _ _ (twf_tset _ _ w)

/-! ## Byte lists -/

/-- Bytes outside those stored read as before. -/
theorem tget_wrList_out (t : Tbl Byte) (a k : Nat) (bs : List Byte) (h : k < a ∨ a + bs.length ≤ k) :
    tget 0 (wrList t a bs) k = tget 0 t k := by
  induction bs generalizing t a with
  | nil => rfl
  | cons b bs ih =>
    simp only [List.length_cons] at h
    simp only [wrList]
    rw [ih _ _ (by omega), tget_tset_ne _ (by omega)]

theorem nth_eq_getD (d : α) (xs : List α) (i : Nat) : nth d xs i = xs.getD i d := by
  induction xs generalizing i with
  | nil => simp [nth]
  | cons x xs ih => cases i <;> simp [nth, ih]

/-- Bytes stored are read back. -/
theorem tget_wrList_in (t : Tbl Byte) (a i : Nat) (bs : List Byte) (h : i < bs.length) :
    tget 0 (wrList t a bs) (a + i) = nth 0 bs i := by
  induction bs generalizing t a i with
  | nil => simp at h
  | cons b bs ih =>
    simp only [wrList]
    cases i with
    | zero =>
      rw [tget_wrList_out _ _ _ _ (by omega)]
      simp [nth]
    | succ i =>
      simp only [List.length_cons] at h
      have := ih (tset 0 t a b) (a + 1) i (by omega)
      rw [show a + (i + 1) = a + 1 + i by omega, this]; rfl

@[simp] theorem rdList_length (t : Tbl Byte) (a n : Nat) : (rdList t a n).length = n := by
  induction n generalizing a with
  | zero => rfl
  | succ n ih => simp [rdList, ih]

/-- A whole list stored is read back. -/
theorem rdList_wrList (t : Tbl Byte) (a : Nat) (bs : List Byte) : rdList (wrList t a bs) a bs.length = bs := by
  induction bs generalizing t a with
  | nil => rfl
  | cons b bs ih =>
    simp only [wrList, List.length_cons, rdList]
    rw [tget_wrList_out _ _ _ _ (by omega), tget_tset_self, ih]

@[simp] theorem leBytes_length (n v : Nat) : (leBytes n v).length = n := by
  induction n generalizing v with
  | zero => rfl
  | succ n ih => simp [leBytes, ih]

/-- A number cut to bytes and put together again. -/
theorem leNat_leBytes (n v : Nat) : leNat (leBytes n v) = v % 256 ^ n := by
  induction n generalizing v with
  | zero => simp [leBytes, leNat, Nat.mod_one]
  | succ n ih =>
    have h := Nat.mod_mul (x := v) (a := 256) (b := 256 ^ n)
    rw [Nat.pow_succ, Nat.mul_comm (256 ^ n) 256, h]
    simp [leBytes, leNat, ih]

end Sys2Proof.Machine
end

