-- ==== Sys2Proof/Laws/State.lean ====
section
/-!
SUPPORT. What each update of the state leaves alone, field by field, and what it reads as where it writes.
-/
namespace Sys2Proof.Machine

/-! ## Updates that are another's -/

@[simp] theorem setB_eq (s : State) (f : FRef) (b : Bool) : setB s f b = setF s f (b2n b) := rfl
@[simp] theorem setOn_eq (s : State) (f : FRef) : setOn s f = setF s f 1 := rfl
@[simp] theorem setOff_eq (s : State) (f : FRef) : setOff s f = setF s f 0 := rfl
@[simp] theorem incF_eq (s : State) (f : FRef) (n : Nat) : incF s f n = setF s f (getF s f + n) := rfl
@[simp] theorem incSat_eq (s : State) (f : FRef) (n : Nat) : incSat s f n = setF s f (min (getF s f + n) (2 ^ f.len - 1)) := rfl
@[simp] theorem b2n_true : b2n true = 1 := rfl
@[simp] theorem b2n_false : b2n false = 0 := rfl

/-! ## setF -/

@[simp] theorem setF_pending (s : State) (f : FRef) (v : Nat) : (setF s f v).pending = s.pending := rfl
@[simp] theorem setF_fsub (s : State) (f : FRef) (v : Nat) : (setF s f v).fsub = s.fsub := rfl
@[simp] theorem setF_owner (s : State) (f : FRef) (v : Nat) : (setF s f v).owner = s.owner := rfl
@[simp] theorem setF_powered (s : State) (f : FRef) (v : Nat) : (setF s f v).powered = s.powered := rfl
@[simp] theorem setF_aoTick (s : State) (f : FRef) (v : Nat) : (setF s f v).aoTick = s.aoTick := rfl
@[simp] theorem setF_ts (s : State) (f : FRef) (v : Nat) : (setF s f v).ts = s.ts := rfl
@[simp] theorem setF_free (s : State) (f : FRef) (v : Nat) : (setF s f v).free = s.free := rfl
@[simp] theorem setF_shadow (s : State) (f : FRef) (v : Nat) : (setF s f v).shadow = s.shadow := rfl
@[simp] theorem setF_tokens (s : State) (f : FRef) (v : Nat) : (setF s f v).tokens = s.tokens := rfl
@[simp] theorem setF_sch (s : State) (f : FRef) (v : Nat) : (setF s f v).sch = s.sch := rfl
@[simp] theorem setF_clusters (s : State) (f : FRef) (v : Nat) : (setF s f v).clusters = s.clusters := rfl
@[simp] theorem setF_cores (s : State) (f : FRef) (v : Nat) : (setF s f v).cores = s.cores := rfl
@[simp] theorem setF_mm (s : State) (f : FRef) (v : Nat) : (setF s f v).mm = s.mm := rfl
@[simp] theorem setF_xl (s : State) (f : FRef) (v : Nat) : (setF s f v).xl = s.xl := rfl
@[simp] theorem setF_spr (s : State) (f : FRef) (v : Nat) : (setF s f v).spr = s.spr := rfl
@[simp] theorem setF_amx (s : State) (f : FRef) (v : Nat) : (setF s f v).amx = s.amx := rfl
@[simp] theorem setF_hpt (s : State) (f : FRef) (v : Nat) : (setF s f v).hpt = s.hpt := rfl
@[simp] theorem setF_err (s : State) (f : FRef) (v : Nat) : (setF s f v).err = s.err := rfl
@[simp] theorem setF_trc (s : State) (f : FRef) (v : Nat) : (setF s f v).trc = s.trc := rfl
@[simp] theorem setF_pmc (s : State) (f : FRef) (v : Nat) : (setF s f v).pmc = s.pmc := rfl
@[simp] theorem setF_sec (s : State) (f : FRef) (v : Nat) : (setF s f v).sec = s.sec := rfl
@[simp] theorem setF_boot (s : State) (f : FRef) (v : Nat) : (setF s f v).boot = s.boot := rfl
@[simp] theorem setF_race (s : State) (f : FRef) (v : Nat) : (setF s f v).race = s.race := rfl

/-! ## putF -/

@[simp] theorem putF_pending (s : State) (f : FRef) (v : Nat) : (putF s f v).pending = s.pending := rfl
@[simp] theorem putF_fsub (s : State) (f : FRef) (v : Nat) : (putF s f v).fsub = s.fsub := rfl
@[simp] theorem putF_owner (s : State) (f : FRef) (v : Nat) : (putF s f v).owner = s.owner := rfl
@[simp] theorem putF_powered (s : State) (f : FRef) (v : Nat) : (putF s f v).powered = s.powered := rfl
@[simp] theorem putF_aoTick (s : State) (f : FRef) (v : Nat) : (putF s f v).aoTick = s.aoTick := rfl
@[simp] theorem putF_ts (s : State) (f : FRef) (v : Nat) : (putF s f v).ts = s.ts := rfl
@[simp] theorem putF_free (s : State) (f : FRef) (v : Nat) : (putF s f v).free = s.free := rfl
@[simp] theorem putF_shadow (s : State) (f : FRef) (v : Nat) : (putF s f v).shadow = s.shadow := rfl
@[simp] theorem putF_tokens (s : State) (f : FRef) (v : Nat) : (putF s f v).tokens = s.tokens := rfl
@[simp] theorem putF_sch (s : State) (f : FRef) (v : Nat) : (putF s f v).sch = s.sch := rfl
@[simp] theorem putF_clusters (s : State) (f : FRef) (v : Nat) : (putF s f v).clusters = s.clusters := rfl
@[simp] theorem putF_cores (s : State) (f : FRef) (v : Nat) : (putF s f v).cores = s.cores := rfl
@[simp] theorem putF_mm (s : State) (f : FRef) (v : Nat) : (putF s f v).mm = s.mm := rfl
@[simp] theorem putF_xl (s : State) (f : FRef) (v : Nat) : (putF s f v).xl = s.xl := rfl
@[simp] theorem putF_spr (s : State) (f : FRef) (v : Nat) : (putF s f v).spr = s.spr := rfl
@[simp] theorem putF_amx (s : State) (f : FRef) (v : Nat) : (putF s f v).amx = s.amx := rfl
@[simp] theorem putF_hpt (s : State) (f : FRef) (v : Nat) : (putF s f v).hpt = s.hpt := rfl
@[simp] theorem putF_err (s : State) (f : FRef) (v : Nat) : (putF s f v).err = s.err := rfl
@[simp] theorem putF_trc (s : State) (f : FRef) (v : Nat) : (putF s f v).trc = s.trc := rfl
@[simp] theorem putF_pmc (s : State) (f : FRef) (v : Nat) : (putF s f v).pmc = s.pmc := rfl
@[simp] theorem putF_sec (s : State) (f : FRef) (v : Nat) : (putF s f v).sec = s.sec := rfl
@[simp] theorem putF_boot (s : State) (f : FRef) (v : Nat) : (putF s f v).boot = s.boot := rfl
@[simp] theorem putF_race (s : State) (f : FRef) (v : Nat) : (putF s f v).race = s.race := rfl
@[simp] theorem putF_touched (s : State) (f : FRef) (v : Nat) : (putF s f v).touched = s.touched := rfl

/-! ## bumpFree -/

@[simp] theorem bumpFree_pending (s : State) (n : Nat) : (bumpFree s n).pending = s.pending := rfl
@[simp] theorem bumpFree_fsub (s : State) (n : Nat) : (bumpFree s n).fsub = s.fsub := rfl
@[simp] theorem bumpFree_touched (s : State) (n : Nat) : (bumpFree s n).touched = s.touched := rfl
@[simp] theorem bumpFree_owner (s : State) (n : Nat) : (bumpFree s n).owner = s.owner := rfl
@[simp] theorem bumpFree_powered (s : State) (n : Nat) : (bumpFree s n).powered = s.powered := rfl
@[simp] theorem bumpFree_aoTick (s : State) (n : Nat) : (bumpFree s n).aoTick = s.aoTick := rfl
@[simp] theorem bumpFree_ts (s : State) (n : Nat) : (bumpFree s n).ts = s.ts := rfl
@[simp] theorem bumpFree_regs (s : State) (n : Nat) : (bumpFree s n).regs = s.regs := rfl
@[simp] theorem bumpFree_shadow (s : State) (n : Nat) : (bumpFree s n).shadow = s.shadow := rfl
@[simp] theorem bumpFree_tokens (s : State) (n : Nat) : (bumpFree s n).tokens = s.tokens := rfl
@[simp] theorem bumpFree_sch (s : State) (n : Nat) : (bumpFree s n).sch = s.sch := rfl
@[simp] theorem bumpFree_clusters (s : State) (n : Nat) : (bumpFree s n).clusters = s.clusters := rfl
@[simp] theorem bumpFree_cores (s : State) (n : Nat) : (bumpFree s n).cores = s.cores := rfl
@[simp] theorem bumpFree_mm (s : State) (n : Nat) : (bumpFree s n).mm = s.mm := rfl
@[simp] theorem bumpFree_xl (s : State) (n : Nat) : (bumpFree s n).xl = s.xl := rfl
@[simp] theorem bumpFree_spr (s : State) (n : Nat) : (bumpFree s n).spr = s.spr := rfl
@[simp] theorem bumpFree_amx (s : State) (n : Nat) : (bumpFree s n).amx = s.amx := rfl
@[simp] theorem bumpFree_hpt (s : State) (n : Nat) : (bumpFree s n).hpt = s.hpt := rfl
@[simp] theorem bumpFree_err (s : State) (n : Nat) : (bumpFree s n).err = s.err := rfl
@[simp] theorem bumpFree_trc (s : State) (n : Nat) : (bumpFree s n).trc = s.trc := rfl
@[simp] theorem bumpFree_pmc (s : State) (n : Nat) : (bumpFree s n).pmc = s.pmc := rfl
@[simp] theorem bumpFree_sec (s : State) (n : Nat) : (bumpFree s n).sec = s.sec := rfl
@[simp] theorem bumpFree_boot (s : State) (n : Nat) : (bumpFree s n).boot = s.boot := rfl
@[simp] theorem bumpFree_race (s : State) (n : Nat) : (bumpFree s n).race = s.race := rfl

/-! ## setCore -/

@[simp] theorem setCore_pending (s : State) (g : Nat) (c : Core) : (setCore s g c).pending = s.pending := rfl
@[simp] theorem setCore_fsub (s : State) (g : Nat) (c : Core) : (setCore s g c).fsub = s.fsub := rfl
@[simp] theorem setCore_touched (s : State) (g : Nat) (c : Core) : (setCore s g c).touched = s.touched := rfl
@[simp] theorem setCore_owner (s : State) (g : Nat) (c : Core) : (setCore s g c).owner = s.owner := rfl
@[simp] theorem setCore_powered (s : State) (g : Nat) (c : Core) : (setCore s g c).powered = s.powered := rfl
@[simp] theorem setCore_aoTick (s : State) (g : Nat) (c : Core) : (setCore s g c).aoTick = s.aoTick := rfl
@[simp] theorem setCore_ts (s : State) (g : Nat) (c : Core) : (setCore s g c).ts = s.ts := rfl
@[simp] theorem setCore_free (s : State) (g : Nat) (c : Core) : (setCore s g c).free = s.free := rfl
@[simp] theorem setCore_regs (s : State) (g : Nat) (c : Core) : (setCore s g c).regs = s.regs := rfl
@[simp] theorem setCore_shadow (s : State) (g : Nat) (c : Core) : (setCore s g c).shadow = s.shadow := rfl
@[simp] theorem setCore_tokens (s : State) (g : Nat) (c : Core) : (setCore s g c).tokens = s.tokens := rfl
@[simp] theorem setCore_sch (s : State) (g : Nat) (c : Core) : (setCore s g c).sch = s.sch := rfl
@[simp] theorem setCore_clusters (s : State) (g : Nat) (c : Core) : (setCore s g c).clusters = s.clusters := rfl
@[simp] theorem setCore_mm (s : State) (g : Nat) (c : Core) : (setCore s g c).mm = s.mm := rfl
@[simp] theorem setCore_xl (s : State) (g : Nat) (c : Core) : (setCore s g c).xl = s.xl := rfl
@[simp] theorem setCore_spr (s : State) (g : Nat) (c : Core) : (setCore s g c).spr = s.spr := rfl
@[simp] theorem setCore_amx (s : State) (g : Nat) (c : Core) : (setCore s g c).amx = s.amx := rfl
@[simp] theorem setCore_hpt (s : State) (g : Nat) (c : Core) : (setCore s g c).hpt = s.hpt := rfl
@[simp] theorem setCore_err (s : State) (g : Nat) (c : Core) : (setCore s g c).err = s.err := rfl
@[simp] theorem setCore_trc (s : State) (g : Nat) (c : Core) : (setCore s g c).trc = s.trc := rfl
@[simp] theorem setCore_pmc (s : State) (g : Nat) (c : Core) : (setCore s g c).pmc = s.pmc := rfl
@[simp] theorem setCore_sec (s : State) (g : Nat) (c : Core) : (setCore s g c).sec = s.sec := rfl
@[simp] theorem setCore_boot (s : State) (g : Nat) (c : Core) : (setCore s g c).boot = s.boot := rfl
@[simp] theorem setCore_race (s : State) (g : Nat) (c : Core) : (setCore s g c).race = s.race := rfl

/-! ## setCasting -/

@[simp] theorem setCasting_pending (s : State) (k : Nat) (c : Casting) : (setCasting s k c).pending = s.pending := rfl
@[simp] theorem setCasting_fsub (s : State) (k : Nat) (c : Casting) : (setCasting s k c).fsub = s.fsub := rfl
@[simp] theorem setCasting_touched (s : State) (k : Nat) (c : Casting) : (setCasting s k c).touched = s.touched := rfl
@[simp] theorem setCasting_owner (s : State) (k : Nat) (c : Casting) : (setCasting s k c).owner = s.owner := rfl
@[simp] theorem setCasting_powered (s : State) (k : Nat) (c : Casting) : (setCasting s k c).powered = s.powered := rfl
@[simp] theorem setCasting_aoTick (s : State) (k : Nat) (c : Casting) : (setCasting s k c).aoTick = s.aoTick := rfl
@[simp] theorem setCasting_ts (s : State) (k : Nat) (c : Casting) : (setCasting s k c).ts = s.ts := rfl
@[simp] theorem setCasting_free (s : State) (k : Nat) (c : Casting) : (setCasting s k c).free = s.free := rfl
@[simp] theorem setCasting_regs (s : State) (k : Nat) (c : Casting) : (setCasting s k c).regs = s.regs := rfl
@[simp] theorem setCasting_shadow (s : State) (k : Nat) (c : Casting) : (setCasting s k c).shadow = s.shadow := rfl
@[simp] theorem setCasting_tokens (s : State) (k : Nat) (c : Casting) : (setCasting s k c).tokens = s.tokens := rfl
@[simp] theorem setCasting_clusters (s : State) (k : Nat) (c : Casting) : (setCasting s k c).clusters = s.clusters := rfl
@[simp] theorem setCasting_cores (s : State) (k : Nat) (c : Casting) : (setCasting s k c).cores = s.cores := rfl
@[simp] theorem setCasting_mm (s : State) (k : Nat) (c : Casting) : (setCasting s k c).mm = s.mm := rfl
@[simp] theorem setCasting_xl (s : State) (k : Nat) (c : Casting) : (setCasting s k c).xl = s.xl := rfl
@[simp] theorem setCasting_spr (s : State) (k : Nat) (c : Casting) : (setCasting s k c).spr = s.spr := rfl
@[simp] theorem setCasting_amx (s : State) (k : Nat) (c : Casting) : (setCasting s k c).amx = s.amx := rfl
@[simp] theorem setCasting_hpt (s : State) (k : Nat) (c : Casting) : (setCasting s k c).hpt = s.hpt := rfl
@[simp] theorem setCasting_err (s : State) (k : Nat) (c : Casting) : (setCasting s k c).err = s.err := rfl
@[simp] theorem setCasting_trc (s : State) (k : Nat) (c : Casting) : (setCasting s k c).trc = s.trc := rfl
@[simp] theorem setCasting_pmc (s : State) (k : Nat) (c : Casting) : (setCasting s k c).pmc = s.pmc := rfl
@[simp] theorem setCasting_sec (s : State) (k : Nat) (c : Casting) : (setCasting s k c).sec = s.sec := rfl
@[simp] theorem setCasting_boot (s : State) (k : Nat) (c : Casting) : (setCasting s k c).boot = s.boot := rfl
@[simp] theorem setCasting_race (s : State) (k : Nat) (c : Casting) : (setCasting s k c).race = s.race := rfl

/-! ## setQueue -/

@[simp] theorem setQueue_pending (s : State) (q : Nat) (x : Queue) : (setQueue s q x).pending = s.pending := rfl
@[simp] theorem setQueue_fsub (s : State) (q : Nat) (x : Queue) : (setQueue s q x).fsub = s.fsub := rfl
@[simp] theorem setQueue_touched (s : State) (q : Nat) (x : Queue) : (setQueue s q x).touched = s.touched := rfl
@[simp] theorem setQueue_owner (s : State) (q : Nat) (x : Queue) : (setQueue s q x).owner = s.owner := rfl
@[simp] theorem setQueue_powered (s : State) (q : Nat) (x : Queue) : (setQueue s q x).powered = s.powered := rfl
@[simp] theorem setQueue_aoTick (s : State) (q : Nat) (x : Queue) : (setQueue s q x).aoTick = s.aoTick := rfl
@[simp] theorem setQueue_ts (s : State) (q : Nat) (x : Queue) : (setQueue s q x).ts = s.ts := rfl
@[simp] theorem setQueue_free (s : State) (q : Nat) (x : Queue) : (setQueue s q x).free = s.free := rfl
@[simp] theorem setQueue_regs (s : State) (q : Nat) (x : Queue) : (setQueue s q x).regs = s.regs := rfl
@[simp] theorem setQueue_shadow (s : State) (q : Nat) (x : Queue) : (setQueue s q x).shadow = s.shadow := rfl
@[simp] theorem setQueue_tokens (s : State) (q : Nat) (x : Queue) : (setQueue s q x).tokens = s.tokens := rfl
@[simp] theorem setQueue_clusters (s : State) (q : Nat) (x : Queue) : (setQueue s q x).clusters = s.clusters := rfl
@[simp] theorem setQueue_cores (s : State) (q : Nat) (x : Queue) : (setQueue s q x).cores = s.cores := rfl
@[simp] theorem setQueue_mm (s : State) (q : Nat) (x : Queue) : (setQueue s q x).mm = s.mm := rfl
@[simp] theorem setQueue_xl (s : State) (q : Nat) (x : Queue) : (setQueue s q x).xl = s.xl := rfl
@[simp] theorem setQueue_spr (s : State) (q : Nat) (x : Queue) : (setQueue s q x).spr = s.spr := rfl
@[simp] theorem setQueue_amx (s : State) (q : Nat) (x : Queue) : (setQueue s q x).amx = s.amx := rfl
@[simp] theorem setQueue_hpt (s : State) (q : Nat) (x : Queue) : (setQueue s q x).hpt = s.hpt := rfl
@[simp] theorem setQueue_err (s : State) (q : Nat) (x : Queue) : (setQueue s q x).err = s.err := rfl
@[simp] theorem setQueue_trc (s : State) (q : Nat) (x : Queue) : (setQueue s q x).trc = s.trc := rfl
@[simp] theorem setQueue_pmc (s : State) (q : Nat) (x : Queue) : (setQueue s q x).pmc = s.pmc := rfl
@[simp] theorem setQueue_sec (s : State) (q : Nat) (x : Queue) : (setQueue s q x).sec = s.sec := rfl
@[simp] theorem setQueue_boot (s : State) (q : Nat) (x : Queue) : (setQueue s q x).boot = s.boot := rfl
@[simp] theorem setQueue_race (s : State) (q : Nat) (x : Queue) : (setQueue s q x).race = s.race := rfl

/-! ## setCluster -/

@[simp] theorem setCluster_pending (s : State) (n : Nat) (c : Cluster) : (setCluster s n c).pending = s.pending := rfl
@[simp] theorem setCluster_fsub (s : State) (n : Nat) (c : Cluster) : (setCluster s n c).fsub = s.fsub := rfl
@[simp] theorem setCluster_touched (s : State) (n : Nat) (c : Cluster) : (setCluster s n c).touched = s.touched := rfl
@[simp] theorem setCluster_owner (s : State) (n : Nat) (c : Cluster) : (setCluster s n c).owner = s.owner := rfl
@[simp] theorem setCluster_powered (s : State) (n : Nat) (c : Cluster) : (setCluster s n c).powered = s.powered := rfl
@[simp] theorem setCluster_aoTick (s : State) (n : Nat) (c : Cluster) : (setCluster s n c).aoTick = s.aoTick := rfl
@[simp] theorem setCluster_ts (s : State) (n : Nat) (c : Cluster) : (setCluster s n c).ts = s.ts := rfl
@[simp] theorem setCluster_free (s : State) (n : Nat) (c : Cluster) : (setCluster s n c).free = s.free := rfl
@[simp] theorem setCluster_regs (s : State) (n : Nat) (c : Cluster) : (setCluster s n c).regs = s.regs := rfl
@[simp] theorem setCluster_shadow (s : State) (n : Nat) (c : Cluster) : (setCluster s n c).shadow = s.shadow := rfl
@[simp] theorem setCluster_tokens (s : State) (n : Nat) (c : Cluster) : (setCluster s n c).tokens = s.tokens := rfl
@[simp] theorem setCluster_sch (s : State) (n : Nat) (c : Cluster) : (setCluster s n c).sch = s.sch := rfl
@[simp] theorem setCluster_cores (s : State) (n : Nat) (c : Cluster) : (setCluster s n c).cores = s.cores := rfl
@[simp] theorem setCluster_mm (s : State) (n : Nat) (c : Cluster) : (setCluster s n c).mm = s.mm := rfl
@[simp] theorem setCluster_xl (s : State) (n : Nat) (c : Cluster) : (setCluster s n c).xl = s.xl := rfl
@[simp] theorem setCluster_spr (s : State) (n : Nat) (c : Cluster) : (setCluster s n c).spr = s.spr := rfl
@[simp] theorem setCluster_amx (s : State) (n : Nat) (c : Cluster) : (setCluster s n c).amx = s.amx := rfl
@[simp] theorem setCluster_hpt (s : State) (n : Nat) (c : Cluster) : (setCluster s n c).hpt = s.hpt := rfl
@[simp] theorem setCluster_err (s : State) (n : Nat) (c : Cluster) : (setCluster s n c).err = s.err := rfl
@[simp] theorem setCluster_trc (s : State) (n : Nat) (c : Cluster) : (setCluster s n c).trc = s.trc := rfl
@[simp] theorem setCluster_pmc (s : State) (n : Nat) (c : Cluster) : (setCluster s n c).pmc = s.pmc := rfl
@[simp] theorem setCluster_sec (s : State) (n : Nat) (c : Cluster) : (setCluster s n c).sec = s.sec := rfl
@[simp] theorem setCluster_boot (s : State) (n : Nat) (c : Cluster) : (setCluster s n c).boot = s.boot := rfl
@[simp] theorem setCluster_race (s : State) (n : Nat) (c : Cluster) : (setCluster s n c).race = s.race := rfl

/-! ## setChan -/

@[simp] theorem setChan_pending (s : State) (e ch : Nat) (c : Chan) : (setChan s e ch c).pending = s.pending := rfl
@[simp] theorem setChan_fsub (s : State) (e ch : Nat) (c : Chan) : (setChan s e ch c).fsub = s.fsub := rfl
@[simp] theorem setChan_touched (s : State) (e ch : Nat) (c : Chan) : (setChan s e ch c).touched = s.touched := rfl
@[simp] theorem setChan_owner (s : State) (e ch : Nat) (c : Chan) : (setChan s e ch c).owner = s.owner := rfl
@[simp] theorem setChan_powered (s : State) (e ch : Nat) (c : Chan) : (setChan s e ch c).powered = s.powered := rfl
@[simp] theorem setChan_aoTick (s : State) (e ch : Nat) (c : Chan) : (setChan s e ch c).aoTick = s.aoTick := rfl
@[simp] theorem setChan_ts (s : State) (e ch : Nat) (c : Chan) : (setChan s e ch c).ts = s.ts := rfl
@[simp] theorem setChan_free (s : State) (e ch : Nat) (c : Chan) : (setChan s e ch c).free = s.free := rfl
@[simp] theorem setChan_regs (s : State) (e ch : Nat) (c : Chan) : (setChan s e ch c).regs = s.regs := rfl
@[simp] theorem setChan_shadow (s : State) (e ch : Nat) (c : Chan) : (setChan s e ch c).shadow = s.shadow := rfl
@[simp] theorem setChan_tokens (s : State) (e ch : Nat) (c : Chan) : (setChan s e ch c).tokens = s.tokens := rfl
@[simp] theorem setChan_sch (s : State) (e ch : Nat) (c : Chan) : (setChan s e ch c).sch = s.sch := rfl
@[simp] theorem setChan_clusters (s : State) (e ch : Nat) (c : Chan) : (setChan s e ch c).clusters = s.clusters := rfl
@[simp] theorem setChan_cores (s : State) (e ch : Nat) (c : Chan) : (setChan s e ch c).cores = s.cores := rfl
@[simp] theorem setChan_mm (s : State) (e ch : Nat) (c : Chan) : (setChan s e ch c).mm = s.mm := rfl
@[simp] theorem setChan_xl (s : State) (e ch : Nat) (c : Chan) : (setChan s e ch c).xl = s.xl := rfl
@[simp] theorem setChan_amx (s : State) (e ch : Nat) (c : Chan) : (setChan s e ch c).amx = s.amx := rfl
@[simp] theorem setChan_hpt (s : State) (e ch : Nat) (c : Chan) : (setChan s e ch c).hpt = s.hpt := rfl
@[simp] theorem setChan_err (s : State) (e ch : Nat) (c : Chan) : (setChan s e ch c).err = s.err := rfl
@[simp] theorem setChan_trc (s : State) (e ch : Nat) (c : Chan) : (setChan s e ch c).trc = s.trc := rfl
@[simp] theorem setChan_pmc (s : State) (e ch : Nat) (c : Chan) : (setChan s e ch c).pmc = s.pmc := rfl
@[simp] theorem setChan_sec (s : State) (e ch : Nat) (c : Chan) : (setChan s e ch c).sec = s.sec := rfl
@[simp] theorem setChan_boot (s : State) (e ch : Nat) (c : Chan) : (setChan s e ch c).boot = s.boot := rfl
@[simp] theorem setChan_race (s : State) (e ch : Nat) (c : Chan) : (setChan s e ch c).race = s.race := rfl

/-! ## setPort -/

@[simp] theorem setPort_pending (s : State) (p : Nat) (x : Port) : (setPort s p x).pending = s.pending := rfl
@[simp] theorem setPort_fsub (s : State) (p : Nat) (x : Port) : (setPort s p x).fsub = s.fsub := rfl
@[simp] theorem setPort_touched (s : State) (p : Nat) (x : Port) : (setPort s p x).touched = s.touched := rfl
@[simp] theorem setPort_owner (s : State) (p : Nat) (x : Port) : (setPort s p x).owner = s.owner := rfl
@[simp] theorem setPort_powered (s : State) (p : Nat) (x : Port) : (setPort s p x).powered = s.powered := rfl
@[simp] theorem setPort_aoTick (s : State) (p : Nat) (x : Port) : (setPort s p x).aoTick = s.aoTick := rfl
@[simp] theorem setPort_ts (s : State) (p : Nat) (x : Port) : (setPort s p x).ts = s.ts := rfl
@[simp] theorem setPort_free (s : State) (p : Nat) (x : Port) : (setPort s p x).free = s.free := rfl
@[simp] theorem setPort_regs (s : State) (p : Nat) (x : Port) : (setPort s p x).regs = s.regs := rfl
@[simp] theorem setPort_shadow (s : State) (p : Nat) (x : Port) : (setPort s p x).shadow = s.shadow := rfl
@[simp] theorem setPort_tokens (s : State) (p : Nat) (x : Port) : (setPort s p x).tokens = s.tokens := rfl
@[simp] theorem setPort_sch (s : State) (p : Nat) (x : Port) : (setPort s p x).sch = s.sch := rfl
@[simp] theorem setPort_clusters (s : State) (p : Nat) (x : Port) : (setPort s p x).clusters = s.clusters := rfl
@[simp] theorem setPort_cores (s : State) (p : Nat) (x : Port) : (setPort s p x).cores = s.cores := rfl
@[simp] theorem setPort_mm (s : State) (p : Nat) (x : Port) : (setPort s p x).mm = s.mm := rfl
@[simp] theorem setPort_xl (s : State) (p : Nat) (x : Port) : (setPort s p x).xl = s.xl := rfl
@[simp] theorem setPort_spr (s : State) (p : Nat) (x : Port) : (setPort s p x).spr = s.spr := rfl
@[simp] theorem setPort_hpt (s : State) (p : Nat) (x : Port) : (setPort s p x).hpt = s.hpt := rfl
@[simp] theorem setPort_err (s : State) (p : Nat) (x : Port) : (setPort s p x).err = s.err := rfl
@[simp] theorem setPort_trc (s : State) (p : Nat) (x : Port) : (setPort s p x).trc = s.trc := rfl
@[simp] theorem setPort_pmc (s : State) (p : Nat) (x : Port) : (setPort s p x).pmc = s.pmc := rfl
@[simp] theorem setPort_sec (s : State) (p : Nat) (x : Port) : (setPort s p x).sec = s.sec := rfl
@[simp] theorem setPort_boot (s : State) (p : Nat) (x : Port) : (setPort s p x).boot = s.boot := rfl
@[simp] theorem setPort_race (s : State) (p : Nat) (x : Port) : (setPort s p x).race = s.race := rfl

/-! ## setTxn -/

@[simp] theorem setTxn_pending (s : State) (line : Nat) (t : Txn) : (setTxn s line t).pending = s.pending := rfl
@[simp] theorem setTxn_fsub (s : State) (line : Nat) (t : Txn) : (setTxn s line t).fsub = s.fsub := rfl
@[simp] theorem setTxn_touched (s : State) (line : Nat) (t : Txn) : (setTxn s line t).touched = s.touched := rfl
@[simp] theorem setTxn_owner (s : State) (line : Nat) (t : Txn) : (setTxn s line t).owner = s.owner := rfl
@[simp] theorem setTxn_powered (s : State) (line : Nat) (t : Txn) : (setTxn s line t).powered = s.powered := rfl
@[simp] theorem setTxn_aoTick (s : State) (line : Nat) (t : Txn) : (setTxn s line t).aoTick = s.aoTick := rfl
@[simp] theorem setTxn_ts (s : State) (line : Nat) (t : Txn) : (setTxn s line t).ts = s.ts := rfl
@[simp] theorem setTxn_free (s : State) (line : Nat) (t : Txn) : (setTxn s line t).free = s.free := rfl
@[simp] theorem setTxn_regs (s : State) (line : Nat) (t : Txn) : (setTxn s line t).regs = s.regs := rfl
@[simp] theorem setTxn_shadow (s : State) (line : Nat) (t : Txn) : (setTxn s line t).shadow = s.shadow := rfl
@[simp] theorem setTxn_tokens (s : State) (line : Nat) (t : Txn) : (setTxn s line t).tokens = s.tokens := rfl
@[simp] theorem setTxn_sch (s : State) (line : Nat) (t : Txn) : (setTxn s line t).sch = s.sch := rfl
@[simp] theorem setTxn_clusters (s : State) (line : Nat) (t : Txn) : (setTxn s line t).clusters = s.clusters := rfl
@[simp] theorem setTxn_cores (s : State) (line : Nat) (t : Txn) : (setTxn s line t).cores = s.cores := rfl
@[simp] theorem setTxn_xl (s : State) (line : Nat) (t : Txn) : (setTxn s line t).xl = s.xl := rfl
@[simp] theorem setTxn_spr (s : State) (line : Nat) (t : Txn) : (setTxn s line t).spr = s.spr := rfl
@[simp] theorem setTxn_amx (s : State) (line : Nat) (t : Txn) : (setTxn s line t).amx = s.amx := rfl
@[simp] theorem setTxn_hpt (s : State) (line : Nat) (t : Txn) : (setTxn s line t).hpt = s.hpt := rfl
@[simp] theorem setTxn_err (s : State) (line : Nat) (t : Txn) : (setTxn s line t).err = s.err := rfl
@[simp] theorem setTxn_trc (s : State) (line : Nat) (t : Txn) : (setTxn s line t).trc = s.trc := rfl
@[simp] theorem setTxn_pmc (s : State) (line : Nat) (t : Txn) : (setTxn s line t).pmc = s.pmc := rfl
@[simp] theorem setTxn_sec (s : State) (line : Nat) (t : Txn) : (setTxn s line t).sec = s.sec := rfl
@[simp] theorem setTxn_boot (s : State) (line : Nat) (t : Txn) : (setTxn s line t).boot = s.boot := rfl
@[simp] theorem setTxn_race (s : State) (line : Nat) (t : Txn) : (setTxn s line t).race = s.race := rfl

/-! ## setTraceUnit -/

@[simp] theorem setTraceUnit_pending (s : State) (u : Nat) (x : TraceUnit) : (setTraceUnit s u x).pending = s.pending := rfl
@[simp] theorem setTraceUnit_fsub (s : State) (u : Nat) (x : TraceUnit) : (setTraceUnit s u x).fsub = s.fsub := rfl
@[simp] theorem setTraceUnit_touched (s : State) (u : Nat) (x : TraceUnit) : (setTraceUnit s u x).touched = s.touched := rfl
@[simp] theorem setTraceUnit_owner (s : State) (u : Nat) (x : TraceUnit) : (setTraceUnit s u x).owner = s.owner := rfl
@[simp] theorem setTraceUnit_powered (s : State) (u : Nat) (x : TraceUnit) : (setTraceUnit s u x).powered = s.powered := rfl
@[simp] theorem setTraceUnit_aoTick (s : State) (u : Nat) (x : TraceUnit) : (setTraceUnit s u x).aoTick = s.aoTick := rfl
@[simp] theorem setTraceUnit_ts (s : State) (u : Nat) (x : TraceUnit) : (setTraceUnit s u x).ts = s.ts := rfl
@[simp] theorem setTraceUnit_free (s : State) (u : Nat) (x : TraceUnit) : (setTraceUnit s u x).free = s.free := rfl
@[simp] theorem setTraceUnit_regs (s : State) (u : Nat) (x : TraceUnit) : (setTraceUnit s u x).regs = s.regs := rfl
@[simp] theorem setTraceUnit_shadow (s : State) (u : Nat) (x : TraceUnit) : (setTraceUnit s u x).shadow = s.shadow := rfl
@[simp] theorem setTraceUnit_tokens (s : State) (u : Nat) (x : TraceUnit) : (setTraceUnit s u x).tokens = s.tokens := rfl
@[simp] theorem setTraceUnit_sch (s : State) (u : Nat) (x : TraceUnit) : (setTraceUnit s u x).sch = s.sch := rfl
@[simp] theorem setTraceUnit_clusters (s : State) (u : Nat) (x : TraceUnit) : (setTraceUnit s u x).clusters = s.clusters := rfl
@[simp] theorem setTraceUnit_cores (s : State) (u : Nat) (x : TraceUnit) : (setTraceUnit s u x).cores = s.cores := rfl
@[simp] theorem setTraceUnit_mm (s : State) (u : Nat) (x : TraceUnit) : (setTraceUnit s u x).mm = s.mm := rfl
@[simp] theorem setTraceUnit_xl (s : State) (u : Nat) (x : TraceUnit) : (setTraceUnit s u x).xl = s.xl := rfl
@[simp] theorem setTraceUnit_spr (s : State) (u : Nat) (x : TraceUnit) : (setTraceUnit s u x).spr = s.spr := rfl
@[simp] theorem setTraceUnit_amx (s : State) (u : Nat) (x : TraceUnit) : (setTraceUnit s u x).amx = s.amx := rfl
@[simp] theorem setTraceUnit_hpt (s : State) (u : Nat) (x : TraceUnit) : (setTraceUnit s u x).hpt = s.hpt := rfl
@[simp] theorem setTraceUnit_err (s : State) (u : Nat) (x : TraceUnit) : (setTraceUnit s u x).err = s.err := rfl
@[simp] theorem setTraceUnit_pmc (s : State) (u : Nat) (x : TraceUnit) : (setTraceUnit s u x).pmc = s.pmc := rfl
@[simp] theorem setTraceUnit_sec (s : State) (u : Nat) (x : TraceUnit) : (setTraceUnit s u x).sec = s.sec := rfl
@[simp] theorem setTraceUnit_boot (s : State) (u : Nat) (x : TraceUnit) : (setTraceUnit s u x).boot = s.boot := rfl
@[simp] theorem setTraceUnit_race (s : State) (u : Nat) (x : TraceUnit) : (setTraceUnit s u x).race = s.race := rfl

/-! ## timeTo -/

@[simp] theorem timeTo_pending (s : State) (t : Nat) : (timeTo t s).pending = s.pending := rfl
@[simp] theorem timeTo_owner (s : State) (t : Nat) : (timeTo t s).owner = s.owner := rfl
@[simp] theorem timeTo_powered (s : State) (t : Nat) : (timeTo t s).powered = s.powered := rfl
@[simp] theorem timeTo_free (s : State) (t : Nat) : (timeTo t s).free = s.free := rfl
@[simp] theorem timeTo_regs (s : State) (t : Nat) : (timeTo t s).regs = s.regs := rfl
@[simp] theorem timeTo_shadow (s : State) (t : Nat) : (timeTo t s).shadow = s.shadow := rfl
@[simp] theorem timeTo_tokens (s : State) (t : Nat) : (timeTo t s).tokens = s.tokens := rfl
@[simp] theorem timeTo_sch (s : State) (t : Nat) : (timeTo t s).sch = s.sch := rfl
@[simp] theorem timeTo_clusters (s : State) (t : Nat) : (timeTo t s).clusters = s.clusters := rfl
@[simp] theorem timeTo_cores (s : State) (t : Nat) : (timeTo t s).cores = s.cores := rfl
@[simp] theorem timeTo_mm (s : State) (t : Nat) : (timeTo t s).mm = s.mm := rfl
@[simp] theorem timeTo_xl (s : State) (t : Nat) : (timeTo t s).xl = s.xl := rfl
@[simp] theorem timeTo_spr (s : State) (t : Nat) : (timeTo t s).spr = s.spr := rfl
@[simp] theorem timeTo_amx (s : State) (t : Nat) : (timeTo t s).amx = s.amx := rfl
@[simp] theorem timeTo_hpt (s : State) (t : Nat) : (timeTo t s).hpt = s.hpt := rfl
@[simp] theorem timeTo_err (s : State) (t : Nat) : (timeTo t s).err = s.err := rfl
@[simp] theorem timeTo_trc (s : State) (t : Nat) : (timeTo t s).trc = s.trc := rfl
@[simp] theorem timeTo_pmc (s : State) (t : Nat) : (timeTo t s).pmc = s.pmc := rfl
@[simp] theorem timeTo_sec (s : State) (t : Nat) : (timeTo t s).sec = s.sec := rfl
@[simp] theorem timeTo_boot (s : State) (t : Nat) : (timeTo t s).boot = s.boot := rfl
@[simp] theorem timeTo_race (s : State) (t : Nat) : (timeTo t s).race = s.race := rfl
@[simp] theorem timeTo_aoTick (s : State) (t : Nat) : (timeTo t s).aoTick = max s.aoTick t := rfl
@[simp] theorem timeTo_ts (s : State) (t : Nat) : (timeTo t s).ts = s.ts + (80 * t - fclkOf s) := rfl

/-! ## Register fields -/

@[simp] theorem getF_setF_self (s : State) (f : FRef) (v : Nat) : getF (setF s f v) f = v % 2 ^ f.len := by
  simp [getF, setF, putF]

@[simp] theorem getF_putF_self (s : State) (f : FRef) (v : Nat) : getF (putF s f v) f = v % 2 ^ f.len := by
  simp [getF, putF]

theorem getF_setF_ne (s : State) {f h : FRef} (v : Nat) (ne : h.key ≠ f.key) : getF (setF s f v) h = getF s h := by
  unfold getF setF putF
  exact tget_tset_ne _ ne _

theorem getF_putF_ne (s : State) {f h : FRef} (v : Nat) (ne : h.key ≠ f.key) : getF (putF s f v) h = getF s h := by
  unfold getF putF
  exact tget_tset_ne _ ne _

theorem getF_congr {s t : State} (h : t.regs = s.regs) (f : FRef) : getF t f = getF s f := by simp [getF, h]

@[simp] theorem getF_bumpFree (s : State) (n : Nat) (f' : FRef) : getF (bumpFree s n) f' = getF s f' := rfl
@[simp] theorem getF_setCore (s : State) (g : Nat) (c : Core) (f' : FRef) : getF (setCore s g c) f' = getF s f' := rfl
@[simp] theorem getF_setCasting (s : State) (k : Nat) (c : Casting) (f' : FRef) : getF (setCasting s k c) f' = getF s f' := rfl
@[simp] theorem getF_setQueue (s : State) (q : Nat) (x : Queue) (f' : FRef) : getF (setQueue s q x) f' = getF s f' := rfl
@[simp] theorem getF_setCluster (s : State) (n : Nat) (c : Cluster) (f' : FRef) : getF (setCluster s n c) f' = getF s f' := rfl
@[simp] theorem getF_setChan (s : State) (e ch : Nat) (c : Chan) (f' : FRef) : getF (setChan s e ch c) f' = getF s f' := rfl
@[simp] theorem getF_setPort (s : State) (p : Nat) (x : Port) (f' : FRef) : getF (setPort s p x) f' = getF s f' := rfl
@[simp] theorem getF_setTxn (s : State) (line : Nat) (t : Txn) (f' : FRef) : getF (setTxn s line t) f' = getF s f' := rfl
@[simp] theorem getF_setTraceUnit (s : State) (u : Nat) (x : TraceUnit) (f' : FRef) : getF (setTraceUnit s u x) f' = getF s f' := rfl
@[simp] theorem getF_timeTo (s : State) (t : Nat) (f : FRef) : getF (timeTo t s) f = getF s f := rfl

/-! ## Records read after a write -/

theorem coreOf_setCore (s : State) (g g' : Nat) (c : Core) : coreOf (setCore s g c) g' = if g' = g then c else coreOf s g' := by
  simp [coreOf, setCore, tget_tset]

theorem courseOf_setCourse (s : State) (g i g' i' : Nat) (c : Course) :
    courseOf (setCourse s g i c) g' i' = if g' = g ∧ i' = i then c else courseOf s g' i' := by
  unfold courseOf setCourse
  rw [coreOf_setCore]
  by_cases h : g' = g
  · subst h; simp [tget_tset]
  · simp [h]

theorem consortOf_setConsort (s : State) (g k g' k' : Nat) (c : Consort) :
    consortOf (setConsort s g k c) g' k' = if g' = g ∧ k' = k then c else consortOf s g' k' := by
  unfold consortOf setConsort
  rw [coreOf_setCore]
  by_cases h : g' = g
  · subst h; simp [tget_tset]
  · simp [h]

theorem castingOf_setCasting (s : State) (k k' : Nat) (c : Casting) :
    castingOf (setCasting s k c) k' = if k' = k then c else castingOf s k' := by simp [castingOf, setCasting, tget_tset]

theorem queueOf_setQueue (s : State) (q q' : Nat) (x : Queue) :
    queueOf (setQueue s q x) q' = if q' = q then x else queueOf s q' := by simp [queueOf, setQueue, tget_tset]

theorem clusterOf_setCluster (s : State) (n n' : Nat) (c : Cluster) :
    clusterOf (setCluster s n c) n' = if n' = n then c else clusterOf s n' := by simp [clusterOf, setCluster, tget_tset]

theorem chanOf_setChan (s : State) (e ch e' ch' : Nat) (c : Chan) :
    chanOf (setChan s e ch c) e' ch' = if e' = e ∧ ch' = ch then c else chanOf s e' ch' := by
  unfold chanOf setChan
  by_cases h : e' = e
  · subst h; simp [tget_tset]
  · simp [tget_tset, h]

theorem portOf_setPort (s : State) (p p' : Nat) (x : Port) :
    portOf (setPort s p x) p' = if p' = p then x else portOf s p' := by simp [portOf, setPort, tget_tset]

theorem txnOf_setTxn (s : State) (line line' : Nat) (t : Txn) :
    txnOf (setTxn s line t) line' = if line' = line then t else txnOf s line' := by simp [txnOf, setTxn, tget_tset]

theorem traceUnit_setTraceUnit (s : State) (u u' : Nat) (x : TraceUnit) :
    traceUnit (setTraceUnit s u x) u' = if u' = u then x else traceUnit s u' := by simp [traceUnit, setTraceUnit, tget_tset]

/-! ## The shared operations: everything each can change -/

/-- A command that a module held in reset does not perform, and that a running one does (R589). -/
theorem whenOn_next (s t : State) : whenOn s (.next t) = .next (if s.powered then t else s) := by
  unfold whenOn; split <;> simp_all

/-- An error event changes the error ring's buffer alone (R509). -/
theorem errPush_changes (e : ErrEnt) (s : State) : ∃ r, errPush e s = { s with err := r } := by
  unfold errPush; split <;> exact ⟨_, rfl⟩

theorem errEvent_changes (a b c d e f : Nat) (s : State) : ∃ r, errEvent a b c d e f s = { s with err := r } :=
  errPush_changes _ _

/-- Raising the trigger changes the trace alone (R555). -/
theorem raiseTrigger_changes (c : Nat) (s : State) : ∃ r, raiseTrigger c s = { s with trc := r } := by
  unfold raiseTrigger
  split
  · exact ⟨_, rfl⟩
  · exact ⟨s.trc, rfl⟩

/-- A hardware update of a field changes the registers and their notes alone (R10). -/
theorem setF_changes (s : State) (f : FRef) (v : Nat) : ∃ r t w, setF s f v = { s with regs := r, trc := t, touched := w } :=
  ⟨(setF s f v).regs, s.trc, (setF s f v).touched, rfl⟩

/-- A counter changes the registers with their notes and, through a trigger, the trace (R551, R555). -/
theorem countOne_changes (u i n : Nat) (s : State) : ∃ r t w, countOne u i n s = { s with regs := r, trc := t, touched := w } := by
  unfold countOne
  dsimp only
  generalize getF s (cntCount u i) + n = v
  split
  · exact setF_changes s _ v
  · split
    · obtain ⟨t, h⟩ := raiseTrigger_changes 3 (setOn (setF s (cntCount u i) v) (cntOvf u i))
      exact ⟨(setOn (setF s (cntCount u i) v) (cntOvf u i)).regs, t, (setOn (setF s (cntCount u i) v) (cntOvf u i)).touched, h⟩
    · exact ⟨(setOn (setF s (cntCount u i) v) (cntOvf u i)).regs, s.trc, (setOn (setF s (cntCount u i) v) (cntOvf u i)).touched, rfl⟩

/-- A fold whose every step changes registers, their notes and trace alone does so too. -/
theorem foldl_regs_trc {β : Type} (f : State → β → State) (h : ∀ s b, ∃ r t w, f s b = { s with regs := r, trc := t, touched := w })
    (xs : List β) (s : State) : ∃ r t w, xs.foldl f s = { s with regs := r, trc := t, touched := w } := by
  induction xs generalizing s with
  | nil => exact ⟨s.regs, s.trc, s.touched, rfl⟩
  | cons x xs ih =>
    obtain ⟨r, t, w, e⟩ := h s x
    obtain ⟨r', t', w', e'⟩ := ih (f s x)
    exact ⟨r', t', w', by rw [List.foldl_cons, e', e]⟩

/-- The counters of a unit change registers, their notes and trace alone. -/
theorem countUnit_changes (u c i n : Nat) (s : State) : ∃ r t w, countUnit u c i n s = { s with regs := r, trc := t, touched := w } := by
  unfold countUnit
  split
  · exact ⟨s.regs, s.trc, s.touched, rfl⟩
  · apply foldl_regs_trc
    intro s b
    split
    · exact countOne_changes _ _ _ _
    · exact ⟨s.regs, s.trc, s.touched, rfl⟩

theorem countCl_changes (cl c n : Nat) (s : State) : ∃ r t w, countCl cl c n s = { s with regs := r, trc := t, touched := w } :=
  countUnit_changes _ _ _ _ _
theorem countBase_changes (c i n : Nat) (s : State) : ∃ r t w, countBase c i n s = { s with regs := r, trc := t, touched := w } :=
  countUnit_changes _ _ _ _ _

theorem countCore_changes (g c n : Nat) (s : State) : ∃ r t w, countCore g c n s = { s with regs := r, trc := t, touched := w } := by
  unfold countCore
  obtain ⟨r, t, w, e⟩ := countUnit_changes g c 0 n s
  obtain ⟨r', t', w', e'⟩ := countUnit_changes (192 + clOf g) (0x40 + c) 0 n (countUnit g c 0 n s)
  exact ⟨r', t', w', by rw [e', e]⟩

/-- A trace event changes the trace and the registers alone (R560, R562). -/
theorem tracePush_changes (u : Nat) (b : Bool) (x : TraceRec) (s : State) :
    ∃ r t w, tracePush u b x s = { s with regs := r, trc := t, touched := w } := by
  unfold tracePush
  by_cases h : (traceUnit s u).fifo.length < (if b then 256 else 255)
  · exact ⟨s.regs, (setTraceUnit s u { traceUnit s u with fifo := (traceUnit s u).fifo ++ [x] }).trc, s.touched, by simp only [h, if_true]; rfl⟩
  · simp only [h, if_false]
    split
    · obtain ⟨r, t, w, e⟩ := countCl_changes u 0x12 1 (incSat (setTraceUnit s u { traceUnit s u with
        drops := (traceUnit s u).drops + 1
        dropTs := if (traceUnit s u).drops = 0 then x.ts else (traceUnit s u).dropTs
        dropFret := if (traceUnit s u).drops = 0 then x.fret else (traceUnit s u).dropFret }) (ringDrops u) 1)
      exact ⟨r, t, w, e⟩
    · exact ⟨_, _, _, rfl⟩

theorem traceEvent_changes (u typ ag : Nat) (b : Bool) (l o a : Nat) (s : State) :
    ∃ r t w, traceEvent u typ ag b l o a s = { s with regs := r, trc := t, touched := w } := by
  unfold traceEvent
  split
  · exact tracePush_changes _ _ _ _
  · exact ⟨s.regs, s.trc, s.touched, rfl⟩

/-! ## logWrite -/

/-- Noting an output changes what a casting has written alone (R60). -/
theorem noteOutput_changes (sp a n : Nat) (s : State) : ∃ c, noteOutput sp a n s = { s with sch := { s.sch with castings := c } } := by
  unfold noteOutput
  split
  · exact ⟨s.sch.castings, rfl⟩
  · split
    · exact ⟨s.sch.castings, rfl⟩
    · dsimp only
      split
      · exact ⟨s.sch.castings, rfl⟩
      · exact ⟨_, rfl⟩

/-- Logging a write changes the logs of the model alone (R60, R125, R211). -/
theorem logWrite_changes (sp a n : Nat) (s : State) :
    ∃ c r, logWrite sp a n s = { s with sch := { s.sch with castings := c }, race := r } := by
  unfold logWrite
  obtain ⟨c, h⟩ := noteOutput_changes sp a n s
  dsimp only
  rw [h]
  split
  · exact ⟨c, _, rfl⟩
  · exact ⟨c, s.race, rfl⟩

@[simp] theorem logWrite_pending (sp a n : Nat) (s : State) : (logWrite sp a n s).pending = s.pending := by obtain ⟨c, r, h⟩ := logWrite_changes sp a n s; rw [h]
@[simp] theorem logWrite_fsub (sp a n : Nat) (s : State) : (logWrite sp a n s).fsub = s.fsub := by obtain ⟨c, r, h⟩ := logWrite_changes sp a n s; rw [h]
@[simp] theorem logWrite_touched (sp a n : Nat) (s : State) : (logWrite sp a n s).touched = s.touched := by obtain ⟨c, r, h⟩ := logWrite_changes sp a n s; rw [h]
@[simp] theorem logWrite_owner (sp a n : Nat) (s : State) : (logWrite sp a n s).owner = s.owner := by obtain ⟨c, r, h⟩ := logWrite_changes sp a n s; rw [h]
@[simp] theorem logWrite_powered (sp a n : Nat) (s : State) : (logWrite sp a n s).powered = s.powered := by obtain ⟨c, r, h⟩ := logWrite_changes sp a n s; rw [h]
@[simp] theorem logWrite_aoTick (sp a n : Nat) (s : State) : (logWrite sp a n s).aoTick = s.aoTick := by obtain ⟨c, r, h⟩ := logWrite_changes sp a n s; rw [h]
@[simp] theorem logWrite_ts (sp a n : Nat) (s : State) : (logWrite sp a n s).ts = s.ts := by obtain ⟨c, r, h⟩ := logWrite_changes sp a n s; rw [h]
@[simp] theorem logWrite_free (sp a n : Nat) (s : State) : (logWrite sp a n s).free = s.free := by obtain ⟨c, r, h⟩ := logWrite_changes sp a n s; rw [h]
@[simp] theorem logWrite_regs (sp a n : Nat) (s : State) : (logWrite sp a n s).regs = s.regs := by obtain ⟨c, r, h⟩ := logWrite_changes sp a n s; rw [h]
@[simp] theorem logWrite_shadow (sp a n : Nat) (s : State) : (logWrite sp a n s).shadow = s.shadow := by obtain ⟨c, r, h⟩ := logWrite_changes sp a n s; rw [h]
@[simp] theorem logWrite_tokens (sp a n : Nat) (s : State) : (logWrite sp a n s).tokens = s.tokens := by obtain ⟨c, r, h⟩ := logWrite_changes sp a n s; rw [h]
@[simp] theorem logWrite_clusters (sp a n : Nat) (s : State) : (logWrite sp a n s).clusters = s.clusters := by obtain ⟨c, r, h⟩ := logWrite_changes sp a n s; rw [h]
@[simp] theorem logWrite_cores (sp a n : Nat) (s : State) : (logWrite sp a n s).cores = s.cores := by obtain ⟨c, r, h⟩ := logWrite_changes sp a n s; rw [h]
@[simp] theorem logWrite_mm (sp a n : Nat) (s : State) : (logWrite sp a n s).mm = s.mm := by obtain ⟨c, r, h⟩ := logWrite_changes sp a n s; rw [h]
@[simp] theorem logWrite_xl (sp a n : Nat) (s : State) : (logWrite sp a n s).xl = s.xl := by obtain ⟨c, r, h⟩ := logWrite_changes sp a n s; rw [h]
@[simp] theorem logWrite_spr (sp a n : Nat) (s : State) : (logWrite sp a n s).spr = s.spr := by obtain ⟨c, r, h⟩ := logWrite_changes sp a n s; rw [h]
@[simp] theorem logWrite_amx (sp a n : Nat) (s : State) : (logWrite sp a n s).amx = s.amx := by obtain ⟨c, r, h⟩ := logWrite_changes sp a n s; rw [h]
@[simp] theorem logWrite_hpt (sp a n : Nat) (s : State) : (logWrite sp a n s).hpt = s.hpt := by obtain ⟨c, r, h⟩ := logWrite_changes sp a n s; rw [h]
@[simp] theorem logWrite_err (sp a n : Nat) (s : State) : (logWrite sp a n s).err = s.err := by obtain ⟨c, r, h⟩ := logWrite_changes sp a n s; rw [h]
@[simp] theorem logWrite_trc (sp a n : Nat) (s : State) : (logWrite sp a n s).trc = s.trc := by obtain ⟨c, r, h⟩ := logWrite_changes sp a n s; rw [h]
@[simp] theorem logWrite_pmc (sp a n : Nat) (s : State) : (logWrite sp a n s).pmc = s.pmc := by obtain ⟨c, r, h⟩ := logWrite_changes sp a n s; rw [h]
@[simp] theorem logWrite_sec (sp a n : Nat) (s : State) : (logWrite sp a n s).sec = s.sec := by obtain ⟨c, r, h⟩ := logWrite_changes sp a n s; rw [h]
@[simp] theorem logWrite_boot (sp a n : Nat) (s : State) : (logWrite sp a n s).boot = s.boot := by obtain ⟨c, r, h⟩ := logWrite_changes sp a n s; rw [h]
@[simp] theorem logWrite_getF (sp a n : Nat) (s : State) (f : FRef) : getF (logWrite sp a n s) f = getF s f := by simp [getF]

end Sys2Proof.Machine
end

