-- ==== Sys2Proof/Laws/Course.lean ====
section
/-!
SUPPORT. What the operations of a core instruction do: register reads after writes, reconvergence, issue and retire.
-/
namespace Sys2Proof.Machine

/-! ## Registers -/

theorem nth_range_map {α : Type} (d : α) (f : Nat → α) (n i : Nat) (h : i < n) : nth d ((List.range n).map f) i = f i := by
  simp [nth_eq_getD, h]

theorem nth_normLanes (ws : List Word) (i : Nat) : nth 0 (normLanes ws) i = nth 0 ws i := by
  unfold normLanes
  split
  · rename_i h
    rw [nth_eq_getD, nth_eq_getD]
    simp only [List.all_eq_true, decide_eq_true_eq] at h
    by_cases hi : i < ws.length
    · simp [hi, h (ws[i]) (List.getElem_mem hi)]
    · simp [hi]
  · rfl

/-- A vector register after a write: the value in the lanes of the mask, the old one elsewhere. -/
theorem vreg_setV (c : Course) (d r : Nat) (m : Word) (f : Nat → Word) (l : Nat) (hl : l < 32) :
    vreg (setV c d m f) r l = if r = d ∧ m.getLsbD l = true then f l else vreg c r l := by
  unfold vreg setV
  simp only [tget_tset]
  by_cases h : r = d
  · subst h
    simp only [if_true, nth_normLanes, nth_range_map _ _ _ _ hl, true_and]
    rfl
  · simp [h]

@[simp] theorem ureg_setU (c : Course) (d r : Nat) (w : Word) : ureg (setU c d w) r = if r = d then w else ureg c r := by
  simp [ureg, setU, tget_tset]

@[simp] theorem preg_setP (c : Course) (d r : Nat) (m x : Word) :
    preg (setP c d m x) r = if r = d then (preg c d &&& ~~~m) ||| (x &&& m) else preg c r := by
  simp [preg, setP, tget_tset]

@[simp] theorem ureg_setV (c : Course) (d r : Nat) (m : Word) (f : Nat → Word) : ureg (setV c d m f) r = ureg c r := rfl
@[simp] theorem preg_setV (c : Course) (d r : Nat) (m : Word) (f : Nat → Word) : preg (setV c d m f) r = preg c r := rfl
@[simp] theorem vreg_setU (c : Course) (d r l : Nat) (w : Word) : vreg (setU c d w) r l = vreg c r l := rfl
@[simp] theorem preg_setU (c : Course) (d r : Nat) (w : Word) : preg (setU c d w) r = preg c r := rfl
@[simp] theorem vreg_setP (c : Course) (d r l : Nat) (m x : Word) : vreg (setP c d m x) r l = vreg c r l := rfl
@[simp] theorem ureg_setP (c : Course) (d r : Nat) (m x : Word) : ureg (setP c d m x) r = ureg c r := rfl
@[simp] theorem vreg_raiseFlags (c : Course) (x : Word) (r l : Nat) : vreg (raiseFlags c x) r l = vreg c r l := rfl
@[simp] theorem ureg_raiseFlags (c : Course) (x : Word) (r : Nat) : ureg (raiseFlags c x) r = ureg c r := rfl
@[simp] theorem preg_raiseFlags (c : Course) (x : Word) (r : Nat) : preg (raiseFlags c x) r = preg c r := rfl
@[simp] theorem raiseFlags_asw (c : Course) (x : Word) : (raiseFlags c x).asw = c.asw ||| x := rfl

/-! ## Reconvergence (R80) -/

/-- Reconvergence changes the pc, the active mask and the stack alone. -/
theorem settle_changes (n : Nat) (c : Course) : ∃ p a k, settle n c = { c with pc := p, active := a, stack := k } := by
  induction n generalizing c with
  | zero => exact ⟨c.pc, c.active, c.stack, rfl⟩
  | succ n ih =>
    unfold settle
    split
    · exact ⟨c.pc, c.active, c.stack, rfl⟩
    · split
      · split
        · rename_i a m more hp
          obtain ⟨p, a', k, e⟩ := ih { c with pc := a, active := m &&& ~~~c.exited, stack := _ }
          exact ⟨p, a', k, by rw [e]⟩
        · obtain ⟨p, a', k, e⟩ := ih { c with pc := _, active := _, stack := _ }
          exact ⟨p, a', k, by rw [e]⟩
      · exact ⟨c.pc, c.active, c.stack, rfl⟩

theorem advance_changes (c : Course) : ∃ p a k, advance c = { c with pc := p, active := a, stack := k } := by
  obtain ⟨p, a, k, e⟩ := settle_changes settleFuel { c with pc := pcAdd c.pc 1 }
  exact ⟨p, a, k, e⟩

theorem settle_nil (n : Nat) (c : Course) (h : c.stack = []) : settle n c = c := by
  cases n with
  | zero => rfl
  | succ n => unfold settle; rw [h]

theorem advance_nil (c : Course) (h : c.stack = []) : advance c = { c with pc := pcAdd c.pc 1 } :=
  settle_nil _ { c with pc := pcAdd c.pc 1 } h

@[simp] theorem vreg_advance (c : Course) (r l : Nat) : vreg (advance c) r l = vreg c r l := by
  obtain ⟨p, a, k, e⟩ := advance_changes c; rw [e]; rfl
@[simp] theorem ureg_advance (c : Course) (r : Nat) : ureg (advance c) r = ureg c r := by
  obtain ⟨p, a, k, e⟩ := advance_changes c; rw [e]; rfl
@[simp] theorem preg_advance (c : Course) (r : Nat) : preg (advance c) r = preg c r := by
  obtain ⟨p, a, k, e⟩ := advance_changes c; rw [e]; rfl
@[simp] theorem advance_asw (c : Course) : (advance c).asw = c.asw := by
  obtain ⟨p, a, k, e⟩ := advance_changes c; rw [e]

/-! ## Issue and retire -/

/-- A course that can issue a legal word whose registers it has: the instruction is performed. -/
theorem issue_eq (g slot : Nat) (legal : Bool) (top : Nat) (s : State) (k : Course → State)
    (h1 : courseReady s g slot = true) (h2 : legal = true)
    (h3 : top ≤ (consortOf s g (courseOf s g slot).consort).ra) : issue g slot legal top s k = k (courseOf s g slot) := by
  simp [issue, h1, h2, Nat.not_lt.mpr h3]

/-- A course that retires goes on with its new state at the next instruction; beside it only counters change. -/
theorem retire_changes (g slot : Nat) (c : Course) (s : State) :
    ∃ r t w, retire g slot c s = { setCourse s g slot (advance c) with regs := r, trc := t, touched := w } :=
  countCore_changes _ _ _ _

theorem courseOf_retire (g slot : Nat) (c : Course) (s : State) : courseOf (retire g slot c s) g slot = advance c := by
  obtain ⟨r, t, w, e⟩ := retire_changes g slot c s
  rw [e]
  show courseOf (setCourse s g slot (advance c)) g slot = _
  simp [courseOf_setCourse]

/-- A register instruction that issues. -/
theorem aluOp_eq (sg : Sig) (extra : InstrBits → Bool) (words : Nat) (f : Course → Nat → Res) (g slot : Nat) (b : InstrBits)
    (s : State) (h1 : courseReady s g slot = true) (h2 : sigOk sg b = true) (h3 : extra b = true)
    (h4 : sigTop sg b ≤ (consortOf s g (courseOf s g slot).consort).ra) :
    aluOp sg extra words f g slot b s = retire g slot (writeD (courseOf s g slot) b words (f (courseOf s g slot))) s := by
  unfold aluOp
  rw [issue_eq _ _ _ _ _ _ h1 (by simp [h2, h3]) h4]

/-! ## Writing a result (R67, R102, R109) -/

theorem foldl_setV (c : Course) (d n : Nat) (m : Word) (f : Nat → Nat → Word) (r l : Nat) (hl : l < 32) :
    vreg ((List.range n).foldl (fun c k => setV c (d + k) m (f k)) c) r l =
      if d ≤ r ∧ r < d + n ∧ m.getLsbD l = true then f (r - d) l else vreg c r l := by
  induction n with
  | zero => simp only [List.range_zero, List.foldl_nil, Nat.add_zero]; rw [if_neg (by omega)]
  | succ n ih =>
    rw [List.range_succ, List.foldl_append, List.foldl_cons, List.foldl_nil, vreg_setV _ _ _ _ _ _ hl, ih]
    by_cases h : r = d + n
    · subst h
      by_cases hm : m.getLsbD l = true <;> simp [hm]
    · have : r < d + n ↔ r < d + (n + 1) := by omega
      simp [h, this]

theorem foldl_setV_rest (c : Course) (d n : Nat) (m : Word) (f : Nat → Nat → Word) :
    ∃ v, (List.range n).foldl (fun c k => setV c (d + k) m (f k)) c = { c with v := v } := by
  induction n with
  | zero => exact ⟨c.v, rfl⟩
  | succ n ih =>
    obtain ⟨v, e⟩ := ih
    rw [List.range_succ, List.foldl_append, e]
    exact ⟨_, rfl⟩

theorem foldl_setU (c : Course) (d n : Nat) (f : Nat → Word) (r : Nat) :
    ureg ((List.range n).foldl (fun c k => setU c (d + k) (f k)) c) r = if d ≤ r ∧ r < d + n then f (r - d) else ureg c r := by
  induction n with
  | zero => simp only [List.range_zero, List.foldl_nil, Nat.add_zero]; rw [if_neg (by omega)]
  | succ n ih =>
    rw [List.range_succ, List.foldl_append, List.foldl_cons, List.foldl_nil, ureg_setU, ih]
    by_cases h : r = d + n
    · subst h; simp
    · have : (d ≤ r ∧ r < d + n) ↔ (d ≤ r ∧ r < d + (n + 1)) := by omega
      simp [h, this]

theorem foldl_setU_rest (c : Course) (d n : Nat) (f : Nat → Word) :
    ∃ u, (List.range n).foldl (fun c k => setU c (d + k) (f k)) c = { c with u := u } := by
  induction n with
  | zero => exact ⟨c.u, rfl⟩
  | succ n ih =>
    obtain ⟨v, e⟩ := ih
    rw [List.range_succ, List.foldl_append, e]
    exact ⟨_, rfl⟩

/-- A result changes registers and the status word alone. -/
theorem writeD_changes (c : Course) (b : InstrBits) (n : Nat) (f : Nat → Res) :
    ∃ v u a, writeD c b n f = { c with v := v, u := u, asw := a } := by
  unfold writeD
  dsimp only
  split
  · obtain ⟨u, e⟩ := foldl_setU_rest c (fldD b) n (fun k => BitVec.ofNat 32 ((f 0).code >>> (32 * k)))
    exact ⟨c.v, u, _, by rw [e]; rfl⟩
  · obtain ⟨v, e⟩ := foldl_setV_rest c (fldD b) n (lanesOf c b) (fun k l => BitVec.ofNat 32 ((nth ⟨0, 0⟩
        ((List.range 32).map (fun l => if (lanesOf c b).getLsbD l then f l else ⟨0, 0⟩)) l).code >>> (32 * k)))
    exact ⟨v, c.u, _, by rw [e]; rfl⟩

/-- A vector destination receives the words of each lane's result in the lanes that ran. -/
theorem writeD_vector (c : Course) (b : InstrBits) (n : Nat) (f : Nat → Res) (h : b.du = false) :
    (writeD c b n f).u = c.u ∧ ∀ r l, l < 32 → vreg (writeD c b n f) r l =
      if fldD b ≤ r ∧ r < fldD b + n ∧ (lanesOf c b).getLsbD l = true
      then BitVec.ofNat 32 ((f l).code >>> (32 * (r - fldD b))) else vreg c r l := by
  unfold writeD
  simp only [h, Bool.false_eq_true, if_false]
  constructor
  · obtain ⟨v, e⟩ := foldl_setV_rest c (fldD b) n (lanesOf c b) (fun k l => BitVec.ofNat 32 ((nth ⟨0, 0⟩
        ((List.range 32).map (fun l => if (lanesOf c b).getLsbD l then f l else ⟨0, 0⟩)) l).code >>> (32 * k)))
    rw [e]; rfl
  · intro r l hl
    rw [vreg_raiseFlags, foldl_setV _ _ _ _ _ _ _ hl]
    by_cases hm : (lanesOf c b).getLsbD l = true <;> simp [nth_range_map _ _ _ _ hl, hm]

/-- A uniform destination receives the words of the one result. -/
theorem writeD_uniform (c : Course) (b : InstrBits) (n : Nat) (f : Nat → Res) (h : b.du = true) :
    (writeD c b n f).v = c.v ∧ ∀ r, ureg (writeD c b n f) r =
      if fldD b ≤ r ∧ r < fldD b + n then BitVec.ofNat 32 ((f 0).code >>> (32 * (r - fldD b))) else ureg c r := by
  unfold writeD
  simp only [h, if_true]
  constructor
  · obtain ⟨u, e⟩ := foldl_setU_rest c (fldD b) n (fun k => BitVec.ofNat 32 ((f 0).code >>> (32 * k)))
    rw [e]; rfl
  · intro r
    rw [ureg_raiseFlags, foldl_setU]

theorem getLsbD_foldl_or (xs : List Res) (a : Word) (i : Nat) :
    (xs.foldl (fun a r => a ||| r.flags) a).getLsbD i = (a.getLsbD i || xs.any (fun r => r.flags.getLsbD i)) := by
  induction xs generalizing a with
  | nil => simp
  | cons x xs ih => simp [ih, Bool.or_assoc]

/-- The flags that a result raises: those of every lane that ran. -/
theorem writeD_flags (c : Course) (b : InstrBits) (n : Nat) (f : Nat → Res) (i : Nat) :
    (writeD c b n f).asw.getLsbD i = (c.asw.getLsbD i || (if b.du then (f 0).flags.getLsbD i
      else (List.range 32).any (fun l => (lanesOf c b).getLsbD l && (f l).flags.getLsbD i))) := by
  unfold writeD
  dsimp only
  split
  · obtain ⟨u, e⟩ := foldl_setU_rest c (fldD b) n (fun k => BitVec.ofNat 32 ((f 0).code >>> (32 * k)))
    rw [e]; simp
  · obtain ⟨v, e⟩ := foldl_setV_rest c (fldD b) n (lanesOf c b) (fun k l => BitVec.ofNat 32 ((nth ⟨0, 0⟩
        ((List.range 32).map (fun l => if (lanesOf c b).getLsbD l then f l else ⟨0, 0⟩)) l).code >>> (32 * k)))
    rw [e]
    simp only [raiseFlags_asw, BitVec.getLsbD_or, getLsbD_foldl_or]
    rw [show (0 : Word).getLsbD i = false from BitVec.getLsbD_zero, Bool.false_or, List.any_map]
    congr 2
    funext l
    by_cases hm : (lanesOf c b).getLsbD l = true <;> simp [hm]

end Sys2Proof.Machine
end

