-- ==== Sys2Proof/Laws/Memory.lean ====
section
/-!
SUPPORT. Every operation that stores bytes keeps the memories canonical, and they are so at reset.
-/
namespace Sys2Proof.Machine

theorem wf_iff (s : State) : Memory.wf s = true ↔
    twf 0 s.mm.mem = true ∧ twf 0 s.mm.host = true ∧ ∀ e ∈ s.cores, twf 0 e.2.cmem = true := by
  simp [Memory.wf, and_assoc]

/-- Memory is canonical after reset. -/
theorem wf_reset : Memory.wf State.reset = true := rfl

theorem mem_tdel {α : Type} {t : Tbl α} {k : Nat} {e : Nat × α} (h : e ∈ tdel t k) : e ∈ t := by
  induction t with
  | nil => exact h
  | cons x t ih =>
    obtain ⟨a, v⟩ := x
    simp only [tdel] at h
    split at h
    · exact List.mem_cons_of_mem _ (ih h)
    · rcases List.mem_cons.mp h with h | h
      · exact h ▸ List.mem_cons_self
      · exact List.mem_cons_of_mem _ (ih h)

theorem mem_tins {α : Type} {t : Tbl α} {k : Nat} {v : α} {e : Nat × α} (h : e ∈ tins t k v) : e = (k, v) ∨ e ∈ t := by
  induction t with
  | nil => exact .inl (List.mem_singleton.mp h)
  | cons x t ih =>
    obtain ⟨a, w⟩ := x
    simp only [tins] at h
    split at h
    · rcases List.mem_cons.mp h with h | h
      · exact .inl h
      · exact .inr (List.mem_cons_of_mem _ h)
    · split at h
      · rcases List.mem_cons.mp h with h | h
        · exact .inl h
        · exact .inr h
      · rcases List.mem_cons.mp h with h | h
        · exact .inr (h ▸ List.mem_cons_self)
        · rcases ih h with h | h
          · exact .inl h
          · exact .inr (List.mem_cons_of_mem _ h)

theorem mem_tset {α : Type} [DecidableEq α] {d : α} {t : Tbl α} {k : Nat} {v : α} {e : Nat × α} (h : e ∈ tset d t k v) :
    e = (k, v) ∨ e ∈ t := by
  unfold tset at h
  split at h
  · exact .inr (mem_tdel h)
  · exact mem_tins h

/-- A core found at an index holds what the table lists there, or nothing. -/
theorem wf_coreOf {s : State} (g : Nat) (w : Memory.wf s = true) : twf 0 (coreOf s g).cmem = true := by
  have h := ((wf_iff s).mp w).2.2
  show twf 0 (tget {} s.cores g).cmem = true
  generalize s.cores = t at h ⊢
  induction t with
  | nil => rfl
  | cons x t ih =>
    obtain ⟨a, v⟩ := x
    unfold tget
    split
    · exact h _ List.mem_cons_self
    · exact ih (fun e he => h e (List.mem_cons_of_mem _ he))

/-! ## Device memory -/

theorem wf_mem {s t : State} (w : Memory.wf s = true) (h1 : twf 0 t.mm.mem = true) (h2 : t.mm.host = s.mm.host)
    (h3 : t.cores = s.cores) : Memory.wf t = true := by
  rw [wf_iff] at w ⊢
  rw [h2, h3]
  exact ⟨h1, w.2⟩

theorem wf_same {s t : State} (w : Memory.wf s = true) (h1 : t.mm.mem = s.mm.mem) (h2 : t.mm.host = s.mm.host)
    (h3 : t.cores = s.cores) : Memory.wf t = true := wf_mem w (by rw [h1]; exact ((wf_iff s).mp w).1) h2 h3

theorem wf_foldl {α : Type} (f : State → α → State) (xs : List α) (h : ∀ s x, Memory.wf s = true → Memory.wf (f s x) = true)
    (s : State) (w : Memory.wf s = true) : Memory.wf (xs.foldl f s) = true := by
  induction xs generalizing s with
  | nil => exact w
  | cons x xs ih => exact ih _ (h _ _ w)

theorem wf_logWrite (sp a n : Nat) (s : State) (w : Memory.wf s = true) : Memory.wf (logWrite sp a n s) = true := by
  obtain ⟨c, r, h⟩ := logWrite_changes sp a n s
  rw [h]
  exact wf_same w rfl rfl rfl

theorem wf_scrTame (loc : Nat) (s : State) (w : Memory.wf s = true) : Memory.wf (scrTame loc s) = true := by
  unfold scrTame
  split
  · exact wf_mem w (twf_wrList _ _ ((wf_iff s).mp w).1) rfl rfl
  · exact w

theorem wf_scrWrite (loc : Nat) (bs : List Byte) (s : State) (w : Memory.wf s = true) : Memory.wf (scrWrite loc bs s) = true := by
  unfold scrWrite
  have h := wf_foldl (fun s k => scrTame (loc / 128 * 128 + 128 * k) s) (List.range ((loc % 128 + bs.length + 127) / 128))
    (fun s k => wf_scrTame _ s) s w
  exact wf_logWrite _ _ _ _ (wf_mem h (twf_wrList loc bs ((wf_iff _).mp h).1) rfl rfl)

theorem wf_scrClear (cl : Nat) (way : Nat → Bool) (s : State) (w : Memory.wf s = true) : Memory.wf (scrClear cl way s) = true :=
  wf_mem w (twf_filter _ ((wf_iff s).mp w).1) rfl rfl

theorem wf_scrForget (cl : Nat) (way : Nat → Bool) (s : State) (w : Memory.wf s = true) : Memory.wf (scrForget cl way s) = true :=
  wf_same (wf_scrClear cl way s w) rfl rfl rfl

theorem wf_rekey (tag line : Nat) (s : State) (w : Memory.wf s = true) : Memory.wf (rekey tag line s) = true := by
  unfold rekey
  split
  · exact w
  · exact wf_mem w (twf_wrList _ _ ((wf_iff s).mp w).1) rfl rfl

theorem wf_noteRaw (n off len ks : Nat) (pour : Bool) (s : State) (w : Memory.wf s = true) :
    Memory.wf (noteRaw n off len ks pour s) = true := by
  unfold noteRaw
  dsimp only
  split
  · exact wf_same w rfl rfl rfl
  · split
    · refine wf_foldl _ _ (fun s x h => ?_) _ (wf_same w rfl rfl rfl)
      exact wf_same h rfl rfl rfl
    · have wf_bump : ∀ t : State, Memory.wf t = true → Memory.wf (bumpFree t 1) = true := fun t h => wf_same h rfl rfl rfl
      refine wf_bump _ (wf_foldl _ _ (fun s x h => ?_) _ (wf_same w rfl rfl rfl))
      exact wf_mem h (twf_wrList _ _ ((wf_iff s).mp h).1) rfl rfl

theorem wf_putBytes (ks loc : Nat) (bs : List Byte) (full pour : Bool) (s : State) (w : Memory.wf s = true) :
    Memory.wf (putBytes ks loc bs full pour s) = true := by
  have h := wf_rekey (keyTag s ks) (lineOf loc) s w
  have h' : Memory.wf { rekey (keyTag s ks) (lineOf loc) s with
      mm := { (rekey (keyTag s ks) (lineOf loc) s).mm with mem := wrList (rekey (keyTag s ks) (lineOf loc) s).mm.mem loc bs } } = true :=
    wf_mem h (twf_wrList _ _ ((wf_iff _).mp h).1) rfl rfl
  replace h' := wf_logWrite 0 loc bs.length _ h'
  unfold putBytes
  dsimp only
  split <;> split <;> first | exact wf_noteRaw _ _ _ _ _ _ (wf_same h' rfl rfl rfl) | exact wf_noteRaw _ _ _ _ _ _ h' |
    exact wf_same h' rfl rfl rfl

theorem wf_toRun (cl : Nat) (s : State) (w : Memory.wf s = true) : Memory.wf (toRun cl s) = true := by
  unfold toRun
  split
  · exact wf_same w rfl rfl rfl
  · exact w

/-- A permitted write of device memory. -/
theorem wf_putDev (dpa : Nat) (bs : List Byte) (full pour : Bool) (s : State) (w : Memory.wf s = true) :
    Memory.wf (putDev dpa bs full pour s) = true := by
  unfold putDev
  split
  · rename_i cl _ _
    split
    · have h := wf_scrWrite (locOf dpa) bs _ (wf_toRun cl s w)
      dsimp only
      split
      · exact wf_same h rfl rfl rfl
      · exact h
    · exact w
  · exact wf_putBytes _ _ _ _ _ _ w

/-! ## Host memory and consort memory -/

theorem wf_putHost (pa : Nat) (bs : List Byte) (s : State) (w : Memory.wf s = true) : Memory.wf (putHost pa bs s) = true := by
  refine wf_logWrite _ _ _ _ ?_
  rw [wf_iff] at w ⊢
  exact ⟨w.1, twf_wrList _ _ w.2.1, w.2.2⟩

theorem wf_hostWrite (x : Waiter) (pa : Nat) (bs : List Byte) (s : State) (w : Memory.wf s = true) :
    Memory.wf (hostWrite x pa bs s) = true := by
  unfold hostWrite
  split
  · exact wf_same (wf_putHost pa bs s w) rfl rfl rfl
  · exact w

theorem wf_setCore (g : Nat) (c : Core) (s : State) (w : Memory.wf s = true) (h : twf 0 c.cmem = true) :
    Memory.wf (setCore s g c) = true := by
  rw [wf_iff] at w ⊢
  refine ⟨w.1, w.2.1, fun e he => ?_⟩
  rcases mem_tset he with he | he
  · rw [he]; exact h
  · exact w.2.2 e he

theorem wf_cmemWrite (g slot off : Nat) (bs : List Byte) (s : State) (w : Memory.wf s = true) :
    Memory.wf (cmemWrite g slot off bs s) = true :=
  wf_logWrite _ _ _ _ (wf_setCore _ _ _ w (twf_wrList _ _ (wf_coreOf g w)))

theorem wf_semaAdd (i v : Nat) (s : State) (w : Memory.wf s = true) : Memory.wf (semaAdd i v s) = true := wf_same w rfl rfl rfl

end Sys2Proof.Machine
end

