-- ==== Sys2Proof/Tests/Slice0.lean ====
section
/-!
SUPPORT. The model's own tests: a witness for each statement's hypotheses, the spec's worked examples, and a command that
each check of WellFormed refuses.
-/
namespace Sys2Proof.Tests
open Sys2Proof Sys2Proof.Machine

set_option Elab.async false

/-! ## Small states -/

/-- A module in phase READY whose base-die processors run and whose memory is mapped. -/
def up : State :=
  setF (setF (setF (setF { State.reset with boot := { phase := 4, s2Runs := true }, hpt := { bme := true } } (fwState 0) 1) (fwState 1) 1)
    (fwState 2) 1) hbmReady 0xFFF
/-- The context without PASID maps VA to the same DPA in the first GiB, and to host memory from 2^40 on. -/
def mapped (s : State) : State :=
  { s with xl := { s.xl with crucible := [⟨0, 0, 30, 0, true, true, false, 0⟩, ⟨0, 1024, 30, 1024, true, true, false, 0⟩] } }
/-- A course with every lane active. -/
def c0 : Course := { live := true, pc := 0x1000, active := 0xFFFFFFFF#32 }
/-- A casting on cluster 0. -/
def casting0 : Casting := { live := true, mask := 1, nodes := 1, root := 0x10000 }
/-- Course 1 of core 0 alone, with 16 registers, 4 KiB of consort memory and the Harp. -/
def coreS (c : Course) : State :=
  { mapped up with
    cores := [(0, { courses := [(1, c)], consorts := [(0, { live := true, courses := [1], ra := 16, ca := 4, harp := true })] })]
    sch := { castings := [(0, casting0)] }
    clusters := [(0, { casting := some 0 })] }
/-- A word of format R. -/
def w3 (d a b c m : Nat) : InstrBits :=
  { InstrBits.zero with low := BitVec.ofNat 45 (d * 2 ^ 37 + a * 2 ^ 29 + b * 2 ^ 21 + c * 2 ^ 13 + m) }
/-- Whether an access answers a value. -/
def isOk {α : Type} (r : State × Got α) : Bool := match r.2 with | .ok _ => true | _ => false
/-- The value it answers. -/
def gotOr {α : Type} (d : α) (r : State × Got α) : α := match r.2 with | .ok a => a | _ => d
/-- A test of the next state. -/
def nextIs (o : Out) (p : State → Bool) : Bool := match o with | .next t => p t | _ => false
/-- Core 0's instruction cache holds these instructions at their courses' addresses. -/
def withCode (is : List Instr) (s : State) : State :=
  setCore s 0 { coreOf s 0 with
    icache := is.foldl (fun t i => match codeOf i with | some x => addWord t (fetchAt s x.1 x.2.1) x.2.2 | none => t) [] }
/-- The state that an access leaves. -/
abbrev leaves {α : Type} (r : State × Got α) : State := r.1

/-! ## Witnesses: core instructions -/

/-- IntegerInstructionsCompute, at the last register of the consort's block; FloatInstructionsCompute to PredicatesCompute. -/
theorem witness_integer : integerOp (.iadd 0 1 (w3 15 1 2 0 0)) ≠ none ∧ Issues (sigInt 0) 0 1 (w3 15 1 2 0 0) (withCode [.iadd 0 1 (w3 15 1 2 0 0)] (coreS c0)) ∧
    InCache (.iadd 0 1 (w3 15 1 2 0 0)) (withCode [.iadd 0 1 (w3 15 1 2 0 0)] (coreS c0)) := by
  unfold Issues InCache; decide +kernel
theorem witness_float : (floatOp (.fadd 0 1 (w3 15 1 2 0 3))).any (fun o => o.ok) = true ∧
    Issues sigFp 0 1 (w3 15 1 2 0 3) (withCode [.fadd 0 1 (w3 15 1 2 0 3)] (coreS c0)) ∧
    InCache (.fadd 0 1 (w3 15 1 2 0 3)) (withCode [.fadd 0 1 (w3 15 1 2 0 3)] (coreS c0)) := by
  unfold Issues InCache; decide +kernel
theorem witness_double : doubleOp (.dadd 0 1 (w3 14 0 2 0 0)) ≠ none ∧ Issues sigDp 0 1 (w3 14 0 2 0 0) (withCode [.dadd 0 1 (w3 14 0 2 0 0)] (coreS c0)) ∧
    InCache (.dadd 0 1 (w3 14 0 2 0 0)) (withCode [.dadd 0 1 (w3 14 0 2 0 0)] (coreS c0)) := by
  unfold Issues InCache; decide +kernel
theorem witness_convert : (convertOp (.f2i 0 1 (w3 15 1 0 0 0x20))).any (fun o => o.ok) = true ∧
    Issues (sigCvt (w3 15 1 0 0 0x20)) 0 1 (w3 15 1 0 0 0x20) (withCode [.f2i 0 1 (w3 15 1 0 0 0x20)] (coreS c0)) ∧
    InCache (.f2i 0 1 (w3 15 1 0 0 0x20)) (withCode [.f2i 0 1 (w3 15 1 0 0 0x20)] (coreS c0)) := by
  unfold Issues InCache; decide +kernel
theorem witness_move : (moveOp (withCode [.mov 0 1 (w3 15 1 0 0 0)] (coreS c0)) (.mov 0 1 (w3 15 1 0 0 0))).any (fun o => o.ok) = true ∧
    Issues sigUn 0 1 (w3 15 1 0 0 0) (withCode [.mov 0 1 (w3 15 1 0 0 0)] (coreS c0)) ∧
    InCache (.mov 0 1 (w3 15 1 0 0 0)) (withCode [.mov 0 1 (w3 15 1 0 0 0)] (coreS c0)) := by
  unfold Issues InCache; decide +kernel
def wMovi : InstrBits := { InstrBits.zero with low := BitVec.ofNat 45 (15 * 2 ^ 37 + 0xFFFFFFFF) }
def wMovSw : InstrBits := { w3 0 2 63 0 0 with bu := true }
def moviS : State := withCode [.movi 0 1 wMovi, .movSw 0 1 wMovSw] (coreS c0)
theorem witness_movi : Ready 0 1 moviS ∧ InCache (.movi 0 1 wMovi) moviS ∧ guardOk wMovi = true ∧ Form.ok .reg wMovi.du (fldD wMovi) = true ∧
    bits wMovi.low.toNat 36 32 = 0 ∧ (wMovi.du && wMovi.gen) = false ∧ Form.top .reg wMovi.du (fldD wMovi) ≤ (consortOf moviS 0 (courseOf moviS 0 1).consort).ra ∧
    InCache (.movSw 0 1 wMovSw) moviS ∧ Issues ⟨.unused, .number, .ureg, .unused, 0, none⟩ 0 1 wMovSw moviS ∧ fldA wMovSw = 2 ∧ wMovSw.gen = false ∧
    harpPending moviS 0 1 = false := by
  unfold Issues Ready InCache; decide +kernel
theorem witness_predicate : (predicateOp (.icmp 0 1 (w3 7 1 2 0 5))).any (fun o => o.ok) = true ∧
    Issues (sigCmp (w3 7 1 2 0 5) 0x7F 0x1F) 0 1 (w3 7 1 2 0 5) (withCode [.icmp 0 1 (w3 7 1 2 0 5)] (coreS c0)) ∧
    InCache (.icmp 0 1 (w3 7 1 2 0 5)) (withCode [.icmp 0 1 (w3 7 1 2 0 5)] (coreS c0)) := by
  unfold Issues InCache; decide +kernel
/-- NanResultsAreCanonical. -/
theorem witness_nan : isNanF (decodeF fp32 0x7F800001) = true ∧ isNanF (decodeF fp32 0) = false ∧
    isNanF (decodeF fp32 (fAdd fp32 .nearestEven true false false 0x7F800001 0).code) = true := by decide +kernel
/-- BranchesFollowTheirPaths. -/
def full : Course := { c0 with stack := List.replicate 32 ⟨0x2000, 1#32, []⟩ }
def wBra : InstrBits := { InstrBits.zero with low := BitVec.ofNat 45 (5 * 2 ^ 21 + 2) }
def wBrx : InstrBits := w3 0 14 0 0 0
def braS : State := withCode [.bra 0 1 wBra, .brx 0 1 wBrx] (coreS c0)
theorem witness_branch : Ready 0 1 braS ∧ InCache (.bra 0 1 wBra) braS ∧ guardOk wBra = true ∧ InCache (.brx 0 1 wBrx) braS ∧ guardOk wBrx = true ∧
    Form.ok .pair false (fldA wBrx) = true ∧ fldD wBrx = 0 ∧ fldB wBrx = 0 ∧ Form.top .pair false 14 ≤ (consortOf braS 0 (courseOf braS 0 1).consort).ra ∧
    32 ≤ (courseOf (coreS full) 0 1).stack.length ∧ courseReady (coreS full) 0 1 = true ∧ (courseOf (coreS c0) 0 1).stack.length < 32 := by
  unfold Ready InCache; decide +kernel
/-- ExitRemovesLanes: every lane, and none. -/
def half : InstrBits := { InstrBits.zero with gen := true, gp := 7#3 }
def exitS : State := withCode [.exit 0 1 InstrBits.zero, .exit 0 1 half] (coreS c0)
theorem witness_exit : Ready 0 1 exitS ∧ (∀ b ∈ [InstrBits.zero, half], InCache (.exit 0 1 b) exitS ∧ guardOk b = true ∧ b.low = 0 ∧ b.op5 = false ∧ b.du = false) ∧
    harpPending exitS 0 1 = false ∧ (settle settleFuel { c0 with exited := c0.active, active := 0 }).active = 0 ∧ c0.copies = 0 ∧
    (settle settleFuel { c0 with exited := 0, active := c0.active }).active ≠ 0 := by unfold Ready InCache; decide +kernel
/-- BarrierWaitsForTheConsort: course 0 with every lane, course 1 with lanes missing. -/
def cores2 : Core :=
  { courses := [(0, c0), (1, { c0 with active := 1#32 })], consorts := [(0, { live := true, courses := [0, 1], ra := 16, ca := 4 })] }
def two : State := withCode [.bar 0 0 InstrBits.zero, .bar 0 1 InstrBits.zero] { coreS c0 with cores := [(0, cores2)] }
theorem witness_barrier : Ready 0 0 two ∧ Ready 0 1 two ∧ InCache (.bar 0 0 InstrBits.zero) two ∧ InCache (.bar 0 1 InstrBits.zero) two ∧
    (courseOf two 0 0).active = liveLanes (courseOf two 0 0) ∧ (courseOf two 0 1).active ≠ liveLanes (courseOf two 0 1) ∧
    harpPending two 0 0 = false ∧ 0 ∈ (consortOf two 0 0).courses ∧ (courseOf two 0 0).pour = .closed ∧ (courseOf two 0 1).pour = .closed := by
  unfold Ready InCache; decide +kernel

/-! Memory instructions: lane addresses at the last word of the consort's memory, and in device memory. -/
def ldC : InstrBits := w3 15 1 0 0 0x900
def atC : Course := { c0 with v := [(1, List.replicate 32 0xFFC#32)] }
def cmemLS : State := withCode [.ld 0 1 ldC, .st 0 1 ldC] (coreS atC)
/-- ConsortMemoryLoadsAndStores. -/
theorem witness_cmem : MemIssues (dataForm (mBytes ldC)) true 0 1 ldC cmemLS ∧ mSpace ldC = 1 ∧ harpPending cmemLS 0 1 = false ∧
    accessBar cmemLS 0 1 (mBytes ldC) true (laneAddrs (courseOf cmemLS 0 1) ldC true (fldOff ldC)) = none ∧
    MemIssues (dataForm (mBytes ldC)) false 0 1 ldC cmemLS ∧ InCache (.ld 0 1 ldC) cmemLS ∧ InCache (.st 0 1 ldC) cmemLS ∧
    accessBar cmemLS 0 1 (mBytes ldC) true (laneAddrs (courseOf cmemLS 0 1) ldC false (fldOff ldC)) = none := by
  unfold MemIssues InCache; decide +kernel
def ldG : InstrBits := w3 15 2 0 0 0x800
def atG : Course := { c0 with active := 3#32, v := [(2, List.replicate 32 0x4000#32)] }
def ldS : State := withCode [.ld 0 1 ldG, .ldV 0 1 ldG, .st 0 1 ldG] (coreS { atG with v := [(2, List.replicate 32 0x4000#32), (15, List.replicate 32 7#32)] })
/-- The loads of `ldG`, lane by lane, with what each stage answers. -/
def loads (vol : Bool) (s : State) : Bool :=
  let a := courseAccess (endRsv 0 1 s) 0 1
  let r0 := laneTargets a false (laneAddrs (courseOf s 0 1) ldG true (fldOff ldG)) (endRsv 0 1 s)
  let ts := gotOr [] r0
  let r1 := eachLane (fun x s => loadCheck 0 1 (mHint ldG) vol a x.2.2 x.2.1 (mBytes ldG) s) ts r0.1
  let r2 := eachLane (fun x s => loadTarget 0 1 (mHint ldG) vol a x.2.2 x.2.1 (mBytes ldG) s) ts r1.1
  isOk r0 && isOk r1 && isOk r2 && ts.all (fun x => !isClaim vol (mBytes ldG) (ctrlOf 0 x.2.2)) && (courseOf r2.1 0 1).live &&
    decide ((courseOf r0.1 0 1).pour = .closed)
/-- GlobalLoadsAndStores: LD and LD.V. -/
theorem witness_global : MemIssues (dataForm (mBytes ldG)) true 0 1 ldG ldS ∧ mSpace ldG = 0 ∧ InCache (.ld 0 1 ldG) ldS ∧ InCache (.ldV 0 1 ldG) ldS ∧
    accessBar ldS 0 1 (mBytes ldG) false (laneAddrs (courseOf ldS 0 1) ldG true (fldOff ldG)) = none ∧ loads false ldS = true ∧ loads true ldS = true := by
  unfold MemIssues InCache; decide +kernel
/-- The stores of `ldG`'s operands. -/
def stores (s : State) : Bool :=
  let a := courseAccess (endRsv 0 1 s) 0 1
  let r0 := laneTargets a true (laneAddrs (courseOf s 0 1) ldG false (fldOff ldG)) (endRsv 0 1 s)
  let ts := gotOr [] r0
  let r1 := eachLane (fun x s => storeCheck 0 1 a x.2.2 x.2.1 s) ts r0.1
  let s3 := asCourse 0 1 (fun s => ts.foldl (fun s x => storeTarget 0 1 (mHint ldG) a x.2.2 x.2.1 (laneData (courseOf r0.1 0 1) false 15 4 x.1) s) s) r1.1
  isOk r0 && isOk r1 && (courseOf s3 0 1).live && decide (s3.mm ≠ s.mm) && decide ((courseOf r0.1 0 1).pour = .closed)
theorem witness_store : MemIssues (dataForm (mBytes ldG)) false 0 1 ldG ldS ∧ InCache (.st 0 1 ldG) ldS ∧
    accessBar ldS 0 1 (mBytes ldG) false (laneAddrs (courseOf ldS 0 1) ldG false (fldOff ldG)) = none ∧ stores ldS = true := by
  unfold MemIssues InCache; decide +kernel
def prefG : InstrBits := w3 0 2 0 0 0x800
/-- A PREF of R2's addresses. -/
def prefS2 (va : Nat) : State := withCode [.pref 0 1 prefG] (coreS { atG with v := [(2, List.replicate 32 (BitVec.ofNat 32 va))] })
def prefRun (s : State) : State × Bool :=
  (laneAddrs (courseOf s 0 1) prefG false (fldOff prefG)).foldl (fun (r : State × Bool) x =>
    ((prefLine 0 1 (mHint prefG) x.2 r.1).1, r.2 && (prefLine 0 1 (mHint prefG) x.2 r.1).2)) (endRsv 0 1 s, true)
theorem witness_pref : MemIssues .unused false 0 1 prefG (prefS2 0x4000) ∧ InCache (.pref 0 1 prefG) (prefS2 0x4000) ∧ mSpace prefG = 0 ∧
    misaligned (mBytes prefG) (laneAddrs (courseOf (prefS2 0x4000) 0 1) prefG false (fldOff prefG)) = none ∧
    (prefRun (prefS2 0x4000)).2 = true ∧ (courseOf (prefRun (prefS2 0x4000)).1 0 1).live = true ∧
    MemIssues .unused false 0 1 prefG (prefS2 0x4002) ∧ InCache (.pref 0 1 prefG) (prefS2 0x4002) ∧
    (misaligned (mBytes prefG) (laneAddrs (courseOf (prefS2 0x4002) 0 1) prefG false (fldOff prefG))).isSome = true ∧
    MemIssues .unused false 0 1 prefG (prefS2 0x80000000) ∧ InCache (.pref 0 1 prefG) (prefS2 0x80000000) ∧
    (prefRun (prefS2 0x80000000)).2 = false := by
  unfold MemIssues InCache; decide +kernel
/-- The cache holds a reserved word, or nothing, where the course stands. -/
def missS (ws : List Nat) : State :=
  let s := coreS c0
  setCore s 0 { coreOf s 0 with icache := [(0x1000, ws)] }
theorem witness_fetch : Ready 0 1 (missS [2 ^ 64 - 1]) ∧ (codeOf (.mov 0 1 (w3 15 1 0 0 0))).any (fun x => !fetched (missS [2 ^ 64 - 1]) 0 1 x.2.2) = true ∧
    (fetchedWords (missS [2 ^ 64 - 1]) 0 1).any wordReserved = true ∧ (fetchedWords (missS [7]) 0 1).any wordReserved = false ∧
    (codeOf (.mov 0 1 (w3 15 1 0 0 0))).any (fun x => !fetched (missS [7]) 0 1 x.2.2) = true ∧
    isOk (readAtVa (courseAccess (missS [7]) 0 1) 0x1000 128 none (missS [7])) = true := by unfold Ready; decide +kernel
def atomG : InstrBits := w3 15 2 4 0 0x800
def atomC : InstrBits := w3 15 1 4 0 0x900
def atomCS : State := withCode [.atom 0 1 atomC] (coreS atC)
def atomGS : State := withCode [.atom 0 1 atomG] (coreS atG)
/-- The lanes of `atomG`. -/
def atoms (s : State) : Bool :=
  let a := courseAccess (endRsv 0 1 s) 0 1
  let o := atomOf (courseOf s 0 1) atomG
  let r0 := laneTargets a true (laneAddrs (courseOf s 0 1) atomG (!aNoret atomG) 0) (endRsv 0 1 s)
  let ts := gotOr [] r0
  let r1 := eachLane (fun x s => atomAsk 0 1 o a x.1 x.2.1 x.2.2 s) ts r0.1
  let r2 := eachLane (fun x s => atomDo 0 1 o x.1 x.2.2 (laneVal [] (gotOr [] r1) x.1) s) ts r1.1
  isOk r0 && isOk r1 && isOk r2 && ts.all (fun x => match atomBar r0.1 0 o.aop x.2.2 x.2.1 with | .fail _ => false | _ => true)
/-- AtomicsOperate. -/
theorem witness_atom : Ready 0 1 atomCS ∧ InCache (.atom 0 1 atomC) atomCS ∧ atomOk atomC = true ∧ (courseOf atomCS 0 1).pour = .closed ∧
    atomTop atomC ≤ (consortOf atomCS 0 (courseOf atomCS 0 1).consort).ra ∧ mSpace atomC = 1 ∧ harpPending atomCS 0 1 = false ∧ otherDrain atomCS 0 1 = none ∧
    accessBar atomCS 0 1 (mBytes atomC) true (laneAddrs (courseOf atomCS 0 1) atomC (!aNoret atomC) 0) = none := by
  unfold Ready InCache; decide +kernel
theorem witness_atom_global : Ready 0 1 atomGS ∧ InCache (.atom 0 1 atomG) atomGS ∧ atomOk atomG = true ∧ mSpace atomG = 0 ∧
    atomTop atomG ≤ (consortOf atomGS 0 (courseOf atomGS 0 1).consort).ra ∧
    accessBar atomGS 0 1 (mBytes atomG) false (laneAddrs (courseOf atomGS 0 1) atomG (!aNoret atomG) 0) = none ∧ atoms atomGS = true ∧
    devRead atomGS 0 0x4000 4 = .ok [0, 0, 0, 0] ∧ placeOf (locOf 0x4000) = .hbm 4 ∧
    lineTag atomGS (lineOf (locOf 0x4000)) = keyTag atomGS (keyselOf 0x4000) := by
  unfold Ready InCache; decide +kernel
theorem witness_atom_word : atomVal 2 32 0x7FFFFFFF 0x80000000 0 = 0x80000000 ∧ atomVal 10 32 1 2 1 = 2 := by decide +kernel
def rsvG : InstrBits := w3 15 2 0 0 0x800
def cndG : InstrBits := w3 7 2 4 0 0x800
def held : Course := { atG with rsv := [(0, 0x81), (1, 0x81)] }
def rsvS : State := withCode [.ldRsv 0 1 rsvG] (coreS atG)
def cndS : State := withCode [.stCnd 0 1 cndG] (coreS held)
def rsvs (s : State) : Bool :=
  let a := courseAccess (endRsv 0 1 s) 0 1
  let r0 := laneTargets a false (laneAddrs (courseOf s 0 1) rsvG true 0) (endRsv 0 1 s)
  let ts := gotOr [] r0
  let r1 := eachLane (fun x s => rsvLoad 0 1 4 a x.2.2 x.2.1 s) ts r0.1
  isOk r0 && isOk r1 && (rsvBar r0.1 0 ts).isNone && ts.all (fun x => canWatch r1.1 0 x.2.2)
def cnds (s : State) : Bool :=
  let a := courseAccess s 0 1
  let r0 := laneTargets a true (laneAddrs (courseOf s 0 1) cndG false 0) s
  let ts := gotOr [] r0
  let r1 := eachLane (fun x s => storeCheck 0 1 a x.2.2 x.2.1 s) ts r0.1
  isOk r0 && isOk r1 && (rsvBar r0.1 0 ts).isNone && (cndWinners (courseOf r1.1 0 1) ts).any (fun x => decide (x.1 = 0)) &&
    decide (ts.map Prod.fst = [0, 1])
/-- ReservationsGuardStores. -/
theorem witness_reservation : Ready 0 1 rsvS ∧ InCache (.ldRsv 0 1 rsvG) rsvS ∧ rsvOk rsvG = true ∧ rsvs rsvS = true ∧
    max ((wordForm (mBytes rsvG)).top rsvG.du (fldD rsvG)) (Form.top .pair rsvG.au (fldA rsvG)) ≤ (consortOf rsvS 0 (courseOf rsvS 0 1).consort).ra ∧
    accessBar rsvS 0 1 (mBytes rsvG) false (laneAddrs (courseOf rsvS 0 1) rsvG true 0) = none ∧
    Ready 0 1 cndS ∧ InCache (.stCnd 0 1 cndG) cndS ∧ cndOk cndG = true ∧ cnds cndS = true ∧
    max (Form.top .pair cndG.au (fldA cndG)) ((wordForm (mBytes cndG)).top cndG.bu (fldB cndG)) ≤ (consortOf cndS 0 (courseOf cndS 0 1).consort).ra ∧
    accessBar cndS 0 1 (mBytes cndG) false (laneAddrs (courseOf cndS 0 1) cndG false 0) = none := by unfold Ready InCache; decide +kernel
def semSigW : InstrBits := { w3 0 8 9 0 0 with au := true, bu := true }
def semRdW : InstrBits := { w3 10 8 0 0 0 with du := true, au := true }
def semC (i : Nat) : Course := { c0 with u := [(8, BitVec.ofNat 32 i), (9, 5#32)] }
def semIS (i : Nat) : State := withCode [.semSig 0 1 semSigW, .semRd 0 1 semRdW, .semSig 0 1 { semSigW with gen := true, gp := 7#3 }] (coreS (semC i))
/-- SemaphoreInstructionsAddAndRead, at the last semaphore and beyond it. -/
theorem witness_semaphore : (∀ i ∈ [16383, 16384], Ready 0 1 (semIS i) ∧ InCache (.semSig 0 1 semSigW) (semIS i) ∧ InCache (.semRd 0 1 semRdW) (semIS i) ∧
      InCache (.semSig 0 1 { semSigW with gen := true, gp := 7#3 }) (semIS i) ∧ harpPending (semIS i) 0 1 = false) ∧
    guardOk semSigW = true ∧ guardOk semRdW = true ∧ Form.ok .ureg semSigW.au (fldA semSigW) = true ∧
    Form.ok .ureg semSigW.bu (fldB semSigW) = true ∧ Form.ok .unused semSigW.du (fldD semSigW) = true ∧ Form.ok .unused semSigW.cu (fldC semSigW) = true ∧
    fldMod semSigW = 0 ∧ fldMod semRdW = 0 ∧ lanesOf (semC 16384) semSigW ≠ 0 ∧ lanesOf (semC 16383) { semSigW with gen := true, gp := 7#3 } = 0 ∧
    (ureg (semC 16383) 8).toNat ≤ 16383 ∧ 16383 < (ureg (semC 16384) 8).toNat ∧
    Form.ok .ureg semRdW.du (fldD semRdW) = true ∧ Form.ok .ureg semRdW.au (fldA semRdW) = true ∧ Form.ok .unused semRdW.bu (fldB semRdW) = true ∧
    Form.ok .unused semRdW.cu (fldC semRdW) = true := by
  unfold Ready InCache; decide +kernel
/-- A course that fences: with posted host writes out, a probe out or back, a window write out. -/
def fenceS (b : InstrBits) (dirty : Bool) (probe : List Bool) (wr : Bool) : State :=
  let s := withCode [.fenceOrd 0 1 b, .fenceAcq 0 1 b, .fenceRel 0 1 b, .fenceDone 0 1 b] (coreS c0)
  { s with xl := { s.xl with
      dirty := if dirty then [.course 0 1] else []
      reads := probe.map (fun k => ⟨0, .course 0 1, 0, 0, 0, k, false, [], []⟩)
      wins := if wr then [⟨1, .course 0 1, .wr, 23, 0, 0, ⟨.wr, 1, 0, 7, 1, 0, 0, 8, 0, 0, 0, [], 0⟩, false, false, none⟩] else [] } }
def probeOf (s : State) : Option OutRead := s.xl.reads.find? (fun r => decide (r.who = .course 0 1) && decide (r.len = 0))
/-- FencesOrderAndDrain. -/
theorem witness_fence : (∀ x ∈ [(false, [], false), (false, [], true), (true, [], false), (true, [false], false), (true, [true], false)],
      let s := fenceS InstrBits.zero x.1 x.2.1 x.2.2
      FenceIssues 0 1 InstrBits.zero s ∧ InCache (.fenceOrd 0 1 InstrBits.zero) s ∧ InCache (.fenceRel 0 1 InstrBits.zero) s ∧
      InCache (.fenceAcq 0 1 InstrBits.zero) s ∧ InCache (.fenceDone 0 1 InstrBits.zero) s ∧ (courseOf s 0 1).pour = .closed ∧ s.hpt.bme = true ∧
      s.xl.dirty.contains (.course 0 1) = x.1 ∧ winsOut s (courseIn 0 [1]) = x.2.2) ∧
    lanesOf c0 InstrBits.zero ≠ 0 ∧ lanesOf c0 half = 0 ∧ FenceIssues 0 1 half (fenceS half false [] false) ∧
    InCache (.fenceDone 0 1 half) (fenceS half false [] false) ∧ InCache (.fenceAcq 0 1 half) (fenceS half false [] false) ∧
    probeOf (fenceS InstrBits.zero true [] false) = none ∧ (probeOf (fenceS InstrBits.zero true [false] false)).any (fun r => !r.back) = true ∧
    (probeOf (fenceS InstrBits.zero true [true] false)).any (fun r => r.back && r.args.isEmpty) = true ∧
    ({ fenceS InstrBits.zero true [] false with hpt := {} } : State).hpt.bme = false := by
  unfold FenceIssues Ready InCache; decide +kernel
def serialB : InstrBits := { InstrBits.zero with low := BitVec.ofNat 45 (2 ^ 20) }
def openC : Course := { c0 with pour := .open, abortPc := 0x3000, beginPc := 0x0FF8 }
def ladleS (c : Course) (l : Ladle) : State :=
  let k := (coreOf (coreS c) 0)
  withCode [.pourBegin 0 1 InstrBits.zero, .pourBegin 0 1 serialB, .pourEnd 0 1 InstrBits.zero, .pourAbort 0 1 InstrBits.zero]
    { coreS c with cores := [(0, { k with ladle := l })] }
/-- A course that has aborted 8 pours here. -/
def eight : Course := { c0 with beginPc := 0x1000, abortCount := 8 }
/-- PourInstructionsOpenAndClose. -/
theorem witness_pour_ops : (∀ s ∈ [ladleS c0 {}, ladleS c0 { holder := some 5 }, ladleS eight {}], Ready 0 1 s ∧ InCache (.pourBegin 0 1 InstrBits.zero) s ∧
      InCache (.pourBegin 0 1 serialB) s) ∧ beginOk c0 InstrBits.zero = true ∧ beginOk eight serialB = true ∧
    InstrBits.zero.low.toNat.testBit 20 = false ∧ serialB.low.toNat.testBit 20 = true ∧ (courseOf (ladleS eight {}) 0 1).abortCount = 8 ∧
    (coreOf (ladleS c0 {}) 0).ladle.holder = none ∧ (coreOf (ladleS c0 { holder := some 5 }) 0).ladle.holder ≠ none := by
  unfold Ready InCache; decide +kernel
theorem witness_pour_end : (∀ s ∈ [ladleS openC { holder := some 1 }, ladleS { openC with pourSerial := true } { holder := some 1 }],
      Ready 0 1 s ∧ InCache (.pourEnd 0 1 InstrBits.zero) s ∧ InCache (.pourAbort 0 1 InstrBits.zero) s ∧ endOk (courseOf s 0 1) InstrBits.zero = true ∧
      tokenBars s 0 = false) ∧
    tokenBars (setOn { ladleS openC { holder := some 1 } with tokens := [(7, 0)] } tokHeld) 0 = true := by unfold Ready InCache; decide +kernel

/-! ## Witnesses: pours, long instructions, consorts -/

def line0 : LadleLine := ⟨lineOf 0x4000, 0, [(0, 7#8)], 1, false, false⟩
def pourS (p : PourPhase) (l : Ladle) : State := ladleS { openC with pour := p } l
def stagedL (x : LadleLine) (l : Ladle) : Ladle := { l with holder := some 1, lines := [x] }
/-- PoursCommitWhole, row by row. -/
theorem witness_commit :
    PourIs .locking 0 1 (pourS .locking (stagedL line0 {})) ∧ (coreOf (pourS .locking (stagedL line0 {})) 0).ladle.requested = none ∧
    nextLock (coreOf (pourS .locking (stagedL line0 {})) 0).ladle = some line0 ∧ realLine (clOf 0) line0.line < 2 ^ 57 ∧
    lineBusy (pourS .locking (stagedL line0 {})) (realLine (clOf 0) line0.line) (some 0) none none = false ∧
    PourIs .locking 0 1 (pourS .locking (stagedL line0 { requested := some line0.line })) ∧
    ((coreOf (pourS .locking (stagedL line0 { requested := some line0.line })) 0).ladle.lines.find? (fun y => decide (y.line = line0.line))) = some line0 ∧
    grantPoison (pourS .locking (stagedL line0 { requested := some line0.line })) 0 line0 = false := by
  unfold PourIs; decide +kernel
theorem witness_publish :
    PourIs .publishing 0 1 (pourS .publishing (stagedL { line0 with locked := true } {})) ∧
    ((coreOf (pourS .publishing (stagedL { line0 with locked := true } {})) 0).ladle.lines.find? (fun y => !y.merged)) = some { line0 with locked := true } ∧
    PourIs .publishing 0 1 (pourS .publishing (stagedL { line0 with locked := true, merged := true } {})) ∧
    (coreOf (pourS .publishing (stagedL { line0 with locked := true, merged := true } {})) 0).ladle.lines.any (fun y => !y.merged) = false ∧
    (castingOf (pourS .publishing {}) (castingOfCourse (pourS .publishing {}) 0 1)).ending = none ∧ (clusterOf (pourS .publishing {}) (clOf 0)).ended = false ∧
    PourIs .locking 0 1 (pourS .locking (stagedL line0 { firstGrant := true })) ∧ (pourS .locking {}).powered = true := by
  unfold PourIs; decide +kernel
def tokS (p : PourPhase) (heldBy : Bool) (who : Nat) : State :=
  let s := { pourS p { holder := some 1 } with tokens := [(who, 0)] }
  if heldBy then setOn s tokHeld else s
/-- PourTokenServesInOrder: a core's pour, and channel 15 of the shared engine. -/
theorem witness_token : isOn (tokS .waitToken false 0) tokHeld = false ∧ (tokS .waitToken false 0).tokens = [(0, 0)] ∧
    pourLocking (tokS .waitToken false 0) = false ∧ PourIs .waitToken 0 1 (tokS .waitToken false 0) ∧ isOn (tokS .open true 0) tokHeld = true ∧
    PourIs .open 0 1 (tokS .open true 0) ∧ pourLocking (tokS .closed false (0x10000 + 32 * 16 + 15)) = false ∧
    isOn (tokS .closed false (0x10000 + 32 * 16 + 15)) tokHeld = false ∧ (chanOf (tokS .closed true (0x10000 + 32 * 16 + 15)) 16 15).phase ≠ .publishing ∧
    isOn (tokS .closed true (0x10000 + 32 * 16 + 15)) tokHeld = true := by
  unfold PourIs; decide +kernel
/-- A LONG word: the progress block at u60, the descriptor's address in u8. -/
def longW : InstrBits := { w3 60 8 0 0 0 with du := true, au := true }
def cmemS (c : Course) (bs : List Byte) : State :=
  let k := coreOf (coreS c) 0
  { coreS c with cores := [(0, { k with cmem := wrList [] 0 bs })] }
/-- A course that stands at a long instruction, in a phase, with its descriptor's address. -/
def longS (phase off : Nat) (bs : List Byte) : State :=
  withCode [.hseq 0 1 longW, .tmov 0 1 longW, .rseq 0 1 longW] (cmemS { c0 with u := [(8, BitVec.ofNat 32 off), (63, BitVec.ofNat 32 phase)] } bs)
/-- LongInstructionsIssue: fresh, under way, done, misaligned, of a bad phase, beyond consort memory, with a bad descriptor. -/
theorem witness_long : (∀ x ∈ [(0, 0), (1, 0), (2, 0), (3, 0), (0, 4), (0, 4096)], (∀ kd ∈ [hseqKind 0, tmovKind, rseqKind], LongIssues kd 0 1 longW (longS x.1 x.2 [])) ∧
      InCache (.hseq 0 1 longW) (longS x.1 x.2 []) ∧ InCache (.tmov 0 1 longW) (longS x.1 x.2 []) ∧ InCache (.rseq 0 1 longW) (longS x.1 x.2 []) ∧
      lPhase (courseOf (longS x.1 x.2 []) 0 1) 60 = x.1 ∧ (ureg (courseOf (longS x.1 x.2 []) 0 1) (fldA longW)).toNat = x.2 ∧
      cmemSize (longS x.1 x.2 []) 0 1 = 4096) ∧ fldD longW = 60 ∧
    (∀ kd ∈ [hseqKind 0, tmovKind, rseqKind], kd.ok (cmemRead (longS 0 0 []) 0 1 0 64) = false) := by
  unfold LongIssues Ready InCache; decide +kernel

/-- `n` bytes with fields (offset, bytes, value), the others 0. -/
def layout (n : Nat) (fs : List (Nat × Nat × Nat)) : List Byte :=
  fs.foldl (fun bs f => putAt bs f.1 (leBytes f.2.1 f.2.2)) (List.replicate n 0)
def hseqD : List Byte := layout 64 [(0, 4, 64), (4, 4, 2048), (16, 4, 0xFFFFFFFF), (20, 4, 0xFFFFFFFF), (24, 2, 1), (26, 1, 3), (27, 1, 1), (28, 1, 1), (31, 1, 2), (32, 1, 128), (33, 1, 128)]
def tmovD : List Byte := layout 64 [(0, 8, 64), (8, 8, 4064), (16, 1, 5), (17, 1, 2), (18, 1, 1), (20, 2, 8), (22, 2, 1), (24, 2, 1), (26, 2, 1)]
def rseqD : List Byte := layout 64 [(0, 4, 64), (8, 4, 4092), (16, 4, 1), (20, 2, 1), (23, 1, 3)]
/-- A sound descriptor at 0, for a fresh instruction and for one under way. -/
def soundLong (kd : LongKind) (d : List Byte) : Bool :=
  let s := longS 0 0 d
  let e := cmemRead s 0 1 0 64
  decide (e = d) && kd.ok e && kd.fits 4096 e && !kd.waits s e && !kd.waits s (longDesc (longS 1 0 d) 0 1 ⟨kd.kind, 60, 0, 0⟩) &&
    decide (lPos (courseOf (longS 1 0 d) 0 1) 60 < kd.units (longDesc (longS 1 0 d) 0 1 ⟨kd.kind, 60, 0, 0⟩))
theorem witness_descriptors : soundLong (hseqKind 0) hseqD = true ∧ soundLong tmovKind tmovD = true ∧ soundLong rseqKind rseqD = true := by
  decide +kernel
def runL (kind : Nat) : Course := { c0 with long := some ⟨kind, 60, 0, 0⟩, u := [(63, 1#32)] }
def hseqS (n : Nat) : State :=
  let s := setOn (cmemS (runL 0) hseqD) (hseqBusy 0)
  setHarp 0 { (harpOf s 0).setSt 0 (.accumulating 1) with kstep := n } s
/-- LongUnitsAdvance: units that are performed. -/
theorem witness_units : isOk (longUnit 0 1 ⟨1, 60, 0, 0⟩ (cmemS (runL 1) tmovD)) = true ∧
    isOk (longUnit 0 1 ⟨2, 60, 0, 0⟩ (cmemS (runL 2) rseqD)) = true ∧ isOk (longUnit 0 1 ⟨0, 60, 0, 0⟩ (hseqS 8)) = true ∧
    longHeld (cmemS (runL 1) tmovD) 0 1 = false ∧ longHeld (cmemS (runL 2) rseqD) 0 1 = false ∧ longHeld (hseqS 8) 0 1 = false ∧
    stopCause (cmemS (runL 1) tmovD) 0 1 0 = 0 ∧ stopCause (cmemS (runL 1) tmovD) 0 1 3 = 3 ∧
    lPos (runL 1) 60 + 1 = tmovKind.units tmovD ∧ lPos (runL 1) 60 + 1 < tmovKind.units (layout 64 [(20, 2, 8), (22, 2, 2), (24, 2, 1), (26, 2, 1)]) ∧
    hseqCourse (hseqS 7) 0 = some 1 ∧ (courseOf (hseqS 7) 0 1).long = some ⟨0, 60, 0, 0⟩ ∧ (harpOf (hseqS 7) 0).kstep < hSteps (longDesc (hseqS 7) 0 1 ⟨0, 60, 0, 0⟩) ∧
    lPos (courseOf (hseqS 7) 0 1) 60 < hBlocks (longDesc (hseqS 7) 0 1 ⟨0, 60, 0, 0⟩) := by
  decide +kernel
/-- A TMOV whose source page is not cached: nothing asked yet, or its page request is out. -/
def pageD : List Byte := layout 64 [(0, 8, 0x80000000), (8, 8, 4064), (16, 1, 4), (17, 1, 2), (18, 1, 1), (20, 2, 8), (22, 2, 1), (24, 2, 1), (26, 2, 1)]
def pageS2 (pri : List PriGroup) : State := { cmemS (runL 1) pageD with xl := { (cmemS (runL 1) pageD).xl with pri } }
def waits {α : Type} (r : State × Got α) : Bool := match r.2 with | .wait => true | _ => false
theorem witness_unit_waits : (let r := longUnit 0 1 ⟨1, 60, 0, 0⟩ (pageS2 []); waits r = true ∧ (courseOf r.1 0 1).faultVa = none) ∧
    (let r := longUnit 0 1 ⟨1, 60, 0, 0⟩ (pageS2 [⟨1, 0, 0x80000, false, [], [], false⟩]); waits r = true ∧ (courseOf r.1 0 1).faultVa ≠ none) := by
  decide +kernel
/-- Two rows of 32 B at 64 and 128, copied to rows at `dst` and `dst` + 64. -/
def rowsD (dst : Nat) : List Byte :=
  layout 64 [(0, 8, 64), (8, 8, dst), (16, 1, 5), (17, 1, 2), (18, 1, 2), (20, 2, 8), (22, 2, 2), (24, 2, 1), (26, 2, 1), (32, 4, 64), (44, 4, 64)]
/-- R125: rows that interleave do not overlap; rows that share four bytes do. -/
theorem test_tmov_overlap : tmovOk (rowsD 96) = true ∧ tmovOverlap (rowsD 96) = false ∧ tmovOverlap (rowsD 92) = true := by
  decide +kernel
/-- A TMOV in progress, and another agent's write of one byte at an address of consort memory. -/
def racedS (a : Nat) : State :=
  let o : LongOpen := ⟨0, rowsD 256, false⟩
  { cmemS { runL 1 with opened := some o } (rowsD 256) with race := ⟨true, [⟨2, a, 1, 0⟩]⟩ }
/-- R125: a write of the row to be read, or of the descriptor, makes the destination undefined; a write elsewhere does not. -/
theorem test_tmov_race : longWild (longUnit 0 1 ⟨1, 60, 0, 0⟩ (racedS 95)).1 0 1 = true ∧
    longWild (longUnit 0 1 ⟨1, 60, 0, 0⟩ (racedS 63)).1 0 1 = true ∧
    longWild (longUnit 0 1 ⟨1, 60, 0, 0⟩ (racedS 96)).1 0 1 = false := by
  decide +kernel
def drainD : List Byte := layout 32 [(0, 4, 64), (4, 4, 8), (8, 4, 0xFFFFFFFF), (18, 1, 9), (19, 1, 128), (20, 1, 1)]
def hzeroW : InstrBits := { InstrBits.zero with low := 1 }
def hdrainW : InstrBits := { w3 0 8 0 0 0 with au := true }
def tileS (x : TileState) (off : Nat) (d : List Byte) : State :=
  let s := withCode [.hzero 0 1 hzeroW, .hdrain 0 1 hdrainW] (cmemS { c0 with u := [(8, BitVec.ofNat 32 off)] } d)
  setHarp 0 ((harpOf s 0).setSt 1 x) s
/-- HarpTilesClearAndDrain. -/
theorem witness_harp : (∀ x ∈ [(.idle, 0), (.zeroing 1, 0), (.idle, 4), (.idle, 4096)], HarpIssues 0 1 hzeroW (tileS x.1 x.2 drainD) ∧
      HarpIssues 0 1 hdrainW (tileS x.1 x.2 drainD) ∧ InCache (.hzero 0 1 hzeroW) (tileS x.1 x.2 drainD) ∧ InCache (.hdrain 0 1 hdrainW) (tileS x.1 x.2 drainD) ∧
      (harpOf (tileS x.1 x.2 drainD) 0).st 1 = x.1 ∧ cmemSize (tileS x.1 x.2 drainD) 0 1 = 4096 ∧
      (ureg (courseOf (tileS x.1 x.2 drainD) 0 1) (fldA hdrainW)).toNat = x.2) ∧ hzeroW.au = false ∧ hzeroW.low.toNat = 1 ∧
    isOn (tileS .idle 0 drainD) (drainBusy 0) = false ∧ isOn (setOn (tileS .idle 0 drainD) (drainBusy 0)) (drainBusy 0) = true ∧ fldD hdrainW = 0 ∧
    Form.ok .ureg hdrainW.au (fldA hdrainW) = true ∧ bits hdrainW.low.toNat 28 0 = 0 ∧ cmemRead (tileS .idle 0 drainD) 0 1 0 32 = drainD ∧
    drainOk drainD = true ∧ drainFits 4096 drainD = true ∧ nTile drainD = 1 ∧ drainOk (cmemRead (tileS .idle 0 []) 0 1 0 32) = false ∧
    drainOf (tileS (.draining 1 (leNat drainD)) 0 drainD) 0 = some (1, drainD) := by
  unfold HarpIssues Ready InCache; decide +kernel
/-- A drain whose rows leave consort memory. -/
theorem witness_drain_out : drainOk (putAt drainD 0 (leBytes 4 4096)) = true ∧ drainFits 4096 (putAt drainD 0 (leBytes 4 4096)) = false ∧
    cmemRead (tileS .idle 0 (putAt drainD 0 (leBytes 4 4096))) 0 1 0 32 = putAt drainD 0 (leBytes 4 4096) := by decide +kernel
/-- The consort of `coreS` without memory, as it is switched out. -/
def outS (cause : Option Nat) (c : Course) : State :=
  let s := coreS c
  setConsort s 0 0 { consortOf s 0 0 with saving := cause, coreMask := 1, ca := 0 }
/-- The image of that consort, and nothing else on core 0. -/
def imageS : State :=
  match execConsortImageWritten 0 0 (outS (some 2) c0) with
  | .next t => t
  | _ => coreS c0
def img (s : State) : Image := ((coreOf s 0).images.head?).getD ⟨{}, [], [], [], [], 0, none, false, false⟩
/-- ConsortsSwitchOutAndIn. -/
theorem witness_switch : (consortOf (outS none c0) 0 0).live = true ∧ (consortOf (outS none c0) 0 0).saving = none ∧
    saveRoom (outS none c0) 0 (consortOf (outS none c0) 0 0) = true ∧
    (castingOf (outS none c0) (consortOf (outS none c0) 0 0).casting).live = true ∧ (castingOf (outS none c0) (consortOf (outS none c0) 0 0).casting).ending = none ∧
    consortFault (outS none { c0 with faultVa := some 0x5000 }) 0 0 ≠ none ∧ (consortOf (outS (some 2) c0) 0 0).saving = some 2 ∧
    (consortOf (outS (some 2) c0) 0 0).courses.all (courseStill (outS (some 2) c0) 0) = true := by
  decide +kernel
theorem witness_switch_in : ((coreOf imageS 0).images.drop 0).head? = some (img imageS) ∧ (img imageS).ready = true ∧
    (castingOf imageS (img imageS).consort.casting).ending = none ∧ draining imageS (img imageS).consort.casting = false ∧
    ((imageRoom imageS 0 (img imageS)).map (fun r => decide (r.courses.map Prod.fst).Nodup)) = some true := by
  decide +kernel

/-! ## Witnesses: host commands -/

/-- A command of an opcode with fields. -/
def cmdOf (op : Nat) (fs : List (Nat × Nat × Nat)) : Cmd := { bytes := layout 64 ((0, 1, op) :: (4, 4, 9) :: fs) }
/-- Queue 5 with one fetched command. -/
def queued (s : State) (c : Cmd) : State := setQueue s 5 { fetched := [c] }
def begun (c : Cmd) : Cmd := { c with started := true }
/-- CommandsStartAndEnd. -/
theorem witness_command : (headCmd (queued up (cmdOf 7 [])) 5).isSome = true ∧
    isOk (translate ⟨.posted, ctxOfQueue (mapped up) 5, agFw 2, false, none⟩ (2 ^ 40) true (mapped up)) = true ∧
    (match targetOf (mapped up) (gotOr 0 (translate ⟨.posted, ctxOfQueue (mapped up) 5, agFw 2, false, none⟩ (2 ^ 40) true (mapped up))) with
      | .host _ => true | _ => false) = true ∧
    pageWaits (mapped up) (ctxOfQueue (mapped up) 5) (2 ^ 40) = false ∧ up.hpt.bme = true ∧
    (∀ n < 64, lineBusy (mapped up) (hostLine (2 ^ 40 + n)) none none none = false) := by decide +kernel
/-- Queue 5, enabled, with one entry to fetch at a ring address. -/
def ringS (base : Nat) : State :=
  let s := setQueue (setF (setF (setOn (mapped up) (qEnable 5)) (qSize 5) 6) (qBase 5) (base / 4096)) 5 { tail := 1 }
  { s with hpt := { s.hpt with ats := true } }
def ringTo (s : State) : State × Got Nat := translate { cmdAccess s 5 with who := .command 1029 } (ringAddr s 5) false s
/-- QueuesTakeCommands: a ring in device memory, in host memory, and a queue that may not fetch. -/
theorem witness_queues : mayFetch (ringS 0) 5 = true ∧ mayFetch (ringS (2 ^ 40)) 5 = true ∧ mayFetch (mapped up) 5 = false ∧
    isOk (ringTo (ringS 0)) = true ∧ targetOf (ringTo (ringS 0)).1 (gotOr 1 (ringTo (ringS 0))) = .dev 0 ∧
    lineBusy (ringTo (ringS 0)).1 (lineOf (locOf 0)) none none none = false ∧
    devRead (ringTo (ringS 0)).1 (agFw 2) 0 64 = .ok (List.replicate 64 0) ∧ isOk (ringTo (ringS (2 ^ 40))) = true ∧
    targetOf (ringTo (ringS (2 ^ 40))).1 (gotOr 1 (ringTo (ringS (2 ^ 40)))) = .host (2 ^ 40) ∧
    (ringTo (ringS (2 ^ 40))).1.hpt.bme = true ∧ HostStatus.unsupportedRequest ≠ .success := by decide +kernel
theorem witness_doorbell : InTurn (.tail 511 0 4 64) up ∧ (64 + 2 ^ 32 - getF (setF up (qSize 511) 6) (qHead 511)) % 2 ^ 32 ≤ 2 ^ getF (setF up (qSize 511) 6) (qSize 511) ∧
    2 ^ getF (setF up (qSize 511) 6) (qSize 511) < (65 + 2 ^ 32 - getF (setF up (qSize 511) 6) (qHead 511)) % 2 ^ 32 ∧
    InTurn (.tail 511 0 4 64) (setF up (qSize 511) 6) ∧ InTurn (.tail 511 0 8 65) (setF up (qSize 511) 6) ∧
    InTurn (.schQCfgWrite 511 0xFF 0x86) up ∧ halfOk 0xFF = true ∧ halfOk 0x0F = true ∧ halfOk 1 = false ∧
    isOn (ringS 0) (qEnable 5) = true ∧ isOn up (qEnable 511) = false ∧ wouldBe up (byteMask 0xFF) 0x85 (qEnable 511) = 1 ∧
    wouldBe up (byteMask 0xFF) 0x85 (qSize 511) % 2 ^ (qSize 511).len < 6 := by unfold InTurn; decide +kernel
theorem witness_bad_commands : (∀ c ∈ [cmdOf 11 [], cmdOf 0 [], cmdOf 7 [(24, 1, 3)]], schedulerUp (queued up c) = true ∧ mayStart (queued up c) 5 = true ∧
      headCmd (queued up c) 5 = some c ∧ c.started = false) ∧ hostRow (.semaWait 5) = some (5, 7, semaOk) ∧ 10 < cOp (cmdOf 11 []) ∧
    cOp (cmdOf 0 []) < 1 ∧ cOp (cmdOf 7 [(24, 1, 3)]) = 7 ∧ (commonOk (cmdOf 7 [(24, 1, 3)]) && semaOk (cmdOf 7 [(24, 1, 3)])) = false := by
  refine ⟨?_, rfl, ?_, ?_, ?_, ?_⟩ <;> decide +kernel
/-- QueueResetEmptiesTheQueue: with a command that waits, with one that has started. -/
theorem witness_reset : InTurn (.queueReset 5) (queued up (cmdOf 7 [])) ∧ isOn (queued up (cmdOf 7 [])) (qResetBusy 5) = false ∧
    headCmd (queued up { cmdOf 7 [] with started := true }) 5 = some { cmdOf 7 [] with started := true } ∧
    (queueOf (queued up (cmdOf 7 [])) 5).fetched = [cmdOf 7 []] ∧
    isOn (setOn up (qResetBusy 511)) (qResetBusy 511) = true ∧ (queueOf (setOn up (qResetBusy 511)) 511).fetched = [] ∧
    (queueOf (setOn (queued up (cmdOf 7 [])) (qResetBusy 5)) 5).fetched ≠ [] := by unfold InTurn; decide +kernel
/-- Put bytes into HBM. -/
def poke (dpa : Nat) (bs : List Byte) (s : State) : State := putDev dpa bs false true s
def root0 : List Byte := layout 128 [(0, 4, 0x4E565254), (4, 4, 1), (8, 8, 0x10080), (16, 8, 2)]
def hdr0 : List Byte :=
  let h := layout 96 [(0, 4, 0x4E565054), (4, 2, 1), (6, 2, 2), (8, 4, 1), (16, 2, 1), (18, 2, 1), (26, 2, 1), (64, 1, 1), (68, 4, 128), (72, 8, 0x10200),
    (80, 1, 4), (81, 1, 0xFF), (84, 4, 128), (88, 8, 0x10180)]
  putAt h 40 (leBytes 4 (crc32c h))
/-- A pattern with one cluster and one node, with or without a sound header. -/
def patternS (s : State) (good : Bool) : State :=
  poke 0x10180 (layout 128 [(0, 2, 1)]) (poke 0x10080 (if good then hdr0 else []) (poke 0x10000 root0 s))
def launchC (len : Nat) : Cmd := cmdOf 1 [(24, 8, 0x10000), (40, 4, len)]
def launchS (good : Bool) (retired : List Nat) : State :=
  let s := queued (setF (setF (patternS (mapped up) good) (fwState 3) 1) (clState 0) 1) (launchC 0)
  { s with pmc := { s.pmc with retired := retired } }
def noPattern : Pattern := ⟨0, 0, [], [], [], []⟩
def rootOf (s : State) : State × Got (Nat × List Byte) := readRoot (cmdAccess s 5) 0x10000 s
def versionOf (s : State) : State × Got Pattern :=
  readVersion (cmdAccess s 5) (gotOr (0, []) (rootOf s)).1 (fieldOf (gotOr (0, []) (rootOf s)).2 8 8) (rootOf s).1
theorem witness_turn : Turn 1 5 (launchC 0) (launchS true []) ∧ launchOk (launchC 0) = true ∧ isOk (rootOf (launchS true [])) = true ∧
    isOk (versionOf (launchS true [])) = true := by unfold Turn; decide +kernel
/-- LaunchStartsACasting: a free slot 15, fields without INDIRECT. -/
theorem witness_launch :
    let s := (versionOf (launchS true [])).1
    let pt := gotOr noPattern (versionOf (launchS true []))
    let r3 := readRiser (cmdAccess (launchS true []) 5) (launchC 0) (hRiser pt.hdr) [] s
    launchRefusal s (launchC 0) pt = none ∧ hMask pt.hdr = 1 ∧ claimBars s 5 1 = false ∧ (maskList 1).all (clusterFree s) = true ∧
    (maskList 1).all (clusterReady s) = true ∧ slotUsed s 15 = false ∧ rootBar s (gotOr (0, []) (rootOf (launchS true []))).1 = .ok () ∧ isOk r3 = true ∧
    isOk (resolveRiser (cmdAccess (launchS true []) 5) pt.riser (lRiser (launchC 0)) 0 (directFields (prefetched r3.1 15 5 9) pt.riser (gotOr [] r3)) r3.1) = true := by
  decide +kernel
def patternOf (s : State) : State × Got (Nat × List Byte × Pattern) := readPattern (cmdAccess s 5) 0x10000 s
def fails {α : Type} (r : State × Got α) : Bool := match r.2 with | .fail _ => true | _ => false
/-- One that fails its check, one without a root, one that is refused, one whose cluster another casting holds. -/
def claimS : State := { launchS true [] with sch := { (launchS true []).sch with castings := [(0, casting0)] }, clusters := [(0, { casting := some 0 })] }
theorem witness_launch_fails : Turn 1 5 (launchC 0) (launchS false []) ∧ fails (patternOf (launchS false [])) = true ∧
    Turn 1 5 (launchC 0) (queued (mapped up) (launchC 0)) ∧ fails (patternOf (queued (mapped up) (launchC 0))) = true ∧
    Turn 1 5 (launchC 0) (launchS true [0]) ∧ isOk (patternOf (launchS true [0])) = true ∧
    launchRefusal (versionOf (launchS true [0])).1 (launchC 0) (gotOr noPattern (versionOf (launchS true [0]))) ≠ none := by
  unfold Turn; decide +kernel
theorem witness_claimant : Turn 1 5 (launchC 0) claimS ∧ isOk (patternOf claimS) = true ∧
    launchRefusal (patternOf claimS).1 (launchC 0) (gotOr (0, [], noPattern) (patternOf claimS)).2.2 = none ∧
    claimBars (patternOf claimS).1 5 1 = false ∧ (maskList 1).all (clusterFree (patternOf claimS).1) = false ∧
    claimBars { (patternOf claimS).1 with sch := { (patternOf claimS).1.sch with claimant := some ⟨6, 1, 0⟩ } } 5 1 = true := by
  unfold Turn; decide +kernel
/-- A casting of queue 5 in slot 0. -/
def castS (c : Cmd) (fin : Bool) : State :=
  let s := queued (mapped up) c
  { s with
    sch := { s.sch with castings := [(0, { casting0 with q := 5 })] }
    clusters := [(0, { casting := some 0, ended := fin })] }
def laterC : Cmd := launchC 0
def prefS : State := setQueue (patternS (castS { begun (launchC 0) with slot := some 0 } false) true) 5 { fetched := [{ begun (launchC 0) with slot := some 0 }, laterC] }
def prefRoot (s : State) : State × Got (Nat × List Byte) := readRoot { cmdAccess s 5 with who := .command 517 } (cRoot laterC) s
def settled (s : State) : State × Bool := hostFlush (.casting 0) (adopt (waiterOf s 0) (.casting 0) s)
/-- CastingsCompleteAndFreeTheirClusters: every write complete; one not known complete; a prefetch. -/
theorem witness_casting : let s := castS (begun (launchC 0)) true
    schedulerUp s = true ∧ partsEnded s 0 = true ∧ (settled s).2 = true ∧ writesDone (settled s).1 0 = true ∧
    rootBar (settled s).1 (castingOf (settled s).1 0).root ≠ .wait ∧ headCmd s 5 = some (begun (launchC 0)) ∧
    (settled { s with xl := { s.xl with dirty := [.cores 0] } }).2 = false := by decide +kernel
theorem witness_prefetch : schedulerUp prefS = true ∧ slotUsed prefS 0 = true ∧ prefetchQueue prefS 0 = some 5 ∧ nextLaunch prefS 5 = some laterC ∧
    isOk (readPattern { cmdAccess prefS 5 with who := .command 517 } (cRoot laterC) prefS) = true := by decide +kernel
def patchC (base : Nat) : Cmd := begun (cmdOf 2 [(24, 8, 0x10000), (32, 8, 0x10400), (40, 8, 0x10600), (48, 4, 1), (52, 4, base)])
def entry0 (ty : Nat) : List Byte := layout 16 [(0, 2, 0), (2, 1, ty), (4, 4, 128), (8, 8, 0x10200)]
def patchS (ty : Nat) : State := poke 0x10600 (entry0 ty) (patternS (queued (mapped up) (patchC 1)) true)
/-- What a PATCH reads; the header it makes; whether that is written, and how its check comes out. -/
def patchRead (s : State) : State × Option (List Byte) × Bool :=
  let a := cmdAccess s 5
  let c := patchC 1
  let r1 := rootOf s
  let r2 := readHeader a (fieldOf (gotOr (0, []) r1).2 8 8) r1.1
  let r3 := readOperand a 3 0x10600 16 [] r2.1
  (r3.1, patchHeader (gotOr [] r2) (gotOr [] r3) (fieldOf c.bytes 48 4) 2 0x10080, isOk r1 && isOk r2 && isOk r3)
def patchEndsOk (s : State) : Option Bool :=
  let r := patchRead s
  match r.2.1 with
  | some h =>
    let r4 := writeVa (cmdAccess s 5) (h.length / 128 + 2) 0x10400 h r.1
    if isOk r4 then some (isOk (readVersion (cmdAccess s 5) (gotOr (0, []) (rootOf s)).1 0x10400 r4.1)) else none
  | none => none
/-- PatchPublishesAVersion: an entry that replaces a segment, one that does not apply, one whose segment fails its check. -/
theorem witness_patch : Runs 2 5 (patchC 1) (patchS 1) ∧ (patchRead (patchS 1)).2.2 = true ∧ patchEndsOk (patchS 1) = some true ∧
    Runs 2 5 (patchC 1) (patchS 2) ∧ (patchRead (patchS 2)).2.2 = true ∧ (patchRead (patchS 2)).2.1 = none ∧
    Runs 2 5 (patchC 1) (poke 0x10608 (leBytes 8 0x10208) (patchS 1)) ∧ patchEndsOk (poke 0x10608 (leBytes 8 0x10208) (patchS 1)) = some false := by
  unfold Runs; decide +kernel
theorem witness_publication : fieldOf (patchC 3).bytes 52 4 ≠ fieldOf root0 4 4 ∧ fieldOf (patchC 1).bytes 52 4 = fieldOf root0 4 4 ∧
    bit (fieldOf root0 16 8) 2 = false ∧ bit (fieldOf (putAt root0 16 (leBytes 8 6)) 16 8) 2 = true ∧ rootBar (patchS 1) 0x10000 = .ok () ∧
    rootBar (setOn (patchS 1) tokHeld) 0x10000 = .wait ∧
    (match rootBar { patchS 1 with mm := { (patchS 1).mm with poison := [(lineOf 0x10000, 1)] } } 0x10000 with | .fail _ => true | _ => false) = true := by
  decide +kernel
def fenceC : Cmd := cmdOf 6 [(24, 2, 0x8000 + 511), (28, 4, 7)]
def semaC (op : Nat) : Cmd := cmdOf 7 [(24, 1, op), (26, 2, 16383), (28, 4, 1)]
/-- FencesAndSemaphoresOfQueues. -/
theorem witness_waits : Turn 6 5 fenceC (queued up fenceC) ∧ fenceOk fenceC = true ∧
    fenceOk (cmdOf 6 [(24, 2, 0x8000 + 512)]) = false ∧ Runs 6 5 (begun fenceC) (queued up (begun fenceC)) ∧
    Turn 7 5 (semaC 1) (queued up (semaC 1)) ∧ Turn 7 5 (semaC 2) (queued up (semaC 2)) ∧ fieldOf (semaC 1).bytes 24 1 = 1 ∧ fieldOf (semaC 2).bytes 24 1 = 2 ∧
    Runs 7 5 (begun (semaC 1)) (queued up (begun (semaC 1))) := by unfold Turn Runs; decide +kernel
def drainC (at_ : Nat) : Cmd := { begun (launchC 0) with slot := some 0, draining := 1, drainLeft := at_ }
def orderedC : Cmd := { begun fenceC with draining := 2 }
/-- A casting under a drain with a course that has not stopped. -/
def runningS (long : Bool) : State :=
  let s := coreS { c0 with halted := true, long := if long then some ⟨1, 60, 0, 0⟩ else none }
  setQueue { s with sch := { s.sch with castings := [(0, { casting0 with q := 5 })] } } 5 { fetched := [drainC 0] }
/-- BudgetsDrainAndKill. -/
theorem witness_budget : headCmd (queued up (begun fenceC)) 5 = some (begun fenceC) ∧ fwRuns (queued up (begun fenceC)) 2 = true ∧ (begun fenceC).draining = 0 ∧
    (begun fenceC).slot = none ∧ chunkChans (queued up (begun fenceC)) 5 = [] ∧ headCmd (castS { begun (launchC 0) with slot := some 0 } false) 5 ≠ none ∧
    chunkChans (setChan (queued up (begun fenceC)) 16 0 { phase := .running, starter := 3, course := 5 }) 5 ≠ [] := by decide +kernel
theorem witness_drain : headCmd (queued up orderedC) 5 = some orderedC ∧ goesOn (queued up orderedC) orderedC = true ∧ drained (queued up orderedC) 5 orderedC = true ∧
    headCmd (castS (drainC 0) false) 5 = some (drainC 0) ∧ goesOn (castS (drainC 0) false) (drainC 0) = true ∧ drained (castS (drainC 0) false) 5 (drainC 0) = true ∧
    (castingOf (castS (drainC 0) false) 0).live = true ∧ fwRuns (castS (drainC 0) false) 2 = true ∧ (castS (drainC 0) false).aoTick ≤ (drainC 0).drainLeft + 2500 ∧
    drained (runningS true) 5 (drainC 0) = false ∧ goesOn (runningS true) (drainC 0) = true ∧ headCmd (runningS true) 5 = some (drainC 0) := by decide +kernel
theorem witness_kill : killOk (runningS true) 5 0 (drainC 0) = true ∧ killOk (runningS true) 5 1 (drainC 0) = false ∧
    castingChans (runningS true) 0 = [] ∧ killOk { queued up orderedC with aoTick := 2501 } 5 (agFw 2) orderedC = true ∧
    killOk (queued up orderedC) 5 (agFw 2) orderedC = false := by decide +kernel

/-! ## Witnesses: translation, advice and sprue transfers -/

/-- MainLoopPassFeedsTheWatchdog. -/
theorem witness_loop : fwRuns (setF up (fwState 18) 1) 18 = true ∧ (setF up (fwState 18) 1).powered = true := by decide +kernel
/-- A command's translation request that an INVALIDATE has overtaken or not, one that re-asks after a page response, and two page requests. -/
def askedS (past : List Scope) (retry : Bool) : State :=
  { castS (begun fenceC) false with xl := {
      ats := [⟨0, 5, true, [(.command 5, 0x5000)], past, retry, true⟩]
      pri := [⟨3, 0, 5, false, [(.command 5, 0x5000)], [], false⟩, ⟨4, 0, 6, false, [], [], true⟩] } }
def asked (s : State) : Option AtsReq :=
  s.xl.ats.find? (fun r => decide (r.ctx = 0) && decide (r.page = 0x5FFF / 4096) && decide (r.write = true) && r.sent)
/-- TranslationsArriveAndFail. -/
theorem witness_translations : (askedS [] false).powered = true ∧
    (asked (askedS [⟨true, 0, 0, 0⟩] false)).any (fun r => r.past.any (fun x => x.ent (newEnt 0 0x5FFF 0x7000 12 true true))) = true ∧
    (asked (askedS [] false)).any (fun r => !r.past.any (fun x => x.ent (newEnt 0 0x5FFF 0x7000 12 true true)) && !r.retry) = true ∧
    (asked (askedS [] true)).any (fun r => r.retry) = true ∧ HostStatus.unsupportedRequest ≠ .success ∧
    (0x5FFF : Nat) / 2 ^ (newEnt 0 0x5FFF 0x7000 12 true true).size = (newEnt 0 0x5FFF 0x7000 12 true true).va ∧
    ((mapped up).xl.crucible.filter (fun x => !entMeets (newEnt 0 0x5FFF 0x7000 12 true true) x)).length < 65536 ∧
    (castingOf (coreS c0) (castingOfCourse (coreS c0) 0 1)).live = true ∧ (castingOf (coreS c0) (castingOfCourse (coreS c0) 0 1)).ending = none ∧
    ((askedS [] false).xl.pri.find? (fun g => decide (g.id = 3))).any (fun g => !g.ignored) = true ∧
    ((askedS [] false).xl.pri.find? (fun g => decide (g.id = 4))).any (fun g => g.ignored) = true ∧ (mapped up).xl.posted = [] := by decide +kernel
/-- An INVALIDATE of a SCOPE: page 0, or window 255. -/
def invC (scope : Nat) : Cmd := cmdOf 5 [(24, 1, scope), (26, 2, 255), (40, 8, 4096), (48, 2, 1)]
def invS (q : Nat) (ns : List Flight) (s : State) : State := setQueue { s with xl := { s.xl with invals := [(q, ns)] } } 5 { fetched := [begun (invC 3)] }
/-- InvalidationsForget. -/
theorem witness_invalidate : (∀ n ∈ [1, 2, 3, 4, 5], Turn 5 5 (invC n) (queued (mapped up) (invC n)) ∧ invOk (invC n) = true ∧ invScope (invC n) = n) ∧
    (∀ q ∈ [5, 512], ((invS q [.read 7] (coreS c0)).xl.invals.find? (fun x => decide (x.1 = q))) = some (q, [.read 7]) ∧
      (landed q [.read 7] (invS q [.read 7] (coreS c0))).2 = true) ∧
    Runs 5 5 (begun (invC 3)) (landed 5 [.read 7] (invS 5 [.read 7] (coreS c0))).1 ∧ (invS 5 [] (coreS c0)).xl.dirty.contains (.inval 5) = false ∧
    (landed 5 [.pour 0] (invS 5 [.pour 0] (pourS .publishing { holder := some 1 }))).2 = false ∧
    ({ mapped up with hpt := { ats := true } } : State).hpt.ats = true ∧
    32 ≤ (({ mapped up with xl := { invals := List.replicate 32 (512, []) } } : State).xl.invals.filter (fun x => decide (x.1 = 512))).length := by
  unfold Turn Runs; decide +kernel
/-- An ADVISE of two pages, the second not yet treated. -/
def advC (op : Nat) : Cmd := { begun (cmdOf 4 [(24, 1, op), (32, 8, 0x4000), (40, 8, 8192)]) with stage := 1 }
def advS (op : Nat) : State := queued (mapped up) (advC op)
/-- Pages that have been treated. -/
def pagesOk (r : State × Nat × Got Unit) : Bool := match r.2.2 with | .ok () => true | _ => false
/-- AdviceAndMigration: commands under way, and one that starts on its turn. -/
theorem witness_advice : (∀ op ∈ [1, 2, 3, 4], GoesOnIn 4 5 advOk (advC op) (advS op) (advS op) ∧ advOp (advC op) = op) ∧
    pagesOk (advPages (advTranslate 5 false) 0x4000 (8192 / 4096 - 1) 1 (advS 1)) = true ∧
    pagesOk (advPages (advPin 5 false) 0x4000 (8192 / 4096 - 1) 1 (advS 2)) = true ∧
    isOk (advPin 5 true 0x4000 (advS 2)) = true ∧ advBytes (advC 4) ≤ chunkBytes * (advC 4).stage ∧ chunkChans (advS 4) 5 = [] ∧
    (queueOf (advS 4) 5).fetched.drop 1 = [] := by
  unfold GoesOnIn Runs; refine ⟨fun op h => ⟨Or.inl ?_, ?_⟩, ?_, ?_, ?_, ?_, ?_, ?_⟩ <;> first | (revert op; decide +kernel) | decide +kernel
def advT : Cmd := cmdOf 4 [(24, 1, 1), (32, 8, 0x4000), (40, 8, 8192)]
theorem witness_advice_starts : Turn 4 5 advT (queued (mapped up) advT) ∧ advOk advT = true ∧
    (headCmd (started 5 advT (queued (mapped up) advT)) 5).any (fun c => decide (advOp c = 1)) = true := by unfold Turn; decide +kernel
/-- A MIGRATE of one line: its chunk issued or not. -/
def migC (stage : Nat) : Cmd := { begun (cmdOf 3 [(24, 8, 0x4000), (32, 8, 0x5000), (40, 8, 128)]) with stage }
def migS (stage : Nat) : State := queued (mapped up) (migC stage)
def chunkS : State :=
  match execMigrate 5 (migS 0) with
  | .next t => t
  | _ => up
def movedTo (r : State × Moved) : Bool := match r.2 with | .ok => true | _ => false
theorem witness_migrate : GoesOnIn 3 5 migOk (migC 0) (migS 0) (migS 0) ∧ headCmd (migS 0) 5 = some (migC 0) ∧ isOn (migS 0) (sprStopped 16) = false ∧
    chanFree (migS 0) 16 2 = true ∧ chunkBytes * (migC 0).stage < 128 ∧ 128 ≤ chunkBytes * (migC 1).stage ∧ chunkChans (migS 1) 5 = [] ∧
    chanFree (migS 0) 16 0 = true := by
  unfold GoesOnIn Runs; refine ⟨Or.inl ?_, ?_, ?_, ?_, ?_, ?_, ?_, ?_⟩ <;> decide +kernel
/-- A PRELOAD that issues its one chunk. -/
def preC : Cmd := { begun (cmdOf 4 [(24, 1, 4), (32, 8, 0x4000), (40, 8, 4096)]) with stage := 0 }
def preIssue (s : State) : State := chunkIssue 5 (advBytes preC) (fun ch => chunkDesc (advAddr preC) 0 (advHint preC) ch true) s
def preMoved (s : State) : State := (chunkChans (preIssue s) 5).foldl (fun s ch => if (chunkChans (queued (mapped up) preC) 5).contains ch then chunkMove ch s else s) (preIssue s)
theorem witness_preload : (headCmd (preIssue (queued (mapped up) preC)) 5).any (fun m => decide (cSeq m = cSeq preC) && m.started &&
      (headCmd (preMoved (queued (mapped up) preC)) 5).any (fun m' => m'.started && decide (m'.upd = m.upd) && decide (cOp m' = 4))) = true := by decide +kernel
/-- The channel of a MIGRATE's chunk, and its move. -/
def chunkCh : Nat := ((chunkChans chunkS 5).find? (fun ch => decide ((chanOf chunkS 16 ch).pos = 0))).getD 99
def chunkTo : State × Moved := copyRun 16 chunkCh chunkBytes chunkS
def chunkSure : State × Bool := hostFlush (.chan 16 chunkCh) chunkTo.1
theorem witness_chunk : Runs 3 5 (migC 1) chunkS ∧ chunkCh < 16 ∧ movedTo chunkTo = true ∧ chunkSure.2 = true ∧
    winsOut chunkSure.1 (fun w => decide (w = .chan 16 chunkCh)) = false ∧ (chanOf chunkSure.1 16 chunkCh).phase ≠ .free ∧
    (chanOf chunkSure.1 16 chunkCh).starter = 3 ∧ isOn chunkSure.1 (sprStopped 16) = false ∧ headCmd chunkSure.1 5 = some (migC 1) := by
  unfold Runs; decide +kernel
/-- A chunk whose source page must be asked for. -/
def farC : Cmd := { begun (cmdOf 3 [(24, 8, 0x80000000), (32, 8, 0x5000), (40, 8, 128)]) with stage := 0 }
def farS : State :=
  match execMigrate 5 { queued (mapped up) farC with hpt := { up.hpt with ats := true } } with
  | .next t => t
  | _ => up
def movedWait (r : State × Moved) : Bool := match r.2 with | .wait => true | _ => false
theorem witness_chunk_waits : movedWait (copyRun 16 ((chunkChans farS 5).headD 99) chunkBytes farS) = true ∧
    (chunkChans (copyRun 16 ((chunkChans farS 5).headD 99) chunkBytes farS).1 5).contains ((chunkChans farS 5).headD 99) = true := by decide +kernel
/-- A transfer of one line in device memory. -/
def lineD (ch : Nat) (fs : List (Nat × Nat × Nat)) : List Byte :=
  layout 64 ([(0, 8, 0x4000), (8, 8, 0x5000), (16, 4, 128), (20, 4, 1), (36, 4, 0x10000), (45, 1, ch)] ++ fs)
/-- The descriptor in a channel's registers. -/
def regsS (e ch : Nat) (d : List Byte) (s : State) : State :=
  (List.range 8).foldl (fun s j => setF s (sprDesc e ch j) (fieldOf d (8 * j) 8)) s
def chanS (e ch : Nat) (c : Chan) : State := setChan (mapped up) e ch c
/-- SprueTransfersStartAndStop: a host's GO on the shared engine's last channel, and firmware's on channel 1 of engine 0. -/
theorem witness_go : (let s := regsS 16 15 (lineD 15 []) (mapped up);
      InTurn (.go false 16 15) s ∧ chanFree s 16 15 = true ∧ regDesc s 16 15 = lineD 15 [] ∧ descOk 16 15 0 (goChan s false 16 15).desc = true ∧
      anyStopped s (goChan s false 16 15).desc = false ∧ chansFree s 15 (goChan s false 16 15).desc = true ∧
      anyStopped (setOn s (sprStopped 16)) (goChan s false 16 15).desc = true) ∧
    (let s := regsS 0 1 (lineD 1 [(36, 4, 1)]) (mapped up);
      chanFree s 0 1 = true ∧ descOk 0 1 3 (goChan s true 0 1).desc = true ∧ anyStopped s (goChan s true 0 1).desc = false ∧
      chansFree s 1 (goChan s true 0 1).desc = true) ∧
    descOk 16 2 0 (goChan (mapped up) false 16 2).desc = false ∧ chanFree (chanS 16 2 { phase := .running }) 16 2 = false ∧ chanCount 16 = 16 ∧ chanCount 15 = 8 ∧
    InTurn (.go false 17 0) up ∧ InTurn (.go false 15 7) up ∧ InTurn (.stop 15 7) up := by
  unfold InTurn; decide +kernel
/-- Two stripes, of engines 0 and 16. -/
def gang2 (ch : Nat) : List Byte := lineD ch [(20, 4, 2), (24, 4, 128), (28, 4, 128), (32, 4, 1), (36, 4, 0x10001)]
theorem witness_go_stripes : let s := setChan (regsS 0 1 (gang2 1) (mapped up)) 16 1 { phase := .running }
    chanFree s 0 1 = true ∧ descOk 0 1 3 (goChan s true 0 1).desc = true ∧ anyStopped s (goChan s true 0 1).desc = false ∧
      chansFree s 1 (goChan s true 0 1).desc = false := by decide +kernel
theorem witness_stop : (let s := chanS 16 2 { phase := .running, desc := lineD 2 [] };
      InTurn (.stop 16 2) s ∧ (chanOf s 16 2).phase ≠ .free ∧ (chanOf s 16 2).starter = 0 ∧ dStripe (chanOf s 16 2).desc = 0 ∧ (chanOf s 16 2).stopping = false ∧
      (chanOf s 16 15).phase = .free) ∧
    (let s := chanS 16 15 { phase := .running, desc := lineD 15 [], leader := 16, stopping := true };
      (chanOf s 16 15).stopping = true ∧ (chanOf s 16 15).starter = 0 ∧ chanOut (chanOf s 16 15) = false ∧ dFlag (chanOf s 16 15).desc 1 = false ∧
      dStripe (chanOf s 16 15).desc = 0) ∧
    dStripe (gang2 2) ≠ 0 ∧ dFlag (gang2 2) 1 = false := by
  unfold InTurn; decide +kernel
/-- A submit line's descriptor staged by core 0, its course 1 ready to claim. -/
def submitS (d : List Byte) (c : Chan) : State :=
  let s := setChan (withCode [.ldV 0 1 (w3 14 2 0 0 0xC00)] (coreS c0)) 0 7 c
  { s with spr := { s.spr with staged := wrList [] (submitAt 0 7 0) d } }
def submitD : List Byte := lineD 7 [(36, 4, 1)]
theorem witness_submit : claimReady (submitS submitD {}) 0 1 31 14 = true ∧ rdList (submitS submitD {}).spr.staged (submitAt 0 7 0) 64 = submitD ∧
    descOk 0 7 2 submitD = true ∧ cmemFits (submitS submitD {}) 0 1 submitD = true ∧ chanFree (submitS submitD {}) 0 7 = true ∧
    chansFree (submitS submitD {}) 7 submitD = true ∧ chanFree (submitS submitD { phase := .running }) 0 7 = false ∧ descOk 0 7 2 (lineD 6 []) = false ∧
    isOn (submitS submitD {}) (sprStopped 0) = false ∧ (tget [] (submitS submitD {}).spr.waiting 0).contains 7 = false := by decide +kernel
/-- A descriptor with CMEM whose range leaves the consort's 4 KiB. -/
def outD : List Byte := putAt (putAt submitD 0 (leBytes 8 4096)) 42 [2]
theorem witness_submit_out : descOk 0 7 2 outD = true ∧ cmemFits (submitS outD {}) 0 1 outD = false := by decide +kernel
def runC (d : List Byte) : Chan := { phase := .running, desc := d, leader := 16 }
/-- SprueTransfersComplete: a lone transfer with a semaphore, and the last beat of a transactional one. -/
theorem witness_transfer :
    let s := chanS 16 15 (runC (lineD 15 [(43, 1, 4), (46, 2, 16383), (48, 4, 9)]))
    let r := copyRun 16 15 (stripeBytes (chanOf s 16 15) - (chanOf s 16 15).done) s
    let f := hostFlush (.chan 16 15) r.1
    chanOut (chanOf s 16 15) = false ∧ movedTo r = true ∧ f.2 = true ∧ winsOut f.1 (fun w => decide (w = .chan 16 15)) = false ∧ (chanOf f.1 16 15).phase ≠ .free ∧
    (chanOf f.1 16 15).starter ≠ 3 ∧ dStripe (chanOf f.1 16 15).desc = 0 ∧ dFlag (chanOf f.1 16 15).desc 2 = true ∧ transactional (chanOf s 16 15).desc = false ∧
    isOn s (sprStopped 16) = false := by decide +kernel
theorem witness_out : let s := chanS 16 15 { runC (lineD 15 [(43, 1, 1)]) with done := 128 }
    chanOut (chanOf s 16 15) = true ∧ (hostFlush (.chan 16 15) s).2 = true := by decide +kernel
def stripeS : State :=
  setChan (chanS 16 2 { phase := .running, desc := putAt (gang2 2) 43 [1], leader := 0, stripe := 1, done := 128 }) 0 2
    { phase := .wordDone, desc := gang2 2, leader := 0, results := [some okEnd, none] }
theorem witness_stripe : chanOut (chanOf stripeS 16 2) = true ∧ dStripe (chanOf stripeS 16 2).desc ≠ 0 ∧ (chanOf stripeS 0 2).phase ≠ .free ∧
    (chanOf stripeS 16 2).stripe < (chanOf stripeS 0 2).results.length ∧ (hostFlush (.chan 16 2) stripeS).2 = true := by decide +kernel
theorem witness_staged :
    let s := chanS 16 15 (runC (lineD 15 [(43, 1, 1)]))
    transactional (chanOf s 16 15).desc = true ∧ isOn s (sprStopped 16) = false ∧
    isOk (stageRun 16 15 (chanAccess s 16 15) (stripeBytes (chanOf s 16 15)) 0 [] s) = true := by
  decide +kernel
def gangD : List Byte := lineD 2 [(20, 4, 2), (24, 4, 128), (28, 4, 128), (32, 4, 1), (36, 4, 3), (43, 1, 2)]
def gangS (aborts : Nat) : State :=
  setChan (chanS 0 2 { phase := .staged, desc := gangD, leader := 0, ladle := [line0], aborts }) 1 2 { phase := .staged, desc := gangD, leader := 0, stripe := 1 }
theorem witness_gang : dFlag gangD 1 = true ∧ dEngines gangD = [0, 1] ∧ tokenBars (gangS 0) (chanAgent 0 2) = false ∧ holdsToken (gangS 8) (chanAgent 0 2) = false ∧
    (∀ k ∈ dEngines gangD, (chanOf (gangS 0) k 2).phase = .staged ∧ (chanOf (gangS 0) k 2).desc = gangD ∧ (chanOf (gangS 0) k 2).stopping = false) := by decide +kernel
/-- A lone channel at its commit. -/
def lockS (phase : ChPhase) (asked : Option (Nat × Nat)) (x : LadleLine) : State :=
  chanS 16 15 { runC (lineD 15 [(43, 1, 1)]) with phase, asked, ladle := [x] }
theorem witness_channel_commit : firstLine (gangLines (lockS .locking none line0) 16 15 (fun y => !y.locked)) = some (16, line0) ∧
    lineBusy (lockS .locking none line0) (realLine 16 line0.line) (some (chanAgent 16 15)) none none = false ∧ realLine 16 line0.line < 2 ^ 57 ∧
    (chanOf (lockS .locking (some (16, line0.line)) line0) 16 15).asked = some (16, line0.line) ∧ stagedPoison (lockS .locking none line0) 16 line0 = false ∧
    stagedPoison { lockS .locking none line0 with mm := { (lockS .locking none line0).mm with poison := [(realLine 16 line0.line, 1)] } } 16 line0 = true ∧
    firstLine (gangLines (lockS .publishing none { line0 with locked := true }) 16 15 (fun y => !y.merged)) = some (16, { line0 with locked := true }) ∧
    gangLines (lockS .publishing none { line0 with locked := true, merged := true }) 16 15 (fun y => !y.merged) = [] ∧
    gangLines (lockS .locking none { line0 with locked := true }) 16 15 (fun y => y.locked) ≠ [] ∧ dFlag (chanOf (lockS .locking none line0) 16 15).desc 1 = false := by
  decide +kernel
theorem witness_lock_to_gang : (let s := setChan (gangS 0) 0 2 { chanOf (gangS 0) 0 2 with phase := .locking, ladle := [{ line0 with locked := true }] };
    gangLines s 0 2 (fun y => y.locked) ≠ [] ∧ holdsToken s (chanAgent 0 2) = false ∧ (chanOf s 0 2).phase = .locking) := by decide +kernel
theorem witness_leader : let s := chanS 0 2 { phase := .wordDone, desc := gangD, results := [some okEnd] }
    (chanOf s 0 2).phase = .wordDone ∧ (∀ r ∈ (chanOf s 0 2).results, r.isSome = true) ∧ (leaderEnd 0 (chanOf s 0 2).results).1.code = 0 := by decide +kernel
theorem witness_bus_error : busCode true 0x31 0x11 = true ∧ busCode false 0x22 0x2A = true ∧
    (∀ k < 16, (chanOf (chanS 16 15 (runC (lineD 15 []))) 16 k).starter ≠ 3 ∧ dFlag (chanOf (chanS 16 15 (runC (lineD 15 []))) 16 k).desc 1 = false) ∧
    isOn (chanS 16 15 (runC (lineD 15 []))) (sprStopped 16) = false := by decide +kernel
def stoppedS : State := setOn (chanS 16 15 { runC (lineD 15 []) with phase := .claimed }) (sprStopped 16)
theorem witness_stop_clear : isOn stoppedS (sprStopped 16) = true ∧ dEngines (chanOf stoppedS 16 15).desc = [16] ∧ (chanOf stoppedS 16 15).stopping = false ∧
    (∀ k < 17, k ≠ 16 → (chanOf stoppedS k 15).phase ≠ .claimed) := by decide +kernel
theorem witness_stop_clear_lost : let s := setOn (setChan (chanS 0 1 { phase := .claimed, desc := gang2 1 }) 16 1 { phase := .running }) (sprStopped 0)
    dEngines (chanOf s 0 1).desc = [0, 16] ∧ (chanOf s 16 1).phase ≠ .free ∧ (chanOf s 16 1).phase ≠ .claimed ∧ isOn s (sprStopped 16) = false ∧
    (∀ k < 17, k ≠ 0 → (chanOf s k 1).phase ≠ .claimed) := by decide +kernel

/-! ## Witnesses: streams, pools, shadow groups and engines -/

/-- A stream command of `n` bytes that waits for nothing. -/
def scmd (op n : Nat) (fs : List (Nat × Nat × Nat)) : SCmd := { bytes := layout n ((0, 1, op) :: (2, 2, n) :: (12, 4, 0xFFFFFFFF) :: fs) }
/-- Casting 0 on cluster 0, whose control core works, with queues; every way of its tundish but way 0 in scratch mode. -/
def streamS (qs : Tbl (List SCmd)) : State :=
  let s := (List.range 15).foldl (fun s w => setOn s (wayMode 0 (w + 1))) (setF (setF (mapped up) (fwState 3) 1) (clState 0) 1)
  { s with
    sch := { castings := [(0, casting0)] }
    clusters := [(0, { casting := some 0, queues := qs, strBase := 0x10200, strLen := 128, strNum := 9 })] }
def headed (qi : Nat) (m : SCmd) : State := streamS [(qi, [m])]
/-- The head of queue `qi` may start now. -/
def starts (qi op : Nat) (m : SCmd) : Bool :=
  let s := headed qi m
  decide (controlUp s 0 = some 0) && decide ((streamQueue s 0 qi).head? = some m) && decide (mOp m = op) && !m.done && !m.stopped &&
    !m.started && mayBegin s 0 0 m && headerGood s 0 m && s.powered
def nopB : List Byte := (scmd 0 16 []).bytes
def placeS : State := poke 0x10200 nopB (streamS [])
def readHead : State × Got (List Byte) := readRange (castingAccess placeS 0 (.engine 0 0) (agEngine 0 7) (some 0)) none 2 0x10200 16 placeS
/-- StreamsRunTheirCommands. -/
theorem witness_place : isOk readHead = true ∧ gotOr [] readHead = nopB ∧ streamLen (fieldOf nopB 0 1) = 16 ∧ fieldOf nopB 2 2 = 16 ∧
    (streamQueue readHead.1 0 0).length < 16 ∧ controlUp placeS 0 = some 0 ∧ (clusterOf placeS 0).stop = false ∧ (clusterOf placeS 0).strPos + 16 ≤ (clusterOf placeS 0).strLen ∧
    isOk (readRange (castingAccess placeS 0 (.engine 0 0) (agEngine 0 7) (some 0)) none 3 0x10200 16 readHead.1) = true := by decide +kernel
/-- A stream whose commands remain open but whose bytes have run out. -/
def outOfS : State := setCluster (headed 1 (scmd 0x10 48 [])) 0 { clusterOf (headed 1 (scmd 0x10 48 [])) 0 with strPos := 128 }
theorem witness_control : starts 0 0 (scmd 0 16 []) = true ∧ starts 0 1 (scmd 1 16 []) = true ∧ starts 0 2 (scmd 2 16 []) = true ∧
    starts 0 3 (scmd 3 32 [(20, 4, 1)]) = true ∧ starts 0 3 (scmd 3 32 []) = true ∧ starts 0 4 (scmd 4 32 [(16, 2, 16383)]) = true ∧
    semBody (scmd 3 32 [(16, 2, 16383)]).bytes = true ∧ semBody (scmd 3 32 [(20, 4, 1)]).bytes = true ∧
    (clusterOf (headed 0 (scmd 0 16 [])) 0).bad = false ∧ (openCmds (headed 0 (scmd 1 16 [])) 0).length = 1 ∧ twf [] (clusterOf (headed 0 (scmd 1 16 [])) 0).queues = true ∧
    controlUp outOfS 0 = some 0 ∧ (clusterOf outOfS 0).strLen < (clusterOf outOfS 0).strPos + 16 ∧ openCmds outOfS 0 ≠ [] ∧ (clusterOf outOfS 0).stop = false := by
  decide +kernel
def nodeM : SCmd := scmd 2 16 []
theorem witness_node : (let r := coreWritesDone 0 (atWork 0 0 0 nodeM (headed 0 nodeM));
      r.2 = true ∧ (runWatches 0 0 (mNode nodeM) r.1).2 = true) ∧
    (openCmds (headed 0 nodeM) 0).any (fun x => decide (mNode x.2 = mNode nodeM) && decide (x.2.pos < nodeM.pos)) = false := by decide +kernel
def badNop : SCmd := scmd 0 16 [(1, 1, 1)]
theorem witness_bad_header : controlUp (headed 0 badNop) 0 = some 0 ∧ mOp badNop = 0 ∧ mayBegin (headed 0 badNop) 0 0 badNop = true ∧ headerGood (headed 0 badNop) 0 badNop = false := by
  decide +kernel
/-- An engine command whose work is done, one whose work goes on, and CONSORTS whose consorts have exited. -/
def doneM : SCmd := { scmd 0x20 80 [] with started := true, done := true }
def exitM : SCmd := { scmd 0x10 48 [] with started := true }
theorem witness_complete : (hostFlush (.engine 0 2) (runRest 0 2 0 doneM (headed 2 doneM))).2 = true ∧
    ((streamQueue (runRest 0 2 0 doneM (headed 2 doneM)) 0 2).head?).any (fun m => m.done) = true ∧ (clusterOf (headed 2 doneM) 0).bad = false ∧
    launchExited (runRest 0 1 0 exitM (headed 1 exitM)) 0 exitM = true ∧ (streamQueue (runRest 0 1 0 exitM (headed 1 exitM)) 0 1).head? = some exitM := by
  decide +kernel
def tunC : SCmd := scmd 5 48 [(16, 2, 0xFFFE), (18, 2, 1), (24, 1, 1), (25, 1, 15), (26, 1, 16), (27, 1, 1)]
def launchM (placed : Nat) : SCmd :=
  { scmd 0x10 48 [(24 + 8, 4, 1), (16 + 20, 4, 4096), (16 + 24, 1, 2), (16 + 25, 1, 16), (16 + 28, 2, 0x800)] with placed, started := decide (placed ≠ 9) }
/-- StreamsConfigureLaunchAndCopy. -/
theorem witness_configure : starts 0 5 tunC = true ∧ tuncfgOk tunC.bytes = true ∧ (openCmds (headed 0 tunC) 0).any (fun x => decide (x.2.pos < tunC.pos)) = false ∧
    ((coresOf 0).all (fun g => (coreOf (headed 0 tunC) g).images.isEmpty && (coreOf (headed 0 tunC) g).consorts.isEmpty)) = true ∧
    ((List.range 16).all (fun w => (wayLines (headed 0 tunC) 0 w).isEmpty)) = true ∧ tuncfgMay (headed 0 tunC) 0 0 tunC = true ∧
    starts 0 5 (scmd 5 48 [(16, 2, 1)]) = true ∧ tuncfgOk (scmd 5 48 [(16, 2, 1)]).bytes = false ∧
    tuncfgMay (headed 0 (scmd 5 48 [(16, 2, 1)])) 0 0 (scmd 5 48 [(16, 2, 1)]) = true ∧
    (hostFlush (.engine 0 0) (headed 0 { tunC with started := true, done := true })).2 = true := by decide +kernel
theorem witness_consorts : starts 1 0x10 { launchM 0 with started := false } = true ∧ consortsOk (launchM 0).bytes = true ∧
    starts 1 0x10 (scmd 0x10 48 []) = true ∧ consortsOk (scmd 0x10 48 []).bytes = false ∧
    readyIn (headed 1 (launchM 0)) 0 = [] ∧ (launchM 0).placed < lField (launchM 0) 16 4 ∧
    ((findCore (headed 1 (launchM 0)) 0 (lField (launchM 0) 28 2) (lField (launchM 0) 24 1) (lRegs (launchM 0)) (lGranules (launchM 0))
      (bit (lField (launchM 0) 26 1) 0)).map (fun x => decide (x.1 = 11 ∧ (x.2.courses.map Prod.fst).Nodup))) = some true := by decide +kernel
def sprueM (ch : Nat) : SCmd :=
  { scmd 0x20 80 [] with bytes := (scmd 0x20 16 [(2, 2, 80)]).bytes ++ lineD ch [(36, 4, 1)] }
def retryM : SCmd := { sprueM 7 with started := true }
/-- Stripes on engines 0 and 16, of which engine 16's channel is taken. -/
def stripesM : SCmd := { scmd 0x20 80 [] with bytes := (scmd 0x20 16 [(2, 2, 80)]).bytes ++ gang2 7 }
theorem witness_sprue : starts 2 0x20 (sprueM 7) = true ∧ sprueOk 0 (headed 2 (sprueM 7)) (sprueM 7) = none ∧
    sprueOk 0 (headed 2 (sprueM 8)) (sprueM 8) ≠ none ∧ starts 2 0x20 (sprueM 8) = true ∧ dChannel (mDesc (sprueM 7)) = 7 ∧ chanFree (headed 2 (sprueM 7)) 0 7 = true ∧
    anyStopped (headed 2 (sprueM 7)) (mDesc (sprueM 7)) = false ∧ chansFree (headed 2 (sprueM 7)) 7 (mDesc (sprueM 7)) = true ∧
    chanFree (setChan (headed 2 (sprueM 7)) 0 7 { phase := .running }) 0 7 = false := by decide +kernel
theorem witness_sprue_retry : controlUp (headed 2 retryM) 0 = some 0 ∧ (streamQueue (headed 2 retryM) 0 2).head? = some retryM ∧ retryM.mid = false ∧ mOp retryM = 0x20 ∧
    (let s := setChan (headed 2 stripesM) 16 7 { phase := .running }; starts 2 0x20 stripesM = true ∧ chanFree s 0 7 = true ∧ anyStopped s (mDesc stripesM) = false ∧
      chansFree s 7 (mDesc stripesM) = false ∧ sprueOk 0 s stripesM = none) := by decide +kernel
/-- Pool 3 of cluster 0: one way, 16 blocks, the lowest of them claimed. -/
def poolS (claimed : Nat) : State :=
  let s := setF (setOn (withCode [.ldV 0 1 (w3 14 2 0 0 0xC00)] (coreS c0)) (poolEnable 0 3)) (poolBlock 0 3) 16
  setCluster s 0 { clusterOf s 0 with claims := (List.range claimed).map (fun b => (3 * 2 ^ 20 + b, 1)) }
/-- PoolsAndMarkers. -/
theorem witness_pools : claimReady (poolS 14) 0 1 31 14 = true ∧ freeBlock (poolS 14) 0 3 = some 14 ∧ freeBlock (poolS 15) 0 3 = none ∧
    poolBlocks (poolS 0) 0 3 = 16 ∧ blockClaimed (poolS 15) 0 3 15 = false ∧ freeBlock (setBlock 0 3 14 true (poolS 14)) 0 3 = none ∧
    blockClaimed (poolS 14) 0 3 13 = true ∧ blockClaimed (poolS 14) 0 3 14 = false ∧ agEngine 0 7 ≠ 11 ∧
    traceTakes (setF (poolS 0) (ringMask 0) 0xFFFF) 0 0x0A = true ∧ traceTakes (poolS 0) 0 0x0A = false ∧ (traceUnit (poolS 0) 0).fifo.length < 255 := by decide +kernel
def fullFifo : State := setTraceUnit (poolS 0) 0 { fifo := List.replicate 255 ⟨1, 0, 0, 0, 0, 0, 0, 0⟩ }
theorem witness_marker_full : 255 ≤ (traceUnit fullFifo 0).fifo.length := by decide +kernel
/-- The TUN group of cluster 15 with one shadow field. -/
def shadowS (state : Nat) : State := { setF up (clState 15) state with shadow := [((wayLock 15 15).key, 2)] }
/-- ShadowGroupsCommit. -/
theorem witness_shadow : groupOk 0 15 = true ∧ groupOk 2 0 = true ∧ groupStopped (shadowS 1) 0 15 = false ∧ groupStopped (shadowS 2) 0 15 = true ∧
    (4096 : Nat).testBit 12 = true ∧ (4096 : Nat).testBit 13 = false ∧ 4096 % 2 ^ 12 = getF (shadowS 1) (shdGen 0 15) ∧
    isOn (setOn (shadowS 1) (shdPending 0 15)) (shdPending 0 15) = true ∧ inGroup 0 15 (wayLock 15 15).key = true ∧
    fieldOfKey (wayLock 15 15).key = some (wayLock 15 15) ∧ inGroup 0 15 (wayMode 15 0).key = true ∧ inGroup 0 15 (clState 15).key = false ∧
    4097 % 2 ^ 12 ≠ getF (shadowS 1) (shdGen 0 15) ∧ (8192 : Nat).testBit 13 = true ∧ (8192 : Nat).testBit 12 = false := by decide +kernel
/-- A field that hardware updates, with a shadow and an update in the present cycle. -/
def meetS : State := { up with shadow := [((wayMode 15 15).key, 1)], touched := [((wayMode 15 15).key, 2)] }
theorem witness_meets : (wayMode 15 15).acc = .hwu ∧ meets meetS (wayMode 15 15) = true ∧ wayMode 15 15 ∈ groupFields 0 15 meetS ∧
    (wignOf (wayMode 15 15).off).isSome = true ∧ fieldOfKey (wayMode 15 15).key = some (wayMode 15 15) ∧
    InTurn (.commit 2 0 4096) up ∧ InTurn (.discard 2 0 8192) up ∧ tget 0 (setMoving 15 3 meetS).pmc.moving 15 = 3 := by
  unfold InTurn; decide +kernel
/-- Bytes of scratch of cluster 0. -/
def scr (off : Nat) (bs : List Byte) (s : State) : State := scrPut 0 off bs s
def tseM (fmt : Nat) : SCmd :=
  scmd 0x30 96 [(16, 4, 0xFFFFF8), (24, 4, 0x100000), (32, 4, 1), (36, 2, 2), (38, 1, 5), (39, 1, fmt), (42, 1, 1), (44, 4, 0x3F800000), (64, 4, 0x40000000)]
def ufeM : SCmd := scmd 0x60 64 [(16, 4, 0x100000), (20, 4, 0x200000), (25, 1, 2), (28, 2, 2), (30, 2, 1), (32, 2, 1), (34, 2, 1), (48, 1, 0xE4)]
def unfoldM : SCmd :=
  scmd 0x60 64 [(16, 4, 0x100000), (20, 4, 0x200000), (24, 1, 1), (28, 2, 2), (30, 2, 2), (32, 2, 1), (36, 1, 2), (37, 1, 2), (38, 1, 1), (39, 1, 1), (40, 1, 1),
    (41, 1, 1), (42, 1, 1), (43, 1, 1), (44, 2, 1), (46, 2, 1)]
def skeM : SCmd := scmd 0x70 64 [(16, 4, 0x100000), (24, 4, 1), (28, 2, 3), (30, 2, 1), (33, 1, 2), (36, 4, 0x200000), (40, 4, 0x200008)]
def fceM : SCmd := scmd 0x80 80 [(16, 4, 0x100000), (24, 4, 0x200000), (32, 4, 0xFFFFFFFF), (40, 4, 0xFFFFFFFF), (48, 4, 1), (52, 2, 2), (56, 1, 1)]
def localOk (x : LocalEngine) (m : SCmd) : Bool :=
  let s := headed x.qi m
  starts x.qi x.op m && decide (localCheck 0 x s m = none) && !(x.reads m.bytes ++ x.writes m.bytes).any (spanBusy s 0) &&
    (List.range (x.rows m.bytes)).all (fun r => ((x.rowReads m.bytes r).findSome? (spanPoison s 0)).isNone)
/-- ScratchEnginesCompute: at the first row and the last, past it, a line poisoned, a bad command. -/
theorem witness_local : localOk tseEngine (tseM 0) = true ∧ localOk ufeEngine ufeM = true ∧ localOk ufeEngine unfoldM = true ∧
    localOk skeEngine skeM = true ∧ localOk fceEngine fceM = true ∧ starts 3 0x30 (tseM 3) = true ∧
    localCheck 0 tseEngine (headed 3 (tseM 3)) (tseM 3) ≠ none ∧ tSoft (tseM 0).bytes = false ∧ 1 < tsCols (tseM 0).bytes ∧
    1 < uCols ufeM.bytes ∧ uUnfold ufeM.bytes = false ∧ uUnfold unfoldM.bytes = true ∧ 0 < uO unfoldM.bytes 1 ∧ 1 < uK unfoldM.bytes 1 ∧
    0 < uExt ufeM.bytes (uPerm ufeM.bytes 1) ∧ 0 < uExt ufeM.bytes (uPerm ufeM.bytes 2) ∧ 0 < uExt unfoldM.bytes 2 ∧ kFlag (putAt skeM.bytes 33 [0]) 1 = false ∧
    (fOut fceM.bytes).sc = 0 ∧ 0 < fRows fceM.bytes ∧ tseEngine.rows (tseM 0).bytes = 1 := by decide +kernel
def pastM : SCmd := { tseM 0 with started := true, unit := 1 }
theorem witness_local_past : Heads 0 3 0x30 0 pastM (headed 3 pastM) ∧ tseEngine.rows pastM.bytes ≤ pastM.unit ∧
    (let s := { headed 3 (tseM 0) with mm := { (headed 3 (tseM 0)).mm with poison := [(lineOf (aperLoc 0 0xFFFFF8), 1)] } };
      ((tseEngine.rowReads (tseM 0).bytes 0).findSome? (spanPoison s 0)).isSome = true ∧ (tseEngine.reads (tseM 0).bytes ++ tseEngine.writes (tseM 0).bytes).any (spanBusy s 0) = false) := by
  unfold Heads; decide +kernel
/-- A SOFTMAX whose state lies clear of its rows. -/
def softM : SCmd := scmd 0x30 96 [(16, 4, 0x100000), (24, 4, 0x200000), (32, 4, 1), (36, 2, 2), (38, 1, 16), (48, 4, 0x300000)]
theorem witness_softmax : tSoft softM.bytes = true ∧ (tDst softM.bytes).off + tsCols softM.bytes * codeBytes (tOfmt softM.bytes) ≤ (tState softM.bytes).off := by decide +kernel
/-- A GSE command of two indices, the first of which stands in scratch. -/
def gseM (mode flags : Nat) : SCmd :=
  { scmd 0x40 64 [(16, 8, 0x4000), (24, 4, 1), (28, 4, 8), (32, 4, 0x100000), (36, 4, 2), (40, 4, 0x200000), (48, 1, mode), (50, 1, flags), (52, 4, if mode = 2 then 2 else 0)]
    with started := true }
def gseS (m : SCmd) (idx : Nat) : State := scr 0x100000 (leBytes 4 idx) (headed 4 m)
/-- TransferEnginesCompute: every mode, indices in the table and out of it. -/
theorem witness_gse : (∀ x ∈ [(0, 0, 0), (1, 0, 0), (2, 0, 0), (3, 0, 0), (0, 0, 0xFFFFFFFF), (1, 1, 1)], GseReady 0 0 (gseM x.1 x.2.1) (gseS (gseM x.1 x.2.1) x.2.2)) ∧
    InTable (gseM 0 0) (gIndex (gseS (gseM 0 0) 0) 0 (gseM 0 0).bytes 0) ∧ ¬InTable (gseM 0 0) (gIndex (gseS (gseM 0 0) 0xFFFFFFFF) 0 (gseM 0 0).bytes 0) ∧
    ¬InTable (gseM 1 1) (gIndex (gseS (gseM 1 1) 1) 0 (gseM 1 1).bytes 0) ∧ bit (fieldOf (gseM 1 1).bytes 50 1) 0 = true := by
  unfold GseReady Heads InTable; dsimp only; decide +kernel
/-- A gathered row, and the table row that SCATTER and SCATTER_ADD write. -/
def gathers (mode : Nat) : Bool :=
  let s := gseS (gseM mode 0) 0
  isOk (engReadAll (engAccess s 0 4 0) 0 (gAge (gseM mode 0)) (gVa (gseM mode 0).bytes 0) 8 s)
def scattered (mode : Nat) : SCmd × State :=
  let m := gseM mode 0
  let s := gseOpen 0 m (gseS m 0)
  let m0 := ((streamQueue s 0 4).head?).getD m
  let a := engAccess s 0 4 0
  let s2 := (pagesReady a (gVa m.bytes 0) 8 s).1
  let s3 := (engReadAll a 0 1 (gVa m.bytes 0) 8 s2).1
  let m1 := { m0 with mid := true, out := scrBytes s2 0 0x200000 8, outVa := gVa m.bytes 0 }
  (m1, setHeadCmd 0 4 m1 (if mode = 3 then s3 else s2))
theorem witness_gse_moves : gathers 0 = true ∧ gathers 2 = true ∧
    (∀ mode ∈ [1, 3], isOk (pagesReady (engAccess (gseS (gseM mode 0) 0) 0 4 0) (gVa (gseM mode 0).bytes 0) 8 (gseS (gseM mode 0) 0)) = true ∧
      isOk (flushOut 0 4 1 (engAccess (scattered mode).2 0 4 0) (8 / 128 + 2) (scattered mode).1 (scattered mode).2) = true) := by decide +kernel
def redM (op : Nat) : SCmd := scmd 0x50 48 [(16, 4, 0x100000), (20, 2, 2), (22, 1, op), (23, 1, 3), (24, 4, 2), (28, 1, 4), (29, 1, 2), (30, 2, 0x8000 + 16383), (32, 8, 0x200000), (40, 4, 1)]
def redL : List Byte := layout 32 [(0, 8, 0x300000), (8, 2, 0x8000), (16, 8, 0x300008)]
def redS : State := scr 0x100000 redL (headed 5 (redM 0))
theorem witness_reduce : reduceCheck 0 redS (redM 0) = none ∧ rdLen (redM 0).bytes ≤ rUnit (redM 0).bytes ∧ rFlag (redM 0).bytes 2 = false ∧
    runPoison redS 0 (rList (redM 0).bytes).off (rList (redM 0).bytes).bytes = none ∧ runBusy redS 0 0x200000 8 = false ∧
    rFlag (redM 0).bytes 1 = true ∧ runPoison redS 0 0x200000 8 = none ∧ redS.xl.dirty.contains (.engine 0 5) = false ∧ (redM 0).unit = 0 ∧
    (∀ i < rCount (redM 0).bytes, eGlobal (rEntry redS 0 (redM 0).bytes i) = false ∧
      fieldOf (rEntry redS 0 (redM 0).bytes i) 12 4 ≤ semaOf redS (fieldOf (rEntry redS 0 (redM 0).bytes i) 8 2 % 2 ^ 14) ∧
      runBusy redS 0 (fieldOf (rEntry redS 0 (redM 0).bytes i) 0 8) 8 = false ∧ runPoison redS 0 (fieldOf (rEntry redS 0 (redM 0).bytes i) 0 8) 8 = none) ∧
    Begins 0 5 0x50 0 (redM 0) redS ∧ Begins 0 5 0x50 0 (redM 3) (headed 5 (redM 3)) ∧ reduceCheck 0 (headed 5 (redM 3)) (redM 3) ≠ none ∧
    rdType (redM 0).bytes = 3 ∧ fieldOf (redM 2).bytes 22 1 = 2 := by unfold Begins Heads; decide +kernel
/-- A REDUCE that begins at a unit: its waits passed, its operands read, its result written. -/
def redUnit (m : SCmd) (s : State) : Bool :=
  let m0 := ((streamQueue (atWork 0 5 0 m s) 0 5).head?).getD m
  let p := passWaits 0 (rCount m.bytes - m.placed) (m0, atWork 0 5 0 m s)
  let a := engAccess p.2 0 5 0
  let r2 := rOperands a 0 m.bytes 0 2 p.2
  let r3 := if rFlag m.bytes 1 then rOperand a 0 (rFlag m.bytes 2) (fieldOf m.bytes 32 8) 8 r2.1 else (r2.1, .ok [])
  let r4 : State × Got Unit := if rFlag m.bytes 2 then pagesReady a (fieldOf m.bytes 32 8) 8 r3.1 else (r3.1, .ok ())
  let zs := folded m.bytes 2 (gotOr [] r3) (gotOr [] r2)
  let m1 := { p.1 with mid := true, out := packRow 4 (zs.map (fun z => z.code)), outVa := fieldOf m.bytes 32 8 }
  let s5 := setHeadCmd 0 5 m1 (engFlags 0 2 (resFlags zs) r4.1)
  let r6 := flushOut 0 5 1 (engAccess s5 0 5 0) 40 m1 s5
  isOk r2 && isOk r3 && isOk r4 && (if rFlag m.bytes 2 then isOk r6 else !runBusy s5 0 (fieldOf m.bytes 32 8) 8) && (hostFlush (.engine 0 5) r6.1).2
/-- The same with its contributions and its destination at virtual addresses. -/
def farM : SCmd := { redM 0 with bytes := putAt (putAt (redM 0).bytes 29 [6]) 32 (leBytes 8 0x4000) }
def farR : State := scr 0x100000 (layout 32 [(0, 8, 0x4100), (8, 4, 0x18000), (16, 8, 0x4200), (24, 4, 0x10000)]) (headed 5 farM)
theorem witness_reduce_units : ReduceReady 0 0 (redM 0) redS ∧ redUnit (redM 0) redS = true ∧ ReduceReady 0 0 farM farR ∧ redUnit farM farR = true ∧ rFlag farM.bytes 2 = true := by
  unfold ReduceReady Heads; decide +kernel
/-- One that waits for semaphore 0 to be 1. -/
def waitR : State := scr 0x100000 (layout 32 [(0, 8, 0x300000), (8, 2, 0x8000), (12, 4, 1), (16, 8, 0x300008)]) (headed 5 (redM 0))
theorem witness_reduce_waits : Heads 0 5 0x50 0 (redM 0) waitR ∧ reduceCheck 0 waitR (redM 0) = none ∧ (redM 0).placed < rCount (redM 0).bytes ∧
    bit (fieldOf (rEntry waitR 0 (redM 0).bytes 0) 8 2) 15 = true ∧
    semaOf waitR (fieldOf (rEntry waitR 0 (redM 0).bytes 0) 8 2 % 2 ^ 14) < fieldOf (rEntry waitR 0 (redM 0).bytes 0) 12 4 := by
  unfold Heads; decide +kernel
def sendM (unit bytes : Nat) (out : List Byte) : SCmd :=
  { scmd 0x51 48 [(16, 4, 0x100000), (20, 4, bytes), (24, 8, 0x4000)] with started := true, mid := true, out, outVa := 0x4040, unit }
/-- A SEND in its last line, with one more unit to go, with no byte left. -/
theorem witness_send : (∀ m ∈ [sendM 0 64 (List.replicate 64 7), sendM 0 8192 (List.replicate 64 7), sendM 0 64 []], SendReady 0 0 m (headed 5 m)) ∧
    (∀ m ∈ [sendM 0 64 (List.replicate 64 7), sendM 0 8192 (List.replicate 64 7)], m.out.length ≤ 128 - m.outVa % 128 ∧
      isOk (sendLine 0 0 m m.outVa m.out (headed 5 m)) = true) ∧ sBytes (sendM 0 64 []).bytes ≤ 4096 ∧ 4096 < sBytes (sendM 0 8192 []).bytes ∧
    (sendSignal 0 0 (sendM 0 64 []) (headed 5 (sendM 0 64 []))).2 = true := by unfold SendReady Heads; decide +kernel
/-- A SEND whose first line cannot be written yet: a pour has its line locked. -/
def firstM : SCmd := { sendM 0 64 [] with mid := false, outVa := 0 }
def lockedS2 : State := { headed 5 firstM with mm := { (headed 5 firstM).mm with txn := [(lineOf 0x4000, { locked := some 100 })] } }
theorem witness_send_waits : SendReady 0 0 firstM lockedS2 ∧ runBusy lockedS2 0 0x100000 64 = false ∧ runPoison lockedS2 0 0x100000 64 = none ∧
    isOk (pagesReady (engAccess lockedS2 0 5 0) 0x4000 64 lockedS2) = true ∧
    waits (sendLine 0 0 { firstM with mid := true, outVa := 0x4000 } 0x4000 (scrBytes lockedS2 0 0x100000 64)
      (setHeadCmd 0 5 { firstM with mid := true, out := scrBytes lockedS2 0 0x100000 64, outVa := 0x4000 } (pagesReady (engAccess lockedS2 0 5 0) 0x4000 64 lockedS2).1)) = true := by
  unfold SendReady Heads; decide +kernel
theorem witness_transfer_checks : Begins 0 5 0x51 0 (scmd 0x51 48 []) (headed 5 (scmd 0x51 48 [])) ∧
    sendCheck 0 (headed 5 (scmd 0x51 48 [])) (scmd 0x51 48 []) ≠ none ∧ Begins 0 4 0x40 0 (scmd 0x40 64 []) (headed 4 (scmd 0x40 64 [])) ∧
    gseCheck 0 (headed 4 (scmd 0x40 64 [])) (scmd 0x40 64 []) ≠ none := by unfold Begins Heads; decide +kernel
/-- A scheduled SEND through an outbound window that has no entry. -/
def winM : SCmd := { scmd 0x51 48 [(16, 4, 0x100000), (20, 4, 64), (24, 8, 0x80000080), (12, 4, 3)] with started := true }
def winMS : State :=
  let s := setF (barWrite 0x381028 8 0x000200000902BC43 (headed 5 winM)) (shdGen 2 0) 0x2A
  let t := setOn (setF (barWrite 0x384000 4 0x102A s) aperBase 0x40) aperEnable
  { t with xl := { t.xl with crucible := [⟨0, 0x80000, 12, 0x400510A000, true, true, false, 0⟩] } }
theorem witness_send_scheduled : Heads 0 5 0x51 0 winM winMS ∧ mFret winM ≠ 0xFFFFFFFF ∧ winM.placed = 0 ∧
    (let r := translate (engAccess winMS 0 5 0) (sDst winM.bytes) true winMS; isOk r = true ∧ targetOf r.1 (gotOr 0 r) = .win 5 0x10A000080 ∧
      windowOf r.1 5 0x10A000080 = some (700, 9, 0x12A000080) ∧ sendEntry r.1 0 0 700 winM = none) := by
  unfold Heads; decide +kernel

/-! ## Witnesses: coherence, fabric and host -/

def ln : Nat := reqLine 0x4000
/-- Line `ln` with a directory entry, the states of its holders, and a transaction. -/
def cohS (d : DirEnt) (ls : List (Nat × LState)) (t : Txn) : State :=
  let s := setDir (ls.foldl (fun s x => setLState s x.1 ln x.2) ((List.range 16).foldl (fun s cl => setF s (clState cl) 1) up)) ln d
  { s with mm := { s.mm with txn := tset {} s.mm.txn ln t } }
def rowAt (i : Instr) (s : State) : Bool :=
  match requestOf i with
  | some r => decide ((txnOf s (reqLine r.dpa)).cur = none) && (txnOf s (reqLine r.dpa)).waiting.isEmpty && (txnOf s (reqLine r.dpa)).locked.isNone && (!agentKind r.kind || !dirFull s (reqLine r.dpa)) && !needsHost (keyed r.dpa s) (reqLine r.dpa) r
  | none => false
/-- CoherentRequestsAreGranted: rows whose lines' homes are free. -/
theorem witness_requests : (∀ i ∈ [Instr.rdShr 15 0x4000, .rdShr 16 0x4000, .rdShr 34 0x4000, .rdOwn 33 0x4000 0, .rdCur 0x617 0x4000 0, .wrFull 0x617 0x4000 (List.replicate 128 5) 0,
      .wrPart 0x617 0x4000 3 (List.replicate 128 5) 0, .homeAtom 0x617 0x4008 true 10 8 1 0], (requestOf i).isSome = true ∧ MaySend (cohS .U [] {}) i) ∧
    homedLine up ln = true ∧ dirOf (keyed 0x4000 (cohS .U [] {})) ln = .U ∧ (tunFill 15 ln 1 none (keyed 0x4000 (cohS .U [] {}))).2 = true ∧
    devRead (cohS .U [] {}) 0x617 0x4000 128 = .ok (List.replicate 128 0) ∧ placeOf (locOf 0x4000) = .hbm 4 ∧
    devRead (cohS .U [] {}) 0x617 0x4008 8 = .ok (List.replicate 8 0) := by
  refine ⟨fun i h => ?_, ?_⟩
  · simp only [List.mem_cons, List.not_mem_nil, or_false] at h
    rcases h with rfl | rfl | rfl | rfl | rfl | rfl | rfl | rfl <;> (unfold MaySend; decide +kernel)
  · decide +kernel
theorem witness_at_home : (∀ i ∈ [Instr.rdShr 15 0x4000, .rdShr 16 0x4000, .rdShr 34 0x4000, .rdOwn 33 0x4000 0, .rdCur 0x617 0x4000 0, .wrFull 0x617 0x4000 (List.replicate 128 5) 0,
      .wrPart 0x617 0x4000 3 (List.replicate 128 5) 0, .homeAtom 0x617 0x4008 true 10 8 1 0], rowAt i (cohS .U [] {}) = true) ∧
    (∀ d ∈ [(DirEnt.SH [3, 33] none, [(3, LState.S), (33, .S)])], rowAt (.rdShr 15 0x4000) (cohS d.1 d.2 {}) = true ∧ dirOf (keyed 0x4000 (cohS d.1 d.2 {})) ln = .SH [3, 33] none) ∧
    rowAt (.upg 3 0x4000) (cohS (.SH [3] none) [(3, .S)] {}) = true ∧ lstateOf (cohS (.SH [3] none) [(3, .S)] {}) 3 ln = .S := by
  decide +kernel
/-- Requests with holders that must give way, behind others, with a full tundish. -/
theorem witness_held_lines : snoopsFor (keyed 0x4000 (cohS (.O 3) [(3, .M)] {})) ln { kind := .rdShr, who := 15, dpa := 0x4000 } ≠ [] ∧
    rowAt (.rdShr 15 0x4000) (cohS (.O 3) [(3, .M)] {}) = true ∧ dirOf (cohS (.SH [3, 4] (some 4)) [(3, .S), (4, .F)] {}) ln = .SH [3, 4] (some 4) ∧
    snoopsFor (cohS (.SH [3] none) [(3, .S)] {}) ln { kind := .upg, who := 3, dpa := 0x4000 } = [] ∧
    mayHoldDirty (cohS (.O 3) [(3, .M)] {}) 3 ln = true ∧ mayHoldDirty (cohS (.O 33) [(33, .E)] {}) 33 ln = true ∧
    (txnOf (cohS .U [] { waiting := [{ kind := .rdOwn, who := 1, dpa := 0x4000 }] }) ln).waiting ≠ [] ∧
    (txnOf (cohS .U [] { locked := some 0 }) ln).locked.isSome = true := by decide +kernel
/-- The set of a tundish without a way that may be filled. -/
def noWay : State := (List.range 16).foldl (fun s w => setOn s (wayMode 15 w)) (cohS .U [] {})
theorem witness_no_way : rowAt (.rdShr 15 0x4000) noWay = true ∧ lstateOf (keyed 0x4000 noWay) 15 ln = .I ∧ (tunFill 15 ln 1 none (keyed 0x4000 noWay)).2 = false ∧
    snoopsFor (keyed 0x4000 noWay) ln { kind := .rdShr, who := 15, dpa := 0x4000 } = [] := by decide +kernel
/-- A host line under CXL.cache: nobody on the device holds it, or the bridge itself has it. -/
def hostLineS (b : List Nat) : State := { (setF up (clState 3) 1) with hpt := { up.hpt with cxlCache := true }, mm := { up.mm with bridge := b } }
theorem witness_bridge : MaySend (hostLineS []) (.rdOwn 3 (2 ^ 64 + 0x4000) 0) ∧ LineFree (reqLine (2 ^ 64 + 0x4000)) (hostLineS []) ∧
    dirFull (hostLineS []) (reqLine (2 ^ 64 + 0x4000)) = false ∧
    needsHost (hostLineS []) (reqLine (2 ^ 64 + 0x4000)) { kind := .rdOwn, who := 3, dpa := 2 ^ 64 + 0x4000 } = true ∧ (hostLineS []).hpt.bme = true ∧
    MaySend (hostLineS [reqLine (2 ^ 64 + 0x4000)]) (.homeAtom 0 (2 ^ 64 + 0x4000) false 2 4 1 0) ∧
    rowAt (.homeAtom 0 (2 ^ 64 + 0x4000) false 2 4 1 0) (hostLineS [reqLine (2 ^ 64 + 0x4000)]) = true ∧
    dirOf (hostLineS [reqLine (2 ^ 64 + 0x4000)]) (reqLine (2 ^ 64 + 0x4000)) = .U := by unfold MaySend LineFree; decide +kernel
def rdTxn (sn : List Snoop) (k : TKind) : Txn := { cur := some { kind := k, who := 16, dpa := 0x4000 }, snoops := sn }
/-- SnoopsAnswersAndTimeouts. -/
theorem witness_snoops :
    (∀ k ∈ [Snp.shr, .fwd, .inv, .cur], let s := cohS (.O 3) [(3, .M)] (rdTxn [⟨3, k, false, 0⟩] .rdShr)
      (txnOf s ln).cur.isSome = true ∧ (⟨3, k, false, 0⟩ : Snoop) ∈ (txnOf s ln).snoops ∧ snoopFree s 3 ln = true) ∧
    (txnOf (cohS (.O 3) [(3, .S)] (rdTxn [⟨3, .inv, true, 0⟩] .rdOwn)) ln).snoops.filter (fun x => !(decide (x.can = 3) && x.delivered)) = [] ∧
    (txnOf (cohS (.O 3) [(3, .S)] (rdTxn [⟨3, .inv, true, 0⟩, ⟨4, .inv, true, 0⟩] .rdOwn)) ln).snoops.filter (fun x => !(decide (x.can = 3) && x.delivered)) ≠ [] ∧
    (txnOf (cohS (.O 3) [(3, .S)] (rdTxn [⟨3, .inv, false, 0⟩, ⟨4, .inv, true, 0⟩] .rdOwn)) ln).snoops.filter (fun x => decide (x.can ≠ 3)) ≠ [] ∧
    (txnOf (cohS (.O 3) [(3, .S)] (rdTxn [⟨3, .inv, false, 0⟩] .rdOwn)) ln).snoops.filter (fun x => decide (x.can ≠ 3)) = [] ∧
    128 * ln / 128 = ln ∧ ln < 2 ^ 57 ∧ lstateOf (cohS (.O 3) [(3, .M)] {}) 16 ln = .I ∧ keptByPour (cohS (.O 3) [(3, .M)] {}) 3 ln = false ∧
    snoopFree (cohS (.O 3) [(3, .M)] { peg := some (3, 1) }) 3 ln = false := by decide +kernel
theorem witness_host_snoop : (hostLineS []).hpt.cxlCache = true ∧ 2 ^ 57 ≤ reqLine (2 ^ 64 + 0x4000) ∧ snoopFree (hostLineS []) 3 (reqLine (2 ^ 64 + 0x4000)) = true ∧
    (txnOf (hostLineS []) (reqLine (2 ^ 64 + 0x4000))).cur = none ∧ 128 * reqLine (2 ^ 64 + 0x4000) / 128 = reqLine (2 ^ 64 + 0x4000) := by decide +kernel
/-- Port 23 in a state. -/
def portS (st : Nat) (x : Port) : State := setPort (setF up (pState 23) st) 23 x
/-- A packet of a kind. -/
def pkt (k : PacketKind) (vl len aux : Nat) (pay : List Byte) : Packet := ⟨k, vl, 7, 0, 1, 255, 0x4000, len, aux, 0, 0, pay, 0x1D⟩
/-- Inbound window 255 admits everything to every device. -/
def winS : State :=
  let s := setOn (setOn (setF (portS 2 {}) (iwSize 255) 30) (iwValid 255)) (iwAny 255)
  (List.range 4).foldl (fun s k => setOn s (iwPerm 255 k)) s
def served (p : Packet) (s : State) : Bool := match (serve 23 p (arrived 23 p s)).2 with | some (_, c, _, _) => decide (c = 0) | none => false
def rdP : Packet := pkt .rdReq 1 4096 0 []
def rd1P : Packet := pkt .rdReq 1 128 0 []
def wrP : Packet := pkt .wr 1 16 (2 ^ 64 - 1) (List.replicate 16 5)
def atP : Packet := pkt .atomReq 1 8 2 (List.replicate 8 1)
def smP : Packet := { pkt .semSig 1 0 9 [] with offset := 16383 }
/-- FabricPacketsArrive: requests that are served, one that a pour holds up, one that no window admits. -/
theorem witness_packets : (∀ p ∈ [rdP, rd1P, wrP, atP, smP], Reaches 23 p winS ∧ served p winS = true ∧ (portOf winS 23).rx = []) ∧
    requestRow 23 wrP (.wr 23 wrP) ∧ admits (portS 2 {}) 255 7 0x4000 16 1 = false ∧ admits winS 255 7 0x4000 128 0 = true ∧ admits winS 255 7 0x4000 16 1 = true ∧
    admits winS 255 7 0x4000 4 2 = true ∧ admits winS 255 7 0 0 3 = true ∧ inboundDpa winS 255 0x4000 = 0x4000 ∧
    devRead winS (agPort 23) 0x4000 128 = .ok (List.replicate 128 0) ∧ writeReady (agPort 23) 0x4000 16 winS = .ok () ∧
    writeReady (agPort 23) 0x4000 4 winS = .ok () ∧ getF (serve 23 wrP (arrived 23 wrP winS)).1 (pState 23) = 2 ∧
    poisoned winS (locOf 0x4000) = false ∧ lineBusy winS ln none none none = false := by unfold Reaches requestRow; decide +kernel
def pour23 : State := { winS with mm := { winS.mm with txn := [(ln, { locked := some 0 })] } }
theorem witness_packet_waits : (serve 23 wrP (arrived 23 wrP pour23)).2 = none := by decide +kernel
def outS23 (k : PacketKind) (w : Waiter) : State :=
  { coreS c0 with xl := { wins := [⟨1, w, k, 23, 0, 0, { pkt k 1 8 0 [] with dst := 7 }, false, false, none⟩] }, regs := (portS 2 {}).regs }
def rspP (k : PacketKind) (pay : List Byte) : Packet := { pkt k 2 pay.length 0 pay with offset := 0 }
theorem witness_responses : (∀ x ∈ [(PacketKind.rdReq, PacketKind.rdRsp, [(1 : Byte)]), (.wr, .wrAck, []), (.atomReq, .atomRsp, [])],
      Reaches 23 (rspP x.2.1 x.2.2) (outS23 x.1 (.course 0 1)) ∧ (answered (rspP x.2.1 x.2.2) x.1 (outS23 x.1 (.course 0 1))).isSome = true) ∧
    (answered (rspP .wrAck []) .wr (outS23 .wr (.engine 0 5))).any (fun r => decide (r.who = .engine 0 5)) = true ∧ awaitsAck (.engine 0 5) = true ∧
    awaitsAck (.course 0 1) = false ∧ (answerCode 0 0).1 = 0 ∧ (answerCode 0x22 0x25).1 = 0x22 ∧ 0x22 ∈ topCodes ∧ 0x77 ∉ topCodes := by unfold Reaches; decide +kernel
def creditP : Packet := { pkt .credit 0 0 0 [] with offset := 0, iwin := 0 }
def fullP : Packet := { pkt .fretFull 0 2000 77 [] with offset := 100 }
def abortP : Packet := pkt .schedAbort 0 0 0 []
def follower (x : Amtox) : State := let s := setF (portS 2 {}) fretRole 1; { s with amx := { x with ports := s.amx.ports } }
theorem witness_control_packets : Reaches 23 creditP (portS 2 {}) ∧ (portOf (portS 2 {}) 23).bufs = [] ∧ Reaches 23 fullP (follower {}) ∧
    roleOf (follower {}) = 1 ∧ (follower {}).amx.fullSeen = false ∧ (follower { fullSeen := true }).amx.fullSeen = true ∧
    fullP.len ≠ (follower {}).amx.period ∧ (follower {}).amx.nextPeriod = none ∧ Reaches 23 abortP (portS 2 {}) ∧
    packetOk { creditP with payload := [1] } = false ∧
    packetRowOf (.credit 23 creditP) = some (.credit, 23, creditP) ∧
    (outS23 .wr (.course 0 1)).xl.wins.any (fun r => decide (r.tag = 1) && r.back.isNone) = true := by unfold Reaches; decide +kernel
def schedS : State := { portS 2 {} with sch := { castings := [(15, { casting0 with sched := true, schedId := 1, startFret := 0x4000 })] } }
theorem witness_sched_abort : Reaches 23 abortP schedS ∧ (castingOf schedS 15).live = true ∧ (castingOf schedS 15).sched = true ∧
    (castingOf schedS 15).ending = none ∧ (castingOf schedS 15).schedId = abortP.tag ∧ (castingOf schedS 15).startFret = abortP.offset := by
  unfold Reaches; decide +kernel
/-- PortsFramesAndFrets. -/
theorem witness_frames : (0 : Nat) = ((portOf (portS 2 {}) 23).ackRx + 1) % 256 ∧
    (portOf (portS 2 { replay := [(254, creditP), (255, creditP), (0, creditP)] }) 23).replay.map Prod.fst = [254] ++ 255 :: [0] ∧
    (portOf (portS 2 { replay := [(3, creditP)] }) 23).replay ≠ [] ∧ (portOf (portS 2 {}) 23).nakOut = false ∧ (follower {}).amx.sawMark = false ∧
    ((250 : Int) - (getF (portS 2 {}) (pLinkDelay 23) : Int) - 0).natAbs ≤ 250 ∧ 250 < ((251 : Int) - (getF (portS 2 {}) (pLinkDelay 23) : Int) - 0).natAbs ∧
    2 ≤ (follower {}).boot.phase ∧ roleOf (portS 2 {}) ≠ 1 ∧ (follower { counting := true }).amx.counting = true ∧
    getF (setF (follower {}) fretHold 1) fretHold ≠ 0 ∧ getF (setF (follower {}) fretHold 1) fretHold ≤ (follower {}).amx.missed + 1 := by decide +kernel
theorem witness_training : getF (portS 1 {}) (pState 23) = 1 ∧ (portOf (portS 1 { delays := List.replicate 15 9 }) 23).delays.length < 16 ∧
    (portOf (portS 1 { delays := List.replicate 16 9 }) 23).delays.length = 16 ∧ (portS 1 {}).boot.reduced = false ∧
    bit (portS 1 {}).boot.map.ports 23 = false ∧ PortQuiet 23 (portS 1 {}) ∧ getF (portS 0 {}) (pState 23) = 0 ∧
    isOn (setOn (portS 2 {}) (pEnable 23)) (pEnable 23) = true ∧
    (bitList (getF (portS 1 {}) (pLaneEn 23) &&& 15) 4).length = 4 ∧ (bitList (getF (portS 1 {}) (pLaneEn 23) &&& 1) 4).length < 2 ∧
    (bitList (getF (portS 1 {}) (pLaneEn 23) &&& 12) 4).length = 2 := by unfold PortQuiet; decide +kernel
theorem witness_port_rows : InTurn (.retrain 23) (portS 2 {}) ∧ InTurn (.portEnable 23 true) (portS 2 {}) ∧ InTurn (.portEnable 23 false) (portS 2 {}) ∧
    ({ portS 2 {} with boot := { (portS 2 {}).boot with reduced := true } } : State).boot.reduced = true ∧
    bit ({ portS 2 {} with boot := { (portS 2 {}).boot with map := { ports := 2 ^ 23 } } } : State).boot.map.ports 23 = true ∧
    getF (portS 3 {}) (pState 23) = 3 ∧ getF (portS 2 {}) (pState 23) = 2 ∧ ({ up with boot := { up.boot with phase := 0 } } : State).boot.phase < 2 := by
  unfold InTurn; decide +kernel
/-- Window requests through a port that leaves ACTIVE: an atomic, and a read with and without another way. -/
theorem witness_reissue : (outS23 .atomReq .posted).xl.wins.all (fun r => decide (r.kind = .atomReq)) = true ∧
    (outS23 .rdReq .posted).xl.wins.all (fun r => decide (r.kind ≠ .atomReq) && !r.reissued && decide (portFor (setOn (outS23 .rdReq .posted) (pPeerSwitch 23)) r.pkt.dst r.pkt.offset = some 23) &&
      decide (portFor (setF (outS23 .rdReq .posted) (pState 23) 0) r.pkt.dst r.pkt.offset = none)) = true := by decide +kernel

/-! ## Witnesses: the host port, security, start-up, firmware and power -/

def hostS : State := setOn up hptMemActive
def cxlS (d : DirEnt) (x : LState) : State :=
  let s := setDir (setLState hostS 34 (lineOf 0) x) (lineOf 0) d
  { s with hpt := { s.hpt with cxlMem := true, hdmCommitted := true, hdmSize := 2 ^ 30 } }
def readR (who : Waiter) : OutRead := ⟨3, who, 2 ^ 40, 2 ^ 40, 4, false, false, [], []⟩
def readS (who : Waiter) : State := { coreS c0 with xl := { reads := [readR who] } }
theorem witness_host_access : HostReaches (2 ^ 30 - 128) 128 hostS ∧ devRead hostS agHost (2 ^ 30 - 128) 128 = .ok (List.replicate 128 0) ∧
    (∃ k, placeOf (locOf (2 ^ 30 - 128)) = .hbm k ∧ stackReady hostS k = true) ∧ bar4Open hostS (2 ^ 30 - 1) 2 = false ∧
    HostReaches 8 8 hostS ∧ devRead hostS agHost 8 8 = .ok (List.replicate 8 0) ∧ HostReaches 0 4 hostS := by
  unfold HostReaches; refine ⟨?_, ?_, ⟨3, ?_⟩, ?_, ?_, ?_, ?_⟩ <;> decide +kernel
def poisonS : State := { hostS with mm := { hostS.mm with poison := [(ln, 1)] } }
def failsWith {α : Type} (r : Got α) (c : Nat) : Bool := match r with | .fail e => decide (e.code = c) | _ => false
theorem witness_host_fails : HostReaches 0x4000 128 poisonS ∧ failsWith (devRead poisonS agHost 0x4000 128) 0x30 = true ∧
    failsWith (writeReady agHost (rawLoc 0 0) 16 hostS) 0x22 = true ∧
    bar4Open { hostS with hpt := { hostS.hpt with bar4Size := 52 } } (rawLoc 0 0) 16 = true := by unfold HostReaches; decide +kernel
theorem witness_cxl : lineBusy (cxlS .U .I) (lineOf 0) none (some 34) none = false ∧ dirOf (cxlS .U .I) (lineOf 0) = .U ∧
    lstateOf (cxlS .U .I) 34 (lineOf 0) = .I ∧ lstateOf (cxlS (.O 34) .M) 34 (lineOf 0) = .M ∧ lstateOf (cxlS (.O 34) .E) 34 (lineOf 0) = .E ∧
    placeOf 0 = .hbm 0 ∧ isOn (cxlS .U .I) hptMemActive = true ∧ devRead (cxlS .U .I) agHost 0 128 = .ok (List.replicate 128 0) := by decide +kernel
/-- An access under the selector whose key is being drawn anew waits; a busy line waits too. -/
def waitH : State := setOn hostS keyBusy
def rdI : Instr := .inboundBar4Read 0 128
def wideS : State := { hostS with hpt := { hostS.hpt with bar4Size := 52 } }
theorem witness_host_order : keepsOrder .fire = true ∧ (¬InTurn .fire { hostS with hpt := { hostS.hpt with held := [.tail 5 2 8 1] } }) ∧
    InTurn .fire { hostS with hpt := { hostS.hpt with held := [rdI] } } ∧
    InTurn rdI hostS ∧ InTurn (.inboundBar4Write 8 0x0F (List.replicate 8 3) false none) hostS ∧ InTurn (.inboundAtomicop 4 8 0 8 1 0) hostS ∧
    bar4Open hostS 8 8 = true ∧ (4096 : Nat) < 4097 ∧ bar4Open hostS 0 4096 = true := by unfold InTurn; decide +kernel
theorem witness_host_waits : HostReaches 0 128 waitH ∧ InTurn rdI waitH ∧ decide (devRead waitH agHost 0 128 = .wait) = true ∧
    decide (writeReady agHost 0 128 waitH = .wait) = true ∧ decide (uncachedBar waitH false agHost 0 = .wait) = true ∧
    isOk (readDpa hostAccess 34 0 128 hostS) = true ∧ waits (readDpa hostAccess 34 0 128 waitH) = true := by unfold HostReaches InTurn; decide +kernel
theorem witness_host_stops : HostReaches (rawLoc 0 0) 128 wideS ∧ failsWith (devRead wideS agHost (rawLoc 0 0) 128) 0x22 = true ∧
    InTurn (.inboundBar4Read (rawLoc 0 0) 128) wideS ∧ bar4Open wideS (rawLoc 0 0) 8 = true ∧ failsWith (writeReady agHost (rawLoc 0 0) 8 wideS) 0x22 = true ∧
    failsWith (uncachedBar hostS false agHost (rawLoc 0 0)) 0x22 = true ∧ InTurn (.inboundAtomicop 4 (rawLoc 0 0) 0 8 1 0) wideS := by
  unfold HostReaches InTurn; decide +kernel
theorem witness_host_writes : HostReaches 8 8 hostS ∧ writeBar hostS agHost 8 = .ok () ∧ HostReaches 0 128 hostS ∧ placeOf (locOf 8) = .hbm 0 ∧
    devRead hostS agHost 8 8 = .ok (List.replicate 8 0) ∧ writeReady agHost 8 8 hostS = .ok () ∧ writeBar hostS agHost 0 = .ok () := by
  unfold HostReaches; decide +kernel
/-- CXL.mem: what the host itself holds, and a line that nobody holds. -/
theorem witness_cxl_requests : uncachedBar (cxlS .U .I) false agHost 0 = .ok () ∧ homed 0 = true ∧ writeBar (cxlS .U .I) agHost 0 = .ok () ∧
    poisoned (cxlS .U .I) 0 = false ∧ LineFree (lineOf 0) (cxlS .U .I) ∧ dirOf (keyTurn 0 (cxlS .U .I)) (lineOf 0) = .U ∧
    lstateOf (cxlS (.SH [34] none) .S) 34 (lineOf 0) = .S ∧ uncachedBar (cxlS (.O 34) .M) false agHost 0 = .ok () ∧
    devRead (cxlS (.O 34) .M) agHost 0 128 = .ok (List.replicate 128 0) ∧ writeBar (cxlS (.O 34) .M) agHost 0 = .ok () ∧
    dirFull (cxlS .U .I) (lineOf 0) = false ∧ lstateOf (keyTurn 0 (cxlS .U .I)) 34 (lineOf 0) = .I ∧
    (∀ o, dirOf (keyTurn 0 (cxlS .U .I)) (lineOf 0) ≠ .O o) ∧ (cxlS .U .I).hpt.cxlMem = true := by
  unfold LineFree
  have u : dirOf (keyTurn 0 (cxlS .U .I)) (lineOf 0) = .U := by decide +kernel
  refine ⟨?_, ?_, ?_, ?_, ?_, u, ?_, ?_, ?_, ?_, ?_, ?_, ?_, ?_⟩
  all_goals first | (rw [u]; simp) | decide +kernel
theorem witness_completion : (readR .posted) ∈ (readS .posted).xl.reads ∧ (readR .posted).back = false ∧ (readR (.course 0 1)).who = .course 0 1 ∧
    (castingOf (readS (.course 0 1)) (castingOfCourse (readS (.course 0 1)) 0 1)).live = true ∧
    (castingOf (readS (.course 0 1)) (castingOfCourse (readS (.course 0 1)) 0 1)).ending = none := by decide +kernel
def mirrorS : State := setF (setOn (mapped up) mirEnable) mirAddr (2 ^ 40 / 4096)
def mirrorTo : State × Got Nat := translate (reportAccess 0) (getF mirrorS mirAddr * 4096) true mirrorS
theorem witness_configure_host : up.boot.phase ≠ 0 ∧ pageWaits mirrorS 0 (getF mirrorS mirAddr * 4096) = false ∧
    isOk mirrorTo = true ∧ targetOf mirrorTo.1 (gotOr 0 mirrorTo) = .host (2 ^ 40) ∧ mirrorS.hpt.bme = true ∧ isOn mirrorS mirEnable = true ∧ mirrorS.hpt.cxlCache = false := by decide +kernel
def doeS (kind : Nat) (x : Spdm) : State := { up with hpt := { up.hpt with doeReq := some kind, spdm := x } }
def ready4 (ses : Tbl Nat) : Spdm := { version := true, caps := true, algs := true, sessions := ses }
theorem witness_host_settings : atsOn up = false ∧ atsOn { up with hpt := { bme := true, ats := true } } = true ∧ up.xl.posted = [] ∧
    InTurn (.hptMirrorWrite 0xFF 1) up ∧ up.xl.reads = [] ∧
    ({ hostLineS [] with mm := { (hostLineS []).mm with lines := [(3, [(2 ^ 57, LState.S)])] } } : State).mm.lines = [(3, [(2 ^ 57, LState.S)])] := by
  unfold InTurn; decide +kernel
theorem witness_security_refusals : spdmRow (.challenge 0 1) = true ∧ doeOpen (doeS 1 {}) [1, 2] = true ∧ spdmNeeds (doeS 1 {}) (.challenge 0 1) = false ∧
    doeOpen up [1, 2] = false ∧ fwRuns (setF up (fwState 0) 2) 0 = false ∧ (doeS 1 {}).hpt.doeReq ≠ none ∧ measured (doeS 1 {}) 9 = none ∧
    (∀ j < 3, sessionOf (doeS 1 (ready4 [(0, 1), (1, 2), (2, 2)])) j ≠ 0) ∧ sessionOf (doeS 1 (ready4 [(0, 1), (1, 2), (2, 2)])) 3 = 0 := by decide +kernel
theorem witness_security : doeOpen (doeS 3 {}) [3] = true ∧ doeOpen (doeS 1 {}) [1, 2] = true ∧ doeOpen (doeS 2 (ready4 [])) [1, 2] = true ∧
    (cdatEntries (doeS 3 {}))[0]?.isSome = true ∧ (0x80 : Nat).testBit 7 = true ∧ (2 : Nat).testBit 1 = true ∧ (16 : Nat).testBit 4 = true ∧
    (measured (doeS 1 (ready4 [])) 255).isSome = true ∧ sessionOf (doeS 1 (ready4 [])) 0 = 0 ∧
    (∀ j < 4, sessionOf (doeS 1 (ready4 [(0, 1), (1, 2), (2, 2), (3, 2)])) j ≠ 0) ∧ sessionOf (doeS 1 (ready4 [(3, 1)])) 3 = 1 ∧
    sessionOf (doeS 1 (ready4 [(3, 2)])) 3 = 2 ∧ up.hpt.doeReq = none ∧ fwRuns up 0 = true := by decide +kernel
/-- A configuration image with one section of each needed type. -/
def cfg0 (limit crc : Nat) : List Byte :=
  layout 432 [(0, 4, 0x4E564347), (4, 2, 1), (6, 2, 6), (8, 4, 77), (12, 4, 432), (16, 4, crc),
    (32, 2, 1), (36, 4, 128), (40, 4, 64), (48, 2, 2), (52, 4, 192), (56, 4, 16), (64, 2, 3), (68, 4, 208), (72, 4, 4),
    (80, 2, 5), (84, 4, 216), (88, 4, 96), (96, 2, 7), (100, 4, 312), (104, 4, 8), (112, 2, 8), (116, 4, 320), (120, 4, 112),
    (192, 2, limit), (316, 2, 1000), (318, 2, 100)]
/-- What the CRC of `cfg0 2400` is taken over. -/
def cfgBody : List Byte := cfg0 2400 0
theorem crcRun_append : ∀ (xs ys : List Byte) (c : Nat), crcRun (xs ++ ys) c = crcRun ys (crcRun xs c)
  | [], _, _ => rfl
  | _ :: xs, ys, _ => crcRun_append xs ys _
/-- Bytes `96·k` to `96·k + 95`. -/
def cfgPart (k : Nat) : List Byte := (cfgBody.drop (96 * k)).take 96
theorem crc_part0 : crcRun (cfgPart 0) 0xFFFFFFFF = 2825984420 := by decide +kernel
theorem crc_part1 : crcRun (cfgPart 1) 2825984420 = 509917111 := by decide +kernel
theorem crc_part2 : crcRun (cfgPart 2) 509917111 = 2434804326 := by decide +kernel
theorem crc_part3 : crcRun (cfgPart 3) 2434804326 = 2040457301 := by decide +kernel
theorem crc_part4 : crcRun (cfgPart 4) 2040457301 = 1257052212 := by decide +kernel
theorem cfg_crc : imageCrc (cfg0 2400 3037915083) 432 = 3037915083 := by
  have e : (cfg0 2400 3037915083).take 16 ++ [0, 0, 0, 0] ++ ((cfg0 2400 3037915083).take 432).drop 20 =
      cfgPart 0 ++ (cfgPart 1 ++ (cfgPart 2 ++ (cfgPart 3 ++ cfgPart 4))) := by decide +kernel
  rw [imageCrc, crc32c, e, crcRun_append, crcRun_append, crcRun_append, crcRun_append, crc_part0, crc_part1, crc_part2, crc_part3, crc_part4]; decide +kernel
theorem witness_config : imagePasses (cfg0 2400 3037915083) = true ∧ imagePasses [] = false ∧
    State.reset.boot.phase = 0 ∧ State.reset.boot.hot = false ∧ fieldOf (cfg0 2400 3037915083) 8 4 = 77 := by
  refine ⟨?_, ?_⟩
  · have n : fieldOf (cfg0 2400 3037915083) 12 4 = 432 := by decide +kernel
    have f : fieldOf (cfg0 2400 3037915083) 16 4 = 3037915083 := by decide +kernel
    unfold imagePasses
    simp only [n, f, cfg_crc]
    decide +kernel
  · decide +kernel
def phaseS (p : Nat) (s : State) : State := { s with boot := { s.boot with phase := p } }
theorem witness_boot : stackReady (phaseS 2 State.reset) 11 = false ∧ (phaseS 2 State.reset).boot.s2Runs = false ∧
    getF (setF up (sockState 15) 1) (sockState 15) = 1 ∧ (phaseS 2 State.reset).boot.pwrOk = true ∧
    ({ State.reset with boot := { pwrOk := false } } : State).boot.pwrOk = false ∧ isOn (phaseS 3 up) bootBusy = false ∧
    ({ phaseS 3 up with boot := { (phaseS 3 up).boot with load := some (0, 0) } } : State).boot.load = some (0, 0) ∧
    (loadOutcome (phaseS 3 up) 0 0).1 ≠ 0 ∧ getF up bootLoaded + 1 = 2 ^ 0 ∧ getF up bootLoaded + 1 ≠ 2 ^ 1 := by decide +kernel
theorem witness_boot_go : InTurn (.bootGo 2) (phaseS 3 up) ∧ InTurn (.bootGo 2) up ∧ up.boot.phase = 4 ∧
    (phaseS 3 up).boot.phase ≠ 4 ∧ (phaseS 3 up).boot.phase ≠ 7 ∧ fwRuns ({ phaseS 3 up with boot := { (phaseS 3 up).boot with load := some (0, 0) } }) 0 = true ∧
    stackReady (phaseS 2 up) 3 = true ∧ getF (setF State.reset hbmReady 0x7FF) hbmReady = 0x7FF ∧ stackReady (phaseS 2 (setF State.reset hbmReady 0x7FF)) 11 = false := by
  unfold InTurn; decide +kernel
def image0 : List Byte := layout 4352 [(0, 4, 0x4E564657), (4, 2, 1), (16, 4, 4096)]
/-- An image passes where the hash and the signature, which are opaque, are those of its bytes. -/
theorem witness_image (h : Config.sha384 ((image0.drop 256).take 4096) = 0) (g : Config.signatureOk 0 (image0.take 176) = true) :
    imageOk 0 image0 = true := by
  have e : fieldOf image0 16 4 = 4096 := by decide +kernel
  have f : fieldOf image0 32 48 = 0 := by decide +kernel
  have r : (decide (fieldOf image0 0 4 = 0x4E564657) && decide (fieldOf image0 4 2 = 1) && decide (fieldOf image0 6 1 = 0) && decide (fieldOf image0 7 1 = 0) &&
    decide (fieldOf image0 20 4 < 4096) && decide (fieldOf image0 20 4 % 8 = 0) && zeroAt image0 24 8 && zeroAt image0 176 80) = true := by decide +kernel
  simp only [Bool.and_eq_true] at r
  simp [imageOk, e, f, h, g, r]
def fwC (stage : Nat) (target : Nat) (len : Nat) : Cmd := { begun (cmdOf 10 [(24, 1, target), (32, 8, 0), (40, 4, len)]) with stage, work := [1, 1] }
theorem witness_firmware : fwRuns up 2 = true ∧ getF (setF up (fwState 18) 2) (fwState 18) = 2 ∧ Runs 10 5 (fwC 0 0 4352) (queued (mapped up) (fwC 0 0 4352)) ∧
    (∀ x ∈ startedQueues (queued (mapped up) (fwC 0 0 4352)) 10, x = 5) ∧
    isOk (hbmPages { cmdAccess (queued (mapped up) (fwC 0 0 4352)) 5 with agent := agFw 0 } 2 0 (queued (mapped up) (fwC 0 0 4352))) = true ∧
    Runs 10 5 (fwC 1 3 0) (queued up (fwC 1 3 0)) ∧ Runs 10 5 (fwC 1 2 0) (queued up (fwC 1 2 0)) ∧
    nextHandover (queued up (fwC 1 2 0)) 1 = some 0 ∧ nextHandover (queued up (fwC 1 2 0)) 0x8000 = some 15 ∧ fwRuns (setF up (fwState 3) 1) 3 = true ∧
    fwRefusal (queued up (fwC 0 0 4352)) (fwC 0 0 4352) [] ≠ none := by unfold Runs; decide +kernel
def fwAt (va len : Nat) : Cmd := begun (cmdOf 10 [(24, 1, 0), (32, 8, va), (40, 4, len)])
def fwAcc (s : State) : Acc2 := { cmdAccess s 5 with agent := agFw 0 }
def fwIn (va : Nat) (s : State) : State × Got Unit := hbmPages (fwAcc s) 2 va s
/-- FWLOADs that are too short, whose pages are not translated or not in HBM, that wait, and that meet poison. -/
theorem witness_fwload : fieldOf (fwAt 0 100).bytes 40 4 = 100 ∧ Runs 10 5 (fwAt 0 100) (queued (mapped up) (fwAt 0 100)) ∧
    waits (fwIn (2 ^ 50) { (queued up (fwAt (2 ^ 50) 4352)) with hpt := { up.hpt with ats := true } }) = true ∧
    fails (fwIn (2 ^ 40) (queued (mapped up) (fwAt (2 ^ 40) 4352))) = true ∧
    (let s := queued (mapped up) (fwAt 0 4352)
     isOk (fwIn 0 s) = true ∧ isOk (readSpanVa (fwAcc s) 0 4352 (fwIn 0 s).1) = true) ∧
    (let s := queued (mapped (setOn up keyBusy)) (fwAt 0 4352); isOk (fwIn 0 s) = true ∧ waits (readSpanVa (fwAcc s) 0 4352 (fwIn 0 s).1) = true) ∧
    (let s := queued (mapped { up with mm := { up.mm with poison := [(ln % 32, 1)] } }) (fwAt 0 4352)
     isOk (fwIn 0 s) = true ∧ fails (readSpanVa (fwAcc s) 0 4352 (fwIn 0 s).1) = true) := by unfold Runs; decide +kernel
/-- A cluster that may go to CHILL, one that may go to COLD, and one in each transition. -/
def chillS : State := setF (setF up (clState 15) 1) (clChillDelay 15) 1
def coldS : State := setOn (setF up (clState 15) 2) (clColdEn 15)
theorem witness_power_states : pmcRuns chillS = true ∧ movingOf chillS 15 = 0 ∧ clusterWanted chillS 15 = false ∧ 15 ∉ chillS.pmc.wake ∧ getF chillS (clState 15) = 1 ∧
    clusterBusy chillS 15 = false ∧ getF chillS (clChillDelay 15) ≠ 0 ∧ clusterReserved chillS 15 = false ∧ flasked chillS (agTundish 15) = false ∧
    pmcRuns coldS = true ∧ movingOf coldS 15 = 0 ∧ clusterWanted coldS 15 = false ∧ 15 ∉ coldS.pmc.wake ∧ getF coldS (clState 15) = 2 ∧ isOn coldS (clColdEn 15) = true ∧
    movingOf (setMoving 15 1 chillS) 15 = 1 ∧ movingOf (setMoving 15 2 coldS) 15 = 2 ∧ getF (setF up (clState 15) 0) (clState 15) = 0 ∧
    clusterBusy (setF up (clState 15) 0) 15 = false ∧ getF (setMoving 15 3 up) (clState 15) = 3 ∧ getF (setMoving 15 3 coldS) (clState 15) = 2 ∧
    InTurn (.pmcLimitWrite 900) up ∧ up.boot.reduced = false ∧ getF chillS (clState 15) ≤ 1 ∧ heldSlow chillS = false ∧ RailsOk chillS ∧
    95 < hottest (List.replicate 80 96) 15 ∧ 400 ≤ up.pmc.target ∧ up.pmc.target ≤ 1800 := by unfold InTurn RailsOk; decide +kernel
theorem witness_power : pmcRuns up = true ∧ getF (setF up (clState 15) 1) (clState 15) ≤ 1 ∧ movingOf up 15 = 0 ∧ heldSlow up = false ∧ RailsOk up ∧
    (List.replicate 80 116).length = 80 ∧ 115 < hottestAll (List.replicate 79 30 ++ [116]) ∧ hottestAll (List.replicate 80 115) ≤ 115 ∧
    clusterBusy up 15 = false ∧ clusterWanted up 15 = false ∧ clusterReserved up 15 = false ∧ flasked up (agTundish 15) = false ∧
    getF (setF up (clChillDelay 15) 1) (clChillDelay 15) ≠ 0 ∧ isOn (setOn up (clColdEn 15)) (clColdEn 15) = true ∧
    movingOf (setMoving 15 3 up) 15 = 3 ∧ 15 ∈ ({ up with pmc := { wake := [15] } } : State).pmc.wake := by unfold RailsOk; decide +kernel

/-! ## Witnesses: service, errors and observation -/

/-- A BIST command on a target, in a stage. -/
def bistC (op target stage : Nat) : Cmd := { begun (cmdOf 8 [(24, 1, op), (26, 2, target), (28, 1, 0xFF)]) with stage }
def bistS (c : Cmd) : State := queued (mapped up) c
/-- A CARTRIDGE command on socket 15. -/
def cartC (op count : Nat) : Cmd := begun (cmdOf 9 [(24, 1, op), (25, 1, 15), (26, 2, count), (32, 8, 0x4000)])
def cartS (op st present : Nat) : State :=
  let s := setF (bistS (cartC op 1)) (sockState 15) st
  { s with boot := { s.boot with present } }
def waitingC (c : Cmd) : Cmd := { c with started := false }
theorem witness_service_turns : Turn 8 5 (waitingC (bistC 3 0x20F 0)) (bistS (waitingC (bistC 3 0x20F 0))) ∧
    Turn 9 5 (waitingC (cartC 2 0)) (bistS (waitingC (cartC 2 0))) := by unfold Turn; decide +kernel
theorem witness_service_of : serviceOf (.retire 5) = some (5, 8, 3, bistOk) ∧ serviceOf (.release 5) = some (5, 9, 2, cartridgeOk) := ⟨rfl, rfl⟩
theorem witness_service_fields : bistOk (bistC 3 0x20F 0) = true ∧ bistOk (bistC 3 0x400 0) = false ∧
    startedQueues (bistS (bistC 3 0x20F 0)) 8 = [5] ∧ pmcRuns (bistS (bistC 3 0x20F 0)) = true ∧
    cartridgeOk (cartC 2 0) = true ∧ (bistS (bistC 3 0x20F 0)).boot.reduced = false := by decide +kernel
theorem witness_service : (∀ x ∈ [(1, 0), (1, 1), (1, 2), (4, 0), (4, 2), (3, 0)], Serves 8 x.1 5 (bistC x.1 0x20F x.2) (bistS (bistC x.1 0x20F x.2))) ∧
    (∀ x ∈ [(2, 0x40B, 0), (2, 0x617, 0), (2, 0x617, 1), (3, 0x33F, 0), (5, 0, 0)], Serves 8 x.1 5 (bistC x.1 x.2.1 x.2.2) (bistS (bistC x.1 x.2.1 x.2.2))) ∧
    svcTarget (bistC 1 0x20F 0) = agTundish 15 ∧ svcTarget (bistC 2 0x40B 0) = agHbm 11 ∧ svcTarget (bistC 2 0x617 0) = agPort 23 ∧
    svcTarget (bistC 3 0x33F 0) = agSlice 63 ∧ up.pmc.retired.contains 15 = false ∧ ({ up with pmc := { retired := [15] } } : State).pmc.retired.contains 15 = true ∧
    (clusterOf up 15).casting = none ∧ movingOf up 15 = 0 ∧ bit (retiredSlices up) 63 = false ∧ homedLines 63 up = [] ∧
    getF (portS 1 {}) (pState 23) = 1 := by unfold Serves Runs; refine ⟨?_, ?_, ?_, ?_, ?_, ?_, ?_, ?_, ?_, ?_, ?_, ?_, ?_⟩ <;> decide +kernel
theorem witness_shutdown : (∃ e ∈ (setQueue (bistS (bistC 5 0 0)) 6 { fetched := [fenceC] }).sch.queues, e.1 ≠ 5 ∧ e.2.fetched ≠ []) ∧
    (∀ e ∈ (bistS (bistC 5 0 0)).sch.queues, e.2.fetched.length ≤ b2n (decide (e.1 = 5))) ∧ failedBlocks (foundMap [0x8000]) ≠ [] ∧
    failedBlocks (foundMap []) = [] := by decide +kernel
theorem witness_cartridges : (∀ x ∈ [(1, 2), (2, 3), (3, 0), (4, 3)], Serves 9 x.1 5 (cartC x.1 1) (cartS x.1 x.2 0x8000)) ∧
    getF (cartS 2 4 0) (sockState 15) = 4 ∧ getF (cartS 2 3 0) (sockState 15) = 3 ∧ bit (cartS 3 0 0x8000).boot.present 15 = true ∧
    bit (cartS 3 0 0).boot.present 15 = false ∧ cachedLines 15 (cartS 2 3 0) = [] ∧ svcSocket (cartC 2 1) = 15 := by unfold Serves Runs; decide +kernel
/-- One extent without bytes. -/
def evacRead : State × Got (List Byte) :=
  let ro := makeReadOnly 15 (cartS 1 2 0x8000)
  readRange { cmdAccess ro 5 with agent := agSph } none 3 0x4000 32 ro
theorem witness_evacuate : isOk evacRead = true ∧ extentOk (extent (gotOr [] evacRead) 0) = true ∧ nth 0 (cartC 1 1).work 0 ≤ svcCount (cartC 1 1) ∧
    pagesOk (let r := evacAll { cmdAccess evacRead.1 5 with agent := agSph } 15 (gotOr [] evacRead) 1 0 0 evacRead.1; (r.1, 0, r.2.2)) = true := by decide +kernel
def errE : ErrEnt := ⟨1, 0, 0, 0, 0, 1, 0, 0, 0⟩
def errS (cons : Nat) (base : Nat) : State :=
  let s := setF (setF (setOn (mapped up) errEnable) errCons cons) errAddr (base / 4096)
  { s with err := { s.err with buf := [errE] } }
def errTo (s : State) : State × Got Nat := translate (reportAccess 0) (getF s errAddr * 4096) true s
theorem witness_errors : 2 ^ errLog (errS (2 ^ 32 - 128) 0) ≤ (0 + 2 ^ 32 - getF (errS (2 ^ 32 - 128) 0) errCons) % 2 ^ 32 ∧
    (0 + 2 ^ 32 - getF (errS 0 0) errCons) % 2 ^ 32 < 2 ^ errLog (errS 0 0) ∧ isOk (errTo (errS 0 (2 ^ 40))) = true ∧
    stackReady up 4 = true ∧ (popEntry { up with err := { up.err with drops := 3 } }).err.prod = 1 := by decide +kernel
/-- The state of a service command, changed. -/
def inS (c : Cmd) (f : State → State) : State := f (bistS c)
theorem witness_service_starts : (∀ x ∈ startedQueues (bistS (waitingC (bistC 3 0x20F 0))) 8 ++ startedQueues (bistS (waitingC (bistC 3 0x20F 0))) 9, x = 5) ∧
    pmcRuns (bistS (waitingC (cartC 2 0))) = true ∧ Turn 9 5 (waitingC (cartC 2 0)) (inS (waitingC (cartC 2 0)) (fun s => { s with boot := { s.boot with reduced := true } })) ∧
    svcOp (bistC 3 0x20F 0) = 3 ∧ (bistC 3 0x20F 0).draining = 0 ∧ bistOk (waitingC (bistC 3 0x400 0)) = false ∧
    cartridgeOk (waitingC (begun (cmdOf 9 [(24, 1, 2), (25, 1, 16)]))) = false := by unfold Turn; decide +kernel
def busy15 (c : Cmd) : State := inS c (fun s => setCluster s 15 { clusterOf s 15 with casting := some 3 })
def retired15 (c : Cmd) : State := inS c (fun s => { s with pmc := { retired := [15] } })
/-- TEST, REINSTATE and RETIRE of cluster 15. -/
theorem witness_blocks : blockOf (agTundish 15) = some (.cluster 15) ∧ testBar (bistS (bistC 1 0x20F 0)) (.cluster 15) = false ∧
    testBar (retired15 (bistC 1 0x20F 0)) (.cluster 15) = true ∧ Serves 8 1 5 (bistC 1 0x20F 0) (retired15 (bistC 1 0x20F 0)) ∧
    blockIdle (bistS (bistC 1 0x20F 0)) (.cluster 15) = true ∧ blockIdle (busy15 (bistC 1 0x20F 1)) (.cluster 15) = false ∧
    Serves 8 1 5 (bistC 1 0x20F 1) (busy15 (bistC 1 0x20F 1)) ∧ reinstateBar (bistS (bistC 4 0x20F 0)) (.cluster 15) = true ∧
    reinstateBar (retired15 (bistC 4 0x20F 0)) (.cluster 15) = false ∧ Serves 8 4 5 (bistC 4 0x20F 0) (retired15 (bistC 4 0x20F 0)) ∧
    Serves 8 3 5 (bistC 3 0x20F 0) (busy15 (bistC 3 0x20F 0)) ∧ Serves 8 3 5 (bistC 3 0x20F 0) (retired15 (bistC 3 0x20F 0)) ∧
    (clusterOf (bistS (bistC 3 0x20F 0)) 15).casting = none ∧ movingOf (bistS (bistC 3 0x20F 0)) 15 = 0 ∧
    (bistS (bistC 3 0x20F 0)).pmc.retired.contains 15 = false := by
  unfold Serves Runs; refine ⟨?_, ?_, ?_, ?_, ?_, ?_, ?_, ?_, ?_, ?_, ?_, ?_, ?_, ?_, ?_⟩ <;> decide +kernel
/-- A RECAL of port 23 in a stage, with the port in a state. -/
def portBist (stage st : Nat) (on : Bool) : State :=
  inS (bistC 2 0x617 stage) (fun s => (fun s => if on then setOn s (pEnable 23) else s) (setF s (pState 23) st))
def deepBist (ready : Nat) : State := inS (bistC 2 (agDeep 15) 0) (fun s => setF s dcReady ready)
theorem witness_recal : (∀ x ∈ [(0, 3, true), (0, 2, true), (0, 2, false), (1, 1, true), (1, 2, true), (1, 0, true)], Serves 8 2 5 (bistC 2 0x617 x.1) (portBist x.1 x.2.1 x.2.2)) ∧
    isOn (portBist 0 2 true) (pEnable 23) = true ∧ isOn (portBist 0 2 false) (pEnable 23) = false ∧ getF (portBist 0 3 true) (pState 23) = 3 ∧
    bit (portBist 0 2 true).boot.map.ports 23 = false ∧ getF (portBist 1 0 true) (pState 23) = 0 ∧
    Serves 8 2 5 (bistC 2 (agDeep 15) 0) (deepBist 0x8000) ∧ socketMapped (deepBist 0x8000) 15 = true ∧ Serves 8 2 5 (bistC 2 (agDeep 15) 0) (deepBist 0) ∧
    socketMapped (deepBist 0) 15 = false := by unfold Serves Runs; refine ⟨?_, ?_, ?_, ?_, ?_, ?_, ?_, ?_, ?_, ?_⟩ <;> decide +kernel
/-- RETIRE of slice 63: one that has been retired, one beside a scheduled casting, one with a busy line of its own. -/
def sliceC : Cmd := bistC 3 0x33F 0
def lineOn (home : Nat) : Nat := ((List.range 128).find? (fun l => decide (homeOf up (128 * l) = home))).getD 0
def lockedAt (l : Nat) (s : State) : State := { s with mm := { s.mm with txn := [(l, { locked := some 0 })] } }
theorem witness_slices : Serves 8 3 5 sliceC (inS sliceC (fun s => setOn s (homeRetired 63))) ∧ bit (retiredSlices (inS sliceC (fun s => setF (setOn s (homeRetired 63)) (homeMap 63) 1))) 63 = true ∧
    Serves 8 3 5 sliceC (inS sliceC (fun s => { s with sch := { s.sch with castings := [(0, { casting0 with sched := true })] } })) ∧
    homedLines 63 (inS sliceC (lockedAt (lineOn 63))) = [lineOn 63] ∧ lineBusy (inS sliceC (lockedAt (lineOn 63))) (lineOn 63) none none none = true ∧
    Serves 8 3 5 sliceC (inS sliceC (lockedAt (lineOn 63))) ∧ homedLines 63 (bistS sliceC) = [] ∧ (bistS sliceC).sch.castings = [] ∧ bit (retiredSlices (bistS sliceC)) 63 = false := by
  unfold Serves Runs; refine ⟨?_, ?_, ?_, ?_, ?_, ?_, ?_, ?_, ?_⟩ <;> decide +kernel
theorem witness_shutdown_waits : Serves 8 5 5 (bistC 5 0 0) (bistS (bistC 5 0 0)) ∧
    Serves 8 5 5 (bistC 5 0 0) (setQueue (bistS (bistC 5 0 0)) 6 { fetched := [fenceC] }) ∧
    (∃ e ∈ (setQueue (bistS (bistC 5 0 0)) 6 { fetched := [fenceC] }).sch.queues, b2n (decide (e.1 = 5)) < e.2.fetched.length) ∧ up.xl.wins = [] := by
  unfold Serves Runs; decide +kernel
/-- A cartridge's line that is busy. -/
def lineIn (n : Nat) : Nat := rawLoc n 0 / 128
theorem witness_cartridge_waits : (∀ x ∈ [(1, 2), (2, 3)], cachedLines 15 (lockedAt (lineIn 15) (cartS x.1 x.2 0x8000)) = [lineIn 15] ∧
      lineBusy (lockedAt (lineIn 15) (cartS x.1 x.2 0x8000)) (lineIn 15) none none none = true ∧ Serves 9 x.1 5 (cartC x.1 1) (lockedAt (lineIn 15) (cartS x.1 x.2 0x8000))) ∧
    (∀ x ∈ [(1, 0), (2, 2), (3, 2), (4, 2)], Serves 9 x.1 5 (cartC x.1 1) (cartS x.1 x.2 0)) ∧ cachedLines 15 (cartS 1 2 0x8000) = [] := by
  unfold Serves Runs; refine ⟨?_, ?_, ?_⟩ <;> decide +kernel
/-- EVACUATE with its list out of reach, one extent that is no frame's, and one whose bytes cannot go. -/
def evacList (va : Nat) (bs : List Byte) (f : State → State) : State × Got (List Byte) :=
  let ro := makeReadOnly 15 (f (poke 0x4000 bs (cartS 1 2 0x8000)))
  readRange { cmdAccess ro 5 with agent := agSph } none 3 va 32 ro
def evacRun (c : Cmd) (r : State × Got (List Byte)) : State × (Nat × Nat) × Got Unit :=
  evacAll { cmdAccess r.1 5 with agent := agSph } 15 (gotOr [] r) (svcCount c - nth 0 c.work 0) (nth 0 c.work 0) (nth 0 c.work 1) r.1
/-- An extent of one line of socket 15 to address `dst`. -/
def extentTo (dst : Nat) : List Byte := layout 32 [(0, 8, 0), (8, 8, 128), (16, 8, dst)]
def evacOut (dst ready : Nat) : State × (Nat × Nat) × Got Unit :=
  evacRun (cartC 1 1) (evacList 0x4000 (extentTo dst) (fun s => { (setF s dcReady ready) with hpt := { s.hpt with ats := true } }))
theorem witness_evacuations : waits (evacList (2 ^ 50) [] (fun s => { s with hpt := { s.hpt with ats := true } })) = true ∧
    fails (evacList 0x4000 [] (fun s => { s with mm := { s.mm with poison := [(ln, 1)] } })) = true ∧
    extentOk (extent (gotOr [] (evacList 0x4000 (layout 32 [(0, 8, 1)]) id)) 0) = false ∧
    isOk (evacList 0x4000 (extentTo 0x10000) id) = true ∧ extentOk (extent (extentTo 0x10000) 0) = true ∧ isOk ((evacOut 0x10000 0x8000).1, (evacOut 0x10000 0x8000).2.2) = true ∧
    waits ((evacOut (2 ^ 50) 0x8000).1, (evacOut (2 ^ 50) 0x8000).2.2) = true ∧ fails ((evacOut 0x10000 0).1, (evacOut 0x10000 0).2.2) = true := by decide +kernel
theorem witness_pulled : (let s := cartS 1 2 0x8000; bit s.boot.present 15 = true ∧ s.powered = true ∧ getF s (sockState 15) = 2) ∧
    (let s := cartS 1 0 0x8000; bit s.boot.present 15 = true ∧ getF s (sockState 15) = 0) ∧ (let s := cartS 1 4 0x8000; getF s (sockState 15) = 4) ∧
    bit (cartS 1 2 0).boot.present 15 = false ∧ placeOf 0x4000 = .hbm 4 := by
  decide +kernel
theorem witness_flask : isOn (setF (setOn (launchS true []) bistActive) bistTarget (agTundish 0)) bistActive = true ∧
    heldLaunch 5 (setF (setOn (launchS true []) bistActive) bistTarget (agTundish 0)) = true ∧
    hasUnstarted (bistS (waitingC (cartC 2 0))) 5 = true ∧
    getF (setF up bistTarget (agDeep 15)) bistTarget = agDeep (svcSocket (cartC 2 0)) ∧
    (∀ r ∈ (outS23 .wr (.course 0 1)).xl.wins, r.back = none ∧ agPort r.port = agPort 23) := by decide +kernel

/-- Scrubbing a stack, its firmware region and a raw cartridge. -/
theorem witness_scrub : placeOf 0x008FE0003000 = .firmware ∧ stackReady up (0x008FE0003000 / 4096 % 12) = true ∧
    placeOf (rawLoc 15 64) = .raw 15 64 ∧ socketMapped (setF up dcReady 0x8000) 15 = true := by decide +kernel
/-- The error ring's entry as a posted write. -/
def errP (s : State) : PostedWrite := ⟨3, 0, getF s errAddr * 4096, entryBytes 0 errE, agFw 1, !s.hpt.bme⟩
/-- The first GiB of addresses is a raw cartridge that is not mapped. -/
def toRaw (s : State) : State :=
  { s with xl := { s.xl with crucible := [⟨0, 0, 30, rawLoc 0 0 / 2 ^ 30, true, true, false, 0⟩] }, hpt := { s.hpt with bar4Size := 52 } }
def errLands (s : State) : State × Got Unit := landWrite (errP s) (gotOr 0 (errTo s)) (errTo s).1
theorem witness_error_ring : (∀ b ∈ [0, 2 ^ 40, 2 ^ 50], flushMerged (errS 0 b) = errS 0 b) ∧ (errS 0 0).err.buf = [errE] ∧ pmcRuns (errS 0 0) = true ∧ isOn (errS 0 0) errEnable = true ∧
    (errS 0 0).xl.posted = [] ∧ up.err.buf = [] ∧ waits (errTo { (errS 0 (2 ^ 50)) with hpt := { bme := true, ats := true } }) = true ∧
    isOk (errTo (errS 0 0)) = true ∧ isOk (errLands (errS 0 0)) = true ∧ isOk (errLands (errS 0 (2 ^ 40))) = true ∧
    waits (errLands (lockedAt 0 (errS 0 0))) = true ∧ fails (errLands (toRaw (errS 0 0))) = true ∧
    (errS 0 0).err.drops = 0 ∧ (errS 0 0).err.buf.length ≤ 256 := by decide +kernel
def trigS : State := setF up trigSrc 0xF
def countS : State := setF (setF (setOn (setOn trigS (selEnable 208 0)) (selTrig 208 0)) (selEvent 208 0) 1) (cntCount 208 0) (2 ^ 48 - 1)
theorem witness_trigger : bit (getF trigS trigSrc) 0 = true ∧ bit (getF trigS trigSrc) 1 = true ∧ isOn trigS trigFrozen = false ∧
    trigS.trc.trigger = none ∧ isOn (setOn trigS trigFrozen) trigFrozen = true ∧ 0 < counterCount 208 ∧
    isOn countS (selEnable 208 0) = true ∧ isOn countS (selTrig 208 0) = true ∧ getF countS (selEvent 208 0) ≠ 0 ∧
    getF countS (cntCount 208 0) = 2 ^ 48 - 1 ∧ bit (getF countS trigSrc) 3 = true ∧ (traceUnit up 16).fifo.length < 256 := by decide +kernel
/-- Unit 16's ring at a place in memory, with one record waiting. -/
def traceS (dpa cons : Nat) : State :=
  setTraceUnit (setF (setF (setOn up (ringEnable 16)) (ringDpa 16) (dpa / 4096)) (ringCons 16) cons) 16 { fifo := [⟨1, 0, 0, 0, 0, 0, 0, 0⟩] }
theorem witness_traces : isOn (traceS 0x4000 0) (ringEnable 16) = true ∧ ringPlace 0x4000 = true ∧ ringPlace (rawLoc 0 0) = false ∧
    getF (traceS (rawLoc 0 0) 0) (ringDpa 16) * 4096 = rawLoc 0 0 ∧ isOn (traceS 0x4000 0) (ringWrap 16) = false ∧
    2 ^ ringLog (traceS 0x4000 (2 ^ 32 - 1024)) 16 ≤ (0 + 2 ^ 32 - getF (traceS 0x4000 (2 ^ 32 - 1024)) (ringCons 16)) % 2 ^ 32 ∧
    (0 + 2 ^ 32 - getF (traceS 0x4000 0) (ringCons 16)) % 2 ^ 32 < 2 ^ ringLog (traceS 0x4000 0) 16 ∧
    lineBusy (traceS 0x4000 0) ln none none none = false ∧ writeBar (traceS 0x4000 0) (agFw 2) 0x4000 = .ok () ∧
    lineTag (traceS 0x4000 0) ln = keyTag (traceS 0x4000 0) (keyselOf 0x4000) := by decide +kernel
/-- A token is accepted where its signature, which is opaque, is good. -/
theorem witness_token_accepts
    (h : Config.signatureOk 1 (leBytes 8 Config.fusedSerial ++ leBytes 4 (Config.debugNonce up.sec.nonce) ++ [1]) = true) :
    tokenOk up [1] = true ∧ getF up dbgState ≠ 2 := by
  refine ⟨?_, by decide +kernel⟩
  unfold tokenOk; rw [h]; decide +kernel
theorem witness_token_refused : tokenOk up [2] = false ∧ getF (setF up dbgState 2) dbgState = 2 := by
  refine ⟨?_, by decide +kernel⟩
  unfold tokenOk; rw [show decide (fieldOf [(2 : Byte)] 0 1 = 1) = false by decide +kernel]; rfl
theorem witness_register : getF up bistWign ≤ 1 ∧ getF up bistWrDiscard ≤ 1 ∧ getF up bistActive ≤ 1 ∧ getF up bistTarget < 2 ^ 12 ∧
    bits 0 2 2 = getF up bistActive ∧ bits 0 14 3 = getF up bistTarget ∧ bits 4 2 2 ≠ getF up bistActive ∧
    isOn (setF (setOn up bistActive) bistTarget (agPort 23)) bistActive = true ∧
    getF (setF (setOn up bistActive) bistTarget (agPort 23)) bistTarget = agPort 23 ∧ getF (setF up (clState 15) 3) (clState 15) = 3 := by decide +kernel
theorem witness_observation_rows : InTurn .fire trigS ∧ InTurn .rearm trigS ∧ InTurn (.cruWayLockWrite 0xFFF) up ∧ InTurn (.regen 63) up ∧
    InTurn (.registerWrite 0x190000 4 0) up ∧ isOn (setOn up keyBusy) keyBusy = true ∧ isOn up keyBusy = false ∧
    ({ trigS with trc := { trigS.trc with trigger := some (9, 5) } } : State).trc.trigger = some (9, 5) := by unfold InTurn; decide +kernel
/-- A key that is being drawn anew, with a cached line under it that is free or busy. -/
def keyS (t : Txn) : State :=
  let s := setF (setOn (setLState up 3 ln .S) keyBusy) keySel 63
  { s with mm := { s.mm with key := [(ln, 63)], txn := tset {} s.mm.txn ln t } }
theorem witness_key : keyLines 63 (keyS {}) = [ln] ∧ lineBusy (keyS {}) ln none none none = false ∧ lineBusy (keyS { locked := some 0 }) ln none none none = true ∧
    isOn (keyS {}) keyBusy = true ∧ keyselOf (63 * 2 ^ 46) = getF (keyS {}) keySel ∧ 63 * 2 ^ 46 < 2 ^ 52 := by decide +kernel
theorem witness_discard : (let s := { (setOn up bistWrDiscard) with touched := [(bistWrDiscard.key, 7)] }
      isOn s bistWrDiscard = true ∧ getF s bistWrDiscard ≤ 1 ∧ tget 0 s.touched bistWrDiscard.key = 7) ∧
    (∀ f ∈ [bistWign, bistWrDiscard, bistActive, bistTarget], tget 0 up.touched f.key = 0) := by decide +kernel
/-- A trace ring whose line is busy, and one whose key is being drawn anew. -/
theorem witness_trace_waits : lineBusy (lockedAt ln (traceS 0x4000 0)) ln none none none = true ∧
    decide (writeBar (setOn (traceS 0x4000 0) keyBusy) (agFw 2) 0x4000 = .ok ()) = false ∧ poisoned (traceS 0x4000 0) (locOf 0x4000) = false ∧
    isOn (setOn (traceS 0x4000 0) (ringWrap 16)) (ringWrap 16) = true := by decide +kernel
def offS : State := match exec .pwrOkDeassert up with | .next t => t | _ => up
theorem witness_held : HeldInReset offS ∧ NoPerstWaits offS ∧ up.boot.perst = false ∧ nextIs (exec .pwrOkDeassert up) (fun _ => true) = true := by
  unfold HeldInReset NoPerstWaits; decide +kernel

def cfgC (op : Nat) : Cmd := begun (cmdOf 8 [(24, 1, op), (32, 8, 2 ^ 40)])
def cfgTo : State × Got (List Byte) :=
  cfgPages { cmdAccess (bistS (cfgC 7)) 5 with agent := agFw 1 } (cfg0 2400 0) (svcAddr (cfgC 7)) 16 (bistS (cfgC 7))
theorem witness_cfg_write : isOk cfgTo = true := by decide +kernel
/-- CFG_READ and CFG_WRITE of pages that are not translated, or that the host cannot be asked for. -/
def cfgAt (op va : Nat) : Cmd := begun (cmdOf 8 [(24, 1, op), (32, 8, va)])
def cfgAsk (s : State) : State := { s with hpt := { s.hpt with ats := true } }
theorem witness_cfg_waits : (∀ op ∈ [6, 7], Serves 8 op 5 (cfgAt op (2 ^ 50)) (cfgAsk (bistS (cfgAt op (2 ^ 50)))) ∧ Serves 8 op 5 (cfgC op) (bistS (cfgC op))) ∧
    waits (translateRange { cmdAccess (cfgAsk (bistS (cfgAt 6 (2 ^ 50)))) 5 with agent := agFw 1 } true 17 (2 ^ 50) 65536 (cfgAsk (bistS (cfgAt 6 (2 ^ 50))))) = true ∧
    waits (cfgPages { cmdAccess (cfgAsk (bistS (cfgAt 7 (2 ^ 50)))) 5 with agent := agFw 1 } [] (2 ^ 50) 16 (cfgAsk (bistS (cfgAt 7 (2 ^ 50))))) = true ∧
    (let s := { (bistS (cfgC 7)) with hpt := {} }; fails (cfgPages { cmdAccess s 5 with agent := agFw 1 } [] (2 ^ 40) 16 s) = true) ∧
    (let s := lockedAt 0 (bistS (cfgAt 6 0)); let a : Acc2 := { cmdAccess s 5 with agent := agFw 1 }
     waits (writeRange a none 514 0 [1] (translateRange a true 17 0 65536 s).1) = true) ∧
    (let s := toRaw (bistS (cfgAt 6 0)); let a : Acc2 := { cmdAccess s 5 with agent := agFw 1 }
     fails (writeRange a none 514 0 [1] (translateRange a true 17 0 65536 s).1) = true) := by unfold Serves Runs; decide +kernel
/-- The image in force is all zeros. -/
def cfgS : State := { bistS (cfgC 6) with boot := { (bistS (cfgC 6)).boot with image := List.replicate 65536 0 } }
def cfgFrom : State × Got Unit := translateRange { cmdAccess cfgS 5 with agent := agFw 1 } true 17 (2 ^ 40) 65536 cfgS
theorem witness_cfg_read : isOk cfgFrom = true := by decide +kernel
/-- Whether each line of a run of zeros is written, one after another. -/
def zerosGo (a : Acc2) : Nat → Nat → State → Bool
  | 0, _, _ => true
  | n + 1, va, s =>
    match writeAtVa a va (List.replicate 128 0) none s with
    | (s, .ok ()) => zerosGo a n (va + 128) s
    | _ => false
theorem writeRange_zeros (a : Acc2) (n : Nat) : ∀ (fuel va : Nat) (s : State), va % 128 = 0 → n < fuel → zerosGo a n va s = true →
    (writeRange a none fuel va (List.replicate (128 * n) 0) s).2 = .ok () := by
  induction n with
  | zero => rintro (_ | fuel) va s _ hf _ <;> first | omega | rfl
  | succ n ih =>
    rintro (_ | fuel) va s al hf h
    · omega
    have e : min (128 * (n + 1)) (128 - va % 128) = 128 := by omega
    have d : 128 * (n + 1) - 128 = 128 * n := by omega
    have t : min 128 (128 * (n + 1)) = 128 := by omega
    have z : (List.replicate (128 * (n + 1)) (0 : Byte)).isEmpty = false := by rw [List.isEmpty_replicate]; simp
    rw [writeRange, z]
    simp only [Bool.false_eq_true, if_false, List.length_replicate, List.take_replicate, List.drop_replicate, e, t, d]
    rw [zerosGo] at h
    generalize writeAtVa a va (List.replicate 128 0) none s = r at h ⊢
    obtain ⟨s', g⟩ := r
    cases g with
    | ok u => exact ih fuel (va + 128) s' (by omega) (by omega) h
    | wait => cases h
    | fail e => cases h
theorem cfg_zeros : zerosGo { cmdAccess cfgS 5 with agent := agFw 1 } 512 (2 ^ 40) cfgFrom.1 = true := by decide +kernel
theorem cfg_bytes (im : List Byte) (h : im = List.replicate 65536 0) :
    (im ++ List.replicate (65536 - im.length) 0xFF).take 65536 = List.replicate (128 * 512) 0 := by
  subst h; rw [List.length_replicate, Nat.sub_self, List.replicate_zero, List.append_nil, List.take_replicate, Nat.min_self]
theorem witness_cfg_out : (writeRange { cmdAccess cfgS 5 with agent := agFw 1 } none 514 (2 ^ 40)
    ((cfgS.boot.image ++ List.replicate (65536 - cfgS.boot.image.length) 0xFF).take 65536) cfgFrom.1).2 = .ok () := by
  rw [cfg_bytes cfgS.boot.image rfl]
  exact writeRange_zeros _ 512 514 _ _ (by norm_num) (by norm_num) cfg_zeros

/-! ## The spec's worked examples and tables -/

/-- The fields of 01_organisation's example: FCE of cl11 is 0x15D, and c11 of cl12 is core 155. -/
theorem test_agent_ids : agQueue 11 8 = 0x15D ∧ 12 * 12 + 11 = 0x9B ∧ agSlice 63 = 0x33F ∧ agPort 23 = 0x617 := by decide
/-- 08_memory: the line at LOC 0x0020_6000_0040. -/
theorem test_home_and_sets : homeOf State.reset 0x002060000040 = 49 ∧ cruSet 0x002060000040 = 2072 ∧ tunSet 0x002060000040 = 1536 ∧
    placeOf 0x002060000040 = .hbm 8 := by decide +kernel
/-- 11_pours: lines X and Y. -/
theorem test_pour_homes : homeOf State.reset 0x002060000000 = 49 ∧ homeOf State.reset 0x002060000080 = 48 := by decide +kernel
/-- 08_memory: the expert block's DPA under selector 3. -/
theorem test_keyed_address : keyselOf 0xD7002A400000 = 3 ∧ placeOf (locOf 0xD7002A400000) = .view 7 0x2A400000 := by decide
/-- 08_memory, the map's edges: the firmware region, holes, the apertures' and the semaphores' ends. -/
theorem test_map_edges : placeOf 0x008FDFFFFFFF = .hbm 3 ∧ placeOf 0x008FE0000000 = .firmware ∧ placeOf 0x009000000000 = .nowhere ∧
    placeOf 0x200001010000 = .nowhere ∧ placeOf 0x2100001FFFFF = .sema 16383 127 ∧ placeOf 0x210000200000 = .nowhere := by decide +kernel
/-- R456: the check value of CRC-32C. -/
theorem test_crc32c : crc32c [0x31, 0x32, 0x33, 0x34, 0x35, 0x36, 0x37, 0x38, 0x39] = 0xE3069283 := by decide +kernel
/-- 22_registers: register addresses. -/
theorem test_register_addresses : (sprGo 16 9).off = 0x220948 ∧ (owValid 5).off = 0x381028 ∧ (selEvent 113 5).off = 0x417194 := by decide +kernel
/-- 12_translation: a host's device memory at 2^51, and a page under KEYSEL 0x11. -/
theorem test_host_alias :
    targetOf { State.reset with hpt := { bar4Base := 2 ^ 51, bar4Size := 51 } } 0x000C40004B213000 = .dev 0x000440004B213000 ∧
    keyselOf 0x000440004B213000 = 0x11 ∧ placeOf (locOf 0x000440004B213000) = .hbm 3 := by decide +kernel
/-- 22_registers and 12_translation: outbound window 5 of device 12 is written, and takes effect when the shadow commits. -/
def owinS : State := setOn (setF (setF (barWrite 0x381028 8 0x000200000902BC43 up) aperBase 0x40) (shdGen 2 0) 0x2A) aperEnable
theorem test_window : windowOf owinS 5 0x10A000080 = none ∧
    windowOf (barWrite 0x384000 4 0x102A owinS) 5 0x10A000080 = some (700, 9, 0x12A000080) ∧
    targetOf owinS 0x000400510A000080 = .win 5 0x10A000080 ∧ getF (barWrite 0x384000 4 0x102A owinS) (shdGen 2 0) = 0x2B ∧
    windowOf (barWrite 0x384000 4 0x102B owinS) 5 0x10A000080 = none := by decide +kernel
/-- 18_power: the neighbours of cl5; the rail of 1,800 MHz and of 400 MHz. -/
theorem test_neighbours : neighbours 5 = [1, 4, 6, 9] := by decide
/-- 03_core: the image of a consort of 4 courses, RA 40 and CA 45. -/
theorem test_image_size : imageBytes { courses := [0, 1, 2, 3], ra := 40, ca := 45 } = 70784 := by decide +kernel

/-- 07_cluster_engines: pool 0 of cl4 is way 5 in blocks of 64 KiB, and only block 6 is free. -/
def poolClaimS (fret : Nat) : State :=
  let s := setF (setF (setF (setF (setOn up (poolEnable 4 0)) (poolFirst 4 0) 5) (poolWays 4 0) 0) (poolBlock 4 0) 16) amxFret fret
  ([0, 1, 2, 3, 4, 5, 7, 8, 9, 10, 11, 12, 13, 14]).foldl (fun s b => setBlock 4 0 b true s) s
theorem test_pool_claims : (claimBlocks 4 0 [2, 9] (poolClaimS 100003)).2 = [0x1261, 0x0056000000060000] ∧
    (claimBlocks 4 0 [2, 9] (poolClaimS 100006)).2 = [0x0056000000060000, 0x1261] ∧
    getF (claimBlocks 4 0 [2, 9] (poolClaimS 100003)).1 (poolFree 4 0) = 0 := by decide +kernel

/-- 06_formats: a block quantised to MXFP4. -/
def mxRow : List FVal := [0x415C0000, 0xC0100000, 0x3F200000, 0x3E400000].map (decodeF fp32)
def mxOut (keep : Bool) : List Res := mxRow.map (scaledElem 1 0x0C (blockScale 1 0x0C mxRow) .nearestEven keep)
theorem test_quantise : blockScale 1 0x0C mxRow = 0x80 ∧ (mxOut false).map Res.code = [0x7, 0xA, 0x0, 0x0] ∧
    (mxOut true).map Res.code = [0x7, 0xA, 0x1, 0x0] ∧
    (mxOut false).map (fun r => r.flags &&& (fSaturated ||| fFlushed)) = [fSaturated, 0, fFlushed, 0] := by decide +kernel
/-- 06_formats: one K-block of MXFP4 in cell (17, 40); the subnormal at k = 12 is flushed unless SUBN_A is set. -/
def mxSum (subnA : Bool) : FVal :=
  let e := fun keep x => (readF fp4e2m1 keep false x).1
  let h := [(0x3, 0x7, 0x3), (7, 0xD, 0x6), (12, 0x1, 0x7), (19, 0x3, 0x9), (26, 0x4, 0x5), (30, 0xA, 0xC)].foldl
    (fun h x => addProduct (-2) h 2216 (e subnA x.2.1) (e true x.2.2)) ({} : Harp)
  blockValue (-2) (tget 0 h.blk 2216) (tget 0 h.nan 2216)
def mxEnd (subnA : Bool) : Nat := (blockEnd true 0x42158000 (mxSum subnA) (scaleVal 1 0x7C) (scaleVal 1 0x81)).code
theorem test_mx_block : mxEnd false = 0x421E0000 ∧ mxEnd true = 0x42240000 ∧ (readF fp4e2m1 false false 0x1).2 = fFlushed := by
  decide +kernel

/-! ## Core instructions, one each of the shapes -/

/-- Course 1 with a word in every lane of R0, R1, R2, R3. -/
def laneS (ws : List Nat) : State :=
  coreS { c0 with v := (List.range ws.length).map (fun i => (i, List.replicate 32 (BitVec.ofNat 32 (nth 0 ws i)))) }
/-- What an instruction leaves in lane 31 of R15, if it completes. -/
def r15 (i : Instr) (ws : List Nat) : Nat :=
  match exec i (withCode [i] (laneS ws)) with
  | .next t => (vreg (courseOf t 0 1) 15 31).toNat
  | _ => 0
/-- R105's operations on INT. -/
theorem test_int : r15 (.iadd 0 1 (w3 15 1 2 0 0)) [7, 0xFFFFFFFF, 2] = 1 ∧ r15 (.isub 0 1 (w3 15 1 2 0 0)) [7, 1, 2] = 0xFFFFFFFF ∧
    r15 (.imulhi 0 1 (w3 15 1 2 0 0)) [7, 0xFFFFFFFF, 2] = 1 ∧ r15 (.imulhi 0 1 (w3 15 1 2 0 1)) [7, 0xFFFFFFFF, 2] = 0xFFFFFFFF ∧
    r15 (.shl 0 1 (w3 15 1 2 0 0)) [7, 1, 33] = 2 ∧ r15 (.shr 0 1 (w3 15 1 2 0 1)) [7, 0x80000000, 31] = 0xFFFFFFFF ∧
    r15 (.imin 0 1 (w3 15 1 2 0 1)) [7, 0xFFFFFFFF, 2] = 0xFFFFFFFF ∧ r15 (.imin 0 1 (w3 15 1 2 0 0)) [7, 0xFFFFFFFF, 2] = 2 := by
  decide +kernel
theorem test_bits : r15 (.popc 0 1 (w3 15 1 0 0 0)) [7, 0xF0F0] = 8 ∧ r15 (.clz 0 1 (w3 15 1 0 0 0)) [7, 0] = 32 ∧
    r15 (.clz 0 1 (w3 15 1 0 0 1)) [7, 0xFFFFFFFE] = 31 := by decide +kernel
/-- R106: IEEE 754 results; 1 + 2^-24 is a tie that rounds to even. -/
theorem test_fp : r15 (.fadd 0 1 (w3 15 1 2 0 0)) [0, 0x3F800000, 0x33800000] = 0x3F800000 ∧
    r15 (.fadd 0 1 (w3 15 1 2 0 2)) [0, 0x3F800000, 0x3F800000] = 0 ∧
    r15 (.ffma 0 1 (w3 15 1 2 3 0)) [0, 0x40400000, 0x40000000, 0x3F800000] = 0x40E00000 ∧
    r15 (.frcp 0 1 (w3 15 1 0 0 0)) [0, 0x40000000] = 0x3F000000 ∧ r15 (.fsqrt 0 1 (w3 15 1 0 0 0)) [0, 0x40800000] = 0x40000000 ∧
    r15 (.fmin 0 1 (w3 15 1 2 0 0)) [0, 0x80000000, 0] = 0x80000000 ∧
    r15 (.fmax 0 1 (w3 15 1 2 0 0)) [0, 0x7FC00001, 0x7F800001] = 0x7FC00000 := by decide +kernel
/-- R105, R178: F2I of 2.5 rounds to even, and BF16 of 1 + 2^-8 ties to even. -/
theorem test_convert : r15 (.f2i 0 1 (w3 15 1 0 0 0x20)) [0, 0x40200000] = 2 ∧ r15 (.f2f 0 1 (w3 15 1 0 0 0x8)) [0, 0x3F808000] = 0x3F80 := by
  decide +kernel
/-- A word whose MOD bits are reserved ends the course's casting (R100): R15 stays. -/
theorem test_reserved : r15 (.iadd 0 1 (w3 15 1 2 0 1)) [7, 1, 2] = 0 := by decide +kernel
/-- R80: a branch of every lane goes to its target; EXIT of every lane ends the course. -/
theorem test_exit : nextIs (exec (.exit 0 1 (w3 0 0 0 0 0)) (withCode [.exit 0 1 (w3 0 0 0 0 0)] (coreS c0))) (fun t => !(courseOf t 0 1).live) = true := by
  decide +kernel

/-! ## Stepping -/

/-- The front command is taken, and the rest waits; with none waiting, an AO tick of 40 ns passes (log entry 2). -/
theorem test_step : nextIs (step { State.reset with pending := [.tokenTo, .fire] }) (fun t => decide (t.pending = [.fire])) = true ∧
    nextIs (step State.reset) (fun t => decide (t.aoTick = 1) && decide (t.ts = 80)) = true := by decide +kernel
/-- No row has bits, so no word spells a command. -/
theorem test_words : decodeTableWord 64 0 = none := rfl
/-- State.reset's memories and registers are in canonical form. -/
theorem test_reset_wf : twf 0 State.reset.mm.mem = true ∧ twf 0 State.reset.mm.host = true ∧ twf 0 State.reset.regs = true ∧
    State.reset.pending = [] := by decide +kernel

/-! ## Every check of WellFormed refuses some command -/

theorem smoke_numbers : WellFormed (.launch 511 15 []) = true ∧ WellFormed (.launch 512 0 []) = false ∧ WellFormed (.launch 0 16 []) = false ∧
    WellFormed (.launch 0 0 [2 ^ 64]) = false ∧ WellFormed (.nop 16) = false ∧ WellFormed (.lockTo 192) = false ∧
    WellFormed (.bar 191 47 InstrBits.zero) = true ∧ WellFormed (.bar 0 48 InstrBits.zero) = false ∧ WellFormed (.bar 192 0 InstrBits.zero) = false ∧
    WellFormed (.castingComplete 16) = false ∧ WellFormed (.retrain 24) = false ∧ WellFormed (.cartridgePulled 16) = false ∧
    WellFormed (.tokenGrant 4096) = false ∧ WellFormed (.watchdogExpiry 19) = false ∧ WellFormed (.clusterHandover 0 16) = false := by decide
theorem smoke_queues : WellFormed (.tail 0 4096 8 0) = false ∧ WellFormed (.tail 0 0 2 0) = false ∧ WellFormed (.tail 0 0 8 (2 ^ 64)) = false ∧
    WellFormed (.commandFetch 0 .success []) = false ∧ WellFormed (.schQCfgWrite 0 256 0) = false ∧ WellFormed (.schQCfgWrite 0 255 (2 ^ 64)) = false ∧
    WellFormed (.prefetch 16 0) = false ∧ WellFormed (.drainKill 0 4096) = false ∧ WellFormed (.migrateChunkComplete 512 0) = false := by decide
theorem smoke_clusters : WellFormed (.engineCommandComplete 0 9) = false ∧ WellFormed (.poolClaim 0 4 []) = false ∧
    WellFormed (.poolClaim 0 3 [⟨13, 0, 0, 0⟩]) = false ∧ WellFormed (.poolClaim 0 3 [⟨12, 48, 0, 0⟩]) = false ∧
    WellFormed (.poolClaim 0 3 [⟨12, 0, 32, 0⟩]) = false ∧ WellFormed (.poolClaim 0 3 [⟨12, 0, 0, 256⟩]) = false ∧
    WellFormed (.poolRelease 0 4 0 0) = false ∧ WellFormed (.poolRelease 0 0 4096 0) = false ∧ WellFormed (.poolRelease 0 0 0 (2 ^ 32)) = false ∧
    WellFormed (.submitGo 0 8 []) = false ∧ WellFormed (.marker 0 [⟨12, 0, 0, 0⟩]) = false ∧ WellFormed (.marker 0 [⟨0, 48, 0, 0⟩]) = false ∧
    WellFormed (.marker 0 [⟨0, 0, 32, 0⟩]) = false ∧ WellFormed (.marker 0 [⟨0, 0, 0, 256⟩]) = false := by decide
theorem smoke_cores : WellFormed (.hzeroComplete 0 2) = false ∧ WellFormed (.switchOut 0 16 0) = false ∧ WellFormed (.switchOut 0 0 256) = false ∧
    WellFormed (.consortImageWritten 0 16) = false ∧ WellFormed (.switchIn 0 0 192) = false ∧ WellFormed (.switchIn 192 0 0) = false := by decide
theorem smoke_memory : WellFormed (.priResponse 512 .success) = false ∧
    WellFormed (.atsInvalidateRequest (2 ^ 20 + 1) 0 12) = false ∧ WellFormed (.atsInvalidateRequest 0 (2 ^ 64) 12) = false ∧
    WellFormed (.atsInvalidateRequest 0 0 11) = false ∧ WellFormed (.atsInvalidateRequest 0 0 65) = false ∧
    WellFormed (.rdShr 35 0) = false ∧ WellFormed (.rdShr 0 (2 ^ 52)) = false ∧ WellFormed (.rdCur 0 0 4096) = false ∧
    WellFormed (.rdCur 4096 0 0) = false ∧ WellFormed (.wrFull 0 0 [] 0) = false ∧ WellFormed (.wrPart 0 0 (2 ^ 128) (List.replicate 128 0) 0) = false ∧
    WellFormed (.snpInv 35 0) = false ∧ WellFormed (.snpInv 0 (2 ^ 46)) = false ∧ WellFormed (.pegTimeExpiry (2 ^ 46)) = false := by decide +kernel
theorem smoke_engines : WellFormed (.commit 0 16 0) = false ∧ WellFormed (.commit 1 1 0) = false ∧ WellFormed (.discard 3 0 0) = false ∧
    WellFormed (.transferComplete 15 8) = false ∧ WellFormed (.transferComplete 16 15) = true ∧ WellFormed (.transferComplete 16 16) = false ∧
    WellFormed (.engineStopClear 17) = false := by decide
theorem smoke_host : WellFormed (.inboundBar4Read (2 ^ 52) 1) = false ∧ WellFormed (.inboundBar4Read 0 0) = false ∧
    WellFormed (.inboundBar4Read 0 4097) = false ∧ WellFormed (.memorySpaceEnable true (2 ^ 64)) = false ∧ WellFormed (.hdmCommit (2 ^ 64) 0) = false ∧
    WellFormed (.hdmCommit 0 (2 ^ 64)) = false ∧ WellFormed (.bar4Resize 64) = false ∧ WellFormed (.hostLinkUp 17 0) = false ∧
    WellFormed (.hostLinkUp 16 8) = false ∧ WellFormed (.hptMirrorWrite 256 0) = false ∧ WellFormed (.registerWrite (2 ^ 24) 4 0) = false ∧
    WellFormed (.registerWrite 0 3 0) = false ∧ WellFormed (.registerWrite 0 4 (2 ^ 64)) = false := by decide
theorem smoke_security : WellFormed (.doeRequest 4) = false ∧ WellFormed (.getMeasurements 256 false 0) = false ∧
    WellFormed (.finish 4 true) = false ∧ WellFormed (.keyExchange 65536) = false ∧ WellFormed (.challenge 8 0) = false ∧ WellFormed (.getCertificate 8 0 0) = false ∧
    WellFormed (.negotiateAlgorithms (2 ^ 32) 0 0 0) = false ∧ WellFormed (.debugUnlockToken []) = false ∧ WellFormed (.regen 64) = false := by decide
theorem smoke_service : WellFormed (.hbmReady 12 true) = false ∧ WellFormed (.bootGo 4) = false ∧ WellFormed (.thermalSample []) = false ∧
    WellFormed (.pmcLimitWrite (2 ^ 64)) = false ∧ WellFormed (.selftestHoldExpiry 3 0) = false ∧ WellFormed (.selftestHoldExpiry 0 65536) = false ∧
    WellFormed (.scrub 0 3) = false ∧ WellFormed (.scrub (2 ^ 46) 0) = false ∧ WellFormed (.traceRecordWrite 17) = false ∧
    WellFormed (.counterWrap 209 0) = false ∧ WellFormed (.counterWrap 0 256) = false := by decide
/-- A packet whose fields fit. -/
def fits : Packet := ⟨.rdReq, 3, 2047, 65535, 65535, 255, 2 ^ 64 - 1, 4096, 2 ^ 64 - 1, 255, 255, [], 65535⟩
theorem smoke_packets : fits.wf = true ∧ ({ fits with vl := 4 } : Packet).wf = false ∧ ({ fits with src := 2048 } : Packet).wf = false ∧
    ({ fits with dst := 65536 } : Packet).wf = false ∧ ({ fits with tag := 65536 } : Packet).wf = false ∧ ({ fits with iwin := 256 } : Packet).wf = false ∧
    ({ fits with offset := 2 ^ 64 } : Packet).wf = false ∧ ({ fits with len := 4097 } : Packet).wf = false ∧
    ({ fits with aux := 2 ^ 64 } : Packet).wf = false ∧ ({ fits with status := 256 } : Packet).wf = false ∧
    ({ fits with sub := 256 } : Packet).wf = false ∧ ({ fits with cred := 65536 } : Packet).wf = false := by decide
theorem smoke_frames : WellFormed (.dataFrame 0 true 256 0 false false false 0 []) = false ∧ WellFormed (.dataFrame 0 true 0 256 false false false 0 []) = false ∧
    WellFormed (.dataFrame 0 true 0 0 false false false 256 []) = false ∧
    WellFormed (.dataFrame 0 true 0 0 false false false 0 [{ fits with vl := 4 }]) = false ∧ WellFormed (.rdReq 0 { fits with vl := 4 }) = false ∧
    WellFormed (.markFrame 0 256 0 0) = false ∧ WellFormed (.trainFrame 0 0 256 0 0 0 0 0 0) = false ∧
    WellFormed (.trainFrame 0 0 0 2048 0 0 0 0 0) = false ∧ WellFormed (.trainFrame 0 0 0 0 256 0 0 0 0) = false ∧
    WellFormed (.windowRequestTimeout 65536) = false ∧ WellFormed (.portTrainingComplete 0 16) = false := by decide
theorem smoke_requests : WellFormed (.atsCompletion 0 0 false .success 0 11 true true) = false ∧
    WellFormed (.atsCompletion 0 0 false .success 0 64 true true) = false ∧ WellFormed (.atsCompletion 0 0 false .success (2 ^ 64) 12 true true) = false ∧
    WellFormed (.homeAtom 0 0 false 11 4 0 0) = false ∧ WellFormed (.homeAtom 0 0 false 0 2 0 0) = false ∧
    WellFormed (.homeAtom 0 0 false 0 4 (2 ^ 64) 0) = false ∧ WellFormed (.homeAtom 0 0 false 0 4 0 (2 ^ 64)) = false ∧
    WellFormed (.inboundBar4Write 0 (2 ^ 512) [] false none) = false ∧ WellFormed (.inboundBar4Write 0 0 [] false (some 256)) = false ∧
    WellFormed (.inboundAtomicop 3 0 0 4 0 0) = false ∧ WellFormed (.inboundAtomicop 4 0 3 4 0 0) = false ∧
    WellFormed (.cxlMemRequest 5 0 0 [] false) = false ∧ WellFormed (.cxlMemRequest 0 0 (2 ^ 128) [] false) = false ∧
    WellFormed (.busErrorResponse 0 0 true 256 0) = false ∧ WellFormed (.busErrorResponse 0 0 true 0 256) = false := by decide +kernel
theorem smoke_lengths : WellFormed (.inboundBar4Write 0 0 (List.replicate 513 0) false none) = false ∧
    WellFormed (.cxlMemRequest 0 0 0 (List.replicate 129 0) false) = false ∧ WellFormed (.cfgWrite 0 (List.replicate 65537 0) true) = false ∧
    ({ fits with payload := List.replicate 4097 0 } : Packet).wf = false := by
  refine ⟨?_, ?_, ?_, ?_⟩ <;> (simp only [WellFormed, Packet.wf, List.length_replicate]; decide +kernel)
theorem smoke_images : WellFormed (.config none (some (List.replicate 65537 0))) = false ∧ WellFormed (.config (some (List.replicate 65537 0)) none) = false := by
  constructor <;> (simp only [WellFormed, List.length_replicate]; decide)

end Sys2Proof.Tests
end

