-- ==== Sys2Proof/Proofs/Basics.lean ====
section
/-!
SUPPORT. Facts that proofs about several parts of the machine share: bits, the order of the host's requests, folds over states, updates of
registers alone, and the blocks of the register map.
-/
namespace Sys2Proof.Machine

/-! ## Bits and orders -/

theorem bit_eq_testBit (x i : Nat) : bit x i = x.testBit i := by
  simp only [bit, Nat.testBit_eq_decide_div_mod_eq, Nat.shiftRight_eq_div_pow, beq_eq_decide]

/-- A request of the host that is in turn keeps no other waiting. -/
theorem inOrder_inTurn {i : Instr} {s : State} (h : InTurn i s) (o : Out) : inOrder i s o = o := by
  unfold InTurn at h
  rw [inOrder, h]
  rfl

theorem whenOn_powered {s : State} (h : s.powered = true) (o : Out) : whenOn s o = o := by rw [whenOn, h]; rfl

theorem isOn_eq_true {s : State} {f : FRef} : isOn s f = true ↔ getF s f ≠ 0 := by simp [isOn]
theorem isOn_eq_false {s : State} {f : FRef} : isOn s f = false ↔ getF s f = 0 := by simp [isOn]
theorem isOn_congr {s t : State} {f : FRef} (h : getF t f = getF s f) : isOn t f = isOn s f := by simp only [isOn, h]

/-! ## Folds -/

/-- What every step of a fold keeps, the fold keeps. -/
theorem foldl_keeps {β γ : Type} (F : State → γ) (f : State → β → State) (xs : List β) (h : ∀ s, ∀ x ∈ xs, F (f s x) = F s) (s : State) :
    F (xs.foldl f s) = F s := List.foldlRecOn xs f (motive := fun t => F t = F s) rfl (fun t ht x hx => (h t x hx).trans ht)

/-! ## Updates of registers alone -/

/-- `t` is `s` with other register values and their notes. -/
def OnlyRegs (s t : State) : Prop := ∃ r w, t = { s with regs := r, touched := w }

theorem OnlyRegs.refl (s : State) : OnlyRegs s s := ⟨s.regs, s.touched, rfl⟩
theorem OnlyRegs.trans {s t u : State} (h : OnlyRegs s t) (h' : OnlyRegs t u) : OnlyRegs s u := by
  obtain ⟨r, w, rfl⟩ := h
  obtain ⟨r', w', rfl⟩ := h'
  exact ⟨r', w', rfl⟩
theorem OnlyRegs.foldl {β : Type} {f : State → β → State} (h : ∀ s x, OnlyRegs s (f s x)) (xs : List β) (s : State) :
    OnlyRegs s (xs.foldl f s) :=
  List.foldlRecOn xs f (motive := OnlyRegs s) (.refl s) (fun t ht x _ => ht.trans (h t x))
theorem onlyRegs_setF (s : State) (f : FRef) (v : Nat) : OnlyRegs s (setF s f v) := ⟨_, _, rfl⟩
theorem onlyRegs_putF (s : State) (f : FRef) (v : Nat) : OnlyRegs s (putF s f v) := ⟨_, s.touched, rfl⟩

/-! ## The blocks of the register map (R574) -/

theorem regAt_tun {o : Nat} (h : o / 0x10000 = 0x15) : regAt o = tunRegs (o - 0x150000) := by simp [regAt, h]
theorem regAt_cru {o : Nat} (h : o / 0x10000 = 0x17) : regAt o = cruRegs (o - 0x170000) := by simp [regAt, h]
theorem regAt_amx {o : Nat} (lo : 0x30 ≤ o / 0x10000) (hi : o / 0x10000 < 0x40) : regAt o = amxRegs (o - 0x300000) := by
  unfold regAt
  generalize o / 0x10000 = b at lo hi
  dsimp only
  repeat rw [if_neg (by omega)]
  rw [if_pos ⟨lo, hi⟩]

/-- One branch of a table of registers. -/
theorem eq_or_of_ite_some {α : Type} {c : Prop} [Decidable c] {a w : α} {b : Option α} (h : (if c then some a else b) = some w) :
    (c ∧ w = a) ∨ b = some w := by
  by_cases hc : c
  · rw [if_pos hc] at h; exact .inl ⟨hc, (Option.some.inj h).symm⟩
  · rw [if_neg hc] at h; exact .inr h

end Sys2Proof.Machine
end

