-- ==== Sys2Proof/Proofs/Reset.lean ====
section
/-!
CERTIFICATE. The module right after reset.
-/
namespace Sys2Proof.Machine

/-- Settles O59: at reset no register is listed, so every field reads as its table's reset value. -/
theorem resetLeavesTheModuleEmpty : Obligations.ResetLeavesTheModuleEmpty := by
  unfold Obligations.ResetLeavesTheModuleEmpty
  have hreg : ∀ f : FRef, getF State.reset f = f.rst := fun _ => rfl
  have hoff : ∀ f : FRef, f.rst = 0 → isOn State.reset f = false := fun f h => by simp [isOn, hreg, h]
  refine ⟨rfl, rfl, rfl, rfl, rfl, hreg, rfl, rfl, rfl, rfl, rfl, rfl, rfl, rfl, rfl, rfl,
    hreg errSize, hreg bootLoaded, hreg dbgState, hreg hbmReady, hreg dcReady, hreg cruLock,
    ?homes, ?clusters, ?sockets, ?queues, ?ports, fun u i => hreg (cntCount u i)⟩
  case homes => exact fun h _ => ⟨hreg (homeMap h), hoff (homeRetired h) rfl⟩
  case clusters => exact fun cl _ => ⟨hreg (clMax cl), hreg (clState cl)⟩
  case sockets => exact fun n _ => hreg (sockState n)
  case queues => exact fun q _ => ⟨hoff (qEnable q) rfl, hreg (qHead q)⟩
  case ports => exact fun p _ => hreg (pState p)

end Sys2Proof.Machine
end

