-- ==== Sys2Proof/Proofs/Shadow.lean ====
section
/-!
CERTIFICATE. Shadow groups (R10, R328, R330): what a commit, a discard and a refused write of SHD_CTL leave in every field.
-/
namespace Sys2Proof.Machine

/-! ## The order of a group's writes -/

theorem groupOrder_inTurn {i : Instr} {gr : Nat} {s : State} (h : gr = 2 → InTurn i s) (o : Out) : groupOrder i gr s o = o := by
  unfold groupOrder
  split
  next e => exact inOrder_inTurn (h e) o
  next => rfl

/-! ## The fields of a group -/

theorem key_of_fieldOfKey {k : Nat} {f : FRef} (h : fieldOfKey k = some f) : f.key = k := by
  unfold fieldOfKey at h
  split at h
  · simpa using List.find?_some h
  · cases h

/-- A field of a group is a field of the register at its place. -/
theorem mem_fields_of_fieldOfKey {k : Nat} {f : FRef} (h : fieldOfKey k = some f) : ∃ r, regAt (k / 32 * 4) = some r ∧ f ∈ r.fields := by
  unfold fieldOfKey at h
  split at h
  next r e => exact ⟨r, e, List.mem_of_find?_eq_some h⟩
  next => cases h

/-- The reset value of every field of a register fits the field. -/
def Fits (r : RegInfo) : Prop := ∀ f ∈ r.fields, f.rst < 2 ^ f.len

theorem shdRegs_fits {gr n o : Nat} {r : RegInfo} (h : shdRegs gr n o = some r) : Fits r := by
  unfold shdRegs at h
  split_ifs at h <;> cases h <;> simp [Fits, shdExpect, shdCommit, shdDiscard, shdGen, shdFailed, shdDirty, shdPending]

theorem tunRegs_fits {o : Nat} {r : RegInfo} (h : tunRegs o = some r) : Fits r := by
  unfold tunRegs at h
  dsimp only at h
  split_ifs at h
  · cases h; simp [Fits, tunWign, tunClearing]
  · cases h; simp [Fits, wayMode, wayLock, wayPool, wayConv]
  · cases h; simp [Fits, poolFirst, poolWays, poolBlock, poolEnable]
  · cases h; simp [Fits, poolFree, poolReserve, poolErr]
  · exact shdRegs_fits h

theorem cruRegs_home_fits {o : Nat} {r : RegInfo} (lo : 0x100 ≤ o) (hi : o < 0x200) (h : cruRegs o = some r) : Fits r := by
  unfold cruRegs at h
  dsimp only at h
  split_ifs at h <;> try omega
  cases h
  simp [Fits, homeMap, homeRetired]
  omega

theorem amxRegs_window_fits {o : Nat} {r : RegInfo} (lo : 0x80000 ≤ o) (h : amxRegs o = some r) : Fits r := by
  unfold amxRegs at h
  dsimp only at h
  rw [if_neg (by omega), if_neg (by omega), if_neg (by omega), if_neg (by omega), if_neg (by omega), if_neg (by omega)] at h
  split_ifs at h
  · cases h; simp [Fits, aperBase, aperEnable]
  · cases h; simp [Fits, owValid, owSize, owDev, owIwin, owOffset]
  · cases h; simp [Fits, iwValid, iwSize, iwKey, iwPerm, iwAny, iwSrc]
  · cases h; simp [Fits, iwBase]
  · exact shdRegs_fits h

theorem fits_of_groupReg {gr n o : Nat} {r : RegInfo} (hg : groupOk gr n = true) (lo : (groupRange gr n).1 ≤ o)
    (hi : o < (groupRange gr n).2) (hr : regAt o = some r) : Fits r := by
  simp only [groupOk, Bool.or_eq_true, decide_eq_true_eq] at hg
  obtain ⟨rfl, hn⟩ | ⟨rfl | rfl, rfl⟩ := hg <;> simp [groupRange] at lo hi
  · rw [regAt_tun (by omega)] at hr
    exact tunRegs_fits hr
  · rw [regAt_cru (by omega)] at hr
    exact cruRegs_home_fits (o := o - 0x170000) (by omega) (by omega) hr
  · rw [regAt_amx (by omega) (by omega)] at hr
    exact amxRegs_window_fits (o := o - 0x300000) (by omega) hr

/-- The reset value of a field of a group fits it. -/
theorem rst_mod_of_inGroup {gr n : Nat} {f : FRef} (hg : groupOk gr n = true) (hi : inGroup gr n f.key = true)
    (hf : fieldOfKey f.key = some f) : f.rst % 2 ^ f.len = f.rst := by
  obtain ⟨r, hr, hm⟩ := mem_fields_of_fieldOfKey hf
  simp only [inGroup, Bool.and_eq_true, decide_eq_true_eq] at hi
  have aligned : (groupRange gr n).1 % 4 = 0 := by unfold groupRange; split_ifs <;> simp; omega
  exact Nat.mod_eq_of_lt (fits_of_groupReg hg (by omega) (by omega) hr f hm)

/-! ## Status bits lie outside the groups and their SHD_STAT -/

/-- The places of the WIGN bits (R578): the heads of the blocks and of their instances. -/
def AtHead (k : Nat) : Prop :=
  (k % 0x8000 = 0 ∧ k ≤ 8 * 0x170000) ∨ (8 * 0x180000 ≤ k ∧ k < 8 * 0x350000) ∨ k = 8 * 0x400000

/-- Each WIGN bit is bit 0 of a register there. -/
theorem wignOf_atHead {o : Nat} {w : FRef} (h : wignOf o = some w) : ∃ off, w = ⟨off, 0, 1, .w1c, 0⟩ ∧ AtHead (8 * off) := by
  unfold wignOf at h
  rcases eq_or_of_ite_some h with ⟨hb, rfl⟩ | h
  · exact ⟨_, rfl, .inl (by decide)⟩
  rcases eq_or_of_ite_some h with ⟨hb, rfl⟩ | h
  · exact ⟨_, rfl, .inl (by decide)⟩
  rcases eq_or_of_ite_some h with ⟨hb, rfl⟩ | h
  · exact ⟨_, rfl, .inl (by decide)⟩
  rcases eq_or_of_ite_some h with ⟨hb, rfl⟩ | h
  · exact ⟨_, rfl, .inl (by omega)⟩
  rcases eq_or_of_ite_some h with ⟨hb, rfl⟩ | h
  · exact ⟨_, rfl, .inl (by omega)⟩
  rcases eq_or_of_ite_some h with ⟨hb, rfl⟩ | h
  · exact ⟨_, rfl, .inl (by decide)⟩
  rcases eq_or_of_ite_some h with ⟨hb, rfl⟩ | h
  · exact ⟨_, rfl, .inr (.inl (by decide))⟩
  rcases eq_or_of_ite_some h with ⟨hb, rfl⟩ | h
  · exact ⟨_, rfl, .inr (.inl (by decide))⟩
  rcases eq_or_of_ite_some h with ⟨hb, rfl⟩ | h
  · exact ⟨_, rfl, .inr (.inl (by omega))⟩
  rcases eq_or_of_ite_some h with ⟨hb, rfl⟩ | h
  · exact ⟨_, rfl, .inr (.inl (by decide))⟩
  rcases eq_or_of_ite_some h with ⟨hb, rfl⟩ | h
  · exact ⟨_, rfl, .inr (.inr (by decide))⟩
  · cases h

/-- A WIGN bit that is set reads 1, whichever offset of its block has led to it. -/
theorem isOn_setOn_wign {o o' : Nat} {v w : FRef} (hv : wignOf o = some v) (hw : wignOf o' = some w) (e : w.key = v.key) (s : State) :
    isOn (setOn s v) w = true := by
  obtain ⟨a, rfl, -⟩ := wignOf_atHead hv
  obtain ⟨b, rfl, -⟩ := wignOf_atHead hw
  simp only [FRef.key] at e
  obtain rfl : b = a := by omega
  rw [isOn, setOn_eq, getF_setF_self]
  rfl

/-- What a group's own fields are told from: the WIGN bits and the fields of SHD_STAT. -/
theorem wignOf_outside {gr n o : Nat} {w : FRef} (hg : groupOk gr n = true) (h : wignOf o = some w) :
    inGroup gr n w.key = false ∧ w.key ≠ (shdGen gr n).key ∧ w.key ≠ (shdDirty gr n).key ∧ w.key ≠ (shdPending gr n).key := by
  obtain ⟨off, rfl, head⟩ := wignOf_atHead h
  unfold AtHead at head
  simp only [groupOk, Bool.or_eq_true, decide_eq_true_eq] at hg
  obtain ⟨rfl, hn⟩ | ⟨rfl | rfl, rfl⟩ := hg <;>
    simp [inGroup, groupRange, shdGen, shdDirty, shdPending, shdBase, FRef.key] <;> omega
/-- The fields of SHD_STAT lie outside the group. -/
theorem shdStat_outside {gr n : Nat} (hg : groupOk gr n = true) :
    inGroup gr n (shdGen gr n).key = false ∧ inGroup gr n (shdDirty gr n).key = false ∧ inGroup gr n (shdPending gr n).key = false := by
  simp only [groupOk, Bool.or_eq_true, decide_eq_true_eq] at hg
  obtain ⟨rfl, hn⟩ | ⟨rfl | rfl, rfl⟩ := hg
  · simp [inGroup, groupRange, shdGen, shdDirty, shdPending, shdBase, FRef.key]; omega
  · decide
  · decide

/-! ## One field of a commit -/

/-- A field of a group, as its key names it. -/
def GroupField (gr n : Nat) (f : FRef) : Prop := inGroup gr n f.key = true ∧ fieldOfKey f.key = some f

theorem GroupField.eq_of_key {gr n : Nat} {f h : FRef} (hf : GroupField gr n f) (hh : GroupField gr n h) (e : h.key = f.key) : h = f :=
  Option.some.inj (hh.2.symm.trans (e ▸ hf.2))

theorem groupField_of_mem {gr n : Nat} {s : State} {f : FRef} (h : f ∈ groupFields gr n s) : GroupField gr n f := by
  obtain ⟨k, hk, hf⟩ := List.mem_filterMap.mp h
  obtain rfl := key_of_fieldOfKey hf
  exact ⟨(List.mem_filter.mp hk).2, hf⟩

/-- The value that a commit gives a live field (R10, R328). -/
def committed (s : State) (f : FRef) : Nat :=
  if f.acc = .hwu ∧ meets s f = true then getF s f else getShadow s f % 2 ^ f.len

theorem meets_congr {s t : State} {f : FRef} (ht : tget 0 t.touched f.key = tget 0 s.touched f.key) (hf : t.free = s.free) :
    meets t f = meets s f := by simp only [meets, ht, hf]

/-- A hardware update of a field leaves the notes of the others. -/
theorem tget_touched_setF_ne (s : State) {f : FRef} {k : Nat} (v : Nat) (h : k ≠ f.key) :
    tget 0 (setF s f v).touched k = tget 0 s.touched k := by
  show tget 0 (noteUpdate s f v) k = _
  unfold noteUpdate
  dsimp only
  split
  · rfl
  · exact tget_tset_ne _ h _

/-- Everything that the commit of one field can do: it takes its shadow's value, or hardware wins, with WIGN where the block has one. -/
theorem commitField_cases (s : State) (f : FRef) :
    (¬(f.acc = .hwu ∧ meets s f = true) ∧ commitField s f = putF s f (getShadow s f)) ∨
    ((f.acc = .hwu ∧ meets s f = true) ∧ ((wignOf f.off = none ∧ commitField s f = s) ∨
      ∃ w, wignOf f.off = some w ∧ commitField s f = setOn s w)) := by
  unfold commitField
  split
  next won =>
    refine .inr ⟨won, ?_⟩
    cases wignOf f.off with
    | none => exact .inl ⟨rfl, rfl⟩
    | some w => exact .inr ⟨w, rfl, rfl⟩
  next free => exact .inl ⟨free, rfl⟩

theorem onlyRegs_commitField (s : State) (f : FRef) : OnlyRegs s (commitField s f) := by
  obtain ⟨-, e⟩ | ⟨-, ⟨-, e⟩ | ⟨w, -, e⟩⟩ := commitField_cases s f <;> rw [e]
  · exact onlyRegs_putF _ _ _
  · exact .refl s
  · exact onlyRegs_setF _ _ _

section
variable {gr n : Nat} {f h : FRef}

/-- A field beside the group and its WIGN bits. -/
theorem getF_commitField_outside {g : FRef} (s : State) (hf : GroupField gr n f) (out : inGroup gr n g.key = false)
    (hw : ∀ h w : FRef, inGroup gr n h.key = true → wignOf h.off = some w → g.key ≠ w.key) : getF (commitField s f) g = getF s g := by
  obtain ⟨-, e⟩ | ⟨-, ⟨-, e⟩ | ⟨v, hv, e⟩⟩ := commitField_cases s f <;> rw [e]
  · exact getF_putF_ne _ _ (fun e => by rw [e, hf.1] at out; cases out)
  · exact getF_setF_ne _ _ (hw f v hf.1 hv)

variable (hg : groupOk gr n = true) (s : State)
include hg

theorem wignOf_ne_groupField {o : Nat} {w : FRef} (hw : wignOf o = some w) (hh : GroupField gr n h) : h.key ≠ w.key := by
  intro e
  have out := (wignOf_outside hg hw).1
  rw [← e, hh.1] at out
  cases out

theorem meets_commitField (hh : GroupField gr n h) : meets (commitField s f) h = meets s h := by
  obtain ⟨-, e⟩ | ⟨-, ⟨-, e⟩ | ⟨w, hw, e⟩⟩ := commitField_cases s f <;> rw [e]
  · exact meets_congr rfl rfl
  · exact meets_congr (tget_touched_setF_ne s 1 (wignOf_ne_groupField hg hw hh)) rfl

theorem getF_commitField_ne (hh : GroupField gr n h) (ne : h.key ≠ f.key) : getF (commitField s f) h = getF s h := by
  obtain ⟨-, e⟩ | ⟨-, ⟨-, e⟩ | ⟨w, hw, e⟩⟩ := commitField_cases s f <;> rw [e]
  · exact getF_putF_ne _ _ ne
  · exact getF_setF_ne _ _ (wignOf_ne_groupField hg hw hh)

theorem getF_commitField (hf : GroupField gr n f) : getF (commitField s f) f = committed s f := by
  obtain ⟨free, e⟩ | ⟨won, ⟨-, e⟩ | ⟨w, hw, e⟩⟩ := commitField_cases s f <;> rw [e, committed]
  · rw [if_neg free, getF_putF_self]
  · rw [if_pos won]
  · rw [if_pos won]
    exact getF_setF_ne _ _ (wignOf_ne_groupField hg hw hf)

theorem committed_commitField (hf : GroupField gr n f) (hh : GroupField gr n h) : committed (commitField s f) h = committed s h := by
  have met := meets_commitField hg (f := f) s hh
  have shadow : getShadow (commitField s f) h = getShadow s h := by
    obtain ⟨r, w, e⟩ := onlyRegs_commitField s f
    rw [e]; rfl
  unfold committed
  rw [met, shadow]
  by_cases e : h.key = f.key
  · obtain rfl := hf.eq_of_key hh e
    rw [getF_commitField hg s hf, committed]
    split <;> rfl
  · rw [getF_commitField_ne hg s hh e]

theorem isOn_commitField {o : Nat} {w : FRef} (hw : wignOf o = some w) (hf : GroupField gr n f) (on : isOn s w = true) :
    isOn (commitField s f) w = true := by
  have ne := (wignOf_ne_groupField hg hw hf).symm
  obtain ⟨-, e⟩ | ⟨-, ⟨-, e⟩ | ⟨v, hv, e⟩⟩ := commitField_cases s f <;> rw [e]
  · rw [isOn, getF_putF_ne _ _ ne]; exact on
  · exact on
  · by_cases same : w.key = v.key
    · exact isOn_setOn_wign hv hw same s
    · rw [isOn, setOn_eq, getF_setF_ne _ _ same]; exact on

end

/-! ## The whole set -/

section
variable {gr n : Nat} (hg : groupOk gr n = true) {fs : List FRef} (hfs : ∀ f ∈ fs, GroupField gr n f)
include hg hfs

/-- A commit of a list of fields gives each its value; the fields of the group beside the list keep theirs. -/
theorem getF_foldl_commitField {h : FRef} (hh : GroupField gr n h) (s : State) :
    getF (fs.foldl commitField s) h = if h ∈ fs then committed s h else getF s h := by
  induction fs generalizing s with
  | nil => rfl
  | cons f fs ih =>
    have hf : GroupField gr n f := hfs f List.mem_cons_self
    rw [List.foldl_cons, ih (fun x hx => hfs x (List.mem_cons_of_mem _ hx))]
    by_cases e : h = f
    · subst e
      rw [committed_commitField hg s hf hf, getF_commitField hg s hf]
      simp
    · rw [committed_commitField hg s hf hh, getF_commitField_ne hg s hh (fun k => e (hf.eq_of_key hh k))]
      simp [e]

/-- Where hardware wins, WIGN is set. -/
theorem isOn_wign_foldl_commitField {f w : FRef} (hf : f ∈ fs) (hw : wignOf f.off = some w) (s : State) (hwu : f.acc = .hwu)
    (met : meets s f = true) : isOn (fs.foldl commitField s) w = true := by
  induction fs generalizing s with
  | nil => cases hf
  | cons g fs ih =>
    have hg' : GroupField gr n g := hfs g List.mem_cons_self
    have rest : ∀ x ∈ fs, GroupField gr n x := fun x hx => hfs x (List.mem_cons_of_mem _ hx)
    rw [List.foldl_cons]
    rcases List.mem_cons.mp hf with rfl | hf
    · have on : isOn (commitField s f) w = true := by
        rw [commitField, if_pos ⟨hwu, met⟩, hw]
        exact isOn_setOn_wign hw hw rfl s
      exact List.foldlRecOn fs commitField (motive := fun t => isOn t w = true) on (fun t ht x hx => isOn_commitField hg t hw (rest x hx) ht)
    · exact ih rest hf _ ((meets_commitField hg s (hfs f (List.mem_cons_of_mem _ hf))).trans met)
end

/-! ## Fields that differ nowhere from their reset values -/

theorem tget_eq_default {α : Type} {d : α} {t : Tbl α} {k : Nat} (h : k ∉ t.map Prod.fst) : tget d t k = d := by
  induction t with
  | nil => rfl
  | cons e t ih =>
    obtain ⟨a, v⟩ := e
    simp only [List.map_cons, List.mem_cons, not_or] at h
    rw [tget, if_neg (Ne.symm h.1), ih h.2]

/-- A field of a group that is not listed has its reset value, live and in the shadow. -/
theorem rst_of_not_mem_groupFields {gr n : Nat} {s : State} {f : FRef} (hf : GroupField gr n f) (h : f ∉ groupFields gr n s) :
    getF s f = f.rst ∧ getShadow s f = f.rst := by
  have absent : f.key ∉ s.regs.map (fun e => e.1) ++ s.shadow.map (fun e => e.1) := fun hk =>
    h (List.mem_filterMap.mpr ⟨f.key, List.mem_filter.mpr ⟨hk, hf.1⟩, hf.2⟩)
  simp only [List.mem_append, not_or] at absent
  refine ⟨tget_eq_default absent.1, ?_⟩
  rw [getShadow, tget_eq_default absent.2]

/-! ## COMMIT -/

/-- The commit of a group: its fields, then GEN, DIRTY and PENDING. -/
theorem getF_commitNow {gr n : Nat} (s : State) {g : FRef} (h1 : g.key ≠ (shdGen gr n).key) (h2 : g.key ≠ (shdDirty gr n).key)
    (h3 : g.key ≠ (shdPending gr n).key) : getF (commitNow gr n s) g = getF ((groupFields gr n s).foldl commitField s) g := by
  simp only [commitNow, setOff_eq, incF_eq]
  rw [getF_setF_ne _ _ h3, getF_setF_ne _ _ h2, getF_setF_ne _ _ h1]

theorem onlyRegs_commitNow (gr n : Nat) (s : State) : OnlyRegs s (commitNow gr n s) :=
  (OnlyRegs.foldl onlyRegs_commitField _ s).trans <| (onlyRegs_setF _ _ _).trans <| (onlyRegs_setF _ _ _).trans (onlyRegs_setF _ _ _)

/-- What the statement of a commit says of the state after it. -/
def CommitDone (gr n : Nat) (s t : State) : Prop :=
  (∀ f : FRef, inGroup gr n f.key = true → fieldOfKey f.key = some f →
    getF t f = if f.acc = .hwu ∧ meets s f = true then getF s f else getShadow s f % 2 ^ f.len) ∧
  (∀ f w : FRef, inGroup gr n f.key = true → fieldOfKey f.key = some f → f.acc = .hwu → meets s f = true → f ∈ groupFields gr n s →
    wignOf f.off = some w → isOn t w = true) ∧
  (∀ f : FRef, inGroup gr n f.key = false → f.key ≠ (shdGen gr n).key → f.key ≠ (shdDirty gr n).key →
    f.key ≠ (shdPending gr n).key → (∀ h w : FRef, inGroup gr n h.key = true → wignOf h.off = some w → f.key ≠ w.key) →
    getF t f = getF s f) ∧
  t.shadow = s.shadow ∧ getF t (shdGen gr n) = (getF s (shdGen gr n) + 1) % 2 ^ 12 ∧
  isOn t (shdDirty gr n) = false ∧ isOn t (shdPending gr n) = false ∧ t.mm = s.mm

/-- The keys of SHD_STAT's fields differ. -/
theorem shdStat_keys (gr n : Nat) : (shdGen gr n).key ≠ (shdDirty gr n).key ∧ (shdGen gr n).key ≠ (shdPending gr n).key ∧
    (shdDirty gr n).key ≠ (shdPending gr n).key := by
  simp only [FRef.key, shdGen, shdDirty, shdPending]
  omega

theorem ne_of_inGroup {gr n a b : Nat} (ha : inGroup gr n a = true) (hb : inGroup gr n b = false) : a ≠ b := by
  rintro rfl
  rw [ha] at hb
  cases hb

theorem commitNow_done {gr n : Nat} (hg : groupOk gr n = true) (s : State) : CommitDone gr n s (commitNow gr n s) := by
  have hfs : ∀ f ∈ groupFields gr n s, GroupField gr n f := fun f h => groupField_of_mem h
  obtain ⟨outG, outD, outP⟩ := shdStat_outside hg
  obtain ⟨gd, gp, dp⟩ := shdStat_keys gr n
  obtain ⟨r, tch, shape⟩ := onlyRegs_commitNow gr n s
  refine ⟨fun f hi hf => ?_, fun f w hi hf hwu met hm hw => ?_, fun f out h1 h2 h3 h4 => ?_, by rw [shape], ?_, ?_, ?_, by rw [shape]⟩
  · rw [getF_commitNow s (ne_of_inGroup hi outG) (ne_of_inGroup hi outD) (ne_of_inGroup hi outP), getF_foldl_commitField hg hfs ⟨hi, hf⟩]
    by_cases hm : f ∈ groupFields gr n s
    · rw [if_pos hm, committed]
    · obtain ⟨live, shadow⟩ := rst_of_not_mem_groupFields ⟨hi, hf⟩ hm
      rw [if_neg hm, live, shadow, rst_mod_of_inGroup hg hi hf, ite_self]
  · obtain ⟨-, n1, n2, n3⟩ := wignOf_outside hg hw
    rw [isOn, getF_commitNow s n1 n2 n3]
    exact isOn_wign_foldl_commitField hg hfs hm hw s hwu met
  · rw [getF_commitNow s h1 h2 h3]
    exact foldl_keeps (fun t => getF t f) commitField _ (fun t x hx => getF_commitField_outside t (hfs x hx) out h4) s
  · have kept : getF ((groupFields gr n s).foldl commitField s) (shdGen gr n) = getF s (shdGen gr n) :=
      foldl_keeps (fun t => getF t (shdGen gr n)) commitField _ (fun t x hx => getF_commitField_outside t (hfs x hx) outG
        (fun h w _ hw => (wignOf_outside hg hw).2.1.symm)) s
    simp only [commitNow, setOff_eq, incF_eq]
    rw [getF_setF_ne _ _ gp, getF_setF_ne _ _ gd, getF_setF_self, kept]
    rfl
  · simp only [isOn_eq_false, commitNow, setOff_eq, incF_eq]
    rw [getF_setF_ne _ _ dp, getF_setF_self, Nat.zero_mod]
  · simp only [isOn_eq_false, commitNow, setOff_eq, getF_setF_self, Nat.zero_mod]

/-! ## DISCARD -/

theorem getShadow_putShadow_self (s : State) (f : FRef) (v : Nat) : getShadow (putShadow s f v) f = v % 2 ^ f.len := by
  simp [getShadow, putShadow]

theorem getShadow_putShadow_ne (s : State) {f h : FRef} (v : Nat) (ne : h.key ≠ f.key) : getShadow (putShadow s f v) h = getShadow s h := by
  simp only [getShadow, putShadow, tget_tset_ne _ ne]

/-- A discard changes the shadow alone. -/
theorem shadowDrop_changes (gr n : Nat) (s : State) : ∃ x, shadowDrop gr n s = { s with shadow := x } :=
  List.foldlRecOn (groupFields gr n s) (fun s f => putShadow s f (getF s f)) (motive := fun t : State => ∃ x, t = { s with shadow := x })
    ⟨s.shadow, rfl⟩ (by rintro t ⟨x, rfl⟩ f -; exact ⟨_, rfl⟩)

/-- A discard gives the shadow of every field of the group its live value. -/
theorem getShadow_shadowDrop {gr n : Nat} (hg : groupOk gr n = true) {f : FRef} (hf : GroupField gr n f) (s : State) :
    getShadow (shadowDrop gr n s) f = getF s f % 2 ^ f.len := by
  have fold : ∀ (fs : List FRef) (t : State), (∀ x ∈ fs, GroupField gr n x) → t.regs = s.regs →
      getShadow (fs.foldl (fun s f => putShadow s f (getF s f)) t) f = if f ∈ fs then getF s f % 2 ^ f.len else getShadow t f := by
    intro fs
    induction fs with
    | nil => intro t _ _; rfl
    | cons g fs ih =>
      intro t hfs ht
      have hg' := hfs g List.mem_cons_self
      rw [List.foldl_cons, ih (putShadow t g (getF t g)) (fun x hx => hfs x (List.mem_cons_of_mem _ hx)) ht]
      by_cases e : f = g
      · subst e
        rw [getShadow_putShadow_self, getF_congr ht]
        simp
      · rw [getShadow_putShadow_ne _ _ (fun k => e (hg'.eq_of_key hf k))]
        simp [e]
  rw [shadowDrop, fold _ s (fun x hx => groupField_of_mem hx) rfl]
  by_cases hm : f ∈ groupFields gr n s
  · rw [if_pos hm]
  · obtain ⟨live, shadow⟩ := rst_of_not_mem_groupFields hf hm
    rw [if_neg hm, live, shadow, rst_mod_of_inGroup hg hf.1 hf.2]

theorem shadow_shadowDrop_outside {gr n key : Nat} (h : inGroup gr n key = false) (s : State) :
    tget 0 (shadowDrop gr n s).shadow key = tget 0 s.shadow key :=
  foldl_keeps (fun t => tget 0 t.shadow key) (fun s f => putShadow s f (getF s f)) _
    (fun t f hx => by simp only [putShadow, tget_tset_ne t.shadow (ne_of_inGroup (groupField_of_mem hx).1 h).symm]) s

/-! ## SHD_CTL -/

section
variable {gr n value : Nat} {s : State}

theorem shdCtlWrite_both (hc : value.testBit 12 = true) (hd : value.testBit 13 = true) : shdCtlWrite gr n value s = setOn s (shdFailed gr n) := by
  simp [shdCtlWrite, bit_eq_testBit, hc, hd]

theorem shdCtlWrite_stale (hc : value.testBit 12 = true) (hv : value % 4096 ≠ getF s (shdGen gr n)) :
    shdCtlWrite gr n value s = setOn s (shdFailed gr n) := by
  unfold shdCtlWrite
  simp only [bit_eq_testBit, hc, Bool.true_and, if_true]
  rw [if_pos hv, ite_self]

theorem shdCtlWrite_commit (hc : value.testBit 12 = true) (hd : value.testBit 13 = false) (hv : value % 4096 = getF s (shdGen gr n)) :
    shdCtlWrite gr n value s = if groupStopped s gr n then setOn s (shdPending gr n) else commitNow gr n s := by
  unfold shdCtlWrite
  simp only [bit_eq_testBit, hc, hd, Bool.and_false, Bool.false_eq_true, if_false, if_true]
  rw [if_neg (not_not.mpr hv)]

theorem shdCtlWrite_discard (hc : value.testBit 12 = false) (hd : value.testBit 13 = true) :
    shdCtlWrite gr n value s = setOff (shadowDrop gr n s) (shdDirty gr n) := by
  simp [shdCtlWrite, bit_eq_testBit, hc, hd]

theorem exec_commit (hp : s.powered = true) (hg : groupOk gr n = true) (hc : value.testBit 12 = true)
    (turn : gr = 2 → InTurn (.commit gr n value) s) : exec (.commit gr n value) s = .next (shdCtlWrite gr n value s) := by
  show execCommit gr n value s = _
  rw [execCommit, whenOn_powered hp, groupOrder_inTurn turn, bit_eq_testBit, hg, hc]
  rfl

theorem exec_discard (hp : s.powered = true) (hg : groupOk gr n = true) (hd : value.testBit 13 = true)
    (turn : gr = 2 → InTurn (.discard gr n value) s) : exec (.discard gr n value) s = .next (shdCtlWrite gr n value s) := by
  show execDiscard gr n value s = _
  rw [execDiscard, whenOn_powered hp, groupOrder_inTurn turn, bit_eq_testBit, hg, hd]
  rfl

theorem exec_pendingCommitApply (hp : s.powered = true) (hn : n < 16) (on : isOn s (shdPending 0 n) = true)
    (runs : groupStopped s 0 n = false ∨ tget 0 s.pmc.moving n = 3) : exec (.pendingCommitApply n) s = .next (commitNow 0 n s) := by
  show execPendingCommitApply n s = _
  rw [execPendingCommitApply, whenOn_powered hp, applyPending, on]
  rcases runs with h | h <;> simp [hn, h]
end

/-- Settles O43: each field of a commit by the one inversion of `commitField`, the set by induction over the fields listed. -/
theorem shadowGroupsCommit : Obligations.ShadowGroupsCommit := by
  unfold Obligations.ShadowGroupsCommit
  refine ⟨?commit, ?refused, ?discard⟩
  case commit =>
    intro gr n value i s hp hg how
    refine ⟨commitNow gr n s, ?_, commitNow_done hg s⟩
    obtain ⟨rfl, hc, hd, hv, runs, turn⟩ | ⟨rfl, rfl, on, runs⟩ := how
    · rw [exec_commit hp hg hc turn, shdCtlWrite_commit hc hd hv, runs]
      rfl
    · have hn : n < 16 := by simpa [groupOk] using hg
      exact exec_pendingCommitApply hp hn on runs
  case refused =>
    intro gr n value s hp hg hc turn
    rw [exec_commit hp hg hc turn]
    refine ⟨fun bad => ?_, fun hd hv stopped => ?_⟩
    · rcases bad with hd | hv
      · rw [shdCtlWrite_both hc hd]
      · rw [shdCtlWrite_stale hc hv]
    · rw [shdCtlWrite_commit hc hd hv, stopped]
      rfl
  case discard =>
    intro gr n value s hp hg hd turn
    rw [exec_discard hp hg hd turn]
    refine ⟨fun hc => by rw [shdCtlWrite_both hc hd], fun hc => ⟨_, (exec_discard hp hg hd turn).trans (by rw [shdCtlWrite_discard hc hd]), ?_⟩⟩
    obtain ⟨x, e⟩ := shadowDrop_changes gr n s
    refine ⟨fun f hi hf => getShadow_shadowDrop hg ⟨hi, hf⟩ s, fun key out => shadow_shadowDrop_outside out s, ?_, fun f ne => ?_, ?_⟩
    · simp [isOn_eq_false]
    · rw [setOff_eq, getF_setF_ne _ _ ne, e]; rfl
    · rw [e]; rfl
end Sys2Proof.Machine
end

