-- ==== Sys2Proof/Proofs/Notice.lean ====
section
/-!
SUPPORT. What an access to a line does beside the access itself: other agents lose the line, pours that have read it abort, counters
count, traces record and free values are used up.  None of it reaches the bytes of memory, the keys or any other register.
-/
namespace Sys2Proof.Machine

/-! ## The registers that such a notice changes -/

/-- The fields that the notice of an access changes: the pour token's (R333), the counters' (R551) and the dropped trace events' (R562). -/
def Noted (f : FRef) : Prop :=
  f = tokAgent ∨ f = tokHeld ∨ f = tokWait ∨ (∃ u, f = ringDrops u) ∨ ∃ u i, f = cntCount u i ∨ f = cntOvf u i

/-- A field that shares its place with none of those. -/
def Unnoted (f : FRef) : Prop := ∀ h, Noted h → f.key ≠ h.key

theorem cntOff_ge (u i : Nat) : 0x410000 ≤ cntOff u i := by unfold cntOff; split <;> [omega; split <;> omega]

/-- Registers below the trace rings, but for the pour token's. -/
theorem unnoted_of_range {f : FRef} (h : f.key < 0xB80140 ∨ (0xB80160 ≤ f.key ∧ f.key < 0x2008080)) : Unnoted f := by
  rintro g (rfl | rfl | rfl | ⟨u, rfl⟩ | ⟨u, i, rfl | rfl⟩) <;>
    [simp only [FRef.key, tokAgent]; simp only [FRef.key, tokHeld]; simp only [FRef.key, tokWait]; simp only [FRef.key, ringDrops];
     simp only [FRef.key, cntCount]; simp only [FRef.key, cntOvf]] <;>
    [skip; skip; skip; skip; have := cntOff_ge u i; have := cntOff_ge u i] <;> simp only [FRef.key] at h <;> omega

theorem unnoted_ringProd {u : Nat} (hu : u < 17) : Unnoted (ringProd u) := by
  rintro g (rfl | rfl | rfl | ⟨v, rfl⟩ | ⟨v, i, rfl | rfl⟩) <;>
    [simp only [FRef.key, tokAgent, ringProd]; simp only [FRef.key, tokHeld, ringProd]; simp only [FRef.key, tokWait, ringProd];
     simp only [FRef.key, ringDrops, ringProd]; simp only [FRef.key, cntCount, ringProd]; simp only [FRef.key, cntOvf, ringProd]] <;>
    [skip; skip; skip; skip; have := cntOff_ge v i; have := cntOff_ge v i] <;> omega

/-! ## The relation -/

/-- The state without what the notice of an access may change. -/
def kept (s : State) : State :=
  { s with
    free := 0, regs := [], touched := [], trc := {}, tokens := [], cores := [], xl := {}
    mm := { s.mm with lines := [], tun := [], cru := [], dir := [], bridge := [], sel := [], txn := [] } }

/-- `t` is `s` after the notice of an access: the rest is kept, and trace FIFOs only grow. -/
structure Noticed (s t : State) : Prop where
  rest : kept t = kept s
  reg : ∀ f, Unnoted f → getF t f = getF s f
  fifo : ∀ u, (traceUnit s u).fifo <+: (traceUnit t u).fifo

namespace Noticed

theorem refl (s : State) : Noticed s s := ⟨rfl, fun _ _ => rfl, fun _ => List.prefix_rfl⟩

theorem trans {s t u : State} (h : Noticed s t) (h' : Noticed t u) : Noticed s u :=
  ⟨h'.rest.trans h.rest, fun f hf => (h'.reg f hf).trans (h.reg f hf), fun x => (h.fifo x).trans (h'.fifo x)⟩

/-- A change that reaches neither registers nor traces. -/
theorem of_kept {s t : State} (h : kept t = kept s) (hr : t.regs = s.regs) (ht : t.trc = s.trc) : Noticed s t :=
  ⟨h, fun f _ => getF_congr hr f, fun u => by simp [traceUnit, ht]⟩

theorem foldl {β : Type} {f : State → β → State} (h : ∀ s x, Noticed s (f s x)) (xs : List β) (s : State) : Noticed s (xs.foldl f s) :=
  List.foldlRecOn xs f (motive := Noticed s) (refl s) (fun t ht x _ => ht.trans (h t x))

variable {s t : State} (h : Noticed s t)
include h

theorem mem : t.mm.mem = s.mm.mem := congrArg (fun x => x.mm.mem) h.rest
theorem host : t.mm.host = s.mm.host := congrArg (fun x => x.mm.host) h.rest
theorem key : t.mm.key = s.mm.key := congrArg (fun x => x.mm.key) h.rest
theorem poison : t.mm.poison = s.mm.poison := congrArg (fun x => x.mm.poison) h.rest
theorem sec : t.sec = s.sec := congrArg (fun x => x.sec) h.rest
theorem sch : t.sch = s.sch := congrArg (fun x => x.sch) h.rest
theorem amx : t.amx = s.amx := congrArg (fun x => x.amx) h.rest

end Noticed

/-! ## Registers, counters and traces -/

theorem noticed_setF {f : FRef} (hf : Noted f) (s : State) (v : Nat) : Noticed s (setF s f v) :=
  ⟨rfl, fun _ hg => getF_setF_ne s v (hg f hf), fun _ => List.prefix_rfl⟩

theorem noticed_raiseTrigger (c : Nat) (s : State) : Noticed s (raiseTrigger c s) := by
  unfold raiseTrigger
  split
  · exact ⟨rfl, fun _ _ => rfl, fun _ => List.prefix_rfl⟩
  · exact .refl s

theorem noticed_countOne (u i n : Nat) (s : State) : Noticed s (countOne u i n s) := by
  have hc : Noted (cntCount u i) := .inr (.inr (.inr (.inr ⟨u, i, .inl rfl⟩)))
  have ho : Noted (cntOvf u i) := .inr (.inr (.inr (.inr ⟨u, i, .inr rfl⟩)))
  unfold countOne
  dsimp only
  split
  · exact noticed_setF hc _ _
  · have h := (noticed_setF hc s (getF s (cntCount u i) + n)).trans (noticed_setF ho _ 1)
    split
    · exact h.trans (noticed_raiseTrigger _ _)
    · exact h

theorem noticed_countUnit (u c i n : Nat) (s : State) : Noticed s (countUnit u c i n s) := by
  unfold countUnit
  split
  · exact .refl s
  · refine .foldl (fun s x => ?_) _ s
    split
    · exact noticed_countOne _ _ _ _
    · exact .refl s

theorem noticed_countCl (cl c n : Nat) (s : State) : Noticed s (countCl cl c n s) := noticed_countUnit _ _ _ _ _
theorem noticed_countBase (c i n : Nat) (s : State) : Noticed s (countBase c i n s) := noticed_countUnit _ _ _ _ _
theorem noticed_countCore (g c n : Nat) (s : State) : Noticed s (countCore g c n s) :=
  (noticed_countUnit _ _ _ _ _).trans (noticed_countUnit _ _ _ _ _)

/-- A trace unit whose FIFO only grows. -/
theorem noticed_setTraceUnit {u : Nat} {x : TraceUnit} {s : State} (h : (traceUnit s u).fifo <+: x.fifo) : Noticed s (setTraceUnit s u x) := by
  refine ⟨rfl, fun _ _ => rfl, fun v => ?_⟩
  rw [traceUnit_setTraceUnit]
  split
  next e => exact e ▸ h
  next => exact List.prefix_rfl

theorem noticed_tracePush (u : Nat) (b : Bool) (r : TraceRec) (s : State) : Noticed s (tracePush u b r s) := by
  have hd : Noted (ringDrops u) := .inr (.inr (.inr (.inl ⟨u, rfl⟩)))
  unfold tracePush
  by_cases room : (traceUnit s u).fifo.length < (if b then 256 else 255)
  · simp only [room, if_true]
    exact noticed_setTraceUnit (x := { traceUnit s u with fifo := (traceUnit s u).fifo ++ [r] }) (List.prefix_append _ _)
  · simp only [room, if_false]
    have full := (noticed_setTraceUnit (x := { traceUnit s u with
      drops := (traceUnit s u).drops + 1
      dropTs := if (traceUnit s u).drops = 0 then r.ts else (traceUnit s u).dropTs
      dropFret := if (traceUnit s u).drops = 0 then r.fret else (traceUnit s u).dropFret }) List.prefix_rfl).trans
        (noticed_setF hd _ (min (getF s (ringDrops u) + 1) (2 ^ 16 - 1)))
    split
    · exact full.trans (noticed_countCl u 0x12 1 _)
    · exact full

theorem noticed_traceEvent (u typ ag : Nat) (b : Bool) (l o a : Nat) (s : State) : Noticed s (traceEvent u typ ag b l o a s) := by
  unfold traceEvent
  split
  · exact noticed_tracePush _ _ _ _
  · exact .refl s

/-! ## Pours that abort (R312, R319) -/

theorem noticed_showWait (s : State) : Noticed s (showWait s) := noticed_setF (.inr (.inr (.inl rfl))) _ _

/-- The list of the agents that hold or want the token. -/
theorem noticed_tokens (s : State) (l : List (Nat × Nat)) : Noticed s { s with tokens := l } := .of_kept rfl rfl rfl

theorem noticed_dropToken (g : Nat) (s : State) : Noticed s (dropToken g s) := by
  have given : Noticed s (setOff (setOff s tokHeld) tokAgent) := (noticed_setF (.inr (.inl rfl)) _ _).trans (noticed_setF (.inl rfl) _ _)
  unfold dropToken
  dsimp only
  split
  · exact given.trans ((noticed_tokens _ _).trans (noticed_showWait _))
  · exact (noticed_tokens _ _).trans (noticed_showWait _)

theorem noticed_unlockAll (g : Nat) (s : State) : Noticed s (unlockAll g s) := .of_kept rfl rfl rfl

theorem noticed_setCore (s : State) (g : Nat) (c : Core) : Noticed s (setCore s g c) := .of_kept rfl rfl rfl

theorem noticed_setCourse (s : State) (g i : Nat) (c : Course) : Noticed s (setCourse s g i c) := noticed_setCore _ _ _

theorem noticed_leaveMiss (g slot : Nat) (s : State) : Noticed s (leaveMiss g slot s) := by
  unfold leaveMiss
  split
  · exact noticed_setCore _ _ _
  · exact .refl s

theorem noticed_forgetWaits (w : Waiter) (s : State) : Noticed s (forgetWaits w s) := by
  unfold forgetWaits
  dsimp only
  split
  · exact (noticed_leaveMiss _ _ _).trans (.of_kept rfl rfl rfl)
  · exact .of_kept rfl rfl rfl

theorem noticed_tracePourAbort (g slot reason line : Nat) (s : State) : Noticed s (tracePourAbort g slot reason line s) :=
  (noticed_countCore _ _ _ _).trans (noticed_traceEvent _ _ _ _ _ _ _ _)

theorem noticed_abortPourAt (g slot reason line : Nat) (s : State) : Noticed s (abortPourAt g slot reason line s) := by
  unfold abortPourAt
  dsimp only
  split
  · exact .refl s
  · exact (noticed_dropToken _ _).trans <| (noticed_unlockAll _ _).trans <| (noticed_forgetWaits _ _).trans <|
      (noticed_setCore _ _ _).trans <| (noticed_setCourse _ _ _ _).trans <| noticed_tracePourAbort _ _ _ _ _

theorem noticed_conflictIf (p : Nat → Nat → Bool) (line : Nat) (s : State) : Noticed s (conflictIf p line s) := by
  unfold conflictIf
  refine .foldl (fun s e => ?_) _ s
  split
  · split
    · exact noticed_abortPourAt _ _ _ _ _
    · exact .refl s
  · exact .refl s

theorem noticed_conflict (line : Nat) (who : Option (Nat × Nat)) (s : State) : Noticed s (conflict line who s) := noticed_conflictIf _ _ _

theorem noticed_breakRsv (line : Nat) (who : Option (Nat × Nat)) (s : State) : Noticed s (breakRsv line who s) := .of_kept rfl rfl rfl

theorem noticed_noteWrite (line : Nat) (who : Option (Nat × Nat)) (s : State) : Noticed s (noteWrite line who s) :=
  (noticed_breakRsv _ _ _).trans (noticed_conflict _ _ _)

/-! ## Holders that lose a line (R272, R273) -/

theorem noticed_setLState (s : State) (c line : Nat) (x : LState) : Noticed s (setLState s c line x) := .of_kept rfl rfl rfl
theorem noticed_setDir (s : State) (line : Nat) (d : DirEnt) : Noticed s (setDir s line d) := .of_kept rfl rfl rfl
theorem noticed_tunDrop (cl line : Nat) (s : State) : Noticed s (tunDrop cl line s) := .of_kept rfl rfl rfl
/-- What the crucible slices hold. -/
theorem noticed_cru (s : State) (c : Tbl (Tbl WayEnt)) : Noticed s { s with mm := { s.mm with cru := c } } := .of_kept rfl rfl rfl
theorem noticed_cruDrop (loc : Nat) (s : State) : Noticed s (cruDrop loc s) := noticed_cru s _
/-- The host bridge gives lines up. -/
theorem noticed_bridge (s : State) (b : List Nat) : Noticed s { s with mm := { s.mm with bridge := b } } := .of_kept rfl rfl rfl

theorem noticed_toInvalid (b : Bool) (line c : Nat) (s : State) : Noticed s (toInvalid b line c s) := by
  unfold toInvalid
  dsimp only
  split
  · exact (noticed_setLState _ _ _ _).trans ((noticed_tunDrop _ _ _).trans (.of_kept rfl rfl rfl))
  · exact noticed_setLState _ _ _ _

theorem noticed_noteSnoop (c : Nat) (s : State) : Noticed s (noteSnoop c s) := by
  unfold noteSnoop
  split
  · exact noticed_countCl _ _ _ _
  · exact .refl s

theorem noticed_cruTouch (loc age : Nat) (named : Option Nat) (s : State) : Noticed s (cruTouch loc age named s) := by
  unfold cruTouch
  dsimp only
  split
  · exact (noticed_cru s _).trans (noticed_countBase _ _ _ _)
  · split
    · exact noticed_countBase _ _ _ _
    · exact (noticed_countBase 0x03 (homeOf s loc) 1 s).trans (noticed_cru _ _)

theorem noticed_cruMark (loc : Nat) (s : State) : Noticed s (cruMark loc s) := by
  unfold cruMark
  dsimp only
  split
  · exact noticed_cru s _
  · exact .refl s

theorem noticed_cruInstall (loc : Nat) (s : State) : Noticed s (cruInstall loc s) := (noticed_cruTouch _ _ _ _).trans (noticed_cruMark _ _)

theorem noticed_snoopInv (own : Option Nat) (line c : Nat) (s : State) : Noticed s (snoopInv own line c s) := by
  unfold snoopInv
  split
  · exact .refl s
  · exact (noticed_noteSnoop _ _).trans ((noticed_conflictIf _ _ _).trans (noticed_toInvalid _ _ _ _))

theorem noticed_invalidateOthers (line : Nat) (keep own : Option Nat) (s : State) : Noticed s (invalidateOthers line keep own s) := by
  unfold invalidateOthers
  refine .foldl (fun s c => ?_) _ s
  split
  · exact .refl s
  · exact noticed_snoopInv _ _ _ _

theorem noticed_grantNone (line : Nat) (s : State) : Noticed s (grantNone line s) :=
  (noticed_invalidateOthers _ _ _ _).trans ((noticed_setDir _ _ _).trans (noticed_bridge _ _))

theorem noticed_flushLine (line : Nat) (s : State) : Noticed s (flushLine line s) := by
  unfold flushLine
  dsimp only
  refine .trans (.foldl (fun s c => ?_) _ s) ((noticed_setDir _ _ _).trans (noticed_bridge _ _))
  split
  · exact (noticed_snoopInv _ _ _ _).trans (noticed_cruInstall _ _)
  · exact noticed_snoopInv _ _ _ _

theorem noticed_giveUp (c line : Nat) (s : State) : Noticed s (giveUp c line s) := by
  have h := (noticed_toInvalid false line c s).trans (noticed_setDir _ line (dirLeave c (dirOf s line)))
  unfold giveUp
  dsimp only
  split
  · exact h.trans (noticed_cruInstall _ _)
  · exact h

theorem noticed_recallLine (s : State) (line : Nat) : Noticed s (recallLine s line) :=
  .trans (.foldl (fun s c => noticed_giveUp c line s) _ s) (noticed_setDir _ _ _)

/-! ## Before a write (R234, R255, R312), and atomics at a home (R281) -/

/-- The caches hold a line under another selector from now on. -/
theorem noticed_sel (s : State) (t : Tbl Nat) : Noticed s { s with mm := { s.mm with sel := t } } := .of_kept rfl rfl rfl

theorem noticed_keyTurn (dpa : Nat) (s : State) : Noticed s (keyTurn dpa s) := by
  have flushed : Noticed s (if cachedLine s (lineOf (locOf dpa)) then
      cruDrop (128 * lineOf (locOf dpa)) (breakRsv (lineOf (locOf dpa)) none (flushLine (lineOf (locOf dpa)) s)) else s) := by
    split
    · exact (noticed_flushLine _ _).trans ((noticed_breakRsv _ _ _).trans (noticed_cruDrop _ _))
    · exact .refl s
  unfold keyTurn
  cases placeOf (locOf dpa)
  case hbm | raw | view =>
    dsimp only
    split
    · exact .refl s
    · exact flushed.trans (noticed_sel _ _)
  all_goals exact .refl s

theorem noticed_flushFrame (n f : Nat) (s : State) : Noticed s (flushFrame n f s) := by
  unfold flushFrame
  refine .trans (.foldl (fun s e => ?_) _ s) (noticed_cru _ _)
  split
  · exact noticed_flushLine _ _
  · exact .refl s

theorem noticed_frameTurn (dpa n : Nat) (s : State) : Noticed s (frameTurn dpa n s) := by
  unfold frameTurn
  split
  · split
    · exact .refl s
    · exact .foldl (fun s i => noticed_flushFrame _ _ s) _ s
  · exact .refl s

theorem noticed_beforeWrite (dpa n : Nat) (who : Option (Nat × Nat)) (s : State) : Noticed s (beforeWrite dpa n who s) :=
  (noticed_keyTurn _ _).trans ((noticed_frameTurn _ _ _).trans (noticed_noteWrite _ _ _))

theorem noticed_atomHome (dpa : Nat) (far : Bool) (s : State) : Noticed s (atomHome dpa far s) := by
  have taken := (noticed_grantNone (lineOf (locOf dpa)) s).trans
    (noticed_countBase (if far then 0x07 else 0x06) (homeOf s (locOf dpa)) 1 _)
  cases far <;> unfold atomHome <;> dsimp only <;> split
  · exact .refl s
  · exact taken.trans (noticed_cruInstall _ _)
  · exact .refl s
  · exact taken.trans (noticed_cruDrop _ _)

theorem noticed_readCurrent (line : Nat) (s : State) : Noticed s (readCurrent line s) := by
  unfold readCurrent
  split
  · dsimp only
    split
    · exact (noticed_cru s _).trans (noticed_countBase _ _ _ _)
    · exact noticed_countBase _ _ _ _
  · exact .refl s

end Sys2Proof.Machine
end

