-- ==== Sys2Proof/Proofs/Stored.lean ====
section
/-!
SUPPORT. A store to HBM: the bytes that it leaves are read back under its key, and no other line changes (R233 to R235).
-/
namespace Sys2Proof.Machine

/-! ## Runs of bytes -/

theorem rdList_drop (t : Tbl Byte) (a n k : Nat) (h : k ≤ n) : (rdList t a n).drop k = rdList t (a + k) (n - k) := by
  induction n generalizing a k with
  | zero => obtain rfl : k = 0 := by omega
            rfl
  | succ n ih =>
    cases k with
    | zero => rfl
    | succ k =>
      rw [rdList, List.drop_succ_cons, ih _ _ (by omega)]
      congr 1 <;> omega

theorem rdList_take (t : Tbl Byte) (a n k : Nat) (h : k ≤ n) : (rdList t a n).take k = rdList t a k := by
  induction n generalizing a k with
  | zero => obtain rfl : k = 0 := by omega
            rfl
  | succ n ih =>
    cases k with
    | zero => rfl
    | succ k => rw [rdList, rdList, List.take_succ_cons, ih _ _ (by omega)]

/-- XTS over a line yields no more than a line. -/
theorem xtsLine_length_le (f : List Byte → List Byte → List Byte) (key : List Byte) (line : Nat) (bs : List Byte) :
    (xtsLine f key line bs).length ≤ 128 := by
  unfold xtsLine
  rw [List.length_flatMap]
  refine (List.sum_le_card_nsmul _ 16 ?_).trans (by simp)
  intro n hn
  obtain ⟨j, -, rfl⟩ := List.mem_map.mp hn
  simp only [xorBytes, List.length_zipWith, leBytes_length]
  exact Nat.min_le_right _ _

theorem readLine_length_le (s : State) (tag line : Nat) : (readLine s tag line).length ≤ 128 := by
  unfold readLine
  dsimp only
  split
  · simp [lineBytes]
  · exact xtsLine_length_le _ _ _ _

/-- Bytes of a line are read as they were written under the key of their writing. -/
theorem readAt_lineTag {s : State} {tag loc n : Nat} (ht : lineTag s (lineOf loc) = tag) (hn : loc % 128 + n ≤ 128) :
    readAt s tag loc n = rdList s.mm.mem loc n := by
  have split : 128 * (loc / 128) + loc % 128 = loc := Nat.div_add_mod loc 128
  unfold readAt readLine
  rw [if_pos ht.symm]
  simp only [lineBytes, lineOf]
  rw [rdList_drop _ _ _ _ (by omega), rdList_take _ _ _ _ (by omega), split]

/-! ## Storing under a key -/

theorem lineTag_rekey (tag line : Nat) (s : State) : lineTag (rekey tag line s) line = tag := by
  unfold rekey
  split
  next h => exact h.symm
  next => exact tget_tset_self _ _ _ _

theorem rekey_mem_out (tag line a : Nat) (s : State) (h : a < 128 * line ∨ 128 * line + 128 ≤ a) :
    tget 0 (rekey tag line s).mm.mem a = tget 0 s.mm.mem a := by
  have := readLine_length_le s tag line
  unfold rekey
  split
  · rfl
  · exact tget_wrList_out _ _ _ _ (by omega)

/-- A key turn of a line changes bytes and keys of memory alone. -/
theorem rekey_changes (tag line : Nat) (s : State) : ∃ m k, rekey tag line s = { s with mm := { s.mm with mem := m, key := k } } := by
  unfold rekey
  split
  · exact ⟨s.mm.mem, s.mm.key, rfl⟩
  · exact ⟨_, _, rfl⟩

/-- Everything that a store to HBM can change: bytes, keys, poison and the model's own logs. -/
theorem putDev_hbm_changes {k dpa : Nat} (hp : placeOf (locOf dpa) = .hbm k) (bs : List Byte) (full pour : Bool) (s : State) :
    ∃ m ky p c r, putDev dpa bs full pour s =
      { s with mm := { s.mm with mem := m, key := ky, poison := p }, sch := { s.sch with castings := c }, race := r } ∧
      m = wrList (rekey (keyTag s (keyselOf dpa)) (lineOf (locOf dpa)) s).mm.mem (locOf dpa) bs ∧
      ky = (rekey (keyTag s (keyselOf dpa)) (lineOf (locOf dpa)) s).mm.key ∧
      p = if full then tset 0 s.mm.poison (lineOf (locOf dpa)) 0 else s.mm.poison := by
  unfold putDev putBytes
  simp only [hp]
  obtain ⟨m, ky, e⟩ := rekey_changes (keyTag s (keyselOf dpa)) (lineOf (locOf dpa)) s
  rw [e]
  obtain ⟨c, r, e'⟩ := logWrite_changes 0 (locOf dpa) bs.length
    { s with mm := { s.mm with mem := wrList m (locOf dpa) bs, key := ky } }
  cases full
  · exact ⟨_, _, _, c, r, e', rfl, rfl, rfl⟩
  · simp only [e', if_true]
    exact ⟨_, _, _, c, r, rfl, rfl, rfl, rfl⟩

section
variable {k dpa : Nat} (hp : placeOf (locOf dpa) = .hbm k) (bs : List Byte) (full pour : Bool) (s : State)
include hp

theorem putDev_hbm_regs : (putDev dpa bs full pour s).regs = s.regs := by
  obtain ⟨m, ky, p, c, r, e, -⟩ := putDev_hbm_changes hp bs full pour s
  rw [e]

theorem putDev_hbm_sec : (putDev dpa bs full pour s).sec = s.sec := by
  obtain ⟨m, ky, p, c, r, e, -⟩ := putDev_hbm_changes hp bs full pour s
  rw [e]

theorem putDev_hbm_trc : (putDev dpa bs full pour s).trc = s.trc := by
  obtain ⟨m, ky, p, c, r, e, -⟩ := putDev_hbm_changes hp bs full pour s
  rw [e]

theorem putDev_hbm_dir : (putDev dpa bs full pour s).mm.dir = s.mm.dir := by
  obtain ⟨m, ky, p, c, r, e, -⟩ := putDev_hbm_changes hp bs full pour s
  rw [e]

theorem putDev_hbm_lineTag : lineTag (putDev dpa bs full pour s) (lineOf (locOf dpa)) = keyTag s (keyselOf dpa) := by
  obtain ⟨m, ky, p, c, r, e, -, hk, -⟩ := putDev_hbm_changes hp bs full pour s
  rw [e, ← lineTag_rekey (keyTag s (keyselOf dpa)) (lineOf (locOf dpa)) s]
  simp only [lineTag, hk]

/-- The bytes stored. -/
theorem putDev_hbm_bytes : rdList (putDev dpa bs full pour s).mm.mem (locOf dpa) bs.length = bs := by
  obtain ⟨m, ky, p, c, r, e, hm, -⟩ := putDev_hbm_changes hp bs full pour s
  simp only [e, hm]
  exact rdList_wrList _ _ _

/-- Lines but that of the store keep their bytes. -/
theorem putDev_hbm_mem_out (a : Nat) (hn : locOf dpa % 128 + bs.length ≤ 128)
    (ha : a < locOf dpa / 128 * 128 ∨ locOf dpa / 128 * 128 + 128 ≤ a) :
    tget 0 (putDev dpa bs full pour s).mm.mem a = tget 0 s.mm.mem a := by
  have split : locOf dpa / 128 * 128 + locOf dpa % 128 = locOf dpa := Nat.div_add_mod' _ _
  obtain ⟨m, ky, p, c, r, e, hm, -⟩ := putDev_hbm_changes hp bs full pour s
  simp only [e, hm]
  rw [tget_wrList_out _ _ _ _ (by omega), rekey_mem_out _ _ _ _ (by simp only [lineOf]; omega)]

/-- A store poisons nothing. -/
theorem putDev_hbm_poisoned (h : poisoned s (locOf dpa) = false) : poisoned (putDev dpa bs full pour s) (locOf dpa) = false := by
  obtain ⟨m, ky, p, c, r, e, -, -, hq⟩ := putDev_hbm_changes hp bs full pour s
  simp only [poisoned, e, hq]
  cases full
  · exact h
  · simp
end

/-! ## Whether HBM may be written and read -/

/-- What bars a write of HBM hangs on three registers alone. -/
theorem writeBar_hbm_congr {s t : State} {ag dpa k : Nat} (hp : placeOf (locOf dpa) = .hbm k)
    (hb : getF t keyBusy = getF s keyBusy) (hs : getF t keySel = getF s keySel) (hh : getF t hbmReady = getF s hbmReady) :
    writeBar t ag dpa = writeBar s ag dpa := by
  unfold writeBar keyHeld stackReady isOn
  rw [hb, hs, hh, hp]

/-- HBM that may be written, and is not poisoned, is read. -/
theorem devRead_hbm {s : State} {ag dpa k : Nat} (ag' n : Nat) (hp : placeOf (locOf dpa) = .hbm k) (hw : writeBar s ag dpa = .ok ())
    (hq : poisoned s (locOf dpa) = false) : devRead s ag' dpa n = .ok (readAt s (keyTag s (keyselOf dpa)) (locOf dpa) n) := by
  unfold writeBar at hw
  unfold devRead
  split at hw
  · cases hw
  next small =>
    split at hw
    · cases hw
    next free =>
      simp only [hp] at hw ⊢
      split at hw
      next ready => rw [if_neg small, if_neg free]; simp [ready, hq]
      next => cases hw

/-- Bytes stored in HBM are read back, in any later state with its keys, bytes, poison and readiness. -/
theorem devRead_stored {s t : State} {ag dpa k : Nat} (ag' : Nat) (bs : List Byte) (full pour : Bool)
    (hp : placeOf (locOf dpa) = .hbm k) (hn : locOf dpa % 128 + bs.length ≤ 128) (hw : writeBar t ag dpa = .ok ())
    (hq : poisoned s (locOf dpa) = false) (hmm : t.mm = (putDev dpa bs full pour s).mm) (hsec : t.sec = s.sec) :
    devRead t ag' dpa bs.length = .ok bs := by
  have poison : poisoned t (locOf dpa) = false := by
    rw [← putDev_hbm_poisoned hp bs full pour s hq]; simp only [poisoned, hmm]
  have tag : lineTag t (lineOf (locOf dpa)) = keyTag t (keyselOf dpa) := by
    have h := putDev_hbm_lineTag hp bs full pour s
    simp only [lineTag, keyTag, hmm, hsec] at h ⊢
    exact h
  rw [devRead_hbm ag' bs.length hp hw poison, readAt_lineTag tag hn, hmm, putDev_hbm_bytes hp]

/-! ## A write at the home of an HBM line -/

theorem homed_hbm {dpa k : Nat} (hp : placeOf (locOf dpa) = .hbm k) : homed dpa = true := by simp [homed, hp]

theorem Noticed.getF {s t : State} (h : Noticed s t) (f : FRef) (hf : Unnoted f := by exact unnoted_of_range (by decide)) :
    Machine.getF t f = Machine.getF s f := h.reg f hf

theorem Noticed.writeBar_hbm {s t : State} (h : Noticed s t) {dpa k : Nat} (hp : placeOf (locOf dpa) = .hbm k) (ag : Nat) :
    writeBar t ag dpa = writeBar s ag dpa :=
  writeBar_hbm_congr hp (h.getF keyBusy) (h.getF keySel) (h.getF hbmReady)

theorem Noticed.poisoned {s t : State} (h : Noticed s t) (loc : Nat) : Machine.poisoned t loc = Machine.poisoned s loc := by
  simp only [Machine.poisoned, h.poison]

theorem dirOf_grantNone (line : Nat) (s : State) : dirOf (grantNone line s) line = .U := by
  exact tget_tset_self (α := DirEnt) .U _ line .U

/-- A write at a home is the notice of it and then the store. -/
theorem homeWrite_eq_putDev {dpa k : Nat} (hp : placeOf (locOf dpa) = .hbm k) (bs : List Byte) (full : Bool) (s : State) :
    ∃ u, Noticed s u ∧ dirOf u (lineOf (locOf dpa)) = .U ∧ homeWrite dpa bs full s = putDev dpa bs full false u :=
  ⟨_, (noticed_beforeWrite dpa bs.length none s).trans (noticed_grantNone (lineOf (locOf dpa)) _), dirOf_grantNone _ _, by
    simp only [homeWrite, homed_hbm hp, if_true]⟩

/-- After a write at a home the bytes written are read. -/
theorem devRead_homeWrite {dpa k ag : Nat} (hp : placeOf (locOf dpa) = .hbm k) (ag' : Nat) (bs : List Byte) (full : Bool) (s : State)
    (hn : locOf dpa % 128 + bs.length ≤ 128) (hw : writeBar s ag dpa = .ok ()) (hq : poisoned s (locOf dpa) = false) :
    devRead (homeWrite dpa bs full s) ag' dpa bs.length = .ok bs := by
  obtain ⟨u, hu, -, e⟩ := homeWrite_eq_putDev hp bs full s
  have regs := getF_congr (putDev_hbm_regs hp bs full false u)
  rw [e]
  refine devRead_stored ag' bs full false hp hn (ag := ag) ?_ ((hu.poisoned _).trans hq) rfl (putDev_hbm_sec hp bs full false u)
  rw [writeBar_hbm_congr hp (regs _) (regs _) (regs _), hu.writeBar_hbm hp, hw]

end Sys2Proof.Machine
end

