-- ==== Sys2Proof/Proofs/Observation.lean ====
section
/-!
SUPPORT. The freeze trigger, the counters and the trace rings (R551 to R562).
-/
namespace Sys2Proof.Machine

/-! ## The trigger (R555) -/

/-- An enabled source raises the trigger, once. -/
theorem raiseTrigger_enabled {c : Nat} {s : State} (hc : bit (getF s trigSrc) c = true) (hf : isOn s trigFrozen = false)
    (ht : s.trc.trigger = none) : raiseTrigger c s = { s with trc := { s.trc with trigger := some (s.aoTick + 2, c) } } := by
  simp [raiseTrigger, hc, hf, ht]

theorem raiseTrigger_ignored {c : Nat} {s : State} (h : bit (getF s trigSrc) c = false ∨ isOn s trigFrozen = true ∨ s.trc.trigger ≠ none) :
    raiseTrigger c s = s := by
  unfold raiseTrigger
  rw [if_neg]
  rcases h with h | h | h
  · simp [h]
  · simp [h]
  · simp [Option.isNone_iff_eq_none, h]

theorem getF_raiseTrigger (c : Nat) (s : State) (f : FRef) : getF (raiseTrigger c s) f = getF s f := by
  obtain ⟨r, e⟩ := raiseTrigger_changes c s
  rw [e]; rfl

/-! ## A counter that wraps (R551) -/

/-- A counter's own fields are told from its select register. -/
theorem selTrig_key_ne {u i : Nat} (hi : i < counterCount u) :
    (selTrig u i).key ≠ (cntCount u i).key ∧ (selTrig u i).key ≠ (cntOvf u i).key := by
  simp only [FRef.key, selTrig, cntCount, cntOvf, selOff, cntOff]
  unfold counterCount at hi
  split_ifs at hi ⊢ <;> omega

/-- A counter at its largest value that counts one more event. -/
theorem countOne_wrap {u i : Nat} {s : State} (h : getF s (cntCount u i) = 2 ^ 48 - 1) :
    countOne u i 1 s = (if isOn (setOn (setF s (cntCount u i) (2 ^ 48)) (cntOvf u i)) (selTrig u i)
      then raiseTrigger 3 (setOn (setF s (cntCount u i) (2 ^ 48)) (cntOvf u i))
      else setOn (setF s (cntCount u i) (2 ^ 48)) (cntOvf u i)) := by
  unfold countOne
  rw [h]
  rfl

/-! ## Counters and traces once frozen (R555) -/

theorem countUnit_frozen {u c i n : Nat} {s : State} (h : isOn s trigFrozen = true) : countUnit u c i n s = s := by
  simp [countUnit, h]

/-- A FREEZE record of a unit whose FIFO has room enters it. -/
theorem tracePush_room {u : Nat} {r : TraceRec} {s : State} (h : (traceUnit s u).fifo.length < 256) :
    tracePush u true r s = setTraceUnit s u { traceUnit s u with fifo := (traceUnit s u).fifo ++ [r] } := by
  unfold tracePush
  simp only [if_true, h]

/-- One that finds no room is counted as dropped; no counter counts it. -/
theorem tracePush_full_frozen {u : Nat} {r : TraceRec} {s : State} (h : ¬(traceUnit s u).fifo.length < 256) (hf : isOn s trigFrozen = true) :
    ∃ x : TraceUnit, x.fifo = (traceUnit s u).fifo ∧ tracePush u true r s = incSat (setTraceUnit s u x) (ringDrops u) 1 := by
  refine ⟨{ traceUnit s u with
    drops := (traceUnit s u).drops + 1
    dropTs := if (traceUnit s u).drops = 0 then r.ts else (traceUnit s u).dropTs
    dropFret := if (traceUnit s u).drops = 0 then r.fret else (traceUnit s u).dropFret }, rfl, ?_⟩
  unfold tracePush
  simp only [if_true, h, if_false]
  split
  · refine countUnit_frozen (isOn_congr (t := incSat _ _ _) ?_ |>.trans hf)
    exact getF_setF_ne _ _ (by simp only [FRef.key, trigFrozen, ringDrops]; omega)
  · rfl

/-- What FREEZE records leave: the instant, the trigger and every field but the counts of dropped events. -/
structure Recorded (s t : State) : Prop where
  ts : t.ts = s.ts
  aoTick : t.aoTick = s.aoTick
  trigger : t.trc.trigger = s.trc.trigger
  reg : ∀ f, (∀ u, f.key ≠ (ringDrops u).key) → getF t f = getF s f

theorem Recorded.refl (s : State) : Recorded s s := ⟨rfl, rfl, rfl, fun _ _ => rfl⟩
theorem Recorded.trans {s t u : State} (h : Recorded s t) (h' : Recorded t u) : Recorded s u :=
  ⟨h'.ts.trans h.ts, h'.aoTick.trans h.aoTick, h'.trigger.trans h.trigger, fun f hf => (h'.reg f hf).trans (h.reg f hf)⟩

/-- Fields beside the trace rings share no place with a count of dropped events. -/
theorem ne_ringDrops {f : FRef} (h : f.key < 0x2008080 ∨ f.key % 512 ≠ 160) (u : Nat) : f.key ≠ (ringDrops u).key := by
  simp only [FRef.key, ringDrops] at h ⊢
  omega

theorem Recorded.frozen {s t : State} (h : Recorded s t) (hf : isOn s trigFrozen = true) : isOn t trigFrozen = true :=
  (isOn_congr (h.reg _ (ne_ringDrops (.inl (by decide))))).trans hf

/-- One FREEZE record: the FIFO of its unit, where it has room, takes it. -/
theorem freezeRecord_recorded {c u : Nat} {s : State} (hf : isOn s trigFrozen = true) :
    Recorded s (freezeRecord c s u) ∧ (∀ v, v ≠ u → (traceUnit (freezeRecord c s u) v).fifo = (traceUnit s v).fifo) ∧
    ((traceUnit s u).fifo.length < 256 → ∃ r : TraceRec, (traceUnit (freezeRecord c s u) u).fifo = (traceUnit s u).fifo ++ [r] ∧
      r.typ = 0x0C ∧ r.ts = s.ts ∧ r.arg = c) := by
  unfold freezeRecord
  by_cases room : (traceUnit s u).fifo.length < 256
  · rw [tracePush_room (s := bumpFree s 1) room]
    refine ⟨⟨rfl, rfl, rfl, fun _ _ => rfl⟩, fun v hv => ?_, fun _ => ⟨⟨0x0C, 0, nthAgent (freeNat s), 0, 0, getF s amxFret % 2 ^ 32, s.ts, c⟩, ?_, rfl, rfl, rfl⟩⟩
    · rw [traceUnit_setTraceUnit, if_neg hv]; rfl
    · rw [traceUnit_setTraceUnit, if_pos rfl]; rfl
  · obtain ⟨x, hx, e⟩ := tracePush_full_frozen (s := bumpFree s 1) (u := u)
      (r := ⟨0x0C, 0, nthAgent (freeNat s), 0, 0, getF s amxFret % 2 ^ 32, s.ts, c⟩) room hf
    refine ⟨?_, fun v hv => ?_, fun h => absurd h room⟩
    · dsimp only
      rw [e]
      exact ⟨rfl, rfl, rfl, fun f hne => getF_setF_ne _ _ (hne u)⟩
    · dsimp only
      rw [e]
      show (traceUnit (setTraceUnit (bumpFree s 1) u x) v).fifo = _
      rw [traceUnit_setTraceUnit, if_neg hv]; rfl

/-- The FREEZE records of some units. -/
theorem foldl_freezeRecord {c : Nat} {us : List Nat} {s : State} (hf : isOn s trigFrozen = true) (nd : us.Nodup) :
    Recorded s (us.foldl (freezeRecord c) s) ∧ (∀ v, v ∉ us → (traceUnit (us.foldl (freezeRecord c) s) v).fifo = (traceUnit s v).fifo) ∧
    ∀ u ∈ us, (traceUnit s u).fifo.length < 256 → ∃ r : TraceRec,
      (traceUnit (us.foldl (freezeRecord c) s) u).fifo = (traceUnit s u).fifo ++ [r] ∧ r.typ = 0x0C ∧ r.ts = s.ts ∧ r.arg = c := by
  induction us generalizing s with
  | nil => exact ⟨.refl s, fun _ _ => rfl, by simp⟩
  | cons w us ih =>
    obtain ⟨step, others, own⟩ := freezeRecord_recorded (c := c) (u := w) hf
    obtain ⟨hw, nd⟩ := List.nodup_cons.mp nd
    obtain ⟨rest, out, each⟩ := ih (step.frozen hf) nd
    simp only [List.foldl_cons]
    refine ⟨step.trans rest, fun v hv => ?_, fun u hu len => ?_⟩
    · rw [out v (fun h => hv (List.mem_cons_of_mem _ h)), others v (fun h => hv (h ▸ List.mem_cons_self))]
    · rcases List.mem_cons.mp hu with rfl | hu
      · rw [out u hw]
        exact own len
      · have ne : u ≠ w := fun h => hw (h ▸ hu)
        rw [← others u ne] at len ⊢
        obtain ⟨r, e, ht, hts, ha⟩ := each u hu len
        exact ⟨r, e, ht, hts.trans step.ts, ha⟩

/-! ## COUNTER_FREEZE -/

/-- The instant of a freeze: the trigger is spent. -/
def atFreeze (tick : Nat) (s : State) : State := timeTo tick { s with trc := { s.trc with trigger := none } }

/-- The freeze itself: its cause, its fret and its instant, before the FREEZE records. -/
def frozenAt (tick cause : Nat) (s : State) : State :=
  setF (setF (setF (setOn (atFreeze tick s) trigFrozen) trigCause cause) freezeFret (getF (atFreeze tick s) amxFret)) freezeTs
    ((atFreeze tick s).ts % 2 ^ 64)

/-- The fields that the freeze itself writes. -/
theorem getF_frozenAt {tick cause : Nat} {s : State} {f : FRef} (h : f.key < 8 * 0x400010 ∨ 8 * 0x400028 ≤ f.key) :
    getF (frozenAt tick cause s) f = getF s f := by
  have keys : f.key ≠ freezeTs.key ∧ f.key ≠ freezeFret.key ∧ f.key ≠ trigCause.key ∧ f.key ≠ trigFrozen.key := by
    simp only [FRef.key, freezeTs, freezeFret, trigCause, trigFrozen] at h ⊢
    omega
  obtain ⟨h1, h2, h3, h4⟩ := keys
  unfold frozenAt
  rw [getF_setF_ne _ _ h1, getF_setF_ne _ _ h2, getF_setF_ne _ _ h3, setOn_eq, getF_setF_ne _ _ h4]
  rfl

theorem frozenAt_fields (tick cause : Nat) (s : State) : isOn (frozenAt tick cause s) trigFrozen = true ∧
    getF (frozenAt tick cause s) trigCause = cause % 2 ^ 3 ∧ getF (frozenAt tick cause s) freezeFret = getF s amxFret % 2 ^ 64 ∧
    getF (frozenAt tick cause s) freezeTs = (frozenAt tick cause s).ts % 2 ^ 64 := by
  unfold frozenAt
  refine ⟨?_, ?_, ?_, ?_⟩
  · rw [isOn_eq_true, getF_setF_ne _ _ (by decide), getF_setF_ne _ _ (by decide), getF_setF_ne _ _ (by decide), setOn_eq, getF_setF_self]
    decide
  · rw [getF_setF_ne _ _ (by decide), getF_setF_ne _ _ (by decide), getF_setF_self]
    rfl
  · rw [getF_setF_ne _ _ (by decide), getF_setF_self]
    rfl
  · rw [getF_setF_self]
    exact Nat.mod_mod _ _

/-- Its place in the traces: the trigger is spent, the units keep what they hold. -/
theorem traceUnit_frozenAt (tick cause : Nat) (s : State) (u : Nat) : traceUnit (frozenAt tick cause s) u = traceUnit s u := by
  have trc : (frozenAt tick cause s).trc = { s.trc with trigger := none } := rfl
  simp only [traceUnit, trc]

/-- R556: a device that another's trigger has not frozen keeps the fret of its own. -/
def ownFreeze (cause fret : Nat) (s : State) : State :=
  if cause ≠ 2 ∧ isOn s trigFabric = true then { s with trc := { s.trc with ownFret := some fret } } else s

theorem ownFreeze_changes (cause fret : Nat) (s : State) : ∃ x, ownFreeze cause fret s = { s with trc := { s.trc with ownFret := x } } := by
  unfold ownFreeze
  split
  · exact ⟨_, rfl⟩
  · exact ⟨s.trc.ownFret, rfl⟩

theorem exec_counterFreeze {tick cause : Nat} {s : State} (hp : s.powered = true) (ht : s.trc.trigger = some (tick, cause)) :
    exec .counterFreeze s = .next (ownFreeze cause (getF (atFreeze tick s) amxFret) ((List.range 17).foldl (freezeRecord cause) (frozenAt tick cause s))) := by
  show execCounterFreeze s = _
  rw [execCounterFreeze, whenOn_powered hp, ht]
  dsimp only [ownFreeze, frozenAt, atFreeze]

/-! ## Records (R558, R562) -/

/-- A field of a record that begins after some bytes. -/
theorem fieldOf_append {n : Nat} (xs ys : List Byte) (h : xs.length = n) (o k : Nat) : fieldOf (xs ++ ys) (n + o) k = fieldOf ys o k := by
  subst h
  rw [fieldOf, List.drop_length_add_append]; rfl

theorem fieldOf_leBytes_append (n v : Nat) (ys : List Byte) : fieldOf (leBytes n v ++ ys) 0 n = v % 256 ^ n := by
  rw [fieldOf, List.drop_zero, List.take_left' (leBytes_length n v), leNat_leBytes]

/-- The oldest event leaves its FIFO; what follows stays, and a GAP record may join. -/
theorem fifo_popTrace (u : Nat) (s : State) : ∃ more, (traceUnit (popTrace u s) u).fifo = (traceUnit s u).fifo.drop 1 ++ more := by
  unfold popTrace
  dsimp only
  split
  · exact ⟨[], by rw [traceUnit_setTraceUnit, if_pos rfl, List.append_nil]⟩
  · exact ⟨_, by rw [traceUnit_setTraceUnit, if_pos rfl]⟩

/-- Taking a record changes traces and free values alone. -/
theorem popTrace_changes (u : Nat) (s : State) : ∃ r n, popTrace u s = { s with trc := r, free := n } := by
  unfold popTrace
  dsimp only
  split
  · exact ⟨_, s.free, rfl⟩
  · exact ⟨_, _, rfl⟩

end Sys2Proof.Machine
end

