-- ==== Sys2Proof/Proofs/RegisterWrites.lean ====
section
/-!
SUPPORT. Register writes by the host (R9, R10, R527, R576, R577): one access to one 32-bit register, and what it does to a field of each type.
-/
namespace Sys2Proof.Machine

/-! ## One field -/

/-- A number with all the bits of a field taken from another. -/
theorem mergeBits_all (old new n : Nat) : mergeBits old new (2 ^ n - 1) % 2 ^ n = new % 2 ^ n := by
  unfold mergeBits
  rw [Nat.and_two_pow_sub_one_eq_mod, Nat.xor_mod_two_pow, Nat.mod_mod, Nat.xor_mod_two_pow, ← Nat.xor_assoc, Nat.xor_self, Nat.zero_xor]

/-- A write of all the bits of a read-write field: it takes the value, and nothing but a free value beside it changes. -/
theorem fieldWrite_rw_all {mask value : Nat} {s : State} {f : FRef} (ha : f.acc = .rw)
    (hm : bits mask (f.lo + f.len - 1) f.lo = 2 ^ f.len - 1) :
    ∃ n, fieldWrite mask value s f = { s with
      free := n, regs := tset f.rst s.regs f.key (bits value (f.lo + f.len - 1) f.lo % 2 ^ f.len) } := by
  unfold fieldWrite
  simp only [ha, hm]
  split
  · exact ⟨s.free, by rw [putF, mergeBits_all]⟩
  · exact ⟨s.free + 1, by rw [putF, mergeBits_all]; rfl⟩

/-- A field that no hardware update has met in this AO tick. -/
theorem not_meets_of_untouched {s : State} {f : FRef} (ht : tget 0 s.touched f.key = 0) (ho : f.off ≠ 0x400028) : meets s f = false := by
  simp [meets, ht, ho]

/-- A write of a W1C field that no hardware update meets clears the bits written as ones. -/
theorem fieldWrite_w1c {mask value : Nat} {s : State} {f : FRef} (ha : f.acc = .w1c) (ht : tget 0 s.touched f.key = 0)
    (ho : f.off ≠ 0x400028) : fieldWrite mask value s f =
      putF s f (getF s f ^^^ (getF s f &&& bits value (f.lo + f.len - 1) f.lo &&& bits mask (f.lo + f.len - 1) f.lo)) := by
  unfold fieldWrite
  simp [ha, ht, ho, not_meets_of_untouched ht ho, fieldNow]

/-- A write of an HWU field that no hardware update meets changes nothing, or sets WIGN where the value differs. -/
theorem fieldWrite_hwu {mask value : Nat} {s : State} {f : FRef} (ha : f.acc = .hwu) (ht : tget 0 s.touched f.key = 0)
    (ho : f.off ≠ 0x400028) : fieldWrite mask value s f =
      if (getF s f ^^^ bits value (f.lo + f.len - 1) f.lo) &&& bits mask (f.lo + f.len - 1) f.lo = 0 then s
      else setStatus (wignOf f.off) s := by
  unfold fieldWrite
  simp [ha, ht, ho, not_meets_of_untouched ht ho, fieldNow]

/-! ## One access -/

/-- An aligned access of four bytes to a 32-bit register writes all of it. -/
theorem barWrite_four {o v : Nat} {r : RegInfo} {s : State} (ha : o % 4 = 0) (hr : regAt o = some r) (ho : r.off = o) (hb : r.bytes = 4) :
    barWrite o 4 v s = writeReg r (2 ^ 32 - 1) (v % 2 ^ 32) s := by
  simp [barWrite, writePart, ha, hr, ho, hb]

theorem barWrite_ill {o size v : Nat} {s : State} (h : (size ≠ 4 ∧ size ≠ 8) ∨ o % size ≠ 0) : barWrite o size v s = s := by
  rw [barWrite, if_pos h]

/-- A register of no cluster and no block under test, whose write only updates its fields. -/
theorem writeReg_fields {r : RegInfo} {mask value : Nat} {s : State} (hc : clusterAt r.off = none) (hb : blockAt r.off = none)
    (hs : specialWrite r.off mask value r.fields s = none) : writeReg r mask value s = fieldsWrite mask value r.fields s := by
  simp [writeReg, hc, hb, hs]

/-- R577: registers of a cluster in COLD ignore writes. -/
theorem writeReg_cold {r : RegInfo} {mask value cl : Nat} {s : State} (hc : clusterAt r.off = some cl) (h : getF s (clState cl) = 3) :
    writeReg r mask value s = s := by
  simp [writeReg, hc, h]

/-- R527: those of a block under self-test discard them, and the device says so. -/
theorem writeReg_tested {r : RegInfo} {mask value b : Nat} {s : State} (hc : clusterAt r.off = none) (hb : blockAt r.off = some b)
    (h : flasked s b = true) : writeReg r mask value s = setOn s bistWrDiscard := by
  simp [writeReg, hc, hb, h]

/-! ## PMC_ERR_CONS: a read-write register (R9) -/

theorem barWrite_errCons {v : Nat} (hv : v < 2 ^ 32) (s : State) : ∃ n, barWrite 0x11002C 4 v s = { s with
    free := n, regs := tset errCons.rst s.regs errCons.key v } := by
  obtain ⟨n, e⟩ := fieldWrite_rw_all (mask := 2 ^ 32 - 1) (value := v) (s := s) (f := errCons) rfl (by decide)
  refine ⟨n, ?_⟩
  rw [barWrite_four (r := ⟨0x11002C, 4, [errCons]⟩) rfl (by decide) rfl rfl, Nat.mod_eq_of_lt hv,
    writeReg_fields (by decide) (by decide) (by rfl)]
  show fieldWrite (2 ^ 32 - 1) v s errCons = _
  rw [e]
  have hb : bits v (errCons.lo + errCons.len - 1) errCons.lo % 2 ^ errCons.len = v := by
    show v >>> 0 % 2 ^ 32 % 2 ^ 32 = v
    rw [Nat.shiftRight_zero, Nat.mod_mod, Nat.mod_eq_of_lt hv]
  rw [hb]

/-! ## BIST_STAT: status bits beside fields that hardware updates (R9, R10, R532) -/

/-- The fields of BIST_STAT. -/
def bistFields : List FRef := [bistWign, bistWrDiscard, bistActive, bistTarget]

theorem barWrite_bist (v : Nat) (s : State) : barWrite 0x190000 4 v s = fieldsWrite (2 ^ 32 - 1) (v % 2 ^ 32) bistFields s := by
  rw [barWrite_four (r := ⟨0x190000, 4, bistFields⟩) rfl (by decide) rfl rfl, writeReg_fields (by decide) (by decide) (by rfl)]

/-- The bits of a write of 32 bits. -/
theorem bits_mod_two_pow (v hi lo : Nat) (h : hi < 32) : bits (v % 2 ^ 32) hi lo = bits v hi lo := by
  unfold bits
  rw [Nat.shiftRight_eq_div_pow, Nat.shiftRight_eq_div_pow]
  by_cases hl : lo ≤ 32
  · rw [show (2 : Nat) ^ 32 = 2 ^ lo * 2 ^ (32 - lo) by rw [← Nat.pow_add]; congr 1; omega, Nat.mod_mul_right_div_self,
      Nat.mod_mod_of_dvd _ (Nat.pow_dvd_pow 2 (by omega))]
  · rw [show hi + 1 - lo = 0 by omega, Nat.pow_zero, Nat.mod_one, Nat.mod_one]

/-- One status bit after a write of a one or a zero. -/
theorem w1c_bit {old : Nat} (ho : old ≤ 1) (v i : Nat) : (decide ((old ^^^ (old &&& bits v i i &&& 1)) % 2 ≠ 0)) = (decide (old ≠ 0) && !bit v i) := by
  have hb : bits v i i = if bit v i then 1 else 0 := by
    simp only [bits, bit, Nat.add_sub_cancel_left, pow_one, beq_iff_eq]
    split <;> omega
  rw [hb]
  obtain rfl | rfl : old = 0 ∨ old = 1 := by omega
  · simp
  · cases bit v i <;> rfl

/-- Numbers of a field differ where their exclusive or has a bit in it. -/
theorem xor_and_eq_zero_iff {a b n : Nat} (ha : a < 2 ^ n) (hb : b < 2 ^ n) : (a ^^^ b) &&& (2 ^ n - 1) = 0 ↔ b = a := by
  rw [Nat.and_two_pow_sub_one_eq_mod, Nat.mod_eq_of_lt (Nat.xor_lt_two_pow ha hb), Nat.xor_eq_zero_iff]
  exact eq_comm

/-- BIST_STAT's WIGN is set where a condition holds. -/
def warnIf (b : Bool) (s : State) : State := if b then setOn s bistWign else s

theorem getF_warnIf (b : Bool) (s : State) {f : FRef} (h : f.key ≠ bistWign.key) : getF (warnIf b s) f = getF s f := by
  cases b
  · rfl
  · exact getF_setF_ne s 1 h

theorem isOn_warnIf (b : Bool) (s : State) : isOn (warnIf b s) bistWign = (b || isOn s bistWign) := by
  cases b
  · rfl
  · rw [Bool.true_or, isOn_eq_true]
    show getF (setF s bistWign 1) bistWign ≠ 0
    rw [getF_setF_self]
    decide

theorem touched_warnIf (b : Bool) (s : State) {k : Nat} (h : k ≠ bistWign.key) : tget 0 (warnIf b s).touched k = tget 0 s.touched k := by
  cases b
  · rfl
  · show tget 0 (noteUpdate s bistWign 1) k = _
    unfold noteUpdate
    dsimp only
    split
    · rfl
    · exact tget_tset_ne _ h _

/-- BIST_STAT's status bits after a write that no hardware update meets. -/
def bistCleared (v : Nat) (s : State) : State :=
  putF (putF s bistWign (getF s bistWign ^^^ (getF s bistWign &&& bits v 0 0 &&& 1))) bistWrDiscard
    (getF s bistWrDiscard ^^^ (getF s bistWrDiscard &&& bits v 1 1 &&& 1))

/-- A write of one of its fields that hardware updates, with no update in this AO tick. -/
theorem fieldWrite_bist_hwu {v : Nat} {s : State} {f : FRef} (ha : f.acc = .hwu) (ho : f.off = 0x190000) (hl : 0 < f.len)
    (hi : f.lo + f.len - 1 < 32) (hm : bits (2 ^ 32 - 1) (f.lo + f.len - 1) f.lo = 2 ^ f.len - 1) (ht : tget 0 s.touched f.key = 0)
    (lt : getF s f < 2 ^ f.len) : fieldWrite (2 ^ 32 - 1) (v % 2 ^ 32) s f =
      warnIf (decide (bits v (f.lo + f.len - 1) f.lo ≠ getF s f)) s := by
  have width : f.lo + f.len - 1 + 1 - f.lo = f.len := by omega
  have small : bits v (f.lo + f.len - 1) f.lo < 2 ^ f.len := by
    rw [bits, width]
    exact Nat.mod_lt _ (Nat.two_pow_pos _)
  rw [fieldWrite_hwu ha ht (by rw [ho]; decide), bits_mod_two_pow _ _ _ hi, hm, ho]
  simp only [xor_and_eq_zero_iff lt small]
  by_cases h : bits v (f.lo + f.len - 1) f.lo = getF s f
  · simp [warnIf, h]
  · simp [warnIf, h]; rfl

/-- A write of one of its two status bits, with no hardware update in this AO tick. -/
theorem fieldWrite_bist_w1c {v i : Nat} {s : State} (hi : i < 2) (ht : tget 0 s.touched (⟨0x190000, i, 1, .w1c, 0⟩ : FRef).key = 0) :
    fieldWrite (2 ^ 32 - 1) (v % 2 ^ 32) s ⟨0x190000, i, 1, .w1c, 0⟩ = putF s ⟨0x190000, i, 1, .w1c, 0⟩
      (getF s ⟨0x190000, i, 1, .w1c, 0⟩ ^^^ (getF s ⟨0x190000, i, 1, .w1c, 0⟩ &&& bits v i i &&& 1)) := by
  have mask : bits (2 ^ 32 - 1) i i = 1 := by
    obtain rfl | rfl : i = 0 ∨ i = 1 := by omega
    · rfl
    · rfl
  rw [fieldWrite_w1c rfl ht (by simp)]
  show putF s _ (_ ^^^ (_ &&& bits (v % 2 ^ 32) i i &&& bits (2 ^ 32 - 1) i i)) = _
  rw [bits_mod_two_pow _ _ _ (by omega), mask]

/-- A write of BIST_STAT that no hardware update meets: its status bits are cleared, and WIGN tells of a field that was to change. -/
theorem fieldsWrite_bist {v : Nat} {s : State} (quiet : ∀ f ∈ bistFields, tget 0 s.touched f.key = 0) (ha : getF s bistActive ≤ 1)
    (ht : getF s bistTarget < 2 ^ 12) : fieldsWrite (2 ^ 32 - 1) (v % 2 ^ 32) bistFields s =
      warnIf (decide (bits v 14 3 ≠ getF s bistTarget)) (warnIf (decide (bits v 2 2 ≠ getF s bistActive)) (bistCleared v s)) := by
  obtain ⟨qw, qd, qa, qt⟩ : tget 0 s.touched bistWign.key = 0 ∧ tget 0 s.touched bistWrDiscard.key = 0 ∧
    tget 0 s.touched bistActive.key = 0 ∧ tget 0 s.touched bistTarget.key = 0 := by simpa [bistFields] using quiet
  have kept : ∀ f : FRef, f.key ≠ bistWign.key → f.key ≠ bistWrDiscard.key → getF (bistCleared v s) f = getF s f := fun f h h' => by
    rw [bistCleared, getF_putF_ne _ _ h', getF_putF_ne _ _ h]
  have status : fieldWrite (2 ^ 32 - 1) (v % 2 ^ 32) (fieldWrite (2 ^ 32 - 1) (v % 2 ^ 32) s bistWign) bistWrDiscard = bistCleared v s := by
    rw [bistWign, bistWrDiscard, fieldWrite_bist_w1c (by decide) qw, fieldWrite_bist_w1c (by decide) (by exact qd), getF_putF_ne _ _ (by decide)]
    rfl
  have active : fieldWrite (2 ^ 32 - 1) (v % 2 ^ 32) (bistCleared v s) bistActive =
      warnIf (decide (bits v 2 2 ≠ getF s bistActive)) (bistCleared v s) := by
    have same := kept bistActive (by decide) (by decide)
    rw [fieldWrite_bist_hwu rfl rfl (by decide) (by decide) (by decide) (by exact qa) (same.symm ▸ Nat.lt_succ_of_le ha), same]
    rfl
  have target : ∀ b, fieldWrite (2 ^ 32 - 1) (v % 2 ^ 32) (warnIf b (bistCleared v s)) bistTarget =
      warnIf (decide (bits v 14 3 ≠ getF s bistTarget)) (warnIf b (bistCleared v s)) := by
    intro b
    have same := (getF_warnIf b (bistCleared v s) (f := bistTarget) (by decide)).trans (kept bistTarget (by decide) (by decide))
    rw [fieldWrite_bist_hwu rfl rfl (by decide) (by decide) (by decide) ((touched_warnIf b (bistCleared v s) (by decide)).trans qt)
      (same.symm ▸ ht), same]
    rfl
  show fieldWrite _ _ (fieldWrite _ _ (fieldWrite _ _ (fieldWrite _ _ s bistWign) bistWrDiscard) bistActive) bistTarget = _
  rw [status, active, target]

/-- A write of a field leaves the others, but for the status bits of its block. -/
theorem getF_fieldWrite_ne {mask value : Nat} {s : State} {f h : FRef} (ne : h.key ≠ f.key) (hw : ∀ w, wignOf f.off = some w → h.key ≠ w.key)
    (hl : ∀ w, lostOf f.off = some w → h.key ≠ w.key) : getF (fieldWrite mask value s f) h = getF s h := by
  have bumped : ∀ t, getF (if tget 0 s.touched f.key = 0 then s else bumpFree s 1) t = getF s t := fun t => by split <;> rfl
  have status : ∀ (o : Option FRef) t, (∀ w, o = some w → h.key ≠ w.key) → getF (setStatus o t) h = getF t h := by
    intro o t ho
    cases o with
    | none => rfl
    | some w => exact getF_setF_ne t 1 (ho w rfl)
  unfold fieldWrite
  dsimp only
  cases f.acc with
  | ro | wo => exact bumped h
  | rw | w1c | w1s => exact (getF_putF_ne _ _ ne).trans (bumped h)
  | cnt =>
    dsimp only
    split
    · exact (status _ _ hl).trans ((getF_putF_ne _ _ ne).trans (bumped h))
    · exact (getF_putF_ne _ _ ne).trans (bumped h)
  | hwu =>
    dsimp only
    split
    · exact bumped h
    · exact (status _ _ hw).trans (bumped h)

/-- A write of a W1C field leaves the notes of hardware updates. -/
theorem touched_fieldWrite_w1c {mask value : Nat} {s : State} {f : FRef} (ha : f.acc = .w1c) : (fieldWrite mask value s f).touched = s.touched := by
  unfold fieldWrite
  simp only [ha]
  split <;> rfl

/-- A hardware update that sets WR_DISCARD in the write's own cycle wins (R10). -/
theorem fieldWrite_wrDiscard_met {v : Nat} {s : State} (on : getF s bistWrDiscard = 1) (ht : tget 0 s.touched bistWrDiscard.key = 7) :
    getF (fieldWrite (2 ^ 32 - 1) v s bistWrDiscard) bistWrDiscard = 1 := by
  have met : meets s bistWrDiscard = true := by simp [meets, ht]
  have mask : bits (2 ^ 32 - 1) (bistWrDiscard.lo + bistWrDiscard.len - 1) bistWrDiscard.lo = 1 := by decide
  have now : fieldNow s bistWrDiscard = 1 := on
  unfold fieldWrite
  simp only [met, mask, now, ht, Nat.succ_ne_zero, if_false, bumpFree_touched]
  show getF (putF (bumpFree s 1) bistWrDiscard _) bistWrDiscard = 1
  rw [getF_putF_self]
  have odd : ∀ x, (x ||| 1) % 2 ^ 1 = 1 := fun x => by
    rw [Nat.or_mod_two_pow, pow_one]
    obtain h | h := Nat.mod_two_eq_zero_or_one x <;> rw [h] <;> rfl
  exact odd _

/-- BIST_STAT.WR_DISCARD stays set where a write meets the update that sets it. -/
theorem isOn_wrDiscard_met {v : Nat} {s : State} (on : isOn s bistWrDiscard = true) (le : getF s bistWrDiscard ≤ 1)
    (ht : tget 0 s.touched bistWrDiscard.key = 7) : isOn (fieldsWrite (2 ^ 32 - 1) v bistFields s) bistWrDiscard = true := by
  have one : getF s bistWrDiscard = 1 := by have := isOn_eq_true.mp on; omega
  have others : ∀ f ∈ [bistWign, bistActive, bistTarget], ∀ t, getF (fieldWrite (2 ^ 32 - 1) v t f) bistWrDiscard = getF t bistWrDiscard := by
    intro f hf t
    have place : f.off = 0x190000 ∧ bistWrDiscard.key ≠ f.key := by
      simp only [List.mem_cons, List.not_mem_nil, or_false] at hf
      obtain rfl | rfl | rfl := hf <;> decide
    refine getF_fieldWrite_ne place.2 (fun w hw => ?_) (fun w hw => ?_)
    · rw [place.1] at hw
      cases hw
      decide
    · rw [place.1] at hw
      cases hw
  rw [isOn_eq_true]
  show getF (fieldWrite _ _ (fieldWrite _ _ (fieldWrite _ _ (fieldWrite _ _ s bistWign) bistWrDiscard) bistActive) bistTarget) bistWrDiscard ≠ 0
  rw [others bistTarget (by decide), others bistActive (by decide),
    fieldWrite_wrDiscard_met ((others bistWign (by decide) s).trans one) (by rw [touched_fieldWrite_w1c rfl]; exact ht)]
  decide

end Sys2Proof.Machine
end

