-- ==== Sys2Proof/Proofs/ObservationKeys.lean ====
section
/-!
CERTIFICATE. Triggers, counters, trace records, the way lock, keys, unlock tokens and register writes.
-/
namespace Sys2Proof.Machine

/-! ## A trace record is written (R557) -/

theorem hbm_of_ringPlace {dpa : Nat} (h : ringPlace dpa = true) : ∃ k, placeOf (locOf dpa) = .hbm k := by
  unfold ringPlace at h
  split at h
  next k e => exact ⟨k, e⟩
  next => cases h

/-- Where a ring's next record goes. -/
def recordDpa (s : State) (u : Nat) : Nat := getF s (ringDpa u) * 4096 + 32 * (getF s (ringProd u) % 2 ^ ringLog s u)

/-- A record lies in one line. -/
theorem recordDpa_fits (s : State) (u : Nat) : locOf (recordDpa s u) % 128 + 32 ≤ 128 := by
  unfold locOf recordDpa
  omega

section
variable {u : Nat} {r : TraceRec} {rest : List TraceRec} {s : State} (hp : s.powered = true) (hu : u < 17)
  (he : isOn s (ringEnable u) = true) (hf : (traceUnit s u).fifo = r :: rest)
include hp hu he hf

theorem exec_traceRecordWrite : exec (.traceRecordWrite u) s = .next (
    if !ringPlace (recordDpa s u) then setOn s trcRingErr
    else if !isOn s (ringWrap u) && decide (2 ^ ringLog s u ≤ (getF s (ringProd u) + 2 ^ 32 - getF s (ringCons u)) % 2 ^ 32) then s
    else if lineBusy s (lineOf (locOf (recordDpa s u))) none none none then s
    else match writeBar s (agFw 2) (recordDpa s u) with
      | .ok () => popTrace u (incF (homeWrite (recordDpa s u) (recordBytesOf (getF s (ringProd u)) r) false s) (ringProd u) 1)
      | _ => s) := by
  show execTraceRecordWrite u s = _
  have enabled : (decide (17 ≤ u) || !isOn s (ringEnable u)) = false := by simp [he]; omega
  rw [execTraceRecordWrite, whenOn_powered hp, enabled, hf]
  rfl

theorem traceRecordWrite_misplaced (h : ringPlace (recordDpa s u) = false) : exec (.traceRecordWrite u) s = .next (setOn s trcRingErr) := by
  rw [exec_traceRecordWrite hp hu he hf, h]
  rfl

theorem traceRecordWrite_full (h : ringPlace (recordDpa s u) = true) (hw : isOn s (ringWrap u) = false)
    (full : 2 ^ ringLog s u ≤ (getF s (ringProd u) + 2 ^ 32 - getF s (ringCons u)) % 2 ^ 32) : exec (.traceRecordWrite u) s = .next s := by
  rw [exec_traceRecordWrite hp hu he hf, h, hw, decide_eq_true full]
  rfl

/-- A ring that has room, or that wraps. -/
def RingTakes (s : State) (u : Nat) : Prop :=
  isOn s (ringWrap u) = true ∨ (getF s (ringProd u) + 2 ^ 32 - getF s (ringCons u)) % 2 ^ 32 < 2 ^ ringLog s u

omit hp hu he hf in
theorem RingTakes.not_full (h : RingTakes s u) :
    (!isOn s (ringWrap u) && decide (2 ^ ringLog s u ≤ (getF s (ringProd u) + 2 ^ 32 - getF s (ringCons u)) % 2 ^ 32)) = false := by
  obtain h | h := h
  · rw [h]; rfl
  · rw [decide_eq_false (Nat.not_le.mpr h), Bool.and_false]

theorem traceRecordWrite_waits (h : ringPlace (recordDpa s u) = true) (takes : RingTakes s u)
    (hb : lineBusy s (lineOf (locOf (recordDpa s u))) none none none = true ∨ writeBar s (agFw 2) (recordDpa s u) ≠ .ok ()) :
    exec (.traceRecordWrite u) s = .next s := by
  rw [exec_traceRecordWrite hp hu he hf, h, takes.not_full]
  simp only [Bool.not_true, Bool.false_eq_true, if_false]
  split
  · rfl
  next free =>
    split
    next ok => exact absurd ok (hb.resolve_left free)
    next => rfl

theorem traceRecordWrite_done (h : ringPlace (recordDpa s u) = true) (takes : RingTakes s u)
    (free : lineBusy s (lineOf (locOf (recordDpa s u))) none none none = false) (ok : writeBar s (agFw 2) (recordDpa s u) = .ok ()) :
    exec (.traceRecordWrite u) s = .next (popTrace u
      (incF (homeWrite (recordDpa s u) (recordBytesOf (getF s (ringProd u)) r) false s) (ringProd u) 1)) := by
  rw [exec_traceRecordWrite hp hu he hf, h, takes.not_full, free, ok]
  rfl

end

/-- The bytes of a record. -/
theorem recordBytesOf_length (k : Nat) (r : TraceRec) : (recordBytesOf k r).length = 32 := by simp [recordBytesOf]

/-- What the writing of a record leaves: PROD counts it, the line holds it, other lines stay, and the FIFO's next event is at its head. -/
theorem recordWritten {u : Nat} {r : TraceRec} {rest : List TraceRec} {s : State} (hu : u < 17) (hf : (traceUnit s u).fifo = r :: rest)
    (hr : ringPlace (recordDpa s u) = true) (ok : writeBar s (agFw 2) (recordDpa s u) = .ok ()) :
    let dpa := recordDpa s u
    let t := popTrace u (incF (homeWrite dpa (recordBytesOf (getF s (ringProd u)) r) false s) (ringProd u) 1)
    getF t (ringProd u) = (getF s (ringProd u) + 1) % 2 ^ 32 ∧
    (poisoned s (locOf dpa) = false → devRead t (agFw 2) dpa 32 = .ok (recordBytesOf (getF s (ringProd u)) r)) ∧
    (∀ a, a < locOf dpa / 128 * 128 ∨ locOf dpa / 128 * 128 + 128 ≤ a → tget 0 t.mm.mem a = tget 0 s.mm.mem a) ∧
    ∃ more, (traceUnit t u).fifo = rest ++ more := by
  dsimp only
  obtain ⟨k, place⟩ := hbm_of_ringPlace hr
  have fits := recordDpa_fits s u
  have len := recordBytesOf_length (getF s (ringProd u)) r
  generalize recordDpa s u = dpa at *
  generalize recordBytesOf (getF s (ringProd u)) r = bs at *
  rw [← len] at fits
  obtain ⟨v, noticed, -, e⟩ := homeWrite_eq_putDev place bs false s
  obtain ⟨x, n, pop⟩ := popTrace_changes u (incF (homeWrite dpa bs false s) (ringProd u) 1)
  have stored : ∀ f, getF (homeWrite dpa bs false s) f = getF v f := fun f => by rw [e]; exact getF_congr (putDev_hbm_regs place bs false false v) f
  have other : ∀ f, f.key ≠ (ringProd u).key → Unnoted f →
      getF (popTrace u (incF (homeWrite dpa bs false s) (ringProd u) 1)) f = getF s f := fun f ne hn => by
    rw [pop]
    exact (getF_setF_ne _ _ ne).trans ((stored f).trans (noticed.reg f hn))
  have mm : (popTrace u (incF (homeWrite dpa bs false s) (ringProd u) 1)).mm = (putDev dpa bs false false v).mm := by rw [pop, ← e]; rfl
  refine ⟨?_, fun hq => ?_, fun a ha => ?_, ?_⟩
  · rw [pop]
    show getF (setF _ (ringProd u) _) (ringProd u) = _
    rw [getF_setF_self, stored, noticed.reg _ (unnoted_ringProd hu)]
    rfl
  · rw [← len]
    refine devRead_stored (s := v) (ag := agFw 2) (agFw 2) bs false false place fits ?_ ((noticed.poisoned _).trans hq) mm ?_
    · have low : ∀ f : FRef, f.key < 0x2008000 → f.key ≠ (ringProd u).key := fun f h => by simp only [FRef.key, ringProd] at h ⊢; omega
      rw [← ok]
      refine writeBar_hbm_congr place ?_ ?_ ?_ <;> exact other _ (low _ (by decide)) (unnoted_of_range (by decide))
    · rw [pop]
      simp only [incF_eq, setF_sec, e, putDev_hbm_sec place]
  · rw [mm, putDev_hbm_mem_out place bs false false v a fits ha, noticed.mem]
  · obtain ⟨more, hm⟩ := fifo_popTrace u (incF (homeWrite dpa bs false s) (ringProd u) 1)
    obtain ⟨grown, hg⟩ := noticed.fifo u
    have same : (traceUnit (incF (homeWrite dpa bs false s) (ringProd u) 1) u).fifo = (traceUnit v u).fifo := by
      simp only [incF_eq, traceUnit, setF_trc, e, putDev_hbm_trc place]
    rw [hm, same, ← hg, hf]
    exact ⟨grown ++ more, by simp⟩

/-! ## Keys (R542) -/

/-- While a selector's keys are drawn anew, accesses under it wait. -/
theorem keyHeld_waits {s : State} {dpa : Nat} (hb : isOn s keyBusy = true) (hs : keyselOf dpa = getF s keySel) (hd : dpa < 2 ^ 52) (ag n : Nat) :
    devRead s ag dpa n = .wait ∧ writeBar s ag dpa = .wait := by
  have held : keyHeld s dpa = true := by simp [keyHeld, hb, hs]
  unfold devRead writeBar
  rw [if_neg (Nat.not_le.mpr hd), if_pos held, if_neg (Nat.not_le.mpr hd), if_pos held]
  exact ⟨rfl, rfl⟩

/-- The caches let a selector's lines go. -/
theorem noticed_recallAll (ls : List Nat) (s : State) : Noticed s (ls.foldl (fun s l => cruDrop (128 * l) (recallLine s l)) s) :=
  .foldl (fun s l => (noticed_recallLine s l).trans (noticed_cruDrop _ _)) ls s

theorem regenDone_idle {s : State}
    (h : isOn s keyBusy = false ∨ ∃ l ∈ keyLines (getF s keySel) s, lineBusy s l none none none = true) : regenDone s = s := by
  unfold regenDone
  dsimp only
  rw [if_pos]
  rw [Bool.or_eq_true]
  exact h.imp (fun h => by rw [h]; rfl) (fun ⟨l, hl, hb⟩ => List.any_eq_true.mpr ⟨l, hl, hb⟩)

/-- The end of an erase: the selector's next key, with the bytes and the notes of their keys as they were. -/
theorem regenDone_loads {s : State} (hb : isOn s keyBusy = true) (hl : ∀ l ∈ keyLines (getF s keySel) s, lineBusy s l none none none = false) :
    let t := regenDone s
    isOn t keyBusy = false ∧ getF t keyGen = (getF s keyGen + 1) % 2 ^ 16 ∧ keyTag t (getF s keySel) = keyTag s (getF s keySel) + 64 ∧
    (∀ n, n ≠ getF s keySel → keyTag t n = keyTag s n) ∧ t.mm.mem = s.mm.mem ∧ t.mm.key = s.mm.key := by
  have idle : (!isOn s keyBusy || (keyLines (getF s keySel) s).any (fun l => lineBusy s l none none none)) = false := by
    rw [hb, Bool.not_true, Bool.false_or, List.any_eq_false]
    exact fun l h => by rw [hl l h]; decide
  have noticed := noticed_recallAll (keyLines (getF s keySel) s) s
  unfold regenDone
  dsimp only
  rw [idle]
  generalize (keyLines (getF s keySel) s).foldl (fun s l => cruDrop (128 * l) (recallLine s l)) s = u at noticed
  have sec := noticed.sec
  refine ⟨?_, ?_, ?_, fun n hn => ?_, noticed.mem, noticed.key⟩
  · rw [isOn_eq_false, if_neg Bool.false_ne_true, incF_eq, getF_setF_ne _ _ (by decide), setOff_eq, getF_setF_self]
    rfl
  · rw [if_neg Bool.false_ne_true, incF_eq, getF_setF_self, setOff_eq, getF_setF_ne _ _ (by decide)]
    show (getF u keyGen + 1) % 2 ^ 16 = _
    rw [noticed.getF keyGen]
  · show getF s keySel + 64 * tget 0 (tset 0 u.sec.gens (getF s keySel) (tget 0 u.sec.gens (getF s keySel) + 1)) (getF s keySel) = _
    rw [tget_tset_self, sec, keyTag]
    omega
  · show n + 64 * tget 0 (tset 0 u.sec.gens (getF s keySel) (tget 0 u.sec.gens (getF s keySel) + 1)) n = _
    rw [tget_tset_ne _ hn, sec]
    rfl

/-! ## Unlock tokens (R544 to R546) -/

/-- What a module reset leaves of the machine, but for the registers that show the cartridges present. -/
theorem moduleReset_eq (s : State) : ∃ r w, moduleReset s =
    { pending := s.pending, powered := false, aoTick := s.aoTick, free := s.free, regs := r, touched := w
      mm := { host := s.mm.host }
      sec := { zeroed := true, nonce := s.sec.nonce }
      boot := { pwrOk := s.boot.pwrOk, perst := s.boot.perst, clocks := s.boot.clocks, held := s.boot.held, trip := s.boot.trip
                hot := s.boot.hot, present := s.boot.present, flash := s.boot.flash } } :=
  OnlyRegs.foldl (fun s n => onlyRegs_setF s (sockPresent n) 1) _ _

/-- A start after a module reset: it begins where the pins allow it, with a new nonce. -/
theorem tryStart_moduleReset (s : State) : ∃ r w tr n, s.sec.nonce ≤ n ∧ tryStart (moduleReset s) =
    { pending := s.pending, powered := s.boot.pwrOk && !s.boot.perst && s.boot.clocks && !s.boot.held, aoTick := s.aoTick
      free := s.free, regs := r, touched := w
      mm := { host := s.mm.host }
      sec := { zeroed := !(s.boot.pwrOk && !s.boot.perst && s.boot.clocks && !s.boot.held), nonce := n }
      boot := { pwrOk := s.boot.pwrOk, perst := s.boot.perst, clocks := s.boot.clocks, held := s.boot.held, trip := tr
                hot := s.boot.hot, present := s.boot.present, flash := s.boot.flash } } := by
  obtain ⟨r, w, e⟩ := moduleReset_eq s
  rw [e, tryStart]
  cases h : s.boot.pwrOk && !s.boot.perst && s.boot.clocks && !s.boot.held with
  | false => exact ⟨r, w, s.boot.trip, s.sec.nonce, le_rfl, by simp⟩
  | true => exact ⟨r, w, false, s.sec.nonce + 1, Nat.le_succ _, by simp [beginStart]⟩

/-- A token, accepted or not, uses up its nonce. -/
def nonceUsed (s : State) : State := { s with sec := { s.sec with nonce := s.sec.nonce + 1 } }

theorem exec_debugUnlockToken {token : List Byte} {s : State} (hp : s.powered = true) :
    exec (.debugUnlockToken token) s = .next (
      if tokenOk s token && decide (getF s dbgState ≠ 2) then setF (tryStart (moduleReset (nonceUsed s))) dbgState 1
      else if 8 ≤ getF (incSat (nonceUsed s) dbgFails 1) dbgFails then setF (incSat (nonceUsed s) dbgFails 1) dbgState 2
      else incSat (nonceUsed s) dbgFails 1) := by
  show execDebugUnlockToken token s = _
  rw [execDebugUnlockToken, whenOn_powered hp]
  rfl

/-- A token that is accepted: the module is reset, and starts unlocked. -/
theorem token_accepted {token : List Byte} {s : State} (hp : s.powered = true) (ok : tokenOk s token = true) (unlocked : getF s dbgState ≠ 2) :
    Next (.debugUnlockToken token) s (fun t => getF t dbgState = 1 ∧
      t.powered = (s.boot.pwrOk && !s.boot.perst && s.boot.clocks && !s.boot.held) ∧ t.mm = { host := s.mm.host } ∧ t.sch = {} ∧
      t.cores = [] ∧ t.clusters = [] ∧ t.xl = {} ∧ t.boot.phase = 0 ∧ s.sec.nonce < t.sec.nonce) := by
  obtain ⟨r, w, tr, n, hn, e⟩ := tryStart_moduleReset (nonceUsed s)
  refine ⟨_, (exec_debugUnlockToken hp).trans (by rw [ok, decide_eq_true unlocked, Bool.and_true, if_pos rfl]), ?_⟩
  rw [e]
  exact ⟨getF_setF_self _ _ _, rfl, rfl, rfl, rfl, rfl, rfl, rfl, hn⟩

/-- One that is refused is counted, and the eighth locks the port. -/
theorem token_refused {token : List Byte} {s : State} (hp : s.powered = true) (bad : tokenOk s token = false ∨ getF s dbgState = 2) :
    Next (.debugUnlockToken token) s (fun t => getF t dbgFails = min (getF s dbgFails + 1) 15 ∧ t.mm = s.mm ∧
      t.sec.nonce = s.sec.nonce + 1 ∧ getF t dbgState = if 8 ≤ min (getF s dbgFails + 1) 15 then 2 else getF s dbgState) := by
  have refused : (tokenOk s token && decide (getF s dbgState ≠ 2)) = false := by
    obtain h | h := bad <;> simp [h]
  have fails : getF (incSat (nonceUsed s) dbgFails 1) dbgFails = min (getF s dbgFails + 1) 15 := by
    rw [incSat_eq, getF_setF_self]
    exact Nat.mod_eq_of_lt (Nat.lt_succ_of_le (Nat.min_le_right _ _))
  refine ⟨_, (exec_debugUnlockToken hp).trans (by rw [refused, if_neg Bool.false_ne_true, fails]), ?_⟩
  split
  · exact ⟨(getF_setF_ne _ _ (by decide)).trans fails, by simp [nonceUsed], by simp [nonceUsed], getF_setF_self _ _ _⟩
  · exact ⟨fails, by simp [nonceUsed], by simp [nonceUsed], getF_setF_ne _ _ (by decide)⟩

/-! ## The bytes of a record (R558) -/

/-- A field past some first bytes. -/
theorem fieldOf_skip {xs : List Byte} {n : Nat} (h : xs.length = n) (ys : List Byte) {o : Nat} (ho : n ≤ o) (k : Nat) :
    fieldOf (xs ++ ys) o k = fieldOf ys (o - n) k := by
  obtain ⟨d, rfl⟩ := Nat.exists_eq_add_of_le ho
  rw [Nat.add_sub_cancel_left, fieldOf_append xs ys h]

theorem fieldOf_leBytes (n v : Nat) : fieldOf (leBytes n v) 0 n = v % 256 ^ n := by
  simpa using fieldOf_leBytes_append n v []

theorem recordBytesOf_fields (k : Nat) (r : TraceRec) : let b := recordBytesOf k r
    b.length = 32 ∧ fieldOf b 0 4 = (k + 1) % 2 ^ 32 ∧ fieldOf b 4 1 = r.typ % 2 ^ 8 ∧ fieldOf b 5 1 = r.flags % 2 ^ 8 ∧
    fieldOf b 6 2 = r.agent % 2 ^ 16 ∧ fieldOf b 8 2 = r.layer % 2 ^ 16 ∧ fieldOf b 10 2 = r.op % 2 ^ 16 ∧
    fieldOf b 12 4 = r.fret % 2 ^ 32 ∧ fieldOf b 16 8 = r.ts % 2 ^ 64 ∧ fieldOf b 24 8 = r.arg % 2 ^ 64 := by
  refine ⟨recordBytesOf_length k r, ?_⟩
  simp only [recordBytesOf, List.append_assoc]
  refine ⟨?_, ?_, ?_, ?_, ?_, ?_, ?_, ?_, ?_⟩ <;>
    simp [fieldOf_skip (leBytes_length _ _), fieldOf_leBytes_append, fieldOf_leBytes]

/-! ## COUNTER_FREEZE and the counters (R551, R555) -/

theorem cntOff_aligned (u i : Nat) : cntOff u i % 8 = 0 := by
  unfold cntOff
  split
  · omega
  · split <;> omega

/-- What a freeze leaves: its cause, fret and instant, the counters as they were, and a FREEZE record in each unit that has room. -/
theorem counterFreeze_leaves {tick cause : Nat} {s : State} (hp : s.powered = true) (ht : s.trc.trigger = some (tick, cause)) (hc : cause < 6) :
    Next .counterFreeze s (fun t => isOn t trigFrozen = true ∧ getF t trigCause = cause ∧ t.trc.trigger = none ∧
      t.aoTick = max s.aoTick tick ∧ getF t freezeFret = getF s amxFret % 2 ^ 64 ∧ getF t freezeTs = t.ts % 2 ^ 64 ∧
      (∀ u i, getF t (cntCount u i) = getF s (cntCount u i)) ∧
      ∀ u, u < 17 → (traceUnit s u).fifo.length < 256 → ∃ r : TraceRec, (traceUnit t u).fifo = (traceUnit s u).fifo ++ [r] ∧ r.typ = 0x0C ∧
        r.ts = t.ts ∧ r.arg = cause) := by
  have run := exec_counterFreeze hp ht
  obtain ⟨frozen, hcause, hfret, hts⟩ := frozenAt_fields tick cause s
  obtain ⟨recorded, -, each⟩ := foldl_freezeRecord (c := cause) frozen (List.nodup_range (n := 17))
  generalize (List.range 17).foldl (freezeRecord cause) (frozenAt tick cause s) = u at run recorded each
  obtain ⟨x, e⟩ := ownFreeze_changes cause (getF (atFreeze tick s) amxFret) u
  refine ⟨_, run.trans (congrArg _ e), recorded.frozen frozen, ?_, recorded.trigger, recorded.aoTick, ?_, ?_, fun n i => ?_, fun n hn len => ?_⟩
  · exact (recorded.reg trigCause (ne_ringDrops (.inl (by decide)))).trans (hcause.trans (Nat.mod_eq_of_lt (by omega)))
  · exact (recorded.reg freezeFret (ne_ringDrops (.inl (by decide)))).trans hfret
  · exact (recorded.reg freezeTs (ne_ringDrops (.inl (by decide)))).trans (hts.trans (congrArg (· % 2 ^ 64) recorded.ts.symm))
  · have off := cntOff_ge n i
    have aligned := cntOff_aligned n i
    refine (recorded.reg (cntCount n i) (ne_ringDrops (.inr ?_))).trans (getF_frozenAt (.inr ?_)) <;> simp only [FRef.key, cntCount] <;> omega
  · obtain ⟨r, hr, htyp, hrts, harg⟩ := each n (List.mem_range.mpr hn) ((traceUnit_frozenAt tick cause s n).symm ▸ len)
    rw [traceUnit_frozenAt] at hr
    exact ⟨r, hr, htyp, hrts.trans recorded.ts.symm, harg⟩

/-- A counter that wraps starts again at 0, says so in OVF, and raises the trigger where its select register asks for it. -/
theorem counterWrap_leaves {u i : Nat} {s : State} (hp : s.powered = true) (hu : u < 209) (hi : i < counterCount u)
    (hf : isOn s trigFrozen = false) (he : isOn s (selEnable u i) = true) (hev : getF s (selEvent u i) ≠ 0)
    (hmax : getF s (cntCount u i) = 2 ^ 48 - 1) :
    Next (.counterWrap u i) s (fun t => getF t (cntCount u i) = 0 ∧ isOn t (cntOvf u i) = true ∧
      (isOn s (selTrig u i) = true → bit (getF s trigSrc) 3 = true → s.trc.trigger = none → t.trc.trigger = some (s.aoTick + 2, 3))) := by
  have run : exec (.counterWrap u i) s = .next (countOne u i 1 s) := by
    show execCounterWrap u i s = _
    rw [execCounterWrap, whenOn_powered hp, if_pos (by simp [hu, hi, hf, he, hev, hmax])]
  obtain ⟨ne_count, ne_ovf⟩ := selTrig_key_ne hi
  have co : (cntCount u i).key ≠ (cntOvf u i).key := by simp only [FRef.key, cntCount, cntOvf]; omega
  have off := cntOff_ge u i
  have below : ∀ f : FRef, f.key < 8 * 0x410000 → getF (setOn (setF s (cntCount u i) (2 ^ 48)) (cntOvf u i)) f = getF s f := fun f hk => by
    rw [setOn_eq, getF_setF_ne _ _ (by simp only [FRef.key, cntOvf] at hk ⊢; omega),
      getF_setF_ne _ _ (by simp only [FRef.key, cntCount] at hk ⊢; omega)]
  have sel : getF (setOn (setF s (cntCount u i) (2 ^ 48)) (cntOvf u i)) (selTrig u i) = getF s (selTrig u i) := by
    rw [setOn_eq, getF_setF_ne _ _ ne_ovf, getF_setF_ne _ _ ne_count]
  have count : getF (setOn (setF s (cntCount u i) (2 ^ 48)) (cntOvf u i)) (cntCount u i) = 0 := by
    rw [setOn_eq, getF_setF_ne _ _ co, getF_setF_self]
    exact Nat.mod_self _
  have ovf : isOn (setOn (setF s (cntCount u i) (2 ^ 48)) (cntOvf u i)) (cntOvf u i) = true := by
    rw [isOn_eq_true, setOn_eq, getF_setF_self]
    exact Nat.one_ne_zero
  refine ⟨_, run.trans (congrArg _ (countOne_wrap hmax)), ?_⟩
  rw [isOn_congr sel]
  split
  · refine ⟨(getF_raiseTrigger _ _ _).trans count, (isOn_congr (getF_raiseTrigger _ _ _)).trans ovf, fun _ src none => ?_⟩
    rw [raiseTrigger_enabled ((congrArg (bit · 3) (below trigSrc (by decide))).trans src)
      ((isOn_congr (below trigFrozen (by decide))).trans hf) none]
    simp
  next off => exact ⟨count, ovf, fun on => absurd on off⟩

/-! ## Register writes (R9, R10, R527, R577) -/

theorem errCons_written {v : Nat} (hv : v < 2 ^ 32) (s : State) :
    getF (barWrite 0x11002C 4 v s) errCons = v ∧ (barWrite 0x11002C 4 v s).mm = s.mm ∧
      ∀ f : FRef, f.key ≠ errCons.key → getF (barWrite 0x11002C 4 v s) f = getF s f := by
  obtain ⟨n, e⟩ := barWrite_errCons hv s
  rw [e]
  exact ⟨tget_tset_self _ _ _ _, rfl, fun f hf => tget_tset_ne _ hf _⟩

/-- The fields of BIST_STAT once its status bits have been written. -/
theorem bistCleared_fields {s : State} (hw : getF s bistWign ≤ 1) (hd : getF s bistWrDiscard ≤ 1) (v : Nat) :
    getF (bistCleared v s) bistActive = getF s bistActive ∧ getF (bistCleared v s) bistTarget = getF s bistTarget ∧
    isOn (bistCleared v s) bistWrDiscard = (isOn s bistWrDiscard && !bit v 1) ∧
    isOn (bistCleared v s) bistWign = (isOn s bistWign && !bit v 0) := by
  unfold bistCleared
  refine ⟨?_, ?_, ?_, ?_⟩
  · rw [getF_putF_ne _ _ (by decide), getF_putF_ne _ _ (by decide)]
  · rw [getF_putF_ne _ _ (by decide), getF_putF_ne _ _ (by decide)]
  · rw [isOn, getF_putF_self]
    exact w1c_bit hd v 1
  · rw [isOn, getF_putF_ne _ _ (by decide), getF_putF_self]
    exact w1c_bit hw v 0

/-- BIST_STAT after a write that no hardware update meets: the fields of the self-test stay, a status bit written as a one clears, and WIGN
tells of a field that was to change. -/
theorem bistStat_written {v : Nat} {s : State} (hw : getF s bistWign ≤ 1) (hd : getF s bistWrDiscard ≤ 1) (ha : getF s bistActive ≤ 1)
    (ht : getF s bistTarget < 2 ^ 12) (quiet : ∀ f ∈ bistFields, tget 0 s.touched f.key = 0) : let t := barWrite 0x190000 4 v s
    getF t bistActive = getF s bistActive ∧ getF t bistTarget = getF s bistTarget ∧
    isOn t bistWrDiscard = (isOn s bistWrDiscard && !bit v 1) ∧
    (bits v 2 2 = getF s bistActive → bits v 14 3 = getF s bistTarget → isOn t bistWign = (isOn s bistWign && !bit v 0)) ∧
    (bits v 2 2 ≠ getF s bistActive ∨ bits v 14 3 ≠ getF s bistTarget → isOn t bistWign = true) := by
  dsimp only
  rw [barWrite_bist, fieldsWrite_bist quiet ha ht]
  obtain ⟨active, target, discard, wign⟩ := bistCleared_fields hw hd v
  refine ⟨?_, ?_, ?_, fun h h' => ?_, fun h => ?_⟩
  · rw [getF_warnIf _ _ (by decide), getF_warnIf _ _ (by decide), active]
  · rw [getF_warnIf _ _ (by decide), getF_warnIf _ _ (by decide), target]
  · rw [isOn_congr ((getF_warnIf _ _ (by decide)).trans (getF_warnIf _ _ (by decide))), discard]
  · rw [isOn_warnIf, isOn_warnIf, wign, decide_eq_false (not_not.mpr h), decide_eq_false (not_not.mpr h')]
    rfl
  · rw [isOn_warnIf, isOn_warnIf]
    obtain h | h := h <;> simp [h]

/-- R527: a write to a port under self-test. -/
theorem port_tested {p v : Nat} {s : State} (hp : p < 24) (on : isOn s bistActive = true) (ht : getF s bistTarget = agPort p) :
    barWrite (0x300000 + 0x1000 * p) 4 v s = setOn s bistWrDiscard := by
  have reg : regAt (0x300000 + 0x1000 * p) = some ⟨0x300000 + 0x1000 * p, 4, [pEnable p, pRetrain p, pAutoNarrow p, pLaneEn p]⟩ := by
    have port : 0x1000 * p / 0x1000 = p := Nat.mul_div_cancel_left p (by decide)
    rw [regAt_amx (by omega) (by omega), Nat.add_sub_cancel_left, amxRegs, if_pos (by omega), Nat.mul_mod_right, port]
    rfl
  have cluster : clusterAt (0x300000 + 0x1000 * p) = none := by
    rw [clusterAt, if_neg (by omega), if_neg (by omega)]
  have block : blockAt (0x300000 + 0x1000 * p) = some (agPort p) := by
    simp only [blockAt, cluster]
    rw [if_pos (by omega), Nat.add_sub_cancel_left, Nat.mul_div_cancel_left p (by decide)]
  rw [barWrite_four (by omega) reg rfl rfl]
  exact writeReg_tested cluster block (by rw [flasked, on, ht, decide_eq_true rfl]; rfl)

/-- R577: a write to a cluster in COLD. -/
theorem cluster_cold {cl v : Nat} {s : State} (hc : cl < 16) (cold : getF s (clState cl) = 3) :
    barWrite (0x150000 + 0x1000 * cl) 4 v s = s := by
  have reg : regAt (0x150000 + 0x1000 * cl) = some ⟨0x150000 + 0x1000 * cl, 4, [tunWign cl, tunClearing cl]⟩ := by
    have unit : 0x1000 * cl / 0x1000 = cl := Nat.mul_div_cancel_left cl (by decide)
    rw [regAt_tun (by omega), Nat.add_sub_cancel_left, tunRegs, unit, Nat.mul_mod_right]
    rfl
  have cluster : clusterAt (0x150000 + 0x1000 * cl) = some cl := by
    rw [clusterAt, if_pos (by omega)]
    congr 1
    omega
  rw [barWrite_four (by omega) reg rfl rfl]
  exact writeReg_cold cluster cold

/-! ## The statement -/

/-- Settles O57. -/
theorem observationKeysAndRegisters : Obligations.ObservationKeysAndRegisters := by
  unfold Obligations.ObservationKeysAndRegisters
  refine ⟨?trigger, ?raise, ?freeze, ?wrap, ?record, recordBytesOf_fields, ?lock, ?regen, ?held, ?erased, ?token, ?turn, ?writes⟩
  case trigger =>
    intro n s hp
    refine ⟨fun turn => ?_, fun turn => ?_, fun hn => ?_, fun hn => ?_⟩
    · show execFire s = _
      rw [execFire, whenOn_powered hp, inOrder_inTurn turn]
    · refine ⟨setOff s trigFrozen, ?_, by simp [isOn_eq_false], fun f hf => getF_setF_ne _ _ hf⟩
      show execRearm s = _
      rw [execRearm, whenOn_powered hp, inOrder_inTurn turn, rearm]
    · show execTrigIn n s = _
      rw [execTrigIn, whenOn_powered hp, if_pos hn]
    · show execTrigIn n s = _ ∨ execTrigIn n s = _
      rw [execTrigIn, whenOn_powered hp, if_neg (Nat.not_le.mpr hn)]
      split
      · exact .inl rfl
      · exact .inr rfl
  case raise => exact fun k s => ⟨raiseTrigger_enabled, raiseTrigger_ignored⟩
  case freeze => exact fun tick cause s hp ht hc => counterFreeze_leaves hp ht hc
  case wrap => exact fun u i s hp hu hi hf he hev hmax => counterWrap_leaves hp hu hi hf he hev hmax
  case record =>
    intro u r rest s hp hu he hf
    refine ⟨traceRecordWrite_misplaced hp hu he hf, traceRecordWrite_full hp hu he hf, fun hr takes => ⟨traceRecordWrite_waits hp hu he hf hr takes, fun free ok => ?_⟩⟩
    exact ⟨_, traceRecordWrite_done hp hu he hf hr takes free ok, recordWritten hu hf hr ok⟩
  case lock =>
    intro v s hp turn
    refine ⟨setF s cruLock (bits v 15 4), ?_, ?_, rfl, fun f hf => getF_setF_ne _ _ hf⟩
    · show execCruWayLockWrite v s = _
      rw [execCruWayLockWrite, whenOn_powered hp, inOrder_inTurn turn]
    · rw [getF_setF_self]
      exact Nat.mod_eq_of_lt (Nat.mod_lt _ (by decide))
  case regen =>
    intro sel s hp turn
    have run : exec (.regen sel) s = .next (if sel < 64 then regen sel s else s) := by
      show execRegen sel s = _
      rw [execRegen, whenOn_powered hp, inOrder_inTurn turn]
    rw [run]
    refine ⟨fun h => by rw [if_neg (Nat.not_lt.mpr h)], ?_, fun h0 h hb => ?_, fun h0 h hb => ?_⟩
    · rintro rfl
      rfl
    · rw [if_pos h, Machine.regen, if_neg (by omega), if_pos hb]
    · refine ⟨setF (setOn s keyBusy) keySel sel, ?_, ?_, ?_, rfl, fun _ => rfl⟩
      · rw [run, if_pos h, Machine.regen, if_neg (by omega), hb]
        rfl
      · rw [isOn_eq_true, getF_setF_ne _ _ (by decide), setOn_eq, getF_setF_self]
        decide
      · rw [getF_setF_self]
        exact Nat.mod_eq_of_lt h
  case held => exact fun ag dpa n s hb hd hs => keyHeld_waits hb hs hd ag n
  case erased => exact fun s => ⟨regenDone_loads, regenDone_idle⟩
  case token => exact fun token s hp => ⟨token_accepted hp, token_refused hp⟩
  case turn =>
    intro off size v s hp turn
    show execRegisterWrite off size v s = _
    rw [execRegisterWrite, whenOn_powered hp, inOrder_inTurn turn]
  case writes =>
    intro off size v s
    refine ⟨barWrite_ill, fun hv => errCons_written hv s, bistStat_written, fun on le met => ?_, fun p => port_tested, fun cl => cluster_cold⟩
    rw [barWrite_bist]
    exact isOn_wrDiscard_met on le met

end Sys2Proof.Machine
end

