-- ==== Sys2Proof/Proofs/Ports.lean ====
section
/-!
SUPPORT. The fabric's ports: what sending and receiving a packet changes (R390 to R400, R409).
-/
namespace Sys2Proof.Machine

/-! ## The packets that a port has to send -/

/-- The packets that wait in a port's buffers or in its replay buffer. -/
def outgoing (x : Port) : List Packet := x.bufs ++ x.replay.map Prod.snd

/-- A packet among some others, whatever credits it returns. -/
def Among (p : Packet) (ps : List Packet) : Prop := ∃ c, { p with cred := c } ∈ ps

theorem among_of_mem {p : Packet} {ps : List Packet} (h : p ∈ ps) : Among p ps := ⟨p.cred, h⟩

/-- `t` is `s` after port traffic: packets to send, traces and counters alone differ, and no packet is lost or has come to wait at its target. -/
structure Sent (port : Nat) (s t : State) : Prop where
  changes : ∃ r c w ps, t = { s with regs := r, trc := c, touched := w, amx := { s.amx with ports := ps } }
  reg : ∀ f, Unnoted f → getF t f = getF s f
  rx : (portOf t port).rx = (portOf s port).rx
  among : ∀ p, Among p (outgoing (portOf s port)) → Among p (outgoing (portOf t port))

namespace Sent

theorem refl (port : Nat) (s : State) : Sent port s s := ⟨⟨s.regs, s.trc, s.touched, s.amx.ports, rfl⟩, fun _ _ => rfl, rfl, fun _ h => h⟩

theorem trans {port : Nat} {s t u : State} (h : Sent port s t) (h' : Sent port t u) : Sent port s u := by
  obtain ⟨⟨r, c, w, ps, rfl⟩, reg, rx, among⟩ := h
  obtain ⟨⟨r', c', w', ps', rfl⟩, reg', rx', among'⟩ := h'
  exact ⟨⟨r', c', w', ps', rfl⟩, fun f hf => (reg' f hf).trans (reg f hf), rx'.trans rx, fun p hp => among' p (among p hp)⟩

/-- A notice that leaves the ports. -/
theorem of_noticed {s t : State} (port : Nat) (hn : Noticed s t) (h : ∃ r c w, t = { s with regs := r, trc := c, touched := w }) :
    Sent port s t := by
  obtain ⟨r, c, w, rfl⟩ := h
  exact ⟨⟨r, c, w, s.amx.ports, rfl⟩, hn.reg, rfl, fun _ h => h⟩

/-- A port whose requests wait as before, and whose packets are all still to be sent. -/
theorem of_ports {port : Nat} {s t : State} {x : Port} (changes : ∃ ps, t = { s with amx := { s.amx with ports := ps } })
    (here : portOf t port = x) (rx : x.rx = (portOf s port).rx)
    (among : ∀ p, Among p (outgoing (portOf s port)) → Among p (outgoing x)) : Sent port s t := by
  obtain ⟨ps, rfl⟩ := changes
  exact ⟨⟨s.regs, s.trc, s.touched, ps, rfl⟩, fun _ _ => rfl, by rw [here, rx], by rw [here]; exact among⟩

variable {port : Nat} {s t : State} (h : Sent port s t)
include h

theorem mm : t.mm = s.mm := by obtain ⟨⟨r, c, w, ps, rfl⟩, -⟩ := h; rfl
theorem xl : t.xl = s.xl := by obtain ⟨⟨r, c, w, ps, rfl⟩, -⟩ := h; rfl
theorem sch : t.sch = s.sch := by obtain ⟨⟨r, c, w, ps, rfl⟩, -⟩ := h; rfl
theorem amx : t.amx = { s.amx with ports := t.amx.ports } := by obtain ⟨⟨r, c, w, ps, rfl⟩, -⟩ := h; rfl
theorem getF (f : FRef) (hf : Unnoted f := by exact unnoted_of_range (by decide)) : Machine.getF t f = Machine.getF s f := h.reg f hf

end Sent

/-! ## Sending -/

theorem sent_traceSend (port typ port' : Nat) (p : Packet) (s : State) : Sent port s (traceSend typ port' p s) := by
  unfold traceSend
  split
  · exact .of_noticed port (noticed_traceEvent _ _ _ _ _ _ _ _) (traceEvent_changes _ _ _ _ _ _ _ _)
  · exact .refl port s

/-- A packet that moves from the buffers to the replay buffer, with the credits that it returns then. -/
theorem among_moved {p q : Packet} {bufs : List Packet} {replay : List (Nat × Packet)} (seq c : Nat)
    (h : Among q (bufs ++ replay.map Prod.snd)) : Among q (bufs.erase p ++ (replay ++ [(seq, { p with cred := c })]).map Prod.snd) := by
  obtain ⟨d, hq⟩ := h
  rw [List.map_append]
  obtain hq | hq := List.mem_append.mp hq
  · by_cases e : { q with cred := d } = p
    · refine ⟨c, List.mem_append_right _ (List.mem_append_right _ ?_)⟩
      rw [← e]
      exact List.mem_singleton.mpr rfl
    · exact ⟨d, List.mem_append_left _ ((List.mem_erase_of_ne e).mpr hq)⟩
  · exact ⟨d, List.mem_append_right _ (List.mem_append_left _ hq)⟩

/-- A packet that goes out moves to the replay buffer. -/
theorem sent_emit (port : Nat) (p : Packet) (s : State) :
    Sent port s (emit port p (setPort s port { portOf s port with bufs := (portOf s port).bufs.erase p })) := by
  unfold emit
  refine .trans ?_ ((Sent.of_noticed port (noticed_countBase _ _ _ _) (countBase_changes _ _ _ _)).trans (sent_traceSend _ _ _ _ _))
  rw [portOf_setPort, if_pos rfl]
  exact .of_ports ⟨_, rfl⟩ ((portOf_setPort _ _ _ _).trans (if_pos rfl)) rfl fun q hq => among_moved _ _ hq

theorem sent_pump (port n : Nat) (s : State) : Sent port s (pump port n s) := by
  induction n generalizing s with
  | zero => exact .refl port s
  | succ n ih =>
    unfold pump
    split
    · exact .refl port s
    · exact (sent_emit _ _ _).trans (ih _)

/-- A packet handed to a port is sent, or waits for its turn. -/
theorem sendPacket_among (port : Nat) (p : Packet) (s : State) :
    Sent port s (sendPacket port p s) ∧ Among p (outgoing (portOf (sendPacket port p s) port)) := by
  have queued : Sent port s (setPort s port { portOf s port with bufs := (portOf s port).bufs ++ [p] }) :=
    .of_ports ⟨_, rfl⟩ ((portOf_setPort _ _ _ _).trans (if_pos rfl)) rfl fun q ⟨c, hq⟩ => ⟨c, by
      simp only [outgoing, List.append_assoc, List.mem_append] at hq ⊢
      exact hq.imp_right .inr⟩
  have pumped := sent_pump port (portOf (setPort s port { portOf s port with bufs := (portOf s port).bufs ++ [p] }) port).bufs.length
    (setPort s port { portOf s port with bufs := (portOf s port).bufs ++ [p] })
  refine ⟨queued.trans pumped, pumped.among p (among_of_mem ?_)⟩
  rw [portOf_setPort, if_pos rfl]
  simp [outgoing]

/-! ## Receiving -/

/-- A packet that arrives leaves its cells to return and the credits it brings. -/
theorem sent_arrived (port : Nat) (p : Packet) (s : State) : Sent port s (arrived port p s) := by
  unfold arrived
  refine .trans ?_ (sent_traceSend _ _ _ _ _)
  refine .of_ports ⟨_, rfl⟩ ((portOf_setPort _ _ _ _).trans (if_pos rfl)) ?_ ?_
  · rfl
  · exact fun _ h => h

/-- Responses and control packets leave no trace. -/
theorem arrived_untraced {port : Nat} {p : Packet} (s : State) (h : p.kind ≠ .wr ∧ p.kind ≠ .rdReq ∧ p.kind ≠ .atomReq) :
    arrived port p s = setPort s port { portOf s port with
      credits := tset 0 (portOf s port).credits (p.cred % 4) (tget 0 (portOf s port).credits (p.cred % 4) + p.cred / 4)
      owed := tset 0 (portOf s port).owed p.vl (tget 0 (portOf s port).owed p.vl + cellsOf p) } := by
  obtain ⟨hw, hr, ha⟩ := h
  unfold arrived traceSend
  rw [if_neg]
  simp [hw, hr, ha]

theorem receive_reaches {port : Nat} {p : Packet} {s : State} (h : Reaches port p s) : receive port p s =
    pump port (portOf (rxPacket port p (arrived port p s)) port).bufs.length (rxPacket port p (arrived port p s)) := by
  obtain ⟨on, hp, active, ok⟩ := h
  have barred : (!s.powered || decide (24 ≤ port) || decide (getF s (pState port) ≠ 2)) = false := by simp [on, active]; omega
  unfold receive
  rw [barred, ok]
  rfl

theorem receive_malformed {port : Nat} {p : Packet} {s : State} (on : s.powered = true) (hp : port < 24) (active : getF s (pState port) = 2)
    (bad : packetOk p = false) : receive port p s = incSat s (pUncorr port) (cellsOf p) := by
  have barred : (!s.powered || decide (24 ≤ port) || decide (getF s (pState port) ≠ 2)) = false := by simp [on, active]; omega
  unfold receive
  rw [barred, bad]
  rfl

/-- A packet's row, on a machine that runs, receives a packet of its kind. -/
theorem exec_packetRow {i : Instr} {kd : PacketKind} {port : Nat} {p : Packet} {s : State} (hp : s.powered = true)
    (h : packetRowOf i = some (kd, port, p)) : exec i s = .next (if p.kind = kd then receive port p s else s) := by
  unfold packetRowOf at h
  split at h
  all_goals cases h
  all_goals exact whenOn_powered hp _

/-- A sound packet that reaches its port is taken, and then the port sends what it can. -/
theorem exec_packet {i : Instr} {port : Nat} {p : Packet} {s : State} (hr : Reaches port p s) (row : packetRowOf i = some (p.kind, port, p)) :
    ∃ t, exec i s = .next t ∧ Sent port (rxPacket port p (arrived port p s)) t :=
  ⟨_, by rw [exec_packetRow hr.1 row, if_pos rfl, receive_reaches hr], sent_pump _ _ _⟩

end Sys2Proof.Machine
end

