-- ==== Sys2Proof/Proofs/InboundRequests.lean ====
section
/-!
SUPPORT. Requests of the fabric at their target (R350, R410): what a window admits, and what a read, a write and an atomic of one line do.
-/
namespace Sys2Proof.Machine

/-! ## Memory that a read leaves -/

theorem SameMemory.trans {s t u : State} (h : SameMemory s t) (h' : SameMemory t u) : SameMemory s u := ⟨h'.1.trans h.1, h'.2.trans h.2⟩

theorem Noticed.sameMemory {s t : State} (h : Noticed s t) : SameMemory s t := ⟨h.mem, h.host⟩

theorem sameMemory_countBase (c i n : Nat) (s : State) : SameMemory s (countBase c i n s) := (noticed_countBase c i n s).sameMemory

/-- The views that a socket has decoded last are noted beside memory. -/
theorem sameMemory_decoded (s : State) (d : Tbl (List Nat)) : SameMemory s { s with mm := { s.mm with decoded := d } } := ⟨rfl, rfl⟩

theorem sameMemory_noteView (n dpa : Nat) (s : State) : SameMemory s (noteView n dpa s) := by
  unfold noteView
  dsimp only
  refine .trans ?_ (sameMemory_countBase 0x0D n 1 _)
  split
  · exact (sameMemory_countBase 0x0E n 1 s).trans (sameMemory_decoded _ _)
  · exact sameMemory_decoded s _

theorem sameMemory_readDone (dpa : Nat) (s : State) : SameMemory s (readDone dpa s) := by
  unfold readDone
  split
  · unfold toRun
    split <;> exact ⟨rfl, rfl⟩
  · split
    · exact sameMemory_noteView _ _ _
    · exact ⟨rfl, rfl⟩
  · exact ⟨rfl, rfl⟩

/-- A device address whose line is free is read as the device reads it, and memory stays. -/
theorem readTarget_dev {a : Acc2} {dpa va n : Nat} {s : State} {bs : List Byte} (free : lineBusy s (lineOf (locOf dpa)) none none none = false)
    (hr : devRead s a.agent dpa n = .ok bs) : ∃ t, readTarget a (.dev dpa) va n none s = (t, .ok bs) ∧ SameMemory s t := by
  have noted : SameMemory s (readNote dpa (.ok bs) s) := .trans ⟨rfl, rfl⟩ (sameMemory_readDone dpa (bumpFree s 1))
  have placed : ∀ line t, SameMemory t (placeLine none line false t) := fun line t => (noticed_readCurrent line t).sameMemory
  unfold readTarget
  dsimp only
  rw [free, hr]
  refine ⟨_, rfl, noted.trans ?_⟩
  dsimp only
  split
  · refine (noticed_keyTurn dpa _).sameMemory.trans ?_
    split
    · exact (noticed_noteSnoop _ _).sameMemory.trans (placed _ _)
    · exact placed _ _
  · exact ⟨rfl, rfl⟩

/-! ## One line -/

/-- HBM, as a range of locations. -/
theorem placeOf_hbm_iff {loc k : Nat} : placeOf loc = .hbm k ↔ loc < 0x008FE0000000 ∧ loc / 4096 % 12 = k := by
  unfold placeOf
  by_cases h : loc < 0x009000000000
  · rw [if_pos h]
    by_cases fw : 0x008FE0000000 ≤ loc
    · rw [if_pos fw]
      exact ⟨fun e => (nomatch e), fun e => absurd e.1 (Nat.not_lt.mpr fw)⟩
    · rw [if_neg fw]
      exact ⟨fun e => ⟨Nat.lt_of_not_le fw, Place.hbm.inj e⟩, fun e => congrArg _ e.2⟩
  · rw [if_neg h]
    refine ⟨fun e => ?_, fun e => absurd e.1 (by omega)⟩
    repeat' split at e
    all_goals exact nomatch e

/-- The address of a line and an address in it are the same to all that bars a write of HBM. -/
theorem writeBar_of_line {s : State} {ag dpa k : Nat} (hp : placeOf (locOf dpa) = .hbm k) (h : writeBar s ag (dpa / 128 * 128) = .ok ()) :
    writeBar s ag dpa = .ok () := by
  have hp' : placeOf (locOf (dpa / 128 * 128)) = .hbm k := by
    rw [placeOf_hbm_iff] at hp ⊢
    unfold locOf at hp ⊢
    omega
  have key : keyHeld s (dpa / 128 * 128) = keyHeld s dpa := by
    have sel : keyselOf (dpa / 128 * 128) = keyselOf dpa := by
      simp only [keyselOf, bits, Nat.shiftRight_eq_div_pow]
      omega
    rw [keyHeld, keyHeld, sel]
  unfold writeBar at h ⊢
  rw [hp', key] at h
  rw [hp]
  by_cases big : 2 ^ 52 ≤ dpa
  · rw [if_pos (by omega)] at h
    cases h
  · rw [if_neg big]
    rw [if_neg (by omega)] at h
    exact h

/-- A write of bytes in one line is ready when nothing bars it. -/
theorem writeReady_line {ag dpa n k : Nat} {s : State} (hp : placeOf (locOf dpa) = .hbm k) (hn : 1 ≤ n) (fits : dpa % 128 + n ≤ 128)
    (h : writeReady ag dpa n s = .ok ()) : writeBar s ag dpa = .ok () ∧ lineBusy s (lineOf (locOf dpa)) none none none = false := by
  have one : (dpa % 128 + n + 127) / 128 = 1 := by omega
  have line : lineOf (locOf (dpa / 128 * 128)) = lineOf (locOf dpa) := by
    unfold lineOf locOf
    omega
  unfold writeReady at h
  rw [one] at h
  simp only [List.range_one, List.foldl_cons, List.foldl_nil, Nat.mul_zero, Nat.add_zero, line] at h
  split at h
  next bar =>
    split at h
    · cases h
    next free => exact ⟨writeBar_of_line hp bar, by simpa using free⟩
  next r other => exact absurd h other

/-- One byte of a write, beside the runs of those before it. -/
def runStep (dpa be : Nat) (bs : List Byte) (acc : List (Nat × List Byte)) (i : Nat) : List (Nat × List Byte) :=
  if !(decide (64 ≤ i) || bit be i) then acc
  else
    match acc.getLast? with
    | some (o, x) => if o + x.length = i ∧ (dpa + i) % 128 ≠ 0 then acc.dropLast ++ [(o, x ++ (bs.drop i).take 1)] else acc ++ [(i, (bs.drop i).take 1)]
    | none => [(i, (bs.drop i).take 1)]

theorem writeRuns_eq (dpa be : Nat) (bs : List Byte) : writeRuns dpa be bs = (List.range bs.length).foldl (runStep dpa be bs) [] := rfl

/-- With every byte enabled, a run grows up to the end of its line. -/
theorem foldl_runStep {dpa m : Nat} {bs : List Byte} (hm : m < bs.length) (fits : dpa % 128 + bs.length ≤ 128) :
    (List.range (m + 1)).foldl (runStep dpa (2 ^ 64 - 1) bs) [] = [(0, bs.take (m + 1))] := by
  have enabled : ∀ i, (decide (64 ≤ i) || bit (2 ^ 64 - 1) i) = true := fun i => by
    rw [bit_eq_testBit, Nat.testBit_two_pow_sub_one]
    by_cases h : 64 ≤ i
    · simp [h]
    · simp [Nat.lt_of_not_le h]
  induction m with
  | zero =>
    rw [List.range_one, List.foldl_cons, List.foldl_nil, runStep, enabled]
    rfl
  | succ m ih =>
    have inside : (dpa + (m + 1)) % 128 ≠ 0 := by omega
    rw [List.range_succ, List.foldl_append, ih (by omega), List.foldl_cons, List.foldl_nil, runStep, enabled]
    simp only [Bool.not_true, Bool.false_eq_true, if_false, List.getLast?_singleton]
    rw [if_pos ⟨by rw [List.length_take]; omega, inside⟩, List.take_add (i := m + 1)]
    rfl

/-- A write of every byte in one line is one run. -/
theorem writeRuns_line {dpa : Nat} {bs : List Byte} (hn : 1 ≤ bs.length) (fits : dpa % 128 + bs.length ≤ 128) :
    writeRuns dpa (2 ^ 64 - 1) bs = [(0, bs)] := by
  obtain ⟨m, hm⟩ := Nat.exists_eq_add_of_le' hn
  rw [writeRuns_eq, hm, foldl_runStep (by omega) fits, List.take_of_length_le (by omega)]

/-- A write of bytes in one line of HBM that nothing bars: it is performed at the line's home. -/
theorem writeTarget_hbm {a : Acc2} {dpa va k : Nat} {bs : List Byte} {s : State} (hp : placeOf (locOf dpa) = .hbm k)
    (ok : writeBar s a.agent dpa = .ok ()) (free : lineBusy s (lineOf (locOf dpa)) none none none = false) :
    writeTarget a (.dev dpa) va bs none s = (homeWrite dpa bs (decide (bs.length = 128)) s, .ok ()) := by
  unfold writeTarget writeTargetF
  dsimp only
  rw [free, ok, homed_hbm hp]
  rfl

/-- HBM that is read is not poisoned. -/
theorem not_poisoned_of_devRead {s : State} {ag dpa n k : Nat} {bs : List Byte} (hp : placeOf (locOf dpa) = .hbm k)
    (h : devRead s ag dpa n = .ok bs) : poisoned s (locOf dpa) = false := by
  unfold devRead at h
  split at h
  · cases h
  · split at h
    · cases h
    · simp only [hp] at h
      split at h
      · cases h
      · split at h
        · cases h
        next clean => exact Bool.eq_false_of_not_eq_true clean

/-! ## The requests -/

section
variable {port n : Nat} {p : Packet} {s : State}

/-- A request that its window keeps out is answered with its refusal. -/
theorem serve_refused (h : admits s (p.iwin % 256) p.src (if p.kind = .semSig then 0 else p.offset)
      (if p.kind = .atomReq then (if bit p.aux 4 then 8 else 4) else if p.kind = .semSig then 0 else p.len) (needs p.kind) = false) :
    ∃ s1 k, serve port p s = (s1, some (k, 0x22, 0x25, [])) ∧ s1.mm = s.mm := by
  obtain ⟨r, e⟩ := errEvent_changes 0x07 (agPort port) 0x22 0x25 (p.src % 2048 + 2 ^ 16 * (p.iwin % 256)) 0 s
  have refused : ∃ k, serve port p s = (refuseEntry port p 0x22 0x25 0 s, some (k, 0x22, 0x25, [])) := by
    unfold serve
    exact ⟨_, if_pos (by rw [h]; rfl)⟩
  obtain ⟨k, run⟩ := refused
  exact ⟨_, k, run, by rw [refuseEntry, e]⟩

/-- A signal adds to its semaphore. -/
theorem serve_semSig (hk : p.kind = .semSig) (h : admits s (p.iwin % 256) p.src 0 0 (needs p.kind) = true) :
    serve port p s = (semaAdd (p.offset % 2 ^ 14) p.aux s, some (.atomRsp, 0, 0, [])) := by
  rw [hk] at h
  unfold serve
  rw [hk]
  refine (if_neg (by simp [h])).trans ?_
  simp only

/-- A read of bytes of one line that is free. -/
theorem readDpa_line {a : Acc2} {fuel dpa : Nat} {bs : List Byte} (hn : 1 ≤ n) (fits : dpa % 128 + n ≤ 128)
    (free : lineBusy s (lineOf (locOf dpa)) none none none = false) (hr : devRead s a.agent dpa n = .ok bs) :
    ∃ t, readDpa a (fuel + 2) dpa n s = (t, .ok bs) ∧ SameMemory s t := by
  obtain ⟨t, e, same⟩ := readTarget_dev (va := dpa) free hr
  refine ⟨t, ?_, same⟩
  rw [readDpa, if_neg (by omega), Nat.min_eq_left (by omega)]
  simp [e, readDpa]

/-- A read whose bytes are had. -/
theorem serve_rdReq {dpa : Nat} {t : State} {bs : List Byte} (hk : p.kind = .rdReq)
    (h : admits s (p.iwin % 256) p.src p.offset p.len (needs p.kind) = true) (hd : inboundDpa s (p.iwin % 256) p.offset = dpa)
    (hr : readDpa (inboundAccess port) 34 dpa p.len s = (t, .ok bs)) : serve port p s = (t, some (.rdRsp, 0, 0, bs)) := by
  rw [hk] at h
  unfold serve
  rw [hk, hd]
  refine (if_neg (by simp [h])).trans ?_
  simp only [reduceCtorEq, if_false, hr]

/-- A write that is ready. -/
theorem serve_wr {dpa : Nat} (hk : p.kind = .wr) (h : admits s (p.iwin % 256) p.src p.offset p.len (needs p.kind) = true)
    (hd : inboundDpa s (p.iwin % 256) p.offset = dpa) (clean : p.status ≠ 0x30)
    (ready : writeReady (inboundAccess port).agent dpa p.len s = .ok ()) :
    serve port p s = ((writeRuns dpa p.aux p.payload).foldl (fun s x =>
      (writeTarget (inboundAccess port) (.dev (dpa + x.1)) (dpa + x.1) x.2 none s).1) s, some (.wrAck, 0, 0, [])) := by
  rw [hk] at h
  unfold serve
  rw [hk, hd]
  refine (if_neg (by simp [h])).trans ?_
  simp only [reduceCtorEq, if_false, ready, clean]

/-- What an atomic leaves at its address (R281). -/
def atomResult (n : Nat) (p : Packet) (old : List Byte) : List Byte :=
  leBytes n (atomVal (p.aux % 16) (8 * n) (leNat old) (fieldOf p.payload 0 n) (fieldOf p.payload n n))

/-- A sound atomic that is ready, and whose old value is had. -/
theorem serve_atomReq {dpa : Nat} {old : List Byte} (hk : p.kind = .atomReq) (hn : (if bit p.aux 4 then 8 else 4) = n)
    (h : admits s (p.iwin % 256) p.src p.offset n (needs p.kind) = true) (hd : inboundDpa s (p.iwin % 256) p.offset = dpa)
    (good : ¬(dpa % n ≠ 0 ∨ 10 < p.aux % 16 ∨ (p.aux % 16 = 1 ∧ n = 8)))
    (ready : writeReady (inboundAccess port).agent dpa n s = .ok ()) (hr : devRead s (inboundAccess port).agent dpa n = .ok old) :
    serve port p s = (putDev dpa (atomResult n p old) false false (atomHome dpa (bit p.aux 5) (beforeWrite dpa n none s)),
      some (.atomRsp, 0, 0, if bit p.aux 6 then [] else old)) := by
  rw [hk] at h
  unfold serve
  rw [hk, hd, hn]
  refine (if_neg (by simp [h])).trans ?_
  simp only [if_true, good, if_false, ready, hr, atomResult]

/-- A write of one line of HBM leaves its bytes, and its line with no holder. -/
theorem wr_leaves {dpa k : Nat} (hk : p.kind = .wr) (h : admits s (p.iwin % 256) p.src p.offset p.len (needs p.kind) = true)
    (hd : inboundDpa s (p.iwin % 256) p.offset = dpa) (hn : 1 ≤ p.len) (len : p.payload.length = p.len) (be : p.aux = 2 ^ 64 - 1)
    (fits : dpa % 128 + p.len ≤ 128) (clean : p.status ≠ 0x30) (hp : placeOf (locOf dpa) = .hbm k) (hq : poisoned s (locOf dpa) = false)
    (ready : writeReady (agPort port) dpa p.len s = .ok ()) :
    ∃ s1, serve port p s = (s1, some (.wrAck, 0, 0, [])) ∧ devRead s1 (agPort port) dpa p.len = .ok p.payload ∧
      dirOf s1 (lineOf (locOf dpa)) = .U := by
  obtain ⟨ok, free⟩ := writeReady_line hp hn fits ready
  obtain ⟨u, -, dir, e⟩ := homeWrite_eq_putDev hp p.payload (decide (p.payload.length = 128)) s
  refine ⟨homeWrite dpa p.payload (decide (p.payload.length = 128)) s, ?_, ?_, ?_⟩
  · rw [serve_wr hk h hd clean ready, be, writeRuns_line (by omega) (by omega), List.foldl_cons, List.foldl_nil, Nat.add_zero,
      writeTarget_hbm hp ok free]
  · rw [← len]
    refine devRead_homeWrite hp (agPort port) p.payload _ s ?_ ok hq
    unfold locOf
    omega
  · rw [e]
    simp only [dirOf, putDev_hbm_dir hp]
    exact dir

/-- An atomic of HBM leaves its result. -/
theorem atomReq_leaves {dpa k : Nat} {old : List Byte} (hk : p.kind = .atomReq) (hn : (if bit p.aux 4 then 8 else 4) = n)
    (h : admits s (p.iwin % 256) p.src p.offset n (needs p.kind) = true) (hd : inboundDpa s (p.iwin % 256) p.offset = dpa)
    (aligned : dpa % n = 0) (op : p.aux % 16 ≤ 10) (whole : ¬(p.aux % 16 = 1 ∧ n = 8)) (hp : placeOf (locOf dpa) = .hbm k)
    (ready : writeReady (agPort port) dpa n s = .ok ()) (hr : devRead s (agPort port) dpa n = .ok old) :
    ∃ s1, serve port p s = (s1, some (.atomRsp, 0, 0, if bit p.aux 6 then [] else old)) ∧
      devRead s1 (agPort port) dpa n = .ok (atomResult n p old) := by
  have size : n = 8 ∨ n = 4 := by
    rw [← hn]
    split
    · exact .inl rfl
    · exact .inr rfl
  have fits : dpa % 128 + n ≤ 128 := by
    obtain rfl | rfl := size <;> omega
  obtain ⟨ok, -⟩ := writeReady_line hp (by omega) fits ready
  have good : ¬(dpa % n ≠ 0 ∨ 10 < p.aux % 16 ∨ (p.aux % 16 = 1 ∧ n = 8)) := by
    rintro (bad | bad | bad)
    · exact bad aligned
    · omega
    · exact whole bad
  have noticed := (noticed_beforeWrite dpa n none s).trans (noticed_atomHome dpa (bit p.aux 5) _)
  refine ⟨_, serve_atomReq hk hn h hd good ready hr, ?_⟩
  have len : (atomResult n p old).length = n := leBytes_length _ _
  generalize atomResult n p old = new at len
  generalize atomHome dpa (bit p.aux 5) (beforeWrite dpa n none s) = t at noticed
  have regs := getF_congr (putDev_hbm_regs hp new false false t)
  rw [← len]
  refine devRead_stored (agPort port) new false false hp ?_ (ag := agPort port) ?_
    ((noticed.poisoned _).trans (not_poisoned_of_devRead hp hr)) rfl (putDev_hbm_sec hp new false false t)
  · rw [len]
    unfold locOf
    omega
  · rw [writeBar_hbm_congr hp (regs _) (regs _) (regs _), noticed.writeBar_hbm hp, ok]

end

end Sys2Proof.Machine
end

