-- ==== Sys2Proof/Proofs/ControlPackets.lean ====
section
/-!
SUPPORT. Castings that a peer's SCHED_ABORT ends (R409), and the responses and control packets that a port takes (R393, R400, R410).
-/
namespace Sys2Proof.Machine

/-! ## What the end of a casting leaves alone -/

/-- The castings, the queues and the fabric are as they were. -/
def Aside (s t : State) : Prop := t.sch = s.sch ∧ t.amx = s.amx

namespace Aside

theorem refl (s : State) : Aside s s := ⟨rfl, rfl⟩
theorem trans {s t u : State} (h : Aside s t) (h' : Aside t u) : Aside s u := ⟨h'.1.trans h.1, h'.2.trans h.2⟩
theorem foldl {β : Type} {f : State → β → State} (h : ∀ s x, Aside s (f s x)) (xs : List β) (s : State) : Aside s (xs.foldl f s) :=
  List.foldlRecOn xs f (motive := Aside s) (refl s) (fun t ht x _ => ht.trans (h t x))
theorem of_noticed {s t : State} (h : Noticed s t) : Aside s t := ⟨h.sch, h.amx⟩

end Aside

theorem aside_setF (s : State) (f : FRef) (v : Nat) : Aside s (setF s f v) := ⟨setF_sch s f v, setF_amx s f v⟩
theorem aside_setCore (s : State) (g : Nat) (c : Core) : Aside s (setCore s g c) := ⟨rfl, rfl⟩
theorem aside_setCluster (s : State) (n : Nat) (c : Cluster) : Aside s (setCluster s n c) := ⟨rfl, rfl⟩
theorem aside_spr (s : State) (c : Tbl (Tbl Chan)) : Aside s { s with spr := { s.spr with chans := c } } := ⟨rfl, rfl⟩

theorem aside_freeConsort (g k : Nat) (s : State) : Aside s (freeConsort g k s) := by
  have left : Aside s ((consortOf s g k).courses.foldl (fun s i => leaveMiss g i s) (adopt (courseIn g (consortOf s g k).courses) (.cores (clOf g)) s)) :=
    .trans ⟨rfl, rfl⟩ (.foldl (fun s i => .of_noticed (noticed_leaveMiss g i s)) _ _)
  unfold freeConsort
  dsimp only
  refine left.trans ?_
  split
  · exact (aside_setCore _ _ _).trans (.foldl (fun s f => aside_setF s f 0) _ _)
  · exact aside_setCore _ _ _

theorem aside_clearCore (k g : Nat) (s : State) : Aside s (clearCore k g s) := by
  unfold clearCore
  dsimp only
  refine .trans ?_ (aside_setCore _ _ _)
  refine .trans ?_ (.foldl (fun s e => ?_) _ _)
  · split
    · split
      · exact .of_noticed (noticed_abortPourAt _ _ _ _ _)
      · exact .refl s
    · exact .refl s
  · split
    · exact .refl s
    · split
      · exact .foldl (fun s i => .of_noticed (noticed_setCourse _ _ _ _)) _ s
      · exact aside_freeConsort _ _ _

theorem aside_clearCluster (k cl : Nat) (s : State) : Aside s (clearCluster k cl s) := by
  unfold clearCluster
  exact (Aside.foldl (fun s g => aside_clearCore k g s) _ s).trans (aside_setCluster _ _ _)

theorem aside_clearChans (k : Nat) (s : State) : Aside s (clearChans k s) := by
  unfold clearChans
  refine .foldl (fun s e => .foldl (fun s c => ?_) _ s) _ s
  split
  · exact .refl s
  · split
    · exact aside_spr _ _
    · exact (Aside.of_noticed ((noticed_dropToken _ _).trans (noticed_unlockAll _ _))).trans ((aside_spr _ _).trans (aside_setF _ _ _))

theorem aside_dropWaiters (k : Nat) (s : State) : Aside s (dropWaiters k s) := ⟨rfl, rfl⟩

/-! ## Castings that end -/

/-- The end is noted, and the casting's work withdrawn. -/
def withdrawn (k : Nat) (e : Ending) (s : State) : State :=
  (maskList (castingOf s k).mask).foldl (fun s cl => clearCluster k cl s)
    (clearChans k (dropWaiters k (setCasting s k { castingOf s k with ending := some e })))

/-- What the trigger and the trace record of an end. -/
def endRecorded (c : Casting) (e : Ending) (s : State) : State :=
  if e.code = 0x30 then traceEvent 16 0x0F e.agent c.sched c.layer c.op e.addr (if e.st = stFault then raiseTrigger 4 s else s)
  else if e.st = stFault then raiseTrigger 4 s else s

theorem aside_endRecorded (c : Casting) (e : Ending) (s : State) : Aside s (endRecorded c e s) := by
  have triggered : Aside s (if e.st = stFault then raiseTrigger 4 s else s) := by
    split
    · exact .of_noticed (noticed_raiseTrigger _ _)
    · exact .refl s
  unfold endRecorded
  by_cases h : e.code = 0x30
  · rw [if_pos h]
    exact triggered.trans (.of_noticed (noticed_traceEvent _ _ _ _ _ _ _ _))
  · rw [if_neg h]
    exact triggered

theorem endCasting_eq {k : Nat} {e : Ending} {s : State} (live : (castingOf s k).live = true) (running : (castingOf s k).ending = none) :
    endCasting k e false s = endRecorded (castingOf s k) e (withdrawn k e s) := by
  unfold endCasting
  refine (if_neg (by rw [live, running]; decide)).trans ((if_neg ?_).trans rfl)
  rw [Bool.and_false]
  exact Bool.false_ne_true

/-- A running casting that ends, with no peer told: its end is noted, and no other casting changes. -/
theorem endCasting_untold {k : Nat} {e : Ending} {s : State} (live : (castingOf s k).live = true) (running : (castingOf s k).ending = none) :
    (endCasting k e false s).amx = s.amx ∧
      ∀ j, castingOf (endCasting k e false s) j = if j = k then { castingOf s k with ending := some e } else castingOf s j := by
  have ended : Aside (setCasting s k { castingOf s k with ending := some e }) (endCasting k e false s) := by
    rw [endCasting_eq live running]
    exact (aside_dropWaiters k _).trans ((aside_clearChans k _).trans
      ((Aside.foldl (fun s cl => aside_clearCluster k cl s) _ _).trans (aside_endRecorded _ _ _)))
  refine ⟨ended.2, fun j => ?_⟩
  rw [← castingOf_setCasting]
  simp only [castingOf, ended.1]

/-- Running castings that end, each once. -/
theorem foldl_endCasting {e : Ending} {ks : List Nat} {s : State} (nd : ks.Nodup)
    (run : ∀ k ∈ ks, (castingOf s k).live = true ∧ (castingOf s k).ending = none) :
    (ks.foldl (fun s k => endCasting k e false s) s).amx = s.amx ∧
      ∀ j, castingOf (ks.foldl (fun s k => endCasting k e false s) s) j = if j ∈ ks then { castingOf s j with ending := some e } else castingOf s j := by
  induction ks generalizing s with
  | nil => exact ⟨rfl, fun j => by simp⟩
  | cons k ks ih =>
    obtain ⟨hk, nd⟩ := List.nodup_cons.mp nd
    obtain ⟨live, running⟩ := run k List.mem_cons_self
    obtain ⟨amx, own⟩ := endCasting_untold (e := e) live running
    have others : ∀ j, j ≠ k → castingOf (endCasting k e false s) j = castingOf s j := fun j hj => by rw [own, if_neg hj]
    obtain ⟨amx', each⟩ := ih nd (fun j hj => by
      rw [others j (fun h => hk (h ▸ hj))]
      exact run j (List.mem_cons_of_mem _ hj))
    refine ⟨amx'.trans amx, fun j => ?_⟩
    rw [List.foldl_cons, each]
    by_cases hj : j = k
    · subst hj
      rw [if_neg hk, own, if_pos rfl, if_pos List.mem_cons_self]
    · rw [others j hj]
      simp [hj]

theorem mem_schedSlots {s : State} {k : Nat} : k ∈ schedSlots s ↔
    k < 16 ∧ (castingOf s k).live = true ∧ (castingOf s k).sched = true ∧ (castingOf s k).ending = none := by
  simp [schedSlots, and_assoc]

/-- SCHED_ABORT is noted, and ends the castings of its schedule that started at its fret. -/
theorem takeAbort_leaves (port : Nat) (p : Packet) (s : State) :
    (takeAbort port p s).amx = { s.amx with aborts := ((p.tag, p.offset, port) :: s.amx.aborts).take 64 } ∧
    ∀ k, k < 16 → (castingOf s k).live = true → (castingOf s k).sched = true → (castingOf s k).ending = none →
      (castingOf (takeAbort port p s) k).ending = if (castingOf s k).schedId = p.tag ∧ (castingOf s k).startFret = p.offset
        then some (faultEnd 0x41 0x10 (agPort port) 0) else none := by
  have nodup : (schedSlots s).Nodup := List.nodup_range.filter _
  obtain ⟨amx, each⟩ := foldl_endCasting (e := faultEnd 0x41 0x10 (agPort port) 0)
    (s := { s with amx := { s.amx with aborts := ((p.tag, p.offset, port) :: s.amx.aborts).take 64 } })
    (nodup.filter (fun k => decide ((castingOf s k).schedId = p.tag) && decide ((castingOf s k).startFret = p.offset)))
    (fun k hk => by
      obtain ⟨-, live, -, running⟩ := mem_schedSlots.mp (List.mem_of_mem_filter hk)
      exact ⟨live, running⟩)
  refine ⟨amx, fun k hk live sched running => ?_⟩
  have slot : k ∈ schedSlots s := mem_schedSlots.mpr ⟨hk, live, sched, running⟩
  refine (congrArg Casting.ending (each k)).trans ?_
  by_cases named : (castingOf s k).schedId = p.tag ∧ (castingOf s k).startFret = p.offset
  · rw [if_pos named, if_pos (List.mem_filter.mpr ⟨slot, by simp [named]⟩)]
  · rw [if_neg named, if_neg (fun h => named (by simpa using (List.mem_filter.mp h).2))]
    exact running

end Sys2Proof.Machine
end

