-- ==== Sys2Proof/Proofs/FabricPackets.lean ====
section
/-!
CERTIFICATE. Packets that arrive from the fabric (R12, R214, R350, R390 to R410).
-/
namespace Sys2Proof.Machine

/-! ## Requests -/

/-- A request that is served while no other waits. -/
theorem rxRequest_served {port : Nat} {p : Packet} {u s1 : State} {k : PacketKind} {c sub : Nat} {bs : List Byte}
    (idle : (portOf u port).rx = []) (h : serve port p u = (s1, some (k, c, sub, bs))) :
    rxRequest port p u = if p.kind = .semSig then s1 else respond port p k c sub bs s1 := by
  simp [rxRequest, answer, idle, h]

/-- One that is held. -/
theorem rxRequest_held {port : Nat} {p : Packet} {u s1 : State} (idle : (portOf u port).rx = []) (h : serve port p u = (s1, none)) :
    rxRequest port p u = setPort s1 port { portOf s1 port with rx := [p] } := by
  simp [rxRequest, answer, idle, h]

/-- The response goes back at the port of the request. -/
theorem respond_active {port : Nat} {p : Packet} {k : PacketKind} {c sub : Nat} {bs : List Byte} {s : State} (active : getF s (pState port) = 2) :
    respond port p k c sub bs s =
      sendPacket port ⟨k, if p.vl = 3 then 3 else 2, getF s amxDev, p.src, p.tag, 0, 0, bs.length, 0, c, sub, bs, 0⟩ s := by
  rw [respond, if_pos active]

/-- A request's row: the request is served or held, and then the port sends what it can. -/
theorem exec_requestRow {port : Nat} {p : Packet} {i : Instr} {s : State} (hr : Reaches port p s) (hi : requestRow port p i) :
    ∃ t, exec i s = .next t ∧ Sent port (rxRequest port p (arrived port p s)) t := by
  have row : packetRowOf i = some (p.kind, port, p) ∧ rxPacket port p (arrived port p s) = rxRequest port p (arrived port p s) := by
    unfold rxPacket
    obtain ⟨rfl, hk⟩ | ⟨rfl, hk⟩ | ⟨rfl, hk⟩ | ⟨rfl, hk⟩ := hi <;> rw [hk] <;> exact ⟨rfl, rfl⟩
  rw [← row.2]
  exact exec_packet hr row.1

theorem request_served {port : Nat} {p : Packet} {i : Instr} {s s1 : State} {k : PacketKind} {c sub : Nat} {bs : List Byte}
    (hr : Reaches port p s) (hi : requestRow port p i) (idle : (portOf s port).rx = [])
    (h : serve port p (arrived port p s) = (s1, some (k, c, sub, bs))) (active : getF s1 (pState port) = 2) :
    Next i s (fun t => t.mm = s1.mm ∧ (portOf t port).rx = (portOf s1 port).rx ∧ (p.kind ≠ .semSig → Responds port p k c sub bs t)) := by
  obtain ⟨t, run, pumped⟩ := exec_requestRow hr hi
  rw [rxRequest_served ((sent_arrived port p s).rx.trans idle) h] at pumped
  refine ⟨t, run, ?_⟩
  by_cases signal : p.kind = .semSig
  · rw [if_pos signal] at pumped
    exact ⟨pumped.mm, pumped.rx, fun other => absurd signal other⟩
  · rw [if_neg signal, respond_active active] at pumped
    obtain ⟨sent, among⟩ := sendPacket_among port
      ⟨k, if p.vl = 3 then 3 else 2, getF s1 amxDev, p.src, p.tag, 0, 0, bs.length, 0, c, sub, bs, 0⟩ s1
    have all := sent.trans pumped
    obtain ⟨cred, mem⟩ := pumped.among _ among
    exact ⟨all.mm, all.rx, fun _ => ⟨_, mem, rfl, rfl, rfl, rfl, rfl, rfl, rfl⟩⟩

theorem request_held {port : Nat} {p : Packet} {i : Instr} {s s1 : State} (hr : Reaches port p s) (hi : requestRow port p i)
    (idle : (portOf s port).rx = []) (h : serve port p (arrived port p s) = (s1, none)) :
    Next i s (fun t => t.mm = s1.mm ∧ (portOf t port).rx = [p]) := by
  obtain ⟨t, run, pumped⟩ := exec_requestRow hr hi
  rw [rxRequest_held ((sent_arrived port p s).rx.trans idle) h] at pumped
  refine ⟨t, run, pumped.mm, pumped.rx.trans ?_⟩
  rw [portOf_setPort, if_pos rfl]

/-! ## Responses -/

/-- A response completes the request that it answers, and an error ends one that nobody awaits. -/
theorem rxResponse_answered {port : Nat} {k : PacketKind} {p : Packet} {r : WinReq} {s : State} (h : answered p k s = some r) :
    rxResponse port k p s = if k = .wr ∧ awaitsAck r.who = false then
      (if (answerCode p.status p.sub).1 ≠ 0 then
        failWin { r with port := port } (answerCode p.status p.sub).1 (answerCode p.status p.sub).2
          { s with xl := { s.xl with wins := s.xl.wins.map (fun x => if x = r then { r with port := port } else x) } }
       else { s with xl := { s.xl with wins := s.xl.wins.filter (fun x => decide (x ≠ r)) } })
    else { s with xl := { s.xl with wins := s.xl.wins.map (fun x => if x = r then
      { r with port := port, back := some ((answerCode p.status p.sub).1, (answerCode p.status p.sub).2, p.payload) } else x) } } := by
  unfold answered at h
  unfold rxResponse
  rw [h]

theorem responseRow_taken {port : Nat} {p : Packet} {k : PacketKind} {i : Instr} (hi : responseRow port p k i) (s : State) :
    packetRowOf i = some (p.kind, port, p) ∧ rxPacket port p s = rxResponse port k p s := by
  unfold rxPacket
  obtain ⟨rfl, hk, rfl⟩ | ⟨rfl, hk, rfl⟩ | ⟨rfl, hk, rfl⟩ := hi <;> rw [hk] <;> exact ⟨rfl, rfl⟩

theorem response_completes {port : Nat} {p : Packet} {k : PacketKind} {i : Instr} {r : WinReq} {s : State} (hr : Reaches port p s)
    (hi : responseRow port p k i) (ha : answered p k s = some r) :
    let c := answerCode p.status p.sub
    let r' := { r with port := port }
    let s' := { arrived port p s with xl := { s.xl with wins := s.xl.wins.map (fun x => if x = r then r' else x) } }
    ((k ≠ .wr ∨ awaitsAck r.who = true) → Next i s (fun t => t.xl.wins = s.xl.wins.map (fun x =>
      if x = r then { r' with back := some (c.1, c.2, p.payload) } else x) ∧ t.mm = s.mm)) ∧
    (k = .wr → awaitsAck r.who = false → c.1 = 0 → Next i s (fun t =>
      t.xl.wins = s.xl.wins.filter (fun x => decide (x ≠ r)) ∧ t.mm = s.mm)) ∧
    (k = .wr → awaitsAck r.who = false → c.1 ≠ 0 →
      exec i s = .next (pump port (portOf (failWin r' c.1 c.2 s') port).bufs.length (failWin r' c.1 c.2 s'))) := by
  dsimp only
  have sent := sent_arrived port p s
  obtain ⟨row, taken⟩ := responseRow_taken hi (arrived port p s)
  rw [rxResponse_answered (s := arrived port p s) (r := r) (by rw [answered, sent.xl]; exact ha), sent.xl] at taken
  obtain ⟨t, run, pumped⟩ := exec_packet hr row
  rw [taken] at pumped
  refine ⟨fun h => ⟨t, run, ?_⟩, fun hk unacked fine => ⟨t, run, ?_⟩, fun hk unacked failed => ?_⟩
  · have awaited : ¬(k = .wr ∧ awaitsAck r.who = false) := fun ⟨hk, unacked⟩ => by
      rw [unacked] at h
      exact h.elim (fun other => other hk) Bool.false_ne_true
    rw [if_neg awaited] at pumped
    exact ⟨by rw [pumped.xl], pumped.mm.trans sent.mm⟩
  · rw [if_pos ⟨hk, unacked⟩, if_neg (not_not.mpr fine)] at pumped
    exact ⟨by rw [pumped.xl], pumped.mm.trans sent.mm⟩
  · rw [exec_packetRow hr.1 row, if_pos rfl, receive_reaches hr, taken, if_pos ⟨hk, unacked⟩, if_pos failed]

theorem answerCode_cases (code sub : Nat) :
    (code ∈ topCodes → answerCode code sub = (code, sub)) ∧ (code ∉ topCodes → answerCode code sub = (0x31, 0)) := by
  unfold answerCode
  exact ⟨fun h => if_pos (List.contains_iff_mem.mpr h), fun h => if_neg fun c => h (List.contains_iff_mem.mp c)⟩

/-! ## Control packets -/

theorem credit_leaves {port : Nat} {p : Packet} {s : State} (hr : Reaches port p s) (hk : p.kind = .credit) (none : (portOf s port).bufs = []) :
    Next (.credit port p) s (fun t => portOf t port = { portOf s port with
      credits := tset 0 (portOf s port).credits (p.cred % 4) (tget 0 (portOf s port).credits (p.cred % 4) + p.cred / 4)
      owed := tset 0 (portOf s port).owed p.vl (tget 0 (portOf s port).owed p.vl + cellsOf p) } ∧ t.mm = s.mm) := by
  have taken : rxPacket port p (arrived port p s) = arrived port p s := by rw [rxPacket, hk]
  have here := arrived_untraced (port := port) (p := p) s (by rw [hk]; decide)
  refine ⟨_, (exec_packetRow hr.1 rfl).trans (by rw [if_pos hk, receive_reaches hr, taken, here]), ?_⟩
  rw [portOf_setPort, if_pos rfl, none]
  exact ⟨(portOf_setPort _ _ _ _).trans (if_pos rfl), rfl⟩

theorem roleOf_arrived (port : Nat) (p : Packet) (s : State) : roleOf (arrived port p s) = roleOf s := by
  rw [roleOf, roleOf, (sent_arrived port p s).getF fretRole]

/-- FRET_FULL's row. -/
theorem exec_fretFull {port : Nat} {p : Packet} {s : State} (hr : Reaches port p s) (hk : p.kind = .fretFull) :
    ∃ t, exec (.fretFull port p) s = .next t ∧ Sent port (takeFull p (arrived port p s)) t := by
  have taken : rxPacket port p (arrived port p s) = takeFull p (arrived port p s) := by rw [rxPacket, hk]
  rw [← taken]
  exact exec_packet hr (by rw [hk]; rfl)

theorem fretFull_first {port : Nat} {p : Packet} {s : State} (hr : Reaches port p s) (hk : p.kind = .fretFull) (role : roleOf s = 1)
    (first : s.amx.fullSeen = false) : Next (.fretFull port p) s (fun t => getF t amxFret = p.aux % 2 ^ 64 ∧ t.amx.period = p.len ∧
      t.amx.quantum = p.offset ∧ t.amx.fullSeen = true) := by
  have seen : (arrived port p s).amx.fullSeen = false := by rw [(sent_arrived port p s).amx]; exact first
  have taken : takeFull p (arrived port p s) = setF { arrived port p s with amx :=
      { (arrived port p s).amx with fullSeen := true, period := p.len, quantum := p.offset, nextPeriod := none } } amxFret p.aux := by
    rw [takeFull, roleOf_arrived, if_neg (not_not.mpr role), seen]
    rfl
  obtain ⟨t, run, pumped⟩ := exec_fretFull hr hk
  rw [taken] at pumped
  exact ⟨t, run, (pumped.getF amxFret).trans (getF_setF_self _ _ _), by rw [pumped.amx]; rfl, by rw [pumped.amx]; rfl, by rw [pumped.amx]; rfl⟩

theorem fretFull_change {port : Nat} {p : Packet} {s : State} (hr : Reaches port p s) (hk : p.kind = .fretFull) (role : roleOf s = 1)
    (later : s.amx.fullSeen = true) (new : ¬(p.len = s.amx.period ∧ p.offset = s.amx.quantum)) (none : s.amx.nextPeriod = none) :
    Next (.fretFull port p) s (fun t => t.amx.nextPeriod = some (p.len, p.offset, 1) ∧ t.amx.period = s.amx.period ∧
      t.amx.quantum = s.amx.quantum ∧ getF t amxFret = getF s amxFret) := by
  have sent := sent_arrived port p s
  have taken : takeFull p (arrived port p s) =
      { arrived port p s with amx := { (arrived port p s).amx with nextPeriod := some (p.len, p.offset, 1) } } := by
    rw [takeFull, roleOf_arrived, if_neg (not_not.mpr role), sent.amx]
    simp [later, new, none]
  obtain ⟨t, run, pumped⟩ := exec_fretFull hr hk
  rw [taken] at pumped
  exact ⟨t, run, by rw [pumped.amx], by rw [pumped.amx, sent.amx], by rw [pumped.amx, sent.amx], (pumped.getF amxFret).trans (sent.getF amxFret)⟩

theorem schedAbort_leaves {port : Nat} {p : Packet} {s : State} (hr : Reaches port p s) (hk : p.kind = .schedAbort) :
    Next (.schedAbort port p) s (fun t => t.amx.aborts.head? = some (p.tag, p.offset, port) ∧ t.amx.bcast = s.amx.bcast ∧
      ∀ k, k < 16 → (castingOf s k).live = true → (castingOf s k).sched = true → (castingOf s k).ending = none →
        (castingOf t k).ending = if (castingOf s k).schedId = p.tag ∧ (castingOf s k).startFret = p.offset
          then some (faultEnd 0x41 0x10 (agPort port) 0) else none) := by
  have sent := sent_arrived port p s
  have castings : ∀ k, castingOf (arrived port p s) k = castingOf s k := fun k => by simp only [castingOf, sent.sch]
  have taken : rxPacket port p (arrived port p s) = takeAbort port p (arrived port p s) := by rw [rxPacket, hk]
  obtain ⟨amx, ends⟩ := takeAbort_leaves port p (arrived port p s)
  obtain ⟨t, run, pumped⟩ := exec_packet (i := .schedAbort port p) hr (by rw [hk]; rfl)
  rw [taken] at pumped
  refine ⟨t, run, ?_, ?_, fun k hk16 live sched running => ?_⟩
  · rw [pumped.amx, amx]
    rfl
  · rw [pumped.amx, amx, sent.amx]
  · simp only [castings] at ends
    rw [← ends k hk16 live sched running]
    simp only [castingOf, pumped.sch]

/-! ## The statement -/

/-- Settles O48. -/
theorem fabricPacketsArrive : Obligations.FabricPacketsArrive := by
  unfold Obligations.FabricPacketsArrive
  refine ⟨?row, ?request, ?serve, ?response, answerCode_cases, fun port p s => credit_leaves, ?full, fun port p s => schedAbort_leaves,
    fun port s hp => whenOn_powered hp _, ?timeout⟩
  case row =>
    intro i kd port p s hp hi
    refine ⟨exec_packetRow hp hi, fun hk port24 active bad => ?_⟩
    rw [exec_packetRow hp hi, if_pos hk, receive_malformed hp port24 active bad]
  case request =>
    intro port p i s s1 hr hi idle
    exact ⟨fun k c sub bs => request_served hr hi idle, request_held hr hi idle⟩
  case serve =>
    intro port n p s hn
    subst hn
    refine ⟨serve_refused, fun admitted => ⟨fun hk => ?_, fun hk hn fits free bs hr => ?_, fun hk hn len be fits clean hp hq ready => ?_,
      fun hk aligned op whole hp ready old hr => ?_⟩⟩
    · simp only [hk, if_true, reduceCtorEq, if_false] at admitted
      exact ⟨_, _, serve_semSig hk (hk ▸ admitted), ⟨rfl, rfl⟩, tget_tset_self _ _ _ _⟩
    · simp only [hk, reduceCtorEq, if_false] at admitted hn fits hr
      obtain ⟨t, e, same⟩ := readDpa_line (a := inboundAccess port) (fuel := 32) hn fits free hr
      exact ⟨t, serve_rdReq hk (hk ▸ admitted) rfl e, same⟩
    · simp only [hk, reduceCtorEq, if_false] at admitted hn len fits ready ⊢
      obtain ⟨k, hp⟩ := hp
      exact wr_leaves hk (hk ▸ admitted) rfl hn len be fits clean hp hq ready
    · simp only [hk, reduceCtorEq, if_true, if_false] at admitted aligned whole ready hr ⊢
      obtain ⟨k, hp⟩ := hp
      exact atomReq_leaves hk rfl (hk ▸ admitted) rfl aligned op whole hp ready hr
  case response => exact fun port p k i r s => response_completes
  case full => exact fun port p s hr hk role => ⟨fretFull_first hr hk role, fretFull_change hr hk role⟩
  case timeout =>
    intro tag r s hp found
    show execWindowRequestTimeout tag s = _
    rw [execWindowRequestTimeout, whenOn_powered hp, found]

end Sys2Proof.Machine
end

