-- ==== Sys2Proof/Proofs/Steps.lean ====
section
/-!
CERTIFICATE. A step performs the front command (R21, R585, R589), and every row but one answers a next state.
-/
namespace Sys2Proof.Machine

/-! ## Outcomes that are a next state -/

/-- The outcome is a next state: neither a fault nor a refusal. -/
def Continues (o : Out) : Prop := ∃ t, o = .next t

theorem continues_next (t : State) : Continues (.next t) := ⟨t, rfl⟩

theorem continues_ite {c : Prop} [Decidable c] {a b : Out} (ha : Continues a) (hb : Continues b) : Continues (if c then a else b) := by
  split
  · exact ha
  · exact hb

theorem continues_whenOn {s : State} {o : Out} (h : Continues o) : Continues (whenOn s o) := continues_ite h (continues_next s)

theorem continues_inOrder {i : Instr} {s : State} {o : Out} (h : Continues o) : Continues (inOrder i s o) :=
  continues_ite (continues_next _) h

theorem continues_groupOrder {i : Instr} {gr : Nat} {s : State} {o : Out} (h : Continues o) : Continues (groupOrder i gr s o) :=
  continues_ite (continues_inOrder h) h

theorem continues_whenFetched {w g slot : Nat} {s : State} {o : Out} (h : Continues o) : Continues (whenFetched w g slot s o) :=
  continues_ite (continues_next _) (continues_ite h (continues_ite (continues_next _) (continues_next _)))

/-- Every row answers a next state, but for PWR_OK with a rail out of its range (R585).  The rows are grouped by what they wait for: the
instruction cache, the host's order, a shadow group's writer, nothing at all, and (all the others) a module that runs. -/
theorem continues_exec {c : Instr} (s : State) (hc : c ≠ .pwrOkAssert false) : Continues (exec c s) := by
  cases c
  case pwrOkAssert inRange =>
    cases inRange
    · exact absurd rfl hc
    · exact continues_next _
  case iadd | isub | imul | imulhi | imad | andOp | orOp | xorOp | shl | shr | imin | imax | popc | clz | iadd64 | fadd | fmul | ffma |
      fmin | fmax | frcp | fsqrt | dadd | dmul | dfma | dmin | dmax | f2i | i2f | f2f | packn | unpackn | icmp | fcmp | plop | sel | mov |
      movi | shfl | vote | bra | brx | exit | bar | ld | st | ldV | pref | atom | ldRsv | stCnd | semSig | semRd | fenceOrd | fenceAcq |
      fenceRel | fenceDone | pourBegin | pourEnd | pourAbort | hseq | tmov | rseq | hzero | hdrain =>
    exact continues_whenFetched (continues_next _)
  case movSr | movSw => exact continues_whenFetched (continues_ite (continues_next _) (continues_next _))
  case tail | schQCfgWrite | queueReset | stop | retrain | portEnable | inboundBar4Read | inboundBar4Write | inboundAtomicop |
      hptMirrorWrite | pmcLimitWrite | bootGo | regen | cruWayLockWrite | registerWrite | fire | rearm =>
    exact continues_whenOn (continues_inOrder (continues_next _))
  case go => exact continues_whenOn (continues_ite (continues_next _) (continues_inOrder (continues_next _)))
  case commit | discard => exact continues_whenOn (continues_groupOrder (continues_next _))
  case pwrOkDeassert | perstAssert | perstDeassert | referenceClockStable | cartridgePulled | cartridgeInserted | cartridgeRemoved =>
    exact continues_next _
  all_goals exact continues_whenOn (continues_next _)

/-! ## One step -/

theorem step_withFront (c : Instr) (s : State) : step (s.withFront c) = exec c s := rfl

theorem step_of_pending {c : Instr} {rest : List Instr} {s : State} (h : s.pending = c :: rest) :
    step s = exec c { s with pending := rest } := by
  unfold step
  rw [h]

theorem step_of_idle {s : State} (h : s.pending = []) : step s = .next (idleTick s) := by
  unfold step
  rw [h]

theorem idleTick_off {s : State} (h : s.boot.pwrOk = false) : idleTick s = s := by
  unfold idleTick
  rw [h]
  rfl

theorem idleTick_held {s : State} (on : s.boot.pwrOk = true) (h : s.powered = false) : idleTick s = { s with aoTick := s.aoTick + 1 } := by
  unfold idleTick
  rw [on, h]
  rfl

/-- Settles O58. -/
theorem stepRunsTheFrontCommand : Obligations.StepRunsTheFrontCommand := by
  unfold Obligations.StepRunsTheFrontCommand
  exact ⟨step_withFront, fun _ _ _ => step_of_pending, fun _ h => ⟨step_of_idle h, idleTick_off, idleTick_held⟩,
    fun _ s hc => continues_exec s hc⟩

end Sys2Proof.Machine
end

