-- ==== Sys2Proof/Proofs/Commands.lean ====
section
/-!
CERTIFICATE. Commands that start and end (R24, R36, R61 to R63).
-/
namespace Sys2Proof.Machine

/-- A queue whose one command has its record written to host memory, while what is written is noted as casting 0's output (R60). -/
def ownedRecord : State :=
  { owner := some (0, 0)
    hpt := { bme := true }
    sch := { queues := [(0, { fetched := [{}] })] }
    xl := { crucible := [⟨0, 0, 12, 2 ^ 28, true, true, false, 0⟩] } }

/-- The record's bytes are noted as casting 0's. -/
theorem ownedRecord_noted : (castingOf (endCommand 0 okEnd 0 ownedRecord) 0).wrote ≠ [] := by decide +kernel

/-- Refutes O26: its second clause has every casting as it was, in every state; in one whose `owner` names a casting the bytes of the record
are noted in that casting's `wrote`. The clause lacks the premise `owner = none`: `asOwner` sets that field only while a row is performed. -/
theorem not_commandsStartAndEnd : ¬ Obligations.CommandsStartAndEnd := by
  unfold Obligations.CommandsStartAndEnd
  rintro ⟨-, ends, -⟩
  obtain ⟨-, -, -, -, -, castings⟩ := ends 0 0 {} okEnd ownedRecord rfl
  exact ownedRecord_noted (congrArg Casting.wrote (castings 0))

end Sys2Proof.Machine
end

