-- ==== Sys2Proof/Proofs/Castings.lean ====
section
/-!
CERTIFICATE. Castings that complete, and what is fetched for the next (R24, R53, R293).
-/
namespace Sys2Proof.Machine

/-- A casting in slot 0 that has ended, its root line in HBM, while what is written is noted as casting 1's output (R60). -/
def ownedCasting : State :=
  setF (setF { owner := some (1, 0)
               boot := { phase := 4 }
               sch := { queues := [(0, { fetched := [{}] })], castings := [(0, { live := true, ending := some okEnd })] } }
    (fwState 2) 1) hbmReady 1

theorem ownedCasting_up : schedulerUp ownedCasting = true := by decide +kernel
theorem ownedCasting_ended : partsEnded ownedCasting 0 = true := by decide +kernel
theorem ownedCasting_complete : writesDone ownedCasting 0 = true := by decide +kernel
theorem ownedCasting_root : rootBar ownedCasting 0 = .ok () := by decide +kernel

/-- Nothing of it is out to host memory. -/
theorem ownedCasting_flushed : hostFlush (.casting 0) (adopt (waiterOf ownedCasting 0) (.casting 0) ownedCasting) = (ownedCasting, true) := rfl

/-- The bytes of the unpin pour are noted as casting 1's. -/
theorem ownedCasting_noted : (castingOf (finishCasting 0 ownedCasting) 1).wrote ≠ [] := by decide +kernel

section
variable {k : Nat} {s s1 : State} (on : s.powered = true) (up : schedulerUp s = true) (parts : partsEnded s k = true)
include on up parts

/-- A casting whose parts have ended is finished once its writes are complete and its root line can be unpinned. -/
theorem exec_castingComplete {flushed : Bool} (flush : hostFlush (.casting k) (adopt (waiterOf s k) (.casting k) s) = (s1, flushed)) :
    exec (.castingComplete k) s = .next (if flushed && writesDone s1 k && decide (rootBar s1 (castingOf s1 k).root ≠ .wait)
      then finishCasting k s1 else s1) := by
  show execCastingComplete k s = _
  rw [execCastingComplete, whenOn_powered on, up, if_pos rfl, completeCasting, parts, flush]
  rfl

theorem exec_castingComplete_done (flush : hostFlush (.casting k) (adopt (waiterOf s k) (.casting k) s) = (s1, true))
    (done : writesDone s1 k = true) (root : rootBar s1 (castingOf s1 k).root ≠ .wait) :
    exec (.castingComplete k) s = .next (finishCasting k s1) := by
  rw [exec_castingComplete on up parts flush, done, decide_eq_true root]
  rfl

end

/-- Refutes O30: its first clause has the other castings as they were, in every state; in one whose `owner` names another casting the bytes
of the unpin pour are noted in that casting's `wrote`. The clause lacks the premise `owner = none`: `asOwner` sets that field only while a row is
performed. -/
theorem not_castingsCompleteAndFreeTheirClusters : ¬ Obligations.CastingsCompleteAndFreeTheirClusters := by
  unfold Obligations.CastingsCompleteAndFreeTheirClusters
  rintro ⟨completes, -, -⟩
  have root : rootBar ownedCasting (castingOf ownedCasting 0).root ≠ .wait := fun h => nomatch ownedCasting_root.symm.trans h
  obtain ⟨t, run, -, others, -⟩ := completes 0 {} ownedCasting ownedCasting rfl ownedCasting_up ownedCasting_ended ownedCasting_flushed
    ownedCasting_complete root rfl
  obtain rfl : finishCasting 0 ownedCasting = t := Host.Outcome.next.inj
    ((exec_castingComplete_done rfl ownedCasting_up ownedCasting_ended ownedCasting_flushed ownedCasting_complete root).symm.trans run)
  exact ownedCasting_noted (congrArg Casting.wrote (others 1 (by decide)))

end Sys2Proof.Machine
end

