-- ==== Sys2Proof/Proofs/QueuesStay.lean ====
section
/-!
SUPPORT. What the device does beside its host queues: its own reads and reporting writes (R62, R595), and the end of a casting's work (R25),
leave the scheduler's queues, time and the queues' registers as they were.
-/
namespace Sys2Proof.Machine

/-! ## The relations -/

/-- A field of the host queues' registers (R29 to R31). -/
def OfQueues (f : FRef) : Prop := 0x980000 ≤ f.key ∧ f.key < 0x9A0000

/-- The scheduler is as it was but for what castings have written (R60); so are time and the queues' registers. -/
structure QueuesStay (s t : State) : Prop where
  sched : t.sch = { s.sch with castings := t.sch.castings }
  wrote : ∀ k, ∃ w, castingOf t k = { castingOf s k with wrote := w }
  tick : t.aoTick = s.aoTick
  reg : ∀ f, OfQueues f → getF t f = getF s f

/-- The sprue channels are as they were too. -/
structure ChansStay (s t : State) : Prop extends QueuesStay s t where
  chans : t.spr = s.spr

namespace QueuesStay

/-- The scheduler is untouched. -/
theorem of_sch {s t : State} (sch : t.sch = s.sch) (tick : t.aoTick = s.aoTick) (reg : ∀ f, OfQueues f → getF t f = getF s f) :
    QueuesStay s t :=
  ⟨by rw [sch], fun k => ⟨(castingOf s k).wrote, by rw [castingOf, sch]; rfl⟩, tick, reg⟩

theorem refl (s : State) : QueuesStay s s := of_sch rfl rfl fun _ _ => rfl

theorem trans {s t u : State} (h : QueuesStay s t) (h' : QueuesStay t u) : QueuesStay s u where
  sched := by rw [h'.sched, h.sched]
  wrote k := by
    obtain ⟨w, e⟩ := h.wrote k
    obtain ⟨w', e'⟩ := h'.wrote k
    exact ⟨w', by rw [e', e]⟩
  tick := h'.tick.trans h.tick
  reg f hf := (h'.reg f hf).trans (h.reg f hf)

theorem foldl {β : Type} {f : State → β → State} (h : ∀ s x, QueuesStay s (f s x)) (xs : List β) (s : State) : QueuesStay s (xs.foldl f s) :=
  List.foldlRecOn xs f (motive := QueuesStay s) (refl s) (fun t ht x _ => ht.trans (h t x))

variable {s t : State} (h : QueuesStay s t)
include h

theorem queueOf (q : Nat) : Machine.queueOf t q = Machine.queueOf s q := by rw [Machine.queueOf, h.sched]; rfl
theorem headCmd (q : Nat) : Machine.headCmd t q = Machine.headCmd s q := by rw [Machine.headCmd, h.queueOf]; rfl
theorem live (k : Nat) : (castingOf t k).live = (castingOf s k).live := by obtain ⟨w, e⟩ := h.wrote k; rw [e]
theorem ending (k : Nat) : (castingOf t k).ending = (castingOf s k).ending := by obtain ⟨w, e⟩ := h.wrote k; rw [e]

end QueuesStay

namespace ChansStay

theorem refl (s : State) : ChansStay s s := ⟨.refl s, rfl⟩
theorem trans {s t u : State} (h : ChansStay s t) (h' : ChansStay t u) : ChansStay s u :=
  ⟨h.toQueuesStay.trans h'.toQueuesStay, h'.chans.trans h.chans⟩
theorem foldl {β : Type} {f : State → β → State} (h : ∀ s x, ChansStay s (f s x)) (xs : List β) (s : State) : ChansStay s (xs.foldl f s) :=
  List.foldlRecOn xs f (motive := ChansStay s) (refl s) (fun t ht x _ => ht.trans (h t x))

/-- A change that reaches neither the scheduler, time, the channels nor registers. -/
theorem of_regs {s t : State} (sch : t.sch = s.sch) (tick : t.aoTick = s.aoTick) (regs : t.regs = s.regs) (spr : t.spr = s.spr) :
    ChansStay s t := ⟨.of_sch sch tick fun f _ => getF_congr regs f, spr⟩

theorem unnoted {f : FRef} (hf : OfQueues f) : Unnoted f := unnoted_of_range (.inl (by unfold OfQueues at hf; omega))

theorem of_noticed {s t : State} (h : Noticed s t) : ChansStay s t :=
  ⟨.of_sch h.sch (congrArg (fun x => x.aoTick) h.rest) fun f hf => h.reg f (unnoted hf), congrArg (fun x => x.spr) h.rest⟩

theorem of_sent {port : Nat} {s t : State} (h : Sent port s t) : ChansStay s t := by
  obtain ⟨⟨r, c, w, ps, rfl⟩, reg, -⟩ := h
  exact ⟨.of_sch rfl rfl fun f hf => reg f (unnoted hf), rfl⟩

end ChansStay

/-- A register outside the queues' block. -/
theorem chansStay_setF {f : FRef} (s : State) (v : Nat) (hf : f.key < 0x980000 ∨ 0x9A0000 ≤ f.key) : ChansStay s (setF s f v) :=
  ⟨.of_sch rfl rfl fun g hg => getF_setF_ne s v (by unfold OfQueues at hg; omega), rfl⟩

/-- Memory alone. -/
theorem chansStay_mm (s : State) (m : Mem) : ChansStay s { s with mm := m } := .of_regs rfl rfl rfl rfl

theorem chansStay_setCluster (s : State) (n : Nat) (c : Cluster) : ChansStay s (setCluster s n c) := .of_regs rfl rfl rfl rfl

/-! ## Memory -/

/-- The logs of writes note a casting's output. -/
theorem chansStay_logWrite (sp a n : Nat) (s : State) : ChansStay s (logWrite sp a n s) := by
  refine ⟨⟨?_, fun k => ?_, logWrite_aoTick sp a n s, fun f _ => logWrite_getF sp a n s f⟩, logWrite_spr sp a n s⟩
  · obtain ⟨c, r, e⟩ := logWrite_changes sp a n s
    rw [e]
  · have race : castingOf (logWrite sp a n s) k = castingOf (noteOutput sp a n s) k := by
      unfold logWrite
      dsimp only
      split <;> rfl
    rw [race]
    unfold noteOutput
    have same : ∃ w, castingOf s k = { castingOf s k with wrote := w } := ⟨_, rfl⟩
    split
    · exact same
    · dsimp only
      split
      · exact same
      · split
        · exact same
        · rw [castingOf_setCasting]
          split
          next h => exact ⟨_, by rw [h]⟩
          next => exact same

/-- A cluster that was idle runs. -/
theorem chansStay_toRun {cl : Nat} (h : cl < 16) (s : State) : ChansStay s (toRun cl s) := by
  unfold toRun
  split
  · exact chansStay_setF s 0 (.inl (by simp only [FRef.key, clState]; omega))
  · exact .refl s

/-- The clusters of scratch are the device's own. -/
theorem scratch_lt {loc cl off : Nat} (h : placeOf loc = .scratch cl off) : cl < 16 := by
  unfold placeOf at h
  repeat' split at h
  all_goals cases h
  all_goals omega

theorem chansStay_scrTame (loc : Nat) (s : State) : ChansStay s (scrTame loc s) := by
  unfold scrTame
  split
  · exact chansStay_mm s _
  · exact .refl s

theorem chansStay_scrWrite (loc : Nat) (bs : List Byte) (s : State) : ChansStay s (scrWrite loc bs s) :=
  (ChansStay.foldl (fun s _ => chansStay_scrTame _ s) _ s).trans ((chansStay_mm _ _).trans (chansStay_logWrite _ _ _ _))

theorem chansStay_rekey (tag line : Nat) (s : State) : ChansStay s (rekey tag line s) := by
  unfold rekey
  split
  · exact .refl s
  · exact chansStay_mm s _

theorem chansStay_noteRaw (n off len ks : Nat) (pour : Bool) (s : State) : ChansStay s (noteRaw n off len ks pour s) := by
  unfold noteRaw
  extract_lets seq line mm noted good first cnt entered
  have raw : ChansStay s noted := chansStay_mm s _
  have entries : ChansStay noted entered := .foldl (fun t i => by
    extract_lets eloc mm dropped
    have frame : ChansStay t dropped := chansStay_mm t _
    split
    · exact frame
    · exact frame.trans (chansStay_mm _ _)) _ _
  split
  · exact raw
  · split
    · exact raw.trans entries
    · exact (raw.trans entries).trans (.of_regs rfl rfl rfl rfl)

theorem chansStay_putBytes (ks loc : Nat) (bs : List Byte) (full pour : Bool) (s : State) : ChansStay s (putBytes ks loc bs full pour s) := by
  have stored := (chansStay_rekey (keyTag s ks) (lineOf loc) s).trans ((chansStay_mm _ { (rekey (keyTag s ks) (lineOf loc) s).mm with
    mem := wrList (rekey (keyTag s ks) (lineOf loc) s).mm.mem loc bs }).trans (chansStay_logWrite 0 loc bs.length _))
  have cleared : ∀ t, ChansStay t (if full then { t with mm := { t.mm with poison := tset 0 t.mm.poison (lineOf loc) 0 } } else t) := fun t => by
    split
    · exact chansStay_mm t _
    · exact .refl t
  unfold putBytes
  dsimp only
  split
  · exact stored.trans ((cleared _).trans (chansStay_noteRaw _ _ _ _ _ _))
  · exact stored.trans (cleared _)

theorem chansStay_putDev (dpa : Nat) (bs : List Byte) (full pour : Bool) (s : State) : ChansStay s (putDev dpa bs full pour s) := by
  unfold putDev
  split
  next cl off place =>
    split
    · have written := (chansStay_toRun (scratch_lt place) s).trans (chansStay_scrWrite (locOf dpa) bs _)
      split
      · exact written.trans (chansStay_mm _ _)
      · exact written
    · exact .refl s
  next => exact chansStay_putBytes _ _ _ _ _ _

theorem chansStay_homeWrite (dpa : Nat) (bs : List Byte) (full : Bool) (s : State) : ChansStay s (homeWrite dpa bs full s) := by
  unfold homeWrite
  refine (ChansStay.of_noticed (noticed_beforeWrite dpa bs.length none s)).trans (.trans ?_ (chansStay_putDev _ _ _ _ _))
  split
  · exact .of_noticed (noticed_grantNone _ _)
  · exact .refl _

theorem chansStay_putHost (pa : Nat) (bs : List Byte) (s : State) : ChansStay s (putHost pa bs s) :=
  (chansStay_mm _ _).trans (chansStay_logWrite _ _ _ _)

theorem chansStay_errEvent (a b c d e f : Nat) (s : State) : ChansStay s (errEvent a b c d e f s) := by
  obtain ⟨r, h⟩ := errEvent_changes a b c d e f s
  exact h ▸ .of_regs rfl rfl rfl rfl

theorem chansStay_postWake (cl : Nat) (s : State) : ChansStay s (postWake cl s) := by
  unfold postWake
  split
  · exact .refl s
  · exact .of_regs rfl rfl rfl rfl

/-! ## Translations (R340 to R342) -/

/-- What waits for the host alone. -/
theorem chansStay_xl (s : State) (x : Xlate) : ChansStay s { s with xl := x } := .of_regs rfl rfl rfl rfl

theorem chansStay_noteFault (w : Waiter) (va : Nat) (wr : Bool) (s : State) : ChansStay s (noteFault w va wr s) := by
  unfold noteFault
  split
  · exact .of_noticed (noticed_setCourse _ _ _ _)
  · exact .refl s

theorem chansStay_joinPri {a : Acc2} {va : Nat} {wr : Bool} {s t : State} (h : joinPri a va wr s = some t) : ChansStay s t := by
  unfold joinPri at h
  split at h
  · cases h
    exact (chansStay_xl s _).trans (chansStay_noteFault _ _ _ _)
  · cases h

theorem chansStay_askAts (a : Acc2) (va : Nat) (wr : Bool) (s : State) : ChansStay s (askAts a va wr s) := by
  unfold askAts askFor
  dsimp only
  split
  · exact chansStay_xl s _
  · split
    · exact (chansStay_xl s _).trans (.of_noticed (noticed_countBase _ _ _ _))
    · exact chansStay_xl s _

theorem chansStay_translate {a : Acc2} (ha : a.cl = none) (va : Nat) (wr : Bool) (s : State) : ChansStay s (translate a va wr s).1 := by
  unfold translate
  rw [ha]
  dsimp only
  split
  next e _ =>
    by_cases good : (if wr then e.wr else e.rd) = true
    · rw [if_pos good]
      exact chansStay_xl s _
    · rw [if_neg good]
      split
      next joined => exact chansStay_joinPri joined
      next => exact chansStay_askAts a va wr s
  next =>
    refine (ChansStay.of_noticed (noticed_countBase 0x14 0xFF 1 s)).trans ?_
    split
    next joined => exact chansStay_joinPri joined
    next => exact chansStay_askAts a va wr _

/-! ## Reporting writes (R595) -/

theorem chansStay_landBar (t : Target) (va : Nat) (s : State) : ChansStay s (landBar t va s).1 := by
  unfold landBar
  split
  · split <;> exact .refl s
  · exact .refl s
  · split
    · exact .refl s
    · split
      · dsimp only
        split
        · exact chansStay_postWake _ s
        · exact .refl s
      · exact .refl s

theorem chansStay_sendWin (who : Waiter) (kind : PacketKind) (port w va : Nat) (p : Packet) (s : State) :
    ChansStay s (sendWin who kind port w va p s) := (chansStay_xl s _).trans (.of_sent (sendPacket_among port _ _).1)

theorem chansStay_landPiece (dead : Bool) (t : Target) (va : Nat) (bs : List Byte) (s : State) : ChansStay s (landPiece dead t va bs s) := by
  unfold landPiece
  split
  · split
    · exact .refl s
    · exact (ChansStay.of_noticed ((noticed_grantNone _ _).trans (noticed_noteWrite _ _ _))).trans (chansStay_putHost _ _ _)
  · split
    · exact chansStay_sendWin _ _ _ _ _ _ _
    · exact .refl s
  · exact chansStay_homeWrite _ _ _ _

theorem chansStay_landWrite (p : PostedWrite) (ta : Nat) (s : State) : ChansStay s (landWrite p ta s).1 := by
  unfold landWrite
  dsimp only
  generalize ready : List.foldl _ (s, Got.ok ()) p.parts = r
  have barred : ChansStay s r.1 := by
    rw [← ready]
    refine List.foldlRecOn p.parts _ (motive := fun r' : State × Got Unit => ChansStay s r'.1) (.refl s) fun r' h c _ => h.trans ?_
    split
    · exact chansStay_landBar _ _ _
    · exact .refl _
  split
  · exact barred.trans (.foldl (fun s c => chansStay_landPiece _ _ _ _ s) _ _)
  · exact barred

theorem chansStay_dropWrite {p : PostedWrite} (hp : p.kind < 2) (code sub : Nat) (s : State) : ChansStay s (dropWrite p code sub s) := by
  unfold dropWrite
  rw [if_neg (by omega), if_neg (by omega)]
  exact chansStay_errEvent _ _ _ _ _ _ _

theorem chansStay_tryPost {p : PostedWrite} (hp : p.kind < 2) (s : State) : ChansStay s (tryPost p s) := by
  have asked := chansStay_translate (a := reportAccess p.ctx) rfl p.va true s
  unfold tryPost
  dsimp only
  split
  · exact chansStay_xl s _
  · split
    next u e => rw [e] at asked; exact asked.trans (chansStay_xl u _)
    next u x e => rw [e] at asked; exact asked.trans (chansStay_dropWrite hp _ _ _)
    next u ta e =>
      rw [e] at asked
      refine asked.trans ?_
      have landed := chansStay_landWrite p ta u
      split
      next v e => rw [e] at landed; exact landed
      next v e => rw [e] at landed; exact landed.trans (chansStay_xl v _)
      next v x e => rw [e] at landed; exact landed.trans (chansStay_dropWrite hp _ _ _)

/-- A status record is written (R62). -/
theorem chansStay_writeRecord (q : Nat) (c : Cmd) (st tEnd stretch : Nat) (e : Ending) (s : State) :
    ChansStay s (writeRecord q c st tEnd stretch e s) := chansStay_tryPost (by simp) s

/-- A channel's status word is written (R595). -/
theorem chansStay_writeWord (e ch : Nat) (x : Ending) (cause bitmap : Nat) (s : State) : ChansStay s (writeWord e ch x cause bitmap s) :=
  chansStay_tryPost (by simp) s

/-! ## Reads of device memory -/

theorem chansStay_readDone (dpa : Nat) (s : State) : ChansStay s (readDone dpa s) := by
  unfold readDone
  split
  next cl off place => exact chansStay_toRun (scratch_lt place) s
  next =>
    split
    · unfold noteView
      dsimp only
      refine .trans ?_ (.trans (chansStay_mm _ _) (.of_noticed (noticed_countBase _ _ _ _)))
      split
      · exact .of_noticed (noticed_countBase _ _ _ _)
      · exact .refl s
    · exact .refl s
  next => exact .refl s

/-- Device memory that is read: its bytes, and nothing of the queues has changed. -/
theorem readTarget_dev_stays {a : Acc2} {dpa va n : Nat} {s : State} {bs : List Byte}
    (free : lineBusy s (lineOf (locOf dpa)) none none none = false) (hr : devRead s a.agent dpa n = .ok bs) :
    ∃ t, readTarget a (.dev dpa) va n none s = (t, .ok bs) ∧ ChansStay s t := by
  have used : ChansStay s (bumpFree s 1) := .of_regs rfl rfl rfl rfl
  have done : ChansStay s (readNote dpa (.ok bs) s) := used.trans (chansStay_readDone dpa (bumpFree s 1))
  have placed : ∀ line t, ChansStay t (placeLine none line false t) := fun line t => .of_noticed (noticed_readCurrent line t)
  unfold readTarget
  dsimp only
  rw [free, hr]
  refine ⟨_, rfl, done.trans ?_⟩
  dsimp only
  split
  · refine (ChansStay.of_noticed (noticed_keyTurn dpa _)).trans ?_
    split
    · exact (ChansStay.of_noticed (noticed_noteSnoop _ _)).trans (placed _ _)
    · exact placed _ _
  · exact .refl _

end Sys2Proof.Machine
end

