-- ==== Sys2Proof/Proofs/QueueRows.lean ====
section
/-!
SUPPORT. The head of a host queue, and what the rows of host commands do with it: they start it on its turn, go on with it, or end it (R36 to
R40).
-/
namespace Sys2Proof.Machine

/-! ## The head of a queue -/

theorem headCmd_setQueue (s : State) (q : Nat) (x : Queue) : headCmd (setQueue s q x) q = x.fetched.head? := by
  rw [headCmd, queueOf_setQueue, if_pos rfl]

/-- The oldest command is replaced, in place. -/
theorem headCmd_setHead {s : State} {q : Nat} {c : Cmd} (h : headCmd s q = some c) (c' : Cmd) : headCmd (setHead s q c') q = some c' := by
  unfold headCmd at h
  unfold setHead
  rw [headCmd_setQueue]
  cases e : (queueOf s q).fetched with
  | nil => simp [e] at h
  | cons c0 cs => rfl

theorem queueOf_dropClaim (q q' : Nat) (s : State) : queueOf (dropClaim q s) q' = queueOf s q' := by
  unfold dropClaim
  split
  · split <;> rfl
  · rfl

theorem dropClaim_aoTick (q : Nat) (s : State) : (dropClaim q s).aoTick = s.aoTick := by
  unfold dropClaim
  split
  · split <;> rfl
  · rfl

theorem queueOf_dropCmdWaits (q q' : Nat) (s : State) : queueOf (dropCmdWaits q s) q' = queueOf s q' := rfl
theorem dropCmdWaits_aoTick (q : Nat) (s : State) : (dropCmdWaits q s).aoTick = s.aoTick := rfl
theorem queueOf_setF (s : State) (f : FRef) (v q : Nat) : queueOf (setF s f v) q = queueOf s q := rfl

/-- What is left of a queue's record when its oldest command, `c`, has ended. -/
def Queue.left (x : Queue) (c : Cmd) : Queue :=
  { x with fetched := x.fetched.drop 1, ended := (x.ended.filter (fun n => decide (n ≠ cSeq c))) ++ [cSeq c] }

/-- The oldest command ends: it leaves its queue, and its SEQ joins those that have ended (R24, R36). -/
theorem endCommand_leaves {s : State} {q : Nat} {c : Cmd} (h : headCmd s q = some c) (e : Ending) (stretch : Nat) :
    (endCommand q e stretch s).aoTick = s.aoTick ∧ queueOf (endCommand q e stretch s) q = (queueOf s q).left c := by
  unfold endCommand
  rw [h]
  dsimp only
  generalize hm : (if c.started then c else { c with tStart := s.aoTick, progress := 0 }) = m
  have seq : cSeq m = cSeq c := by subst hm; split <;> rfl
  have written := (chansStay_writeRecord q m e.st s.aoTick stretch e s).toQueuesStay
  generalize writeRecord q m e.st s.aoTick stretch e s = u at written
  rw [setOff_eq, setF_aoTick, setQueue_aoTick, dropCmdWaits_aoTick, dropClaim_aoTick, queueOf_setF, queueOf_setQueue, if_pos rfl,
    queueOf_dropCmdWaits, queueOf_dropClaim, written.queueOf, seq]
  exact ⟨written.tick, rfl⟩

/-! ## Rows that start a command -/

/-- It is the turn of a command of this row, whose fields pass their check: the row takes it. -/
theorem begin_turn {op q : Nat} {c : Cmd} {s : State} {ok : Cmd → Bool} (h : Turn op q c s) (good : ok c = true) (k : Cmd → State) :
    begin q op ok s k = k c := by
  obtain ⟨-, up, may, head, -, rfl, low, high, common⟩ := h
  unfold begin
  simp only [up, may, head, common, good]
  rw [if_neg (by simp), if_neg (by omega), if_neg (by simp), if_neg (by simp)]

/-- The row of a command that has started goes on with it. -/
theorem running_runs {op q : Nat} {c : Cmd} {s : State} (h : Runs op q c s) (k : Cmd → State) : running q op s k = k c := by
  obtain ⟨-, head, began, opcode, free⟩ := h
  simp [running, head, began, opcode, free]

/-- A command goes on at once when it starts. -/
theorem cmdStep_goesOn {op q : Nat} {c : Cmd} {s0 s : State} {ok : Cmd → Bool} (h : GoesOnIn op q ok c s0 s) (k : Cmd → State → State) :
    cmdStep q op ok s0 k = k c s := by
  unfold cmdStep
  obtain ⟨runs, rfl⟩ | ⟨c0, turn, good, rfl, head⟩ := h
  · rw [runs.2.1]
    dsimp only
    rw [if_pos runs.2.2.1, running_runs runs]
  · have ⟨_, _, _, head0, fresh, _⟩ := turn
    rw [head0]
    dsimp only
    rw [if_neg (by simp [fresh]), begin_turn turn good]
    unfold started at head
    rw [head]
    rfl

theorem GoesOnIn.powered {op q : Nat} {c : Cmd} {s0 s : State} {ok : Cmd → Bool} (h : GoesOnIn op q ok c s0 s) : s0.powered = true := by
  obtain ⟨⟨on, -⟩, -⟩ | ⟨c0, ⟨on, -⟩, -⟩ := h
  · exact on
  · exact on

/-! ## Commands that fail their check (R39) -/

section
variable {q op : Nat} {ok : Cmd → Bool} {c : Cmd} {s : State} (up : schedulerUp s = true) (may : mayStart s q = true)
  (head : headCmd s q = some c) (bad : cOp c < 1 ∨ 10 < cOp c ∨ (cOp c = op ∧ (commonOk c && ok c) = false))
include up may head bad

theorem begin_bad (k : Cmd → State) : begin q op ok s k = endCommand q badCommand 0 (useCredit q s) := by
  unfold begin
  simp only [up, may, head]
  rw [if_neg (by simp)]
  by_cases listed : cOp c < 1 ∨ 10 < cOp c
  · rw [if_pos listed]
  · obtain ⟨opcode, failed⟩ : cOp c = op ∧ (commonOk c && ok c) = false := by
      obtain low | high | own := bad
      · exact absurd (.inl low) listed
      · exact absurd (.inr high) listed
      · exact own
    have failed' : (!commonOk c || !ok c) = true := by rw [← Bool.not_and, failed]; rfl
    rw [if_neg listed, if_neg (not_not_intro opcode), if_pos failed']

variable (fresh : c.started = false)
include fresh

theorem cmdStep_bad (k : Cmd → State → State) : cmdStep q op ok s k = endCommand q badCommand 0 (useCredit q s) := by
  unfold cmdStep
  rw [head]
  dsimp only
  rw [if_neg (by simp [fresh])]
  exact begin_bad up may head bad _

theorem subStep_bad (mine : Cmd → Bool) (listed : 1 ≤ op ∧ op ≤ 10) (k : Cmd → State → State) :
    subStep q op ok mine s k = endCommand q badCommand 0 (useCredit q s) := by
  have failed : ¬(cOp c = op ∧ ok c ∧ commonOk c ∧ ¬mine c) := by
    rintro ⟨opcode, good, common, -⟩
    obtain low | high | ⟨-, failed⟩ := bad
    · omega
    · omega
    · simp [good, common] at failed
  unfold subStep
  rw [head]
  dsimp only
  rw [if_neg failed]
  exact cmdStep_bad up may head bad fresh k

end

end Sys2Proof.Machine
end

