-- ==== Sys2Proof/Proofs/HostCommands.lean ====
section
/-!
CERTIFICATE. Status records (R61), FENCE and SEMA (R43, R44), and PATCH (R56, R57).
-/
namespace Sys2Proof.Machine

theorem leNat_lt (bs : List Byte) : leNat bs < 256 ^ bs.length := by
  induction bs with
  | nil => simp [leNat]
  | cons b bs ih =>
    have := b.isLt
    rw [leNat, List.length_cons, Nat.pow_succ]
    omega

theorem fieldOf_lt (bs : List Byte) (o n : Nat) : fieldOf bs o n < 256 ^ n :=
  (leNat_lt _).trans_le (Nat.pow_le_pow_right (by omega) (List.length_take_le _ _))

/-- Settles O25: each field of a record is reached past those before it. -/
theorem statusRecordLayout : Obligations.StatusRecordLayout := by
  unfold Obligations.StatusRecordLayout
  intro q c st tEnd stretch e
  have seq : cSeq c % 256 ^ 4 = cSeq c := Nat.mod_eq_of_lt (fieldOf_lt c.bytes 4 4)
  have slot : c.slot.getD 0xFF % 256 ^ 1 = (match c.slot with | some k => k % 2 ^ 8 | none => 0xFF) := by cases c.slot <;> rfl
  delta recordBytes
  simp only [List.append_assoc]
  refine ⟨by simp only [List.length_append, leBytes_length], ?_, ?_, ?_, ?_, .trans ?_ seq, ?_, ?_, ?_, ?_, ?_, .trans ?_ slot, ?_, ?_, ?_, ?_, ?_, ?_, ?_, ?_⟩
  all_goals simp only [fieldOf_skip (leBytes_length _ _), fieldOf_leBytes_append, fieldOf_leBytes, Nat.reduceLeDiff, Nat.reduceSub, Nat.reducePow,
    Nat.zero_mod]

/-! ## FENCE and SEMA -/

theorem semaOf_semaAdd (i v : Nat) (s : State) : semaOf (semaAdd i v s) i = (semaOf s i + v) % 2 ^ 32 := tget_tset_self _ _ _ _

/-- Settles O32. -/
theorem fencesAndSemaphoresOfQueues : Obligations.FencesAndSemaphoresOfQueues := by
  unfold Obligations.FencesAndSemaphoresOfQueues
  refine ⟨fun q c s turn good => ?fence, fun q c s runs => ?fenceMet, fun q c s turn wait => ?wait, fun q c s runs wait => ?waitMet,
    fun q c s turn signal => ?signal⟩
  case fence =>
    show execFence q s = _
    rw [execFence, whenOn_powered turn.1, begin_turn turn good]
    rfl
  case fenceMet =>
    show execFenceSatisfied q s = _
    rw [execFenceSatisfied, whenOn_powered runs.1, running_runs runs]
    simp only [List.all_eq_true]
  case wait =>
    have op : semaCmdOp c = 1 := wait
    show execSemaWait q s = _
    rw [execSemaWait, whenOn_powered turn.1, begin_turn turn (by simp [semaOk, op]), if_pos op]
    rfl
  case waitMet =>
    have op : semaCmdOp c = 1 := wait
    show execSemaWaitSatisfied q s = _
    rw [execSemaWaitSatisfied, whenOn_powered runs.1, running_runs runs]
    simp only [op, true_and]
    rfl
  case signal =>
    have op : semaCmdOp c = 2 := signal
    refine ⟨semaAdd (semaCmdIndex c) (semaCmdValue c) (started q c s), ?_, rfl, semaOf_semaAdd _ _ _⟩
    show execSemaSignal q s = _
    rw [execSemaSignal, whenOn_powered turn.1, begin_turn turn (by simp [semaOk, op]), if_pos op]
    rfl

/-! ## PATCH -/

/-- A bit that is clear is set by adding its weight, and no other bit changes. -/
theorem testBit_add_two_pow {x i : Nat} (clear : x.testBit i = false) (j : Nat) :
    (x + 2 ^ i).testBit j = if j = i then true else x.testBit j := by
  obtain low | rfl | high := Nat.lt_trichotomy j i
  · rw [if_neg low.ne, Nat.add_comm, Nat.testBit_two_pow_add_gt low]
  · rw [if_pos rfl, Nat.add_comm, Nat.testBit_two_pow_add_eq, clear]
    rfl
  · obtain ⟨d, rfl⟩ := Nat.exists_eq_add_of_lt high
    have even : x / 2 ^ i % 2 = 0 := by
      rw [Nat.testBit_eq_decide_div_mod_eq, decide_eq_false_iff_not] at clear
      omega
    have above : (x + 2 ^ i) / 2 ^ (i + 1) = x / 2 ^ (i + 1) := by
      rw [Nat.pow_succ, ← Nat.div_div_eq_div_mul, ← Nat.div_div_eq_div_mul, Nat.add_div_right _ (Nat.two_pow_pos i)]
      omega
    rw [if_neg high.ne', show i + d + 1 = d + (i + 1) by omega, ← Nat.testBit_div_two_pow, ← Nat.testBit_div_two_pow, above]

/-- A bit of a number that has one bit set or cleared. -/
theorem bit_setBit (x i j : Nat) (v : Bool) : bit (setBit x i v) j = if j = i then v else bit x j := by
  simp only [bit_eq_testBit, setBit]
  by_cases on : x.testBit i = true
  · rw [if_pos on]
    cases v
    · have clear : (x - 2 ^ i).testBit i = false := by
        have := Nat.testBit_two_pow_add_eq (x - 2 ^ i) i
        rw [Nat.add_sub_cancel' (Nat.ge_two_pow_of_testBit on), on] at this
        simpa using this.symm
      have back := testBit_add_two_pow clear j
      rw [Nat.sub_add_cancel (Nat.ge_two_pow_of_testBit on)] at back
      rw [if_neg (by decide), back]
      split
      next h => rw [h, clear]
      next => rfl
    · rw [if_pos rfl]
      split
      next h => rw [h, on]
      next => rfl
  · rw [if_neg on]
    have off := Bool.eq_false_of_not_eq_true on
    cases v
    · rw [if_neg (by decide)]
      split
      next h => rw [h, off]
      next => rfl
    · rw [if_pos rfl, testBit_add_two_pow off]

/-- What the versions of a root line that are in use become when version `ver` follows `cur` (R56). -/
def liveAfter (root : List Byte) (cur ver : Nat) : Nat :=
  if fieldOf root (64 + cur % 64) 1 = 0 then setBit (setBit (fieldOf root 16 8) (ver % 64) true) (cur % 64) false
  else setBit (fieldOf root 16 8) (ver % 64) true

theorem bit_liveAfter (root : List Byte) (cur j : Nat) : bit (liveAfter root cur ((cur + 1) % 2 ^ 32)) j =
    if j = (cur + 1) % 2 ^ 32 % 64 then true
    else if j = cur % 64 ∧ fieldOf root (64 + cur % 64) 1 = 0 then false else bit (fieldOf root 16 8) j := by
  have other : (cur + 1) % 2 ^ 32 % 64 ≠ cur % 64 := by omega
  unfold liveAfter
  by_cases unpinned : fieldOf root (64 + cur % 64) 1 = 0
  · rw [if_pos unpinned, bit_setBit, bit_setBit]
    by_cases old : j = cur % 64
    · rw [if_pos old, if_neg (old ▸ other.symm), if_pos ⟨old, unpinned⟩]
    · rw [if_neg old, if_neg (c := j = cur % 64 ∧ _) (fun h => old h.1)]
  · rw [if_neg unpinned, bit_setBit, if_neg (c := j = cur % 64 ∧ _) (fun h => unpinned h.2)]

/-- Settles O31. -/
theorem patchPublishesAVersion : Obligations.PatchPublishesAVersion := by
  unfold Obligations.PatchPublishesAVersion
  refine ⟨fun q host es h c r s0 s s1 s2 s3 goes root header entries => ?builds, fun q dpa c root s => ?publishes⟩
  case builds =>
    have run : exec (.patch q host) s0 = .next (patchRun q host c s) := by
      show execPatch q host s0 = _
      rw [execPatch, whenOn_powered goes.powered, cmdStep_goesOn goes]
    rw [run, patchRun]
    simp only [endWith, root, header, entries]
    refine ⟨fun none => by rw [none], fun h' s4 new written => ⟨fun p s5 checked => ?_, fun e s5 failed => ?_⟩⟩
    · rw [new]
      simp only [written, checked]
    · rw [new]
      simp only [written, failed]
  case publishes =>
    unfold publish
    refine ⟨fun wait => by rw [wait], fun e failed => by rw [failed], fun free named stale => ?_, fun free current pinned => ?_,
      fun free current room => ⟨liveAfter root (fieldOf root 4 4) ((fieldOf root 4 4 + 1) % 2 ^ 32), bit_liveAfter _ _, ?_⟩⟩
    · rw [free]
      exact if_pos ⟨named, stale⟩
    · rw [free]
      exact (if_neg (by tauto)).trans (if_pos pinned)
    · rw [free]
      refine (if_neg (by tauto)).trans ((if_neg (by rw [room]; exact Bool.false_ne_true)).trans ?_)
      rfl

end Sys2Proof.Machine
end

