-- ==== Sys2Proof/Proofs/QueueIntake.lean ====
section
/-!
CERTIFICATE. How host queues take commands: doorbells (R32, R33), fetching (R34), SCH_Q_CFG (R29), and commands that fail their check (R39).
-/
namespace Sys2Proof.Machine

/-! ## Doorbells (R32, R33, R431) -/

theorem exec_tail {q off size v : Nat} {s : State} (on : s.powered = true) (inTurn : InTurn (.tail q off size v) s) :
    exec (.tail q off size v) s = .next (ringTail q off size v s) := by
  show execTail q off size v s = _
  rw [execTail, whenOn_powered on, inOrder_inTurn inTurn]

/-- A write that is no doorbell of a queue. -/
theorem ringTail_ill {q off size v : Nat} {s : State} (ill : 512 ≤ q ∨ off ≠ 0 ∨ (size ≠ 4 ∧ size ≠ 8)) : ringTail q off size v s = s :=
  if_pos (by tauto)

/-- A doorbell in range sets TAIL; one out of range sets Q_ERR. -/
theorem ringTail_eq {q off size v : Nat} {s : State} (on : s.powered = true) (hq : q < 512) (ho : off = 0) (hs : size = 4 ∨ size = 8) :
    ringTail q off size v s =
      if (v % 2 ^ 32 + 2 ^ 32 - getF s (qHead q)) % 2 ^ 32 ≤ 2 ^ getF s (qSize q) then
        setQueue s q { queueOf s q with tail := v % 2 ^ 32, bell := s.aoTick }
      else setOn s (qErr q) :=
  if_neg (by simp [on, ho]; omega)

/-! ## Fetching (R34, R484) -/

theorem ofQueues_qHead {q : Nat} (hq : q < 512) : OfQueues (qHead q) := by simp only [OfQueues, FRef.key, qHead]; omega

theorem mayFetch_lt {s : State} {q : Nat} (h : mayFetch s q = true) : q < 512 := by
  simp only [mayFetch, Bool.and_eq_true, decide_eq_true_eq] at h
  tauto

/-- The command that a ring entry's bytes make. -/
def entryCmd (bs : List Byte) (bell : Nat) : Cmd := { bytes := (bs ++ List.replicate 64 0).take 64, tBell := bell }

/-- A fetched entry joins its queue, and HEAD advances. -/
theorem takeEntry_joins {q : Nat} (hq : q < 512) (bs : List Byte) (s : State) :
    queueOf (takeEntry q bs s) q =
        { queueOf s q with fetched := (queueOf s q).fetched ++ [(entryCmd bs (queueOf s q).bell).updated] } ∧
      getF (takeEntry q bs s) (qHead q) = (getF s (qHead q) + 1) % 2 ^ 32 := by
  have recorded := (chansStay_writeRecord q (entryCmd bs (queueOf s q).bell) 1 0 0 noEnd s).toQueuesStay
  have taken : ∀ u, u = writeRecord q (entryCmd bs (queueOf s q).bell) 1 0 0 noEnd s → takeEntry q bs s = incF (setQueue u q { queueOf u q with
      fetched := (queueOf u q).fetched ++ [(entryCmd bs (queueOf s q).bell).updated] }) (qHead q) 1 := by rintro u rfl; rfl
  rw [taken _ rfl]
  have head := recorded.reg (qHead q) (ofQueues_qHead hq)
  have queue := recorded.queueOf q
  generalize writeRecord q (entryCmd bs (queueOf s q).bell) 1 0 0 noEnd s = u at head queue
  refine ⟨?_, ?_⟩
  · rw [incF_eq, queueOf_setF, queueOf_setQueue, if_pos rfl, queue]
  · rw [incF_eq, getF_setF_self, getF_setQueue, head]
    rfl

theorem exec_commandFetch {q : Nat} {st : HostStatus} {entry : List Byte} {s : State} (on : s.powered = true) :
    exec (.commandFetch q st entry) s = .next (fetchCommand q st entry s) := whenOn_powered on _

section
variable {q ta : Nat} {s s1 : State} (may : mayFetch s q = true)
  (translated : translate { cmdAccess s q with who := .command (1024 + q) } (ringAddr s q) false s = (s1, .ok ta))
include may translated

/-- An entry in device memory that is read. -/
theorem fetchCommand_dev {dpa : Nat} {bs : List Byte} (st : HostStatus) (entry : List Byte) (target : targetOf s1 ta = .dev dpa)
    (free : lineBusy s1 (lineOf (locOf dpa)) none none none = false) (read : devRead s1 (agFw 2) dpa 64 = .ok bs) :
    ∃ u, ChansStay s1 u ∧ fetchCommand q st entry s = takeEntry q bs u := by
  obtain ⟨u, got, stays⟩ := readTarget_dev_stays (a := { cmdAccess s1 q with who := .command (1024 + q) }) (va := ringAddr s q) free read
  refine ⟨u, stays, ?_⟩
  unfold fetchCommand
  simp only [may, translated, target, got]
  rfl

/-- An entry in host memory, as the host answers. -/
theorem fetchCommand_host {pa : Nat} (st : HostStatus) (entry : List Byte) (target : targetOf s1 ta = .host pa) :
    fetchCommand q st entry s = if s1.hpt.bme && decide (st = .success) then takeEntry q entry s1 else setOn s1 (qErr q) := by
  unfold fetchCommand
  simp only [may, translated, target]
  rfl

/-- A ring does not lie in an outbound window. -/
theorem fetchCommand_win {w off : Nat} (st : HostStatus) (entry : List Byte) (target : targetOf s1 ta = .win w off) :
    fetchCommand q st entry s = setOn s1 (qErr q) := by
  unfold fetchCommand
  simp only [may, translated, target]
  rfl

/-- A ring entry that can be read joins its queue. -/
theorem fetchCommand_reads {bs : List Byte} {st : HostStatus} {entry : List Byte}
    (readable : (∃ dpa, targetOf s1 ta = .dev dpa ∧ lineBusy s1 (lineOf (locOf dpa)) none none none = false ∧
        devRead s1 (agFw 2) dpa 64 = .ok bs) ∨ ((∃ pa, targetOf s1 ta = .host pa) ∧ s1.hpt.bme = true ∧ st = .success ∧ bs = entry)) :
    ∃ u, ChansStay s u ∧ fetchCommand q st entry s = takeEntry q bs u := by
  have asked : ChansStay s s1 := by
    have stays := chansStay_translate (a := { cmdAccess s q with who := .command (1024 + q) }) rfl (ringAddr s q) false s
    rwa [translated] at stays
  obtain ⟨dpa, target, free, read⟩ | ⟨⟨pa, target⟩, master, rfl, rfl⟩ := readable
  · obtain ⟨u, stays, e⟩ := fetchCommand_dev may translated st entry target free read
    exact ⟨u, asked.trans stays, e⟩
  · exact ⟨s1, asked, by rw [fetchCommand_host may translated _ _ target, master]; rfl⟩

end

/-! ## SCH_Q_CFG (R29) -/

/-- A field that takes every value which the host writes. -/
def Plain (f : FRef) : Prop := f.acc = .rw ∧ f.off ≠ 0x400028

theorem fieldWrite_plain {f : FRef} (hf : Plain f) (mask value : Nat) (s : State) :
    ∃ n, fieldWrite mask value s f = { putF s f (wouldBe s mask value f) with free := n } := by
  obtain ⟨rw_, off⟩ := hf
  unfold fieldWrite fieldNow
  simp only [rw_, if_neg off]
  split
  · exact ⟨s.free, rfl⟩
  · exact ⟨s.free + 1, rfl⟩

theorem wouldBe_congr {s t : State} {f : FRef} (h : getF t f = getF s f) (mask value : Nat) : wouldBe t mask value f = wouldBe s mask value f := by
  rw [wouldBe, wouldBe, h]

/-- A write of plain fields changes registers, and free values. -/
theorem fieldsWrite_plain_changes {fs : List FRef} (plain : ∀ f ∈ fs, Plain f) (mask value : Nat) (s : State) :
    ∃ n r, fieldsWrite mask value fs s = { s with free := n, regs := r } := by
  induction fs generalizing s with
  | nil => exact ⟨s.free, s.regs, rfl⟩
  | cons f fs ih =>
    obtain ⟨n, e⟩ := fieldWrite_plain (plain f List.mem_cons_self) mask value s
    obtain ⟨n', r, e'⟩ := ih (fun g hg => plain g (List.mem_cons_of_mem _ hg)) (fieldWrite mask value s f)
    exact ⟨n', r, e'.trans (by rw [e]; rfl)⟩

/-- Fields elsewhere stay. -/
theorem getF_fieldsWrite_out {fs : List FRef} (plain : ∀ f ∈ fs, Plain f) (mask value : Nat) (s : State) {g : FRef}
    (out : ∀ f ∈ fs, g.key ≠ f.key) : getF (fieldsWrite mask value fs s) g = getF s g := by
  refine foldl_keeps (getF · g) (fieldWrite mask value) fs (fun t f hf => ?_) s
  obtain ⟨n, e⟩ := fieldWrite_plain (plain f hf) mask value t
  exact (congrArg (getF · g) e).trans (getF_putF_ne t _ (out f hf))

/-- Each field takes its value. -/
theorem getF_fieldsWrite {fs : List FRef} (plain : ∀ f ∈ fs, Plain f) (apart : fs.Pairwise (fun f g => f.key ≠ g.key)) (mask value : Nat)
    (s : State) {g : FRef} (hg : g ∈ fs) : getF (fieldsWrite mask value fs s) g = wouldBe s mask value g % 2 ^ g.len := by
  induction fs generalizing s with
  | nil => cases hg
  | cons f fs ih =>
    obtain ⟨apart_f, apart⟩ := List.pairwise_cons.mp apart
    obtain ⟨n, e⟩ := fieldWrite_plain (plain f List.mem_cons_self) mask value s
    have plain' : ∀ h ∈ fs, Plain h := fun h hh => plain h (List.mem_cons_of_mem _ hh)
    show getF (fieldsWrite mask value fs (fieldWrite mask value s f)) g = _
    obtain rfl | hg := List.mem_cons.mp hg
    · rw [getF_fieldsWrite_out plain' mask value _ apart_f, e]
      exact getF_putF_self s g _
    · rw [ih plain' apart _ hg, wouldBe_congr]
      exact (congrArg (getF · g) e).trans (getF_putF_ne s _ (apart_f g hg).symm)

/-- The fields of SCH_Q_CFG that are written only while ENABLE reads 0, and WEIGHT. -/
def cfgFields (q : Nat) : List FRef := [qSize q, qWeight q, qPasid q, qPasidEn q]

theorem plain_cfgFields {q : Nat} (hq : q < 512) : ∀ f ∈ cfgFields q, Plain f := by
  simp only [cfgFields, List.forall_mem_cons, Plain, qSize, qWeight, qPasid, qPasidEn]
  simp
  omega

theorem apart_cfgFields (q : Nat) : (cfgFields q).Pairwise (fun f g => f.key ≠ g.key) := by
  simp [cfgFields, FRef.key, qSize, qWeight, qPasid, qPasidEn]

theorem qEnable_apart (q : Nat) : ∀ f ∈ cfgFields q, (qEnable q).key ≠ f.key := by
  simp [cfgFields, FRef.key, qEnable, qSize, qWeight, qPasid, qPasidEn]

/-- A write to SCH_Q_CFG of an enabled queue: WEIGHT and ENABLE. -/
theorem queueCfgWrite_locked {q : Nat} {s : State} (hq : q < 512) (on : isOn s (qEnable q) = true) (mask value : Nat) :
    queueCfgWrite q mask value s = putF (fieldsWrite mask value [qWeight q] s) (qEnable q) (wouldBe s mask value (qEnable q)) := by
  have enable : getF (fieldsWrite mask value [qWeight q] s) (qEnable q) = getF s (qEnable q) :=
    getF_fieldsWrite_out (fun f hf => plain_cfgFields hq f (by simp_all [cfgFields])) mask value s
      (fun f hf => qEnable_apart q f (by simp_all [cfgFields]))
  unfold queueCfgWrite
  rw [on]
  dsimp only
  rw [if_pos rfl, wouldBe_congr enable, if_neg (by simp)]

/-- One of a disabled queue: every field, but ENABLE not where SIZE_LOG2 comes to lie out of range. -/
theorem queueCfgWrite_open {q : Nat} {s : State} (hq : q < 512) (off : isOn s (qEnable q) = false) (mask value : Nat) :
    queueCfgWrite q mask value s =
      if wouldBe s mask value (qEnable q) = 1 ∧
          (wouldBe s mask value (qSize q) % 2 ^ (qSize q).len < 6 ∨ 16 < wouldBe s mask value (qSize q) % 2 ^ (qSize q).len) then
        setOn (fieldsWrite mask value (cfgFields q) s) (qCfgErr q)
      else putF (fieldsWrite mask value (cfgFields q) s) (qEnable q) (wouldBe s mask value (qEnable q)) := by
  have enable := getF_fieldsWrite_out (plain_cfgFields hq) mask value s (qEnable_apart q)
  have size := getF_fieldsWrite (plain_cfgFields hq) (apart_cfgFields q) mask value s (g := qSize q) (by simp [cfgFields])
  unfold queueCfgWrite
  rw [off]
  dsimp only
  rw [if_neg Bool.false_ne_true]
  show (if wouldBe (fieldsWrite mask value (cfgFields q) s) mask value (qEnable q) = 1 ∧ false = false ∧
      (getF (fieldsWrite mask value (cfgFields q) s) (qSize q) < 6 ∨ 16 < getF (fieldsWrite mask value (cfgFields q) s) (qSize q)) then _
    else putF _ _ (wouldBe (fieldsWrite mask value (cfgFields q) s) mask value (qEnable q))) = _
  rw [wouldBe_congr enable, size]
  simp only [true_and]
  rfl

/-- An access of all eight bytes enables every bit. -/
theorem bits_full {lo hi : Nat} (h : lo ≤ hi) (h' : hi < 64) : bits (byteMask 0xFF) hi lo = 2 ^ (hi + 1 - lo) - 1 := by
  have all : byteMask 0xFF = 2 ^ 64 - 1 := by decide
  rw [bits, all]
  refine Nat.eq_of_testBit_eq fun i => ?_
  simp only [Nat.testBit_mod_two_pow, Nat.testBit_shiftRight, Nat.testBit_two_pow_sub_one]
  by_cases inside : i < hi + 1 - lo
  · simp [inside]
    omega
  · simp [inside]

/-- With every byte enabled a field takes the bits written to it. -/
theorem wouldBe_full {f : FRef} (len : 0 < f.len) (fits : f.lo + f.len ≤ 64) (s : State) (value : Nat) :
    wouldBe s (byteMask 0xFF) value f % 2 ^ f.len = bits value (f.lo + f.len - 1) f.lo := by
  have width : f.lo + f.len - 1 + 1 - f.lo = f.len := by omega
  rw [wouldBe, bits_full (by omega) (by omega), width, mergeBits_all, bits, width, Nat.mod_mod]

theorem exec_schQCfgWrite {q be value : Nat} {s : State} (on : s.powered = true) (inTurn : InTurn (.schQCfgWrite q be value) s) :
    exec (.schQCfgWrite q be value) s = .next (if halfOk be && decide (q < 512) then queueCfgWrite q (byteMask be) value s else s) := by
  show execSchQCfgWrite q be value s = _
  rw [execSchQCfgWrite, whenOn_powered on, inOrder_inTurn inTurn]

/-- What a write to SCH_Q_CFG leaves in the queue's registers. -/
theorem queueCfgWrite_fields {q : Nat} (hq : q < 512) (mask value : Nat) (s : State) :
    let now := fun (f : FRef) => wouldBe s mask value f % 2 ^ f.len
    let t := queueCfgWrite q mask value s
    getF t (qWeight q) = now (qWeight q) ∧
      (isOn s (qEnable q) = true → getF t (qSize q) = getF s (qSize q) ∧ getF t (qPasid q) = getF s (qPasid q) ∧
        getF t (qPasidEn q) = getF s (qPasidEn q) ∧ getF t (qEnable q) = now (qEnable q)) ∧
      (isOn s (qEnable q) = false → getF t (qSize q) = now (qSize q) ∧ getF t (qPasid q) = now (qPasid q) ∧
        getF t (qPasidEn q) = now (qPasidEn q) ∧
        if wouldBe s mask value (qEnable q) = 1 ∧ (now (qSize q) < 6 ∨ 16 < now (qSize q)) then
          isOn t (qCfgErr q) = true ∧ isOn t (qEnable q) = false
        else getF t (qEnable q) = now (qEnable q)) := by
  intro now t
  have weight : ∀ f ∈ [qWeight q], Plain f := fun f hf => plain_cfgFields hq f (by simp_all [cfgFields])
  have ne_enable : ∀ f ∈ cfgFields q, f.key ≠ (qEnable q).key := fun f hf => (qEnable_apart q f hf).symm
  have ne_err : ∀ f ∈ qEnable q :: cfgFields q, f.key ≠ (qCfgErr q).key := by
    simp [cfgFields, FRef.key, qCfgErr, qEnable, qSize, qWeight, qPasid, qPasidEn]
    omega
  have ne_weight : ∀ f ∈ [qSize q, qPasid q, qPasidEn q], f.key ≠ (qWeight q).key := by
    simp [FRef.key, qSize, qWeight, qPasid, qPasidEn]
  cases on : isOn s (qEnable q)
  case true =>
    have e : t = putF (fieldsWrite mask value [qWeight q] s) (qEnable q) (wouldBe s mask value (qEnable q)) := queueCfgWrite_locked hq on mask value
    have stays : ∀ f ∈ [qSize q, qPasid q, qPasidEn q], getF t f = getF s f := fun f hf => by
      rw [e, getF_putF_ne _ _ (ne_enable f (by simp_all [cfgFields]; tauto)),
        getF_fieldsWrite_out weight mask value s (fun g hg => (List.mem_singleton.mp hg) ▸ ne_weight f hf)]
    refine ⟨?_, fun _ => ⟨stays _ (by simp), stays _ (by simp), stays _ (by simp), ?_⟩, fun h => nomatch h⟩
    · rw [e, getF_putF_ne _ _ (ne_enable _ (by simp [cfgFields]))]
      exact getF_fieldsWrite weight (List.pairwise_singleton _ _) mask value s (List.mem_singleton.mpr rfl)
    · rw [e, getF_putF_self]
  case false =>
    have fields : ∀ f ∈ cfgFields q, getF t f = now f := fun f hf => by
      refine .trans ?_ (getF_fieldsWrite (plain_cfgFields hq) (apart_cfgFields q) mask value s hf)
      show getF (queueCfgWrite q mask value s) f = _
      rw [queueCfgWrite_open hq on]
      split
      · exact getF_setF_ne _ _ (ne_err f (List.mem_cons_of_mem _ hf))
      · exact getF_putF_ne _ _ (ne_enable f hf)
    refine ⟨fields _ (by simp [cfgFields]), fun h => (nomatch h), fun _ => ⟨fields _ (by simp [cfgFields]), fields _ (by simp [cfgFields]),
      fields _ (by simp [cfgFields]), ?_⟩⟩
    have e : t = _ := queueCfgWrite_open hq on mask value
    split
    next bad =>
      rw [if_pos bad] at e
      rw [e]
      refine ⟨by simp [isOn, qCfgErr], ?_⟩
      rw [isOn_eq_false, setOn_eq, getF_setF_ne _ _ (ne_err _ List.mem_cons_self),
        getF_fieldsWrite_out (plain_cfgFields hq) mask value s (qEnable_apart q)]
      exact isOn_eq_false.mp on
    next good =>
      rw [if_neg good] at e
      rw [e, getF_putF_self]

/-- It changes neither memory nor the scheduler. -/
theorem queueCfgWrite_stays {q : Nat} (hq : q < 512) (mask value : Nat) (s : State) :
    SameMemory s (queueCfgWrite q mask value s) ∧ (queueCfgWrite q mask value s).sch = s.sch := by
  have kept : ∀ fs : List FRef, (∀ f ∈ fs, f ∈ cfgFields q) → (fieldsWrite mask value fs s).mm = s.mm ∧ (fieldsWrite mask value fs s).sch = s.sch :=
    fun fs sub => by
      obtain ⟨n, r, e⟩ := fieldsWrite_plain_changes (fun f hf => plain_cfgFields hq f (sub f hf)) mask value s
      rw [e]
      exact ⟨rfl, rfl⟩
  obtain ⟨mm, sch⟩ : (queueCfgWrite q mask value s).mm = s.mm ∧ (queueCfgWrite q mask value s).sch = s.sch := by
    cases on : isOn s (qEnable q)
    case true =>
      rw [queueCfgWrite_locked hq on, putF_mm, putF_sch]
      exact kept [qWeight q] (by simp [cfgFields])
    case false =>
      rw [queueCfgWrite_open hq on]
      split
      · rw [setOn_eq, setF_mm, setF_sch]
        exact kept (cfgFields q) (fun _ hf => hf)
      · rw [putF_mm, putF_sch]
        exact kept (cfgFields q) (fun _ hf => hf)
  exact ⟨⟨by rw [mm], by rw [mm]⟩, sch⟩

/-! ## Commands that fail their check (R39) -/

/-- Every row of host commands ends such a command BAD_COMMAND. -/
theorem exec_hostRow_bad {i : Instr} {q op : Nat} {ok : Cmd → Bool} {c : Cmd} {s : State} (row : hostRow i = some (q, op, ok))
    (on : s.powered = true) (up : schedulerUp s = true) (may : mayStart s q = true) (head : headCmd s q = some c) (fresh : c.started = false)
    (bad : cOp c < 1 ∨ 10 < cOp c ∨ (cOp c = op ∧ (commonOk c && ok c) = false)) :
    exec i s = .next (endCommand q badCommand 0 (useCredit q s)) := by
  unfold hostRow at row
  split at row
  case h_1 | h_8 | h_9 | h_10 | h_11 | h_12 | h_13 | h_14 | h_15 =>
    cases row
    exact (whenOn_powered on _).trans (congrArg _ (begin_bad up may head bad _))
  case h_2 | h_3 =>
    cases row
    exact (whenOn_powered on _).trans (congrArg _ (cmdStep_bad up may head bad fresh _))
  case h_4 | h_5 | h_6 | h_7 =>
    cases row
    exact (whenOn_powered on _).trans (congrArg _ (subStep_bad up may head bad fresh _ (by decide) _))
  case h_16 => cases row

/-- Settles O27. -/
theorem queuesTakeCommands : Obligations.QueuesTakeCommands := by
  unfold Obligations.QueuesTakeCommands
  refine ⟨fun q off size v s on inTurn => ?doorbell, fun q ta st entry bs s s1 on may translated readable => ?fetch,
    fun q ta st entry s s1 on may translated unreadable => ?unreadable, fun q st entry s on barred => ?barred,
    fun q be value s on inTurn => ?configure, fun i q op ok c s row on up may head fresh bad => exec_hostRow_bad row on up may head fresh bad⟩
  case doorbell =>
    refine ⟨_, exec_tail on inTurn, fun hq ho hs => ⟨fun inRange => ?_, fun out => ?_⟩, ringTail_ill⟩
    · rw [ringTail_eq on hq ho hs, if_pos inRange]
    · rw [ringTail_eq on hq ho hs, if_neg (Nat.not_le.mpr out)]
  case fetch =>
    obtain ⟨u, stays, e⟩ := fetchCommand_reads may translated readable
    obtain ⟨queue, head⟩ := takeEntry_joins (mayFetch_lt may) bs u
    refine ⟨_, (exec_commandFetch on).trans (by rw [e]), (entryCmd bs (queueOf u q).bell).updated, ?_, rfl, rfl, rfl, ?_, ?_⟩
    · rw [queue, stays.queueOf]
    · rw [head, stays.reg _ (ofQueues_qHead (mayFetch_lt may))]
    · rw [queue, stays.queueOf]
  case unreadable =>
    rw [exec_commandFetch on]
    obtain ⟨w, off, target⟩ | ⟨⟨pa, target⟩, failed⟩ := unreadable
    · rw [fetchCommand_win may translated st entry target]
    · rw [fetchCommand_host may translated st entry target, if_neg]
      rintro both
      simp only [Bool.and_eq_true, decide_eq_true_eq] at both
      obtain off | other := failed
      · simp [off] at both
      · exact other both.2
  case barred =>
    rw [exec_commandFetch on, fetchCommand, barred]
    rfl
  case configure =>
    refine ⟨fun hq half => ⟨_, (exec_schQCfgWrite on inTurn).trans (by rw [half, decide_eq_true hq, Bool.and_self, if_pos rfl]), ?_⟩, fun out => ?_⟩
    · obtain ⟨memory, sch⟩ := queueCfgWrite_stays hq (byteMask be) value s
      obtain ⟨weight, locked, opened⟩ := queueCfgWrite_fields hq (byteMask be) value s
      refine ⟨memory, sch, weight, locked, opened, ?_⟩
      rintro rfl
      exact ⟨wouldBe_full (f := qWeight q) (by simp [qWeight]) (by simp [qWeight]) s value, wouldBe_full (f := qSize q) (by simp [qSize]) (by simp [qSize]) s value,
        wouldBe_full (f := qPasid q) (by simp [qPasid]) (by simp [qPasid]) s value, wouldBe_full (f := qPasidEn q) (by simp [qPasidEn]) (by simp [qPasidEn]) s value,
        wouldBe_full (f := qEnable q) (by simp [qEnable]) (by simp [qEnable]) s value⟩
    · rw [exec_schQCfgWrite on inTurn, if_neg]
      rintro both
      simp only [Bool.and_eq_true, decide_eq_true_eq] at both
      obtain big | ill := out
      · omega
      · simp [ill] at both

end Sys2Proof.Machine
end

