-- ==== Sys2Proof/Proofs/Drains.lean ====
section
/-!
SUPPORT. Orders to drain (R35, R59): the courses of a casting halt, nothing more is placed on its clusters, and the command is marked.
-/
namespace Sys2Proof.Machine

/-! ## What a drain keeps stopped -/

/-- Courses that live go on living, those halted stay so, and clusters that place nothing more still place nothing. -/
structure Stilled (s t : State) : Prop where
  live : ∀ g i, (courseOf s g i).live = true → (courseOf t g i).live = true
  halted : ∀ g i, (courseOf s g i).live = true → (courseOf s g i).halted = true → (courseOf t g i).halted = true
  stop : ∀ cl, (clusterOf s cl).stop = true → (clusterOf t cl).stop = true

namespace Stilled

theorem refl (s : State) : Stilled s s := ⟨fun _ _ h => h, fun _ _ _ h => h, fun _ h => h⟩

theorem trans {s t u : State} (h : Stilled s t) (h' : Stilled t u) : Stilled s u :=
  ⟨fun g i l => h'.live g i (h.live g i l), fun g i l x => h'.halted g i (h.live g i l) (h.halted g i l x), fun cl x => h'.stop cl (h.stop cl x)⟩

theorem foldl {β : Type} {f : State → β → State} (h : ∀ s x, Stilled s (f s x)) (xs : List β) (s : State) : Stilled s (xs.foldl f s) :=
  List.foldlRecOn xs f (motive := Stilled s) (refl s) (fun t ht x _ => ht.trans (h t x))

/-- A fold passes through the step of each of its elements. -/
theorem foldl_through {β : Type} {f : State → β → State} (h : ∀ s x, Stilled s (f s x)) {xs : List β} {x : β} (hx : x ∈ xs) (s : State) :
    ∃ u, Stilled s u ∧ Stilled (f u x) (xs.foldl f s) := by
  obtain ⟨a, b, rfl⟩ := List.append_of_mem hx
  exact ⟨a.foldl f s, foldl h a s, by rw [List.foldl_append, List.foldl_cons]; exact foldl h b _⟩

/-- A change that reaches neither courses nor clusters. -/
theorem of_same {s t : State} (courses : ∀ g i, courseOf t g i = courseOf s g i) (clusters : t.clusters = s.clusters) : Stilled s t :=
  ⟨fun g i h => by rw [courses]; exact h, fun g i _ h => by rw [courses]; exact h, fun cl h => by unfold clusterOf at h ⊢; rw [clusters]; exact h⟩

end Stilled

/-! ## Courses that halt -/

theorem courseOf_congr {s t : State} (h : t.cores = s.cores) (g i : Nat) : courseOf t g i = courseOf s g i := by
  unfold courseOf coreOf
  rw [h]

/-- A core whose courses are as they were. -/
theorem courseOf_setCore_same {s : State} {g : Nat} {c : Core} (h : c.courses = (coreOf s g).courses) (g' i : Nat) :
    courseOf (setCore s g c) g' i = courseOf s g' i := by
  unfold courseOf
  rw [coreOf_setCore]
  split
  next e => rw [h, e]
  next => rfl

theorem courseOf_leaveMiss (g slot g' i : Nat) (s : State) : courseOf (leaveMiss g slot s) g' i = courseOf s g' i := by
  unfold leaveMiss
  split
  · exact courseOf_setCore_same (by rfl) _ _
  · rfl

theorem dropToken_cores (g : Nat) (s : State) : (dropToken g s).cores = s.cores := by
  unfold dropToken showWait
  dsimp only
  split <;> rfl

theorem dropToken_clusters (g : Nat) (s : State) : (dropToken g s).clusters = s.clusters := by
  unfold dropToken showWait
  dsimp only
  split <;> rfl

theorem tracePourAbort_changes (g slot reason line : Nat) (s : State) :
    ∃ r t w, tracePourAbort g slot reason line s = { s with regs := r, trc := t, touched := w } := by
  unfold tracePourAbort
  dsimp only
  obtain ⟨r, t, w, e⟩ := countCore_changes g 0x0B 1 s
  rw [e]
  obtain ⟨r', t', w', e'⟩ := traceEvent_changes (clOf g) 0x09 g (castingOf s (castingOfCourse s g slot)).sched
    (consortTags s g (courseOf s g slot).consort).1 (consortTags s g (courseOf s g slot).consort).2 (reason + 256 * (line % 2 ^ 39))
    { s with regs := r, trc := t, touched := w }
  exact ⟨r', t', w', e'⟩

theorem stilled_setCourse {s : State} {g slot : Nat} {c : Course} (live : c.live = (courseOf s g slot).live)
    (halted : c.halted = (courseOf s g slot).halted) : Stilled s (setCourse s g slot c) := by
  refine ⟨fun g' i l => ?_, fun g' i _ x => ?_, fun _ h => h⟩
  · rw [courseOf_setCourse]
    split
    next e => obtain ⟨rfl, rfl⟩ := e; exact live.trans l
    next => exact l
  · rw [courseOf_setCourse]
    split
    next e => obtain ⟨rfl, rfl⟩ := e; exact halted.trans x
    next => exact x

theorem stilled_setCore {s : State} {g : Nat} {c : Core} (h : c.courses = (coreOf s g).courses) : Stilled s (setCore s g c) :=
  .of_same (courseOf_setCore_same h) rfl

theorem stilled_tracePourAbort (g slot reason line : Nat) (s : State) : Stilled s (tracePourAbort g slot reason line s) := by
  obtain ⟨r, t, w, e⟩ := tracePourAbort_changes g slot reason line s
  rw [e]
  exact .of_same (fun g' i => courseOf_congr rfl g' i) rfl

theorem leaveMiss_clusters (g slot : Nat) (s : State) : (leaveMiss g slot s).clusters = s.clusters := by
  unfold leaveMiss
  split <;> rfl

/-- The lines and the place a pour holds are given up. -/
theorem courseOf_freed (g slot g' i : Nat) (s : State) :
    courseOf (forgetWaits (.course g slot) (unlockAll g (dropToken g s))) g' i = courseOf s g' i :=
  (courseOf_leaveMiss g slot g' i _).trans (courseOf_congr (dropToken_cores g s) g' i)

/-- A pour that aborts leaves its course live, and halted if it was. -/
theorem stilled_abortPourAt (g slot reason line : Nat) (s : State) : Stilled s (abortPourAt g slot reason line s) := by
  have freed : Stilled s (forgetWaits (.course g slot) (unlockAll g (dropToken g s))) :=
    .of_same (courseOf_freed g slot · · s) ((leaveMiss_clusters _ _ _).trans (dropToken_clusters g s))
  have kept := courseOf_freed g slot g slot s
  unfold abortPourAt
  dsimp only
  generalize forgetWaits (.course g slot) (unlockAll g (dropToken g s)) = u at freed kept
  split
  · exact .refl s
  have kept' : courseOf (setCore u g { coreOf u g with ladle := {} }) g slot = courseOf s g slot := (courseOf_setCore_same (by rfl) _ _).trans kept
  refine freed.trans ((stilled_setCore (c := { coreOf u g with ladle := {} }) rfl).trans (.trans (stilled_setCourse ?_ ?_) (stilled_tracePourAbort _ _ _ _ _)))
  · exact (congrArg (fun x => x.live) kept').symm
  · exact (congrArg (fun x => x.halted) kept').symm

/-- Every listed record of a table is changed in one way. -/
theorem tget_map {α : Type} {d : α} (f : α → α) {t : Tbl α} {k : Nat} (h : tget d t k ≠ d) :
    tget d (t.map (fun e => (e.1, f e.2))) k = f (tget d t k) := by
  induction t with
  | nil => exact absurd rfl h
  | cons e t ih =>
    obtain ⟨a, v⟩ := e
    simp only [List.map_cons, tget] at h ⊢
    split
    · rfl
    next other => exact ih (by rwa [if_neg other] at h)

/-- A course as a drain halts it. -/
def Course.halt (c : Course) : Course := { c with halted := true }

/-- The pour of casting `k` on a core is preempted (R120). -/
def preemptPour (k : Nat) (s : State) (g : Nat) : State :=
  match (coreOf s g).ladle.holder with
  | some slot => if castingOfCourse s g slot = k then abortPour g slot 6 s else s
  | none => s

/-- The courses of a core halt, those switched out too. -/
def haltCore (s : State) (g : Nat) : State :=
  setCore s g { coreOf s g with
    courses := (coreOf s g).courses.map (fun e => (e.1, e.2.halt))
    images := (coreOf s g).images.map (fun i => { i with courses := i.courses.map Course.halt }) }

/-- One core, and one cluster, of casting `k` are ordered to drain. -/
def drainCore (k : Nat) (s : State) (g : Nat) : State := haltCore (preemptPour k s g) g
def stopCluster (s : State) (cl : Nat) : State :=
  setCluster s cl { clusterOf s cl with
    stop := true
    queues := (clusterOf s cl).queues.map (fun e => (e.1, e.2.map (fun m => { m with stopped := true }))) }
def drainCluster (k : Nat) (s : State) (cl : Nat) : State := stopCluster ((coresOf cl).foldl (drainCore k) s) cl

theorem drainCasting_eq (k : Nat) (s : State) :
    drainCasting k s = (maskList (castingOf s k).mask).foldl (drainCluster k) (stopChans k s) := rfl

theorem courseOf_haltCore {s : State} {g g' i : Nat} (live : (courseOf s g' i).live = true) :
    courseOf (haltCore s g) g' i = if g' = g then (courseOf s g' i).halt else courseOf s g' i := by
  unfold haltCore
  unfold courseOf at live ⊢
  rw [coreOf_setCore]
  split
  next e =>
    subst e
    exact tget_map Course.halt (fun absent => by rw [absent] at live; exact Bool.false_ne_true live)
  next => rfl

theorem stilled_haltCore (s : State) (g : Nat) : Stilled s (haltCore s g) := by
  refine ⟨fun g' i l => ?_, fun g' i l x => ?_, fun _ h => h⟩
  · rw [courseOf_haltCore l]
    split <;> exact l
  · rw [courseOf_haltCore l]
    split
    · rfl
    · exact x

theorem stilled_preemptPour (k : Nat) (s : State) (g : Nat) : Stilled s (preemptPour k s g) := by
  unfold preemptPour
  split
  · split
    · exact stilled_abortPourAt _ _ _ _ _
    · exact .refl s
  · exact .refl s

theorem stilled_drainCore (k : Nat) (s : State) (g : Nat) : Stilled s (drainCore k s g) :=
  (stilled_preemptPour k s g).trans (stilled_haltCore _ g)

theorem stilled_stopCluster (s : State) (cl : Nat) : Stilled s (stopCluster s cl) := by
  refine ⟨fun _ _ h => h, fun _ _ _ h => h, fun cl' h => ?_⟩
  unfold stopCluster
  rw [clusterOf_setCluster]
  split
  · rfl
  · exact h

theorem stilled_drainCluster (k : Nat) (s : State) (cl : Nat) : Stilled s (drainCluster k s cl) :=
  (Stilled.foldl (stilled_drainCore k) _ s).trans (stilled_stopCluster _ cl)

/-- A cluster under a drain places nothing more, and its courses halt. -/
theorem drainCluster_stops (k : Nat) (s : State) (cl : Nat) : (clusterOf (drainCluster k s cl) cl).stop = true ∧
    ∀ g ∈ coresOf cl, ∀ i, (courseOf s g i).live = true → (courseOf (drainCluster k s cl) g i).halted = true := by
  have stops : ∀ u, (clusterOf (stopCluster u cl) cl).stop = true := fun u => by
    unfold stopCluster
    rw [clusterOf_setCluster, if_pos rfl]
  have halts : ∀ u g i, (courseOf u g i).live = true → (courseOf (drainCore k u g) g i).halted = true := fun u g i l => by
    unfold drainCore
    rw [courseOf_haltCore ((stilled_preemptPour k u g).live g i l), if_pos rfl]
    rfl
  refine ⟨stops _, fun g hg i l => ?_⟩
  obtain ⟨u, before, after⟩ := Stilled.foldl_through (stilled_drainCore k) hg s
  have l' := before.live g i l
  exact ((after.trans (stilled_stopCluster _ cl)).halted g i ((stilled_drainCore k u g).live g i l') (halts u g i l'))

theorem stilled_stopChans (k : Nat) (s : State) : Stilled s (stopChans k s) := by
  unfold stopChans
  exact .foldl (f := fun t (x : Nat × Nat) => setChan t x.1 x.2 { chanOf t x.1 x.2 with stopping := true, stopAt := t.aoTick }) (fun s x => .of_same (fun _ _ => rfl) rfl) _ s

/-- A casting under a drain: nothing more is placed on its clusters, and their courses halt (R59). -/
theorem drainCasting_stops (k : Nat) (s : State) {cl : Nat} (hcl : cl ∈ maskList (castingOf s k).mask) :
    (clusterOf (drainCasting k s) cl).stop = true ∧
      ∀ g ∈ coresOf cl, ∀ i, (courseOf s g i).live = true → (courseOf (drainCasting k s) g i).halted = true := by
  rw [drainCasting_eq]
  obtain ⟨u, before, after⟩ := Stilled.foldl_through (stilled_drainCluster k) hcl (stopChans k s)
  obtain ⟨stops, halts⟩ := drainCluster_stops k u cl
  refine ⟨after.stop cl stops, fun g hg i l => ?_⟩
  have l' := before.live g i ((stilled_stopChans k s).live g i l)
  exact after.halted g i ((stilled_drainCluster k u cl).live g i l') (halts g hg i l')

/-! ## What a drain leaves alone -/

theorem queuesStay_setChan (s : State) (e ch : Nat) (c : Chan) : QueuesStay s (setChan s e ch c) := .of_sch rfl rfl fun _ _ => rfl

theorem queuesStay_drainCasting (k : Nat) (s : State) : QueuesStay s (drainCasting k s) := by
  have core : ∀ s g, ChansStay s (drainCore k s g) := fun s g => by
    refine .trans ?_ (.of_noticed (noticed_setCore _ _ _))
    unfold preemptPour
    split
    · split
      · exact .of_noticed (noticed_abortPourAt _ _ _ _ _)
      · exact .refl s
    · exact .refl s
  have cluster : ∀ s cl, ChansStay s (drainCluster k s cl) := fun s cl => (ChansStay.foldl core _ s).trans (chansStay_setCluster _ _ _)
  have chans : QueuesStay s (stopChans k s) := by
    unfold stopChans
    exact .foldl (fun s x => queuesStay_setChan _ _ _ _) _ s
  rw [drainCasting_eq]
  exact chans.trans (ChansStay.foldl cluster _ _).toQueuesStay

/-! ## The order (R35, R59) -/

/-- A command that is ordered to drain at tick `now`. -/
def Cmd.ordered (why now : Nat) (c : Cmd) : Cmd := { c with draining := why, drainLeft := now }

/-- What an order does to the command's engines. -/
def drainEngines (c : Cmd) (s : State) : State := match c.slot with | some k => drainCasting k s | none => s

theorem queuesStay_drainEngines (c : Cmd) (s : State) : QueuesStay s (drainEngines c s) := by
  unfold drainEngines
  split
  · exact queuesStay_drainCasting _ _
  · exact .refl s

section
variable {q why : Nat} {c : Cmd} {s : State} (head : headCmd s q = some c)
include head

/-- A started command that is under no drain yet takes the order. -/
theorem orderDrain_started (began : c.started = true) (free : c.draining = 0) :
    orderDrain q why s = drainEngines c (setHead s q (c.ordered why s.aoTick)) := by
  unfold orderDrain
  rw [head]
  dsimp only
  rw [if_neg (by simp [began, free])]
  rfl

/-- One that has not started, or is under a drain already, takes none. -/
theorem orderDrain_kept (h : c.started = false ∨ c.draining ≠ 0) : orderDrain q why s = s := by
  unfold orderDrain
  rw [head]
  exact if_pos (by obtain h | h := h <;> simp [h])

end

theorem orderDrain_none {q : Nat} {s : State} (why : Nat) (empty : headCmd s q = none) : orderDrain q why s = s := by
  unfold orderDrain
  rw [empty]

theorem length_setNth {α : Type} (xs : List α) (i : Nat) (v : α) : (setNth xs i v).length = xs.length := by
  induction xs generalizing i with
  | nil => rfl
  | cons x xs ih => cases i <;> simp [setNth, ih]

/-- An order leaves a queue its commands, and those that have ended; and the queues' registers and time as they were. -/
theorem orderDrain_queue (q why : Nat) (s : State) :
    (queueOf (orderDrain q why s) q).fetched.length = (queueOf s q).fetched.length ∧
      (queueOf (orderDrain q why s) q).ended = (queueOf s q).ended ∧ ∀ f, OfQueues f → getF (orderDrain q why s) f = getF s f := by
  have unmoved : orderDrain q why s = s → (queueOf (orderDrain q why s) q).fetched.length = (queueOf s q).fetched.length ∧
      (queueOf (orderDrain q why s) q).ended = (queueOf s q).ended ∧ ∀ f, OfQueues f → getF (orderDrain q why s) f = getF s f :=
    fun e => by rw [e]; exact ⟨rfl, rfl, fun _ _ => rfl⟩
  cases head : headCmd s q with
  | none => exact unmoved (orderDrain_none why head)
  | some c =>
    by_cases takes : c.started = true ∧ c.draining = 0
    · have stays := queuesStay_drainEngines c (setHead s q (c.ordered why s.aoTick))
      have queue : queueOf (setHead s q (c.ordered why s.aoTick)) q =
          { queueOf s q with fetched := setNth (queueOf s q).fetched 0 (c.ordered why s.aoTick) } := by
        unfold setHead
        rw [queueOf_setQueue, if_pos rfl]
      rw [orderDrain_started head takes.1 takes.2, stays.queueOf, queue]
      exact ⟨length_setNth _ _ _, rfl, stays.reg⟩
    · exact unmoved (orderDrain_kept head (by by_cases b : c.started = true <;> simp_all))

end Sys2Proof.Machine
end

