-- ==== Sys2Proof/Proofs/QueueReset.lean ====
section
/-!
CERTIFICATE. The reset of a host queue (R35).
-/
namespace Sys2Proof.Machine

/-! ## Commands that end before they have started -/

/-- Every one of these commands of queue `q` gets its record. -/
def recordAborts (q : Nat) (cs : List Cmd) (s : State) : State :=
  cs.foldl (fun s c => writeRecord q { c with tStart := s.aoTick } stAborted s.aoTick 0 (hostReset false) s) s

theorem chansStay_recordAborts (q : Nat) (cs : List Cmd) (s : State) : ChansStay s (recordAborts q cs s) :=
  .foldl (fun s _ => chansStay_writeRecord _ _ _ _ _ _ s) cs s

/-- The record of a queue whose commands, but for the `keep` first, have ended. -/
def Queue.cut (x : Queue) (keep : Nat) : Queue :=
  let out := (x.fetched.drop keep).map cSeq
  { x with fetched := x.fetched.take keep, ended := (x.ended.filter (fun n => !out.contains n)) ++ out }

theorem abortQueued_eq (q keep : Nat) (s : State) :
    abortQueued q keep s = setQueue (recordAborts q ((queueOf s q).fetched.drop keep) s) q ((queueOf s q).cut keep) := by
  have queue := (chansStay_recordAborts q ((queueOf s q).fetched.drop keep) s).queueOf q
  have cut : ∀ u, u = recordAborts q ((queueOf s q).fetched.drop keep) s → abortQueued q keep s = setQueue u q { queueOf u q with
      fetched := (queueOf u q).fetched.take keep
      ended := ((queueOf u q).ended.filter (fun n => !(((queueOf s q).fetched.drop keep).map cSeq).contains n)) ++
        ((queueOf s q).fetched.drop keep).map cSeq } := by rintro u rfl; rfl
  rw [cut _ rfl, queue]
  rfl

theorem queueOf_abortQueued (q keep : Nat) (s : State) : queueOf (abortQueued q keep s) q = (queueOf s q).cut keep := by
  rw [abortQueued_eq, queueOf_setQueue, if_pos rfl]

theorem abortQueued_aoTick (q keep : Nat) (s : State) : (abortQueued q keep s).aoTick = s.aoTick := by
  rw [abortQueued_eq]
  exact (chansStay_recordAborts q _ s).tick

theorem getF_abortQueued {f : FRef} (hf : OfQueues f) (q keep : Nat) (s : State) : getF (abortQueued q keep s) f = getF s f := by
  rw [abortQueued_eq]
  exact (chansStay_recordAborts q _ s).reg f hf

/-- The commands that are cut off have ended. -/
theorem Queue.mem_ended_cut {x : Queue} {keep : Nat} {c : Cmd} (h : c ∈ x.fetched.drop keep) : cSeq c ∈ (x.cut keep).ended :=
  List.mem_append_right _ (List.mem_map_of_mem h)

/-! ## The order to reset -/

/-- Whether the oldest command of a queue has started. -/
def headStarted (s : State) (q : Nat) : Bool := match headCmd s q with | some c => c.started | none => false

/-- RESET and RESET_BUSY are set. -/
def resetMarked (q : Nat) (s : State) : State := setOn (setOn s (qReset q)) (qResetBusy q)

/-- A queue whose reset begins: what its oldest command waits for and holds back is given up, if it has not started. -/
def resetBegun (q : Nat) (s : State) : State :=
  if headStarted s q then resetMarked q s else dropClaim q (dropCmdWaits q (resetMarked q s))

theorem resetQueue_idle {q : Nat} {s : State} (idle : isOn s (qResetBusy q) = false) :
    resetQueue q s = orderDrain q 2 (abortQueued q (b2n (headStarted s q)) (resetBegun q s)) :=
  if_neg (by rw [idle]; exact Bool.false_ne_true)

theorem resetQueue_busy {q : Nat} {s : State} (busy : isOn s (qResetBusy q) = true) : resetQueue q s = s := if_pos busy

theorem queueOf_resetBegun (q : Nat) (s : State) : queueOf (resetBegun q s) q = queueOf s q := by
  have marked : queueOf (resetMarked q s) q = queueOf s q := rfl
  unfold resetBegun
  split
  · exact marked
  · exact (queueOf_dropClaim _ _ _).trans marked

theorem resetBegun_aoTick (q : Nat) (s : State) : (resetBegun q s).aoTick = s.aoTick := by
  have marked : (resetMarked q s).aoTick = s.aoTick := rfl
  unfold resetBegun
  split
  · exact marked
  · exact (dropClaim_aoTick _ _).trans marked

theorem dropClaim_regs (q : Nat) (s : State) : (dropClaim q s).regs = s.regs := by
  unfold dropClaim
  split
  · split <;> rfl
  · rfl

theorem qReset_ne_qResetBusy (q : Nat) : (qReset q).key ≠ (qResetBusy q).key := by simp only [FRef.key, qReset, qResetBusy]; omega
theorem qHead_ne_qReset (q : Nat) : (qHead q).key ≠ (qReset q).key := by simp [FRef.key, qHead, qReset]
theorem qHead_ne_qResetBusy (q : Nat) : (qHead q).key ≠ (qResetBusy q).key := by simp [FRef.key, qHead, qResetBusy]

/-- The queue shows that it is being reset. -/
theorem isOn_resetBegun (q : Nat) (s : State) : isOn (resetBegun q s) (qReset q) = true ∧ isOn (resetBegun q s) (qResetBusy q) = true := by
  have marked : isOn (resetMarked q s) (qReset q) = true ∧ isOn (resetMarked q s) (qResetBusy q) = true := by
    simp only [resetMarked, isOn_eq_true, setOn_eq, getF_setF_ne _ _ (qReset_ne_qResetBusy q), getF_setF_self]
    simp [qReset, qResetBusy]
  unfold resetBegun
  split
  · exact marked
  · have regs : (dropClaim q (dropCmdWaits q (resetMarked q s))).regs = (resetMarked q s).regs := dropClaim_regs _ _
    rw [isOn_congr (getF_congr regs _), isOn_congr (getF_congr regs _)]
    exact marked

/-- A started command is ordered to drain, unless it is under a drain. -/
theorem headCmd_orderDrain {q why : Nat} {c : Cmd} {s : State} (head : headCmd s q = some c) (began : c.started = true) :
    headCmd (orderDrain q why s) q = some (if c.draining = 0 then c.ordered why s.aoTick else c) := by
  split
  next free => rw [orderDrain_started head began free, (queuesStay_drainEngines c _).headCmd, headCmd_setHead head]
  next under => rw [orderDrain_kept head (.inr under), head]

theorem ofQueues_qReset {q : Nat} (hq : q < 512) : OfQueues (qReset q) := by simp only [OfQueues, FRef.key, qReset]; omega
theorem ofQueues_qResetBusy {q : Nat} (hq : q < 512) : OfQueues (qResetBusy q) := by simp only [OfQueues, FRef.key, qResetBusy]; omega

/-- A reset begins: what has not started ends, and what has is ordered to drain. -/
theorem resetQueue_idle_spec {q : Nat} {s : State} (hq : q < 512) (idle : isOn s (qResetBusy q) = false) :
    let t := resetQueue q s
    let n := b2n (headStarted s q)
    isOn t (qReset q) = true ∧ isOn t (qResetBusy q) = true ∧ (queueOf t q).fetched.length = ((queueOf s q).fetched.take n).length ∧
      (∀ c ∈ (queueOf s q).fetched.drop n, cSeq c ∈ (queueOf t q).ended) ∧
      ∀ c, headCmd s q = some c → c.started = true → headCmd t q = some (if c.draining = 0 then c.ordered 2 s.aoTick else c) := by
  intro t n
  have e : t = orderDrain q 2 (abortQueued q n (resetBegun q s)) := resetQueue_idle idle
  have queue : queueOf (abortQueued q n (resetBegun q s)) q = (queueOf s q).cut n := by rw [queueOf_abortQueued, queueOf_resetBegun]
  have reg : ∀ f, OfQueues f → getF (abortQueued q n (resetBegun q s)) f = getF (resetBegun q s) f := fun f hf => getF_abortQueued hf _ _ _
  have tick : (abortQueued q n (resetBegun q s)).aoTick = s.aoTick := by rw [abortQueued_aoTick, resetBegun_aoTick]
  generalize abortQueued q n (resetBegun q s) = u at e queue reg tick
  obtain ⟨left, ended, kept⟩ := orderDrain_queue q 2 u
  obtain ⟨marked, busy⟩ := isOn_resetBegun q s
  have reg' : ∀ f, OfQueues f → isOn t f = isOn (resetBegun q s) f := fun f hf => by rw [e]; exact isOn_congr ((kept f hf).trans (reg f hf))
  refine ⟨?_, ?_, ?_, fun c hc => ?_, fun c head began => ?_⟩
  · rw [reg' _ (ofQueues_qReset hq), marked]
  · rw [reg' _ (ofQueues_qResetBusy hq), busy]
  · rw [e, left, queue]
    rfl
  · rw [e, ended, queue]
    exact Queue.mem_ended_cut hc
  · have one : n = 1 := by
      show b2n (headStarted s q) = 1
      rw [headStarted, head]
      exact congrArg b2n began
    have head' : headCmd u q = some c := by
      rw [headCmd, queue, one]
      exact List.head?_take.trans head
    rw [e, headCmd_orderDrain head' began, tick]

/-! ## Its end -/

/-- Nothing is left: HEAD is the last TAIL in range, and the queue is no longer being reset. -/
theorem resetDone_empty {q : Nat} {s : State} (on : s.powered = true) (busy : isOn s (qResetBusy q) = true)
    (empty : (queueOf s q).fetched = []) :
    resetDone q s = setOff (setOff (setF s (qHead q) (queueOf s q).tail) (qReset q)) (qResetBusy q) :=
  if_pos (by rw [on, busy, empty]; rfl)

theorem resetDone_waits {q : Nat} {s : State} (h : isOn s (qResetBusy q) = false ∨ (queueOf s q).fetched ≠ []) : resetDone q s = s :=
  if_neg (by obtain h | h := h <;> simp [h])

/-- A hardware update changes the registers and their notes alone. -/
theorem setF_noted (s : State) (f : FRef) (v : Nat) : ∃ r w, setF s f v = { s with regs := r, touched := w } :=
  ⟨(setF s f v).regs, (setF s f v).touched, rfl⟩

/-- Three updates in a row. -/
theorem setF_noted_three (s : State) (f g h : FRef) (u v w : Nat) :
    ∃ r n, setF (setF (setF s f u) g v) h w = { s with regs := r, touched := n } := by
  obtain ⟨r, n, e⟩ := setF_noted s f u
  rw [e]
  obtain ⟨r, n, e⟩ := setF_noted { s with regs := r, touched := n } g v
  rw [e]
  exact setF_noted _ h w

/-- Settles O28. -/
theorem queueResetEmptiesTheQueue : Obligations.QueueResetEmptiesTheQueue := by
  unfold Obligations.QueueResetEmptiesTheQueue
  refine ⟨fun q s on inTurn => ⟨fun hq idle => ?begins, fun h => ?kept⟩, fun q c s only => ?record, fun q s on busy empty => ?complete,
    fun q s on waits => ?waits⟩
  case begins =>
    refine ⟨resetQueue q s, ?_, ?_⟩
    · show execQueueReset q s = _
      rw [execQueueReset, whenOn_powered on, inOrder_inTurn inTurn, if_pos hq]
    · have spec := resetQueue_idle_spec hq idle
      revert spec
      unfold headStarted
      cases headCmd s q <;> exact id
  case kept =>
    show execQueueReset q s = _
    rw [execQueueReset, whenOn_powered on, inOrder_inTurn inTurn]
    split
    next hq => rw [resetQueue_busy (h.resolve_left (by omega))]
    next => rfl
  case record =>
    intro t
    have e : t = _ := abortQueued_eq q 0 s
    rw [e, queueOf_setQueue, if_pos rfl, only]
    exact ⟨by rw [Queue.cut, only]; rfl, rfl⟩
  case complete =>
    refine ⟨_, (whenOn_powered on _).trans (by rw [resetDone_empty on busy empty]), ?_⟩
    simp only [isOn_eq_false, setOff_eq, getF_setF_ne _ _ (qHead_ne_qResetBusy q), getF_setF_ne _ _ (qHead_ne_qReset q),
      getF_setF_ne _ _ (qReset_ne_qResetBusy q), getF_setF_self]
    obtain ⟨r, n, e⟩ := setF_noted_three s (qHead q) (qReset q) (qResetBusy q) (queueOf s q).tail 0 0
    exact ⟨rfl, Nat.zero_mod _, Nat.zero_mod _, by rw [e]⟩
  case waits =>
    exact (whenOn_powered on _).trans (by rw [resetDone_waits waits])

end Sys2Proof.Machine
end

