-- ==== Sys2Proof/Proofs/CastingWork.lean ====
section
/-!
SUPPORT. The end of a casting's work (R25, R59, R60): its consorts, channels and clusters are reset, and the host queues stay as they were.
-/
namespace Sys2Proof.Machine

theorem chansStay_adopt (p : Waiter → Bool) (w : Waiter) (s : State) : ChansStay s (adopt p w s) := chansStay_xl s _
theorem chansStay_endWaits (w : Waiter) (s : State) : ChansStay s (endWaits w s) := .of_regs rfl rfl rfl rfl

/-! ## Consorts and courses -/

/-- Registers of a Harp. -/
theorem chansStay_harp {fs : List FRef} {g : Nat} (off : ∀ f ∈ fs, f.off = 0x160000 + 0x40 * g) (s : State) : ChansStay s (fs.foldl setOff s) :=
  List.foldlRecOn fs setOff (motive := ChansStay s) (.refl s) fun t h f hf =>
    h.trans (chansStay_setF t 0 (.inr (by simp only [FRef.key, off f hf]; omega)))

theorem chansStay_freeConsort (g k : Nat) (s : State) : ChansStay s (freeConsort g k s) := by
  have left : ChansStay s ((consortOf s g k).courses.foldl (fun s i => leaveMiss g i s) (adopt (courseIn g (consortOf s g k).courses) (.cores (clOf g)) s)) :=
    (chansStay_adopt _ _ s).trans (.foldl (fun s i => .of_noticed (noticed_leaveMiss g i s)) _ _)
  unfold freeConsort
  dsimp only
  refine left.trans ?_
  split
  · refine (ChansStay.of_noticed (noticed_setCore _ _ _)).trans (chansStay_harp (g := g) ?_ _)
    simp [harpOwned, harpOwner, hseqBusy, drainBusy, zeroBusy, hseqTile, drainTile, zeroTile]
  · exact .of_noticed (noticed_setCore _ _ _)

theorem chansStay_setCourse (s : State) (g i : Nat) (c : Course) : ChansStay s (setCourse s g i c) := .of_noticed (noticed_setCourse _ _ _ _)

theorem chansStay_abortPour (g slot reason : Nat) (s : State) : ChansStay s (abortPour g slot reason s) :=
  .of_noticed (noticed_abortPourAt _ _ _ _ _)

theorem chansStay_barrierCheck (g k : Nat) (s : State) : ChansStay s (barrierCheck g k s) := by
  unfold barrierCheck
  dsimp only
  split
  · exact .foldl (fun s i => chansStay_setCourse _ _ _ _) _ _
  · exact .refl s

theorem chansStay_courseExit (g slot : Nat) (s : State) : ChansStay s (courseExit g slot s) := by
  have closed : ChansStay s (if (courseOf s g slot).pour = .closed then s else abortPour g slot 4 s) := by
    split
    · exact .refl s
    · exact chansStay_abortPour _ _ _ _
  unfold courseExit
  dsimp only
  generalize (if (courseOf s g slot).pour = .closed then s else abortPour g slot 4 s) = u at closed ⊢
  refine closed.trans ?_
  split
  · exact (chansStay_setCourse _ _ _ _).trans (chansStay_freeConsort _ _ _)
  · exact (chansStay_setCourse _ _ _ _).trans (chansStay_barrierCheck _ _ _)

theorem chansStay_lateExit (g slot : Nat) (s : State) : ChansStay s (lateExit g slot s) := by
  unfold lateExit
  dsimp only
  split
  · exact chansStay_courseExit _ _ _
  · exact .refl s

theorem chansStay_clearCore (k g : Nat) (s : State) : ChansStay s (clearCore k g s) := by
  unfold clearCore
  dsimp only
  refine .trans ?_ (.of_noticed (noticed_setCore _ _ _))
  refine .trans ?_ (.foldl (fun s e => ?_) _ _)
  · split
    · split
      · exact chansStay_abortPour _ _ _ _
      · exact .refl s
    · exact .refl s
  · split
    · exact .refl s
    · split
      · exact .foldl (fun s i => chansStay_setCourse _ _ _ _) _ s
      · exact chansStay_freeConsort _ _ _

theorem chansStay_clearCluster (k cl : Nat) (s : State) : ChansStay s (clearCluster k cl s) := by
  unfold clearCluster
  exact (ChansStay.foldl (fun s g => chansStay_clearCore k g s) _ s).trans (chansStay_setCluster _ _ _)

/-! ## Channels -/

/-- A register of a sprue channel. -/
theorem chansStay_sprue {f : FRef} {e ch : Nat} (off : f.off = sprBase e ch + 0x50) (s : State) (v : Nat) : ChansStay s (setF s f v) :=
  chansStay_setF s v (.inr (by simp only [FRef.key, off, sprBase]; omega))

theorem queuesStay_clearChans (k : Nat) (s : State) : QueuesStay s (clearChans k s) := by
  unfold clearChans
  refine .foldl (fun s e => .foldl (fun s c => ?_) _ s) _ s
  split
  · exact .refl s
  · split
    · exact .of_sch rfl rfl fun _ _ => rfl
    · exact (ChansStay.of_noticed ((noticed_dropToken _ _).trans (noticed_unlockAll _ _))).toQueuesStay.trans
        ((queuesStay_setChan _ _ _ _).trans (chansStay_sprue rfl _ _).toQueuesStay)

/-! ## The end -/

theorem chansStay_endRecorded (c : Casting) (e : Ending) (s : State) : ChansStay s (endRecorded c e s) := by
  have triggered : ChansStay s (if e.st = stFault then raiseTrigger 4 s else s) := by
    split
    · exact .of_noticed (noticed_raiseTrigger _ _)
    · exact .refl s
  unfold endRecorded
  by_cases h : e.code = 0x30
  · rw [if_pos h]
    exact triggered.trans (.of_noticed (noticed_traceEvent _ _ _ _ _ _ _ _))
  · rw [if_neg h]
    exact triggered

theorem queuesStay_withdrawn (k : Nat) (e : Ending) (s : State) :
    QueuesStay (setCasting s k { castingOf s k with ending := some e }) (withdrawn k e s) := by
  have waits : ∀ u, ChansStay u (dropWaiters k u) := fun u => (chansStay_adopt _ _ u).trans (chansStay_xl _ _)
  exact (waits _).toQueuesStay.trans ((queuesStay_clearChans k _).trans (ChansStay.foldl (fun s cl => chansStay_clearCluster k cl s) _ _).toQueuesStay)

/-- The peers of a scheduled casting are told of its end (R409). -/
def toldPeers (c : Casting) (s : State) : State :=
  if c.sched then { s with amx := { s.amx with bcast := s.amx.bcast ++ [schedAbortPacket c] } } else s

theorem chansStay_toldPeers (c : Casting) (s : State) : ChansStay s (toldPeers c s) := by
  unfold toldPeers
  split
  · exact .of_regs rfl rfl rfl rfl
  · exact .refl s

theorem endCasting_told {k : Nat} {e : Ending} {s : State} (live : (castingOf s k).live = true) (running : (castingOf s k).ending = none) :
    endCasting k e true s = toldPeers (castingOf s k) (endRecorded (castingOf s k) e (withdrawn k e s)) := by
  unfold endCasting
  refine (if_neg (by rw [live, running]; decide)).trans ?_
  rw [Bool.and_true]
  rfl

/-- A running casting that ends notes its end; the host queues and time are as they were. -/
theorem endCasting_stays {k : Nat} {e : Ending} {s : State} (live : (castingOf s k).live = true) (running : (castingOf s k).ending = none) :
    (castingOf (endCasting k e true s) k).ending = some e ∧ (∀ q, queueOf (endCasting k e true s) q = queueOf s q) ∧
      (endCasting k e true s).aoTick = s.aoTick := by
  have stays : QueuesStay (setCasting s k { castingOf s k with ending := some e }) (endCasting k e true s) := by
    rw [endCasting_told live running]
    exact (queuesStay_withdrawn k e s).trans ((chansStay_endRecorded _ e _).trans (chansStay_toldPeers _ _)).toQueuesStay
  refine ⟨?_, stays.queueOf, stays.tick⟩
  rw [stays.ending, castingOf_setCasting, if_pos rfl]

end Sys2Proof.Machine
end

