-- ==== Sys2Proof/Proofs/Kills.lean ====
section
/-!
SUPPORT. Transfers that a kill ends (R378): their channels are stopped, so that no command stream goes on with them.
-/
namespace Sys2Proof.Machine

/-! ## Channels under a drain -/

/-- A channel that is free, or that a drain has stopped and that copies no chunk. -/
def Chan.Quiet (c : Chan) : Prop := c.phase = .free ∨ (c.stopping = true ∧ c.starter ≠ 3)

/-- The host queues stay as they were, and quiet channels quiet. -/
structure Quietly (s t : State) : Prop extends QueuesStay s t where
  quiet : ∀ e ch, (chanOf s e ch).Quiet → (chanOf t e ch).Quiet

namespace Quietly

theorem refl (s : State) : Quietly s s := ⟨.refl s, fun _ _ h => h⟩
theorem trans {s t u : State} (h : Quietly s t) (h' : Quietly t u) : Quietly s u :=
  ⟨h.toQueuesStay.trans h'.toQueuesStay, fun e ch x => h'.quiet e ch (h.quiet e ch x)⟩
theorem foldl {β : Type} {f : State → β → State} (h : ∀ s x, Quietly s (f s x)) (xs : List β) (s : State) : Quietly s (xs.foldl f s) :=
  List.foldlRecOn xs f (motive := Quietly s) (refl s) (fun t ht x _ => ht.trans (h t x))

theorem of_stay {s t : State} (h : ChansStay s t) : Quietly s t :=
  ⟨h.toQueuesStay, fun e ch x => by unfold chanOf at x ⊢; rwa [h.chans]⟩

end Quietly

/-- A channel is replaced by one that is quiet, if it was. -/
theorem quietly_setChan {s : State} {e ch : Nat} {c : Chan} (h : (chanOf s e ch).Quiet → c.Quiet) : Quietly s (setChan s e ch c) := by
  refine ⟨queuesStay_setChan _ _ _ _, fun e' ch' x => ?_⟩
  rw [chanOf_setChan]
  split
  next same => obtain ⟨rfl, rfl⟩ := same; exact h x
  next => exact x

/-! ## Ends of transfers -/

theorem quietly_releaseChan (e ch : Nat) (x : Ending) (s : State) : Quietly s (releaseChan e ch x s) := by
  have shown : ChansStay s (setOff (setF (setF s (sprLastCode e ch) x.code) (sprLastSub e ch) x.sub) (sprBusy e ch)) :=
    (chansStay_sprue rfl _ _).trans ((chansStay_sprue rfl _ _).trans (chansStay_sprue rfl _ _))
  have freed : ∀ u, Quietly u (endWaits (.chan e ch) (unlockAll (0x10000 + 32 * e + ch) (dropToken (0x10000 + 32 * e + ch) (setChan u e ch {})))) :=
    fun u => (quietly_setChan (c := {}) fun _ => .inl rfl).trans (.of_stay ((ChansStay.of_noticed ((noticed_dropToken _ _).trans (noticed_unlockAll _ _))).trans
      (chansStay_endWaits _ _)))
  unfold releaseChan
  dsimp only
  generalize setOff (setF (setF s (sprLastCode e ch) x.code) (sprLastSub e ch) x.sub) (sprBusy e ch) = u at shown
  refine .trans (.of_stay (shown.trans ?_)) (freed _)
  split
  · exact (chansStay_setCourse _ _ _ _).trans (chansStay_lateExit _ _ _)
  · exact .refl u

theorem quietly_writeWord (e ch : Nat) (x : Ending) (cause bitmap : Nat) (s : State) : Quietly s (writeWord e ch x cause bitmap s) :=
  .of_stay (chansStay_writeWord _ _ _ _ _ _)

/-- The leader of a transfer notes how a stripe of it has ended. -/
def noteResult (s : State) (leader ch stripe : Nat) (x : Ending) : State :=
  if (chanOf s leader ch).phase = .free then s
  else setChan s leader ch { chanOf s leader ch with results := setNth (chanOf s leader ch).results stripe (some x) }

theorem quietly_noteResult (s : State) (leader ch stripe : Nat) (x : Ending) : Quietly s (noteResult s leader ch stripe x) := by
  unfold noteResult
  split
  · exact .refl s
  · exact quietly_setChan id

theorem noteResult_kept (s : State) (leader ch stripe : Nat) (x : Ending) (e ch' : Nat) :
    (chanOf (noteResult s leader ch stripe x) e ch').stopping = (chanOf s e ch').stopping ∧
      (chanOf (noteResult s leader ch stripe x) e ch').starter = (chanOf s e ch').starter := by
  unfold noteResult
  split
  · exact ⟨rfl, rfl⟩
  · rw [chanOf_setChan]
    split
    next same => obtain ⟨rfl, rfl⟩ := same; exact ⟨rfl, rfl⟩
    next => exact ⟨rfl, rfl⟩

section
variable {s : State} {e ch : Nat} {x : Ending} (used : (chanOf s e ch).phase ≠ .free) (quiet : (chanOf s e ch).Quiet)
include used quiet

theorem Chan.Quiet.stopped : (chanOf s e ch).stopping = true ∧ (chanOf s e ch).starter ≠ 3 := quiet.resolve_left used

/-- A gang that a drain has stopped aborts. -/
theorem quietly_gangAbort : Quietly s (gangAbort e ch x s) := by
  obtain ⟨stopped, -⟩ := Chan.Quiet.stopped used quiet
  unfold gangAbort
  dsimp only
  rw [if_neg (by simp [stopped])]
  refine .foldl (fun s k => ?_) _ s
  split
  · exact (quietly_writeWord _ _ _ _ _ _).trans (quietly_releaseChan _ _ _ _)
  · exact .refl s

/-- A transfer that a drain has stopped ends, other than OK. -/
theorem quietly_endChan (failed : x.code ≠ 0) (cause : Nat) : Quietly s (endChan e ch x cause s) := by
  obtain ⟨stopped, own⟩ := Chan.Quiet.stopped used quiet
  unfold endChan
  dsimp only
  rw [if_neg used, if_neg own]
  split
  · rw [if_neg (by simp [stopped]), transferSem, if_neg (by simp [failed])]
    exact (quietly_writeWord _ _ _ _ _ _).trans (quietly_releaseChan _ _ _ _)
  · have written := chansStay_writeWord e ch x cause 0 s
    generalize writeWord e ch x cause 0 s = u at written
    refine (Quietly.of_stay written).trans ((quietly_noteResult u (chanOf s e ch).leader ch (chanOf s e ch).stripe x).trans ?_)
    split
    · refine quietly_setChan fun _ => .inr ?_
      obtain ⟨stopping, starter⟩ := noteResult_kept u (chanOf s e ch).leader ch (chanOf s e ch).stripe x e ch
      have same : chanOf u e ch = chanOf s e ch := by unfold chanOf; rw [written.chans]
      exact ⟨stopping.trans (same ▸ stopped), fun three => own (same ▸ starter ▸ three)⟩
    · exact quietly_releaseChan _ _ _ _

/-- A transfer that a drain has stopped is killed. -/
theorem quietly_endXfer (failed : x.code ≠ 0) : Quietly s (endXfer e ch x s) := by
  unfold endXfer
  split
  · exact quietly_gangAbort used quiet
  · exact quietly_endChan used quiet failed _

end

/-- One channel of a casting that is killed. -/
def killChan (s : State) (x : Nat × Nat) : State :=
  if (chanOf s x.1 x.2).phase = .free ∨ (chanOf s x.1 x.2).phase = .publishing then s else endXfer x.1 x.2 (chanDrainEnd false true x.1) s

theorem killChans_eq (k : Nat) (s : State) : killChans k s = (castingChans s k).foldl killChan s := rfl

/-- A casting whose channels a drain has stopped is killed. -/
theorem quietly_killChans {k : Nat} {s : State} (quiet : ∀ x ∈ castingChans s k, (chanOf s x.1 x.2).Quiet) : Quietly s (killChans k s) := by
  rw [killChans_eq]
  refine List.foldlRecOn _ killChan (motive := Quietly s) (.refl s) fun t before x hx => before.trans ?_
  unfold killChan
  split
  · exact .refl t
  next runs => exact quietly_endXfer (fun free => runs (.inl free)) (before.quiet _ _ (quiet x hx)) (by simp [chanDrainEnd])

end Sys2Proof.Machine
end

