-- ==== Sys2Proof/Proofs/Budgets.lean ====
section
/-!
CERTIFICATE. Budgets of host commands, drains and kills (R44, R59).
-/
namespace Sys2Proof.Machine

/-! ## The end of a command without a casting -/

theorem queuesStay_dropChunks (q : Nat) (s : State) : QueuesStay s (dropChunks q s) := by
  unfold dropChunks
  exact .foldl (fun s ch => (queuesStay_setChan s 16 ch {}).trans
    ((chansStay_sprue (e := 16) (ch := ch) rfl _ _).trans (chansStay_endWaits _ _)).toQueuesStay) _ s

/-- A service command that is undone leaves the queues and time as they were. -/
theorem undoService_stays (c : Cmd) (s : State) : (undoService c s).aoTick = s.aoTick ∧ ∀ q, queueOf (undoService c s) q = queueOf s q := by
  unfold undoService
  split
  · exact ⟨rfl, fun _ => rfl⟩
  · exact ⟨rfl, fun _ => rfl⟩

/-- The command at the head of a queue gives up its channels and what it has flasked. -/
def undone (q : Nat) (c : Cmd) (s : State) : State := undoService c (dropChunks q s)

theorem queueOf_undone (q : Nat) (c : Cmd) (s : State) (q' : Nat) : queueOf (undone q c s) q' = queueOf s q' :=
  ((undoService_stays c _).2 q').trans ((queuesStay_dropChunks q s).queueOf q')

theorem undone_aoTick (q : Nat) (c : Cmd) (s : State) : (undone q c s).aoTick = s.aoTick :=
  (undoService_stays c _).1.trans (queuesStay_dropChunks q s).tick

theorem headCmd_congr {s t : State} {q : Nat} (h : queueOf t q = queueOf s q) : headCmd t q = headCmd s q := by rw [headCmd, headCmd, h]

section
variable {q : Nat} {c : Cmd} {s : State} (head : headCmd s q = some c)
include head

theorem endDrained_bare (slot : c.slot = none) (e : Ending) : endDrained q e s = endCommand q e 0 (undone q c s) := by
  unfold endDrained
  rw [head]
  dsimp only
  rw [slot]
  rfl

theorem headCmd_undone (c' : Cmd) : headCmd (undone q c' s) q = some c := (headCmd_congr (queueOf_undone q c' s q)).trans head

theorem endDrained_bare_leaves (slot : c.slot = none) (e : Ending) :
    (endDrained q e s).aoTick = s.aoTick ∧ queueOf (endDrained q e s) q = (queueOf s q).left c := by
  obtain ⟨tick, queue⟩ := endCommand_leaves (headCmd_undone head c) e 0
  rw [endDrained_bare head slot]
  exact ⟨tick.trans (undone_aoTick q c s), by rw [queue, queueOf_undone]⟩

theorem endDrained_casting {k : Nat} (slot : c.slot = some k) (e : Ending) : endDrained q e s = completeCasting k (endCasting k e true s) := by
  unfold endDrained
  rw [head]
  dsimp only
  rw [slot]

/-! ## The budget -/

/-- A started command under no drain takes the order; its engines drain. -/
theorem orderDrain_spec (began : c.started = true) (free : c.draining = 0) (why : Nat) :
    let t := orderDrain q why s
    t.aoTick = s.aoTick ∧ headCmd t q = some (c.ordered why s.aoTick) ∧
      (c.slot = none → ∀ q', chunkChans t q' = chunkChans s q') ∧
      ∀ k, c.slot = some k → ∀ cl ∈ maskList (castingOf s k).mask, (clusterOf t cl).stop = true ∧
        ∀ g ∈ coresOf cl, ∀ i, (courseOf s g i).live = true → (courseOf t g i).halted = true := by
  intro t
  have e : t = drainEngines c (setHead s q (c.ordered why s.aoTick)) := orderDrain_started head began free
  have stays := queuesStay_drainEngines c (setHead s q (c.ordered why s.aoTick))
  rw [← e] at stays
  refine ⟨stays.tick, by rw [stays.headCmd, headCmd_setHead head], fun slot q' => ?_, fun k slot cl hcl => ?_⟩
  · rw [e, drainEngines, slot]
    rfl
  · rw [e, drainEngines, slot]
    exact drainCasting_stops k _ hcl

/-- A budget that has passed: the command is ordered to drain; it ends where it has no engine. -/
theorem expire_started (began : c.started = true) (free : c.draining = 0) (up : fwRuns s 2 = true) (on : s.powered = true) :
    expire q s =
      let t := orderDrain q 1 (timeTo (c.tStart + 25 * cBudget s q c) s)
      if c.slot.isNone ∧ (chunkChans t q).isEmpty then endDrained q (drainEnd 1 false (agFw 2)) t else t := by
  unfold expire
  rw [head]
  exact if_neg (by simp [began, free, up, on])

end

/-! ## Engines that have stopped, or are killed -/

theorem chansStay_traceStops (k : Nat) (e : Ending) (s : State) : ChansStay s (traceStops k e s) :=
  .foldl (fun s _ => .of_noticed (noticed_traceEvent _ _ _ _ _ _ _ s)) _ s

/-- What the stop of a command's engines leaves in the trace. -/
def stopsTraced (c : Cmd) (e : Ending) (s : State) : State := match c.slot with | some k => traceStops k e s | none => s

/-- The transfers of a command's casting are killed. -/
def engineKills (c : Cmd) (s : State) : State := match c.slot with | some k => killChans k s | none => s

section
variable {q : Nat} {c : Cmd} {s : State} (on : s.powered = true) (head : headCmd s q = some c)
include on head

theorem exec_enginesDrained : exec (.enginesDrained q) s = .next (
    if c.draining ≠ 0 ∧ drained s q c ∧ fwRuns s 2 ∧ s.aoTick ≤ c.drainLeft + 2500 ∧ goesOn s c then
      endDrained q (drainEnd c.draining false (agFw 2)) (stopsTraced c (drainEnd c.draining false (agFw 2)) s)
    else s) := by
  refine (whenOn_powered on _).trans ?_
  rw [head]
  rfl

theorem exec_drainKill (last : Nat) : exec (.drainKill q last) s = .next (
    if decide (c.draining ≠ 0) && fwRuns s 2 && killOk s q last c && goesOn s c then
      endDrained q (drainEnd c.draining true last) (engineKills c (timeTo (c.drainLeft + 2500) s))
    else s) := by
  refine (whenOn_powered on _).trans ?_
  rw [head]
  rfl

end

theorem goesOn_casting {s : State} {c : Cmd} {k : Nat} (slot : c.slot = some k) (h : goesOn s c = true) : (castingOf s k).ending = none := by
  unfold goesOn at h
  rw [slot] at h
  exact Option.isNone_iff_eq_none.mp h

/-- A casting reaches its final state, and its slot is free. -/
theorem castingOf_finishCasting (k : Nat) (s : State) : castingOf (finishCasting k s) k = {} := by
  unfold finishCasting
  dsimp only
  generalize List.foldl _ _ _ = u
  have freed : castingOf (setCasting u k {}) k = {} := by rw [castingOf_setCasting, if_pos rfl]
  have given : ∀ m v, castingOf (giveClaim m v) k = castingOf v k := fun m v => by unfold giveClaim; split <;> rfl
  have closed : ∀ v, castingOf (closeRace v) k = castingOf v k := fun v => by unfold closeRace; split <;> rfl
  rw [closed, given, freed]

/-- Settles O33. -/
theorem budgetsDrainAndKill : Obligations.BudgetsDrainAndKill := by
  unfold Obligations.BudgetsDrainAndKill
  refine ⟨fun q c s on head began free up => ?expiry, fun q c s on head under up goes => ⟨?stopped, ?runs, fun last => ⟨?kill, ?spared⟩⟩,
    fun k s s1 parts flushed written root => ?final⟩
  case expiry =>
    refine ⟨expire q s, whenOn_powered on _, ?_⟩
    obtain ⟨tick, head', chunks, drains⟩ := orderDrain_spec (s := timeTo (c.tStart + 25 * cBudget s q c) s) head began free 1
    rw [expire_started head began free up on]
    dsimp only
    generalize orderDrain q 1 (timeTo (c.tStart + 25 * cBudget s q c) s) = t at tick head' chunks drains ⊢
    by_cases bare : c.slot.isNone = true ∧ (chunkChans t q).isEmpty = true
    · obtain ⟨slot, idle⟩ := bare
      have slot' := Option.isNone_iff_eq_none.mp slot
      rw [if_pos ⟨slot, idle⟩]
      refine ⟨(endDrained_bare_leaves head' slot' _).1.trans tick, fun _ _ => ⟨_, headCmd_undone head' _, endDrained_bare head' slot' _⟩,
        fun _ busy => ?_, fun k slot => ?_⟩
      · exact absurd ((chunks slot' q).symm.trans (List.isEmpty_iff.mp idle)) busy
      · rw [slot'] at slot
        cases slot
    · rw [if_neg bare]
      refine ⟨tick, fun slot idle => ?_, fun _ _ => head', fun k slot => ⟨head', drains k slot⟩⟩
      exact absurd ⟨by rw [slot]; rfl, List.isEmpty_iff.mpr ((chunks slot q).trans idle)⟩ bare
  case stopped =>
    intro idle inTime
    rw [exec_enginesDrained on head, if_pos ⟨under, idle, up, inTime, goes⟩]
    refine ⟨fun slot => ?_, fun k slot live => ?_⟩
    · rw [stopsTraced, slot]
      exact congrArg _ (endDrained_bare head slot _)
    · have stays := (chansStay_traceStops k (drainEnd c.draining false (agFw 2)) s).toQueuesStay
      rw [stopsTraced, slot]
      dsimp only
      generalize traceStops k (drainEnd c.draining false (agFw 2)) s = u at stays
      have head' : headCmd u q = some c := (stays.headCmd q).trans head
      obtain ⟨ending, queue, -⟩ := endCasting_stays (e := drainEnd c.draining false (agFw 2)) ((stays.live k).trans live)
        ((stays.ending k).trans (goesOn_casting slot goes))
      exact ⟨_, congrArg _ (endDrained_casting head' slot _), ending, (headCmd_congr (queue q)).trans head'⟩
  case runs =>
    intro busy
    rw [exec_enginesDrained on head, if_neg (by simp [busy])]
  case kill =>
    intro may
    have killed := exec_drainKill on head last
    rw [if_pos (by simp [under, up, may, goes])] at killed
    rw [killed]
    refine ⟨fun slot => ⟨_, killed, ?_⟩, fun k slot live quiet => ?_⟩
    · rw [engineKills, slot]
      have head' : headCmd (timeTo (c.drainLeft + 2500) s) q = some c := head
      obtain ⟨tick, queue⟩ := endDrained_bare_leaves head' slot (drainEnd c.draining true last)
      refine ⟨tick, ?_, ?_⟩
      · rw [queue]
        rfl
      · rw [queue]
        exact List.mem_append_right _ (List.mem_singleton.mpr rfl)
    · have stays := (quietly_killChans (k := k) (s := timeTo (c.drainLeft + 2500) s) fun x hx => .inr (quiet x hx)).toQueuesStay
      rw [engineKills, slot]
      dsimp only
      generalize killChans k (timeTo (c.drainLeft + 2500) s) = u at stays
      have head' : headCmd u q = some c := (stays.headCmd q).trans head
      obtain ⟨ending, -, tick⟩ := endCasting_stays (e := drainEnd c.draining true last) ((stays.live k).trans live)
        ((stays.ending k).trans (goesOn_casting slot goes))
      exact ⟨_, congrArg _ (endDrained_casting head' slot _), ending, tick.trans stays.tick⟩
  case spared =>
    intro barred
    rw [exec_drainKill on head, if_neg (by simp [barred])]
  case final =>
    have flushed' : completeCasting k s = finishCasting k s1 := by
      unfold completeCasting
      rw [parts, flushed]
      dsimp only
      rw [if_neg (by decide), if_pos (by simp [written, root])]
    rw [flushed', castingOf_finishCasting]

end Sys2Proof.Machine
end

