-- ==== Sys2Proof/Proofs/Launches.lean ====
section
/-!
CERTIFICATE. LAUNCH (R38, R41, R49, R55).
-/
namespace Sys2Proof.Machine

/-! ## A pattern with one cluster and one node -/

/-- Bytes at the start of a line. -/
def lineFrom (bs : List Byte) : List Byte := bs ++ List.replicate (128 - bs.length) 0

/-- A root line, of version 1 (R45). -/
def oneRoot : List Byte := lineFrom (leBytes 4 0x4E565254 ++ leBytes 4 1 ++ leBytes 8 0x80)

/-- The header of a version on cluster 0, with its command stream and its node table (R47, R48). -/
def oneHeader : List Byte :=
  leBytes 4 0x4E565054 ++ leBytes 2 1 ++ leBytes 2 2 ++ leBytes 8 0 ++ leBytes 2 1 ++ leBytes 2 1 ++ leBytes 6 0 ++ leBytes 2 1 ++ leBytes 12 0 ++
    leBytes 4 0xF97C425F ++ leBytes 20 0 ++ (leBytes 4 1 ++ leBytes 4 128 ++ leBytes 8 0x180) ++ (leBytes 4 0xFF04 ++ leBytes 4 128 ++ leBytes 8 0x100)

/-- Its node table. -/
def oneNode : List Byte := lineFrom (leBytes 2 1)

def onePattern : Pattern := ⟨0, 0x80, oneHeader, oneNode, [], []⟩

/-- A LAUNCH of the pattern at address 0. -/
def launchCmd : Cmd := { bytes := [1] }

/-- A queue with that LAUNCH, its cluster idle, while what is written is noted as casting 1's output (R60). -/
def ownedLaunch : State :=
  let s : State := { boot := { phase := 4 }
                     sch := { queues := [(0, { fetched := [launchCmd] })] }
                     xl := { crucible := [⟨0, 0, 12, 0, true, true, false, 0⟩] } }
  let s := setF (setF (setF (setF (setF s (fwState 2) 1) (fwState 3) 1) hbmReady 1) (qWeight 0) 1) (clState 0) 1
  { putDev 0 (oneRoot ++ lineFrom oneHeader ++ oneNode) false true s with owner := some (1, 0) }

/-! ## What the LAUNCH reads -/

def rootRead : State × Got (Nat × List Byte) := readRoot (cmdAccess ownedLaunch 0) (cRoot launchCmd) ownedLaunch
def versionRead : State × Got Pattern := readVersion (cmdAccess ownedLaunch 0) 0 (fieldOf oneRoot 8 8) rootRead.1
def riserRead : State × Got (List Nat) := readRiser (cmdAccess ownedLaunch 0) launchCmd (hRiser onePattern.hdr) [] versionRead.1
def fieldsRead : State × Got (List Nat) :=
  resolveRiser (cmdAccess ownedLaunch 0) onePattern.riser (lRiser launchCmd) 0
    (directFields (prefetched riserRead.1 0 0 (cSeq launchCmd)) onePattern.riser []) riserRead.1

theorem ownedLaunch_turn : Turn 1 0 launchCmd ownedLaunch := by
  unfold Turn
  decide +kernel

/-- An access that answers a value. -/
theorem answers {α : Type} {r : State × Got α} {a : α} (h : r.2 = .ok a) : r = (r.1, .ok a) := Prod.ext rfl h

theorem rootRead_ok : rootRead = (rootRead.1, .ok (0, oneRoot)) := answers (by decide +kernel)
theorem versionRead_ok : versionRead = (versionRead.1, .ok onePattern) := answers (by decide +kernel)
theorem riserRead_ok : riserRead = (riserRead.1, .ok []) := answers (by decide +kernel)
theorem fieldsRead_ok : fieldsRead = (fieldsRead.1, .ok []) := answers (by decide +kernel)

theorem launchCmd_ok : launchOk launchCmd = true := by decide +kernel

/-- Nothing stands in the LAUNCH's way. -/
theorem ownedLaunch_ready : launchRefusal versionRead.1 launchCmd onePattern = none ∧ claimBars versionRead.1 0 (hMask onePattern.hdr) = false ∧
    (maskList (hMask onePattern.hdr)).all (clusterFree versionRead.1) = true ∧ (maskList (hMask onePattern.hdr)).all (clusterReady versionRead.1) = true ∧
    slotUsed versionRead.1 0 = false ∧ rootBar versionRead.1 0 = .ok () := by decide +kernel

/-- The bytes of the pin pour are noted as casting 1's. -/
theorem ownedLaunch_noted : (castingOf (launchStep 0 0 [] ownedLaunch) 1).wrote ≠ (castingOf fieldsRead.1 1).wrote := by decide +kernel

/-- Refutes O29: its first clause has the other castings as the reads leave them, in every state; in one whose `owner` names another casting the
bytes of the pour that pins the root line are noted in that casting's `wrote`. The clause lacks the premise `owner = none`: `asOwner` sets that
field only while a row is performed. -/
theorem not_launchStartsACasting : ¬ Obligations.LaunchStartsACasting := by
  unfold Obligations.LaunchStartsACasting
  rintro ⟨starts, -⟩
  obtain ⟨accepted, unbarred, free, ready, unused, root⟩ := ownedLaunch_ready
  obtain ⟨t, run, -, -, -, -, -, -, -, -, others, -⟩ := starts 0 0 0 [] [] (.ok []) launchCmd oneRoot onePattern ownedLaunch rootRead.1 versionRead.1
    riserRead.1 fieldsRead.1 ownedLaunch_turn launchCmd_ok rootRead_ok versionRead_ok accepted unbarred free ready
    (by decide) unused root riserRead_ok fieldsRead_ok nofun
  obtain rfl : launchStep 0 0 [] ownedLaunch = t := Host.Outcome.next.inj ((whenOn_powered ownedLaunch_turn.1 _).symm.trans run)
  exact ownedLaunch_noted (congrArg Casting.wrote (others 1 (by decide)))

end Sys2Proof.Machine
end

