-- ==== Sys2Proof/Proofs/CoreIssue.lean ====
section
/-!
SUPPORT. What every core instruction shares: its fetch (R78, R104), the counters that it moves (R552), the end of its casting (R25).
-/
namespace Sys2Proof.Machine

/-! ## Issue (R73, R78) -/

/-- A course that can issue stands in a running consort of a running casting. -/
theorem courseReady_iff {s : State} {g k : Nat} : courseReady s g k = true ↔
    (courseOf s g k).live = true ∧ (consortOf s g (courseOf s g k).consort).live = true ∧ (courseOf s g k).arrived = false ∧
      (courseOf s g k).halted = false ∧ (courseOf s g k).faultVa = none ∧ stalled s g (courseOf s g k).consort = false ∧
      (courseOf s g k).long = none ∧ (consortOf s g (courseOf s g k).consort).saving = none ∧
      ((courseOf s g k).pour = .closed ∨ (courseOf s g k).pour = .open) ∧
      (castingOf s (castingOfCourse s g k)).live = true ∧ (castingOf s (castingOfCourse s g k)).ending = none ∧
      (courseOf s g k).active ≠ 0 := by
  simp [courseReady, castingOfCourse, and_assoc]

theorem live_of_ready {s : State} {g k : Nat} (h : courseReady s g k = true) : (courseOf s g k).live = true := (courseReady_iff.mp h).1

/-- Every core instruction is performed only where its word is fetched. -/
theorem exec_codeOf {i : Instr} {g k w : Nat} (h : codeOf i = some (g, k, w)) (s : State) :
    ∃ o, exec i s = whenFetched w g k s o := by
  unfold codeOf at h
  split at h
  all_goals cases h
  all_goals exact ⟨_, rfl⟩

section
variable {w g k : Nat} {s : State} (on : s.powered = true) (ready : courseReady s g k = true)
include on ready

theorem whenFetched_cached (o : Out) (cached : fetched s g k w = true) : whenFetched w g k s o = o := by
  simp [whenFetched, on, ready, cached]

theorem whenFetched_missing (o : Out) (missing : fetched s g k w = false) : whenFetched w g k s o =
    .next (if (fetchedWords s g k).any wordReserved then failCourse g k (illegalEnd s g k) s else fetch g k s) := by
  unfold whenFetched
  simp only [on, ready, missing, Bool.not_true, Bool.or_self, Bool.false_eq_true, if_false]
  split <;> rfl

end

/-- The instruction cache holds the word of an instruction. -/
theorem InCache.fetched {i : Instr} {g k w : Nat} {s : State} (h : InCache i s) (e : codeOf i = some (g, k, w)) :
    fetched s g k w = true := h (g, k, w) e

/-! ## Counters (R551, R552) -/

/-- `t` is `s` with counters moved, and what a counter's trigger leaves in the trace. -/
def Counted (s t : State) : Prop :=
  (∃ r q w, t = { s with regs := r, trc := q, touched := w }) ∧ ∀ f : FRef, f.key < 8 * 0x410000 → getF t f = getF s f

theorem Counted.refl (s : State) : Counted s s := ⟨⟨s.regs, s.trc, s.touched, rfl⟩, fun _ _ => rfl⟩

theorem Counted.trans {s t u : State} (h : Counted s t) (h' : Counted t u) : Counted s u := by
  obtain ⟨⟨r, q, w, rfl⟩, same⟩ := h
  obtain ⟨⟨r', q', w', rfl⟩, same'⟩ := h'
  exact ⟨⟨r', q', w', rfl⟩, fun f hf => (same' f hf).trans (same f hf)⟩

theorem Counted.foldl {β : Type} {f : State → β → State} (h : ∀ s x, Counted s (f s x)) (xs : List β) (s : State) :
    Counted s (xs.foldl f s) :=
  List.foldlRecOn xs f (motive := Counted s) (.refl s) (fun t ht x _ => ht.trans (h t x))

theorem counted_setF {f : FRef} (hf : 0x410000 ≤ f.off) (s : State) (v : Nat) : Counted s (setF s f v) :=
  ⟨⟨_, s.trc, _, rfl⟩, fun h hh => getF_setF_ne s v (by simp only [FRef.key] at hh ⊢; omega)⟩

theorem counted_countOne (u i n : Nat) (s : State) : Counted s (countOne u i n s) := by
  have count : Counted s (setF s (cntCount u i) (getF s (cntCount u i) + n)) := counted_setF (cntOff_ge u i) s _
  have wrapped := count.trans (counted_setF (f := cntOvf u i) (cntOff_ge u i) _ 1)
  unfold countOne
  dsimp only
  split
  · exact count
  · split
    · refine wrapped.trans ⟨?_, fun _ _ => ?_⟩
      · obtain ⟨q, e⟩ := raiseTrigger_changes 3 (setF (setF s (cntCount u i) (getF s (cntCount u i) + n)) (cntOvf u i) 1)
        exact ⟨_, q, _, e⟩
      · unfold raiseTrigger
        split <;> rfl
    · exact wrapped

theorem counted_countUnit (u c i n : Nat) (s : State) : Counted s (countUnit u c i n s) := by
  unfold countUnit
  split
  · exact .refl s
  · refine .foldl (fun s x => ?_) _ s
    split
    · exact counted_countOne _ _ _ _
    · exact .refl s

theorem counted_countCore (g c n : Nat) (s : State) : Counted s (countCore g c n s) :=
  (counted_countUnit _ _ _ _ _).trans (counted_countUnit _ _ _ _ _)

theorem Counted.cores {s t : State} (h : Counted s t) : t.cores = s.cores := by
  obtain ⟨⟨r, q, w, rfl⟩, -⟩ := h; rfl
theorem Counted.coreOf {s t : State} (h : Counted s t) (g : Nat) : Machine.coreOf t g = Machine.coreOf s g := by
  rw [Machine.coreOf, h.cores]; rfl
theorem Counted.courseOf {s t : State} (h : Counted s t) (g k : Nat) : Machine.courseOf t g k = Machine.courseOf s g k := by
  rw [Machine.courseOf, h.coreOf]; rfl
theorem Counted.mm {s t : State} (h : Counted s t) : t.mm = s.mm := by
  obtain ⟨⟨r, q, w, rfl⟩, -⟩ := h; rfl

/-- A course that is replaced, with counters moved. -/
theorem onlyCourse_of_counted {g k : Nat} {c : Course} {s t : State} (h : Counted (setCourse s g k c) t) : OnlyCourse g k s t := by
  obtain ⟨⟨r, q, w, rfl⟩, same⟩ := h
  exact ⟨c, r, q, w, rfl, same⟩

/-! ## The end of a course's casting (R25) -/

theorem castingEnds_failCourse {s : State} {g k : Nat} (ready : courseReady s g k = true) (e : Ending) :
    CastingEnds e s (failCourse g k e s) g k := by
  obtain ⟨-, -, -, -, -, -, -, -, -, live, running, -⟩ := courseReady_iff.mp ready
  exact (endCasting_stays live running).1

end Sys2Proof.Machine
end

