-- ==== Sys2Proof/Proofs/IntegerInstructions.lean ====
section
/-!
CERTIFICATE. The INT class (R67, R101, R102, R105): the model computes on numbers, the statement on words.
-/
namespace Sys2Proof.Machine

/-! ## Numbers and words -/

theorem sext_eq_toInt {w : Nat} (hw : 0 < w) (x : Nat) : sext w x = (BitVec.ofNat w x).toInt := by
  have half : 2 ^ w = 2 * 2 ^ (w - 1) := by rw [← Nat.pow_succ', Nat.succ_eq_add_one, Nat.sub_one_add_one hw.ne']
  simp only [sext, BitVec.toInt_eq_toNat_cond, BitVec.toNat_ofNat]
  generalize x % 2 ^ w = y
  rw [half]
  split <;> split <;> omega

theorem sext_toNat {w : Nat} (hw : 0 < w) (x : BitVec w) : sext w x.toNat = x.toInt := by
  rw [sext_eq_toInt hw, BitVec.ofNat_toNat, BitVec.setWidth_eq]

theorem narrow_eq_ofInt (w : Nat) (i : Int) : narrow w i = (BitVec.ofInt w i).toNat := (BitVec.toNat_ofInt i).symm

/-- An immediate, extended to any width. -/
theorem immInt_eq (b : InstrBits) (w : Nat) : immInt b w = ((BitVec.ofNat 24 (fldImm b)).signExtend w).toNat := by
  rw [immInt, sext_eq_toInt (by decide), narrow_eq_ofInt, BitVec.signExtend]

theorem testBit_zero_eq (n : Nat) : n.testBit 0 = decide (n % 2 = 1) := by
  simp [Nat.testBit_zero]

theorem shift_amount (y : Word) : (y &&& 31#32).toNat = y.toNat % 32 := by
  rw [BitVec.toNat_and]
  exact Nat.and_two_pow_sub_one_eq_mod y.toNat 5

/-! ## Operands -/

theorem opd_srcA (c : Course) (b : InstrBits) (l : Nat) : opd c b.au (fldA b) l = (srcA c b l).toNat := by
  unfold opd srcA; split <;> rfl
theorem opd_srcB (c : Course) (b : InstrBits) (l : Nat) : opd c b.bu (fldB b) l = (srcB c b l).toNat := by
  unfold opd srcB; split <;> rfl
theorem opd_srcC (c : Course) (b : InstrBits) (l : Nat) : opd c b.cu (fldC b) l = (srcC c b l).toNat := by
  unfold opd srcC; split <;> rfl

theorem opd_srcBI (c : Course) (b : InstrBits) (l : Nat) :
    (if b.op5 then immInt b 32 else opd c b.bu (fldB b) l) = (srcBI c b l).toNat := by
  unfold srcBI
  split
  · exact immInt_eq b 32
  · exact opd_srcB c b l

theorem opd_lt (c : Course) (u : Bool) (r l : Nat) : opd c u r l < 2 ^ 32 := by
  unfold opd; split <;> exact BitVec.isLt _

theorem opd64_lt (c : Course) (u : Bool) (r l : Nat) : opd64 c u r l < 2 ^ 64 := by
  have := opd_lt c u r l
  have := opd_lt c u (r + 1) l
  unfold opd64
  omega

theorem opd64_pairA (c : Course) (b : InstrBits) (l : Nat) : opd64 c b.au (fldA b) l = (pairA c b l).toNat := by
  rw [pairA, BitVec.toNat_ofNat, Nat.mod_eq_of_lt (opd64_lt _ _ _ _)]

theorem opd64_pairBI (c : Course) (b : InstrBits) (l : Nat) :
    (if b.op5 then immInt b 64 else opd64 c b.bu (fldB b) l) = (pairBI c b l).toNat := by
  unfold pairBI
  split
  · exact immInt_eq b 64
  · rw [BitVec.toNat_ofNat, Nat.mod_eq_of_lt (opd64_lt _ _ _ _)]

/-! ## What each operation computes -/

/-- An operation on numbers gives what the operation on words, told MOD[0], gives. -/
def Agrees (f : Nat → Nat → Nat → Nat) (F : Bool → Word → Word → Word) : Prop :=
  ∀ (n : Nat) (x y : Word), f (n % 2) x.toNat y.toNat % 2 ^ 32 = (F (n.testBit 0) x y).toNat

theorem agrees_iadd : Agrees iaddVal (fun _ x y => x + y) := fun _ x y => (BitVec.toNat_add x y).symm
theorem agrees_isub : Agrees isubVal (fun _ x y => x - y) := fun _ x y => by
  rw [BitVec.toNat_sub, isubVal, Nat.mod_eq_of_lt y.isLt, Nat.add_comm]
theorem agrees_imul : Agrees imulVal (fun _ x y => x * y) := fun _ x y => (BitVec.toNat_mul x y).symm
theorem agrees_and : Agrees andVal (fun _ x y => x &&& y) := fun _ x y => Nat.mod_eq_of_lt (x &&& y).isLt
theorem agrees_or : Agrees orVal (fun _ x y => x ||| y) := fun _ x y => by
  rw [← BitVec.toNat_mod_cancel (x ||| y)]; rfl
theorem agrees_xor : Agrees xorVal (fun _ x y => x ^^^ y) := fun _ x y => by
  rw [← BitVec.toNat_mod_cancel (x ^^^ y)]; rfl
theorem agrees_shl : Agrees shlVal (fun _ x y => x <<< (y &&& 31#32)) := fun _ x y => by
  show _ = (x <<< (y &&& 31#32)).toNat
  rw [BitVec.shiftLeft_eq', BitVec.toNat_shiftLeft, shift_amount]; rfl

/-- The product of two words in 64 bits. -/
theorem product_lt (x y : Word) : x.toNat * y.toNat < 2 ^ 64 := by
  have := Nat.mul_lt_mul'' x.isLt y.isLt
  omega

theorem agrees_imulhi : Agrees imulhiVal (fun signed x y =>
    if signed then ((x.signExtend 64 * y.signExtend 64) >>> 32).setWidth 32
    else ((x.setWidth 64 * y.setWidth 64) >>> 32).setWidth 32) := fun n x y => by
  unfold imulhiVal
  simp only [testBit_zero_eq, decide_eq_true_eq]
  split
  · rw [sext_toNat (by decide), sext_toNat (by decide), narrow_eq_ofInt, BitVec.ofInt_mul, BitVec.toNat_setWidth,
      BitVec.toNat_ushiftRight, Nat.shiftRight_eq_div_pow]
    rfl
  · rw [BitVec.toNat_setWidth, BitVec.toNat_ushiftRight, Nat.shiftRight_eq_div_pow, BitVec.toNat_mul, BitVec.toNat_setWidth,
      BitVec.toNat_setWidth, Nat.mod_eq_of_lt (a := x.toNat) (by omega), Nat.mod_eq_of_lt (a := y.toNat) (by omega),
      Nat.mod_eq_of_lt (product_lt x y)]

theorem agrees_shr : Agrees shrVal (fun signed x y => if signed then x.sshiftRight' (y &&& 31#32) else x >>> (y &&& 31#32)) := fun n x y => by
  unfold shrVal
  simp only [testBit_zero_eq, decide_eq_true_eq]
  split
  · rw [sext_toNat (by decide), narrow_eq_ofInt, ← BitVec.toNat_mod_cancel (x.sshiftRight' (y &&& 31#32)), BitVec.sshiftRight', shift_amount,
      ← Int.shiftRight_eq_div_pow, ← BitVec.toInt_sshiftRight, BitVec.ofInt_toInt]
  · rw [BitVec.ushiftRight_eq', BitVec.toNat_ushiftRight, shift_amount]
    exact Nat.mod_eq_of_lt ((Nat.shiftRight_le _ _).trans_lt x.isLt)

/-- The smaller or the larger of two words, as both orders on numbers say. -/
theorem agrees_imin : Agrees iminVal (fun signed x y => if (if signed then x.sle y else x.ule y) then x else y) := fun n x y => by
  unfold iminVal
  simp only [testBit_zero_eq, sext_toNat (w := 32) (by decide), BitVec.sle_eq_decide, BitVec.ule_eq_decide]
  split
  next signed => simp only [signed, decide_true, if_true, decide_eq_true_eq]; split <;> exact Nat.mod_eq_of_lt (BitVec.isLt _)
  next unsigned =>
    simp only [unsigned, decide_false, Bool.false_eq_true, if_false, decide_eq_true_eq, Nat.min_def]
    split <;> exact Nat.mod_eq_of_lt (BitVec.isLt _)

theorem agrees_imax : Agrees imaxVal (fun signed x y => if (if signed then x.sle y else x.ule y) then y else x) := fun n x y => by
  unfold imaxVal
  simp only [testBit_zero_eq, sext_toNat (w := 32) (by decide), BitVec.sle_eq_decide, BitVec.ule_eq_decide]
  split
  next signed => simp only [signed, decide_true, if_true, decide_eq_true_eq]; split <;> exact Nat.mod_eq_of_lt (BitVec.isLt _)
  next unsigned =>
    simp only [unsigned, decide_false, Bool.false_eq_true, if_false, decide_eq_true_eq, Nat.max_def]
    split <;> exact Nat.mod_eq_of_lt (BitVec.isLt _)

theorem multiplyAdd_word (x y z : Word) : (x.toNat * y.toNat + z.toNat) % 2 ^ 32 = (x * y + z).toNat := by
  rw [BitVec.toNat_add, BitVec.toNat_mul, Nat.mod_add_mod]

theorem popcount_word (x : Word) : popcount x.toNat 32 = ((List.range 32).filter (fun i => x.getLsbD i)).length := by
  simp only [popcount, bitList, bit_eq_testBit]
  rfl

/-! ## Leading bits -/

theorem length_takeWhile_range {p : Nat → Bool} {n k : Nat} (hk : k ≤ n) (all : ∀ i, i < k → p i = true) (stop : k < n → p k = false) :
    ((List.range n).takeWhile p).length = k := by
  obtain ⟨m, rfl⟩ := Nat.exists_eq_add_of_le hk
  rw [List.range_add, List.takeWhile_append_of_pos (by simpa using all)]
  cases m with
  | zero => simp
  | succ m =>
    rw [List.range_succ_eq_map]
    simp [stop (by omega)]

/-- The 0 bits above the highest 1 of a word. -/
theorem leading_zeros (x : Word) : ((List.range 32).takeWhile (fun i => x.getMsbD i == false)).length = 32 - bitLen x.toNat := by
  unfold bitLen
  by_cases zero : x.toNat = 0
  · obtain rfl : x = 0 := BitVec.eq_of_toNat_eq zero
    decide
  · rw [if_neg zero]
    have high : x.toNat.log2 < 32 := (Nat.log2_lt zero).mpr x.isLt
    refine length_takeWhile_range (by omega) (fun i hi => ?_) (fun _ => ?_)
    · have above : x.toNat < 2 ^ (31 - i) := (Nat.log2_lt zero).mp (by omega)
      rw [BitVec.getMsbD_eq_getLsbD, ← BitVec.testBit_toNat, Nat.testBit_lt_two_pow above, Bool.and_false]
      rfl
    · have top : x.toNat.testBit x.toNat.log2 = true := Nat.testBit_log2 zero
      rw [BitVec.getMsbD_eq_getLsbD, ← BitVec.testBit_toNat, show 32 - 1 - (32 - (x.toNat.log2 + 1)) = x.toNat.log2 by omega, top]
      simp; omega

theorem takeWhile_length_congr {p q : Nat → Bool} {xs : List Nat} (h : ∀ i ∈ xs, p i = q i) :
    (xs.takeWhile p).length = (xs.takeWhile q).length := by
  induction xs with
  | nil => rfl
  | cons x xs ih =>
    obtain ⟨head, tail⟩ := List.forall_mem_cons.mp h
    simp only [List.takeWhile_cons, head]
    split
    · simp [ih tail]
    · rfl

theorem clz_word {m : Nat} (hm : m < 2) (x : Word) : clzVal m x.toNat =
    ((List.range 32).takeWhile (fun i => x.getMsbD i == (m.testBit 0 && x.msb))).length := by
  have msb : bit x.toNat 31 = x.msb := by rw [bit_eq_testBit, BitVec.testBit_toNat, BitVec.msb_eq_getLsbD_last]
  unfold clzVal
  rw [testBit_zero_eq, msb]
  split
  next signed =>
    subst signed
    cases top : x.msb with
    | false => simpa using (leading_zeros x).symm
    | true =>
      have flipped : 2 ^ 32 - 1 - x.toNat = (~~~x).toNat := (BitVec.toNat_not (x := x)).symm
      rw [if_pos rfl, flipped, ← leading_zeros]
      exact takeWhile_length_congr fun i hi => by rw [BitVec.getMsbD_not]; simp [List.mem_range.mp hi]
  next unsigned =>
    obtain rfl : m = 0 := by omega
    simpa using (leading_zeros x).symm

/-! ## A register instruction as a whole -/

theorem advance_atNext {c c' : Course} (stack : c'.stack = c.stack) (pc : c'.pc = c.pc) (active : c'.active = c.active) :
    AtNext c (advance c') := fun empty => by
  have next : pcAdd c.pc 1 = (c.pc + 8) % 2 ^ 64 := by unfold pcAdd narrow; omega
  rw [advance_nil c' (stack.trans empty)]
  exact ⟨by rw [pc]; exact next, active, stack.trans empty⟩

/-- A result that is an operation's value in the lanes that run is what the operation computes. -/
theorem computes_writeD {o : RegOp} {c c0 : Course} {f : Nat → Res} (v : c0.v = c.v) (u : c0.u = c.u) (p : c0.p = c.p)
    (active : c0.active = c.active)
    (value : ∀ l, (if o.b.du then l = 0 else l < 32 ∧ (lanesOf c o.b).getLsbD l = true) → (f l).code = o.value c l) :
    Computes o c (advance (writeD c0 o.b o.words f)) := by
  have lanes : lanesOf c0 o.b = lanesOf c o.b := by unfold lanesOf guardMask preg; rw [active, p]
  obtain ⟨_, _, _, changed⟩ := writeD_changes c0 o.b o.words f
  obtain ⟨_, _, _, moved⟩ := advance_changes (writeD c0 o.b o.words f)
  refine ⟨fun vector => ?_, fun uniform => ?_, ?_⟩
  · obtain ⟨same, written⟩ := writeD_vector c0 o.b o.words f vector
    refine ⟨by rw [moved]; exact same.trans u, fun r l hl => ?_⟩
    have old : vreg c0 r l = vreg c r l := by unfold vreg; rw [v]
    rw [vreg_advance, written r l hl, lanes, old]
    split
    next runs => rw [value l (by rw [vector]; exact ⟨hl, runs.2.2⟩)]; rfl
    next => rfl
  · obtain ⟨same, written⟩ := writeD_uniform c0 o.b o.words f uniform
    refine ⟨by rw [moved]; exact same.trans v, fun r => ?_⟩
    have old : ureg c0 r = ureg c r := by unfold ureg; rw [u]
    rw [ureg_advance, written r, old, value 0 (by rw [uniform]; rfl)]
    rfl
  · rw [moved, changed]; exact p

/-- A register instruction that computes an operation's value and flags performs it. -/
theorem performed_aluOp {o : RegOp} {f : Course → Nat → Res} {s : State} (issues : Issues o.sg o.g o.slot o.b s)
    (value : ∀ c l, (f c l).code = o.value c l) (flags : ∀ c l, (f c l).flags = o.flags c l) :
    Performed o s (aluOp o.sg always o.words f o.g o.slot o.b s) := by
  obtain ⟨-, ready, legal, top⟩ := issues
  rw [aluOp_eq _ _ _ _ _ _ _ _ ready legal rfl top]
  obtain ⟨v, u, a, changed⟩ := writeD_changes (courseOf s o.g o.slot) o.b o.words (f (courseOf s o.g o.slot))
  obtain ⟨p, m, k, moved⟩ := advance_changes (writeD (courseOf s o.g o.slot) o.b o.words (f (courseOf s o.g o.slot)))
  refine ⟨onlyCourse_of_counted (counted_countCore _ _ _ _), ?_⟩
  rw [courseOf_retire]
  refine ⟨?_, ?_, computes_writeD rfl rfl rfl rfl fun l _ => value _ l, fun i => ?_⟩
  · rw [moved, changed]; rfl
  · exact advance_atNext (by rw [changed]) (by rw [changed]) (by rw [changed])
  · rw [advance_asw, writeD_flags]
    simp only [flags]

theorem performed_intOp {m : Nat} {f : Nat → Nat → Nat → Nat} {F : Bool → Word → Word → Word} (agree : Agrees f F) {g k : Nat} {b : InstrBits}
    {s : State} (issues : Issues (sigInt m) g k b s) : Performed (wordOp g k b m F) s (intOp m f g k b s) :=
  performed_aluOp (o := wordOp g k b m F) issues
    (fun c l => by rw [opd_srcA, opd_srcBI]; exact agree _ _ _) (fun _ _ => rfl)

/-- The only MOD bit that a legal CLZ may set is MOD[0]. -/
theorem modOf_clz {b : InstrBits} (legal : sigOk ⟨.reg, .reg, .unused, .unused, 1, none⟩ b = true) : modOf b < 2 := by
  unfold sigOk at legal
  unfold modOf
  cases imm : b.op5 with
  | true => simp [imm] at legal
  | false =>
    simp only [imm, Bool.and_eq_true, Bool.false_eq_true, if_false, decide_eq_true_eq] at legal ⊢
    exact Nat.lt_succ_of_le (legal.2.2 ▸ Nat.left_le_or)

/-- Each INT instruction, once its word is fetched, performs its operation. -/
theorem exec_integer {i : Instr} {o : RegOp} {s : State} (op : integerOp i = some o) (cached : InCache i s)
    (issues : Issues o.sg o.g o.slot o.b s) : ∃ t, exec i s = .next t ∧ Performed o s t := by
  have runs : ∀ {w t}, codeOf i = some (o.g, o.slot, w) → exec i s = whenFetched w o.g o.slot s (.next t) → Performed o s t →
      ∃ t, exec i s = .next t ∧ Performed o s t := fun {w t} code step done =>
    ⟨t, step.trans (whenFetched_cached issues.1 issues.2.1 _ (cached.fetched code)), done⟩
  unfold integerOp at op
  split at op
  case h_16 => cases op
  all_goals
    cases op
    refine runs rfl rfl ?_
  · exact performed_intOp agrees_iadd issues
  · exact performed_intOp agrees_isub issues
  · exact performed_intOp agrees_imul issues
  · exact performed_intOp agrees_imulhi issues
  · exact performed_aluOp (o := ⟨_, _, _, _, _, _, _, _⟩) issues (fun c l => by
      rw [opd_srcA, opd_srcB, opd_srcC]; exact multiplyAdd_word _ _ _) fun _ _ => rfl
  · exact performed_intOp agrees_and issues
  · exact performed_intOp agrees_or issues
  · exact performed_intOp agrees_xor issues
  · exact performed_intOp agrees_shl issues
  · exact performed_intOp agrees_shr issues
  · exact performed_intOp agrees_imin issues
  · exact performed_intOp agrees_imax issues
  · exact performed_aluOp (o := ⟨_, _, _, _, _, _, _, _⟩) issues (fun c l => by rw [opd_srcA]; exact popcount_word _) fun _ _ => rfl
  · exact performed_aluOp (o := ⟨_, _, _, _, _, _, _, _⟩) issues (fun c l => by
      rw [opd_srcA]; exact clz_word (modOf_clz issues.2.2.1) _) fun _ _ => rfl
  · exact performed_aluOp (o := ⟨_, _, _, _, _, _, _, _⟩) issues (fun c l => by
      rw [opd64_pairA, opd64_pairBI]; exact (BitVec.toNat_add _ _).symm) fun _ _ => rfl

/-- Settles O1: each operation on words is what the model computes on numbers, and a register instruction writes it alone. -/
theorem integerInstructionsCompute : Obligations.IntegerInstructionsCompute := by
  unfold Obligations.IntegerInstructionsCompute
  intro i o s
  exact exec_integer

end Sys2Proof.Machine
end

