-- ==== Sys2Proof/Proofs/CoreFrames.lean ====
section
/-!
SUPPORT. What a core instruction leaves alone: the machine outside its core, the other courses of its core, and its registers.
-/
namespace Sys2Proof.Machine

/-! ## Outside a core -/

/-- The state without cores, counters, trace, and what waits for the host. -/
def outside (s : State) : State :=
  { s with pending := [], fsub := 0, free := 0, touched := [], owner := none, regs := [], cores := [], xl := {}, trc := {}, race := {} }

theorem sameOutside_iff {g : Nat} {s t : State} : SameOutside g s t ↔
    outside t = outside s ∧ (∀ g', g' ≠ g → coreOf t g' = coreOf s g') ∧ ∀ f : FRef, f.key < 8 * 0x410000 → getF t f = getF s f := by
  constructor
  · rintro ⟨h1, h2, h3, h4, h5, h6, h7, h8, h9, h10, h11, h12, h13, h14, h15, cores, reg⟩
    refine ⟨?_, cores, reg⟩
    unfold outside
    rw [h1, h2, h3, h4, h5, h6, h7, h8, h9, h10, h11, h12, h13, h14, h15]
  · rintro ⟨same, cores, reg⟩
    have field : ∀ {α : Type} (F : State → α), F (outside t) = F (outside s) := fun F => congrArg F same
    exact ⟨field (·.powered), field (·.aoTick), field (·.ts), field (·.shadow), field (·.tokens), field (·.sch), field (·.clusters),
      field (·.mm), field (·.spr), field (·.amx), field (·.hpt), field (·.err), field (·.pmc), field (·.sec), field (·.boot), cores, reg⟩

theorem SameOutside.refl (g : Nat) (s : State) : SameOutside g s s := sameOutside_iff.mpr ⟨rfl, fun _ _ => rfl, fun _ _ => rfl⟩

theorem SameOutside.trans {g : Nat} {s t u : State} (h : SameOutside g s t) (h' : SameOutside g t u) : SameOutside g s u := by
  obtain ⟨same, cores, reg⟩ := sameOutside_iff.mp h
  obtain ⟨same', cores', reg'⟩ := sameOutside_iff.mp h'
  exact sameOutside_iff.mpr ⟨same'.trans same, fun g' hg => (cores' g' hg).trans (cores g' hg), fun f hf => (reg' f hf).trans (reg f hf)⟩

theorem SameOutside.foldl {g : Nat} {β : Type} {f : State → β → State} (h : ∀ s x, SameOutside g s (f s x)) (xs : List β) (s : State) :
    SameOutside g s (xs.foldl f s) :=
  List.foldlRecOn xs f (motive := SameOutside g s) (.refl g s) (fun t ht x _ => ht.trans (h t x))

theorem sameOutside_of_counted (g : Nat) {s t : State} (h : Counted s t) : SameOutside g s t := by
  obtain ⟨⟨r, q, w, rfl⟩, reg⟩ := h
  exact sameOutside_iff.mpr ⟨rfl, fun _ _ => rfl, reg⟩

theorem sameOutside_setCore (s : State) (g : Nat) (c : Core) : SameOutside g s (setCore s g c) :=
  sameOutside_iff.mpr ⟨rfl, fun g' hg => by rw [coreOf_setCore, if_neg hg], fun _ _ => rfl⟩

theorem sameOutside_setCourse (s : State) (g k : Nat) (c : Course) : SameOutside g s (setCourse s g k c) := sameOutside_setCore _ _ _

theorem sameOutside_xl (g : Nat) (s : State) (x : Xlate) : SameOutside g s { s with xl := x } :=
  sameOutside_iff.mpr ⟨rfl, fun _ _ => rfl, fun _ _ => rfl⟩

theorem sameOutside_retire (g k : Nat) (c : Course) (s : State) : SameOutside g s (retire g k c s) :=
  (sameOutside_setCourse s g k _).trans (sameOutside_of_counted g (counted_countCore _ _ _ _))

/-! ## The other courses of a core -/

theorem SameCourses.refl (g k : Nat) (s : State) : SameCourses g k s s := ⟨fun _ _ => rfl, rfl, rfl, rfl, rfl, rfl⟩

theorem SameCourses.trans {g k : Nat} {s t u : State} (h : SameCourses g k s t) (h' : SameCourses g k t u) : SameCourses g k s u := by
  obtain ⟨others, consorts, l1, ladle, harp, images⟩ := h
  obtain ⟨others', consorts', l1', ladle', harp', images'⟩ := h'
  exact ⟨fun i hi => (others' i hi).trans (others i hi), consorts'.trans consorts, l1'.trans l1, ladle'.trans ladle, harp'.trans harp,
    images'.trans images⟩

theorem sameCourses_of_core {g k : Nat} {s t : State} (h : coreOf t g = coreOf s g) : SameCourses g k s t := by
  unfold SameCourses courseOf
  rw [h]
  exact ⟨fun _ _ => rfl, rfl, rfl, rfl, rfl, rfl⟩

theorem coreOf_setCourse_self (s : State) (g k : Nat) (c : Course) :
    coreOf (setCourse s g k c) g = { coreOf s g with courses := tset {} (coreOf s g).courses k c } := by
  rw [setCourse, coreOf_setCore, if_pos rfl]

theorem courseOf_setCourse_self (s : State) (g k : Nat) (c : Course) : courseOf (setCourse s g k c) g k = c := by
  rw [courseOf_setCourse, if_pos ⟨rfl, rfl⟩]

theorem consortOf_setCourse (s : State) (g k g' k' : Nat) (c : Course) : consortOf (setCourse s g k c) g' k' = consortOf s g' k' := by
  unfold consortOf setCourse
  rw [coreOf_setCore]
  split
  next same => rw [same]
  next => rfl

theorem sameCourses_setCourse (s : State) (g k : Nat) (c : Course) : SameCourses g k s (setCourse s g k c) := by
  refine ⟨fun i hi => by rw [courseOf_setCourse, if_neg fun h => hi h.2], ?_⟩
  rw [coreOf_setCourse_self]
  exact ⟨rfl, rfl, rfl, rfl, rfl⟩

theorem coreOf_retire (g k : Nat) (c : Course) (s : State) : coreOf (retire g k c s) g =
    { coreOf s g with courses := tset {} (coreOf s g).courses k (advance c) } := by
  rw [retire, (counted_countCore _ _ _ _).coreOf, coreOf_setCourse_self]

theorem sameCourses_retire (g k : Nat) (c : Course) (s : State) : SameCourses g k s (retire g k c s) :=
  (sameCourses_setCourse s g k _).trans (sameCourses_of_core ((counted_countCore _ _ _ _).coreOf g))

/-- A course that retires, and nothing else. -/
theorem goesOn_retire (g k : Nat) (c : Course) (s : State) : GoesOn g k c s (retire g k c s) :=
  ⟨courseOf_retire g k c s, sameCourses_retire g k c s, by rw [coreOf_retire], sameOutside_retire g k c s⟩

/-! ## A course's registers -/

theorem SameRegisters.refl (c : Course) : SameRegisters c c := ⟨rfl, rfl, rfl, rfl⟩

theorem SameRegisters.trans {c c' c'' : Course} (h : SameRegisters c c') (h' : SameRegisters c' c'') : SameRegisters c c'' := by
  obtain ⟨v, u, p, a⟩ := h
  obtain ⟨v', u', p', a'⟩ := h'
  exact ⟨v'.trans v, u'.trans u, p'.trans p, a'.trans a⟩

theorem sameRegisters_advance (c : Course) : SameRegisters c (advance c) := by
  obtain ⟨p, a, k, e⟩ := advance_changes c
  rw [e]
  exact ⟨rfl, rfl, rfl, rfl⟩

/-! ## Reservations that a memory instruction ends (R117) -/

theorem courseOf_endRsv (g k : Nat) (s : State) : courseOf (endRsv g k s) g k = unreserved (courseOf s g k) := courseOf_setCourse_self _ _ _ _

theorem courseOf_endRsv_ne {g k i : Nat} (hi : i ≠ k) (s : State) : courseOf (endRsv g k s) g i = courseOf s g i := by
  rw [endRsv, courseOf_setCourse, if_neg fun h => hi h.2]

theorem consortOf_endRsv (g k i : Nat) (s : State) : consortOf (endRsv g k s) g i = consortOf s g i := consortOf_setCourse _ _ _ _ _ _

theorem castingOfCourse_endRsv (g k : Nat) (s : State) : castingOfCourse (endRsv g k s) g k = castingOfCourse s g k := by
  unfold castingOfCourse
  rw [courseOf_endRsv, consortOf_endRsv]
  rfl

theorem courseReady_endRsv {g k : Nat} {s : State} (h : courseReady s g k = true) : courseReady (endRsv g k s) g k = true := by
  have still : ∀ i, (courseOf (endRsv g k s) g i).faultVa = (courseOf s g i).faultVa := fun i => by
    by_cases hi : i = k
    · rw [hi, courseOf_endRsv]; rfl
    · rw [courseOf_endRsv_ne hi]
  rw [← h]
  unfold courseReady stalled
  simp only [courseOf_endRsv, consortOf_endRsv, still]
  rfl

/-- The casting of a course that has ended its reservations ends. -/
theorem castingEnds_endRsv {s : State} {g k : Nat} (ready : courseReady s g k = true) (e : Ending) :
    CastingEnds e s (failCourse g k e (endRsv g k s)) g k := by
  have ends := castingEnds_failCourse (courseReady_endRsv ready) e
  unfold CastingEnds at ends ⊢
  rwa [castingOfCourse_endRsv] at ends

theorem coreOf_endRsv (g k : Nat) (s : State) :
    coreOf (endRsv g k s) g = { coreOf s g with courses := tset {} (coreOf s g).courses k (unreserved (courseOf s g k)) } :=
  coreOf_setCourse_self _ _ _ _

theorem sameOutside_endRsv (g k : Nat) (s : State) : SameOutside g s (endRsv g k s) := sameOutside_setCourse _ _ _ _
theorem sameCourses_endRsv (g k : Nat) (s : State) : SameCourses g k s (endRsv g k s) := sameCourses_setCourse _ _ _ _

theorem harpPending_endRsv (g k : Nat) (s : State) : harpPending (endRsv g k s) g k = harpPending s g k := by
  unfold harpPending; rw [coreOf_endRsv]

theorem cmemBase_endRsv (g k : Nat) (s : State) : cmemBase (endRsv g k s) g k = cmemBase s g k := by
  unfold cmemBase; rw [courseOf_endRsv, consortOf_endRsv]; rfl

theorem cmemSize_endRsv (g k : Nat) (s : State) : cmemSize (endRsv g k s) g k = cmemSize s g k := by
  unfold cmemSize; rw [courseOf_endRsv, consortOf_endRsv]; rfl

end Sys2Proof.Machine
end

