-- ==== Sys2Proof/Proofs/ConsortFrames.lean ====
section
/-!
SUPPORT. What the operations on a core's consorts do to its courses: a barrier's release (R83), the return of a consort's place (R70, R91).
-/
namespace Sys2Proof.Machine

/-! ## Misses (R239) -/

/-- A core without its miss registers. -/
def Core.noMiss (c : Core) : Core := { c with miss := [] }

theorem noMiss_leaveMiss (g i : Nat) (s : State) (g' : Nat) : (coreOf (leaveMiss g i s) g').noMiss = (coreOf s g').noMiss := by
  unfold leaveMiss
  split
  · rw [coreOf_setCore]
    split
    next same => rw [same]; rfl
    next => rfl
  · rfl

theorem leaveMiss_cores (g i : Nat) (s : State) : ∃ c, leaveMiss g i s = { s with cores := c } := by
  unfold leaveMiss
  split
  · exact ⟨_, rfl⟩
  · exact ⟨s.cores, rfl⟩

/-- The waits of a consort's courses for misses end. -/
def leaveMisses (g : Nat) (cs : List Nat) (s : State) : State := cs.foldl (fun s i => leaveMiss g i s) s

theorem noMiss_leaveMisses (g : Nat) (cs : List Nat) (s : State) (g' : Nat) : (coreOf (leaveMisses g cs s) g').noMiss = (coreOf s g').noMiss :=
  foldl_keeps (fun s => (coreOf s g').noMiss) _ cs (fun s i _ => noMiss_leaveMiss g i s g') s

theorem leaveMisses_cores (g : Nat) (cs : List Nat) (s : State) : ∃ c, leaveMisses g cs s = { s with cores := c } :=
  List.foldlRecOn cs (fun s i => leaveMiss g i s) (motive := fun t : State => ∃ c, t = { s with cores := c }) ⟨s.cores, rfl⟩ fun t ⟨c, e⟩ i _ => by
    obtain ⟨c', e'⟩ := leaveMiss_cores g i t
    exact ⟨c', by rw [e', e]⟩

/-! ## A consort's place returns (R70, R91) -/

theorem tget_foldl_tdel {α : Type} (d : α) (ks : List Nat) (t : Tbl α) (k : Nat) :
    tget d (ks.foldl (fun t i => tdel t i) t) k = if k ∈ ks then d else tget d t k := by
  induction ks generalizing t with
  | nil => simp
  | cons x ks ih =>
    rw [List.foldl_cons, ih, tget_tdel]
    by_cases h : k ∈ ks <;> by_cases h' : k = x <;> simp [h, h']

/-- A core from which consort `k` has gone. -/
def Core.freed (c : Core) (k : Nat) : Core :=
  { c with
    consorts := tdel c.consorts k
    courses := (tget {} c.consorts k).courses.foldl (fun t i => tdel t i) c.courses
    harp := if (tget {} c.consorts k).harp then {} else c.harp }

/-- The registers that show a Harp's state (R154). -/
def harpShown (g : Nat) : List FRef :=
  [harpOwned g, harpOwner g, hseqBusy g, drainBusy g, zeroBusy g, hseqTile g, drainTile g, zeroTile g]

theorem cores_foldl_setOff (fs : List FRef) (s : State) : (fs.foldl setOff s).cores = s.cores :=
  foldl_keeps State.cores setOff fs (fun _ _ _ => rfl) s

/-- The state in which consort `k` gives up its place: nothing that its courses have sent waits for them (R202, R239). -/
def leaving (g k : Nat) (s : State) : State :=
  leaveMisses g (consortOf s g k).courses (adopt (courseIn g (consortOf s g k).courses) (.cores (clOf g)) s)

theorem freeConsort_eq (g k : Nat) (s : State) : freeConsort g k s =
    if (consortOf (leaving g k s) g k).harp
    then (harpShown g).foldl setOff (setCore (leaving g k s) g ((coreOf (leaving g k s) g).freed k))
    else setCore (leaving g k s) g ((coreOf (leaving g k s) g).freed k) := rfl

theorem noMiss_leaving (g k : Nat) (s : State) (g' : Nat) : (coreOf (leaving g k s) g').noMiss = (coreOf s g').noMiss :=
  noMiss_leaveMisses _ _ _ _

theorem leaving_cores (g k : Nat) (s : State) : ∃ x c, leaving g k s = { s with xl := x, cores := c } := by
  obtain ⟨c, e⟩ := leaveMisses_cores g (consortOf s g k).courses (adopt (courseIn g (consortOf s g k).courses) (.cores (clOf g)) s)
  exact ⟨_, c, e⟩

theorem cores_freeConsort (g k : Nat) (s : State) :
    (freeConsort g k s).cores = (setCore (leaving g k s) g ((coreOf (leaving g k s) g).freed k)).cores := by
  rw [freeConsort_eq]
  split
  · exact cores_foldl_setOff _ _
  · rfl

theorem coreOf_freeConsort (g k : Nat) (s : State) : (coreOf (freeConsort g k s) g).noMiss = ((coreOf s g).freed k).noMiss := by
  have core : coreOf (freeConsort g k s) g = (coreOf (leaving g k s) g).freed k := by
    rw [coreOf, cores_freeConsort, ← coreOf, coreOf_setCore, if_pos rfl]
  have same := congrArg (fun c : Core => (c.freed k).noMiss) (noMiss_leaving g k s g)
  rw [core]
  exact same

theorem courseOf_freeConsort (g k i : Nat) (s : State) :
    courseOf (freeConsort g k s) g i = if i ∈ (consortOf s g k).courses then {} else courseOf s g i := by
  have e := congrArg (fun c : Core => tget ({} : Course) c.courses i) (coreOf_freeConsort g k s)
  exact e.trans (tget_foldl_tdel _ _ _ _)

/-! ## The barrier (R83) -/

theorem courseOf_release (g : Nat) (cs : List Nat) (s : State) (i : Nat) :
    courseOf (cs.foldl (fun s i => setCourse s g i { courseOf s g i with arrived := false }) s) g i =
      if i ∈ cs then { courseOf s g i with arrived := false } else courseOf s g i := by
  induction cs generalizing s with
  | nil => simp
  | cons x cs ih =>
    rw [List.foldl_cons, ih]
    by_cases h : i = x
    · subst h
      simp only [courseOf_setCourse_self, List.mem_cons, true_or, if_true]
      split <;> rfl
    · simp [courseOf_setCourse, h]

/-- A barrier at which every course has arrived releases them; else nothing happens. -/
theorem courseOf_barrierCheck (g k i : Nat) (s : State) : courseOf (barrierCheck g k s) g i =
    if (liveCourses s g k).all (fun i => (courseOf s g i).arrived) = true ∧ i ∈ liveCourses s g k
    then { courseOf s g i with arrived := false } else courseOf s g i := by
  unfold barrierCheck
  dsimp only
  split
  next all => rw [courseOf_release]; simp [all]
  next some => simp [some]

theorem sameOutside_barrierCheck (g k : Nat) (s : State) : SameOutside g s (barrierCheck g k s) := by
  unfold barrierCheck
  dsimp only
  split
  · exact .foldl (fun s i => sameOutside_setCourse _ _ _ _) _ _
  · exact .refl g s

theorem mem_liveCourses {s : State} {g k i : Nat} : i ∈ liveCourses s g k ↔ i ∈ (consortOf s g k).courses ∧ (courseOf s g i).live = true := by
  simp [liveCourses]

/-! ## A course that exits (R70) -/

theorem courseExit_dead (g slot : Nat) (s : State) : (courseOf (courseExit g slot s) g slot).live = false := by
  unfold courseExit
  dsimp only
  generalize (if (courseOf s g slot).pour = .closed then s else abortPour g slot 4 s) = u
  have dead := courseOf_setCourse_self u g slot { courseOf u g slot with live := false, arrived := false, rsv := [] }
  split
  · rw [courseOf_freeConsort]
    split
    · rfl
    · rw [dead]
  · rw [courseOf_barrierCheck]
    split <;> rw [dead]

end Sys2Proof.Machine
end

