-- ==== Sys2Proof/Proofs/ControlInstructions.lean ====
section
/-!
CERTIFICATE. The CTL class: branches (R80, R81), EXIT (R70) and the consort's barrier (R83, R84).
-/
namespace Sys2Proof.Machine

/-- An instruction that issues, from its fetch to its effect. -/
theorem exec_issue {i : Instr} {g k w : Nat} {legal : Bool} {top : Nat} {s : State} {f : Course → State} (on : s.powered = true)
    (ready : courseReady s g k = true) (cached : InCache i s) (code : codeOf i = some (g, k, w))
    (step : exec i s = whenFetched w g k s (.next (issue g k legal top s f))) (ok : legal = true)
    (room : top ≤ (consortOf s g (courseOf s g k).consort).ra) : exec i s = .next (f (courseOf s g k)) := by
  rw [step, whenFetched_cached on ready _ (cached.fetched code), issue_eq _ _ _ _ _ _ ready ok room]

/-! ## Paths (R80) -/

/-- Paths in rising order of address, each with a lane, that hold lane `l` at address `a` where `at a l`. -/
def PathsOf (goes : Nat → Nat → Prop) (ps : List (Nat × Word)) : Prop :=
  ps.Pairwise (fun x y => x.1 < y.1) ∧ (∀ x ∈ ps, x.2 ≠ 0) ∧
    ∀ a l, l < 32 → ((∃ m, (a, m) ∈ ps ∧ m.getLsbD l = true) ↔ goes a l)

theorem pathsOf_nil : PathsOf (fun _ _ => False) [] := ⟨.nil, nofun, fun _ _ _ => by simp⟩

theorem PathsOf.congr {p q : Nat → Nat → Prop} {ps : List (Nat × Word)} (h : PathsOf p ps) (same : ∀ a l, l < 32 → (p a l ↔ q a l)) :
    PathsOf q ps := ⟨h.1, h.2.1, fun a l hl => (h.2.2 a l hl).trans (same a l hl)⟩

theorem lt_addPath {ps : List (Nat × Word)} {a : Nat} {m : Word} {b : Nat} (ha : b < a) (h : ∀ x ∈ ps, b < x.1) :
    ∀ x ∈ addPath ps a m, b < x.1 := by
  induction ps with
  | nil => simpa [addPath] using ha
  | cons p ps ih =>
    obtain ⟨first, later⟩ := List.forall_mem_cons.mp h
    unfold addPath
    split
    · exact List.forall_mem_cons.mpr ⟨first, later⟩
    · split
      · exact List.forall_mem_cons.mpr ⟨ha, h⟩
      · exact List.forall_mem_cons.mpr ⟨first, ih later⟩

/-- The lanes that a path brings join those of its address. -/
theorem lanes_addPath (ps : List (Nat × Word)) (a : Nat) (m : Word) (a' l : Nat) :
    (∃ x, (a', x) ∈ addPath ps a m ∧ x.getLsbD l = true) ↔
      (∃ x, (a', x) ∈ ps ∧ x.getLsbD l = true) ∨ (a' = a ∧ m.getLsbD l = true) := by
  have first : ∀ x y (xs : List (Nat × Word)), (∃ z, (a', z) ∈ (x, y) :: xs ∧ z.getLsbD l = true) ↔
      (a' = x ∧ y.getLsbD l = true) ∨ ∃ z, (a', z) ∈ xs ∧ z.getLsbD l = true := fun x y xs => by
    simp only [List.mem_cons, Prod.mk.injEq, or_and_right, exists_or, and_assoc, exists_eq_left, exists_and_left]
  induction ps with
  | nil => simp [addPath]
  | cons p ps ih =>
    obtain ⟨x, y⟩ := p
    unfold addPath
    split
    next here =>
      subst here
      rw [first, first, BitVec.getLsbD_or, Bool.or_eq_true, and_or_left]
      exact or_right_comm
    next =>
      split
      · rw [first]; exact or_comm
      · rw [first, first]
        exact (or_congr_right ih).trans or_assoc.symm

theorem or_ne_zero (x : Word) {m : Word} (hm : m ≠ 0) : x ||| m ≠ 0 := fun h => hm (BitVec.or_eq_zero_iff.mp h).2

/-- A path that joins others keeps them in order; the lanes that it brings go to its address. -/
theorem PathsOf.add {goes : Nat → Nat → Prop} {ps : List (Nat × Word)} (h : PathsOf goes ps) (a : Nat) {m : Word} (hm : m ≠ 0) :
    PathsOf (fun a' l => goes a' l ∨ (a' = a ∧ m.getLsbD l = true)) (addPath ps a m) := by
  obtain ⟨rising, full, holds⟩ := h
  refine ⟨?_, ?_, fun a' l hl => by rw [lanes_addPath, holds a' l hl]⟩
  · clear holds full
    induction ps with
    | nil => exact List.pairwise_singleton _ _
    | cons p ps ih =>
      obtain ⟨above, rest⟩ := List.pairwise_cons.mp rising
      unfold addPath
      split
      · exact List.pairwise_cons.mpr ⟨above, rest⟩
      · split
        next below => exact List.pairwise_cons.mpr ⟨List.forall_mem_cons.mpr ⟨below, fun x hx => below.trans (above x hx)⟩, rising⟩
        next ne notBelow => exact List.pairwise_cons.mpr ⟨lt_addPath (Nat.lt_of_le_of_ne (Nat.le_of_not_lt notBelow) ne) above, ih rest⟩
  · clear holds rising
    induction ps with
    | nil => simpa [addPath] using hm
    | cons p ps ih =>
      obtain ⟨first, later⟩ := List.forall_mem_cons.mp full
      unfold addPath
      split
      · exact List.forall_mem_cons.mpr ⟨or_ne_zero _ hm, later⟩
      · split
        · exact List.forall_mem_cons.mpr ⟨hm, full⟩
        · exact List.forall_mem_cons.mpr ⟨first, ih later⟩

/-- So does one that may have no lane, and then is none. -/
theorem PathsOf.join {goes : Nat → Nat → Prop} {ps : List (Nat × Word)} (h : PathsOf goes ps) (a : Nat) (m : Word) :
    PathsOf (fun a' l => goes a' l ∨ (a' = a ∧ m.getLsbD l = true)) (if m = 0 then ps else addPath ps a m) := by
  split
  next none => exact h.congr fun a' l _ => by simp [none]
  next some => exact h.add a some

/-- The paths of lanes that each go their own way. -/
theorem PathsOf.each {goes : Nat → Nat → Prop} {ps : List (Nat × Word)} (h : PathsOf goes ps) (dest : Nat → Nat) {ls : List Nat}
    (lanes : ∀ l ∈ ls, l < 32) : PathsOf (fun a l => goes a l ∨ (l ∈ ls ∧ dest l = a))
      (ls.foldl (fun ps l => addPath ps (dest l) (BitVec.ofNat 32 (2 ^ l))) ps) := by
  induction ls generalizing goes ps with
  | nil => exact h.congr fun a l _ => by simp
  | cons x ls ih =>
    obtain ⟨first, later⟩ := List.forall_mem_cons.mp lanes
    have one : ∀ l, l < 32 → ((BitVec.ofNat 32 (2 ^ x)).getLsbD l = true ↔ l = x) := fun l hl => by
      rw [BitVec.getLsbD_ofNat, Nat.testBit_two_pow]; simp [hl, eq_comm]
    have some : BitVec.ofNat 32 (2 ^ x) ≠ 0 := fun none => by
      have := (one x first).mpr rfl
      rw [none] at this
      simp at this
    refine (ih (h.add (dest x) some) later).congr fun a l hl => ?_
    rw [one l hl]
    constructor
    · rintro ((before | ⟨rfl, rfl⟩) | ⟨mem, goal⟩)
      · exact .inl before
      · exact .inr ⟨List.mem_cons_self, rfl⟩
      · exact .inr ⟨List.mem_cons_of_mem _ mem, goal⟩
    · rintro (before | ⟨mem, goal⟩)
      · exact .inl (.inl before)
      · rcases List.mem_cons.mp mem with rfl | mem
        · exact .inl (.inr ⟨goal.symm, rfl⟩)
        · exact .inr ⟨mem, goal⟩

theorem active_of_lanesOf {c : Course} {b : InstrBits} {l : Nat} (h : (lanesOf c b).getLsbD l = true) : c.active.getLsbD l = true := by
  unfold lanesOf at h
  rw [BitVec.getLsbD_and, Bool.and_eq_true] at h
  exact h.1

/-- The lanes taken and the lanes not taken are the active ones, each on its path. -/
theorem paths_taken {c : Course} {b : InstrBits} {taken : Nat → Nat} {next : Nat} {ps : List (Nat × Word)}
    (h : PathsOf (fun a l => ((lanesOf c b).getLsbD l = true ∧ taken l = a) ∨ (a = next ∧ (c.active &&& ~~~(lanesOf c b)).getLsbD l = true)) ps) :
    Paths c (fun l => if (lanesOf c b).getLsbD l then taken l else next) ps :=
  h.congr fun a l hl => by
    rw [BitVec.getLsbD_and, BitVec.getLsbD_not, decide_eq_true hl, Bool.true_and]
    cases run : (lanesOf c b).getLsbD l with
    | true => simp [run, active_of_lanesOf run]
    | false => simp [run, eq_comm (a := a), and_comm]

/-! ## BRA and BRX (R80, R81, R105) -/

theorem exec_bra {g k : Nat} {b : InstrBits} {s : State} (ready : Ready g k s) (cached : InCache (.bra g k b) s)
    (legal : (guardOk b && !b.op5 && !b.du && !b.au && !b.bu && !b.cu) = true) : ∃ ps,
      exec (.bra g k b) s = .next (branchTo g k (pcAdd (courseOf s g k).pc (fldReconv b)) ps (courseOf s g k) s) ∧
      Paths (courseOf s g k) (fun l => if (lanesOf (courseOf s g k) b).getLsbD l then pcAdd (courseOf s g k).pc (fldTarget b)
        else pcAdd (courseOf s g k).pc 1) ps := by
  refine ⟨_, exec_issue ready.1 ready.2 cached rfl rfl legal (Nat.zero_le _), paths_taken ?_⟩
  refine ((pathsOf_nil.join _ _).join _ _).congr fun a l _ => ?_
  simp only [false_or, eq_comm (a := a), and_comm]

theorem exec_brx {g k : Nat} {b : InstrBits} {s : State} (ready : Ready g k s) (cached : InCache (.brx g k b) s)
    (legal : (guardOk b && !b.op5 && !b.du && !b.bu && !b.cu && Form.ok .pair b.au (fldA b) && decide (fldD b = 0) &&
      decide (fldB b = 0)) = true)
    (room : Form.top .pair b.au (fldA b) ≤ (consortOf s g (courseOf s g k).consort).ra) : ∃ ps,
      exec (.brx g k b) s = .next (branchTo g k (pcAdd (courseOf s g k).pc (fldReconv b)) ps (courseOf s g k) s) ∧
      Paths (courseOf s g k) (fun l => if (lanesOf (courseOf s g k) b).getLsbD l then opd64 (courseOf s g k) b.au (fldA b) l
        else pcAdd (courseOf s g k).pc 1) ps := by
  refine ⟨_, exec_issue ready.1 ready.2 cached rfl rfl legal room, paths_taken ?_⟩
  have lanes : ∀ l ∈ laneList (lanesOf (courseOf s g k) b), l < 32 := fun l hl =>
    List.mem_range.mp (List.mem_filter.mp hl).1
  refine ((pathsOf_nil.each (opd64 (courseOf s g k) b.au (fldA b)) lanes).join _ _).congr fun a l hl => ?_
  simp only [false_or, laneList, List.mem_filter, List.mem_range, hl, true_and]

/-- Settles O9: a branch's paths are its active lanes grouped by address; several of them push an entry, or end the casting. -/
theorem branchesFollowTheirPaths : Obligations.BranchesFollowTheirPaths := by
  unfold Obligations.BranchesFollowTheirPaths
  refine ⟨?_, ?_, ?_, ?_, ?_⟩
  · intro g k b s ready cached guard op5 du au bu cu
    obtain ⟨ps, run, paths⟩ := exec_bra ready cached (by simp [guard, op5, du, au, bu, cu])
    exact ⟨_, run, ps, paths, rfl⟩
  · intro g k b s ready cached guard op5 du bu cu pair d0 b0 room
    obtain ⟨ps, run, paths⟩ := exec_brx ready cached (by simp [guard, op5, du, bu, cu, pair, d0, b0]) room
    exact ⟨_, run, ps, paths, rfl⟩
  · intro g k r a m s
    exact ((counted_countCore _ _ _ _).courseOf g k).trans (courseOf_setCourse_self _ _ _ _)
  · intro g k r a m p ps s room
    rw [branchTo, if_neg (by omega), (counted_countCore _ _ _ _).courseOf, courseOf_setCourse_self]
    exact nofun
  · intro g k r a m p ps s full ready
    rw [branchTo, if_pos full]
    · exact castingEnds_failCourse ready _
    · exact nofun

/-! ## EXIT (R70) -/

theorem settle_copies (n : Nat) (c : Course) : (settle n c).copies = c.copies := by
  obtain ⟨p, a, st, e⟩ := settle_changes n c
  rw [e]

/-- A course whose lanes have been removed goes on, or exits. -/
theorem exit_outcome {g k : Nat} {s : State} {c : Course} (copies : c.copies = (courseOf s g k).copies) :
    let u := countCore g 0x02 1 (setCourse s g k c)
    let t := if c.active = 0 ∧ c.copies = 0 then courseExit g k u else u
    (c.active ≠ 0 ∨ (courseOf s g k).copies ≠ 0 → OnlyCourse g k s t ∧ courseOf t g k = c) ∧
      (c.active = 0 → (courseOf s g k).copies = 0 → (courseOf t g k).live = false) := by
  have replaced := counted_countCore g 0x02 1 (setCourse s g k c)
  rw [← copies]
  dsimp only
  constructor
  · intro stays
    rw [if_neg fun gone => stays.elim (fun h => h gone.1) fun h => h gone.2]
    exact ⟨onlyCourse_of_counted replaced, (replaced.courseOf g k).trans (courseOf_setCourse_self _ _ _ _)⟩
  · intro gone done
    rw [if_pos ⟨gone, done⟩]
    exact courseExit_dead _ _ _

/-- Settles O10: EXIT replaces its course, which exits where no lane is left and no transfer of its consort memory runs. -/
theorem exitRemovesLanes : Obligations.ExitRemovesLanes := by
  unfold Obligations.ExitRemovesLanes
  intro g k b s ready cached guard op5 du au bu cu low still
  refine ⟨_, exec_issue ready.1 ready.2 cached rfl rfl (by simp [guard, op5, du, au, bu, cu, low]) (Nat.zero_le _), ?_⟩
  dsimp only
  rw [if_neg still]
  exact exit_outcome (settle_copies _ _)

/-! ## BAR (R83, R84) -/

section
variable {g k : Nat} {s u : State} (own : courseOf u g k = { advance (courseOf s g k) with arrived := true })
  (others : ∀ i, i ≠ k → courseOf u g i = courseOf s g i)
include own others

theorem live_arrived (i : Nat) (live : (courseOf s g i).live = true) : (courseOf u g i).live = true := by
  by_cases ne : i = k
  · obtain ⟨p, a, st, e⟩ := advance_changes (courseOf s g k)
    rw [ne, own, e]
    exact ne ▸ live
  · rwa [others i ne]

variable (consorts : ∀ i, consortOf u g i = consortOf s g i)
include consorts

/-- A course that has arrived finds the others of its consort arrived, or waits for them. -/
theorem all_arrived_iff : (liveCourses u g (courseOf s g k).consort).all (fun i => (courseOf u g i).arrived) = true ↔
    ∀ i ∈ (consortOf s g (courseOf s g k).consort).courses, (courseOf s g i).live = true → i ≠ k → (courseOf s g i).arrived = true := by
  simp only [List.all_eq_true, mem_liveCourses, consorts, and_imp]
  constructor
  · intro h i mem live ne
    have := h i mem
    rw [others i ne] at this
    exact this live
  · intro h i mem live
    by_cases ne : i = k
    · rw [ne, own]
    · rw [others i ne] at live ⊢
      exact h i mem live ne

/-- What the barrier leaves of its courses. -/
theorem barrier_outcome : let t := barrierCheck g (courseOf s g k).consort u
    (courseOf t g k).pc = (advance (courseOf s g k)).pc ∧ SameRegisters (courseOf s g k) (courseOf t g k) ∧
    (if ∀ i ∈ (consortOf s g (courseOf s g k).consort).courses, (courseOf s g i).live = true → i ≠ k → (courseOf s g i).arrived = true
      then ∀ i ∈ (consortOf s g (courseOf s g k).consort).courses, (courseOf s g i).live = true → (courseOf t g i).arrived = false
      else (courseOf t g k).arrived = true ∧ ∀ i, i ≠ k → courseOf t g i = courseOf s g i) := by
  dsimp only
  have registers := sameRegisters_advance (courseOf s g k)
  refine ⟨?_, ?_, ?_⟩
  · rw [courseOf_barrierCheck]
    split <;> rw [own]
  · rw [courseOf_barrierCheck]
    split <;> rw [own] <;> exact registers
  · have all := all_arrived_iff own others consorts
    split
    next arrived =>
      intro i mem live
      rw [courseOf_barrierCheck, if_pos ⟨all.mpr arrived, mem_liveCourses.mpr ⟨by rwa [consorts], live_arrived own others i live⟩⟩]
    next missing =>
      have waits : ∀ i, courseOf (barrierCheck g (courseOf s g k).consort u) g i = courseOf u g i := fun i => by
        rw [courseOf_barrierCheck, if_neg fun h => missing (all.mp h.1)]
      exact ⟨by rw [waits, own], fun i ne => (waits i).trans (others i ne)⟩

end

/-- Settles O11: a course that arrives last finds every live course of its consort arrived, and the barrier releases them. -/
theorem barrierWaitsForTheConsort : Obligations.BarrierWaitsForTheConsort := by
  unfold Obligations.BarrierWaitsForTheConsort
  intro g k b s ready cached guard gen op5 du au bu cu low closed
  refine ⟨_, exec_issue ready.1 ready.2 cached rfl rfl (by simp [guard, gen, op5, du, au, bu, cu, low, closed]) (Nat.zero_le _), ?_⟩
  dsimp only
  refine ⟨fun missing => ?_, fun whole free member => ?_⟩
  · rw [if_pos missing]
    exact castingEnds_failCourse ready.2 _
  · rw [if_neg (by simpa using whole), if_neg (by simp [free])]
    have arrives := counted_countCore g 0x02 1 (setCourse s g k { advance (courseOf s g k) with arrived := true })
    obtain ⟨pc, registers, barrier⟩ := barrier_outcome (k := k) (u := countCore g 0x02 1 _)
      ((arrives.courseOf g k).trans (courseOf_setCourse_self _ _ _ _))
      (fun i ne => (arrives.courseOf g i).trans (by rw [courseOf_setCourse, if_neg fun h => ne h.2]))
      (fun i => (congrArg (fun c : Core => tget ({} : Consort) c.consorts i) (arrives.coreOf g)).trans (consortOf_setCourse _ _ _ _ _ _))
    exact ⟨pc, registers, (sameOutside_setCourse _ _ _ _).trans ((sameOutside_of_counted g arrives).trans (sameOutside_barrierCheck _ _ _)), barrier⟩

end Sys2Proof.Machine
end

