-- ==== Sys2Proof/Proofs/ConsortMemory.lean ====
section
/-!
CERTIFICATE. Consort memory (R74, R86, R110): what a course reads and writes there, and its LD and ST.
-/
namespace Sys2Proof.Machine

/-! ## Writes -/

theorem coreOf_congr {s t : State} (h : t.cores = s.cores) (g : Nat) : coreOf t g = coreOf s g := by unfold coreOf; rw [h]

theorem coreOf_cmemWrite (g slot off : Nat) (bs : List Byte) (s : State) : coreOf (cmemWrite g slot off bs s) g =
    { coreOf s g with cmem := wrList (coreOf s g).cmem (cmemBase s g slot + off) bs } := by
  rw [cmemWrite, coreOf_congr (logWrite_cores _ _ _ _), coreOf_setCore, if_pos rfl]

theorem cmemBase_of_core {s t : State} {g : Nat} (courses : (coreOf t g).courses = (coreOf s g).courses)
    (consorts : (coreOf t g).consorts = (coreOf s g).consorts) (slot : Nat) : cmemBase t g slot = cmemBase s g slot := by
  unfold cmemBase consortOf courseOf
  rw [courses, consorts]

/-- Consort memory is no output of a casting (R60): only the log of races knows of the write. -/
theorem sameOutside_cmemWrite (g slot off : Nat) (bs : List Byte) (s : State) : SameOutside g s (cmemWrite g slot off bs s) := by
  have quiet : ∀ u, noteOutput (2 + g) (cmemBase s g slot + off) bs.length u = u := fun u => by
    unfold noteOutput
    split
    · rfl
    · exact if_pos (.inl (by omega))
  refine (sameOutside_setCore s g { coreOf s g with cmem := wrList (coreOf s g).cmem (cmemBase s g slot + off) bs }).trans ?_
  unfold cmemWrite logWrite
  rw [quiet]
  dsimp only
  split
  · exact sameOutside_iff.mpr ⟨rfl, fun _ _ => rfl, fun _ _ => rfl⟩
  · exact .refl g _

/-- Several writes of one course. -/
theorem foldl_cmemWrite {β : Type} (g slot : Nat) (off : β → Nat) (bs : β → List Byte) (xs : List β) (s : State) :
    coreOf (xs.foldl (fun s x => cmemWrite g slot (off x) (bs x) s) s) g = { coreOf s g with
      cmem := xs.foldl (fun m x => wrList m (cmemBase s g slot + off x) (bs x)) (coreOf s g).cmem } ∧
    SameOutside g s (xs.foldl (fun s x => cmemWrite g slot (off x) (bs x) s) s) := by
  induction xs generalizing s with
  | nil => exact ⟨rfl, .refl g s⟩
  | cons x xs ih =>
    obtain ⟨core, outside⟩ := ih (cmemWrite g slot (off x) (bs x) s)
    have first := coreOf_cmemWrite g slot (off x) (bs x) s
    have base : cmemBase (cmemWrite g slot (off x) (bs x) s) g slot = cmemBase s g slot :=
      cmemBase_of_core (by rw [first]) (by rw [first]) slot
    refine ⟨?_, (sameOutside_cmemWrite _ _ _ _ _).trans outside⟩
    rw [List.foldl_cons, core, base, first]
    rfl

theorem tget_foldl_wrList_out {β : Type} (at' : β → Nat) (bs : β → List Byte) (xs : List β) (m : Tbl Byte) {a : Nat}
    (out : ∀ x ∈ xs, a < at' x ∨ at' x + (bs x).length ≤ a) :
    tget 0 (xs.foldl (fun m x => wrList m (at' x) (bs x)) m) a = tget 0 m a :=
  List.foldlRecOn xs _ (motive := fun t => tget 0 t a = tget 0 m a) rfl fun t same x hx =>
    (tget_wrList_out t (at' x) a (bs x) (out x hx)).trans same

/-! ## What a course sees while drains run (R151) -/

/-- Two states in which a core's memory, Harp and consorts are alike, and so the free values to come. -/
structure SeesAlike (g : Nat) (s t : State) : Prop where
  cmem : (coreOf t g).cmem = (coreOf s g).cmem
  harp : (coreOf t g).harp = (coreOf s g).harp
  consorts : (coreOf t g).consorts = (coreOf s g).consorts
  member : ∀ i, (courseOf t g i).consort = (courseOf s g i).consort
  free : t.free = s.free

namespace SeesAlike

variable {g : Nat} {s t : State}

theorem base (h : SeesAlike g s t) (slot : Nat) : cmemBase t g slot = cmemBase s g slot := by
  unfold cmemBase consortOf
  rw [h.member, h.consorts]

theorem write (h : SeesAlike g s t) (slot off : Nat) (bs : List Byte) : SeesAlike g (cmemWrite g slot off bs s) (cmemWrite g slot off bs t) := by
  have first := coreOf_cmemWrite g slot off bs s
  have second := coreOf_cmemWrite g slot off bs t
  have free : ∀ u, (cmemWrite g slot off bs u).free = u.free := fun u => logWrite_free _ _ _ _
  refine ⟨?_, ?_, ?_, fun i => ?_, ?_⟩
  · rw [first, second, h.base slot, h.cmem]
  · rw [first, second]; exact h.harp
  · rw [first, second]; exact h.consorts
  · unfold courseOf; rw [first, second]; exact h.member i
  · rw [free, free]; exact h.free

theorem drainRow (h : SeesAlike g s t) (slot : Nat) (d : List Byte) (tile : Tbl Word) (w : Word) (m : Nat) :
    SeesAlike g (drainRow g slot d tile (s, w) m).1 (Machine.drainRow g slot d tile (t, w) m).1 ∧
      (Machine.drainRow g slot d tile (t, w) m).2 = (Machine.drainRow g slot d tile (s, w) m).2 := by
  refine ⟨?_, rfl⟩
  unfold Machine.drainRow
  dsimp only
  split
  · exact (h.write _ _ _).write _ _ _
  · exact h.write _ _ _

theorem drainAll (h : SeesAlike g s t) (slot : Nat) (d : List Byte) :
    SeesAlike g (Machine.drainAll g slot d s).1 (Machine.drainAll g slot d t).1 := by
  unfold Machine.drainAll harpOf
  rw [h.harp]
  dsimp only
  generalize (coreOf s g).harp.tile (nTile d) = tile
  generalize (0 : Word) = w
  generalize List.range (nRows d) = rows
  induction rows generalizing s t w with
  | nil => exact h
  | cons m rows ih =>
    obtain ⟨alike, flags⟩ := h.drainRow slot d tile w m
    simp only [List.foldl_cons]
    have := ih alike (Machine.drainRow g slot d tile (s, w) m).2
    rwa [← flags] at this

theorem otherDrain (h : SeesAlike g s t) (slot : Nat) : otherDrain t g slot = Machine.otherDrain s g slot := by
  unfold Machine.otherDrain drainOf harpOf
  rw [h.harp]
  simp only [h.member]

theorem cmemSeen (h : SeesAlike g s t) (slot : Nat) : cmemSeen t g slot = Machine.cmemSeen s g slot := by
  unfold Machine.cmemSeen
  rw [h.otherDrain]
  split
  · exact h.cmem
  · rw [(h.drainAll _ _).cmem, h.cmem, h.base, h.free]

theorem cmemRead (h : SeesAlike g s t) (slot off n : Nat) : cmemRead t g slot off n = Machine.cmemRead s g slot off n := by
  unfold Machine.cmemRead
  rw [h.cmemSeen, h.base]

end SeesAlike

theorem seesAlike_endRsv (g k : Nat) (s : State) : SeesAlike g s (endRsv g k s) := by
  refine ⟨by rw [coreOf_endRsv], by rw [coreOf_endRsv], by rw [coreOf_endRsv], fun i => ?_, rfl⟩
  by_cases hi : i = k
  · rw [hi, courseOf_endRsv]; rfl
  · rw [courseOf_endRsv_ne hi]

theorem cmemRead_endRsv (g k off n : Nat) (s : State) : cmemRead (endRsv g k s) g k off n = cmemRead s g k off n :=
  (seesAlike_endRsv g k s).cmemRead k off n

/-- A course that has seen memory uses up free values, and changes nothing else. -/
theorem seenTurn_free (g k : Nat) (s : State) : ∃ n, seenTurn g k s = { s with free := n } := by
  unfold seenTurn
  split
  · exact ⟨_, rfl⟩
  · exact ⟨s.free, rfl⟩

/-! ## Ends of loads and stores -/

/-- The answers of an agent's accesses are used up: only what waits for the host has changed. -/
theorem endWaits_xl (w : Waiter) (s : State) : ∃ x, endWaits w s = { s with xl := x } := ⟨_, rfl⟩

theorem finishLoad_eq {g k : Nat} {s : State} (live : (courseOf s g k).live = true) (n : Nat) (b : InstrBits) (vs : List (Nat × List Byte)) :
    finishLoad g k n b vs s = retire g k (writeD (courseOf s g k) b (max 1 (n / 4)) (fun l => ⟨loadedWord b (laneVal [] vs l), 0⟩))
      (endWaits (.course g k) s) := by
  unfold finishLoad
  rw [live]
  rfl

theorem finishStore_eq {g k : Nat} {s : State} (live : (courseOf s g k).live = true) :
    finishStore g k s = retire g k (courseOf s g k) (endReads (.course g k) s) := by
  unfold finishStore
  rw [live]
  rfl

theorem laneVal_map {α β : Type} (d : α) (f : β → α) (lane : β → Nat) {xs : List β} {x : β} (hx : x ∈ xs)
    (only : ∀ y ∈ xs, lane y = lane x → f y = f x) : laneVal d (xs.map (fun y => (lane y, f y))) (lane x) = f x := by
  unfold laneVal
  have found : ((xs.map (fun y => (lane y, f y))).find? (fun e => decide (e.1 = lane x))).isSome := by
    rw [List.find?_isSome]
    exact ⟨(lane x, f x), List.mem_map_of_mem hx, by simp⟩
  obtain ⟨e, he⟩ := Option.isSome_iff_exists.mp found
  obtain ⟨y, hy, rfl⟩ := List.mem_map.mp (List.mem_of_find?_eq_some he)
  have same := List.find?_some he
  rw [he]
  exact only y hy (by simpa using same)

/-- A result without flags raises none. -/
theorem writeD_asw_of_noFlags (c : Course) (b : InstrBits) (n : Nat) (f : Nat → Nat) :
    (writeD c b n (fun l => ⟨f l, 0⟩)).asw = c.asw := by
  refine BitVec.eq_of_getLsbD_eq fun i _ => ?_
  rw [writeD_flags]
  simp

theorem accessBar_endRsv (g k n : Nat) (cmem : Bool) (ls : List (Nat × Nat)) (s : State) :
    accessBar (endRsv g k s) g k n cmem ls = accessBar s g k n cmem ls := by
  unfold accessBar; rw [cmemSize_endRsv]

/-! ## LD and ST (R110) -/

section
variable {g k : Nat} {b : InstrBits} {s : State}

/-- A load of consort memory: each lane's bytes, as the course sees them. -/
theorem exec_ld_cmem (cached : InCache (.ld g k b) s) (issues : MemIssues (dataForm (mBytes b)) true g k b s) (space : mSpace b = 1)
    (free : harpPending s g k = false)
    (bar : accessBar s g k (mBytes b) true (laneAddrs (courseOf s g k) b true (fldOff b)) = none) :
    exec (.ld g k b) s = .next (retire g k (writeD (unreserved (courseOf s g k)) b (max 1 (mBytes b / 4)) (fun l =>
      ⟨loadedWord b (laneVal [] ((laneAddrs (courseOf s g k) b true (fldOff b)).map (fun x => (x.1, cmemRead s g k x.2 (mBytes b)))) l), 0⟩))
      (endWaits (.course g k) (seenTurn g k (endRsv g k s)))) := by
  obtain ⟨on, ready, legal, room⟩ := issues
  have step : exec (.ld g k b) s = whenFetched (wordOf 7 0 b) g k s (.next (loadStep false g k b s)) := rfl
  unfold loadStep at step
  rw [exec_issue on ready cached rfl step (by simp [legal]) room]
  dsimp only
  rw [decide_eq_true space, accessBar_endRsv, bar, harpPending_endRsv, free]
  simp only [Bool.and_false, Bool.false_eq_true, if_false, if_true, cmemRead_endRsv]
  have course : courseOf (seenTurn g k (endRsv g k s)) g k = unreserved (courseOf s g k) := by
    obtain ⟨n, e⟩ := seenTurn_free g k (endRsv g k s)
    rw [e]
    exact courseOf_endRsv g k s
  rw [finishLoad_eq (by rw [course]; exact live_of_ready ready), course]

theorem sameOutside_seenTurn (g k : Nat) (s : State) : SameOutside g s (seenTurn g k s) := by
  obtain ⟨n, e⟩ := seenTurn_free g k s
  rw [e]
  exact sameOutside_iff.mpr ⟨rfl, fun _ _ => rfl, fun _ _ => rfl⟩

theorem coreOf_seenTurn (g k g' : Nat) (s : State) : coreOf (seenTurn g k s) g' = coreOf s g' := by
  obtain ⟨n, e⟩ := seenTurn_free g k s
  rw [e]; rfl

/-- The bytes that a lane of a load receives. -/
theorem laneVal_laneAddrs (c : Course) (off : Int) (f : Nat → List Byte) {l : Nat}
    (runs : if b.du then l = 0 else l < 32 ∧ (lanesOf c b).getLsbD l = true) :
    laneVal [] ((laneAddrs c b true off).map (fun x => (x.1, f x.2))) l = f (laneAddr c b off l) := by
  unfold laneAddrs
  rw [List.map_map]
  refine laneVal_map (β := Nat) [] (fun l => f (laneAddr c b off l)) id ?_ fun y _ same => by rw [show y = l from same]
  cases du : b.du with
  | true => simpa [du] using runs
  | false => simpa [du, laneList] using runs

theorem ld_cmem_computes (cached : InCache (.ld g k b) s) (issues : MemIssues (dataForm (mBytes b)) true g k b s) (space : mSpace b = 1)
    (free : harpPending s g k = false)
    (bar : accessBar s g k (mBytes b) true (laneAddrs (courseOf s g k) b true (fldOff b)) = none) :
    Next (.ld g k b) s (fun t =>
      Computes ⟨g, k, b, sigUn, max 1 (mBytes b / 4),
        fun c l => loadedWord b (cmemRead s g k (laneAddr c b (fldOff b) l) (mBytes b)), noFlags, true⟩
        (courseOf s g k) (courseOf t g k) ∧
      (courseOf t g k).asw = (courseOf s g k).asw ∧ AtNext (courseOf s g k) (courseOf t g k) ∧ SameOutside g s t ∧
      SameCourses g k s t ∧ (coreOf t g).cmem = (coreOf s g).cmem) := by
  refine ⟨_, exec_ld_cmem cached issues space free bar, ?_⟩
  obtain ⟨x, waits⟩ := endWaits_xl (.course g k) (seenTurn g k (endRsv g k s))
  have core : coreOf (endWaits (.course g k) (seenTurn g k (endRsv g k s))) g = coreOf (endRsv g k s) g := coreOf_seenTurn g k g _
  rw [courseOf_retire]
  refine ⟨computes_writeD rfl rfl rfl rfl fun l runs => ?_, ?_, ?_, ?_, ?_, ?_⟩
  · exact congrArg (loadedWord b) (laneVal_laneAddrs (b := b) _ _ (fun a => cmemRead s g k a (mBytes b)) runs)
  · rw [advance_asw, writeD_asw_of_noFlags]; rfl
  · obtain ⟨_, _, _, changed⟩ := writeD_changes (unreserved (courseOf s g k)) b (max 1 (mBytes b / 4)) (fun l =>
      ⟨loadedWord b (laneVal [] ((laneAddrs (courseOf s g k) b true (fldOff b)).map (fun x => (x.1, cmemRead s g k x.2 (mBytes b)))) l), 0⟩)
    exact advance_atNext (by rw [changed]; rfl) (by rw [changed]; rfl) (by rw [changed]; rfl)
  · refine (sameOutside_endRsv g k s).trans ((sameOutside_seenTurn g k _).trans (.trans ?_ (sameOutside_retire _ _ _ _)))
    rw [waits]
    exact sameOutside_xl g _ _
  · exact (sameCourses_endRsv g k s).trans ((sameCourses_of_core core).trans (sameCourses_retire _ _ _ _))
  · rw [coreOf_retire]
    exact (congrArg Core.cmem core).trans (by rw [coreOf_endRsv])

/-- A store to consort memory: each lane's bytes in ascending order. -/
theorem exec_st_cmem (cached : InCache (.st g k b) s) (issues : MemIssues (dataForm (mBytes b)) false g k b s) (space : mSpace b = 1)
    (free : harpPending s g k = false)
    (bar : accessBar s g k (mBytes b) true (laneAddrs (courseOf s g k) b false (fldOff b)) = none) :
    exec (.st g k b) s = .next (finishStore g k ((laneAddrs (courseOf s g k) b false (fldOff b)).foldl (fun s' x =>
      cmemWrite g k x.2 (laneData (courseOf s g k) b.du (fldD b) (mBytes b) x.1) s') (endRsv g k s))) := by
  obtain ⟨on, ready, legal, room⟩ := issues
  rw [exec_issue on ready cached rfl rfl legal room]
  dsimp only
  rw [decide_eq_true space, accessBar_endRsv, bar, harpPending_endRsv, free]
  rfl

theorem st_cmem_stores (cached : InCache (.st g k b) s) (issues : MemIssues (dataForm (mBytes b)) false g k b s) (space : mSpace b = 1)
    (free : harpPending s g k = false)
    (bar : accessBar s g k (mBytes b) true (laneAddrs (courseOf s g k) b false (fldOff b)) = none) :
    Next (.st g k b) s (fun t =>
      let c := courseOf s g k
      let ls := laneAddrs c b false (fldOff b)
      (coreOf t g).cmem = ls.foldl (fun m x => wrList m (cmemBase s g k + x.2) (laneData c b.du (fldD b) (mBytes b) x.1)) (coreOf s g).cmem ∧
      (∀ a, (∀ x ∈ ls, a < cmemBase s g k + x.2 ∨ cmemBase s g k + x.2 + mBytes b ≤ a) →
        tget 0 (coreOf t g).cmem a = tget 0 (coreOf s g).cmem a) ∧
      SameRegisters c (courseOf t g k) ∧ AtNext c (courseOf t g k) ∧ SameOutside g s t ∧ SameCourses g k s t) := by
  refine ⟨_, exec_st_cmem cached issues space free bar, ?_⟩
  obtain ⟨core, outside⟩ := foldl_cmemWrite g k (fun x : Nat × Nat => x.2)
    (fun x => laneData (courseOf s g k) b.du (fldD b) (mBytes b) x.1) (laneAddrs (courseOf s g k) b false (fldOff b)) (endRsv g k s)
  generalize (laneAddrs (courseOf s g k) b false (fldOff b)).foldl (fun s' x =>
    cmemWrite g k x.2 (laneData (courseOf s g k) b.du (fldD b) (mBytes b) x.1) s') (endRsv g k s) = u at core outside ⊢
  rw [cmemBase_endRsv, coreOf_endRsv] at core
  have course : courseOf u g k = unreserved (courseOf s g k) := by
    unfold courseOf; rw [core]; exact tget_tset_self _ _ _ _
  have waits : coreOf (endReads (.course g k) u) g = coreOf u g := rfl
  rw [finishStore_eq (by rw [course]; exact live_of_ready issues.2.1), course]
  dsimp only
  rw [courseOf_retire, coreOf_retire, waits, core]
  refine ⟨rfl, fun a out => tget_foldl_wrList_out _ _ _ _ fun x hx => ?_, ?_, ?_, ?_, ?_⟩
  · rw [laneData, leBytes_length]; exact out x hx
  · exact .trans ⟨rfl, rfl, rfl, rfl⟩ (sameRegisters_advance _)
  · exact advance_atNext rfl rfl rfl
  · exact (sameOutside_endRsv g k s).trans (outside.trans ((sameOutside_xl g u _).trans (sameOutside_retire _ _ _ _)))
  · refine .trans ⟨fun i hi => ?_, ?_⟩ (sameCourses_retire _ _ _ _)
    · have others : courseOf (endReads (.course g k) u) g i = courseOf u g i := rfl
      rw [others]
      unfold courseOf
      rw [core]
      exact tget_tset_ne _ hi _
    · rw [waits, core]; exact ⟨rfl, rfl, rfl, rfl, rfl⟩

end

/-- Settles O12: a load of consort memory computes on what the course sees, a store writes its lanes' bytes alone. -/
theorem consortMemoryLoadsAndStores : Obligations.ConsortMemoryLoadsAndStores := by
  unfold Obligations.ConsortMemoryLoadsAndStores
  exact ⟨fun _ _ _ _ => ld_cmem_computes, fun _ _ _ _ => st_cmem_stores⟩

end Sys2Proof.Machine
end

