-- ==== Sys2Proof/Proofs/GlobalMemory.lean ====
section
/-!
CERTIFICATE. GLOBAL accesses of a core (R110 to R114), its prefetches, and the reads of its instruction cache (R78, R104).
-/
namespace Sys2Proof.Machine

/-! ## Loads (R111, R113) -/

section
variable {vol : Bool} {g k : Nat} {b : InstrBits} {s s1 s2 s3 : State} {ls : List (Nat × Nat)} {ts : List (Nat × Nat × Target)}
  {x1 : List (Nat × Unit)}

theorem loadGlobal_done {n : Nat} {vs : List (Nat × List Byte)} (closed : (courseOf s1 g k).pour = .closed)
    (targets : laneTargets (courseAccess s g k) false ls s = (s1, .ok ts))
    (plain : ∀ x ∈ ts, isClaim vol n (ctrlOf g x.2.2) = false)
    (checks : eachLane (fun x s' => loadCheck g k (mHint b) vol (courseAccess s g k) x.2.2 x.2.1 n s') ts s1 = (s2, .ok x1))
    (loads : eachLane (fun x s' => loadTarget g k (mHint b) vol (courseAccess s g k) x.2.2 x.2.1 n s') ts s2 = (s3, .ok vs)) :
    loadGlobal vol g k n b ls s = finishLoad g k n b vs s3 := by
  have all : ts.filter (fun x => !isClaim vol n (ctrlOf g x.2.2)) = ts := List.filter_eq_self.mpr fun x hx => by simp [plain x hx]
  have none : ts.filter (fun x => isClaim vol n (ctrlOf g x.2.2)) = [] := List.filter_eq_nil_iff.mpr fun x hx => by simp [plain x hx]
  unfold loadGlobal
  simp only [targets, closed, all, none, checks, loads, reduceCtorEq, if_false]
  exact congrArg (fun vs => finishLoad g k n b vs s3) (List.append_nil vs)

/-- A load of a legal word goes to its targets. -/
theorem loadStep_global (issues : MemIssues (dataForm (mBytes b)) true g k b s) (space : mSpace b = 0)
    (bar : accessBar s g k (mBytes b) false (laneAddrs (courseOf s g k) b true (fldOff b)) = none) :
    loadStep vol g k b s = loadGlobal vol g k (mBytes b) b (laneAddrs (courseOf s g k) b true (fldOff b)) (endRsv g k s) := by
  obtain ⟨-, ready, legal, room⟩ := issues
  unfold loadStep
  rw [issue_eq _ _ _ _ _ _ ready (by simp [legal, space]) room]
  dsimp only
  rw [decide_eq_false (by rw [space]; decide), accessBar_endRsv, bar]
  rfl

/-- LD and LD.V perform a load; LD.V counts one that is done. -/
theorem exec_load (on : s.powered = true) (ready : courseReady s g k = true)
    (cached : InCache (if vol then .ldV g k b else .ld g k b) s) : ∃ t, exec (if vol then .ldV g k b else .ld g k b) s = .next t ∧
      Counted (loadStep vol g k b s) t := by
  cases vol with
  | false =>
    exact ⟨_, (show exec (.ld g k b) s = whenFetched (wordOf 7 0 b) g k s (.next (loadStep false g k b s)) from rfl).trans
      (whenFetched_cached on ready _ (cached.fetched rfl)), .refl _⟩
  | true =>
    refine ⟨_, (show exec (.ldV g k b) s = whenFetched (wordOf 7 2 b) g k s (.next (if (courseOf (loadStep true g k b s) g k).pc ≠ (courseOf s g k).pc
      then countCore g 0x0D 1 (loadStep true g k b s) else loadStep true g k b s)) from rfl).trans
      (whenFetched_cached on ready _ (cached.fetched rfl)), ?_⟩
    split
    · exact counted_countCore _ _ _ _
    · exact .refl _

theorem load_answers {vs : List (Nat × List Byte)} (cached : InCache (if vol then .ldV g k b else .ld g k b) s)
    (issues : MemIssues (dataForm (mBytes b)) true g k b s) (space : mSpace b = 0)
    (bar : accessBar s g k (mBytes b) false (laneAddrs (courseOf s g k) b true (fldOff b)) = none)
    (closed : (courseOf s1 g k).pour = .closed)
    (targets : laneTargets (courseAccess (endRsv g k s) g k) false (laneAddrs (courseOf s g k) b true (fldOff b)) (endRsv g k s) = (s1, .ok ts))
    (plain : ∀ x ∈ ts, isClaim vol (mBytes b) (ctrlOf g x.2.2) = false)
    (checks : eachLane (fun x s' => loadCheck g k (mHint b) vol (courseAccess (endRsv g k s) g k) x.2.2 x.2.1 (mBytes b) s') ts s1 = (s2, .ok x1))
    (loads : eachLane (fun x s' => loadTarget g k (mHint b) vol (courseAccess (endRsv g k s) g k) x.2.2 x.2.1 (mBytes b) s') ts s2 = (s3, .ok vs))
    (live : (courseOf s3 g k).live = true) :
    Next (if vol then .ldV g k b else .ld g k b) s (fun t =>
      courseOf t g k = advance (writeD (courseOf s3 g k) b (max 1 (mBytes b / 4)) (fun l => ⟨loadedWord b (laneVal [] vs l), 0⟩)) ∧
      t.mm = s3.mm) := by
  obtain ⟨t, run, counted⟩ := exec_load issues.1 issues.2.1 cached
  rw [loadStep_global issues space bar, loadGlobal_done closed targets plain checks loads, finishLoad_eq live] at counted
  refine ⟨t, run, (counted.courseOf g k).trans (courseOf_retire _ _ _ _), counted.mm.trans ?_⟩
  exact (counted_countCore _ _ _ _).mm

end

/-! ## Translations that are there (R340) -/

/-- Where an answer has an address, no core has changed. -/
def FoundQuietly (s : State) (r : State × Got Nat) : Prop := ∀ ta, r.2 = .ok ta → r.1.cores = s.cores

theorem FoundQuietly.waits {s : State} {o : Option State} {u : State} :
    FoundQuietly s (match o with | some t => (t, .wait) | none => (u, .wait)) := by
  intro ta h
  cases o <;> cases h

/-- A translation that is found changes no core: only one that waits notes its course's page. -/
theorem foundQuietly_translate (a : Acc2) (va : Nat) (wr : Bool) (s : State) : FoundQuietly s (translate a va wr s) := by
  unfold translate
  extract_lets good fromCru
  have crucible : ∀ t, FoundQuietly t (fromCru t) := by
    intro t
    dsimp only [fromCru]
    split
    · split
      · intro ta _
        cases a.cl <;> rfl
      · exact .waits
    · exact .waits
  split
  · exact crucible s
  · split
    · split
      · exact fun _ _ => rfl
      · exact crucible s
    · exact fun ta h => (crucible _ ta h).trans (counted_countUnit _ _ _ _ _).cores

theorem cores_translate {a : Acc2} {va ta : Nat} {wr : Bool} {s t : State} (h : translate a va wr s = (t, .ok ta)) : t.cores = s.cores := by
  have found := foundQuietly_translate a va wr s ta
  rw [h] at found
  exact found rfl

theorem cores_laneTargets {a : Acc2} {wr : Bool} (ls : List (Nat × Nat)) {s t : State} {ts : List (Nat × Nat × Target)}
    (h : laneTargets a wr ls s = (t, .ok ts)) : t.cores = s.cores := by
  induction ls generalizing s ts with
  | nil => exact (congrArg (fun r : State × Got _ => r.1.cores) h).symm
  | cons x ls ih =>
    rw [laneTargets] at h
    split at h
    next => cases h
    next => cases h
    next found =>
      split at h
      next rest =>
        cases h
        exact (ih rest).trans (cores_translate found)
      next r other => exact absurd h (other _ _)

/-! ## Stores (R114, R297) -/

section
variable {g k : Nat} {b : InstrBits} {s s1 s2 : State} {ls : List (Nat × Nat)} {ts : List (Nat × Nat × Target)} {x1 : List (Nat × Unit)}

theorem storeGlobal_done {n : Nat} (closed : (courseOf s1 g k).pour = .closed)
    (targets : laneTargets (courseAccess s g k) true ls s = (s1, .ok ts))
    (checks : eachLane (fun x s' => storeCheck g k (courseAccess s g k) x.2.2 x.2.1 s') ts s1 = (s2, .ok x1)) :
    storeGlobal g k n b ls s = finishStore g k (asCourse g k (fun s' => ts.foldl (fun s' x =>
      storeTarget g k (mHint b) (courseAccess s g k) x.2.2 x.2.1 (laneData (courseOf s1 g k) b.du (fldD b) n x.1) s') s') s2) := by
  rw [courseOf_congr (cores_laneTargets ls targets) g k]
  unfold storeGlobal
  simp only [targets, closed, checks, reduceCtorEq, if_false]

theorem exec_st_global (cached : InCache (.st g k b) s) (issues : MemIssues (dataForm (mBytes b)) false g k b s) (space : mSpace b = 0)
    (bar : accessBar s g k (mBytes b) false (laneAddrs (courseOf s g k) b false (fldOff b)) = none) :
    exec (.st g k b) s = .next (storeGlobal g k (mBytes b) b (laneAddrs (courseOf s g k) b false (fldOff b)) (endRsv g k s)) := by
  obtain ⟨on, ready, legal, room⟩ := issues
  rw [exec_issue on ready cached rfl rfl legal room]
  dsimp only
  rw [decide_eq_false (by rw [space]; decide), accessBar_endRsv, bar]
  rfl

/-- A store that is done: the course goes on, its reservations ended, and nothing of memory has changed since. -/
theorem finishStore_done {u : State} (live : (courseOf u g k).live = true) :
    courseOf (finishStore g k u) g k = advance (courseOf u g k) ∧ (finishStore g k u).mm = u.mm := by
  rw [finishStore_eq live]
  exact ⟨courseOf_retire _ _ _ _, (counted_countCore _ _ _ _).mm⟩

end

/-! ## Prefetches (R112, R114) -/

/-- The lines of a PREF, each brought in, dropped, or still out. -/
def prefLines (g k : Nat) (b : InstrBits) (ls : List (Nat × Nat)) (s : State) : State × Bool :=
  ls.foldl (fun (r : State × Bool) x => ((prefLine g k (mHint b) x.2 r.1).1, r.2 && (prefLine g k (mHint b) x.2 r.1).2)) (s, true)

/-- A PREF whose lines have come or been dropped goes on; its pages are asked for anew the next time. -/
def prefDone (g k : Nat) (r : State × Bool) : State :=
  if r.2 then finishStore g k (setCourse r.1 g k { courseOf r.1 g k with denied := [] }) else r.1

/-- The lanes' addresses that a PREF brings in: none of consort memory, and none where one is misaligned. -/
def prefAddrs (c : Course) (b : InstrBits) : List (Nat × Nat) :=
  let ls := if mSpace b = 0 then laneAddrs c b false (fldOff b) else []
  if (misaligned (mBytes b) ls).isSome then [] else ls

section
variable {g k : Nat} {b : InstrBits} {s : State} (cached : InCache (.pref g k b) s) (issues : MemIssues .unused false g k b s)
include cached issues

theorem exec_pref : exec (.pref g k b) s = .next (prefDone g k (prefLines g k b (prefAddrs (courseOf s g k) b) (endRsv g k s))) := by
  obtain ⟨on, ready, legal, room⟩ := issues
  exact exec_issue on ready cached rfl rfl legal room

/-- One with nothing to bring in goes on. -/
theorem pref_nothing (none : prefAddrs (courseOf s g k) b = []) : Next (.pref g k b) s (fun t =>
    GoesOn g k { unreserved (courseOf s g k) with denied := [] } s t) := by
  refine ⟨_, exec_pref cached issues, ?_⟩
  rw [none]
  show GoesOn g k _ s (finishStore g k (setCourse (endRsv g k s) g k { courseOf (endRsv g k s) g k with denied := [] }))
  have course := courseOf_setCourse_self (endRsv g k s) g k { courseOf (endRsv g k s) g k with denied := [] }
  rw [courseOf_endRsv] at course
  rw [courseOf_endRsv, finishStore_eq (by rw [course]; exact live_of_ready issues.2.1), course]
  have waits : ∀ u, SameOutside g u (endReads (.course g k) u) ∧ SameCourses g k u (endReads (.course g k) u) := fun u =>
    ⟨sameOutside_xl g u _, sameCourses_of_core rfl⟩
  refine ⟨courseOf_retire _ _ _ _, ?_, ?_, ?_⟩
  · exact (sameCourses_endRsv _ _ _).trans ((sameCourses_setCourse _ _ _ _).trans ((waits _).2.trans (sameCourses_retire _ _ _ _)))
  · have core : ∀ u, coreOf (endReads (.course g k) u) g = coreOf u g := fun _ => rfl
    rw [coreOf_retire, core, coreOf_setCourse_self, coreOf_endRsv]
  · exact (sameOutside_endRsv _ _ _).trans ((sameOutside_setCourse _ _ _ _).trans ((waits _).1.trans (sameOutside_retire _ _ _ _)))

end

theorem prefAddrs_none {c : Course} {b : InstrBits}
    (h : mSpace b = 1 ∨ ∃ va, misaligned (mBytes b) (laneAddrs c b false (fldOff b)) = some va) : prefAddrs c b = [] := by
  unfold prefAddrs
  by_cases space : mSpace b = 0
  · obtain ⟨va, e⟩ := h.resolve_left (by rw [space]; decide)
    simp [space, e]
  · simp [space]

theorem prefAddrs_all {c : Course} {b : InstrBits} (space : mSpace b = 0)
    (aligned : misaligned (mBytes b) (laneAddrs c b false (fldOff b)) = none) : prefAddrs c b = laneAddrs c b false (fldOff b) := by
  simp [prefAddrs, space, aligned]

theorem prefDone_stays {g k : Nat} {r : State × Bool} (out : r.2 = false) : prefDone g k r = r.1 := by simp [prefDone, out]

theorem prefDone_goes {g k : Nat} {r : State × Bool} (brought : r.2 = true) (live : (courseOf r.1 g k).live = true) :
    courseOf (prefDone g k r) g k = advance { courseOf r.1 g k with denied := [] } ∧ (prefDone g k r).mm = r.1.mm := by
  have course := courseOf_setCourse_self r.1 g k { courseOf r.1 g k with denied := [] }
  have done := finishStore_done (g := g) (k := k) (u := setCourse r.1 g k { courseOf r.1 g k with denied := [] }) (by rw [course]; exact live)
  rw [course] at done
  rw [prefDone, if_pos brought]
  exact done

/-! ## The instruction cache (R78, R100, R104) -/

theorem mem_addWord (t : Tbl (List Nat)) (a w : Nat) : w ∈ tget [] (addWord t a w) a := by
  unfold addWord
  split
  next h => exact List.contains_iff_mem.mp h
  next => rw [tget_tset_self]; exact List.mem_append_right _ List.mem_cons_self

theorem addWord_keeps {t : Tbl (List Nat)} {a' v : Nat} (a w : Nat) (h : v ∈ tget [] t a') : v ∈ tget [] (addWord t a w) a' := by
  unfold addWord
  split
  · exact h
  · rw [tget_tset]
    split
    next same => rw [same] at h; exact List.mem_append_left _ h
    next => exact h

/-- Words that are read one by one may all be delivered. -/
theorem mem_foldl_addWord (at' word : Nat → Nat) (is : List Nat) (t : Tbl (List Nat)) {i : Nat} (hi : i ∈ is) :
    word i ∈ tget [] (is.foldl (fun t i => addWord t (at' i) (word i)) t) (at' i) := by
  induction is generalizing t with
  | nil => cases hi
  | cons x is ih =>
    rw [List.foldl_cons]
    rcases List.mem_cons.mp hi with rfl | hi
    · exact List.foldlRecOn is _ (motive := fun t => word i ∈ tget [] t (at' i)) (mem_addWord _ _ _) fun t h j _ => addWord_keeps _ _ h
    · exact ih _ hi

theorem courseOf_fillInstr (g base k : Nat) (bs : List Byte) (s : State) : courseOf (fillInstr g base bs s) g k = courseOf s g k := by
  rw [fillInstr]
  generalize List.foldl _ _ _ = words
  exact courseOf_setCore_same (c := { coreOf s g with icache := words }) rfl g k

theorem mm_fillInstr (g base : Nat) (bs : List Byte) (s : State) : (fillInstr g base bs s).mm = s.mm := by
  rw [fillInstr]
  generalize List.foldl _ _ _ = words
  rfl

/-- A line's words may all be delivered once it is in. -/
theorem mem_icache_fillInstr (g base : Nat) (bs : List Byte) (s : State) {n : Nat} (hn : n < 16) :
    fieldOf bs (8 * n) 8 ∈ tget [] (coreOf (fillInstr g base bs s) g).icache (base + 8 * n) := by
  have among := List.mem_range.mpr hn
  rw [fillInstr, coreOf_setCore, if_pos rfl]
  generalize List.range 16 = words at among ⊢
  exact mem_foldl_addWord (fun i => base + 8 * i) (fun i => fieldOf bs (8 * i) 8) _ _ among

theorem fetch_fills {g k : Nat} {s s1 : State} {bs : List Byte}
    (read : readAtVa (courseAccess s g k) (fetchAt s g k / 128 * 128) 128 none s = (s1, .ok bs)) :
    fetch g k s = fillInstr g (fetchAt s g k / 128 * 128) bs (endWaits (.course g k) s1) := by
  unfold fetch
  simp only [read]

/-- A line that is read enters the instruction cache. -/
theorem fetch_done {g k : Nat} {s s1 : State} {bs : List Byte}
    (read : readAtVa (courseAccess s g k) (fetchAt s g k / 128 * 128) 128 none s = (s1, .ok bs)) :
    (fetch g k s).mm = s1.mm ∧ courseOf (fetch g k s) g k = courseOf s1 g k ∧
      ∀ n, n < 16 → fieldOf bs (8 * n) 8 ∈ tget [] (coreOf (fetch g k s) g).icache (fetchAt s g k / 128 * 128 + 8 * n) := by
  have filled := fetch_fills read
  generalize fetchAt s g k / 128 * 128 = base at filled
  rw [filled]
  exact ⟨mm_fillInstr g base bs (endWaits (.course g k) s1), courseOf_fillInstr g base k bs (endWaits (.course g k) s1),
    fun n hn => mem_icache_fillInstr g base bs (endWaits (.course g k) s1) hn⟩

/-- Settles O13: loads, stores and prefetches come to what their lanes' targets answer; a missing instruction line is read. -/
theorem globalLoadsAndStores : Obligations.GlobalLoadsAndStores := by
  unfold Obligations.GlobalLoadsAndStores
  refine ⟨?_, ?_, ?_, ?_⟩
  · intro vol g k b s s1 s2 s3 ts x1 vs
    exact load_answers
  · intro g k b s s1 s2 ts x1 cached issues space bar closed
    dsimp only
    intro targets checks live
    refine ⟨_, exec_st_global cached issues space bar, ?_⟩
    rw [storeGlobal_done closed targets checks]
    exact finishStore_done live
  · intro g k b s cached issues
    refine ⟨fun drops => pref_nothing cached issues (prefAddrs_none drops), fun space aligned => ?_⟩
    have run := exec_pref cached issues
    rw [prefAddrs_all space aligned] at run
    exact ⟨fun out => run.trans (congrArg Host.Outcome.next (prefDone_stays out)),
      fun brought live => ⟨_, run, prefDone_goes brought live⟩⟩
  · intro g k w i s code ready missing
    obtain ⟨o, run⟩ := exec_codeOf code s
    rw [whenFetched_missing ready.1 ready.2 o missing] at run
    refine ⟨fun reserved => ⟨_, run, ?_⟩, fun known s1 bs read => ⟨_, run, ?_⟩⟩
    · rw [if_pos reserved]
      exact castingEnds_failCourse ready.2 _
    · rw [if_neg (by simp [known])]
      exact fetch_done read

end Sys2Proof.Machine
end

