-- ==== Sys2Proof/Proofs/LongInstructions.lean ====
section
/-!
CERTIFICATE. Long instructions (R123, R124): what their issue leaves in the course, in its progress block, and in the Harp (R127).
-/
namespace Sys2Proof.Machine

/-! ## Descriptors -/

/-- A descriptor that passes its check asks for a unit at least. -/
theorem units_pos {i : Instr} {kd : LongKind} {g k : Nat} {b : InstrBits} {d : List Byte} (long : longOf i = some (kd, g, k, b))
    (ok : kd.ok d = true) : 0 < kd.units d := by
  cases i <;> cases long
  case hseq =>
    have ok : hseqOk d = true := ok
    exact Nat.pos_of_ne_zero fun (none : hBlocks d = 0) => by simp [hseqOk, none] at ok
  case tmov =>
    have ok : tmovOk d = true := ok
    simp only [tmovOk, Bool.and_eq_true, decide_eq_true_eq] at ok
    obtain ⟨⟨⟨_, extents⟩, _⟩, _⟩ := ok
    have pos : ∀ n < 4, 0 < tExt d n := fun n hn => by
      have one := List.all_eq_true.mp extents n (List.mem_range.mpr hn)
      simp only [Bool.and_eq_true, decide_eq_true_eq] at one
      exact one.1
    exact Nat.mul_pos (Nat.mul_pos (pos 1 (by decide)) (pos 2 (by decide))) (pos 3 (by decide))
  case rseq =>
    have ok : rseqOk d = true := ok
    exact Nat.pos_of_ne_zero fun (none : fieldOf d 16 4 = 0) => by simp [rseqOk, none] at ok

/-- A tile with a region cleared. -/
theorem tget_clearRegion (rows cols : Nat) (t : Tbl Word) (a : Nat) :
    tget 0 (clearRegion rows cols t) a = if a / 128 < rows ∧ a % 128 < cols then 0 else tget 0 t a := by
  unfold clearRegion
  induction t with
  | nil => simp
  | cons e t ih =>
    obtain ⟨x, w⟩ := e
    rw [List.filter_cons]
    by_cases inside : x / 128 < rows ∧ x % 128 < cols
    · rw [if_neg (by simp [inside]), ih]
      by_cases same : x = a
      · rw [← same, if_pos inside, if_pos inside]
      · simp [tget, same]
    · rw [if_pos (by simpa using not_and_or.mp inside)]
      by_cases same : x = a
      · subst same
        rw [if_neg inside]
        simp [tget]
      · rw [tget, if_neg same, ih, tget, if_neg same]

/-! ## Progress blocks -/

theorem ureg_congr {c c' : Course} (h : c'.u = c.u) (r : Nat) : ureg c' r = ureg c r := by unfold ureg; rw [h]

theorem setProgress_changes (c : Course) (p pos phase cause stops : Nat) :
    (setProgress c p pos phase cause stops).pc = c.pc ∧ (setProgress c p pos phase cause stops).v = c.v := ⟨rfl, rfl⟩

theorem ureg_setProgress (c : Course) (p pos phase cause stops r : Nat) : ureg (setProgress c p pos phase cause stops) r =
    if r = p + 3 then phaseWord phase cause stops else if r = p + 2 then 0 else if r = p + 1 then 0
    else if r = p then BitVec.ofNat 32 pos else ureg c r := by
  simp only [setProgress, ureg_setU]
  rfl

/-! ## The course that begins -/

/-- A core of which only courses and the Harp may have changed, with memory as it was. -/
def MemoryAlike (g : Nat) (s t : State) : Prop := t.mm = s.mm ∧ (coreOf t g).cmem = (coreOf s g).cmem

theorem MemoryAlike.refl (g : Nat) (s : State) : MemoryAlike g s s := ⟨rfl, rfl⟩
theorem MemoryAlike.trans {g : Nat} {s t u : State} (h : MemoryAlike g s t) (h' : MemoryAlike g t u) : MemoryAlike g s u :=
  ⟨h'.1.trans h.1, h'.2.trans h.2⟩

theorem memoryAlike_setCourse (s : State) (g k : Nat) (c : Course) : MemoryAlike g s (setCourse s g k c) :=
  ⟨rfl, by rw [coreOf_setCourse_self]⟩

theorem memoryAlike_setHarp (g : Nat) (h : Harp) (s : State) : MemoryAlike g s (setHarp g h s) :=
  ⟨rfl, by rw [setHarp, coreOf_setCore, if_pos rfl]⟩

theorem harpOf_setHarp (g : Nat) (h : Harp) (s : State) : harpOf (setHarp g h s) g = h := by
  rw [harpOf, setHarp, coreOf_setCore, if_pos rfl]

theorem courseOf_setHarp (g k : Nat) (h : Harp) (s : State) : courseOf (setHarp g h s) g k = courseOf s g k :=
  courseOf_setCore_same (c := { coreOf s g with harp := h }) rfl g k

theorem harpOf_setCourse (s : State) (g k : Nat) (c : Course) : harpOf (setCourse s g k c) g = harpOf s g := by
  rw [harpOf, coreOf_setCourse_self]; rfl

theorem openRace_race (s : State) : ∃ r, (openRace s).1 = { s with race := r } := by
  unfold openRace
  split <;> exact ⟨_, rfl⟩

theorem longOpen_cases (kd : LongKind) (g k : Nat) (fresh : Bool) (d : List Byte) (s : State) : longOpen kd g k fresh d s = s ∨
    ∃ c r o, longOpen kd g k fresh d s = setCourse { setCourse s g k c with race := r } g k { courseOf s g k with opened := o } := by
  unfold longOpen
  split
  · exact .inl rfl
  · obtain ⟨r, opened⟩ := openRace_race (setCourse s g k { courseOf s g k with opened := none })
    refine .inr ⟨{ courseOf s g k with opened := none }, r,
      some ⟨(openRace (setCourse s g k { courseOf s g k with opened := none })).2, d, decide (kd.kind = 1) && tmovOverlap d⟩, ?_⟩
    dsimp only
    rw [opened]
    have course : courseOf { setCourse s g k { courseOf s g k with opened := none } with race := r } g k =
        { courseOf s g k with opened := none } := courseOf_setCourse_self s g k _
    rw [course]

/-- R125: what is noted at the first issue of a long instruction stands in its course. -/
theorem longOpen_notes (kd : LongKind) (g k : Nat) (fresh : Bool) (d : List Byte) (s : State) :
    (∃ o, courseOf (longOpen kd g k fresh d s) g k = { courseOf s g k with opened := o }) ∧
      MemoryAlike g s (longOpen kd g k fresh d s) ∧ harpOf (longOpen kd g k fresh d s) g = harpOf s g := by
  obtain same | ⟨c, r, o, notes⟩ := longOpen_cases kd g k fresh d s
  · rw [same]
    exact ⟨⟨_, rfl⟩, .refl g s, rfl⟩
  · have alike : MemoryAlike g s { setCourse s g k c with race := r } := memoryAlike_setCourse s g k c
    have harp : harpOf { setCourse s g k c with race := r } g = harpOf s g := harpOf_setCourse s g k c
    rw [notes]
    exact ⟨⟨o, courseOf_setCourse_self _ _ _ _⟩, alike.trans (memoryAlike_setCourse _ _ _ _), (harpOf_setCourse _ _ _ _).trans harp⟩

/-- The Harp of an HSEQ that has just begun. -/
def hseqHarp (k tile : Nat) (h : Harp) : Harp := { h.setSt tile (.accumulating k) with kstep := 0, blk := [], nan := [] }

/-- R127: an HSEQ takes its tile and HARP_STAT. -/
theorem hseqRuns_on (g k tile : Nat) (s : State) : MemoryAlike g s (hseqRuns g k tile true s) ∧
    courseOf (hseqRuns g k tile true s) g k = courseOf s g k ∧ isOn (hseqRuns g k tile true s) (hseqBusy g) = true ∧
    harpOf (hseqRuns g k tile true s) g = hseqHarp k tile (harpOf s g) := by
  have runs : hseqRuns g k tile true s =
      setB (setB (setHarp g (hseqHarp k tile (harpOf s g)) s) (hseqBusy g) true) (hseqTile g) (true && decide (tile = 1)) := rfl
  rw [runs]
  generalize hseqHarp k tile (harpOf s g) = h
  have cores : ∀ u f o, (setB u f o).cores = u.cores := fun _ _ _ => rfl
  have same : ∀ u f o f' o', coreOf (setB (setB u f o) f' o') g = coreOf u g := fun u f o f' o' =>
    coreOf_congr ((cores _ _ _).trans (cores _ _ _)) g
  obtain ⟨mm, cmem⟩ := memoryAlike_setHarp g h s
  refine ⟨⟨mm, by rw [same]; exact cmem⟩, ?_, ?_, by rw [harpOf, same]; exact harpOf_setHarp g h s⟩
  · rw [courseOf, same]; exact courseOf_setHarp g k h s
  rw [isOn_eq_true, setB, getF_setF_ne _ _ (by simp [FRef.key, hseqBusy, hseqTile]), setB, getF_setF_self]
  simp [hseqBusy, b2n]

theorem st_hseqHarp (k tile : Nat) (h : Harp) : (hseqHarp k tile h).st tile = .accumulating k := by
  unfold hseqHarp Harp.setSt Harp.st
  split <;> rfl

theorem tile_hseqHarp (k tile i : Nat) (h : Harp) : (hseqHarp k tile h).tile i = h.tile i := by
  unfold hseqHarp Harp.setSt
  split <;> rfl

theorem tile_setTile (h : Harp) (tile : Nat) (x : Tbl Word) : (h.setTile tile x).tile tile = x := by
  unfold Harp.setTile Harp.tile
  split <;> rfl

theorem st_setTile (h : Harp) (tile i : Nat) (x : Tbl Word) : (h.setTile tile x).st i = h.st i := by
  unfold Harp.setTile
  split <;> rfl

/-- R127: ZERO_FIRST clears the active cells of the HSEQ's tile. -/
def zeroFirst (g : Nat) (d : List Byte) (s : State) : State :=
  setHarp g ((harpOf s g).setTile (hTile d) (clearRegion (hExt d 0) (hExt d 1) ((harpOf s g).tile (hTile d)))) s

/-- A long instruction is in progress: its course, and for an HSEQ its Harp. -/
def longBegun (kd : LongKind) (g k : Nat) (fresh : Bool) (d : List Byte) (l : LongRun) (c : Course) (s : State) : State :=
  let s := setCourse s g k { c with long := some l }
  let s := if kd.kind = 0 then hseqRuns g k (hTile d) true s else s
  if kd.kind = 0 ∧ fresh ∧ hFlag d 1 then zeroFirst g d s else s

theorem longBegun_course (kd : LongKind) (g k : Nat) (fresh : Bool) (d : List Byte) (l : LongRun) (c : Course) (s : State) :
    courseOf (longBegun kd g k fresh d l c s) g k = { c with long := some l } ∧ MemoryAlike g s (longBegun kd g k fresh d l c s) := by
  unfold longBegun zeroFirst
  extract_lets noted runs
  have first : courseOf noted g k = { c with long := some l } := courseOf_setCourse_self _ _ _ _
  have alike : MemoryAlike g s noted := memoryAlike_setCourse _ _ _ _
  have second : courseOf runs g k = courseOf noted g k ∧ MemoryAlike g noted runs := by
    dsimp only [runs]
    split
    · obtain ⟨mem, course, -, -⟩ := hseqRuns_on g k (hTile d) noted
      exact ⟨course, mem⟩
    · exact ⟨rfl, .refl _ _⟩
  split
  · exact ⟨(courseOf_setHarp _ _ _ _).trans (second.1.trans first), alike.trans (second.2.trans (memoryAlike_setHarp _ _ _))⟩
  · exact ⟨second.1.trans first, alike.trans second.2⟩

/-- The Harp of an HSEQ that begins anew. -/
theorem longBegun_harp {kd : LongKind} (hseq : kd.kind = 0) (g k : Nat) (d : List Byte) (l : LongRun) (c : Course) (s : State) :
    isOn (longBegun kd g k true d l c s) (hseqBusy g) = true ∧
    (harpOf (longBegun kd g k true d l c s) g).st (hTile d) = .accumulating k ∧ ∀ m n, m < 128 → n < 128 →
      tget 0 ((harpOf (longBegun kd g k true d l c s) g).tile (hTile d)) (128 * m + n) =
        if hFlag d 1 = true ∧ m < hExt d 0 ∧ n < hExt d 1 then 0 else tget 0 ((harpOf s g).tile (hTile d)) (128 * m + n) := by
  obtain ⟨-, -, busy, harp⟩ := hseqRuns_on g k (hTile d) (setCourse s g k { c with long := some l })
  rw [harpOf_setCourse] at harp
  unfold longBegun
  dsimp only
  rw [if_pos hseq]
  generalize hseqRuns g k (hTile d) true (setCourse s g k { c with long := some l }) = runs at busy harp ⊢
  by_cases zero : hFlag d 1 = true
  · rw [if_pos ⟨hseq, rfl, zero⟩]
    refine ⟨busy, ?_, fun m n _ hn => ?_⟩
    · rw [zeroFirst, harpOf_setHarp, st_setTile, harp, st_hseqHarp]
    · rw [zeroFirst, harpOf_setHarp, tile_setTile, harp, tile_hseqHarp, tget_clearRegion, show (128 * m + n) / 128 = m by omega,
        show (128 * m + n) % 128 = n by omega]
      simp only [zero, true_and]
  · rw [if_neg fun h => zero h.2.2]
    refine ⟨busy, by rw [harp, st_hseqHarp], fun m n _ _ => ?_⟩
    rw [harp, tile_hseqHarp, if_neg fun h => zero h.1]

/-! ## The issue (R124) -/

/-- What the issue comes to once HSEQ has its Harp and no drain of the course's own is awaited. -/
theorem exec_long {i : Instr} {kd : LongKind} {g k : Nat} {b : InstrBits} {s : State} (long : longOf i = some (kd, g, k, b))
    (cached : InCache i s) (issues : LongIssues kd g k b s) : exec i s = .next (
      let c := courseOf s g k
      let u := endRsv g k s
      let p := fldD b
      let off := (ureg c (fldA b)).toNat
      let fresh := decide (lPhase c p = 0)
      let l : LongRun := ⟨kd.kind, p, off, 0⟩
      let d := if fresh then cmemRead s g k off 64 else longDesc s g k l
      if off % 64 ≠ 0 then failCourse g k (badDescriptor g) u
      else if lPhase c p = 3 then failCourse g k (badProgress g) u
      else if lPhase c p = 2 then retire g k (unreserved c) u
      else if cmemSize s g k < off + 64 then failCourse g k (cmemEnd g) u
      else if lPhase c p = 0 ∧ !kd.ok d then failCourse g k (badDescriptor g) u
      else if lPhase c p = 0 ∧ !kd.fits (cmemSize s g k) d then failCourse g k (cmemEnd g) u
      else if kd.waits s d then u
      else
        let v := longOpen kd g k fresh d u
        let c := if fresh then setProgress (courseOf v g k) p 0 1 0 0 else courseOf v g k
        let w := longBegun kd g k fresh d l c v
        if lPos c p < kd.units d then w
        else longDone g k l (if kd.kind = 0 then hseqRuns g k (hTile d) false w else w)) := by
  obtain ⟨⟨on, ready⟩, form, closed, harp, drains⟩ := issues
  have step : exec i s = whenFetched ((codeOf i).getD (0, 0, 0)).2.2 g k s (.next (longIssue kd g k b s)) ∧
      codeOf i = some (g, k, ((codeOf i).getD (0, 0, 0)).2.2) := by
    cases i <;> cases long <;> exact ⟨rfl, rfl⟩
  have waits : ∀ d, kd.waits (endRsv g k s) d = kd.waits s d := by
    cases i <;> cases long
    case hseq =>
      intro d
      show hseqWaits g (endRsv g k s) d = hseqWaits g s d
      unfold hseqWaits harpOf
      rw [coreOf_endRsv]
      rfl
    all_goals exact fun _ => rfl
  have desc : ∀ l, longDesc (endRsv g k s) g k l = longDesc s g k l := fun l => by
    unfold longDesc
    rw [courseOf_endRsv, cmemRead_endRsv]
    rfl
  have legal : (longForm b && decide ((courseOf s g k).pour = .closed)) = true := by simp [form, closed]
  have owns : ¬ (kd.kind = 0 ∧ (!(consortOf (endRsv g k s) g (courseOf s g k).consort).harp) = true) := by
    rw [consortOf_endRsv]
    intro h
    simp [harp h.1] at h
  have drained : ¬ (kd.kind ≠ 0 ∧ harpPending (endRsv g k s) g k = true) := by
    rw [harpPending_endRsv]
    intro h
    simp [drains h.1] at h
  obtain ⟨step, code⟩ := step
  unfold longIssue at step
  rw [exec_issue on ready cached code step legal (Nat.zero_le _)]
  dsimp only
  rw [if_neg owns, if_neg drained, cmemSize_endRsv, courseOf_endRsv, desc, cmemRead_endRsv, waits]
  rfl

section
variable {i : Instr} {kd : LongKind} {g k : Nat} {b : InstrBits} {s : State} (long : longOf i = some (kd, g, k, b))
  (cached : InCache i s) (issues : LongIssues kd g k b s)
include long cached issues

/-- A fresh one stands at the beginning of its progress block. -/
theorem long_fresh {d : List Byte} (read : cmemRead s g k (ureg (courseOf s g k) (fldA b)).toNat 64 = d)
    (aligned : (ureg (courseOf s g k) (fldA b)).toNat % 64 = 0) (fresh : lPhase (courseOf s g k) (fldD b) = 0)
    (inside : (ureg (courseOf s g k) (fldA b)).toNat + 64 ≤ cmemSize s g k) (ok : kd.ok d = true)
    (fits : kd.fits (cmemSize s g k) d = true) (free : kd.waits s d = false) :
    ∃ o v, courseOf v g k = { courseOf s g k with rsv := [], lost := [], opened := o } ∧ MemoryAlike g s v ∧ harpOf v g = harpOf s g ∧
      exec i s = .next (longBegun kd g k true d ⟨kd.kind, fldD b, (ureg (courseOf s g k) (fldA b)).toNat, 0⟩
        (setProgress (courseOf v g k) (fldD b) 0 1 0 0) v) := by
  obtain ⟨⟨o, course⟩, alike, harp⟩ := longOpen_notes kd g k true d (endRsv g k s)
  rw [courseOf_endRsv] at course
  refine ⟨o, longOpen kd g k true d (endRsv g k s), course, (memoryAlike_setCourse _ _ _ _).trans alike, harp.trans (harpOf_setCourse _ _ _ _), ?_⟩
  have start : ∀ c : Course, lPos (setProgress c (fldD b) 0 1 0 0) (fldD b) < kd.units d := fun c => by
    rw [lPos, ureg_setProgress, if_neg (by omega), if_neg (by omega), if_neg (by omega), if_pos rfl]
    exact units_pos long ok
  rw [exec_long long cached issues]
  dsimp only
  rw [fresh]
  simp only [aligned, read, ok, fits, free, Nat.not_lt.mpr inside, start, ne_eq, not_true_eq_false, decide_true, Bool.not_true,
    Bool.false_eq_true, and_false, if_false, if_true, OfNat.zero_ne_ofNat]

/-- One under way goes on from its progress block. -/
theorem long_goesOn {l : LongRun} {d : List Byte} (run : l = ⟨kd.kind, fldD b, (ureg (courseOf s g k) (fldA b)).toNat, 0⟩)
    (desc : longDesc s g k l = d) (aligned : (ureg (courseOf s g k) (fldA b)).toNat % 64 = 0) (goes : lPhase (courseOf s g k) (fldD b) = 1)
    (inside : (ureg (courseOf s g k) (fldA b)).toNat + 64 ≤ cmemSize s g k) (free : kd.waits s d = false)
    (unfinished : lPos (courseOf s g k) (fldD b) < kd.units d) :
    ∃ o v, courseOf v g k = { courseOf s g k with rsv := [], lost := [], opened := o } ∧ MemoryAlike g s v ∧
      exec i s = .next (longBegun kd g k false d l (courseOf v g k) v) := by
  obtain ⟨⟨o, course⟩, alike, -⟩ := longOpen_notes kd g k false d (endRsv g k s)
  rw [courseOf_endRsv] at course
  refine ⟨o, longOpen kd g k false d (endRsv g k s), course, (memoryAlike_setCourse _ _ _ _).trans alike, ?_⟩
  have going : lPos (courseOf (longOpen kd g k false d (endRsv g k s)) g k) (fldD b) < kd.units d := by
    rw [course]
    exact unfinished
  rw [exec_long long cached issues]
  dsimp only
  rw [goes, ← run, decide_eq_false (by decide)]
  simp only [aligned, desc, free, going, Nat.not_lt.mpr inside, ne_eq, not_true_eq_false, Bool.false_eq_true, false_and, if_false,
    if_true, OfNat.one_ne_ofNat, one_ne_zero]

/-- One that is done is passed. -/
theorem long_passes (aligned : (ureg (courseOf s g k) (fldA b)).toNat % 64 = 0) (done : lPhase (courseOf s g k) (fldD b) = 2) :
    Next i s (GoesOn g k (unreserved (courseOf s g k)) s) := by
  have run := exec_long long cached issues
  dsimp only at run
  rw [if_neg (by simp [aligned]), if_neg (by omega), if_pos done] at run
  obtain ⟨course, courses, cmem, outside⟩ := goesOn_retire g k (unreserved (courseOf s g k)) (endRsv g k s)
  exact ⟨_, run, course, (sameCourses_endRsv g k s).trans courses, cmem.trans (by rw [coreOf_endRsv]), (sameOutside_endRsv g k s).trans outside⟩

/-- What ends the casting: the descriptor's place, the phase, the end of consort memory, and the descriptor. -/
theorem long_fails :
    ((ureg (courseOf s g k) (fldA b)).toNat % 64 ≠ 0 → Next i s (CastingEnds (badDescriptor g) s · g k)) ∧
    ((ureg (courseOf s g k) (fldA b)).toNat % 64 = 0 → lPhase (courseOf s g k) (fldD b) = 3 → Next i s (CastingEnds (badProgress g) s · g k)) ∧
    ((ureg (courseOf s g k) (fldA b)).toNat % 64 = 0 → lPhase (courseOf s g k) (fldD b) < 2 →
      cmemSize s g k < (ureg (courseOf s g k) (fldA b)).toNat + 64 → Next i s (CastingEnds (cmemEnd g) s · g k)) ∧
    ((ureg (courseOf s g k) (fldA b)).toNat % 64 = 0 → lPhase (courseOf s g k) (fldD b) = 0 →
      (ureg (courseOf s g k) (fldA b)).toNat + 64 ≤ cmemSize s g k →
      kd.ok (cmemRead s g k (ureg (courseOf s g k) (fldA b)).toNat 64) = false → Next i s (CastingEnds (badDescriptor g) s · g k)) := by
  have ends : ∀ e, CastingEnds e s (failCourse g k e (endRsv g k s)) g k := castingEnds_endRsv issues.1.2
  have run := exec_long long cached issues
  dsimp only at run
  refine ⟨fun misaligned => ?_, fun aligned bad => ?_, fun aligned early outside => ?_, fun aligned fresh inside bad => ?_⟩
  · rw [if_pos misaligned] at run
    exact ⟨_, run, ends _⟩
  · rw [if_neg (by simp [aligned]), if_pos bad] at run
    exact ⟨_, run, ends _⟩
  · rw [if_neg (by simp [aligned]), if_neg (by omega), if_neg (by omega), if_pos outside] at run
    exact ⟨_, run, ends _⟩
  · rw [if_neg (by simp [aligned]), if_neg (by omega), if_neg (by omega), if_neg (by omega), if_pos ⟨fresh, by simp [fresh, bad]⟩] at run
    exact ⟨_, run, ends _⟩

end

/-- Settles O21: each branch of the issue, and what a beginning leaves in the course, in memory, and in the Harp. -/
theorem longInstructionsIssue : Obligations.LongInstructionsIssue := by
  unfold Obligations.LongInstructionsIssue
  intro i kd g k b s long cached issues
  dsimp only
  refine ⟨fun aligned fresh inside ok fits free => ?_, fun aligned goes inside free unfinished => ?_, long_passes long cached issues,
    long_fails long cached issues⟩
  · obtain ⟨o, v, course, alike, harp, run⟩ := long_fresh long cached issues rfl aligned fresh inside ok fits free
    generalize cmemRead s g k (ureg (courseOf s g k) (fldA b)).toNat 64 = d at run ⊢
    generalize (⟨kd.kind, fldD b, (ureg (courseOf s g k) (fldA b)).toNat, 0⟩ : LongRun) = l at run ⊢
    obtain ⟨begun, alike'⟩ := longBegun_course kd g k true d l (setProgress (courseOf v g k) (fldD b) 0 1 0 0) v
    obtain ⟨mm, cmem⟩ := alike.trans alike'
    have harps := fun hseq => longBegun_harp (kd := kd) hseq g k d l (setProgress (courseOf v g k) (fldD b) 0 1 0 0) v
    rw [harp] at harps
    have regs : ∀ r, ureg (courseOf (longBegun kd g k true d l (setProgress (courseOf v g k) (fldD b) 0 1 0 0) v) g k) r =
        if r = fldD b + 3 then phaseWord 1 0 0 else if r = fldD b + 2 then 0 else if r = fldD b + 1 then 0
        else if r = fldD b then BitVec.ofNat 32 0 else ureg (courseOf s g k) r := fun r => by
      have now : ureg _ r = ureg (setProgress (courseOf v g k) (fldD b) 0 1 0 0) r := ureg_congr (congrArg Course.u begun) r
      have before : ureg (courseOf v g k) r = ureg (courseOf s g k) r := ureg_congr (congrArg Course.u course) r
      rw [now, ureg_setProgress, before]
    obtain ⟨pc, v'⟩ := setProgress_changes (courseOf v g k) (fldD b) 0 1 0 0
    have pc : _ = (courseOf s g k).pc := ((congrArg Course.pc begun).trans pc).trans (by rw [course])
    have v' : _ = (courseOf s g k).v := ((congrArg Course.v begun).trans v').trans (by rw [course])
    generalize longBegun kd g k true d l (setProgress (courseOf v g k) (fldD b) 0 1 0 0) v = t at run begun mm cmem harps regs pc v' ⊢
    refine ⟨t, run, by rw [begun], pc, ?_, ?_, ?_, ?_, fun r hr => ?_, v', mm, cmem, harps⟩
    · rw [regs, if_neg (by omega), if_neg (by omega), if_neg (by omega), if_pos rfl]
      rfl
    · rw [regs, if_neg (by omega), if_neg (by omega), if_pos rfl]
    · rw [regs, if_neg (by omega), if_pos rfl]
    · rw [regs, if_pos rfl]
    · rw [regs, if_neg (by omega), if_neg (by omega), if_neg (by omega), if_neg (by omega)]
  · obtain ⟨o, v, course, alike, run⟩ := long_goesOn long cached issues rfl rfl aligned goes inside free unfinished
    obtain ⟨begun, alike'⟩ := longBegun_course kd g k false (longDesc s g k ⟨kd.kind, fldD b, (ureg (courseOf s g k) (fldA b)).toNat, 0⟩)
      ⟨kd.kind, fldD b, (ureg (courseOf s g k) (fldA b)).toNat, 0⟩ (courseOf v g k) v
    obtain ⟨mm, cmem⟩ := alike.trans alike'
    exact ⟨_, run, by rw [begun], by rw [begun, course], by rw [begun, course], by rw [begun, course], mm, cmem⟩

end Sys2Proof.Machine
end

