-- ==== Sys2Proof/Proofs/ConsortSwitches.lean ====
section
/-!
CERTIFICATE. Consorts that are switched out and in (R92 to R95).
-/
namespace Sys2Proof.Machine

/-! ## Trace records -/

theorem traceSwitch_changes (g k : Nat) (into : Bool) (cause : Nat) (s : State) :
    ∃ r q w, traceSwitch g k into cause s = { s with regs := r, trc := q, touched := w } := by
  unfold traceSwitch
  dsimp only
  obtain ⟨r, q, w, e⟩ := traceEvent_changes (clOf g) 0x08 g (castingOf s (consortOf s g k).casting).sched (consortTags s g k).1
    (consortTags s g k).2 (b2n into + 256 * cause + 2 ^ 32 * (consortOf s g k).index) s
  rw [e]
  split
  · exact ⟨r, q, w, rfl⟩
  · obtain ⟨r', q', w', e'⟩ := countCore_changes g 0x0C 1 { s with regs := r, trc := q, touched := w }
    exact ⟨r', q', w', e'⟩

theorem traceSwitch_cores (g k : Nat) (into : Bool) (cause : Nat) (s : State) : (traceSwitch g k into cause s).cores = s.cores := by
  obtain ⟨r, q, w, e⟩ := traceSwitch_changes g k into cause s
  rw [e]

theorem traceSwitch_mm (g k : Nat) (into : Bool) (cause : Nat) (s : State) : (traceSwitch g k into cause s).mm = s.mm := by
  obtain ⟨r, q, w, e⟩ := traceSwitch_changes g k into cause s
  rw [e]

/-- Two cores that differ in their miss registers at most. -/
theorem of_noMiss {c c' : Core} (h : c'.noMiss = c.noMiss) :
    c'.consorts = c.consorts ∧ c'.cmem = c.cmem ∧ c'.courses = c.courses ∧ c'.images = c.images ∧ c'.harp = c.harp := by
  have field : ∀ {α : Type} (F : Core → α), F c'.noMiss = F c.noMiss := fun F => congrArg F h
  exact ⟨field (·.consorts), field (·.cmem), field (·.courses), field (·.images), field (·.harp)⟩

theorem consortOf_of {s t : State} {g : Nat} (h : (coreOf t g).consorts = (coreOf s g).consorts) (k : Nat) :
    consortOf t g k = consortOf s g k := by unfold consortOf; rw [h]

theorem courseOf_of {s t : State} {g : Nat} (h : (coreOf t g).courses = (coreOf s g).courses) (k : Nat) :
    courseOf t g k = courseOf s g k := by unfold courseOf; rw [h]

/-! ## Switching out (R92) -/

/-- What an abort of core `g`'s pours leaves: memory, consorts, every course's registers, and pours as they were or closed. -/
structure PoursAbort (g : Nat) (s t : State) : Prop where
  mem : t.mm.mem = s.mm.mem
  cmem : (coreOf t g).cmem = (coreOf s g).cmem
  consorts : (coreOf t g).consorts = (coreOf s g).consorts
  registers : ∀ k, SameRegisters (courseOf s g k) (courseOf t g k)
  pours : ∀ k, (courseOf t g k).pour = (courseOf s g k).pour ∨ (courseOf t g k).pour = .closed

theorem PoursAbort.refl (g : Nat) (s : State) : PoursAbort g s s := ⟨rfl, rfl, rfl, fun _ => .refl _, fun _ => .inl rfl⟩

theorem PoursAbort.trans {g : Nat} {s t u : State} (h : PoursAbort g s t) (h' : PoursAbort g t u) : PoursAbort g s u where
  mem := h'.mem.trans h.mem
  cmem := h'.cmem.trans h.cmem
  consorts := h'.consorts.trans h.consorts
  registers k := (h.registers k).trans (h'.registers k)
  pours k := (h'.pours k).elim (fun same => (h.pours k).imp same.trans same.trans) .inr

theorem noMiss_freed (g slot : Nat) (s : State) (g' : Nat) :
    (coreOf (forgetWaits (.course g slot) (unlockAll g (dropToken g s))) g').noMiss = (coreOf s g').noMiss := by
  refine (noMiss_leaveMiss g slot (unlockAll g (dropToken g s)) g').trans (congrArg Core.noMiss (coreOf_congr (s := s) ?_ g'))
  exact dropToken_cores g s

theorem mem_freed (g slot : Nat) (s : State) : (forgetWaits (.course g slot) (unlockAll g (dropToken g s))).mm.mem = s.mm.mem := by
  obtain ⟨c, e⟩ := leaveMiss_cores g slot (unlockAll g (dropToken g s))
  have dropped : (dropToken g s).mm = s.mm := by
    unfold dropToken showWait
    dsimp only
    split <;> rfl
  have unlocked : (unlockAll g (dropToken g s)).mm.mem = (dropToken g s).mm.mem := rfl
  exact (congrArg (fun u : State => u.mm.mem) e).trans (unlocked.trans (by rw [dropped]))

/-- A course whose pour has been aborted (R120). -/
def Course.aborted (c : Course) (reason : Nat) : Course :=
  { c with
    pour := .closed, pourCode := 0x50, pourSub := reason, pourSerial := false, abortCount := c.abortCount + 1
    pc := c.abortPc, active := liveLanes c, stack := c.beginStack }

theorem abortPour_cases (g slot reason : Nat) (s : State) :
    (abortPour g slot reason s = s ∧ ((courseOf s g slot).pour = .closed ∨ (courseOf s g slot).pour = .publishing)) ∨
    ∃ u r q w, PoursAbort g s u ∧ (∀ k, courseOf u g k = courseOf s g k) ∧ abortPour g slot reason s =
      { setCourse u g slot ((courseOf s g slot).aborted reason) with regs := r, trc := q, touched := w } := by
  have core := noMiss_freed g slot s g
  have mem := mem_freed g slot s
  have courses := fun k => courseOf_freed g slot g k s
  unfold abortPour abortPourAt
  dsimp only
  generalize forgetWaits (.course g slot) (unlockAll g (dropToken g s)) = u at core mem courses
  split
  next still => exact .inl ⟨rfl, still⟩
  next =>
    have same : ∀ k, courseOf (setCore u g { coreOf u g with ladle := {} }) g k = courseOf s g k := fun k =>
      (courseOf_setCore_same (c := { coreOf u g with ladle := {} }) rfl g k).trans (courses k)
    have core' : coreOf (setCore u g { coreOf u g with ladle := {} }) g = { coreOf u g with ladle := {} } := by rw [coreOf_setCore, if_pos rfl]
    obtain ⟨r, q, w, traced⟩ := tracePourAbort_changes g slot reason 0
      (setCourse (setCore u g { coreOf u g with ladle := {} }) g slot ((courseOf s g slot).aborted reason))
    refine .inr ⟨setCore u g { coreOf u g with ladle := {} }, r, q, w, ⟨mem, ?_, ?_, fun k => ?_, fun k => .inl ?_⟩, same, traced⟩
    · rw [core']; exact (of_noMiss core).2.1
    · rw [core']; exact (of_noMiss core).1
    · rw [same]; exact .refl _
    · rw [same]

/-- A pour that aborts (R120, R319): registers and memory stay, and the pour is closed, or past its commit point. -/
theorem poursAbort_abortPour (g slot reason : Nat) (s : State) : PoursAbort g s (abortPour g slot reason s) ∧
    ((courseOf (abortPour g slot reason s) g slot).pour = .closed ∨ (courseOf (abortPour g slot reason s) g slot).pour = .publishing) := by
  obtain ⟨same, still⟩ | ⟨u, r, q, w, before, courses, aborts⟩ := abortPour_cases g slot reason s
  · rw [same]
    exact ⟨.refl g s, still⟩
  · have course : ∀ k, courseOf (abortPour g slot reason s) g k =
        if k = slot then (courseOf s g slot).aborted reason else courseOf s g k := fun k => by
      rw [aborts]
      refine (courseOf_setCourse u g slot g k _).trans ?_
      simp only [courses, true_and]
    have core : coreOf (abortPour g slot reason s) g = coreOf (setCourse u g slot ((courseOf s g slot).aborted reason)) g := by rw [aborts]; rfl
    refine ⟨⟨(congrArg (fun t : State => t.mm.mem) aborts).trans before.mem, ?_, ?_, fun k => ?_, fun k => ?_⟩, .inl (by rw [course, if_pos rfl]; rfl)⟩
    · rw [core, coreOf_setCourse_self]; exact before.cmem
    · rw [core, coreOf_setCourse_self]; exact before.consorts
    · rw [course]
      split
      next own => rw [own]; exact ⟨rfl, rfl, rfl, rfl⟩
      next => exact .refl _
    · rw [course]
      split
      · exact .inr rfl
      · exact .inl rfl

/-- A course of a consort that is switched out stops (R92). -/
def stopPour (g : Nat) (s : State) (i : Nat) : State :=
  match (courseOf s g i).pour with
  | .open | .waitToken | .locking => abortPour g i 6 s
  | _ => s

theorem poursAbort_stopPour (g : Nat) (s : State) (i : Nat) : PoursAbort g s (stopPour g s i) ∧
    ((courseOf (stopPour g s i) g i).pour = .closed ∨ (courseOf (stopPour g s i) g i).pour = .publishing) := by
  unfold stopPour
  match pour : (courseOf s g i).pour with
  | .closed => exact ⟨.refl g s, .inl pour⟩
  | .publishing => exact ⟨.refl g s, .inr pour⟩
  | .open | .waitToken | .locking => exact poursAbort_abortPour g i 6 s

theorem poursAbort_stopPours (g : Nat) (cs : List Nat) (s : State) : PoursAbort g s (cs.foldl (stopPour g) s) ∧
    ∀ k ∈ cs, (courseOf (cs.foldl (stopPour g) s) g k).pour = .closed ∨ (courseOf (cs.foldl (stopPour g) s) g k).pour = .publishing := by
  induction cs generalizing s with
  | nil => exact ⟨.refl g s, nofun⟩
  | cons i cs ih =>
    obtain ⟨first, stopped⟩ := poursAbort_stopPour g s i
    obtain ⟨rest, others⟩ := ih (stopPour g s i)
    refine ⟨first.trans rest, List.forall_mem_cons.mpr ⟨?_, others⟩⟩
    exact (rest.pours i).elim (fun same => stopped.imp same.trans same.trans) .inl

/-- A consort that may be switched out. -/
theorem switchOut_stops {g cs cause : Nat} {s : State} (on : s.powered = true) (live : (consortOf s g cs).live = true)
    (running : (consortOf s g cs).saving = none) (why : cause = 1 ∧ consortFault s g cs ≠ none ∨ cause = 2)
    (room : saveRoom s g (consortOf s g cs) = true) (casting : (castingOf s (consortOf s g cs).casting).live = true)
    (going : (castingOf s (consortOf s g cs).casting).ending = none) : exec (.switchOut g cs cause) s = .next (
      let u := (consortOf s g cs).courses.foldl (stopPour g) s
      traceSwitch g cs false cause (setConsort u g cs { consortOf u g cs with saving := some cause })) := by
  have step : exec (.switchOut g cs cause) s = .next (switchOutStep g cs cause s) := whenOn_powered on _
  rw [step]
  unfold switchOutStep
  dsimp only
  rw [if_neg]
  · rfl
  · rcases why with ⟨rfl, fault⟩ | rfl
    · simp [live, running, room, casting, going, on, Option.isNone_iff_eq_none, fault]
    · simp [live, running, room, casting, going, on]

theorem switchOut_done (g cs cause : Nat) (s : State) (on : s.powered = true) (live : (consortOf s g cs).live = true)
    (running : (consortOf s g cs).saving = none) (why : cause = 1 ∧ consortFault s g cs ≠ none ∨ cause = 2)
    (room : saveRoom s g (consortOf s g cs) = true) (casting : (castingOf s (consortOf s g cs).casting).live = true)
    (going : (castingOf s (consortOf s g cs).casting).ending = none) :
    Next (.switchOut g cs cause) s (fun t => consortOf t g cs = { consortOf s g cs with saving := some cause } ∧
      t.mm.mem = s.mm.mem ∧ (coreOf t g).cmem = (coreOf s g).cmem ∧ (∀ k, SameRegisters (courseOf s g k) (courseOf t g k)) ∧
      ∀ k ∈ (consortOf s g cs).courses, (courseOf t g k).pour = .closed ∨ (courseOf t g k).pour = .publishing) := by
  refine ⟨_, switchOut_stops on live running why room casting going, ?_⟩
  obtain ⟨aborts, stopped⟩ := poursAbort_stopPours g (consortOf s g cs).courses s
  dsimp only
  generalize (consortOf s g cs).courses.foldl (stopPour g) s = u at aborts stopped ⊢
  have consort : consortOf u g cs = consortOf s g cs := consortOf_of aborts.consorts cs
  rw [consort]
  generalize marked : setConsort u g cs { consortOf s g cs with saving := some cause } = v
  have core : coreOf (traceSwitch g cs false cause v) g = coreOf v g := coreOf_congr (traceSwitch_cores _ _ _ _ _) g
  have courses : ∀ k, courseOf (traceSwitch g cs false cause v) g k = courseOf u g k := fun k => by
    rw [courseOf, core, ← marked]
    exact courseOf_setCore_same (c := { coreOf u g with consorts := tset {} (coreOf u g).consorts cs { consortOf s g cs with saving := some cause } }) rfl g k
  refine ⟨?_, ?_, ?_, fun k => ?_, fun k hk => ?_⟩
  · rw [consortOf, core, ← marked]
    exact (consortOf_setConsort u g cs g cs _).trans (if_pos ⟨rfl, rfl⟩)
  · rw [traceSwitch_mm, ← marked]; exact aborts.mem
  · rw [core, ← marked, setConsort, coreOf_setCore, if_pos rfl]; exact aborts.cmem
  · rw [courses]; exact aborts.registers k
  · rw [courses]; exact stopped k hk

/-! ## Images (R92, R93) -/

/-- The waits of a consort's courses end. -/
def forgetAll (g : Nat) (cs : List Nat) (s : State) : State := cs.foldl (fun s i => forgetWaits (.course g i) s) s

theorem forgetAll_keeps (g : Nat) (cs : List Nat) (s : State) : (coreOf (forgetAll g cs s) g).noMiss = (coreOf s g).noMiss ∧
    (forgetAll g cs s).mm = s.mm := by
  refine ⟨foldl_keeps (fun s => (coreOf s g).noMiss) (fun s i => forgetWaits (.course g i) s) cs (fun s i _ => noMiss_leaveMiss g i s g) s,
    foldl_keeps State.mm _ cs (fun s i _ => ?_) s⟩
  obtain ⟨c, e⟩ := leaveMiss_cores g i s
  have forgets : (forgetWaits (.course g i) s).mm = (leaveMiss g i s).mm := rfl
  rw [forgets, e]

theorem freeConsort_mm (g k : Nat) (s : State) : (freeConsort g k s).mm = s.mm := by
  obtain ⟨x, c, e⟩ := leaving_cores g k s
  have left : (leaving g k s).mm = s.mm := by rw [e]
  rw [freeConsort_eq]
  split
  · exact (foldl_keeps State.mm setOff _ (fun _ _ _ => rfl) _).trans left
  · exact left

/-- The image of a consort, with the page for which it waits. -/
def imageOf (s : State) (g k : Nat) (va : Option Nat) (wr ready : Bool) : Image :=
  { consort := { consortOf s g k with saving := none }
    courses := (consortOf s g k).courses.map (fun i => savedCourse (courseOf s g i))
    cmem := rdList (coreOf s g).cmem ((consortOf s g k).base * 1024) ((consortOf s g k).ca * 1024)
    t0 := if (consortOf s g k).harp then (coreOf s g).harp.t0 else [], t1 := if (consortOf s g k).harp then (coreOf s g).harp.t1 else []
    bytes := imageBytes (consortOf s g k), faultVa := va, faultWr := wr, ready := ready }

theorem exec_imageWritten {g cs cause : Nat} {s : State} (on : s.powered = true) (saving : (consortOf s g cs).saving = some cause)
    (still : (consortOf s g cs).courses.all (courseStill s g) = true) : ∃ va wr ready, exec (.consortImageWritten g cs) s = .next (
      let u := freeConsort g cs (forgetAll g (consortOf s g cs).courses s)
      setCore u g { coreOf u g with images := (coreOf u g).images ++ [imageOf s g cs va wr ready] }) := by
  have step : exec (.consortImageWritten g cs) s = .next (imageWritten g cs s) := whenOn_powered on _
  rw [step]
  unfold imageWritten
  simp only [saving, still, Bool.not_true, Bool.false_eq_true, if_false]
  exact ⟨_, _, _, rfl⟩

theorem imageWritten_frees {g cs cause : Nat} {s : State} (on : s.powered = true) (saving : (consortOf s g cs).saving = some cause)
    (still : (consortOf s g cs).courses.all (courseStill s g) = true) : Next (.consortImageWritten g cs) s (fun t =>
      consortOf t g cs = {} ∧ (∀ k ∈ (consortOf s g cs).courses, courseOf t g k = {}) ∧ t.mm = s.mm ∧ ∃ im,
        (coreOf t g).images = (coreOf s g).images ++ [im] ∧ im.consort = { consortOf s g cs with saving := none } ∧
        im.courses = (consortOf s g cs).courses.map (fun k => savedCourse (courseOf s g k)) ∧
        im.cmem = rdList (coreOf s g).cmem ((consortOf s g cs).base * 1024) ((consortOf s g cs).ca * 1024) ∧
        ((consortOf s g cs).harp = true → im.t0 = (coreOf s g).harp.t0 ∧ im.t1 = (coreOf s g).harp.t1)) := by
  obtain ⟨va, wr, ready, run⟩ := exec_imageWritten on saving still
  obtain ⟨core, mm⟩ := forgetAll_keeps g (consortOf s g cs).courses s
  have freed := coreOf_freeConsort g cs (forgetAll g (consortOf s g cs).courses s)
  have mm' := freeConsort_mm g cs (forgetAll g (consortOf s g cs).courses s)
  have left : ∀ i, courseOf (freeConsort g cs (forgetAll g (consortOf s g cs).courses s)) g i =
      if i ∈ (consortOf s g cs).courses then {} else courseOf s g i := fun i => by
    obtain ⟨consorts, -, courses, -, -⟩ := of_noMiss core
    have consort : consortOf (forgetAll g (consortOf s g cs).courses s) g cs = consortOf s g cs := consortOf_of consorts cs
    have course : courseOf (forgetAll g (consortOf s g cs).courses s) g i = courseOf s g i := courseOf_of courses i
    rw [courseOf_freeConsort, consort, course]
  refine ⟨_, run, ?_⟩
  dsimp only
  generalize freeConsort g cs (forgetAll g (consortOf s g cs).courses s) = u at freed mm' left ⊢
  obtain ⟨consorts, -, -, images, -⟩ := of_noMiss freed
  have gone : consortOf u g cs = {} := by
    rw [consortOf, consorts]
    exact (tget_tdel _ _ _ _).trans (if_pos rfl)
  have kept : (coreOf u g).images = (coreOf s g).images := images.trans (of_noMiss core).2.2.2.1
  refine ⟨?_, fun k hk => ?_, ?_, imageOf s g cs va wr ready, ?_, rfl, rfl, rfl, fun harp => ?_⟩
  · unfold consortOf
    rw [coreOf_setCore, if_pos rfl]
    exact gone
  · rw [courseOf_setCore_same (c := { coreOf u g with images := (coreOf u g).images ++ [imageOf s g cs va wr ready] }) rfl, left, if_pos hk]
  · rw [setCore_mm, mm', mm]
  · rw [coreOf_setCore, if_pos rfl, kept]
  · exact ⟨if_pos harp, if_pos harp⟩

/-! ## Switching in (R94, R95) -/

theorem tget_foldl_tset_ne {α β : Type} [DecidableEq α] {d : α} {key : β → Nat} {f : β → α} {xs : List β} {k : Nat}
    (out : ∀ x ∈ xs, key x ≠ k) (t : Tbl α) : tget d (xs.foldl (fun t x => tset d t (key x) (f x)) t) k = tget d t k :=
  List.foldlRecOn xs _ (motive := fun u => tget d u k = tget d t k) rfl fun _ same x hx => (tget_tset_ne _ (out x hx).symm _).trans same

/-- Entries of different keys stand as they were set. -/
theorem tget_foldl_tset {α β : Type} [DecidableEq α] {d : α} {key : β → Nat} {f : β → α} {xs : List β} (nodup : (xs.map key).Nodup)
    (t : Tbl α) {x : β} (hx : x ∈ xs) : tget d (xs.foldl (fun t x => tset d t (key x) (f x)) t) (key x) = f x := by
  induction xs generalizing t with
  | nil => cases hx
  | cons y xs ih =>
    obtain ⟨first, rest⟩ := List.nodup_cons.mp nodup
    rw [List.foldl_cons]
    rcases List.mem_cons.mp hx with rfl | hx
    · rw [tget_foldl_tset_ne fun z hz same => first (List.mem_map.mpr ⟨z, hz, same⟩), tget_tset_self]
    · exact ih rest _ hx

theorem nodup_zip {α β : Type} {key : α → Nat} {xs : List α} (nodup : (xs.map key).Nodup) (ys : List β) :
    ((xs.zip ys).map (fun p => key p.1)).Nodup := by
  induction xs generalizing ys with
  | nil => exact .nil
  | cons x xs ih =>
    cases ys with
    | nil => exact .nil
    | cons y ys =>
      obtain ⟨first, rest⟩ := List.nodup_cons.mp nodup
      refine List.nodup_cons.mpr ⟨fun within => first ?_, ih rest ys⟩
      obtain ⟨p, hp, same⟩ := List.mem_map.mp within
      exact List.mem_map.mpr ⟨p.1, (List.of_mem_zip hp).1, same⟩

/-- A course as it takes its slot in a consort. -/
def seated (slot : Nat) (p : (Nat × Nat) × Course) : Course := { p.2 with consort := slot, regBase := p.1.2 }

/-- The courses of a consort take their slots. -/
def seat (g slot : Nat) (ps : List ((Nat × Nat) × Course)) (s : State) : State :=
  ps.foldl (fun s p => setCourse s g p.1.1 (seated slot p)) s

theorem seat_keeps (g slot : Nat) (ps : List ((Nat × Nat) × Course)) (s : State) :
    coreOf (seat g slot ps s) g =
      { coreOf s g with courses := ps.foldl (fun t p => tset {} t p.1.1 (seated slot p)) (coreOf s g).courses } ∧
    (∀ g', g' ≠ g → coreOf (seat g slot ps s) g' = coreOf s g') ∧ (seat g slot ps s).mm = s.mm := by
  refine ⟨?_, fun g' hg => foldl_keeps (coreOf · g') _ ps (fun s p _ => ?_) s, ?_⟩
  · induction ps generalizing s with
    | nil => rfl
    | cons p ps ih => exact (ih _).trans (by rw [coreOf_setCourse_self]; rfl)
  · rw [setCourse, coreOf_setCore, if_neg hg]
  · exact foldl_keeps State.mm (fun s (p : (Nat × Nat) × Course) => setCourse s g p.1.1 (seated slot p)) ps (fun _ _ _ => rfl) s

/-- A core on which a consort has taken its place. -/
def Core.settled (g : Nat) (r : Room) (x : Consort) (cs : List Course) (c : Core) : Core :=
  { fillWild g r.base x.ca c with
    consorts := tset {} c.consorts r.slot { x with live := true, base := r.base, courses := r.courses.map Prod.fst, saving := none }
    courses := (r.courses.zip cs).foldl (fun t p => tset {} t p.1.1 (seated r.slot p)) c.courses }

theorem toRun_keeps (cl : Nat) (s : State) : (toRun cl s).cores = s.cores ∧ (toRun cl s).mm = s.mm := by
  unfold toRun
  split <;> exact ⟨rfl, rfl⟩

theorem settleConsort_keeps (g : Nat) (r : Room) (x : Consort) (cs : List Course) (s : State) :
    coreOf (settleConsort g r x cs s) g = (coreOf s g).settled g r x cs ∧
    (∀ g', g' ≠ g → coreOf (settleConsort g r x cs s) g' = coreOf s g') ∧ (settleConsort g r x cs s).mm = s.mm := by
  unfold settleConsort
  generalize filled : setCore s g (fillWild g r.base x.ca (coreOf s g)) = a
  dsimp only
  generalize placed : setConsort a g r.slot _ = b
  have placedCore : coreOf b g = { fillWild g r.base x.ca (coreOf s g) with
      consorts := tset {} (coreOf s g).consorts r.slot { x with live := true, base := r.base, courses := r.courses.map Prod.fst, saving := none } } := by
    rw [← placed, setConsort, coreOf_setCore, if_pos rfl, ← filled, coreOf_setCore, if_pos rfl]
    rfl
  have placedRest : ∀ g', g' ≠ g → coreOf b g' = coreOf s g' := fun g' hg => by
    rw [← placed, setConsort, coreOf_setCore, if_neg hg, ← filled, coreOf_setCore, if_neg hg]
  have placedMm : b.mm = s.mm := by rw [← placed, ← filled]; rfl
  obtain ⟨seatedCore, seatedRest, seatedMm⟩ := seat_keeps g r.slot (r.courses.zip cs) b
  have sat : (r.courses.zip cs).foldl (fun s p => setCourse s g p.1.1 { p.2 with consort := r.slot, regBase := p.1.2 }) b =
      seat g r.slot (r.courses.zip cs) b := rfl
  rw [sat]
  generalize seat g r.slot (r.courses.zip cs) b = c at seatedCore seatedRest seatedMm ⊢
  have owned : ∀ d, (d = if x.harp = true then setF (setOn c (harpOwned g)) (harpOwner g) r.slot else c) → d.cores = c.cores ∧ d.mm = c.mm := by
    rintro d rfl
    split <;> exact ⟨rfl, rfl⟩
  generalize marked : (if x.harp = true then setF (setOn c (harpOwned g)) (harpOwner g) r.slot else c) = d
  obtain ⟨cores, mm⟩ := owned d marked.symm
  obtain ⟨cores', mm'⟩ := toRun_keeps (clOf g) (setCluster d (clOf g) { clusterOf d (clOf g) with nextCore := (g % 12 + 1) % 12 })
  have same : ∀ g', coreOf (toRun (clOf g) (setCluster d (clOf g) { clusterOf d (clOf g) with nextCore := (g % 12 + 1) % 12 })) g' = coreOf c g' :=
    coreOf_congr (cores'.trans cores)
  refine ⟨?_, fun g' hg => ?_, mm'.trans (mm.trans (seatedMm.trans placedMm))⟩
  · rw [same, seatedCore, placedCore]; rfl
  · rw [same, seatedRest g' hg, placedRest g' hg]

/-- A core whose consort's memory and tiles have been restored. -/
def Core.restored (r : Room) (im : Image) (c : Core) : Core :=
  { c with cmem := wrList c.cmem (r.base * 1024) im.cmem, harp := if im.consort.harp then { c.harp with t0 := im.t0, t1 := im.t1 } else c.harp }

theorem restored_keeps (r : Room) (im : Image) (c : Core) : (c.restored r im).consorts = c.consorts ∧
    (c.restored r im).courses = c.courses ∧ (c.restored r im).images = c.images := ⟨rfl, rfl, rfl⟩

theorem settled_tables (g : Nat) (r : Room) (x : Consort) (cs : List Course) (c : Core) :
    (c.settled g r x cs).consorts =
      tset {} c.consorts r.slot { x with live := true, base := r.base, courses := r.courses.map Prod.fst, saving := none } ∧
    (c.settled g r x cs).courses = (r.courses.zip cs).foldl (fun t p => tset {} t p.1.1 (seated r.slot p)) c.courses ∧
    (c.settled g r x cs).images = c.images := ⟨rfl, rfl, rfl⟩

section
variable {src n g : Nat} {im : Image} {rest : List Image} {r : Room} {s : State}

theorem exec_switchIn (on : s.powered = true) (images : (coreOf s src).images.drop n = im :: rest) (near : clOf src = clOf g) (core : g < 192)
    (ready : im.ready = true) (going : (castingOf s im.consort.casting).ending = none) (free : draining s im.consort.casting = false)
    (room : imageRoom s g im = some r) : exec (.switchIn src n g) s = .next (
      let u := settleConsort g r im.consort (im.courses.map (moveU3 src g))
        (setCore s src { coreOf s src with images := (coreOf s src).images.take n ++ rest })
      traceSwitch g r.slot true 0 (setCore u g ((coreOf u g).restored r im))) := by
  have step : exec (.switchIn src n g) s = .next (switchInStep src n g s) := whenOn_powered on _
  have later : (coreOf s src).images.drop (n + 1) = rest := by rw [← List.tail_drop, images]; rfl
  rw [step]
  unfold switchInStep
  rw [images]
  dsimp only
  rw [if_neg (by simp [near, ready, on, going, free]; omega), room, later]
  rfl

theorem switchIn_restores (on : s.powered = true) (images : (coreOf s src).images.drop n = im :: rest) (near : clOf src = clOf g)
    (core : g < 192) (ready : im.ready = true) (going : (castingOf s im.consort.casting).ending = none)
    (free : draining s im.consort.casting = false) (room : imageRoom s g im = some r) (nodup : (r.courses.map Prod.fst).Nodup) :
    Next (.switchIn src n g) s (fun t =>
      consortOf t g r.slot = { im.consort with live := true, base := r.base, courses := r.courses.map Prod.fst, saving := none } ∧
      (∀ x ∈ r.courses.zip im.courses, courseOf t g x.1.1 = { moveU3 src g x.2 with consort := r.slot, regBase := x.1.2 }) ∧
      rdList (coreOf t g).cmem (r.base * 1024) im.cmem.length = im.cmem ∧
      (im.consort.harp = true → (coreOf t g).harp.t0 = im.t0 ∧ (coreOf t g).harp.t1 = im.t1) ∧ t.mm = s.mm ∧
      (coreOf t src).images = (coreOf s src).images.take n ++ rest) := by
  refine ⟨_, exec_switchIn on images near core ready going free room, ?_⟩
  obtain ⟨settled, others, mm⟩ := settleConsort_keeps g r im.consort (im.courses.map (moveU3 src g))
    (setCore s src { coreOf s src with images := (coreOf s src).images.take n ++ rest })
  dsimp only
  generalize settleConsort g r im.consort _ _ = u at settled others mm ⊢
  generalize back : setCore u g ((coreOf u g).restored r im) = v
  have same : ∀ g', coreOf (traceSwitch g r.slot true 0 v) g' = coreOf v g' := coreOf_congr (traceSwitch_cores _ _ _ _ _)
  have here : coreOf v g = (coreOf u g).restored r im := by rw [← back, coreOf_setCore, if_pos rfl]
  obtain ⟨consorts, courses, images'⟩ := restored_keeps r im (coreOf u g)
  rw [settled] at consorts courses images'
  obtain ⟨placed, seats, kept⟩ := settled_tables g r im.consort (im.courses.map (moveU3 src g))
    (coreOf (setCore s src { coreOf s src with images := (coreOf s src).images.take n ++ rest }) g)
  refine ⟨?_, fun x hx => ?_, ?_, fun harp => ?_, ?_, ?_⟩
  · rw [consortOf, same, here, settled, consorts, placed, tget_tset_self]
  · rw [courseOf, same, here, settled, courses, seats, List.zip_map_right]
    have moved : (x.1, moveU3 src g x.2) ∈ (r.courses.zip im.courses).map (Prod.map id (moveU3 src g)) := List.mem_map.mpr ⟨x, hx, rfl⟩
    refine tget_foldl_tset (d := ({} : Course)) (key := fun p : (Nat × Nat) × Course => p.1.1) (f := seated r.slot) ?_ _ moved
    rw [← List.zip_map_right]
    exact nodup_zip nodup _
  · rw [same, here]
    exact rdList_wrList _ _ _
  · rw [same, here, Core.restored, if_pos harp]
    exact ⟨rfl, rfl⟩
  · rw [traceSwitch_mm, ← back]
    exact mm
  · rw [same]
    by_cases own : src = g
    · subst own
      rw [here, settled, images', kept, coreOf_setCore, if_pos rfl]
    · rw [← back, coreOf_setCore, if_neg own, others src own, coreOf_setCore, if_pos rfl]

end

/-- Settles O24: a consort stops, its image is written, and an image returns. -/
theorem consortsSwitchOutAndIn : Obligations.ConsortsSwitchOutAndIn := by
  unfold Obligations.ConsortsSwitchOutAndIn
  exact ⟨switchOut_done, fun _ _ _ _ => imageWritten_frees, fun _ _ _ _ _ _ _ => switchIn_restores⟩

end Sys2Proof.Machine
end

