-- ==== Sys2Proof/Proofs/TundishTables.lean ====
section
/-!
CERTIFICATE. A TUNCFG on a tundish whose table of ways is not in its canonical form (R189, R273).
-/
namespace Sys2Proof.Machine

/-- A TUNCFG that has started and turns ways 1 and 2 to scratch (R204). -/
def twoWaysCmd : SCmd := { bytes := 5 :: List.replicate 15 0 ++ 6 :: List.replicate 31 0, started := true }

/-- Cluster 0 runs casting 0 and its TUNCFG.  Its tundish lists way 2 of set 0 twice, with line 0 and then with line 5, and line 0 once
more in way 1 of set 1; it holds line 5 in E. -/
def twiceListed : State :=
  setF (setF { sch := { castings := [(0, { live := true })] }
               clusters := [(0, { casting := some 0, queues := [(0, [twoWaysCmd])] })]
               mm := { tun := [(0, [(2, ⟨1, 0, false⟩), (2, ⟨6, 0, false⟩), (17, ⟨1, 0, false⟩)])], lines := [(0, [(5, .E)])] } }
    (clState 0) 0) (fwState 3) 1

theorem twiceListed_heads : Heads 0 0 5 0 twoWaysCmd twiceListed := by
  unfold Heads
  decide +kernel

theorem twoWaysCmd_ok : tuncfgOk twoWaysCmd.bytes = true := by decide +kernel

theorem twiceListed_first : (openCmds twiceListed 0).any (fun x => decide (x.2.pos < twoWaysCmd.pos)) = false := by decide +kernel

theorem twiceListed_empty : ∀ g ∈ coresOf 0, (coreOf twiceListed g).images = [] ∧
    ∀ e ∈ (coreOf twiceListed g).consorts, e.2.live = true → e.2.casting ≠ 0 := by
  have none : ∀ g, coreOf twiceListed g = {} := fun _ => rfl
  exact fun g _ => by rw [none]; exact ⟨rfl, nofun⟩

theorem twiceListed_free : ∀ w ∈ toScratch twiceListed 0 twoWaysCmd.bytes, ∀ l ∈ wayLines twiceListed 0 w,
    lineBusy twiceListed l none (some 0) none = false := by decide +kernel

/-- Line 5 is one of way 2's, which turns to scratch. -/
theorem twiceListed_line : 2 ∈ toScratch twiceListed 0 twoWaysCmd.bytes ∧ 5 ∈ wayLines twiceListed 0 2 := by decide +kernel

/-- Whether cluster 0 still holds line 5 in E. -/
def keepsLine : Out → Bool
  | .next t => decide (lstateOf t 0 5 = .E)
  | _ => false

/-- As way 1 gives up line 0, both entries of way 2 are taken out of the table, and line 5 is never given up. -/
theorem twiceListed_keeps : keepsLine (exec (.tuncfg 0) twiceListed) = true := by decide +kernel

/-- Refutes O41: nothing in its first clause says that the tundish's table lists each way once.  Where way 2 is listed twice, with lines 0
and 5, the cluster keeps line 5 although way 2 turns to scratch. -/
theorem not_streamsConfigureLaunchAndCopy : ¬ Obligations.StreamsConfigureLaunchAndCopy := by
  unfold Obligations.StreamsConfigureLaunchAndCopy
  rintro ⟨starts, -⟩
  obtain ⟨t, run, -, -, -, -, ways⟩ := starts 0 0 twoWaysCmd twiceListed (by decide) twiceListed_heads twoWaysCmd_ok twiceListed_first
    twiceListed_empty twiceListed_free
  obtain ⟨way, line⟩ := twiceListed_line
  obtain ⟨-, -, gone⟩ := ways 2 way
  have keeps := twiceListed_keeps
  rw [run, keepsLine, gone 5 line] at keeps
  exact absurd keeps (by decide)

end Sys2Proof.Machine
end

