-- ==== Sys2Proof/Proofs/RegisterInstructions.lean ====
section
/-!
CERTIFICATE. The register instructions beside INT (R105 to R109): FP, FP64, CVT, MOV and PRED.
-/
namespace Sys2Proof.Machine

/-! ## A register instruction, with its further rules -/

/-- A course that goes on with a result performs the operation whose value and flags it has in the lanes that run. -/
theorem performed_retire {o : RegOp} {f : Nat → Res} {s : State}
    (result : ∀ l, (if o.b.du then l = 0 else l < 32 ∧ (lanesOf (courseOf s o.g o.slot) o.b).getLsbD l = true) →
      f l = ⟨o.value (courseOf s o.g o.slot) l, o.flags (courseOf s o.g o.slot) l⟩) :
    Performed o s (retire o.g o.slot (writeD (courseOf s o.g o.slot) o.b o.words f) s) := by
  obtain ⟨v, u, a, changed⟩ := writeD_changes (courseOf s o.g o.slot) o.b o.words f
  obtain ⟨p, m, k, moved⟩ := advance_changes (writeD (courseOf s o.g o.slot) o.b o.words f)
  refine ⟨onlyCourse_of_counted (counted_countCore _ _ _ _), ?_⟩
  rw [courseOf_retire]
  refine ⟨by rw [moved, changed]; rfl, advance_atNext (by rw [changed]) (by rw [changed]) (by rw [changed]),
    computes_writeD rfl rfl rfl rfl fun l runs => by rw [result l runs], fun i => ?_⟩
  rw [advance_asw, writeD_flags]
  congr 1
  cases du : o.b.du with
  | true => simp only [if_true]; rw [result 0 (by simp [du])]
  | false =>
    simp only [Bool.false_eq_true, if_false]
    refine Bool.eq_iff_iff.mpr ?_
    simp only [List.any_eq_true, List.mem_range, Bool.and_eq_true]
    refine exists_congr fun l => and_congr_right fun hl => and_congr_right fun runs => ?_
    rw [result l (by simp [du, hl, runs])]

/-- An instruction that comes to a register instruction of this kind, once its word is fetched. -/
theorem exec_aluOp {i : Instr} {o : RegOp} {s : State} {w : Nat} {extra : InstrBits → Bool} {f : Course → Nat → Res}
    (code : codeOf i = some (o.g, o.slot, w))
    (step : exec i s = whenFetched w o.g o.slot s (.next (aluOp o.sg extra o.words f o.g o.slot o.b s)))
    (cached : InCache i s) (issues : Issues o.sg o.g o.slot o.b s) (ok : extra o.b = true)
    (result : ∀ c l, (if o.b.du then l = 0 else l < 32 ∧ (lanesOf c o.b).getLsbD l = true) → f c l = ⟨o.value c l, o.flags c l⟩) :
    ∃ t, exec i s = .next t ∧ Performed o s t :=
  ⟨_, step.trans (whenFetched_cached issues.1 issues.2.1 _ (cached.fetched code)), by
    obtain ⟨-, ready, legal, top⟩ := issues
    rw [aluOp_eq _ _ _ _ _ _ _ _ ready legal ok top]
    exact performed_retire fun l => result _ l⟩

/-! ## Floating point (R105, R106, R109) -/

theorem exec_float {i : Instr} {o : RegOp} {s : State} (op : floatOp i = some o) (ok : o.ok = true) (cached : InCache i s)
    (issues : Issues o.sg o.g o.slot o.b s) : ∃ t, exec i s = .next t ∧ Performed o s t := by
  unfold floatOp at op
  split at op
  case h_8 => cases op
  case h_6 | h_7 => cases op; exact exec_aluOp rfl rfl cached issues rfl fun _ _ _ => rfl
  case h_3 => cases op; exact exec_aluOp rfl rfl cached issues ok fun c l _ => by simp only [bit_eq_testBit]
  all_goals
    cases op
    refine exec_aluOp rfl rfl cached issues ok fun c l _ => ?_
    simp only [bit_eq_testBit]
    rfl

/-- Settles O2: each operation rounds once, and a register instruction writes its result and flags alone. -/
theorem floatInstructionsCompute : Obligations.FloatInstructionsCompute := by
  unfold Obligations.FloatInstructionsCompute
  intro i o s
  exact exec_float

theorem exec_double {i : Instr} {o : RegOp} {s : State} (op : doubleOp i = some o) (cached : InCache i s)
    (issues : Issues o.sg o.g o.slot o.b s) : ∃ t, exec i s = .next t ∧ Performed o s t := by
  unfold doubleOp at op
  split at op
  case h_6 => cases op
  all_goals
    cases op
    exact exec_aluOp rfl rfl cached issues rfl fun _ _ _ => rfl

/-- Settles O3: the words of a pair are the two halves of one binary64 result. -/
theorem doubleInstructionsCompute : Obligations.DoubleInstructionsCompute := by
  unfold Obligations.DoubleInstructionsCompute
  intro i o s
  exact exec_double

/-! ## Conversions (R178, R597) -/

/-- Results side by side in one number, with the flags of all. -/
theorem foldl_results (z : Nat → Res) (w : Nat) (js : List Nat) :
    js.foldl (fun r j => ⟨r.code + (z j).code * 2 ^ (w * j), r.flags ||| (z j).flags⟩) (⟨0, 0⟩ : Res) =
      ⟨(js.map (fun j => (z j).code * 2 ^ (w * j))).sum, js.foldl (fun a j => a ||| (z j).flags) 0⟩ := by
  have from_ : ∀ r : Res, js.foldl (fun r j => ⟨r.code + (z j).code * 2 ^ (w * j), r.flags ||| (z j).flags⟩) r =
      ⟨r.code + (js.map (fun j => (z j).code * 2 ^ (w * j))).sum, js.foldl (fun a j => a ||| (z j).flags) r.flags⟩ := by
    induction js with
    | nil => exact fun _ => rfl
    | cons j js ih => exact fun r => by rw [List.foldl_cons, ih, List.map_cons, List.sum_cons, Nat.add_assoc]; rfl
  rw [from_, Nat.zero_add]

theorem exec_convert {i : Instr} {o : RegOp} {s : State} (op : convertOp i = some o) (ok : o.ok = true) (cached : InCache i s)
    (issues : Issues o.sg o.g o.slot o.b s) : ∃ t, exec i s = .next t ∧ Performed o s t := by
  unfold convertOp at op
  split at op
  case h_1 | h_2 | h_3 => cases op; exact exec_aluOp rfl rfl cached issues ok fun _ _ _ => rfl
  case h_4 g k b =>
    cases op
    have step : exec (.packn g k b) s = execPackn g k b s := rfl
    rw [execPackn, bit_eq_testBit] at step
    exact exec_aluOp rfl step cached issues ok fun c l _ => foldl_results (packElem c b l) _ (List.range (packCount (cvtDst b)))
  case h_5 g k b =>
    cases op
    exact exec_aluOp rfl rfl cached issues ok fun c l _ => foldl_results (unpackElem c b l) 32 (List.range (packCount (cvtSrc b)))
  case h_6 => cases op

/-- Settles O4: conversions are register instructions; PACKN and UNPACKN put their elements' results side by side. -/
theorem conversionsCompute : Obligations.ConversionsCompute := by
  unfold Obligations.ConversionsCompute
  intro i o s
  exact exec_convert

/-! ## Moves (R105, R107) -/

/-- The lane that a SHFL takes its value from: none where it is out of range. -/
theorem shflLane_eq (mode : Nat) {l : Nat} (hl : l < 32) (x : Nat) :
    shflLane mode l x = if shuffleFrom mode l x < 32 then some (shuffleFrom mode l x) else none := by
  unfold shflLane shuffleFrom
  by_cases index : mode = 0
  · simp only [index, if_true]
  by_cases up : mode = 1
  · simp only [up, if_true, one_ne_zero, if_false]
    by_cases hx : x ≤ l
    · simp [hx, show l - x < 32 by omega]
    · simp [hx]
  by_cases down : mode = 2
  · simp only [down, if_true, OfNat.ofNat_ne_zero, OfNat.ofNat_ne_one, if_false]
  simp only [index, up, down, if_false]
  by_cases hx : x < 32
  · simp [hx, show l ^^^ x < 32 from Nat.xor_lt_two_pow (n := 5) hl hx]
  · simp [hx]

theorem exec_move {i : Instr} {o : RegOp} {s : State} (op : moveOp s i = some o) (ok : o.ok = true) (cached : InCache i s)
    (issues : Issues o.sg o.g o.slot o.b s) : ∃ t, exec i s = .next t ∧ Performed o s t := by
  unfold moveOp at op
  split at op
  case h_1 => cases op; exact exec_aluOp rfl rfl cached issues rfl fun c l _ => by rw [opd_srcA]; rfl
  case h_2 g k b =>
    cases op
    obtain ⟨legal, free⟩ := (Bool.and_eq_true _ _).mp ok
    have step : exec (.movSr g k b) s = execMovSr g k b s := rfl
    rw [execMovSr, if_neg (by simpa [imp_iff_not_or] using free)] at step
    exact exec_aluOp rfl step cached issues legal fun _ _ _ => rfl
  case h_3 =>
    cases op
    refine exec_aluOp rfl rfl cached issues ok fun c l _ => ?_
    simp only [opd_srcA, opd_srcB, apply_ite BitVec.toNat]
    rfl
  case h_4 g k b =>
    cases op
    refine exec_aluOp rfl rfl cached issues rfl fun c l runs => ?_
    have hl : l < 32 := by
      split at runs
      · omega
      · exact runs.1
    simp only [opd_srcA, opd_srcB, shflLane_eq _ hl]
    by_cases inside : shuffleFrom (fldMod b) l (srcB c b l).toNat < 32
    · simp only [inside, if_true, true_and, apply_ite (fun n => (srcA c b n).toNat), apply_ite BitVec.toNat]; rfl
    · simp only [inside, if_false, false_and]; rfl
  case h_5 => cases op; exact exec_aluOp rfl rfl cached issues rfl fun _ _ _ => rfl
  case h_6 => cases op

/-- Settles O5: each copies an operand, and SHFL another lane's where it is in range and runs. -/
theorem movesCompute : Obligations.MovesCompute := by
  unfold Obligations.MovesCompute
  intro i o s
  exact exec_move

/-- Settles O6: MOVI is a register instruction of its own format; MOV.SW replaces the status word alone. -/
theorem immediateAndStatusWordMoves : Obligations.ImmediateAndStatusWordMoves := by
  unfold Obligations.ImmediateAndStatusWordMoves
  refine ⟨?_, ?_⟩
  · intro g k b s ready cached guard op5 au bu cu d high unguarded room
    refine ⟨_, exec_issue ready.1 ready.2 cached rfl rfl (by simp [guard, op5, au, bu, cu, d, high, unguarded]) room, ?_⟩
    exact performed_retire (o := ⟨g, k, b, sigUn, 1, fun _ _ => b.low.toNat % 2 ^ 32, noFlags, true⟩) fun _ _ => rfl
  · intro g k b s cached issues asw gen free
    obtain ⟨on, ready, legal, -⟩ := issues
    have step : exec (.movSw g k b) s = execMovSw g k b s := rfl
    rw [execMovSw, if_neg (by simp [free])] at step
    have done := courseOf_retire g k { courseOf s g k with asw := ureg (courseOf s g k) (fldB b) &&& aswMask } s
    obtain ⟨p, m, st, moved⟩ := advance_changes { courseOf s g k with asw := ureg (courseOf s g k) (fldB b) &&& aswMask }
    refine ⟨_, exec_issue on ready cached rfl step (by simp [legal, asw, gen]) (Nat.zero_le _),
      onlyCourse_of_counted (counted_countCore _ _ _ _), ?_⟩
    rw [done]
    refine ⟨advance_atNext rfl rfl rfl, advance_asw _, ?_⟩
    rw [moved]
    exact ⟨rfl, rfl, rfl, rfl⟩

/-! ## Predicates (R103, R105, R106) -/

theorem maskSum (f : Nat → Bool) (n : Nat) : let x := (List.range n).foldl (fun a l => a + (if f l then 2 ^ l else 0)) 0
    x < 2 ^ n ∧ ∀ l, x.testBit l = (decide (l < n) && f l) := by
  induction n with
  | zero => simp
  | succ n ih =>
    obtain ⟨below, bits⟩ := ih
    simp only [List.range_succ, List.foldl_append, List.foldl_cons, List.foldl_nil]
    generalize (List.range n).foldl (fun a l => a + (if f l then 2 ^ l else 0)) 0 = x at below bits ⊢
    cases here : f n with
    | false =>
      refine ⟨by simp only [Bool.false_eq_true, if_false]; omega, fun l => ?_⟩
      rw [if_neg Bool.false_ne_true, Nat.add_zero, bits]
      by_cases hl : l = n
      · simp [hl, here]
      · simp [show l < n + 1 ↔ l < n by omega]
    | true =>
      refine ⟨by simp only [if_true]; omega, fun l => ?_⟩
      rw [if_pos rfl, Nat.add_comm]
      rcases Nat.lt_trichotomy l n with hl | rfl | hl
      · rw [Nat.testBit_two_pow_add_gt hl, bits]; simp [hl, show l < n + 1 by omega]
      · rw [Nat.testBit_two_pow_add_eq, bits]; simp [here]
      · rw [Nat.testBit_lt_two_pow ((show 2 ^ n + x < 2 ^ (n + 1) by omega).trans_le (Nat.pow_le_pow_right (by decide) hl))]
        simp; omega

/-- A mask of lanes holds the lanes that pass its test. -/
theorem getLsbD_maskOf (f : Nat → Bool) {l : Nat} (hl : l < 32) : (maskOf f).getLsbD l = f l := by
  rw [maskOf, BitVec.getLsbD_ofNat, (maskSum f 32).2 l]
  simp [hl]

/-- A course that goes on with its predicate D and status word written. -/
theorem performed_predicate {o : PredOp} {s : State} {c' : Course} {f : Nat → Bool}
    (changed : ∃ a, c' = { courseOf s o.g o.slot with
      p := (setP (courseOf s o.g o.slot) (fldD o.b) (lanesOf (courseOf s o.g o.slot) o.b) (maskOf f)).p, asw := a })
    (value : ∀ l, l < 32 → f l = o.value (courseOf s o.g o.slot) l)
    (flags : ∀ i, c'.asw.getLsbD i = ((courseOf s o.g o.slot).asw.getLsbD i || (List.range 32).any (fun l =>
      (lanesOf (courseOf s o.g o.slot) o.b).getLsbD l && (o.flags (courseOf s o.g o.slot) l).getLsbD i))) :
    OnlyCourse o.g o.slot s (retire o.g o.slot c' s) ∧
      OnlyRegisters (courseOf s o.g o.slot) (courseOf (retire o.g o.slot c' s) o.g o.slot) ∧
      AtNext (courseOf s o.g o.slot) (courseOf (retire o.g o.slot c' s) o.g o.slot) ∧
      SetsPredicate o (courseOf s o.g o.slot) (courseOf (retire o.g o.slot c' s) o.g o.slot) := by
  obtain ⟨a, rfl⟩ := changed
  refine ⟨onlyCourse_of_counted (counted_countCore _ _ _ _), ?_⟩
  rw [courseOf_retire]
  generalize courseOf s o.g o.slot = c at value flags ⊢
  obtain ⟨p, m, st, moved⟩ := advance_changes { c with p := (setP c (fldD o.b) (lanesOf c o.b) (maskOf f)).p, asw := a }
  refine ⟨by rw [moved]; rfl, advance_atNext rfl rfl rfl, by rw [moved], by rw [moved], fun r l hl => ?_, fun i => ?_⟩
  · have written : preg { c with p := (setP c (fldD o.b) (lanesOf c o.b) (maskOf f)).p, asw := a } r =
        preg (setP c (fldD o.b) (lanesOf c o.b) (maskOf f)) r := rfl
    rw [preg_advance, written, preg_setP]
    by_cases d : r = fldD o.b
    · rw [if_pos d, BitVec.getLsbD_or, BitVec.getLsbD_and, BitVec.getLsbD_and, BitVec.getLsbD_not, getLsbD_maskOf f hl, value l hl]
      cases runs : (lanesOf c o.b).getLsbD l <;> simp [d, hl]
    · simp [d]
  · rw [advance_asw]
    exact flags i

theorem combine_eq (comb : Nat) (r p : Bool) : combine comb r p = combined comb r p := by
  obtain _ | _ | _ | comb := comb <;> rfl

/-- The orders and the equality of numbers are those of words. -/
theorem relI_eq (rel : Nat) (signed : Bool) (x y : Word) : relI rel signed x.toNat y.toNat = relWord rel signed x y := by
  have eq : (x == y) = decide (x.toNat = y.toNat) := by rw [beq_eq_decide, decide_eq_decide, BitVec.toNat_inj]
  have same : x.toNat = y.toNat ↔ x.toInt = y.toInt := BitVec.toNat_inj.trans BitVec.toInt_inj.symm
  unfold relI
  simp only [sext_toNat (w := 32) (by decide)]
  obtain _ | _ | _ | _ | _ | _ | _ | rel := rel <;> cases signed
  all_goals
    simp [relWord, bne, eq, BitVec.slt_eq_decide, BitVec.ult_eq_decide, BitVec.sle_eq_decide, BitVec.ule_eq_decide]
  all_goals
    rw [Bool.eq_iff_iff]
    simp only [decide_eq_true_eq, Bool.or_eq_true, Bool.and_eq_true, Bool.not_eq_true', decide_eq_false_iff_not]
    omega

/-- The flags of the lanes of a mask. -/
theorem getLsbD_foldl_lanes (m : Word) (fl : Nat → Word) (i : Nat) :
    ((laneList m).foldl (fun a l => a ||| fl l) 0).getLsbD i = (List.range 32).any (fun l => m.getLsbD l && (fl l).getLsbD i) := by
  have raised : ∀ (ls : List Nat) (a : Word),
      (ls.foldl (fun a l => a ||| fl l) a).getLsbD i = (a.getLsbD i || ls.any (fun l => (fl l).getLsbD i)) := fun ls => by
    induction ls with
    | nil => simp
    | cons l ls ih => intro a; simp [ih, Bool.or_assoc]
  rw [raised, laneList, List.any_filter]
  simp

theorem exec_predicate {i : Instr} {o : PredOp} {s : State} (op : predicateOp i = some o) (ok : o.ok = true) (cached : InCache i s)
    (issues : Issues o.sg o.g o.slot o.b s) :
    ∃ t, exec i s = .next t ∧ OnlyCourse o.g o.slot s t ∧ OnlyRegisters (courseOf s o.g o.slot) (courseOf t o.g o.slot) ∧
      AtNext (courseOf s o.g o.slot) (courseOf t o.g o.slot) ∧ SetsPredicate o (courseOf s o.g o.slot) (courseOf t o.g o.slot) := by
  obtain ⟨on, ready, legal, room⟩ := issues
  unfold predicateOp at op
  split at op
  case h_1 g k b =>
    cases op
    have legal : (sigOk (sigCmp b 0x7F 0x1F) b && decide (cmpRel b < 8)) = true := Bool.and_eq_true_iff.mpr ⟨legal, ok⟩
    refine ⟨_, exec_issue on ready cached rfl rfl legal room, performed_predicate ⟨_, rfl⟩ (fun l _ => ?_) fun i => ?_⟩
    · simp only [combine_eq, opd_srcA, opd_srcBI, relI_eq, bit_eq_testBit]
    · simp [noFlags, setP]
  case h_2 g k b =>
    cases op
    obtain ⟨type, rel⟩ := Bool.and_eq_true_iff.mp ok
    have legal : (sigOk (sigCmp b 0x186F 0x0F) b && ftypeOk b && decide (cmpRel b < 8)) = true := by
      rw [legal, type, rel]; rfl
    refine ⟨_, exec_issue on ready cached rfl rfl legal room, performed_predicate ⟨_, rfl⟩ (fun l _ => ?_) fun i => ?_⟩
    · simp only [combine_eq]
    · rw [raiseFlags_asw, BitVec.getLsbD_or, getLsbD_foldl_lanes]
      rfl
  case h_3 g k b =>
    cases op
    refine ⟨_, exec_issue on ready cached rfl rfl legal (Nat.zero_le _), performed_predicate ⟨_, rfl⟩ (fun l _ => ?_) fun i => ?_⟩
    · simp only [bit_eq_testBit]
    · simp [noFlags, setP]
  case h_4 => cases op

/-- Settles O7: each lane's bit stands in the mask that its predicate receives. -/
theorem predicatesCompute : Obligations.PredicatesCompute := by
  unfold Obligations.PredicatesCompute
  intro i o s
  exact exec_predicate

end Sys2Proof.Machine
end

