-- ==== Sys2Proof/Proofs/FloatCodes.lean ====
section
/-!
CERTIFICATE. Results of FP instructions as codes (R106, R159): which are NaNs, and which values rounding keeps.
-/
namespace Sys2Proof.Machine

/-! ## Codes of the formats that hold infinities and NaNs (R159) -/

/-- The exponent field of a code. -/
def expField (f : Fmt) (x : Nat) : Nat := x / 2 ^ f.mb % 2 ^ f.eb

theorem decodeF_ieee {f : Fmt} (ieee : f.kind = .ieee) (x : Nat) : decodeF f x =
    if expField f x = 2 ^ f.eb - 1 then
      (if x % 2 ^ f.mb = 0 then .inf (bit x (f.mb + f.eb)) else .nan (!bit (x % 2 ^ f.mb) (f.mb - 1)))
    else if expField f x = 0 then .fin (bit x (f.mb + f.eb)) (x % 2 ^ f.mb) (1 - f.bias - f.mb)
    else .fin (bit x (f.mb + f.eb)) (2 ^ f.mb + x % 2 ^ f.mb) ((expField f x : Int) - f.bias - f.mb) := by
  unfold decodeF expField
  rw [ieee, ← Nat.shiftRight_eq_div_pow]
  simp

/-- A code is a NaN where its exponent is the top one and its mantissa is not 0. -/
theorem isNanF_ieee {f : Fmt} (ieee : f.kind = .ieee) (x : Nat) :
    isNanF (decodeF f x) = true ↔ expField f x = 2 ^ f.eb - 1 ∧ x % 2 ^ f.mb ≠ 0 := by
  rw [decodeF_ieee ieee]
  split
  next top => split <;> simp_all [isNanF]
  next low => split <;> simp [isNanF, low]

/-! ## Binary32 -/

/-- No magnitude up to infinity's is a NaN, of either sign. -/
theorem notNan_of_le {m : Nat} (neg : Bool) (h : m ≤ 255 * 2 ^ 23) : isNanF (decodeF fp32 (signCode fp32 neg + m)) = false := by
  rw [Bool.eq_false_iff, Ne, isNanF_ieee rfl]
  cases neg <;> simp [signCode, fp32, expField] <;> omega

/-- A code that is a NaN only as the canonical one. -/
def Canonical (v : Nat) : Prop := isNanF (decodeF fp32 v) = true → v = 0x7FC00000

theorem canonical_nan : Canonical (nanCode fp32) := fun _ => by decide
theorem canonical_le {m : Nat} (neg : Bool) (h : m ≤ 255 * 2 ^ 23) : Canonical (signCode fp32 neg + m) := fun nan => by
  rw [notNan_of_le neg h] at nan
  cases nan
theorem canonical_inf (neg : Bool) : Canonical (infCode fp32 neg) := canonical_le neg (by decide)
theorem canonical_zero (neg : Bool) : Canonical (signCode fp32 neg) := canonical_le (m := 0) neg (by decide)

theorem flushCode_le (f : Fmt) (keep : Bool) (x : Nat) : (flushCode f keep x).1 ≤ x := by
  unfold flushCode
  split
  · exact Nat.sub_le _ _
  · exact le_rfl

/-- A rounded magnitude has its sign, and is at most infinity. -/
theorem roundIeee_code {f : Fmt} (ieee : f.kind = .ieee) (r : Rnd) (keep neg : Bool) (x : Mag) :
    ∃ m, m ≤ (2 ^ f.eb - 1) * 2 ^ f.mb ∧ (roundIeee f r keep neg x).code = signCode f neg + m := by
  have top : maxCode f ≤ (2 ^ f.eb - 1) * 2 ^ f.mb := by rw [maxCode, ieee]; exact Nat.sub_le _ _
  unfold roundIeee
  split
  · exact ⟨0, Nat.zero_le _, rfl⟩
  · extract_lets q k c toInf
    split
    · dsimp only
      cases toInf
      · exact ⟨_, top, rfl⟩
      · exact ⟨_, le_rfl, rfl⟩
    next inside => exact ⟨_, (flushCode_le _ _ _).trans ((Nat.not_lt.mp inside).trans top), rfl⟩

theorem canonical_roundIeee (r : Rnd) (keep neg : Bool) (x : Mag) : Canonical (roundIeee fp32 r keep neg x).code := by
  obtain ⟨m, le, code⟩ := roundIeee_code (f := fp32) rfl r keep neg x
  rw [code]
  exact canonical_le neg le

theorem canonical_roundF (r : Rnd) (keep : Bool) (v : FVal) : Canonical (roundF fp32 r keep v).code := by
  cases v with
  | nan s => exact canonical_nan
  | inf n => exact canonical_inf n
  | fin n m e => exact canonical_roundIeee _ _ _ _

theorem canonical_fRcp (r : Rnd) (keep na : Bool) (a : Nat) : Canonical (fRcp fp32 r keep na a).code := by
  unfold fRcp
  dsimp only
  split
  · exact canonical_nan
  · exact canonical_zero _
  · split
    · exact canonical_inf _
    · exact canonical_roundIeee _ _ _ _

theorem canonical_fSqrt (r : Rnd) (keep na : Bool) (a : Nat) : Canonical (fSqrt fp32 r keep na a).code := by
  unfold fSqrt
  dsimp only
  split
  · exact canonical_nan
  · split
    · exact canonical_nan
    · exact canonical_inf _
  · split
    · exact canonical_zero _
    · split
      · exact canonical_nan
      · exact canonical_roundIeee _ _ _ _

/-! ## A value that needs no rounding -/

/-- Where a magnitude lies on the quantum, its rounding keeps it. -/
theorem roundIeee_exact {f : Fmt} (r : Rnd) (neg : Bool) {m : Nat} {e : Int} (pos : m ≠ 0) (quantum : quantumOf f ⟨m, e, false⟩ = e)
    (inside : packMag f m e ≤ maxCode f) : (roundIeee f r true neg ⟨m, e, false⟩).code = signCode f neg + packMag f m e := by
  have cut : cutAt r neg ⟨m, e, false⟩ e = ⟨m, false, false⟩ := by simp [cutAt, shiftTo]
  have some : ¬ magPos ⟨m, e, false⟩ = false := by simp [magPos, pos]
  unfold roundIeee
  rw [if_neg some]
  dsimp only
  rw [quantum, cut, show (⟨m, false, false⟩ : Kept).rounded = m from rfl, if_neg (Nat.not_lt.mpr inside)]
  rfl

/-- A code in its three fields. -/
theorem code_fields {f : Fmt} {x : Nat} (hx : x < 2 ^ (1 + f.eb + f.mb)) :
    signCode f (bit x (f.mb + f.eb)) + (expField f x * 2 ^ f.mb + x % 2 ^ f.mb) = x := by
  have mant := Nat.div_add_mod' x (2 ^ f.mb)
  have field := Nat.div_add_mod' (x / 2 ^ f.mb) (2 ^ f.eb)
  rw [Nat.div_div_eq_div_mul, ← pow_add] at field
  have sign : x / 2 ^ (f.mb + f.eb) < 2 := by
    rw [show 1 + f.eb + f.mb = f.mb + f.eb + 1 by omega, pow_succ] at hx
    exact Nat.div_lt_of_lt_mul hx
  have signed : signCode f (bit x (f.mb + f.eb)) = x / 2 ^ (f.mb + f.eb) * (2 ^ f.eb * 2 ^ f.mb) := by
    rw [signCode, bit, Nat.shiftRight_eq_div_pow, Nat.mod_eq_of_lt sign, ← pow_add]
    obtain zero | one := Nat.le_one_iff_eq_zero_or_eq_one.mp (Nat.le_of_lt_succ sign)
    · rw [zero]; simp
    · rw [one]; simp
  rw [signed, ← Nat.mul_assoc, ← Nat.add_assoc, ← Nat.add_mul, expField, field, mant]

/-- A code that is no NaN rounds to itself. -/
theorem roundF_decodeF {f : Fmt} (ieee : f.kind = .ieee) (r : Rnd) {x : Nat} (hx : x < 2 ^ (1 + f.eb + f.mb))
    (notNan : isNanF (decodeF f x) = false) : (roundF f r true (decodeF f x)).code = x := by
  have fields := code_fields hx
  have top : maxCode f = (2 ^ f.eb - 1) * 2 ^ f.mb - 1 := by rw [maxCode, ieee]
  rw [Bool.eq_false_iff, Ne, isNanF_ieee ieee] at notNan
  rw [decodeF_ieee ieee]
  have mant : x % 2 ^ f.mb < 2 ^ f.mb := Nat.mod_lt _ (Nat.two_pow_pos _)
  have field : expField f x < 2 ^ f.eb := Nat.mod_lt _ (Nat.two_pow_pos _)
  generalize expField f x = ex at *
  generalize x % 2 ^ f.mb = m at *
  generalize bit x (f.mb + f.eb) = neg at *
  split
  next inf =>
    obtain rfl : m = 0 := by simpa [inf] using notNan
    rw [if_pos rfl, ← fields, inf]
    rfl
  next finite =>
    have below : ex * 2 ^ f.mb + m ≤ maxCode f := by
      have := Nat.mul_le_mul_right (2 ^ f.mb) (show ex + 1 ≤ 2 ^ f.eb - 1 by omega)
      rw [Nat.succ_mul] at this
      omega
    split
    next sub =>
      subst sub
      by_cases zero : m = 0
      · rw [← fields, zero]; simp [roundF, roundIeee, magPos]
      · have len : bitLen m ≤ f.mb := by
          rw [bitLen, if_neg zero]
          exact (Nat.log2_lt zero).mpr mant
        have pack : packMag f m (1 - f.bias - f.mb) = m := by simp [packMag, minQuantum]
        refine (roundIeee_exact r neg zero ?_ ?_).trans ?_
        · simp only [quantumOf, magLog2, minQuantum]; omega
        · rw [pack]; omega
        · rw [pack]; omega
    next normal =>
      have len : bitLen (2 ^ f.mb + m) = f.mb + 1 := by
        rw [bitLen, if_neg (by omega), (Nat.log2_eq_iff (by omega)).mpr ⟨Nat.le_add_right _ _, by rw [pow_succ]; omega⟩]
      have pack : packMag f (2 ^ f.mb + m) ((ex : Int) - f.bias - f.mb) = ex * 2 ^ f.mb + m := by
        have : ((ex : Int) - f.bias - f.mb - minQuantum f).toNat = ex - 1 := by simp only [minQuantum]; omega
        rw [packMag, this, Nat.sub_one_mul, ← Nat.add_assoc, Nat.sub_add_cancel (Nat.le_mul_of_pos_left _ (by omega))]
      refine (roundIeee_exact r neg (by omega) ?_ ?_).trans ?_
      · simp only [quantumOf, magLog2, minQuantum, len]; omega
      · rw [pack]; exact below
      · rw [pack]; exact fields

theorem readF_keep {x : Nat} (hx : x < 2 ^ 32) : readF fp32 true false x = (decodeF fp32 x, 0) := by
  rw [readF, show fp32.width = 32 from rfl, Nat.mod_eq_of_lt hx]
  rfl

/-- Settles O8: a result is rounded, and rounding makes no NaN; a code that is no NaN rounds to itself. -/
theorem nanResultsAreCanonical : Obligations.NanResultsAreCanonical := by
  unfold Obligations.NanResultsAreCanonical
  refine ⟨?_, ?_⟩
  · rintro r keep na nb nc x y z v (rfl | rfl | rfl | rfl | rfl | rfl | rfl)
    · exact canonical_roundF _ _ _
    · exact canonical_roundF _ _ _
    · exact canonical_roundF _ _ _
    · exact canonical_roundF _ _ _
    · exact canonical_roundF _ _ _
    · exact canonical_fRcp _ _ _ _
    · exact canonical_fSqrt _ _ _ _
  · intro isMax x y hx hy
    unfold fMinMax
    rw [readF_keep hx, readF_keep hy]
    dsimp only
    refine ⟨fun nanX nanY => ?_, fun nanX numY => ?_, fun numX nanY => ?_⟩
    · simp only [nanX, nanY]; rfl
    · simp only [nanX, numY]; exact roundF_decodeF rfl _ hy numY
    · simp only [numX, nanY]; exact roundF_decodeF rfl _ hx numX

end Sys2Proof.Machine
end

