-- ==== Sys2Proof/Proofs/Atomics.lean ====
section
/-!
CERTIFICATE. ATOM (R115, R116, R281): the value it leaves, its lanes in consort memory, and its GLOBAL targets.
-/
namespace Sys2Proof.Machine

/-! ## The value an atomic leaves (R115) -/

/-- Orders on numbers of `w` bits are those on words; a word of no bits has one value. -/
theorem atomVal_word {w aop : Nat} (old x cmp : BitVec w) (noFadd : aop ≠ 1) (known : aop ≤ 10) :
    BitVec.ofNat w (atomVal aop w old.toNat x.toNat cmp.toNat) = atomWord aop old x cmp := by
  have choose : ∀ (p q : Prop) [Decidable p] [Decidable q] (a b : BitVec w), (p ↔ q) →
      BitVec.ofNat w (if p then a.toNat else b.toNat) = if q then a else b := fun p q _ _ a b same => by
    by_cases h : p
    · rw [if_pos h, if_pos (same.mp h), BitVec.ofNat_toNat, BitVec.setWidth_eq]
    · rw [if_neg h, if_neg fun h' => h (same.mpr h'), BitVec.ofNat_toNat, BitVec.setWidth_eq]
  obtain rfl | pos := Nat.eq_zero_or_pos w
  · exact BitVec.eq_of_zero_length rfl
  obtain _ | _ | _ | _ | _ | _ | _ | _ | _ | _ | _ | aop := aop
  · exact BitVec.eq_of_toNat_eq (by simp [atomVal, atomWord])
  · exact absurd rfl noFadd
  · exact choose _ _ _ _ (by rw [sext_toNat pos, sext_toNat pos, BitVec.slt_iff_toInt_lt])
  · exact choose _ _ _ _ (by rw [sext_toNat pos, sext_toNat pos, BitVec.slt_iff_toInt_lt])
  · refine (congrArg (BitVec.ofNat w) ?_).trans (choose (x.toNat < old.toNat) _ x old BitVec.ult_iff_toNat_lt.symm)
    show min old.toNat x.toNat = _
    split <;> omega
  · refine (congrArg (BitVec.ofNat w) ?_).trans (choose (old.toNat < x.toNat) _ x old BitVec.ult_iff_toNat_lt.symm)
    show max old.toNat x.toNat = _
    split <;> omega
  · exact BitVec.eq_of_toNat_eq (by simp [atomVal, atomWord])
  · exact BitVec.eq_of_toNat_eq (by simp [atomVal, atomWord])
  · exact BitVec.eq_of_toNat_eq (by simp [atomVal, atomWord])
  · exact BitVec.eq_of_toNat_eq (by simp [atomVal, atomWord])
  · exact choose _ _ _ _ BitVec.toNat_inj
  · omega

/-! ## Consort memory (R115) -/

theorem otherDrain_of_core {s t : State} {g : Nat} (courses : (coreOf t g).courses = (coreOf s g).courses)
    (harp : (coreOf t g).harp = (coreOf s g).harp) (k : Nat) : otherDrain t g k = otherDrain s g k := by
  unfold otherDrain drainOf harpOf courseOf
  rw [courses, harp]

/-- One lane of an ATOM on consort memory. -/
def atomLane (g k : Nat) (o : AtomOp) (r : State × List (Nat × List Byte)) (x : Nat × Nat) : State × List (Nat × List Byte) :=
  let old := cmemRead r.1 g k x.2 o.n
  (cmemWrite g k x.2 (leBytes o.n (atomVal o.aop (8 * o.n) (leNat old) (o.x x.1) (o.cmp x.1))) r.1, r.2 ++ [(x.1, old)])

/-- The lanes in ascending order, each on what the one before left, where no other course's drain runs. -/
theorem foldl_atomLane (g k : Nat) (o : AtomOp) (xs : List (Nat × Nat)) (s : State) (found : List (Nat × List Byte))
    (still : otherDrain s g k = none) :
    let r := xs.foldl (atomLane g k o) (s, found)
    let run := atomRun o.aop o.n o.x o.cmp (cmemBase s g k) xs (coreOf s g).cmem
    coreOf r.1 g = { coreOf s g with cmem := run.1 } ∧ r.2 = found ++ run.2 ∧ SameOutside g s r.1 := by
  induction xs generalizing s found with
  | nil => exact ⟨rfl, (List.append_nil _).symm, .refl g s⟩
  | cons x xs ih =>
    have read : cmemRead s g k x.2 o.n = rdList (coreOf s g).cmem (cmemBase s g k + x.2) o.n := by
      rw [cmemRead, cmemSeen, still]
    rw [List.foldl_cons, atomLane, atomRun, read]
    generalize rdList (coreOf s g).cmem (cmemBase s g k + x.2) o.n = old
    dsimp only
    generalize leBytes o.n (atomVal o.aop (8 * o.n) (leNat old) (o.x x.1) (o.cmp x.1)) = new
    have core := coreOf_cmemWrite g k x.2 new s
    have outside := sameOutside_cmemWrite g k x.2 new s
    generalize cmemWrite g k x.2 new s = u at core outside
    have base : cmemBase u g k = cmemBase s g k := cmemBase_of_core (by rw [core]) (by rw [core]) k
    obtain ⟨rest, listed, outside'⟩ := ih u (found ++ [(x.1, old)]) ((otherDrain_of_core (by rw [core]) (by rw [core]) k).trans still)
    rw [base, core] at rest listed
    exact ⟨rest, listed.trans (List.append_assoc _ _ _), outside.trans outside'⟩

section
variable {g k : Nat} {b : InstrBits} {s : State} (ready : Ready g k s) (cached : InCache (.atom g k b) s) (legal : atomOk b = true)
  (closed : (courseOf s g k).pour = .closed) (room : atomTop b ≤ (consortOf s g (courseOf s g k).consort).ra)
include ready cached legal closed room

/-- On consort memory, once no drain or clear of the course runs. -/
theorem exec_atom_cmem (space : mSpace b = 1) (free : harpPending s g k = false)
    (bar : accessBar s g k (mBytes b) true (laneAddrs (courseOf s g k) b (!aNoret b) 0) = none) :
    let r := (laneAddrs (courseOf s g k) b (!aNoret b) 0).foldl (atomLane g k (atomOf (courseOf s g k) b)) (endRsv g k s, [])
    exec (.atom g k b) s = .next (finishAtom g k (mBytes b) b (aNoret b) r.2 (seenTurn g k r.1)) := by
  dsimp only
  rw [exec_issue ready.1 ready.2 cached rfl rfl (by simp [legal, closed]) room]
  dsimp only
  rw [decide_eq_true space, accessBar_endRsv, bar, harpPending_endRsv, free]
  rfl

/-- On its lanes' targets. -/
theorem exec_atom_global (space : mSpace b = 0)
    (bar : accessBar s g k (mBytes b) false (laneAddrs (courseOf s g k) b (!aNoret b) 0) = none) :
    exec (.atom g k b) s = .next (atomGlobal g k (atomOf (courseOf s g k) b) (finishAtom g k (mBytes b) b (aNoret b))
      (laneAddrs (courseOf s g k) b (!aNoret b) 0) (endRsv g k s)) := by
  rw [exec_issue ready.1 ready.2 cached rfl rfl (by simp [legal, closed]) room]
  dsimp only
  rw [decide_eq_false (by rw [space]; decide), accessBar_endRsv, bar]
  rfl

end

/-- An atomic whose lanes are done: the course goes on with what they found. -/
theorem finishAtom_eq (g k n : Nat) (b : InstrBits) (noret : Bool) (vs : List (Nat × List Byte)) (s : State) :
    finishAtom g k n b noret vs s = retire g k (if noret then courseOf s g k
      else writeD (courseOf s g k) b (n / 4) (fun l => ⟨leNat (laneVal [] vs l), 0⟩)) (endWaits (.course g k) s) := rfl

/-- An atomic on consort memory, where no drain of its own course or of another runs. -/
theorem atom_cmem {g k : Nat} {b : InstrBits} {s : State} (ready : Ready g k s) (cached : InCache (.atom g k b) s) (legal : atomOk b = true)
    (closed : (courseOf s g k).pour = .closed) (room : atomTop b ≤ (consortOf s g (courseOf s g k).consort).ra) (space : mSpace b = 1)
    (free : harpPending s g k = false) (still : otherDrain s g k = none)
    (bar : accessBar s g k (mBytes b) true (laneAddrs (courseOf s g k) b (!aNoret b) 0) = none) :
    Next (.atom g k b) s (fun t =>
      let c := courseOf s g k
      let o := atomOf c b
      let r := atomRun o.aop o.n o.x o.cmp (cmemBase s g k) (laneAddrs c b (!aNoret b) 0) (coreOf s g).cmem
      (coreOf t g).cmem = r.1 ∧ SameOutside g s t ∧ SameCourses g k s t ∧
      courseOf t g k = advance (if aNoret b then unreserved c
        else writeD (unreserved c) b (o.n / 4) (fun l => ⟨leNat (laneVal [] r.2 l), 0⟩))) := by
  refine ⟨_, exec_atom_cmem ready cached legal closed room space free bar, ?_⟩
  obtain ⟨core, found, outside⟩ := foldl_atomLane g k (atomOf (courseOf s g k) b) (laneAddrs (courseOf s g k) b (!aNoret b) 0) (endRsv g k s) []
    (((seesAlike_endRsv g k s).otherDrain k).trans still)
  generalize (laneAddrs (courseOf s g k) b (!aNoret b) 0).foldl (atomLane g k (atomOf (courseOf s g k) b)) (endRsv g k s, []) = r
    at core found outside ⊢
  obtain ⟨u, vs⟩ := r
  rw [cmemBase_endRsv, coreOf_endRsv] at core found
  have found : vs = _ := found
  have seen : coreOf (endWaits (.course g k) (seenTurn g k u)) g = coreOf u g := coreOf_seenTurn g k g u
  have course : courseOf (seenTurn g k u) g k = unreserved (courseOf s g k) := by
    unfold courseOf
    rw [coreOf_seenTurn, core]
    exact tget_tset_self _ _ _ _
  rw [finishAtom_eq, course, found]
  dsimp only
  rw [coreOf_retire, courseOf_retire, seen, core]
  refine ⟨rfl, ?_, ?_, rfl⟩
  · obtain ⟨x, waits⟩ := endWaits_xl (.course g k) (seenTurn g k u)
    refine (sameOutside_endRsv g k s).trans (outside.trans ((sameOutside_seenTurn g k u).trans (.trans ?_ (sameOutside_retire _ _ _ _))))
    rw [waits]
    exact sameOutside_xl g _ x
  · refine .trans ⟨fun i hi => ?_, ?_⟩ (sameCourses_retire _ _ _ _)
    · unfold courseOf
      rw [seen, core]
      exact tget_tset_ne _ hi _
    · rw [seen, core]
      exact ⟨rfl, rfl, rfl, rfl, rfl⟩

/-! ## Targets (R116, R281) -/

theorem atomGlobal_done {g k : Nat} {o : AtomOp} {fin : List (Nat × List Byte) → State → State} {ls : List (Nat × Nat)} {s s1 s2 s3 : State}
    {ts : List (Nat × Nat × Target)} {bs vs : List (Nat × List Byte)} (targets : laneTargets (courseAccess s g k) true ls s = (s1, .ok ts))
    (may : ∀ x ∈ ts, ∀ e, atomBar s1 g o.aop x.2.2 x.2.1 ≠ .fail e)
    (asks : eachLane (fun x s' => atomAsk g k o (courseAccess s g k) x.1 x.2.1 x.2.2 s') ts s1 = (s2, .ok bs))
    (acts : eachLane (fun x s' => atomDo g k o x.1 x.2.2 (laneVal [] bs x.1) s') ts s2 = (s3, .ok vs)) :
    atomGlobal g k o fin ls s = fin vs s3 := by
  unfold atomGlobal
  simp only [targets]
  split
  next x found =>
    have barred := List.find?_some found
    split at barred
    next e bar => exact absurd bar (may x (List.mem_of_find?_eq_some found) e)
    next => cases barred
  next => simp only [asks, acts]

theorem noticed_bumpFree (s : State) (n : Nat) : Noticed s (bumpFree s n) := .of_kept rfl rfl rfl

theorem noticed_l1Store (g tag off : Nat) (bs : List Byte) (s : State) : Noticed s (l1Store g tag off bs s) := by
  unfold l1Store
  split
  · exact .refl s
  · exact noticed_setCore _ _ _

/-- A store to HBM under the key that its line was last written under, in a casting's name: the bytes stored, and no others. -/
theorem mem_asCourse_putDev {g k dpa i : Nat} {s : State} (place : placeOf (locOf dpa) = .hbm i)
    (tag : lineTag s (lineOf (locOf dpa)) = keyTag s (keyselOf dpa)) (bs : List Byte) :
    (asCourse g k (putDev dpa bs false false) s).mm.mem = wrList s.mm.mem (locOf dpa) bs := by
  unfold asCourse asOwner
  generalize some (castingOfCourse s g k, nodeOf s (castingOfCourse s g k) (some (clOf g))) = who
  obtain ⟨m, ky, p, c, r, stored, written, -⟩ := putDev_hbm_changes place bs false false { s with owner := who }
  have same : rekey (keyTag { s with owner := who } (keyselOf dpa)) (lineOf (locOf dpa)) { s with owner := who } = { s with owner := who } :=
    if_pos tag.symm
  rw [same] at written
  rw [stored]
  exact written

/-- A lane on HBM: it receives what it found, and leaves its new value there. -/
theorem atomDo_hbm {g k l dpa i : Nat} {o : AtomOp} {back old : List Byte} {s : State} (read : devRead s g dpa o.n = .ok old)
    (place : placeOf (locOf dpa) = .hbm i) (tag : lineTag s (lineOf (locOf dpa)) = keyTag s (keyselOf dpa)) :
    ∃ t, atomDo g k o l (.dev dpa) back s = (t, .ok old) ∧
      t.mm.mem = wrList s.mm.mem (locOf dpa) (leBytes o.n (atomVal o.aop (8 * o.n) (leNat old) (o.x l) (o.cmp l))) := by
  have note : readNote dpa (.ok old) s = bumpFree s 1 := by simp only [readNote, readDone, place]
  unfold atomDo
  simp only [read, note]
  refine ⟨_, rfl, ?_⟩
  have noticed := (noticed_bumpFree s 1).trans <| (noticed_beforeWrite dpa o.n (some (g, k)) _).trans <|
    (noticed_atomHome dpa o.far _).trans <|
    noticed_l1Store g (l1Dev dpa) (dpa % 128) (leBytes o.n (atomVal o.aop (8 * o.n) (leNat old) (o.x l) (o.cmp l))) _
  rw [mem_asCourse_putDev place ?_, noticed.mem]
  simp only [lineTag, keyTag, noticed.key, noticed.sec] at tag ⊢
  exact tag

/-- Settles O14: the lanes in consort memory by induction over their list; on HBM what is noticed before a store leaves memory and keys. -/
theorem atomicsOperate : Obligations.AtomicsOperate := by
  unfold Obligations.AtomicsOperate
  refine ⟨fun w aop old x cmp => atomVal_word old x cmp, fun _ _ _ _ => atom_cmem, ?_, fun _ _ _ _ _ _ _ _ _ => atomDo_hbm⟩
  intro g k b s s1 s2 s3 ts bs vs ready cached legal closed room space bar a o targets may asks acts
  refine ⟨_, exec_atom_global ready cached legal closed room space bar, ?_⟩
  rw [atomGlobal_done targets may asks acts, finishAtom_eq]
  exact ⟨courseOf_retire _ _ _ _, (counted_countCore _ _ _ _).mm⟩

end Sys2Proof.Machine
end

