-- ==== Sys2Proof/Proofs/Reservations.lean ====
section
/-!
CERTIFICATE. LD.RSV and ST.CND (R117, R276): the reservations that a course makes, and the lanes that store.
-/
namespace Sys2Proof.Machine

/-! ## LD.RSV -/

/-- Each address has its target, in the lanes' order. -/
theorem lanes_laneTargets {a : Acc2} {wr : Bool} (ls : List (Nat × Nat)) {s t : State} {ts : List (Nat × Nat × Target)}
    (h : laneTargets a wr ls s = (t, .ok ts)) : ts.map Prod.fst = ls.map Prod.fst := by
  induction ls generalizing s ts with
  | nil => cases h; rfl
  | cons x ls ih =>
    rw [laneTargets] at h
    split at h
    next => cases h
    next => cases h
    next found =>
      split at h
      next rest =>
        cases h
        exact congrArg (x.1 :: ·) (ih rest)
      next r other => exact absurd h (other _ _)

/-- The target of a lane's reservation: the one access's where D is uniform. -/
def rsvAt (b : InstrBits) (ts : List (Nat × Nat × Target)) (l : Nat) : Nat × Nat × Target :=
  if b.du then nth (0, 0, .host 0) ts 0 else (ts.find? (fun x => decide (x.1 = l))).getD (0, 0, .host 0)

theorem rsvAt_eq {b : InstrBits} {ts : List (Nat × Nat × Target)} {l : Nat} {x : Nat × Nat × Target} (hx : x ∈ ts)
    (lane : x.1 = if b.du then 0 else l) (only : ∀ y ∈ ts, y.1 = x.1 → y = x) (one : b.du = true → ts.map Prod.fst = [0]) :
    rsvAt b ts l = x := by
  unfold rsvAt
  cases du : b.du with
  | true =>
    obtain ⟨y, rfl⟩ : ∃ y, ts = [y] := List.length_eq_one_iff.mp (by simpa using congrArg List.length (one du))
    exact (List.mem_singleton.mp hx).symm
  | false =>
    simp only [du, Bool.false_eq_true, if_false] at lane ⊢
    have found : (ts.find? (fun x => decide (x.1 = l))).isSome := List.find?_isSome.mpr ⟨x, hx, by simp [lane]⟩
    obtain ⟨y, hy⟩ := Option.isSome_iff_exists.mp found
    rw [hy]
    exact only y (List.mem_of_find?_eq_some hy) (by simpa [lane] using List.find?_some hy)

/-- A table that takes a value for each number of a list that passes a test. -/
theorem tget_foldl_tset_if (p : Nat → Bool) (v : Nat → Nat) (ls : List Nat) (t : Tbl Nat) (l : Nat) :
    tget 0 (ls.foldl (fun t l => if p l then tset 0 t l (v l) else t) t) l = if l ∈ ls ∧ p l = true then v l else tget 0 t l := by
  induction ls generalizing t with
  | nil => simp
  | cons x ls ih =>
    rw [List.foldl_cons, ih]
    by_cases here : l = x
    · subst here
      cases p l <;> simp [tget_tset_self]
    · cases p x <;> simp [here, tget_tset_ne]

/-- The reservations of the lanes that run. -/
def rsvTable (s : State) (g : Nat) (c : Course) (b : InstrBits) (ts : List (Nat × Nat × Target)) : Tbl Nat :=
  (laneList (lanesOf c b)).foldl (fun r l => if canWatch s g (rsvAt b ts l).2.2 then tset 0 r l (cohLine (rsvAt b ts l).2.2 + 1) else r) []

theorem tget_rsvTable (s : State) (g : Nat) {c : Course} {b : InstrBits} (ts : List (Nat × Nat × Target)) {l : Nat} (hl : l < 32)
    (runs : (lanesOf c b).getLsbD l = true) :
    tget 0 (rsvTable s g c b ts) l = if canWatch s g (rsvAt b ts l).2.2 then cohLine (rsvAt b ts l).2.2 + 1 else 0 := by
  have among : l ∈ laneList (lanesOf c b) := List.mem_filter.mpr ⟨List.mem_range.mpr hl, runs⟩
  rw [rsvTable, tget_foldl_tset_if (fun l => canWatch s g (rsvAt b ts l).2.2)]
  simp [among]

theorem exec_ldRsv {g k : Nat} {b : InstrBits} {s s1 s2 : State} {ts : List (Nat × Nat × Target)} {vs : List (Nat × List Byte)}
    (ready : Ready g k s) (cached : InCache (.ldRsv g k b) s) (legal : rsvOk b = true) (closed : (courseOf s g k).pour = .closed)
    (room : max ((wordForm (mBytes b)).top b.du (fldD b)) (Form.top .pair b.au (fldA b)) ≤ (consortOf s g (courseOf s g k).consort).ra)
    (bar : accessBar s g k (mBytes b) false (laneAddrs (courseOf s g k) b true 0) = none)
    (targets : laneTargets (courseAccess (endRsv g k s) g k) false (laneAddrs (courseOf s g k) b true 0) (endRsv g k s) = (s1, .ok ts))
    (may : rsvBar s1 g ts = none)
    (loads : eachLane (fun x s' => rsvLoad g k (mBytes b) (courseAccess (endRsv g k s) g k) x.2.2 x.2.1 s') ts s1 = (s2, .ok vs)) :
    exec (.ldRsv g k b) s = .next (retire g k (writeD { courseOf s2 g k with rsv := rsvTable s2 g (courseOf s g k) b ts } b (mBytes b / 4)
      (fun l => ⟨leNat (laneVal [] vs l), 0⟩)) (endWaits (.course g k) s2)) := by
  rw [exec_issue ready.1 ready.2 cached rfl rfl (by simp [legal, closed]) room]
  dsimp only
  rw [accessBar_endRsv, bar]
  simp only [targets, may, loads]
  rfl

theorem mm_retire (g k : Nat) (c : Course) (s : State) : (retire g k c s).mm = s.mm := (counted_countCore _ _ _ _).mm

/-! ## ST.CND -/

theorem mem_cndWinners (c : Course) (ts : List (Nat × Nat × Target)) (x : Nat × Nat × Target) : x ∈ cndWinners c ts ↔
    x ∈ ts ∧ tget 0 c.rsv x.1 = cohLine x.2.2 + 1 ∧ ∀ y ∈ ts, y.1 < x.1 → cohLine y.2.2 ≠ cohLine x.2.2 := by
  simp [cndWinners]

/-- Lanes that win name different lines. -/
theorem cndWinners_lines (c : Course) {ts : List (Nat × Nat × Target)} (rising : ts.Pairwise (fun x y => x.1 < y.1)) :
    (cndWinners c ts).Pairwise (fun x y => cohLine x.2.2 ≠ cohLine y.2.2) := by
  refine (rising.filter _).imp_of_mem fun {x y} hx hy below => ?_
  obtain ⟨-, -, lowest⟩ := (mem_cndWinners c ts y).mp hy
  exact lowest x ((mem_cndWinners c ts x).mp hx).1 below

theorem endHolds_txn (g k : Nat) (lines : List Nat) (s : State) : ∃ x, endHolds g k lines s = { s with mm := { s.mm with txn := x } } := by
  refine List.foldlRecOn lines _ (motive := fun t : State => ∃ x, t = { s with mm := { s.mm with txn := x } }) ⟨s.mm.txn, rfl⟩
    fun t ⟨x, e⟩ l _ => ?_
  split
  · exact ⟨_, by rw [e]; rfl⟩
  · exact ⟨x, e⟩

theorem endHolds_keeps (g k : Nat) (lines : List Nat) (w : Waiter) (s : State) :
    (endReads w (endHolds g k lines s)).mm.mem = s.mm.mem ∧ (endReads w (endHolds g k lines s)).mm.host = s.mm.host ∧
      courseOf (endReads w (endHolds g k lines s)) g k = courseOf s g k := by
  obtain ⟨x, held⟩ := endHolds_txn g k lines s
  rw [held]
  exact ⟨rfl, rfl, rfl⟩

/-- The stores of the lanes that win, in their order. -/
def cndStores (g k : Nat) (b : InstrBits) (a : Acc2) (c : Course) (wins : List (Nat × Nat × Target)) (s : State) : State :=
  asCourse g k (fun s => wins.foldl (fun s x =>
    storeTarget g k 0 a x.2.2 x.2.1 (leBytes (mBytes b) (opdN c b.bu (fldB b) (mBytes b) x.1)) s) s) s

/-- The course after its ST.CND: no reservation is left, and p[D] tells which lanes have stored. -/
def cndCourse (b : InstrBits) (c c' : Course) (ts wins : List (Nat × Nat × Target)) : Course :=
  setP { c' with
    rsv := [], lost := []
    escalated := c'.escalated ++ (cndLost c ts wins).filter (fun l => !c'.escalated.contains l) }
    (fldD b) (lanesOf c b) (maskOf (fun l => wins.any (fun x => decide (x.1 = l))))

theorem cndCourse_advanced (b : InstrBits) (c c' : Course) (ts wins : List (Nat × Nat × Target)) :
    (advance (cndCourse b c c' ts wins)).rsv = [] ∧ (advance (cndCourse b c c' ts wins)).lost = [] ∧
      ∀ l, l < 32 → (preg (advance (cndCourse b c c' ts wins)) (fldD b)).getLsbD l =
        if (lanesOf c b).getLsbD l then wins.any (fun x => decide (x.1 = l)) else (preg c' (fldD b)).getLsbD l := by
  obtain ⟨p, m, st, moved⟩ := advance_changes (cndCourse b c c' ts wins)
  refine ⟨by rw [moved]; rfl, by rw [moved]; rfl, fun l hl => ?_⟩
  rw [preg_advance, cndCourse, preg_setP, if_pos rfl, BitVec.getLsbD_or, BitVec.getLsbD_and, BitVec.getLsbD_and, BitVec.getLsbD_not,
    getLsbD_maskOf _ hl, decide_eq_true hl]
  cases (lanesOf c b).getLsbD l
  · simp [preg]
  · simp

theorem exec_stCnd {g k : Nat} {b : InstrBits} {s s1 s2 : State} {ts : List (Nat × Nat × Target)} {us : List (Nat × Unit)}
    (ready : Ready g k s) (cached : InCache (.stCnd g k b) s) (legal : cndOk b = true) (closed : (courseOf s g k).pour = .closed)
    (room : max (Form.top .pair b.au (fldA b)) ((wordForm (mBytes b)).top b.bu (fldB b)) ≤ (consortOf s g (courseOf s g k).consort).ra)
    (bar : accessBar s g k (mBytes b) false (laneAddrs (courseOf s g k) b false 0) = none)
    (targets : laneTargets (courseAccess s g k) true (laneAddrs (courseOf s g k) b false 0) s = (s1, .ok ts)) (may : rsvBar s1 g ts = none)
    (checks : eachLane (fun x s' => storeCheck g k (courseAccess s g k) x.2.2 x.2.1 s') ts s1 = (s2, .ok us)) :
    let c := courseOf s2 g k
    let s3 := cndStores g k b (courseAccess s g k) c (cndWinners c ts) s2
    let s4 := endReads (.course g k) (endHolds g k (ts.map (fun x => cohLine x.2.2)) s3)
    exec (.stCnd g k b) s = .next (retire g k (cndCourse b c (courseOf s4 g k) ts (cndWinners c ts)) s4) := by
  dsimp only
  rw [exec_issue ready.1 ready.2 cached rfl rfl (by simp [legal, closed]) room]
  dsimp only
  rw [bar]
  simp only [targets, may, checks]
  rfl

/-- Settles O15: the reservations are a table over the lanes that run; the winners are filtered out of the lanes' targets. -/
theorem reservationsGuardStores : Obligations.ReservationsGuardStores := by
  unfold Obligations.ReservationsGuardStores
  refine ⟨?_, ?_, fun c ts rising => ⟨mem_cndWinners c ts, cndWinners_lines c rising⟩⟩
  · intro g k b s s1 s2 ts vs ready cached legal closed room bar targets may loads
    refine ⟨_, exec_ldRsv ready cached legal closed room bar targets may loads, rsvTable s2 g (courseOf s g k) b ts,
      (counted_countCore _ _ _ _).mm, courseOf_retire _ _ _ _, fun l hl runs x hx lane only => ?_⟩
    have one : b.du = true → ts.map Prod.fst = [0] := fun du => by
      rw [lanes_laneTargets _ targets]; simp [laneAddrs, du]
    rw [tget_rsvTable s2 g ts hl runs, rsvAt_eq hx lane only one]
  · intro g k b s s1 s2 ts us ready cached legal closed room bar a targets may checks
    refine ⟨_, exec_stCnd ready cached legal closed room bar targets may checks, ?_⟩
    obtain ⟨mem, host, course⟩ := endHolds_keeps g k (ts.map (fun x => cohLine x.2.2)) (.course g k)
      (cndStores g k b a (courseOf s2 g k) (cndWinners (courseOf s2 g k) ts) s2)
    rw [course, courseOf_retire, mm_retire]
    exact ⟨mem, host, cndCourse_advanced _ _ _ _ _⟩

end Sys2Proof.Machine
end

