-- ==== Sys2Proof/Proofs/Semaphores.lean ====
section
/-!
CERTIFICATE. SEM.SIG and SEM.RD (R118): what they add and read, and the end of a casting whose index is out of range.
-/
namespace Sys2Proof.Machine

/-! ## The end of a casting and the semaphores -/

theorem Noticed.sema {s t : State} (h : Noticed s t) : t.mm.sema = s.mm.sema := congrArg (fun x => x.mm.sema) h.rest

theorem sema_foldl {β : Type} {f : State → β → State} (h : ∀ s x, (f s x).mm.sema = s.mm.sema) (xs : List β) (s : State) :
    (xs.foldl f s).mm.sema = s.mm.sema :=
  List.foldlRecOn xs f (motive := fun t => t.mm.sema = s.mm.sema) rfl (fun t ht x _ => (h t x).trans ht)

theorem sema_setCore (s : State) (g : Nat) (c : Core) : (setCore s g c).mm.sema = s.mm.sema := rfl

theorem sema_freeConsort (g k : Nat) (s : State) : (freeConsort g k s).mm.sema = s.mm.sema := by
  have left : (leaving g k s).mm.sema = s.mm.sema := by
    obtain ⟨x, c, e⟩ := leaving_cores g k s
    rw [e]
  rw [freeConsort_eq]
  generalize leaving g k s = u at left ⊢
  rw [← left]
  split
  · exact sema_foldl (f := setOff) (fun _ _ => rfl) (harpShown g) (setCore u g ((coreOf u g).freed k))
  · rfl

theorem sema_clearCore (k g : Nat) (s : State) : (clearCore k g s).mm.sema = s.mm.sema := by
  unfold clearCore
  dsimp only
  refine (sema_setCore _ _ _).trans (Eq.trans (sema_foldl (fun u e => ?_) _ _) ?_)
  · split
    · rfl
    · split
      · exact sema_foldl (fun u i => sema_setCore u g _) _ u
      · exact sema_freeConsort g e.1 u
  · split
    · split
      · exact (noticed_abortPourAt _ _ _ _ _).sema
      · rfl
    · rfl

theorem sema_clearCluster (k cl : Nat) (s : State) : (clearCluster k cl s).mm.sema = s.mm.sema := by
  unfold clearCluster
  dsimp only
  have cleared := sema_foldl (fun u g => sema_clearCore k g u) (coresOf cl) s
  generalize (coresOf cl).foldl (fun s g => clearCore k g s) s = u at cleared ⊢
  exact cleared

theorem sema_clearChans (k : Nat) (s : State) : (clearChans k s).mm.sema = s.mm.sema := by
  unfold clearChans
  refine sema_foldl (fun u e => sema_foldl (fun u c => ?_) _ u) _ s
  split
  · rfl
  · split
    · rfl
    · dsimp only
      have freed := ((noticed_dropToken (0x10000 + 32 * e.1 + c.1) u).trans (noticed_unlockAll (0x10000 + 32 * e.1 + c.1) _)).sema
      generalize unlockAll (0x10000 + 32 * e.1 + c.1) (dropToken (0x10000 + 32 * e.1 + c.1) u) = v at freed ⊢
      exact freed

/-- A casting that ends changes no semaphore. -/
theorem sema_endCasting {k : Nat} {e : Ending} {s : State} (live : (castingOf s k).live = true) (running : (castingOf s k).ending = none) :
    (endCasting k e true s).mm.sema = s.mm.sema := by
  rw [endCasting_told live running]
  have told : ∀ c u, (toldPeers c u).mm.sema = u.mm.sema := fun c u => by unfold toldPeers; split <;> rfl
  have recorded : ∀ c u, (endRecorded c e u).mm.sema = u.mm.sema := fun c u => by
    have triggered : (if e.st = stFault then raiseTrigger 4 u else u).mm.sema = u.mm.sema := by
      split
      · exact (noticed_raiseTrigger _ _).sema
      · rfl
    unfold endRecorded
    by_cases h : e.code = 0x30
    · rw [if_pos h]
      exact (noticed_traceEvent _ _ _ _ _ _ _ _).sema.trans triggered
    · rw [if_neg h]
      exact triggered
  have gone : (withdrawn k e s).mm.sema = s.mm.sema := by
    unfold withdrawn
    exact (sema_foldl (fun u cl => sema_clearCluster k cl u) _ _).trans (sema_clearChans k _)
  exact (told _ _).trans ((recorded _ _).trans gone)

/-- R118: an index out of range ends the casting, and changes no semaphore. -/
theorem semRange_ends {g k : Nat} {s : State} (ready : courseReady s g k = true) :
    CastingEnds (protEnd 0x1C g 0) s (failCourse g k (semRange g) (endRsv g k s)) g k ∧
      (failCourse g k (semRange g) (endRsv g k s)).mm.sema = s.mm.sema := by
  obtain ⟨-, -, -, -, -, -, -, -, -, live, running, -⟩ := courseReady_iff.mp (courseReady_endRsv ready)
  exact ⟨castingEnds_endRsv ready _, sema_endCasting live running⟩

/-! ## The instructions -/

theorem goesOn_of_endRsv {g k : Nat} {c : Course} {s t : State} (h : GoesOn g k c (endRsv g k s) t) : GoesOn g k c s t := by
  obtain ⟨course, courses, cmem, outside⟩ := h
  refine ⟨course, (sameCourses_endRsv g k s).trans courses, cmem.trans ?_, (sameOutside_endRsv g k s).trans outside⟩
  rw [coreOf_endRsv]

theorem exec_semSig {g k : Nat} {b : InstrBits} {s : State} (ready : Ready g k s) (cached : InCache (.semSig g k b) s)
    (legal : (guardOk b && !b.op5 && Form.ok .unused b.du (fldD b) && Form.ok .ureg b.au (fldA b) && Form.ok .ureg b.bu (fldB b) &&
      Form.ok .unused b.cu (fldC b) && decide (fldMod b = 0) && decide ((courseOf s g k).pour = .closed)) = true)
    (free : harpPending s g k = false) :
    exec (.semSig g k b) s = .next (
      if lanesOf (courseOf s g k) b = 0 then retire g k (courseOf (endRsv g k s) g k) (endRsv g k s)
      else if 16383 < (ureg (courseOf s g k) (fldA b)).toNat then failCourse g k (semRange g) (endRsv g k s)
      else retire g k (courseOf (endRsv g k s) g k)
        (semaAdd (ureg (courseOf s g k) (fldA b)).toNat (ureg (courseOf s g k) (fldB b)).toNat (endRsv g k s))) := by
  rw [exec_issue ready.1 ready.2 cached rfl rfl legal (Nat.zero_le _)]
  simp only [harpPending_endRsv, free, Bool.false_eq_true, if_false]

theorem exec_semRd {g k : Nat} {b : InstrBits} {s : State} (ready : Ready g k s) (cached : InCache (.semRd g k b) s)
    (legal : (guardOk b && !b.gen && !b.op5 && Form.ok .ureg b.du (fldD b) && Form.ok .ureg b.au (fldA b) &&
      Form.ok .unused b.bu (fldB b) && Form.ok .unused b.cu (fldC b) && decide (fldMod b = 0) &&
      decide ((courseOf s g k).pour = .closed)) = true) :
    exec (.semRd g k b) s = .next (
      if 16383 < (ureg (courseOf s g k) (fldA b)).toNat then failCourse g k (semRange g) (endRsv g k s)
      else retire g k (setU (courseOf (endRsv g k s) g k) (fldD b)
        (BitVec.ofNat 32 (semaOf (endRsv g k s) (ureg (courseOf s g k) (fldA b)).toNat))) (endRsv g k s)) :=
  exec_issue ready.1 ready.2 cached rfl rfl legal (Nat.zero_le _)

theorem semaOf_semaAdd_ne {i j : Nat} (h : j ≠ i) (v : Nat) (s : State) : semaOf (semaAdd i v s) j = semaOf s j := tget_tset_ne _ h _

/-- What SEM.SIG's addition leaves, once its course goes on. -/
theorem semSig_adds {g k i v : Nat} {c : Course} {s u : State} (added : u = semaAdd i v (endRsv g k s)) :
    semaOf (retire g k c u) i = (semaOf s i + v) % 2 ^ 32 ∧ (∀ j, j ≠ i → semaOf (retire g k c u) j = semaOf s j) ∧
      courseOf (retire g k c u) g k = advance c ∧ SameCourses g k s (retire g k c u) ∧ (retire g k c u).mm.mem = s.mm.mem := by
  have sema : ∀ j, semaOf (retire g k c u) j = semaOf u j := fun j => by unfold semaOf; rw [mm_retire]
  have courses : SameCourses g k (endRsv g k s) u := sameCourses_of_core (coreOf_congr (by rw [added]; rfl) g)
  have mem : u.mm.mem = s.mm.mem := by rw [added]; rfl
  refine ⟨(sema i).trans ?_, fun j hj => (sema j).trans ?_, courseOf_retire _ _ _ _,
    (sameCourses_endRsv g k s).trans (courses.trans (sameCourses_retire _ _ _ _)), by rw [mm_retire, mem]⟩
  · rw [added]; exact semaOf_semaAdd _ _ _
  · rw [added]; exact semaOf_semaAdd_ne hj _ _

/-- Settles O16: outside the range the casting's end keeps every semaphore, inside it the sum is at its own index. -/
theorem semaphoreInstructionsAddAndRead : Obligations.SemaphoreInstructionsAddAndRead := by
  unfold Obligations.SemaphoreInstructionsAddAndRead
  constructor
  · intro g k b s ready cached guard op5 du au bu cu mod pour free i
    refine ⟨_, exec_semSig ready cached (by simp [guard, op5, du, au, bu, cu, mod, pour]) free, ?_⟩
    rw [courseOf_endRsv]
    refine ⟨fun none => ?_, fun some low => ?_, fun some high => ?_⟩
    · rw [if_pos none]
      exact goesOn_of_endRsv (goesOn_retire _ _ _ _)
    · rw [if_neg some, if_neg (by omega)]
      exact semSig_adds rfl
    · rw [if_neg some, if_pos high]
      exact semRange_ends ready.2
  · intro g k b s ready cached guard gen op5 du au bu cu mod pour i
    refine ⟨_, exec_semRd ready cached (by simp [guard, gen, op5, du, au, bu, cu, mod, pour]), fun low => ?_, fun high => ?_⟩
    · rw [if_neg (by omega), courseOf_endRsv]
      exact goesOn_of_endRsv (goesOn_retire _ _ _ _)
    · rw [if_pos high]
      exact semRange_ends ready.2

end Sys2Proof.Machine
end

