-- ==== Sys2Proof/Proofs/Fences.lean ====
section
/-!
CERTIFICATE. Fences (R119, R150, R241, R293, R440): what each waits for, and what FENCE.ACQ empties.
-/
namespace Sys2Proof.Machine

/-! ## The flush of an agent's host writes (R293, R440) -/

/-- An agent's host writes are complete: nothing of them is out, and its probes are used up. -/
def flushed (w : Waiter) (s : State) : State :=
  { s with xl := { s.xl with
    dirty := s.xl.dirty.filter (fun x => decide (x ≠ w))
    reads := s.xl.reads.filter (fun r => !(decide (r.who = w) && decide (r.len = 0))) } }

/-- The zero-length read that an agent has out or back. -/
def probe (w : Waiter) (s : State) : Option OutRead := s.xl.reads.find? (fun r => decide (r.who = w) && decide (r.len = 0))

section
variable {w : Waiter} {s : State}

theorem hostFlush_clean (out : s.xl.dirty.contains w = false) : hostFlush w s = (s, true) := by
  unfold hostFlush
  rw [out]; rfl

theorem hostFlush_withoutBme (out : s.xl.dirty.contains w = true) (bme : s.hpt.bme = false) : hostFlush w s = (flushed w s, true) := by
  unfold hostFlush
  rw [out, bme]; rfl

theorem hostFlush_sends (out : s.xl.dirty.contains w = true) (bme : s.hpt.bme = true) (none : probe w s = none) :
    hostFlush w s = (sendRead w 0 0 0 [] s, false) := by
  unfold probe at none
  unfold hostFlush
  rw [out, bme, none]; rfl

theorem hostFlush_waits {r : OutRead} (out : s.xl.dirty.contains w = true) (bme : s.hpt.bme = true) (some : probe w s = some r)
    (back : r.back = false) : hostFlush w s = (s, false) := by
  unfold probe at some
  unfold hostFlush
  simp only [out, bme, some, back, Bool.not_false, Bool.not_true, Bool.false_eq_true, if_false, if_true]

theorem hostFlush_back {r : OutRead} (out : s.xl.dirty.contains w = true) (bme : s.hpt.bme = true) (some : probe w s = some r)
    (back : r.back = true) (last : r.args = []) : hostFlush w s = (flushed w s, true) := by
  unfold probe at some
  unfold hostFlush
  simp only [out, bme, some, back, last, Bool.not_true, Bool.false_eq_true, if_false, if_true]
  rfl

end

/-! ## A fence that goes on -/

/-- FENCE.DONE, once its course's reservations have ended. -/
def fenceDoneStep (g k : Nat) (c : Course) (b : InstrBits) (u : State) : State :=
  if lanesOf c b = 0 then passFence g k u
  else if (hostFlush (.course g k) u).2 = false then (hostFlush (.course g k) u).1
  else if winsOut (hostFlush (.course g k) u).1 (courseIn g [k]) then (hostFlush (.course g k) u).1
  else passFence g k (hostFlush (.course g k) u).1

section
variable {g k : Nat} {c : Course} {b : InstrBits} {u t : State}

theorem fenceDoneStep_unguarded (idle : lanesOf c b = 0) : fenceDoneStep g k c b u = passFence g k u := if_pos idle

theorem fenceDoneStep_unflushed (runs : lanesOf c b ≠ 0) (flush : hostFlush (.course g k) u = (t, false)) : fenceDoneStep g k c b u = t := by
  rw [fenceDoneStep, if_neg runs, flush, if_pos rfl]

theorem fenceDoneStep_posted (runs : lanesOf c b ≠ 0) (flush : hostFlush (.course g k) u = (t, true))
    (posted : winsOut t (courseIn g [k]) = true) : fenceDoneStep g k c b u = t := by
  rw [fenceDoneStep, if_neg runs, flush, if_neg (by exact nofun), if_pos posted]

theorem fenceDoneStep_done (runs : lanesOf c b ≠ 0) (flush : hostFlush (.course g k) u = (t, true))
    (acked : winsOut t (courseIn g [k]) = false) : fenceDoneStep g k c b u = passFence g k t := by
  rw [fenceDoneStep, if_neg runs, flush, if_neg (by exact nofun), acked, if_neg (by decide)]

end

section
variable {g k : Nat} {b : InstrBits} {s : State} (issues : FenceIssues g k b s)
include issues

theorem exec_fenceOrd (cached : InCache (.fenceOrd g k b) s) : exec (.fenceOrd g k b) s = .next (passFence g k (endRsv g k s)) := by
  obtain ⟨ready, form, free⟩ := issues
  rw [exec_issue ready.1 ready.2 cached rfl rfl form (Nat.zero_le _), free]
  rfl

theorem exec_fenceAcq (cached : InCache (.fenceAcq g k b) s) : exec (.fenceAcq g k b) s =
    .next (passFence g k (if lanesOf (courseOf s g k) b = 0 then endRsv g k s else l1Clear g (endRsv g k s))) := by
  obtain ⟨ready, form, free⟩ := issues
  rw [exec_issue ready.1 ready.2 cached rfl rfl form (Nat.zero_le _), free]
  rfl

theorem exec_fenceRel (cached : InCache (.fenceRel g k b) s) (closed : (courseOf s g k).pour = .closed) :
    exec (.fenceRel g k b) s = .next (passFence g k (endRsv g k s)) := by
  obtain ⟨ready, form, free⟩ := issues
  rw [exec_issue ready.1 ready.2 cached rfl rfl (by rw [form, closed]; rfl) (Nat.zero_le _), free]
  rfl

theorem exec_fenceDone (cached : InCache (.fenceDone g k b) s) (closed : (courseOf s g k).pour = .closed) :
    exec (.fenceDone g k b) s = .next (fenceDoneStep g k (courseOf s g k) b (endRsv g k s)) := by
  obtain ⟨ready, form, free⟩ := issues
  rw [exec_issue ready.1 ready.2 cached rfl rfl (by rw [form, closed]; rfl) (Nat.zero_le _), free]
  unfold fenceDoneStep
  simp only [Bool.false_eq_true, if_false]
  generalize hostFlush (.course g k) (endRsv g k s) = r
  obtain ⟨u, done⟩ := r
  cases done <;> rfl

end

/-- A fence that changes only what waits for the host, and goes on. -/
theorem goesOn_passFence {g k : Nat} {s u : State} {x : Xlate} (same : u = { endRsv g k s with xl := x }) :
    GoesOn g k (unreserved (courseOf s g k)) s (passFence g k u) := by
  have core : coreOf u g = coreOf (endRsv g k s) g := coreOf_congr (by rw [same]) g
  have course : courseOf u g k = unreserved (courseOf s g k) := by
    rw [← courseOf_endRsv, courseOf, core, ← courseOf]
  have before : SameOutside g (endRsv g k s) u := by rw [same]; exact sameOutside_xl g _ x
  have courses : SameCourses g k (endRsv g k s) u := sameCourses_of_core core
  obtain ⟨next, others, cmem, outside⟩ := goesOn_retire g k (courseOf u g k) u
  rw [passFence]
  rw [course] at next others cmem outside ⊢
  exact goesOn_of_endRsv ⟨next, courses.trans others, by rw [cmem, core], before.trans outside⟩

theorem coreOf_l1Clear (g : Nat) (s : State) : coreOf (l1Clear g s) g =
    { coreOf s g with l1 := [], miss := (coreOf s g).miss.map (fun m => { m with install := false, fresh := false }) } := by
  rw [l1Clear, coreOf_setCore, if_pos rfl]

/-- FENCE.ACQ empties the L1, and leaves consort memory and the other courses. -/
theorem passFence_l1Clear (g k : Nat) (s : State) :
    let t := passFence g k (l1Clear g (endRsv g k s))
    (coreOf t g).l1 = [] ∧ courseOf t g k = advance (unreserved (courseOf s g k)) ∧ SameOutside g s t ∧
      (coreOf t g).cmem = (coreOf s g).cmem ∧ ∀ k', k' ≠ k → courseOf t g k' = courseOf s g k' := by
  have course : ∀ i, courseOf (l1Clear g (endRsv g k s)) g i = courseOf (endRsv g k s) g i := fun i => by
    unfold courseOf; rw [coreOf_l1Clear]
  have outside : SameOutside g s (l1Clear g (endRsv g k s)) := (sameOutside_endRsv g k s).trans (sameOutside_setCore _ _ _)
  obtain ⟨next, ⟨others, -, l1, -⟩, cmem, past⟩ := goesOn_retire g k (courseOf (l1Clear g (endRsv g k s)) g k) (l1Clear g (endRsv g k s))
  refine ⟨l1.trans ?_, next.trans ?_, outside.trans past, cmem.trans ?_, fun i hi => (others i hi).trans ?_⟩
  · rw [coreOf_l1Clear]
  · rw [course, courseOf_endRsv]
  · rw [coreOf_l1Clear, coreOf_endRsv]
  · rw [course, courseOf_endRsv_ne hi]

theorem xl_passFence (g k : Nat) (s : State) : (passFence g k s).xl = s.xl := by
  obtain ⟨⟨r, q, w, counted⟩, -⟩ := counted_countCore g 0x02 1 (setCourse s g k (advance (courseOf s g k)))
  rw [passFence, retire, counted]
  rfl

/-- FENCE.DONE, by what its course has out. -/
theorem fenceDoneStep_outcome (g k : Nat) (b : InstrBits) (s : State) :
    let c := courseOf s g k
    let w := Waiter.course g k
    let wr := winsOut s (courseIn g [k])
    let t := fenceDoneStep g k c b (endRsv g k s)
    (lanesOf c b = 0 ∨ (s.xl.dirty.contains w = false ∧ wr = false) → GoesOn g k (unreserved c) s t) ∧
    (lanesOf c b ≠ 0 → s.xl.dirty.contains w = false → wr = true → courseOf t g k = unreserved c ∧ t.xl = s.xl) ∧
    (lanesOf c b ≠ 0 → s.xl.dirty.contains w = true → s.hpt.bme = false → wr = false → GoesOn g k (unreserved c) s t) ∧
    (lanesOf c b ≠ 0 → s.xl.dirty.contains w = true → s.hpt.bme = true → probe w s = none → courseOf t g k = unreserved c ∧
      t.xl.reads = s.xl.reads ++ [⟨s.xl.nextTag, w, 0, 0, 0, false, false, [], []⟩]) ∧
    (∀ r, lanesOf c b ≠ 0 → s.xl.dirty.contains w = true → s.hpt.bme = true → probe w s = some r → r.back = false →
      courseOf t g k = unreserved c ∧ t.xl = s.xl) ∧
    (∀ r, lanesOf c b ≠ 0 → s.xl.dirty.contains w = true → s.hpt.bme = true → probe w s = some r → r.back = true → r.args = [] →
      wr = false → GoesOn g k (unreserved c) s t ∧ t.xl.dirty = s.xl.dirty.filter (fun x => decide (x ≠ w))) := by
  intro c w wr t
  have still : courseOf (endRsv g k s) g k = unreserved c := courseOf_endRsv g k s
  refine ⟨fun h => ?_, fun runs out posted => ?_, fun runs out bme acked => ?_, fun runs out bme none => ?_,
    fun r runs out bme some back => ?_, fun r runs out bme some back last acked => ?_⟩
  · by_cases idle : lanesOf c b = 0
    · rw [show t = _ from fenceDoneStep_unguarded idle]
      exact goesOn_passFence rfl
    · obtain ⟨out, acked⟩ := h.resolve_left idle
      rw [show t = _ from fenceDoneStep_done idle (hostFlush_clean out) acked]
      exact goesOn_passFence rfl
  · rw [show t = _ from fenceDoneStep_posted runs (hostFlush_clean out) posted]
    exact ⟨still, rfl⟩
  · rw [show t = _ from fenceDoneStep_done runs (hostFlush_withoutBme out bme) acked]
    exact goesOn_passFence rfl
  · rw [show t = _ from fenceDoneStep_unflushed runs (hostFlush_sends out bme none)]
    exact ⟨still, rfl⟩
  · rw [show t = _ from fenceDoneStep_unflushed runs (hostFlush_waits out bme some back)]
    exact ⟨still, rfl⟩
  · rw [show t = _ from fenceDoneStep_done runs (hostFlush_back out bme some back last) acked]
    exact ⟨goesOn_passFence rfl, by rw [xl_passFence]; rfl⟩

/-- Settles O17: each answer of the flush decides whether FENCE.DONE goes on or stays. -/
theorem fencesOrderAndDrain : Obligations.FencesOrderAndDrain := by
  unfold Obligations.FencesOrderAndDrain
  intro g k b s issues c out wr asked
  refine ⟨fun cached => ⟨_, exec_fenceOrd issues cached, goesOn_passFence rfl⟩,
    fun cached closed => ⟨_, exec_fenceRel issues cached closed, goesOn_passFence rfl⟩,
    fun cached => ⟨_, exec_fenceAcq issues cached, fun idle => ?_, fun runs => ?_⟩,
    fun cached closed => ⟨_, exec_fenceDone issues cached closed, fenceDoneStep_outcome g k b s⟩⟩
  · rw [if_pos idle]
    exact goesOn_passFence rfl
  · rw [if_neg runs]
    exact passFence_l1Clear g k s

end Sys2Proof.Machine
end

