-- ==== Sys2Proof/Proofs/PourInstructions.lean ====
section
/-!
CERTIFICATE. POUR.BEGIN, POUR.END and POUR.ABORT (R120 to R122, R314, R319, R321 to R323).
-/
namespace Sys2Proof.Machine

/-! ## Pours that abort (R319) -/

theorem tget_default_or_mem {α : Type} (d : α) (t : Tbl α) (k : Nat) : tget d t k = d ∨ (k, tget d t k) ∈ t := by
  induction t with
  | nil => exact .inl rfl
  | cons e t ih =>
    obtain ⟨a, v⟩ := e
    unfold tget
    split
    next here => exact .inr (here ▸ List.mem_cons_self)
    next => exact ih.imp id (List.mem_cons_of_mem _)

/-- No line stays locked for an agent. -/
theorem unlockAll_unlocked (agent line : Nat) (s : State) : (txnOf (unlockAll agent s) line).locked ≠ some agent := by
  obtain default | listed := tget_default_or_mem ({} : Txn) (unlockAll agent s).mm.txn line
  · rw [txnOf, default]; exact nofun
  · rw [← txnOf] at listed
    obtain ⟨e, -, here⟩ := List.mem_filterMap.mp listed
    split at here
    · split at here
      · cases here
      · rw [← (Prod.mk.inj (Option.some.inj here)).2]; exact nofun
    next other =>
      cases here
      exact other

theorem tokens_dropToken (agent : Nat) (s : State) : (dropToken agent s).tokens = s.tokens.filter (fun a => decide (a.1 ≠ agent)) := by
  unfold dropToken showWait
  dsimp only
  split <;> rfl

/-- No agent that gives its place up is among those that ask for the token. -/
theorem dropToken_gone (agent : Nat) (s : State) : ∀ x ∈ (dropToken agent s).tokens, x.1 ≠ agent := by
  intro x asked
  rw [tokens_dropToken] at asked
  exact of_decide_eq_true (List.mem_filter.mp asked).2

/-- What an aborted pour held: locks, place and ladle. -/
def unheld (g slot : Nat) (s : State) : State := forgetWaits (.course g slot) (unlockAll g (dropToken g s))

theorem unheld_free (g slot : Nat) (s : State) :
    (∀ line, (txnOf (unheld g slot s) line).locked ≠ some g) ∧ ∀ x ∈ (unheld g slot s).tokens, x.1 ≠ g := by
  obtain ⟨c, left⟩ := leaveMiss_cores g slot (unlockAll g (dropToken g s))
  have mm : (unheld g slot s).mm = (unlockAll g (dropToken g s)).mm := (congrArg (fun u : State => u.mm) left).trans rfl
  have tokens : (unheld g slot s).tokens = (dropToken g s).tokens := (congrArg (fun u : State => u.tokens) left).trans rfl
  refine ⟨fun line => ?_, by rw [tokens]; exact dropToken_gone g s⟩
  rw [txnOf, mm]
  exact unlockAll_unlocked g line (dropToken g s)

theorem abortPourAt_eq {g slot : Nat} {s : State} (held : ¬((courseOf s g slot).pour = .closed ∨ (courseOf s g slot).pour = .publishing))
    (reason line : Nat) : abortPourAt g slot reason line s = tracePourAbort g slot reason line
      (setCourse (setCore (unheld g slot s) g { coreOf (unheld g slot s) g with ladle := {} }) g slot ((courseOf s g slot).aborted reason)) :=
  if_neg held

/-- A pour that aborts ends as R319 says. -/
theorem pourAborted_abortPourAt {g slot : Nat} {s : State}
    (held : ¬((courseOf s g slot).pour = .closed ∨ (courseOf s g slot).pour = .publishing)) (reason line : Nat) :
    PourAborted g slot reason s (abortPourAt g slot reason line s) := by
  have noticed := noticed_abortPourAt g slot reason line s
  obtain ⟨unlocked, unasked⟩ := unheld_free g slot s
  obtain ⟨r, q, w, e⟩ := tracePourAbort_changes g slot reason line
    (setCourse (setCore (unheld g slot s) g { coreOf (unheld g slot s) g with ladle := {} }) g slot ((courseOf s g slot).aborted reason))
  rw [← abortPourAt_eq held] at e
  generalize abortPourAt g slot reason line s = t at noticed e
  generalize unheld g slot s = u at unlocked unasked e
  have core : coreOf t g = coreOf (setCourse (setCore u g { coreOf u g with ladle := {} }) g slot ((courseOf s g slot).aborted reason)) g :=
    coreOf_congr (by rw [e]) g
  have course : courseOf t g slot = (courseOf s g slot).aborted reason := by
    rw [courseOf, core]
    exact courseOf_setCourse_self _ _ _ _
  have ladle : (coreOf t g).ladle = {} := by
    rw [core, coreOf_setCourse_self, coreOf_setCore, if_pos rfl]
  have txn : ∀ l, txnOf t l = txnOf u l := fun l => by rw [e]; rfl
  have tokens : t.tokens = u.tokens := by rw [e]; rfl
  unfold PourAborted
  rw [course]
  exact ⟨rfl, rfl, rfl, rfl, rfl, rfl, rfl, ⟨rfl, rfl, rfl, rfl⟩, ladle, noticed.mem, noticed.host, fun l => by rw [txn]; exact unlocked l,
    by rw [tokens]; exact unasked⟩

/-- PourAborted looks past what neither it nor the aborted course names. -/
theorem PourAborted.of_counted {g k reason : Nat} {s t u : State} (h : PourAborted g k reason s t) (counted : Counted t u) :
    PourAborted g k reason s u := by
  obtain ⟨⟨r, q, w, rfl⟩, -⟩ := counted
  exact h

theorem PourAborted.of_endRsv {g k reason : Nat} {s t : State} (h : PourAborted g k reason (endRsv g k s) t) : PourAborted g k reason s t := by
  unfold PourAborted at h ⊢
  rw [courseOf_endRsv] at h
  exact h

/-! ## Asking for the token (R322) -/

theorem asks_askToken (agent : Nat) (s : State) : ∃ x ∈ (askToken agent s).tokens, x.1 = agent := by
  unfold askToken
  split
  next asked => simpa using asked
  next => exact ⟨(agent, fclkOf s), by simp [showWait, setF, putF], rfl⟩

/-- Asking for the token changes who asks, and what the registers show of it. -/
theorem askToken_changes (agent : Nat) (s : State) :
    ∃ a r w, askToken agent s = { s with tokens := a, regs := r, touched := w } := by
  unfold askToken
  split
  · exact ⟨s.tokens, s.regs, s.touched, rfl⟩
  · exact ⟨_, _, _, rfl⟩

/-! ## POUR.BEGIN -/

/-- POUR.BEGIN on a course that waits for the token. -/
def waitingPour (target : Nat) (c : Course) : Course :=
  { c with pour := .waitToken, abortPc := target, beginPc := c.pc, beginStack := c.stack
           abortCount := if c.beginPc = c.pc then c.abortCount else 0 }

/-- The ladle is taken. -/
def takenLadle (g k : Nat) (s : State) : State := setCore (endRsv g k s) g { coreOf (endRsv g k s) g with ladle := { holder := some k } }

theorem exec_pourBegin {g k : Nat} {b : InstrBits} {s : State} (ready : Ready g k s) (cached : InCache (.pourBegin g k b) s)
    (legal : beginOk (courseOf s g k) b = true) :
    exec (.pourBegin g k b) s = .next (
      let c := unreserved (courseOf s g k)
      let target := pcAdd c.pc (fldTarget b)
      if (coreOf s g).ladle.holder ≠ none then ladleBusy g k target c (endRsv g k s)
      else if b.low.toNat.testBit 20 && decide (8 ≤ if c.beginPc = c.pc then c.abortCount else 0) then
        askToken g (setCourse (takenLadle g k s) g k (waitingPour target c))
      else countCore g 0x02 1 (setCourse (takenLadle g k s) g k (openPour target false c))) := by
  rw [exec_issue ready.1 ready.2 cached rfl rfl legal (Nat.zero_le _)]
  simp only [courseOf_endRsv]
  rw [show (coreOf (endRsv g k s) g).ladle = (coreOf s g).ladle by rw [coreOf_endRsv], ← bit_eq_testBit]
  cases (coreOf s g).ladle.holder <;> rfl

/-- A change of who asks for the token, and of registers, beside a change on core `g`. -/
theorem sameOutside_asking {g : Nat} {s v : State} (h : SameOutside g s v) (a : List (Nat × Nat)) (r : Tbl Nat) (w : Tbl Nat) :
    SameOutside g { s with tokens := a, regs := r } { v with tokens := a, regs := r, touched := w } := by
  obtain ⟨h1, h2, h3, h4, -, h6, h7, h8, h9, h10, h11, h12, h13, h14, h15, cores, -⟩ := h
  exact ⟨h1, h2, h3, h4, rfl, h6, h7, h8, h9, h10, h11, h12, h13, h14, h15, cores, fun _ _ => rfl⟩

section
variable (g k : Nat) (s : State)

theorem sameOutside_takenLadle : SameOutside g s (takenLadle g k s) := (sameOutside_endRsv g k s).trans (sameOutside_setCore _ _ _)

theorem coreOf_takenLadle (c : Course) :
    (coreOf (setCourse (takenLadle g k s) g k c) g).ladle = { holder := some k } := by
  rw [coreOf_setCourse_self, takenLadle, coreOf_setCore, if_pos rfl]

/-- POUR.BEGIN finds the ladle taken: the course goes to its abort target with ALLOC_BUSY (R122). -/
theorem ladleBusy_leaves (target : Nat) (c : Course) (closed : c.pour = .closed) :
    let t := ladleBusy g k target c (endRsv g k s)
    SameOutside g s t ∧ (courseOf t g k).pourCode = 0x61 ∧ (courseOf t g k).pourSub = 0 ∧ (courseOf t g k).pour = .closed ∧
      (c.stack = [] → (courseOf t g k).pc = target) ∧ (coreOf t g).ladle = (coreOf s g).ladle := by
  intro t
  dsimp only [t]
  unfold ladleBusy
  generalize gone : ({ c with
    pourCode := 0x61, pourSub := 0, pc := target, beginPc := c.pc, abortCount := if c.beginPc = c.pc then c.abortCount else 0 } : Course) = c'
  have counted := counted_countCore g 0x02 1 (setCourse (endRsv g k s) g k (settle settleFuel c'))
  have course := (counted.courseOf g k).trans (courseOf_setCourse_self _ _ _ _)
  have core := (counted.coreOf g).trans (coreOf_setCourse_self _ _ _ _)
  have outside := (sameOutside_endRsv g k s).trans ((sameOutside_setCourse _ _ _ _).trans (sameOutside_of_counted g counted))
  generalize countCore g 0x02 1 (setCourse (endRsv g k s) g k (settle settleFuel c')) = t at course core outside
  obtain ⟨p, a, st, settled⟩ := settle_changes settleFuel c'
  rw [course, core]
  refine ⟨outside, ?_, ?_, ?_, fun flat => ?_, ?_⟩
  · rw [settled, ← gone]
  · rw [settled, ← gone]
  · rw [settled, ← gone]; exact closed
  · rw [settle_nil _ _ (by rw [← gone]; exact flat), ← gone]
  · rw [coreOf_endRsv]

theorem openPour_leaves (target : Nat) (c : Course) :
    let t := countCore g 0x02 1 (setCourse (takenLadle g k s) g k (openPour target false c))
    SameOutside g s t ∧ courseOf t g k = openPour target false c ∧ (coreOf t g).ladle = { holder := some k } := by
  have counted := counted_countCore g 0x02 1 (setCourse (takenLadle g k s) g k (openPour target false c))
  refine ⟨(sameOutside_takenLadle g k s).trans ((sameOutside_setCourse _ _ _ _).trans (sameOutside_of_counted g counted)), ?_, ?_⟩
  · exact (counted.courseOf g k).trans (courseOf_setCourse_self _ _ _ _)
  · rw [counted.coreOf, coreOf_takenLadle]

/-- POUR.BEGIN with SERIAL after 8 aborts: the course waits for the token (R322). -/
theorem waitingPour_leaves (target : Nat) (c : Course) :
    let t := askToken g (setCourse (takenLadle g k s) g k (waitingPour target c))
    SameOutside g { s with tokens := t.tokens, regs := t.regs } t ∧ courseOf t g k = waitingPour target c ∧
      (∃ x ∈ t.tokens, x.1 = g) ∧ (coreOf t g).ladle = { holder := some k } := by
  have outside := (sameOutside_takenLadle g k s).trans (sameOutside_setCourse (takenLadle g k s) g k (waitingPour target c))
  have course := courseOf_setCourse_self (takenLadle g k s) g k (waitingPour target c)
  have ladle := coreOf_takenLadle g k s (waitingPour target c)
  generalize setCourse (takenLadle g k s) g k (waitingPour target c) = v at outside course ladle
  obtain ⟨a, r, w, asked⟩ := askToken_changes g v
  refine ⟨?_, ?_, asks_askToken g v, ?_⟩
  · rw [asked]; exact sameOutside_asking outside a r w
  · rw [courseOf, coreOf_congr (t := askToken g v) (s := v) (by rw [asked]) g]; exact course
  · rw [coreOf_congr (t := askToken g v) (s := v) (by rw [asked]) g, ladle]

end

/-- R120, R122, R321, R322: POUR.BEGIN takes the ladle, goes to its abort target, or waits for the token. -/
theorem pourBegin_opens {g k : Nat} {b : InstrBits} {s : State} (ready : Ready g k s) (cached : InCache (.pourBegin g k b) s)
    (legal : beginOk (courseOf s g k) b = true) :
    let c := unreserved (courseOf s g k)
    let target := pcAdd c.pc (fldTarget b)
    let count := if c.beginPc = c.pc then c.abortCount else 0
    Next (.pourBegin g k b) s (fun t => SameOutside g { s with tokens := t.tokens, regs := t.regs } t ∧
      ((coreOf s g).ladle.holder ≠ none → (courseOf t g k).pourCode = 0x61 ∧ (courseOf t g k).pourSub = 0 ∧
        (courseOf t g k).pour = .closed ∧ (c.stack = [] → (courseOf t g k).pc = target) ∧ (coreOf t g).ladle = (coreOf s g).ladle) ∧
      ((coreOf s g).ladle.holder = none → (b.low.toNat.testBit 20 = false ∨ count < 8) →
        courseOf t g k = openPour target false c ∧ (coreOf t g).ladle = { holder := some k }) ∧
      ((coreOf s g).ladle.holder = none → b.low.toNat.testBit 20 = true → 8 ≤ count →
        (courseOf t g k).pour = .waitToken ∧ (courseOf t g k).pc = c.pc ∧ (∃ x ∈ t.tokens, x.1 = g) ∧
        (coreOf t g).ladle = { holder := some k })) := by
  intro c target count
  have closed : c.pour = .closed := by
    simp only [beginOk, Bool.and_eq_true, decide_eq_true_eq] at legal
    exact legal.2
  have exec := exec_pourBegin ready cached legal
  simp only at exec
  refine ⟨_, exec, ?_⟩
  by_cases busy : (coreOf s g).ladle.holder ≠ none
  · rw [if_pos busy]
    obtain ⟨outside, left⟩ := ladleBusy_leaves g k s target c closed
    exact ⟨sameOutside_asking outside _ _ _, fun _ => left, fun free => absurd free busy, fun free => absurd free busy⟩
  · rw [if_neg busy]
    by_cases waits : b.low.toNat.testBit 20 = true ∧ 8 ≤ count
    · rw [if_pos (by simpa using waits)]
      obtain ⟨outside, course, asks, ladle⟩ := waitingPour_leaves g k s target c
      refine ⟨outside, fun held => absurd held busy, fun _ other => ?_, fun _ _ _ => ?_⟩
      · rcases other with plain | few
        · rw [waits.1] at plain; cases plain
        · omega
      · exact ⟨congrArg Course.pour course, (congrArg Course.pc course).trans rfl, asks, ladle⟩
    · rw [if_neg (by simpa using waits)]
      obtain ⟨outside, course, ladle⟩ := openPour_leaves g k s target c
      exact ⟨sameOutside_asking outside _ _ _, fun held => absurd held busy, fun _ _ => ⟨course, ladle⟩,
        fun _ serial many => absurd ⟨serial, many⟩ waits⟩

/-! ## POUR.END and POUR.ABORT -/

/-- The locks of a serial pour, all of them at once. -/
def lockedLadle (g : Nat) (s : State) : State :=
  setCore s g { coreOf s g with ladle := { (coreOf s g).ladle with
    lines := (coreOf s g).ladle.lines.map (fun x => { x with locked := true }), firstGrant := true } }

/-- A pour that may begin its lock phase and meets no poison. -/
def beginLocks (g k : Nat) (c : Course) (u : State) : State :=
  if c.pourSerial then setCourse (lockedLadle g u) g k { c with pour := .publishing }
  else setCourse u g k { c with pour := if (coreOf u g).ladle.lines.isEmpty then .publishing else .locking }

/-- The staged line whose poison aborts a serial pour (R319). -/
def serialPoison (g k : Nat) (s : State) : Option LadleLine :=
  if (courseOf s g k).pourSerial then (coreOf s g).ladle.lines.find? (grantPoison s g) else none

theorem serialPoison_endRsv (g k : Nat) (s : State) : serialPoison g k (endRsv g k s) = serialPoison g k s := by
  have ladle : (coreOf (endRsv g k s) g).ladle = (coreOf s g).ladle := by rw [coreOf_endRsv]
  have poison : grantPoison (endRsv g k s) g = grantPoison s g := funext fun x => by unfold grantPoison; rw [ladle]; rfl
  unfold serialPoison
  rw [ladle, poison, courseOf_endRsv]
  rfl

/-- POUR.END, once its course's reservations have ended. -/
def pourEndStep (g k : Nat) (u : State) : State :=
  if tokenBars u g then u
  else (serialPoison g k u).elim (beginLocks g k (courseOf u g k) u) (fun x => abortPourAt g k 7 (realLine (clOf g) x.line) u)

theorem beginLocks_eq (g k : Nat) (u : State) : beginLocks g k (courseOf u g k) u =
    (let s := if (courseOf u g k).pourSerial then lockedLadle g u else u
     setCourse s g k { courseOf u g k with
       pour := if (courseOf u g k).pourSerial ∨ (coreOf s g).ladle.lines.isEmpty then .publishing else .locking }) := by
  unfold beginLocks
  dsimp only
  cases (courseOf u g k).pourSerial with
  | true => simp only [if_true, true_or]
  | false => simp only [Bool.false_eq_true, if_false, false_or]

section
variable {g k : Nat} {b : InstrBits} {s : State} (ready : Ready g k s)
include ready

theorem exec_pourEnd (cached : InCache (.pourEnd g k b) s) (legal : endOk (courseOf s g k) b = true) :
    exec (.pourEnd g k b) s = .next (pourEndStep g k (endRsv g k s)) := by
  rw [exec_issue ready.1 ready.2 cached rfl rfl legal (Nat.zero_le _)]
  unfold pourEndStep
  rw [beginLocks_eq]
  unfold serialPoison
  generalize endRsv g k s = u
  refine congrArg Host.Outcome.next ?_
  dsimp only
  cases tokenBars u g with
  | true => rfl
  | false =>
    simp only [Bool.false_eq_true, if_false]
    generalize (if (courseOf u g k).pourSerial then (coreOf u g).ladle.lines.find? (grantPoison u g) else none) = found
    cases found <;> rfl

theorem exec_pourAbort (cached : InCache (.pourAbort g k b) s) (legal : endOk (courseOf s g k) b = true) :
    exec (.pourAbort g k b) s = .next (countCore g 0x02 1 (abortPour g k 4 (endRsv g k s))) := by
  rw [exec_issue ready.1 ready.2 cached rfl rfl legal (Nat.zero_le _)]

end

section
variable (g k : Nat) (s : State)

theorem beginLocks_plain {c : Course} {u : State} (plain : c.pourSerial = false) : beginLocks g k c u =
    setCourse u g k { c with pour := if (coreOf u g).ladle.lines = [] then .publishing else .locking } := by
  rw [beginLocks, plain, if_neg (by decide)]
  simp only [List.isEmpty_iff]

theorem beginLocks_serial {c : Course} {u : State} (serial : c.pourSerial = true) : beginLocks g k c u =
    setCourse (lockedLadle g u) g k { c with pour := .publishing } := by
  rw [beginLocks, serial, if_pos rfl]

theorem ladle_lockedLadle (u : State) (c : Course) : (coreOf (setCourse (lockedLadle g u) g k c) g).ladle.lines =
    (coreOf u g).ladle.lines.map (fun x => { x with locked := true }) := by
  rw [coreOf_setCourse_self, lockedLadle, coreOf_setCore, if_pos rfl]

theorem serialPoison_none (clean : (courseOf s g k).pourSerial = true → ∀ x ∈ (coreOf s g).ladle.lines, grantPoison s g x = false) :
    serialPoison g k s = none := by
  unfold serialPoison
  split
  next serial => exact List.find?_eq_none.mpr fun x staged => by rw [clean serial x staged]; decide
  next => rfl

theorem pourEndStep_begins (free : tokenBars s g = false) (clean : serialPoison g k s = none) : pourEndStep g k (endRsv g k s) =
    beginLocks g k (unreserved (courseOf s g k)) (endRsv g k s) := by
  rw [pourEndStep, show tokenBars (endRsv g k s) g = tokenBars s g from rfl, free, if_neg (by decide), serialPoison_endRsv, clean, courseOf_endRsv]
  rfl

/-- R314, R319, R323: POUR.END waits while the token is another's, begins the lock phase, or publishes. -/
theorem pourEndStep_outcome :
    let c := unreserved (courseOf s g k)
    let l := (coreOf s g).ladle
    let t := pourEndStep g k (endRsv g k s)
    (tokenBars s g = true → courseOf t g k = c ∧ (coreOf t g).ladle = l ∧ SameOutside g s t) ∧
    (tokenBars s g = false → c.pourSerial = false → SameOutside g s t ∧ (coreOf t g).ladle = l ∧
      courseOf t g k = { c with pour := if l.lines = [] then .publishing else .locking }) ∧
    (tokenBars s g = false → c.pourSerial = true → (∀ x ∈ l.lines, grantPoison s g x = false) → SameOutside g s t ∧
      courseOf t g k = { c with pour := .publishing } ∧ (coreOf t g).ladle.lines = l.lines.map (fun x => { x with locked := true })) := by
  intro c l t
  have ladle : (coreOf (endRsv g k s) g).ladle = l := by rw [coreOf_endRsv]
  have outside := sameOutside_endRsv g k s
  refine ⟨fun barred => ?_, fun free plain => ?_, fun free serial clean => ?_⟩
  · have waits : t = endRsv g k s := if_pos barred
    rw [waits]
    exact ⟨courseOf_endRsv g k s, ladle, outside⟩
  · have begun : t = _ := pourEndStep_begins g k s free (serialPoison_none g k s fun serial => absurd (plain.symm.trans serial) Bool.false_ne_true)
    rw [begun, beginLocks_plain g k plain, ladle]
    refine ⟨outside.trans (sameOutside_setCourse _ _ _ _), ?_, courseOf_setCourse_self _ _ _ _⟩
    rw [coreOf_setCourse_self]
    exact ladle
  · have begun : t = _ := pourEndStep_begins g k s free (serialPoison_none g k s fun _ => clean)
    rw [begun, beginLocks_serial g k serial, ladle_lockedLadle, ladle]
    exact ⟨outside.trans ((sameOutside_setCore _ _ _).trans (sameOutside_setCourse _ _ _ _)), courseOf_setCourse_self _ _ _ _, rfl⟩

end

theorem pour_of_endOk {c : Course} {b : InstrBits} (legal : endOk c b = true) : c.pour = .open := by
  simp only [endOk, Bool.and_eq_true, decide_eq_true_eq] at legal
  exact legal.2

/-- Settles O18: each instruction has one outcome for what it finds: the ladle, the token, and the lines staged. -/
theorem pourInstructionsOpenAndClose : Obligations.PourInstructionsOpenAndClose := by
  unfold Obligations.PourInstructionsOpenAndClose
  refine ⟨fun g k b s ready cached legal => pourBegin_opens ready cached legal, fun g k b s ready cached legal => ?_,
    fun g k b s ready cached legal => ?_⟩
  · exact ⟨_, exec_pourEnd ready cached legal, pourEndStep_outcome g k s⟩
  · have held : ¬((courseOf (endRsv g k s) g k).pour = .closed ∨ (courseOf (endRsv g k s) g k).pour = .publishing) := by
      rw [courseOf_endRsv, show (unreserved (courseOf s g k)).pour = .open from pour_of_endOk legal]
      decide
    exact ⟨_, exec_pourAbort ready cached legal, (pourAborted_abortPourAt held 4 0).of_endRsv.of_counted (counted_countCore _ _ _ _)⟩

end Sys2Proof.Machine
end

