-- ==== Sys2Proof/Proofs/LongUnits.lean ====
section
/-!
CERTIFICATE. Units of long instructions and K-steps (R124, R128, R129, R135).
-/
namespace Sys2Proof.Machine

/-! ## The end of a unit (R124) -/

/-- The Harp is free of an HSEQ that ends or stops. -/
def leavesTile (g k : Nat) (l : LongRun) (d : List Byte) (s : State) : State := if l.kind = 0 then hseqRuns g k (hTile d) false s else s

/-- The course that has completed a unit: POS is one more, and the unit's flags are kept until the end. -/
def unitCourse (l : LongRun) (fl : Word) (c : Course) : Course :=
  { setU c l.prog (BitVec.ofNat 32 (lPos c l.prog + 1)) with long := some { l with flags := l.flags ||| fl } }

/-- A completed unit, noted. -/
def unitNoted (g k : Nat) (l : LongRun) (fl : Word) (s : State) : State := setCourse s g k (unitCourse l fl (courseOf s g k))

/-- A course after a completed unit of an instruction of so many. -/
def unitEnds (g k stop units : Nat) (l : LongRun) (fl : Word) (d : List Byte) (s : State) : State :=
  if stopCause (unitNoted g k l fl s) g k stop ≠ 0 then
    longStop g k (stopCause (unitNoted g k l fl s) g k stop) { l with flags := l.flags ||| fl } (leavesTile g k l d (unitNoted g k l fl s))
  else if lPos (courseOf s g k) l.prog + 1 < units then unitNoted g k l fl s
  else longDone g k { l with flags := l.flags ||| fl } (leavesTile g k l d (unitNoted g k l fl s))

section
variable {g k stop : Nat} {l : LongRun} {s s1 : State} (on : s.powered = true) (live : (courseOf s g k).live = true)
  (free : longHeld s g k = false) (runs : (courseOf s g k).long = some l)
include on live free runs

theorem exec_unit_ok {fl : Word} (unit : longUnit g k l s = (s1, .ok fl)) : exec (.longUnitComplete g k stop) s =
    .next (unitEnds g k stop ((kindOf g l.kind).units (longDesc s g k l)) l fl (longDesc s g k l) s1) := by
  show execLongUnitComplete g k stop s = _
  unfold execLongUnitComplete whenOn
  simp only [on, live, free, runs, unit, Bool.not_true, Bool.or_self, Bool.false_eq_true, if_false]
  rfl

theorem exec_unit_wait (unit : longUnit g k l s = (s1, .wait)) : exec (.longUnitComplete g k stop) s = .next (unitWaits g k l s1) := by
  show execLongUnitComplete g k stop s = _
  unfold execLongUnitComplete whenOn
  simp only [on, live, free, runs, unit, Bool.not_true, Bool.or_self, Bool.false_eq_true, if_false, if_true]

end

/-! ## What stops and ends leave -/

theorem leavesTile_keeps (g k : Nat) (l : LongRun) (d : List Byte) (s : State) :
    courseOf (leavesTile g k l d s) g k = courseOf s g k ∧ (leavesTile g k l d s).mm = s.mm := by
  unfold leavesTile
  split
  · have cores : (hseqRuns g k (hTile d) false s).cores =
        (setHarp g { (harpOf s g).setSt (hTile d) .idle with kstep := 0, blk := [], nan := [] } s).cores := rfl
    refine ⟨?_, rfl⟩
    rw [courseOf, coreOf_congr cores]
    exact courseOf_setHarp _ _ _ _
  · exact ⟨rfl, rfl⟩

theorem closeRace_race (s : State) : ∃ r, closeRace s = { s with race := r } := by
  unfold closeRace
  split <;> exact ⟨_, rfl⟩

/-- The course of a long instruction that stops or ends: flags merged, and its progress block written. -/
def leftCourse (l : LongRun) (phase cause stops : Nat) (c : Course) : Course :=
  { setProgress (raiseFlags c l.flags) l.prog (lPos c l.prog) phase cause stops with long := none }

/-- The course of a long instruction that stops (R124). -/
def stoppedCourse (cause : Nat) (l : LongRun) (c : Course) : Course := leftCourse l 1 cause (min (lStops c l.prog + 1) 0xFFFF) c

/-- The course of a long instruction that has run all its units, before it goes on. -/
def doneCourse (l : LongRun) (c : Course) : Course := { leftCourse l 2 (lCause c l.prog) (lStops c l.prog) c with opened := none }

theorem courseOf_longStop (g k cause : Nat) (l : LongRun) (s : State) :
    courseOf (longStop g k cause l s) g k = stoppedCourse cause l (courseOf s g k) ∧ (longStop g k cause l s).mm = s.mm :=
  ⟨courseOf_setCourse_self _ _ _ _, rfl⟩

theorem courseOf_longDone (g k : Nat) (l : LongRun) (s : State) :
    courseOf (longDone g k l s) g k = advance (doneCourse l (courseOf s g k)) ∧ (longDone g k l s).mm = s.mm := by
  have ended : longDone g k l s = closeRace (retire g k (doneCourse l (courseOf s g k)) s) := rfl
  rw [ended]
  generalize doneCourse l (courseOf s g k) = c
  obtain ⟨r, closed⟩ := closeRace_race (retire g k c s)
  rw [closed]
  refine ⟨?_, ?_⟩
  · rw [← courseOf_retire g k c s]; rfl
  · exact mm_retire g k c s

theorem ofNat_lPos (c : Course) (p : Nat) : BitVec.ofNat 32 (lPos c p) = ureg c p := BitVec.ofNat_toNat _ _ |>.trans (BitVec.setWidth_eq _)

theorem setProgress_leaves (c : Course) (p pos phase cause stops : Nat) :
    (setProgress c p pos phase cause stops).stack = c.stack ∧ (setProgress c p pos phase cause stops).asw = c.asw := ⟨rfl, rfl⟩

/-- A stop or an end leaves POS, and the instruction's place. -/
theorem leftCourse_keeps (l : LongRun) (phase cause stops : Nat) (c : Course) :
    (leftCourse l phase cause stops c).long = none ∧ (leftCourse l phase cause stops c).pc = c.pc ∧
    (leftCourse l phase cause stops c).stack = c.stack ∧ (leftCourse l phase cause stops c).asw = c.asw ||| l.flags ∧
    ureg (leftCourse l phase cause stops c) l.prog = ureg c l.prog ∧
    ureg (leftCourse l phase cause stops c) (l.prog + 3) = phaseWord phase cause stops := by
  have regs : ∀ r, ureg (leftCourse l phase cause stops c) r =
      ureg (setProgress (raiseFlags c l.flags) l.prog (lPos c l.prog) phase cause stops) r := fun r => rfl
  obtain ⟨pc, -⟩ := setProgress_changes (raiseFlags c l.flags) l.prog (lPos c l.prog) phase cause stops
  obtain ⟨stack, asw⟩ := setProgress_leaves (raiseFlags c l.flags) l.prog (lPos c l.prog) phase cause stops
  refine ⟨rfl, pc, stack, asw, ?_, ?_⟩
  · rw [regs, ureg_setProgress, if_neg (by omega), if_neg (by omega), if_neg (by omega), if_pos rfl, ofNat_lPos]
  · rw [regs, ureg_setProgress, if_pos rfl]

section
variable (l : LongRun) (c : Course)

/-- The end leaves POS and PHASE DONE, and goes on. -/
theorem doneCourse_keeps : (advance (doneCourse l c)).long = none ∧ (advance (doneCourse l c)).asw = c.asw ||| l.flags ∧
    ureg (advance (doneCourse l c)) l.prog = ureg c l.prog ∧
    ureg (advance (doneCourse l c)) (l.prog + 3) = phaseWord 2 (lCause c l.prog) (lStops c l.prog) ∧
    (c.stack = [] → (advance (doneCourse l c)).pc = (c.pc + 8) % 2 ^ 64) := by
  obtain ⟨long, pc, stack, asw, pos, phase⟩ := leftCourse_keeps l 2 (lCause c l.prog) (lStops c l.prog) c
  unfold doneCourse
  generalize leftCourse l 2 (lCause c l.prog) (lStops c l.prog) c = left at long pc stack asw pos phase ⊢
  obtain ⟨p, a, st, next⟩ := advance_changes { left with opened := none }
  refine ⟨by rw [next]; exact long, by rw [next]; exact asw, (ureg_advance _ _).trans pos, (ureg_advance _ _).trans phase, fun flat => ?_⟩
  rw [advance_nil { left with opened := none } (stack.trans flat)]
  show pcAdd left.pc 1 = _
  rw [pc]
  unfold pcAdd narrow
  omega

/-- A completed unit changes POS alone among the registers. -/
theorem unitCourse_keeps (fl : Word) : ureg (unitCourse l fl c) l.prog = BitVec.ofNat 32 (lPos c l.prog + 1) ∧
    lStops (unitCourse l fl c) l.prog = lStops c l.prog ∧ lCause (unitCourse l fl c) l.prog = lCause c l.prog := by
  have regs : ∀ r, ureg (unitCourse l fl c) r = if r = l.prog then BitVec.ofNat 32 (lPos c l.prog + 1) else ureg c r := fun r => ureg_setU _ _ _ _
  have phase : ureg (unitCourse l fl c) (l.prog + 3) = ureg c (l.prog + 3) := by rw [regs, if_neg (by omega)]
  refine ⟨by rw [regs, if_pos rfl], ?_, ?_⟩
  · rw [lStops, phase, lStops]
  · rw [lCause, phase, lCause]

end

theorem stopCause_unitNoted (g k stop : Nat) (l : LongRun) (fl : Word) (s : State) :
    stopCause (unitNoted g k l fl s) g k stop = stopCause s g k stop := by
  unfold stopCause unitNoted
  simp only [courseOf_setCourse_self, consortOf_setCourse]
  rfl

/-- R124: what a completed unit leaves: the next one to perform, a stop, or the end. -/
theorem unitEnds_outcome (g k stop units : Nat) (l : LongRun) (fl : Word) (d : List Byte) (s1 : State) :
    let c := courseOf s1 g k
    let pos := lPos c l.prog + 1
    let t := unitEnds g k stop units l fl d s1
    ureg (courseOf t g k) l.prog = BitVec.ofNat 32 pos ∧ t.mm = s1.mm ∧
    (stopCause s1 g k stop = 0 → pos < units →
      (courseOf t g k).long = some { l with flags := l.flags ||| fl } ∧ (courseOf t g k).pc = c.pc) ∧
    (stopCause s1 g k stop = 0 → units ≤ pos →
      (courseOf t g k).long = none ∧ (courseOf t g k).asw = c.asw ||| l.flags ||| fl ∧
      ureg (courseOf t g k) (l.prog + 3) = phaseWord 2 (lCause c l.prog) (lStops c l.prog) ∧
      (c.stack = [] → (courseOf t g k).pc = (c.pc + 8) % 2 ^ 64)) ∧
    (stopCause s1 g k stop ≠ 0 → (courseOf t g k).long = none ∧ (courseOf t g k).pc = c.pc ∧
      (courseOf t g k).asw = c.asw ||| l.flags ||| fl ∧
      ureg (courseOf t g k) (l.prog + 3) = phaseWord 1 (stopCause s1 g k stop) (min (lStops c l.prog + 1) 0xFFFF)) := by
  intro c pos t
  have noted : courseOf (unitNoted g k l fl s1) g k = unitCourse l fl c := courseOf_setCourse_self _ _ _ _
  obtain ⟨left, mm⟩ := leavesTile_keeps g k l d (unitNoted g k l fl s1)
  rw [noted] at left
  obtain ⟨reg, stops, cause⟩ := unitCourse_keeps l c fl
  by_cases stopped : stopCause s1 g k stop = 0
  · by_cases more : pos < units
    · have ends : t = unitNoted g k l fl s1 := by
        show unitEnds g k stop units l fl d s1 = _
        rw [unitEnds, stopCause_unitNoted, stopped, if_neg (by decide), if_pos more]
      rw [ends, noted]
      exact ⟨reg, rfl, fun _ _ => ⟨rfl, rfl⟩, fun _ h => absurd more (Nat.not_lt.mpr h), fun h => absurd stopped h⟩
    · have ends : t = longDone g k { l with flags := l.flags ||| fl } (leavesTile g k l d (unitNoted g k l fl s1)) := by
        show unitEnds g k stop units l fl d s1 = _
        rw [unitEnds, stopCause_unitNoted, stopped, if_neg (by decide), if_neg more]
      obtain ⟨course, mm'⟩ := courseOf_longDone g k { l with flags := l.flags ||| fl } (leavesTile g k l d (unitNoted g k l fl s1))
      obtain ⟨long, asw, same, phase, pc⟩ := doneCourse_keeps { l with flags := l.flags ||| fl } (unitCourse l fl c)
      rw [← ends, left] at course
      rw [course]
      refine ⟨same.trans reg, by rw [ends]; exact mm'.trans mm, fun _ h => absurd h more, fun _ _ => ⟨long, ?_, ?_, pc⟩,
        fun h => absurd stopped h⟩
      · rw [asw, BitVec.or_assoc]; rfl
      · rw [← stops, ← cause]; exact phase
  · have ends : t = longStop g k (stopCause s1 g k stop) { l with flags := l.flags ||| fl } (leavesTile g k l d (unitNoted g k l fl s1)) := by
      show unitEnds g k stop units l fl d s1 = _
      rw [unitEnds, stopCause_unitNoted, if_pos stopped]
    obtain ⟨course, mm'⟩ := courseOf_longStop g k (stopCause s1 g k stop) { l with flags := l.flags ||| fl }
      (leavesTile g k l d (unitNoted g k l fl s1))
    obtain ⟨long, pc, -, asw, same, phase⟩ := leftCourse_keeps { l with flags := l.flags ||| fl } 1 (stopCause s1 g k stop)
      (min (lStops (unitCourse l fl c) l.prog + 1) 0xFFFF) (unitCourse l fl c)
    rw [← ends, left] at course
    rw [course]
    refine ⟨same.trans reg, by rw [ends]; exact mm'.trans mm, fun h => absurd h stopped, fun h => absurd h stopped,
      fun _ => ⟨long, pc, asw.trans (by rw [BitVec.or_assoc]; rfl), ?_⟩⟩
    rw [← stops]
    exact phase

/-- R124, R128, R129: a unit that waits changes nothing more, or stops the instruction for its page. -/
theorem unitWaits_outcome (g k : Nat) (l : LongRun) (s1 : State) :
    let c := courseOf s1 g k
    let t := unitWaits g k l s1
    ((c.faultVa = none ∨ l.kind = 0) → t = s1) ∧
    (c.faultVa ≠ none → l.kind ≠ 0 → (courseOf t g k).long = none ∧ (courseOf t g k).pc = c.pc ∧
      ureg (courseOf t g k) l.prog = ureg c l.prog ∧ t.mm = s1.mm ∧
      ureg (courseOf t g k) (l.prog + 3) = phaseWord 1 1 (min (lStops c l.prog + 1) 0xFFFF)) := by
  intro c t
  refine ⟨fun waits => if_neg ?_, fun fault kind => ?_⟩
  · rintro ⟨fault, kind⟩
    rcases waits with here | zero
    · rw [show (courseOf s1 g k).faultVa = none from here] at fault; cases fault
    · exact kind zero
  · have ends : t = longStop g k 1 l s1 := if_pos ⟨Option.isSome_iff_ne_none.mpr fault, kind⟩
    obtain ⟨course, mm⟩ := courseOf_longStop g k 1 l s1
    obtain ⟨long, pc, -, -, same, phase⟩ := leftCourse_keeps l 1 1 (min (lStops c l.prog + 1) 0xFFFF) c
    rw [ends, course]
    exact ⟨long, pc, same, mm, phase⟩

/-! ## K-steps (R132, R135) -/

theorem setWild_opens (g k : Nat) (s : State) : setWild g k s = s ∨ ∃ o, setWild g k s = setCourse s g k { courseOf s g k with opened := o } := by
  unfold setWild
  dsimp only
  split
  · exact .inr ⟨_, rfl⟩
  · exact .inl rfl

/-- A race of an HSEQ is noted in its course, if at all (R125). -/
theorem noteRace_hseq {l : LongRun} (hseq : l.kind = 0) (g k : Nat) (d : List Byte) (pos : Nat) (raced : Bool) (s : State) :
    noteRace g k l d pos raced s = s ∨
      (raced = true ∧ ∃ o, noteRace g k l d pos raced s = setCourse s g k { courseOf s g k with opened := o }) := by
  unfold noteRace
  split
  next noted =>
    dsimp only
    rw [if_neg (by omega)]
    have race : raced = true := by
      simp only [Bool.and_eq_true] at noted
      exact noted.1.1
    exact (setWild_opens g k s).imp id fun opens => ⟨race, opens⟩
  next => exact .inl rfl

theorem SeesAlike.refl (g : Nat) (s : State) : SeesAlike g s s := ⟨rfl, rfl, rfl, fun _ => rfl, rfl⟩

theorem seesAlike_setCourse {s : State} {g k : Nat} {c : Course} (member : c.consort = (courseOf s g k).consort) :
    SeesAlike g s (setCourse s g k c) := by
  refine ⟨by rw [coreOf_setCourse_self], by rw [coreOf_setCourse_self], by rw [coreOf_setCourse_self], fun i => ?_, rfl⟩
  rw [courseOf_setCourse]
  split
  next own => rw [member, own.2]
  next => rfl

theorem SeesAlike.kStep {g : Nat} {s t : State} (h : SeesAlike g s t) (k : Nat) (d : List Byte) (j n : Nat) :
    kStep t g k d j n = Machine.kStep s g k d j n := by
  have read : ∀ op i, hRead t g k d op j n i = hRead s g k d op j n i := fun op i => by
    unfold hRead
    dsimp only
    rw [h.cmemRead]
  have harp : harpOf t g = harpOf s g := h.harp
  unfold Machine.kStep
  rw [harp]
  simp only [read]

/-- A K-step that enters the Harp. -/
def stepEnters (g k : Nat) (l : LongRun) (r : Harp × Word) (n : Nat) (s : State) : State :=
  let u := seenTurn g k (setHarp g { r.1 with kstep := n + 1 } s)
  countCore g 0x04 1 (setCourse u g k { courseOf u g k with long := some { l with flags := l.flags ||| r.2 } })

theorem exec_kStep {g k : Nat} {l : LongRun} {s : State} (on : s.powered = true) (hseq : hseqCourse s g = some k)
    (runs : (courseOf s g k).long = some l) (step : (harpOf s g).kstep < hSteps (longDesc s g k l))
    (block : lPos (courseOf s g k) l.prog < hBlocks (longDesc s g k l)) : exec (.harpKStepIssue g) s = .next (
      let d := longDesc s g k l
      let n := (harpOf s g).kstep
      let j := lPos (courseOf s g k) l.prog
      let v := noteRace g k l d j (stepRaced s g k l d j n) s
      stepEnters g k l (kStep v g k d j n) n v) := by
  show execHarpKStepIssue g s = _
  unfold execHarpKStepIssue whenOn
  simp only [on, hseq, runs, if_true]
  rw [if_neg (by omega)]
  rfl

theorem stepEnters_leaves (g k : Nat) (l : LongRun) (r : Harp × Word) (n : Nat) (s : State) :
    harpOf (stepEnters g k l r n s) g = { r.1 with kstep := n + 1 } ∧ (stepEnters g k l r n s).mm = s.mm ∧
      courseOf (stepEnters g k l r n s) g k = { courseOf s g k with long := some { l with flags := l.flags ||| r.2 } } := by
  unfold stepEnters
  dsimp only
  generalize ({ r.1 with kstep := n + 1 } : Harp) = h
  obtain ⟨f, seen⟩ := seenTurn_free g k (setHarp g h s)
  have core : coreOf (seenTurn g k (setHarp g h s)) g = coreOf (setHarp g h s) g := coreOf_seenTurn _ _ _ _
  have course : courseOf (seenTurn g k (setHarp g h s)) g k = courseOf s g k := by
    rw [courseOf, core]
    exact courseOf_setHarp _ _ _ _
  have mm : (seenTurn g k (setHarp g h s)).mm = s.mm := by rw [seen]; rfl
  have harp : harpOf (seenTurn g k (setHarp g h s)) g = h := by
    rw [harpOf, core]
    exact harpOf_setHarp _ _ _
  rw [course]
  generalize ({ courseOf s g k with long := some { l with flags := l.flags ||| r.2 } } : Course) = c
  generalize seenTurn g k (setHarp g h s) = u at mm harp ⊢
  have counted := counted_countCore g 0x04 1 (setCourse u g k c)
  refine ⟨?_, counted.mm.trans mm, (counted.courseOf g k).trans (courseOf_setCourse_self _ _ _ _)⟩
  rw [harpOf, counted.coreOf]
  exact (harpOf_setCourse _ _ _ _).trans harp

/-- R132, R135: a K-step enters the Harp, its flags the instruction's, and its race the course's note. -/
theorem kStep_enters {g k : Nat} {l : LongRun} {s : State} (on : s.powered = true) (hseq : hseqCourse s g = some k)
    (runs : (courseOf s g k).long = some l) (kind : l.kind = 0) :
    let d := longDesc s g k l
    let n := (harpOf s g).kstep
    let j := lPos (courseOf s g k) l.prog
    n < hSteps d → j < hBlocks d →
    Next (.harpKStepIssue g) s (fun t => harpOf t g = { (kStep s g k d j n).1 with kstep := n + 1 } ∧
      t.mm = s.mm ∧ ∃ o, courseOf t g k = { courseOf s g k with
        long := some { l with flags := l.flags ||| (kStep s g k d j n).2 }, opened := o } ∧
        (stepRaced s g k l d j n = false → o = (courseOf s g k).opened)) := by
  intro d n j step block
  refine ⟨_, exec_kStep on hseq runs step block, ?_⟩
  dsimp only
  obtain ⟨harp, mm, course⟩ := stepEnters_leaves g k l (kStep (noteRace g k l d j (stepRaced s g k l d j n) s) g k d j n) n
    (noteRace g k l d j (stepRaced s g k l d j n) s)
  rw [harp, mm, course]
  obtain calm | ⟨raced, o, noted⟩ := noteRace_hseq kind g k d j (stepRaced s g k l d j n) s
  · rw [calm]
    exact ⟨rfl, rfl, (courseOf s g k).opened, rfl, fun _ => rfl⟩
  · have alike : SeesAlike g s (setCourse s g k { courseOf s g k with opened := o }) := seesAlike_setCourse rfl
    rw [noted, alike.kStep, courseOf_setCourse_self]
    exact ⟨rfl, rfl, o, rfl, fun still => absurd (still.symm.trans raced) Bool.false_ne_true⟩

/-- Settles O22: a completed unit by its stop cause and its place, a unit that waits by its page, and the K-step. -/
theorem longUnitsAdvance : Obligations.LongUnitsAdvance := by
  unfold Obligations.LongUnitsAdvance
  refine ⟨fun g k stop l fl s s1 on live free runs unit => ⟨_, exec_unit_ok on live free runs unit, unitEnds_outcome _ _ _ _ _ _ _ _⟩,
    fun g k stop l s s1 on live free runs unit => ?_, fun g k l s on hseq runs kind => kStep_enters on hseq runs kind⟩
  have run := exec_unit_wait (stop := stop) on live free runs unit
  obtain ⟨waits, stops⟩ := unitWaits_outcome g k l s1
  exact ⟨fun here => by rw [run, waits here], fun fault kind => ⟨_, run, stops fault kind⟩⟩

end Sys2Proof.Machine
end

