-- ==== Sys2Proof/Proofs/HarpTiles.lean ====
section
/-!
CERTIFICATE. HZERO and HDRAIN: their starts and their completions (R130, R133, R146 to R150).
-/
namespace Sys2Proof.Machine

/-! ## Tiles (R133) -/

section
variable (h : Harp) (tile : Nat) (x : TileState) (c : Tbl Word)

theorem st_setSt : (h.setSt tile x).st tile = x := by
  unfold Harp.setSt Harp.st
  split <;> rfl

theorem tile_setSt (i : Nat) : (h.setSt tile x).tile i = h.tile i := by
  unfold Harp.setSt
  split <;> rfl

theorem st_setSt_other (low : tile < 2) : (h.setSt tile x).st (1 - tile) = h.st (1 - tile) := by
  obtain rfl | rfl : tile = 0 ∨ tile = 1 := by omega
  · rfl
  · rfl

theorem tile_setTile_other (low : tile < 2) : (h.setTile tile c).tile (1 - tile) = h.tile (1 - tile) := by
  obtain rfl | rfl : tile = 0 ∨ tile = 1 := by omega
  · rfl
  · rfl

end

/-! ## HARP instructions that start (R73, R130) -/

section
variable {i : Instr} {g k w : Nat} {b : InstrBits} {legal : Bool} {s : State} {f : Course → State → State}

theorem exec_harpIssue (issues : HarpIssues g k b s) (cached : InCache i s) (code : codeOf i = some (g, k, w))
    (step : exec i s = whenFetched w g k s (.next (harpIssue g k legal s f))) (ok : legal = true) :
    exec i s = .next (f (courseOf s g k) s) := by
  obtain ⟨⟨on, ready⟩, -, -, -, -, -, -, closed, owns⟩ := issues
  unfold harpIssue at step
  rw [exec_issue on ready cached code step (by rw [ok, closed]; rfl) (Nat.zero_le _), owns]
  rfl

end

/-- A tile's work begins: the Harp and its register show it, and the course goes on. -/
theorem harpBegins {g k n : Nat} {busy shown : FRef} {h : Harp} {s v : State} (core : coreOf v g = { coreOf s g with harp := h })
    (mm : v.mm = s.mm) (apart : busy.key ≠ shown.key) (low : busy.key < 8 * 0x410000) (one : busy.len = 1) :
    let t := retire g k (courseOf s g k) (setF (setOn v busy) shown n)
    harpOf t g = h ∧ isOn t busy = true ∧ courseOf t g k = advance (courseOf s g k) ∧ t.mm = s.mm ∧
      (coreOf t g).cmem = (coreOf s g).cmem := by
  have core' : coreOf (setF (setOn v busy) shown n) g = { coreOf s g with harp := h } := core
  have mm' : (setF (setOn v busy) shown n).mm = s.mm := mm
  have lit : getF (setF (setOn v busy) shown n) busy = 1 := by
    rw [getF_setF_ne _ _ apart, setOn, getF_setF_self, one]
    rfl
  generalize setF (setOn v busy) shown n = u at core' mm' lit ⊢
  intro t
  obtain ⟨-, -, cmem, outside⟩ := goesOn_retire g k (courseOf s g k) u
  obtain ⟨-, -, regs⟩ := sameOutside_iff.mp outside
  refine ⟨?_, ?_, courseOf_retire _ _ _ _, (mm_retire _ _ _ _).trans mm', cmem.trans (by rw [core'])⟩
  · rw [harpOf, coreOf_retire, core']
  · rw [isOn_eq_true, regs busy low, lit]
    decide

theorem coreOf_setHarp (g : Nat) (h : Harp) (s : State) : coreOf (setHarp g h s) g = { coreOf s g with harp := h } := by
  rw [setHarp, coreOf_setCore, if_pos rfl]

section
variable {g k : Nat} {b : InstrBits} {s : State} (issues : HarpIssues g k b s)
include issues

theorem exec_hzero (cached : InCache (.hzero g k b) s) (au : b.au = false) (low : b.low.toNat ≤ 1) : exec (.hzero g k b) s = .next (
    if (harpOf s g).st b.low.toNat ≠ .idle then s
    else retire g k (courseOf s g k)
      (setF (setOn (setHarp g ((harpOf s g).setSt b.low.toNat (.zeroing k)) s) (zeroBusy g)) (zeroTile g) b.low.toNat)) := by
  obtain ⟨-, guard, gen, op5, du, bu, cu, -⟩ := id issues
  rw [exec_harpIssue issues cached rfl rfl (by simp [guard, gen, op5, du, bu, cu, au, low])]
  simp only [courseOf_setHarp]

/-- HDRAIN, by its descriptor's place, its check, and its tile. -/
theorem exec_hdrain (cached : InCache (.hdrain g k b) s) (dest : fldD b = 0) (source : Form.ok .ureg b.au (fldA b) = true)
    (rest : bits b.low.toNat 28 0 = 0) : exec (.hdrain g k b) s = .next (
      let off := (ureg (courseOf s g k) (fldA b)).toNat
      let d := cmemRead s g k off 32
      if off % 8 ≠ 0 then failCourse g k (badDrain g) s
      else if cmemSize s g k < off + 32 then failCourse g k (cmemEnd g) s
      else if !drainOk d then failCourse g k (badDrain g) s
      else if !drainFits (cmemSize s g k) d then failCourse g k (cmemEnd g) s
      else if (harpOf s g).st (nTile d) ≠ .idle ∨ isOn s (drainBusy g) then s
      else retire g k (courseOf s g k) (setF (setOn (seenTurn g k (setHarp g ((harpOf s g).setSt (nTile d) (.draining k (leNat d))) s))
        (drainBusy g)) (drainTile g) (nTile d))) := by
  obtain ⟨-, guard, gen, op5, du, bu, cu, -⟩ := id issues
  rw [exec_harpIssue issues cached rfl rfl (by simp [guard, gen, op5, du, bu, cu, dest, source, rest])]
  simp only [courseOf_setHarp]

end

theorem harpShown_low {g : Nat} (core : g < 192) : (zeroBusy g).key < 8 * 0x410000 ∧ (drainBusy g).key < 8 * 0x410000 := by
  simp only [FRef.key, zeroBusy, drainBusy]
  omega

/-! ## HZERO_COMPLETE -/

/-- The Harp with a tile cleared and IDLE. -/
def zeroedHarp (h : Harp) (tile : Nat) : Harp := (h.setTile tile []).setSt tile .idle

/-- HZERO_COMPLETE leaves the Harp so, and shows whether the other tile still clears. -/
def zeroEnds (g tile : Nat) (s : State) : State :=
  setF (setB (setHarp g (zeroedHarp (harpOf s g) tile) s) (zeroBusy g) ((zeroedHarp (harpOf s g) tile).st (1 - tile)).isZeroing) (zeroTile g)
    (if ((zeroedHarp (harpOf s g) tile).st (1 - tile)).isZeroing then 1 - tile else 0)

theorem exec_hzeroComplete {g tile k : Nat} {s : State} (on : s.powered = true) (low : tile < 2) (runs : (harpOf s g).st tile = .zeroing k) :
    exec (.hzeroComplete g tile) s = .next (zeroEnds g tile s) := by
  show execHzeroComplete g tile s = _
  unfold execHzeroComplete whenOn
  rw [Nat.mod_eq_of_lt low, runs, if_pos on, if_pos (show (TileState.zeroing k).isZeroing = true from rfl)]
  rfl

theorem zeroEnds_leaves {g tile : Nat} {s : State} (low : tile < 2) :
    (harpOf (zeroEnds g tile s) g).st tile = .idle ∧ (∀ x, tget 0 ((harpOf (zeroEnds g tile s) g).tile tile) x = 0) ∧
      (harpOf (zeroEnds g tile s) g).tile (1 - tile) = (harpOf s g).tile (1 - tile) ∧
      isOn (zeroEnds g tile s) (zeroBusy g) = ((harpOf s g).st (1 - tile)).isZeroing ∧ (zeroEnds g tile s).mm = s.mm ∧
      (coreOf (zeroEnds g tile s) g).courses = (coreOf s g).courses := by
  have other : (zeroedHarp (harpOf s g) tile).st (1 - tile) = (harpOf s g).st (1 - tile) := by rw [zeroedHarp, st_setSt_other _ _ _ low, st_setTile]
  have core : coreOf (zeroEnds g tile s) g = { coreOf s g with harp := zeroedHarp (harpOf s g) tile } := by
    rw [← coreOf_setHarp]
    exact coreOf_congr rfl g
  have harp : harpOf (zeroEnds g tile s) g = zeroedHarp (harpOf s g) tile := congrArg Core.harp core
  have mm : (zeroEnds g tile s).mm = s.mm := by
    rw [zeroEnds, setF_mm, setB, setF_mm]
    rfl
  rw [harp, core, mm]
  refine ⟨st_setSt _ _ _, fun x => ?_, ?_, ?_, rfl, rfl⟩
  · rw [zeroedHarp, tile_setSt, tile_setTile]; rfl
  · rw [zeroedHarp, tile_setSt, tile_setTile_other _ _ _ low]
  · rw [zeroEnds, other, isOn, getF_setF_ne _ _ (by simp [FRef.key, zeroBusy, zeroTile]), setB, getF_setF_self]
    cases ((harpOf s g).st (1 - tile)).isZeroing <;> rfl

/-! ## HDRAIN_COMPLETE (R148, R149) -/

/-- Only consort memory has changed on core `g`. -/
def OnlyCmem (g : Nat) (s t : State) : Prop := t.mm = s.mm ∧ ∃ m, coreOf t g = { coreOf s g with cmem := m }

theorem OnlyCmem.refl (g : Nat) (s : State) : OnlyCmem g s s := ⟨rfl, _, rfl⟩

theorem OnlyCmem.trans {g : Nat} {s t u : State} (h : OnlyCmem g s t) (h' : OnlyCmem g t u) : OnlyCmem g s u := by
  obtain ⟨mm, m, core⟩ := h
  obtain ⟨mm', m', core'⟩ := h'
  exact ⟨mm'.trans mm, m', by rw [core', core]⟩

theorem onlyCmem_cmemWrite (g slot off : Nat) (bs : List Byte) (s : State) : OnlyCmem g s (cmemWrite g slot off bs s) :=
  ⟨logWrite_mm _ _ _ _, _, coreOf_cmemWrite _ _ _ _ _⟩

theorem onlyCmem_drainRow (g slot : Nat) (d : List Byte) (t : Tbl Word) (r : State × Word) (m : Nat) :
    OnlyCmem g r.1 (drainRow g slot d t r m).1 := by
  unfold drainRow
  dsimp only
  split
  · exact (onlyCmem_cmemWrite _ _ _ _ _).trans (onlyCmem_cmemWrite _ _ _ _ _)
  · exact onlyCmem_cmemWrite _ _ _ _ _

/-- A drain writes consort memory alone. -/
theorem onlyCmem_drainAll (g slot : Nat) (d : List Byte) (s : State) : OnlyCmem g s (drainAll g slot d s).1 :=
  List.foldlRecOn _ _ (motive := fun r : State × Word => OnlyCmem g s r.1) (.refl g s) fun _ before _ _ =>
    before.trans (onlyCmem_drainRow _ _ _ _ _ _)

/-- The Harp whose tile has been drained. -/
def drainedHarp (d : List Byte) (h : Harp) : Harp :=
  (if nFlag d 3 then h.setTile (nTile d) (clearRegion (nRows d) (nCols d) (h.tile (nTile d))) else h).setSt (nTile d) .idle

/-- HDRAIN_COMPLETE, once the rows are in consort memory. -/
def drainEnds (g k : Nat) (d : List Byte) (flags : Word) (u : State) : State :=
  let v := setOff (setOff (setHarp g (drainedHarp d (harpOf u g)) u) (drainBusy g)) (drainTile g)
  setCourse v g k (raiseFlags (courseOf v g k) flags)

theorem exec_hdrainComplete {g k : Nat} {d : List Byte} {s : State} (on : s.powered = true) (runs : drainOf s g = some (k, d)) :
    exec (.hdrainComplete g) s = .next (drainEnds g k d (drainAll g k d s).2 (drainAll g k d s).1) := by
  show execHdrainComplete g s = _
  unfold execHdrainComplete whenOn
  simp only [runs, on, if_true]
  rfl

theorem drained_leaves (d : List Byte) (h : Harp) : (drainedHarp d h).st (nTile d) = .idle ∧
    ∀ m n, m < 128 → n < 128 → tget 0 ((drainedHarp d h).tile (nTile d)) (128 * m + n) =
      if nFlag d 3 = true ∧ m < nRows d ∧ n < nCols d then 0 else tget 0 (h.tile (nTile d)) (128 * m + n) := by
  refine ⟨st_setSt _ _ _, fun m n _ hn => ?_⟩
  rw [drainedHarp, tile_setSt]
  by_cases after : nFlag d 3 = true
  · rw [if_pos after, tile_setTile, tget_clearRegion, show (128 * m + n) / 128 = m by omega, show (128 * m + n) % 128 = n by omega]
    simp only [after, true_and]
  · rw [if_neg after, if_neg fun h => after h.1]

/-- What a drain that ends leaves beside the rows it has written. -/
theorem drainEnds_leaves (g k : Nat) (d : List Byte) (flags : Word) (u : State) :
    (coreOf (drainEnds g k d flags u) g).cmem = (coreOf u g).cmem ∧ harpOf (drainEnds g k d flags u) g = drainedHarp d (harpOf u g) ∧
      isOn (drainEnds g k d flags u) (drainBusy g) = false ∧ (drainEnds g k d flags u).mm = u.mm ∧
      (courseOf (drainEnds g k d flags u) g k).asw = (courseOf u g k).asw ||| flags := by
  unfold drainEnds
  dsimp only
  have core : coreOf (setOff (setOff (setHarp g (drainedHarp d (harpOf u g)) u) (drainBusy g)) (drainTile g)) g =
      { coreOf u g with harp := drainedHarp d (harpOf u g) } := by
    rw [← coreOf_setHarp]
    exact coreOf_congr rfl g
  have dark : getF (setOff (setOff (setHarp g (drainedHarp d (harpOf u g)) u) (drainBusy g)) (drainTile g)) (drainBusy g) = 0 := by
    rw [setOff, getF_setF_ne _ _ (by simp [FRef.key, drainBusy, drainTile]), setOff, getF_setF_self]
    rfl
  have mm : (setOff (setOff (setHarp g (drainedHarp d (harpOf u g)) u) (drainBusy g)) (drainTile g)).mm = u.mm := by
    rw [setOff, setF_mm, setOff, setF_mm, setHarp, setCore_mm]
  generalize setOff (setOff (setHarp g (drainedHarp d (harpOf u g)) u) (drainBusy g)) (drainTile g) = v at core dark mm ⊢
  have course : courseOf v g k = courseOf u g k := by unfold courseOf; rw [core]
  refine ⟨?_, ?_, isOn_eq_false.mpr dark, mm, ?_⟩
  · rw [coreOf_setCourse_self, core]
  · rw [harpOf_setCourse, harpOf, core]
  · rw [courseOf_setCourse_self, course]; rfl

/-! ## The obligation -/

/-- R130: HZERO begins on an IDLE tile, and waits for one that is not. -/
theorem hzero_starts {g k : Nat} {b : InstrBits} {s : State} (core : g < 192) (cached : InCache (.hzero g k b) s) (issues : HarpIssues g k b s)
    (au : b.au = false) (low : b.low.toNat ≤ 1) :
    ((harpOf s g).st b.low.toNat = .idle →
      Next (.hzero g k b) s (fun t => (harpOf t g) = (harpOf s g).setSt b.low.toNat (.zeroing k) ∧ isOn t (zeroBusy g) = true ∧
        courseOf t g k = advance (courseOf s g k) ∧ t.mm = s.mm ∧ (coreOf t g).cmem = (coreOf s g).cmem)) ∧
    ((harpOf s g).st b.low.toNat ≠ .idle → exec (.hzero g k b) s = .next s) := by
  have run := exec_hzero issues cached au low
  refine ⟨fun idle => ?_, fun busy => by rw [run, if_pos busy]⟩
  rw [if_neg fun busy => busy idle] at run
  exact ⟨_, run, harpBegins (coreOf_setHarp _ _ _) rfl (by simp [FRef.key, zeroBusy, zeroTile]) (harpShown_low core).1 rfl⟩

/-- R146, R147: HDRAIN begins on an IDLE tile, waits for one that is not and for the other tile's drain, or ends its casting. -/
theorem hdrain_starts {g k : Nat} {b : InstrBits} {s : State} (core : g < 192) (cached : InCache (.hdrain g k b) s)
    (issues : HarpIssues g k b s) (dest : fldD b = 0) (source : Form.ok .ureg b.au (fldA b) = true) (rest : bits b.low.toNat 28 0 = 0) :
    let off := (ureg (courseOf s g k) (fldA b)).toNat
    let d := cmemRead s g k off 32
    (off % 8 = 0 → off + 32 ≤ cmemSize s g k → drainOk d = true → drainFits (cmemSize s g k) d = true →
      ((harpOf s g).st (nTile d) = .idle → isOn s (drainBusy g) = false →
        Next (.hdrain g k b) s (fun t => harpOf t g = (harpOf s g).setSt (nTile d) (.draining k (leNat d)) ∧ isOn t (drainBusy g) = true ∧
          courseOf t g k = advance (courseOf s g k) ∧ t.mm = s.mm ∧ (coreOf t g).cmem = (coreOf s g).cmem)) ∧
      ((harpOf s g).st (nTile d) ≠ .idle ∨ isOn s (drainBusy g) = true → exec (.hdrain g k b) s = .next s)) ∧
    (off % 8 ≠ 0 ∨ (off + 32 ≤ cmemSize s g k ∧ drainOk d = false) →
      Next (.hdrain g k b) s (CastingEnds (badDrain g) s · g k)) ∧
    (off % 8 = 0 → cmemSize s g k < off + 32 ∨ (drainOk d = true ∧ drainFits (cmemSize s g k) d = false) →
      Next (.hdrain g k b) s (CastingEnds (cmemEnd g) s · g k)) := by
  intro off d
  have run := exec_hdrain issues cached dest source rest
  change exec _ s = .next (if off % 8 ≠ 0 then _ else if cmemSize s g k < off + 32 then _ else if (!drainOk d) = true then _
    else if (!drainFits (cmemSize s g k) d) = true then _ else if (harpOf s g).st (nTile d) ≠ .idle ∨ isOn s (drainBusy g) = true then _ else _) at run
  have ends : ∀ e, CastingEnds e s (failCourse g k e s) g k := castingEnds_failCourse issues.1.2
  refine ⟨fun aligned inside ok fits => ?_, fun bad => ?_, fun aligned outside => ?_⟩
  · rw [if_neg (by omega), if_neg (by omega), if_neg (by simp [ok]), if_neg (by simp [fits])] at run
    refine ⟨fun idle quiet => ?_, fun busy => by rw [run, if_pos busy]⟩
    rw [if_neg (by simp [idle, quiet])] at run
    refine ⟨_, run, harpBegins ?_ ?_ (by simp [FRef.key, drainBusy, drainTile]) (harpShown_low core).2 rfl⟩
    · rw [coreOf_seenTurn, coreOf_setHarp]
    · obtain ⟨n, seen⟩ := seenTurn_free g k (setHarp g ((harpOf s g).setSt (nTile d) (.draining k (leNat d))) s)
      rw [seen]; rfl
  · by_cases misaligned : off % 8 ≠ 0
    · rw [if_pos misaligned] at run
      exact ⟨_, run, ends _⟩
    · obtain ⟨inside, ill⟩ := bad.resolve_left misaligned
      rw [if_neg misaligned, if_neg (by omega), if_pos (by simp [ill])] at run
      exact ⟨_, run, ends _⟩
  · by_cases past : cmemSize s g k < off + 32
    · rw [if_neg (by omega), if_pos past] at run
      exact ⟨_, run, ends _⟩
    · obtain ⟨ok, beyond⟩ := outside.resolve_left past
      rw [if_neg (by omega), if_neg past, if_neg (by simp [ok]), if_pos (by simp [beyond])] at run
      exact ⟨_, run, ends _⟩

/-- Settles O23: each start by its tile and descriptor, each completion by what it leaves in the Harp. -/
theorem harpTilesClearAndDrain : Obligations.HarpTilesClearAndDrain := by
  unfold Obligations.HarpTilesClearAndDrain
  refine ⟨fun g k b s core cached issues au low => hzero_starts core cached issues au low,
    fun g tile k s on low runs => ⟨_, exec_hzeroComplete on low runs, zeroEnds_leaves low⟩,
    fun g k b s core cached issues dest source rest => hdrain_starts core cached issues dest source rest,
    fun g k d s on runs => ⟨_, exec_hdrainComplete on runs, ?_⟩⟩
  obtain ⟨mm, m, core⟩ := onlyCmem_drainAll g k d s
  have harp : harpOf (drainAll g k d s).1 g = harpOf s g := by unfold harpOf; rw [core]
  have course : courseOf (drainAll g k d s).1 g k = courseOf s g k := by unfold courseOf; rw [core]
  obtain ⟨cmem, left, dark, same, asw⟩ := drainEnds_leaves g k d (drainAll g k d s).2 (drainAll g k d s).1
  rw [harp] at left
  rw [course] at asw
  obtain ⟨idle, cells⟩ := drained_leaves d (harpOf s g)
  rw [left]
  exact ⟨cmem, idle, dark, same.trans mm, asw, cells⟩

end Sys2Proof.Machine
end

