-- ==== Sys2Proof/Proofs/ClaimLines.lean ====
section
/-!
CERTIFICATE. Claims of pool blocks and marker lines (R224, R225, R561): the block that a claim takes, the order of the claims of one cycle,
the word that a claimant's LD.V returns, and what a marker leaves in the trace FIFO.
-/
namespace Sys2Proof.Machine

/-! ## Ranks (R225) -/

/-- R225: core `k`'s place behind the core that is first, which the present fret gives. -/
def coreRank (s : State) (k : Nat) : Nat := (k + 12 - getF s amxFret % 12) % 12

theorem core_at_rank (s : State) {k r : Nat} (hk : k < 12) (hr : r < 12) : k = (getF s amxFret % 12 + r) % 12 ↔ coreRank s k = r := by
  unfold coreRank; omega

theorem rankOrder_control (s : State) : rankOrder s [12] = [0] := by
  have place : ∀ r ∈ List.range 12, (List.range 1).filter (fun i => decide (nth 13 [12] i = (getF s amxFret % 12 + r) % 12)) = [] := fun r _ => by
    simp only [List.range_succ, List.range_zero, List.nil_append, List.filter_cons, List.filter_nil, nth]
    have ne : ¬12 = (getF s amxFret % 12 + r) % 12 := by omega
    exact if_neg (by simpa using ne)
  simp only [rankOrder, List.length_singleton]
  rw [List.flatMap_congr place]
  rfl

theorem rankOrder_core (s : State) {k : Nat} (hk : k < 12) : rankOrder s [k] = [0] := by
  have scan : ∀ a, a < 12 → (List.range 12).flatMap (fun r => if a = r then [0] else []) = [0] := by decide
  have place : ∀ r ∈ List.range 12, (List.range 1).filter (fun i => decide (nth 13 [k] i = (getF s amxFret % 12 + r) % 12)) =
      if coreRank s k = r then [0] else [] := fun r hr => by
    simp only [List.range_succ, List.range_zero, List.nil_append, List.filter_cons, List.filter_nil, nth, decide_eq_true_eq,
      core_at_rank s hk (List.mem_range.mp hr)]
  have last : (List.range 1).filter (fun i => decide (nth 13 [k] i = 12)) = [] := by
    simp [nth, List.range_succ, Nat.ne_of_lt hk]
  simp only [rankOrder, List.length_singleton, last, List.append_nil]
  rw [List.flatMap_congr place]
  exact scan _ (by unfold coreRank; omega)

theorem rankOrder_pair (s : State) {a b : Nat} (ha : a < 12) (hb : b < 12) (ne : a ≠ b) :
    rankOrder s [a, b] = if coreRank s a < coreRank s b then [0, 1] else [1, 0] := by
  have scan : ∀ x, x < 12 → ∀ y, y < 12 → x ≠ y →
      (List.range 12).flatMap (fun r => (if x = r then [0] else []) ++ if y = r then [1] else []) = if x < y then [0, 1] else [1, 0] := by
    decide
  have place : ∀ r ∈ List.range 12, (List.range 2).filter (fun i => decide (nth 13 [a, b] i = (getF s amxFret % 12 + r) % 12)) =
      (if coreRank s a = r then [0] else []) ++ if coreRank s b = r then [1] else [] := fun r hr => by
    have hr := List.mem_range.mp hr
    simp only [List.range_succ, List.range_zero, List.nil_append, List.filter_cons, List.filter_nil, nth, decide_eq_true_eq,
      core_at_rank s ha hr, core_at_rank s hb hr, List.cons_append]
    split <;> rfl
  have last : (List.range 2).filter (fun i => decide (nth 13 [a, b] i = 12)) = [] := by
    simp [nth, List.range_succ, Nat.ne_of_lt ha, Nat.ne_of_lt hb]
  simp only [rankOrder, List.length_cons, List.length_nil, last, List.append_nil]
  rw [List.flatMap_congr place]
  exact scan _ (by unfold coreRank; omega) _ (by unfold coreRank; omega) (by unfold coreRank; omega)

/-! ## Claims of blocks (R224) -/

@[simp] theorem setBlock_mm (cl p b : Nat) (on : Bool) (s : State) : (setBlock cl p b on s).mm = s.mm := by simp [setBlock, poolShow]
@[simp] theorem setBlock_cores (cl p b : Nat) (on : Bool) (s : State) : (setBlock cl p b on s).cores = s.cores := by
  simp [setBlock, poolShow]

theorem blockClaimed_setBlock (cl p b x : Nat) (on : Bool) (s : State) :
    blockClaimed (setBlock cl p b on s) cl p x = if x = b then on else blockClaimed s cl p x := by
  have same : (clusterOf (setBlock cl p b on s) cl).claims = tset 0 (clusterOf s cl).claims (p * 2 ^ 20 + b) (b2n on) := by
    simp only [clusterOf, setBlock, poolShow, setCluster, setB_eq, setF_clusters, tget_tset_self]
  unfold blockClaimed
  rw [same, tget_tset]
  by_cases h : x = b
  · cases on <;> simp [h]
  · simp [h]

theorem blockClaimed_claim (cl p b x : Nat) (s : State) :
    blockClaimed (setBlock cl p b true s) cl p x = (decide (x = b) || blockClaimed s cl p x) := by
  rw [blockClaimed_setBlock]; split <;> simp [*]

theorem blockClaimed_release (cl p b x : Nat) (s : State) :
    blockClaimed (setBlock cl p b false s) cl p x = (!decide (x = b) && blockClaimed s cl p x) := by
  rw [blockClaimed_setBlock]; split <;> simp [*]

/-- R224: a claim of a core takes the lowest free block that is not the reserve. -/
theorem claimOne_free {cl p k blk : Nat} {had : Bool} {s : State} (hk : k ≠ 12) (free : freeBlock s cl p = some blk) :
    claimOne cl p k had s = (setBlock cl p blk true s, claimWord 0 0 blk (blockOff s cl p blk)) := by
  simp [claimOne, hk, free]

theorem claimOne_empty {cl p k : Nat} {had : Bool} {s : State} (hk : k ≠ 12) (free : freeBlock s cl p = none) :
    claimOne cl p k had s = (s, claimWord 0x61 (if had then 0x12 else 0x11) 0 0) := by
  simp [claimOne, hk, free]

/-- R224: the control core's claim takes the reserve while it is free. -/
theorem claimOne_reserve {cl p : Nat} {had : Bool} {s : State} (some : 0 < poolBlocks s cl p)
    (free : blockClaimed s cl p (poolBlocks s cl p - 1) = false) :
    (claimOne cl p 12 had s).1 = setBlock cl p (poolBlocks s cl p - 1) true s := by
  simp [claimOne, some, free]

theorem freeBlock_lowest {cl p blk : Nat} {s : State} (free : freeBlock s cl p = some blk) :
    blk + 1 < poolBlocks s cl p ∧ blockClaimed s cl p blk = false ∧ ∀ x, x < blk → blockClaimed s cl p x = true := by
  have found := List.find?_range_eq_some.mp free
  simp only [Bool.not_eq_true', List.mem_range, Bool.not_eq_false'] at found
  exact ⟨by omega, found.1, found.2.2⟩

/-- R225: a claim alone in its cycle. -/
theorem claimBlocks_one {cl p k : Nat} {s : State} (hk : k ≤ 12) :
    claimBlocks cl p [k] s = ((claimOne cl p k (freeBlock s cl p).isSome s).1, [(claimOne cl p k (freeBlock s cl p).isSome s).2]) := by
  have order : rankOrder s [k] = [0] := by
    rcases Nat.lt_or_eq_of_le hk with h | rfl
    · exact rankOrder_core s h
    · exact rankOrder_control s
  simp [claimBlocks, order, nth, setNth]

/-! ## The word that an LD.V returns (R110, R224) -/

theorem vreg_givenWord (c : Course) {l dst w r l' : Nat} (hl' : l' < 32) :
    vreg (setV (setV c dst (BitVec.ofNat 32 (2 ^ l)) (fun _ => BitVec.ofNat 32 w)) (dst + 1) (BitVec.ofNat 32 (2 ^ l))
      (fun _ => BitVec.ofNat 32 (w / 2 ^ 32))) r l' =
      if l' = l ∧ r = dst + 1 then BitVec.ofNat 32 (w / 2 ^ 32) else if l' = l ∧ r = dst then BitVec.ofNat 32 w else vreg c r l' := by
  have lane : (BitVec.ofNat 32 (2 ^ l)).getLsbD l' = true ↔ l' = l := by
    rw [BitVec.getLsbD_ofNat, Nat.testBit_two_pow, decide_eq_true hl', Bool.true_and, decide_eq_true_eq, eq_comm]
  rw [vreg_setV _ _ _ _ _ _ hl', vreg_setV _ _ _ _ _ _ hl']
  simp only [lane, and_comm]

theorem lane_of_claimReady {s : State} {g slot l dst : Nat} (ready : claimReady s g slot l dst = true) : l < 32 := by
  simp only [claimReady, Bool.and_eq_true, decide_eq_true_eq] at ready
  exact ready.1.1.1.1.2

/-- A claimant's word reaches its lane and its course goes on. -/
theorem wordGiven {g slot l dst w : Nat} {s u : State} (hl : l < 32) (same : u.cores = s.cores) :
    WordGiven g slot l dst w s (retireAll [(g, slot)] (giveWord g slot l dst w u)) := by
  have before : courseOf u g slot = courseOf s g slot := by simp [courseOf, coreOf, same]
  have stands : courseOf (retireAll [(g, slot)] (giveWord g slot l dst w u)) g slot =
      advance (courseOf (giveWord g slot l dst w u) g slot) :=
    ((counted_countCore g 0x0D 1 _).courseOf g slot).trans (courseOf_retire g slot _ _)
  have given : courseOf (giveWord g slot l dst w u) g slot =
      setV (setV (courseOf s g slot) dst (BitVec.ofNat 32 (2 ^ l)) (fun _ => BitVec.ofNat 32 w)) (dst + 1) (BitVec.ofNat 32 (2 ^ l))
        (fun _ => BitVec.ofNat 32 (w / 2 ^ 32)) := by
    rw [← before]
    exact (courseOf_setCourse _ _ _ _ _ _).trans (if_pos ⟨rfl, rfl⟩)
  unfold WordGiven
  rw [stands, given]
  refine ⟨?_, ?_, fun r l' hl' other => ?_, advance_atNext rfl rfl rfl⟩
  · rw [vreg_advance, vreg_givenWord _ hl]; simp
  · rw [vreg_advance, vreg_givenWord _ hl]; simp
  · rw [vreg_advance, vreg_givenWord _ hl']
    simp only [not_and_or, not_or] at other
    grind

/-! ## What the counters leave alone (R551) -/

theorem raiseTrigger_units (c : Nat) (s : State) : (raiseTrigger c s).trc.units = s.trc.units := by
  unfold raiseTrigger; split <;> rfl

theorem countOne_units (u i n : Nat) (s : State) : (countOne u i n s).trc.units = s.trc.units := by
  unfold countOne
  dsimp only
  split
  · rfl
  · split
    · exact raiseTrigger_units _ _
    · rfl

theorem countUnit_units (u c i n : Nat) (s : State) : (countUnit u c i n s).trc.units = s.trc.units := by
  unfold countUnit
  split
  · rfl
  · refine List.foldlRecOn _ _ (motive := fun t : State => t.trc.units = s.trc.units) rfl (fun t ht i _ => ?_)
    split
    · exact (countOne_units _ _ _ _).trans ht
    · exact ht

theorem countCore_units (g c n : Nat) (s : State) : (countCore g c n s).trc.units = s.trc.units :=
  (countUnit_units _ _ _ _ _).trans (countUnit_units _ _ _ _ _)

/-- What the return of a word and its course's going on leave alone. -/
theorem retireAll_giveWord (g slot l dst w : Nat) (u : State) :
    let t := retireAll [(g, slot)] (giveWord g slot l dst w u)
    t.clusters = u.clusters ∧ t.mm = u.mm ∧ t.trc.units = u.trc.units := by
  obtain ⟨c, e⟩ : ∃ c, retireAll [(g, slot)] (giveWord g slot l dst w u) =
      countCore g 0x0D 1 (countCore g 0x02 1 (setCourse (giveWord g slot l dst w u) g slot c)) := ⟨_, rfl⟩
  dsimp only
  rw [e]
  refine ⟨?_, ?_, (countCore_units _ _ _ _).trans (countCore_units _ _ _ _)⟩
  · obtain ⟨⟨r, q, w', h⟩, -⟩ := (counted_countCore g 0x02 1 (setCourse (giveWord g slot l dst w u) g slot c)).trans (counted_countCore g 0x0D 1 _)
    rw [h]; rfl
  · exact ((counted_countCore _ _ _ _).trans (counted_countCore _ _ _ _)).mm

/-! ## The rows -/

theorem exec_poolClaim (cl p : Nat) (cs : List PoolClaim) (s : State) : exec (.poolClaim cl p cs) s = execPoolClaim cl p cs s := rfl
theorem exec_poolRelease (cl p agent b : Nat) (s : State) : exec (.poolRelease cl p agent b) s = execPoolRelease cl p agent b s := rfl
theorem exec_marker (cl : Nat) (cs : List LineClaim) (s : State) : exec (.marker cl cs) s = execMarker cl cs s := rfl

/-- R225: a core's claim alone in its cycle. -/
theorem exec_poolClaim_core {cl p : Nat} {c : PoolClaim} {s : State} (on : s.powered = true) (hcl : cl < 16) (hp : p < 4)
    (hc : c.core < 12) (ready : claimReady s (12 * cl + c.core) c.slot c.lane c.dst = true) :
    let r := claimOne cl p c.core (freeBlock s cl p).isSome s
    exec (.poolClaim cl p [c]) s =
      .next (retireAll [(12 * cl + c.core, c.slot)] (giveWord (12 * cl + c.core) c.slot c.lane c.dst r.2 r.1)) := by
  have served : [c].filter (fun c => decide (c.core = 12) || (decide (c.core < 12) && claimReady s (12 * cl + c.core) c.slot c.lane c.dst)) = [c] := by
    simp [hc, ready]
  have one := claimBlocks_one (cl := cl) (p := p) (s := s) (Nat.le_of_lt hc)
  simp only [exec_poolClaim, execPoolClaim, whenOn_next, on, served, List.map_cons, List.map_nil, one]
  simp [hc, Nat.ne_of_lt hc, Nat.not_le.mpr hcl, Nat.not_le.mpr hp]

theorem exec_poolClaim_control {cl p slot lane dst : Nat} {s : State} (on : s.powered = true) (hcl : cl < 16) (hp : p < 4) :
    exec (.poolClaim cl p [⟨12, slot, lane, dst⟩]) s = .next (claimOne cl p 12 (freeBlock s cl p).isSome s).1 := by
  have one := claimBlocks_one (cl := cl) (p := p) (s := s) (Nat.le_refl 12)
  simp [exec_poolClaim, execPoolClaim, whenOn_next, on, one, Nat.not_le.mpr hcl, Nat.not_le.mpr hp, retireAll, distinct]

theorem exec_poolRelease_own {cl p agent blk : Nat} {s : State} (on : s.powered = true) (hcl : cl < 16) (hp : p < 4)
    (own : agent = agEngine cl 7 ∨ (agent < 192 ∧ agent / 12 = cl)) :
    exec (.poolRelease cl p agent blk) s = .next (releaseBlock cl p blk s) := by
  simp [exec_poolRelease, execPoolRelease, whenOn_next, on, Nat.not_le.mpr hcl, Nat.not_le.mpr hp, own]

theorem exec_marker_one {cl : Nat} {c : LineClaim} {s : State} (on : s.powered = true) (hcl : cl < 16) (hc : c.core < 12)
    (ready : claimReady s (12 * cl + c.core) c.slot c.lane c.dst = true) :
    let r := markOne cl c.core c.slot (decide ((traceUnit s cl).fifo.length < 255)) s
    exec (.marker cl [c]) s =
      .next (retireAll [(12 * cl + c.core, c.slot)] (giveWord (12 * cl + c.core) c.slot c.lane c.dst r.2 r.1)) := by
  have all : markAll cl [(c.core, c.slot)] s = ((markOne cl c.core c.slot (decide ((traceUnit s cl).fifo.length < 255)) s).1,
      [(markOne cl c.core c.slot (decide ((traceUnit s cl).fifo.length < 255)) s).2]) := by
    simp [markAll, rankOrder_core s hc, nth, setNth]
  simp [exec_marker, execMarker, whenOn_next, on, hc, ready, all, Nat.not_le.mpr hcl]

/-! ## Markers (R561) -/

/-- A core's event enters a FIFO that has room. -/
theorem traceEvent_room {u typ ag layer op arg : Nat} {b : Bool} {s : State} (takes : traceTakes s u typ = true)
    (core : ag < 192) (room : (traceUnit s u).fifo.length < 255) :
    ∃ x r, traceEvent u typ ag b layer op arg s = setTraceUnit s u x ∧ x.fifo = (traceUnit s u).fifo ++ [r] ∧ r.typ = typ ∧
      r.agent = ag ∧ r.ts = s.ts ∧ r.arg = arg % 2 ^ 64 := by
  have plain : (decide (ag = agEngine u 7) || decide (u = 16 ∧ ag = agFw 2)) = false := by
    rw [Bool.or_eq_false_iff, decide_eq_false_iff_not, decide_eq_false_iff_not]
    unfold agEngine agFw
    omega
  have room : (traceUnit s u).fifo.length < if false = true then 256 else 255 := room
  unfold traceEvent tracePush
  rw [if_pos takes, plain]
  exact ⟨_, _, if_pos room, rfl, rfl, rfl, rfl, rfl⟩

section
variable {cl : Nat} {c : LineClaim} {s : State} (on : s.powered = true) (hcl : cl < 16) (hc : c.core < 12)
  (ready : claimReady s (12 * cl + c.core) c.slot c.lane c.dst = true)
include on hcl hc ready

theorem marker_taken (takes : traceTakes s cl 0x0A = true) (room : (traceUnit s cl).fifo.length < 255) :
    Next (.marker cl [c]) s (fun t => WordGiven (12 * cl + c.core) c.slot c.lane c.dst 0 s t ∧
      ∃ r, (traceUnit t cl).fifo = (traceUnit s cl).fifo ++ [r] ∧ r.typ = 0x0A ∧ r.agent = 12 * cl + c.core ∧ r.ts = s.ts ∧
        r.arg = tget 0 s.trc.markers (12 * cl + c.core) % 2 ^ 64) := by
  obtain ⟨x, r, event, fifo, record⟩ := traceEvent_room (layer := (consortTags s (12 * cl + c.core) (courseOf s (12 * cl + c.core) c.slot).consort).1)
    (op := (consortTags s (12 * cl + c.core) (courseOf s (12 * cl + c.core) c.slot).consort).2)
    (arg := tget 0 s.trc.markers (12 * cl + c.core)) (b := (castingOf s (castingOfCourse s (12 * cl + c.core) c.slot)).sched)
    takes (show 12 * cl + c.core < 192 by omega) room
  have one := exec_marker_one on hcl hc ready
  simp only [markOne, takes, room, event, Bool.not_true, Bool.false_eq_true, if_false, if_true] at one
  obtain ⟨-, -, units⟩ := retireAll_giveWord (12 * cl + c.core) c.slot c.lane c.dst 0 (setTraceUnit s cl x)
  refine ⟨_, one, wordGiven (lane_of_claimReady ready) rfl, r, ?_, record⟩
  unfold traceUnit
  rw [units, ← traceUnit, traceUnit_setTraceUnit, if_pos rfl, fifo]
  rfl

/-- A marker that its unit does not take, or for which no entry is free, leaves the FIFO alone. -/
theorem marker_left {w : Nat} (left : markOne cl c.core c.slot (decide ((traceUnit s cl).fifo.length < 255)) s = (s, w)) :
    Next (.marker cl [c]) s (fun t => WordGiven (12 * cl + c.core) c.slot c.lane c.dst w s t ∧
      (traceUnit t cl).fifo = (traceUnit s cl).fifo) := by
  have one := exec_marker_one on hcl hc ready
  rw [left] at one
  obtain ⟨-, -, units⟩ := retireAll_giveWord (12 * cl + c.core) c.slot c.lane c.dst w s
  refine ⟨_, one, wordGiven (lane_of_claimReady ready) rfl, ?_⟩
  unfold traceUnit
  rw [units]

end

/-- Settles O42, claim by claim: the rank order of one claim and of two, the block that one claim takes, the word that its LD.V returns,
and the FIFO entry of a marker. -/
theorem poolsAndMarkers : Obligations.PoolsAndMarkers := by
  unfold Obligations.PoolsAndMarkers
  refine ⟨fun cl p c s on hcl hp hc ready => ⟨fun blk free => ?_, fun free => ?_⟩, fun cl p slot lane dst s on hcl hp some free => ?_,
    fun cl p blk s => freeBlock_lowest, fun cl p a b blk s ha hb ne free last => ?_, fun cl p agent blk s on hcl hp own => ⟨fun hb claimed => ?_, fun bad => ?_⟩,
    fun cl c s on hcl hc ready takes => ⟨marker_taken on hcl hc ready takes, fun full => ?_⟩, fun cl c s on hcl hc ready takes => ?_⟩
  · have row := exec_poolClaim_core on hcl hp hc ready
    rw [claimOne_free (Nat.ne_of_lt hc) free] at row
    obtain ⟨clusters, mm, -⟩ := retireAll_giveWord (12 * cl + c.core) c.slot c.lane c.dst (claimWord 0 0 blk (blockOff s cl p blk))
      (setBlock cl p blk true s)
    refine ⟨_, row, wordGiven (lane_of_claimReady ready) (by simp), fun x => ?_, mm.trans (by simp)⟩
    rw [← blockClaimed_claim, blockClaimed, clusterOf, clusters]
    rfl
  · have row := exec_poolClaim_core on hcl hp hc ready
    rw [claimOne_empty (Nat.ne_of_lt hc) free, free] at row
    obtain ⟨clusters, mm, -⟩ := retireAll_giveWord (12 * cl + c.core) c.slot c.lane c.dst (claimWord 0x61 0x11 0 0) s
    exact ⟨_, row, wordGiven (lane_of_claimReady ready) rfl, clusters, mm⟩
  · have row := exec_poolClaim_control (slot := slot) (lane := lane) (dst := dst) on hcl hp
    rw [claimOne_reserve some free] at row
    exact ⟨_, row, fun x => blockClaimed_claim _ _ _ _ _, by simp⟩
  · have had : (freeBlock s cl p).isSome = true := by rw [free]; rfl
    have first : ∀ k, k < 12 → claimOne cl p k true s = (setBlock cl p blk true s, claimWord 0 0 blk (blockOff s cl p blk)) :=
      fun k hk => claimOne_free (Nat.ne_of_lt hk) free
    have second : ∀ k, k < 12 → claimOne cl p k true (setBlock cl p blk true s) = (setBlock cl p blk true s, claimWord 0x61 0x12 0 0) :=
      fun k hk => claimOne_empty (Nat.ne_of_lt hk) last
    simp only [claimBlocks, rankOrder_pair s ha hb ne, had]
    show _ = if coreRank s a < coreRank s b then _ else _
    split <;> simp [nth, setNth, first, second, ha, hb]
  · refine ⟨_, exec_poolRelease_own on hcl hp own, fun x => ?_⟩
    rw [releaseBlock, if_pos ⟨hb, claimed⟩, blockClaimed_release]
  · rw [exec_poolRelease_own on hcl hp own, releaseBlock, if_neg]
    rintro ⟨hb, claimed⟩
    rcases bad with h | h
    · omega
    · simp [h] at claimed
  · exact marker_left on hcl hc ready (by simp [markOne, takes, Nat.not_lt.mpr full])
  · exact marker_left on hcl hc ready (by simp [markOne, takes])

end Sys2Proof.Machine
end

