-- ==== Sys2Proof/Proofs/StreamsStay.lean ====
section
/-!
SUPPORT. What an access leaves of the command streams: their queues, the castings that they belong to, the semaphores and the count of rows
out of range (R211) stay as they were, whatever the access does to memory, to caches and to what waits for the host.
-/
namespace Sys2Proof.Machine

/-! ## The relation -/

/-- The clusters are as they were but for their watches (R564), the castings but for what they have written (R60); so are the semaphores
and the counts of rows out of range. -/
structure StreamsStay (s t : State) : Prop where
  cluster : ∀ n, ∃ w, clusterOf t n = { clusterOf s n with watches := w }
  casting : ∀ k, ∃ w, castingOf t k = { castingOf s k with wrote := w }
  sema : t.mm.sema = s.mm.sema
  oob : ∀ n, getF t (engOob n) = getF s (engOob n)

/-- A field that is no cluster's count of rows out of range. -/
def NotOob (f : FRef) : Prop := ∀ n, (engOob n).key ≠ f.key

/-- The counts lie at bit 16 of 64. -/
theorem notOob_of_mod {f : FRef} (h : f.key % 64 ≠ 16) : NotOob f := fun n e => h (by rw [← e]; simp only [FRef.key, engOob]; omega)

theorem unnoted_engOob (n : Nat) : Unnoted (engOob n) := by
  have place : (engOob n).key % 64 = 16 := by simp only [FRef.key, engOob]; omega
  have other : ∀ h : FRef, h.key % 64 ≠ 16 → (engOob n).key ≠ h.key := fun h ne e => ne (e ▸ place)
  have cnt : ∀ u i, cntOff u i % 8 = 0 := fun u i => by unfold cntOff; split <;> [omega; split <;> omega]
  rintro g (rfl | rfl | rfl | ⟨u, rfl⟩ | ⟨u, i, rfl | rfl⟩)
  · exact other _ (by decide)
  · exact other _ (by decide)
  · exact other _ (by decide)
  · exact other _ (by simp only [FRef.key, ringDrops]; omega)
  · exact other _ (by have := cnt u i; simp only [FRef.key, cntCount]; omega)
  · exact other _ (by have := cnt u i; simp only [FRef.key, cntOvf]; omega)

namespace StreamsStay

theorem of_same {s t : State} (clusters : t.clusters = s.clusters) (sch : t.sch = s.sch) (sema : t.mm.sema = s.mm.sema)
    (oob : ∀ n, getF t (engOob n) = getF s (engOob n)) : StreamsStay s t :=
  ⟨fun n => ⟨(clusterOf s n).watches, by rw [clusterOf, clusters]; rfl⟩, fun k => ⟨(castingOf s k).wrote, by rw [castingOf, sch]; rfl⟩, sema, oob⟩

/-- A change that reaches neither registers, clusters, the scheduler nor semaphores. -/
theorem of_regs {s t : State} (clusters : t.clusters = s.clusters) (sch : t.sch = s.sch) (sema : t.mm.sema = s.mm.sema) (regs : t.regs = s.regs) :
    StreamsStay s t := of_same clusters sch sema fun _ => getF_congr regs _

theorem refl (s : State) : StreamsStay s s := of_regs rfl rfl rfl rfl

theorem trans {s t u : State} (h : StreamsStay s t) (h' : StreamsStay t u) : StreamsStay s u where
  cluster n := by
    obtain ⟨w, e⟩ := h.cluster n
    obtain ⟨w', e'⟩ := h'.cluster n
    exact ⟨w', by rw [e', e]⟩
  casting k := by
    obtain ⟨w, e⟩ := h.casting k
    obtain ⟨w', e'⟩ := h'.casting k
    exact ⟨w', by rw [e', e]⟩
  sema := h'.sema.trans h.sema
  oob n := (h'.oob n).trans (h.oob n)

theorem foldl {β : Type} {f : State → β → State} (h : ∀ s x, StreamsStay s (f s x)) (xs : List β) (s : State) :
    StreamsStay s (xs.foldl f s) :=
  List.foldlRecOn xs f (motive := StreamsStay s) (refl s) (fun t ht x _ => ht.trans (h t x))

theorem of_noticed {s t : State} (h : Noticed s t) : StreamsStay s t :=
  of_same (congrArg (fun x => x.clusters) h.rest) h.sch (congrArg (fun x => x.mm.sema) h.rest) fun n => h.reg _ (unnoted_engOob n)

theorem of_sent {port : Nat} {s t : State} (h : Sent port s t) : StreamsStay s t := by
  obtain ⟨⟨r, c, w, ps, rfl⟩, reg, -⟩ := h
  exact of_same rfl rfl rfl fun n => reg _ (unnoted_engOob n)

theorem setF {f : FRef} (hf : NotOob f) (s : State) (v : Nat) : StreamsStay s (setF s f v) :=
  of_same rfl rfl rfl fun n => getF_setF_ne s v (hf n)

variable {s t : State} (h : StreamsStay s t)
include h

theorem queues (n : Nat) : (clusterOf t n).queues = (clusterOf s n).queues := by obtain ⟨w, e⟩ := h.cluster n; rw [e]
theorem streamQueue (n q : Nat) : Machine.streamQueue t n q = Machine.streamQueue s n q := by unfold Machine.streamQueue; rw [h.queues]
theorem bad (n : Nat) : (clusterOf t n).bad = (clusterOf s n).bad := by obtain ⟨w, e⟩ := h.cluster n; rw [e]
theorem reports (k : Nat) : (castingOf t k).reports = (castingOf s k).reports := by obtain ⟨w, e⟩ := h.casting k; rw [e]
theorem semaOf (i : Nat) : Machine.semaOf t i = Machine.semaOf s i := by unfold Machine.semaOf; rw [h.sema]

end StreamsStay

/-! ## Registers and memory -/

theorem streamsStay_xl (s : State) (x : Xlate) : StreamsStay s { s with xl := x } := .of_regs rfl rfl rfl rfl

theorem streamsStay_owner (s : State) (o : Option (Nat × Nat)) : StreamsStay s { s with owner := o } := .of_regs rfl rfl rfl rfl

theorem streamsStay_mem (s : State) (m : Tbl Byte) : StreamsStay s { s with mm := { s.mm with mem := m } } := .of_regs rfl rfl rfl rfl

theorem streamsStay_toRun (cl : Nat) (s : State) : StreamsStay s (toRun cl s) := by
  unfold toRun
  split
  · exact .setF (notOob_of_mod (by simp only [FRef.key, clState]; omega)) s 0
  · exact .refl s

theorem streamsStay_logWrite (sp a n : Nat) (s : State) : StreamsStay s (logWrite sp a n s) :=
  ⟨fun n' => ⟨(clusterOf s n').watches, by rw [clusterOf, logWrite_clusters]; rfl⟩, (chansStay_logWrite sp a n s).wrote,
    by rw [logWrite_mm], fun _ => logWrite_getF ..⟩

theorem streamsStay_scrTame (loc : Nat) (s : State) : StreamsStay s (scrTame loc s) := by
  unfold scrTame
  split
  · exact .of_regs rfl rfl rfl rfl
  · exact .refl s

theorem streamsStay_scrWrite (loc : Nat) (bs : List Byte) (s : State) : StreamsStay s (scrWrite loc bs s) :=
  (StreamsStay.foldl (fun s _ => streamsStay_scrTame _ s) _ s).trans ((streamsStay_mem _ _).trans (streamsStay_logWrite _ _ _ _))

theorem streamsStay_rekey (tag line : Nat) (s : State) : StreamsStay s (rekey tag line s) := by
  unfold rekey
  split
  · exact .refl s
  · exact .of_regs rfl rfl rfl rfl

theorem streamsStay_noteRaw (n off len ks : Nat) (pour : Bool) (s : State) : StreamsStay s (noteRaw n off len ks pour s) := by
  unfold noteRaw
  extract_lets seq line mm noted good first cnt entered
  have raw : StreamsStay s noted := .of_regs rfl rfl rfl rfl
  have entries : StreamsStay noted entered := .foldl (fun t i => by
    extract_lets eloc mm dropped
    have frame : StreamsStay t dropped := .of_regs rfl rfl rfl rfl
    split
    · exact frame
    · exact frame.trans (.of_regs rfl rfl rfl rfl)) _ _
  split
  · exact raw
  · split
    · exact raw.trans entries
    · exact (raw.trans entries).trans (.of_regs rfl rfl rfl rfl)

theorem streamsStay_putBytes (ks loc : Nat) (bs : List Byte) (full pour : Bool) (s : State) : StreamsStay s (putBytes ks loc bs full pour s) := by
  have stored := (streamsStay_rekey (keyTag s ks) (lineOf loc) s).trans ((streamsStay_mem _ (wrList (rekey (keyTag s ks) (lineOf loc) s).mm.mem loc bs)).trans
    (streamsStay_logWrite 0 loc bs.length _))
  have cleared : ∀ t, StreamsStay t (if full then { t with mm := { t.mm with poison := tset 0 t.mm.poison (lineOf loc) 0 } } else t) := fun t => by
    split
    · exact .of_regs rfl rfl rfl rfl
    · exact .refl t
  unfold putBytes
  dsimp only
  split
  · exact stored.trans ((cleared _).trans (streamsStay_noteRaw _ _ _ _ _ _))
  · exact stored.trans (cleared _)

theorem streamsStay_putDev (dpa : Nat) (bs : List Byte) (full pour : Bool) (s : State) : StreamsStay s (putDev dpa bs full pour s) := by
  unfold putDev
  split
  next cl off place =>
    split
    · have written := (streamsStay_toRun cl s).trans (streamsStay_scrWrite (locOf dpa) bs _)
      split
      · exact written.trans (.of_regs rfl rfl rfl rfl)
      · exact written
    · exact .refl s
  next => exact streamsStay_putBytes _ _ _ _ _ _

theorem streamsStay_homeWrite (dpa : Nat) (bs : List Byte) (full : Bool) (s : State) : StreamsStay s (homeWrite dpa bs full s) := by
  unfold homeWrite
  refine (StreamsStay.of_noticed (noticed_beforeWrite dpa bs.length none s)).trans (.trans ?_ (streamsStay_putDev _ _ _ _ _))
  split
  · exact .of_noticed (noticed_grantNone _ _)
  · exact .refl _

theorem streamsStay_putHost (pa : Nat) (bs : List Byte) (s : State) : StreamsStay s (putHost pa bs s) :=
  (StreamsStay.of_regs rfl rfl rfl rfl : StreamsStay s { s with mm := { s.mm with host := wrList s.mm.host pa bs } }).trans
    (streamsStay_logWrite _ _ _ _)

theorem streamsStay_hostWrite (w : Waiter) (pa : Nat) (bs : List Byte) (s : State) : StreamsStay s (hostWrite w pa bs s) := by
  unfold hostWrite
  split
  · exact (streamsStay_putHost pa bs s).trans (streamsStay_xl _ _)
  · exact .refl s

theorem streamsStay_errEvent (a b c d e f : Nat) (s : State) : StreamsStay s (errEvent a b c d e f s) := by
  obtain ⟨r, h⟩ := errEvent_changes a b c d e f s
  exact h ▸ .of_regs rfl rfl rfl rfl

theorem streamsStay_postWake (cl : Nat) (s : State) : StreamsStay s (postWake cl s) := by
  unfold postWake
  split
  · exact .refl s
  · exact .of_regs rfl rfl rfl rfl

theorem streamsStay_heldWake (dpa : Nat) (s : State) : StreamsStay s (heldWake dpa s) := by
  unfold heldWake
  split
  · split
    · exact streamsStay_postWake _ s
    · exact .refl s
  · exact .refl s

/-! ## Translations (R340 to R342) -/

theorem streamsStay_noteFault (w : Waiter) (va : Nat) (wr : Bool) (s : State) : StreamsStay s (noteFault w va wr s) := by
  unfold noteFault
  split
  · exact .of_noticed (noticed_setCourse _ _ _ _)
  · exact .refl s

theorem streamsStay_joinPri {a : Acc2} {va : Nat} {wr : Bool} {s t : State} (h : joinPri a va wr s = some t) : StreamsStay s t := by
  unfold joinPri at h
  split at h
  · cases h
    exact (streamsStay_xl s _).trans (streamsStay_noteFault _ _ _ _)
  · cases h

theorem streamsStay_askAts (a : Acc2) (va : Nat) (wr : Bool) (s : State) : StreamsStay s (askAts a va wr s) := by
  unfold askAts askFor
  dsimp only
  split
  · exact streamsStay_xl s _
  · split
    · exact (streamsStay_xl s _).trans (.of_noticed (noticed_countBase _ _ _ _))
    · exact streamsStay_xl s _

theorem streamsStay_translate (a : Acc2) (va : Nat) (wr : Bool) (s : State) : StreamsStay s (translate a va wr s).1 := by
  unfold translate
  extract_lets good fromCru
  have crucible : ∀ u, StreamsStay u (fromCru u).1 := fun u => by
    dsimp only [fromCru]
    split
    next e _ =>
      split
      · cases a.cl <;> exact streamsStay_xl u _
      · split
        next joined => exact streamsStay_joinPri joined
        next => exact streamsStay_askAts a va wr u
    next =>
      refine (StreamsStay.of_noticed (noticed_countBase 0x14 0xFF 1 u)).trans ?_
      split
      next joined => exact streamsStay_joinPri joined
      next => exact streamsStay_askAts a va wr _
  split
  next => exact crucible s
  next cl own =>
    split
    next e _ =>
      by_cases ok : good e = true
      · rw [if_pos ok]
        exact streamsStay_xl s _
      · rw [if_neg ok]
        exact crucible s
    next => exact (StreamsStay.of_noticed (noticed_countCl cl 0x10 1 s)).trans (crucible _)

theorem streamsStay_translateRange (a : Acc2) (wr : Bool) (fuel va n : Nat) (s : State) : StreamsStay s (translateRange a wr fuel va n s).1 := by
  induction fuel generalizing va n s with
  | zero => exact .refl s
  | succ fuel ih =>
    have one := streamsStay_translate a va wr s
    unfold translateRange
    split
    · exact .refl s
    · dsimp only
      split
      next u _ e => rw [e] at one; exact one.trans (ih _ _ u)
      next u e => rw [e] at one; exact one
      next u x e => rw [e] at one; exact one

theorem streamsStay_pagesReady (a : Acc2) (va n : Nat) (s : State) : StreamsStay s (pagesReady a va n s).1 :=
  streamsStay_translateRange _ _ _ _ _ s

/-! ## Windows and host memory -/

theorem streamsStay_sendWin (who : Waiter) (kind : PacketKind) (port w va : Nat) (p : Packet) (s : State) :
    StreamsStay s (sendWin who kind port w va p s) := (streamsStay_xl s _).trans (.of_sent (sendPacket_among port _ _).1)

theorem streamsStay_winAccess (a : Acc2) (kind : PacketKind) (w off va : Nat) (payload : List Byte) (len aux : Nat) (s : State) :
    StreamsStay s (winAccess a kind w off va payload len aux s).1 := by
  unfold winAccess winAccessP
  split
  · split <;> exact .refl s
  · split
    · exact .refl s
    · exact .refl s
    · exact streamsStay_sendWin _ _ _ _ _ _ s

theorem streamsStay_hostRead (a : Acc2) (pa va n : Nat) (args : List Nat) (s : State) : StreamsStay s (hostRead a pa va n args s).1 := by
  unfold hostRead
  split
  · repeat' split
    all_goals exact .refl s
  · split
    · exact .refl s
    · exact streamsStay_xl s _

theorem streamsStay_obtainHost (ag pa va : Nat) (s : State) : StreamsStay s (obtainHost ag pa va s).1 := by
  unfold obtainHost
  dsimp only
  split
  · exact .refl s
  · split
    · split
      · exact .refl s
      · exact streamsStay_xl s _
    · split
      · exact .refl s
      · split
        · exact .refl s
        · exact streamsStay_xl s _

theorem streamsStay_endWaits (w : Waiter) (s : State) : StreamsStay s (endWaits w s) := streamsStay_xl s _

theorem streamsStay_hostFlush (w : Waiter) (s : State) : StreamsStay s (hostFlush w s).1 := by
  unfold hostFlush
  dsimp only
  split
  · exact .refl s
  · split
    · exact streamsStay_xl s _
    · split
      · exact streamsStay_xl s _
      · split
        · exact .refl s
        · split <;> exact streamsStay_xl s _

/-! ## Holders (R269, R273) -/

theorem streamsStay_enterDir (line : Nat) (s : State) : StreamsStay s (enterDir line s) := by
  have recalled : StreamsStay s (match dirVictim s line with | some v => flushLine v s | none => s) := by
    split
    · exact .of_noticed (noticed_flushLine _ _)
    · exact .refl s
  unfold enterDir
  dsimp only
  split
  · exact recalled.trans (.of_regs rfl rfl rfl rfl)
  · split
    · exact recalled.trans (.of_regs rfl rfl rfl rfl)
    · exact recalled

theorem streamsStay_startPeg (c line : Nat) (s : State) : StreamsStay s (startPeg c line s) := by
  unfold startPeg
  split
  · exact .of_regs rfl rfl rfl rfl
  · exact .refl s

theorem streamsStay_setLState (s : State) (c line : Nat) (x : LState) : StreamsStay s (setLState s c line x) := .of_noticed (noticed_setLState s c line x)
theorem streamsStay_setDir (s : State) (line : Nat) (d : DirEnt) : StreamsStay s (setDir s line d) := .of_noticed (noticed_setDir s line d)
theorem streamsStay_bridge (s : State) (b : List Nat) : StreamsStay s { s with mm := { s.mm with bridge := b } } := .of_noticed (noticed_bridge s b)

theorem streamsStay_snoopShr (line c : Nat) (s : State) : StreamsStay s (snoopShr line c s) := by
  unfold snoopShr
  dsimp only
  split
  · exact .refl s
  · refine (StreamsStay.of_noticed (noticed_noteSnoop c s)).trans (.trans ?_ (streamsStay_setLState _ _ _ _))
    split
    · exact .of_noticed (noticed_cruInstall _ _)
    · exact .refl _

theorem streamsStay_grantShared (c line : Nat) (s : State) : StreamsStay s (grantShared c line s) := by
  have entered := (streamsStay_enterDir line s).trans
    (streamsStay_bridge _ ((enterDir line s).mm.bridge.filter (fun l => decide (l ≠ line))))
  have held : ∀ (u : State) (x : LState) (d : DirEnt), StreamsStay u (setDir (setLState u c line x) line d) :=
    fun u x d => (streamsStay_setLState _ _ _ _).trans (streamsStay_setDir _ _ _)
  unfold grantShared grantSharedAs
  dsimp only
  split
  · exact .refl s
  · refine entered.trans ?_
    split
    · exact (held _ _ _).trans (streamsStay_startPeg _ _ _)
    next o _ =>
      refine (streamsStay_snoopShr line o _).trans ?_
      split <;> exact held _ _ _
    next set f _ =>
      cases f with
      | none => split <;> exact held _ _ _
      | some x =>
        refine (streamsStay_snoopShr line x _).trans ?_
        split <;> exact held _ _ _

theorem streamsStay_grantOwned (c line : Nat) (s : State) : StreamsStay s (grantOwned c line s) :=
  (streamsStay_enterDir line s).trans <| (StreamsStay.of_noticed (noticed_invalidateOthers _ _ _ _)).trans <| (streamsStay_bridge _ _).trans <|
    (streamsStay_setLState _ _ _ _).trans <| (streamsStay_setDir _ _ _).trans <| streamsStay_startPeg _ _ _

/-! ## A cluster's tundish (R242 to R245) -/

theorem streamsStay_tun (s : State) (t : Tbl (Tbl WayEnt)) : StreamsStay s { s with mm := { s.mm with tun := t } } := .of_regs rfl rfl rfl rfl

theorem streamsStay_tunFill (cl line age : Nat) (named : Option Nat) (s : State) : StreamsStay s (tunFill cl line age named s).1 := by
  unfold tunFill
  dsimp only
  split
  · exact .refl s
  · refine .trans ?_ (streamsStay_tun _ _)
    split
    · exact .refl s
    · exact .of_noticed (noticed_giveUp _ _ _)

theorem streamsStay_tunRead (cl line age : Nat) (s : State) : StreamsStay s (tunRead cl line age s) := by
  unfold tunRead
  split
  · exact (streamsStay_tun s _).trans (.of_noticed (noticed_countCl _ _ _ _))
  · have filled := (StreamsStay.of_noticed (noticed_countCl cl 0x05 1 s)).trans (streamsStay_tunFill cl line age none _)
    have touched : ∀ u, StreamsStay u (if line < 2 ^ 57 then cruTouch (128 * line) age none u else u) := fun u => by
      split
      · exact .of_noticed (noticed_cruTouch _ _ _ _)
      · exact .refl u
    dsimp only
    split
    · exact filled.trans ((touched _).trans (streamsStay_grantShared _ _ _))
    · exact filled.trans (touched _)

theorem streamsStay_tunWrite (cl line age : Nat) (s : State) : StreamsStay s (tunWrite cl line age s) := by
  unfold tunWrite
  split
  · refine (streamsStay_tun s (tset [] s.mm.tun cl (wayHit (tget [] s.mm.tun cl) (tunSet (128 * line)) line))).trans ?_
    dsimp only
    split
    · exact streamsStay_setLState _ _ _ _
    · exact streamsStay_grantOwned _ _ _
  · dsimp only
    split
    · exact (streamsStay_tunFill cl line age none s).trans (streamsStay_grantOwned _ _ _)
    · exact (streamsStay_tunFill cl line age none s).trans (.of_noticed (noticed_grantNone _ _))

/-! ## Reads -/

theorem streamsStay_decoded (s : State) (d : Tbl (List Nat)) : StreamsStay s { s with mm := { s.mm with decoded := d } } := .of_regs rfl rfl rfl rfl

theorem streamsStay_readDone (dpa : Nat) (s : State) : StreamsStay s (readDone dpa s) := by
  unfold readDone
  split
  next cl off _ => exact streamsStay_toRun cl s
  next =>
    split
    · unfold noteView
      dsimp only
      refine .trans ?_ (.trans (streamsStay_decoded _ _) (.of_noticed (noticed_countBase _ _ _ _)))
      split
      · exact .of_noticed (noticed_countBase _ _ _ _)
      · exact .refl s
    · exact .refl s
  next => exact .refl s

theorem streamsStay_readNote (dpa : Nat) (r : Got (List Byte)) (s : State) : StreamsStay s (readNote dpa r s) := by
  unfold readNote
  split
  · split
    · exact streamsStay_errEvent _ _ _ _ _ _ _
    · exact .refl s
  · split
    · split
      · exact streamsStay_postWake _ s
      · exact .refl s
    · exact .refl s
  · exact (StreamsStay.of_regs rfl rfl rfl rfl : StreamsStay s (bumpFree s 1)).trans (streamsStay_readDone _ _)

theorem streamsStay_engRead (a : Acc2) (cl age va n : Nat) (s : State) : StreamsStay s (engRead a cl age va n s).1 := by
  have asked := streamsStay_translate a va false s
  unfold engRead
  split
  next u e => rw [e] at asked; exact asked
  next u x e => rw [e] at asked; exact asked
  next u ta e =>
    rw [e] at asked
    refine asked.trans ?_
    split
    · exact streamsStay_winAccess _ _ _ _ _ _ _ _ u
    next dpa _ =>
      split
      · exact .refl u
      · dsimp only
        refine (streamsStay_readNote dpa (devRead u a.agent dpa n) u).trans ?_
        split
        · split
          · exact (StreamsStay.of_noticed (noticed_keyTurn _ _)).trans (streamsStay_tunRead _ _ _ _)
          · exact .refl _
        · exact .refl _
    next pa _ =>
      split
      · split
        · exact .refl u
        · have got := streamsStay_obtainHost a.agent pa va u
          split
          next v e => rw [e] at got; exact got.trans (streamsStay_tunRead _ _ _ _)
          next v e => rw [e] at got; exact got
          next v x e => rw [e] at got; exact got
      · exact streamsStay_hostRead _ _ _ _ _ u

theorem streamsStay_engReadRange (a : Acc2) (cl age fuel va n : Nat) (s : State) : StreamsStay s (engReadRange a cl age fuel va n s).1 := by
  induction fuel generalizing va n s with
  | zero => exact .refl s
  | succ fuel ih =>
    unfold engReadRange
    split
    · exact .refl s
    · have one := streamsStay_engRead a cl age va (min n (128 - va % 128)) s
      dsimp only
      split
      next u bs e =>
        rw [e] at one
        have rest := ih (va + min n (128 - va % 128)) (n - min n (128 - va % 128)) u
        split
        next v more e => rw [e] at rest; exact one.trans rest
        next => exact one.trans rest
      next => exact one

theorem streamsStay_engReadAll (a : Acc2) (cl age va n : Nat) (s : State) : StreamsStay s (engReadAll a cl age va n s).1 :=
  streamsStay_engReadRange _ _ _ _ _ _ s

/-! ## Writes -/

theorem streamsStay_engWrite (a : Acc2) (cl age va : Nat) (bs : List Byte) (s : State) : StreamsStay s (engWrite a cl age va bs s).1 := by
  unfold engWrite asOwnerGot
  refine (streamsStay_owner s (clusterOwner s cl)).trans (.trans ?_ (streamsStay_owner _ _))
  generalize { s with owner := clusterOwner s cl } = v
  have asked := streamsStay_translate a va true v
  beta_reduce
  split
  next u e => rw [e] at asked; exact asked
  next u x e => rw [e] at asked; exact asked
  next u ta e =>
    rw [e] at asked
    refine asked.trans ?_
    split
    next w off _ =>
      have sent := streamsStay_winAccess a .wr w off va bs bs.length (2 ^ 64 - 1) u
      split
      next x _ e => rw [e] at sent; exact sent
      next x e => rw [e] at sent; exact sent
      next x y e => rw [e] at sent; exact sent
    next dpa _ =>
      dsimp only
      split
      · exact .refl u
      · split
        · exact streamsStay_heldWake _ u
        · exact .refl u
        · refine (StreamsStay.of_noticed (noticed_beforeWrite dpa bs.length none u)).trans (.trans ?_ (streamsStay_putDev _ _ _ _ _))
          split
          · exact streamsStay_tunWrite _ _ _ _
          · exact .refl _
    next pa _ =>
      split
      · split
        · exact .refl u
        · have got := streamsStay_obtainHost a.agent pa va u
          split
          next x e =>
            rw [e] at got
            exact got.trans ((streamsStay_tunWrite _ _ _ _).trans ((StreamsStay.of_noticed (noticed_noteWrite _ _ _)).trans (streamsStay_putHost _ _ _)))
          next x e => rw [e] at got; exact got
          next x y e => rw [e] at got; exact got
      · exact (StreamsStay.of_noticed (noticed_noteWrite _ _ _)).trans (streamsStay_hostWrite _ _ _ _)

theorem streamsStay_scrPut (cl off : Nat) (bs : List Byte) (s : State) : StreamsStay s (scrPut cl off bs s) := by
  unfold scrPut
  split
  · exact .refl s
  · exact (StreamsStay.foldl (fun s l => .of_noticed (noticed_noteWrite _ _ s)) _ s).trans (streamsStay_scrWrite _ _ _)

theorem streamsStay_engFlags (cl e : Nat) (w : Word) (s : State) : StreamsStay s (engFlags cl e w s) := by
  have one : ∀ (f : Word) i, i < 4 → ∀ t, StreamsStay t (if w &&& f = 0 then t else setOn t (engFlag cl i)) := fun f i hi t => by
    split
    · exact .refl t
    · exact .setF (notOob_of_mod (by simp only [FRef.key, engFlag]; omega)) t 1
  unfold engFlags
  dsimp only
  split
  · exact .refl s
  · exact (one _ 3 (by omega) s).trans <| (one _ 2 (by omega) _).trans <| (one _ 1 (by omega) _).trans <| (one _ 0 (by omega) _).trans <|
      .setF (notOob_of_mod (by simp only [FRef.key, engSource]; omega)) _ _

/-! ## Watches and a cluster's outstanding writes (R202, R564) -/

theorem streamsStay_readTarget (a : Acc2) (x : Target) (va n : Nat) (s : State) : StreamsStay s (readTarget a x va n none s).1 := by
  have placed : ∀ line u, StreamsStay u (placeLine none line false u) := fun line u => .of_noticed (noticed_readCurrent line u)
  unfold readTarget
  split
  next dpa =>
    split
    · exact .refl s
    · dsimp only
      refine (streamsStay_readNote dpa (devRead s a.agent dpa n) s).trans ?_
      split
      · split
        · refine (StreamsStay.of_noticed (noticed_keyTurn dpa _)).trans ?_
          split
          · exact (StreamsStay.of_noticed (noticed_noteSnoop _ _)).trans (placed _ _)
          · exact placed _ _
        · exact .refl _
      · exact .refl _
  next w off => exact streamsStay_winAccess _ _ _ _ _ _ _ _ s
  next pa =>
    split
    · exact .refl s
    · split
      · exact .refl s
      · exact streamsStay_hostRead _ _ _ _ _ s

theorem streamsStay_readAtVa (a : Acc2) (va n : Nat) (s : State) : StreamsStay s (readAtVa a va n none s).1 := by
  have asked := streamsStay_translate a va false s
  unfold readAtVa
  split
  next u ta e => rw [e] at asked; exact asked.trans (streamsStay_readTarget _ _ _ _ u)
  next u e => rw [e] at asked; exact asked
  next u x e => rw [e] at asked; exact asked

theorem streamsStay_readRange (a : Acc2) (fuel va n : Nat) (s : State) : StreamsStay s (readRange a none fuel va n s).1 := by
  induction fuel generalizing va n s with
  | zero => exact .refl s
  | succ fuel ih =>
    unfold readRange
    split
    · exact .refl s
    · have one := streamsStay_readAtVa a va (min n (128 - va % 128)) s
      dsimp only
      split
      next u bs e =>
        rw [e] at one
        have rest := ih (va + min n (128 - va % 128)) (n - min n (128 - va % 128)) u
        split
        next v more e => rw [e] at rest; exact one.trans rest
        next => exact one.trans rest
      next => exact one

theorem streamsStay_watchRows (a : Acc2) (cl : Nat) (d : List Byte) (s : State) : StreamsStay s (watchRows a cl d s).1 := by
  unfold watchRows
  refine List.foldlRecOn _ _ (motive := fun r : State × Got (List (List Byte)) => StreamsStay s r.1) (.refl s) fun r h i _ => h.trans ?_
  obtain ⟨u, got⟩ := r
  cases got with
  | ok rows =>
    dsimp only
    generalize one : (if fieldOf d 24 1 = 1 then _ else _ : State × Got (List Byte)) = x
    have read : StreamsStay u x.1 := by
      rw [← one]
      split
      · exact streamsStay_readRange _ _ _ _ u
      · split <;> exact .refl u
    split <;> exact read
  | wait => exact .refl u
  | fail e => exact .refl u

theorem streamsStay_watches (s : State) (cl : Nat) (ws : List Watch) : StreamsStay s (setCluster s cl { clusterOf s cl with watches := ws }) where
  cluster n := by
    rw [clusterOf_setCluster]
    split
    next h => exact ⟨ws, by rw [h]⟩
    next => exact ⟨_, rfl⟩
  casting _ := ⟨_, rfl⟩
  sema := rfl
  oob _ := rfl

theorem streamsStay_resetWatches (cl : Nat) (s : State) : StreamsStay s (resetWatches cl s) := streamsStay_watches s cl _

theorem streamsStay_failWatch (cl : Nat) (s : State) : StreamsStay s (failWatch cl s) := by
  unfold failWatch
  dsimp only
  split
  · have forgot := noticed_forgetWaits (.engine cl 9) s
    have same : clusterOf s cl = clusterOf (forgetWaits (.engine cl 9) s) cl := rfl
    rw [same]
    exact (StreamsStay.of_noticed forgot).trans ((streamsStay_watches _ cl _).trans (.setF (notOob_of_mod (by decide)) _ 1))
  · exact .refl s

theorem streamsStay_raiseTrigger (c : Nat) (s : State) : StreamsStay s (raiseTrigger c s) := .of_noticed (noticed_raiseTrigger c s)

theorem streamsStay_watchResult (cl k i : Nat) (w : Watch) (rows : List (List Byte)) (s : State) :
    StreamsStay s (watchResult cl k i w rows s) := by
  unfold watchResult
  extract_lets d c seq f st dig isDig body slot stored x noted tags traced
  have first : StreamsStay s stored := by
    dsimp only [stored]
    split
    · exact streamsStay_homeWrite _ _ _ _
    · exact .setF (notOob_of_mod (by decide)) s 1
  have written : StreamsStay s traced := (first.trans (streamsStay_watches _ cl _)).trans (.of_noticed (noticed_traceEvent _ _ _ _ _ _ _ _))
  split
  · exact written.trans (streamsStay_raiseTrigger 5 _)
  · exact written

theorem streamsStay_runWatches (cl k node : Nat) (s : State) : StreamsStay s (runWatches cl k node s).1 := by
  unfold runWatches
  dsimp only
  refine List.foldlRecOn _ _ (motive := fun r : State × Bool => StreamsStay s r.1) (.refl s) fun r h i _ => h.trans ?_
  split
  · exact .refl _
  · have read := streamsStay_watchRows (castingAccess s k (.engine cl 9) (agEngine cl 7) (some cl)) cl
      (nth ⟨0, [], 0, true⟩ (clusterOf r.1 cl).watches i).desc r.1
    split
    next u rows e => rw [e] at read; exact read.trans ((streamsStay_endWaits _ u).trans (streamsStay_watchResult _ _ _ _ _ _))
    next u e => rw [e] at read; exact read
    next u x e => rw [e] at read; exact read.trans (streamsStay_failWatch _ _)

theorem streamsStay_coreWritesDone (cl : Nat) (s : State) : StreamsStay s (coreWritesDone cl s).1 := by
  unfold coreWritesDone
  refine List.foldlRecOn _ _ (motive := fun r : State × Bool => StreamsStay s r.1) (.refl s) fun r h w _ => h.trans ?_
  exact streamsStay_hostFlush w r.1

end Sys2Proof.Machine
end

