-- ==== Sys2Proof/Proofs/StreamCommands.lean ====
section
/-!
SUPPORT. The queues of a command stream (R199, R200): what replaces the head of a queue, what a command's start leaves, and what its
completion leaves.
-/
namespace Sys2Proof.Machine

/-! ## Queues -/

theorem streamQueue_setStreamQueue (cl qi q : Nat) (xs : List SCmd) (s : State) :
    streamQueue (setStreamQueue cl qi xs s) cl q = if q = qi then xs else streamQueue s cl q := by
  simp [streamQueue, setStreamQueue, clusterOf_setCluster, tget_tset]

theorem streamQueue_setHeadCmd {cl qi : Nat} {m : SCmd} {s : State} {xs : List SCmd} (h : streamQueue s cl qi = m :: xs) (m' : SCmd) (q : Nat) :
    streamQueue (setHeadCmd cl qi m' s) cl q = if q = qi then m' :: xs else streamQueue s cl q := by
  unfold setHeadCmd
  rw [streamQueue_setStreamQueue, h]
  rfl

theorem eq_cons_of_head? {α : Type} {xs : List α} {x : α} (h : xs.head? = some x) : xs = x :: xs.tail := by
  cases xs with
  | nil => cases h
  | cons y ys => cases h; rfl

/-- A head that is replaced changes the clusters alone. -/
theorem setHeadCmd_changes (cl qi : Nat) (m : SCmd) (s : State) :
    setHeadCmd cl qi m s = setCluster s cl { clusterOf s cl with
      queues := tset [] (clusterOf s cl).queues qi (setNth (streamQueue s cl qi) 0 m) } := rfl

theorem clusterOf_setHeadCmd (cl qi : Nat) (m : SCmd) (s : State) : clusterOf (setHeadCmd cl qi m s) cl =
    { clusterOf s cl with queues := tset [] (clusterOf s cl).queues qi (setNth (streamQueue s cl qi) 0 m) } := by
  rw [setHeadCmd_changes, clusterOf_setCluster, if_pos rfl]

@[simp] theorem setHeadCmd_mm (cl qi : Nat) (m : SCmd) (s : State) : (setHeadCmd cl qi m s).mm = s.mm := rfl
@[simp] theorem setHeadCmd_xl (cl qi : Nat) (m : SCmd) (s : State) : (setHeadCmd cl qi m s).xl = s.xl := rfl
@[simp] theorem setHeadCmd_sch (cl qi : Nat) (m : SCmd) (s : State) : (setHeadCmd cl qi m s).sch = s.sch := rfl
@[simp] theorem setHeadCmd_regs (cl qi : Nat) (m : SCmd) (s : State) : (setHeadCmd cl qi m s).regs = s.regs := rfl
@[simp] theorem setHeadCmd_cores (cl qi : Nat) (m : SCmd) (s : State) : (setHeadCmd cl qi m s).cores = s.cores := rfl

/-! ## The commands of a stream that are open -/

theorem tget_below {α : Type} [DecidableEq α] {d : α} {t : Tbl α} {a k : Nat} (w : twfFrom d (some a) t = true) (h : k ≤ a) : tget d t k = d := by
  induction t generalizing a with
  | nil => rfl
  | cons e t ih =>
    obtain ⟨b, v⟩ := e
    simp only [twfFrom, Bool.and_eq_true, decide_eq_true_eq] at w
    obtain ⟨⟨above, -⟩, rest⟩ := w
    rw [tget, if_neg (by omega), ih rest (by omega)]

theorem mem_of_tget {α : Type} {d : α} {t : Tbl α} {k : Nat} (h : tget d t k ≠ d) : (k, tget d t k) ∈ t := by
  induction t with
  | nil => exact absurd rfl h
  | cons e t ih =>
    obtain ⟨a, v⟩ := e
    by_cases same : a = k
    · subst same; simp [tget]
    · rw [tget, if_neg same] at h ⊢
      exact List.mem_cons_of_mem _ (ih h)

theorem mem_openCmds {s : State} {cl : Nat} {x : Nat × SCmd} : x ∈ openCmds s cl ↔ ∃ e ∈ (clusterOf s cl).queues, x.1 = e.1 ∧ x.2 ∈ e.2 := by
  simp only [openCmds, List.mem_flatMap, List.mem_map]
  refine exists_congr fun e => and_congr_right fun _ => ⟨?_, fun ⟨h, h'⟩ => ⟨x.2, h', by rw [← h]⟩⟩
  rintro ⟨m, hm, rfl⟩
  exact ⟨rfl, hm⟩

/-- What is open after a head has been replaced: the new head, and what was open. -/
theorem open_setHeadCmd {cl qi : Nat} {m : SCmd} {s : State} {xs : List SCmd} (h : streamQueue s cl qi = m :: xs) {m' : SCmd}
    {x : Nat × SCmd} (hx : x ∈ openCmds (setHeadCmd cl qi m' s) cl) : x.2 = m' ∨ x ∈ openCmds s cl := by
  obtain ⟨e, he, key, mem⟩ := mem_openCmds.mp hx
  rw [clusterOf_setHeadCmd] at he
  rcases mem_tset he with rfl | old
  · rw [h] at mem
    rcases List.mem_cons.mp mem with new | rest
    · exact .inl new
    · have listed : (qi, streamQueue s cl qi) ∈ (clusterOf s cl).queues := mem_of_tget (by rw [← streamQueue, h]; simp)
      exact .inr (mem_openCmds.mpr ⟨_, listed, key, by rw [h]; exact List.mem_cons_of_mem _ rest⟩)
  · exact .inr (mem_openCmds.mpr ⟨e, old, key, mem⟩)

/-- A listed queue that is replaced by one of its length. -/
theorem length_open_tins {t : Tbl (List SCmd)} {k : Nat} {v : List SCmd} {lo : Option Nat} (w : twfFrom [] lo t = true)
    (listed : tget [] t k ≠ []) (same : v.length = (tget [] t k).length) :
    ((tins t k v).flatMap (fun e => e.2.map (fun m => (e.1, m)))).length = (t.flatMap (fun e => e.2.map (fun m => (e.1, m)))).length := by
  induction t generalizing lo with
  | nil => exact absurd rfl listed
  | cons e t ih =>
    obtain ⟨a, x⟩ := e
    simp only [twfFrom, Bool.and_eq_true] at w
    by_cases here : a = k
    · rw [tget, if_pos here] at same
      simp [tins, here, same]
    · rw [tget, if_neg here] at same listed
      by_cases past : k < a
      · exact absurd (tget_below w.2 (Nat.le_of_lt past)) listed
      · simp [tins, here, past] at ih ⊢
        exact ih w.2 listed same

theorem length_openCmds_setHeadCmd {cl qi : Nat} {m : SCmd} {s : State} {xs : List SCmd} (h : streamQueue s cl qi = m :: xs) (m' : SCmd)
    (w : twf [] (clusterOf s cl).queues = true) : (openCmds (setHeadCmd cl qi m' s) cl).length = (openCmds s cl).length := by
  have listed : tget [] (clusterOf s cl).queues qi = m :: xs := h
  unfold openCmds
  rw [clusterOf_setHeadCmd, h, tset, if_neg (by simp [setNth])]
  exact length_open_tins w (by rw [listed]; simp) (by rw [listed]; rfl)

/-! ## A command as it starts (R199) -/

/-- A command that has started, in fret `f`. -/
def inWork (f : Nat) (m : SCmd) : SCmd := { m with started := true, startFret := f }

theorem inWork_of_started {m : SCmd} (h : m.started = true) : inWork m.startFret m = m := by
  obtain ⟨⟩ := m; subst h; rfl

@[simp] theorem mOp_inWork (f : Nat) (m : SCmd) : mOp (inWork f m) = mOp m := rfl
@[simp] theorem mNode_inWork (f : Nat) (m : SCmd) : mNode (inWork f m) = mNode m := rfl
@[simp] theorem inWork_bytes (f : Nat) (m : SCmd) : (inWork f m).bytes = m.bytes := rfl
@[simp] theorem inWork_pos (f : Nat) (m : SCmd) : (inWork f m).pos = m.pos := rfl
@[simp] theorem inWork_unit (f : Nat) (m : SCmd) : (inWork f m).unit = m.unit := rfl
@[simp] theorem inWork_mid (f : Nat) (m : SCmd) : (inWork f m).mid = m.mid := rfl
@[simp] theorem inWork_out (f : Nat) (m : SCmd) : (inWork f m).out = m.out := rfl
@[simp] theorem inWork_outVa (f : Nat) (m : SCmd) : (inWork f m).outVa = m.outVa := rfl
@[simp] theorem inWork_placed (f : Nat) (m : SCmd) : (inWork f m).placed = m.placed := rfl
@[simp] theorem inWork_seen (f : Nat) (m : SCmd) : (inWork f m).seen = m.seen := rfl
@[simp] theorem inWork_done (f : Nat) (m : SCmd) : (inWork f m).done = m.done := rfl
@[simp] theorem inWork_stopped (f : Nat) (m : SCmd) : (inWork f m).stopped = m.stopped := rfl
@[simp] theorem inWork_started (f : Nat) (m : SCmd) : (inWork f m).started = true := rfl

theorem toRun_changes (cl : Nat) (s : State) : ∃ r w, toRun cl s = { s with regs := r, touched := w } := by
  unfold toRun
  split
  · exact ⟨_, _, rfl⟩
  · exact ⟨s.regs, s.touched, rfl⟩

theorem traceCmd_changes (cl qi k typ : Nat) (m : SCmd) (arg : Nat) (s : State) :
    ∃ r q w, traceCmd cl qi k typ m arg s = { s with regs := r, trc := q, touched := w } := traceEvent_changes _ _ _ _ _ _ _ s

theorem streamsStay_traceCmd (cl qi k typ : Nat) (m : SCmd) (arg : Nat) (s : State) : StreamsStay s (traceCmd cl qi k typ m arg s) :=
  .of_noticed (noticed_traceEvent _ _ _ _ _ _ _ s)

/-- R199: what a command's start changes: its queue's head, registers and trace. -/
theorem begun_changes (cl qi k : Nat) (m : SCmd) (s : State) :
    ∃ r q w, begun cl qi k m s = { setHeadCmd cl qi (inWork (getF s amxFret) m) s with regs := r, trc := q, touched := w } := by
  obtain ⟨r, w, run⟩ := toRun_changes cl s
  obtain ⟨r', q, w', trace⟩ := traceCmd_changes cl qi k 0x01 (inWork (getF s amxFret) m) (mOp m + 256 * qi + 2 ^ 16 * mNode m)
    (setHeadCmd cl qi (inWork (getF s amxFret) m) (toRun cl s))
  refine ⟨r', q, w', trace.trans ?_⟩
  rw [run]
  rfl

/-- The state `t` in which a queue's head `m` goes to work, as `m0`, in state `s`. -/
structure Working (cl qi : Nat) (m m0 : SCmd) (s t : State) : Prop where
  command : ∃ f, m0 = inWork f m
  queue : streamQueue t cl qi = m0 :: (streamQueue s cl qi).tail
  others : ∀ q, q ≠ qi → streamQueue t cl q = streamQueue s cl q
  rest : ∃ c r q w, t = { s with clusters := c, regs := r, trc := q, touched := w }
  cluster : clusterOf t cl = { clusterOf s cl with queues := (clusterOf t cl).queues }
  oob : ∀ n, getF t (engOob n) = getF s (engOob n)
  opened : ∀ x ∈ openCmds t cl, x.2 = m0 ∨ x ∈ openCmds s cl
  count : twf [] (clusterOf s cl).queues = true → (openCmds t cl).length = (openCmds s cl).length

namespace Working

variable {cl qi : Nat} {m m0 : SCmd} {s t : State} (h : Working cl qi m m0 s t)
include h

theorem mm : t.mm = s.mm := by obtain ⟨c, r, q, w, e⟩ := h.rest; rw [e]
theorem xl : t.xl = s.xl := by obtain ⟨c, r, q, w, e⟩ := h.rest; rw [e]
theorem sch : t.sch = s.sch := by obtain ⟨c, r, q, w, e⟩ := h.rest; rw [e]
theorem cores : t.cores = s.cores := by obtain ⟨c, r, q, w, e⟩ := h.rest; rw [e]
theorem head : (streamQueue t cl qi).head? = some m0 := by rw [h.queue]; rfl
theorem bad : (clusterOf t cl).bad = (clusterOf s cl).bad := by rw [h.cluster]
theorem casting : (clusterOf t cl).casting = (clusterOf s cl).casting := by rw [h.cluster]
theorem castings (k : Nat) : castingOf t k = castingOf s k := by rw [castingOf, h.sch]; rfl
theorem semaOf (i : Nat) : Machine.semaOf t i = Machine.semaOf s i := by rw [Machine.semaOf, h.mm]; rfl

end Working

theorem working_begun {cl qi : Nat} {m : SCmd} {s : State} (k : Nat) (head : (streamQueue s cl qi).head? = some m) :
    Working cl qi m (inWork (getF s amxFret) m) s (begun cl qi k m s) := by
  have queue := eq_cons_of_head? head
  have same : clusterOf (begun cl qi k m s) cl = clusterOf (setHeadCmd cl qi (inWork (getF s amxFret) m) s) cl := by
    obtain ⟨r, q, w, e⟩ := begun_changes cl qi k m s
    rw [e]; rfl
  have queues : ∀ q, streamQueue (begun cl qi k m s) cl q = streamQueue (setHeadCmd cl qi (inWork (getF s amxFret) m) s) cl q := fun q => by
    rw [streamQueue, same]; rfl
  have opened : openCmds (begun cl qi k m s) cl = openCmds (setHeadCmd cl qi (inWork (getF s amxFret) m) s) cl := by
    rw [openCmds, same]; rfl
  exact {
    command := ⟨_, rfl⟩
    queue := by rw [queues, streamQueue_setHeadCmd queue, if_pos rfl]
    others := fun q hq => by rw [queues, streamQueue_setHeadCmd queue, if_neg hq]
    rest := by
      obtain ⟨r, q, w, e⟩ := begun_changes cl qi k m s
      exact ⟨_, r, q, w, e⟩
    cluster := by rw [same, clusterOf_setHeadCmd]
    oob := fun n => ((streamsStay_traceCmd _ _ _ _ _ _ _).oob n).trans ((streamsStay_toRun cl s).oob n)
    opened := fun x hx => open_setHeadCmd queue (opened ▸ hx)
    count := fun w => by rw [opened, length_openCmds_setHeadCmd queue _ w] }

theorem working_atWork {cl qi op k : Nat} {m : SCmd} {s : State} (h : Heads cl qi op k m s) :
    ∃ m0, Working cl qi m m0 s (atWork cl qi k m s) := by
  obtain ⟨-, -, head, -⟩ := h
  unfold atWork
  split
  next on =>
    exact ⟨m, ⟨m.startFret, (inWork_of_started on).symm⟩, eq_cons_of_head? head, fun _ _ => rfl, ⟨s.clusters, s.regs, s.trc, s.touched, rfl⟩,
      rfl, fun _ => rfl, fun _ hx => .inr hx, fun _ => rfl⟩
  next => exact ⟨_, working_begun k head⟩

/-- R199: the head of a queue that may work goes to work. -/
theorem streamStep_works {cl qi op k : Nat} {m m0 : SCmd} {s : State} (h : Heads cl qi op k m s)
    (work : Working cl qi m m0 s (atWork cl qi k m s)) {check : State → SCmd → Option Nat} (ok : m.started = false → check s m = none)
    (go : Nat → SCmd → State → State) : streamStep cl qi op check s go = go k m0 (atWork cl qi k m s) := by
  obtain ⟨-, up, head, hop, notDone, notStopped, may⟩ := h
  have queue := eq_cons_of_head? head
  have mine : ¬(mOp m ≠ op ∨ m.done = true ∨ (m.stopped = true ∧ m.mid = false)) := by simp [hop, notDone, notStopped]
  have first : (streamQueue (atWork cl qi k m s) cl qi).head? = some m0 := work.head
  unfold streamStep
  rw [up, queue]
  dsimp only
  rw [if_neg mine]
  cases on : m.started with
  | true =>
    have same : m0 = m := by
      rw [atWork, if_pos on, head] at first
      exact (Option.some.inj first).symm
    rw [if_pos rfl, atWork, if_pos on, same]
  | false =>
    obtain ⟨mb, hd⟩ := may.resolve_left (by simp [on])
    have fresh : ¬m.started = true := by simp [on]
    have same : m0 = inWork (getF s amxFret) m := by
      rw [atWork, if_neg fresh, (working_begun k head).head] at first
      exact (Option.some.inj first).symm
    rw [if_neg (by simp), mb, hd, ok on, atWork, if_neg fresh, same]
    rfl

/-- R204: the head of a queue that fails its own check ends the casting. -/
theorem streamStep_fails {cl qi op k sub : Nat} {m : SCmd} {s : State} (h : Begins cl qi op k m s) {check : State → SCmd → Option Nat}
    (bad : check s m = some sub) (go : Nat → SCmd → State → State) :
    streamStep cl qi op check s go = failCasting k (protEnd sub (agQueue cl qi) 0) s := by
  obtain ⟨⟨-, up, head, hop, notDone, notStopped, may⟩, fresh⟩ := h
  obtain ⟨mb, hd⟩ := may.resolve_left (by simp [fresh])
  have mine : ¬(mOp m ≠ op ∨ m.done = true ∨ (m.stopped = true ∧ m.mid = false)) := by simp [hop, notDone, notStopped]
  unfold streamStep
  rw [up, eq_cons_of_head? head]
  dsimp only
  rw [if_neg mine, fresh, mb, hd, bad]
  rfl

/-! ## A command as it completes (R200) -/

/-- R200: the head of a queue leaves it; where no bad command ended the stream, nothing else but registers and trace changes. -/
theorem completeHead_changes {cl qi k : Nat} {m : SCmd} {s : State} (good : (clusterOf s cl).bad = false) :
    ∃ r q w, completeHead cl qi k m s = { setStreamQueue cl qi (streamQueue s cl qi).tail s with regs := r, trc := q, touched := w } := by
  obtain ⟨r, q, w, e⟩ := traceCmd_changes cl qi k 0x02 m (2 ^ 16 * mNode m + 2 ^ 32 * m.unit) s
  unfold completeHead
  dsimp only
  rw [e, if_neg]
  · exact ⟨r, q, w, rfl⟩
  · rintro ⟨h, -⟩
    rw [setStreamQueue, clusterOf_setCluster, if_pos rfl] at h
    exact absurd (good ▸ h : false = true) (by simp)

/-- The head of a queue has left it in `t`, and nothing else of the state but registers and trace has changed. -/
structure Completed (cl qi : Nat) (s t : State) : Prop where
  left : HeadLeft cl qi s t
  rest : ∃ c r q w, t = { s with clusters := c, regs := r, trc := q, touched := w }

namespace Completed
variable {cl qi : Nat} {s t : State} (h : Completed cl qi s t)
include h
theorem mm : t.mm = s.mm := by obtain ⟨c, r, q, w, e⟩ := h.rest; rw [e]
theorem castings (k : Nat) : castingOf t k = castingOf s k := by obtain ⟨c, r, q, w, e⟩ := h.rest; rw [e]; rfl
end Completed

theorem completed {cl qi k : Nat} {m : SCmd} {s : State} (good : (clusterOf s cl).bad = false) : Completed cl qi s (completeHead cl qi k m s) := by
  obtain ⟨r, q, w, e⟩ := completeHead_changes (qi := qi) (k := k) (m := m) good
  have queues : ∀ p, streamQueue (completeHead cl qi k m s) cl p = if p = qi then (streamQueue s cl qi).tail else streamQueue s cl p := fun p => by
    rw [e, ← streamQueue_setStreamQueue]; rfl
  exact ⟨⟨by rw [queues, if_pos rfl], fun p hp => by rw [queues, if_neg hp]⟩, _, r, q, w, e⟩

/-- The queues of a working head, once it has left. -/
theorem HeadLeft.of_working {cl qi : Nat} {m m0 : SCmd} {s t u : State} (work : Working cl qi m m0 s t) (h : HeadLeft cl qi t u) :
    HeadLeft cl qi s u :=
  ⟨by rw [h.1, work.queue]; rfl, fun q hq => (h.2 q hq).trans (work.others q hq)⟩

/-- The queues that a command's work leaves alone. -/
theorem HeadLeft.of_stay {cl qi : Nat} {s t u : State} (stay : StreamsStay s t) (h : HeadLeft cl qi t u) : HeadLeft cl qi s u :=
  ⟨by rw [h.1, stay.streamQueue], fun q hq => (h.2 q hq).trans (stay.streamQueue cl q)⟩

theorem HeadStays.of_working {cl qi : Nat} {m m0 : SCmd} {s t : State} (head : (streamQueue s cl qi).head? = some m)
    (work : Working cl qi m m0 s t) : HeadStays cl qi s t := by
  obtain ⟨f, rfl⟩ := work.command
  refine ⟨?_, _, work.head, rfl⟩
  rw [work.queue, eq_cons_of_head? head]
  rfl

end Sys2Proof.Machine
end

