-- ==== Sys2Proof/Proofs/ControlCommands.lean ====
section
/-!
CERTIFICATE. The commands of the control queue (R199 to R204): placement, NOP, END, SEM_WAIT, SEM_SIGNAL, NODE_DONE, and the completion of any
queue's head.
-/
namespace Sys2Proof.Machine

/-! ## The rows -/

theorem powered_of_controlUp {s : State} {cl k : Nat} (up : controlUp s cl = some k) : s.powered = true := by
  unfold controlUp at up
  split at up
  next h => simp only [Bool.and_eq_true] at h; exact h.1.1
  next => cases up

theorem whenOn_powered_next {s : State} (on : s.powered = true) (t : State) : whenOn s (.next t) = .next t := by
  rw [whenOn_next, if_pos on]

theorem exec_streamCommandPlace {cl k : Nat} {s : State} (up : controlUp s cl = some k) :
    exec (.streamCommandPlace cl) s = .next (placeStep cl s) := whenOn_powered_next (powered_of_controlUp up) _

theorem exec_nop {cl k : Nat} {s : State} (up : controlUp s cl = some k) :
    exec (.nop cl) s = .next (streamStep cl 0 0x00 noCheck s (completeHead cl 0)) := whenOn_powered_next (powered_of_controlUp up) _

/-! ## Placement (R199) -/

section
variable {cl k : Nat} {s : State} (up : controlUp s cl = some k) (runs : (clusterOf s cl).stop = false)
include up runs

/-- R204: a stream that ends before a whole header is bad; with commands open, it ends once they have completed. -/
theorem placeStep_short (short : (clusterOf s cl).strLen < (clusterOf s cl).strPos + 16) (opened : openCmds s cl ≠ []) :
    placeStep cl s = setCluster s cl { clusterOf s cl with stop := true, bad := true } := by
  have same : openCmds (setCluster s cl { clusterOf s cl with stop := true, bad := true }) cl = openCmds s cl := by
    rw [openCmds, clusterOf_setCluster, if_pos rfl]; rfl
  unfold placeStep
  rw [up]
  dsimp only
  rw [runs, if_neg (by simp), if_pos short, badStream, same, if_neg (by simpa using opened)]

/-- R199: the next command of the stream enters the queue of its opcode. -/
theorem placeStep_places {h bs : List Byte} {s1 s2 : State}
    (room : (clusterOf s cl).strPos + 16 ≤ (clusterOf s cl).strLen)
    (header : readRange (castingAccess s k (.engine cl 0) (agEngine cl 7) (some cl)) none 2 ((clusterOf s cl).strBase + (clusterOf s cl).strPos) 16 s = (s1, .ok h))
    (legal : streamLen (fieldOf h 0 1) ≠ 0) (len : fieldOf h 2 2 = streamLen (fieldOf h 0 1))
    (fits : (clusterOf s cl).strPos + streamLen (fieldOf h 0 1) ≤ (clusterOf s cl).strLen)
    (free : (streamQueue s1 cl (fieldOf h 0 1 / 16)).length < 16)
    (body : readRange (castingAccess s k (.engine cl 0) (agEngine cl 7) (some cl)) none 3 ((clusterOf s cl).strBase + (clusterOf s cl).strPos)
      (streamLen (fieldOf h 0 1)) s1 = (s2, .ok bs)) :
    placeStep cl s = setCluster (setOff (endWaits (.engine cl 0) s2) (tunClearing cl)) cl { clusterOf s2 cl with
      strPos := (clusterOf s2 cl).strPos + streamLen (fieldOf h 0 1), strNum := (clusterOf s2 cl).strNum + 1
      stop := decide (fieldOf h 0 1 = 1)
      queues := tset [] (clusterOf s2 cl).queues (fieldOf h 0 1 / 16)
        (streamQueue s2 cl (fieldOf h 0 1 / 16) ++ [{ pos := (clusterOf s2 cl).strNum, bytes := bs }]) } := by
  unfold placeStep
  rw [up]
  dsimp only
  rw [runs, if_neg (by simp), if_neg (by omega), header]
  dsimp only
  rw [if_neg (by omega), if_neg (by omega), body]
  rfl

end

/-! ## NODE_DONE (R202) -/

theorem streamsStay_landBar (t : Target) (va : Nat) (s : State) : StreamsStay s (landBar t va s).1 := by
  unfold landBar
  split
  · split <;> exact .refl s
  · exact .refl s
  · split
    · exact .refl s
    · split
      · dsimp only
        split
        · exact streamsStay_postWake _ s
        · exact .refl s
      · exact .refl s

theorem streamsStay_landPiece (dead : Bool) (t : Target) (va : Nat) (bs : List Byte) (s : State) : StreamsStay s (landPiece dead t va bs s) := by
  unfold landPiece
  split
  · split
    · exact .refl s
    · exact (StreamsStay.of_noticed ((noticed_grantNone _ _).trans (noticed_noteWrite _ _ _))).trans (streamsStay_putHost _ _ _)
  · split
    · exact streamsStay_sendWin _ _ _ _ _ _ _
    · exact .refl s
  · exact streamsStay_homeWrite _ _ _ _

theorem streamsStay_landWrite (p : PostedWrite) (ta : Nat) (s : State) : StreamsStay s (landWrite p ta s).1 := by
  unfold landWrite
  dsimp only
  generalize ready : List.foldl _ (s, Got.ok ()) p.parts = r
  have barred : StreamsStay s r.1 := by
    rw [← ready]
    refine List.foldlRecOn p.parts _ (motive := fun r' : State × Got Unit => StreamsStay s r'.1) (.refl s) fun r' h c _ => h.trans ?_
    split
    · exact streamsStay_landBar _ _ _
    · exact .refl _
  split
  · exact barred.trans (.foldl (fun s c => streamsStay_landPiece _ _ _ _ s) _ _)
  · exact barred

/-- A status record is written (R62). -/
theorem streamsStay_writeRecord (q : Nat) (c : Cmd) (st tEnd stretch : Nat) (e : Ending) (s : State) :
    StreamsStay s (writeRecord q c st tEnd stretch e s) := by
  unfold writeRecord postWrite tryPost
  generalize hp : (⟨0, _, _, _, _, _⟩ : PostedWrite) = p
  have dropped : ∀ (x : Ending) u, StreamsStay u (dropWrite p x.code x.sub u) := fun x u => by
    rw [← hp]; exact streamsStay_errEvent _ _ _ _ _ _ u
  have asked := streamsStay_translate (reportAccess p.ctx) p.va true s
  dsimp only
  split
  · exact streamsStay_xl s _
  · split
    next u e => rw [e] at asked; exact asked.trans (streamsStay_xl u _)
    next u x e => rw [e] at asked; exact asked.trans (dropped x u)
    next u ta e =>
      rw [e] at asked
      refine asked.trans ?_
      have landed := streamsStay_landWrite p ta u
      split
      next v e => rw [e] at landed; exact landed
      next v e => rw [e] at landed; exact landed.trans (streamsStay_xl v _)
      next v x e => rw [e] at landed; exact landed.trans (dropped x v)

theorem streamsStay_setHead (q : Nat) (c : Cmd) (s : State) : StreamsStay s (setHead s q c) :=
  ⟨fun _ => ⟨_, rfl⟩, fun _ => ⟨_, rfl⟩, rfl, fun _ => rfl⟩

/-- R63: the progress that a casting's command shows. -/
theorem streamsStay_showProgress (k : Nat) (s : State) : StreamsStay s (showProgress k s) := by
  unfold showProgress
  dsimp only
  split
  · exact .refl s
  · split
    · exact (streamsStay_writeRecord _ _ _ _ _ _ s).trans (streamsStay_setHead _ _ _)
    · exact streamsStay_setHead _ _ s

/-- R202: a node that a cluster reports. -/
theorem reports_reportNode (cl k node n : Nat) (s : State) : tget 0 (castingOf (reportNode cl k node s) k).reports n =
    if n = node then tget 0 (castingOf s k).reports node ||| 2 ^ cl else tget 0 (castingOf s k).reports n := by
  unfold reportNode
  rw [(streamsStay_showProgress k _).reports, castingOf_setCasting, if_pos rfl, tget_tset]

theorem clusterOf_reportNode (cl k node n : Nat) (s : State) : ∃ w, clusterOf (reportNode cl k node s) n = { clusterOf s n with watches := w } :=
  (streamsStay_showProgress k _).cluster n

/-- R202: NODE_DONE once its cluster's writes are complete and its watches have ended. -/
theorem nodeDone_completes {cl k : Nat} {m : SCmd} {s s1 s2 : State} (heads : Heads cl 0 2 k m s) (good : (clusterOf s cl).bad = false)
    (first : (openCmds s cl).any (fun x => decide (mNode x.2 = mNode m) && decide (x.2.pos < m.pos)) = false)
    (written : coreWritesDone cl (atWork cl 0 k m s) = (s1, true)) (watched : runWatches cl k (mNode m) s1 = (s2, true)) :
    Next (.nodeDone cl) s (fun t => HeadLeft cl 0 s t ∧ (tget 0 (castingOf t k).reports (mNode m)).testBit cl = true ∧
      ∀ n, n ≠ mNode m → tget 0 (castingOf t k).reports n = tget 0 (castingOf s k).reports n) := by
  obtain ⟨m0, work⟩ := working_atWork heads
  obtain ⟨f, rfl⟩ := work.command
  have earlier : (openCmds (atWork cl 0 k m s) cl).any
      (fun x => decide (mNode x.2 = mNode (inWork f m)) && decide (x.2.pos < (inWork f m).pos)) = false := by
    rw [List.any_eq_false] at first ⊢
    intro x hx
    rcases work.opened x hx with new | old
    · simp [new]
    · exact first x old
  have waited : StreamsStay (atWork cl 0 k m s) (resetWatches cl s2) := by
    have writes := streamsStay_coreWritesDone cl (atWork cl 0 k m s)
    have watches := streamsStay_runWatches cl k (mNode m) s1
    rw [written] at writes
    rw [watched] at watches
    exact writes.trans (watches.trans (streamsStay_resetWatches cl s2))
  obtain ⟨v, hv⟩ : ∃ v, v = traceCmd cl 0 k 0x03 (inWork f m) (mNode m) (reportNode cl k (mNode m) (resetWatches cl s2)) := ⟨_, rfl⟩
  have traced := streamsStay_traceCmd cl 0 k 0x03 (inWork f m) (mNode m) (reportNode cl k (mNode m) (resetWatches cl s2))
  rw [← hv] at traced
  obtain ⟨w, reported⟩ := clusterOf_reportNode cl k (mNode m) cl (resetWatches cl s2)
  have queues : ∀ q, streamQueue v cl q = streamQueue (atWork cl 0 k m s) cl q := fun q => by
    rw [traced.streamQueue, streamQueue, reported, ← waited.streamQueue]; rfl
  have clean : (clusterOf v cl).bad = false := by rw [traced.bad, reported, waited.bad, work.bad, good]
  have reports : ∀ n, tget 0 (castingOf v k).reports n =
      if n = mNode m then tget 0 (castingOf s k).reports (mNode m) ||| 2 ^ cl else tget 0 (castingOf s k).reports n := fun n => by
    rw [traced.reports, reports_reportNode, waited.reports, work.castings]
  have done := completed (cl := cl) (qi := 0) (k := k) (m := inWork f m) clean
  refine ⟨completeHead cl 0 k (inWork f m) v, ?_, ?_, ?_, fun n hn => ?_⟩
  · have row : exec (.nodeDone cl) s = .next (streamStep cl 0 0x02 noCheck s _) := whenOn_powered_next heads.1 _
    have watched : runWatches cl k (mNode (inWork f m)) s1 = (s2, true) := watched
    rw [row, streamStep_works heads work (fun _ => rfl)]
    rw [earlier, if_neg (by simp), written]
    dsimp only
    rw [watched, hv]
    rfl
  · exact .of_working work ⟨by rw [done.left.1, queues], fun q hq => (done.left.2 q hq).trans (queues q)⟩
  · rw [done.castings, reports, if_pos rfl]; simp
  · rw [done.castings, reports, if_neg hn]

/-! ## NOP, END and the semaphores (R202, R204) -/

section
variable {cl k : Nat} {m : SCmd} {s : State}

theorem nop_completes (heads : Heads cl 0 0 k m s) (good : (clusterOf s cl).bad = false) :
    Next (.nop cl) s (fun t => HeadLeft cl 0 s t ∧ SameMemory s t) := by
  obtain ⟨m0, work⟩ := working_atWork heads
  have done := completed (cl := cl) (qi := 0) (k := k) (m := m0) (work.bad.trans good)
  have mm := done.mm.trans work.mm
  refine ⟨_, whenOn_powered_next heads.1 _, ?_⟩
  rw [streamStep_works heads work (fun _ => rfl)]
  exact ⟨.of_working work done.left, congrArg Mem.mem mm, congrArg Mem.host mm⟩

theorem endStream_completes (heads : Heads cl 0 1 k m s) (good : (clusterOf s cl).bad = false)
    (canonical : twf [] (clusterOf s cl).queues = true) (last : (openCmds s cl).length = 1) :
    Next (.endStream cl) s (fun t => HeadLeft cl 0 s t ∧ (clusterOf t cl).ended = true ∧ SameMemory s t) := by
  obtain ⟨m0, work⟩ := working_atWork heads
  have done := completed (cl := cl) (qi := 0) (k := k) (m := m0) (work.bad.trans good)
  have mm := done.mm.trans work.mm
  have queues : ∀ (u : State) q, streamQueue (setCluster u cl { clusterOf u cl with ended := true }) cl q = streamQueue u cl q := fun u q => by
    rw [streamQueue, clusterOf_setCluster, if_pos rfl]; rfl
  refine ⟨_, whenOn_powered_next heads.1 _, ?_⟩
  rw [streamStep_works heads work (fun _ => rfl), if_neg (by rw [work.count canonical, last]; simp)]
  refine ⟨.of_working work ⟨by rw [queues, done.left.1], fun q hq => by rw [queues, done.left.2 q hq]⟩, ?_,
    congrArg Mem.mem mm, congrArg Mem.host mm⟩
  dsimp only
  rw [clusterOf_setCluster, if_pos rfl]

theorem bodyCheck_ok {ok : List Byte → Bool} (h : ok m.bytes = true) : m.started = false → bodyCheck ok s m = none :=
  fun _ => by rw [bodyCheck, if_pos h]

theorem semWait_passes (heads : Heads cl 0 3 k m s) (good : (clusterOf s cl).bad = false) (body : semBody m.bytes = true)
    (value : fieldOf m.bytes 20 4 ≤ semaOf s (fieldOf m.bytes 16 2)) :
    Next (.semWait cl) s (fun t => HeadLeft cl 0 s t ∧ t.mm = s.mm) := by
  obtain ⟨m0, work⟩ := working_atWork heads
  obtain ⟨f, rfl⟩ := work.command
  have done := completed (cl := cl) (qi := 0) (k := k) (m := inWork f m) (work.bad.trans good)
  refine ⟨_, whenOn_powered_next heads.1 _, ?_⟩
  rw [streamStep_works heads work (bodyCheck_ok body), if_pos (by rw [work.semaOf]; exact value)]
  exact ⟨.of_working work done.left, done.mm.trans work.mm⟩

theorem semWait_waits (heads : Heads cl 0 3 k m s) (body : semBody m.bytes = true)
    (value : semaOf s (fieldOf m.bytes 16 2) < fieldOf m.bytes 20 4) :
    Next (.semWait cl) s (fun t => HeadStays cl 0 s t ∧ t.mm = s.mm) := by
  obtain ⟨m0, work⟩ := working_atWork heads
  obtain ⟨f, rfl⟩ := work.command
  refine ⟨_, whenOn_powered_next heads.1 _, ?_⟩
  rw [streamStep_works heads work (bodyCheck_ok body), if_neg (by rw [work.semaOf]; exact Nat.not_le.mpr value)]
  obtain ⟨-, -, head, -⟩ := heads
  exact ⟨.of_working head work, work.mm⟩

theorem semSignal_completes (heads : Heads cl 0 4 k m s) (good : (clusterOf s cl).bad = false) (body : semBody m.bytes = true) :
    Next (.semSignal cl) s (fun t => HeadLeft cl 0 s t ∧ SameMemory s t ∧
      ∀ i, semaOf t i = if i = fieldOf m.bytes 16 2 then (semaOf s i + fieldOf m.bytes 20 4) % 2 ^ 32 else semaOf s i) := by
  obtain ⟨m0, work⟩ := working_atWork heads
  obtain ⟨f, rfl⟩ := work.command
  have done := completed (cl := cl) (qi := 0) (k := k) (m := inWork f m)
    (s := semaAdd (fieldOf m.bytes 16 2) (fieldOf m.bytes 20 4) (atWork cl 0 k m s)) (work.bad.trans good)
  refine ⟨_, whenOn_powered_next heads.1 _, ?_⟩
  rw [streamStep_works heads work (bodyCheck_ok body)]
  have mem : (semaAdd (fieldOf m.bytes 16 2) (fieldOf m.bytes 20 4) (atWork cl 0 k m s)).mm.mem = s.mm.mem := congrArg (fun x => x.mem) work.mm
  have host : (semaAdd (fieldOf m.bytes 16 2) (fieldOf m.bytes 20 4) (atWork cl 0 k m s)).mm.host = s.mm.host := congrArg (fun x => x.host) work.mm
  refine ⟨.of_working work done.left, ⟨(congrArg Mem.mem done.mm).trans mem, (congrArg Mem.host done.mm).trans host⟩, fun i => ?_⟩
  have same : semaOf (completeHead cl 0 k (inWork f m) (semaAdd (fieldOf m.bytes 16 2) (fieldOf m.bytes 20 4) (atWork cl 0 k m s))) i =
      semaOf (semaAdd (fieldOf m.bytes 16 2) (fieldOf m.bytes 20 4) (atWork cl 0 k m s)) i := by rw [semaOf, done.mm]; rfl
  refine same.trans ?_
  split
  next h => rw [h, semaOf_semaAdd, work.semaOf]
  next h => rw [semaOf_semaAdd_ne h, work.semaOf]

/-- R204: a NOP whose header fails its check ends the casting. -/
theorem nop_badHeader (up : controlUp s cl = some k) (head : (streamQueue s cl 0).head? = some m) (hop : mOp m = 0) (notDone : m.done = false)
    (notStopped : m.stopped = false) (fresh : m.started = false) (may : mayBegin s cl k m = true) (header : headerGood s k m = false) :
    exec (.nop cl) s = .next (failCasting k (protEnd 0x11 (agQueue cl 0) 0) s) := by
  have mine : ¬(mOp m ≠ 0 ∨ m.done = true ∨ (m.stopped = true ∧ m.mid = false)) := by simp [hop, notDone, notStopped]
  rw [exec_nop up]
  unfold streamStep
  rw [up, eq_cons_of_head? head]
  dsimp only
  rw [if_neg mine, fresh, may, header]
  rfl

end

/-! ## Completion (R189, R200) -/

/-- The clusters are as they were but for the claims of their pools. -/
def ClaimsOnly (s t : State) : Prop := ∀ n, ∃ c, clusterOf t n = { clusterOf s n with claims := c }

theorem ClaimsOnly.of_clusters {s t : State} (h : t.clusters = s.clusters) : ClaimsOnly s t :=
  fun n => ⟨(clusterOf s n).claims, by rw [clusterOf, h]; rfl⟩

theorem ClaimsOnly.trans {s t u : State} (h : ClaimsOnly s t) (h' : ClaimsOnly t u) : ClaimsOnly s u := fun n => by
  obtain ⟨c, e⟩ := h n
  obtain ⟨c', e'⟩ := h' n
  exact ⟨c', by rw [e', e]⟩

theorem ClaimsOnly.foldl {β : Type} {f : State → β → State} (h : ∀ s x, ClaimsOnly s (f s x)) (xs : List β) (s : State) :
    ClaimsOnly s (xs.foldl f s) :=
  List.foldlRecOn xs f (motive := ClaimsOnly s) (.of_clusters rfl) (fun t ht x _ => ht.trans (h t x))

theorem scrClear_clusters (cl : Nat) (way : Nat → Bool) (s : State) : (scrClear cl way s).clusters = s.clusters := rfl
theorem scrForget_clusters (cl : Nat) (way : Nat → Bool) (s : State) : (scrForget cl way s).clusters = s.clusters := rfl
theorem poolShow_clusters (cl p : Nat) (s : State) : (poolShow cl p s).clusters = s.clusters := by simp [poolShow]

theorem convertWay_clusters (cl scr lock pools : Nat) (s : State) (w : Nat) : (convertWay cl scr lock pools s w).clusters = s.clusters := by
  unfold convertWay
  dsimp only
  simp only [setOff_eq, setB_eq, setF_clusters]
  split
  · exact scrForget_clusters _ _ _
  · split
    · exact scrClear_clusters _ _ _
    · rfl

theorem claimsOnly_convertPool (cl changed : Nat) (bs : List Byte) (s : State) (p : Nat) : ClaimsOnly s (convertPool cl changed bs s p) := by
  unfold convertPool
  extract_lets e old oldMask same entered enabled c freed
  have set : ClaimsOnly s enabled := .of_clusters (by
    simp only [enabled, entered, setB_eq, setF_clusters]
    split <;> simp only [setF_clusters])
  have cut : ClaimsOnly enabled freed := by
    dsimp only [freed]
    split
    · exact .of_clusters rfl
    · intro n
      rw [clusterOf_setCluster]
      split
      next h => exact ⟨_, by rw [h]⟩
      next => exact ⟨_, rfl⟩
  exact set.trans (cut.trans (.of_clusters (poolShow_clusters _ _ _)))

theorem claimsOnly_tuncfgRun (cl : Nat) (bs : List Byte) (s : State) : ClaimsOnly s (tuncfgRun cl bs s) := by
  unfold tuncfgRun
  extract_lets scr pools changed ways converted
  obtain ⟨x, dropped⟩ := shadowDrop_changes 0 cl converted
  have first : ClaimsOnly s ways := .foldl (fun s w => .of_clusters (convertWay_clusters _ _ _ _ s w)) _ s
  have second : ClaimsOnly ways converted := .foldl (fun s p => claimsOnly_convertPool _ _ _ s p) _ ways
  rw [dropped]
  exact first.trans (second.trans (.of_clusters (by simp only [setOff_eq, incF_eq, setF_clusters])))

/-- R200: the head of a queue that has performed its work, and whose host writes are complete, leaves its queue. -/
theorem exec_engineCommandComplete {cl k qi : Nat} {m m1 : SCmd} {s s2 : State} (up : controlUp s cl = some k)
    (head : (streamQueue s cl qi).head? = some m)
    (head1 : (streamQueue (if m.started then runRest cl qi k m s else s) cl qi).head? = some m1)
    (work : m1.done = true ∨ (qi = 1 ∧ m1.started = true ∧ launchExited (if m.started then runRest cl qi k m s else s) cl m1 = true))
    (written : hostFlush (.engine cl qi) (if m.started then runRest cl qi k m s else s) = (s2, true)) :
    exec (.engineCommandComplete cl qi) s = .next (finishHead cl qi k m1 s2) := by
  have row : exec (.engineCommandComplete cl qi) s = .next _ := whenOn_powered_next (powered_of_controlUp up) _
  rw [row, up, eq_cons_of_head? head]
  dsimp only
  rw [eq_cons_of_head? head1]
  dsimp only
  rw [if_pos, written]
  rcases work with done | ⟨launch, on, left⟩
  · rw [performed, done]; rfl
  · rw [performed, on, left, decide_eq_true launch]; exact Bool.or_true _

theorem engineCommand_completes {cl k qi : Nat} {m1 : SCmd} {s : State} (good : (clusterOf s cl).bad = false) :
    HeadLeft cl qi s (finishHead cl qi k m1 s) ∧ (¬(qi = 0 ∧ mOp m1 = 5) → (finishHead cl qi k m1 s).mm = s.mm) := by
  unfold finishHead
  split
  next h =>
    obtain ⟨c, same⟩ := claimsOnly_tuncfgRun cl m1.bytes s cl
    have done := completed (qi := qi) (k := k) (m := m1) (show (clusterOf (tuncfgRun cl m1.bytes s) cl).bad = false by rw [same]; exact good)
    have queues : ∀ q, streamQueue (tuncfgRun cl m1.bytes s) cl q = streamQueue s cl q := fun q => by rw [streamQueue, same]; rfl
    exact ⟨⟨by rw [done.left.1, queues], fun q hq => (done.left.2 q hq).trans (queues q)⟩, fun other => absurd h other⟩
  next =>
    have done := completed (qi := qi) (k := k) (m := m1) good
    exact ⟨done.left, fun _ => done.mm⟩

/-- Settles O40, command by command, from what placing, starting and completing a command do to its stream. -/
theorem streamsRunTheirCommands : Obligations.StreamsRunTheirCommands := by
  unfold Obligations.StreamsRunTheirCommands
  refine ⟨?_, ?_, fun cl k m s => nop_completes, fun cl k m s => endStream_completes, fun cl k m s s1 s2 => nodeDone_completes,
    fun cl k m s heads good body => ⟨semWait_passes heads good body, semWait_waits heads body⟩, fun cl k m s => semSignal_completes, ?_,
    fun cl k m s => nop_badHeader⟩
  · intro cl k h bs s s1 s2 up runs a at' n qi room header legal len fits free body
    have placed := placeStep_places up runs room header legal len fits free body
    obtain ⟨c, hc⟩ : ∃ c, c = clusterOf (placeStep cl s) cl := ⟨_, rfl⟩
    have cluster := hc
    rw [placed, clusterOf_setCluster, if_pos rfl] at cluster
    have queues : ∀ q, streamQueue (placeStep cl s) cl q = if q = qi then streamQueue s2 cl qi ++ [{ pos := (clusterOf s2 cl).strNum, bytes := bs }]
        else streamQueue s2 cl q := fun q => by
      rw [streamQueue, ← hc, cluster, tget_tset]; rfl
    refine ⟨_, exec_streamCommandPlace up, ?_, by rw [queues, if_pos rfl], ?_, ?_, fun q hq => by rw [queues, if_neg hq], ?_⟩
    · rw [← hc, cluster]
    · rw [← hc, cluster]
    · rw [← hc, cluster]
    · rw [placed]; exact ⟨rfl, rfl⟩
  · intro cl k s up runs short opened
    rw [exec_streamCommandPlace up, placeStep_short up runs short opened]
  · intro cl k qi m m1 s s1 s2 up head hs1 head1 work written good
    subst hs1
    exact ⟨_, exec_engineCommandComplete up head head1 work written, engineCommand_completes good⟩

end Sys2Proof.Machine
end

