-- ==== Sys2Proof/Proofs/Scratch.lean ====
section
/-!
SUPPORT. Scratch as a memory of bytes: what an engine's write to scratch leaves at every place, whether or not the line held undefined contents
before (R60, R189), and the elements of a row.
-/
namespace Sys2Proof.Machine

/-! ## A byte of scratch -/

/-- The byte at a scratch LOC. -/
def scrByte (s : State) (loc : Nat) : Byte :=
  if scrWild s loc then Config.freeByte (tget 0 s.mm.wild (scrKey loc) - 1) loc else tget 0 s.mm.mem loc

theorem scrRead_eq_map (s : State) (loc n : Nat) : scrRead s loc n = (List.range n).map (fun i => scrByte s (loc + i)) := rfl

theorem scrByte_congr {s t : State} (mem : t.mm.mem = s.mm.mem) (wild : t.mm.wild = s.mm.wild) (tame : t.mm.tame = s.mm.tame) (loc : Nat) :
    scrByte t loc = scrByte s loc := by
  unfold scrByte scrWild; rw [mem, wild, tame]

/-- A line lies in one way. -/
theorem scrKey_line (loc : Nat) : scrKey (loc / 128 * 128) = scrKey loc := by unfold scrKey; omega

theorem scrWild_line (s : State) (loc : Nat) : scrWild s (loc / 128 * 128) = scrWild s loc := by
  unfold scrWild
  rw [scrKey_line, Nat.mul_div_cancel _ (by decide)]

theorem scrWild_scrTame (s : State) (loc x : Nat) : scrWild (scrTame loc s) x = (scrWild s x && decide (x / 128 ≠ loc / 128)) := by
  unfold scrTame
  by_cases same : x / 128 = loc / 128
  · have line : scrWild s x = scrWild s loc := by rw [← scrWild_line s x, same, scrWild_line]
    split
    next wild => simp [scrWild, same]
    next tame => simp [line, tame]
  · split
    next wild => simp [scrWild, same, tget_tset]
    next tame => simp [same]

theorem nth_scrRead (s : State) (loc n i : Nat) (h : i < n) : nth 0 (scrRead s loc n) i = scrByte s (loc + i) := by
  rw [scrRead_eq_map, nth_range_map _ _ _ _ h]

/-- R60: a line that is written for the first time keeps its undefined contents. -/
theorem scrByte_scrTame (s : State) (loc x : Nat) : scrByte (scrTame loc s) x = scrByte s x := by
  have wild := scrWild_scrTame s loc x
  unfold scrTame at wild ⊢
  split at wild
  next hw =>
    rw [if_pos hw]
    by_cases same : x / 128 = loc / 128
    · have place : x = loc / 128 * 128 + x % 128 := by omega
      have stored : tget 0 (wrList s.mm.mem (loc / 128 * 128) (scrRead s (loc / 128 * 128) 128)) x = scrByte s x := by
        have h : x % 128 < (scrRead s (loc / 128 * 128) 128).length := by rw [scrRead_eq_map]; simp; omega
        conv => lhs; rw [place]
        rw [tget_wrList_in _ _ _ _ h, nth_scrRead _ _ _ _ (by omega), ← place]
      rw [scrByte, wild, decide_eq_false (by simpa using same), Bool.and_false, if_neg (by simp)]
      exact stored
    · have apart : x < loc / 128 * 128 ∨ loc / 128 * 128 + (scrRead s (loc / 128 * 128) 128).length ≤ x := by
        rw [scrRead_eq_map, List.length_map, List.length_range]; omega
      have kept : tget 0 (wrList s.mm.mem (loc / 128 * 128) (scrRead s (loc / 128 * 128) 128)) x = tget 0 s.mm.mem x := tget_wrList_out _ _ _ _ apart
      unfold scrByte
      rw [wild, decide_eq_true (by simpa using same), Bool.and_true]
      dsimp only
      rw [kept]
  next hw => rw [if_neg hw]

/-- The lines of a range written for the first time: no byte changes, and none of them is undefined any more. -/
theorem scrTames (base : Nat → Nat) (ks : List Nat) (s : State) :
    let t := ks.foldl (fun s k => scrTame (base k) s) s
    (∀ x, scrByte t x = scrByte s x) ∧ ∀ x, scrWild t x = true → scrWild s x = true ∧ ∀ k ∈ ks, x / 128 ≠ base k / 128 := by
  induction ks generalizing s with
  | nil => exact ⟨fun _ => rfl, fun x h => ⟨h, by simp⟩⟩
  | cons k ks ih =>
    obtain ⟨bytes, wild⟩ := ih (scrTame (base k) s)
    refine ⟨fun x => (bytes x).trans (scrByte_scrTame _ _ _), fun x h => ?_⟩
    obtain ⟨first, rest⟩ := wild x h
    rw [scrWild_scrTame, Bool.and_eq_true, decide_eq_true_eq] at first
    exact ⟨first.1, List.forall_mem_cons.mpr ⟨first.2, rest⟩⟩

/-- R189: bytes written to scratch. -/
theorem scrByte_scrWrite (loc : Nat) (bs : List Byte) (s : State) (x : Nat) :
    scrByte (scrWrite loc bs s) x = if loc ≤ x ∧ x < loc + bs.length then nth 0 bs (x - loc) else scrByte s x := by
  obtain ⟨bytes, wild⟩ := scrTames (fun k => loc / 128 * 128 + 128 * k) (List.range ((loc % 128 + bs.length + 127) / 128)) s
  unfold scrWrite
  dsimp only at bytes wild ⊢
  generalize List.foldl _ s _ = t at bytes wild ⊢
  have logged : scrByte (logWrite 0 loc bs.length { t with mm := { t.mm with mem := wrList t.mm.mem loc bs } }) x =
      scrByte { t with mm := { t.mm with mem := wrList t.mm.mem loc bs } } x :=
    scrByte_congr (by rw [logWrite_mm]) (by rw [logWrite_mm]) (by rw [logWrite_mm]) x
  rw [logged]
  have same : scrWild { t with mm := { t.mm with mem := wrList t.mm.mem loc bs } } x = scrWild t x := rfl
  split
  next inside =>
    have tame : scrWild t x = false := by
      rw [Bool.eq_false_iff]
      intro h
      refine (wild x h).2 (x / 128 - loc / 128) (List.mem_range.mpr ?_) ?_ <;> omega
    obtain ⟨i, rfl⟩ := Nat.exists_eq_add_of_le inside.1
    rw [scrByte, same, tame, if_neg (by simp), Nat.add_sub_cancel_left]
    exact tget_wrList_in _ _ _ _ (by omega)
  next outside =>
    rw [← bytes x]
    unfold scrByte
    rw [same]
    dsimp only
    rw [tget_wrList_out _ _ _ _ (by omega)]

/-! ## An engine's writes to scratch -/

/-- The byte of a cluster's scratch at an offset. -/
def scrAt (s : State) (cl x : Nat) : Byte := scrByte s (aperLoc cl x)

theorem scrBytes_eq_map (s : State) (cl off n : Nat) : scrBytes s cl off n = (List.range n).map (fun i => scrAt s cl (off + i)) := by
  unfold scrBytes scrAt
  rw [scrRead_eq_map]
  exact List.map_congr_left fun i _ => congrArg _ (by unfold aperLoc; omega)

@[simp] theorem scrBytes_length (s : State) (cl off n : Nat) : (scrBytes s cl off n).length = n := by simp [scrBytes_eq_map]

theorem scrBytes_congr {s t : State} {cl off off' n : Nat} (h : ∀ i, i < n → scrAt t cl (off' + i) = scrAt s cl (off + i)) :
    scrBytes t cl off' n = scrBytes s cl off n := by
  rw [scrBytes_eq_map, scrBytes_eq_map]
  exact List.map_congr_left fun i hi => h i (List.mem_range.mp hi)

/-- States with the same memory have the same scratch. -/
theorem scrBytes_of_mm {s t : State} (h : t.mm = s.mm) (cl off n : Nat) : scrBytes t cl off n = scrBytes s cl off n :=
  scrBytes_congr fun i _ => scrByte_congr (by rw [h]) (by rw [h]) (by rw [h]) _

theorem scrByte_of_noticed {s t : State} (h : Noticed s t) (loc : Nat) : scrByte t loc = scrByte s loc :=
  scrByte_congr h.mem (congrArg (fun x => x.mm.wild) h.rest) (congrArg (fun x => x.mm.tame) h.rest) loc

theorem noticed_noteWrites (ls : List Nat) (s : State) : Noticed s (ls.foldl (fun s l => noteWrite (l / 128) none s) s) :=
  .foldl (fun s l => noticed_noteWrite (l / 128) none s) ls s

theorem scrAt_scrPut (cl off : Nat) (bs : List Byte) (s : State) (x : Nat) :
    scrAt (scrPut cl off bs s) cl x = if off ≤ x ∧ x < off + bs.length then nth 0 bs (x - off) else scrAt s cl x := by
  unfold scrPut
  split
  next empty =>
    rw [List.isEmpty_iff.mp empty, if_neg (by simp only [List.length_nil]; omega)]
  next =>
    unfold scrAt
    rw [scrByte_scrWrite, scrByte_of_noticed (noticed_noteWrites _ s)]
    have place : (aperLoc cl off ≤ aperLoc cl x ∧ aperLoc cl x < aperLoc cl off + bs.length) ↔ (off ≤ x ∧ x < off + bs.length) := by
      unfold aperLoc; omega
    have shift : aperLoc cl x - aperLoc cl off = x - off := by unfold aperLoc; omega
    simp only [place, shift]

/-- Bytes outside those that an engine writes. -/
theorem scrBytes_scrPut_apart {cl off off' n : Nat} {bs : List Byte} {s : State} (h : off' + n ≤ off ∨ off + bs.length ≤ off') :
    scrBytes (scrPut cl off bs s) cl off' n = scrBytes s cl off' n :=
  scrBytes_congr fun i hi => by rw [scrAt_scrPut, if_neg (by omega)]

/-- Bytes among those that an engine writes. -/
theorem scrBytes_scrPut_in {cl off a n : Nat} {bs : List Byte} (s : State) (h : a + n ≤ bs.length) :
    scrBytes (scrPut cl off bs s) cl (off + a) n = (bs.drop a).take n := by
  rw [scrBytes_eq_map]
  apply List.ext_getElem (by simp; omega)
  intro i hi hi'
  simp only [List.length_map, List.length_range] at hi
  rw [List.getElem_map, List.getElem_range, scrAt_scrPut, if_pos (by omega), List.getElem_take, List.getElem_drop, nth_eq_getD,
    show off + a + i - off = a + i by omega, List.getD_eq_getElem _ _ (by omega)]

/-- What an engine writes is read back. -/
theorem scrBytes_scrPut_same (cl off : Nat) (bs : List Byte) (s : State) : scrBytes (scrPut cl off bs s) cl off bs.length = bs := by
  have h := scrBytes_scrPut_in (cl := cl) (off := off) (a := 0) (n := bs.length) (bs := bs) s (by omega)
  simpa using h

/-- A part of a run of scratch. -/
theorem scrBytes_part (s : State) (cl off n a k : Nat) (h : a + k ≤ n) : ((scrBytes s cl off n).drop a).take k = scrBytes s cl (off + a) k := by
  rw [scrBytes_eq_map, scrBytes_eq_map]
  apply List.ext_getElem (by simp; omega)
  intro i hi hi'
  simp [Nat.add_assoc]

theorem fieldOf_scrBytes (s : State) (cl off n a k : Nat) (h : a + k ≤ n) :
    fieldOf (scrBytes s cl off n) a k = fieldOf (scrBytes s cl (off + a) k) 0 k := by
  unfold fieldOf
  rw [scrBytes_part _ _ _ _ _ _ h, List.drop_zero, List.take_of_length_le (by simp)]

/-! ## Rows of elements -/

/-- An element of a row whose elements have one length. -/
theorem take_drop_flatMap {α β : Type} {f : α → List β} {w : Nat} {xs : List α} (len : ∀ x ∈ xs, (f x).length = w) {c : Nat} (h : c < xs.length) :
    ((xs.flatMap f).drop (c * w)).take w = f xs[c] := by
  induction xs generalizing c with
  | nil => simp at h
  | cons x xs ih =>
    have first := len x (by simp)
    cases c with
    | zero => simp [← first]
    | succ c =>
      have skip : (c + 1) * w = (f x).length + c * w := by rw [first, Nat.add_mul, Nat.one_mul, Nat.add_comm]
      rw [List.flatMap_cons, skip, List.drop_length_add_append]
      exact ih (fun y hy => len y (List.mem_cons_of_mem _ hy)) (by simpa using h)

theorem length_flatMap_const {α β : Type} {f : α → List β} {w : Nat} {xs : List α} (len : ∀ x ∈ xs, (f x).length = w) :
    (xs.flatMap f).length = xs.length * w := by
  rw [List.length_flatMap, List.map_congr_left len, List.map_const', List.sum_replicate, smul_eq_mul]

@[simp] theorem packRow_length (w : Nat) (xs : List Nat) : (packRow w xs).length = xs.length * w :=
  length_flatMap_const fun _ _ => leBytes_length _ _

theorem part_packRow (w : Nat) (xs : List Nat) {c : Nat} (h : c < xs.length) : ((packRow w xs).drop (c * w)).take w = leBytes w xs[c] :=
  take_drop_flatMap (fun _ _ => leBytes_length _ _) h

theorem fieldOf_packRow (w : Nat) (xs : List Nat) {c : Nat} (h : c < xs.length) : fieldOf (packRow w xs) (c * w) w = xs[c] % 2 ^ (8 * w) := by
  rw [fieldOf, part_packRow w xs h, leNat_leBytes, show (256 : Nat) = 2 ^ 8 by rfl, ← Nat.pow_mul]

end Sys2Proof.Machine
end

