-- ==== Sys2Proof/Proofs/LocalEngines.lean ====
section
/-!
SUPPORT. A turn of an engine whose operands all lie in scratch (R204, R205, R284): what its row leaves alone, and what the turn makes of the
command.
-/
namespace Sys2Proof.Machine

/-! ## The ends of castings -/

/-- A casting that a cluster's control core works for runs. -/
theorem running_of_controlUp {s : State} {cl k : Nat} (up : controlUp s cl = some k) :
    (castingOf s k).live = true ∧ (castingOf s k).ending = none ∧ (clusterOf s cl).casting = some k := by
  unfold controlUp runsOn at up
  split at up
  · split at up
    next j hj =>
      split at up
      next runs =>
        simp only [Bool.and_eq_true, Option.isNone_iff_eq_none] at runs
        cases up
        exact ⟨runs.1.1, runs.1.2, hj⟩
      next => cases up
    next => cases up
  · cases up

/-- A casting that runs ends with what its engine reports. -/
theorem ending_failCasting {s t : State} {cl k : Nat} {e : Ending} (up : controlUp s cl = some k) (same : castingOf t k = castingOf s k) :
    (castingOf (failCasting k e t) k).ending = some e := by
  obtain ⟨live, running, -⟩ := running_of_controlUp up
  exact (endCasting_stays (by rw [same]; exact live) (by rw [same]; exact running)).1

/-! ## What a row of scratch leaves alone -/

/-- An engine's row in scratch: the streams stay, and so does the host's memory. -/
structure RowStays (s t : State) : Prop extends StreamsStay s t where
  host : t.mm.host = s.mm.host

namespace RowStays

theorem refl (s : State) : RowStays s s := ⟨.refl s, rfl⟩
theorem trans {s t u : State} (h : RowStays s t) (h' : RowStays t u) : RowStays s u :=
  ⟨h.toStreamsStay.trans h'.toStreamsStay, h'.host.trans h.host⟩

end RowStays

theorem scrTame_host (loc : Nat) (s : State) : (scrTame loc s).mm.host = s.mm.host := by unfold scrTame; split <;> rfl

theorem scrWrite_host (loc : Nat) (bs : List Byte) (s : State) : (scrWrite loc bs s).mm.host = s.mm.host := by
  have tamed : ∀ (ks : List Nat), (ks.foldl (fun s k => scrTame (loc / 128 * 128 + 128 * k) s) s).mm.host = s.mm.host :=
    fun ks => List.foldlRecOn ks _ (motive := fun t : State => t.mm.host = s.mm.host) rfl fun t h k _ => (scrTame_host _ t).trans h
  unfold scrWrite
  dsimp only
  rw [logWrite_mm]
  exact tamed _

theorem scrPut_host (cl off : Nat) (bs : List Byte) (s : State) : (scrPut cl off bs s).mm.host = s.mm.host := by
  unfold scrPut
  split
  · rfl
  · rw [scrWrite_host]
    exact (noticed_noteWrites _ s).host

theorem rowStays_scrPut (cl off : Nat) (bs : List Byte) (s : State) : RowStays s (scrPut cl off bs s) :=
  ⟨streamsStay_scrPut cl off bs s, scrPut_host cl off bs s⟩

theorem engFlags_changes (cl e : Nat) (w : Word) (s : State) : ∃ r t, engFlags cl e w s = { s with regs := r, touched := t } := by
  have one : ∀ (f : Word) i (u : State), ∃ r t, (if w &&& f = 0 then u else setOn u (engFlag cl i)) = { u with regs := r, touched := t } := fun f i u => by
    split
    · exact ⟨u.regs, u.touched, rfl⟩
    · exact ⟨_, _, rfl⟩
  unfold engFlags
  dsimp only
  obtain ⟨r3, t3, e3⟩ := one fSaturated 3 s
  obtain ⟨r2, t2, e2⟩ := one fFlushed 2 { s with regs := r3, touched := t3 }
  obtain ⟨r1, t1, e1⟩ := one fOverflow 1 { s with regs := r2, touched := t2 }
  obtain ⟨r0, t0, e0⟩ := one fInvalid 0 { s with regs := r1, touched := t1 }
  rw [e3, e2, e1, e0]
  split
  · exact ⟨s.regs, s.touched, rfl⟩
  · exact ⟨_, _, rfl⟩

theorem engFlags_mm (cl e : Nat) (w : Word) (s : State) : (engFlags cl e w s).mm = s.mm := by
  obtain ⟨r, t, h⟩ := engFlags_changes cl e w s; rw [h]
theorem engFlags_xl (cl e : Nat) (w : Word) (s : State) : (engFlags cl e w s).xl = s.xl := by
  obtain ⟨r, t, h⟩ := engFlags_changes cl e w s; rw [h]

theorem rowStays_tseRow (cl : Nat) (bs : List Byte) (r : Nat) (buf : List Byte) (s : State) : RowStays s (tseRow cl bs r buf s).1 := by
  unfold tseRow
  dsimp only
  split
  · have put : ∀ (inv : Option Nat) (off : Nat) (u : State), RowStays u (match inv with | some v => scrPut cl off (leBytes 4 v) u | none => u) :=
      fun inv off u => by
        cases inv with
        | none => exact .refl u
        | some v => exact rowStays_scrPut _ _ _ u
    exact (rowStays_scrPut _ _ _ s).trans ((put _ _ _).trans (rowStays_scrPut _ _ _ _))
  · exact rowStays_scrPut _ _ _ s

theorem rowStays_ufeRow (cl : Nat) (bs : List Byte) (r : Nat) (buf : List Byte) (s : State) : RowStays s (ufeRow cl bs r buf s).1 :=
  rowStays_scrPut _ _ _ s

theorem rowStays_skeRow (cl : Nat) (bs : List Byte) (r : Nat) (buf : List Byte) (s : State) : RowStays s (skeRow cl bs r buf s).1 := by
  unfold skeRow
  dsimp only
  split
  · exact (rowStays_scrPut _ _ _ s).trans (rowStays_scrPut _ _ _ _)
  · exact rowStays_scrPut _ _ _ s

theorem rowStays_fceRow (cl : Nat) (bs : List Byte) (r : Nat) (buf : List Byte) (s : State) : RowStays s (fceRow cl bs r buf s).1 :=
  (rowStays_scrPut _ _ _ s).trans (rowStays_scrPut _ _ _ _)

/-! ## The four engines -/

theorem exec_local {i : Instr} {x : LocalEngine} {cl : Nat} (h : localEngineOf i = some (x, cl)) {s : State} (on : s.powered = true) :
    exec i s = .next (localStep cl x s) := by
  unfold localEngineOf at h
  split at h
  all_goals cases h
  all_goals exact whenOn_powered_next on _

theorem rowStays_local {i : Instr} {x : LocalEngine} {cl : Nat} (h : localEngineOf i = some (x, cl)) (bs : List Byte) (r : Nat)
    (buf : List Byte) (s : State) : RowStays s (x.row cl bs r buf s).1 := by
  unfold localEngineOf at h
  split at h
  · cases h; exact rowStays_tseRow _ _ _ buf s
  · cases h; exact rowStays_ufeRow _ _ _ buf s
  · cases h; exact rowStays_skeRow _ _ _ buf s
  · cases h; exact rowStays_fceRow _ _ _ buf s
  · cases h

/-! ## A turn -/

theorem doneHead_eq {cl qi : Nat} {m : SCmd} {s : State} (head : (streamQueue s cl qi).head? = some m) :
    doneHead cl qi s = setHeadCmd cl qi { m with done := true, mid := false } s := by
  unfold doneHead
  rw [eq_cons_of_head? head]

theorem head_setHeadCmd {cl qi : Nat} {m : SCmd} {s : State} (head : (streamQueue s cl qi).head? = some m) (m' : SCmd) :
    (streamQueue (setHeadCmd cl qi m' s) cl qi).head? = some m' := by
  rw [streamQueue_setHeadCmd (eq_cons_of_head? head), if_pos rfl]; rfl

section
variable {x : LocalEngine} {cl k : Nat} {m : SCmd} {s : State}

theorem localTurn_ends (head : (streamQueue s cl x.qi).head? = some m) (on : m.started = true) (last : x.rows m.bytes ≤ m.unit) :
    WorkDone cl x.qi m.unit (localTurn cl k x m s) ∧ (localTurn cl k x m s).mm = s.mm := by
  have turn : localTurn cl k x m s = setHeadCmd cl x.qi { m with done := true, mid := false } s := by
    unfold localTurn
    dsimp only
    rw [if_pos last, doneHead_eq head]
  rw [turn]
  exact ⟨⟨_, head_setHeadCmd head _, on, rfl, rfl⟩, rfl⟩

/-- R284: a row that reads poison ends the casting. -/
theorem localTurn_poisoned {l : Nat} (more : m.unit < x.rows m.bytes) (free : (x.reads m.bytes ++ x.writes m.bytes).any (spanBusy s cl) = false)
    (poison : (x.rowReads m.bytes m.unit).findSome? (spanPoison s cl) = some l) :
    localTurn cl k x m s = failCasting k (poisonEnd s l) s := by
  unfold localTurn
  dsimp only
  rw [if_neg (Nat.not_le.mpr more), free, poison, if_neg (by simp)]
  rfl

/-- R205: one row. -/
theorem localTurn_row (head : (streamQueue s cl x.qi).head? = some m) (on : m.started = true) (notDone : m.done = false)
    (more : m.unit < x.rows m.bytes)
    (free : (x.reads m.bytes ++ x.writes m.bytes).any (spanBusy s cl) = false)
    (clean : (x.rowReads m.bytes m.unit).findSome? (spanPoison s cl) = none)
    (stays : RowStays s (x.row cl m.bytes m.unit m.out s).1) :
    let r := x.row cl m.bytes m.unit m.out s
    (localTurn cl k x m s).mm = r.1.mm ∧ ∃ m', (streamQueue (localTurn cl k x m s) cl x.qi).head? = some m' ∧ m'.started = true ∧
      m'.unit = m.unit + 1 ∧ m'.out = r.2.1 ∧ m'.done = decide (x.rows m.bytes ≤ m.unit + 1) := by
  intro r
  have flagged : (streamQueue (engFlags cl (x.qi - 3) r.2.2 r.1) cl x.qi).head? = some m := by
    rw [(stays.toStreamsStay.trans (streamsStay_engFlags cl (x.qi - 3) r.2.2 r.1)).streamQueue, head]
  have written := head_setHeadCmd flagged { m with unit := m.unit + 1, out := r.2.1 }
  have turn : localTurn cl k x m s = if x.rows m.bytes ≤ m.unit + 1
      then doneHead cl x.qi (setHeadCmd cl x.qi { m with unit := m.unit + 1, out := r.2.1 } (engFlags cl (x.qi - 3) r.2.2 r.1))
      else setHeadCmd cl x.qi { m with unit := m.unit + 1, out := r.2.1 } (engFlags cl (x.qi - 3) r.2.2 r.1) := by
    unfold localTurn
    dsimp only
    rw [if_neg (Nat.not_le.mpr more), free, clean, if_neg (by simp)]
  rw [turn]
  split
  next last =>
    rw [doneHead_eq written]
    exact ⟨engFlags_mm _ _ _ _, _, head_setHeadCmd written _, on, rfl, rfl, (decide_eq_true last).symm⟩
  next more' =>
    exact ⟨engFlags_mm _ _ _ _, _, written, on, rfl, rfl, notDone.trans (decide_eq_false more').symm⟩

end

/-! ## The rows -/

theorem Working.spanBusy {cl qi : Nat} {m m0 : SCmd} {s t : State} (h : Working cl qi m m0 s t) (n : Nat) : spanBusy t n = spanBusy s n := by
  obtain ⟨c, r, q, w, e⟩ := h.rest; rw [e]; rfl
theorem Working.runBusy {cl qi : Nat} {m m0 : SCmd} {s t : State} (h : Working cl qi m m0 s t) (n : Nat) : runBusy t n = runBusy s n := by
  obtain ⟨c, r, q, w, e⟩ := h.rest; rw [e]; rfl
theorem Working.spanPoison {cl qi : Nat} {m m0 : SCmd} {s t : State} (h : Working cl qi m m0 s t) (n : Nat) : spanPoison t n = spanPoison s n := by
  obtain ⟨c, r, q, w, e⟩ := h.rest; rw [e]; rfl
/-- R205: what a turn of a TSE, UFE, SKE or FCE command does. -/
theorem localRow_performs {i : Instr} {x : LocalEngine} {cl k : Nat} {m : SCmd} {s : State} (row : localEngineOf i = some (x, cl))
    (heads : Heads cl x.qi x.op k m s) (ok : m.started = false → localCheck cl x s m = none) :
    (x.rows m.bytes ≤ m.unit → Next i s (fun t => WorkDone cl x.qi m.unit t ∧ SameMemory s t)) ∧
    (m.unit < x.rows m.bytes → (x.reads m.bytes ++ x.writes m.bytes).any (spanBusy s cl) = false →
      (∀ l, (x.rowReads m.bytes m.unit).findSome? (spanPoison s cl) = some l → Next i s (fun t =>
        (castingOf t k).ending = some (poisonEnd (atWork cl x.qi k m s) l))) ∧
      ((x.rowReads m.bytes m.unit).findSome? (spanPoison s cl) = none → Next i s (fun t =>
        let r := x.row cl m.bytes m.unit m.out (atWork cl x.qi k m s)
        t.mm.mem = r.1.mm.mem ∧ t.mm.host = s.mm.host ∧ ∃ m', (streamQueue t cl x.qi).head? = some m' ∧ m'.started = true ∧
          m'.unit = m.unit + 1 ∧ m'.out = r.2.1 ∧ m'.done = decide (x.rows m.bytes ≤ m.unit + 1)))) := by
  obtain ⟨m0, work⟩ := working_atWork heads
  obtain ⟨f, rfl⟩ := work.command
  have step : exec i s = .next (localTurn cl k x (inWork f m) (atWork cl x.qi k m s)) := by
    rw [exec_local row heads.1, localStep, streamStep_works heads work ok]
  obtain ⟨-, up, -, -, notDone, -⟩ := heads
  refine ⟨fun last => ?_, fun more free => ⟨fun l poison => ?_, fun clean => ?_⟩⟩
  · obtain ⟨done, mm⟩ := localTurn_ends (k := k) work.head rfl last
    exact ⟨_, step, done, congrArg Mem.mem (mm.trans work.mm), congrArg Mem.host (mm.trans work.mm)⟩
  · refine ⟨_, step, ?_⟩
    rw [localTurn_poisoned (m := inWork f m) more (by rw [work.spanBusy]; exact free) (by rw [work.spanPoison]; exact poison)]
    exact ending_failCasting up (work.castings k)
  · have stays := rowStays_local row m.bytes m.unit m.out (atWork cl x.qi k m s)
    obtain ⟨mm, m', head, on, unit, out, done⟩ := localTurn_row (k := k) work.head rfl notDone more (by rw [work.spanBusy]; exact free)
      (by rw [work.spanPoison]; exact clean) stays
    exact ⟨_, step, congrArg Mem.mem mm, (congrArg Mem.host mm).trans (stays.host.trans (congrArg Mem.host work.mm)), m', head, on, unit, out, done⟩

/-- R204: a command that fails its check ends the casting. -/
theorem localRow_fails {i : Instr} {x : LocalEngine} {cl k sub : Nat} {m : SCmd} {s : State} (row : localEngineOf i = some (x, cl))
    (begins : Begins cl x.qi x.op k m s) (bad : localCheck cl x s m = some sub) :
    exec i s = .next (failCasting k (protEnd sub (agQueue cl x.qi) 0) s) := by
  rw [exec_local row begins.1.1, localStep, streamStep_fails begins bad]

end Sys2Proof.Machine
end

