-- ==== Sys2Proof/Proofs/Ranking.lean ====
section
/-!
SUPPORT. The order in which the SKE ranks values (R218): every value has a key in a linear order, NaNs foremost, and the columns that `topK`
gives are the least ones by key and column.
-/
namespace Sys2Proof.Machine

/-! ## Values as extended reals -/

/-- The value of a number that is not a NaN. -/
noncomputable def realOf : FVal → EReal
  | .nan _ => 0
  | .inf neg => if neg then ⊥ else ⊤
  | .fin neg m e => (((signed neg m : ℝ) * 2 ^ e : ℝ) : EReal)

/-- A mantissa brought to a lower exponent keeps its value. -/
theorem shiftTo_value (neg : Bool) (m : Nat) {e q : Int} (h : q ≤ e) :
    ((signed neg (shiftTo m e q) : Int) : ℝ) * 2 ^ q = (signed neg m : ℝ) * 2 ^ e := by
  obtain ⟨d, rfl⟩ := Int.le.dest h
  have power : (2 : ℝ) ^ (q + (d : Int)) = 2 ^ d * 2 ^ q := by
    rw [zpow_add₀ (by norm_num), zpow_natCast, mul_comm]
  rw [power, shiftTo, if_pos h, show (q + (d : Int) - q).toNat = d by omega]
  cases neg <;> simp [signed, mul_assoc]

theorem ltF_fin (n1 : Bool) (m1 : Nat) (e1 : Int) (n2 : Bool) (m2 : Nat) (e2 : Int) :
    ltF (.fin n1 m1 e1) (.fin n2 m2 e2) = decide (realOf (.fin n1 m1 e1) < realOf (.fin n2 m2 e2)) := by
  rw [ltF]
  refine decide_eq_decide.mpr ?_
  rw [realOf, realOf, EReal.coe_lt_coe_iff, ← shiftTo_value n1 m1 (min_le_left e1 e2), ← shiftTo_value n2 m2 (min_le_right e1 e2),
    mul_lt_mul_iff_left₀ (by positivity), Int.cast_lt]

/-- R106: one number is less than another as their values are. -/
theorem ltF_eq {a b : FVal} (ha : isNanF a = false) (hb : isNanF b = false) : ltF a b = decide (realOf a < realOf b) := by
  cases a with
  | nan => cases ha
  | inf n =>
    cases b with
    | nan => cases hb
    | inf n' => cases n <;> cases n' <;> simp [ltF, realOf]
    | fin n' m e =>
      cases n with
      | false => simp [ltF, realOf]
      | true => exact (decide_eq_true (EReal.bot_lt_coe _)).symm
  | fin n m e =>
    cases b with
    | nan => cases hb
    | inf n' =>
      cases n' with
      | false => exact (decide_eq_true (EReal.coe_lt_top _)).symm
      | true => simp [ltF, realOf]
    | fin n' m' e' => exact ltF_fin n m e n' m' e'

/-! ## The key of a value -/

/-- What values are ranked by: NaNs come first, then the numbers, ascending or descending. -/
noncomputable def rankKey (asc : Bool) (a : FVal) : WithBot EReal :=
  if isNanF a then ⊥ else ((if asc then realOf a else -realOf a : EReal) : WithBot EReal)

theorem ranksAhead_numbers {asc : Bool} {a b : FVal} (ha : isNanF a = false) (hb : isNanF b = false) :
    ranksAhead asc a b = if asc then ltF a b else ltF b a := by
  cases a with
  | nan => cases ha
  | inf => cases b with
    | nan => cases hb
    | inf => rfl
    | fin => rfl
  | fin => cases b with
    | nan => cases hb
    | inf => rfl
    | fin => rfl

theorem ranksAhead_nan {asc : Bool} {a b : FVal} (h : isNanF a = true ∨ isNanF b = true) : ranksAhead asc a b = !isNanF b := by
  cases a <;> cases b <;> simp_all [ranksAhead, isNanF]

/-- R218: one value ranks ahead of another when its key is less. -/
theorem ranksAhead_eq (asc : Bool) (a b : FVal) : ranksAhead asc a b = decide (rankKey asc a < rankKey asc b) := by
  by_cases numbers : isNanF a = false ∧ isNanF b = false
  · obtain ⟨ha, hb⟩ := numbers
    rw [ranksAhead_numbers ha hb, rankKey, rankKey, ha, hb]
    cases asc with
    | true => simp [ltF_eq ha hb]
    | false => simp [ltF_eq hb ha, EReal.neg_lt_neg_iff]
  · rw [ranksAhead_nan (by simpa [or_iff_not_imp_left] using numbers), rankKey, rankKey]
    cases hb : isNanF b with
    | true => simp
    | false =>
      have ha : isNanF a = true := by simpa [hb] using numbers
      simp [ha, WithBot.bot_lt_coe]

/-- R218: the order of columns: by rank, and the smaller column first among equals. -/
def RankedBefore (asc : Bool) (v : Nat → FVal) (a b : Nat) : Prop :=
  ranksAhead asc (v b) (v a) = false ∧ (ranksAhead asc (v a) (v b) = false → a < b)

theorem rankedBefore_iff {asc : Bool} {v : Nat → FVal} {a b : Nat} :
    RankedBefore asc v a b ↔ rankKey asc (v a) < rankKey asc (v b) ∨ rankKey asc (v a) = rankKey asc (v b) ∧ a < b := by
  rw [RankedBefore, ranksAhead_eq, ranksAhead_eq, decide_eq_false_iff_not, decide_eq_false_iff_not, not_lt, not_lt, le_iff_lt_or_eq]
  constructor
  · rintro ⟨h | h, tie⟩
    · exact .inl h
    · exact .inr ⟨h, tie (le_of_eq h.symm)⟩
  · rintro (h | ⟨h, less⟩)
    · exact ⟨.inl h, fun back => absurd h (not_lt.mpr back)⟩
    · exact ⟨.inr h, fun _ => less⟩

/-! ## The foremost columns -/

/-- Columns with their values. -/
def columns (v : Nat → FVal) (cs : List Nat) : List (Nat × FVal) := cs.map (fun c => (c, v c))

/-- A column that comes before those seen is met by later columns, each to the right of all seen. -/
theorem foldl_rankedBefore {asc : Bool} {v : Nat → FVal} (seen cs : List Nat) (a : Nat) (sorted : (seen ++ cs).Pairwise (· < ·)) (mem : a ∈ seen)
    (best : ∀ p ∈ seen, p ≠ a → RankedBefore asc v a p) :
    ∃ z, (columns v cs).foldl (fun a y => if ranksAhead asc y.2 a.2 then y else a) (a, v a) = (z, v z) ∧ z ∈ seen ++ cs ∧
      ∀ p ∈ seen ++ cs, p ≠ z → RankedBefore asc v z p := by
  induction cs generalizing seen a with
  | nil => exact ⟨a, rfl, by simpa using mem, by simpa using best⟩
  | cons y cs ih =>
    have right : ∀ p ∈ seen, p < y := fun p hp => (List.pairwise_append.mp sorted).2.2 p hp y (by simp)
    have split : seen ++ y :: cs = (seen ++ [y]) ++ cs := by simp
    rw [split] at sorted ⊢
    rw [columns, List.map_cons, List.foldl_cons]
    by_cases ahead : ranksAhead asc (v y) (v a) = true
    · rw [if_pos ahead]
      refine ih (seen ++ [y]) y sorted (by simp) fun p hp other => ?_
      have hp : p ∈ seen := by simpa [other] using hp
      rw [ranksAhead_eq, decide_eq_true_eq] at ahead
      refine rankedBefore_iff.mpr (.inl ?_)
      by_cases same : p = a
      · rw [same]; exact ahead
      · rcases rankedBefore_iff.mp (best p hp same) with h | ⟨h, -⟩
        · exact ahead.trans h
        · rw [← h]; exact ahead
    · rw [if_neg ahead]
      refine ih (seen ++ [y]) a sorted (by simp [mem]) fun p hp other => ?_
      rcases List.mem_append.mp hp with hp | hp
      · exact best p hp other
      · rw [List.mem_singleton.mp hp]
        exact ⟨Bool.eq_false_iff.mpr ahead, fun _ => right a mem⟩

/-- R218: the foremost of columns that stand in order. -/
theorem foremost_columns (asc : Bool) (v : Nat → FVal) {cs : List Nat} (sorted : cs.Pairwise (· < ·)) (some' : cs ≠ []) :
    ∃ z, foremost asc (columns v cs) = some (z, v z) ∧ z ∈ cs ∧ ∀ p ∈ cs, p ≠ z → RankedBefore asc v z p := by
  cases cs with
  | nil => exact absurd rfl some'
  | cons x cs =>
    obtain ⟨z, fold, mem, best⟩ := foldl_rankedBefore (asc := asc) (v := v) [x] cs x sorted (by simp) (by simp)
    exact ⟨z, congrArg some fold, mem, best⟩

/-- R218: the columns given are the foremost ones, in order. -/
theorem topK_columns (asc : Bool) (v : Nat → FVal) (n : Nat) (cs : List Nat) (sorted : cs.Pairwise (· < ·)) (enough : n ≤ cs.length) :
    let ks := topK asc n (columns v cs)
    ks.length = n ∧ (∀ c ∈ ks, c ∈ cs) ∧ ks.Pairwise (RankedBefore asc v) ∧ ∀ c ∈ ks, ∀ d ∈ cs, d ∉ ks → RankedBefore asc v c d := by
  induction n generalizing cs with
  | zero => simp [topK]
  | succ n ih =>
    obtain ⟨z, first, mem, best⟩ := foremost_columns asc v sorted (List.ne_nil_of_length_pos (by omega))
    have nodup : cs.Nodup := sorted.imp Nat.ne_of_lt
    have rest : (columns v cs).filter (fun y => decide (y.1 ≠ z)) = columns v (cs.erase z) := by
      rw [columns, List.filter_map, nodup.erase_eq_filter]
      refine congrArg (List.map _) (List.filter_congr fun c _ => ?_)
      simp [bne, Function.comp, beq_eq_decide]
    have step : topK asc (n + 1) (columns v cs) = z :: topK asc n (columns v (cs.erase z)) := by
      rw [topK, first]
      dsimp only
      rw [rest]
    obtain ⟨length, among, ordered, ahead⟩ := ih (cs.erase z) (sorted.sublist List.erase_sublist) (by rw [List.length_erase_of_mem mem]; omega)
    have later : ∀ c ∈ topK asc n (columns v (cs.erase z)), c ∈ cs ∧ c ≠ z := fun c hc =>
      ⟨List.mem_of_mem_erase (among c hc), fun same => nodup.not_mem_erase (same ▸ among c hc)⟩
    rw [step]
    refine ⟨congrArg (· + 1) length, List.forall_mem_cons.mpr ⟨mem, fun c hc => (later c hc).1⟩,
      List.pairwise_cons.mpr ⟨fun c hc => best c (later c hc).1 (later c hc).2, ordered⟩,
      List.forall_mem_cons.mpr ⟨fun d hd out => ?_, fun c hc d hd out => ?_⟩⟩
    · exact best d hd (List.ne_of_not_mem_cons out)
    · obtain ⟨other, out⟩ := not_or.mp (mt List.mem_cons.mpr out)
      exact ahead c hc d ((List.mem_erase_of_ne other).mpr hd) out

/-- R218: the K foremost elements of a row, in order. -/
theorem topK_foremost (asc : Bool) (n : Nat) (vs : List FVal) (enough : n ≤ vs.length) :
    let v := fun c => nth (.nan false) vs c
    let cs := topK asc n ((List.range vs.length).map (fun c => (c, v c)))
    let before := fun a b => ranksAhead asc (v b) (v a) = false ∧ (ranksAhead asc (v a) (v b) = false → a < b)
    cs.length = n ∧ (∀ c ∈ cs, c < vs.length) ∧ cs.Pairwise before ∧ ∀ c ∈ cs, ∀ d, d < vs.length → d ∉ cs → before c d := by
  obtain ⟨length, among, ordered, ahead⟩ := topK_columns asc (fun c => nth (.nan false) vs c) n (List.range vs.length) List.pairwise_lt_range
    (by simpa using enough)
  exact ⟨length, fun c hc => List.mem_range.mp (among c hc), ordered, fun c hc d hd => ahead c hc d (List.mem_range.mpr hd)⟩

end Sys2Proof.Machine
end

