-- ==== Sys2Proof/Proofs/ScratchRows.lean ====
section
/-!
CERTIFICATE. The TSE, UFE, SKE and FCE (O44): each row is the function of the row's inputs (R208, R209, R216, R218, R221, R222).
-/
namespace Sys2Proof.Machine

/-! ## TSE (R208, R209) -/

/-- An element of a row that an engine writes. -/
theorem fieldOf_scrPut_packRow (cl off w : Nat) (ys : List Nat) (s : State) {c : Nat} (h : c < ys.length) :
    fieldOf (scrBytes (scrPut cl off (packRow w ys) s) cl (off + c * w) w) 0 w = ys[c] % 2 ^ (8 * w) := by
  have inside : c * w + w ≤ (packRow w ys).length := by
    rw [packRow_length]; calc c * w + w = (c + 1) * w := by ring
      _ ≤ ys.length * w := Nat.mul_le_mul_right _ h
  have part := fieldOf_packRow w ys h
  rw [scrBytes_scrPut_in s inside]
  unfold fieldOf at part ⊢
  rw [List.drop_zero, List.take_take, min_self]
  exact part

theorem tseInputs_length (cl : Nat) (bs : List Byte) (r : Nat) (s : State) : (tseInputs cl bs r s).length = tsCols bs := by
  simp [tseInputs]

/-- A row of results as the TSE writes it. -/
def tseOut (bs : List Byte) (ys : List Nat) : List Byte :=
  packRow (codeBytes (tOfmt bs)) (ys.map (fun y => (fromFp32 (tOfmt bs) (tFlag bs 1) y).code))

theorem tseOut_length (bs : List Byte) (ys : List Nat) : (tseOut bs ys).length = ys.length * codeBytes (tOfmt bs) := by
  simp [tseOut]

theorem fieldOf_tseOut (cl off : Nat) (bs : List Byte) (ys : List Nat) (s : State) {c : Nat} (h : c < ys.length) :
    fieldOf (scrBytes (scrPut cl off (tseOut bs ys) s) cl (off + c * codeBytes (tOfmt bs)) (codeBytes (tOfmt bs))) 0 (codeBytes (tOfmt bs)) =
      (fromFp32 (tOfmt bs) (tFlag bs 1) ys[c]).code % 2 ^ (8 * codeBytes (tOfmt bs)) := by
  rw [tseOut, fieldOf_scrPut_packRow _ _ _ _ _ (by simpa using h), List.getElem_map]

/-- R208: a row of a function. -/
theorem tseRow_plain (cl : Nat) (bs : List Byte) (r : Nat) (buf : List Byte) (s : State) (h : tSoft bs = false) :
    (tseRow cl bs r buf s).1 = scrPut cl ((tDst bs).off + r * (tDst bs).stride)
      (tseOut bs ((tseInputs cl bs r s).map (fun x => (tseFunc bs x.code).code))) s := by
  simp [tseRow, h, tseOut, Function.comp_def]

/-- R208: an element of a row of a function. -/
theorem tseRow_element (cl r c : Nat) (bs buf : List Byte) (s : State) (inRow : c < tsCols bs) (plain : tSoft bs = false) :
    ∃ x, (tseInputs cl bs r s)[c]? = some x ∧
      fieldOf (scrBytes (tseRow cl bs r buf s).1 cl ((tDst bs).off + r * (tDst bs).stride + c * codeBytes (tOfmt bs)) (codeBytes (tOfmt bs))) 0
        (codeBytes (tOfmt bs)) = (fromFp32 (tOfmt bs) (tFlag bs 1) (tseFunc bs x.code).code).code % 2 ^ (8 * codeBytes (tOfmt bs)) := by
  have h : c < (tseInputs cl bs r s).length := by rw [tseInputs_length]; exact inRow
  refine ⟨_, List.getElem?_eq_getElem h, ?_⟩
  rw [tseRow_plain _ _ _ _ _ plain, fieldOf_tseOut _ _ _ _ _ (by simpa using h), List.getElem_map]

theorem softmaxRow_length (xs : List Nat) (first last : Bool) (m l : Nat) : (softmaxRow xs first last m l).1.length = xs.length := by
  unfold softmaxRow
  dsimp only
  generalize (if first = true then infCode fp32 true else m) = m0
  generalize (if first = true then 0 else l) = l0
  split
  · simp
  · rw [List.length_map, apply_ite List.length, List.length_map, ite_self, List.length_map]

/-- The state that a row of SOFTMAX leaves: M, L and R, and INV where it is written. -/
def softmaxState (cl st : Nat) (m l rr : Nat) (inv : Option Nat) (s : State) : State :=
  match inv with
  | some v => scrPut cl (st + 12) (leBytes 4 v) (scrPut cl st (leBytes 4 m ++ leBytes 4 l ++ leBytes 4 rr) s)
  | none => scrPut cl st (leBytes 4 m ++ leBytes 4 l ++ leBytes 4 rr) s

theorem leNat_leBytes_four (v : Nat) : leNat (leBytes 4 v) = v % 2 ^ 32 := leNat_leBytes 4 v

theorem scrNat_softmaxState (cl st m l rr : Nat) (inv : Option Nat) (s : State) :
    let t := softmaxState cl st m l rr inv s
    scrNat t cl st 4 = m % 2 ^ 32 ∧ scrNat t cl (st + 4) 4 = l % 2 ^ 32 ∧ scrNat t cl (st + 8) 4 = rr % 2 ^ 32 ∧
      ∀ v, inv = some v → scrNat t cl (st + 12) 4 = v % 2 ^ 32 := by
  have len : (leBytes 4 m ++ leBytes 4 l ++ leBytes 4 rr).length = 12 := by simp
  have below : ∀ a, a + 4 ≤ 12 → scrNat (softmaxState cl st m l rr inv s) cl (st + a) 4 =
      leNat (((leBytes 4 m ++ leBytes 4 l ++ leBytes 4 rr).drop a).take 4) := fun a ha => by
    rw [scrNat]
    congr 1
    cases inv with
    | none => exact scrBytes_scrPut_in _ (by omega)
    | some v => exact (scrBytes_scrPut_apart (by omega)).trans (scrBytes_scrPut_in _ (by omega))
  refine ⟨?_, ?_, ?_, ?_⟩
  · simpa [leNat_leBytes_four] using below 0 (by omega)
  · simpa [leNat_leBytes_four, List.drop_append, List.take_append] using below 4 (by omega)
  · have skip : (leBytes 4 m).drop 8 = [] := List.drop_eq_nil_of_le (by simp)
    have whole : (leBytes 4 rr).take 4 = leBytes 4 rr := List.take_of_length_le (by simp)
    simpa [leNat_leBytes_four, List.drop_append, List.take_append, skip, whole] using below 8 (by omega)
  · rintro v rfl
    have whole := scrBytes_scrPut_same cl (st + 12) (leBytes 4 v) (scrPut cl st (leBytes 4 m ++ leBytes 4 l ++ leBytes 4 rr) s)
    rw [leBytes_length] at whole
    rw [scrNat, softmaxState, whole, leNat_leBytes_four]

/-- R209: a row of SOFTMAX. -/
theorem tseRow_soft (cl : Nat) (bs : List Byte) (r : Nat) (buf : List Byte) (s : State) (h : tSoft bs = true) :
    let st := (tState bs).off + 16 * r
    let z := softmaxRow ((tseInputs cl bs r s).map (fun x => x.code)) (tFlag bs 2) (tFlag bs 3) (scrNat s cl st 4) (scrNat s cl (st + 4) 4)
    (tseRow cl bs r buf s).1 = scrPut cl ((tDst bs).off + r * (tDst bs).stride) (tseOut bs z.1)
      (softmaxState cl st z.2.1 z.2.2.1 z.2.2.2.1 z.2.2.2.2.1 s) := by
  simp only [tseRow, h, if_true, tseOut, List.map_map, Function.comp_def]
  generalize softmaxRow _ _ _ _ _ = z
  obtain ⟨ys, m, l, rr, inv, w⟩ := z
  cases inv <;> rfl

/-- R209: a row of SOFTMAX leaves its outputs, M, L, R and INV. -/
theorem tseRow_softmax (cl r c : Nat) (bs buf : List Byte) (s : State) (inRow : c < tsCols bs) (soft : tSoft bs = true) :
    let w := codeBytes (tOfmt bs)
    let t := (tseRow cl bs r buf s).1
    let st := (tState bs).off + 16 * r
    let d := (tDst bs).off + r * (tDst bs).stride
    let z := softmaxRow ((tseInputs cl bs r s).map (fun x => x.code)) (tFlag bs 2) (tFlag bs 3) (scrNat s cl st 4) (scrNat s cl (st + 4) 4)
    d + tsCols bs * w ≤ st ∨ st + 16 ≤ d →
    fieldOf (scrBytes t cl (d + c * w) w) 0 w = (fromFp32 (tOfmt bs) (tFlag bs 1) (nth 0 z.1 c)).code % 2 ^ (8 * w) ∧
      scrNat t cl st 4 = z.2.1 % 2 ^ 32 ∧ scrNat t cl (st + 4) 4 = z.2.2.1 % 2 ^ 32 ∧ scrNat t cl (st + 8) 4 = z.2.2.2.1 % 2 ^ 32 ∧
      ∀ v, z.2.2.2.2.1 = some v → scrNat t cl (st + 12) 4 = v % 2 ^ 32 := by
  intro w t st d z apart
  have row : t = scrPut cl d (tseOut bs z.1) (softmaxState cl st z.2.1 z.2.2.1 z.2.2.2.1 z.2.2.2.2.1 s) := tseRow_soft cl bs r buf s soft
  have length : z.1.length = tsCols bs := by simp [z, softmaxRow_length, tseInputs_length]
  have out : (tseOut bs z.1).length = tsCols bs * w := by rw [tseOut_length, length]
  have kept : ∀ a, a + 4 ≤ 16 → scrNat t cl (st + a) 4 = scrNat (softmaxState cl st z.2.1 z.2.2.1 z.2.2.2.1 z.2.2.2.2.1 s) cl (st + a) 4 :=
    fun a ha => by
      rw [row, scrNat, scrBytes_scrPut_apart (by rw [out]; omega), ← scrNat]
  obtain ⟨hm, hl, hr, hinv⟩ := scrNat_softmaxState cl st z.2.1 z.2.2.1 z.2.2.2.1 z.2.2.2.2.1 s
  refine ⟨?_, (kept 0 (by omega)).trans hm, (kept 4 (by omega)).trans hl, (kept 8 (by omega)).trans hr,
    fun v hv => (kept 12 (by omega)).trans (hinv v hv)⟩
  rw [row, fieldOf_tseOut _ _ _ _ _ (length ▸ inRow), nth_eq_getD, List.getD_eq_getElem _ _ (length ▸ inRow)]

/-! ## UFE (R216) -/

/-- An element of a UFE's output row. -/
def ufeElem (s : State) (cl : Nat) (bs : List Byte) (r c : Nat) : List Byte :=
  match uFrom bs r c with
  | some o => scrBytes s cl (fieldOf bs 16 4 + o) (uElem bs)
  | none => List.replicate (uElem bs) 0

@[simp] theorem ufeElem_length (s : State) (cl : Nat) (bs : List Byte) (r c : Nat) : (ufeElem s cl bs r c).length = uElem bs := by
  unfold ufeElem; split <;> simp

theorem ufeRow_state (cl : Nat) (bs : List Byte) (r : Nat) (buf : List Byte) (s : State) :
    (ufeRow cl bs r buf s).1 = scrPut cl (fieldOf bs 20 4 + r * (uCols bs * uElem bs)) ((List.range (uCols bs)).flatMap (ufeElem s cl bs r)) s := rfl

/-- R216: an element of an output row is a source element, or zeros outside the source. -/
theorem ufeRow_element (cl r c : Nat) (bs buf : List Byte) (s : State) (inRow : c < uCols bs) :
    scrBytes (ufeRow cl bs r buf s).1 cl (fieldOf bs 20 4 + (r * uCols bs + c) * uElem bs) (uElem bs) = ufeElem s cl bs r c := by
  have len : ∀ c ∈ List.range (uCols bs), (ufeElem s cl bs r c).length = uElem bs := fun c _ => ufeElem_length s cl bs r c
  have inside : c * uElem bs + uElem bs ≤ uCols bs * uElem bs := by
    calc c * uElem bs + uElem bs = (c + 1) * uElem bs := by ring
      _ ≤ uCols bs * uElem bs := Nat.mul_le_mul_right _ inRow
  have place : fieldOf bs 20 4 + (r * uCols bs + c) * uElem bs = fieldOf bs 20 4 + r * (uCols bs * uElem bs) + c * uElem bs := by ring
  rw [place, ufeRow_state, scrBytes_scrPut_in _ (by rw [length_flatMap_const len, List.length_range]; exact inside),
    take_drop_flatMap len (by simpa using inRow), List.getElem_range]

/-- R216: a PERMUTE's element, by the indices of its output dimensions. -/
theorem uFrom_permute (bs : List Byte) (i0 i1 i2 i3 : Nat) (permute : uUnfold bs = false) (h1 : i1 < uExt bs (uPerm bs 1))
    (h2 : i2 < uExt bs (uPerm bs 2)) :
    uFrom bs (i1 + uExt bs (uPerm bs 1) * (i2 + uExt bs (uPerm bs 2) * i3)) i0 =
      some (i0 * uStride bs (uPerm bs 0) + i1 * uStride bs (uPerm bs 1) + i2 * uStride bs (uPerm bs 2) + i3 * uStride bs (uPerm bs 3)) := by
  have div1 : (i1 + uExt bs (uPerm bs 1) * (i2 + uExt bs (uPerm bs 2) * i3)) / uExt bs (uPerm bs 1) = i2 + uExt bs (uPerm bs 2) * i3 := by
    rw [Nat.add_mul_div_left _ _ (by omega), Nat.div_eq_of_lt h1, Nat.zero_add]
  have div2 : (i2 + uExt bs (uPerm bs 2) * i3) / uExt bs (uPerm bs 2) = i3 := by
    rw [Nat.add_mul_div_left _ _ (by omega), Nat.div_eq_of_lt h2, Nat.zero_add]
  rw [uFrom, permute, if_neg (by simp)]
  dsimp only
  rw [div1, div2, Nat.add_mul_mod_self_left, Nat.mod_eq_of_lt h1, Nat.add_mul_mod_self_left, Nat.mod_eq_of_lt h2]

/-- R216: an UNFOLD's element, by the position in the output and in the kernel. -/
theorem uFrom_unfold (bs : List Byte) (oy ox kh kw ch : Nat) (unfold' : uUnfold bs = true) (hx : ox < uO bs 1) (hk : kw < uK bs 1)
    (hc : ch < uExt bs 2) :
    let y : Int := ((oy * uK bs 2 + kh * uK bs 4 : Nat) : Int) - (uK bs 6 : Int)
    let x : Int := ((ox * uK bs 3 + kw * uK bs 5 : Nat) : Int) - (uK bs 7 : Int)
    uFrom bs (oy * uO bs 1 + ox) ((kh * uK bs 1 + kw) * uExt bs 2 + ch) =
      if 0 ≤ y ∧ y < uExt bs 0 ∧ 0 ≤ x ∧ x < uExt bs 1 then some (((y.toNat * uExt bs 1 + x.toNat) * uExt bs 2 + ch) * uElem bs) else none := by
  have div : ∀ {a b n : Nat}, b < n → (a * n + b) / n = a := fun {a b n} h => by
    rw [Nat.add_comm, Nat.add_mul_div_right _ _ (by omega), Nat.div_eq_of_lt h, Nat.zero_add]
  have mod : ∀ {a b n : Nat}, b < n → (a * n + b) % n = b := fun {a b n} h => by rw [Nat.add_comm, Nat.add_mul_mod_self_right, Nat.mod_eq_of_lt h]
  rw [uFrom, unfold', if_pos rfl]
  dsimp only
  rw [div hx, mod hx, div hc, mod hc, div hk, mod hk]

/-! ## SKE (R218) -/

/-- R218: a row without VALUES is the row of the foremost columns. -/
theorem skeRow_columns (cl r : Nat) (bs buf : List Byte) (s : State) (indices : kFlag bs 1 = false) :
    let w := codeBytes (kType bs)
    let f := plainFmt (kType bs)
    let raw := scrBytes s cl ((kSrc bs).off + r * (kSrc bs).stride) (kCols bs * w)
    let row := packRow 4 (topK (kFlag bs 0) (kK bs) ((List.range (kCols bs)).map (fun c =>
      (c, decodeF f (if kType bs = 4 then fieldOf raw (c * w) w else (flushCode f (kFlag bs 2) (fieldOf raw (c * w) w)).1)))))
    scrBytes (skeRow cl bs r buf s).1 cl ((kIdx bs).off + r * (kIdx bs).stride) row.length = row := by
  intro w f raw row
  have put : (skeRow cl bs r buf s).1 = scrPut cl ((kIdx bs).off + r * (kIdx bs).stride) row s := by
    rw [skeRow, indices, if_neg (by simp)]
  rw [put]
  exact scrBytes_scrPut_same _ _ _ _

/-! ## FCE (R221, R222) -/

/-- The bytes of an output row's elements. -/
def fceCodes (s : State) (cl : Nat) (bs : List Byte) (i : Nat) : List Byte := (fceOut s cl bs i).1
/-- The bytes of its scales. -/
def fceScales (s : State) (cl : Nat) (bs : List Byte) (i : Nat) : List Byte := (fceOut s cl bs i).2.1

theorem fceCodes_length (s : State) (cl : Nat) (bs : List Byte) (i : Nat) : (fceCodes s cl bs i).length = (fDst bs).bytes := by
  simp [fceCodes, fceOut, packElems, outRow, fDst, rowSpan, rowBytes]

/-- R148: the scales that go out with a row. -/
theorem outScales_length {o : OutFmt} (v : Nat → Nat → FVal) (rows cols m : Nat) (h : o.sc = 0 ∨ scFmt o.sc ≠ 0) :
    (match outScales o v rows cols m with | some (_, b) => b | none => []).length =
      if o.sc = 0 ∨ (scDir o.sc ≠ 2 ∧ m % scSize o.sc ≠ 0) then 0 else scaleRowLen o.sc cols := by
  by_cases none : o.sc = 0
  · simp [outScales, none, scFmt, bits]
  · have fmt : scFmt o.sc ≠ 0 := h.resolve_left none
    unfold outScales scaleRowLen
    dsimp only
    rw [if_neg fmt]
    by_cases cols' : scDir o.sc = 2
    · simp [none, cols']
    · by_cases first : m % scSize o.sc = 0
      · by_cases rows' : scDir o.sc = 1 <;> simp [none, cols', first, rows']
      · simp [cols', first]

theorem fceScales_length {bs : List Byte} (s : State) (cl i : Nat) (h : (fOut bs).sc = 0 ∨ scFmt (fOut bs).sc ≠ 0) :
    (fceScales s cl bs i).length = fScaleLen bs i := outScales_length _ _ _ _ h

theorem fGroup_pos (bs : List Byte) : 0 < fGroup bs := by
  unfold fGroup scSize
  dsimp only
  split
  · exact Nat.two_pow_pos _
  · exact Nat.one_pos

/-- R222: what a row writes from the buffer, and what remains in it. -/
theorem fceRow_writes {cl r : Nat} {bs buf codes scales rest : List Byte} {s : State}
    (hbuf : buf ++ (if r % fGroup bs = 0 then (List.range (min (fGroup bs) (fRows bs - r))).map (fun i => fceOut s cl bs (r + i)) else []).flatMap
      (fun x => x.1 ++ x.2.1) = codes ++ scales ++ rest)
    (hc : codes.length = (fDst bs).bytes) (hs : scales.length = fScaleLen bs r) :
    let d := (fDst bs).off + r * (fDst bs).stride
    let e := fieldOf bs 40 4 + (if scDir (fOut bs).sc = 2 then r else r / scSize (fOut bs).sc) * fieldOf bs 44 4
    d + (fDst bs).bytes ≤ e ∨ e + fScaleLen bs r ≤ d →
    scrBytes (fceRow cl bs r buf s).1 cl d (fDst bs).bytes = codes ∧ scrBytes (fceRow cl bs r buf s).1 cl e (fScaleLen bs r) = scales ∧
      (fceRow cl bs r buf s).2.1 = rest := by
  intro d e apart
  have first : (codes ++ scales ++ rest).take (fDst bs).bytes = codes := by simp [← hc]
  have second : ((codes ++ scales ++ rest).drop (fDst bs).bytes).take (fScaleLen bs r) = scales := by simp [← hc, ← hs]
  have last : (codes ++ scales ++ rest).drop ((fDst bs).bytes + fScaleLen bs r) = rest := by rw [← hc, ← hs]; simp
  have state : (fceRow cl bs r buf s).1 = scrPut cl e scales (scrPut cl d codes s) := by
    rw [fceRow]; dsimp only; rw [hbuf, first, second]
  refine ⟨?_, ?_, ?_⟩
  · rw [state, ← hc, scrBytes_scrPut_apart (by omega), scrBytes_scrPut_same]
  · rw [state, ← hs, scrBytes_scrPut_same]
  · rw [fceRow]; dsimp only; rw [hbuf, last]

/-- R221, R222: the rows of a block, as its first row finds the inputs. -/
theorem fceRow_block (cl r : Nat) (bs buf : List Byte) (s : State) (scaled : (fOut bs).sc = 0 ∨ scFmt (fOut bs).sc ≠ 0) (inRows : r < fRows bs) :
    let n := (fDst bs).bytes
    let d := (fDst bs).off + r * (fDst bs).stride
    let e := fieldOf bs 40 4 + (if scDir (fOut bs).sc = 2 then r else r / scSize (fOut bs).sc) * fieldOf bs 44 4
    d + n ≤ e ∨ e + fScaleLen bs r ≤ d →
    (r % fGroup bs = 0 → scrBytes (fceRow cl bs r [] s).1 cl d n = fceCodes s cl bs r ∧
      scrBytes (fceRow cl bs r [] s).1 cl e (fScaleLen bs r) = fceScales s cl bs r ∧
      (fceRow cl bs r [] s).2.1 = (List.range (min (fGroup bs) (fRows bs - r) - 1)).flatMap
        (fun i => fceCodes s cl bs (r + i + 1) ++ fceScales s cl bs (r + i + 1))) ∧
    (r % fGroup bs ≠ 0 → n + fScaleLen bs r ≤ buf.length → scrBytes (fceRow cl bs r buf s).1 cl d n = buf.take n ∧
      scrBytes (fceRow cl bs r buf s).1 cl e (fScaleLen bs r) = (buf.drop n).take (fScaleLen bs r) ∧
      (fceRow cl bs r buf s).2.1 = buf.drop (n + fScaleLen bs r)) := by
  intro n d e apart
  refine ⟨fun first => ?_, fun later enough => ?_⟩
  · refine fceRow_writes ?_ (fceCodes_length s cl bs r) (fceScales_length s cl r scaled) apart
    obtain ⟨g, hg⟩ : ∃ g, min (fGroup bs) (fRows bs - r) = g + 1 := Nat.exists_eq_succ_of_ne_zero (by have := fGroup_pos bs; omega)
    rw [if_pos first, hg, List.range_succ_eq_map]
    simp [List.flatMap_map, fceCodes, fceScales, Nat.add_assoc, Nat.succ_eq_add_one]
  · refine fceRow_writes ?_ (by simp; omega) (by simp; omega) apart
    rw [if_neg later, List.flatMap_nil, List.append_nil, ← List.drop_drop, List.append_assoc, List.take_append_drop, List.take_append_drop]

/-! ## O44 -/

/-- Settles O44: a turn is one row, and each engine's row is put in scratch as one run of bytes (R205, R208, R209, R216, R218, R221, R222). -/
theorem scratchEnginesCompute : Obligations.ScratchEnginesCompute := by
  unfold Obligations.ScratchEnginesCompute
  refine ⟨fun i x cl k m s => localRow_performs, fun i x cl k sub m s => localRow_fails, fun cl r c bs buf s inRow => ?_,
    fun cl r c bs buf s => ufeRow_element cl r c bs buf s, uFrom_permute, uFrom_unfold, topK_foremost,
    fun cl r bs buf s => skeRow_columns cl r bs buf s, fun cl r bs buf s scaled inRows => fceRow_block cl r bs buf s scaled inRows⟩
  exact ⟨tseRow_element cl r c bs buf s inRow, tseRow_softmax cl r c bs buf s inRow⟩

end Sys2Proof.Machine
end

