-- ==== Sys2Proof/Proofs/EngineTurns.lean ====
section
/-!
SUPPORT. The turns of a queue's head (R205): how a run of turns goes on and ends, what a turn leaves of the streams, and the queues of a
casting that has ended.
-/
namespace Sys2Proof.Machine

/-! ## A queue's head that is replaced -/

/-- The head of a queue is `m` in `t`, and the commands behind it are those of `s`; castings (but for what they wrote), semaphores and the
counts of rows out of range are as they were. -/
structure HeadSet (cl qi : Nat) (m : SCmd) (s t : State) : Prop where
  queue : streamQueue t cl qi = m :: (streamQueue s cl qi).tail
  casting : ∀ k, ∃ w, castingOf t k = { castingOf s k with wrote := w }
  sema : t.mm.sema = s.mm.sema
  oob : ∀ n, getF t (engOob n) = getF s (engOob n)

namespace HeadSet

variable {cl qi : Nat} {m m' : SCmd} {s t u : State}

theorem head (h : HeadSet cl qi m s t) : (streamQueue t cl qi).head? = some m := by rw [h.queue]; rfl

theorem semaOf (h : HeadSet cl qi m s t) (i : Nat) : Machine.semaOf t i = Machine.semaOf s i := by unfold Machine.semaOf; rw [h.sema]

theorem trans (h : HeadSet cl qi m s t) (h' : HeadSet cl qi m' t u) : HeadSet cl qi m' s u where
  queue := by rw [h'.queue, h.queue]; rfl
  casting k := by
    obtain ⟨w, e⟩ := h.casting k
    obtain ⟨w', e'⟩ := h'.casting k
    exact ⟨w', by rw [e', e]⟩
  sema := h'.sema.trans h.sema
  oob n := (h'.oob n).trans (h.oob n)

theorem of_stay (head : (streamQueue s cl qi).head? = some m) (stay : StreamsStay s t) : HeadSet cl qi m s t :=
  ⟨by rw [stay.streamQueue]; exact eq_cons_of_head? head, stay.casting, stay.sema, stay.oob⟩

theorem refl (head : (streamQueue s cl qi).head? = some m) : HeadSet cl qi m s s := .of_stay head (.refl s)

theorem of_set (head : (streamQueue s cl qi).head? = some m) (m' : SCmd) : HeadSet cl qi m' s (setHeadCmd cl qi m' s) :=
  ⟨by rw [streamQueue_setHeadCmd (eq_cons_of_head? head), if_pos rfl], fun k => ⟨(castingOf s k).wrote, rfl⟩, rfl, fun _ => rfl⟩

theorem stays (h : HeadSet cl qi m s t) (stay : StreamsStay t u) : HeadSet cl qi m s u := h.trans (.of_stay h.head stay)

theorem set (h : HeadSet cl qi m s t) (m' : SCmd) : HeadSet cl qi m' s (setHeadCmd cl qi m' t) := h.trans (.of_set h.head m')

theorem doneHead (h : HeadSet cl qi m s t) : HeadSet cl qi { m with done := true, mid := false } s (doneHead cl qi t) := by
  rw [doneHead_eq h.head]
  exact h.set _

theorem of_working {m0 : SCmd} (work : Working cl qi m m0 s t) : HeadSet cl qi m0 s t :=
  ⟨work.queue, fun k => ⟨(castingOf s k).wrote, by rw [work.castings]⟩, by rw [work.mm], work.oob⟩

end HeadSet

/-- The head of a queue has done its unit, and is at `unit`. -/
def UnitDone (cl qi unit : Nat) (done : Bool) (s t : State) : Prop :=
  ∃ m, HeadSet cl qi m s t ∧ m.started = true ∧ m.unit = unit ∧ m.done = done

theorem UnitDone.headAt {cl qi unit : Nat} {done : Bool} {s t : State} (h : UnitDone cl qi unit done s t) : HeadAt cl qi unit done t := by
  obtain ⟨m, set, on, unit, done⟩ := h
  exact ⟨m, set.head, on, unit, done⟩

/-! ## Runs of turns -/

/-- A command that has started, that no drain has stopped, and that has work left. -/
def SCmd.Active (m : SCmd) : Prop := m.started = true ∧ m.done = false ∧ m.stopped = false

theorem headIs_of_head {cl qi : Nat} {m : SCmd} {s : State} (head : (streamQueue s cl qi).head? = some m) (active : m.Active) :
    headIs cl qi s = some m := by
  obtain ⟨on, notDone, notStopped⟩ := active
  unfold headIs
  rw [eq_cons_of_head? head]
  dsimp only
  rw [on, notDone, notStopped]
  rfl

theorem head_of_headIs {cl qi : Nat} {m : SCmd} {s : State} (h : headIs cl qi s = some m) : (streamQueue s cl qi).head? = some m := by
  unfold headIs at h
  split at h
  next x xs queue =>
    split at h
    · cases h; rw [queue]; rfl
    · cases h
  next => cases h

theorem moved_eq {cl qi : Nat} {m x : SCmd} {s t : State} (head : (streamQueue s cl qi).head? = some m) (active : m.Active)
    (next : (streamQueue t cl qi).head? = some x) : moved cl qi s t = decide (m ≠ x) := by
  unfold moved
  rw [headIs_of_head head active, eq_cons_of_head? next]

section
variable {cl qi n : Nat} {turn : SCmd → State → State} {m x : SCmd} {s : State}

/-- A run ends with a turn that leaves its head as it is, or goes on to another unit. -/
theorem runUnit_ends (head : (streamQueue s cl qi).head? = some m) (active : m.Active)
    (ends : ∀ x, (streamQueue (turn m s) cl qi).head? = some x → x = m ∨ x.unit ≠ m.unit) :
    runUnit cl qi turn (n + 1) s = turn m s := by
  rw [runUnit, headIs_of_head head active]
  dsimp only
  split
  next x hx =>
    have next := head_of_headIs hx
    rw [if_neg]
    rw [moved_eq head active next, ← Bool.decide_and, decide_eq_true_eq]
    rintro ⟨other, unit⟩
    rcases ends x next with same | away
    · exact other same.symm
    · exact away unit
  next => rfl

/-- A run goes on after a turn that has moved its head on within the unit. -/
theorem runUnit_goesOn (head : (streamQueue s cl qi).head? = some m) (active : m.Active) (next : (streamQueue (turn m s) cl qi).head? = some x)
    (active' : x.Active) (other : x ≠ m) (unit : x.unit = m.unit) : runUnit cl qi turn (n + 1) s = runUnit cl qi turn n (turn m s) := by
  rw [runUnit, headIs_of_head head active]
  dsimp only
  rw [headIs_of_head next active', moved_eq head active next]
  dsimp only
  rw [decide_eq_true other.symm, decide_eq_true unit]
  rfl

/-- A run ends with its unit. -/
theorem runUnit_unitDone {done : Bool} {b : State} (head : (streamQueue s cl qi).head? = some m) (active : m.Active)
    (ends : UnitDone cl qi (m.unit + 1) done b (turn m s)) : runUnit cl qi turn (n + 1) s = turn m s := by
  obtain ⟨m', set, -, unit, -⟩ := ends
  refine runUnit_ends head active fun x hx => .inr ?_
  rw [set.head] at hx
  cases hx
  omega

end

/-- A queue whose head goes to work. -/
theorem active_inWork {cl qi op k : Nat} {m : SCmd} {s : State} (h : Heads cl qi op k m s) (f : Nat) : (inWork f m).Active := by
  obtain ⟨-, -, -, -, notDone, notStopped, -⟩ := h
  exact ⟨rfl, notDone, notStopped⟩

/-! ## The streams of a casting that has ended -/

/-- Every queue is as it was, or empty. -/
def QueuesDrop (s t : State) : Prop := ∀ cl q, streamQueue t cl q = streamQueue s cl q ∨ streamQueue t cl q = []

namespace QueuesDrop

theorem refl (s : State) : QueuesDrop s s := fun _ _ => .inl rfl

theorem of_clusters {s t : State} (h : t.clusters = s.clusters) : QueuesDrop s t := fun cl q => .inl (by unfold streamQueue clusterOf; rw [h])

theorem trans {s t u : State} (h : QueuesDrop s t) (h' : QueuesDrop t u) : QueuesDrop s u := fun cl q => by
  rcases h' cl q with same | empty
  · rw [same]; exact h cl q
  · exact .inr empty

theorem foldl {β : Type} {f : State → β → State} (h : ∀ s x, QueuesDrop s (f s x)) (xs : List β) (s : State) : QueuesDrop s (xs.foldl f s) :=
  List.foldlRecOn xs f (motive := QueuesDrop s) (refl s) (fun t ht x _ => ht.trans (h t x))

end QueuesDrop

theorem Noticed.clusters {s t : State} (h : Noticed s t) : t.clusters = s.clusters := congrArg (fun x => x.clusters) h.rest

theorem clusters_foldl {β : Type} {f : State → β → State} (h : ∀ s x, (f s x).clusters = s.clusters) (xs : List β) (s : State) :
    (xs.foldl f s).clusters = s.clusters :=
  List.foldlRecOn xs f (motive := fun t => t.clusters = s.clusters) rfl (fun t ht x _ => (h t x).trans ht)

theorem clusters_setCore (s : State) (g : Nat) (c : Core) : (setCore s g c).clusters = s.clusters := rfl

theorem clusters_freeConsort (g k : Nat) (s : State) : (freeConsort g k s).clusters = s.clusters := by
  have left : (leaving g k s).clusters = s.clusters := by
    obtain ⟨x, c, e⟩ := leaving_cores g k s
    rw [e]
  rw [freeConsort_eq]
  generalize leaving g k s = u at left ⊢
  rw [← left]
  split
  · exact clusters_foldl (f := setOff) (fun _ _ => rfl) (harpShown g) (setCore u g ((coreOf u g).freed k))
  · rfl

theorem clusters_clearCore (k g : Nat) (s : State) : (clearCore k g s).clusters = s.clusters := by
  unfold clearCore
  dsimp only
  refine (clusters_setCore _ _ _).trans (Eq.trans (clusters_foldl (fun u e => ?_) _ _) ?_)
  · split
    · rfl
    · split
      · exact clusters_foldl (fun u i => clusters_setCore u g _) _ u
      · exact clusters_freeConsort g e.1 u
  · split
    · split
      · exact (noticed_abortPourAt _ _ _ _ _).clusters
      · rfl
    · rfl

/-- A cluster that is cleared has no queues. -/
theorem queuesDrop_clearCluster (k cl : Nat) (s : State) : QueuesDrop s (clearCluster k cl s) := by
  unfold clearCluster
  dsimp only
  have cleared := clusters_foldl (fun u g => clusters_clearCore k g u) (coresOf cl) s
  generalize (coresOf cl).foldl (fun s g => clearCore k g s) s = u at cleared ⊢
  refine (QueuesDrop.of_clusters cleared).trans fun n q => ?_
  by_cases same : n = cl
  · exact .inr (by rw [streamQueue, clusterOf_setCluster, if_pos same]; rfl)
  · exact .inl (by rw [streamQueue, clusterOf_setCluster, if_neg same]; rfl)

theorem clusters_clearChans (k : Nat) (s : State) : (clearChans k s).clusters = s.clusters := by
  unfold clearChans
  refine clusters_foldl (fun u e => clusters_foldl (fun u c => ?_) _ u) _ s
  split
  · rfl
  · split
    · rfl
    · dsimp only
      have freed := ((noticed_dropToken (0x10000 + 32 * e.1 + c.1) u).trans (noticed_unlockAll (0x10000 + 32 * e.1 + c.1) _)).clusters
      generalize unlockAll (0x10000 + 32 * e.1 + c.1) (dropToken (0x10000 + 32 * e.1 + c.1) u) = v at freed ⊢
      exact freed

theorem clusters_endRecorded (c : Casting) (e : Ending) (s : State) : (endRecorded c e s).clusters = s.clusters := by
  have triggered : (if e.st = stFault then raiseTrigger 4 s else s).clusters = s.clusters := by
    split
    · exact (noticed_raiseTrigger _ _).clusters
    · rfl
  unfold endRecorded
  by_cases h : e.code = 0x30
  · rw [if_pos h]
    exact (noticed_traceEvent _ _ _ _ _ _ _ _).clusters.trans triggered
  · rw [if_neg h]
    exact triggered

/-- A casting that ends empties the queues of its clusters. -/
theorem queuesDrop_failCasting (k : Nat) (e : Ending) (s : State) : QueuesDrop s (failCasting k e s) := by
  unfold failCasting
  by_cases runs : (castingOf s k).live = true ∧ (castingOf s k).ending = none
  · rw [endCasting_told runs.1 runs.2]
    have told : ∀ c u, (toldPeers c u).clusters = u.clusters := fun c u => by unfold toldPeers; split <;> rfl
    have gone : QueuesDrop s (withdrawn k e s) := by
      unfold withdrawn
      have kept : (clearChans k (dropWaiters k (setCasting s k { castingOf s k with ending := some e }))).clusters = s.clusters :=
        clusters_clearChans k _
      exact (QueuesDrop.of_clusters kept).trans (.foldl (fun u cl => queuesDrop_clearCluster k cl u) _ _)
    exact gone.trans (.of_clusters ((told _ _).trans (clusters_endRecorded _ _ _)))
  · unfold endCasting
    dsimp only
    rw [if_pos (by simpa [Option.isSome_iff_ne_none, or_iff_not_imp_left] using runs)]
    exact .refl s

/-- A casting that ends moves no head on. -/
theorem head_failCasting {cl qi k : Nat} {e : Ending} {m x : SCmd} {s : State} (head : (streamQueue s cl qi).head? = some m)
    (next : (streamQueue (failCasting k e s) cl qi).head? = some x) : x = m := by
  rcases queuesDrop_failCasting k e s cl qi with same | empty
  · rw [same, head] at next
    exact (Option.some.inj next).symm
  · rw [empty] at next
    cases next

/-! ## Bytes that go out line by line -/

/-- R205: a unit whose bytes have all gone out. -/
theorem flushOut_ok {cl qi age n : Nat} {a : Acc2} {m m' : SCmd} {s t : State} (head : (streamQueue s cl qi).head? = some m)
    (out : flushOut cl qi age a n m s = (t, .ok m')) : HeadSet cl qi m' s t ∧ ∃ o v, m' = { m with out := o, outVa := v } := by
  induction n generalizing m s with
  | zero =>
    cases out
    exact ⟨.refl head, _, _, rfl⟩
  | succ n ih =>
    rw [flushOut] at out
    split at out
    · cases out
      exact ⟨.refl head, _, _, rfl⟩
    · dsimp only at out
      have stay := streamsStay_engWrite a cl age m.outVa (m.out.take (min m.out.length (128 - m.outVa % 128))) s
      split at out
      next s' heq =>
        rw [heq] at stay
        have set := (HeadSet.of_stay head (stay.trans (streamsStay_endWaits a.who s'))).set
          { m with out := m.out.drop (min m.out.length (128 - m.outVa % 128)), outVa := m.outVa + min m.out.length (128 - m.outVa % 128) }
        obtain ⟨set', o, v, rfl⟩ := ih set.head out
        exact ⟨set.trans set', o, v, rfl⟩
      next => cases out
      next => cases out

/-! ## What waits for the host -/

theorem dirty_foldl {β : Type} {f : State → β → State} (h : ∀ s x, (f s x).xl.dirty = s.xl.dirty) (xs : List β) (s : State) :
    (xs.foldl f s).xl.dirty = s.xl.dirty :=
  List.foldlRecOn xs f (motive := fun t => t.xl.dirty = s.xl.dirty) rfl (fun t ht x _ => (h t x).trans ht)

theorem dirty_abortPourAt (g slot reason line : Nat) (s : State) : (abortPourAt g slot reason line s).xl.dirty = s.xl.dirty := by
  unfold abortPourAt
  dsimp only
  split
  · rfl
  · have dropped : (dropToken g s).xl.dirty = s.xl.dirty := by
      unfold dropToken showWait
      split <;> simp only [setOff_eq, setF_xl]
    have forgotten : ∀ u : State, (forgetWaits (.course g slot) u).xl.dirty = u.xl.dirty := fun u => by
      unfold forgetWaits leaveMiss; dsimp only; split <;> rfl
    have freed : (forgetWaits (.course g slot) (unlockAll g (dropToken g s))).xl.dirty = s.xl.dirty := (forgotten _).trans dropped
    generalize forgetWaits (.course g slot) (unlockAll g (dropToken g s)) = u at freed ⊢
    obtain ⟨r, t, w, e⟩ := tracePourAbort_changes g slot reason line (setCourse (setCore u g { coreOf u g with ladle := {} }) g slot
      { courseOf s g slot with
        pour := .closed, pourCode := 0x50, pourSub := reason, pourSerial := false, abortCount := (courseOf s g slot).abortCount + 1
        pc := (courseOf s g slot).abortPc, active := liveLanes (courseOf s g slot), stack := (courseOf s g slot).beginStack })
    rw [e]
    exact freed

theorem dirty_noteWrite (line : Nat) (who : Option (Nat × Nat)) (s : State) : (noteWrite line who s).xl.dirty = s.xl.dirty := by
  have broken : (breakRsv line who s).xl = s.xl := rfl
  unfold noteWrite conflict conflictIf
  rw [← broken]
  refine dirty_foldl (fun u e => ?_) _ _
  split
  · split
    · exact dirty_abortPourAt _ _ _ _ u
    · rfl
  · rfl

theorem dirty_scrTame (loc : Nat) (s : State) : (scrTame loc s).xl.dirty = s.xl.dirty := by unfold scrTame; split <;> rfl

theorem dirty_scrWrite (loc : Nat) (bs : List Byte) (s : State) : (scrWrite loc bs s).xl.dirty = s.xl.dirty := by
  unfold scrWrite
  dsimp only
  rw [logWrite_xl]
  exact dirty_foldl (fun u k => dirty_scrTame (loc / 128 * 128 + 128 * k) u) _ s

/-- A write to scratch leaves nothing to wait for at the host. -/
theorem dirty_scrPut (cl off : Nat) (bs : List Byte) (s : State) : (scrPut cl off bs s).xl.dirty = s.xl.dirty := by
  unfold scrPut
  split
  · rfl
  · exact (dirty_scrWrite _ _ _).trans (dirty_foldl (fun u l => dirty_noteWrite (l / 128) none u) _ s)

end Sys2Proof.Machine
end

