-- ==== Sys2Proof/Proofs/Gather.lean ====
section
/-!
SUPPORT. GSE (R211): what a turn does with an index, and the run of turns that an index takes.
-/
namespace Sys2Proof.Machine

@[simp] theorem endWaits_mm (w : Waiter) (s : State) : (endWaits w s).mm = s.mm := rfl

theorem doneHead_mm (cl qi : Nat) (s : State) : (doneHead cl qi s).mm = s.mm := by unfold doneHead; split <;> rfl

/-! ## An index that a GSE command is at -/

/-- The offset of the index that a GSE command is at. -/
def gIndexAt (m : SCmd) : Nat := fieldOf m.bytes 32 4 + m.unit * gIdx m.bytes
/-- The offset of its scratch row. -/
def gRowAt (m : SCmd) : Nat :=
  (gDst m.bytes).off + (if gMode m.bytes = 2 then m.unit / gGroup m.bytes else m.unit) * (gDst m.bytes).stride

/-- A GSE command is between two units, and what it touches in scratch is neither locked nor poisoned. -/
structure GseAt (cl : Nat) (m : SCmd) (s : State) : Prop where
  head : (streamQueue s cl 4).head? = some m
  active : m.Active
  between : m.mid = false
  mode : gMode m.bytes < 4
  freeIndex : runBusy s cl (gIndexAt m) (gIdx m.bytes) = false
  freeRow : runBusy s cl (gRowAt m) (gRow m.bytes) = false
  cleanIndex : runPoison s cl (gIndexAt m) (gIdx m.bytes) = none
  cleanRow : gMode m.bytes = 1 ∨ gMode m.bytes = 3 → runPoison s cl (gRowAt m) (gRow m.bytes) = none

/-- What a turn does with an index that names a table row: the row is fetched or its pages are asked for. -/
def gseRowTurn (cl k : Nat) (m : SCmd) (s : State) : State :=
  let bs := m.bytes
  let va := gVa bs (gIndex s cl bs m.unit)
  let dr := (gDst bs).off + m.unit * (gDst bs).stride
  let a := engAccess s cl 4 k
  match (if gMode bs = 0 ∨ gMode bs = 2 then (s, .ok ()) else pagesReady a va (gRow bs) s) with
  | (s, .wait) => s
  | (s, .fail e) => failCasting k e s
  | (s, .ok ()) =>
    if gMode bs = 1 then setHeadCmd cl 4 { m with mid := true, out := scrBytes s cl dr (gRow bs), outVa := va } s
    else
      match engReadAll a cl (gAge m) va (gRow bs) s with
      | (s, .wait) => s
      | (s, .fail e) => failCasting k e s
      | (s, .ok row) =>
        let s := endWaits (.engine cl 4) s
        if gMode bs = 0 ∨ gMode bs = 2 then gseGot cl m.unit row m s
        else
          let z := addRows row (scrBytes s cl dr (gRow bs))
          let s := engFlags cl 1 (resFlags z ||| flagIf (z.any (fun r => isNan32 r.code)) fInvalid) s
          setHeadCmd cl 4 { m with mid := true, out := packRow 4 (z.map (fun r => r.code)), outVa := va } s

/-- What a turn does with an index that names none. -/
def gseOutside (cl k : Nat) (m : SCmd) (s : State) : State :=
  if bit (fieldOf m.bytes 50 1) 0 then failCasting k (protEnd 0x1E (agQueue cl 4) (aperLoc cl (gIndexAt m))) s
  else if gMode m.bytes = 0 ∨ gMode m.bytes = 2 then gseGot cl m.unit (List.replicate (gRow m.bytes) 0) m (incSat s (engOob cl) 1)
  else gseNext cl m (incSat s (engOob cl) 1)

section
variable {cl k : Nat} {m : SCmd} {s : State} (ready : GseAt cl m s)
include ready

/-- R211: what a turn does with an index. -/
theorem gseIndex_eq : gseIndex cl k m s =
    if gIndex s cl m.bytes m.unit < 0 ∨ (fieldOf m.bytes 24 4 : Int) ≤ gIndex s cl m.bytes m.unit then gseOutside cl k m s
    else gseRowTurn cl k m s := by
  have rows : gRowAt m = if gMode m.bytes = 2 then (gDst m.bytes).off + m.unit / gGroup m.bytes * (gDst m.bytes).stride
      else (gDst m.bytes).off + m.unit * (gDst m.bytes).stride := by unfold gRowAt; split <;> rfl
  have freeRow := ready.freeRow
  rw [rows] at freeRow
  have poison : (if (decide (gMode m.bytes = 0 ∨ gMode m.bytes = 2)) = true then none
      else runPoison s cl ((gDst m.bytes).off + m.unit * (gDst m.bytes).stride) (gRow m.bytes)) = none := by
    split
    next => rfl
    next other =>
      rw [decide_eq_true_eq] at other
      have := ready.mode
      have clean := ready.cleanRow (by omega)
      rwa [rows, if_neg (by omega)] at clean
  unfold gseIndex gseOutside gseRowTurn
  dsimp only
  rw [ready.between, ← gIndexAt, ready.freeIndex, freeRow, ready.cleanIndex, poison, if_neg (by simp), if_neg (by simp)]
  simp only [decide_eq_true_eq]
  rfl

theorem gseIndex_inTable (within : InTable m (gIndex s cl m.bytes m.unit)) : gseIndex cl k m s = gseRowTurn cl k m s := by
  obtain ⟨low, high⟩ := within
  rw [gseIndex_eq ready, if_neg (by omega)]

theorem gseIndex_outside (out : ¬InTable m (gIndex s cl m.bytes m.unit)) : gseIndex cl k m s = gseOutside cl k m s := by
  unfold InTable at out
  rw [gseIndex_eq ready, if_pos (by omega)]

end

/-! ## The next unit -/

/-- A GSE command with a unit more behind it. -/
def gseAfter (m : SCmd) : SCmd := { m with unit := m.unit + 1, mid := false, done := decide (gCount m.bytes ≤ m.unit + 1) }

theorem gseNext_unit {cl : Nat} {m x : SCmd} {s : State} (head : (streamQueue s cl 4).head? = some x) (notDone : m.done = false) :
    HeadSet cl 4 (gseAfter m) s (gseNext cl m s) ∧ (gseNext cl m s).mm = s.mm := by
  have stepped := ((HeadSet.refl head).set { m with unit := m.unit + 1, mid := false }).stays (streamsStay_endWaits (.engine cl 4) _)
  unfold gseNext gseAfter
  dsimp only
  split
  next last =>
    rw [decide_eq_true last]
    exact ⟨stepped.doneHead, doneHead_mm _ _ _⟩
  next more =>
    have same : ({ m with unit := m.unit + 1, mid := false, done := false } : SCmd) = { m with unit := m.unit + 1, mid := false } :=
      congrArg (fun d => ({ m with unit := m.unit + 1, mid := false, done := d } : SCmd)) notDone.symm
    rw [decide_eq_false more, same]
    exact ⟨stepped, rfl⟩

/-- R211: a gathered row is put in scratch. -/
theorem gseGot_row {cl j : Nat} {row : List Byte} {m x : SCmd} {s : State} (mode : gMode m.bytes = 0)
    (head : (streamQueue s cl 4).head? = some x) (notDone : m.done = false) :
    HeadSet cl 4 (gseAfter m) s (gseGot cl j row m s) ∧
      scrBytes (gseGot cl j row m s) cl ((gDst m.bytes).off + j * (gDst m.bytes).stride) row.length = row := by
  have stay := streamsStay_scrPut cl ((gDst m.bytes).off + j * (gDst m.bytes).stride) row s
  obtain ⟨set, mm⟩ := gseNext_unit (cl := cl) (m := m) (HeadSet.of_stay head stay).head notDone
  unfold gseGot
  dsimp only
  rw [if_pos mode]
  refine ⟨(HeadSet.of_stay head stay).trans set, ?_⟩
  rw [scrBytes_of_mm mm, scrBytes_scrPut_same]

/-- The sum of a group so far, with a gathered row. -/
def gseSum (m : SCmd) (row : List Byte) : List Byte :=
  if m.unit % gGroup m.bytes = 0 then canonRow row else packRow 4 ((addRows m.out row).map (fun z => z.code))

/-- R211: a gathered row joins the sum of its group. -/
theorem gseGot_sum {cl : Nat} {row : List Byte} {m x : SCmd} {s : State} (mode : gMode m.bytes ≠ 0)
    (head : (streamQueue s cl 4).head? = some x) (notDone : m.done = false) :
    let t := gseGot cl m.unit row m s
    ∃ o, HeadSet cl 4 (gseAfter { m with out := o }) s t ∧
      ((m.unit + 1) % gGroup m.bytes = 0 →
        scrBytes t cl ((gDst m.bytes).off + m.unit / gGroup m.bytes * (gDst m.bytes).stride) (gseSum m row).length = gseSum m row) ∧
      ((m.unit + 1) % gGroup m.bytes ≠ 0 → t.mm = s.mm ∧ o = gseSum m row) := by
  have sum : (if m.unit % gGroup m.bytes = 0 then canonRow row
      else packRow 4 ((if m.unit % gGroup m.bytes = 0 then [] else addRows m.out row).map (fun z => z.code))) = gseSum m row := by
    unfold gseSum; split <;> rfl
  unfold gseGot
  dsimp only
  rw [if_neg mode, sum]
  generalize resFlags _ ||| _ = w
  have flagged := streamsStay_engFlags cl 1 w s
  split
  next full =>
    have stay := flagged.trans (streamsStay_scrPut cl ((gDst m.bytes).off + m.unit / gGroup m.bytes * (gDst m.bytes).stride) (gseSum m row) _)
    obtain ⟨set, mm⟩ := gseNext_unit (cl := cl) (m := { m with out := [] }) (HeadSet.of_stay head stay).head notDone
    exact ⟨[], (HeadSet.of_stay head stay).trans set, fun _ => by rw [scrBytes_of_mm mm, scrBytes_scrPut_same], fun h => absurd full h⟩
  next part =>
    obtain ⟨set, mm⟩ := gseNext_unit (cl := cl) (m := { m with out := gseSum m row }) (HeadSet.of_stay head flagged).head notDone
    exact ⟨_, (HeadSet.of_stay head flagged).trans set, fun h => absurd h part, fun _ => ⟨mm.trans (engFlags_mm _ _ _ _), rfl⟩⟩

/-! ## Turns of a SCATTER_ADD -/

theorem gseTurn_other {cl k : Nat} {m : SCmd} {s : State} (mode : gMode m.bytes ≠ 3) : gseTurn cl k m s = gseIndex cl k m s := by
  unfold gseTurn; rw [if_neg mode]

/-- R211: the races of a SCATTER_ADD: what the turns of one mark as their own. -/
theorem gseTurn_marked {cl k : Nat} {m : SCmd} {s : State} (mode : gMode m.bytes = 3)
    (goesOn : ∀ n, (streamQueue (gseIndex cl k m s) cl 4).head? = some n → n.done = false) :
    gseTurn cl k m s = markOwn (gseWho cl) s.race.writes.length (gseIndex cl k m s) := by
  unfold gseTurn
  dsimp only
  rw [if_pos mode]
  split
  next n xs queue =>
    have same : streamQueue (gseIndex cl k m s) cl 4 = n :: xs := queue
    rw [goesOn n (by rw [same]; rfl), if_neg (by simp)]
  next => rfl

theorem streamsStay_markOwn (who n : Nat) (s : State) : StreamsStay s (markOwn who n s) := .of_regs rfl rfl rfl rfl

theorem streamsStay_closeRace (s : State) : StreamsStay s (closeRace s) := by
  obtain ⟨r, e⟩ := closeRace_race s
  rw [e]
  exact .of_regs rfl rfl rfl rfl

theorem streamsStay_forgetTableRow (ws : List WriteRec) (a : Acc2) (cl age va n : Nat) (s : State) :
    StreamsStay s (forgetTableRow ws a cl age va n s) := by
  unfold forgetTableRow
  dsimp only
  split
  · refine StreamsStay.trans (.foldl (fun u p => ?_) _ s) (.of_regs rfl rfl rfl rfl)
    have stay := streamsStay_engWrite a cl age p.2.1 (((freeBytes u.free n).drop p.1).take p.2.2) u
    split
    next t heq => rw [heq] at stay; exact stay
    next => exact .refl u
  · exact .refl s

/-- R211: a SCATTER_ADD that settles its races leaves its command at the head of its queue. -/
theorem gseSettle_head {cl : Nat} {m : SCmd} {s : State} (head : (streamQueue s cl 4).head? = some m) :
    ∃ x, HeadSet cl 4 { m with seen := x } s (gseSettle cl m s) := by
  unfold gseSettle
  split
  next n k _ _ =>
    dsimp only
    have settled : StreamsStay s (if (racing s n (gseWho cl)).isEmpty then s
        else (List.range (gCount m.bytes)).foldl (fun u j =>
          if gIndex u cl m.bytes j < 0 ∨ (fieldOf m.bytes 24 4 : Int) ≤ gIndex u cl m.bytes j then u
          else forgetTableRow (racing s n (gseWho cl)) (engAccess u cl 4 k) cl (if bit (fieldOf m.bytes 50 1) 1 then 3 else 1)
            (gVa m.bytes (gIndex u cl m.bytes j)) (gRow m.bytes) u) s) := by
      split
      · exact .refl s
      · refine .foldl (fun u j => ?_) _ s
        split
        · exact .refl u
        · exact streamsStay_forgetTableRow _ _ _ _ _ _ u
    exact ⟨none, ((HeadSet.of_stay head settled).set _).stays (streamsStay_closeRace _)⟩
  next => exact ⟨m.seen, .refl head⟩

/-- A turn that ends an index ends it with its marks and races too. -/
theorem gseTurn_unitDone {cl k unit : Nat} {done : Bool} {m : SCmd} {b s : State} (ends : UnitDone cl 4 unit done b (gseIndex cl k m s)) :
    UnitDone cl 4 unit done b (gseTurn cl k m s) ∧ (gMode m.bytes ≠ 3 ∨ done = false → (gseTurn cl k m s).mm = (gseIndex cl k m s).mm) := by
  by_cases mode : gMode m.bytes = 3
  · obtain ⟨n, set, on, unit, isDone⟩ := ends
    cases done with
    | false =>
      rw [gseTurn_marked mode (fun x hx => by rw [set.head] at hx; cases hx; exact isDone)]
      exact ⟨⟨n, set.stays (streamsStay_markOwn _ _ _), on, unit, isDone⟩, fun _ => rfl⟩
    | true =>
      have marked := set.stays (streamsStay_markOwn (gseWho cl) s.race.writes.length _)
      obtain ⟨x, settled⟩ := gseSettle_head marked.head
      have turn : gseTurn cl k m s = gseSettle cl n (markOwn (gseWho cl) s.race.writes.length (gseIndex cl k m s)) := by
        unfold gseTurn
        dsimp only
        rw [if_pos mode, marked.queue]
        dsimp only
        rw [isDone, if_pos rfl]
      rw [turn]
      exact ⟨⟨_, marked.trans settled, on, unit, isDone⟩, fun h => absurd mode (h.resolve_right (by simp))⟩
  · rw [gseTurn_other mode]
    exact ⟨ends, fun _ => rfl⟩

/-! ## The start -/

theorem gseOpen_other {cl : Nat} {m : SCmd} {s : State} (mode : gMode m.bytes ≠ 3) : gseOpen cl m s = s := by
  unfold gseOpen; rw [if_neg fun h => mode h.1]

/-- R211: a SCATTER_ADD that begins to note writes changes its command and the notes alone. -/
theorem gseOpen_head {cl : Nat} {m : SCmd} {s : State} (head : (streamQueue s cl 4).head? = some m) :
    (∃ x, HeadSet cl 4 { m with seen := x } s (gseOpen cl m s)) ∧ ∃ c r, gseOpen cl m s = { s with clusters := c, race := r } := by
  unfold gseOpen
  split
  · obtain ⟨r, e⟩ := openRace_race s
    have noted : StreamsStay s (openRace s).1 := by rw [e]; exact .of_regs rfl rfl rfl rfl
    refine ⟨⟨_, (HeadSet.of_stay head noted).set _⟩, ?_⟩
    dsimp only
    rw [e]
    exact ⟨_, r, rfl⟩
  · exact ⟨⟨m.seen, .refl head⟩, s.clusters, s.race, rfl⟩

/-- A GSE command as its turns find it. -/
structure GseOpened (cl k : Nat) (m m0 m1 : SCmd) (s t : State) : Prop where
  work : Working cl 4 m m0 s (atWork cl 4 k m s)
  state : t = gseOpen cl m0 (atWork cl 4 k m s)
  command : ∃ f x, m1 = { m with started := true, startFret := f, seen := x }
  set : HeadSet cl 4 m1 s t
  ready : GseAt cl m1 t
  mm : t.mm = s.mm
  sch : t.sch = s.sch
  other : gMode m.bytes ≠ 3 → t = atWork cl 4 k m s ∧ m1 = m0
  run : exec (.gse cl) s = .next (runUnit cl 4 (gseTurn cl k) 2 t)

theorem GseReady.opened {cl k : Nat} {m : SCmd} {s : State} (ready : GseReady cl k m s) : ∃ m0 m1 t, GseOpened cl k m m0 m1 s t := by
  obtain ⟨heads, ok, -, between, mode, freeIndex, freeRow, cleanIndex, cleanRow⟩ := ready
  obtain ⟨m0, work⟩ := working_atWork heads
  obtain ⟨f, rfl⟩ := work.command
  have run : exec (.gse cl) s = .next (runUnit cl 4 (gseTurn cl k) 2 (gseOpen cl (inWork f m) (atWork cl 4 k m s))) :=
    (whenOn_powered_next heads.1 _).trans (by rw [streamStep_works heads work ok])
  obtain ⟨⟨x, set⟩, c, r, changes⟩ := gseOpen_head (cl := cl) work.head
  obtain ⟨c', r', q', w', started⟩ := work.rest
  have busy : ∀ off n, runBusy (gseOpen cl (inWork f m) (atWork cl 4 k m s)) cl off n = runBusy s cl off n := fun off n => by
    rw [changes, started]; rfl
  have mm : (gseOpen cl (inWork f m) (atWork cl 4 k m s)).mm = s.mm := by rw [changes, started]
  have poison : ∀ off n, runPoison (gseOpen cl (inWork f m) (atWork cl 4 k m s)) cl off n = runPoison s cl off n := fun off n => by
    rw [changes, started]; rfl
  refine ⟨inWork f m, { inWork f m with seen := x }, _, {
    work := work, state := rfl, command := ⟨f, x, rfl⟩, set := (HeadSet.of_working work).trans set, mm := mm, run := run
    sch := by rw [changes, started]
    ready := ⟨set.head, active_inWork heads f, between, mode, (busy _ _).trans freeIndex, (busy _ _).trans freeRow, (poison _ _).trans cleanIndex,
      fun h => (poison _ _).trans (cleanRow h)⟩
    other := fun other => ?_ }⟩
  have same := gseOpen_other (cl := cl) (m := inWork f m) (s := atWork cl 4 k m s) other
  rw [same] at set ⊢
  have head := set.head
  rw [work.head] at head
  exact ⟨rfl, (Option.some.inj head).symm⟩

/-- An index that ends with a turn. -/
theorem GseOpened.ends {cl k : Nat} {m m0 m1 : SCmd} {b s t : State} {done : Bool} (o : GseOpened cl k m m0 m1 s t)
    (turn : UnitDone cl 4 (m.unit + 1) done b (gseIndex cl k m1 t)) :
    exec (.gse cl) s = .next (gseTurn cl k m1 t) ∧ UnitDone cl 4 (m.unit + 1) done b (gseTurn cl k m1 t) := by
  obtain ⟨f, x, command⟩ := o.command
  have unit : m1.unit = m.unit := by rw [command]
  obtain ⟨ends, -⟩ := gseTurn_unitDone turn
  exact ⟨by rw [o.run, runUnit_unitDone o.ready.head o.ready.active (unit ▸ ends)], ends⟩

/-- An index of another mode than SCATTER_ADD that ends with a turn. -/
theorem GseOpened.ends_other {cl k : Nat} {m m0 m1 : SCmd} {b s t : State} {done : Bool} (o : GseOpened cl k m m0 m1 s t)
    (mode : gMode m.bytes ≠ 3) (turn : UnitDone cl 4 (m.unit + 1) done b (gseIndex cl k m1 t)) :
    exec (.gse cl) s = .next (gseIndex cl k m1 t) := by
  obtain ⟨f, x, command⟩ := o.command
  rw [(o.ends turn).1, gseTurn_other (by rw [command]; exact mode)]

end Sys2Proof.Machine
end

