-- ==== Sys2Proof/Proofs/Scatter.lean ====
section
/-!
CERTIFICATE. GSE (O45, R211): an index moves its row, joins its group's sum, or counts as out of range.
-/
namespace Sys2Proof.Machine

section
variable {cl k : Nat} {m m0 m1 : SCmd} {s t : State} (o : GseOpened cl k m m0 m1 s t)
include o

theorem GseOpened.index : gIndex t cl m1.bytes m1.unit = gIndex s cl m.bytes m.unit := by
  obtain ⟨f, x, rfl⟩ := o.command
  unfold gIndex scrNat
  rw [scrBytes_of_mm o.mm]

theorem GseOpened.outside (outside : ¬InTable m (gIndex s cl m.bytes m.unit)) : gseIndex cl k m1 t = gseOutside cl k m1 t := by
  refine gseIndex_outside o.ready ?_
  rw [o.index]
  obtain ⟨f, x, rfl⟩ := o.command
  exact outside

/-- The head after a row has been read. -/
theorem GseOpened.head_read {row : List Byte} {va n : Nat} {a : Acc2} {age : Nat} {s1 : State}
    (read : engReadAll a cl age va n (atWork cl 4 k m s) = (s1, .ok row)) :
    (streamQueue (endWaits (.engine cl 4) s1) cl 4).head? = some m0 := by
  have stay := streamsStay_engReadAll a cl age va n (atWork cl 4 k m s)
  rw [read] at stay
  exact (HeadSet.of_stay o.work.head (stay.trans (streamsStay_endWaits (.engine cl 4) s1))).head

/-- R211: the turn that computes a row to be scattered. -/
theorem GseOpened.computes (within : InTable m (gIndex s cl m.bytes m.unit)) {m2 : SCmd} {s1 : State} (row : RowComputed cl k m1 m2 t s1) :
    gseTurn cl k m1 t = s1 ∧ HeadSet cl 4 m2 s s1 ∧ ∃ out va, m2 = { m1 with mid := true, out := out, outVa := va } := by
  have inTable : gseIndex cl k m1 t = gseRowTurn cl k m1 t := by
    refine gseIndex_inTable o.ready ?_
    rw [o.index]
    obtain ⟨f, x, rfl⟩ := o.command
    exact within
  obtain ⟨s2, pages, row⟩ := row
  have stay := streamsStay_pagesReady (engAccess t cl 4 k) (gVa m1.bytes (gIndex t cl m1.bytes m1.unit)) (gRow m1.bytes) t
  rw [pages] at stay
  rcases row with ⟨mode, rfl, rfl⟩ | ⟨mode, s3, got, read, command, state⟩
  · refine ⟨?_, (o.set.stays stay).set _, _, _, rfl⟩
    rw [gseTurn_other (by omega), inTable, gseRowTurn]
    dsimp only
    rw [if_neg (by omega), pages]
    dsimp only
    rw [if_pos mode]
  · have stay' := streamsStay_engReadAll (engAccess t cl 4 k) cl (gAge m1) (gVa m1.bytes (gIndex t cl m1.bytes m1.unit)) (gRow m1.bytes) s2
    rw [read] at stay'
    obtain ⟨w, index, marked⟩ : ∃ w, gseIndex cl k m1 t = setHeadCmd cl 4 m2 (engFlags cl 1 w (endWaits (.engine cl 4) s3)) ∧
        s1 = markOwn (gseWho cl) t.race.writes.length (setHeadCmd cl 4 m2 (engFlags cl 1 w (endWaits (.engine cl 4) s3))) := by
      refine ⟨_, ?_, state⟩
      rw [inTable, gseRowTurn]
      dsimp only
      rw [if_neg (by omega), pages]
      dsimp only
      rw [if_neg (by omega), read]
      dsimp only
      rw [if_neg (by omega), ← command]
    have set := (o.set.stays (((stay.trans stay').trans (streamsStay_endWaits (.engine cl 4) s3)).trans (streamsStay_engFlags cl 1 w _))).set m2
    have notDone : m2.done = false := by rw [command]; exact o.ready.active.2.1
    rw [gseTurn_marked mode (fun n hn => by rw [index, set.head] at hn; cases hn; exact notDone), index, marked]
    exact ⟨rfl, set.stays (streamsStay_markOwn _ _ _), _, _, command⟩

/-- R211: the row that a GATHER or GATHER_SUM has read. -/
theorem GseOpened.gathers (within : InTable m (gIndex s cl m.bytes m.unit)) (gather : gMode m.bytes = 0 ∨ gMode m.bytes = 2) {row : List Byte}
    {s1 : State} (read : engReadAll (engAccess (atWork cl 4 k m s) cl 4 k) cl (gAge m) (gVa m.bytes (gIndex s cl m.bytes m.unit)) (gRow m.bytes)
      (atWork cl 4 k m s) = (s1, .ok row)) :
    gseIndex cl k m1 t = gseGot cl m.unit row m1 (endWaits (.engine cl 4) s1) := by
  obtain ⟨same, -⟩ := o.other (by omega)
  have index := o.index
  obtain ⟨f, x, rfl⟩ := o.command
  have row' : engReadAll (engAccess t cl 4 k) cl (gAge m) (gVa m.bytes (gIndex t cl m.bytes m.unit)) (gRow m.bytes) t = (s1, .ok row) := by
    rw [show gIndex t cl m.bytes m.unit = gIndex s cl m.bytes m.unit from index, same]; exact read
  rw [gseIndex_inTable o.ready (by rw [index]; exact within), gseRowTurn]
  dsimp only
  rw [if_pos gather]
  dsimp only
  rw [if_neg (by omega)]
  have age : ∀ f x, gAge { m with started := true, startFret := f, seen := x } = gAge m := fun _ _ => rfl
  rw [age, row']
  dsimp only
  rw [if_pos gather]

end

/-- R205: a row whose bytes have gone out. -/
theorem gseIndex_sends {cl k : Nat} {m m' : SCmd} {s t : State} (within : m.mid = true)
    (out : flushOut cl 4 (gAge m) (engAccess s cl 4 k) (gRow m.bytes / 128 + 2) m s = (t, .ok m')) : gseIndex cl k m s = gseNext cl m' t := by
  unfold gAge at out
  unfold gseIndex
  dsimp only
  rw [if_pos within, out]

/-- The turn in which a row goes out ends its index. -/
theorem gseTurn_sends {cl k : Nat} {m m' : SCmd} {s t : State} (within : m.mid = true) (head : (streamQueue s cl 4).head? = some m)
    (active : m.Active) (out : flushOut cl 4 (gAge m) (engAccess s cl 4 k) (gRow m.bytes / 128 + 2) m s = (t, .ok m')) :
    UnitDone cl 4 (m.unit + 1) (decide (gCount m.bytes ≤ m.unit + 1)) s (gseTurn cl k m s) ∧
      (gMode m.bytes ≠ 3 ∨ decide (gCount m.bytes ≤ m.unit + 1) = false → (gseTurn cl k m s).mm = t.mm) := by
  obtain ⟨on, notDone, -⟩ := active
  obtain ⟨sent, o, va, rfl⟩ := flushOut_ok head out
  obtain ⟨next, mm⟩ := gseNext_unit (m := { m with out := o, outVa := va }) sent.head notDone
  rw [← gseIndex_sends within out] at next mm
  obtain ⟨ends, kept⟩ := gseTurn_unitDone (unit := m.unit + 1) (done := decide (gCount m.bytes ≤ m.unit + 1))
    ⟨_, sent.trans next, on, rfl, rfl⟩
  exact ⟨ends, fun h => (kept h).trans mm⟩

/-- R211: with FAULT, an index out of range ends the casting, and moves no head on. -/
theorem gseTurn_fails {cl k : Nat} {m : SCmd} {e : Ending} {s : State} (turn : gseIndex cl k m s = failCasting k e s)
    (head : (streamQueue s cl 4).head? = some m) (active : m.Active) :
    (∀ x, (streamQueue (gseTurn cl k m s) cl 4).head? = some x → x = m) ∧ castingOf (gseTurn cl k m s) k = castingOf (failCasting k e s) k := by
  have gone := fun x => head_failCasting (k := k) (e := e) (x := x) head
  by_cases mode : gMode m.bytes = 3
  · rw [gseTurn_marked mode (fun n hn => by rw [turn] at hn; rw [gone n hn]; exact active.2.1), turn]
    exact ⟨gone, rfl⟩
  · rw [gseTurn_other mode, turn]
    exact ⟨gone, rfl⟩

/-- R211: an index out of range counts, and acts as a row of zeros. -/
theorem gseOutside_counts {cl k : Nat} {m : SCmd} {s : State} (counts : bit (fieldOf m.bytes 50 1) 0 = false)
    (head : (streamQueue s cl 4).head? = some m) (active : m.Active) :
    UnitDone cl 4 (m.unit + 1) (decide (gCount m.bytes ≤ m.unit + 1)) (incSat s (engOob cl) 1) (gseOutside cl k m s) ∧
      (gMode m.bytes = 0 → scrBytes (gseOutside cl k m s) cl ((gDst m.bytes).off + m.unit * (gDst m.bytes).stride) (gRow m.bytes) =
        List.replicate (gRow m.bytes) 0) := by
  obtain ⟨on, notDone, -⟩ := active
  have head' : (streamQueue (incSat s (engOob cl) 1) cl 4).head? = some m := head
  rw [gseOutside, if_neg (by simp [counts])]
  generalize incSat s (engOob cl) 1 = u at head' ⊢
  split
  next gather =>
    by_cases mode : gMode m.bytes = 0
    · obtain ⟨set, row⟩ := gseGot_row (j := m.unit) (row := List.replicate (gRow m.bytes) 0) mode head' notDone
      rw [List.length_replicate] at row
      exact ⟨⟨_, set, on, rfl, rfl⟩, fun _ => row⟩
    · obtain ⟨out, set, -⟩ := gseGot_sum (row := List.replicate (gRow m.bytes) 0) mode head' notDone
      exact ⟨⟨_, set, on, rfl, rfl⟩, fun h => absurd h mode⟩
  next scatter =>
    exact ⟨⟨_, (gseNext_unit head' notDone).1, on, rfl, rfl⟩, fun h => absurd (.inl h) scatter⟩

section
variable {cl k : Nat} {m : SCmd} {s : State} (ready : GseReady cl k m s)
include ready

/-- R211: GATHER puts the table row that its index names in scratch. -/
theorem gse_gathers (within : InTable m (gIndex s cl m.bytes m.unit)) (mode : gMode m.bytes = 0) {row : List Byte} {s1 : State}
    (read : engReadAll (engAccess (atWork cl 4 k m s) cl 4 k) cl (gAge m) (gVa m.bytes (gIndex s cl m.bytes m.unit)) (gRow m.bytes)
      (atWork cl 4 k m s) = (s1, .ok row)) :
    Next (.gse cl) s (fun t => HeadAt cl 4 (m.unit + 1) (decide (gCount m.bytes ≤ m.unit + 1)) t ∧
      scrBytes t cl ((gDst m.bytes).off + m.unit * (gDst m.bytes).stride) row.length = row) := by
  obtain ⟨m0, m1, t, o⟩ := ready.opened
  have got := o.gathers within (.inl mode) read
  have head := o.head_read read
  obtain ⟨f, x, rfl⟩ := o.command
  obtain ⟨set, row'⟩ := gseGot_row (cl := cl) (j := m.unit) (row := row) (m := { m with started := true, startFret := f, seen := x }) mode head
    o.ready.active.2.1
  have ends : UnitDone cl 4 (m.unit + 1) (decide (gCount m.bytes ≤ m.unit + 1)) _ (gseIndex cl k _ t) := ⟨_, got ▸ set, rfl, rfl, rfl⟩
  refine ⟨_, o.ends_other (by omega) ends, ends.headAt, ?_⟩
  rw [got]
  exact row'

/-- R211: GATHER_SUM adds the table row that its index names to its group's sum. -/
theorem gse_sums (within : InTable m (gIndex s cl m.bytes m.unit)) (mode : gMode m.bytes = 2) {row : List Byte} {s1 : State}
    (read : engReadAll (engAccess (atWork cl 4 k m s) cl 4 k) cl (gAge m) (gVa m.bytes (gIndex s cl m.bytes m.unit)) (gRow m.bytes)
      (atWork cl 4 k m s) = (s1, .ok row)) :
    Next (.gse cl) s (fun t => HeadAt cl 4 (m.unit + 1) (decide (gCount m.bytes ≤ m.unit + 1)) t ∧
      ((m.unit + 1) % gGroup m.bytes = 0 →
        scrBytes t cl ((gDst m.bytes).off + m.unit / gGroup m.bytes * (gDst m.bytes).stride) (gseSum m row).length = gseSum m row) ∧
      ((m.unit + 1) % gGroup m.bytes ≠ 0 → t.mm = s1.mm ∧ ∃ m', (streamQueue t cl 4).head? = some m' ∧ m'.out = gseSum m row)) := by
  obtain ⟨m0, m1, t, o⟩ := ready.opened
  have got := o.gathers within (.inr mode) read
  have head := o.head_read read
  obtain ⟨f, x, rfl⟩ := o.command
  obtain ⟨out, set, full, part⟩ := gseGot_sum (cl := cl) (row := row) (m := { m with started := true, startFret := f, seen := x }) (by simp [mode])
    head o.ready.active.2.1
  have ends : UnitDone cl 4 (m.unit + 1) (decide (gCount m.bytes ≤ m.unit + 1)) _ (gseIndex cl k _ t) := ⟨_, got ▸ set, rfl, rfl, rfl⟩
  refine ⟨_, o.ends_other (by omega) ends, ends.headAt, ?_⟩
  rw [got]
  exact ⟨full, fun more => ⟨(part more).1, _, set.head, (part more).2⟩⟩

/-- R205, R211: the row of a SCATTER or SCATTER_ADD goes out to the table. -/
theorem gse_scatters (within : InTable m (gIndex s cl m.bytes m.unit)) {m0 m1 m2 : SCmd} {s1 s2 : State}
    (head : (streamQueue (atWork cl 4 k m s) cl 4).head? = some m0)
    (row : RowComputed cl k (((streamQueue (gseOpen cl m0 (atWork cl 4 k m s)) cl 4).head?).getD m0) m1 (gseOpen cl m0 (atWork cl 4 k m s)) s1)
    (out : flushOut cl 4 (gAge m) (engAccess s1 cl 4 k) (gRow m.bytes / 128 + 2) m1 s1 = (s2, .ok m2)) :
    Next (.gse cl) s (fun t => HeadAt cl 4 (m.unit + 1) (decide (gCount m.bytes ≤ m.unit + 1)) t ∧
      (gMode m.bytes = 1 ∨ decide (gCount m.bytes ≤ m.unit + 1) = false → t.mm = s2.mm)) := by
  obtain ⟨m0', mo, t, o⟩ := ready.opened
  obtain rfl : m0' = m0 := Option.some.inj (o.work.head.symm.trans head)
  rw [← o.state, o.set.head, Option.getD_some] at row
  obtain ⟨turn, set, r, va, computed⟩ := o.computes within row
  obtain ⟨f, x, command⟩ := o.command
  have unit : m1.unit = mo.unit := by rw [computed]
  have unit' : m1.unit = m.unit := by rw [unit, command]
  have bytes : m1.bytes = m.bytes := by rw [computed, command]
  have within' : m1.mid = true := by rw [computed]
  have active : m1.Active := by rw [computed]; exact o.ready.active
  have goesOn : runUnit cl 4 (gseTurn cl k) 2 t = runUnit cl 4 (gseTurn cl k) 1 s1 := by
    rw [runUnit_goesOn o.ready.head o.ready.active (by rw [turn]; exact set.head) active (fun same => ?_) unit, turn]
    rw [same, o.ready.between] at within'
    cases within'
  have out' : flushOut cl 4 (gAge m1) (engAccess s1 cl 4 k) (gRow m1.bytes / 128 + 2) m1 s1 = (s2, .ok m2) := by
    unfold gAge at out ⊢
    rw [bytes]
    exact out
  obtain ⟨ends, mm⟩ := gseTurn_sends within' set.head active out'
  have stops := runUnit_unitDone (n := 0) set.head active ends
  rw [unit', bytes] at ends
  rw [unit', bytes] at mm
  exact ⟨_, o.run.trans (congrArg Host.Outcome.next (goesOn.trans stops)), ends.headAt, fun h => mm (h.imp (fun one => by simp [one]) id)⟩

/-- R211: an index out of range counts, and acts as a row of zeros. -/
theorem gse_countsOutside (outside : ¬InTable m (gIndex s cl m.bytes m.unit)) (counts : bit (fieldOf m.bytes 50 1) 0 = false) :
    Next (.gse cl) s (fun t => HeadAt cl 4 (m.unit + 1) (decide (gCount m.bytes ≤ m.unit + 1)) t ∧
      getF t (engOob cl) = min (getF s (engOob cl) + 1) (2 ^ (engOob cl).len - 1) % 2 ^ (engOob cl).len ∧
      (gMode m.bytes = 0 →
        scrBytes t cl ((gDst m.bytes).off + m.unit * (gDst m.bytes).stride) (gRow m.bytes) = List.replicate (gRow m.bytes) 0)) := by
  obtain ⟨m0, m1, t, o⟩ := ready.opened
  have counted : getF (incSat t (engOob cl) 1) (engOob cl) = min (getF s (engOob cl) + 1) (2 ^ (engOob cl).len - 1) % 2 ^ (engOob cl).len := by
    rw [incSat_eq, getF_setF_self, o.set.oob]
  obtain ⟨f, x, command⟩ := o.command
  have unit : m1.unit = m.unit := by rw [command]
  have bytes : m1.bytes = m.bytes := by rw [command]
  obtain ⟨turned, zeros⟩ := gseOutside_counts (k := k) (by rw [bytes]; exact counts) o.ready.head o.ready.active
  rw [← o.outside outside, unit, bytes] at turned zeros
  obtain ⟨run, ends⟩ := o.ends turned
  refine ⟨_, run, ends.headAt, ?_, fun mode => ?_⟩
  · obtain ⟨n, set, -⟩ := ends
    rw [set.oob, counted]
  · rw [gseTurn_other (by rw [bytes, mode]; decide)]
    exact zeros mode

/-- R211: with FAULT, an index out of range ends the casting. -/
theorem gse_faultsOutside (outside : ¬InTable m (gIndex s cl m.bytes m.unit)) (faults : bit (fieldOf m.bytes 50 1) 0 = true) :
    Next (.gse cl) s (fun t => (castingOf t k).ending =
      some (protEnd 0x1E (agQueue cl 4) (aperLoc cl (fieldOf m.bytes 32 4 + m.unit * gIdx m.bytes)))) := by
  have up : controlUp s cl = some k := ready.1.2.1
  obtain ⟨m0, m1, t, o⟩ := ready.opened
  have turn := o.outside outside
  obtain ⟨f, x, command⟩ := o.command
  have bytes : m1.bytes = m.bytes := by rw [command]
  have place : gIndexAt m1 = fieldOf m.bytes 32 4 + m.unit * gIdx m.bytes := by rw [gIndexAt, command]
  rw [gseOutside, if_pos (by rw [bytes]; exact faults), place] at turn
  obtain ⟨still, casting⟩ := gseTurn_fails turn o.ready.head o.ready.active
  refine ⟨_, o.run.trans (congrArg Host.Outcome.next (runUnit_ends o.ready.head o.ready.active fun x hx => .inl (still x hx))),
    (congrArg Casting.ending casting).trans ?_⟩
  exact ending_failCasting up (by rw [castingOf, o.sch]; rfl)

end

end Sys2Proof.Machine
end

