-- ==== Sys2Proof/Proofs/Reduce.lean ====
section
/-!
SUPPORT. REDUCE (R212, R213): a turn that passes a wait, that folds a unit, and that writes it; the run of turns that a unit takes.
-/
namespace Sys2Proof.Machine

/-! ## What the operands and the flush leave -/

theorem streamsStay_rOperand (a : Acc2) (cl : Nat) (global : Bool) (addr n : Nat) (s : State) :
    StreamsStay s (rOperand a cl global addr n s).1 := by
  unfold rOperand
  split
  · exact streamsStay_engReadAll _ _ _ _ _ s
  · split
    · exact .refl s
    · split <;> exact .refl s

theorem streamsStay_rOperands (a : Acc2) (cl : Nat) (bs : List Byte) (u n : Nat) (s : State) : StreamsStay s (rOperands a cl bs u n s).1 := by
  unfold rOperands
  refine List.foldlRecOn _ _ (motive := fun r : State × Got (List (List Byte)) => StreamsStay s r.1) (.refl s) fun r hr i _ => ?_
  obtain ⟨t, x⟩ := r
  cases x with
  | ok xs =>
    dsimp only at hr ⊢
    have stay := streamsStay_rOperand a cl (eGlobal (rEntry t cl bs i)) (fieldOf (rEntry t cl bs i) 0 8 + u * codeBytes (rCode bs))
      (n * codeBytes (rCode bs)) t
    split
    next heq => rw [heq] at stay; exact hr.trans stay
    next heq => rw [heq] at stay; exact hr.trans stay
    next heq => rw [heq] at stay; exact hr.trans stay
  | wait => exact hr
  | fail e => exact hr

theorem hostFlush_mm (w : Waiter) (s : State) : (hostFlush w s).1.mm = s.mm := by
  unfold hostFlush
  dsimp only
  split
  · rfl
  · split
    · rfl
    · split
      · rfl
      · split
        · rfl
        · split <;> rfl

/-! ## The waits of the list (R213) -/

/-- A wait of a REDUCE's list that its semaphore meets. -/
def WaitMet (s : State) (cl : Nat) (bs : List Byte) (i : Nat) : Prop :=
  bit (fieldOf (rEntry s cl bs i) 8 2) 15 = true →
    fieldOf (rEntry s cl bs i) 12 4 ≤ semaOf s (fieldOf (rEntry s cl bs i) 8 2 % 2 ^ 14)

theorem rEntry_of_mm {s t : State} (h : t.mm = s.mm) (cl : Nat) (bs : List Byte) (i : Nat) : rEntry t cl bs i = rEntry s cl bs i :=
  scrBytes_of_mm h _ _ _

theorem waitMet_of_mm {s t : State} (h : t.mm = s.mm) {cl : Nat} {bs : List Byte} {i : Nat} : WaitMet t cl bs i ↔ WaitMet s cl bs i := by
  have sema : ∀ j, semaOf t j = semaOf s j := fun j => by unfold semaOf; rw [h]
  rw [WaitMet, WaitMet, rEntry_of_mm h, sema]

theorem runPoison_of_mm {s t : State} (h : t.mm = s.mm) (cl off n : Nat) : runPoison t cl off n = runPoison s cl off n := by
  have same : poisoned t = poisoned s := funext fun l => by unfold poisoned; rw [h]
  unfold runPoison
  rw [same]

section
variable {cl k : Nat} {m : SCmd} {s : State}

/-- The list of a REDUCE is not poisoned, and none of its unit has been written. -/
structure ReduceAt (cl : Nat) (m : SCmd) (s : State) : Prop where
  head : (streamQueue s cl 5).head? = some m
  active : m.Active
  between : m.mid = false
  clean : runPoison s cl (rList m.bytes).off (rList m.bytes).bytes = none

theorem reduceTurn_waits (at' : ReduceAt cl m s) (more : m.placed < rCount m.bytes) : reduceTurn cl k m s =
    if bit (fieldOf (rEntry s cl m.bytes m.placed) 8 2) 15 = true ∧
      semaOf s (fieldOf (rEntry s cl m.bytes m.placed) 8 2 % 2 ^ 14) < fieldOf (rEntry s cl m.bytes m.placed) 12 4 then s
    else setHeadCmd cl 5 { m with placed := m.placed + 1 } s := by
  unfold reduceTurn
  dsimp only
  rw [at'.between, if_neg (by simp), at'.clean, if_neg (by simp), if_pos more]

theorem reduceTurn_passes (at' : ReduceAt cl m s) (more : m.placed < rCount m.bytes) (met : WaitMet s cl m.bytes m.placed) :
    reduceTurn cl k m s = setHeadCmd cl 5 { m with placed := m.placed + 1 } s := by
  rw [reduceTurn_waits at' more, if_neg]
  rintro ⟨waits, below⟩
  exact absurd (met waits) (Nat.not_le.mpr below)

end

/-- What is left when waits have been passed. -/
structure Passed (cl n : Nat) (m : SCmd) (s : State) (p : SCmd × State) : Prop where
  command : p.1 = { m with placed := m.placed + n }
  set : HeadSet cl 5 p.1 s p.2
  state : ∃ c, p.2 = { s with clusters := c }

/-- R213: the waits of a list are passed one by one. -/
theorem runUnit_passes {cl k n r : Nat} {m : SCmd} {s : State} (at' : ReduceAt cl m s) (room : n ≤ rCount m.bytes - m.placed)
    (met : ∀ i, m.placed ≤ i → i < rCount m.bytes → WaitMet s cl m.bytes i) :
    runUnit cl 5 (reduceTurn cl k) (n + r) s = runUnit cl 5 (reduceTurn cl k) r (passWaits cl n (m, s)).2 ∧
      Passed cl n m s (passWaits cl n (m, s)) := by
  induction n generalizing m s with
  | zero => exact ⟨by rw [Nat.zero_add]; rfl, rfl, .refl at'.head, s.clusters, rfl⟩
  | succ n ih =>
    have turn := reduceTurn_passes (k := k) at' (by omega) (met m.placed (Nat.le_refl _) (by omega))
    have set := HeadSet.of_set at'.head { m with placed := m.placed + 1 }
    obtain ⟨run, passed⟩ := ih (m := { m with placed := m.placed + 1 }) (s := setHeadCmd cl 5 { m with placed := m.placed + 1 } s)
      ⟨set.head, at'.active, at'.between, at'.clean⟩ (by dsimp only; omega)
      (fun i low high => (waitMet_of_mm rfl).mpr (met i (by dsimp only at low; omega) high))
    have other : ({ m with placed := m.placed + 1 } : SCmd) ≠ m := fun same => by
      have := congrArg SCmd.placed same
      dsimp only at this
      omega
    refine ⟨?_, ?_, set.trans passed.set, ?_⟩
    · have step := runUnit_goesOn (n := n + r) (turn := reduceTurn cl k) (x := { m with placed := m.placed + 1 }) at'.head at'.active
        (by rw [turn]; exact set.head) at'.active other rfl
      rw [Nat.add_right_comm, step, turn, run]
      rfl
    · rw [show m.placed + (n + 1) = m.placed + 1 + n by omega]
      exact passed.command
    · obtain ⟨c, e⟩ := passed.state
      exact ⟨c, e⟩

/-! ## The next unit -/

/-- A REDUCE with a unit more behind it. -/
def reduceAfter (m : SCmd) : SCmd :=
  { m with unit := m.unit + 1, mid := false, placed := 0, out := [], done := decide (rdLen m.bytes ≤ (m.unit + 1) * rUnit m.bytes) }

/-- R213: what the signal of a REDUCE adds. -/
def reduceSema (m : SCmd) (s : State) (i : Nat) : Nat :=
  if rdLen m.bytes ≤ (m.unit + 1) * rUnit m.bytes ∧ bit (fieldOf m.bytes 30 2) 15 = true ∧ i = fieldOf m.bytes 30 2 % 2 ^ 14
  then (semaOf s i + fieldOf m.bytes 40 4) % 2 ^ 32 else semaOf s i

theorem reduceSema_last {m : SCmd} (last : rdLen m.bytes ≤ (m.unit + 1) * rUnit m.bytes) (s : State) (i : Nat) : reduceSema m s i =
    if bit (fieldOf m.bytes 30 2) 15 = true ∧ i = fieldOf m.bytes 30 2 % 2 ^ 14 then (semaOf s i + fieldOf m.bytes 40 4) % 2 ^ 32
    else semaOf s i := by
  simp only [reduceSema, last, true_and]

theorem rSignal_sema (bs : List Byte) (o v : Nat) (s : State) (i : Nat) : semaOf (rSignal bs o v s) i =
    if bit (fieldOf bs o 2) 15 = true ∧ i = fieldOf bs o 2 % 2 ^ 14 then (semaOf s i + fieldOf bs v 4) % 2 ^ 32 else semaOf s i := by
  unfold rSignal
  by_cases signals : bit (fieldOf bs o 2) 15 = true
  · rw [if_pos signals]
    by_cases same : i = fieldOf bs o 2 % 2 ^ 14
    · rw [if_pos ⟨signals, same⟩, same, semaOf_semaAdd]
    · rw [if_neg (fun h => same h.2), semaOf_semaAdd_ne same]
  · rw [if_neg signals, if_neg (fun h => signals h.1)]

/-- Memory is as it was, but for the semaphores. -/
def SemaOnly (s t : State) : Prop := ∃ x, t.mm = { s.mm with sema := x }

theorem semaOnly_rSignal (bs : List Byte) (o v : Nat) (s : State) : SemaOnly s (rSignal bs o v s) := by
  unfold rSignal
  split
  · exact ⟨_, rfl⟩
  · exact ⟨s.mm.sema, rfl⟩

theorem rSignal_queue (bs : List Byte) (o v : Nat) (s : State) (cl q : Nat) : streamQueue (rSignal bs o v s) cl q = streamQueue s cl q := by
  unfold rSignal
  split <;> rfl

/-- R213: a unit that has been written, and the signal behind the last one. -/
theorem reduceNext_unit {cl : Nat} {m x : SCmd} {s t : State} (head : (streamQueue s cl 5).head? = some x) (notDone : m.done = false)
    (flush : (if decide (rdLen m.bytes ≤ (m.unit + 1) * rUnit m.bytes) = true then hostFlush (.engine cl 5) s else (s, true)) = (t, true)) :
    (streamQueue (reduceNext cl m s) cl 5).head? = some (reduceAfter m) ∧
      SemaOnly s (reduceNext cl m s) ∧ ∀ i, semaOf (reduceNext cl m s) i = reduceSema m s i := by
  unfold reduceNext reduceSema reduceAfter
  dsimp only
  by_cases last : rdLen m.bytes ≤ (m.unit + 1) * rUnit m.bytes
  · rw [if_pos (decide_eq_true last)] at flush
    have stay := streamsStay_hostFlush (.engine cl 5) s
    have mm := hostFlush_mm (.engine cl 5) s
    rw [flush] at stay mm
    have set := ((HeadSet.of_stay head (stay.trans (streamsStay_endWaits (.engine cl 5) t))).set
      { m with unit := m.unit + 1, mid := false, placed := 0, out := [] }).doneHead
    rw [if_pos last, flush, decide_eq_true last]
    dsimp only
    refine ⟨?_, ?_, fun i => ?_⟩
    · rw [rSignal_queue, set.head]
    · obtain ⟨x, e⟩ := semaOnly_rSignal m.bytes 30 40 (doneHead cl 5 (setHeadCmd cl 5
        { m with unit := m.unit + 1, mid := false, placed := 0, out := [] } (endWaits (.engine cl 5) t)))
      rw [doneHead_mm, setHeadCmd_mm, endWaits_mm, mm] at e
      exact ⟨x, e⟩
    · rw [rSignal_sema, set.semaOf]
      simp [last]
  · rw [if_neg last, decide_eq_false last]
    have set := (HeadSet.of_stay head (streamsStay_endWaits (.engine cl 5) s)).set
      { m with unit := m.unit + 1, mid := false, placed := 0, out := [] }
    refine ⟨?_, ⟨s.mm.sema, rfl⟩, fun i => ?_⟩
    · rw [set.head]
      exact congrArg (fun d => some ({ m with unit := m.unit + 1, mid := false, placed := 0, out := [], done := d } : SCmd)) notDone
    · rw [set.semaOf, if_neg (fun h => last h.1)]

end Sys2Proof.Machine
end

