-- ==== Sys2Proof/Proofs/ReduceUnits.lean ====
section
/-!
CERTIFICATE. REDUCE (O45, R213): a unit writes the fold of its contributions once its waits are met, and the last one signals.
-/
namespace Sys2Proof.Machine

/-! ## A unit -/

/-- The element that a REDUCE's unit begins with. -/
def rFrom (m : SCmd) : Nat := m.unit * rUnit m.bytes
/-- How many elements the unit has. -/
def rElems (m : SCmd) : Nat := min (rUnit m.bytes) (rdLen m.bytes - rFrom m)
/-- The bytes that it writes. -/
def rBytes (m : SCmd) : Nat := rElems m * codeBytes (rOut m.bytes)
/-- Where it writes them. -/
def rDstAt (m : SCmd) : Nat := fieldOf m.bytes 32 8 + rFrom m * codeBytes (rOut m.bytes)

/-- The contributions `xs` of a unit, and with ACCUM the bytes `d` of DST, have been read, and its pages are at hand. -/
structure Gathered (cl k : Nat) (m : SCmd) (s : State) (xs : List (List Byte)) (d : List Byte) (s2 s3 s4 : State) : Prop where
  operands : rOperands (engAccess s cl 5 k) cl m.bytes (rFrom m) (rElems m) s = (s2, .ok xs)
  accum : (if rFlag m.bytes 1 then rOperand (engAccess s cl 5 k) cl (rFlag m.bytes 2) (rDstAt m) (rBytes m) s2 else (s2, .ok [])) = (s3, .ok d)
  pages : (if rFlag m.bytes 2 then pagesReady (engAccess s cl 5 k) (rDstAt m) (rBytes m) s3 else (s3, .ok ())) = (s4, .ok ())

/-- A unit's command once the unit is folded. -/
def foldedCmd (m : SCmd) (zs : List Res) : SCmd :=
  { m with mid := true, out := packRow (codeBytes (rOut m.bytes)) (zs.map (fun z => z.code)), outVa := rDstAt m }

section
variable {cl k : Nat} {m : SCmd} {s s2 s3 s4 : State} {xs : List (List Byte)} {d : List Byte}

theorem Gathered.stays (g : Gathered cl k m s xs d s2 s3 s4) : StreamsStay s s4 := by
  have read := streamsStay_rOperands (engAccess s cl 5 k) cl m.bytes (rFrom m) (rElems m) s
  rw [g.operands] at read
  have accum : StreamsStay s2 s3 := by
    have h := g.accum
    split at h
    · have stay := streamsStay_rOperand (engAccess s cl 5 k) cl (rFlag m.bytes 2) (rDstAt m) (rBytes m) s2
      rw [h] at stay
      exact stay
    · cases h
      exact .refl s2
  have pages : StreamsStay s3 s4 := by
    have h := g.pages
    split at h
    · have stay := streamsStay_pagesReady (engAccess s cl 5 k) (rDstAt m) (rBytes m) s3
      rw [h] at stay
      exact stay
    · cases h
      exact .refl s3
  exact (read.trans accum).trans pages

/-- R213: a turn that folds a unit. -/
theorem reduceTurn_folds (at' : ReduceAt cl m s) (full : rCount m.bytes ≤ m.placed) (g : Gathered cl k m s xs d s2 s3 s4) :
    reduceTurn cl k m s = setHeadCmd cl 5 (foldedCmd m (folded m.bytes (rElems m) d xs))
      (engFlags cl 2 (resFlags (folded m.bytes (rElems m) d xs)) s4) := by
  obtain ⟨operands, accum, pages⟩ := g
  simp only [rBytes, rDstAt, rElems, rFrom] at operands accum pages
  unfold reduceTurn
  dsimp only
  rw [at'.between, if_neg (by simp), at'.clean, if_neg (by simp), if_neg (by omega), operands]
  dsimp only
  rw [accum]
  dsimp only
  rw [pages]
  rfl

/-- How the bytes of a folded unit are written: to memory line by line, or to scratch at once. -/
def UnitWritten (cl k : Nat) (m : SCmd) (s : State) (m2 : SCmd) (t : State) : Prop :=
  (rFlag m.bytes 2 = true ∧ flushOut cl 5 1 (engAccess s cl 5 k) 40 m s = (t, .ok m2)) ∨
    (rFlag m.bytes 2 = false ∧ runBusy s cl (rDstAt m) (rBytes m) = false ∧ t = scrPut cl (rDstAt m) m.out s ∧ m2 = { m with out := [] })

/-- A turn that writes a unit. -/
theorem reduceTurn_writes {m2 : SCmd} {t : State} (within : m.mid = true) (written : UnitWritten cl k m s m2 t) :
    reduceTurn cl k m s = reduceNext cl m2 t := by
  unfold reduceTurn
  dsimp only
  rw [if_pos within]
  rcases written with ⟨global, out⟩ | ⟨scratch, free, rfl, rfl⟩
  · rw [global, if_pos rfl, out]
  · simp only [rBytes, rDstAt, rElems, rFrom] at free ⊢
    rw [scratch, if_neg (by simp), free, if_neg (by simp)]

theorem UnitWritten.head {m2 : SCmd} {t : State} (head : (streamQueue s cl 5).head? = some m) (written : UnitWritten cl k m s m2 t) :
    (∃ x, HeadSet cl 5 x s t) ∧ ∃ o v, m2 = { m with out := o, outVa := v } := by
  rcases written with ⟨-, out⟩ | ⟨-, -, rfl, rfl⟩
  · obtain ⟨set, o, v, e⟩ := flushOut_ok head out
    exact ⟨⟨_, set⟩, o, v, e⟩
  · exact ⟨⟨m, .of_stay head (streamsStay_scrPut _ _ _ s)⟩, [], m.outVa, rfl⟩

end

/-! ## The turns of a unit -/

theorem foldedCmd_active {m : SCmd} {zs : List Res} (h : m.Active) : (foldedCmd m zs).Active := h

/-- R213: a unit is folded, written and left. -/
theorem runUnit_reduces {cl k r : Nat} {m m2 : SCmd} {s s2 s3 s4 s6 s7 : State} {xs : List (List Byte)} {d : List Byte} (at' : ReduceAt cl m s)
    (full : rCount m.bytes ≤ m.placed) (g : Gathered cl k m s xs d s2 s3 s4)
    (written : UnitWritten cl k (foldedCmd m (folded m.bytes (rElems m) d xs))
      (setHeadCmd cl 5 (foldedCmd m (folded m.bytes (rElems m) d xs)) (engFlags cl 2 (resFlags (folded m.bytes (rElems m) d xs)) s4)) m2 s6)
    (flush : (if decide (rdLen m.bytes ≤ (m.unit + 1) * rUnit m.bytes) = true then hostFlush (.engine cl 5) s6 else (s6, true)) = (s7, true)) :
    let t := runUnit cl 5 (reduceTurn cl k) (r + 2) s
    HeadAt cl 5 (m.unit + 1) (decide (rdLen m.bytes ≤ (m.unit + 1) * rUnit m.bytes)) t ∧ SemaOnly s6 t ∧ ∀ i, semaOf t i = reduceSema m s i := by
  have turn := reduceTurn_folds at' full g
  generalize folded m.bytes (rElems m) d xs = zs at turn written
  have set := (HeadSet.of_stay at'.head (g.stays.trans (streamsStay_engFlags cl 2 (resFlags zs) s4))).set (foldedCmd m zs)
  have active := foldedCmd_active (zs := zs) at'.active
  have other : foldedCmd m zs ≠ m := fun same => by
    have within : m.mid = true := by rw [← same]; rfl
    rw [at'.between] at within
    cases within
  have step := runUnit_goesOn (n := r + 1) (turn := reduceTurn cl k) at'.head at'.active (by rw [turn]; exact set.head) active other rfl
  obtain ⟨⟨y, kept⟩, o, v, rfl⟩ := written.head set.head
  have writes := reduceTurn_writes rfl written
  obtain ⟨on, notDone, -⟩ := at'.active
  obtain ⟨head, mm, sema⟩ := reduceNext_unit (m := { foldedCmd m zs with out := o, outVa := v }) kept.head notDone flush
  rw [← writes] at head mm sema
  have stops := runUnit_ends (n := r) (turn := reduceTurn cl k) set.head active fun x hx => .inr (by
    rw [head] at hx
    cases hx
    exact Nat.succ_ne_self m.unit)
  intro t
  have state : t = reduceTurn cl k (foldedCmd m zs) (setHeadCmd cl 5 (foldedCmd m zs) (engFlags cl 2 (resFlags zs) s4)) := by
    rw [← stops, ← turn]
    exact step
  rw [state]
  refine ⟨⟨_, head, on, rfl, rfl⟩, mm, fun i => (sema i).trans ?_⟩
  unfold reduceSema
  rw [kept.semaOf, set.semaOf]
  rfl

/-! ## A command's turns -/

/-- A REDUCE that goes to work: its command, and its turns. -/
theorem reduce_works {cl k : Nat} {m : SCmd} {s : State} (heads : Heads cl 5 0x50 k m s) (ok : m.started = false → reduceCheck cl s m = none)
    (between : m.mid = false) (clean : runPoison s cl (rList m.bytes).off (rList m.bytes).bytes = none) :
    ∃ f, Working cl 5 m (inWork f m) s (atWork cl 5 k m s) ∧ ReduceAt cl (inWork f m) (atWork cl 5 k m s) ∧
      exec (.reduce cl) s = .next (runUnit cl 5 (reduceTurn cl k) (rCount m.bytes + 3) (atWork cl 5 k m s)) := by
  obtain ⟨m0, work⟩ := working_atWork heads
  obtain ⟨f, rfl⟩ := work.command
  have op : mOp (inWork f m) = 0x50 := heads.2.2.2.1
  refine ⟨f, work, ⟨work.head, active_inWork heads f, between, (runPoison_of_mm work.mm _ _ _).trans clean⟩, ?_⟩
  refine (whenOn_powered_next heads.1 _).trans ?_
  rw [streamStep_works heads work ok, rceTurns, if_pos op]
  rfl

/-- R213: a wait of the list whose semaphore has not its value holds the REDUCE. -/
theorem reduce_waits {cl k : Nat} {m : SCmd} {s : State} (heads : Heads cl 5 0x50 k m s) (ok : m.started = false → reduceCheck cl s m = none)
    (between : m.mid = false) (clean : runPoison s cl (rList m.bytes).off (rList m.bytes).bytes = none) (more : m.placed < rCount m.bytes)
    (waits : bit (fieldOf (rEntry s cl m.bytes m.placed) 8 2) 15 = true)
    (below : semaOf s (fieldOf (rEntry s cl m.bytes m.placed) 8 2 % 2 ^ 14) < fieldOf (rEntry s cl m.bytes m.placed) 12 4) :
    Next (.reduce cl) s (fun t => HeadAt cl 5 m.unit false t ∧ SameMemory s t) := by
  obtain ⟨f, work, at', run⟩ := reduce_works heads ok between clean
  have turn : reduceTurn cl k (inWork f m) (atWork cl 5 k m s) = atWork cl 5 k m s := by
    rw [reduceTurn_waits at' more, if_pos]
    simp only [inWork_bytes, inWork_placed, rEntry_of_mm work.mm, work.semaOf]
    exact ⟨waits, below⟩
  have stops := runUnit_ends (n := rCount m.bytes + 2) (turn := reduceTurn cl k) at'.head at'.active fun x hx => .inl (by
    rw [turn, at'.head] at hx
    exact (Option.some.inj hx).symm)
  refine ⟨_, run.trans (congrArg Host.Outcome.next (stops.trans turn)), ⟨_, at'.head, rfl, rfl, at'.active.2.1⟩, ?_, ?_⟩
  · rw [work.mm]
  · rw [work.mm]

theorem passWaits_command (cl n : Nat) (x : SCmd × State) : (passWaits cl n x).1 = { x.1 with placed := x.1.placed + n } := by
  induction n generalizing x with
  | zero => rfl
  | succ n ih =>
    rw [passWaits, ih]
    dsimp only
    rw [Nat.add_assoc, Nat.add_comm 1 n]

section
variable {cl k : Nat} {m m0 : SCmd} {s : State}

/-- R213: a unit of a REDUCE whose waits are met: its turns pass the waits, fold the unit and write it. -/
theorem reduce_unit {q m2 : SCmd} {v s2 s3 s4 s6 s7 : State} {xs : List (List Byte)} {d : List Byte} (heads : Heads cl 5 0x50 k m s)
    (ok : m.started = false → reduceCheck cl s m = none) (between : m.mid = false)
    (clean : runPoison s cl (rList m.bytes).off (rList m.bytes).bytes = none)
    (met : ∀ i, m.placed ≤ i → i < rCount m.bytes → WaitMet s cl m.bytes i)
    (head : (streamQueue (atWork cl 5 k m s) cl 5).head? = some m0)
    (pass : passWaits cl (rCount m.bytes - m.placed) (m0, atWork cl 5 k m s) = (q, v)) :
    let zs := folded q.bytes (rElems q) d xs
    let last := decide (rdLen q.bytes ≤ (q.unit + 1) * rUnit q.bytes)
    Gathered cl k q v xs d s2 s3 s4 →
    UnitWritten cl k (foldedCmd q zs) (setHeadCmd cl 5 (foldedCmd q zs) (engFlags cl 2 (resFlags zs) s4)) m2 s6 →
    (if last = true then hostFlush (.engine cl 5) s6 else (s6, true)) = (s7, true) →
    Next (.reduce cl) s (fun t => HeadAt cl 5 (q.unit + 1) last t ∧ SemaOnly s6 t ∧ ∀ i, semaOf t i = reduceSema q s i) := by
  intro zs last gathered written flush
  obtain ⟨f, work, at', run⟩ := reduce_works heads ok between clean
  obtain rfl : m0 = inWork f m := Option.some.inj (head.symm.trans work.head)
  obtain ⟨passes, command, set, c, state⟩ := runUnit_passes (k := k) (n := rCount m.bytes - m.placed)
    (r := rCount m.bytes + 1 - (rCount m.bytes - m.placed) + 2) at' (Nat.le_refl _) fun i low high => (waitMet_of_mm work.mm).mpr (met i low high)
  rw [pass] at passes command set state
  dsimp only at passes command set state
  have at2 : ReduceAt cl q v := by
    refine ⟨set.head, by rw [command]; exact at'.active, by rw [command]; exact between, ?_⟩
    rw [runPoison_of_mm ((congrArg State.mm state).trans work.mm), command]
    exact clean
  have sema : ∀ i, reduceSema q v i = reduceSema q s i := fun i => by
    unfold reduceSema
    rw [set.semaOf, work.semaOf]
  have turns : rCount m.bytes + 3 = rCount m.bytes - m.placed + (rCount m.bytes + 1 - (rCount m.bytes - m.placed) + 2) := by omega
  obtain ⟨done, mm, signalled⟩ := runUnit_reduces (r := rCount m.bytes + 1 - (rCount m.bytes - m.placed)) at2
    (by rw [command]; dsimp only [inWork]; omega) gathered written flush
  exact ⟨_, run.trans (congrArg Host.Outcome.next ((congrArg (fun n => runUnit cl 5 (reduceTurn cl k) n _) turns).trans passes)), done, mm,
    fun i => (signalled i).trans (sema i)⟩

/-- R213: what a unit of a REDUCE does, by what its command says. -/
theorem reduce_performs (heads : Heads cl 5 0x50 k m s)
    (ok : m.started = false → reduceCheck cl s m = none) (between : m.mid = false)
    (clean : runPoison s cl (rList m.bytes).off (rList m.bytes).bytes = none)
    (met : ∀ i, m.placed ≤ i → i < rCount m.bytes → WaitMet s cl m.bytes i)
    (head : (streamQueue (atWork cl 5 k m s) cl 5).head? = some m0) :
    let bs := m.bytes
    let u := m.unit * rUnit bs
    let n := min (rUnit bs) (rdLen bs - u)
    let w := codeBytes (rOut bs)
    let da := fieldOf bs 32 8 + u * w
    let last := decide (rdLen bs ≤ (m.unit + 1) * rUnit bs)
    let p := passWaits cl (rCount bs - m.placed) (m0, atWork cl 5 k m s)
    let a := engAccess p.2 cl 5 k
    ∀ xs d s2 s3 s4 s6 s7 m2, rOperands a cl bs u n p.2 = (s2, .ok xs) →
      (if rFlag bs 1 then rOperand a cl (rFlag bs 2) da (n * w) s2 else (s2, .ok [])) = (s3, .ok d) →
      (if rFlag bs 2 then pagesReady a da (n * w) s3 else (s3, .ok ())) = (s4, .ok ()) →
      let zs := folded bs n d xs
      let m1 := { p.1 with mid := true, out := packRow w (zs.map (fun z => z.code)), outVa := da }
      let s5 := setHeadCmd cl 5 m1 (engFlags cl 2 (resFlags zs) s4)
      ((rFlag bs 2 = true ∧ flushOut cl 5 1 (engAccess s5 cl 5 k) 40 m1 s5 = (s6, .ok m2)) ∨
        (rFlag bs 2 = false ∧ runBusy s5 cl da (n * w) = false ∧ s6 = scrPut cl da m1.out s5)) →
      (if last then hostFlush (.engine cl 5) s6 else (s6, true)) = (s7, true) →
      Next (.reduce cl) s (fun t => HeadAt cl 5 (m.unit + 1) last t ∧ SemaOnly s6 t ∧ ∀ i, semaOf t i = reduceSema m s i) := by
  intro bs u n w da last p a xs d s2 s3 s4 s6 s7 m2 operands accum pages zs m1 s5 written flush
  obtain ⟨f, work, -⟩ := reduce_works heads ok between clean
  obtain rfl : m0 = inWork f m := Option.some.inj (head.symm.trans work.head)
  have command : p.1 = { inWork f m with placed := m.placed + (rCount bs - m.placed) } := passWaits_command _ _ _
  have fold : m1 = foldedCmd { inWork f m with placed := m.placed + (rCount bs - m.placed) } zs := by
    rw [← command]
    simp only [m1, foldedCmd, command]
    rfl
  clear_value m1
  subst fold
  have goes := fun m2 => reduce_unit (m2 := m2) (s6 := s6) (q := { inWork f m with placed := m.placed + (rCount bs - m.placed) }) (v := p.2)
    (s7 := s7) heads ok between clean met work.head (Prod.ext command rfl) ⟨operands, accum, pages⟩
  rcases written with ⟨global, out⟩ | ⟨scratch, free, put⟩
  · exact goes _ (.inl ⟨global, out⟩) flush
  · exact goes _ (.inr ⟨scratch, free, put, rfl⟩) flush

end

end Sys2Proof.Machine
end

