-- ==== Sys2Proof/Proofs/Contributions.lean ====
section
/-!
CERTIFICATE. REDUCE of contributions in scratch (O45, R213): each element of the output is the fold of the elements of the contributions.
-/
namespace Sys2Proof.Machine

/-! ## Contributions in scratch -/

theorem rOperand_scratch {a : Acc2} {cl addr n : Nat} {s : State} (free : runBusy s cl (addr % 2 ^ 24) n = false)
    (clean : runPoison s cl (addr % 2 ^ 24) n = none) : rOperand a cl false addr n s = (s, .ok (scrBytes s cl (addr % 2 ^ 24) n)) := by
  unfold rOperand
  rw [if_neg (by simp), free, if_neg (by simp), clean]

/-- The next contribution joins those that have been read. -/
def rOperandNext (a : Acc2) (cl : Nat) (bs : List Byte) (u n : Nat) (r : State × Got (List (List Byte))) (i : Nat) : State × Got (List (List Byte)) :=
  match r with
  | (s, .ok xs) =>
    let e := rEntry s cl bs i
    (match rOperand a cl (eGlobal e) (fieldOf e 0 8 + u * codeBytes (rCode bs)) (n * codeBytes (rCode bs)) s with
     | (s, .ok x) => (s, Got.ok (xs ++ [x]))
     | (s, .wait) => (s, .wait)
     | (s, .fail e) => (s, .fail e))
  | r => r

theorem rOperands_eq (a : Acc2) (cl : Nat) (bs : List Byte) (u n : Nat) (s : State) :
    rOperands a cl bs u n s = (List.range (rCount bs)).foldl (rOperandNext a cl bs u n) (s, .ok []) := rfl

/-- The scratch offset of a contribution's unit. -/
def rSrc (s : State) (cl : Nat) (bs : List Byte) (u i : Nat) : Nat := (fieldOf (rEntry s cl bs i) 0 8 + u * codeBytes (rCode bs)) % 2 ^ 24

/-- Contributions that all lie in scratch are read at once. -/
theorem rOperands_scratch {a : Acc2} {cl u n : Nat} {bs : List Byte} {s : State}
    (here : ∀ i, i < rCount bs → eGlobal (rEntry s cl bs i) = false ∧ runBusy s cl (rSrc s cl bs u i) (n * codeBytes (rCode bs)) = false ∧
      runPoison s cl (rSrc s cl bs u i) (n * codeBytes (rCode bs)) = none) :
    rOperands a cl bs u n s = (s, .ok ((List.range (rCount bs)).map (fun i => scrBytes s cl (rSrc s cl bs u i) (n * codeBytes (rCode bs))))) := by
  have all : ∀ (is : List Nat) (xs : List (List Byte)), (∀ i ∈ is, i < rCount bs) → is.foldl (rOperandNext a cl bs u n) (s, .ok xs) =
      (s, .ok (xs ++ is.map (fun i => scrBytes s cl (rSrc s cl bs u i) (n * codeBytes (rCode bs))))) := fun is => by
    induction is with
    | nil => intro xs _; simp
    | cons i is ih =>
      intro xs below
      obtain ⟨near, free, clean⟩ := here i (below i (by simp))
      have next : rOperandNext a cl bs u n (s, .ok xs) i = (s, .ok (xs ++ [scrBytes s cl (rSrc s cl bs u i) (n * codeBytes (rCode bs))])) := by
        unfold rOperandNext
        dsimp only
        rw [near, rOperand_scratch free clean]
        rfl
      rw [List.foldl_cons, next, ih _ fun j hj => below j (by simp [hj])]
      simp
  rw [rOperands_eq, all _ _ fun i hi => List.mem_range.mp hi, List.nil_append]

/-! ## The fold -/

theorem folded_length (bs : List Byte) (n : Nat) (d : List Byte) (xs : List (List Byte)) : (folded bs n d xs).length = n := by simp [folded]

theorem SemaOnly.scrBytes {s t : State} (h : SemaOnly s t) (cl off n : Nat) : scrBytes t cl off n = scrBytes s cl off n := by
  obtain ⟨x, e⟩ := h
  exact scrBytes_congr fun i _ => scrByte_congr (by rw [e]) (by rw [e]) (by rw [e]) _

theorem passWaits_state (cl n : Nat) (x : SCmd × State) : ∃ c, (passWaits cl n x).2 = { x.2 with clusters := c } := by
  induction n generalizing x with
  | zero => exact ⟨x.2.clusters, rfl⟩
  | succ n ih =>
    obtain ⟨c, e⟩ := ih ({ x.1 with placed := x.1.placed + 1 }, setHeadCmd cl 5 { x.1 with placed := x.1.placed + 1 } x.2)
    exact ⟨c, e⟩

theorem runBusy_setHeadCmd_engFlags (cl e : Nat) (m : SCmd) (w : Word) (s : State) (off n : Nat) :
    runBusy (setHeadCmd cl 5 m (engFlags cl e w s)) cl off n = runBusy s cl off n := by
  obtain ⟨r, t, h⟩ := engFlags_changes cl e w s
  rw [h]
  rfl

/-- An element of a unit whose operands lie in scratch. -/
theorem folded_element {bs : List Byte} {n j : Nat} {s v : State} {cl dst : Nat} {src : Nat → Nat} (mm : v.mm = s.mm) (h : j < n) :
    let w := codeBytes (rOut bs)
    let cw := codeBytes (rCode bs)
    (folded bs n (if rFlag bs 1 = true then scrBytes v cl dst (n * w) else [])
      ((List.range (rCount bs)).map (fun i => scrBytes v cl (src i) (n * cw))))[j]'(by rw [folded_length]; exact h) =
      rdElem bs ((if rFlag bs 1 then [rIn bs (rOut bs) (fieldOf (scrBytes s cl (dst + j * w) w) 0 w)] else []) ++
        (List.range (rCount bs)).map (fun i => rIn bs (rCode bs) (fieldOf (scrBytes s cl (src i + j * cw) cw) 0 cw))) := by
  intro w cw
  have inside : ∀ k, j * k + k ≤ n * k := fun k => by
    calc j * k + k = (j + 1) * k := by ring
      _ ≤ n * k := Nat.mul_le_mul_right _ h
  have part : ∀ off k, fieldOf (scrBytes v cl off (n * k)) (j * k) k = fieldOf (scrBytes s cl (off + j * k) k) 0 k := fun off k => by
    rw [fieldOf_scrBytes _ _ _ _ _ _ (inside k), scrBytes_of_mm mm]
  unfold folded
  dsimp only
  rw [List.getElem_map, List.getElem_range, List.map_map]
  congr 2
  · split
    · rw [part]
    · rfl
  · exact List.map_congr_left fun i _ => congrArg (rIn bs (rCode bs)) (part (src i) cw)

/-- R213: a REDUCE of one unit, whose operands lie in scratch, with its waits met. -/
theorem reduce_scratch {cl k : Nat} {m : SCmd} {s : State} (begins : Begins cl 5 0x50 k m s) (ok : reduceCheck cl s m = none)
    (start : m.unit = 0) (between : m.mid = false) (flushed : s.xl.dirty.contains (.engine cl 5) = false) :
    let bs := m.bytes
    let n := rdLen bs
    let w := codeBytes (rOut bs)
    let cw := codeBytes (rCode bs)
    let dst := fieldOf bs 32 8
    let src := fun i => fieldOf (rEntry s cl bs i) 0 8 % 2 ^ 24
    n ≤ rUnit bs → rFlag bs 2 = false → runPoison s cl (rList bs).off (rList bs).bytes = none → runBusy s cl dst (n * w) = false →
    (rFlag bs 1 = true → runBusy s cl (dst % 2 ^ 24) (n * w) = false ∧ runPoison s cl (dst % 2 ^ 24) (n * w) = none) →
    (∀ i, i < rCount bs → let e := rEntry s cl bs i
      eGlobal e = false ∧ (bit (fieldOf e 8 2) 15 = true → fieldOf e 12 4 ≤ semaOf s (fieldOf e 8 2 % 2 ^ 14)) ∧
      runBusy s cl (src i) (n * cw) = false ∧ runPoison s cl (src i) (n * cw) = none) →
    Next (.reduce cl) s (fun t => WorkDone cl 5 1 t ∧
      (∀ j, j < n → fieldOf (scrBytes t cl (dst + j * w) w) 0 w = (rdElem bs
        ((if rFlag bs 1 then [rIn bs (rOut bs) (fieldOf (scrBytes s cl (dst % 2 ^ 24 + j * w) w) 0 w)] else []) ++
          (List.range (rCount bs)).map (fun i => rIn bs (rCode bs) (fieldOf (scrBytes s cl (src i + j * cw) cw) 0 cw)))).code % 2 ^ (8 * w)) ∧
      ∀ i, semaOf t i = if bit (fieldOf bs 30 2) 15 = true ∧ i = fieldOf bs 30 2 % 2 ^ 14
        then (semaOf s i + fieldOf bs 40 4) % 2 ^ 32 else semaOf s i) := by
  intro bs n w cw dst src fits scratch clean freeDst accum here
  obtain ⟨heads, -⟩ := begins
  obtain ⟨f, work, -⟩ := reduce_works heads (fun _ => ok) between clean
  have unit := reduce_performs heads (fun _ => ok) between clean (fun i _ high => (here i high).2.1) work.head
  obtain ⟨c, state⟩ := passWaits_state cl (rCount m.bytes - m.placed) (inWork f m, atWork cl 5 k m s)
  dsimp only at unit state
  generalize passWaits cl (rCount m.bytes - m.placed) (inWork f m, atWork cl 5 k m s) = p at unit state
  have mm : p.2.mm = s.mm := (congrArg State.mm state).trans work.mm
  have busy : ∀ off l, runBusy p.2 cl off l = runBusy s cl off l := fun off l => by
    rw [state, ← congrFun (congrFun (work.runBusy cl) off) l]; rfl
  have fits' : rdLen m.bytes ≤ rUnit m.bytes := fits
  have entry : ∀ i, rSrc p.2 cl m.bytes 0 i = src i := fun i => by simp only [rSrc, rEntry_of_mm mm, Nat.zero_mul, Nat.add_zero]; rfl
  simp only [start, Nat.zero_mul, Nat.add_zero, Nat.sub_zero, Nat.zero_add, Nat.one_mul, min_eq_right fits', decide_eq_true fits', if_true] at unit
  have operands : rOperands (engAccess p.2 cl 5 k) cl m.bytes 0 (rdLen m.bytes) p.2 =
      (p.2, .ok ((List.range (rCount m.bytes)).map (fun i => scrBytes p.2 cl (src i) (n * cw)))) := by
    rw [rOperands_scratch fun i hi => ?_]
    · simp only [entry]; rfl
    · obtain ⟨here', -, free, safe⟩ := here i hi
      rw [entry, rEntry_of_mm mm, busy, runPoison_of_mm mm]
      exact ⟨here', free, safe⟩
  have dest : (if rFlag m.bytes 1 = true then rOperand (engAccess p.2 cl 5 k) cl (rFlag m.bytes 2) dst (n * w) p.2 else (p.2, .ok [])) =
      (p.2, .ok (if rFlag m.bytes 1 = true then scrBytes p.2 cl (dst % 2 ^ 24) (n * w) else [])) := by
    by_cases acc : rFlag m.bytes 1 = true
    · obtain ⟨free, safe⟩ := accum acc
      rw [if_pos acc, if_pos acc, show rFlag m.bytes 2 = false from scratch,
        rOperand_scratch (by rw [busy]; exact free) (by rw [runPoison_of_mm mm]; exact safe)]
    · rw [if_neg acc, if_neg acc]
  have folds := fun s6 put free flush => unit _ _ _ _ _ s6 s6 m operands dest (by rw [if_neg (by rw [show rFlag m.bytes 2 = false from scratch]; simp)])
    (.inr ⟨scratch, free, put⟩) flush
  obtain ⟨t, run, ⟨m', head, on, unit', done⟩, mem, sema⟩ := folds _ rfl (by rw [runBusy_setHeadCmd_engFlags, busy]; exact freeDst)
    (hostFlush_clean (by rw [dirty_scrPut, setHeadCmd_xl, engFlags_xl, state]; exact (congrArg (fun x : Xlate => x.dirty.contains _) work.xl).trans flushed))
  refine ⟨t, run, ⟨m', head, on, done, unit'⟩, fun j hj => ?_, fun i => (sema i).trans ?_⟩
  · rw [mem.scrBytes, fieldOf_scrPut_packRow _ _ _ _ _ (by simpa [folded_length] using hj), List.getElem_map, folded_element mm hj]
  · exact reduceSema_last (by rw [start, Nat.zero_add, Nat.one_mul]; exact fits') s i

/-! ## One step of the fold -/

/-- R213: INT32 sums wrap. -/
theorem rStep_sum (bs : List Byte) (a b : Nat) (int : rdType bs = 3) (sum : fieldOf bs 22 1 = 0) : (rStep bs a b).code = (a + b) % 2 ^ 32 := by
  simp [rStep, int, sum]

/-- R213: the greater or the less of two INT32 numbers. -/
theorem rStep_extreme (bs : List Byte) (a b : Nat) (int : rdType bs = 3) (op : fieldOf bs 22 1 = 1 ∨ fieldOf bs 22 1 = 2) :
    sext 32 (rStep bs a b).code = if fieldOf bs 22 1 = 1 then max (sext 32 a) (sext 32 b) else min (sext 32 a) (sext 32 b) := by
  have nonzero : fieldOf bs 22 1 ≠ 0 := by omega
  have code : (rStep bs a b).code = if (sext 32 a < sext 32 b) = (fieldOf bs 22 1 = 1) then b else a := by simp [rStep, int, nonzero]
  rw [code]
  rcases op with op | op
  · by_cases less : sext 32 a < sext 32 b
    · rw [if_pos (by simp [op, less]), if_pos op, max_eq_right less.le]
    · rw [if_neg (by simp [op, less]), if_pos op, max_eq_left (not_lt.mp less)]
  · by_cases less : sext 32 a < sext 32 b
    · rw [if_neg (by simp [op, less]), if_neg (by omega), min_eq_left less.le]
    · rw [if_pos (by simp [op, less]), if_neg (by omega), min_eq_right (not_lt.mp less)]

end Sys2Proof.Machine
end

