-- ==== Sys2Proof/Proofs/Sends.lean ====
section
/-!
SUPPORT. SEND (R214, R403): what its lines leave of the streams, its turns, and what a unit's last turn leaves.
-/
namespace Sys2Proof.Machine

/-! ## Lines and signals -/

theorem streamsStay_schedWin (port : Nat) (a : Acc2) (w off va : Nat) (bs : List Byte) (s : State) :
    StreamsStay s (schedWin port a w off va bs s).1 := by
  unfold schedWin
  split
  · split <;> exact .refl s
  · split
    · exact .refl s
    · split
      · exact .refl s
      · exact streamsStay_sendWin _ _ _ _ _ _ s

theorem streamsStay_sendLine (cl k : Nat) (m : SCmd) (va : Nat) (bs : List Byte) (s : State) : StreamsStay s (sendLine cl k m va bs s).1 := by
  have found := streamsStay_translate (engAccess s cl 5 k) va true s
  unfold sendLine
  dsimp only
  split
  next heq => rw [heq] at found; exact found
  next heq => rw [heq] at found; exact found
  next t ta heq =>
    rw [heq] at found
    split
    · exact found.trans (streamsStay_schedWin _ _ _ _ _ _ t)
    · exact found.trans (streamsStay_engWrite _ _ _ _ _ t)

theorem streamsStay_sendAhead (cl k : Nat) (m : SCmd) (fuel va : Nat) (bs : List Byte) (s : State) : StreamsStay s (sendAhead cl k m fuel va bs s) := by
  induction fuel generalizing va bs s with
  | zero => exact .refl s
  | succ fuel ih =>
    unfold sendAhead
    split
    · exact .refl s
    · refine StreamsStay.trans ?_ (ih _ _ _)
      have found := streamsStay_translate (engAccess s cl 5 k) va true s
      split
      next t ta heq =>
        rw [heq] at found
        split
        · exact found.trans (streamsStay_sendLine _ _ _ _ _ t)
        · exact found
      next t _ heq => rw [heq] at found; exact found

/-- R214: a signal that is made leaves every queue as it is. -/
theorem sendSignal_queue {cl k : Nat} {m : SCmd} {s t : State} (signal : sendSignal cl k m s = (t, true)) (n q : Nat) :
    streamQueue t n q = streamQueue s n q := by
  unfold sendSignal at signal
  dsimp only at signal
  have flushed := streamsStay_hostFlush (engAccess s cl 5 k).who s
  split at signal
  next => cases signal
  next u heq =>
    rw [heq] at flushed
    split at signal
    · cases signal
      exact flushed.streamQueue n q
    · have found := streamsStay_translate (engAccess s cl 5 k) (sDst m.bytes) true u
      split at signal
      next => cases signal
      next => cases signal
      next v ta heq' =>
        rw [heq'] at found
        have stay := flushed.trans found
        split at signal
        next =>
          split at signal
          next =>
            split at signal
            next port _ =>
              cases signal
              exact (stay.trans (.of_sent (sendPacket_among port _ _).1)).streamQueue n q
            next => cases signal
          next => cases signal
        next =>
          cases signal
          rw [rSignal_queue]
          exact stay.streamQueue n q

theorem streamsStay_dropWin (w : Waiter) (va : Nat) (s : State) : StreamsStay s (dropWin w va s) := streamsStay_xl s _

/-! ## Turns -/

/-- R403: a SEND needs no match in the fret table, or has it. -/
def Matched (m : SCmd) : Prop := mFret m = 0xFFFFFFFF ∨ m.placed ≠ 0

section
variable {cl k : Nat} {m : SCmd} {s : State}

/-- R214: a turn that reads a unit in scratch. -/
theorem sendTurn_reads {t : State} (matched : Matched m) (between : m.mid = false) :
    let u := 4096 * m.unit
    let n := min 4096 (sBytes m.bytes - u)
    let src := fieldOf m.bytes 16 4 + u
    runBusy s cl src n = false → runPoison s cl src n = none →
    pagesReady (engAccess s cl 5 k) (sDst m.bytes + u) n s = (t, .ok ()) →
    sendTurn cl k m s = setHeadCmd cl 5 { m with mid := true, out := scrBytes t cl src n, outVa := sDst m.bytes + u } t := by
  intro u n src free clean pages
  unfold sendTurn
  dsimp only
  rw [if_neg (by unfold Matched at matched; omega), if_neg (by simp [between]), free, if_neg (by simp), clean]
  dsimp only
  rw [pages]

/-- R205: a turn whose line waits asks for those behind it. -/
theorem sendTurn_waits {t : State} (matched : Matched m) (within : m.mid = true) (left : m.out ≠ [])
    (waits : sendLine cl k m m.outVa (m.out.take (min m.out.length (128 - m.outVa % 128))) s = (t, .wait)) :
    sendTurn cl k m s = sendAhead cl k m 40 (m.outVa + min m.out.length (128 - m.outVa % 128)) (m.out.drop (min m.out.length (128 - m.outVa % 128))) t := by
  unfold sendTurn
  dsimp only
  rw [if_neg (by unfold Matched at matched; omega), if_pos within, if_neg (by simpa using left), waits]

/-- R205: a turn that sends the last line of a unit. -/
theorem sendTurn_sends {t : State} (matched : Matched m) (within : m.mid = true) (left : m.out ≠ []) (fits : m.out.length ≤ 128 - m.outVa % 128)
    (sent : sendLine cl k m m.outVa m.out s = (t, .ok ())) :
    sendTurn cl k m s = setHeadCmd cl 5 { m with out := [], outVa := m.outVa + m.out.length } (dropWin (.engine cl 5) m.outVa t) := by
  unfold sendTurn
  dsimp only
  rw [if_neg (by unfold Matched at matched; omega), if_pos within, if_neg (by simpa using left), min_eq_left fits, List.take_length, sent,
    List.drop_length]
  rfl

/-- A turn behind the last line of a unit. -/
theorem sendTurn_next (matched : Matched m) (within : m.mid = true) (sent : m.out = []) : sendTurn cl k m s = sendNext cl k m s := by
  unfold sendTurn
  dsimp only
  rw [if_neg (by unfold Matched at matched; omega), if_pos within, if_pos (by rw [sent]; rfl)]

/-- R403: a scheduled SEND that matches no entry ends the casting. -/
theorem sendTurn_unmatched {w off ta dev iwin ioff : Nat} {t : State} (scheduled : mFret m ≠ 0xFFFFFFFF) (fresh : m.placed = 0)
    (found : translate (engAccess s cl 5 k) (sDst m.bytes) true s = (t, .ok ta)) (target : targetOf t ta = .win w off)
    (window : windowOf t w off = some (dev, iwin, ioff)) (none' : sendEntry t cl k dev m = none) :
    sendTurn cl k m s = failCasting k (protEnd 0x26 (agQueue cl 5) 0) t := by
  unfold sendTurn
  dsimp only
  rw [if_pos ⟨scheduled, fresh⟩, found]
  dsimp only
  rw [target]
  dsimp only
  rw [window]
  dsimp only
  rw [none']

/-- A unit of a SEND that is not the last. -/
theorem sendNext_more {x : SCmd} (head : (streamQueue s cl 5).head? = some x) (more : 4096 * (m.unit + 1) < sBytes m.bytes) :
    (streamQueue (sendNext cl k m s) cl 5).head? = some { m with unit := m.unit + 1, mid := false } ∧ (sendNext cl k m s).mm = s.mm := by
  unfold sendNext
  dsimp only
  rw [if_neg (by omega)]
  exact ⟨(HeadSet.of_set head _).head, rfl⟩

/-- R214: the last unit of a SEND, with its signal. -/
theorem sendNext_last {x : SCmd} {t : State} (head : (streamQueue s cl 5).head? = some x) (last : sBytes m.bytes ≤ 4096 * (m.unit + 1))
    (signal : sendSignal cl k m s = (t, true)) :
    (streamQueue (sendNext cl k m s) cl 5).head? = some { m with unit := m.unit + 1, mid := false, done := true } ∧
      (sendNext cl k m s).mm = t.mm := by
  have head' : (streamQueue t cl 5).head? = some x := by rw [sendSignal_queue signal]; exact head
  unfold sendNext
  dsimp only
  rw [if_pos last, signal]
  exact ⟨((HeadSet.of_stay head' (streamsStay_endWaits (.engine cl 5) t)).set _).doneHead.head, by rw [doneHead_mm]; rfl⟩

end

end Sys2Proof.Machine
end

