-- ==== Sys2Proof/Proofs/TransferEngines.lean ====
section
/-!
CERTIFICATE. GSE, REDUCE and SEND (O45): each command's units, and the ends of castings (R205, R206, R211, R213, R214, R284, R403).
-/
namespace Sys2Proof.Machine

/-! ## SEND -/

section
variable {cl k : Nat} {m : SCmd} {s : State}

/-- A SEND that goes to work: its command, and its turns. -/
theorem send_works (heads : Heads cl 5 0x51 k m s) (ok : m.started = false → sendCheck cl s m = none) :
    ∃ f, Working cl 5 m (inWork f m) s (atWork cl 5 k m s) ∧
      exec (.send cl) s = .next (runUnit cl 5 (sendTurn cl k) 40 (atWork cl 5 k m s)) := by
  obtain ⟨m0, work⟩ := working_atWork heads
  obtain ⟨f, rfl⟩ := work.command
  have op : mOp (inWork f m) = 0x51 := heads.2.2.2.1
  refine ⟨f, work, (whenOn_powered_next heads.1 _).trans ?_⟩
  rw [streamStep_works heads work ok, rceTurns, op, if_neg (by decide)]

/-- A SEND that has started goes on. -/
theorem send_goesOn (heads : Heads cl 5 0x51 k m s) (on : m.started = true) :
    (streamQueue s cl 5).head? = some m ∧ m.Active ∧ exec (.send cl) s = .next (runUnit cl 5 (sendTurn cl k) 40 s) := by
  obtain ⟨f, work, run⟩ := send_works heads (by simp [on])
  obtain ⟨-, -, head, -, notDone, notStopped, -⟩ := heads
  have same : atWork cl 5 k m s = s := by rw [atWork, if_pos on]
  rw [same] at run
  exact ⟨head, ⟨on, notDone, notStopped⟩, run⟩

/-- R205, R214: a SEND reads a unit in scratch; the unit is at the head of its queue while its line waits. -/
theorem send_reads {m0 : SCmd} {s1 s2 : State} (ready : SendReady cl k m s) (head : (streamQueue (atWork cl 5 k m s) cl 5).head? = some m0)
    (between : m.mid = false) :
    let u := 4096 * m.unit
    let n := min 4096 (sBytes m.bytes - u)
    let src := fieldOf m.bytes 16 4 + u
    let s0 := atWork cl 5 k m s
    runBusy s cl src n = false → runPoison s cl src n = none → 0 < n →
    pagesReady (engAccess s0 cl 5 k) (sDst m.bytes + u) n s0 = (s1, .ok ()) →
    let m1 := { m0 with mid := true, out := scrBytes s1 cl src n, outVa := sDst m.bytes + u }
    sendLine cl k m1 m1.outVa (m1.out.take (min n (128 - m1.outVa % 128))) (setHeadCmd cl 5 m1 s1) = (s2, .wait) →
    Next (.send cl) s (fun t => (streamQueue t cl 5).head? = some m1) := by
  intro u n src s0 free clean some' pages m1 waits
  obtain ⟨heads, ok, matched⟩ := ready
  obtain ⟨f, work, run⟩ := send_works heads ok
  obtain rfl : m0 = inWork f m := Option.some.inj (head.symm.trans work.head)
  have active := active_inWork heads f
  have reads : sendTurn cl k (inWork f m) s0 = setHeadCmd cl 5 m1 s1 := sendTurn_reads matched between
    ((congrFun (congrFun (work.runBusy cl) src) n).trans free) ((runPoison_of_mm work.mm cl src n).trans clean) pages
  have stay := streamsStay_pagesReady (engAccess s0 cl 5 k) (sDst m.bytes + u) n s0
  rw [pages] at stay
  have set := (HeadSet.of_stay head stay).set m1
  have other : m1 ≠ inWork f m := fun same => by
    have within : m.mid = true := congrArg SCmd.mid same.symm
    rw [between] at within
    cases within
  have first := runUnit_goesOn (n := 39) (turn := sendTurn cl k) (x := m1) head active (by rw [reads]; exact set.head) active other rfl
  have length : m1.out.length = n := scrBytes_length s1 cl src n
  have left : m1.out ≠ [] := List.ne_nil_of_length_pos (by omega)
  have line := streamsStay_sendLine cl k m1 m1.outVa (m1.out.take (min n (128 - m1.outVa % 128))) (setHeadCmd cl 5 m1 s1)
  rw [waits] at line
  rw [← length] at waits
  have asks := sendTurn_waits (m := m1) matched rfl left waits
  have held := set.stays (line.trans (streamsStay_sendAhead cl k m1 40 (m1.outVa + min m1.out.length (128 - m1.outVa % 128))
    (m1.out.drop (min m1.out.length (128 - m1.outVa % 128))) s2))
  rw [← asks] at held
  have second := runUnit_ends (n := 38) (turn := sendTurn cl k) set.head active fun x hx => .inl (by
    rw [held.head] at hx
    exact (Option.some.inj hx).symm)
  refine ⟨_, run.trans (congrArg Host.Outcome.next (first.trans ?_)), held.head⟩
  rw [reads]
  exact second

/-- R205: a SEND whose last line of a unit has gone out, or goes out, goes on behind it. -/
theorem send_passes {s1 : State} (ready : SendReady cl k m s) (on : m.started = true) (within : m.mid = true)
    (line : m.out = [] ∧ s1 = s ∨
      m.out ≠ [] ∧ m.out.length ≤ 128 - m.outVa % 128 ∧ sendLine cl k m m.outVa m.out s = (s1, .ok ())) :
    let q := if m.out = [] then m else { m with out := [], outVa := m.outVa + m.out.length }
    let v := if m.out = [] then s else
      setHeadCmd cl 5 { m with out := [], outVa := m.outVa + m.out.length } (dropWin (.engine cl 5) m.outVa s1)
    (streamQueue v cl 5).head? = some q ∧
      ((∀ x, (streamQueue (sendNext cl k q v) cl 5).head? = some x → x.unit ≠ m.unit) → exec (.send cl) s = .next (sendNext cl k q v)) := by
  obtain ⟨heads, -, matched⟩ := ready
  obtain ⟨head, active, run⟩ := send_goesOn heads on
  rcases line with ⟨sent, -⟩ | ⟨left, fits, sent⟩
  · rw [if_pos sent, if_pos sent]
    refine ⟨head, fun ends => run.trans (congrArg Host.Outcome.next ?_)⟩
    have turn : sendTurn cl k m s = sendNext cl k m s := sendTurn_next matched within sent
    rw [← turn] at ends ⊢
    exact runUnit_ends head active fun x hx => .inr (ends x hx)
  · rw [if_neg left, if_neg left]
    have stay := streamsStay_sendLine cl k m m.outVa m.out s
    rw [sent] at stay
    have turn : sendTurn cl k m s = setHeadCmd cl 5 { m with out := [], outVa := m.outVa + m.out.length } (dropWin (.engine cl 5) m.outVa s1) :=
      sendTurn_sends matched within left fits sent
    have set := (HeadSet.of_stay head (stay.trans (streamsStay_dropWin (.engine cl 5) m.outVa s1))).set
      { m with out := [], outVa := m.outVa + m.out.length }
    refine ⟨set.head, fun ends => run.trans (congrArg Host.Outcome.next ?_)⟩
    have first := runUnit_goesOn (n := 39) (turn := sendTurn cl k) (x := { m with out := [], outVa := m.outVa + m.out.length }) head active
      (by rw [turn]; exact set.head) active (fun same => left (congrArg SCmd.out same).symm) rfl
    rw [first, turn]
    have next : sendTurn cl k { m with out := [], outVa := m.outVa + m.out.length }
        (setHeadCmd cl 5 { m with out := [], outVa := m.outVa + m.out.length } (dropWin (.engine cl 5) m.outVa s1)) = _ :=
      sendTurn_next matched within rfl
    rw [← next] at ends ⊢
    exact runUnit_ends (n := 38) set.head active fun x hx => .inr (ends x hx)

/-- R205, R214: a unit of a SEND has been sent; the signal follows the last one. -/
theorem send_unit {s1 s3 : State} (ready : SendReady cl k m s) (on : m.started = true) (within : m.mid = true)
    (line : m.out = [] ∧ s1 = s ∨
      m.out ≠ [] ∧ m.out.length ≤ 128 - m.outVa % 128 ∧ sendLine cl k m m.outVa m.out s = (s1, .ok ())) :
    let m1 := { m with out := [], outVa := m.outVa + m.out.length }
    let s2 := if m.out = [] then s else setHeadCmd cl 5 m1 (dropWin (.engine cl 5) m.outVa s1)
    (4096 * (m.unit + 1) < sBytes m.bytes → Next (.send cl) s (fun t => HeadAt cl 5 (m.unit + 1) false t ∧ t.mm = s2.mm)) ∧
    (sBytes m.bytes ≤ 4096 * (m.unit + 1) → sendSignal cl k (if m.out = [] then m else m1) s2 = (s3, true) →
      Next (.send cl) s (fun t => HeadAt cl 5 (m.unit + 1) true t ∧ t.mm = s3.mm)) := by
  intro m1 s2
  obtain ⟨head, passes⟩ := send_passes ready on within line
  have notDone : m.done = false := ready.1.2.2.2.2.1
  obtain ⟨o, v, same⟩ : ∃ o v, (if m.out = [] then m else m1) = { m with out := o, outVa := v } := by
    split
    · exact ⟨m.out, m.outVa, rfl⟩
    · exact ⟨_, _, rfl⟩
  change (streamQueue s2 cl 5).head? = some (if m.out = [] then m else m1) at head
  change (∀ x, (streamQueue (sendNext cl k (if m.out = [] then m else m1) s2) cl 5).head? = some x → x.unit ≠ m.unit) →
    exec (.send cl) s = .next (sendNext cl k (if m.out = [] then m else m1) s2) at passes
  rw [same] at head passes ⊢
  refine ⟨fun more => ?_, fun last signal => ?_⟩
  · obtain ⟨head', mm⟩ := sendNext_more (k := k) (m := { m with out := o, outVa := v }) head more
    refine ⟨_, passes fun x hx => ?_, ⟨_, head', on, rfl, notDone⟩, mm⟩
    rw [head'] at hx
    cases hx
    exact Nat.succ_ne_self m.unit
  · obtain ⟨head', mm⟩ := sendNext_last (k := k) (m := { m with out := o, outVa := v }) head last signal
    refine ⟨_, passes fun x hx => ?_, ⟨_, head', on, rfl, rfl⟩, mm⟩
    rw [head'] at hx
    cases hx
    exact Nat.succ_ne_self m.unit

/-- R403: a scheduled SEND that matches no entry of its fret table ends the casting. -/
theorem send_unmatched {w off ta dev iwin ioff : Nat} {s1 : State} (heads : Heads cl 5 0x51 k m s) (on : m.started = true)
    (scheduled : mFret m ≠ 0xFFFFFFFF) (fresh : m.placed = 0) (found : translate (engAccess s cl 5 k) (sDst m.bytes) true s = (s1, .ok ta))
    (target : targetOf s1 ta = .win w off) (window : windowOf s1 w off = some (dev, iwin, ioff)) (none' : sendEntry s1 cl k dev m = none) :
    exec (.send cl) s = .next (failCasting k (protEnd 0x26 (agQueue cl 5) 0) s1) := by
  obtain ⟨head, active, run⟩ := send_goesOn heads on
  have stay := streamsStay_translate (engAccess s cl 5 k) (sDst m.bytes) true s
  rw [found] at stay
  have turn : sendTurn cl k m s = _ := sendTurn_unmatched scheduled fresh found target window none'
  have ends := runUnit_ends (n := 39) (turn := sendTurn cl k) head active fun x hx => .inl (by
    rw [turn] at hx
    exact head_failCasting (HeadSet.of_stay head stay).head hx)
  rw [run, ends, turn]

end

/-! ## Bad commands -/

/-- R204, R206: a command of these engines that fails its check ends the casting. -/
theorem transfer_fails {cl k sub : Nat} {m : SCmd} {s : State} :
    (Begins cl 4 0x40 k m s → gseCheck cl s m = some sub → exec (.gse cl) s = .next (failCasting k (protEnd sub (agQueue cl 4) 0) s)) ∧
    (Begins cl 5 0x50 k m s → reduceCheck cl s m = some sub → exec (.reduce cl) s = .next (failCasting k (protEnd sub (agQueue cl 5) 0) s)) ∧
    (Begins cl 5 0x51 k m s → sendCheck cl s m = some sub → exec (.send cl) s = .next (failCasting k (protEnd sub (agQueue cl 5) 0) s)) := by
  refine ⟨fun begins bad => ?_, fun begins bad => ?_, fun begins bad => ?_⟩
  · exact (whenOn_powered_next begins.1.1 _).trans (by rw [streamStep_fails begins bad])
  · exact (whenOn_powered_next begins.1.1 _).trans (by rw [streamStep_fails begins bad])
  · exact (whenOn_powered_next begins.1.1 _).trans (by rw [streamStep_fails begins bad])

/-! ## O45 -/

/-- Settles O45: a run of turns goes on while its turns move the head on within the unit, and ends with the unit (R205); each turn's outcome is
read off the engine's own step (R211, R213, R214, R403). -/
theorem transferEnginesCompute : Obligations.TransferEnginesCompute := by
  unfold Obligations.TransferEnginesCompute
  refine ⟨fun cl k m s ready => ?_, fun cl k m s begins ok start between flushed => reduce_scratch begins ok start between flushed,
    fun cl k m m0 s ready head => ?_, fun cl k m s heads ok between clean more waits below => reduce_waits heads ok between clean more waits below,
    fun cl k m m0 s s1 s2 ready head between => send_reads ready head between,
    fun cl k m s s1 s3 ready on within line => send_unit ready on within line,
    fun cl k w off ta m s s1 heads on scheduled fresh found target dev iwin ioff window none' =>
      send_unmatched heads on scheduled fresh found target window none',
    fun cl k sub m s => transfer_fails, rStep_sum, fun bs a b int _ _ op => rStep_extreme bs a b int op⟩
  · exact ⟨fun within mode row s1 read => gse_gathers ready within mode read, fun within mode row s1 read => gse_sums ready within mode read,
      fun within m0 m1 m2 s1 s2 head row out => gse_scatters ready within head row out,
      fun outside counts => gse_countsOutside ready outside counts, fun outside faults => gse_faultsOutside ready outside faults⟩
  · obtain ⟨heads, ok, between, -, clean, met⟩ := ready
    intro bs u n w da last p a xs d s2 s3 s4 s6 s7 m2 operands accum pages zs m1 s5 written flush
    obtain ⟨t, run, done, mem, sema⟩ := reduce_performs heads ok between clean met head xs d s2 s3 s4 s6 s7 m2 operands accum pages written flush
    refine ⟨t, run, done, ?_, fun i => (sema i).trans ?_⟩
    · obtain ⟨x, e⟩ := mem
      rw [SameMemory, e]
      exact ⟨rfl, rfl⟩
    · simp only [reduceSema, last, decide_eq_true_eq]
      rfl

end Sys2Proof.Machine
end
